-- ==== Sys2Proof/Word.lean ====
section
/-! DEFINITION. The word types of the KNW-N96 and the plain table type that holds sparse data. -/
namespace Sys2Proof

/-- One byte of memory, scratchpad, operand store, packet or image (R4). -/
abbrev Byte := BitVec 8
/-- A 16-bit code word (R231). -/
abbrev W16 := BitVec 16
/-- A 32-bit lane, packet word or descriptor word. -/
abbrev W32 := BitVec 32
/-- A sequencer register, timetable counter or register-file word (R160). -/
abbrev W64 := BitVec 64
/-- A cell register of four 32-bit lanes (R171, R173). -/
abbrev Vec := BitVec 128
/-- A 384-bit bundle (R234). -/
abbrev BundleBits := BitVec 384
/-- A 256-bit key, or the packed halves of one (R80). -/
abbrev Key := BitVec 256

/-- Sparse data by key: pairs with strictly rising keys. An unlisted key reads a default that the
reader names. -/
abbrev Tab (α : Type) := List (Nat × α)

end Sys2Proof
end

