-- ==== Sys2Proof/Machine/Bits.lean ====
section
/-! DEFINITION. Bit-field, sign-extension and byte-order helpers (R3, R4), and the table operations
over sorted key-value lists. -/
namespace Sys2Proof.Machine
open Sys2Proof

/-- The field of `len` bits of `w` that begins at bit `lo` (R3). -/
def bits {n : Nat} (w : BitVec n) (lo len : Nat) : BitVec len := w.extractLsb' lo len

/-- The same field as a number. -/
def bitsN {n : Nat} (w : BitVec n) (lo len : Nat) : Nat := (w.extractLsb' lo len).toNat

/-- One bit as a Bool. -/
def bitB {n : Nat} (w : BitVec n) (i : Nat) : Bool := w.getLsbD i

/-- The low `len` bits of a number from bit `lo`. -/
def natBits (x lo len : Nat) : Nat := (x >>> lo) % 2 ^ len

/-- `sext(v)` to 64 bits (chapter 12). -/
def sext64 {n : Nat} (v : BitVec n) : W64 := v.signExtend 64

/-- A word with bit `i` set to `b`. -/
def setBit {n : Nat} (w : BitVec n) (i : Nat) (b : Bool) : BitVec n :=
  if b then w ||| (1#n <<< i) else w &&& ~~~(1#n <<< i)

/-- Replace `len` bits of `w` from bit `lo` by `v`. -/
def setField {n : Nat} (w : BitVec n) (lo len : Nat) (v : Nat) : BitVec n :=
  let m := (BitVec.ofNat n (2 ^ len - 1)) <<< lo
  (w &&& ~~~m) ||| ((BitVec.ofNat n (v % 2 ^ len)) <<< lo)

/-- A list of Bools as a number, first element least significant. -/
def natOfBools : List Bool → Nat
  | [] => 0
  | b :: bs => (if b then 1 else 0) + 2 * natOfBools bs

/-- `n` bits built from a predicate on the bit number. -/
def ofBits (n : Nat) (f : Nat → Bool) : BitVec n :=
  BitVec.ofNat n (natOfBools ((List.range n).map f))

/-- Little-endian bytes to a number (R4). -/
def leNat : List Byte → Nat
  | [] => 0
  | b :: bs => b.toNat + 256 * leNat bs

/-- A number to `n` little-endian bytes (R4). -/
def leBytes : Nat → Nat → List Byte
  | 0, _ => []
  | n + 1, x => BitVec.ofNat 8 (x % 256) :: leBytes n (x / 256)

/-- Bit length of a number (0 for 0). -/
def bitLen (x : Nat) : Nat := if x = 0 then 0 else Nat.log2 x + 1

/-- Signed value of the low `w` bits of a number. -/
def signedOf (w x : Nat) : Int :=
  let y := x % 2 ^ w
  if y < 2 ^ (w - 1) then (y : Int) else (y : Int) - (2 ^ w : Nat)

/-- An integer wrapped to `w` bits. -/
def wrapTo (w : Nat) (x : Int) : Nat := (x % ((2 ^ w : Nat) : Int)).toNat

/-- Number of one bits below bit `n`. -/
def popCount (n : Nat) (x : Nat) : Nat := ((List.range n).filter (fun i => x.testBit i)).length

/-- A power of two. -/
def isPow2 (n : Nat) : Bool := n ≠ 0 && n &&& (n - 1) = 0

/-- Read a table, with the value that unlisted keys read as. -/
def tabGet {α : Type} (t : Tab α) (d : α) (k : Nat) : α :=
  match t with
  | [] => d
  | (j, v) :: r => if j = k then v else tabGet r d k

/-- Look a key up, absent keys giving none. -/
def tabFind {α : Type} (t : Tab α) (k : Nat) : Option α :=
  match t with
  | [] => none
  | (j, v) :: r => if j = k then some v else tabFind r k

/-- Write a key, keeping the keys rising. -/
def tabSet {α : Type} (t : Tab α) (k : Nat) (v : α) : Tab α :=
  match t with
  | [] => [(k, v)]
  | (j, u) :: r =>
    if k < j then (k, v) :: (j, u) :: r
    else if j = k then (k, v) :: r
    else (j, u) :: tabSet r k v

/-- Remove a key. -/
def tabErase {α : Type} (t : Tab α) (k : Nat) : Tab α :=
  t.filter (fun p => !(p.1 == k))

/-- Apply a function at a key whose unlisted value is `d`. -/
def tabMod {α : Type} (t : Tab α) (d : α) (k : Nat) (f : α → α) : Tab α :=
  tabSet t k (f (tabGet t d k))

/-- Write a key, removing it when the value is the one unlisted keys read as. -/
def tabPut {α : Type} [DecidableEq α] (t : Tab α) (d : α) (k : Nat) (v : α) : Tab α :=
  if v = d then tabErase t k else tabSet t k v

/-- Element `i` of a list, or a default. -/
def listGet {α : Type} (l : List α) (d : α) (i : Nat) : α := l.getD i d

/-- Insert in a list of numbers kept rising without repeats. -/
def setInsert (l : List Nat) (x : Nat) : List Nat :=
  match l with
  | [] => [x]
  | y :: r => if x < y then x :: y :: r else if x = y then y :: r else y :: setInsert r x

/-- Union of lists of numbers kept rising. -/
def setUnion (a b : List Nat) : List Nat := b.foldl setInsert a

/-- Insert before the first element that it does not exceed. -/
def insertBy {α : Type} (le : α → α → Bool) (x : α) : List α → List α
  | [] => [x]
  | y :: r => if le x y then x :: y :: r else y :: insertBy le x r

/-- Sort, keeping the order of equals. -/
def sortBy {α : Type} (le : α → α → Bool) (l : List α) : List α := l.foldr (insertBy le) []

/-- Iterate a function. -/
def iter {α : Type} (f : α → α) : Nat → α → α
  | 0, x => x
  | n + 1, x => iter f n (f x)

/-- Bytes as a number, most significant first. -/
def beNat (bs : List Byte) : Nat := leNat bs.reverse
/-- A number as bytes, most significant first. -/
def beBytes (n x : Nat) : List Byte := (leBytes n x).reverse

/-- One byte into a reflected 32-bit cyclic redundancy code, least significant bit first. -/
def crcStep (poly c : W32) (b : Byte) : W32 :=
  iter (fun (x : W32) => if x.getLsbD 0 then (x >>> 1) ^^^ poly else x >>> 1) 8 (c ^^^ b.setWidth 32)

/-- Bytes into a CRC-32C (R49, R163). -/
def crcBytes (c : W32) (l : List Byte) : W32 := l.foldl (crcStep 0x82F63B78) c

end Sys2Proof.Machine
end

