-- ==== Sys2Proof/Machine/Flags.lean ====
section
/-! DEFINITION. The sticky exception flags FSTK of a cell (R172, R265). -/
namespace Sys2Proof.Machine
open Sys2Proof

/-- The five exception conditions, in the bit order of R172 and R265. -/
abbrev Flags := BitVec 5

/-- No condition. -/
def flNone : Flags := 0#5
/-- Bit 0: invalid (R265). -/
def flInvalid : Flags := 1#5
/-- Bit 1: divide by zero (R265). -/
def flDivZero : Flags := 2#5
/-- Bit 2: overflow (R264, R267). -/
def flOverflow : Flags := 4#5
/-- Bit 3: underflow (R263). -/
def flUnderflow : Flags := 8#5
/-- Bit 4: inexact (R265). -/
def flInexact : Flags := 16#5

/-- A condition that is recorded when `b` holds. -/
def flIf (b : Bool) (f : Flags) : Flags := if b then f else flNone

end Sys2Proof.Machine
end

