-- ==== Sys2Proof/Syntax.lean ====
section
/-! DEFINITION. The syntax of everything the machine can be asked to do: one constructor for every
row of the opcode table. -/
namespace Sys2Proof

/-- A mask family: the Y slot and ym0-ym3 (rows), or the X slot and xm0-xm3 (columns) (R151). -/
inductive Axis where
  | y | x
  deriving DecidableEq, Repr

/-- A loader with a nest (R186): north, west or drain. -/
inductive Loader where
  | n | w | d
  deriving DecidableEq, Repr

/-- The two loaders that feed ports (R361). -/
inductive PortLoader where
  | n | w
  deriving DecidableEq, Repr

/-- The slots of a bundle (R234); the codes are those of R226. -/
inductive Slot where
  | s | c | y | x | n | w | d | t | a
  deriving DecidableEq, Repr

/-- The condition of BRC (R239, R285). -/
inductive Cond where
  | eq | ne | lt | ge | ltn | gen
  deriving DecidableEq, Repr

/-- The size of a sequencer access: 1, 2, 4 or 8 bytes (R293). -/
inductive MemSize where
  | b | h | w | d
  deriving DecidableEq, Repr

/-- The count of LOOP: a register (XE = 0) or 24 bits of E (XE = 1) (R286). -/
inductive LoopCount where
  | reg (a : BitVec 5)
  | imm (n : BitVec 24)
  deriving DecidableEq, Repr

/-- The immediate of ADDI, ANDI, ORI, XORI and LI: IMM alone (XE = 0), or E[31:0] above IMM
(XE = 1) (R239). -/
inductive SImm where
  | short (v : BitVec 32)
  | long (v : BitVec 64)
  deriving DecidableEq, Repr

/-- The expected TT of TT.CHK: a register (XE = 0) or the 40 bits of E (XE = 1) (R315). -/
inductive TtExpect where
  | reg (a : BitVec 5)
  | imm (e : BitVec 40)
  deriving DecidableEq, Repr

/-- The value of a loader SET: [28:0] (XE = 0) or E[31:0] (XE = 1) (R365). -/
inductive LImm where
  | short (v : BitVec 29)
  | long (v : BitVec 32)
  deriving DecidableEq, Repr

/-- Where STEP and AUTO deliver (R364): the port, or quarter q of the first or second edge port
latch. -/
inductive LatchDst where
  | port
  | first (q : BitVec 2)
  | second (q : BitVec 2)
  deriving DecidableEq, Repr

/-- The type of a D-slot ACC or RED (R245). -/
inductive AccTy where
  | i32 | n32 | f32
  deriving DecidableEq, Repr

/-- The operator of a D-slot RED (R245). -/
inductive RedOp where
  | add | min | max | or | and | minloc | maxloc
  deriving DecidableEq, Repr

/-- The rounding modes (R240, R262). -/
inductive Rm where
  | rne | rtz | rdn | rup | rna | sr
  deriving DecidableEq, Repr

/-- The count of H.EXPECT: a register ([26] = 1) or [25:0] (R377). -/
inductive ExpectCount where
  | reg (a : BitVec 5)
  | imm (n : BitVec 26)
  deriving DecidableEq, Repr

/-- The fields of a C slot (R240), with the E slot it may name (R236). `e` is zero when no used
source names code 32. -/
structure CSlot where
  typ  : BitVec 3
  ys   : BitVec 2
  xs   : BitVec 2
  grd  : BitVec 3
  dst  : BitVec 6
  sa   : BitVec 6
  sb   : BitVec 6
  sc   : BitVec 6
  hold : BitVec 3
  uns  : Bool
  rm   : BitVec 3
  sat  : Bool
  spec : BitVec 14
  e    : BitVec 40
  deriving DecidableEq, Repr

/-- The C-slot operations of R241, one name each. -/
inductive COp where
  | nop | clr | mov | movi | add | sub | mul | fma | fms | neg | abs | min | max
  | and | or | xor | not | shl | shr | sar | rot
  | cmpEq | cmpNe | cmpLt | cmpLe | sel | setg | cvt | pack | unpack | req
  | rcp | rsq | exp2 | log2 | hsum | hmax | hmin
  | mmaE4m3 | mmaE5m2 | mmaE2m1 | mmaBf16 | mmaF16 | mmaI8 | mmaI4 | mmaT
  | osw | osr | drn | flg | hash32 | tidx
  deriving DecidableEq, Repr

/-- A copy in progress: channel `ch` of a physical array (R196), or copy `i` of a queue (R107). -/
inductive CopyId where
  | channel (a : BitVec 7) (ch : BitVec 4)
  | packet (b q : BitVec 4) (i : BitVec 3)
  deriving DecidableEq, Repr


/-- Every row of the opcode table: the events of the part, the command packets and the slot
instructions. -/
inductive Instr where
  -- Events that carry data. Where an event happens (bulkhead, partition, link, function, array, ...)
  -- is no operand: it is the place the machine's `cur` names (log entry 3).
  | bhctlChunk (c : BitVec 5)
  | powerupSelfTestDone (pass : Bool)
  | partitionCreate (size : BitVec 3)
  | wincfgWrite (w : BitVec 6) (v : BitVec 32)
  | attestationReportRequest (pkg : Bool) (nonce : BitVec 256)
  | portcfgModeChange (mode : Bool)
  | vfmapWrite (v : BitVec 9) (w : BitVec 32)
  | fnaddrWrite (f : BitVec 10) (word : BitVec 4) (v : BitVec 32)
  | portpartWrite (v : BitVec 32)
  | pfcFrameReceive (enable : BitVec 8) (quanta : BitVec 128)
  | pfcPauseExpiry (prio : BitVec 3)
  | ptpMessageReceive (domain : BitVec 8)
  | timestepWrite (v : BitVec 32)
  | linkTrainingComplete (fabid : BitVec 16) (rtt : BitVec 8)
  | keyLoad (slot : BitVec 8)
  | keyRevoke (slot : BitVec 8)
  | revocationApplied (slot : BitVec 8)
  | rekeyStart (region : BitVec 14) (newSlot : BitVec 8)
  | rekeyChunk (chunk : BitVec 12)
  | keyctlBadCommand (cmd : BitVec 3)
  | granuleAssign (gran : BitVec 14) (domain : BitVec 12)
  | granuleFree (gran : BitVec 14)
  | copyLineWrite (id : CopyId)
  | copyComplete (id : CopyId)
  | collectiveComplete (idx : BitVec 16)
  | regionDescriptorWrite (num : BitVec 14)
  | regionDescriptorClear (num : BitVec 14)
  | regionDescriptorConvert (num : BitVec 14)
  | rdbaseWrite (v : BitVec 32)
  | registerWrite (off v : BitVec 32)
  -- Command packets (R97, R98); `pr` is the P flag
  | pktNop (pr : Bool) (len : BitVec 14)
  | pktWrite (pr : Bool) (addr : BitVec 64) (data : List (BitVec 32))
  | pktCopy (pr sem : Bool) (src dst : BitVec 64) (rowBytes : BitVec 24) (rows : BitVec 16)
      (rc : BitVec 8) (spitch dpitch : BitVec 32) (name : BitVec 16) (add : BitVec 64)
  | pktLaunch (pr sem : Bool) (wcb : BitVec 64) (name : BitVec 16) (add : BitVec 64)
  | pktTlaunch (pr sem : Bool) (wcb tick : BitVec 64) (name : BitVec 16) (add : BitVec 64)
  | pktIb (pr host : Bool) (addr : BitVec 64) (bytes rkey : BitVec 32)
  | pktPred (pr : Bool) (cc : BitVec 3) (signed : Bool) (addr value mask : BitVec 64)
  | pktPend (pr : Bool)
  | pktLoop (pr : Bool) (count span : BitVec 32) (idx : BitVec 64)
  | pktSemsigAdd (pr w : Bool) (name : BitVec 16) (v : BitVec 64)
  | pktSemsigSet (pr w : Bool) (name : BitVec 16) (v : BitVec 64)
  | pktSemwait (pr : Bool) (name : BitVec 16) (v : BitVec 64)
  | pktFfence (pr : Bool)
  | pktNotify (pr w : Bool) (qp : BitVec 4) (cookie : BitVec 64)
  | pktStamp (pr w : Bool) (addr : BitVec 64)
  | pktXfer (pr w : Bool) (region : BitVec 14) (owner : BitVec 8)
  | pktColl (pr sem : Bool) (desc : BitVec 64) (name : BitVec 16) (add : BitVec 64)
  | pktMpass (pr sem : Bool) (wcb desc : BitVec 64) (name : BitVec 16) (add : BitVec 64)
  | pktQuiesce (pr : Bool)
  | pktHalt (pr notify : Bool)
  -- S slot (R239)
  | sBr (target : BitVec 17)
  | sBrc (cc : Cond) (a b : BitVec 5) (target : BitVec 17)
  | sBrf (t : Bool) (target : BitVec 17)
  | sCall (target : BitVec 17)
  | sJmpr (a : BitVec 5)
  | sLoop (count : LoopCount) (sw : Bool) (last : BitVec 17)
  | sLidx (d : BitVec 5) (n : BitVec 3)
  | sTrapi (imm : BitVec 32)
  | sAdd (d a b : BitVec 5)
  | sSub (d a b : BitVec 5)
  | sAnd (d a b : BitVec 5)
  | sOr (d a b : BitVec 5)
  | sXor (d a b : BitVec 5)
  | sShl (d a b : BitVec 5)
  | sShr (d a b : BitVec 5)
  | sSar (d a b : BitVec 5)
  | sMul (d a b : BitVec 5)
  | sMulh (d a b : BitVec 5)
  | sMulhn (d a b : BitVec 5)
  | sDivs (d a b : BitVec 5)
  | sDivn (d a b : BitVec 5)
  | sRems (d a b : BitVec 5)
  | sRemn (d a b : BitVec 5)
  | sSel (d a b c : BitVec 5)
  | sMin (d a b : BitVec 5)
  | sMax (d a b : BitVec 5)
  | sMinn (d a b : BitVec 5)
  | sMaxn (d a b : BitVec 5)
  | sSlt (d a b : BitVec 5)
  | sSltn (d a b : BitVec 5)
  | sClz (d a : BitVec 5)
  | sPopc (d a : BitVec 5)
  | sAddi (d a : BitVec 5) (imm : SImm)
  | sAndi (d a : BitVec 5) (imm : SImm)
  | sOri (d a : BitVec 5) (imm : SImm)
  | sXori (d a : BitVec 5) (imm : SImm)
  | sLi (d : BitVec 5) (imm : SImm)
  | sTidx (d a : BitVec 5) (sh : BitVec 4) (k : BitVec 3)
  | sLd (size : MemSize) (zx : Bool) (d a : BitVec 5) (off : BitVec 32)
  | sSt (size : MemSize) (b a : BitVec 5) (off : BitVec 32)
  | sLdDm (size : MemSize) (zx : Bool) (d a : BitVec 5) (off : BitVec 32)
  | sStDm (size : MemSize) (b a : BitVec 5) (off : BitVec 32)
  | sLdx (size : MemSize) (zx : Bool) (d a : BitVec 5) (off : BitVec 32)
  | sStx (size : MemSize) (b a : BitVec 5) (off : BitVec 32)
  | sLdSc (w64 : Bool) (d a : BitVec 5)
  | sStSc (w64 : Bool) (b a : BitVec 5)
  | sAmoAdd (w64 : Bool) (d b a : BitVec 5)
  | sAmoMin (w64 uns : Bool) (d b a : BitVec 5)
  | sAmoMax (w64 uns : Bool) (d b a : BitVec 5)
  | sAmoAnd (w64 : Bool) (d b a : BitVec 5)
  | sAmoOr (w64 : Bool) (d b a : BitVec 5)
  | sAmoSwap (w64 : Bool) (d b a : BitVec 5)
  | sAmoCas (w64 : Bool) (d b c a : BitVec 5)
  | sStA (b : BitVec 5) (ap : BitVec 16)
  | sXfer (region : BitVec 14) (owner : BitVec 8)
  | sRel (region : BitVec 14)
  | sFenceX (pa pb : BitVec 5)
  | sSemAdd (name : BitVec 16) (b : BitVec 5)
  | sSemSet (name : BitVec 16) (b : BitVec 5)
  | sSemWait (name : BitVec 16) (b : BitVec 5)
  | sSemRd (d : BitVec 5) (name : BitVec 16)
  | sLsend (link : BitVec 4) (q : BitVec 2) (a : BitVec 5)
  | sLrecv (link : BitVec 4) (q : BitVec 2) (a : BitVec 5)
  | sMovYm (m : BitVec 2) (a : BitVec 5)
  | sMovXm (m : BitVec 2) (a : BitVec 5)
  | sShpW (sh : BitVec 4) (f : BitVec 3) (a : BitVec 5)
  | sNestW (l : Loader) (f : BitVec 4) (a : BitVec 5)
  | sCtLd (ct : BitVec 6) (a : BitVec 5)
  | sEdgeRd (d : BitVec 5) (er : BitVec 2)
  | sSysr (d : BitVec 5) (num : BitVec 16)
  | sSysw (num : BitVec 16) (a : BitVec 5)
  | sTtChk (tt : TtExpect) (crc : BitVec 32)
  | sTtRd (d : BitVec 5)
  | sSrSeed (a : BitVec 5) (b : Option (BitVec 5))
  | sMpass (a : BitVec 5)
  | sCollGo (a : BitVec 5) (sem : Option (BitVec 5 × BitVec 16))
  -- C slot (R241)
  | cNop (f : CSlot) | cClr (f : CSlot) | cMov (f : CSlot) | cMovi (f : CSlot)
  | cAdd (f : CSlot) | cSub (f : CSlot) | cMul (f : CSlot) | cFma (f : CSlot)
  | cFms (f : CSlot) | cNeg (f : CSlot) | cAbs (f : CSlot) | cMin (f : CSlot)
  | cMax (f : CSlot) | cAnd (f : CSlot) | cOr (f : CSlot) | cXor (f : CSlot)
  | cNot (f : CSlot) | cShl (f : CSlot) | cShr (f : CSlot) | cSar (f : CSlot)
  | cRot (f : CSlot) | cCmpEq (f : CSlot) | cCmpNe (f : CSlot) | cCmpLt (f : CSlot)
  | cCmpLe (f : CSlot) | cSel (f : CSlot) | cSetg (f : CSlot) | cCvt (f : CSlot)
  | cPack (f : CSlot) | cUnpack (f : CSlot) | cReq (f : CSlot) | cRcp (f : CSlot)
  | cRsq (f : CSlot) | cExp2 (f : CSlot) | cLog2 (f : CSlot) | cHsum (f : CSlot)
  | cHmax (f : CSlot) | cHmin (f : CSlot) | cMmaE4m3 (f : CSlot) | cMmaE5m2 (f : CSlot)
  | cMmaE2m1 (f : CSlot) | cMmaBf16 (f : CSlot) | cMmaF16 (f : CSlot) | cMmaI8 (f : CSlot)
  | cMmaI4 (f : CSlot) | cMmaT (f : CSlot) | cOsw (f : CSlot) | cOsr (f : CSlot)
  | cDrn (f : CSlot) | cFlg (f : CSlot) | cHash32 (f : CSlot) | cTidx (f : CSlot)
  -- Y and X slots (R243)
  | yxNop (ax : Axis)
  | yxSet (ax : Axis) (m m2 : BitVec 2)
  | yxOne (ax : Axis) (m : BitVec 2)
  | yxNone (ax : Axis) (m : BitVec 2)
  | yxShl (ax : Axis) (m : BitVec 2) (n : BitVec 6)
  | yxShr (ax : Axis) (m : BitVec 2) (n : BitVec 6)
  | yxRotl (ax : Axis) (m : BitVec 2) (n : BitVec 6)
  | yxRotr (ax : Axis) (m : BitVec 2) (n : BitVec 6)
  | yxAnd (ax : Axis) (m m2 : BitVec 2)
  | yxOr (ax : Axis) (m m2 : BitVec 2)
  | yxRange (ax : Axis) (m : BitVec 2) (lo : BitVec 6) (len : BitVec 4)
  | yxStride (ax : Axis) (m : BitVec 2) (ph : BitVec 6) (st : BitVec 4)
  | yxFlag (ax : Axis) (m : BitVec 2)
  | yxFlagN (ax : Axis) (m : BitVec 2)
  -- N and W slots (R244)
  | nwNop (l : PortLoader)
  | nwGo (l : PortLoader)
  | nwStep (l : PortLoader) (dst : LatchDst)
  | nwAuto (l : PortLoader) (dst : LatchDst) (n : BitVec 24)
  | nwHold (l : PortLoader)
  | nwZero (l : PortLoader)
  | nwBcast (l : PortLoader) (j : BitVec 6)
  | nwSet (l : PortLoader) (f : BitVec 4) (v : LImm)
  -- D slot (R245)
  | dAcc (ty : AccTy) (rm : Rm)
  | dRed (op : RedOp) (ty : AccTy) (er : BitVec 2)
  | dSet (f : BitVec 4) (v : LImm)
  -- T slot (R246)
  | tTin (i : BitVec 6)
  | tTinSp (i : BitVec 6) (addr : BitVec 22)
  | tTout (j : BitVec 6)
  -- A slot (R247)
  | aLand (slot sa sd : BitVec 5) (lines : BitVec 6) (d : BitVec 13)
  | aHExpect (h : BitVec 7) (n : ExpectCount)
  | aHWait (h : BitVec 7) (p : Bool)
  | aHDrain (h : BitVec 7)
  | aHFree (h : BitVec 7)
  | aOsClaim (h : BitVec 7) (first : BitVec 6) (count : BitVec 7)
  | aOsSeal (h : BitVec 7)
  | aOsRelease (h : BitVec 7)
  | aPfc (sa : BitVec 5) (rc : BitVec 8) (lines : BitVec 6)
  -- Reserved encodings (R98, R231, R238)
  | reservedPacketOpcode (pr : Bool) (op : BitVec 8)
  | reservedCodeWord (w : BitVec 16)
  | reservedSlotOpcode (slot : Slot)
  -- Slot operations without operands
  | sNop | sRet | sLoopbrk | sHalt | wGather | dNop | dGo | dSt | dSeg | tNop | tTclr | aNop
  -- Events that carry nothing but the place where they happen
  | bhctlPwrSet | bhctlPwrClear | scrubChunkComplete | partitionReset | partitionDissolve
  | generationAcknowledge | bcpEscalationReset | resetSequenceComplete | resetSequenceTimeout
  | powerLimitCycleRemoval | inputPowerLoss | packageTrip | bringUp | portFrameReceive
  | portcfgEnSet | portcfgEnClear | portUp | roceSendReceive | roceRdmaWrite | roceRdmaRead
  | roceAtomicRequest | roceResponseReceive | qpRetryTimeout | cnpReceive | cnpRateIncrease
  | qpConnect | qpReset | qpFlushComplete | transmitArbitrationRound | linkTrain | linkDisable
  | linkTrainingTimeout | linkFlitSend | streamDataFlitReceive | collectiveDataFlitReceive
  | collectiveControlFlitReceive | managementFlitReceive | idleFlitReceive
  | retryRequestFlitReceive | linkAckTimeout | linkRxSilenceTimeout | lnkstatRetryClear
  | errqpDropClear | routerArbitrationRound | rd64 | wr64 | rmw | stackReplyReceive | l2Read
  | l2Write | windowRequest | rekeyChunkComplete | rekeyComplete | errorRecordDeliver
  | checkpointStart | checkpointAbort | checkpointRecordSend | checkpointEnd | qmapHalt
  | streamFetchComplete | queueWaitSatisfied | notificationSend | xferPacketComplete
  | semaphoreRemoteArrival | nodePlacement | nodeStart | scheduleTableEnable
  | scheduleEntryRead | startTickReached | arrayTickStart | budgetRefill | budgetExhausted
  | quantumExpiry | preemptionRequest | switchableBoundaryReached | nodeSaveStart
  | nodeSaveComplete | watchdogExpiry | requeueComplete | verdictRead | nodeDone
  | asynchronousTrap | haltComplete | landingLineArrival | landingWrite | pendingValueWrite
  | semaphoreWaitSatisfied | egressLineDrain | regionWalkComplete | scOperationPerform
  | flitCrcFailure | regionCacheInvalidation
  deriving DecidableEq, Repr

end Sys2Proof
end

