-- ==== Sys2Proof/Machine/Arith.lean ====
section
/-! DEFINITION. Number formats and arithmetic (R255 to R279): exact values, the one rounding, the
conversions and the special functions. -/
namespace Sys2Proof.Machine
open Sys2Proof

/-- The floating-point element formats of R255 and the scale format of R258. -/
inductive FFmt where
  | f32 | bf16 | f16 | e4m3 | e5m2 | e2m1 | e8m0
  deriving DecidableEq, Repr

/-- Width in bits (R255). -/
def ffWidth : FFmt → Nat
  | .f32 => 32 | .bf16 => 16 | .f16 => 16 | .e4m3 => 8 | .e5m2 => 8 | .e2m1 => 4 | .e8m0 => 8

/-- Mantissa width (R255). -/
def ffMan : FFmt → Nat
  | .f32 => 23 | .bf16 => 7 | .f16 => 10 | .e4m3 => 3 | .e5m2 => 2 | .e2m1 => 1 | .e8m0 => 0

/-- Exponent width (R255). -/
def ffExp : FFmt → Nat
  | .f32 => 8 | .bf16 => 8 | .f16 => 5 | .e4m3 => 4 | .e5m2 => 5 | .e2m1 => 2 | .e8m0 => 8

/-- Exponent bias (R255). -/
def ffBias : FFmt → Nat
  | .f32 => 127 | .bf16 => 127 | .f16 => 15 | .e4m3 => 7 | .e5m2 => 15 | .e2m1 => 1 | .e8m0 => 127

/-- The largest finite encoding without its sign (R255). -/
def ffMaxFinite : FFmt → Nat
  | .f32 => 0x7F7FFFFF | .bf16 => 0x7F7F | .f16 => 0x7BFF | .e4m3 => 0x7E | .e5m2 => 0x7B
  | .e2m1 => 0x7 | .e8m0 => 0xFE

/-- The infinity encoding without its sign, where there is one (R255). -/
def ffInf : FFmt → Option Nat
  | .f32 => some 0x7F800000 | .bf16 => some 0x7F80 | .f16 => some 0x7C00 | .e5m2 => some 0x7C
  | _ => none

/-- The canonical NaN (R260); e2m1 has none and its NaN conversions give +0 (R264). -/
def ffNan : FFmt → Nat
  | .f32 => 0x7FC00000 | .bf16 => 0x7FC0 | .f16 => 0x7E00 | .e5m2 => 0x7E | .e4m3 => 0x7F
  | .e2m1 => 0 | .e8m0 => 0xFF

/-- An exact value: a NaN (signalling or quiet), an infinity, or (-1)^neg * (mag + s) * 2^exp, where
s is 0, or some amount strictly between 0 and 1 when `sticky` holds. -/
inductive Val where
  | nan (sig : Bool)
  | inf (neg : Bool)
  | num (neg : Bool) (mag : Nat) (exp : Int) (sticky : Bool)
  deriving DecidableEq, Repr

/-- Exact zero of a sign. -/
def valZero (neg : Bool) : Val := .num neg 0 0 false

/-- An exact integer. -/
def valInt (x : Int) : Val := .num (x < 0) x.natAbs 0 false

/-- The value of an encoding (R255, R256, R258, R260). -/
def valOf (f : FFmt) (x : Nat) : Val :=
  match f with
  | .e8m0 => if x % 256 = 255 then .nan false else .num false 1 ((x % 256 : Nat) - 127) false
  | .e4m3 =>
    let m := x % 8
    let e := x / 8 % 16
    let s := x / 128 % 2 = 1
    if e = 15 ∧ m = 7 then .nan false
    else if e = 0 then .num s m (-9) false
    else .num s (8 + m) ((e : Int) - 10) false
  | _ =>
    let mw := ffMan f
    let ew := ffExp f
    let m := x % 2 ^ mw
    let e := x / 2 ^ mw % 2 ^ ew
    let s := x / 2 ^ (mw + ew) % 2 = 1
    let lo : Int := 1 - (ffBias f : Int) - (mw : Int)
    if e = 2 ^ ew - 1 ∧ f ≠ .e2m1 then
      if m = 0 then .inf s else .nan (m / 2 ^ (mw - 1) = 0)
    else if e = 0 then .num s m lo false
    else .num s (2 ^ mw + m) (lo + e - 1) false

/-- Is the value a signalling NaN? (R260) -/
def valSig : Val → Bool
  | .nan s => s
  | _ => false

/-- Negate (NaNs unchanged). -/
def valNeg : Val → Val
  | .nan s => .nan s
  | .inf n => .inf !n
  | .num n m e st => .num (!n) m e st

/-- Is the value a NaN? -/
def valIsNan : Val → Bool
  | .nan _ => true
  | _ => false

/-- Is it a zero? -/
def valIsZero : Val → Bool
  | .num _ 0 _ _ => true
  | _ => false

/-- The sign of a value that is not a NaN. -/
def valSign : Val → Bool
  | .nan _ => false
  | .inf n => n
  | .num n _ _ _ => n

/-- Exact product; the flag is the invalid condition 0 × ∞ or a signalling NaN (R261, R265, R270). -/
def valMul (a b : Val) : Val × Bool :=
  match a, b with
  | .nan s, y => (.nan false, s || valSig y)
  | x, .nan s => (.nan false, s || valSig x)
  | .inf n, .inf k => (.inf (n != k), false)
  | .inf n, .num k m _ _ => if m = 0 then (.nan false, true) else (.inf (n != k), false)
  | .num k m _ _, .inf n => if m = 0 then (.nan false, true) else (.inf (n != k), false)
  | .num n m e _, .num k p q _ => (.num (n != k) (m * p) (e + q) false, false)

/-- The least exponent of a list of values. -/
def minExp : List Val → Option Int
  | [] => none
  | .num _ _ e _ :: r =>
    match minExp r with
    | none => some e
    | some f => some (if e ≤ f then e else f)
  | _ :: r => minExp r

/-- The finite terms added exactly in units of 2^e, for e no greater than any exponent. -/
def sumAt (e : Int) : List Val → Int
  | [] => 0
  | .num n m q _ :: r =>
    let x : Int := ((m <<< (q - e).toNat : Nat) : Int)
    (if n then -x else x) + sumAt e r
  | _ :: r => sumAt e r

/-- Every term is a negative zero (R261). -/
def allNegZero : List Val → Bool
  | [] => true
  | .num n m _ _ :: r => n && m == 0 && allNegZero r
  | _ :: _ => false

/-- The exact sum of a list of terms, and the invalid condition (R261, R265, R270). -/
def valSum (rm : Rm) (ts : List Val) : Val × Bool :=
  let sig := ts.any valSig
  let pinf := ts.any (fun t => decide (t = Val.inf false))
  let ninf := ts.any (fun t => decide (t = Val.inf true))
  if ts.any valIsNan then (.nan false, sig || (pinf && ninf))
  else
    if pinf && ninf then (.nan false, true)
    else if pinf then (.inf false, false)
    else if ninf then (.inf true, false)
    else
      let e := (minExp ts).getD 0
      let x := sumAt e ts
      if x = 0 then (valZero (allNegZero ts || decide (rm = .rdn)), false)
      else (.num (x < 0) x.natAbs e false, false)

/-- Round a magnitude (mag + sticky) * 2^e to a whole number of units 2^q (R262, R278). Answers the
count of units and whether it differs from the exact value. -/
def roundUnits (rm : Rm) (rb : Nat) (neg : Bool) (mag : Nat) (e q : Int) (sticky : Bool) :
    Nat × Bool :=
  -- the magnitude in units of 2^f with f at least 20 bits below q when a fraction remains
  let f : Int := if e ≤ q - 20 then e else q - 20
  let m := mag <<< (e - f).toNat
  let k := (q - f).toNat
  let lo := m >>> k
  let rem := m % 2 ^ k
  let inexact := decide (rem ≠ 0) || sticky
  let half := 2 ^ (k - 1)
  let up : Bool :=
    match rm with
    | .rne => decide (half < rem) || (decide (rem = half) && (sticky || lo % 2 == 1))
    | .rtz => false
    | .rdn => inexact && neg
    | .rup => inexact && !neg
    | .rna => decide (half ≤ rem)
    | .sr => decide (2 ^ 16 ≤ rem * 2 ^ 16 / 2 ^ k + rb)
  (if up then lo + 1 else lo, inexact)

/-- Deliver an overflow (R264). -/
def overflowBits (f : FFmt) (rm : Rm) (sat neg : Bool) : Nat :=
  let sgn := if neg then 2 ^ (ffWidth f - 1) else 0
  match f with
  | .e4m3 => if sat then 0x7E + sgn else 0x7F
  | .e2m1 => 0x7 + sgn
  | .e8m0 => 0xFF
  | _ =>
    let big := ffMaxFinite f + sgn
    let inf := (ffInf f).getD 0 + sgn
    if sat then big
    else
      match rm with
      | .rtz => big
      | .rdn => if neg then inf else big
      | .rup => if neg then big else inf
      | _ => inf

/-- Round an exact value once to a format: the encoding and the flags (R260 to R265, R278).
`rb` are the 16 random bits, used under SR alone. A NaN that arrives here sets invalid only as the
caller has recorded it, except in a conversion to e2m1 (R264). -/
def roundTo (f : FFmt) (rm : Rm) (sat : Bool) (rb : Nat) (v : Val) : Nat × Flags :=
  match v with
  | .nan _ => (ffNan f, flIf (decide (f = .e2m1)) flInvalid)
  | .inf n =>
    let sgn := if n then 2 ^ (ffWidth f - 1) else 0
    match f with
    | .e4m3 => (if sat then 0x7E + sgn else 0x7F, flInvalid)
    | .e2m1 => (0x7 + sgn, flInvalid)
    | .e8m0 => (0xFF, flInvalid)
    | _ => ((ffInf f).getD 0 + sgn, flNone)
  | .num n m e st =>
    let sgn := if n then 2 ^ (ffWidth f - 1) else 0
    if m = 0 ∧ st = false then (sgn, flNone)
    else
      let mw : Int := ffMan f
      let emin : Int := 1 - (ffBias f : Int)
      -- 2^top is the largest power of two not above the magnitude
      let top : Int := if m = 0 then emin - mw - 40 else e + (bitLen m : Int) - 1
      let qn := top - mw
      let (un, ixn) := roundUnits rm rb n m e qn st
      if top < emin then
        let qs := emin - mw
        let (us, ixs) := roundUnits rm rb n m e qs st
        -- tiny: the rounding with unbounded exponent stays below the smallest normal (R263)
        let tiny := decide (top < emin - 1) || decide (un < 2 ^ (ffMan f + 1))
        (us + sgn, flIf (tiny && ixs) flUnderflow ||| flIf ixs flInexact)
      else
        let (u, q) := if un = 2 ^ (ffMan f + 1) then (2 ^ ffMan f, qn + 1) else (un, qn)
        let be := q + mw + (ffBias f : Int)
        let enc := be.toNat * 2 ^ ffMan f + (u - 2 ^ ffMan f)
        if enc > ffMaxFinite f then (overflowBits f rm sat n, flOverflow ||| flInexact)
        else (enc + sgn, flIf ixn flInexact)

/-- The range of an integer type of width `w` (R259). -/
def intRange (uns : Bool) (w : Nat) : Int × Int :=
  if uns then (0, ((2 ^ w : Nat) : Int) - 1)
  else (-((2 ^ (w - 1) : Nat) : Int), ((2 ^ (w - 1) : Nat) : Int) - 1)

/-- The value of an integer element (R259). -/
def intOf (uns : Bool) (w x : Nat) : Int := if uns then ((x % 2 ^ w : Nat) : Int) else signedOf w x

/-- Deliver an exact integer: wrap, or clamp under SAT with overflow set (R267). -/
def deliverInt (uns : Bool) (w : Nat) (sat : Bool) (x : Int) : Nat × Flags :=
  if sat then
    let (lo, hi) := intRange uns w
    if x < lo then (wrapTo w lo, flOverflow)
    else if hi < x then (wrapTo w hi, flOverflow)
    else (wrapTo w x, flNone)
  else (wrapTo w x, flNone)

/-- Convert an exact value to an integer type: always saturating (R266). -/
def valToInt (uns : Bool) (w : Nat) (rm : Rm) (rb : Nat) (v : Val) : Nat × Flags :=
  let (lo, hi) := intRange uns w
  match v with
  | .nan _ => (0, flInvalid)
  | .inf n => (wrapTo w (if n then lo else hi), flInvalid)
  | .num n m e st =>
    let (u, ix) := roundUnits rm rb n m e 0 st
    let x : Int := if n then -(u : Int) else (u : Int)
    if x < lo then (wrapTo w lo, flInvalid)
    else if hi < x then (wrapTo w hi, flInvalid)
    else (wrapTo w x, flIf ix flInexact)

/-- Compare two finite values or infinities: less, equal, greater. -/
def valCmp (a b : Val) : Ordering :=
  match a, b with
  | .nan _, _ => .eq
  | _, .nan _ => .eq
  | .inf n, .inf k => if n = k then .eq else if n then .lt else .gt
  | .inf n, .num .. => if n then .lt else .gt
  | .num .., .inf k => if k then .gt else .lt
  | .num n m e s, .num k p q t =>
    let f := if e ≤ q then e else q
    compare (sumAt f [.num n m e s]) (sumAt f [.num k p q t])

/-- a < b for MIN and MAX, where -0 orders below +0 (R268). -/
def valBelow (a b : Val) : Bool :=
  if valIsZero a && valIsZero b then valSign a && !valSign b
  else decide (valCmp a b = .lt)

/-- minimumNumber or maximumNumber: true when the FIRST operand is chosen, for operands that are not
both NaN (R268). Equal operands choose the first. -/
def valPickFirst (mx : Bool) (a b : Val) : Bool :=
  if valIsNan b then true
  else if valIsNan a then false
  else if mx then !valBelow a b
  else !valBelow b a

/-- MIN or MAX of two encodings in a floating format, and the invalid condition (R268). -/
def floatMinMax (f : FFmt) (mx : Bool) (x y : Nat) : Nat × Bool :=
  let a := valOf f x
  let b := valOf f y
  let sig := valSig a || valSig b
  if valIsNan a && valIsNan b then (ffNan f, sig)
  else if valPickFirst mx a b then (x, sig) else (y, sig)

/-- The relation of a compare (R331). -/
inductive Rel where
  | eq | ne | lt | le
  deriving DecidableEq, Repr

/-- A quiet floating compare, and the invalid condition (R268). -/
def floatCmp (f : FFmt) (r : Rel) (x y : Nat) : Bool × Bool :=
  let a := valOf f x
  let b := valOf f y
  let sig := valSig a || valSig b
  if valIsNan a || valIsNan b then (decide (r = .ne), sig)
  else
    let o := valCmp a b
    (match r with
     | .eq => decide (o = .eq)
     | .ne => decide (o ≠ .eq)
     | .lt => decide (o = .lt)
     | .le => decide (o ≠ .gt), sig)

/-- The avalanche function of R277. -/
def mix32 (x : W32) : W32 :=
  let x := x ^^^ (x >>> 16)
  let x := x * 0x7FEB352D#32
  let x := x ^^^ (x >>> 15)
  let x := x * 0x846CA68B#32
  x ^^^ (x >>> 16)

/-- What a stochastic rounding is seeded with: seed, tile, row and the carried srcount (R276, R277). -/
structure SrCtx where
  seed : W32
  tile : W32
  row  : Nat
  n    : W32
  col  : Nat
  deriving DecidableEq, Repr

/-- The 16 random bits of element `i` of width `w` (R277). -/
def randomBits (x : SrCtx) (w i : Nat) : Nat :=
  let word := mix32 (x.seed ^^^ (x.tile * 0x9E3779B1#32)
    ^^^ (BitVec.ofNat 32 x.row * 0x85EBCA77#32) ^^^ x.n)
  let lane := i * w / 32
  let e := i % (32 / w)
  let r := word.rotateLeft ((x.col + 7 * e) % 32)
  (r ^^^ (BitVec.ofNat 32 lane * 0x2545F491#32)).toNat % 65536

/-- Largest r with r * r ≤ n, over `k + 1` candidate bits. -/
def isqrtBits (n : Nat) : Nat → Nat → Nat
  | 0, r => if (r + 1) * (r + 1) ≤ n then r + 1 else r
  | k + 1, r =>
    let c := r + 2 ^ (k + 1)
    isqrtBits n k (if c * c ≤ n then c else r)

/-- The reciprocal of a non-zero finite value (R275). -/
def valRcp (n : Bool) (m : Nat) (e : Int) : Val :=
  let k := bitLen m + 60
  .num n (2 ^ k / m) (-e - k) (decide (2 ^ k % m ≠ 0))

/-- The reciprocal square root of a positive finite value (R275). -/
def valRsq (m : Nat) (e : Int) : Val :=
  let (m, e) := if e % 2 = 0 then (m, e) else (2 * m, e - 1)
  let k := bitLen m + 60
  let r := isqrtBits (2 ^ (2 * k) / m) (k + 1) 0
  .num false r (-(e / 2) - k) (decide (r * r * m ≠ 2 ^ (2 * k)))

/-- ln 2 in units of 2^-320, truncated. -/
def ln2Scaled : Nat :=
  1480553391661173448385607439722553250922680800745876974795605978609098082859138712941075737848984

/-- The exponential series in units of 2^-320: term t of index i, and the sum so far. -/
def expSeries (y : Nat) : Nat → Nat → Nat → Nat → Nat
  | 0, _, _, acc => acc
  | f + 1, i, t, acc =>
    let t' := t * y / 2 ^ 320 / (i + 1)
    expSeries y f (i + 1) t' (acc + t')

/-- 2 to the power of a finite value (R275). A value of a non-integer power is irrational, so the
truncated series is marked sticky. -/
def valExp2 (n : Bool) (m : Nat) (e : Int) : Val :=
  if 0 ≤ e then
    let x : Nat := m <<< (min e.toNat 64)
    if n then .num false 1 (-(min x 4096 : Nat)) false else .num false 1 (min x 4096 : Nat) false
  else
    let k := (-e).toNat
    let ip := m >>> k
    let fp := m % 2 ^ k
    if fp = 0 then
      .num false 1 (if n then -(min ip 4096 : Nat) else (min ip 4096 : Nat)) false
    else
      let fi : Int := if n then -((min ip 4096 : Nat) : Int) - 1 else (min ip 4096 : Nat)
      let fr := if n then 2 ^ k - fp else fp
      let y := (fr <<< 160) * ln2Scaled / 2 ^ k / 2 ^ 160
      .num false (expSeries y 90 0 (2 ^ 320) (2 ^ 320)) (fi - 320) true

/-- Bits of the binary logarithm of m in [1, 2), by repeated squaring in units of 2^-400. -/
def log2Bits : Nat → Nat → Nat → Nat
  | 0, _, acc => acc
  | f + 1, m, acc =>
    let s := m * m / 2 ^ 400
    if 2 ^ 401 ≤ s then log2Bits f (s / 2) (2 * acc + 1) else log2Bits f s (2 * acc)

/-- The binary logarithm of a positive finite value (R275). -/
def valLog2 (m : Nat) (e : Int) : Val :=
  let b := bitLen m
  let x : Int := e + b - 1
  if m = 2 ^ (b - 1) then
    if x = 0 then valZero false else valInt x
  else
    let fr := log2Bits 128 (m <<< (401 - b)) 0
    let t : Int := x * ((2 ^ 128 : Nat) : Int) + fr
    if 0 ≤ t then .num false t.toNat (-128) true
    else .num true ((-t).toNat - 1) (-128) true

/-- The special functions of R275. -/
inductive Special where
  | rcp | rsq | exp2 | log2
  deriving DecidableEq, Repr

/-- The exact result of a special function on an f32 value, with its own flags (R275). -/
def specialVal (op : Special) (v : Val) : Val × Flags :=
  match v with
  | .nan s => (.nan false, flIf s flInvalid)
  | .inf n =>
    match op with
    | .rcp => (valZero n, flNone)
    | .rsq => if n then (.nan false, flInvalid) else (valZero false, flNone)
    | .exp2 => if n then (valZero false, flNone) else (.inf false, flNone)
    | .log2 => if n then (.nan false, flInvalid) else (.inf false, flNone)
  | .num n m e _ =>
    if m = 0 then
      match op with
      | .rcp => (.inf n, flDivZero)
      | .rsq => (.inf n, flDivZero)
      | .exp2 => (.num false 1 0 false, flNone)
      | .log2 => (.inf true, flDivZero)
    else
      match op with
      | .rcp => (valRcp n m e, flNone)
      | .rsq => if n then (.nan false, flInvalid) else (valRsq m e, flNone)
      | .exp2 => (valExp2 n m e, flNone)
      | .log2 => if n then (.nan false, flInvalid) else (valLog2 m e, flNone)

/-- One f32 special function with its flags (R275, R339). -/
def special32 (op : Special) (rm : Rm) (sat : Bool) (x : Nat) : Nat × Flags :=
  let (v, f) := specialVal op (valOf .f32 x)
  let (r, g) := roundTo .f32 rm sat 0 v
  (r, f ||| g)

/-- An element format: floating, or integer with its width and signedness (R334). -/
inductive EFmt where
  | flt (f : FFmt)
  | int (uns : Bool) (w : Nat)
  deriving DecidableEq, Repr

/-- Width of an element format. -/
def efWidth : EFmt → Nat
  | .flt f => ffWidth f
  | .int _ w => w

/-- The formats of the 4-bit code of R334; 15 is reserved. -/
def efOfCode : Nat → Option EFmt
  | 0 => some (.flt .f32) | 1 => some (.flt .bf16) | 2 => some (.flt .f16)
  | 3 => some (.int false 32) | 4 => some (.int false 16) | 5 => some (.int false 8)
  | 6 => some (.int false 4) | 7 => some (.int true 32) | 8 => some (.int true 16)
  | 9 => some (.int true 8) | 10 => some (.int true 4) | 11 => some (.flt .e4m3)
  | 12 => some (.flt .e5m2) | 13 => some (.flt .e2m1) | 14 => some (.flt .e8m0)
  | _ => none

/-- The element view of a C-slot TYPE (R173, R240). -/
def efOfType (typ : Nat) (uns : Bool) : EFmt :=
  match typ with
  | 0 => .flt .f32 | 1 => .flt .bf16 | 2 => .flt .f16
  | 3 => .int uns 32 | 4 => .int uns 16 | 5 => .int uns 8 | _ => .int uns 4

/-- Convert one element (R266, R335). A signalling NaN source sets invalid (R265). -/
def convertElem (src dst : EFmt) (rm : Rm) (sat : Bool) (rb x : Nat) : Nat × Flags :=
  match src, dst with
  | .flt f, .flt g =>
    let v := valOf f x
    let (r, fl) := roundTo g rm sat rb v
    (r, flIf (valSig v) flInvalid ||| fl)
  | .flt f, .int u w => valToInt u w rm rb (valOf f x)
  | .int u w, .flt g => roundTo g rm sat rb (valInt (intOf u w x))
  | .int u w, .int u' w' => deliverInt u' w' sat (intOf u w x)

/-- The identity of an operator for one element (R153, R269): add, replace, or, segadd give 0. -/
def minIdentity : EFmt → Nat
  | .flt f => (ffInf f).getD 0
  | .int true w => 2 ^ w - 1
  | .int false w => 2 ^ (w - 1) - 1

/-- The max identity of R269. -/
def maxIdentity : EFmt → Nat
  | .flt f => (ffInf f).getD 0 + 2 ^ (ffWidth f - 1)
  | .int true _ => 0
  | .int false w => 2 ^ (w - 1)

/-- The requantisation of one lane (R279): the result and whether it was clamped. -/
def requant (uns : Bool) (w : Nat) (acc mul : Int) (s : Nat) (zp : Int) : Nat × Bool :=
  let p := acc * mul
  let y : Int := if s = 0 then p else (p + ((2 ^ (s - 1) : Nat) : Int)) / ((2 ^ s : Nat) : Int)
  let z := y + zp
  let (lo, hi) := intRange uns w
  if z < lo then (wrapTo w lo, true)
  else if hi < z then (wrapTo w hi, true)
  else (wrapTo w z, false)

/-- The rounding mode of an RM code 0 to 5 (R240); the decoder refuses 6 and 7. -/
def rmOfCode (x : Nat) : Rm :=
  match x with
  | 0 => .rne | 1 => .rtz | 2 => .rdn | 3 => .rup | 4 => .rna | _ => .sr

/-- An f32 addition rounded once (R191, R273, R370). -/
def addF32 (rm : Rm) (sat : Bool) (rb x y : Nat) : Nat × Flags :=
  let (v, bad) := valSum rm [valOf .f32 x, valOf .f32 y]
  let (r, f) := roundTo .f32 rm sat rb v
  (r, flIf bad flInvalid ||| f)

/-- The residue modulo 7 of an exact integer (R228). -/
def residue7 (x : Int) : Nat := (x % 7).toNat

end Sys2Proof.Machine
end

