-- ==== Sys2Proof/Machine/Legal.lean ====
section
/-! DEFINITION. What a C slot may hold (R236, R240 to R242, R319, R335 to R337, R344, R348), and the
C-slot constructors by operation. -/
namespace Sys2Proof.Machine
open Sys2Proof

/-- The C-slot opcode (R241). -/
def cCode : COp → BitVec 8
  | .nop => 0x00 | .clr => 0x01 | .mov => 0x02 | .movi => 0x03
  | .add => 0x10 | .sub => 0x11 | .mul => 0x12 | .fma => 0x13 | .fms => 0x14
  | .neg => 0x15 | .abs => 0x16 | .min => 0x17 | .max => 0x18
  | .and => 0x20 | .or => 0x21 | .xor => 0x22 | .not => 0x23
  | .shl => 0x24 | .shr => 0x25 | .sar => 0x26 | .rot => 0x27
  | .cmpEq => 0x30 | .cmpNe => 0x31 | .cmpLt => 0x32 | .cmpLe => 0x33
  | .sel => 0x34 | .setg => 0x35
  | .cvt => 0x40 | .pack => 0x41 | .unpack => 0x42 | .req => 0x43
  | .rcp => 0x50 | .rsq => 0x51 | .exp2 => 0x52 | .log2 => 0x53
  | .hsum => 0x54 | .hmax => 0x55 | .hmin => 0x56
  | .mmaE4m3 => 0x60 | .mmaE5m2 => 0x61 | .mmaE2m1 => 0x62 | .mmaBf16 => 0x63
  | .mmaF16 => 0x64 | .mmaI8 => 0x65 | .mmaI4 => 0x66 | .mmaT => 0x67
  | .osw => 0x70 | .osr => 0x71 | .drn => 0x72 | .flg => 0x73 | .hash32 => 0x74 | .tidx => 0x75

/-- Every C-slot operation, in opcode order. -/
def cOps : List COp :=
  [.nop, .clr, .mov, .movi, .add, .sub, .mul, .fma, .fms, .neg, .abs, .min, .max,
   .and, .or, .xor, .not, .shl, .shr, .sar, .rot, .cmpEq, .cmpNe, .cmpLt, .cmpLe, .sel, .setg,
   .cvt, .pack, .unpack, .req, .rcp, .rsq, .exp2, .log2, .hsum, .hmax, .hmin,
   .mmaE4m3, .mmaE5m2, .mmaE2m1, .mmaBf16, .mmaF16, .mmaI8, .mmaI4, .mmaT,
   .osw, .osr, .drn, .flg, .hash32, .tidx]

/-- The operation of an opcode; none where it is reserved (R241). -/
def cOfCode (c : BitVec 8) : Option COp := cOps.find? (fun o => cCode o == c)

/-- The constructor of an operation. -/
def cInstr (o : COp) (f : CSlot) : Instr :=
  match o with
  | .nop => .cNop f | .clr => .cClr f | .mov => .cMov f | .movi => .cMovi f
  | .add => .cAdd f | .sub => .cSub f | .mul => .cMul f | .fma => .cFma f | .fms => .cFms f
  | .neg => .cNeg f | .abs => .cAbs f | .min => .cMin f | .max => .cMax f
  | .and => .cAnd f | .or => .cOr f | .xor => .cXor f | .not => .cNot f
  | .shl => .cShl f | .shr => .cShr f | .sar => .cSar f | .rot => .cRot f
  | .cmpEq => .cCmpEq f | .cmpNe => .cCmpNe f | .cmpLt => .cCmpLt f | .cmpLe => .cCmpLe f
  | .sel => .cSel f | .setg => .cSetg f | .cvt => .cCvt f | .pack => .cPack f
  | .unpack => .cUnpack f | .req => .cReq f | .rcp => .cRcp f | .rsq => .cRsq f
  | .exp2 => .cExp2 f | .log2 => .cLog2 f | .hsum => .cHsum f | .hmax => .cHmax f
  | .hmin => .cHmin f | .mmaE4m3 => .cMmaE4m3 f | .mmaE5m2 => .cMmaE5m2 f
  | .mmaE2m1 => .cMmaE2m1 f | .mmaBf16 => .cMmaBf16 f | .mmaF16 => .cMmaF16 f
  | .mmaI8 => .cMmaI8 f | .mmaI4 => .cMmaI4 f | .mmaT => .cMmaT f
  | .osw => .cOsw f | .osr => .cOsr f | .drn => .cDrn f | .flg => .cFlg f
  | .hash32 => .cHash32 f | .tidx => .cTidx f

/-- The operation and fields of a C-slot instruction; none for every other instruction. -/
def cParts : Instr → Option (COp × CSlot)
  | .cNop f => some (.nop, f) | .cClr f => some (.clr, f) | .cMov f => some (.mov, f)
  | .cMovi f => some (.movi, f) | .cAdd f => some (.add, f) | .cSub f => some (.sub, f)
  | .cMul f => some (.mul, f) | .cFma f => some (.fma, f) | .cFms f => some (.fms, f)
  | .cNeg f => some (.neg, f) | .cAbs f => some (.abs, f) | .cMin f => some (.min, f)
  | .cMax f => some (.max, f) | .cAnd f => some (.and, f) | .cOr f => some (.or, f)
  | .cXor f => some (.xor, f) | .cNot f => some (.not, f) | .cShl f => some (.shl, f)
  | .cShr f => some (.shr, f) | .cSar f => some (.sar, f) | .cRot f => some (.rot, f)
  | .cCmpEq f => some (.cmpEq, f) | .cCmpNe f => some (.cmpNe, f) | .cCmpLt f => some (.cmpLt, f)
  | .cCmpLe f => some (.cmpLe, f) | .cSel f => some (.sel, f) | .cSetg f => some (.setg, f)
  | .cCvt f => some (.cvt, f) | .cPack f => some (.pack, f) | .cUnpack f => some (.unpack, f)
  | .cReq f => some (.req, f) | .cRcp f => some (.rcp, f) | .cRsq f => some (.rsq, f)
  | .cExp2 f => some (.exp2, f) | .cLog2 f => some (.log2, f) | .cHsum f => some (.hsum, f)
  | .cHmax f => some (.hmax, f) | .cHmin f => some (.hmin, f)
  | .cMmaE4m3 f => some (.mmaE4m3, f) | .cMmaE5m2 f => some (.mmaE5m2, f)
  | .cMmaE2m1 f => some (.mmaE2m1, f) | .cMmaBf16 f => some (.mmaBf16, f)
  | .cMmaF16 f => some (.mmaF16, f) | .cMmaI8 f => some (.mmaI8, f)
  | .cMmaI4 f => some (.mmaI4, f) | .cMmaT f => some (.mmaT, f) | .cOsw f => some (.osw, f)
  | .cOsr f => some (.osr, f) | .cDrn f => some (.drn, f) | .cFlg f => some (.flg, f)
  | .cHash32 f => some (.hash32, f) | .cTidx f => some (.tidx, f)
  | _ => none

/-- The sources an operation uses: a, b, c (R241). -/
def cSources : COp → Bool × Bool × Bool
  | .nop | .clr | .movi | .osr | .tidx => (false, false, false)
  | .mov | .neg | .abs | .not | .setg | .cvt | .unpack | .rcp | .rsq | .exp2 | .log2
  | .hsum | .hmax | .hmin | .osw | .drn | .flg => (true, false, false)
  | .add | .sub | .mul | .min | .max | .and | .or | .xor | .shl | .shr | .sar | .rot
  | .cmpEq | .cmpNe | .cmpLt | .cmpLe | .pack | .hash32 => (true, true, false)
  | .fma | .fms | .sel | .req | .mmaE4m3 | .mmaE5m2 | .mmaE2m1 | .mmaBf16 | .mmaF16
  | .mmaI8 | .mmaI4 | .mmaT => (true, true, true)

/-- A used source names the given operand code (R178, R236). -/
def cNames (o : COp) (f : CSlot) (code : Nat) : Bool :=
  let (ua, ub, uc) := cSources o
  (ua && f.sa.toNat == code) || (ub && f.sb.toNat == code) || (uc && f.sc.toNat == code)

/-- A source field: 0 when unused, else a code up to 33 (R240, R242). -/
def srcOk (used : Bool) (x : BitVec 6) : Bool := if used then x.toNat ≤ 33 else x == 0

/-- HOLD: at most one bit, naming a used source (R175, R240, R319). -/
def holdOk (o : COp) (h : BitVec 3) : Bool :=
  let (ua, ub, uc) := cSources o
  h == 0 || (h == 1 && ua) || (h == 2 && ub) || (h == 4 && uc)

/-- The E operand form of R236. -/
def eFormOk (e : BitVec 40) : Bool :=
  match bitsN e 38 2 with
  | 0 => bitsN e 32 6 == 0
  | 1 => bitsN e 16 22 == 0
  | 2 => bitsN e 8 30 == 0
  | _ => bitsN e 32 6 == 0

/-- The 128-bit operand of the E slot (R236). -/
def eOperand (e : BitVec 40) : Vec :=
  match bitsN e 38 2 with
  | 0 => let x := e.extractLsb' 0 32; x ++ x ++ x ++ x
  | 1 => let x := e.extractLsb' 0 16; x ++ x ++ x ++ x ++ x ++ x ++ x ++ x
  | 2 =>
    let x := e.extractLsb' 0 8
    let y : BitVec 32 := x ++ x ++ x ++ x
    y ++ y ++ y ++ y
  | _ => (e.extractLsb' 0 32).setWidth 128

/-- The destination a push or write may name (R174). -/
def dstOk (d : BitVec 6) : Bool :=
  d == 0 || (16 ≤ d.toNat && d.toNat ≤ 24) || d == 33

/-- TYPE is a floating format. -/
def isFloatType (t : BitVec 3) : Bool := t.toNat < 3

/-- Width of a TYPE element (R240). -/
def typeWidth (t : BitVec 3) : Nat := efWidth (efOfType t.toNat false)

/-- Width of a format code, 0 when reserved (R334). -/
def fmtWidth (c : Nat) : Nat := match efOfCode c with | some f => efWidth f | none => 0

/-- The types an operation accepts (R319, R348). -/
def typeOk (o : COp) (f : CSlot) : Bool :=
  let t := f.typ.toNat
  match o with
  | .nop | .clr | .cvt | .rcp | .rsq | .exp2 | .log2 | .mmaE4m3 | .mmaE5m2 | .mmaE2m1
  | .mmaBf16 | .mmaF16 => t == 0
  | .movi | .shl | .shr | .sar | .rot => 3 ≤ t && t ≤ 6
  | .pack | .unpack => t ≤ 5
  | .req => 4 ≤ t && t ≤ 6
  | .mmaI8 | .mmaI4 | .hash32 | .tidx => t == 3
  | .mmaT => if bitsN f.spec 0 3 < 5 then t == 0 else t == 3
  | .drn =>
    let op := bitsN f.spec 11 3
    if op == 4 || op == 5 then t == 3 else t ≤ 6
  | _ => t ≤ 6

/-- The UNS rule of R319, R348. -/
def unsOk (o : COp) (f : CSlot) : Bool :=
  if !f.uns then true
  else if isFloatType f.typ then false
  else
    match o with
    | .movi | .add | .sub | .mul | .fma | .fms | .min | .max | .cmpEq | .cmpNe | .cmpLt | .cmpLe
    | .pack | .unpack | .req | .hsum | .hmax | .hmin | .mmaI8 | .mmaI4 => true
    | .mmaT => 5 ≤ bitsN f.spec 0 3
    | .drn => let op := bitsN f.spec 11 3; !(op == 4 || op == 5)
    | _ => false

/-- The RM rule of R319, R348. -/
def rmOk (o : COp) (f : CSlot) : Bool :=
  let r := f.rm.toNat
  match o with
  | .add | .sub | .mul | .fma | .fms | .hsum => if isFloatType f.typ then r ≤ 5 else r == 0
  | .cvt | .pack | .unpack => r ≤ 5
  | .rcp | .rsq | .exp2 | .log2 => r ≤ 4
  | .drn =>
    let op := bitsN f.spec 11 3
    if (op == 1 || op == 6) && isFloatType f.typ then r ≤ 5 else r == 0
  | _ => r == 0

/-- The SAT rule of R319, R348. -/
def satOk (o : COp) (f : CSlot) : Bool :=
  if !f.sat then true
  else
    match o with
    | .add | .sub | .mul | .fma | .fms | .cvt | .pack | .unpack | .rcp | .rsq | .exp2 | .log2
    | .hsum | .mmaI8 | .mmaI4 => true
    | .neg | .abs => !isFloatType f.typ
    | .mmaT => 5 ≤ bitsN f.spec 0 3
    | .drn => let op := bitsN f.spec 11 3; op == 1 || op == 6
    | _ => false

/-- The SPEC rule of R319, R335 to R337, R344, R348. -/
def specOk (o : COp) (f : CSlot) : Bool :=
  let p := f.spec
  match o with
  | .clr => bitsN p 5 9 == 0
  | .movi | .hash32 => true
  | .setg => bitsN p 2 12 == 0
  | .cvt =>
    let ws := fmtWidth (bitsN p 0 4)
    let df := bitsN p 4 4
    let wd := fmtWidth df
    let part := bitsN p 8 3
    bitsN p 11 3 == 0 && ws != 0 && wd != 0 && df != 14 &&
      (if ws < wd then part < wd / ws else part == 0)
  | .pack =>
    let df := bitsN p 4 4
    bitsN p 0 4 == 0 && bitsN p 8 6 == 0 && df != 14 && 2 * fmtWidth df == typeWidth f.typ
  | .unpack => bitsN p 0 4 == 0 && bitsN p 9 5 == 0 && 2 * fmtWidth (bitsN p 4 4) == typeWidth f.typ
  | .req => bitsN p 9 5 == 0
  | .mmaE4m3 | .mmaE5m2 | .mmaE2m1 => bitsN p 0 8 == 0 && bitsN p 11 2 == 0
  | .mmaT =>
    bitsN p 3 5 == 0 && bitsN p 11 2 == 0 && bitsN p 0 3 != 7 &&
      (!bitB p 13 || bitsN p 0 3 ≤ 2)
  | .osw | .osr => bitsN p 6 8 == 0
  | .drn =>
    let op := bitsN p 11 3
    op != 7 && bitsN p 2 6 == 0 && (op == 6 || bitsN p 8 2 == 0)
  | .flg => bitsN p 0 12 == 0
  | _ => p == 0

/-- The destination rule of R319. -/
def dstRule (o : COp) (f : CSlot) : Bool :=
  match o with
  | .setg => bitsN f.dst 2 4 == 0
  | .osw | .flg => f.dst == 33
  | _ => dstOk f.dst

/-- Everything R236, R240 to R242 and R319 ask of a C slot; a NOP has every field zero (R324). -/
def cLegal (o : COp) (f : CSlot) : Bool :=
  match o with
  | .nop => decide (f = ⟨0, 0, 0, 0, 0, 0, 0, 0, 0, false, 0, false, 0, 0⟩)
  | _ =>
    let (ua, ub, uc) := cSources o
    typeOk o f && unsOk o f && rmOk o f && satOk o f && specOk o f && dstRule o f &&
      srcOk ua f.sa && srcOk ub f.sb && srcOk uc f.sc && holdOk o f.hold &&
      (if cNames o f 32 then eFormOk f.e else f.e == 0)

end Sys2Proof.Machine
end

