-- ==== Sys2Proof/WellFormed.lean ====
section
/-! DEFINITION. Which terms of the syntax stand for something the part can be asked to do: the ranges
that the encodings and the register fields admit. -/
namespace Sys2Proof

/-- Ranges of the S slot that the field widths leave open (R239, R285, R286, R292 to R295, R303, R305). -/
def Instr.wfS : Instr → Bool
  | .sLidx _ n => n.toNat ≤ 5
  | .sTidx _ _ _ k => k.toNat ≤ 4
  | .sLd sz zx .. => !(zx && sz == .d)
  | .sLdDm sz zx .. => !(zx && sz == .d)
  | .sLdx sz zx .. => !(zx && sz == .d)
  | .sLsend l .. => l.toNat ≤ 8
  | .sLrecv l .. => l.toNat ≤ 8
  | .sShpW _ f _ => f.toNat ≤ 5
  | _ => true

/-- Ranges of the edge slots (R243 to R247, R360, R370, R371, R373, R374, R376, R377). -/
def Instr.wfEdge : Instr → Bool
  | .yxStride _ _ ph st => ph.toNat < st.toNat + 1
  | .dAcc ty rm => ty == .f32 || rm == .rne
  | .dRed op ty _ => !((op == .or || op == .and) && ty == .f32)
  | .tTinSp _ a => a.toNat % 256 == 0
  | .aLand _ _ _ _ d => d != 0
  | .aOsClaim _ _ n => 1 ≤ n.toNat && n.toNat ≤ 64
  | _ => true

/-- Ranges of a packet (R97 to R108). -/
def Instr.wfPacket : Instr → Bool
  | .pktNop _ len => len != 0
  | .pktWrite _ a data => 1 ≤ data.length && data.length ≤ 16380 && a.toNat % 4 == 0
  | .pktCopy _ sem _ _ rb _ _ _ _ name add => rb != 0 && (sem || (name == 0 && add == 0))
  | .pktLaunch _ sem wcb name add => wcb.toNat % 64 == 0 && (sem || (name == 0 && add == 0))
  | .pktTlaunch _ sem wcb _ name add => wcb.toNat % 64 == 0 && (sem || (name == 0 && add == 0))
  | .pktIb _ _ a n _ => a.toNat % 4 == 0 && n.toNat % 4 == 0 && 4 ≤ n.toNat && n.toNat ≤ 2 ^ 24
  | .pktPred _ cc _ a .. => cc.toNat ≤ 5 && a.toNat % 8 == 0
  | .pktLoop _ n span idx => n.toNat ≤ 2 ^ 24 && 1 ≤ span.toNat && idx.toNat % 8 == 0
  | .pktStamp _ _ a => a.toNat % 8 == 0
  | .pktColl _ sem d name add => d.toNat % 64 == 0 && (sem || (name == 0 && add == 0))
  | .pktMpass _ sem wcb d name add =>
    wcb.toNat % 64 == 0 && d.toNat % 128 == 0 && (sem || (name == 0 && add == 0))
  | .reservedPacketOpcode _ op => 0x13 ≤ op.toNat
  | _ => true

/-- Numbers of arrays that exist, and code words that are reserved (R1, R231). -/
def Instr.wfEvent : Instr → Bool
  | .copyLineWrite (.channel a _) | .copyComplete (.channel a _) => a.toNat < 96
  | .fnaddrWrite f _ _ => f.toNat ≤ 512
  | .reservedCodeWord w => 0x2000 ≤ w.toNat && w.toNat != 0xFFF0
  | _ => true

/-- A well-formed instruction. -/
def Instr.wf (i : Instr) : Bool :=
  (match Machine.cParts i with
   | some (o, f) => Machine.cLegal o f
   | none => true)
  && i.wfS && i.wfEdge && i.wfPacket && i.wfEvent

end Sys2Proof
end

