-- ==== Sys2Proof/Decode.lean ====
section
/-! DEFINITION. Decoding: total on any bits, refusing by name; and the encoder written from the same
tables (R97, R98, R231 to R247). A decoder reads the fields of a slot and accepts them only when they
encode back to the same bits, so a reserved encoding or a non-zero unused field is refused (R238). -/
namespace Sys2Proof
open Sys2Proof.Machine

/-- A Bool as one bit. -/
def flag1 (b : Bool) : BitVec 1 := if b then 1 else 0

/-- A Bool at bit `i` of the X field. -/
def flag8 (b : Bool) (i : Nat) : BitVec 8 := if b then 1#8 <<< i else 0

/-- An S slot from its fields (R239). -/
def sWord (op : BitVec 8) (d a b : BitVec 5) (x : BitVec 8) (xe : BitVec 1) (imm : BitVec 32) :
    BitVec 64 :=
  op ++ d ++ a ++ b ++ x ++ xe ++ imm

/-- The code of a BRC condition (R239). -/
def condCode : Cond → BitVec 8
  | .eq => 0 | .ne => 1 | .lt => 2 | .ge => 3 | .ltn => 4 | .gen => 5

/-- The condition of a code; 6 and 7 are reserved. -/
def condOf : Nat → Option Cond
  | 0 => some .eq | 1 => some .ne | 2 => some .lt | 3 => some .ge | 4 => some .ltn
  | 5 => some .gen | _ => none

/-- The code of an access size. -/
def sizeCode : MemSize → BitVec 8
  | .b => 0 | .h => 1 | .w => 2 | .d => 3

/-- The size of a two-bit code. -/
def sizeOf2 : Nat → MemSize
  | 0 => .b | 1 => .h | 2 => .w | _ => .d

/-- The code of a loader (R239). -/
def loaderCode : Loader → BitVec 8
  | .n => 0 | .w => 1 | .d => 2

/-- The loader of a code; 3 is reserved (R306). -/
def loaderOf : Nat → Option Loader
  | 0 => some .n | 1 => some .w | 2 => some .d | _ => none

/-- An S slot with the immediate of R239: IMM alone, or E[31:0] above it with XE = 1. -/
def sImmWord (op : BitVec 8) (d a : BitVec 5) (v : SImm) : BitVec 64 × Option (BitVec 40) :=
  match v with
  | .short i => (sWord op d a 0 0 0 i, none)
  | .long i => (sWord op d a 0 0 1 (bits i 0 32), some ((bits i 32 32).setWidth 40))

/-- The immediate of an S slot (R239). -/
def sImmOf (xe : Bool) (imm : BitVec 32) (e : BitVec 40) : SImm :=
  if xe then .long (bits e 0 32 ++ imm) else .short imm

/-- The S slot of an instruction, and the E slot it names, if any (R239). -/
def encS : Instr → Option (BitVec 64 × Option (BitVec 40))
  | .sNop => some (sWord 0x00 0 0 0 0 0 0, none)
  | .sBr t => some (sWord 0x01 0 0 0 0 0 (t.setWidth 32), none)
  | .sBrc cc a b t => some (sWord 0x02 0 a b (condCode cc) 0 (t.setWidth 32), none)
  | .sBrf v t => some (sWord 0x03 0 0 0 (flag8 v 0) 0 (t.setWidth 32), none)
  | .sCall t => some (sWord 0x04 0 0 0 0 0 (t.setWidth 32), none)
  | .sRet => some (sWord 0x05 0 0 0 0 0 0, none)
  | .sJmpr a => some (sWord 0x06 0 a 0 0 0 0, none)
  | .sLoop (.reg a) sw t => some (sWord 0x07 0 a 0 (flag8 sw 0) 0 (t.setWidth 32), none)
  | .sLoop (.imm n) sw t => some (sWord 0x07 0 0 0 (flag8 sw 0) 1 (t.setWidth 32), some (n.setWidth 40))
  | .sLoopbrk => some (sWord 0x08 0 0 0 0 0 0, none)
  | .sLidx d n => some (sWord 0x09 d 0 0 (n.setWidth 8) 0 0, none)
  | .sHalt => some (sWord 0x0A 0 0 0 0 0 0, none)
  | .sTrapi v => some (sWord 0x0B 0 0 0 0 0 v, none)
  | .sAdd d a b => some (sWord 0x10 d a b 0 0 0, none)
  | .sSub d a b => some (sWord 0x11 d a b 0 0 0, none)
  | .sAnd d a b => some (sWord 0x12 d a b 0 0 0, none)
  | .sOr d a b => some (sWord 0x13 d a b 0 0 0, none)
  | .sXor d a b => some (sWord 0x14 d a b 0 0 0, none)
  | .sShl d a b => some (sWord 0x15 d a b 0 0 0, none)
  | .sShr d a b => some (sWord 0x16 d a b 0 0 0, none)
  | .sSar d a b => some (sWord 0x17 d a b 0 0 0, none)
  | .sMul d a b => some (sWord 0x18 d a b 0 0 0, none)
  | .sMulh d a b => some (sWord 0x19 d a b 0 0 0, none)
  | .sMulhn d a b => some (sWord 0x1A d a b 0 0 0, none)
  | .sDivs d a b => some (sWord 0x1B d a b 0 0 0, none)
  | .sDivn d a b => some (sWord 0x1C d a b 0 0 0, none)
  | .sRems d a b => some (sWord 0x1D d a b 0 0 0, none)
  | .sRemn d a b => some (sWord 0x1E d a b 0 0 0, none)
  | .sMin d a b => some (sWord 0x20 d a b 0 0 0, none)
  | .sMax d a b => some (sWord 0x21 d a b 0 0 0, none)
  | .sMinn d a b => some (sWord 0x22 d a b 0 0 0, none)
  | .sMaxn d a b => some (sWord 0x23 d a b 0 0 0, none)
  | .sSlt d a b => some (sWord 0x24 d a b 0 0 0, none)
  | .sSltn d a b => some (sWord 0x25 d a b 0 0 0, none)
  | .sSel d a b c => some (sWord 0x1F d a b (c.setWidth 8) 0 0, none)
  | .sClz d a => some (sWord 0x26 d a 0 0 0 0, none)
  | .sPopc d a => some (sWord 0x27 d a 0 0 0 0, none)
  | .sAddi d a v => some (sImmWord 0x28 d a v)
  | .sAndi d a v => some (sImmWord 0x29 d a v)
  | .sOri d a v => some (sImmWord 0x2A d a v)
  | .sXori d a v => some (sImmWord 0x2B d a v)
  | .sLi d v => some (sImmWord 0x2C d 0 v)
  | .sTidx d a sh k => some (sWord 0x2D d a 0 (k.setWidth 8) 0 (sh.setWidth 32), none)
  | .sLd sz zx d a off => some (sWord (0x30 + sizeCode sz) d a 0 (flag8 zx 0) 0 off, none)
  | .sLdDm sz zx d a off => some (sWord (0x30 + sizeCode sz) d a 0 (flag8 zx 0 ||| 2) 0 off, none)
  | .sSt sz b a off => some (sWord (0x34 + sizeCode sz) 0 a b 0 0 off, none)
  | .sStDm sz b a off => some (sWord (0x34 + sizeCode sz) 0 a b 2 0 off, none)
  | .sLdx sz zx d a off => some (sWord 0x38 d a 0 (sizeCode sz ||| flag8 zx 2) 0 off, none)
  | .sStx sz b a off => some (sWord 0x39 0 a b (sizeCode sz) 0 off, none)
  | .sLdSc w64 d a => some (sWord 0x3A d a 0 (flag8 w64 0) 0 0, none)
  | .sStSc w64 b a => some (sWord 0x3B 0 a b (flag8 w64 0) 0 0, none)
  | .sAmoAdd w64 d b a => some (sWord 0x40 d a b (flag8 w64 0) 0 0, none)
  | .sAmoMin w64 u d b a => some (sWord 0x41 d a b (flag8 w64 0 ||| flag8 u 1) 0 0, none)
  | .sAmoMax w64 u d b a => some (sWord 0x42 d a b (flag8 w64 0 ||| flag8 u 1) 0 0, none)
  | .sAmoAnd w64 d b a => some (sWord 0x43 d a b (flag8 w64 0) 0 0, none)
  | .sAmoOr w64 d b a => some (sWord 0x44 d a b (flag8 w64 0) 0 0, none)
  | .sAmoSwap w64 d b a => some (sWord 0x45 d a b (flag8 w64 0) 0 0, none)
  | .sAmoCas w64 d b c a => some (sWord 0x46 d a b (c ++ (0#2 : BitVec 2) ++ flag1 w64) 0 0, none)
  | .sStA b ap => some (sWord 0x48 0 0 b 0 0 (ap.setWidth 32), none)
  | .sXfer r o => some (sWord 0x49 0 0 0 o 0 (r.setWidth 32), none)
  | .sRel r => some (sWord 0x4A 0 0 0 0 0 (r.setWidth 32), none)
  | .sFenceX pa pb => some (sWord 0x4B 0 0 0 0 0 ((pb ++ pa).setWidth 32), none)
  | .sSemAdd m b => some (sWord 0x50 0 0 b 0 0 (m.setWidth 32), none)
  | .sSemSet m b => some (sWord 0x51 0 0 b 0 0 (m.setWidth 32), none)
  | .sSemWait m b => some (sWord 0x52 0 0 b 0 0 (m.setWidth 32), none)
  | .sSemRd d m => some (sWord 0x53 d 0 0 0 0 (m.setWidth 32), none)
  | .sLsend l q a => some (sWord 0x54 0 a 0 ((q ++ l).setWidth 8) 0 0, none)
  | .sLrecv l q a => some (sWord 0x55 0 a 0 ((q ++ l).setWidth 8) 0 0, none)
  | .sMovYm m a => some (sWord 0x60 0 a 0 (m.setWidth 8) 0 0, none)
  | .sMovXm m a => some (sWord 0x61 0 a 0 (m.setWidth 8) 0 0, none)
  | .sShpW sh f a => some (sWord 0x62 0 a 0 (f.setWidth 8) 0 (sh.setWidth 32), none)
  | .sNestW l f a => some (sWord 0x63 0 a 0 (loaderCode l) 0 (f.setWidth 32), none)
  | .sCtLd ct a => some (sWord 0x64 0 a 0 0 0 (ct.setWidth 32), none)
  | .sEdgeRd d er => some (sWord 0x65 d 0 0 (er.setWidth 8) 0 0, none)
  | .sSysr d num => some (sWord 0x66 d 0 0 0 0 (num.setWidth 32), none)
  | .sSysw num a => some (sWord 0x67 0 a 0 0 0 (num.setWidth 32), none)
  | .sTtChk (.reg a) crc => some (sWord 0x68 0 a 0 0 0 crc, none)
  | .sTtChk (.imm v) crc => some (sWord 0x68 0 0 0 0 1 crc, some v)
  | .sTtRd d => some (sWord 0x69 d 0 0 0 0 0, none)
  | .sSrSeed a none => some (sWord 0x6A 0 a 0 0 0 0, none)
  | .sSrSeed a (some b) => some (sWord 0x6A 0 a b 1 0 0, none)
  | .sMpass a => some (sWord 0x6B 0 a 0 0 0 0, none)
  | .sCollGo a none => some (sWord 0x6C 0 a 0 0 0 0, none)
  | .sCollGo a (some (b, m)) => some (sWord 0x6C 0 a b 1 0 (m.setWidth 32), none)
  | _ => none

/-- The instruction the fields of an S slot name, before the check that they are all used (R239). -/
def candS (w : BitVec 64) (e : BitVec 40) : Option Instr :=
  let d : BitVec 5 := bits w 51 5
  let a : BitVec 5 := bits w 46 5
  let b : BitVec 5 := bits w 41 5
  let xe := bitB w 32
  let imm : BitVec 32 := bits w 0 32
  match bitsN w 56 8 with
  | 0x00 => some .sNop
  | 0x01 => some (.sBr (bits w 0 17))
  | 0x02 => (condOf (bitsN w 33 3)).map (fun cc => .sBrc cc a b (bits w 0 17))
  | 0x03 => some (.sBrf (bitB w 33) (bits w 0 17))
  | 0x04 => some (.sCall (bits w 0 17))
  | 0x05 => some .sRet
  | 0x06 => some (.sJmpr a)
  | 0x07 => some (.sLoop (if xe then .imm (bits e 0 24) else .reg a) (bitB w 33) (bits w 0 17))
  | 0x08 => some .sLoopbrk
  | 0x09 => some (.sLidx d (bits w 33 3))
  | 0x0A => some .sHalt
  | 0x0B => some (.sTrapi imm)
  | 0x10 => some (.sAdd d a b)
  | 0x11 => some (.sSub d a b)
  | 0x12 => some (.sAnd d a b)
  | 0x13 => some (.sOr d a b)
  | 0x14 => some (.sXor d a b)
  | 0x15 => some (.sShl d a b)
  | 0x16 => some (.sShr d a b)
  | 0x17 => some (.sSar d a b)
  | 0x18 => some (.sMul d a b)
  | 0x19 => some (.sMulh d a b)
  | 0x1A => some (.sMulhn d a b)
  | 0x1B => some (.sDivs d a b)
  | 0x1C => some (.sDivn d a b)
  | 0x1D => some (.sRems d a b)
  | 0x1E => some (.sRemn d a b)
  | 0x20 => some (.sMin d a b)
  | 0x21 => some (.sMax d a b)
  | 0x22 => some (.sMinn d a b)
  | 0x23 => some (.sMaxn d a b)
  | 0x24 => some (.sSlt d a b)
  | 0x25 => some (.sSltn d a b)
  | 0x1F => some (.sSel d a b (bits w 33 5))
  | 0x26 => some (.sClz d a)
  | 0x27 => some (.sPopc d a)
  | 0x28 => some (.sAddi d a (sImmOf xe imm e))
  | 0x29 => some (.sAndi d a (sImmOf xe imm e))
  | 0x2A => some (.sOri d a (sImmOf xe imm e))
  | 0x2B => some (.sXori d a (sImmOf xe imm e))
  | 0x2C => some (.sLi d (sImmOf xe imm e))
  | 0x2D => some (.sTidx d a (bits w 0 4) (bits w 33 3))
  | 0x30 => some (if bitB w 34 then .sLdDm .b (bitB w 33) d a imm else .sLd .b (bitB w 33) d a imm)
  | 0x34 => some (if bitB w 34 then .sStDm .b b a imm else .sSt .b b a imm)
  | 0x31 => some (if bitB w 34 then .sLdDm .h (bitB w 33) d a imm else .sLd .h (bitB w 33) d a imm)
  | 0x35 => some (if bitB w 34 then .sStDm .h b a imm else .sSt .h b a imm)
  | 0x32 => some (if bitB w 34 then .sLdDm .w (bitB w 33) d a imm else .sLd .w (bitB w 33) d a imm)
  | 0x36 => some (if bitB w 34 then .sStDm .w b a imm else .sSt .w b a imm)
  | 0x33 => some (if bitB w 34 then .sLdDm .d (bitB w 33) d a imm else .sLd .d (bitB w 33) d a imm)
  | 0x37 => some (if bitB w 34 then .sStDm .d b a imm else .sSt .d b a imm)
  | 0x38 => some (.sLdx (sizeOf2 (bitsN w 33 2)) (bitB w 35) d a imm)
  | 0x39 => some (.sStx (sizeOf2 (bitsN w 33 2)) b a imm)
  | 0x3A => some (.sLdSc (bitB w 33) d a)
  | 0x3B => some (.sStSc (bitB w 33) b a)
  | 0x40 => some (.sAmoAdd (bitB w 33) d b a)
  | 0x41 => some (.sAmoMin (bitB w 33) (bitB w 34) d b a)
  | 0x42 => some (.sAmoMax (bitB w 33) (bitB w 34) d b a)
  | 0x43 => some (.sAmoAnd (bitB w 33) d b a)
  | 0x44 => some (.sAmoOr (bitB w 33) d b a)
  | 0x45 => some (.sAmoSwap (bitB w 33) d b a)
  | 0x46 => some (.sAmoCas (bitB w 33) d b (bits w 36 5) a)
  | 0x48 => some (.sStA b (bits w 0 16))
  | 0x49 => some (.sXfer (bits w 0 14) (bits w 33 8))
  | 0x4A => some (.sRel (bits w 0 14))
  | 0x4B => some (.sFenceX (bits w 0 5) (bits w 5 5))
  | 0x50 => some (.sSemAdd (bits w 0 16) b)
  | 0x51 => some (.sSemSet (bits w 0 16) b)
  | 0x52 => some (.sSemWait (bits w 0 16) b)
  | 0x53 => some (.sSemRd d (bits w 0 16))
  | 0x54 => some (.sLsend (bits w 33 4) (bits w 37 2) a)
  | 0x55 => some (.sLrecv (bits w 33 4) (bits w 37 2) a)
  | 0x60 => some (.sMovYm (bits w 33 2) a)
  | 0x61 => some (.sMovXm (bits w 33 2) a)
  | 0x62 => some (.sShpW (bits w 0 4) (bits w 33 3) a)
  | 0x63 => (loaderOf (bitsN w 33 2)).map (fun l => .sNestW l (bits w 0 4) a)
  | 0x64 => some (.sCtLd (bits w 0 6) a)
  | 0x65 => some (.sEdgeRd d (bits w 33 2))
  | 0x66 => some (.sSysr d (bits w 0 16))
  | 0x67 => some (.sSysw (bits w 0 16) a)
  | 0x68 => some (.sTtChk (if xe then .imm e else .reg a) imm)
  | 0x69 => some (.sTtRd d)
  | 0x6A => some (.sSrSeed a (if bitB w 33 then some b else none))
  | 0x6B => some (.sMpass a)
  | 0x6C => some (.sCollGo a (if bitB w 33 then some (b, bits w 0 16) else none))
  | _ => none

/-- The encoded slot and E agree with the bits read. -/
def encAgrees {n : Nat} (w : BitVec n) (e : BitVec 40) (r : Option (BitVec n × Option (BitVec 40))) :
    Bool :=
  match r with
  | none => false
  | some (w', none) => w' == w
  | some (w', some e') => w' == w && e' == e

/-- Decode an S slot (R238, R239); none is ILLCODE. -/
def decodeS (w : BitVec 64) (e : BitVec 40) : Option Instr :=
  match candS w e with
  | none => none
  | some i => if i.wf && encAgrees w e (encS i) then some i else none

/-- The C slot of an operation (R240). -/
def cWord (o : COp) (f : CSlot) : BitVec 64 :=
  cCode o ++ f.typ ++ f.ys ++ f.xs ++ f.grd ++ f.dst ++ f.sa ++ f.sb ++ f.sc ++ f.hold
    ++ flag1 f.uns ++ f.rm ++ flag1 f.sat ++ f.spec

/-- The C slot of an instruction, and the E slot it names, if any (R236, R240). -/
def encC (i : Instr) : Option (BitVec 64 × Option (BitVec 40)) :=
  match cParts i with
  | none => none
  | some (o, f) => some (cWord o f, if cNames o f 32 then some f.e else none)

/-- The fields of a C slot (R240), with E when a used source names it. -/
def cFields (o : COp) (w : BitVec 64) (e : BitVec 40) : CSlot :=
  let f : CSlot :=
    { typ := bits w 53 3, ys := bits w 51 2, xs := bits w 49 2, grd := bits w 46 3,
      dst := bits w 40 6, sa := bits w 34 6, sb := bits w 28 6, sc := bits w 22 6,
      hold := bits w 19 3, uns := bitB w 18, rm := bits w 15 3, sat := bitB w 14,
      spec := bits w 0 14, e := 0 }
  if cNames o f 32 then { f with e := e } else f

/-- Decode a C slot (R238, R240, R241, R319); none is ILLCODE. -/
def decodeC (w : BitVec 64) (e : BitVec 40) : Option Instr :=
  match cOfCode (bits w 56 8) with
  | none => none
  | some o =>
    let f := cFields o w e
    if cLegal o f then some (cInstr o f) else none

/-- A Y or X slot from its fields (R243). -/
def yxWord (op : BitVec 4) (m : BitVec 2) (x : BitVec 10) : BitVec 16 := op ++ m ++ x

/-- The Y or X slot of an instruction (R243). -/
def encYX : Instr → Option (BitVec 16)
  | .yxNop _ => some (yxWord 0 0 0)
  | .yxSet _ m m2 => some (yxWord 1 m (m2 ++ (0#8 : BitVec 8)))
  | .yxOne _ m => some (yxWord 2 m 0)
  | .yxNone _ m => some (yxWord 3 m 0)
  | .yxShl _ m n => some (yxWord 4 m (n.setWidth 10))
  | .yxShr _ m n => some (yxWord 5 m (n.setWidth 10))
  | .yxRotl _ m n => some (yxWord 6 m (n.setWidth 10))
  | .yxRotr _ m n => some (yxWord 7 m (n.setWidth 10))
  | .yxAnd _ m m2 => some (yxWord 8 m (m2 ++ (0#8 : BitVec 8)))
  | .yxOr _ m m2 => some (yxWord 9 m (m2 ++ (0#8 : BitVec 8)))
  | .yxRange _ m lo len => some (yxWord 10 m (lo ++ len))
  | .yxStride _ m ph st => some (yxWord 11 m (ph ++ st))
  | .yxFlag _ m => some (yxWord 12 m 0)
  | .yxFlagN _ m => some (yxWord 12 m 1)
  | _ => none

/-- The instruction the fields of a Y or X slot name (R243). -/
def candYX (ax : Axis) (w : BitVec 16) : Option Instr :=
  let m : BitVec 2 := bits w 10 2
  let m2 : BitVec 2 := bits w 8 2
  match bitsN w 12 4 with
  | 0 => some (.yxNop ax)
  | 1 => some (.yxSet ax m m2)
  | 2 => some (.yxOne ax m)
  | 3 => some (.yxNone ax m)
  | 4 => some (.yxShl ax m (bits w 0 6))
  | 5 => some (.yxShr ax m (bits w 0 6))
  | 6 => some (.yxRotl ax m (bits w 0 6))
  | 7 => some (.yxRotr ax m (bits w 0 6))
  | 8 => some (.yxAnd ax m m2)
  | 9 => some (.yxOr ax m m2)
  | 10 => some (.yxRange ax m (bits w 4 6) (bits w 0 4))
  | 11 => some (.yxStride ax m (bits w 4 6) (bits w 0 4))
  | 12 => some (if bitB w 0 then .yxFlagN ax m else .yxFlag ax m)
  | _ => none

/-- Decode a Y or X slot (R238, R243, R360); none is ILLCODE. -/
def decodeYX (ax : Axis) (w : BitVec 16) : Option Instr :=
  match candYX ax w with
  | none => none
  | some i => if i.wf && encYX i == some w then some i else none

/-- A 40-bit slot from its opcode and the 34 bits below it (R244, R245, R247). -/
def edgeWord (op : BitVec 6) (x : BitVec 34) : BitVec 40 := op ++ x

/-- DST and Q of STEP and AUTO (R244, R364). -/
def latchBits : LatchDst → BitVec 4
  | .port => 0
  | .first q => (1#2 : BitVec 2) ++ q
  | .second q => (2#2 : BitVec 2) ++ q

/-- The destination of DST and Q; 3 is reserved (R364). -/
def latchOf (dst : Nat) (q : BitVec 2) : Option LatchDst :=
  match dst with
  | 0 => some .port | 1 => some (.first q) | 2 => some (.second q) | _ => none

/-- SET of a loader (R244, R365). -/
def setWord (op : BitVec 6) (f : BitVec 4) (v : LImm) : BitVec 40 × Option (BitVec 40) :=
  match v with
  | .short x => (edgeWord op (f ++ (0#1 : BitVec 1) ++ x), none)
  | .long x => (edgeWord op (f ++ (1#1 : BitVec 1) ++ (0#29 : BitVec 29)), some (x.setWidth 40))

/-- The value of a loader SET (R365). -/
def limmOf (w e : BitVec 40) : LImm := if bitB w 29 then .long (bits e 0 32) else .short (bits w 0 29)

/-- The N or W slot of an instruction, and the E slot it names (R244). -/
def encNW : Instr → Option (BitVec 40 × Option (BitVec 40))
  | .nwNop _ => some (edgeWord 0 0, none)
  | .nwGo _ => some (edgeWord 1 0, none)
  | .nwStep _ dst => some (edgeWord 2 (latchBits dst ++ (0#30 : BitVec 30)), none)
  | .nwAuto _ dst n => some (edgeWord 3 (latchBits dst ++ (0#6 : BitVec 6) ++ n), none)
  | .nwHold _ => some (edgeWord 4 0, none)
  | .nwZero _ => some (edgeWord 5 0, none)
  | .nwBcast _ j => some (edgeWord 6 (j.setWidth 34), none)
  | .nwSet _ f v => some (setWord 7 f v)
  | .wGather => some (edgeWord 8 0, none)
  | _ => none

/-- The instruction the fields of an N or W slot name (R244). -/
def candNW (l : PortLoader) (w e : BitVec 40) : Option Instr :=
  match bitsN w 34 6 with
  | 0 => some (.nwNop l)
  | 1 => some (.nwGo l)
  | 2 => (latchOf (bitsN w 32 2) (bits w 30 2)).map (fun d => .nwStep l d)
  | 3 => (latchOf (bitsN w 32 2) (bits w 30 2)).map (fun d => .nwAuto l d (bits w 0 24))
  | 4 => some (.nwHold l)
  | 5 => some (.nwZero l)
  | 6 => some (.nwBcast l (bits w 0 6))
  | 7 => some (.nwSet l (bits w 30 4) (limmOf w e))
  | 8 => if l == .w then some .wGather else none
  | _ => none

/-- Decode an N or W slot (R238, R244, R368); none is ILLCODE. -/
def decodeNW (l : PortLoader) (w e : BitVec 40) : Option Instr :=
  match candNW l w e with
  | none => none
  | some i => if i.wf && encAgrees w e (encNW i) then some i else none

/-- The type code of ACC and RED (R245). -/
def accCode : AccTy → Nat
  | .i32 => 0 | .n32 => 1 | .f32 => 2

/-- The type of a code (R245). -/
def accOf : Nat → Option AccTy
  | 0 => some .i32 | 1 => some .n32 | 2 => some .f32 | _ => none

/-- The operator code of RED (R245). -/
def redCode : RedOp → BitVec 3
  | .add => 0 | .min => 1 | .max => 2 | .or => 3 | .and => 4 | .minloc => 5 | .maxloc => 6

/-- The operator of a code; 7 is reserved (R245). -/
def redOf : Nat → Option RedOp
  | 0 => some .add | 1 => some .min | 2 => some .max | 3 => some .or | 4 => some .and
  | 5 => some .minloc | 6 => some .maxloc | _ => none

/-- The rounding code (R240). -/
def rmCode : Rm → BitVec 3
  | .rne => 0 | .rtz => 1 | .rdn => 2 | .rup => 3 | .rna => 4 | .sr => 5

/-- The rounding mode of a code; 6 and 7 are reserved (R240). -/
def rmOf : Nat → Option Rm
  | 0 => some .rne | 1 => some .rtz | 2 => some .rdn | 3 => some .rup | 4 => some .rna
  | 5 => some .sr | _ => none

/-- The D slot of an instruction, and the E slot it names (R245). -/
def encD : Instr → Option (BitVec 40 × Option (BitVec 40))
  | .dNop => some (edgeWord 0 0, none)
  | .dGo => some (edgeWord 1 0, none)
  | .dSt => some (edgeWord 2 0, none)
  | .dAcc ty rm =>
    some (edgeWord 3 (BitVec.ofNat 3 (accCode ty) ++ rmCode rm ++ (0#28 : BitVec 28)), none)
  | .dRed op ty er =>
    some (edgeWord 4 (er ++ redCode op ++ BitVec.ofNat 2 (accCode ty) ++ (0#27 : BitVec 27)), none)
  | .dSeg => some (edgeWord 5 0, none)
  | .dSet f v => some (setWord 6 f v)
  | _ => none

/-- The instruction the fields of a D slot name (R245). -/
def candD (w e : BitVec 40) : Option Instr :=
  match bitsN w 34 6 with
  | 0 => some .dNop
  | 1 => some .dGo
  | 2 => some .dSt
  | 3 =>
    match accOf (bitsN w 31 3), rmOf (bitsN w 28 3) with
    | some t, some r => some (.dAcc t r)
    | _, _ => none
  | 4 =>
    match redOf (bitsN w 29 3), accOf (bitsN w 27 2) with
    | some o, some t => some (.dRed o t (bits w 32 2))
    | _, _ => none
  | 5 => some .dSeg
  | 6 => some (.dSet (bits w 30 4) (limmOf w e))
  | _ => none

/-- Decode a D slot (R238, R245, R373); none is ILLCODE. -/
def decodeD (w e : BitVec 40) : Option Instr :=
  match candD w e with
  | none => none
  | some i => if i.wf && encAgrees w e (encD i) then some i else none

/-- A T slot from its fields (R246). -/
def tWord (op : BitVec 4) (src : BitVec 1) (i : BitVec 6) : BitVec 24 :=
  op ++ src ++ i ++ (0#13 : BitVec 13)

/-- The T slot of an instruction, and the E slot it names (R246, R374). -/
def encT : Instr → Option (BitVec 24 × Option (BitVec 40))
  | .tNop => some (tWord 0 0 0, none)
  | .tTin i => some (tWord 1 0 i, none)
  | .tTinSp i a => some (tWord 1 1 i, some (a.setWidth 40))
  | .tTout j => some (tWord 2 0 j, none)
  | .tTclr => some (tWord 3 0 0, none)
  | _ => none

/-- The instruction the fields of a T slot name (R246). -/
def candT (w : BitVec 24) (e : BitVec 40) : Option Instr :=
  match bitsN w 20 4 with
  | 0 => some .tNop
  | 1 => some (if bitB w 19 then .tTinSp (bits w 13 6) (bits e 0 22) else .tTin (bits w 13 6))
  | 2 => some (.tTout (bits w 13 6))
  | 3 => some .tTclr
  | _ => none

/-- Decode a T slot (R238, R246, R375); none is ILLCODE. -/
def decodeT (w : BitVec 24) (e : BitVec 40) : Option Instr :=
  match candT w e with
  | none => none
  | some i => if i.wf && encAgrees w e (encT i) then some i else none

/-- The A slot of an instruction (R247). -/
def encA : Instr → Option (BitVec 40)
  | .aNop => some (edgeWord 0 0)
  | .aLand sl sa sd n d =>
    some (edgeWord 1 (sl ++ sa ++ sd ++ n ++ d))
  | .aHExpect h (.reg a) => some (edgeWord 2 (h ++ (1#1 : BitVec 1) ++ (0#21 : BitVec 21) ++ a))
  | .aHExpect h (.imm n) => some (edgeWord 2 (h ++ (0#1 : BitVec 1) ++ n))
  | .aHWait h p => some (edgeWord 3 (h ++ flag1 p ++ (0#26 : BitVec 26)))
  | .aHDrain h => some (edgeWord 4 (h ++ (0#27 : BitVec 27)))
  | .aHFree h => some (edgeWord 5 (h ++ (0#27 : BitVec 27)))
  | .aOsClaim h f n => some (edgeWord 6 (h ++ f ++ n ++ (0#14 : BitVec 14)))
  | .aOsSeal h => some (edgeWord 7 (h ++ (0#27 : BitVec 27)))
  | .aOsRelease h => some (edgeWord 8 (h ++ (0#27 : BitVec 27)))
  | .aPfc sa rc n => some (edgeWord 9 (sa ++ rc ++ n ++ (0#15 : BitVec 15)))
  | _ => none

/-- The instruction the fields of an A slot name (R247). -/
def candA (w : BitVec 40) : Option Instr :=
  let h : BitVec 7 := bits w 27 7
  match bitsN w 34 6 with
  | 0 => some .aNop
  | 1 => some (.aLand (bits w 29 5) (bits w 24 5) (bits w 19 5) (bits w 13 6) (bits w 0 13))
  | 2 => some (.aHExpect h (if bitB w 26 then .reg (bits w 0 5) else .imm (bits w 0 26)))
  | 3 => some (.aHWait h (bitB w 26))
  | 4 => some (.aHDrain h)
  | 5 => some (.aHFree h)
  | 6 => some (.aOsClaim h (bits w 21 6) (bits w 14 7))
  | 7 => some (.aOsSeal h)
  | 8 => some (.aOsRelease h)
  | 9 => some (.aPfc (bits w 29 5) (bits w 21 8) (bits w 15 6))
  | _ => none

/-- Decode an A slot (R238, R247, R379); none is ILLCODE. -/
def decodeA (w : BitVec 40) : Option Instr :=
  match candA w with
  | none => none
  | some i => if i.wf && encA i == some w then some i else none

/-- The slots of a bundle (R234). -/
structure SlotBits where
  s : BitVec 64
  c : BitVec 64
  y : BitVec 16
  x : BitVec 16
  n : BitVec 40
  w : BitVec 40
  d : BitVec 40
  t : BitVec 24
  a : BitVec 40
  e : BitVec 40
  deriving DecidableEq, Repr

/-- Cut a bundle into its slots (R234). -/
def slotBits (b : BitVec 384) : SlotBits :=
  { s := bits b 320 64, c := bits b 256 64, y := bits b 240 16, x := bits b 224 16,
    n := bits b 184 40, w := bits b 144 40, d := bits b 104 40, t := bits b 80 24,
    a := bits b 40 40, e := bits b 0 40 }

/-- Join slots into a bundle (R234). -/
def joinSlots (z : SlotBits) : BitVec 384 :=
  z.s ++ z.c ++ z.y ++ z.x ++ z.n ++ z.w ++ z.d ++ z.t ++ z.a ++ z.e

/-- Decode one slot of a bundle; none is ILLCODE (R238). -/
def decodeSlot (z : SlotBits) : Slot → Option Instr
  | .s => decodeS z.s z.e
  | .c => decodeC z.c z.e
  | .y => decodeYX .y z.y
  | .x => decodeYX .x z.x
  | .n => decodeNW .n z.n z.e
  | .w => decodeNW .w z.w z.e
  | .d => decodeD z.d z.e
  | .t => decodeT z.t z.e
  | .a => decodeA z.a

/-- The instruction a slot issues: a reserved encoding is the instruction that traps (R238). -/
def slotInstr (z : SlotBits) (sl : Slot) : Instr :=
  match decodeSlot z sl with
  | some i => i
  | none => .reservedSlotOpcode sl

/-- The S opcodes that R239 lists; any other is reserved. -/
def sOpListed (op : Nat) : Bool :=
  op ≤ 0x0B || (0x10 ≤ op && op ≤ 0x2D) || (0x30 ≤ op && op ≤ 0x3B) || (0x40 ≤ op && op ≤ 0x46) ||
    (0x48 ≤ op && op ≤ 0x4B) || (0x50 ≤ op && op ≤ 0x55) || (0x60 ≤ op && op ≤ 0x6C)

/-- The slots that name E, by slot code, from their raw bits (R236): S by XE, C by operand code 32 in any
source field, whether or not the operation uses that field. A reserved opcode names nothing (R237). -/
def namesE (z : SlotBits) : List Nat :=
  let s := sOpListed (bitsN z.s 56 8) && bitB z.s 32
  let c := (cOfCode (bits z.c 56 8)).isSome &&
    (bitsN z.c 34 6 == 32 || bitsN z.c 28 6 == 32 || bitsN z.c 22 6 == 32)
  let n := bitsN z.n 34 6 == 7 && bitB z.n 29
  let w := bitsN z.w 34 6 == 7 && bitB z.w 29
  let d := bitsN z.d 34 6 == 6 && bitB z.d 29
  let t := bitsN z.t 20 4 == 1 && bitB z.t 19
  (if s then [0] else []) ++ (if c then [1] else []) ++ (if n then [4] else []) ++
    (if w then [5] else []) ++ (if d then [6] else []) ++ (if t then [7] else [])

/-- The conflicts of a bundle as pairs of slot codes (R237). -/
def conflicts (z : SlotBits) : List (Nat × Nat) :=
  let e := match namesE z with
    | i :: j :: _ => [(i, j)]
    | _ => []
  let sop := bitsN z.s 56 8
  let yop := bitsN z.y 12 4
  let xop := bitsN z.x 12 4
  let wop := bitsN z.w 34 6
  let ym := if sop == 0x60 && 1 ≤ yop && yop ≤ 12 && bitsN z.s 33 2 == bitsN z.y 10 2
    then [(0, 2)] else []
  let xm := if sop == 0x61 && 1 ≤ xop && xop ≤ 12 && bitsN z.s 33 2 == bitsN z.x 10 2
    then [(0, 3)] else []
  let wp := if bitsN z.t 20 4 == 2 &&
      (((wop == 2 || wop == 3) && bitsN z.w 32 2 == 0) || wop == 4 || wop == 5 || wop == 6 || wop == 8)
    then [(5, 7)] else []
  let nest (l slot go set op : Nat) : List (Nat × Nat) :=
    if sop == 0x63 && bitsN z.s 33 2 == l && (op == go || op == set) then [(0, slot)] else []
  e ++ ym ++ xm ++ wp ++ nest 0 4 1 7 (bitsN z.n 34 6) ++ nest 1 5 1 7 wop
    ++ nest 2 6 1 6 (bitsN z.d 34 6)

/-- The lowest conflicting pair of slot codes, if any (R237, R227). -/
def firstConflict (z : SlotBits) : Option (Nat × Nat) :=
  (conflicts z).foldl (fun m p =>
    match m with
    | none => some p
    | some q => if p.1 < q.1 || (p.1 == q.1 && p.2 < q.2) then some p else some q) none

/-- A packet header (R97). -/
def pktHeader (op : BitVec 8) (len : Nat) (pr : Bool) (flags : BitVec 9) : BitVec 32 :=
  op ++ BitVec.ofNat 14 len ++ flag1 pr ++ flags

/-- The low and high words of a 64-bit value (R98). -/
def words2 (v : BitVec 64) : List (BitVec 32) := [bits v 0 32, bits v 32 32]

/-- One flag bit of a packet. -/
def flag9 (b : Bool) (i : Nat) : BitVec 9 := if b then 1#9 <<< i else 0

/-- The words of a packet (R97 to R108). The body of a NOP is not examined, so its words are zero
here; a reserved opcode stands with length 1. -/
def encPkt : Instr → Option (List (BitVec 32))
  | .pktNop pr len => some (pktHeader 0x00 len.toNat pr 0 :: List.replicate (len.toNat - 1) 0)
  | .pktWrite pr a data => some (pktHeader 0x01 (3 + data.length) pr 0 :: (words2 a ++ data))
  | .pktCopy pr sem src dst rb rows rc sp dp name add =>
    some (pktHeader 0x02 12 pr (flag9 sem 0) :: (words2 src ++ words2 dst ++
      [rb.setWidth 32, (rc ++ rows).setWidth 32, sp, dp, name.setWidth 32] ++ words2 add))
  | .pktLaunch pr sem wcb name add =>
    some (pktHeader 0x03 6 pr (flag9 sem 0) :: (words2 wcb ++ [name.setWidth 32] ++ words2 add))
  | .pktTlaunch pr sem wcb tick name add =>
    some (pktHeader 0x04 8 pr (flag9 sem 0) :: (words2 wcb ++ words2 tick ++ [name.setWidth 32]
      ++ words2 add))
  | .pktIb pr host a n rkey =>
    some (pktHeader 0x05 5 pr (flag9 host 0) :: (words2 a ++ [n, rkey]))
  | .pktPred pr cc sg a v m =>
    some (pktHeader 0x06 7 pr (cc.setWidth 9 ||| flag9 sg 3) :: (words2 a ++ words2 v ++ words2 m))
  | .pktPend pr => some [pktHeader 0x07 1 pr 0]
  | .pktLoop pr n span idx => some (pktHeader 0x08 5 pr 0 :: ([n, span] ++ words2 idx))
  | .pktSemsigAdd pr w name v =>
    some (pktHeader 0x09 4 pr (flag9 w 1) :: (name.setWidth 32 :: words2 v))
  | .pktSemsigSet pr w name v =>
    some (pktHeader 0x09 4 pr (1 ||| flag9 w 1) :: (name.setWidth 32 :: words2 v))
  | .pktSemwait pr name v => some (pktHeader 0x0A 4 pr 0 :: (name.setWidth 32 :: words2 v))
  | .pktFfence pr => some [pktHeader 0x0B 1 pr 0]
  | .pktNotify pr w qp cookie =>
    some (pktHeader 0x0C 4 pr (flag9 w 0) :: (qp.setWidth 32 :: words2 cookie))
  | .pktStamp pr w a => some (pktHeader 0x0D 3 pr (flag9 w 0) :: words2 a)
  | .pktXfer pr w r o =>
    some [pktHeader 0x0E 2 pr (flag9 w 0), o ++ (0#10 : BitVec 10) ++ r]
  | .pktColl pr sem d name add =>
    some (pktHeader 0x0F 6 pr (flag9 sem 0) :: (words2 d ++ [name.setWidth 32] ++ words2 add))
  | .pktMpass pr sem wcb d name add =>
    some (pktHeader 0x10 8 pr (flag9 sem 0) :: (words2 wcb ++ words2 d ++ [name.setWidth 32]
      ++ words2 add))
  | .pktQuiesce pr => some [pktHeader 0x11 1 pr 0]
  | .pktHalt pr nt => some [pktHeader 0x12 1 pr (flag9 nt 0)]
  | .reservedPacketOpcode pr op => some [pktHeader op 1 pr 0]
  | _ => none

/-- The LEN an opcode requires: a minimum for NOP and WRITE, else the length itself (R98). -/
def pktLen : Nat → Option (Nat × Bool)
  | 0x00 => some (1, false) | 0x01 => some (4, false) | 0x02 => some (12, true)
  | 0x03 => some (6, true) | 0x04 => some (8, true) | 0x05 => some (5, true)
  | 0x06 => some (7, true) | 0x07 => some (1, true) | 0x08 => some (5, true)
  | 0x09 => some (4, true) | 0x0A => some (4, true) | 0x0B => some (1, true)
  | 0x0C => some (4, true) | 0x0D => some (3, true) | 0x0E => some (2, true)
  | 0x0F => some (6, true) | 0x10 => some (8, true) | 0x11 => some (1, true)
  | 0x12 => some (1, true) | _ => none

/-- The FLAGS bits an opcode defines (R98 to R106). -/
def pktFlags : Nat → BitVec 9
  | 0x02 | 0x03 | 0x04 | 0x05 | 0x0C | 0x0D | 0x0E | 0x0F | 0x10 | 0x12 => 1
  | 0x06 => 0xF
  | 0x09 => 3
  | _ => 0

/-- Words i and i + 1 of a body as a 64-bit value (R98). -/
def pair64 (ws : List (BitVec 32)) (i : Nat) : BitVec 64 := ws.getD (i + 1) 0 ++ ws.getD i 0

/-- The packet that the words of its length name, before the check that they are all used. -/
def candPkt (ws : List (BitVec 32)) : Option Instr :=
  let h := ws.getD 0 0
  let pr := bitB h 9
  let f0 := bitB h 0
  let wd (i : Nat) : BitVec 32 := ws.getD i 0
  match bitsN h 24 8 with
  | 0x00 => some (.pktNop pr (bits h 10 14))
  | 0x01 => some (.pktWrite pr (pair64 ws 1) (ws.drop 3))
  | 0x02 => some (.pktCopy pr f0 (pair64 ws 1) (pair64 ws 3) (bits (wd 5) 0 24) (bits (wd 6) 0 16)
      (bits (wd 6) 16 8) (wd 7) (wd 8) (bits (wd 9) 0 16) (pair64 ws 10))
  | 0x03 => some (.pktLaunch pr f0 (pair64 ws 1) (bits (wd 3) 0 16) (pair64 ws 4))
  | 0x04 => some (.pktTlaunch pr f0 (pair64 ws 1) (pair64 ws 3) (bits (wd 5) 0 16) (pair64 ws 6))
  | 0x05 => some (.pktIb pr f0 (pair64 ws 1) (wd 3) (wd 4))
  | 0x06 => some (.pktPred pr (bits h 0 3) (bitB h 3) (pair64 ws 1) (pair64 ws 3) (pair64 ws 5))
  | 0x07 => some (.pktPend pr)
  | 0x08 => some (.pktLoop pr (wd 1) (wd 2) (pair64 ws 3))
  | 0x09 => some (if f0 then .pktSemsigSet pr (bitB h 1) (bits (wd 1) 0 16) (pair64 ws 2)
      else .pktSemsigAdd pr (bitB h 1) (bits (wd 1) 0 16) (pair64 ws 2))
  | 0x0A => some (.pktSemwait pr (bits (wd 1) 0 16) (pair64 ws 2))
  | 0x0B => some (.pktFfence pr)
  | 0x0C => some (.pktNotify pr f0 (bits (wd 1) 0 4) (pair64 ws 2))
  | 0x0D => some (.pktStamp pr f0 (pair64 ws 1))
  | 0x0E => some (.pktXfer pr f0 (bits (wd 1) 0 14) (bits (wd 1) 24 8))
  | 0x0F => some (.pktColl pr f0 (pair64 ws 1) (bits (wd 3) 0 16) (pair64 ws 4))
  | 0x10 => some (.pktMpass pr f0 (pair64 ws 1) (pair64 ws 3) (bits (wd 5) 0 16) (pair64 ws 6))
  | 0x11 => some (.pktQuiesce pr)
  | 0x12 => some (.pktHalt pr f0)
  | op => some (.reservedPacketOpcode pr (BitVec.ofNat 8 op))

/-- What the decoder finds at a packet boundary: the packet with the words left, or MALFORM. -/
inductive PktDec where
  | packet (i : Instr) (rest : List (BitVec 32))
  | malform
  deriving DecidableEq, Repr

/-- The header checks of R97 that hold for a skipped packet too (R101): LEN, FLAGS, and the packet lying
within its level. A reserved opcode passes: it faults by its own rule. -/
def headerOk (h : BitVec 32) (left : Nat) : Bool :=
  let len := bitsN h 10 14
  match pktLen (bitsN h 24 8) with
  | none => true
  | some (n, exact) =>
    (if exact then len == n else n ≤ len) && len ≤ left &&
      (bits h 0 9 &&& ~~~(pktFlags (bitsN h 24 8))) == 0

/-- The words of a packet with the upper half of its semaphore word cleared where FLAGS[0] = 1 and R106
gives that half no range: W9 of COPY, W5 of TLAUNCH and MPASS, W3 of COLL (DEDUCED, log entry 54: no check
stated, so none made; the body words of LAUNCH are stated zero there and stay as they are). -/
def pktNamed (ws : List (BitVec 32)) : List (BitVec 32) :=
  let h := ws.getD 0 0
  let k := match bitsN h 24 8 with
    | 0x02 => 9
    | 0x04 | 0x10 => 5
    | 0x0F => 3
    | _ => 0
  if k == 0 || !bitB h 0 then ws
  else ws.set k ((bits (ws.getD k 0) 0 16 : BitVec 16).setWidth 32)

/-- Decode one packet at the head of a list of words (R97, R98). The words of a NOP's body are not
examined (R99), nor the half words that no rule gives a range. -/
def decodePacket (ws : List (BitVec 32)) : PktDec :=
  match ws with
  | [] => .malform
  | h :: _ =>
    let len := bitsN h 10 14
    if 0x13 ≤ bitsN h 24 8 then
      .packet (.reservedPacketOpcode (bitB h 9) (bits h 24 8)) (ws.drop 1)
    else if !headerOk h ws.length then .malform
    else
      match candPkt (ws.take len) with
      | none => .malform
      | some i =>
        if i.wf && (bitsN h 24 8 == 0 || encPkt i == some (ws.take len) ||
            encPkt i == some (pktNamed (ws.take len))) then
          .packet i (ws.drop len)
        else .malform

/-- The encoding of an instruction: the bits of its slot and the E slot it needs (zero where it names
none), the words of its packet, or a code word. Events have no encoding. -/
inductive Enc where
  | slot (sl : Slot) (w : BitVec 64) (e : BitVec 40)
  | packet (ws : List (BitVec 32))
  | code (w : BitVec 16)
  | none
  deriving DecidableEq, Repr

/-- The axis of a Y or X instruction. -/
def axisOf : Instr → Option Axis
  | .yxNop a | .yxSet a .. | .yxOne a .. | .yxNone a .. | .yxShl a .. | .yxShr a .. | .yxRotl a ..
  | .yxRotr a .. | .yxAnd a .. | .yxOr a .. | .yxRange a .. | .yxStride a .. | .yxFlag a ..
  | .yxFlagN a .. => some a
  | _ => none

/-- The loader slot of an N or W instruction. -/
def portOf : Instr → Option PortLoader
  | .nwNop l | .nwGo l | .nwStep l .. | .nwAuto l .. | .nwHold l | .nwZero l | .nwBcast l ..
  | .nwSet l .. => some l
  | .wGather => some .w
  | _ => none

/-- Encode an instruction (R97, R234 to R247). -/
def encode (i : Instr) : Enc :=
  match encS i with
  | some (w, e) => .slot .s w (e.getD 0)
  | none =>
    match encC i with
    | some (w, e) => .slot .c w (e.getD 0)
    | none =>
      match encYX i, axisOf i with
      | some w, some .y => .slot .y (w.setWidth 64) 0
      | some w, some .x => .slot .x (w.setWidth 64) 0
      | _, _ =>
        match encNW i, portOf i with
        | some (w, e), some .n => .slot .n (w.setWidth 64) (e.getD 0)
        | some (w, e), some .w => .slot .w (w.setWidth 64) (e.getD 0)
        | _, _ =>
          match encD i with
          | some (w, e) => .slot .d (w.setWidth 64) (e.getD 0)
          | none =>
            match encT i with
            | some (w, e) => .slot .t (w.setWidth 64) (e.getD 0)
            | none =>
              match encA i with
              | some w => .slot .a (w.setWidth 64) 0
              | none =>
                match encPkt i with
                | some ws => .packet ws
                | none =>
                  match i with
                  | .reservedCodeWord w => .code w
                  | _ => .none

/-- Decode an encoding. -/
def decodeEnc : Enc → Option Instr
  | .slot .s w e => decodeS w e
  | .slot .c w e => decodeC w e
  | .slot .y w _ => decodeYX .y (w.setWidth 16)
  | .slot .x w _ => decodeYX .x (w.setWidth 16)
  | .slot .n w e => decodeNW .n (w.setWidth 40) e
  | .slot .w w e => decodeNW .w (w.setWidth 40) e
  | .slot .d w e => decodeD (w.setWidth 40) e
  | .slot .t w e => decodeT (w.setWidth 24) e
  | .slot .a w _ => decodeA (w.setWidth 40)
  | .packet ws =>
    match decodePacket ws with
    | .packet i [] => some i
    | _ => none
  | .code w => if 0x2000 ≤ w.toNat && w.toNat != 0xFFF0 then some (.reservedCodeWord w) else none
  | .none => none

/-- The instruction the decoder reads from a table row's word (log entry 5): a packet header of 32 bits
with a body of zeros, a Y slot of 16 bits, or a T slot of 24 bits with E zero. -/
def decodeTableWord (nbits w : Nat) : Option Instr :=
  if nbits = 32 then
    let h := BitVec.ofNat 32 w
    match decodePacket (h :: List.replicate (bitsN h 10 14 - 1) 0) with
    | .packet i _ => some i
    | .malform => none
  else if nbits = 16 then decodeYX .y (BitVec.ofNat 16 w)
  else if nbits = 24 then decodeT (BitVec.ofNat 24 w) 0
  else none

end Sys2Proof
end

