-- ==== Sys2Proof/Machine/ArrayState.lean ====
section
/-! DEFINITION. The state of one array: cells, sequencer, edges, local memories and engines
(R144 to R206, R214, R221, R226, R229). Plain data. -/
namespace Sys2Proof.Machine
open Sys2Proof

/-- A byte memory in canonical form: addresses strictly rising, no listed zero (R21: what nothing has
written reads zero). -/
abbrev Memory := List Host.Cell

/-- A port or latch vector: 64 elements of 32 bits and their poison marks (R148, R362). -/
structure PortVec where
  data  : BitVec 2048 := 0
  marks : W64 := 0
  deriving DecidableEq, Repr, Inhabited

/-- One cell (R172), with the poison marks that R230, R322 and R399 give its registers. -/
structure CellS where
  q     : Tab Vec := []
  k     : Tab Vec := []
  cm    : Vec := 0
  g     : BitVec 4 := 0
  ha    : Vec := 0
  fstk  : Flags := 0
  os    : Tab Vec := []
  qm    : BitVec 16 := 0
  km    : BitVec 8 := 0
  cmm   : Bool := false
  ham   : Bool := false
  osm   : W64 := 0
  deriving DecidableEq, Repr

/-- A mark on a sequencer register (R282): poisoned or revoked, and the detail source of its trap. -/
structure SMark where
  rev : Bool
  src : BitVec 4
  deriving DecidableEq, Repr

/-- A sequencer register: value, poison mark, pending (R280 to R282). -/
structure SReg where
  v    : W64 := 0
  mark : Option SMark := none
  pend : Bool := false
  deriving DecidableEq, Repr

/-- A value on its way to a sequencer register (R280, R281): ready from array ac `at_`. -/
structure PendVal where
  reg  : Nat
  v    : W64
  mark : Option SMark
  at_  : Nat
  /-- an AMO whose read half met an error: no value, the array traps with POISON (R297) -/
  bad  : Bool := false
  /-- the tau carried by the reply of an SC operation (R221) -/
  tau  : Option W64 := none
  /-- the reply is a tau past 2^64 - 1: the array traps with SCCLK -/
  clk  : Bool := false
  /-- it is the reply of an SC operation -/
  sc   : Bool := false
  /-- it tells that a semaphore wait in another bulkhead is satisfied (R302) -/
  wait : Bool := false
  deriving DecidableEq, Repr

/-- A loop stack entry (R286). -/
structure LoopE where
  index : Nat
  count : Nat
  start : Nat
  stop  : Nat
  sw    : Bool
  deriving DecidableEq, Repr

/-- A shape entry: count and five extents, kept as e - 1 so that zero is the node-start extent 1
(R161, R162). DESIGN CHOICE (log entry 143): R161 gives the extents at node start and not the count; it is 5. -/
structure ShapeE where
  m  : Nat := 5
  ex : Tab Nat := []
  deriving DecidableEq, Repr

/-- A nest set: the 16 fields of R186 by number. -/
abbrev Nest := Tab Nat

/-- A loader (R361, R369): active and shadow nest, position, last port vector, AUTO still to run. -/
structure LoaderS where
  active   : Nest := []
  valid    : Bool := false
  shadow   : Nest := []
  pos      : Nat := 0
  v        : PortVec := {}
  auto     : Nat := 0
  autoDst  : LatchDst := .port
  deriving DecidableEq, Repr, Inhabited

/-- A vector travelling to a port: the TT of the bundle that carries it (R148). -/
structure VecFly where
  due   : Nat
  north : Bool
  vec   : PortVec
  deriving DecidableEq, Repr

/-- A latch load: the TT of its bundle, latch 0 NPL, 1 SPL, 2 WPL, 3 EPL, quarter, vector (R150). -/
structure LatchLoad where
  tt   : Nat
  id   : Nat
  q    : Nat
  vec  : PortVec
  deriving DecidableEq, Repr

/-- A transposer operation that takes effect 16 issue cycles after `tt` (R192). -/
structure TOp where
  tt  : Nat
  row : Option Nat
  vec : PortVec
  deriving DecidableEq, Repr

/-- A bundle's C slot on its way down the rows (R147, R151, R158). -/
structure PipeE where
  ins    : Instr
  craw   : W64
  ym     : W64
  xm     : W64
  seg    : W64
  em     : BitVec 8
  srn    : W32
  seed   : W32
  tile   : W32
  pc     : Nat
  tt     : Nat
  word   : W16
  np     : Option PortVec
  wp     : Option PortVec
  /-- lane value of each column; set at row 0 (R153) -/
  lane   : Tab Nat
  /-- taps taken by a segadd DRN: row and the 64 lane values before it (R205, R372) -/
  taps   : List (Nat × Tab Nat)
  /-- the rows of those taps in which some cell executed (R205) -/
  tapLive : W64 := 0
  fl     : W64
  fst    : Flags
  sigi   : W32
  /-- cm of the row 63 above, where the entry crossed a chain link (R159) -/
  upcm   : Option (Tab Vec)
  upmk   : W64
  /-- cm of the row below as an unperformed instance would have read it (R225) -/
  dncm   : Option (Tab Vec) := none
  dnmk   : W64 := 0
  perf   : BitVec 10
  /-- the masks sampled at the leader, which the signatures cover (R229) -/
  ym0    : W64 := 0
  xm0    : W64 := 0
  /-- an uncorrectable error of the shed bank it came from (R230) -/
  pois   : Bool := false
  deriving DecidableEq, Repr

/-- The trap causes of R227. -/
inductive Cause where
  | illcode | slotcf | bankcf | portmt | portov | foreign | region | align | ttdev | loopov
  | callov | poison | keyrev | keyexh | hstate | link | watchdog | trapi | priv | resid
  | wavesig | semname | domain | extkill | scclk
  deriving DecidableEq, Repr

/-- A fault found in one ac: the faulting slot code (0xF none), or the row of a C instance (R224). -/
structure FaultE where
  cause  : Cause
  slot   : Nat
  detail : W64
  region : Nat := 0x3FFF
  row    : Option Nat := none
  col    : Nat := 0
  deriving DecidableEq, Repr

/-- A trap record (R226). -/
structure TrapRec where
  cause   : Cause
  logical : Nat
  perf    : BitVec 10
  slot    : Nat
  member  : Nat
  pc      : Nat
  tt      : W64
  detail  : W64
  region  : Nat
  row     : Nat
  col     : Nat
  valid   : Bool
  deriving DecidableEq, Repr

/-- A landing slot in use (R165): lines hold their bytes and mark as they arrive. -/
structure LandS where
  dest  : Nat
  bytes : Nat
  due   : Nat
  /-- the lines in its buffer, with a mark for each byte (R399) -/
  lines : Tab (BitVec 512 × W64)
  /-- 256-byte pieces written so far -/
  done  : Nat
  /-- the package lines pinned for it (R70) -/
  pas   : List Nat := []
  /-- bytes of the array's own earlier writes that lay in its egress cache at issue, and their poison (R214),
  by line -/
  ov    : Tab (BitVec 512 × W64 × Bool) := []
  deriving DecidableEq, Repr

/-- A line that has come back for a landing slot and not yet entered its buffer (R165). The engine's feature lines
come under slot 32, by 32 times the edge and the line of its row, and its edge records under slot 33, by 16 times the
block and the line (R204). -/
structure LandIn where
  slot : Nat
  line : Nat
  data : BitVec 512
  bad  : Bool
  /-- the package line pinned for it (R70) -/
  pin  : Option Nat := none
  deriving DecidableEq, Repr

/-- The states of a buffer handle (R193). -/
inductive HState where
  | free | filling | full | draining
  deriving DecidableEq, Repr

/-- A buffer handle (R193). -/
structure HandleS where
  kind : Nat := 0
  base : Nat := 0
  len  : Nat := 0
  st   : HState := .free
  ph   : Bool := false
  exp  : Nat := 0
  arr  : Nat := 0
  deriving DecidableEq, Repr

/-- A copy channel in use (R196 to R200). -/
structure ChanS where
  tmpl  : BitVec 1024
  sreg  : W64
  dreg  : W64
  nosem : Bool
  pos   : Nat
  stop  : Bool
  /-- the FIFO marker behind its last memory write (R114) -/
  mark  : Option Nat := none
  /-- the packet of its next line is on the torus (R63) -/
  sent  : Bool := false
  /-- where it reads the operand store, it sees the OSW of every bundle issued before this TT (R218, R347) -/
  after : Option Nat := none
  deriving DecidableEq, Repr

/-- A region descriptor (R208). -/
structure Region where
  vbase : Nat := 0
  k     : Nat := 0
  kind  : Nat := 0
  owner : Nat := 0
  slot  : Nat := 0
  prot  : Nat := 0
  stage : Bool := false
  win   : Bool := false
  ro    : Bool := false
  rpend : Bool := false
  winIx : Nat := 0
  pbase : Nat := 0
  tag   : Nat := 0
  mark  : Nat := 0
  markA : Nat := 0
  markV : Bool := false
  deriving DecidableEq, Repr

/-- A line of the egress cache (R214). -/
structure EgLine where
  data   : BitVec 512 := 0
  mask   : W64 := 0
  poison : Bool := false
  region : Nat := 0x3FFF
  slot   : Nat := 0
  prot   : Nat := 0
  stage  : Bool := false
  win    : Option Nat := none
  /-- the torus class of the path that wrote it; 1 once the sequencer has (R63, R218) -/
  cls    : Nat := 1
  /-- the node whose write made it dirty (R140) -/
  node   : Option (Nat × Nat) := none
  deriving DecidableEq, Repr

/-- An entry of the dirty-line FIFO: a line, or a marker (R214). -/
inductive FifoE where
  | line (key : Nat)
  | marker (n : Nat)
  deriving DecidableEq, Repr

/-- The AMO operators (R297). -/
inductive AmoOp where
  | add | min | max | and | or | swap | cas
  deriving DecidableEq, Repr

/-- An SC operation queued at an array (R220 to R222). -/
inductive ScKind where
  | load | store | amo (op : AmoOp) (uns : Bool)
  deriving DecidableEq, Repr

/-- An SC operation with its operands. -/
structure ScOp where
  kind : ScKind
  w64  : Bool
  va   : Nat
  reg  : Nat
  b    : W64
  c    : W64
  deriving DecidableEq, Repr

/-- The operations of the semaphore file (R113). -/
inductive SemKind where
  | add | set | read | wait
  deriving DecidableEq, Repr

/-- A semaphore operation of an array (R301, R302). -/
structure SemOp where
  kind : SemKind
  name : W16
  v    : W64
  reg  : Nat
  /-- array ac of issue -/
  at_  : Nat
  sent : Bool
  /-- the run of the array that issued it (R281) -/
  ep   : Nat := 0
  /-- it is on its way to another bulkhead's file, or its reply on the way back (R301) -/
  far  : Bool := false
  /-- an add or set of a packet or a completion, which is not answered (R113) -/
  mute : Bool := false
  deriving DecidableEq, Repr

/-- What an issued S slot waits for before the next bundle may issue (R168). -/
inductive WaitK where
  /-- SEM.WAIT: the semaphore, the value, the ac of issue, the ac from which it passes (R302) -/
  | sem (name : W16) (v : W64) (since : Nat) (ok : Option Nat)
  /-- FENCE.X: the copies it waits for, and whether it waits for the array's collectives; at least one ac
  from `since` (R300) -/
  | fence (chans : List Nat) (colls : Bool) (since : Nat)
  /-- REL: the marker; at least one ac (R216) -/
  | rel (marker since : Nat)
  /-- XFER: until every region cache has dropped the entry (R215) -/
  | xfer (region since : Nat)
  deriving DecidableEq, Repr

/-- The condition of an array's clock domain (R145), and what surrounds it. -/
inductive Cond where
  | idle | placed | running | held | halting | halted | preempted | capturing
  deriving DecidableEq, Repr, Inhabited

/-- What the slots of a bundle read that another slot of the bundle may write: the sequencer registers, the masks, the
shadow nests and the values of stochastic rounding as they stood at the start of its issue cycle (R225, R235, R276). -/
structure InputS where
  s   : Tab SReg := []
  ym  : Tab W64 := []
  xm  : Tab W64 := []
  shN : Nest := []
  shW : Nest := []
  shD : Nest := []
  srn : W32 := 0
  seed : W32 := 0
  tile : W32 := 0
  deriving DecidableEq, Repr, Inhabited

/-- A bundle held in the replay buffer (R224, R225). -/
structure HeldS where
  bits  : BundleBits
  word  : W16
  pc    : Nat
  tt    : Nat
  perf  : BitVec 10
  /-- C instances of rows not performed, with their entries -/
  rows  : List (Nat × PipeE)
  /-- the inputs that its slots had -/
  inp   : InputS := {}
  deriving DecidableEq, Repr

/-- An edge record in the engine's buffer (R201, R204), with the trap of an address outside every region or
of a poisoned record, and its region. -/
structure EdgeRec where
  src : Nat
  dst : Nat
  bad : Option (Cause × Nat) := none
  deriving DecidableEq, Repr

/-- A message-passing step in progress (R201 to R205). -/
structure MpeS where
  edges  : Nat
  eCount : Nat
  sBase  : Nat
  sStr   : Nat
  fs     : Nat
  dBase  : Nat
  dStr   : Nat
  fd     : Nat
  oBase  : Nat
  oStr   : Nat
  doff   : Nat
  cin    : Bool
  cont   : Bool
  carry  : Nat
  stg    : Nat
  dstart : Nat
  p      : Nat
  t0     : Nat
  packet : Bool
  /-- edge buffer: block number to its records -/
  buf    : Tab (List EdgeRec)
  /-- feature lines that have come, at 32 * edge + line of the row, with a mark for each byte; for those asked for and
  still to come, the array's own later bytes (R204, R214, R399) -/
  feat   : Tab (BitVec 512 × W64) := []
  featOv : Tab (BitVec 512 × W64 × Bool) := []
  /-- the same for lines of edge records, at 16 * block + line, and the traps of those that no region allows -/
  recs   : Tab (BitVec 512 × W64) := []
  recOv  : Tab (BitVec 512 × W64 × Bool) := []
  recBad : Tab (Cause × Nat) := []
  /-- carry record valid under CIN, and its vertex -/
  cval   : Bool
  cdst   : Nat
  deriving DecidableEq, Repr

/-- What a follower's bundle gives the leader's C slot that enters its rows next (R151, R158). -/
structure Sample where
  ym : Tab W64
  xm : Tab W64
  np : Option PortVec
  wp : Option PortVec
  deriving DecidableEq, Repr

/-- What a chain's leader had when it issued a bundle, for the members that issue it later (R158, R276,
R356). -/
structure LeadLog where
  tt   : Nat
  pc   : Nat
  efv  : W64
  seed : W32
  tile : W32
  srn  : W32
  deriving DecidableEq, Repr

/-- A location of an array SRAM (R230): a cell register, an operand-store slot, a scratchpad word, a word of
code memory or of the dictionary, a data-memory word of 8 bytes, a line of a landing buffer (slot 32: of the
message-passing engine's, by edge and line), a row of the shed bank, a line of the egress cache. -/
inductive SramLoc where
  | cell (r c reg : Nat) | os (r c slot : Nat) | spad (word : Nat) | code (word : Nat) | dict (entry : Nat)
  | dmem (word : Nat) | land (slot line : Nat) | shed (row : Nat) | egress (key : Nat)
  deriving DecidableEq, Repr

/-- An error that a location has taken: corrected, or uncorrectable (R230). -/
structure SramErr where
  loc : SramLoc
  ue  : Bool
  deriving DecidableEq, Repr

/-- Bytes that the copy engine writes through an asynchronous port (R185): the operand store or the scratchpad, the
address, the bytes with their marks, the array and channel they come from, the handle that counts them, and whether
the port takes them in the present ac. They are written after its timetabled accesses. -/
structure AsyW where
  os    : Bool
  addr  : Nat
  bytes : List Byte
  marks : List Bool
  src   : Nat × Nat
  hnd   : Nat
  go    : Bool
  deriving DecidableEq, Repr

set_option maxRecDepth 4000 in
/-- One array. -/
structure ArrayS where
  cond     : Cond := .idle
  /-- runs started and ended so far: replies of an earlier run are discarded -/
  epoch    : Nat := 0
  /-- ac seen by this array's engines -/
  ac       : Nat := 0
  -- placement (R129, R130, R157)
  node     : Option (Nat × Nat) := none
  /-- the queue that launched the node whose writes its egress cache may still hold: bulkhead, queue (R105) -/
  nq       : Option (Nat × Nat) := none
  logical  : Nat := 0
  vs       : Nat := 0
  chpos    : Nat := 0
  chlen    : Nat := 0
  leader   : Nat := 0
  lower    : Option Nat := none
  /-- the link from the member above takes 8 ac -/
  slow     : Bool := false
  /-- issue delay behind the leader (R158) -/
  delay    : Nat := 0
  fast     : Bool := false
  startTick : Option Nat := none
  -- image (R248)
  nd       : Nat := 0
  nc       : Nat := 0
  dict     : Tab BundleBits := []
  code     : Tab W16 := []
  dictUe   : List Nat := []
  codeUe   : List Nat := []
  -- sequencer (R161)
  s        : Tab SReg := []
  pc       : Nat := 0
  calls    : List Nat := []
  loops    : List LoopE := []
  shapes   : Tab ShapeE := []
  tt       : Nat := 0
  ttcrc    : W32 := 0xFFFFFFFF
  frzac    : W64 := 0
  dmem     : Memory := []
  dmUe     : List Nat := []
  er       : Tab W64 := []
  erq      : List (Nat × Nat × W64) := []
  ef       : Bool := false
  efv      : W64 := 0
  efop     : Bool := false
  edgemode : BitVec 8 := 0
  svaddr   : Nat := 0
  svrun    : Nat := 0
  seed     : W32 := 0
  tile     : W32 := 0
  srcount  : W32 := 0
  clock    : W64 := 0
  pend     : List PendVal := []
  -- masks and edges
  ym       : Tab W64 := []
  xm       : Tab W64 := []
  ldN      : LoaderS := {}
  ldW      : LoaderS := {}
  ldD      : LoaderS := {}
  dlat     : Tab W32 := []
  latch    : Tab Vec := []
  latchLog : List LatchLoad := []
  /-- latch entries built from a marked word, as 4 * (64 * id + i) + quarter (R399) -/
  latchMk  : List Nat := []
  tbuf     : Tab W32 := []
  tbufMk   : Tab Bool := []
  tq       : List TOp := []
  fly      : List VecFly := []
  occN     : Nat := 0
  occW     : Nat := 0
  -- cells and pipe
  cells    : Tab (Tab CellS) := []
  npq      : Tab (List PortVec) := []
  wpq      : Tab (List (W32 × Bool)) := []
  pipe     : List (Option PipeE) := []
  /-- the C slot issued in the last issue cycle (leader), or the eight that cross a slow link -/
  inq      : List (Option PipeE) := []
  /-- a follower's sample for the entry that comes next -/
  smp      : Option Sample := none
  /-- edge flags on their way: when readable, EFV, ef, operator (R156, R159) -/
  efq      : List (Nat × W64 × Bool × Bool) := []
  /-- cm of row 0 after each of the last 9 ac, newest first (R159) -/
  cm0      : List (Tab Vec × W64) := []
  /-- cm of row 63 as it stood at the start of the ac (R149, R150) -/
  cm63     : Tab Vec × W64 := ([], 0)
  /-- cm of the row below row 63 in a chain, as this ac reads it (R159) -/
  cmLow    : Option (Tab Vec × W64) := none
  fstOr    : Flags := 0
  sigi     : W32 := 0xFFFFFFFF
  sigiRef  : W32 := 0xFFFFFFFF
  sigs     : W32 := 0xFFFFFFFF
  -- scratchpad, landing, handles, copies
  spad     : Memory := []
  spMk     : Tab Bool := []
  land     : Tab LandS := []
  landIn   : List LandIn := []
  handles  : Tab HandleS := []
  tmpl     : Tab (BitVec 1024) := []
  chans    : Tab ChanS := []
  /-- the copy channel whose turn is next (R185) -/
  chNext   : Nat := 0
  asy      : List AsyW := []
  /-- banks whose asynchronous port has moved its line of the present ac (R181) -/
  asyUsed  : List Nat := []
  /-- handles as they stood at the start of the present ac (R377) -/
  hstart   : Option (Tab HandleS) := none
  /-- the TT of the latest fence from P-LD to P-CP (R218, R347) -/
  ldFence  : Option Nat := none
  colls    : Nat := 0
  -- memory side
  eg       : Tab EgLine := []
  fifo     : List FifoE := []
  drained  : List (Nat × EgLine) := []
  markNext : Nat := 0
  rcache   : List (Nat × Region) := []
  rinv     : List Nat := []
  walk     : Option Nat := none
  walkBad  : Bool := false
  sc       : List ScOp := []
  /-- the oldest SC operation is on its way to its home slice -/
  scBusy   : Bool := false
  /-- an SC operation has been performed and its reply is on its way (R221) -/
  scWait   : Bool := false
  sems     : List SemOp := []
  -- issue control
  wait     : Option WaitK := none
  stall    : Nat := 0
  /-- the data addresses of a GATHER whose data lines are still to be read, with the marks of their
  indices (R190) -/
  gath     : Option (List (Nat × Bool)) := none
  /-- taps of the segadd DRN that reached the south edge in this ac (R372) -/
  edgeTaps : List (Tab Nat) := []
  lead     : List LeadLog := []
  /-- halting ac so far, in which the pipe still moves (R145, R288) -/
  hac      : Nat := 0
  /-- the HALT slot has been performed -/
  haltSeen : Bool := false
  divLeft  : Option Nat := none
  faults   : List FaultE := []
  async    : List FaultE := []
  trec     : Option TrapRec := none
  held     : Option HeldS := none
  /-- the trap is of a message-passing step, which verdict 4 does not resume (R204, R205) -/
  stepTrap : Bool := false
  /-- lanes of a carry record on their way into DLAT (R205) -/
  latchIn  : Tab W32 := []
  replay   : Bool := false
  perf     : BitVec 10 := 0
  -- the bundle being issued
  word     : W16 := 0
  cur      : BundleBits := 0
  nextPc   : Nat := 0
  jumped   : Bool := false
  handled  : Bool := false
  ledAuto  : BitVec 3 := 0
  /-- handles and busy landing slots as they stood at the start of the issue cycle (R235) -/
  handles0 : Tab HandleS := []
  busy0    : W32 := 0
  inp      : InputS := {}
  -- descriptor reads of MPASS and COLL.GO (R311, R312)
  descVa   : Option Nat := none
  mpe      : Option MpeS := none
  /-- the step that is to start, while its first edge records are read (R201, R311) -/
  ahead    : Option MpeS := none
  -- pre-emption (R135, R136)
  preReq   : Bool := false
  preLeft  : Nat := 0
  boundary : Bool := false
  /-- ac since the boundary bundle issued; and the pipe has already made the move of the next issue cycle (R135,
  R392) -/
  tbAc     : Nat := 0
  moved    : Bool := false
  /-- words of the save image that hold no state laid out by the spec, as software has written them, by word (R137,
  R314) -/
  svOver   : Tab W64 := []
  -- physical faults awaiting an operation that meets them (R228, R229)
  residCell : Nat := 0
  residSeq  : Nat := 0
  /-- the rows at which the next stage to enter fails its parity (R229) -/
  parity    : List Nat := []
  /-- errors that array SRAM has taken and not yet handled (R230) -/
  sram      : List SramErr := []
  deriving DecidableEq, Repr, Inhabited

/-- What an array resumes where software has changed words of its save image whose layout the spec does not give: the
captured state, and those words (R137, R314; log entry 46). -/
opaque resumedState : ArrayS → Tab W64 → ArrayS

end Sys2Proof.Machine
end

