-- ==== Sys2Proof/Machine/MemState.lean ====
section
/-! DEFINITION. The state of the torus, the L2 slices, the stack controllers and the memory they hold
(R60 to R85). -/
namespace Sys2Proof.Machine
open Sys2Proof

/-- What a stack holds of a line beside its plain text (R75 to R77, R80, R85). -/
structure LineMeta where
  /-- stored poisoned: the fixed check-bit pattern (R76) -/
  poison : Bool := false
  /-- bits that have flipped since the line was written: 0 to 511 of the stored line, 512 to 575 its side
  bits, of which a TOLERANT line keeps its check bits in 512 to 543 and its tag above (R75) -/
  flips  : List Nat := []
  /-- the stored tag does not match (R77) -/
  tagBad : Bool := false
  /-- protection the line was written with; STRICT after a scrub (R21, R75) -/
  prot   : Nat := 0
  /-- key slot and epoch the line was written under (R77, R80), and the slot's Kd and Kt of that time: none for
  those that its bulkhead's scrub installed (R21) -/
  slot   : Nat := 0
  epoch  : Nat := 1
  keys   : Option (Key × Key) := none
  deriving DecidableEq, Repr

/-- A line read: its bytes, poisoned, and held under a revoked slot (R81, R85). -/
structure LineVal where
  data : BitVec 512 := 0
  bad  : Bool := false
  rev  : Bool := false
  deriving DecidableEq, Repr

/-- A node: bulkhead of its BCP and slot (R124). -/
abbrev NodeId := Nat × Nat

/-- Who is answered by a line read at a slice. `ep` is the array's run number: a reply of an earlier run is
discarded (R281). -/
inductive Requester where
  /-- a sequencer load: array, register, byte offset, size, zero-extend, and the bytes of the array's own
  earlier writes that lay in its egress cache at issue, with their poison (R214, R293) -/
  | load (a ep reg off size : Nat) (zx : Bool) (ov : BitVec 512) (om : W64) (op : Bool)
  /-- a line for a landing slot: array, slot, line index (R165) -/
  | land (a ep slot line : Nat)
  /-- a drained line of an array: its egress key (R214) -/
  | drain (a key : Nat)
  /-- nobody: a prefetch (R378) -/
  | nobody
  /-- an engine's access through a window, made when its line has come: event, array if it is one of an array, bulkhead
  (R23, R63) -/
  | engine (i : Instr) (arr : Option Nat) (b : Nat)
  deriving DecidableEq, Repr

/-- A request queued at a slice (R67). `line` is PA / 64 of the package; `slot` and `prot` are the key slot
and protection of its region; `node` is the reading node, or the node whose staged write this is; `bh` is
the bulkhead of the requester; `cls` is its torus class (R63); `win` is the window it came through (R23). -/
structure SliceReq where
  write  : Bool
  line   : Nat
  slot   : Nat
  prot   : Nat
  who    : Requester
  bh     : Nat
  rc     : Nat := 0
  node   : Option NodeId := none
  shared : Bool := false
  stage  : Bool := false
  data   : BitVec 512 := 0
  mask   : W64 := 0
  poison : Bool := false
  cls    : Nat := 0
  win    : Option Nat := none
  deriving DecidableEq, Repr

/-- A line of a slice (R66). -/
structure L2Line where
  line    : Nat
  data    : BitVec 512
  valid   : W64
  dirty   : W64
  poison  : Bool := false
  rc      : Nat := 0
  /-- the read count has run out while the line was pinned (R69) -/
  spent   : Bool := false
  pins    : Nat := 0
  stage   : Option NodeId := none
  replica : Bool := false
  ts      : W64 := 0
  ue      : Bool := false
  slot    : Nat := 0
  prot    : Nat := 0
  deriving DecidableEq, Repr

/-- The request kinds of R72; the codes 0x3 to 0xF are reserved. -/
inductive StackKind where
  | rd64 | wr64 | rmw | reserved (code : BitVec 4)
  deriving DecidableEq, Repr

/-- A stack packet (R72): `from_` is the slice that sent it, `cls` its torus class. -/
structure StackReq where
  kind : StackKind
  tag  : Nat
  ch   : Nat
  bh   : Nat
  gen  : W16
  key  : Nat
  prot : Nat
  line : Nat
  mask : W64
  data : BitVec 512
  pois : Bool
  from_ : Nat
  cls  : Nat := 0
  deriving DecidableEq, Repr

/-- A reply packet (R72): kind 8, 9, 0xA or 0xB. -/
structure StackReply where
  kind : Nat
  tag  : Nat
  ch   : Nat
  pois : Bool
  stat : Nat
  data : BitVec 512
  line : Nat
  deriving DecidableEq, Repr

/-- An L2 slice (R66 to R71): lines most recently used first, high-water mark H (R221), queued
requests, requests that wait for the stack, and replies. -/
structure SliceS where
  lines   : List L2Line := []
  high    : W64 := 0
  reqs    : List SliceReq := []
  waiting : List SliceReq := []
  replies : List StackReply := []
  /-- lines whose fill on its way is older than a write that has since reached the stack -/
  stale   : List Nat := []
  deriving DecidableEq, Repr

/-- A base-die controller (R17, R72, R83): its generation copies, allocation table (0xFFF1 marks FREE,
an unlisted granule belongs to domain 0), request queue in order of receipt; by channel, the tag to try next
and the tags whose reply has not arrived (R73). -/
structure StackS where
  gens : Tab W16 := []
  pat  : Tab Nat := []
  reqs : List StackReq := []
  tagNext : Tab Nat := []
  tags : Tab (List Nat) := []
  deriving DecidableEq, Repr

/-- The counters of a 4 KiB page (R78): major, and minors by line. -/
structure PageS where
  major  : Nat := 0
  minors : Tab Nat := []
  deriving DecidableEq, Repr

/-- A window request (R23, R74): `gen` and `expGen` are the generations it carries, `node` and `stage` those
of a staged write (R223). -/
structure WinReq where
  win    : Nat
  write  : Bool
  line   : Nat
  data   : BitVec 512
  mask   : W64
  bh     : Nat
  gen    : W16
  expGen : W16
  who    : Requester
  poison : Bool := false
  node   : Option NodeId := none
  stage  : Bool := false
  deriving DecidableEq, Repr

/-- What a torus packet carries (R61, R63). -/
inductive NetMsg where
  /-- a request to slice s of bulkhead b -/
  | slice (b s : Nat) (r : SliceReq)
  /-- a semaphore operation of array a for the file of bulkhead b (R113) -/
  | sem (b : Nat) (a : Nat) (op : SemOp)
  /-- a line for who asked; `pin` names the line pinned for it (R70) -/
  | line (who : Requester) (v : LineVal) (pin : Option Nat)
  /-- a request to the controller of stack k, and a reply to slice k (R72) -/
  | stack (k : Nat) (r : StackReq)
  | stackReply (k : Nat) (r : StackReply)
  /-- a request to the window bridge, and the line a window read brings to it (R23) -/
  | win (r : WinReq)
  | winLine (w bh : Nat) (who : Requester) (v : LineVal)
  /-- the oldest SC operation of array a, run ep, on its way to its home slice (R220) -/
  | scGo (a ep : Nat)
  /-- the reply of an SC or semaphore operation to array a, run ep (R221, R301) -/
  | value (a ep : Nat) (v : PendVal)
  /-- an engine's access to memory, made where the packet arrives (R63) -/
  | act (i : Instr) (a b : Nat)
  /-- line i of record n of the checkpoint stream started at ac t: its bytes, and whether it goes as poisoned (R87) -/
  | ckpt (t n i : Nat) (v : BitVec 512 × Bool)
  deriving DecidableEq, Repr

/-- A torus packet: class, destination router, age (R18, R61, R63). -/
structure Packet where
  cls  : Nat
  die  : Nat
  x    : Nat
  y    : Nat
  bh   : Nat
  born : Nat
  msg  : NetMsg
  deriving DecidableEq, Repr

/-- The ring directions of a router (R61). -/
inductive Dir where
  | east | west | south | north
  deriving DecidableEq, Repr

/-- A router (R61 to R63): ring buffers by direction (four each), packets that wait to enter by class,
and the packets still allowed to each class in this weighted round. -/
structure RouterS where
  ring   : Tab (List Packet) := []
  enter  : Tab (List Packet) := []
  credit : Tab Nat := []
  deriving DecidableEq, Repr

end Sys2Proof.Machine
end

