-- ==== Sys2Proof/Machine/HubState.lean ====
section
/-! DEFINITION. The state of the hub, the host port, the fabric links, the bulkheads with their
command processors, and the partitions (R10 to R59, R82 to R143, R208 to R212, R394). -/
namespace Sys2Proof.Machine
open Sys2Proof

/-- A counter field that any 1 written clears (R6): its value, and the ac of the latest count and the latest
clear. -/
structure CountF where
  n     : Nat := 0
  cntAt : Option Nat := none
  clrAt : Option Nat := none
  deriving DecidableEq, Repr

/-- Hardware counts into the field: it reads 1 after a clear in the same ac, and saturates (R6). -/
def CountF.count (c : CountF) (now : Nat) : CountF :=
  { c with n := if c.clrAt = some now then 1 else min 0xFFFF (c.n + 1), cntAt := some now }

/-- A write with a 1 in the field: zero, or 1 where hardware has counted in the same ac (R6). -/
def CountF.clear (c : CountF) (now : Nat) : CountF :=
  { c with n := if c.cntAt = some now then 1 else 0, clrAt := some now }

/-- An error record (R86). -/
structure ErrRec where
  cls   : Nat
  bh    : Nat
  part  : Nat
  syn   : Nat
  region : Nat
  line  : Nat
  count : Nat
  time  : Nat
  /-- the ac in which it was formed -/
  at_   : Nat
  deriving DecidableEq, Repr

/-- A notification record (R94). -/
structure Notif where
  kind    : Nat
  cause   : Nat
  q       : Nat
  level   : Nat
  seq     : W32
  cookie  : W64
  offset  : Nat
  disc    : Nat
  time    : W64
  tail    : BitVec 256
  qp      : Nat
  deriving DecidableEq, Repr

/-- The RoCE packets the port accepts and sends (R37). -/
inductive RoceOp where
  | send | sendImm | write | writeImm | read | atomic | ack | nak (code : Nat) | readResp | cnp
  deriving DecidableEq, Repr

/-- A RoCE packet (R37). -/
structure RocePkt where
  op    : RoceOp
  rc    : Bool := true
  qpn   : Nat
  psn   : Nat
  icrc  : Bool := true
  va    : Nat := 0
  rkey  : W32 := 0
  /-- bytes of the whole message, as its first packet says -/
  len   : Nat := 0
  data  : List Byte := []
  /-- the message sequence number that an answer carries -/
  msn   : Nat := 0
  /-- the packet begins, and ends, its message -/
  first : Bool := true
  last  : Bool := true
  deriving DecidableEq, Repr

/-- The PTP messages that an ordinary clock in slave-only state receives and sends (R46). -/
inductive PtpKind where
  | sync | delayReq | pdelayReq | pdelayResp | followUp | delayResp | pdelayRespFollowUp | announce
  deriving DecidableEq, Repr

/-- The transports of PTP messages: UDP/IPv4, UDP/IPv6, EtherType 0x88F7 (R46). -/
inductive PtpTransport where
  | udp4 | udp6 | ether
  deriving DecidableEq, Repr

/-- A PTP message (R46): kind, transport, domain, and the hub's time when it was made. -/
structure PtpMsg where
  kind   : PtpKind
  trans  : PtpTransport
  domain : Byte
  time   : Nat := 0
  deriving DecidableEq, Repr

/-- What an Ethernet frame carries. -/
inductive FrameKind where
  | roce (p : RocePkt)
  | pause
  /-- an 802.1Qbb frame: the priorities it names and a time in quanta for each (R44) -/
  | pfc (enable : BitVec 8) (quanta : BitVec 128)
  | ptp (m : PtpMsg)
  | other
  deriving DecidableEq, Repr

/-- An Ethernet frame at the port (R36, R41): destination, VLAN (0 untagged), IP version and address,
length with FCS, FCS good, ECN mark; of a frame the device sends, its own addresses, the queue pair it is from
and its place in the order of frames made ready (R45). -/
structure Frame where
  mac  : BitVec 48
  vlan : Nat
  v6   : Bool
  ip   : BitVec 128
  len  : Nat
  fcs  : Bool
  ce   : Bool
  tc   : Nat := 0
  body : FrameKind
  src  : BitVec 48 := 0
  sip  : BitVec 128 := 0
  qp   : Option Nat := none
  ord  : Nat := 0
  /-- the 802.1Q priority it is sent with (R43, R44) -/
  pcp  : Nat := 0
  deriving DecidableEq, Repr

/-- Queue pair states (R42). -/
inductive QpState where
  | reset | rts | error
  deriving DecidableEq, Repr

/-- What an outstanding request of the device is for (R37). -/
inductive QpWork where
  | notify
  | fetch (b q level off len : Nat)
  /-- a checkpoint frame, sent by a partition's turn, or by none of FREE bulkheads (R87) -/
  | ckpt (p : Option Nat)
  deriving DecidableEq, Repr

/-- A message of more than one packet that is being received (R37): a WRITE with its R_Key, the next address and the
bytes left, or a SEND with the bytes so far. -/
structure RdmaMsg where
  write : Bool
  rkey  : W32 := 0
  va    : Nat := 0
  left  : Nat := 0
  data  : List Byte := []
  deriving DecidableEq, Repr

/-- A queue pair (R42). -/
structure QpS where
  st      : QpState := .reset
  remote  : Nat := 0
  sPsn    : Nat := 0
  rPsn    : Nat := 0
  mtu     : Nat := 0
  v6      : Bool := false
  ecn     : Bool := false
  tmo     : Nat := 0
  tcls    : Nat := 0
  ip      : BitVec 128 := 0
  mac     : BitVec 48 := 0
  /-- received packets not yet handled, oldest first, with the bytes they hold in the buffer -/
  rx      : List (RocePkt × Nat) := []
  /-- requests sent and not acknowledged: PSN, packet, purpose -/
  out     : List (Nat × RocePkt × QpWork) := []
  retries : Nat := 0
  /-- ac of the last sending or acknowledgement -/
  at_     : Nat := 0
  /-- send rate in units of 2^-30 of line rate (R37) -/
  rate    : Nat := 1073741824
  /-- ac of the last CNP sent -/
  ceAt    : Option Nat := none
  /-- ac of the last CNP received or rate increase -/
  cnpAt   : Option Nat := none
  /-- the message being received, and the messages received so far -/
  msg     : Option RdmaMsg := none
  msn     : Nat := 0
  /-- the ac from which its next frame may go, at its present rate (R37) -/
  nextTx  : Nat := 0
  /-- SEND messages completed with flush errors -/
  flushed : Nat := 0
  deriving DecidableEq, Repr

/-- The host port (R36 to R45). -/
structure PortS where
  mode     : Bool := false
  en       : Bool := false
  up       : Bool := false
  vfmap    : Tab W32 := []
  fnaddr   : Tab W32 := []
  qpbuf    : Tab W32 := []
  qpErr    : Nat := 0
  qpBusy   : Bool := false
  qpFn     : Nat := 0
  qpN      : Nat := 0
  qps      : Tab QpS := []
  part     : Tab W32 := []
  /-- frames that have arrived on the wire and were not yet received (input) -/
  wire     : List Frame := []
  /-- received bytes held, by partition number, 16 for the PSF (R43) -/
  held     : Tab Nat := []
  /-- frames ready to send, by partition number, 16 for the PSF -/
  tx       : Tab (List Frame) := []
  /-- checkpoint frames of FREE bulkheads (R45, R87) -/
  txFree   : List Frame := []
  /-- frames that wait for room in a reservation, by the same numbers, 17 for checkpoint frames of FREE bulkheads
  (R43) -/
  txWait   : Tab (List Frame) := []
  /-- PTP messages ready to send (R45, R46), and the number of the next frame made ready -/
  ptpTx    : List Frame := []
  ordNext  : Nat := 0
  deficit  : Tab Nat := []
  /-- frames sent, newest first (output) -/
  sent     : List Frame := []
  xoff     : BitVec 8 := 0
  paused   : BitVec 8 := 0
  pauseEnd : Tab Nat := []
  psfSent  : Nat := 0
  psfSince : Nat := 0
  notif    : Tab (List Notif) := []
  /-- NODE notifications that wait for room in their function's buffer (R95) -/
  notifLate : Tab (List Notif) := []
  deriving DecidableEq, Repr

/-- Link states (R52). -/
inductive LinkState where
  | down | training | up
  deriving DecidableEq, Repr

/-- A flit (R49): `len` is the number of valid payload bytes less one, and `crcOk` says whether the CRC that came
with it is that of its bytes. -/
structure Flit where
  kind : Nat
  vl   : Nat
  seq  : Nat
  ack  : Nat
  off  : BitVec 6
  tag  : W16
  len  : Nat
  crcOk : Bool
  data : BitVec 512
  deriving DecidableEq, Repr

/-- A fabric link end (R48 to R52, R394). -/
structure LinkS where
  st      : LinkState := .down
  dis     : Bool := false
  fabid   : W16 := 0
  trainId : W16 := 0
  trainAt : Nat := 0
  rtt     : Nat := 0
  retry   : CountF := {}
  arb     : W32 := 0x0404
  txSeq   : Nat := 0
  rxSeq   : Nat := 0
  /-- unacknowledged flits, oldest first (R51) -/
  buf     : List Flit := []
  /-- flits of `buf` still to resend -/
  resend  : List Flit := []
  /-- flits waiting to be sent, by lane -/
  txq     : Tab (List Flit) := []
  /-- received flits, by lane -/
  rxq     : Tab (List Flit) := []
  /-- own lanes off at this receiver -/
  off     : BitVec 6 := 0
  /-- partner lanes off, as the last flit said -/
  seen    : BitVec 6 := 0
  /-- a retry request is to be sent; one has been sent and the number it asks for has not come (R51) -/
  askRetry : Bool := false
  asked    : Bool := false
  retrySeq : Nat := 0
  retryRun : Nat := 0
  ackAt   : Nat := 0
  goodAt  : Nat := 0
  /-- flits that have arrived and were not yet received (input) -/
  wire    : List Flit := []
  /-- flits sent, newest first (output) -/
  sent    : List Flit := []
  /-- the turn is the collective group's, what is left of it, and the lanes served last (R394) -/
  turnColl : Bool := true
  turnLeft : Nat := 0
  laneS   : Nat := 3
  laneC   : Nat := 5
  /-- the ac from which a VL6 flit may start (R50) -/
  vl6At   : Nat := 0
  deriving DecidableEq, Repr

/-- Bulkhead states (R16). -/
inductive BhState where
  | off | powerup | reset | scrub | free | assigned | failed
  deriving DecidableEq, Repr

/-- A submit record (R91). -/
structure SubRec where
  q      : Nat
  host   : Bool
  flags  : Nat
  seq    : W32
  addr   : Nat
  len    : Nat
  rkey   : W32
  cookie : W64
  fn     : Nat
  qp     : Nat
  deriving DecidableEq, Repr

/-- A LOOP in progress on a stream level (R102), with its header word (R94). -/
structure SLoop where
  head  : W32 := 0
  start : Nat
  stop  : Nat
  count : Nat
  index : Nat
  addr  : Nat
  inSpan : Bool
  deriving DecidableEq, Repr

/-- A captured stream byte, or the cause of the queue fault that the packet holding it raises (R93, R110,
R115). -/
inductive HeldByte where
  | byte (b : Byte)
  | bad (cause : Nat)
  deriving DecidableEq, Repr

/-- A stream level (R103, R110): held bytes by offset; where the PRED of the open span stands, with its header
word (R94); bytes that the check of a LOOP span has looked at, which are not held (R102). -/
structure LevelS where
  host  : Bool
  base  : Nat
  len   : Nat
  rkey  : W32
  pos   : Nat
  bytes : Tab HeldByte := []
  span  : Option Bool := none
  pred  : Nat × W32 := (0, 0)
  loop  : Option SLoop := none
  scan  : Tab HeldByte := []
  deriving DecidableEq, Repr

/-- Queue states (R89). -/
inductive QState where
  | idle | running | waiting | halted | faulted
  deriving DecidableEq, Repr

/-- What a waiting queue awaits (R90). -/
inductive QWait where
  | sem (name : W16) (v : W64)
  | quiesce
  /-- a node slot, and room for the copies of a chain of WCBs (R106, R123) -/
  | nodes (chain : List Nat)
  | copies
  | notif
  | xfer (region : Nat)
  | fetch
  deriving DecidableEq, Repr

/-- The fault of a stopped COPY, raised at its queue's next packet boundary (R107): the cause, and the level,
offset and header word of the COPY (R94). -/
structure LateFault where
  cause : Nat
  level : Nat
  at_   : Nat
  head  : W32
  deriving DecidableEq, Repr

/-- A COPY in flight (R107), with its level, offset and header word (R94). -/
structure QCopy where
  level : Nat := 0
  at_   : Nat := 0
  head  : W32 := 0
  src  : Nat
  dst  : Nat
  row  : Nat
  rows : Nat
  rc   : Nat
  sp   : Int
  dp   : Int
  pos  : Nat
  sem  : Option (W16 × W64)
  stop : Option Nat
  /-- the packet of its next line is on the torus (R63) -/
  sent : Bool := false
  deriving DecidableEq, Repr

/-- A queue (R88 to R93). -/
structure QueueS where
  en       : Bool := false
  vf       : Nat := 0
  nqp      : Nat := 0
  st       : QState := .idle
  expected : W32 := 0
  pend     : List SubRec := []
  cur      : Option SubRec := none
  levels   : List LevelS := []
  wait     : Option QWait := none
  /-- the packet being executed has already waited (W flag) -/
  waited   : Bool := false
  copies   : Tab QCopy := []
  late     : Option LateFault := none
  /-- a fetch of host bytes is outstanding, and its reply: bytes, or none on error (R93) -/
  fetching : Bool := false
  reply    : Option (Option (Nat × Nat × List Byte)) := none
  /-- the outstanding fetch is for the check of a LOOP span (R102) -/
  scanning : Bool := false
  haltReq  : Bool := false
  /-- offset of the packet being executed, for notifications -/
  at_      : Nat := 0
  /-- an XFER packet awaits its markers: region, markers by array (R105) -/
  marks    : Tab Nat := []
  deriving DecidableEq, Repr

/-- Node states (R124). `draining` carries why: 0 completing, 1 saving, 2 held. -/
inductive NodeState where
  | waiting | ready | placed | running | draining (why : Nat) | done | failed | requeued
  deriving DecidableEq, Repr

/-- A gang (R120): first logical array, count, chain length less one. -/
structure Gang where
  first : Nat
  count : Nat
  chain : Nat
  deriving DecidableEq, Repr

/-- The place of a logical array of a launched node. -/
inductive LogState where
  | unplaced | placed | started | halted | saved
  deriving DecidableEq, Repr

/-- A logical array of a node (R129, R130). -/
structure LogS where
  st   : LogState := .unplaced
  phys : Nat := 0
  tick : Option Nat := none
  deriving DecidableEq, Repr

/-- A launched node (R120 to R142). -/
structure NodeS where
  st       : NodeState
  part     : Nat
  /-- its WCB, the WCBs of its chain, node first, and its nearest KIND 2 and KIND 1 ancestors -/
  wcb      : Nat
  chain    : List Nat
  graph    : Nat
  kdom     : Nat
  /-- launching queue (local number) with its submission; none from the schedule table -/
  q        : Option Nat
  seq      : W32
  cookie   : W64
  level    : Nat
  offset   : Nat
  sem      : Option (W16 × W64)
  /-- when a WAITING node becomes READY, in ns -/
  tick     : Option Nat
  /-- descriptors of an MPASS packet by logical array (R201) -/
  steps    : Option (Tab (BitVec 1024))
  -- effective fields (R121); the budgets name the WCB that defines them
  prio     : Nat
  fdom     : Nat
  fpmode   : Bool
  svmode   : Bool
  fast     : Bool
  vs       : Nat
  budget   : Option Nat
  stgAt    : Nat
  staging  : Nat
  -- fields of the node's own WCB (R120)
  ival     : Nat
  image    : Nat
  params   : Nat
  pbytes   : Nat
  vsem     : W16
  rqLimit  : Nat
  gangs    : List Gang
  fps      : List (Nat × Nat × Nat)
  save     : Nat
  status   : Nat
  -- progress
  logs     : Tab LogS
  replay   : Bool
  nrWhy    : Nat
  staged   : Nat := 0
  /-- its completion add is still to be performed, once its lines have drained (R106, R114) -/
  addDue   : Bool := false
  requeues : Nat := 0
  preempts : Nat := 0
  /-- its first trap record (R226) -/
  trap     : Option TrapRec := none
  readyAt  : Nat := 0
  placedAt : Nat := 0
  /-- by the first logical number of a time-sliced gang: the group whose turn it is, and the ac from which that group has
  run (R131) -/
  group    : Tab Nat := []
  groupAt  : Tab Nat := []
  /-- the gang whose group the pre-emption under way ends at its quantum -/
  switch   : Option Nat := none
  /-- physical arrays whose pre-emption is decided and not yet met, and the ac of the decision (R135) -/
  asked    : List Nat := []
  askAt    : Nat := 0
  /-- captured state by logical array (R135, R137) -/
  saved    : Tab ArrayS := []
  /-- the free-value number of its capture -/
  capId    : Nat := 0
  /-- its cycle budget is exhausted (R132) -/
  demoted  : Bool := false
  deriving DecidableEq, Repr

/-- A WCB copy held by a BCP (R123), with what is left of its cycle budget (R132). -/
structure WcbS where
  raw  : BitVec 1024
  left : Nat
  deriving DecidableEq, Repr

/-- A word of a collective, and whether it is poisoned. -/
abbrev CWord := W32 × Bool

/-- A collective in progress on a bulkhead's engine (R55 to R59, R108, R109). -/
structure CollS where
  /-- its descriptor and the address it was read from -/
  desc    : BitVec 512
  va      : Nat
  sem     : Option (W16 × W64)
  /-- launching queue, or issuing array with its run -/
  q       : Option Nat
  arr     : Option (Nat × Nat)
  seq     : W32 := 0
  cookie  : W64 := 0
  level   : Nat := 0
  offset  : Nat := 0
  head    : W32 := 0
  /-- status so far: the lowest non-zero code of R109, 0 for none -/
  code    : Nat := 0
  /-- its contributions have been read and reduced; before that the lines read, their bytes by logical array, and
  whether one was refused for its owner (R108, R109, R312) -/
  ready   : Bool := false
  rd      : Nat := 0
  parts   : Tab (List (Byte × Bool)) := []
  foreign : Bool := false
  /-- lines of its destination written, and whether one was refused (R109) -/
  put     : Nat := 0
  refused : Bool := false
  /-- a contribution of another chip held poison (R109) -/
  met     : Bool := false
  /-- its destination and status have been written, and the marker behind them in the FIFO of the array that
  issued it (R114, R214) -/
  wrote   : Bool := false
  mark    : Option Nat := none
  /-- a packet of it is on the torus (R63) -/
  sent    : Bool := false
  /-- a link it names went DOWN (R52) -/
  down    : Bool := false
  /-- this chip's reduced contribution -/
  words   : List CWord := []
  /-- chunks whose final value has come, by chunk -/
  chunks  : Tab (List CWord) := []
  /-- words and poison bits received so far, by chunk tag -/
  inbox   : Tab (List W32 × List Bool) := []
  /-- the chunk tags among those that depend on a contribution with poison (R109) -/
  held    : List Nat := []
  /-- ring steps done -/
  step    : Nat := 0
  deriving DecidableEq, Repr

/-- A bulkhead (R10, R16, R26). -/
structure BhS where
  st      : BhState := .off
  gen     : W16 := 1
  dest    : Nat := 0
  /-- the partition it belongs to, and whether it belongs to one: ASSIGNED, or in RESET or SCRUB after a reset
  or dissolve (R26) -/
  part    : Nat := 0
  own     : Bool := false
  /-- this clock cycle of it is removed, and whether the next one is to be (R29) -/
  skip    : Bool := false
  skipReq : Bool := false
  /-- its part of the measured draw, in W (input), and what of its share no removed cycle has yet answered (R29) -/
  draw    : Nat := 0
  share   : Nat := 0
  scrmode : Bool := false
  /-- the path of the running scrub: true host-assisted (R9, R22) -/
  scrHost : Bool := false
  scrDone : W32 := 0
  /-- the packet of the next scrub chunk is on the torus (R63) -/
  scrSent : Bool := false
  /-- the key that the latest scrub installed in slot 0: Kd and Kt (R21) -/
  key0    : Key := 0
  key0t   : Key := 0
  /-- the metadata key: its data and its tag key (R78) -/
  keyM    : Key := 0
  keyMt   : Key := 0
  chunkQ  : List Nat := []
  torarb  : W32 := 0x01040408
  patErr  : Nat := 0
  patGran : Nat := 0
  patDom  : Nat := 0
  sems    : Tab W64 := []
  /-- semaphore operations that arrived over the torus: array, operation (R113) -/
  semArr  : List (Nat × SemOp) := []
  /-- waits of arrays of other bulkheads that have come to the file (R113, R302) -/
  semWaits : List (Nat × SemOp) := []
  queues  : Tab QueueS := []
  nodes   : Tab NodeS := []
  wcbs    : Tab WcbS := []
  colls   : Tab CollS := []
  deriving DecidableEq, Repr

/-- A key slot (R80, R81); `scrub` says that each bulkhead holds the key its own scrub installed (R21). -/
structure KeySlot where
  kd      : Key := 0
  kt      : Key := 0
  loaded  : Bool := false
  domain  : Nat := 0
  epoch   : Nat := 0
  revoked : Bool := false
  scrub   : Bool := false
  deriving DecidableEq, Repr

/-- A rekey in progress (R82). -/
structure RekeyS where
  region : Nat
  slot   : Nat
  old    : Nat
  done   : List Nat
  queued : List Nat
  cur    : Option Nat
  host   : Bool
  deriving DecidableEq, Repr

/-- An RDCTL command that still runs (R212): the descriptor, the kind it changes to when its markers have passed
(2, or 0 for none), the markers by array, and whether that change has been made. -/
structure RdPend where
  num   : Nat
  kind  : Nat
  marks : Tab Nat
  made  : Bool := false
  deriving DecidableEq, Repr

/-- A partition number and everything the hub keeps for it (R15, R26, R82, R126, R212). -/
structure PartS where
  live     : Bool := false
  size     : Nat := 0
  sizeReg  : Nat := 0
  err      : Nat := 0
  creating : Bool := false
  /-- ac in which its running reset was accepted (R19), and ac of the latest escalation that started one (R27) -/
  resetAt  : Nat := 0
  escAt    : Option Nat := none
  /-- the hub's value of time in ac at the last ASSIGNED (R132) -/
  since    : Nat := 0
  refills  : Nat := 0
  -- regions
  regions  : Tab Region := []
  rdErr    : Nat := 0
  rdPend   : Option RdPend := none
  /-- XFER packets that have not completed: the region, and the markers by array (R105) -/
  xfers    : List (Nat × Tab Nat) := []
  rdNum    : Nat := 0
  rdGran   : Nat := 0
  rdBuf    : Tab W32 := []
  -- keys
  keyErr   : Nat := 0
  keyMode  : Bool := false
  keySlot  : Nat := 0
  keyReg   : Nat := 0
  keyDom   : Nat := 0
  keyChunk : Nat := 0
  keyNew   : Nat := 0
  keyBuf   : Tab W32 := []
  keys     : Tab KeySlot := []
  revoking : List Nat := []
  rekey    : Option RekeyS := none
  keyDone  : Nat := 0
  doneAll  : Bool := false
  -- schedule
  refill   : Nat := 10
  quant    : Nat := 20
  look     : Nat := 16
  ten      : Bool := false
  tblBase  : Nat := 0
  tblN     : Nat := 0
  tblNext  : Nat := 0
  tblPrev  : Nat := 0
  tblNode  : Tab Nat := []
  deriving DecidableEq, Repr

/-- What the operator's management interface put into the hub's firmware store (R30, R32, R41). -/
structure FwStore where
  mode    : Bool := false
  en      : Bool := false
  macl    : W32 := 0
  mach    : W16 := 0
  ip4     : W32 := 0
  pvlan   : BitVec 12 := 0
  v4en    : Bool := false
  hubOk   : Bool := false
  hubLms  : Bool := false
  bcpOk   : Bool := false
  bcpLms  : Bool := false
  hubSha  : BitVec 384 := 0
  bcpSha  : BitVec 384 := 0
  secver  : W64 := 0
  deriving DecidableEq, Repr

/-- The identity of a package (R1, R33): the ECDSA P-384 key, the root of the upper LMS tree, the lower tree that it
has signed for this boot, and both certificate chains. -/
structure IdentS where
  ec      : BitVec 384 := 0
  lms     : BitVec 384 := 0
  lower   : BitVec 384 := 0
  ecCert  : BitVec 384 := 0
  lmsCert : BitVec 384 := 0
  deriving DecidableEq, Repr

/-- What a checkpoint stream was started with (R87): queue pair, bulkheads, remote R_Key and address, IV prefix and
key words. -/
structure CkRun where
  qp   : Nat := 0
  mask : W16 := 0
  rkey : W32 := 0
  va   : Nat := 0
  seq  : W32 := 0
  key  : Tab W32 := []
  /-- the ac of its start -/
  at_  : Nat := 0
  deriving DecidableEq, Repr

/-- The hub (R29 to R35, R46, R74, R87, R96). -/
structure HubS where
  /-- 0 not started, 1 halted by a signature failure, 2 up -/
  phase    : Nat := 0
  /-- nanosecond counter in units of 2^-32 ns (R46) -/
  timer    : Nat := 0
  /-- what it was before a step or correction of this ac (R47) -/
  before   : Option Nat := none
  hold     : Nat := 0
  rate     : W16 := 0
  /-- what the PTP servo adds to the period, in 2^-32 ns (R46) -/
  adj      : Int := 0
  domain   : Byte := 0
  lock     : Bool := false
  /-- sync intervals in a row with a servo offset below 50 ns (R46) -/
  ptpGood  : Nat := 0
  tmode    : Bool := false
  cap      : Nat := 2800
  /-- draw measured over the latest 1 ms, in W (input, R29) -/
  draw     : Nat := 0
  errEn    : Bool := false
  errDrop  : CountF := {}
  errQp    : Nat := 0
  errBuf   : List ErrRec := []
  fw       : FwStore := {}
  /-- the management interface reports that signatures failed (R32) -/
  bootFail : Bool := false
  ident    : IdentS := {}
  /-- one-time boot fuses used (R33) -/
  boots    : Nat := 0
  reports  : Nat := 0
  /-- reports issued, newest first, as their 3,800 bytes (output) -/
  issued   : List (List Byte) := []
  attExh   : Bool := false
  win      : Tab W32 := []
  winGen   : Tab W16 := []
  gateGens : Tab W16 := []
  bridge   : List WinReq := []
  /-- requests of each window that have passed the bridge and not been answered, at most 64 (R23) -/
  winOut   : Tab Nat := []
  -- checkpoint
  ckBusy   : Bool := false
  ckErr    : Nat := 0
  ckQp     : Nat := 0
  ckMask   : W16 := 0
  ckRkey   : W32 := 0
  ckVal    : W32 := 0
  ckVah    : W32 := 0
  ckSeq    : W32 := 0
  ckKey    : Tab W32 := []
  ckRun    : CkRun := {}
  ckRec    : Nat := 0
  ckStop   : Option Nat := none
  /-- the lines of the record under way have been sent for, and those that have come: bytes, and whether a line goes as
  poisoned (R63, R87) -/
  ckSent   : Bool := false
  ckBuf    : Tab (BitVec 512 × Bool) := []
  deriving DecidableEq, Repr

end Sys2Proof.Machine
end

