-- ==== Sys2Proof/Machine/State.lean ====
section
/-! DEFINITION. The state of the KNW-N96 as plain data, its faults and refusals, and the state right
after input power is applied. -/
namespace Sys2Proof.Machine
open Sys2Proof

/-- The place an instruction acts on (log entry 3): the physical array and the row (slot instructions,
array events), the bulkhead and its queue or node slot (packets, BCP events), the partition number, the
link, the function and its queue pair, the stack and its channel, the slice of the bulkhead, the die and
router. -/
structure Cur where
  phys  : Nat := 0
  row   : Nat := 0
  bh    : Nat := 0
  q     : Nat := 0
  node  : Nat := 0
  part  : Nat := 0
  link  : Nat := 0
  fn    : Nat := 0
  qpn   : Nat := 0
  stack : Nat := 0
  ch    : Nat := 0
  slice : Nat := 0
  die   : Nat := 0
  x     : Nat := 0
  y     : Nat := 0
  deriving DecidableEq, Repr

/-- Whose turn it is. The agenda holds turns as plain data: an event of the opcode table at a place, one
packet of a queue, the semaphore operations due of a bulkhead's sequencers, one ac of an array (with the chain it
leads), or one ac of the hub's clock (log entry 2). -/
inductive Turn where
  | event (i : Instr) (place : Cur)
  | queue (b q : Nat)
  | sems (b : Nat)
  | array (a : Nat)
  | tick
  deriving DecidableEq, Repr

/-- The machine. -/
structure State where
  /-- turns still to take, first first; a step with none left is a tick (log entry 2) -/
  agenda  : List Turn := []
  cur     : Cur := {}
  /-- free values used so far: the model's own counter (log entry 4) -/
  fresh   : Nat := 0
  /-- ac since input power was applied -/
  now     : Nat := 0
  hub     : HubS := {}
  port    : PortS := {}
  bhs     : Tab BhS := []
  parts   : Tab PartS := []
  links   : Tab LinkS := []
  routers : Tab RouterS := []
  slices  : Tab SliceS := []
  stks    : Tab StackS := []
  pages   : Tab PageS := []
  /-- counter-tree node counters by level and number (R78) -/
  tree    : Tab Nat := []
  /-- errors of the stored counter blocks and tree nodes, by the same keys: 1 corrected, 2 uncorrectable, 3 a
  tag that does not match (R78) -/
  metaErr : Tab Nat := []
  /-- device memory by physical address, as the plain text its lines decrypt to (R64, R77) -/
  mem     : Memory := []
  lmeta   : Tab LineMeta := []
  /-- lines of the upper 4 GiB of a bulkhead that a stack packet has written, by stack and LINE (R64, R72) -/
  upper   : Tab (BitVec 512) := []
  arrs    : Tab ArrayS := []
  deriving DecidableEq, Repr

/-- Why the machine stops: nothing in this hardware stops it by a fault of its own; a trap is a next state (R224). -/
inductive Fault where
  deriving DecidableEq, Repr

/-- Why the machine gives no meaning. -/
inductive Refusal where
  /-- Raised by an arm of the dispatch whose instruction has no meaning yet. Safe: nothing is claimed of
  it. -/
  | notModelled (mnemonic : String)
  deriving DecidableEq, Repr

/-- What the firmware store is taken to hold (log entry 6): images whose signatures verify, so that
BRING_UP starts the hub; every other item zero. -/
def FwStore.first : FwStore :=
  { hubOk := true, hubLms := true, bcpOk := true, bcpLms := true }

/-- The state right after input power is applied and before the hub starts from its mask ROM (R30, R32):
every bulkhead OFF, every register at its reset value, nothing placed, memory listing nothing
(log entry 1). -/
def State.reset : State := { hub := { fw := FwStore.first } }

end Sys2Proof.Machine
end

