-- ==== Sys2Proof/Machine/Operands.lean ====
section
/-! DEFINITION. Operand forms: element views of a 128-bit register (R173), the sixteen-entry result
queue and the other cell registers (R172, R174), port entries (R177), and the source codes of a C slot
(R242). -/
namespace Sys2Proof.Machine
open Sys2Proof

/-- Element `i` of width `w` (R173). -/
def elem (v : Vec) (w i : Nat) : Nat := v.toNat >>> (w * i) % 2 ^ w

/-- Build a register from `n` elements of width `w`, OR-ing their flags (R173, R318). -/
def mapElems (w n : Nat) (g : Nat → Nat × Flags) : Vec × Flags :=
  let r := (List.range n).foldl
    (fun (acc : Nat × Flags) i => let x := g i; (acc.1 + x.1 <<< (w * i), acc.2 ||| x.2)) (0, flNone)
  (BitVec.ofNat 128 r.1, r.2)

/-- 32-bit lane `L` (R173). -/
def laneOf (v : Vec) (l : Nat) : W32 := v.extractLsb' (32 * l) 32

/-- A register holding one lane and zeros elsewhere. -/
def lane0 (x : W32) : Vec := x.setWidth 128

/-- A port element replicated into every lane (R177). -/
def replicate4 (x : W32) : Vec := x ++ x ++ x ++ x

/-- Element `i` of a port vector, with its mark (R148). -/
def pvElem (p : PortVec) (i : Nat) : W32 × Bool := (p.data.extractLsb' (32 * i) 32, p.marks.getLsbD i)

/-- A port vector from 64 elements. -/
def pvOf (l : List (W32 × Bool)) : PortVec :=
  { data := BitVec.ofNat 2048 (l.reverse.foldl (fun n x => n <<< 32 + x.1.toNat) 0),
    marks := ofBits 64 (fun i => match l[i]? with | some x => x.2 | none => false) }

/-- q_i of a cell, with its mark (R172). -/
def cellQ (x : CellS) (i : Nat) : Vec × Bool := (tabGet x.q 0 i, x.qm.getLsbD i)

/-- Push a result: q15 dropped, q_i becomes q_(i+1) (R174). -/
def pushQ (x : CellS) (v : Vec) : CellS :=
  { x with
    q := (0, v) :: (x.q.filter (fun p => p.1 < 15)).map (fun p => (p.1 + 1, p.2)),
    qm := x.qm <<< 1 }

/-- Write the destination named by code `d` (R174, R242); a whole write clears the mark (R322). -/
def writeDst (x : CellS) (d : Nat) (v : Vec) : CellS :=
  if d = 0 then pushQ x v
  else if 16 ≤ d ∧ d ≤ 23 then
    { x with k := tabSet x.k (d - 16) v, km := setBit x.km (d - 16) false }
  else if d = 24 then { x with cm := v, cmm := false }
  else x

/-- The neighbour and port values one cell may read in one ac (R149, R177). -/
structure CellEnv where
  up : Vec × Bool
  dn : Vec × Bool
  lf : Vec × Bool
  rt : Vec × Bool
  np : W32 × Bool
  wp : W32 × Bool
  deriving DecidableEq, Repr

/-- A source operand, and the detail source of a poison mark it carries: 1 port, 3 register, ha or
neighbour (R242, R322). -/
def srcVal (x : CellS) (n : CellEnv) (e : BitVec 40) (code : Nat) : Vec × Option Nat :=
  let mk (v : Vec × Bool) (s : Nat) : Vec × Option Nat := (v.1, if v.2 then some s else none)
  if code ≤ 15 then mk (cellQ x code) 3
  else if code ≤ 23 then mk (tabGet x.k 0 (code - 16), x.km.getLsbD (code - 16)) 3
  else
    match code with
    | 24 => mk (x.cm, x.cmm) 3
    | 25 => mk n.up 3
    | 26 => mk n.dn 3
    | 27 => mk n.lf 3
    | 28 => mk n.rt 3
    | 29 => mk (replicate4 n.np.1, n.np.2) 1
    | 30 => mk (replicate4 n.wp.1, n.wp.2) 1
    | 31 => mk (x.ha, x.ham) 3
    | 32 => (eOperand e, none)
    | _ => (0, none)

/-- The guard condition of a C slot (R317). -/
def guardHolds (g : BitVec 4) (grd : Nat) : Bool :=
  if grd = 0 then true
  else if grd ≤ 3 then g.getLsbD grd
  else !g.getLsbD (grd - 4)

/-- The default cell of an unlisted place: the node-start cell (R172). -/
def cellZero : CellS := {}

/-- The cell in row r, column c. -/
def cellAt (a : ArrayS) (r c : Nat) : CellS := tabGet (tabGet a.cells [] r) cellZero c

/-- Replace the cell in row r, column c. -/
def setCell (a : ArrayS) (r c : Nat) (x : CellS) : ArrayS :=
  { a with cells := tabMod a.cells [] r (fun row => tabSet row c x) }

end Sys2Proof.Machine
end

