-- ==== Sys2Proof/Machine/CellOps.lean ====
section
/-! DEFINITION. What each C-slot operation computes in one cell from the operands it has read
(R324 to R352), and one step of a drain lane (R153, R348). -/
namespace Sys2Proof.Machine
open Sys2Proof

/-- Where a result stands: the random bits need the seed, tile, row, column and carried count (R277);
TIDX needs the logical numbers (R352). -/
structure CellCtx where
  sr      : SrCtx
  rho     : Nat
  col     : Nat
  logical : Nat
  deriving DecidableEq, Repr

/-- The element view of a C slot (R173). -/
def viewOf (f : CSlot) : EFmt := efOfType f.typ.toNat f.uns

/-- The rounding mode of a C slot. -/
def rmOfSlot (f : CSlot) : Rm := rmOfCode f.rm.toNat

/-- Random bits of element i, taken under SR alone (R277). -/
def rbOf (x : CellCtx) (rm : Rm) (w i : Nat) : Nat := if rm = .sr then randomBits x.sr w i else 0

/-- ADD, SUB, MUL, FMA, FMS in a floating format: exact, one rounding (R326, R327). -/
def floatArith (o : COp) (f : FFmt) (rm : Rm) (sat : Bool) (rb a b c : Nat) : Nat × Flags :=
  let x := valOf f a
  let y := valOf f b
  let z := valOf f c
  let (v, bad) : Val × Bool :=
    match o with
    | .add => valSum rm [x, y]
    | .sub => valSum rm [x, valNeg y]
    | .mul => valMul x y
    | .fma => let p := valMul x y; let s := valSum rm [p.1, z]; (s.1, p.2 || s.2)
    | _ => let p := valMul x y; let s := valSum rm [p.1, valNeg z]; (s.1, p.2 || s.2)
  let (r, fl) := roundTo f rm sat rb v
  (r, flIf bad flInvalid ||| fl)

/-- NEG and ABS in a floating format: only the sign changes (R327). -/
def floatSign (o : COp) (f : FFmt) (a : Nat) : Nat × Flags :=
  let v := valOf f a
  if valIsNan v then (ffNan f, flIf (valSig v) flInvalid)
  else
    let h := 2 ^ (ffWidth f - 1)
    let m := a % h
    match o with
    | .neg => (if a / h % 2 = 1 then m else m + h, flNone)
    | _ => (m, flNone)

/-- One element of R326. -/
def arithElem (o : COp) (f : CSlot) (rb a b c : Nat) : Nat × Flags :=
  match viewOf f with
  | .flt g =>
    match o with
    | .neg | .abs => floatSign o g a
    | .min => let r := floatMinMax g false a b; (r.1, flIf r.2 flInvalid)
    | .max => let r := floatMinMax g true a b; (r.1, flIf r.2 flInvalid)
    | _ => floatArith o g (rmOfSlot f) f.sat rb a b c
  | .int u w =>
    let x := intOf u w a
    let y := intOf u w b
    let z := intOf u w c
    match o with
    | .add => deliverInt u w f.sat (x + y)
    | .sub => deliverInt u w f.sat (x - y)
    | .mul => deliverInt u w f.sat (x * y)
    | .fma => deliverInt u w f.sat (x * y + z)
    | .fms => deliverInt u w f.sat (x * y - z)
    | .neg => deliverInt u w f.sat (-x)
    | .abs => deliverInt u w f.sat (if x < 0 then -x else x)
    | .min => (if y < x then b else a, flNone)
    | _ => (if x < y then b else a, flNone)

/-- ADD to MAX (R326). -/
def cellArith (o : COp) (f : CSlot) (x : CellCtx) (a b c : Vec) : Vec × Flags :=
  let w := efWidth (viewOf f)
  mapElems w (128 / w) (fun i =>
    arithElem o f (rbOf x (rmOfSlot f) w i) (elem a w i) (elem b w i) (elem c w i))

/-- SHL, SHR, SAR, ROT of one element (R330). -/
def shiftElem (o : COp) (w a b : Nat) : Nat :=
  let n := b % w
  match o with
  | .shl => a <<< n % 2 ^ w
  | .shr => a >>> n
  | .sar => wrapTo w (signedOf w a >>> n)
  | _ => (a <<< n + a >>> (w - n)) % 2 ^ w

/-- The shifts (R330); the amount is the low log2(w) bits of b's element. -/
def cellShift (o : COp) (f : CSlot) (a b : Vec) : Vec × Flags :=
  let w := efWidth (viewOf f)
  mapElems w (128 / w) (fun i => (shiftElem o w (elem a w i) (elem b w i), flNone))

/-- The relation of a compare (R331). -/
def relOf : COp → Rel
  | .cmpEq => .eq | .cmpNe => .ne | .cmpLt => .lt | _ => .le

/-- One element of a compare (R331). -/
def cmpElem (r : Rel) (v : EFmt) (a b : Nat) : Nat × Flags :=
  let ones := 2 ^ efWidth v - 1
  match v with
  | .flt g => let x := floatCmp g r a b; (if x.1 then ones else 0, flIf x.2 flInvalid)
  | .int u w =>
    let x := intOf u w a
    let y := intOf u w b
    let t : Bool := match r with
      | .eq => x = y | .ne => x ≠ y | .lt => x < y | .le => x ≤ y
    (if t then ones else 0, flNone)

/-- CMP (R331). -/
def cellCmp (o : COp) (f : CSlot) (a b : Vec) : Vec × Flags :=
  let v := viewOf f
  let w := efWidth v
  mapElems w (128 / w) (fun i => cmpElem (relOf o) v (elem a w i) (elem b w i))

/-- SEL (R332). -/
def cellSel (f : CSlot) (a b c : Vec) : Vec × Flags :=
  let w := efWidth (viewOf f)
  mapElems w (128 / w) (fun i => (if elem c w i ≠ 0 then elem a w i else elem b w i, flNone))

/-- The test of SETG and FLG: element 0, or any element (R333, R350). -/
def anyTest (f : CSlot) (any : Bool) (a : Vec) : Bool :=
  if any then a ≠ 0 else elem a (efWidth (viewOf f)) 0 ≠ 0

/-- A format code of R334, f32 where it is reserved (the decoder refuses those). -/
def fmtOf (c : Nat) : EFmt := (efOfCode c).getD (.flt .f32)

/-- CVT (R335). -/
def cellCvt (f : CSlot) (x : CellCtx) (a : Vec) : Vec × Flags :=
  let sf := fmtOf (bitsN f.spec 0 4)
  let df := fmtOf (bitsN f.spec 4 4)
  let ws := efWidth sf
  let wd := efWidth df
  let n := 128 / max ws wd
  let base := if ws < wd then bitsN f.spec 8 3 * n else 0
  let rm := rmOfSlot f
  mapElems wd n (fun i => convertElem sf df rm f.sat (rbOf x rm wd i) (elem a ws (base + i)))

/-- PACK (R336). -/
def cellPack (f : CSlot) (x : CellCtx) (a b : Vec) : Vec × Flags :=
  let sf := viewOf f
  let df := fmtOf (bitsN f.spec 4 4)
  let ws := efWidth sf
  let wd := efWidth df
  let n := 128 / ws
  let rm := rmOfSlot f
  mapElems wd (2 * n) (fun i =>
    let s := if i < n then elem a ws i else elem b ws (i - n)
    convertElem sf df rm f.sat (rbOf x rm wd i) s)

/-- UNPACK (R337). -/
def cellUnpack (f : CSlot) (x : CellCtx) (a : Vec) : Vec × Flags :=
  let sf := fmtOf (bitsN f.spec 4 4)
  let df := viewOf f
  let ws := efWidth sf
  let wd := efWidth df
  let n := 128 / wd
  let base := if bitB f.spec 8 then n else 0
  let rm := rmOfSlot f
  mapElems wd n (fun i => convertElem sf df rm f.sat (rbOf x rm wd i) (elem a ws (base + i)))

/-- REQ (R279, R338): result L in element L, other elements zero. -/
def cellReq (f : CSlot) (a b c : Vec) : Vec × Flags :=
  match viewOf f with
  | .int u w =>
    mapElems w 4 (fun l =>
      let r := requant u w (signedOf 32 (elem a 32 l)) (signedOf 32 (elem b 32 l))
        (elem c 32 l % 32) (signedOf 9 (bitsN f.spec 0 9))
      (r.1, flIf r.2 flOverflow))
  | .flt _ => (0, flNone)

/-- RCP, RSQ, EXP2, LOG2 in each f32 lane (R339). -/
def cellSpecial (op : Special) (f : CSlot) (a : Vec) : Vec × Flags :=
  mapElems 32 4 (fun l => special32 op (rmOfSlot f) f.sat (elem a 32 l))

/-- HSUM (R340). -/
def cellHsum (f : CSlot) (x : CellCtx) (a : Vec) : Vec × Flags :=
  let v := viewOf f
  let w := efWidth v
  let es := (List.range (128 / w)).map (elem a w)
  match v with
  | .flt g =>
    let rm := rmOfSlot f
    let (s, bad) := valSum rm (es.map (valOf g))
    let (r, fl) := roundTo .f32 rm f.sat (rbOf x rm 32 0) s
    (BitVec.ofNat 128 r, flIf bad flInvalid ||| fl)
  | .int u w =>
    let s := es.foldl (fun acc e => acc + intOf u w e) (0 : Int)
    let (r, fl) := deliverInt u 32 f.sat s
    (BitVec.ofNat 128 r, fl)

/-- HMAX and HMIN (R341). -/
def cellHext (mx : Bool) (f : CSlot) (a : Vec) : Vec × Flags :=
  let v := viewOf f
  let w := efWidth v
  let step (acc : Nat × Flags) (i : Nat) : Nat × Flags :=
    match v with
    | .flt g => let r := floatMinMax g mx acc.1 (elem a w i); (r.1, acc.2 ||| flIf r.2 flInvalid)
    | .int u w =>
      let x := intOf u w acc.1
      let y := intOf u w (elem a w i)
      (if (if mx then decide (x < y) else decide (y < x)) then elem a w i else acc.1, acc.2)
  let r := (List.range (128 / w - 1)).foldl (fun acc i => step acc (i + 1)) (elem a w 0, flNone)
  (BitVec.ofNat 128 r.1, r.2)

/-- The input format of an MMA (R342, R344). -/
inductive MmaFmt where
  | flt (f : FFmt)
  | int (w : Nat)
  deriving DecidableEq, Repr

/-- The input format of an opcode, or of SPEC[2:0] for MMA.T (R344). -/
def mmaFmt (o : COp) (f : CSlot) : MmaFmt :=
  let code := match o with
    | .mmaE4m3 => 0 | .mmaE5m2 => 1 | .mmaE2m1 => 2 | .mmaBf16 => 3 | .mmaF16 => 4
    | .mmaI8 => 5 | .mmaI4 => 6 | _ => bitsN f.spec 0 3
  match code with
  | 0 => .flt .e4m3 | 1 => .flt .e5m2 | 2 => .flt .e2m1 | 3 => .flt .bf16 | 4 => .flt .f16
  | 5 => .int 8 | _ => .int 4

/-- An operand under an e8m0 scale byte (R258, R343). -/
def scaledVal (s : Nat) (v : Val) : Val :=
  if s = 255 then .nan (valSig v)
  else
    match v with
    | .num n m e st => .num n m (e + ((s : Int) - 127)) st
    | x => x

/-- MMA and MMA.T (R270, R272, R342 to R344); `sc` is the scale register when SCL = 1. -/
def cellMma (o : COp) (f : CSlot) (a b c : Vec) (sc : Option Vec) : Vec × Flags :=
  let tr := o = .mmaT
  match mmaFmt o f with
  | .flt g =>
    let w := ffWidth g
    let k := 32 / w
    mapElems 32 4 (fun l =>
      let sa := match sc with | some v => elem v 8 l | none => 127
      let sb := match sc with | some v => elem v 8 (4 + l) | none => 127
      let ps := (List.range k).map (fun j =>
        valMul (scaledVal sa (valOf g (elem a w (if tr then 4 * j + l else k * l + j))))
          (scaledVal sb (valOf g (elem b w (k * l + j)))))
      let (s, bad) := valSum .rne (valOf .f32 (elem c 32 l) :: ps.map (fun p => p.1))
      let (r, fl) := roundTo .f32 .rne false 0 s
      (r, flIf (bad || ps.any (fun p => p.2)) flInvalid ||| fl))
  | .int w =>
    let k := 32 / w
    mapElems 32 4 (fun l =>
      let s := (List.range k).foldl (fun acc j =>
        acc + intOf f.uns w (elem a w (if tr then 4 * j + l else k * l + j))
          * intOf f.uns w (elem b w (k * l + j))) (intOf f.uns 32 (elem c 32 l))
      deliverInt f.uns 32 f.sat s)

/-- HASH32 (R351). -/
def cellHash (f : CSlot) (a b : Vec) : Vec × Flags :=
  mapElems 32 4 (fun l =>
    ((mix32 (laneOf a l ^^^ mix32 (laneOf b l ^^^ f.spec.setWidth 32))).toNat, flNone))

/-- TIDX (R352). -/
def cellTidx (x : CellCtx) : Vec :=
  (BitVec.ofNat 32 (64 * x.rho + x.col) : W32) ++ (BitVec.ofNat 32 x.logical : W32)
    ++ (BitVec.ofNat 32 x.col : W32) ++ (BitVec.ofNat 32 x.rho : W32)

/-- MOVI (R325). -/
def cellMovi (f : CSlot) : Vec :=
  let w := efWidth (viewOf f)
  let x : Nat := if f.uns then f.spec.toNat % 2 ^ w else wrapTo w (signedOf 14 f.spec.toNat)
  (mapElems w (128 / w) (fun _ => (x, flNone))).1

/-- The result and flags of an operation that delivers a register from its operands. -/
def cellAlu (o : COp) (f : CSlot) (x : CellCtx) (a b c : Vec) (sc : Option Vec) : Vec × Flags :=
  match o with
  | .mov => (a, flNone)
  | .movi => (cellMovi f, flNone)
  | .add | .sub | .mul | .fma | .fms | .neg | .abs | .min | .max => cellArith o f x a b c
  | .and => (a &&& b, flNone)
  | .or => (a ||| b, flNone)
  | .xor => (a ^^^ b, flNone)
  | .not => (~~~a, flNone)
  | .shl | .shr | .sar | .rot => cellShift o f a b
  | .cmpEq | .cmpNe | .cmpLt | .cmpLe => cellCmp o f a b
  | .sel => cellSel f a b c
  | .cvt => cellCvt f x a
  | .pack => cellPack f x a b
  | .unpack => cellUnpack f x a
  | .req => cellReq f a b c
  | .rcp => cellSpecial .rcp f a
  | .rsq => cellSpecial .rsq f a
  | .exp2 => cellSpecial .exp2 f a
  | .log2 => cellSpecial .log2 f a
  | .hsum => cellHsum f x a
  | .hmax => cellHext true f a
  | .hmin => cellHext false f a
  | .mmaE4m3 | .mmaE5m2 | .mmaE2m1 | .mmaBf16 | .mmaF16 | .mmaI8 | .mmaI4 | .mmaT =>
    cellMma o f a b c sc
  | .hash32 => cellHash f a b
  | .tidx => (cellTidx x, flNone)
  | .nop | .clr | .setg | .osw | .osr | .drn | .flg => (0, flNone)

/-- The drain operators (R348). -/
def drnOp (f : CSlot) : Nat := bitsN f.spec 11 3

/-- The identity of a drain lane (R153, R269). -/
def laneIdentity (f : CSlot) : Nat :=
  let v := viewOf f
  let w := efWidth v
  let one : Nat := match drnOp f with
    | 2 => minIdentity v
    | 3 => maxIdentity v
    | 5 => 2 ^ w - 1
    | _ => 0
  (List.range (32 / w)).foldl (fun n i => n + one <<< (w * i)) 0

/-- One element of a lane step (R153, R273). -/
def laneElem (f : CSlot) (rb v w : Nat) : Nat × Flags :=
  match drnOp f with
  | 1 | 6 => arithElem .add f rb v w 0
  | 2 => arithElem .min f rb v w 0
  | 3 => arithElem .max f rb v w 0
  | 4 => (v ||| w, flNone)
  | 5 => (v &&& w, flNone)
  | _ => (w, flNone)

/-- A drain lane passing an executing cell: the value before, the cell's word, the segment bit (R153,
R348). -/
def laneStep (f : CSlot) (x : CellCtx) (seg : Bool) (v w : Nat) : Nat × Flags :=
  if drnOp f = 6 && seg then (w, flNone)
  else
    let wd := efWidth (viewOf f)
    let rm := rmOfSlot f
    (List.range (32 / wd)).foldl (fun (acc : Nat × Flags) i =>
      let r := laneElem f (rbOf x rm wd i) (v >>> (wd * i) % 2 ^ wd) (w >>> (wd * i) % 2 ^ wd)
      (acc.1 + r.1 <<< (wd * i), acc.2 ||| r.2)) (0, flNone)

/-- The detail of a residue mismatch, for the instructions that are checked (R323). -/
def residDetail : COp → Option Nat
  | .mul | .fma | .fms | .mmaE4m3 | .mmaE5m2 | .mmaE2m1 | .mmaBf16 | .mmaF16 | .mmaI8 | .mmaI4
  | .mmaT | .req => some 0
  | .add | .sub | .hsum => some 1
  | _ => none

/-- The state bits CLR clears besides its destination (R324). -/
def clearCell (f : CSlot) (x : CellS) : CellS :=
  let x := if bitB f.spec 0 then { x with fstk := 0 } else x
  let x := if bitB f.spec 1 then { x with g := 0 } else x
  let x := if bitB f.spec 2 then { x with ha := 0, ham := false } else x
  let x := if bitB f.spec 3 then { x with q := [], qm := 0 } else x
  if bitB f.spec 4 then { x with k := [], km := 0 } else x

/-- What one executing cell does (R318): its new state, the lane value it leaves, its flag bit. The
operands have been read already. -/
def cellExec (o : COp) (f : CSlot) (x : CellCtx) (cell : CellS) (a b c : Vec) (lane : Nat) (seg : Bool) :
    CellS × Nat × Bool :=
  let sc : Option Vec :=
    if (match o with | .mmaE4m3 | .mmaE5m2 | .mmaE2m1 | .mmaT => true | _ => false) && bitB f.spec 13
    then some (tabGet cell.k 0 (bitsN f.spec 8 3)) else none
  let hold (y : CellS) : CellS :=
    if f.hold = 1 then { y with ha := a, ham := false }
    else if f.hold = 2 then { y with ha := b, ham := false }
    else if f.hold = 4 then { y with ha := c, ham := false }
    else y
  let put (y : CellS) (v : Vec) (fl : Flags) : CellS :=
    let z := writeDst y f.dst.toNat v
    { z with fstk := z.fstk ||| fl }
  match o with
  | .nop => (cell, lane, false)
  | .clr => (clearCell f (writeDst cell f.dst.toNat 0), lane, false)
  | .setg =>
    let t := anyTest f (bitB f.spec 0) a != bitB f.spec 1
    (hold { cell with g := setBit cell.g (bitsN f.dst 0 2) t }, lane, false)
  | .osw =>
    let n := bitsN f.spec 0 6
    (hold { cell with os := tabSet cell.os n a, osm := setBit cell.osm n false }, lane, false)
  | .osr => (put cell (tabGet cell.os 0 (bitsN f.spec 0 6)) flNone, lane, false)
  | .drn =>
    let (v, fl) := laneStep f x seg lane (laneOf a (bitsN f.spec 0 2)).toNat
    (hold (put cell (BitVec.ofNat 128 v) fl), v, false)
  | .flg => (hold cell, lane, anyTest f (bitB f.spec 12) a)
  | _ =>
    let (v, fl) := cellAlu o f x a b c sc
    (hold (put cell v fl), lane, false)

end Sys2Proof.Machine
end

