-- ==== Sys2Proof/Config.lean ====
section
/-! DEFINITION. What an implementation fixes and the values the spec leaves open. Each opaque constant
has no body: a statement that holds, holds whatever it is (log entry 4). -/
namespace Sys2Proof.Config

/-- A value the spec leaves open; the argument is the state's counter of free values. -/
opaque freeWord : Nat → BitVec 64

/-- A key drawn from the hub's random source (R21). -/
opaque randomKey : Nat → BitVec 256

/-- Word `off` (8 bytes) of the parts of the save image whose layout the spec does not give (R137, R314),
as captured at free-value counter `n`. -/
opaque saveWord : Nat → Nat → BitVec 64

/-- Whether the code of a line detects an error that lies beyond what R75 says it corrects and detects; the
argument is the flipped bits. -/
opaque codeDetects : List Nat → Bool

/-- Which of two vectors a bundle carries for one port, by the logical array and the TT of the bundle (R178, R192). -/
opaque portChoice : Nat → Nat → Bool

/-- What a four-bit field of a trap's detail word shows where the spec gives it a value that the field cannot
hold, or none (R227). -/
opaque openDetail : Nat → BitVec 4

/-- What a package derives from its fused secret (R33): 0 the ECDSA P-384 key, 1 the root of the upper LMS tree, 2
and 3 their certificate chains. -/
opaque identity : Nat → BitVec 384

/-- The lower LMS tree that the upper one signs at a boot, by the number of the boot (R33). -/
opaque lowerTree : Nat → BitVec 384

/-- Word i of a signature over the signed bytes of a report, under a key, by the number of the report in its boot
(R33, R34). -/
opaque reportSignature : BitVec 384 → BitVec 2048 → Nat → Nat → BitVec 64

/-- SHA-384 of the configuration part of a report: the words of PTCFG, BHSTAT and the enabled WINCFG, whose byte
layout the spec does not give (R34). -/
opaque configDigest : List (BitVec 32) → BitVec 384

/-- What a line of the upper 4 GiB of a bulkhead holds before a request writes it, by stack and LINE and the counter of
free values: counters, nodes and tags whose places the spec does not give (R64, R78). -/
opaque metadataLine : Nat → Nat → BitVec 512

end Sys2Proof.Config
end

