-- ==== Sys2Proof/Machine/Ops.lean ====
section
/-! DEFINITION. The named operations over memory, registers and the parts of the state, and the taking of
a trap (R224 to R226), which every fault of an array goes through. -/
namespace Sys2Proof.Machine
open Sys2Proof

-- Byte memories (R4, R21)

/-- One byte; an unlisted address reads zero (log entry 8). -/
def memGet (m : Memory) (a : Nat) : Byte := tabGet m 0 a

/-- Write one byte, keeping the canonical form. -/
def memSet (m : Memory) (a : Nat) (v : Byte) : Memory := tabPut m 0 a v

/-- `n` bytes from an address. -/
def memBytes (m : Memory) (a n : Nat) : List Byte := (List.range n).map (fun i => memGet m (a + i))

/-- `n` bytes as a little-endian number (R4). -/
def memNat (m : Memory) (a n : Nat) : Nat := leNat (memBytes m a n)

/-- Write bytes at rising addresses. -/
def memPut (m : Memory) (a : Nat) : List Byte → Memory
  | [] => m
  | b :: bs => memPut (memSet m a b) (a + 1) bs

/-- Write the low `n` bytes of a number (R4). -/
def memPutNat (m : Memory) (a n x : Nat) : Memory := memPut m a (leBytes n x)

/-- The keys of a table rise strictly from a bound. -/
def keysRise (lo : Nat) : List Host.Cell → Bool
  | [] => true
  | (k, v) :: r => decide (lo ≤ k) && !(v == 0) && keysRise (k + 1) r

/-- The canonical form of a memory: addresses strictly rising, no listed zero. -/
def Memory.wf (m : Memory) : Bool := keysRise 0 m

/-- Eight bytes read as a 64-bit word. -/
def memW64 (m : Memory) (a : Nat) : W64 := BitVec.ofNat 64 (memNat m a 8)

/-- A 64-byte line of a byte memory. -/
def memLine (m : Memory) (a : Nat) : BitVec 512 := BitVec.ofNat 512 (memNat m a 64)

/-- The bytes of a line. -/
def lineBytes (d : BitVec 512) : List Byte := leBytes 64 d.toNat

/-- A mask of byte enables spread to bits. -/
def spreadMask (m : W64) : BitVec 512 :=
  BitVec.ofNat 512 ((List.range 64).foldr (fun i n => n * 256 + (if m.getLsbD i then 255 else 0)) 0)

/-- Merge the masked bytes of `d` into `old`. -/
def mergeLine (old d : BitVec 512) (mask : W64) : BitVec 512 :=
  (old &&& ~~~spreadMask mask) ||| (d &&& spreadMask mask)

-- Places

/-- The array with a physical number (R144); an unlisted one is idle. -/
def arrOf (s : State) (p : Nat) : ArrayS := tabGet s.arrs {} p

/-- Replace an array. -/
def setArr (s : State) (p : Nat) (a : ArrayS) : State := { s with arrs := tabSet s.arrs p a }

/-- Change an array. -/
def modArr (s : State) (p : Nat) (f : ArrayS → ArrayS) : State := setArr s p (f (arrOf s p))

/-- The array the instruction acts on. -/
def here (s : State) : ArrayS := arrOf s s.cur.phys

/-- Change the array the instruction acts on. -/
def onArr (s : State) (f : ArrayS → ArrayS) : State := modArr s s.cur.phys f

/-- A bulkhead. -/
def bhOf (s : State) (b : Nat) : BhS := tabGet s.bhs {} b
/-- Replace a bulkhead. -/
def setBh (s : State) (b : Nat) (x : BhS) : State := { s with bhs := tabSet s.bhs b x }
/-- Change a bulkhead. -/
def modBh (s : State) (b : Nat) (f : BhS → BhS) : State := setBh s b (f (bhOf s b))
/-- A partition. -/
def partOf (s : State) (p : Nat) : PartS := tabGet s.parts {} p
/-- Replace a partition. -/
def setPart (s : State) (p : Nat) (x : PartS) : State := { s with parts := tabSet s.parts p x }
/-- Change a partition. -/
def modPart (s : State) (p : Nat) (f : PartS → PartS) : State := setPart s p (f (partOf s p))
/-- A fabric link end. -/
def linkOf (s : State) (l : Nat) : LinkS := tabGet s.links {} l
/-- Replace a link end. -/
def setLink (s : State) (l : Nat) (x : LinkS) : State := { s with links := tabSet s.links l x }
/-- Change a link end. -/
def modLink (s : State) (l : Nat) (f : LinkS → LinkS) : State := setLink s l (f (linkOf s l))
/-- Slice `k` of bulkhead `b`, as a key. -/
def sliceKey (b k : Nat) : Nat := 96 * b + k
/-- A slice. -/
def sliceOf (s : State) (k : Nat) : SliceS := tabGet s.slices {} k
/-- Replace a slice. -/
def setSlice (s : State) (k : Nat) (x : SliceS) : State := { s with slices := tabSet s.slices k x }
/-- Change a slice. -/
def modSlice (s : State) (k : Nat) (f : SliceS → SliceS) : State := setSlice s k (f (sliceOf s k))
/-- A stack controller. -/
def stackOf (s : State) (k : Nat) : StackS := tabGet s.stks {} k
/-- Replace a stack controller. -/
def setStack (s : State) (k : Nat) (x : StackS) : State := { s with stks := tabSet s.stks k x }
/-- Change a stack controller. -/
def modStack (s : State) (k : Nat) (f : StackS → StackS) : State := setStack s k (f (stackOf s k))
/-- A queue of a bulkhead. -/
def queueOf (s : State) (b q : Nat) : QueueS := tabGet (bhOf s b).queues {} q
/-- Change a queue. -/
def modQueue (s : State) (b q : Nat) (f : QueueS → QueueS) : State :=
  modBh s b (fun x => { x with queues := tabSet x.queues q (f (tabGet x.queues {} q)) })
/-- A launched node. -/
def nodeOf (s : State) (n : NodeId) : Option NodeS := tabFind (bhOf s n.1).nodes n.2
/-- Replace a launched node. -/
def setNode (s : State) (n : NodeId) (x : NodeS) : State :=
  modBh s n.1 (fun b => { b with nodes := tabSet b.nodes n.2 x })
/-- Change a launched node, if it is there. -/
def modNode (s : State) (n : NodeId) (f : NodeS → NodeS) : State :=
  match nodeOf s n with
  | some x => setNode s n (f x)
  | none => s
/-- The bulkhead of a physical array (R10). -/
def bhOfArr (p : Nat) : Nat := p / 6
/-- Two bulkheads belong to the same partition, so that a gate between them is open (R13, R14). -/
def sameGate (s : State) (b c : Nat) : Bool :=
  (bhOf s b).st == .assigned && (bhOf s c).st == .assigned && (bhOf s b).part == (bhOf s c).part
/-- The number of bulkheads of a partition (R15). -/
def partSize (s : State) (p : Nat) : Nat := 2 ^ (partOf s p).size
/-- The partition of a physical array's node, or of its bulkhead. -/
def partOfArr (s : State) (p : Nat) : Nat := (bhOf s (bhOfArr p)).part
/-- The bulkheads of a partition. -/
def partBhs (s : State) (p : Nat) : List Nat := (List.range (partSize s p)).map (fun i => p + i)
/-- The physical arrays of a partition. -/
def partArrs (s : State) (p : Nat) : List Nat :=
  (List.range (6 * partSize s p)).map (fun i => 6 * p + i)
/-- The physical arrays that hold a node. -/
def nodeArrs (s : State) (n : NodeId) : List Nat :=
  (s.arrs.filter (fun x => x.2.node == some n)).map (fun x => x.1)
/-- Append turns to the agenda (log entry 2). -/
def post (s : State) (ts : List Turn) : State := { s with agenda := s.agenda ++ ts }
/-- Let turns follow at once, before what the ac still holds: an engine's line that has come (R194). -/
def postNow (s : State) (ts : List Turn) : State := { s with agenda := ts ++ s.agenda }
/-- Use one free value (log entry 4). -/
def freeValue (s : State) : W64 × State := (Config.freeWord s.fresh, { s with fresh := s.fresh + 1 })

-- Sequencer registers (R161, R280 to R282)

/-- s[i]; s0 reads zero. -/
def sReg (a : ArrayS) (i : BitVec 5) : SReg := if i = 0 then {} else tabGet a.s {} i.toNat
/-- The value of s[i]. -/
def sVal (a : ArrayS) (i : BitVec 5) : W64 := (sReg a i).v
/-- Write s[i] with its mark; s0 discards (R161). -/
def sPutMk (a : ArrayS) (i : BitVec 5) (v : W64) (m : Option SMark) : ArrayS :=
  if i = 0 then a else { a with s := tabSet a.s i.toNat { v := v, mark := m, pend := false } }
/-- Write s[i], clearing its mark (R282). -/
def sPut (a : ArrayS) (i : BitVec 5) (v : W64) : ArrayS := sPutMk a i v none
/-- Make s[i] pending (R281). -/
def sPend (a : ArrayS) (i : BitVec 5) : ArrayS :=
  if i = 0 then a else { a with s := tabSet a.s i.toNat { sReg a i with pend := true } }

-- Traps (R224 to R227)

/-- The code of a cause (R227). -/
def causeCode : Cause → Nat
  | .illcode => 0x01 | .slotcf => 0x02 | .bankcf => 0x03 | .portmt => 0x04 | .portov => 0x05
  | .foreign => 0x06 | .region => 0x07 | .align => 0x08 | .ttdev => 0x09 | .loopov => 0x0A
  | .callov => 0x0B | .poison => 0x0C | .keyrev => 0x0D | .keyexh => 0x0E | .hstate => 0x0F
  | .link => 0x10 | .watchdog => 0x11 | .trapi => 0x12 | .priv => 0x13 | .resid => 0x14
  | .wavesig => 0x15 | .semname => 0x16 | .domain => 0x17 | .extkill => 0x18 | .scclk => 0x19

/-- The transient causes of R139; every other is of the program class. -/
def transient : Cause → Bool
  | .poison | .resid | .wavesig | .ttdev => true
  | _ => false

/-- The code of a slot (R226). -/
def slotCode : Slot → Nat
  | .s => 0 | .c => 1 | .y => 2 | .x => 3 | .n => 4 | .w => 5 | .d => 6 | .t => 7 | .a => 8

/-- A slot found at issue to be unperformed (R224): the fault is noted and its performed bit cleared. -/
def raiseAt (a : ArrayS) (slot : Nat) (c : Cause) (detail : W64) (region : Nat) : ArrayS :=
  { a with
    faults := a.faults ++ [{ cause := c, slot := slot, detail := detail, region := region }]
    perf := setBit a.perf slot false }

/-- The same with no region to name. -/
def raise (a : ArrayS) (sl : Slot) (c : Cause) (detail : W64) : ArrayS :=
  raiseAt a (slotCode sl) c detail 0x3FFF

/-- ILLCODE carries the bundle's code word (R227). -/
def raiseIll (a : ArrayS) (sl : Slot) : ArrayS := raise a sl .illcode (a.word.setWidth 64)

/-- The detail of a path (R227). -/
def pathDetail (path : Nat) : W64 := BitVec.ofNat 64 path

/-- The trap of a marked register (R282): KEYREV for a revoked value, else POISON with its source. -/
def raiseMark (a : ArrayS) (sl : Slot) (m : SMark) : ArrayS :=
  if m.rev then raise a sl .keyrev 0 else raise a sl .poison (m.src.setWidth 64)

/-- The first mark among the registers a slot reads (R283, check 3). -/
def markAmong (a : ArrayS) (rs : List (BitVec 5)) : Option SMark := rs.findSome? (fun r => (sReg a r).mark)

/-- Go on only if no register read carries a mark (R282, R283, R355). -/
def withRegs (a : ArrayS) (sl : Slot) (rs : List (BitVec 5)) (k : ArrayS → ArrayS) : ArrayS :=
  match markAmong a rs with
  | some m => raiseMark a sl m
  | none => k a

/-- The order of faults that meet in one ac: C instances by row, then slots by code (R224). -/
def faultBefore (x y : FaultE) : Bool :=
  match x.row, y.row with
  | some r, some q => decide (r < q) || (decide (r = q) && decide (x.col ≤ y.col))
  | some _, none => true
  | none, some _ => false
  | none, none => decide (x.slot ≤ y.slot)

/-- The fault a record names. -/
def firstFault : List FaultE → Option FaultE
  | [] => none
  | x :: r =>
    match firstFault r with
    | none => some x
    | some y => if faultBefore x y then some x else some y

/-- The bundle a fault's record names (R224, R226): the C instance's, or the one being issued. -/
def faultBundle (a : ArrayS) (f : FaultE) : Nat × Nat × BitVec 10 :=
  match f.row with
  | none => (a.pc, a.tt, a.perf)
  | some r =>
    match listGet a.pipe none r with
    | some p => (p.pc, p.tt, setBit p.perf 1 false)
    | none => (a.pc, a.tt, a.perf)

/-- The trap record of the faults found in one ac (R226). `member` is the chain position. -/
def trapRecord (a : ArrayS) (f : FaultE) : TrapRec :=
  let (pc, tt, perf) := faultBundle a f
  { cause := f.cause, logical := a.logical, perf := perf,
    slot := if f.row.isSome then 1 else f.slot,
    member := a.chpos, pc := pc, tt := BitVec.ofNat 64 tt, detail := f.detail, region := f.region,
    row := f.row.getD 0, col := f.col, valid := f.row.isSome }

/-- The 32 bytes of a record (R226). -/
def trapBytes (t : TrapRec) : List Byte :=
  leBytes 1 (causeCode t.cause) ++ leBytes 1 t.logical ++
    leBytes 2 (t.perf.toNat + t.slot <<< 10 + t.member <<< 14) ++ leBytes 4 t.pc ++
    leBytes 8 t.tt.toNat ++ leBytes 8 t.detail.toNat ++ leBytes 2 t.region ++
    leBytes 2 (if t.valid then t.row + t.col <<< 8 + 0x8000 else 0) ++ leBytes 4 0

/-- TAKING A TRAP: the one operation every trap of an array goes through. The record is written, the domain
is held from the next ac, and the replay buffer keeps the faulting bundle (R224, R226). Without a fault the
array goes on. -/
def takeTrap (a : ArrayS) : ArrayS :=
  match firstFault a.faults with
  | none => a
  | some f =>
    { a with
      trec := some (trapRecord a f)
      cond := .held
      faults := []
      held := some { bits := a.cur, word := a.word, pc := a.pc, tt := a.tt, perf := a.perf,
                     rows := a.faults.filterMap (fun x =>
                       match x.row with
                       | none => none
                       | some r => (listGet a.pipe none r).map (fun p => (r, p)))
                     inp := a.inp } }

/-- An asynchronous trap, taken at an issue-cycle boundary: no slot unperformed, every performed bit 0 and
the faulting slot 0xF, naming the bundle that was due (R224). -/
def takeAsync (a : ArrayS) (c : Cause) (detail : W64) (region : Nat) : ArrayS :=
  { a with
    trec := some { cause := c, logical := a.logical, perf := 0, slot := 0xF, member := a.chpos,
                   pc := a.pc, tt := BitVec.ofNat 64 a.tt, detail := detail, region := region,
                   row := 0, col := 0, valid := false }
    cond := .held
    held := none }

/-- Note an asynchronous cause at an array; it is taken at the next boundary (R224). -/
def noteAsync (a : ArrayS) (c : Cause) (detail : W64) (region : Nat) : ArrayS :=
  { a with async := a.async ++ [{ cause := c, slot := 0xF, detail := detail, region := region }] }

/-- RETURNING FROM A TRAP, verdict 4 (R142, R225): the array runs again, and its first ac is the replay
ac. -/
def resumeTrap (a : ArrayS) : ArrayS :=
  if a.cond = .held then { a with cond := .running, replay := true } else a

end Sys2Proof.Machine
end

