-- ==== Sys2Proof/Machine/Cells.lean ====
section
/-! DEFINITION. The C slot: one instance, the execution of an entry of the instruction pipe in one row of
an array (R147 to R156, R174 to R178, R317 to R324). -/
namespace Sys2Proof.Machine
open Sys2Proof

/-- Entry `i` of an edge port latch (0 NPL, 1 SPL, 2 WPL, 3 EPL) as the bundle of TT `u` sees it: loads of
bundles up to u - 5 (R150). -/
def latchSeen (a : ArrayS) (id i u : Nat) : Vec × Bool :=
  let k := 64 * id + i
  let base : BitVec 4 := ofBits 4 (fun q => a.latchMk.contains (4 * k + q))
  let r := a.latchLog.foldl (fun (v : Vec × BitVec 4) l =>
    if l.id = id && l.tt + 5 ≤ u then
      let x := pvElem l.vec i
      (setField v.1 (32 * l.q) 32 x.1.toNat, setBit v.2 l.q x.2)
    else v) (tabGet a.latch 0 k, base)
  (r.1, r.2 != 0)

/-- cm of a cell with its mark. -/
def cmOf (a : ArrayS) (r c : Nat) : Vec × Bool := let x := cellAt a r c; (x.cm, x.cmm)

/-- cm of a row with its marks, by column. -/
def cmRow (a : ArrayS) (r : Nat) : Tab Vec × W64 :=
  ((tabGet a.cells [] r).map (fun p => (p.1, p.2.cm)),
   ofBits 64 (fun c => (cellAt a r c).cmm))

/-- One column of such a row. -/
def rowAt (t : Tab Vec × W64) (c : Nat) : Vec × Bool := (tabGet t.1 0 c, t.2.getLsbD c)

/-- The up operand of cell (r, c) (R149, R150, R159). -/
def upOf (a : ArrayS) (e : PipeE) (r c : Nat) : Vec × Bool :=
  match e.upcm with
  | some t => rowAt (t, e.upmk) c
  | none =>
    if r ≠ 0 then cmOf a (r - 1) c
    else
      match bitsN e.em 0 2 with
      | 1 => if a.chlen = 0 then rowAt a.cm63 c else (0, false)
      | 2 => latchSeen a 0 c e.tt
      | _ => (0, false)

/-- The dn operand (R149, R150, R159). -/
def dnOf (a : ArrayS) (e : PipeE) (r c : Nat) : Vec × Bool :=
  match e.dncm with
  | some t => rowAt (t, e.dnmk) c
  | none =>
    if r ≠ 63 then cmOf a (r + 1) c
    else
      match a.cmLow with
      | some t => rowAt t c
      | none =>
        match bitsN e.em 2 2 with
        | 1 => if a.chlen = 0 then cmOf a 0 c else (0, false)
        | 2 => latchSeen a 1 c e.tt
        | _ => (0, false)

/-- The lf operand (R149, R150). -/
def lfOf (a : ArrayS) (e : PipeE) (r c : Nat) : Vec × Bool :=
  if c ≠ 0 then cmOf a r (c - 1)
  else
    match bitsN e.em 4 2 with
    | 1 => cmOf a r 63
    | 2 => latchSeen a 2 r e.tt
    | _ => (0, false)

/-- The rt operand (R149, R150). -/
def rtOf (a : ArrayS) (e : PipeE) (r c : Nat) : Vec × Bool :=
  if c ≠ 63 then cmOf a r (c + 1)
  else
    match bitsN e.em 6 2 with
    | 1 => cmOf a r 0
    | 2 => latchSeen a 3 r e.tt
    | _ => (0, false)

/-- The neighbour and port values of cell (r, c) (R149, R177). -/
def envOf (a : ArrayS) (e : PipeE) (r c : Nat) : CellEnv :=
  { up := upOf a e r c, dn := dnOf a e r c, lf := lfOf a e r c, rt := rtOf a e r c,
    np := match tabGet a.npq [] r with | v :: _ => pvElem v c | [] => (0, false),
    wp := match tabGet a.wpq [] r with | v :: _ => v | [] => (0, false) }

/-- The cell executes: its mask bits are 1 and its guard condition holds (R151, R317). -/
def executes (a : ArrayS) (e : PipeE) (f : CSlot) (r c : Nat) : Bool :=
  e.ym.getLsbD r && e.xm.getLsbD c && guardHolds (cellAt a r c).g f.grd.toNat

/-- The MMA scale register is read (R343). -/
def readsScale (o : COp) (f : CSlot) : Bool :=
  (match o with | .mmaE4m3 | .mmaE5m2 | .mmaE2m1 | .mmaT => true | _ => false) && bitB f.spec 13

/-- What one cell does: unchanged, a trap with its detail, or its new state, lane value and flag bit. -/
inductive CellRes where
  | idle
  | trap (c : Cause) (detail : Nat)
  | done (x : CellS) (lane : Nat) (flag : Bool)
  deriving DecidableEq, Repr

/-- One cell of an instance (R317, R318, R322, R323). -/
def cellDo (o : COp) (f : CSlot) (a : ArrayS) (e : PipeE) (r c : Nat) : CellRes :=
  if !executes a e f r c then .idle
  else
    let x := cellAt a r c
    let n := envOf a e r c
    let (ua, ub, uc) := cSources o
    let rd (u : Bool) (code : BitVec 6) : Vec × Option Nat :=
      if u then srcVal x n f.e code.toNat else (0, none)
    let va := rd ua f.sa
    let vb := rd ub f.sb
    let vc := rd uc f.sc
    let vs : Option Nat := if readsScale o f && x.km.getLsbD (bitsN f.spec 8 3) then some 3 else none
    let vo : Option Nat := if o = .osr && x.osm.getLsbD (bitsN f.spec 0 6) then some 2 else none
    match [va.2, vb.2, vc.2, vs, vo].findSome? id with
    | some src => .trap .poison src
    | none =>
      match (if a.residCell ≠ 0 && !a.fast then residDetail o else none) with
      | some d => .trap .resid d
      | none =>
        let ctx : CellCtx :=
          { sr := { seed := e.seed, tile := e.tile, row := 64 * a.chpos + r, n := e.srn, col := c },
            rho := 64 * a.chpos + r, col := c, logical := a.logical }
        let (y, l, b) := cellExec o f ctx x va.1 vb.1 vc.1 (tabGet e.lane 0 c) (e.seg.getLsbD r)
        .done y l b

/-- A port is named by the C slot of the operation (R178). -/
def namesPort (o : COp) (f : CSlot) (west : Bool) : Bool := cNames o f (if west then 30 else 29)

/-- The entry as it enters row 0 of an array or of a chain: the lanes take their initial values (R153,
R155, R156). -/
def laneInit (o : COp) (f : CSlot) (a : ArrayS) (r : Nat) (e : PipeE) : PipeE :=
  if r ≠ 0 || a.chpos ≠ 0 then e
  else
    match o with
    | .drn =>
      let one (c : Nat) : Nat :=
        if bitB f.spec 10 then (tabGet a.dlat 0 c).toNat else laneIdentity f
      { e with lane := (List.range 64).map (fun c => (c, one c)) }
    | .flg => { e with fl := if bitB f.spec 13 then BitVec.allOnes 64 else 0 }
    | _ => e

/-- The tap of a segadd DRN at row r: the lane values before the row restarts the segment (R372), and whether some
cell of the row executes (R205). -/
def laneTap (o : COp) (f : CSlot) (r : Nat) (first live : Bool) (e : PipeE) : PipeE :=
  if o = .drn && drnOp f = 6 && e.seg.getLsbD r && (!(r = 0 && first) || bitB f.spec 10)
  then { e with taps := e.taps ++ [(r, e.lane)], tapLive := setBit e.tapLive r live } else e

/-- The flag lanes after a row (R156). -/
def flagLanes (f : CSlot) (old : W64) (bs : List (Nat × Bool)) : W64 :=
  bs.foldl (fun v p =>
    setBit v p.1 (if bitB f.spec 13 then v.getLsbD p.1 && p.2 else v.getLsbD p.1 || p.2)) old

/-- OR of the sticky flags of a row (R176). -/
def rowFlags (a : ArrayS) (r : Nat) : Flags :=
  (tabGet a.cells [] r).foldl (fun f p => f ||| p.2.fstk) flNone

/-- Consume one entry of each named port in row r (R178). -/
def consume (o : COp) (f : CSlot) (a : ArrayS) (r : Nat) : ArrayS :=
  let a := if namesPort o f false then { a with npq := tabMod a.npq [] r (fun q => q.drop 1) } else a
  if namesPort o f true then { a with wpq := tabMod a.wpq [] r (fun q => q.drop 1) } else a

/-- A trap of a C instance at row r (R224): unperformed in every cell of the row, its inputs kept for the
replay. -/
def rowFault (a : ArrayS) (r : Nat) (e : PipeE) (c : Cause) (detail col : Nat) : ArrayS :=
  let keep (g : Nat → Vec × Bool) : Tab Vec × W64 :=
    ((List.range 64).map (fun k => (k, (g k).1)), ofBits 64 (fun k => (g k).2))
  let up := keep (upOf a e r)
  let dn := keep (dnOf a e r)
  let fe : FaultE :=
    { cause := c, slot := 1, detail := BitVec.ofNat 64 detail, row := some r, col := col }
  let held : PipeE := { e with upcm := some up.1, upmk := up.2, dncm := some dn.1, dnmk := dn.2 }
  { a with faults := a.faults ++ [fe], pipe := a.pipe.set r (some held) }

/-- One instance: the operation of an entry in row r (R147, R318). An entry that the shed bank has lost traps; the
spec gives its detail no source code (R227, R230; log entry 59). -/
def cRow (o : COp) (f : CSlot) (r : Nat) (a : ArrayS) : ArrayS :=
  match listGet a.pipe none r with
  | none => a
  | some e0 =>
    if a.parity.contains r then rowFault { a with parity := a.parity.erase r } r e0 .wavesig (1 + 256 * r) 0
    else if e0.pois then rowFault a r e0 .poison (Config.openDetail 0).toNat 0
    else
      let e1 := laneInit o f a r e0
      let rs := (List.range 64).map (fun c => (c, cellDo o f a e1 r c))
      match rs.findSome? (fun p => match p.2 with | .trap c d => some (p.1, c, d) | _ => none) with
      | some (col, c, d) =>
        rowFault (if c = .resid then { a with residCell := a.residCell - 1 } else a) r e0 c d col
      | none =>
        let outs := rs.filterMap (fun p =>
          match p.2 with | .done x l b => some (p.1, x, l, b) | _ => none)
        let e2 := laneTap o f r (a.chpos == 0) (!outs.isEmpty) e1
        let row := outs.foldl (fun t p => tabSet t p.1 p.2.1) (tabGet a.cells [] r)
        let a := if outs.isEmpty then a else { a with cells := tabSet a.cells r row }
        let a := consume o f a r
        let e3 : PipeE :=
          match o with
          | .drn => { e2 with lane := outs.foldl (fun t p => tabSet t p.1 p.2.2.1) e2.lane }
          | .flg => { e2 with fl := flagLanes f e2.fl (outs.map (fun p => (p.1, p.2.2.2))) }
          | _ => e2
        let e4 : PipeE :=
          { e3 with
            fst := e3.fst ||| rowFlags a r, upcm := none, upmk := 0, dncm := none, dnmk := 0 }
        { a with pipe := a.pipe.set r (some e4) }

/-- The C slot's meaning at the row the instruction acts on. -/
def runC (o : COp) (f : CSlot) (s : State) : Host.Outcome State Fault Refusal :=
  .next (onArr s (cRow o f s.cur.row))

/-- NOP: carried down the pipe, no effect in any cell (R324). -/
def execCNop (f : CSlot) (s : State) : Host.Outcome State Fault Refusal := runC .nop f s
/-- CLR (R324). -/
def execCClr (f : CSlot) (s : State) : Host.Outcome State Fault Refusal := runC .clr f s
/-- MOV (R325). -/
def execCMov (f : CSlot) (s : State) : Host.Outcome State Fault Refusal := runC .mov f s
/-- MOVI (R325). -/
def execCMovi (f : CSlot) (s : State) : Host.Outcome State Fault Refusal := runC .movi f s
/-- ADD (R326, R327). -/
def execCAdd (f : CSlot) (s : State) : Host.Outcome State Fault Refusal := runC .add f s
/-- SUB (R326, R327). -/
def execCSub (f : CSlot) (s : State) : Host.Outcome State Fault Refusal := runC .sub f s
/-- MUL (R326, R327). -/
def execCMul (f : CSlot) (s : State) : Host.Outcome State Fault Refusal := runC .mul f s
/-- FMA (R326, R327). -/
def execCFma (f : CSlot) (s : State) : Host.Outcome State Fault Refusal := runC .fma f s
/-- FMS (R326, R327). -/
def execCFms (f : CSlot) (s : State) : Host.Outcome State Fault Refusal := runC .fms f s
/-- NEG (R326, R327). -/
def execCNeg (f : CSlot) (s : State) : Host.Outcome State Fault Refusal := runC .neg f s
/-- ABS (R326, R327). -/
def execCAbs (f : CSlot) (s : State) : Host.Outcome State Fault Refusal := runC .abs f s
/-- MIN (R268, R326). -/
def execCMin (f : CSlot) (s : State) : Host.Outcome State Fault Refusal := runC .min f s
/-- MAX (R268, R326). -/
def execCMax (f : CSlot) (s : State) : Host.Outcome State Fault Refusal := runC .max f s
/-- AND (R329). -/
def execCAnd (f : CSlot) (s : State) : Host.Outcome State Fault Refusal := runC .and f s
/-- OR (R329). -/
def execCOr (f : CSlot) (s : State) : Host.Outcome State Fault Refusal := runC .or f s
/-- XOR (R329). -/
def execCXor (f : CSlot) (s : State) : Host.Outcome State Fault Refusal := runC .xor f s
/-- NOT (R329). -/
def execCNot (f : CSlot) (s : State) : Host.Outcome State Fault Refusal := runC .not f s
/-- SHL (R330). -/
def execCShl (f : CSlot) (s : State) : Host.Outcome State Fault Refusal := runC .shl f s
/-- SHR (R330). -/
def execCShr (f : CSlot) (s : State) : Host.Outcome State Fault Refusal := runC .shr f s
/-- SAR (R330). -/
def execCSar (f : CSlot) (s : State) : Host.Outcome State Fault Refusal := runC .sar f s
/-- ROT (R330). -/
def execCRot (f : CSlot) (s : State) : Host.Outcome State Fault Refusal := runC .rot f s
/-- CMP.eq (R331). -/
def execCCmpEq (f : CSlot) (s : State) : Host.Outcome State Fault Refusal := runC .cmpEq f s
/-- CMP.ne (R331). -/
def execCCmpNe (f : CSlot) (s : State) : Host.Outcome State Fault Refusal := runC .cmpNe f s
/-- CMP.lt (R331). -/
def execCCmpLt (f : CSlot) (s : State) : Host.Outcome State Fault Refusal := runC .cmpLt f s
/-- CMP.le (R331). -/
def execCCmpLe (f : CSlot) (s : State) : Host.Outcome State Fault Refusal := runC .cmpLe f s
/-- SEL (R332). -/
def execCSel (f : CSlot) (s : State) : Host.Outcome State Fault Refusal := runC .sel f s
/-- SETG (R333). -/
def execCSetg (f : CSlot) (s : State) : Host.Outcome State Fault Refusal := runC .setg f s
/-- CVT (R335). -/
def execCCvt (f : CSlot) (s : State) : Host.Outcome State Fault Refusal := runC .cvt f s
/-- PACK (R336). -/
def execCPack (f : CSlot) (s : State) : Host.Outcome State Fault Refusal := runC .pack f s
/-- UNPACK (R337). -/
def execCUnpack (f : CSlot) (s : State) : Host.Outcome State Fault Refusal := runC .unpack f s
/-- REQ (R279, R338). -/
def execCReq (f : CSlot) (s : State) : Host.Outcome State Fault Refusal := runC .req f s
/-- RCP (R275, R339). -/
def execCRcp (f : CSlot) (s : State) : Host.Outcome State Fault Refusal := runC .rcp f s
/-- RSQ (R275, R339). -/
def execCRsq (f : CSlot) (s : State) : Host.Outcome State Fault Refusal := runC .rsq f s
/-- EXP2 (R275, R339). -/
def execCExp2 (f : CSlot) (s : State) : Host.Outcome State Fault Refusal := runC .exp2 f s
/-- LOG2 (R275, R339). -/
def execCLog2 (f : CSlot) (s : State) : Host.Outcome State Fault Refusal := runC .log2 f s
/-- HSUM (R340). -/
def execCHsum (f : CSlot) (s : State) : Host.Outcome State Fault Refusal := runC .hsum f s
/-- HMAX (R341). -/
def execCHmax (f : CSlot) (s : State) : Host.Outcome State Fault Refusal := runC .hmax f s
/-- HMIN (R341). -/
def execCHmin (f : CSlot) (s : State) : Host.Outcome State Fault Refusal := runC .hmin f s
/-- MMA.e4m3 (R270, R342, R343). -/
def execCMmaE4m3 (f : CSlot) (s : State) : Host.Outcome State Fault Refusal := runC .mmaE4m3 f s
/-- MMA.e5m2 (R270, R342, R343). -/
def execCMmaE5m2 (f : CSlot) (s : State) : Host.Outcome State Fault Refusal := runC .mmaE5m2 f s
/-- MMA.e2m1 (R270, R342, R343). -/
def execCMmaE2m1 (f : CSlot) (s : State) : Host.Outcome State Fault Refusal := runC .mmaE2m1 f s
/-- MMA.bf16 (R270, R342). -/
def execCMmaBf16 (f : CSlot) (s : State) : Host.Outcome State Fault Refusal := runC .mmaBf16 f s
/-- MMA.f16 (R270, R342). -/
def execCMmaF16 (f : CSlot) (s : State) : Host.Outcome State Fault Refusal := runC .mmaF16 f s
/-- MMA.i8 (R272, R342). -/
def execCMmaI8 (f : CSlot) (s : State) : Host.Outcome State Fault Refusal := runC .mmaI8 f s
/-- MMA.i4 (R272, R342). -/
def execCMmaI4 (f : CSlot) (s : State) : Host.Outcome State Fault Refusal := runC .mmaI4 f s
/-- MMA.T (R344). -/
def execCMmaT (f : CSlot) (s : State) : Host.Outcome State Fault Refusal := runC .mmaT f s
/-- OSW (R346, R347). -/
def execCOsw (f : CSlot) (s : State) : Host.Outcome State Fault Refusal := runC .osw f s
/-- OSR (R346, R347). -/
def execCOsr (f : CSlot) (s : State) : Host.Outcome State Fault Refusal := runC .osr f s
/-- DRN (R153 to R155, R348). -/
def execCDrn (f : CSlot) (s : State) : Host.Outcome State Fault Refusal := runC .drn f s
/-- FLG (R156, R350). -/
def execCFlg (f : CSlot) (s : State) : Host.Outcome State Fault Refusal := runC .flg f s
/-- HASH32 (R351). -/
def execCHash32 (f : CSlot) (s : State) : Host.Outcome State Fault Refusal := runC .hash32 f s
/-- TIDX (R352). -/
def execCTidx (f : CSlot) (s : State) : Host.Outcome State Fault Refusal := runC .tidx f s

end Sys2Proof.Machine
end

