-- ==== Sys2Proof/Machine/SeqArith.lean ====
section
/-! DEFINITION. Sequencer arithmetic (R283, R289 to R292): the instructions whose whole effect is one
64-bit result in s[d]. -/
namespace Sys2Proof.Machine
open Sys2Proof

/-- A checked result of the sequencer ALU (R283): a residue mismatch traps with RESID, detail 2, and the
destination keeps its old value (R228). -/
def aluWrite (a : ArrayS) (d : BitVec 5) (v : W64) : ArrayS :=
  if a.residSeq = 0 then sPut a d v
  else raise { a with residSeq := a.residSeq - 1 } .s .resid 2

/-- An instruction that writes s[d] from the registers `rs` it reads (R280, R283). -/
def aluOp (rs : List (BitVec 5)) (d : BitVec 5) (f : ArrayS → W64) (a : ArrayS) : ArrayS :=
  withRegs a .s rs (fun a => aluWrite a d (f a))

/-- An instruction whose result no residue checks: logic, shifts, compares and moves (R228). Which of the
R290 operations count as such is read from R228's list (DEDUCED, log entry 55). -/
def freeOp (rs : List (BitVec 5)) (d : BitVec 5) (f : ArrayS → W64) (a : ArrayS) : ArrayS :=
  withRegs a .s rs (fun a => sPut a d (f a))

/-- `freeOp` at the array the instruction acts on. -/
def runFree (rs : List (BitVec 5)) (d : BitVec 5) (f : ArrayS → W64) (s : State) :
    Host.Outcome State Fault Refusal :=
  .next (onArr s (freeOp rs d f))

/-- Two sources, unchecked. -/
def runFree2 (d a b : BitVec 5) (f : W64 → W64 → W64) (s : State) : Host.Outcome State Fault Refusal :=
  runFree [a, b] d (fun x => f (sVal x a) (sVal x b)) s

/-- One source, unchecked. -/
def runFree1 (d a : BitVec 5) (f : W64 → W64) (s : State) : Host.Outcome State Fault Refusal :=
  runFree [a] d (fun x => f (sVal x a)) s

/-- `aluOp` at the array the instruction acts on. -/
def runAlu (rs : List (BitVec 5)) (d : BitVec 5) (f : ArrayS → W64) (s : State) :
    Host.Outcome State Fault Refusal :=
  .next (onArr s (aluOp rs d f))

/-- Two sources. -/
def runAlu2 (d a b : BitVec 5) (f : W64 → W64 → W64) (s : State) : Host.Outcome State Fault Refusal :=
  runAlu [a, b] d (fun x => f (sVal x a) (sVal x b)) s

/-- One source. -/
def runAlu1 (d a : BitVec 5) (f : W64 → W64) (s : State) : Host.Outcome State Fault Refusal :=
  runAlu [a] d (fun x => f (sVal x a)) s

/-- The 64-bit immediate of R239. -/
def simm64 : SImm → W64
  | .short v => sext64 v
  | .long v => v

/-- The shift amount s[b][5:0] (R290). -/
def shAmt (b : W64) : Nat := bitsN b 0 6

/-- Signed division truncated towards zero; a divisor of zero gives all ones, and -2^63 by -1 gives -2^63
(R290). -/
def divS (a b : W64) : W64 := if b = 0 then BitVec.allOnes 64 else BitVec.ofInt 64 (a.toInt.tdiv b.toInt)

/-- Unsigned division (R290). -/
def divN (a b : W64) : W64 := if b = 0 then BitVec.allOnes 64 else BitVec.ofNat 64 (a.toNat / b.toNat)

/-- Signed remainder, with the dividend's sign; s[a] for a divisor of zero (R290). -/
def remS (a b : W64) : W64 := if b = 0 then a else BitVec.ofInt 64 (a.toInt.tmod b.toInt)

/-- Unsigned remainder (R290). -/
def remN (a b : W64) : W64 := if b = 0 then a else BitVec.ofNat 64 (a.toNat % b.toNat)

/-- ADD (R290). -/
def execSAdd (d a b : BitVec 5) (s : State) : Host.Outcome State Fault Refusal := runAlu2 d a b (· + ·) s
/-- SUB (R290). -/
def execSSub (d a b : BitVec 5) (s : State) : Host.Outcome State Fault Refusal := runAlu2 d a b (· - ·) s
/-- AND (R290). -/
def execSAnd (d a b : BitVec 5) (s : State) : Host.Outcome State Fault Refusal :=
  runFree2 d a b (· &&& ·) s
/-- OR (R290). -/
def execSOr (d a b : BitVec 5) (s : State) : Host.Outcome State Fault Refusal :=
  runFree2 d a b (· ||| ·) s
/-- XOR (R290). -/
def execSXor (d a b : BitVec 5) (s : State) : Host.Outcome State Fault Refusal :=
  runFree2 d a b (· ^^^ ·) s
/-- SHL (R290). -/
def execSShl (d a b : BitVec 5) (s : State) : Host.Outcome State Fault Refusal :=
  runFree2 d a b (fun x y => x <<< shAmt y) s
/-- SHR (R290). -/
def execSShr (d a b : BitVec 5) (s : State) : Host.Outcome State Fault Refusal :=
  runFree2 d a b (fun x y => x >>> shAmt y) s
/-- SAR (R290). -/
def execSSar (d a b : BitVec 5) (s : State) : Host.Outcome State Fault Refusal :=
  runFree2 d a b (fun x y => x.sshiftRight (shAmt y)) s
/-- MUL: bits [63:0] of the product (R290). -/
def execSMul (d a b : BitVec 5) (s : State) : Host.Outcome State Fault Refusal := runAlu2 d a b (· * ·) s
/-- MULH: bits [127:64] of the signed product (R290). -/
def execSMulh (d a b : BitVec 5) (s : State) : Host.Outcome State Fault Refusal :=
  runAlu2 d a b (fun x y => BitVec.ofInt 64 ((x.toInt * y.toInt) >>> 64)) s
/-- MULHN: bits [127:64] of the unsigned product (R290). -/
def execSMulhn (d a b : BitVec 5) (s : State) : Host.Outcome State Fault Refusal :=
  runAlu2 d a b (fun x y => BitVec.ofNat 64 ((x.toNat * y.toNat) >>> 64)) s
/-- DIVS (R290); the 19 frozen ac before it are R291's. -/
def execSDivs (d a b : BitVec 5) (s : State) : Host.Outcome State Fault Refusal := runAlu2 d a b divS s
/-- DIVN (R290). -/
def execSDivn (d a b : BitVec 5) (s : State) : Host.Outcome State Fault Refusal := runAlu2 d a b divN s
/-- REMS (R290). -/
def execSRems (d a b : BitVec 5) (s : State) : Host.Outcome State Fault Refusal := runAlu2 d a b remS s
/-- REMN (R290). -/
def execSRemn (d a b : BitVec 5) (s : State) : Host.Outcome State Fault Refusal := runAlu2 d a b remN s
/-- SEL (R290). -/
def execSSel (d a b c : BitVec 5) (s : State) : Host.Outcome State Fault Refusal :=
  runFree [a, b, c] d (fun x => if sVal x c ≠ 0 then sVal x a else sVal x b) s
/-- MIN, signed (R290). -/
def execSMin (d a b : BitVec 5) (s : State) : Host.Outcome State Fault Refusal :=
  runFree2 d a b (fun x y => if y.slt x then y else x) s
/-- MAX, signed (R290). -/
def execSMax (d a b : BitVec 5) (s : State) : Host.Outcome State Fault Refusal :=
  runFree2 d a b (fun x y => if x.slt y then y else x) s
/-- MINN, unsigned (R290). -/
def execSMinn (d a b : BitVec 5) (s : State) : Host.Outcome State Fault Refusal :=
  runFree2 d a b (fun x y => if y.ult x then y else x) s
/-- MAXN, unsigned (R290). -/
def execSMaxn (d a b : BitVec 5) (s : State) : Host.Outcome State Fault Refusal :=
  runFree2 d a b (fun x y => if x.ult y then y else x) s
/-- SLT, signed (R290). -/
def execSSlt (d a b : BitVec 5) (s : State) : Host.Outcome State Fault Refusal :=
  runFree2 d a b (fun x y => if x.slt y then 1 else 0) s
/-- SLTN, unsigned (R290). -/
def execSSltn (d a b : BitVec 5) (s : State) : Host.Outcome State Fault Refusal :=
  runFree2 d a b (fun x y => if x.ult y then 1 else 0) s
/-- CLZ: leading zero bits, 64 for zero (R290). -/
def execSClz (d a : BitVec 5) (s : State) : Host.Outcome State Fault Refusal :=
  runFree1 d a (fun x => BitVec.ofNat 64 (64 - bitLen x.toNat)) s
/-- POPC: number of one bits (R290). -/
def execSPopc (d a : BitVec 5) (s : State) : Host.Outcome State Fault Refusal :=
  runFree1 d a (fun x => BitVec.ofNat 64 (popCount 64 x.toNat)) s
/-- ADDI (R290). -/
def execSAddi (d a : BitVec 5) (imm : SImm) (s : State) : Host.Outcome State Fault Refusal :=
  runAlu1 d a (fun x => x + simm64 imm) s
/-- ANDI (R290). -/
def execSAndi (d a : BitVec 5) (imm : SImm) (s : State) : Host.Outcome State Fault Refusal :=
  runFree1 d a (fun x => x &&& simm64 imm) s
/-- ORI (R290). -/
def execSOri (d a : BitVec 5) (imm : SImm) (s : State) : Host.Outcome State Fault Refusal :=
  runFree1 d a (fun x => x ||| simm64 imm) s
/-- XORI (R290). -/
def execSXori (d a : BitVec 5) (imm : SImm) (s : State) : Host.Outcome State Fault Refusal :=
  runFree1 d a (fun x => x ^^^ simm64 imm) s
/-- LI (R290). -/
def execSLi (d : BitVec 5) (imm : SImm) (s : State) : Host.Outcome State Fault Refusal :=
  runFree [] d (fun _ => simm64 imm) s

-- Shape entries (R162, R292)

/-- Extent i of a shape entry. -/
def shapeExtent (e : ShapeE) (i : Nat) : Nat := tabGet e.ex 0 i + 1

/-- l_i = ceil(log2 e_i) (R162). -/
def shapeL (e : Nat) : Nat := if e ≤ 1 then 0 else bitLen (e - 1)

/-- mu_i = ceil(2^(32 + l) / e) (R162). -/
def shapeMu (e : Nat) : Nat := (2 ^ (32 + shapeL e) + e - 1) / e

/-- One step of the decomposition: the quotient by the derived pair (R162, R292). -/
def shapeQuot (e x : Nat) : Nat := (x * shapeMu e) >>> (32 + shapeL e)

/-- The coordinates of an index, and the quotient left over after `m` steps (R292). -/
def shapeCoords (e : ShapeE) : Nat → Nat → Nat → List Nat × Nat
  | 0, _, x => ([], x)
  | n + 1, i, x =>
    let q := shapeQuot (shapeExtent e i) x
    let r := shapeCoords e n (i + 1) q
    ((x - q * shapeExtent e i) :: r.1, r.2)

/-- What TIDX delivers: coordinate k, or the quotient left over (R292). -/
def tidxVal (e : ShapeE) (x k : Nat) : Nat :=
  let r := shapeCoords e e.m 0 x
  if k < e.m then listGet r.1 0 k else r.2

/-- TIDX (R292): an index of 2^32 or more traps with ILLCODE. -/
def execSTidx (d a : BitVec 5) (sh : BitVec 4) (k : BitVec 3) (s : State) :
    Host.Outcome State Fault Refusal :=
  .next (onArr s (fun x => withRegs x .s [a] (fun x =>
    if bitsN (sVal x a) 32 32 ≠ 0 then raiseIll x .s
    else aluWrite x d
      (BitVec.ofNat 64 (tidxVal (tabGet x.shapes {} sh.toNat) (bitsN (sVal x a) 0 32) k.toNat)))))

end Sys2Proof.Machine
end

