-- ==== Sys2Proof/Machine/SeqFlow.lean ====
section
/-! DEFINITION. Sequencer control flow (R285 to R289). -/
namespace Sys2Proof.Machine
open Sys2Proof

/-- The address after the bundle at `pc`: 25 words on for a tadpole, else one (R232, R285). -/
def succOf (a : ArrayS) (pc : Nat) : Nat := pc + (if tabGet a.code 0 pc = 0xFFF0 then 25 else 1)

/-- next of R285, for the bundle being issued. -/
def nextOf (a : ArrayS) : Nat := a.pc + (if a.word = 0xFFF0 then 25 else 1)

/-- A transfer that is taken: the bundle issued next is the one at the target (R146). -/
def goTo (a : ArrayS) (pc : Nat) : ArrayS := { a with nextPc := pc, jumped := true }

/-- The instructions that a body bundle of a message-passing step may not hold (R203). -/
def outsideBody (a : ArrayS) (k : ArrayS → ArrayS) : ArrayS :=
  if a.mpe.isSome then raiseIll a .s else k a

/-- The condition of BRC (R285). -/
def condHolds (cc : Sys2Proof.Cond) (x y : W64) : Bool :=
  match cc with
  | .eq => x == y
  | .ne => x != y
  | .lt => x.slt y
  | .ge => !x.slt y
  | .ltn => x.ult y
  | .gen => !x.ult y

/-- NOP has no effect (R285). -/
def execSNop (s : State) : Host.Outcome State Fault Refusal := .next s
/-- BR (R285). -/
def execSBr (target : BitVec 17) (s : State) : Host.Outcome State Fault Refusal :=
  .next (onArr s (fun a => outsideBody a (fun a => goTo a target.toNat)))
/-- BRC (R285). -/
def execSBrc (cc : Sys2Proof.Cond) (a b : BitVec 5) (target : BitVec 17) (s : State) :
    Host.Outcome State Fault Refusal :=
  .next (onArr s (fun x => outsideBody x (fun x => withRegs x .s [a, b] (fun x =>
    if condHolds cc (sVal x a) (sVal x b) then goTo x target.toNat else { x with nextPc := nextOf x }))))
/-- BRF reads ef as R156 gives for its issue cycle (R285). -/
def execSBrf (t : Bool) (target : BitVec 17) (s : State) : Host.Outcome State Fault Refusal :=
  .next (onArr s (fun a => outsideBody a (fun a =>
    if a.ef == t then goTo a target.toNat else { a with nextPc := nextOf a })))
/-- CALL; with 8 return PCs held it traps with CALLOV, detail 0 (R161, R285). -/
def execSCall (target : BitVec 17) (s : State) : Host.Outcome State Fault Refusal :=
  .next (onArr s (fun a => outsideBody a (fun a =>
    if 8 ≤ a.calls.length then raise a .s .callov 0
    else goTo { a with calls := nextOf a :: a.calls } target.toNat)))
/-- RET; with none held it traps with CALLOV, detail 1 (R161, R285). -/
def execSRet (s : State) : Host.Outcome State Fault Refusal :=
  .next (onArr s (fun a => outsideBody a (fun a =>
    match a.calls with
    | [] => raise a .s .callov 1
    | pc :: r => goTo { a with calls := r } pc)))
/-- JMPR; a target of 131,072 or more traps with ILLCODE (R285). -/
def execSJmpr (a : BitVec 5) (s : State) : Host.Outcome State Fault Refusal :=
  .next (onArr s (fun x => outsideBody x (fun x => withRegs x .s [a] (fun x =>
    if 131072 ≤ (sVal x a).toNat then raiseIll x .s else goTo x (sVal x a).toNat))))

/-- The effect of LOOP with a count (R286). -/
def loopPush (a : ArrayS) (n : Nat) (sw : Bool) (last : Nat) : ArrayS :=
  if 2 ^ 24 ≤ n || last < nextOf a then raiseIll a .s
  else if n = 0 then goTo a (succOf a last)
  else if 6 ≤ a.loops.length then raise a .s .loopov 0
  else goTo { a with loops :=
    { index := 0, count := n, start := nextOf a, stop := last, sw := sw } :: a.loops } (nextOf a)

/-- LOOP (R286). -/
def execSLoop (count : LoopCount) (sw : Bool) (last : BitVec 17) (s : State) :
    Host.Outcome State Fault Refusal :=
  .next (onArr s (fun x => outsideBody x (fun x =>
    match count with
    | .reg a => withRegs x .s [a] (fun x => loopPush x (sVal x a).toNat sw last.toNat)
    | .imm n => loopPush x n.toNat sw last.toNat)))
/-- LOOPBRK; with an empty stack it traps with LOOPOV (R286). -/
def execSLoopbrk (s : State) : Host.Outcome State Fault Refusal :=
  .next (onArr s (fun a => outsideBody a (fun a =>
    match a.loops with
    | [] => raise a .s .loopov 0
    | e :: r => goTo { a with loops := r } (succOf a e.stop))))
/-- LIDX: the index of lx n, or 0 (R286). -/
def execSLidx (d : BitVec 5) (n : BitVec 3) (s : State) : Host.Outcome State Fault Refusal :=
  .next (onArr s (fun a =>
    sPut a d (BitVec.ofNat 64 (match a.loops[n.toNat]? with | some e => e.index | none => 0))))
/-- HALT: from the next ac the domain is halting (R145, R288). -/
def execSHalt (s : State) : Host.Outcome State Fault Refusal :=
  .next (onArr s (fun a => outsideBody a (fun a =>
    { a with cond := .halting, haltSeen := true, jumped := true, nextPc := nextOf a })))
/-- TRAPI: the trap is its whole effect, and the slot counts as performed (R289). -/
def execSTrapi (imm : BitVec 32) (s : State) : Host.Outcome State Fault Refusal :=
  .next (onArr s (fun a =>
    { a with faults := a.faults ++ [{ cause := .trapi, slot := 0, detail := sext64 imm }] }))

/-- LOOP_ADVANCE (R286): the bundle at the end of the innermost loop has issued. `fuel` bounds the pops by
the six entries. Answers the new PC, the stack, and whether a switchable entry advanced (R287). -/
def loopAdvance (pc next : Nat) : List LoopE → Bool → Nat × List LoopE × Bool
  | [], sw => (next, [], sw)
  | e :: r, sw =>
    if e.stop ≠ pc then (next, e :: r, sw)
    else if e.index + 1 < e.count then (e.start, { e with index := e.index + 1 } :: r, sw || e.sw)
    else loopAdvance pc next r (sw || e.sw)

end Sys2Proof.Machine
end

