-- ==== Sys2Proof/Machine/Spad.lean ====
section
/-! DEFINITION. The scratchpad and the sequencer data memory: bytes, poison marks (R399) and the banks
touched (R181 to R183). -/
namespace Sys2Proof.Machine
open Sys2Proof

/-- 4 MiB (R181). -/
def spadSize : Nat := 4194304

/-- The bank of an address (R181). -/
def bankOf (addr : Nat) : Nat := addr / 64 % 32

/-- The lines that `n` bytes at an address touch. -/
def linesOf (addr n : Nat) : List Nat :=
  (List.range ((addr % 64 + n + 63) / 64)).map (fun i => addr / 64 + i)

/-- Any 4-byte word of `n` bytes at an address is marked (R399). -/
def spMarked (a : ArrayS) (addr n : Nat) : Bool :=
  (List.range ((addr % 4 + n + 3) / 4)).any (fun i => tabGet a.spMk false (addr / 4 + i))

/-- Read `n` scratchpad bytes: the value and whether it is marked (R399). -/
def spRead (a : ArrayS) (addr n : Nat) : Nat × Bool := (memNat a.spad addr n, spMarked a addr n)

/-- The marks after a write of `n` bytes in one access: set by a bad value, cleared only on words the write
fills with clean bytes (R399). -/
def markWords (t : Tab Bool) (addr n : Nat) (bad : Bool) : Tab Bool :=
  (List.range ((addr % 4 + n + 3) / 4)).foldl (fun t i =>
    let w := addr / 4 + i
    if bad then tabPut t false w true
    else if addr ≤ 4 * w && 4 * w + 4 ≤ addr + n then tabPut t false w false
    else t) t

/-- Write the low `n` bytes of a value to the scratchpad in one access (R399). -/
def spWrite (a : ArrayS) (addr n x : Nat) (bad : Bool) : ArrayS :=
  { a with spad := memPutNat a.spad addr n x, spMk := markWords a.spMk addr n bad }

/-- Write bytes to the scratchpad in one access, each with its own mark: a word that takes a marked byte is
marked, and one that is filled with clean bytes is cleared (R399). -/
def spWriteMk (a : ArrayS) (addr : Nat) (bs : List Byte) (mk : List Bool) : ArrayS :=
  let n := bs.length
  { a with
    spad := memPut a.spad addr bs
    spMk := (List.range ((addr % 4 + n + 3) / 4)).foldl (fun t i =>
      let w := addr / 4 + i
      let bad := (List.range 4).any (fun j =>
        decide (addr ≤ 4 * w + j) && (mk[4 * w + j - addr]?).getD false)
      if bad then tabPut t false w true
      else if addr ≤ 4 * w && 4 * w + 4 ≤ addr + n then tabPut t false w false
      else t) a.spMk }

/-- Which of `n` bytes at an address lie in a marked word (R399). -/
def spMarks (a : ArrayS) (addr n : Nat) : List Bool :=
  (List.range n).map (fun i => tabGet a.spMk false ((addr + i) / 4))

/-- A byte of a 128-bit operand-store slot: cell (r, c), slot n, byte b (R179). -/
def osRead (a : ArrayS) (addr : Nat) : Byte × Bool :=
  let n := addr / 65536
  let b := addr % 65536
  let x := cellAt a (b / 16 / 64) (b / 16 % 64)
  ((tabGet x.os 0 n).extractLsb' (8 * (b % 16)) 8, x.osm.getLsbD n)

/-- Write bytes of an operand-store slot of one cell, beginning at a byte of it (R179, R399): the mark is
set by a bad value, and cleared by a clean write of all sixteen bytes. -/
def osWriteSlot (a : ArrayS) (addr : Nat) (bs : List Byte) (bad : Bool) : ArrayS :=
  let n := addr / 65536
  let b := addr % 65536
  let r := b / 16 / 64
  let c := b / 16 % 64
  let x := cellAt a r c
  let v := (List.range bs.length).foldl
    (fun (v : Vec) i => setField v (8 * (b % 16 + i)) 8 (listGet bs 0 i).toNat) (tabGet x.os 0 n)
  let osm := if bad then setBit x.osm n true
    else if bs.length = 16 then setBit x.osm n false else x.osm
  setCell a r c { x with os := tabSet x.os n v, osm := osm }

/-- The bytes of an access size (R293). -/
def sizeBytes : MemSize → Nat
  | .b => 1 | .h => 2 | .w => 4 | .d => 8

/-- A loaded value in a register: sign-extended, or zero-extended under .n (R293). -/
def loadExt (n : Nat) (zx : Bool) (x : Nat) : W64 :=
  if zx then BitVec.ofNat 64 (x % 2 ^ (8 * n)) else BitVec.ofInt 64 (signedOf (8 * n) x)

/-- The 64-bit word of data memory at an address has an uncorrectable error (R230). -/
def dmBad (a : ArrayS) (addr n : Nat) : Bool := a.dmUe.any (fun w => addr / 8 ≤ w && w ≤ (addr + n - 1) / 8)

/-- Write data memory; a whole clean 8-byte word loses its error (R230). -/
def dmWrite (a : ArrayS) (addr n x : Nat) : ArrayS :=
  { a with dmem := memPutNat a.dmem addr n x
           dmUe := a.dmUe.filter (fun w => !(decide (addr ≤ 8 * w) && decide (8 * w + 8 ≤ addr + n))) }

end Sys2Proof.Machine
end

