-- ==== Sys2Proof/Machine/SeqLocal.lean ====
section
/-! DEFINITION. Sequencer instructions over the array's own memories and registers: data memory, scratchpad,
masks, shapes, nests, templates, edge registers, seeds, the timetable and the system registers
(R294, R295, R304 to R310, R313 to R315). -/
namespace Sys2Proof.Machine
open Sys2Proof

/-- s[a] + sext(IMM), as an unsigned number. -/
def effAddr (x : ArrayS) (a : BitVec 5) (off : BitVec 32) : Nat := (sVal x a + sext64 off).toNat

/-- Alignment of an access of n bytes, else ALIGN (R283, check 5). -/
def aligned (x : ArrayS) (sl : Slot) (va n : Nat) (k : ArrayS → ArrayS) : ArrayS :=
  if va % n ≠ 0 then raise x sl .align (BitVec.ofNat 64 n) else k x

/-- LD.x.dm (R294). -/
def execSLdDm (size : MemSize) (zx : Bool) (d a : BitVec 5) (off : BitVec 32) (s : State) :
    Host.Outcome State Fault Refusal :=
  .next (onArr s (fun x => withRegs x .s [a] (fun x =>
    let n := sizeBytes size
    let va := effAddr x a off
    aligned x .s va n (fun x =>
      if 65536 ≤ va then raise x .s .region (pathDetail 1)
      else sPutMk x d (loadExt n zx (memNat x.dmem va n))
        (if dmBad x va n then some { rev := false, src := 4 } else none)))))

/-- ST.x.dm (R294). -/
def execSStDm (size : MemSize) (b a : BitVec 5) (off : BitVec 32) (s : State) :
    Host.Outcome State Fault Refusal :=
  .next (onArr s (fun x => withRegs x .s [b, a] (fun x =>
    let n := sizeBytes size
    let va := effAddr x a off
    aligned x .s va n (fun x =>
      if 65536 ≤ va then raise x .s .region (pathDetail 1)
      else dmWrite x va n (sVal x b).toNat))))

/-- A value that will be ready `delay` ac after this one (R280, R281). -/
def pendIn (x : ArrayS) (d : BitVec 5) (v : W64) (m : Option SMark) (delay : Nat) : ArrayS :=
  if d = 0 then x
  else { sPend x d with pend := x.pend ++ [{ reg := d.toNat, v := v, mark := m, at_ := x.ac + delay }] }

/-- LDX: s[d] is ready 2 ac after issue; a marked byte gives it a mark with source 1 (R295). -/
def execSLdx (size : MemSize) (zx : Bool) (d a : BitVec 5) (off : BitVec 32) (s : State) :
    Host.Outcome State Fault Refusal :=
  .next (onArr s (fun x => withRegs x .s [a] (fun x =>
    let n := sizeBytes size
    let va := effAddr x a off
    aligned x .s va n (fun x =>
      if spadSize ≤ va then raise x .s .region (pathDetail 0)
      else
        let (v, bad) := spRead x va n
        pendIn x d (loadExt n zx v) (if bad then some { rev := false, src := 1 } else none) 2))))

/-- STX (R295). -/
def execSStx (size : MemSize) (b a : BitVec 5) (off : BitVec 32) (s : State) :
    Host.Outcome State Fault Refusal :=
  .next (onArr s (fun x => withRegs x .s [b, a] (fun x =>
    let n := sizeBytes size
    let va := effAddr x a off
    aligned x .s va n (fun x =>
      if spadSize ≤ va then raise x .s .region (pathDetail 0)
      else spWrite x va n (sVal x b).toNat false))))

/-- A write of ym2 or ym3 during a message-passing step traps with SLOTCF (R203). -/
def stepMask (x : ArrayS) (sl : Slot) (m : BitVec 2) : Bool :=
  x.mpe.isSome && bitB m 1 && (sl == .s || sl == .y)

/-- The detail of that trap: the writing slot's own code twice. -/
def ownPair (sl : Slot) : W64 := BitVec.ofNat 64 (17 * slotCode sl)

/-- The row mask m (R151); all ones at node start. -/
def ymOf (a : ArrayS) (m : BitVec 2) : W64 := tabGet a.ym (BitVec.allOnes 64) m.toNat
/-- The column mask m. -/
def xmOf (a : ArrayS) (m : BitVec 2) : W64 := tabGet a.xm (BitVec.allOnes 64) m.toNat
/-- Write a row mask. -/
def setYm (a : ArrayS) (m : BitVec 2) (v : W64) : ArrayS := { a with ym := tabSet a.ym m.toNat v }
/-- Write a column mask. -/
def setXm (a : ArrayS) (m : BitVec 2) (v : W64) : ArrayS := { a with xm := tabSet a.xm m.toNat v }

/-- MOV.YM (R304). -/
def execSMovYm (m : BitVec 2) (a : BitVec 5) (s : State) : Host.Outcome State Fault Refusal :=
  .next (onArr s (fun x => withRegs x .s [a] (fun x =>
    if stepMask x .s m then raise x .s .slotcf (ownPair .s) else setYm x m (sVal x a))))
/-- MOV.XM (R304). -/
def execSMovXm (m : BitVec 2) (a : BitVec 5) (s : State) : Host.Outcome State Fault Refusal :=
  .next (onArr s (fun x => withRegs x .s [a] (fun x => setXm x m (sVal x a))))

/-- SHP.W: an extent from 1 to 2^24, or a count from 1 to 5; else ILLCODE (R283, R305). -/
def execSShpW (sh : BitVec 4) (f : BitVec 3) (a : BitVec 5) (s : State) :
    Host.Outcome State Fault Refusal :=
  .next (onArr s (fun x => withRegs x .s [a] (fun x =>
    let v := (sVal x a).toNat
    let put (g : ShapeE → ShapeE) : ArrayS := { x with shapes := tabMod x.shapes {} sh.toNat g }
    if f.toNat ≤ 4 then
      if v < 1 || 2 ^ 24 < v then raiseIll x .s
      else put (fun e => { e with ex := tabSet e.ex f.toNat (v - 1) })
    else
      if v < 1 || 5 < v then raiseIll x .s else put (fun e => { e with m := v }))))

/-- The width of a nest field (R186). CTL is kept 32 bits wide, since GO asks that its bits above GATH be
zero (R186, R189; log entry 13). -/
def nestWidth (f : Nat) : Nat :=
  if f = 0 then 22 else if f = 1 then 32 else if f ≤ 7 then 24 else if f ≤ 13 then 32
  else if f = 14 then 22 else 23

/-- A loader of an array. -/
def loaderState (a : ArrayS) : Loader → LoaderS
  | .n => a.ldN | .w => a.ldW | .d => a.ldD
/-- Replace a loader. -/
def setLoader (a : ArrayS) (l : Loader) (x : LoaderS) : ArrayS :=
  match l with
  | .n => { a with ldN := x }
  | .w => { a with ldW := x }
  | .d => { a with ldD := x }

/-- Write a field of the shadow nest: the low bits up to its width (R306, R365). -/
def shadowPut (a : ArrayS) (l : Loader) (f v : Nat) : ArrayS :=
  let x := loaderState a l
  setLoader a l { x with shadow := tabSet x.shadow f (v % 2 ^ nestWidth f) }

/-- NEST.W (R306). -/
def execSNestW (l : Loader) (f : BitVec 4) (a : BitVec 5) (s : State) :
    Host.Outcome State Fault Refusal :=
  .next (onArr s (fun x => withRegs x .s [a] (fun x => shadowPut x l f.toNat (sVal x a).toNat)))

/-- CT.LD (R307). -/
def execSCtLd (ct : BitVec 6) (a : BitVec 5) (s : State) : Host.Outcome State Fault Refusal :=
  .next (onArr s (fun x => withRegs x .s [a] (fun x =>
    let va := (sVal x a).toNat
    aligned x .s va 8 (fun x =>
      if 65536 < va + 128 then raise x .s .region (pathDetail 1)
      else if dmBad x va 128 then raise x .s .poison 4
      else { x with tmpl := tabSet x.tmpl ct.toNat (BitVec.ofNat 1024 (memNat x.dmem va 128)) }))))

/-- EDGE.RD (R309). -/
def execSEdgeRd (d : BitVec 5) (er : BitVec 2) (s : State) : Host.Outcome State Fault Refusal :=
  .next (onArr s (fun x => sPut x d (tabGet x.er 0 er.toNat)))

/-- SR.SEED (R276, R310). -/
def execSSrSeed (a : BitVec 5) (b : Option (BitVec 5)) (s : State) :
    Host.Outcome State Fault Refusal :=
  .next (onArr s (fun x => withRegs x .s (a :: b.toList) (fun x =>
    { x with seed := bits (sVal x a) 0 32, srcount := 0,
             tile := match b with | some r => bits (sVal x r) 0 32 | none => x.tile })))

/-- TT.RD: the TT of its own bundle (R315). -/
def execSTtRd (d : BitVec 5) (s : State) : Host.Outcome State Fault Refusal :=
  .next (onArr s (fun x => sPut x d (BitVec.ofNat 64 x.tt)))

/-- TT.CHK: TTDEV on a mismatch of TT or TTCRC, else WAVESIG on a mismatch of the wavefront signatures
(R164, R229, R315). -/
def execSTtChk (tt : TtExpect) (crc : BitVec 32) (s : State) : Host.Outcome State Fault Refusal :=
  let body (want : W64) (x : ArrayS) : ArrayS :=
    if BitVec.ofNat 64 x.tt ≠ want || x.ttcrc ≠ crc then raise x .s .ttdev (x.ttcrc.setWidth 64)
    else if x.sigiRef ≠ x.sigs then raise x .s .wavesig 0
    else x
  .next (onArr s (fun x =>
    match tt with
    | .reg a => withRegs x .s [a] (fun x => body (sVal x a) x)
    | .imm e => body (e.setWidth 64) x))

-- System registers (R170, R193, R226, R313, R314)

/-- ARRID (R170). -/
def arridVal (x : ArrayS) : W64 :=
  BitVec.ofNat 64 (x.logical + x.vs <<< 8 + x.chlen <<< 16 + x.chpos <<< 18)

/-- The code of a handle's state (R193). -/
def hstateCode : HState → Nat
  | .free => 0 | .filling => 1 | .full => 2 | .draining => 3

/-- HRANGE (R193). -/
def hrangeVal (h : HandleS) : W64 := BitVec.ofNat 64 (h.base + h.len <<< 22 + h.kind <<< 62)

/-- HCOUNT (R193). -/
def hcountVal (h : HandleS) : W64 :=
  BitVec.ofNat 64 (h.arr % 2 ^ 24 + h.exp <<< 24 + (if h.ph then 1 else 0) <<< 61 +
    hstateCode h.st <<< 62)

/-- Word n of the latest trap record (R226). -/
def trecWord (x : ArrayS) (n : Nat) : W64 :=
  match x.trec with
  | none => 0
  | some t => BitVec.ofNat 64 (leNat (((trapBytes t).drop (8 * n)).take 8))

/-- A system register that is read without side effect; none where the number is not listed. -/
def sysRead (x : ArrayS) (num : Nat) : Option W64 :=
  match num with
  | 0x100 => some (arridVal x)
  | 0x101 => some (x.edgemode.setWidth 64)
  | 0x102 => some (BitVec.ofNat 64 x.tt)
  | 0x103 => some (x.ttcrc.setWidth 64)
  | 0x104 => some x.frzac
  | 0x105 => some x.efv
  | 0x106 => some (BitVec.ofNat 64 ((if x.ef then 1 else 0) + (if x.efop then 2 else 0)))
  | 0x107 => some (x.busy0.setWidth 64)
  | 0x108 => some (x.fstOr.setWidth 64)
  | 0x110 => some (trecWord x 0)
  | 0x111 => some (trecWord x 1)
  | 0x112 => some (trecWord x 2)
  | 0x113 => some (trecWord x 3)
  | 0x120 => some (BitVec.ofNat 64 (x.svaddr * 8))
  | _ =>
    if 0x200 ≤ num && num < 0x300 then
      let h := tabGet x.handles0 {} ((num - 0x200) / 2)
      some (if num % 2 = 0 then hrangeVal h else hcountVal h)
    else none

/-- A write of EDGEMODE: a field written 3 keeps its value, reserved bits are ignored (R170). -/
def edgemodeWrite (old : BitVec 8) (v : W64) : BitVec 8 :=
  (List.range 4).foldl (fun e i =>
    if bitsN v (2 * i) 2 = 3 then e else setField e (2 * i) 2 (bitsN v (2 * i) 2)) old

/-- A write of a listed system register; none where the number is not listed. RO registers ignore it
(R313). -/
def sysWrite (x : ArrayS) (num : Nat) (v : W64) : Option ArrayS :=
  match num with
  | 0x101 => some { x with edgemode := edgemodeWrite x.edgemode v }
  | 0x104 => some { x with frzac := v }
  | 0x120 => some { x with svaddr := bitsN v 3 21 }
  | _ => if (sysRead x num).isSome then some x else none

/-- Bytes 0 and 1 of a cell's control image and its port entries (R137). -/
def ctlWord (a : ArrayS) (cell w : Nat) : Option W64 :=
  let r := cell / 64
  let c := cell % 64
  let x := cellAt a r c
  let ne := tabGet a.npq [] r
  let we := tabGet a.wpq [] r
  let nel (i : Nat) : Nat := match ne[i]? with | some v => (pvElem v c).1.toNat | none => 0
  let wel (i : Nat) : Nat := match we[i]? with | some v => v.1.toNat | none => 0
  match w with
  | 2 => some (BitVec.ofNat 64 (nel 0 + nel 1 <<< 32))
  | 3 => some (BitVec.ofNat 64 (nel 2 + nel 3 <<< 32))
  | 4 => some (BitVec.ofNat 64 (wel 0 + wel 1 <<< 32))
  | 5 => some (BitVec.ofNat 64 (wel 2 + wel 3 <<< 32))
  | 6 => some (BitVec.ofNat 64 (ne.length + we.length <<< 8))
  | 7 => some 0
  | _ => if w = 0 then some (BitVec.ofNat 64 (x.g.toNat + x.fstk.toNat <<< 8)) else none

/-- The line of the landing buffer of slots 16 to 31 at which a feature line stands, counted from the buffer's start: block
by block and row by row, F blocks in turn. DESIGN CHOICE (log entry 145): the spec does not give their places. -/
def gatherPlace (m : MpeS) (k : Nat) : Nat :=
  let n := (m.fs + m.fd) / 64
  (k / 2048 % ((512 + m.p - 1) / m.p + 1)) * (64 * n) + k / 32 % 64 * n + k % 32

/-- The feature line that stands at a line of the landing buffer of slots 16 to 31. -/
def gatherKey (a : ArrayS) (i : Nat) : Option Nat :=
  a.mpe.bind (fun m => (m.feat.find? (fun x => gatherPlace m x.1 = i)).map (fun x => x.1))

/-- A line of the landing buffer, with its marks: of a landing, or in a message-passing step of a feature row (R137,
R204). -/
def bufLine (a : ArrayS) (slot line : Nat) : Option (BitVec 512 × W64) :=
  if a.mpe.isSome && 16 ≤ slot then
    (gatherKey a (64 * (slot - 16) + line)).bind (fun k => a.mpe.bind (fun m => tabFind m.feat k))
  else (tabFind a.land slot).bind (fun l => tabFind l.lines line)

/-- A word of a captured state without a stated layout: what software has written there, else a free value (log entries 4
and 46). -/
def openWord (a : ArrayS) (fresh off : Nat) : W64 := (tabFind a.svOver (off / 8)).getD (Config.saveWord fresh off)

/-- The word at byte offset `off` of a captured state (R137, R314). Parts whose layout the spec does not
give, and the residue bytes of a cell, are free values (log entry 4). -/
def svWord (a : ArrayS) (fresh off : Nat) : W64 :=
  if 0xA10000 ≤ off && off < 0xA30000 then
    let o := off - 0xA10000
    match bufLine a (o / 4096) (o % 4096 / 64) with
    | some (d, _) => d.extractLsb' (8 * (o % 64)) 64
    | none => tabGet a.svOver 0 (off / 8)
  else if 0xA70000 ≤ off && off < 0xAB0000 then
    let o := off - 0xA70000
    let w := o % 64 / 8
    match ctlWord a (o / 64) w with
    | some v => if w = 0 then v ||| (openWord a fresh off <<< 16) else v
    | none => openWord a fresh off
  else openWord a fresh off

/-- A list held to `n` entries: cut at its end, or filled with `x`. -/
def fitTo {α : Type} (n : Nat) (x : α) (l : List α) : List α := l.take n ++ List.replicate (n - l.length) x

/-- A word written to the cell control image of the state to be resumed (R137, R314). A queue of a port is held once
for a row, so a count written for a cell is that of its row. -/
def ctlPut (a : ArrayS) (r c w : Nat) (v : W64) : ArrayS :=
  let setN (i : Nat) (x : W32) (q : List PortVec) : List PortVec :=
    q.modify i (fun p => { p with data := setField p.data (32 * c) 32 x.toNat })
  let setW (i : Nat) (x : W32) (q : List (W32 × Bool)) : List (W32 × Bool) :=
    q.modify i (fun p => (x, p.2))
  let lo : W32 := bits v 0 32
  let hi : W32 := bits v 32 32
  match w with
  | 0 => setCell a r c { cellAt a r c with g := bits v 0 4, fstk := bits v 8 5 }
  | 2 => { a with npq := tabMod a.npq [] r (fun q => setN 1 hi (setN 0 lo q)) }
  | 3 => { a with npq := tabMod a.npq [] r (fun q => setN 3 hi (setN 2 lo q)) }
  | 4 => { a with wpq := tabMod a.wpq [] r (fun q => setW 1 hi (setW 0 lo q)) }
  | 5 => { a with wpq := tabMod a.wpq [] r (fun q => setW 3 hi (setW 2 lo q)) }
  | 6 => { a with npq := tabMod a.npq [] r (fitTo (min 4 (bitsN v 0 8)) {})
                  wpq := tabMod a.wpq [] r (fitTo (min 4 (bitsN v 8 8)) (0, false)) }
  | _ => a

/-- A word written to the landing buffer of the state to be resumed: into the line that stands there, else beside
(R137, R314). -/
def landPutWord (a : ArrayS) (o : Nat) (v : W64) : ArrayS :=
  let put (x : BitVec 512 × W64) : BitVec 512 × W64 := (setField x.1 (8 * (o % 64)) 64 v.toNat, x.2)
  let slot := o / 4096
  let line := o % 4096 / 64
  match bufLine a slot line with
  | none => { a with svOver := tabPut a.svOver 0 ((0xA10000 + o) / 8) v }
  | some x =>
    if a.mpe.isSome && 16 ≤ slot then
      match gatherKey a (64 * (slot - 16) + line) with
      | some k => { a with mpe := a.mpe.map (fun m => { m with feat := tabSet m.feat k (put x) }) }
      | none => a
    else
      { a with land := a.land.map (fun (y : Nat × LandS) =>
          if y.1 = slot then (y.1, { y.2 with lines := tabSet y.2.lines line (put x) }) else y) }

/-- A word without a stated layout, written with another value than it had. -/
def openPut (a : ArrayS) (fresh off : Nat) (v : W64) : ArrayS :=
  if openWord a fresh off = v then a else { a with svOver := tabSet a.svOver (off / 8) v }

/-- A word of the state to be resumed, at a byte offset of the save image (R137, R314; log entry 46). Bytes 50 to 63 of a
cell's control image are zero and hold no state. -/
def svPut (a : ArrayS) (fresh off : Nat) (v : W64) : ArrayS :=
  if 0xA10000 ≤ off && off < 0xA30000 then landPutWord a (off - 0xA10000) v
  else if 0xA70000 ≤ off && off < 0xAB0000 then
    let o := off - 0xA70000
    let w := o % 64 / 8
    let a := ctlPut a (o / 64 / 64) (o / 64 % 64) w v
    if w = 1 then openPut a fresh off v
    else if w = 0 && svWord a fresh off ≠ v then { a with svOver := tabSet a.svOver (off / 8) (v >>> 16) }
    else a
  else openPut a fresh off v

/-- The state that an array resumes (R138, R314). DESIGN CHOICE (log entry 46): where software has changed words without a
stated layout, what they hold is open, and so is the state of the sequencer, the engines and the pipe; memories, cells
and what the layout gives stand as they are. -/
def resumable (a : ArrayS) : ArrayS :=
  let w := a.svOver.filter (fun x => 0xA30000 ≤ 8 * x.1)
  if w.isEmpty then a
  else
    { resumedState a w with
      spad := a.spad, spMk := a.spMk, dmem := a.dmem, dmUe := a.dmUe, cells := a.cells, npq := a.npq, wpq := a.wpq
      land := a.land, logical := a.logical, epoch := a.epoch
      svOver := a.svOver.filter (fun x => 8 * x.1 < 0xA30000) }

/-- The captured state of a logical array of a node (R137). -/
def capturedOf (s : State) (x : ArrayS) : Option (NodeId × NodeS × ArrayS) :=
  match x.node with
  | none => none
  | some n =>
    match nodeOf s n with
    | none => none
    | some nd => (tabFind nd.saved x.logical).map (fun c => (n, nd, c))

/-- SVDATA is within reach: a save entry program reads, a restore entry program writes, and the offset
lies in R314's range. -/
def svReach (x : ArrayS) (run : Nat) : Bool :=
  x.svrun == run && 0xA10000 ≤ 8 * x.svaddr && 8 * x.svaddr < 0xAB0000

/-- SVADDR.OFF advances by 1 after each access, within its 21 bits (R313). -/
def svNext (x : ArrayS) : ArrayS := { x with svaddr := (x.svaddr + 1) % 2 ^ 21 }

/-- SYSR (R170, R171, R313, R314). -/
def execSSysr (d : BitVec 5) (num : BitVec 16) (s : State) : Host.Outcome State Fault Refusal :=
  let priv (x : ArrayS) : ArrayS := raise x .s .priv (num.setWidth 64)
  if num = 0x121 then
    match svReach (here s) 1, capturedOf s (here s) with
    | true, some (_, nd, c) =>
      .next (onArr s (fun x => svNext (sPut x d (svWord c nd.capId (8 * x.svaddr)))))
    | _, _ => .next (onArr s priv)
  else
    .next (onArr s (fun x =>
      match sysRead x num.toNat with
      | some v => sPut x d v
      | none => priv x))

/-- SYSW (R170, R171, R313, R314). -/
def execSSysw (num : BitVec 16) (a : BitVec 5) (s : State) : Host.Outcome State Fault Refusal :=
  let priv (x : ArrayS) : ArrayS := raise x .s .priv (num.setWidth 64)
  let h := here s
  if num = 0x121 then
    match markAmong h [a], svReach h 2, capturedOf s h with
    | none, true, some (n, nd, c) =>
      let nd := { nd with saved := tabSet nd.saved h.logical (svPut c nd.capId (8 * h.svaddr) (sVal h a)) }
      .next (onArr (setNode s n nd) svNext)
    | none, _, _ => .next (onArr s priv)
    | some m, _, _ => .next (onArr s (fun x => raiseMark x .s m))
  else
    .next (onArr s (fun x => withRegs x .s [a] (fun x =>
      match sysWrite x num.toNat (sVal x a) with
      | some y => y
      | none => priv x)))

end Sys2Proof.Machine
end

