-- ==== Sys2Proof/Machine/Edge.lean ====
section
/-! DEFINITION. The edge slots: selectors, loaders, drain, transposer (R354 to R375) and the handle
operations of the A slot (R193, R194, R377). -/
namespace Sys2Proof.Machine
open Sys2Proof

-- Selectors (R358)

/-- Write mask m of an axis with a function of its old value (R358); ym2 and ym3 are barred during a
message-passing step (R203). -/
def maskOp (ax : Axis) (m : BitVec 2) (f : W64 → ArrayS → W64) (a : ArrayS) : ArrayS :=
  match ax with
  | .y => if stepMask a .y m then raise a .y .slotcf (ownPair .y) else setYm a m (f (ymOf a m) a)
  | .x => setXm a m (f (xmOf a m) a)

/-- Mask m of an axis. -/
def maskOf (ax : Axis) (a : ArrayS) (m : BitVec 2) : W64 :=
  match ax with
  | .y => ymOf a m
  | .x => xmOf a m

/-- The same at the array the instruction acts on. -/
def runMask (ax : Axis) (m : BitVec 2) (f : W64 → ArrayS → W64) (s : State) :
    Host.Outcome State Fault Refusal :=
  .next (onArr s (maskOp ax m f))

/-- NOP. -/
def execYxNop (_ : Axis) (s : State) : Host.Outcome State Fault Refusal := .next s
/-- SET (R358). -/
def execYxSet (ax : Axis) (m m2 : BitVec 2) (s : State) : Host.Outcome State Fault Refusal :=
  runMask ax m (fun _ a => maskOf ax a m2) s
/-- ONE (R358). -/
def execYxOne (ax : Axis) (m : BitVec 2) (s : State) : Host.Outcome State Fault Refusal :=
  runMask ax m (fun _ _ => BitVec.allOnes 64) s
/-- NONE (R358). -/
def execYxNone (ax : Axis) (m : BitVec 2) (s : State) : Host.Outcome State Fault Refusal :=
  runMask ax m (fun _ _ => 0) s
/-- SHL (R358). -/
def execYxShl (ax : Axis) (m : BitVec 2) (n : BitVec 6) (s : State) :
    Host.Outcome State Fault Refusal :=
  runMask ax m (fun old _ => old <<< n.toNat) s
/-- SHR (R358). -/
def execYxShr (ax : Axis) (m : BitVec 2) (n : BitVec 6) (s : State) :
    Host.Outcome State Fault Refusal :=
  runMask ax m (fun old _ => old >>> n.toNat) s
/-- ROTL (R358). -/
def execYxRotl (ax : Axis) (m : BitVec 2) (n : BitVec 6) (s : State) :
    Host.Outcome State Fault Refusal :=
  runMask ax m (fun old _ => old.rotateLeft n.toNat) s
/-- ROTR (R358). -/
def execYxRotr (ax : Axis) (m : BitVec 2) (n : BitVec 6) (s : State) :
    Host.Outcome State Fault Refusal :=
  runMask ax m (fun old _ => old.rotateRight n.toNat) s
/-- AND (R358). -/
def execYxAnd (ax : Axis) (m m2 : BitVec 2) (s : State) : Host.Outcome State Fault Refusal :=
  runMask ax m (fun old a => old &&& maskOf ax a m2) s
/-- OR (R358). -/
def execYxOr (ax : Axis) (m m2 : BitVec 2) (s : State) : Host.Outcome State Fault Refusal :=
  runMask ax m (fun old a => old ||| maskOf ax a m2) s
/-- RANGE: bits beyond 63 dropped (R358, R360). -/
def execYxRange (ax : Axis) (m : BitVec 2) (lo : BitVec 6) (len : BitVec 4) (s : State) :
    Host.Outcome State Fault Refusal :=
  runMask ax m (fun _ _ =>
    ofBits 64 (fun i => lo.toNat ≤ i && i < lo.toNat + len.toNat + 1)) s
/-- STRIDE (R358). -/
def execYxStride (ax : Axis) (m : BitVec 2) (ph : BitVec 6) (st : BitVec 4) (s : State) :
    Host.Outcome State Fault Refusal :=
  runMask ax m (fun _ _ => ofBits 64 (fun i => i % (st.toNat + 1) == ph.toNat)) s
/-- FLAG: EFV as R156 gives for this issue cycle (R358). -/
def execYxFlag (ax : Axis) (m : BitVec 2) (s : State) : Host.Outcome State Fault Refusal :=
  runMask ax m (fun _ a => a.efv) s
/-- FLAG.n (R358). -/
def execYxFlagN (ax : Axis) (m : BitVec 2) (s : State) : Host.Outcome State Fault Refusal :=
  runMask ax m (fun _ a => ~~~a.efv) s

-- Nests (R186 to R190)

/-- Field f of a nest (R186). -/
def nestF (n : Nest) (f : Nat) : Nat := tabGet n 0 f
/-- Element size in bytes: CTL[1:0]. -/
def nestEsz (n : Nest) : Nat := 2 ^ (nestF n 1 % 4)
/-- Levels in use: CTL[4:2]. -/
def nestLev (n : Nest) : Nat := nestF n 1 / 4 % 8
/-- Gather mode: CTL[5]. -/
def nestGath (n : Nest) : Bool := nestF n 1 / 32 % 2 = 1
/-- Count of level l. -/
def nestCnt (n : Nest) (l : Nat) : Nat := nestF n (2 + l)
/-- Stride of level l, signed. -/
def nestStr (n : Nest) (l : Nat) : Int := signedOf 32 (nestF n (8 + l))
/-- The levels in use, innermost first. -/
def nestLevels (n : Nest) : List Nat := List.range (nestLev n)
/-- Elements of a nest (R361). -/
def nestTotal (n : Nest) : Nat := (nestLevels n).foldl (fun t l => t * nestCnt n l) 1
/-- Elements of one vector (R361). -/
def nestNeed (n : Nest) : Nat := 256 / nestEsz n

/-- The unfolded address of element k (R187). -/
def nestRaw (n : Nest) (k : Nat) : Int :=
  ((nestLevels n).foldl (fun (r : Int × Nat) l =>
    (r.1 + ((r.2 % nestCnt n l : Nat) : Int) * nestStr n l, r.2 / nestCnt n l))
    ((nestF n 0 : Int), k)).1

/-- The address of element k, folded into the window where there is one; index addresses of gather mode
are not folded (R187, R367). -/
def nestAddr (n : Nest) (k : Nat) : Nat :=
  if nestF n 15 ≠ 0 && !nestGath n then
    nestF n 14 + ((nestRaw n k - (nestF n 14 : Int)) % (nestF n 15 : Int)).toNat
  else (nestRaw n k).toNat

/-- What GO checks (R186, R189, R367, R369): counts for the levels in use, and every stride. -/
def goOk (l : Loader) (n : Nest) : Bool :=
  let esz := nestEsz n
  let ls := nestLevels n
  let corner (g : Int → Int) : Int :=
    ls.foldl (fun t i => t + g ((((nestCnt n i : Nat) : Int) - 1) * nestStr n i)) ((nestF n 0 : Nat) : Int)
  let amin := corner (fun x => min 0 x)
  let amax := corner (fun x => max 0 x)
  let ws := nestF n 15
  let inside := 0 ≤ amin && amax + (esz : Int) ≤ (spadSize : Int)
  let inWin := nestF n 14 + ws ≤ spadSize
  nestF n 1 % 4 ≠ 3 && 1 ≤ nestLev n && nestLev n ≤ 6 && nestF n 1 / 64 = 0 &&
    ls.all (fun i => 1 ≤ nestCnt n i && nestCnt n i < 2 ^ 24) &&
    (List.range 6).all (fun i => nestStr n i % (esz : Int) == 0) &&
    nestF n 0 % esz = 0 && nestF n 14 % 64 = 0 && ws % 64 = 0 && ws ≤ spadSize &&
    (if nestGath n then l == .w && esz = 4 && ws ≠ 0 && inside && inWin
     else if ws = 0 then inside else inWin)

/-- The loader of an N or W slot. -/
def portSide : PortLoader → Loader
  | .n => .n | .w => .w
/-- Its slot. -/
def portSlot : PortLoader → Slot
  | .n => .n | .w => .w
/-- The slot of a loader. -/
def loaderSlot : Loader → Slot
  | .n => .n | .w => .w | .d => .d
/-- The bit of `ledAuto` of a loader. -/
def loaderBit : Loader → Nat
  | .n => 0 | .w => 1 | .d => 2

/-- A performed operation of a loader other than NOP and SET ends its AUTO (R366). -/
def endAuto (a : ArrayS) (l : Loader) : ArrayS :=
  let a := setLoader a l { loaderState a l with auto := 0 }
  { a with ledAuto := setBit a.ledAuto (loaderBit l) true }

/-- REGION of an edge slot: detail path 0 (R355). -/
def edgeRegion (a : ArrayS) (sl : Slot) : ArrayS := raise a sl .region (pathDetail 0)

/-- GO (R186, R189). -/
def goOp (l : Loader) (a : ArrayS) : ArrayS :=
  let x := loaderState a l
  if goOk l x.shadow then
    endAuto (setLoader a l { x with active := x.shadow, shadow := x.active, valid := true, pos := 0 }) l
  else edgeRegion a (loaderSlot l)

/-- The vector at position p of a nest (R188, R362); marked where a word it is built from is (R399). -/
def vecAt (a : ArrayS) (n : Nest) (p : Nat) : PortVec :=
  let esz := nestEsz n
  let per := 4 / esz
  pvOf ((List.range 64).map (fun c =>
    let r := (List.range per).foldl (fun (x : Nat × Bool) i =>
      let k := p + c * per + i
      if k < nestTotal n then
        let e := spRead a (nestAddr n k) esz
        (x.1 + e.1 <<< (8 * esz * i), x.2 || e.2)
      else x) (0, false)
    (BitVec.ofNat 32 r.1, r.2)))

/-- The lines a vector's elements touch, each once (R183). -/
def vecLines (n : Nest) (p : Nat) : List Nat :=
  ((List.range (nestNeed n)).filter (fun j => p + j < nestTotal n)).foldl
    (fun t j => setInsert t (nestAddr n (p + j) / 64)) []

/-- A loader that may still read a vector (R362). -/
def hasVector (x : LoaderS) : Bool := x.valid && x.pos < nestTotal x.active

/-- Read the next vector (R362). -/
def readVector (a : ArrayS) (l : Loader) : PortVec × ArrayS :=
  let x := loaderState a l
  (vecAt a x.active x.pos, setLoader a l { x with pos := x.pos + nestNeed x.active })

/-- Deliver a vector to the port: it travels with the bundle issued 4 issue cycles later, and V becomes it
(R148, R363). -/
def toPort (a : ArrayS) (l : PortLoader) (v : PortVec) : ArrayS :=
  let a := { a with fly := a.fly ++ [{ due := a.tt + 4, north := l == .n, vec := v }] }
  setLoader a (portSide l) { loaderState a (portSide l) with v := v }

/-- Deliver a vector to the port or a quarter of a latch (R150, R364). -/
def deliver (a : ArrayS) (l : PortLoader) (dst : LatchDst) (v : PortVec) : ArrayS :=
  let id (k : Nat) : Nat := (if l == .n then 0 else 2) + k
  let put (k : Nat) (q : BitVec 2) : ArrayS :=
    { a with latchLog := a.latchLog ++ [{ tt := a.tt, id := id k, q := q.toNat, vec := v }] }
  match dst with
  | .port => toPort a l v
  | .first q => put 0 q
  | .second q => put 1 q

/-- One vector of STEP or AUTO. -/
def stepOnce (a : ArrayS) (l : PortLoader) (dst : LatchDst) : ArrayS :=
  let (v, a) := readVector a (portSide l)
  deliver a l dst v

/-- A later vector of an AUTO (R366). -/
def autoStep (l : PortLoader) (a : ArrayS) : ArrayS :=
  let x := loaderState a (portSide l)
  if x.auto = 0 || bitB a.ledAuto (loaderBit (portSide l)) then a
  else stepOnce (setLoader a (portSide l) { x with auto := x.auto - 1 }) l x.autoDst

/-- A read that gather mode bars, or with every element used, traps with REGION (R362, R367). -/
def canStep (x : LoaderS) : Bool := hasVector x && !nestGath x.active

/-- NOP. -/
def execNwNop (_ : PortLoader) (s : State) : Host.Outcome State Fault Refusal := .next s
/-- GO (R363). -/
def execNwGo (l : PortLoader) (s : State) : Host.Outcome State Fault Refusal :=
  .next (onArr s (goOp (portSide l)))
/-- STEP (R363, R364). -/
def execNwStep (l : PortLoader) (dst : LatchDst) (s : State) : Host.Outcome State Fault Refusal :=
  .next (onArr s (fun a =>
    if canStep (loaderState a (portSide l)) then endAuto (stepOnce a l dst) (portSide l)
    else edgeRegion a (portSlot l)))
/-- AUTO: n - 1 in its field; its own issue cycle reads the first vector (R363, R366). -/
def execNwAuto (l : PortLoader) (dst : LatchDst) (n : BitVec 24) (s : State) :
    Host.Outcome State Fault Refusal :=
  .next (onArr s (fun a =>
    let x := loaderState a (portSide l)
    if canStep x && x.pos + n.toNat * nestNeed x.active < nestTotal x.active then
      let b := endAuto (stepOnce a l dst) (portSide l)
      setLoader b (portSide l) { loaderState b (portSide l) with auto := n.toNat, autoDst := dst }
    else edgeRegion a (portSlot l)))
/-- HOLD: V again (R363). -/
def execNwHold (l : PortLoader) (s : State) : Host.Outcome State Fault Refusal :=
  .next (onArr s (fun a =>
    endAuto (toPort a l (loaderState a (portSide l)).v) (portSide l)))
/-- ZERO (R363). -/
def execNwZero (l : PortLoader) (s : State) : Host.Outcome State Fault Refusal :=
  .next (onArr s (fun a => endAuto (toPort a l {}) (portSide l)))
/-- BCAST: slot j of the vector in all 64 slots (R363). -/
def execNwBcast (l : PortLoader) (j : BitVec 6) (s : State) : Host.Outcome State Fault Refusal :=
  .next (onArr s (fun a =>
    if canStep (loaderState a (portSide l)) then
      let (v, a) := readVector a (portSide l)
      endAuto (toPort a l (pvOf (List.replicate 64 (pvElem v j.toNat)))) (portSide l)
    else edgeRegion a (portSlot l)))
/-- The value of a loader SET (R365). -/
def limmVal : LImm → Nat
  | .short v => (v.signExtend 64).toNat
  | .long v => v.toNat
/-- SET (R365). -/
def execNwSet (l : PortLoader) (f : BitVec 4) (v : LImm) (s : State) :
    Host.Outcome State Fault Refusal :=
  .next (onArr s (fun a => shadowPut a (portSide l) f.toNat (limmVal v)))

/-- The data addresses of a gathered vector and the marks of its indices (R190). -/
def gatherAddrs (a : ArrayS) (n : Nest) (p : Nat) : List (Option Nat × Bool) :=
  (List.range 64).map (fun j =>
    if p + j < nestTotal n then
      let x := spRead a (nestAddr n (p + j)) 4
      (some (nestF n 14 + 4 * x.1 % nestF n 15), x.2)
    else (none, false))

/-- GATHER: the index lines are read now; the data lines in the frozen ac that follow (R190, R367). -/
def execWGather (s : State) : Host.Outcome State Fault Refusal :=
  .next (onArr s (fun a =>
    let x := a.ldW
    if hasVector x && nestGath x.active then
      let g := gatherAddrs a x.active x.pos
      endAuto { a with ldW := { x with pos := x.pos + 64 }
                       gath := some (g.map (fun p => (p.1.getD spadSize, p.2))) } .w
    else edgeRegion a .w))

/-- The data read of a GATHER (R190): slots past the last element are zero. -/
def gatherFinish (a : ArrayS) : ArrayS :=
  match a.gath with
  | none => a
  | some g =>
    let v := pvOf (g.map (fun p =>
      if p.1 = spadSize then (0, false)
      else let x := spRead a p.1 4; (BitVec.ofNat 32 x.1, x.2 || p.2)))
    { toPort a .w v with gath := none }

-- Drain (R369 to R372)

/-- Write a list of bytes in one access: a word's mark is cleared only if all its bytes are written, and set
if it is bad (R399). -/
def spWriteBytes (a : ArrayS) (l : List (Nat × Byte)) (bad : List Nat) : ArrayS :=
  let ws := l.foldl (fun t p => setInsert t (p.1 / 4)) []
  let spad := l.foldl (fun m p => memSet m p.1 p.2) a.spad
  let marks := ws.foldl (fun t w =>
    if bad.contains w then tabPut t false w true
    else if (List.range 4).all (fun i => l.any (fun p => p.1 == 4 * w + i)) then tabPut t false w false
    else t) a.spMk
  { a with spad := spad, spMk := marks }

/-- The bytes a D vector writes (R188, R369). -/
def vecBytes (n : Nest) (p : Nat) (w : Nat → W32) : List (Nat × Byte) :=
  let esz := nestEsz n
  let per := 4 / esz
  ((List.range (nestNeed n)).filter (fun j => p + j < nestTotal n)).flatMap (fun j =>
    (List.range esz).map (fun i =>
      (nestAddr n (p + j) + i, (w (j / per)).extractLsb' (8 * (esz * (j % per) + i)) 8)))

/-- DLAT[c]. -/
def dlatOf (a : ArrayS) (c : Nat) : W32 := tabGet a.dlat 0 c

/-- NOP. -/
def execDNop (s : State) : Host.Outcome State Fault Refusal := .next s
/-- GO (R369). -/
def execDGo (s : State) : Host.Outcome State Fault Refusal := .next (onArr s (goOp .d))
/-- ST (R369). -/
def execDSt (s : State) : Host.Outcome State Fault Refusal :=
  .next (onArr s (fun a =>
    let x := a.ldD
    if hasVector x then
      { spWriteBytes a (vecBytes x.active x.pos (dlatOf a)) [] with
        ldD := { x with pos := x.pos + nestNeed x.active } }
    else edgeRegion a .d))

/-- One word of ACC (R370). -/
def accWord (ty : AccTy) (rm : Rm) (a : ArrayS) (c : Nat) (old : W32) : W32 :=
  match ty with
  | .f32 =>
    let rb := randomBits { seed := a.seed, tile := a.tile, row := 64, n := a.srcount, col := c } 32 0
    BitVec.ofNat 32 (addF32 rm false (if rm = .sr then rb else 0) old.toNat (dlatOf a c).toNat).1
  | _ => old + dlatOf a c

/-- ACC: each element reads the word as it stood before this issue cycle; the highest j is stored (R370). -/
def execDAcc (ty : AccTy) (rm : Rm) (s : State) : Host.Outcome State Fault Refusal :=
  .next (onArr s (fun a =>
    let x := a.ldD
    if hasVector x && nestEsz x.active = 4 then
      let js := (List.range 64).filter (fun j => x.pos + j < nestTotal x.active)
      let es := js.map (fun j =>
        let ad := nestAddr x.active (x.pos + j)
        let o := spRead a ad 4
        (ad, accWord ty rm a j (BitVec.ofNat 32 o.1), o.2))
      let bytes := es.flatMap (fun e =>
        (List.range 4).map (fun i => (e.1 + i, e.2.1.extractLsb' (8 * i) 8)))
      let bad := (es.filter (fun e => e.2.2)).map (fun e => e.1 / 4)
      { spWriteBytes a bytes bad with
        ldD := { x with pos := x.pos + 64 }
        srcount := if rm = .sr then a.srcount + 1 else a.srcount }
    else edgeRegion a .d))

/-- A word of a RED as an integer of its type. -/
def redInt (ty : AccTy) (x : Nat) : Int := intOf (ty == .n32) 32 x

/-- Does the left operand win a min or max (R268, R371)? A tie takes the left, and so does a pair of
NaNs. -/
def redLeft (mx : Bool) (ty : AccTy) (x y : Nat) : Bool :=
  match ty with
  | .f32 => valPickFirst mx (valOf .f32 x) (valOf .f32 y)
  | _ => if mx then redInt ty y ≤ redInt ty x else redInt ty x ≤ redInt ty y

/-- The value of a min or max node. -/
def redPick (mx : Bool) (ty : AccTy) (x y : Nat) : Nat :=
  match ty with
  | .f32 => (floatMinMax .f32 mx x y).1
  | _ => if redLeft mx ty x y then x else y

/-- One node of the tree: value and column (R191, R371). -/
def redNode (op : RedOp) (ty : AccTy) (l r : Nat × Nat) : Nat × Nat :=
  match op with
  | .add =>
    (match ty with
     | .f32 => (addF32 .rne false 0 l.1 r.1).1
     | _ => (l.1 + r.1) % 2 ^ 32, 0)
  | .min => (redPick false ty l.1 r.1, 0)
  | .max => (redPick true ty l.1 r.1, 0)
  | .or => (l.1 ||| r.1, 0)
  | .and => (l.1 &&& r.1, 0)
  | .minloc => (redPick false ty l.1 r.1, if redLeft false ty l.1 r.1 then l.2 else r.2)
  | .maxloc => (redPick true ty l.1 r.1, if redLeft true ty l.1 r.1 then l.2 else r.2)

/-- One level of the fixed pairwise tree (R191). -/
def pairUp (op : RedOp) (ty : AccTy) : List (Nat × Nat) → List (Nat × Nat)
  | l :: r :: t => redNode op ty l r :: pairUp op ty t
  | t => t

/-- The result of RED over DLAT (R191). -/
def redResult (op : RedOp) (ty : AccTy) (a : ArrayS) : W64 :=
  let leaves := (List.range 64).map (fun c => ((dlatOf a c).toNat, c))
  let r := (iter (pairUp op ty) 6 leaves).headD (0, 0)
  match op with
  | .minloc | .maxloc => BitVec.ofNat 64 (r.1 + r.2 <<< 32)
  | _ => if ty = .i32 then BitVec.ofInt 64 (signedOf 32 r.1) else BitVec.ofNat 64 r.1

/-- RED: S slots issued at u + 3 or later read the new er (R191, R371). -/
def execDRed (op : RedOp) (ty : AccTy) (er : BitVec 2) (s : State) :
    Host.Outcome State Fault Refusal :=
  .next (onArr s (fun a => { a with erq := a.erq ++ [(a.tt + 3, er.toNat, redResult op ty a)] }))

/-- SEG: the taps of the segadd DRN that reaches the south edge now, in row order (R372). -/
def execDSeg (s : State) : Host.Outcome State Fault Refusal :=
  .next (onArr s (fun a =>
    let x := a.ldD
    match a.edgeTaps with
    | [] => a
    | taps =>
      if x.valid && x.pos + (taps.length - 1) * nestNeed x.active < nestTotal x.active then
        let bs := (taps.zipIdx).flatMap (fun t =>
          vecBytes x.active (x.pos + t.2 * nestNeed x.active)
            (fun c => BitVec.ofNat 32 (tabGet t.1 0 c)))
        { spWriteBytes a bs [] with ldD := { x with pos := x.pos + taps.length * nestNeed x.active } }
      else edgeRegion a .d))
/-- SET (R365, R369). -/
def execDSet (f : BitVec 4) (v : LImm) (s : State) : Host.Outcome State Fault Refusal :=
  .next (onArr s (fun a => shadowPut a .d f.toNat (limmVal v)))

-- Transposer (R192, R374)

/-- TBUF[i][j] and its mark as a TOUT of TT `u` sees it: operations issued at or before u - 16. -/
def tbufSeen (a : ArrayS) (u i j : Nat) : W32 × Bool :=
  a.tq.foldl (fun (v : W32 × Bool) o =>
    if o.tt + 16 ≤ u then
      match o.row with
      | none => (0, false)
      | some r => if r = i then pvElem o.vec j else v
    else v) (tabGet a.tbuf 0 (64 * i + j), tabGet a.tbufMk false (64 * i + j))

/-- NOP. -/
def execTNop (s : State) : Host.Outcome State Fault Refusal := .next s
/-- TIN: DLAT after the update of t (R192). -/
def execTTin (i : BitVec 6) (s : State) : Host.Outcome State Fault Refusal :=
  .next (onArr s (fun a =>
    let v := pvOf ((List.range 64).map (fun c => (dlatOf a c, false)))
    { a with tq := a.tq ++ [{ tt := a.tt, row := some i.toNat, vec := v }] }))
/-- TIN.sp: 256 bytes read at t (R192, R374). -/
def execTTinSp (i : BitVec 6) (addr : BitVec 22) (s : State) : Host.Outcome State Fault Refusal :=
  .next (onArr s (fun a =>
    let v := pvOf ((List.range 64).map (fun c =>
      let x := spRead a (addr.toNat + 4 * c) 4
      (BitVec.ofNat 32 x.1, x.2)))
    { a with tq := a.tq ++ [{ tt := a.tt, row := some i.toNat, vec := v }] }))
/-- TOUT: a west vector carried by the bundle issued at u + 4 (R192). -/
def execTTout (j : BitVec 6) (s : State) : Host.Outcome State Fault Refusal :=
  .next (onArr s (fun a =>
    let v := pvOf ((List.range 64).map (fun r => tbufSeen a a.tt r j.toNat))
    { a with fly := a.fly ++ [{ due := a.tt + 4, north := false, vec := v }] }))
/-- TCLR (R192). -/
def execTTclr (s : State) : Host.Outcome State Fault Refusal :=
  .next (onArr s (fun a => { a with tq := a.tq ++ [{ tt := a.tt, row := none, vec := {} }] }))

-- Handles (R193, R194, R377)

/-- A handle. -/
def hOf (a : ArrayS) (h : BitVec 7) : HandleS := tabGet a.handles {} h.toNat
/-- Replace a handle. -/
def setH (a : ArrayS) (h : BitVec 7) (x : HandleS) : ArrayS :=
  { a with handles := tabSet a.handles h.toNat x }
/-- HSTATE with the handle as detail (R227). -/
def hFault (a : ArrayS) (h : BitVec 7) : ArrayS := raise a .a .hstate (h.setWidth 64)

/-- Step 2 of R194: a filling handle whose bytes have arrived completes its phase. -/
def hSettle (x : HandleS) : HandleS :=
  if x.st = .filling && x.exp ≤ x.arr then
    { x with ph := !x.ph, arr := x.arr - x.exp, exp := 0, st := .full }
  else x

/-- The effect of H.EXPECT with n bytes (R194). -/
def expectOp (a : ArrayS) (h : BitVec 7) (n : Nat) : ArrayS :=
  let x := hOf a h
  if x.kind = 0 || n < 1 || spadSize < n then hFault a h
  else
    match x.st with
    | .free | .full => setH a h { x with st := .filling, exp := n }
    | .filling => if 2 ^ 24 ≤ x.exp + n then hFault a h else setH a h { x with exp := x.exp + n }
    | .draining => hFault a h

/-- NOP. -/
def execANop (s : State) : Host.Outcome State Fault Refusal := .next s
/-- H.EXPECT (R194, R377). -/
def execAHExpect (h : BitVec 7) (n : ExpectCount) (s : State) : Host.Outcome State Fault Refusal :=
  .next (onArr s (fun a =>
    match n with
    | .imm v => expectOp a h v.toNat
    | .reg r => withRegs a .a [r] (fun a => expectOp a h (sVal a r).toNat)))
/-- H.WAIT: the bundle issues once PH == p, and then passes (R194, R377). -/
def execAHWait (h : BitVec 7) (_ : Bool) (s : State) : Host.Outcome State Fault Refusal :=
  .next (onArr s (fun a => if (hOf a h).kind = 0 then hFault a h else a))
/-- H.DRAIN; while the handle fills the bundle waits (R194). -/
def execAHDrain (h : BitVec 7) (s : State) : Host.Outcome State Fault Refusal :=
  .next (onArr s (fun a =>
    let x := hOf a h
    if x.st = .filling then a
    else if x.kind ≠ 0 && x.st = .full then setH a h { x with st := .draining } else hFault a h))
/-- H.FREE; while the handle fills the bundle waits (R194). -/
def execAHFree (h : BitVec 7) (s : State) : Host.Outcome State Fault Refusal :=
  .next (onArr s (fun a =>
    let x := hOf a h
    if x.st = .filling then a
    else if x.kind ≠ 0 && (x.st = .full || x.st = .draining) && x.arr = 0
    then setH a h { x with st := .free } else hFault a h))

/-- Two ranges of operand-store bytes overlap. -/
def rangesMeet (b1 l1 b2 l2 : Nat) : Bool := b1 < b2 + l2 && b2 < b1 + l1

/-- OS.CLAIM (R180, R194, R377). -/
def execAOsClaim (h : BitVec 7) (first : BitVec 6) (count : BitVec 7) (s : State) :
    Host.Outcome State Fault Refusal :=
  .next (onArr s (fun a =>
    let x := hOf a h
    let base := 65536 * first.toNat
    let len := 65536 * count.toNat
    let clash := a.handles.any (fun p =>
      p.1 ≠ h.toNat && p.2.kind = 2 && rangesMeet base len p.2.base p.2.len)
    if x.kind = 1 || x.st ≠ .free || 64 < first.toNat + count.toNat || clash then hFault a h
    else setH a h { x with kind := 2, base := base, len := len, st := .filling, exp := len }))
/-- OS.SEAL (R194). -/
def execAOsSeal (h : BitVec 7) (s : State) : Host.Outcome State Fault Refusal :=
  .next (onArr s (fun a =>
    let x := hOf a h
    if x.kind = 2 && x.st = .filling
    then setH a h { x with st := .full, ph := !x.ph, exp := 0, arr := 0 } else hFault a h))
/-- OS.RELEASE (R194). -/
def execAOsRelease (h : BitVec 7) (s : State) : Host.Outcome State Fault Refusal :=
  .next (onArr s (fun a =>
    let x := hOf a h
    if x.kind = 2 && (x.st = .full || x.st = .draining)
    then setH a h { x with st := .free, kind := 0 } else hFault a h))

end Sys2Proof.Machine
end

