-- ==== Sys2Proof/Machine/Crypto.lean ====
section
/-! DEFINITION. AES-256-GCM, which seals the records of a checkpoint (R87). -/
namespace Sys2Proof.Machine
open Sys2Proof

/-- Multiply by x in the field of AES. -/
def gfX (a : Byte) : Byte := (a <<< 1) ^^^ (if a.getLsbD 7 then 0x1B else 0)

/-- Product in the field of AES. -/
def gfMul (a b : Byte) : Byte :=
  ((List.range 8).foldl (fun (x : Byte × Byte) i =>
    (if b.getLsbD i then x.1 ^^^ x.2 else x.1, gfX x.2)) (0, a)).1

/-- Inverse in the field of AES, 0 for 0: the 254th power. -/
def gfInv (a : Byte) : Byte :=
  let a2 := gfMul a a
  let a4 := gfMul a2 a2
  let a8 := gfMul a4 a4
  let a16 := gfMul a8 a8
  let a32 := gfMul a16 a16
  let a64 := gfMul a32 a32
  let a128 := gfMul a64 a64
  gfMul (gfMul (gfMul a2 a4) (gfMul a8 a16)) (gfMul (gfMul a32 a64) a128)

/-- SubBytes of one byte. -/
def aesSub (a : Byte) : Byte :=
  let b := gfInv a
  b ^^^ b.rotateLeft 1 ^^^ b.rotateLeft 2 ^^^ b.rotateLeft 3 ^^^ b.rotateLeft 4 ^^^ 0x63

/-- Bytes added in the field. -/
def xorBytes (a b : List Byte) : List Byte := List.zipWith (· ^^^ ·) a b

/-- The next word of the key schedule of a 256-bit key, from the words so far, newest first. -/
def aesNextWord (i : Nat) (ws : List (List Byte)) : List Byte :=
  let t := ws.headD []
  let old := listGet ws [] 7
  let t :=
    if i % 8 = 0 then
      let r := (t.drop 1 ++ t.take 1).map aesSub
      xorBytes r [iter gfX (i / 8 - 1) 1, 0, 0, 0]
    else if i % 8 = 4 then t.map aesSub else t
  xorBytes old t

/-- The 15 round keys of a 256-bit key. -/
def aesKeys (key : List Byte) : List (List Byte) :=
  let first := (List.range 8).map (fun i => (key.drop (4 * i)).take 4)
  let ws := (List.range 52).foldl (fun ws i => aesNextWord (i + 8) ws :: ws) first.reverse
  let ws := ws.reverse
  (List.range 15).map (fun r => (List.range 4).flatMap (fun i => listGet ws [] (4 * r + i)))

/-- ShiftRows on the 16 bytes of a block, column by column. -/
def aesShift (b : List Byte) : List Byte :=
  (List.range 16).map (fun i => listGet b 0 ((i + 4 * (i % 4)) % 16))

/-- MixColumns. -/
def aesMix (b : List Byte) : List Byte :=
  (List.range 16).map (fun i =>
    let c (j : Nat) : Byte := listGet b 0 (4 * (i / 4) + (i + j) % 4)
    gfX (c 0) ^^^ (gfX (c 1) ^^^ c 1) ^^^ c 2 ^^^ c 3)

/-- One block enciphered under expanded keys. -/
def aesBlock (ks : List (List Byte)) (b : List Byte) : List Byte :=
  let b := xorBytes b (ks.headD [])
  (ks.drop 1).zipIdx.foldl (fun b k =>
    let t := aesShift (b.map aesSub)
    xorBytes (if k.2 = 13 then t else aesMix t) k.1) b

/-- Product in the field of GHASH. -/
def ghashMul (x y : BitVec 128) : BitVec 128 :=
  ((List.range 128).foldl (fun (z : BitVec 128 × BitVec 128) i =>
    (if x.getLsbD (127 - i) then z.1 ^^^ z.2 else z.1,
     (z.2 >>> 1) ^^^ (if z.2.getLsbD 0 then 0xE1#128 <<< 120 else 0))) (0, y)).1

/-- GHASH of a list of 16-byte blocks. -/
def ghash (h : BitVec 128) (bs : List (List Byte)) : BitVec 128 :=
  bs.foldl (fun y b => ghashMul (y ^^^ BitVec.ofNat 128 (beNat b)) h) 0

/-- A list of bytes in blocks of 16, the last filled with zeros. -/
def blocks16 (bs : List Byte) : List (List Byte) :=
  (List.range ((bs.length + 15) / 16)).map (fun i =>
    let b := (bs.drop (16 * i)).take 16
    b ++ List.replicate (16 - b.length) 0)

/-- AES-256-GCM without additional data: the enciphered bytes and the tag, under a 96-bit IV. -/
def aesGcm (key : List Byte) (iv : BitVec 96) (bs : List Byte) : List Byte × List Byte :=
  let ks := aesKeys key
  let h := BitVec.ofNat 128 (beNat (aesBlock ks (List.replicate 16 0)))
  let ctr (i : Nat) : List Byte := aesBlock ks (beBytes 12 iv.toNat ++ beBytes 4 i)
  let c := ((blocks16 bs).zipIdx.flatMap (fun b => xorBytes b.1 (ctr (b.2 + 2)))).take bs.length
  let s := ghash h (blocks16 c ++ [beBytes 8 0 ++ beBytes 8 (8 * bs.length)])
  (c, xorBytes (beBytes 16 s.toNat) (ctr 1))

end Sys2Proof.Machine
end

