-- ==== Sys2Proof/Machine/Mem.lean ====
section
/-! DEFINITION. The stacks and their controllers (R64, R65, R72 to R86), and the error records they log. -/
namespace Sys2Proof.Machine
open Sys2Proof

-- Physical addresses (R64, R65)

/-- Bytes of data lines in one bulkhead. -/
def bhBytes : Nat := 0x700000000
/-- Lines of one bulkhead. -/
def bhLines : Nat := 0x1C000000
/-- The end of the data physical addresses. -/
def paEnd : Nat := 0x7000000000
/-- Granules of one bulkhead. -/
def bhGrans : Nat := 14336
/-- The bulkhead of a package line (PA / 64). -/
def lineBh (l : Nat) : Nat := l / bhLines
/-- Its line number in the bulkhead. -/
def lineIn (l : Nat) : Nat := l % bhLines
/-- Its home slice. -/
def homeSlice (l : Nat) : Nat := sliceKey (lineBh l) (lineIn l % 96)
/-- Its set (R66). -/
def lineSet (l : Nat) : Nat := lineIn l / 96 % 256
/-- Its stack. -/
def lineStack (l : Nat) : Nat := lineBh l / 2
/-- LINE in the stack (R65). -/
def stackLine (l : Nat) : Nat := lineBh l % 2 * 2 ^ 29 + lineIn l
/-- Its channel in the stack (R65). -/
def lineChan (l : Nat) : Nat := 16 * (lineBh l % 2) + lineIn l / 4 % 16
/-- The package line of a LINE of stack k; none in the upper 4 GiB of a bulkhead. -/
def packageLine (k line : Nat) : Option Nat :=
  if line % 2 ^ 29 < bhLines then some ((2 * k + line / 2 ^ 29) * bhLines + line % 2 ^ 29) else none
/-- Its granule in the bulkhead. -/
def lineGran (l : Nat) : Nat := lineIn l / 32768
/-- Its column within a 1 KiB DRAM row: o[13:12] (R64). -/
def lineCol (l : Nat) : Nat := lineIn l / 64 % 4
/-- Its DRAM bank: o[18:14] (R64). -/
def lineBank (l : Nat) : Nat := lineIn l / 256 % 32
/-- Its DRAM row: 4 * o[34:21] + o[20:19] (R64). -/
def lineRow (l : Nat) : Nat := 4 * lineGran l + lineIn l / 8192 % 4

-- Time and error records (R46, R86, R96)

/-- IEEE 1588 time in ns. -/
def nsTime (s : State) : Nat := s.hub.timer / 2 ^ 32

/-- The time that start ticks are compared with: a step made in this ac counts from the next one (R47). -/
def startNs (s : State) : Nat := (s.hub.before.getD s.hub.timer) / 2 ^ 32

/-- The class codes of R86. -/
def ecCE : Nat := 1
/-- Uncorrectable. -/
def ecUE : Nat := 2
/-- Tag mismatch. -/
def ecInteg : Nat := 3
/-- Poisoned by a merge. -/
def ecPoisonw : Nat := 4
/-- L2 uncorrectable. -/
def ecL2ue : Nat := 5
/-- Stale generation. -/
def ecStalegen : Nat := 6
/-- Window. -/
def ecWindow : Nat := 7
/-- Key revoked. -/
def ecKeyrev : Nat := 8
/-- Counter exhausted. -/
def ecKeyexh : Nat := 9
/-- Domain refused. -/
def ecDomain : Nat := 10
/-- Link. -/
def ecLink : Nat := 11
/-- Port. -/
def ecPortrx : Nat := 12

/-- Log an error record: merged into a held one, buffered, or dropped and counted (R86, R96). -/
def logErr (s : State) (cls bh part syn region line n : Nat) : State :=
  let h := s.hub
  let fits (r : ErrRec) : Bool :=
    r.cls == cls && r.bh == bh && r.region == region && r.line == line && decide (s.now ≤ r.at_ + 1300000)
  let h : HubS :=
    if h.errBuf.any fits then
      { h with errBuf := h.errBuf.map (fun r =>
          if fits r then { r with count := min 0xFFFFFFFF (r.count + n) } else r) }
    else if h.errBuf.length < 4096 then
      { h with errBuf := h.errBuf ++ [{ cls := cls, bh := bh, part := part, syn := syn,
                                        region := region, line := line, count := n, time := nsTime s,
                                        at_ := s.now }] }
    else { h with errDrop := h.errDrop.count s.now }
  { s with hub := h }

/-- The region in use of a partition whose physical range holds an address (R208). -/
def regionAtPa (s : State) (p pa : Nat) : Option (Nat × Region) :=
  (partOf s p).regions.find? (fun r =>
    r.2.kind ≠ 0 && !r.2.win && r.2.pbase ≤ pa && pa < r.2.pbase + 2 ^ r.2.k)

/-- Log a record about a package line: its region and its line offset in the region (R86). -/
def logLine (s : State) (cls syn l : Nat) : State :=
  let b := lineBh l
  let p := (bhOf s b).part
  match regionAtPa s p (64 * l) with
  | some (n, r) => logErr s cls b p syn n (l - r.pbase / 64) 1
  | none => logErr s cls b p syn 0x3FFF 0 1

-- Keys (R77, R80, R81)

/-- Key slot k of a partition; after a scrub slot 0 is loaded and the others are empty (R21). -/
def keyOf (s : State) (p k : Nat) : KeySlot := tabGet (partOf s p).keys {} k

/-- The key slot is revoked (R81). -/
def keyRevoked (s : State) (p k : Nat) : Bool := (keyOf s p k).revoked

/-- The metadata of a line. -/
def lineMeta (s : State) (l : Nat) : LineMeta := tabGet s.lmeta {} l

/-- The keys of slot k for a line of bulkhead b, Kd and Kt: a partition's, or for a bulkhead that belongs to none the
ones that its scrub installed in slot 0; a scrub's key stays each bulkhead's own (R21, R80). -/
def keyPair (s : State) (b k : Nat) : Key × Key :=
  let x := bhOf s b
  let y := keyOf s x.part k
  if x.own && !y.scrub then (y.kd, y.kt) else (x.key0, x.key0t)

/-- The keys a line was written under (R21, R77). -/
def lineKeys (s : State) (l : Nat) : Key × Key :=
  (lineMeta s l).keys.getD ((bhOf s (lineBh l)).key0, (bhOf s (lineBh l)).key0t)

/-- A line that holds the keys of its bulkhead's scrub, read under a slot that holds them too. -/
def scrubBoth (s : State) (l k : Nat) : Bool :=
  (lineMeta s l).keys.isNone && (keyOf s (bhOf s (lineBh l)).part k).scrub

/-- Chunks of 16 MiB of a region (R82). -/
def rekeyChunks (r : Region) : Nat := max 1 (2 ^ r.k / 2 ^ 24)

/-- The chunk of a running rekey's region that holds a line. -/
def rekeyChunkOf (s : State) (p l : Nat) : Option (RekeyS × Nat) :=
  match (partOf s p).rekey with
  | none => none
  | some k =>
    match tabFind (partOf s p).regions k.region with
    | none => none
    | some r =>
      if r.pbase ≤ 64 * l && 64 * l < r.pbase + 2 ^ r.k then some (k, (64 * l - r.pbase) / 2 ^ 24) else none

/-- The slot and epoch that a write of a line lands under: the new one where a rekey has done the line's chunk
(R82). -/
def writeSlot (s : State) (p k l : Nat) : Nat × Nat :=
  match rekeyChunkOf s p l with
  | some (x, c) =>
    if x.old = k && x.done.contains c then (x.slot, (keyOf s p x.slot).epoch) else (k, (keyOf s p k).epoch)
  | none => (k, (keyOf s p k).epoch)

/-- The slot that stands for slot k at a line: the new one where a rekey has done the line's chunk (R82). -/
def slotNow (s : State) (p k l : Nat) : Nat := (writeSlot s p k l).1

/-- The tag of a stored line matches under slot k (R77): it was made with the slot's tag key and epoch (log entry
127). -/
def keyMatches (s : State) (p k l : Nat) : Bool :=
  let k := slotNow s p k l
  (keyOf s p k).epoch == (lineMeta s l).epoch &&
    (scrubBoth s l k || (keyPair s (lineBh l) k).2 == (lineKeys s l).2)

/-- AES-256 of a 128-bit block, most significant byte first (R77). -/
def aes256 (k : Key) (b : BitVec 128) : BitVec 128 :=
  BitVec.ofNat 128 (beNat (aesBlock (aesKeys (leBytes 32 k.toNat)) (beBytes 16 b.toNat)))

/-- The counter block of 16-byte block j of a line (R77): bits 56 to 35 are zero. -/
def lineCb (major minor stack line j : Nat) : BitVec 128 :=
  BitVec.ofNat 64 major ++ BitVec.ofNat 7 minor ++ (0 : BitVec 22) ++ BitVec.ofNat 3 stack ++ BitVec.ofNat 30 line ++
    BitVec.ofNat 2 j

/-- The key stream of a line, byte 0 first (R77). -/
def keyStream (kd : Key) (major minor stack line : Nat) : List Byte :=
  (List.range 4).flatMap (fun j => beBytes 16 (aes256 kd (lineCb major minor stack line j)).toNat)

/-- The line's cipher text, and its plain text again: the same function (R77). -/
def lineCrypt (kd : Key) (major minor stack line : Nat) (d : BitVec 512) : BitVec 512 :=
  d ^^^ BitVec.ofNat 512 (leNat (keyStream kd major minor stack line))

/-- The major and minor counter of a line (R78). -/
def lineCtr (s : State) (l : Nat) : Nat × Nat :=
  let pg := tabGet s.pages {} (l / 64)
  (pg.major, tabGet pg.minors 0 (l % 64))

-- Counters (R78, R79)

/-- The largest counter. -/
def ctrMax : Nat := 2 ^ 64 - 1

/-- Pages of 4 KiB of one bulkhead. -/
def bhPages : Nat := 0x700000

/-- The counters above a page in its bulkhead's tree, one at each of the seven levels in memory and one of the
four on die (R78). -/
def treeKeys (page : Nat) : List Nat :=
  (List.range 8).map (fun i => (8 * (page / bhPages) + i) * 2 ^ 40 + page % bhPages / 8 ^ i)

/-- A write of the line would pass a counter's end (R79). -/
def ctrExhausted (s : State) (l : Nat) : Bool :=
  let pg := tabGet s.pages {} (l / 64)
  (pg.major == ctrMax && tabGet pg.minors 0 (l % 64) == 127) ||
    (treeKeys (l / 64)).any (fun k => tabGet s.tree 0 k == ctrMax)

/-- The counters of a page after a write of its line i: the minor, or the page re-encrypted under major + 1 first
(R78). -/
def pageStep (x : PageS) (i : Nat) : PageS :=
  let m := tabGet x.minors 0 i
  if m = 127 then { major := x.major + 1, minors := [(i, 1)] } else { x with minors := tabSet x.minors i (m + 1) }

/-- Count a write of a line: the minor, or the page re-encrypted under major + 1 first; and every tree node
above it (R78; log entry 14). The block and nodes are written afresh, with sound check bits and tags. -/
def ctrBump (s : State) (l : Nat) : State :=
  { s with pages := tabSet s.pages (l / 64) (pageStep (tabGet s.pages {} (l / 64)) (l % 64))
           tree := (treeKeys (l / 64)).foldl (fun t k => tabMod t 0 k (· + 1)) s.tree
           metaErr := (treeKeys (l / 64)).foldl (fun t k => tabPut t 0 k 0) s.metaErr }

/-- The counters above n pages after each page's block has been written some times (R78). -/
def treeBump (t : Tab Nat) (page n times : Nat) : Tab Nat :=
  (List.range n).foldl (fun t i =>
    (treeKeys (page + i)).foldl (fun t k => tabMod t 0 k (fun c => min ctrMax (c + times))) t) t

/-- The blocks and nodes above n pages, written afresh, are sound. -/
def metaClean (t : Tab Nat) (page n : Nat) : Tab Nat :=
  (List.range n).foldl (fun t i => (treeKeys (page + i)).foldl (fun t k => tabPut t 0 k 0) t) t

/-- The counters of a page after each of its lines has been written once, in order (R78). -/
def pageBump (x : PageS) : PageS :=
  (List.range 64).foldl (fun x i => pageStep x i) x

-- Protection of a line (R75)

/-- Bit i of a stored line is protected under a protection code (R75). -/
def protBit (prot i : Nat) : Bool :=
  match prot with
  | 1 => 3 ≤ i % 8
  | 2 => 2 ≤ i % 8
  | 3 => 1 ≤ i % 4
  | 4 => 7 ≤ i % 16
  | 5 => 10 ≤ i % 16
  | _ => true

/-- What the code and the tag of a stored line say: the error corrected (its syndrome class, R86),
uncorrectable, or a tag that does not match. -/
inductive LineErr where
  | none | corrected (syn : Nat) | uncorrectable | tag
  deriving DecidableEq, Repr

/-- The error class of flipped bits (R75). STRICT counts 8-bit symbols among the 64 of data and 8 of check
bits: up to 3 are corrected, up to 5 detected. TOLERANT counts protected bits and the 32 check bits: up to 2
are corrected, 3 detected; a flipped tag bit is a tag mismatch. Beyond that the spec gives no outcome but
the tag's: the code may detect the error or the tag does (log entry 56). -/
def flipErr (prot : Nat) (fl : List Nat) : LineErr :=
  let beyond : LineErr := if Config.codeDetects fl then .uncorrectable else .tag
  if prot = 0 then
    let n := (fl.foldl (fun t i => setInsert t (i / 8)) []).length
    if n = 0 then .none else if n ≤ 3 then .corrected (if n = 1 then 1 else 2)
    else if n ≤ 5 then .uncorrectable else beyond
  else
    let n := (fl.filter (fun i => if i < 512 then protBit prot i else i < 544)).length
    if 3 < n then beyond
    else if n = 3 then .uncorrectable
    else if fl.any (fun i => 544 ≤ i) then .tag
    else if n = 0 then .none else .corrected (if n = 1 then 1 else 2)

/-- The bits of the plain text that a read delivers flipped: flipped bits without protection, which counter
mode carries over to the plain text one for one (R75, R77). -/
def flipMask (prot : Nat) (fl : List Nat) : BitVec 512 :=
  fl.foldl (fun m i => if i < 512 && !protBit prot i then m ^^^ (1#512 <<< i) else m) 0

-- Lines in memory (R76, R77, R85)

/-- The plain text a line decrypts to, unprotected flipped bits included (R75, R77). -/
def lineData (s : State) (l : Nat) : BitVec 512 :=
  memLine s.mem (64 * l) ^^^ flipMask (lineMeta s l).prot (lineMeta s l).flips
/-- What a read of a line under slot k delivers: its plain text, or where the data key is another, what that key makes
of the stored bytes (R77). -/
def lineUnder (s : State) (p k l : Nat) : BitVec 512 :=
  let k := slotNow s p k l
  let kd := (keyPair s (lineBh l) k).1
  if scrubBoth s l k || kd == (lineKeys s l).1 then lineData s l
  else
    let (major, minor) := lineCtr s l
    let f (key : Key) (d : BitVec 512) : BitVec 512 := lineCrypt key major minor (lineStack l) (stackLine l) d
    f kd (f (lineKeys s l).1 (lineData s l))

/-- The keys that a write of a line under slot k leaves with it (R77). -/
def keysFor (s : State) (p k l : Nat) : Option (Key × Key) :=
  if (keyOf s p k).scrub then none else some (keyPair s (lineBh l) k)

/-- Store a whole line. -/
def putLine (s : State) (l : Nat) (d : BitVec 512) (m : LineMeta) : State :=
  { s with mem := memPut s.mem (64 * l) (lineBytes d), lmeta := tabPut s.lmeta {} l m }

/-- The lines under the counter that a write of a line finds exhausted: first line and count; the line's page where
no tree counter is (R79). -/
def exhaustSpan (s : State) (l : Nat) : Nat × Nat :=
  let pg := l / 64
  let i := ((List.range 8).reverse.find? (fun i =>
    tabGet s.tree 0 ((8 * (pg / bhPages) + i) * 2 ^ 40 + pg % bhPages / 8 ^ i) == ctrMax)).getD 0
  (64 * (pg / bhPages * bhPages + pg % bhPages / 8 ^ i * 8 ^ i), 64 * 8 ^ i)

/-- Every region cache of a partition takes the present descriptors of the regions it holds (R79, R82). -/
def rcRefresh (s : State) (p : Nat) : State :=
  (partArrs s p).foldl (fun s q =>
    if (arrOf s q).rcache.isEmpty then s
    else modArr s q (fun a => { a with rcache := a.rcache.filterMap (fun e =>
      (tabFind (partOf s p).regions e.1).map (fun r => (e.1, r))) })) s

/-- The BCP makes read-only every region with a page under an exhausted counter (R79). -/
def regionRo (s : State) (l : Nat) : State :=
  let (lo, n) := exhaustSpan s l
  let meets (r : Region) : Bool :=
    r.kind ≠ 0 && !r.win && r.pbase < 64 * (lo + n) && 64 * lo < r.pbase + 2 ^ r.k
  let p := (bhOf s (lineBh l)).part
  rcRefresh (modPart s p (fun x =>
    { x with regions := x.regions.map (fun (r : Nat × Region) =>
        (r.1, if meets r.2 then { r.2 with ro := true } else r.2)) })) p

-- The base-die controller (R72 to R79, R83, R85)

/-- A reply to a request. -/
def stackReply (r : StackReq) (kind stat : Nat) (pois : Bool) (d : BitVec 512) : StackReply :=
  { kind := kind, tag := r.tag, ch := r.ch, pois := pois, stat := stat, data := if pois then 0 else d,
    line := r.line }

/-- A request kind that is reserved (R72). -/
def reservedKind : StackKind → Bool
  | .reserved _ => true
  | _ => false

/-- The bulkhead that a LINE of stack k lies in (R65). -/
def reqBh (k line : Nat) : Nat := 2 * k + line / 2 ^ 29
/-- The channel that a LINE lies in (R65). -/
def reqChan (line : Nat) : Nat := 16 * (line / 2 ^ 29) + line % 2 ^ 29 / 4 % 16

/-- The checks that refuse or discard a request before it is performed: some none is a discard, some (some
x) a refusal (R73, R74, R83). The allocation table has entries for data lines only. -/
def ctlCheck (s : State) (k : Nat) (r : StackReq) : Option (Nat × Option StackReply) :=
  let b := reqBh k r.line
  if r.gen ≠ tabGet (stackOf s k).gens 1 r.bh then some (ecStalegen, none)
  else if reservedKind r.kind || r.ch ≠ reqChan r.line || 7 ≤ r.prot || r.bh / 2 ≠ b / 2 then
    some (0, some (stackReply r 0xB 7 false 0))
  else if r.line % 2 ^ 29 < bhLines && tabGet (stackOf s k).pat 0 (b % 2 * bhGrans + r.line % 2 ^ 29 / 32768) ≠
      (keyOf s (bhOf s b).part r.key).domain then
    some (ecDomain, some (stackReply r 0xB 6 true 0))
  else none

/-- What the counter block of a line's page and the tree nodes above it show: 0 sound, 1 corrected, 2
uncorrectable, 3 a tag that does not match (R78, R86). -/
def metaState (s : State) (l : Nat) : Nat :=
  (treeKeys (l / 64)).foldl (fun m k => max m (tabGet s.metaErr 0 k)) 0

/-- What a read of the stored line under a slot finds: none, or the error and its syndrome class. The
metadata come first, without which the line cannot be decrypted (R75, R77, R78, R86; log entry 57). -/
def readErr (s : State) (p key l : Nat) : LineErr × Nat :=
  let m := lineMeta s l
  match metaState s l, flipErr m.prot m.flips with
  | 3, _ => (.tag, 5)
  | 2, _ => (.uncorrectable, 3)
  | _, .uncorrectable => (.uncorrectable, 3)
  | _, .tag => (.tag, 4)
  | n, e =>
    if m.tagBad || !keyMatches s p key l then (.tag, 4)
    else match e with
      | .corrected syn => (.corrected syn, syn)
      | _ => if n = 1 then (.corrected 1, 1) else (.none, 0)

/-- RD64 once checked. -/
def ctlRead (s : State) (r : StackReq) (l : Nat) : State × StackReply :=
  let p := (bhOf s (lineBh l)).part
  if keyRevoked s p r.key then (s, stackReply r 8 4 true 0)
  else if (lineMeta s l).poison then (s, stackReply r 8 0 true 0)
  else match readErr s p r.key l with
    | (.uncorrectable, syn) => (logLine s ecUE syn l, stackReply r 8 2 true 0)
    | (.tag, syn) => (logLine s ecInteg syn l, stackReply r 8 3 true 0)
    | (.corrected _, syn) => (logLine s ecCE syn l, stackReply r 8 1 false (lineUnder s p r.key l))
    | (.none, _) => (s, stackReply r 8 0 false (lineUnder s p r.key l))

/-- The reply kind of a write (R72). -/
def writeKind : StackKind → Nat
  | .rmw => 0xA
  | _ => 9

/-- The merge read of a partial write: STAT and the record it logs (R72, R85, R86). A poisoned line is merged
and stays poisoned. -/
def mergeRead (s : State) (r : StackReq) (l : Nat) : Nat × State :=
  if r.mask == BitVec.allOnes 64 || (lineMeta s l).poison then (0, s)
  else match readErr s (bhOf s (lineBh l)).part r.key l with
    | (.uncorrectable, syn) => (2, logLine s ecPoisonw syn l)
    | (.tag, syn) => (2, logLine s ecPoisonw syn l)
    | (.corrected _, syn) => (1, logLine s ecCE syn l)
    | (.none, _) => (0, s)

/-- WR64 and RMW once checked: counters, the merge, and poison (R78, R79, R85). -/
def ctlWrite (s : State) (r : StackReq) (l : Nat) : State × StackReply :=
  let p := (bhOf s (lineBh l)).part
  let m := lineMeta s l
  let full := r.mask == BitVec.allOnes 64
  if keyRevoked s p r.key then (s, stackReply r 0xB 4 true 0)
  else if ctrExhausted s l then
    (regionRo (logLine (putLine s l (memLine s.mem (64 * l)) { m with poison := true }) ecKeyexh 0 l) l,
      stackReply r 0xB 5 true 0)
  else
    let (stat, s) := mergeRead s r l
    let pois := if full then r.pois else m.poison || stat = 2 || r.pois
    let d := mergeLine (if full then 0 else lineUnder s p r.key l) r.data r.mask
    let (ks, ep) := writeSlot s p r.key l
    let s := putLine (ctrBump s l) l d
      { poison := pois, slot := ks, epoch := ep, keys := keysFor s p ks l, prot := r.prot }
    (s, stackReply r (writeKind r.kind) stat pois d)

/-- Perform a request at controller k (R72). -/
def ctlPerform (s : State) (k : Nat) (r : StackReq) (l : Nat) : State × Option StackReply :=
  match ctlCheck s k r with
  | some (cls, rep) => (if cls = 0 then s else logLine s cls 0 l, rep)
  | none =>
    let x := match r.kind with
      | .rd64 => ctlRead s r l
      | _ => ctlWrite s r l
    (x.1, some x.2)

/-- A stored line of the upper 4 GiB of a bulkhead, by stack and LINE: what a request last wrote there, else a free value,
since the spec does not say where counters, nodes and tags lie (R64; log entry 102). -/
def upperLine (s : State) (k line : Nat) : BitVec 512 :=
  (tabFind s.upper (k * 2 ^ 30 + line)).getD (Config.metadataLine (k * 2 ^ 30 + line) s.fresh)

/-- A request whose LINE lies in the upper 4 GiB of a bulkhead, which no slice sends (R64, R72; log entry 102): it is
checked as any other, and reads or writes the line. -/
def upperPerform (s : State) (k : Nat) (r : StackReq) : State × Option StackReply :=
  match ctlCheck s k r with
  | some (cls, rep) =>
    (if cls = 0 then s else logErr s cls (reqBh k r.line) (bhOf s (reqBh k r.line)).part 0 0x3FFF 0 1, rep)
  | none =>
    let old := upperLine s k r.line
    let s := { s with fresh := s.fresh + 1 }
    if keyRevoked s (bhOf s (reqBh k r.line)).part r.key then
      (s, some (stackReply r (if r.kind = .rd64 then 8 else 0xB) 4 true 0))
    else if r.kind = .rd64 then (s, some (stackReply r 8 0 false old))
    else
      let d := mergeLine old r.data r.mask
      ({ s with upper := tabSet s.upper (k * 2 ^ 30 + r.line) d }, some (stackReply r (writeKind r.kind) 0 r.pois d))

/-- A request for a package line as its bulkhead's slice sends it: channel, generation, key, protection. -/
def mkReq (s : State) (kind : StackKind) (tag l key prot : Nat) (mask : W64) (d : BitVec 512)
    (pois : Bool) : StackReq :=
  { kind := kind, tag := tag, ch := lineChan l, bh := lineBh l, gen := (bhOf s (lineBh l)).gen,
    key := key, prot := prot, line := stackLine l, mask := mask, data := d, pois := pois,
    from_ := homeSlice l }

/-- The header of a request (R72). -/
def reqHeader (r : StackReq) : BitVec 128 :=
  let kind : BitVec 4 := match r.kind with | .rd64 => 0 | .wr64 => 1 | .rmw => 2 | .reserved c => c
  kind ++ BitVec.ofNat 10 r.tag ++ BitVec.ofNat 5 r.ch ++ BitVec.ofNat 4 r.bh ++ BitVec.ofBool r.pois ++
    r.gen ++ BitVec.ofNat 8 r.key ++ BitVec.ofNat 3 r.prot ++ BitVec.ofNat 30 r.line ++ (0 : BitVec 47)

/-- The request that a header names, with the mask and data that follow it (R72): the reserved bits are
ignored. -/
def reqOfHeader (h : BitVec 128) (mask : W64) (d : BitVec 512) (from_ cls : Nat) : StackReq :=
  let kind : StackKind := match bitsN h 124 4 with
    | 0 => .rd64 | 1 => .wr64 | 2 => .rmw | c => .reserved (BitVec.ofNat 4 c)
  { kind := kind, tag := bitsN h 114 10, ch := bitsN h 109 5, bh := bitsN h 105 4, gen := bits h 88 16,
    key := bitsN h 80 8, prot := bitsN h 77 3, line := bitsN h 47 30, mask := mask, data := d,
    pois := bitB h 104, from_ := from_, cls := cls }

/-- The header of a reply (R72). -/
def replyHeader (r : StackReply) : BitVec 128 :=
  BitVec.ofNat 4 r.kind ++ BitVec.ofNat 10 r.tag ++ BitVec.ofNat 5 r.ch ++ BitVec.ofBool r.pois ++
    BitVec.ofNat 3 r.stat ++ (0 : BitVec 105)

-- Tags (R73)

/-- A tag of a channel that is not in use, from the next one on; none while the channel has only `spare` left, which
are kept for accesses that are performed at once (R73; log entry 2). -/
def freeTag (t : StackS) (ch spare : Nat) : Option Nat :=
  let n := tabGet t.tagNext 0 ch
  let busy := tabGet t.tags [] ch
  if 1024 ≤ busy.length + spare then none
  else (List.range (busy.length + 1)).findSome? (fun i =>
    let x := (n + i) % 1024
    if busy.contains x then none else some x)

/-- Take a tag. -/
def takeTag (t : StackS) (ch tag : Nat) : StackS :=
  { t with tagNext := tabSet t.tagNext ch ((tag + 1) % 1024), tags := tabMod t.tags [] ch (fun q => tag :: q) }

/-- A reply has arrived: its tag is free again (R73). -/
def dropTag (t : StackS) (ch tag : Nat) : StackS := { t with tags := tabMod t.tags [] ch (fun q => q.erase tag) }

end Sys2Proof.Machine
end

