-- ==== Sys2Proof/Machine/Torus.lean ====
section
/-! DEFINITION. The torus (R60 to R63): where the agents attach, what a packet hands over where it arrives, and
how a packet enters. -/
namespace Sys2Proof.Machine
open Sys2Proof

-- The torus (R60 to R63)

/-- A router's key. -/
def routerKey (die x y : Nat) : Nat := 96 * die + 16 * y + x
/-- A router. -/
def routerOf (s : State) (k : Nat) : RouterS := tabGet s.routers {} k
/-- Change a router. -/
def modRouter (s : State) (k : Nat) (f : RouterS → RouterS) : State :=
  { s with routers := tabMod s.routers {} k f }

/-- The die, column and row of a slice's router (R60). -/
def sliceRouter (k : Nat) : Nat × Nat × Nat :=
  let b := k / 96
  (b / 4, 4 * (b % 4) + k % 96 / 4 % 4, k % 96 / 16)
/-- The router of HBM channel c of a bulkhead (R60). -/
def chanRouter (b c : Nat) : Nat × Nat × Nat := (b / 4, 4 * (b % 4) + c % 4, if c < 8 then 1 else 4)
/-- The router of a bulkhead's hub gate (R60). -/
def hubRouter (b : Nat) : Nat × Nat × Nat := (b / 4, 4 * (b % 4) + 3, 0)
/-- The router of array p in the column of another agent (R60): each array has the four of its row. -/
def arrRouter (p x : Nat) : Nat × Nat × Nat := (p / 24, 4 * (p / 6 % 4) + x % 4, p % 6)
/-- The router of a bulkhead's command processor and semaphore file, for which R60 names none (log entry
58). -/
def cmdRouter (b : Nat) : Nat × Nat × Nat := (b / 4, 4 * (b % 4), 0)

/-- The array run that a reader's reply belongs to is still the present one (R281). -/
def readerLive (s : State) (who : Requester) : Bool :=
  match who with
  | .load p ep .. | .land p ep .. => (arrOf s p).epoch = ep
  | _ => true

/-- Release one pin of a line in its home slice; a spent line leaves with its last (R69, R70). -/
def l2Unpin (s : State) (l : Nat) : State :=
  modSlice s (homeSlice l) (fun x =>
    match x.lines.find? (fun y => y.line == l) with
    | none => x
    | some y =>
      let y := { y with pins := y.pins - 1 }
      if y.spent && y.pins = 0 then
        { x with lines := x.lines.filter (fun z => !(z.line == l)), high := if x.high.ult y.ts then y.ts else x.high }
      else { x with lines := x.lines.map (fun z => if z.line == l then y else z) })

/-- A line's value reaches who asked for it; a reply of an earlier run is dropped, and the line pinned for it
released (R70, R281). -/
def deliverLine (s : State) (who : Requester) (v : LineVal) (pin : Option Nat) : State :=
  match who with
  | .load p ep reg off size zx ov om op =>
    let a := arrOf s p
    if a.epoch ≠ ep then s
    else
      let d := mergeLine v.data ov om
      let own := (List.range size).all (fun i => om.getLsbD (off + i))
      let mk : Option SMark :=
        if op then some { rev := false, src := 0 }
        else if own then none
        else if v.rev then some { rev := true, src := 0 }
        else if v.bad then some { rev := false, src := 0 } else none
      let x : PendVal :=
        { reg := reg, v := loadExt size zx (d.toNat / 2 ^ (8 * off)), mark := mk, at_ := a.ac }
      setArr s p { a with pend := a.pend ++ [x] }
  | .land p ep slot line =>
    let a := arrOf s p
    if a.epoch ≠ ep then (match pin with | some l => l2Unpin s l | none => s)
    else
      setArr s p { a with landIn := a.landIn ++ [{ slot := slot, line := line, data := v.data,
                                                   bad := v.bad || v.rev, pin := pin }] }
  | .engine i p b => postNow s [.event i { phys := p.getD 0, bh := b }]
  | .drain _ _ | .nobody => s

/-- A line that was drained has reached its slice or the bridge (R214). -/
def drainArrived (s : State) (who : Requester) : State :=
  match who with
  | .drain p key =>
    modArr s p (fun a => { a with drained := a.drained.eraseP (fun (x : Nat × EgLine) => x.1 = key) })
  | _ => s

/-- A wait at another bulkhead's file has been satisfied: the next bundle may issue from the next ac on (R302). -/
def waitPassed (a : ArrayS) : ArrayS :=
  match a.wait with
  | some (.sem n x since none) => { a with wait := some (.sem n x since (some (a.ac - 9))) }
  | _ => a

/-- The reply of an SC or semaphore operation reaches its array (R221, R301): the clock takes tau, the value
waits to be written; after a kill it is discarded (R281). -/
def deliverValue (s : State) (p ep : Nat) (v : PendVal) : State :=
  let a := arrOf s p
  if a.epoch ≠ ep then s
  else
    let a := match v.tau with
      | some t => { a with clock := t, scWait := false }
      | none => if v.clk || v.bad || v.sc then { a with scWait := false } else a
    if v.wait then setArr s p (waitPassed a) else setArr s p { a with pend := a.pend ++ [v] }

/-- The semaphore operation that another bulkhead's file has answered no longer awaits its reply (R301). -/
def semAnswered (a : ArrayS) : ArrayS := { a with sems := a.sems.eraseP (fun o => o.far) }

/-- Hand over what a packet carries (R61, R63). A window reply that reaches the bridge is no longer outstanding
and goes on from the importer's hub gate, which `again` sends; through a window that is disabled by then it is poison
(R24). -/
def netDeliver (again : State → Nat → Requester → LineVal → State) (s : State) (m : NetMsg) : State :=
  match m with
  | .slice b k r => modSlice s (sliceKey b k) (fun x => { x with reqs := x.reqs ++ [r] })
  | .sem b a op => modBh s b (fun x => { x with semArr := x.semArr ++ [(a, op)] })
  | .line who v pin => deliverLine s who v pin
  | .stack k r => modStack s k (fun x => { x with reqs := x.reqs ++ [r] })
  | .stackReply k r => modSlice s k (fun x => { x with replies := x.replies ++ [r] })
  | .win r => { s with hub := { s.hub with bridge := s.hub.bridge ++ [r] } }
  | .winLine w b who v =>
    again { s with hub := { s.hub with winOut := tabMod s.hub.winOut 0 w (· - 1) } } b who
      (if bitB (tabGet s.hub.win 0 w) 31 then v else { bad := true })
  | .scGo p ep =>
    let a := arrOf s p
    if a.epoch = ep && a.scBusy then post s [.event .scOperationPerform { phys := p, bh := bhOfArr p }] else s
  | .value p ep v =>
    deliverValue (if !v.sc && (arrOf s p).epoch = ep then modArr s p semAnswered else s) p ep v
  | .act i p b => postNow s [.event i { phys := p, bh := b }]
  | .ckpt t n i v =>
    if s.hub.ckBusy && s.hub.ckRun.at_ = t && s.hub.ckRec = n then
      { s with hub := { s.hub with ckBuf := tabSet s.hub.ckBuf i v } }
    else s

/-- Put a packet among those that wait to enter a ring at a router (R62). -/
def netEnter (s : State) (cls : Nat) (f t : Nat × Nat × Nat) (bh : Nat) (m : NetMsg) : State :=
  let p : Packet := { cls := cls, die := t.1, x := t.2.1, y := t.2.2, bh := bh, born := s.now, msg := m }
  modRouter s (routerKey f.1 f.2.1 f.2.2) (fun r =>
    { r with enter := tabMod r.enter [] cls (fun q => q ++ [p]) })

/-- The array that a line is for. -/
def readerArr : Requester → Option Nat
  | .load p .. | .land p .. | .drain p _ => some p
  | .engine _ p _ => p
  | .nobody => none

/-- The router that a line from a router of column x goes to: its array's in that column, or the command processor's. -/
def readerRouter (who : Requester) (x : Nat) : Option (Nat × Nat × Nat) :=
  match who, readerArr who with
  | _, some p => some (arrRouter p x)
  | .engine _ _ b, none => some (cmdRouter b)
  | _, none => none

/-- A window read's line goes on from the importer's hub gate to who asked (R23). -/
def winOnward (s : State) (b : Nat) (who : Requester) (v : LineVal) : State :=
  let f := hubRouter b
  match readerRouter who f.2.1 with
  | none => s
  | some t => if f = t then deliverLine s who v none else netEnter s 3 f t b (.line who v none)

/-- Hand over a packet at its destination. -/
def netGive (s : State) (m : NetMsg) : State := netDeliver winOnward s m

/-- Send a message from one router to another: at once where they are the same, else among the packets that
wait to enter a ring. -/
def netSend (s : State) (cls : Nat) (f t : Nat × Nat × Nat) (bh : Nat) (m : NetMsg) : State :=
  if f = t then netGive s m else netEnter s cls f t bh m

/-- A line goes from a slice to who asked: through the exporter's hub gate for a window, else to the array's
router in the slice's column (R23, R60). -/
def sendLine (s : State) (k : Nat) (r : SliceReq) (v : LineVal) (pin : Option Nat) : State :=
  let f := sliceRouter k
  match r.win, readerArr r.who with
  | some w, _ => netSend s 3 f (hubRouter (k / 96)) (k / 96) (.winLine w r.bh r.who v)
  | none, some p => netSend s r.cls f (arrRouter p f.2.1) (k / 96) (.line r.who v pin)
  | none, none => s

/-- Hand the reply of stack k's controller to the slice that asked: from the channel's router (R60, R72). -/
def giveReply (s : State) (k : Nat) (r : StackReq) (x : StackReply) : State :=
  let b := reqBh k r.line
  netSend s r.cls (chanRouter b (reqChan r.line % 16)) (sliceRouter r.from_) b (.stackReply r.from_ x)

/-- Send a request of slice k to its controller, under the class of the read it serves (R60, R72). -/
def sendStack (s : State) (k : Nat) (r : StackReq) (l : Nat) : State :=
  netSend s r.cls (sliceRouter k) (chanRouter (lineBh l) (lineChan l % 16)) (lineBh l) (.stack (lineStack l) r)

end Sys2Proof.Machine
end

