-- ==== Sys2Proof/Machine/L2.lean ====
section
/-! DEFINITION. The L2 slices (R66 to R71, R85, R223), and reads and writes of memory by the agents whose
accesses are synchronous (log entry 2). -/
namespace Sys2Proof.Machine
open Sys2Proof

-- Requests performed at once

/-- Perform the requests to one line that wait at its controller, in order of receipt (R73). -/
def ctlFlush (s : State) (l : Nat) : State :=
  let k := lineStack l
  let (mine, rest) := (stackOf s k).reqs.partition (fun r => r.line == stackLine l)
  if mine.isEmpty then s
  else
    mine.foldl (fun s r =>
      match ctlPerform s k r l with
      | (s, some x) => giveReply s k r x
      | (s, none) => s) (modStack s k (fun x => { x with reqs := rest }))

/-- A read of the line is on its way between its home slice and the stack. -/
def lineAwaited (s : State) (l : Nat) : Bool := (sliceOf s (homeSlice l)).waiting.any (fun w => w.line == l)

/-- A request performed at once, after those that wait for its line; its tag is one that is not in use
(R73). A fill of the line that is on its way is older than a write made so, and the slice will ask again. -/
def ctlNow (s : State) (kind : StackKind) (l key prot : Nat) (mask : W64) (d : BitVec 512)
    (pois : Bool) : State × Option StackReply :=
  let s := ctlFlush s l
  let tag := (freeTag (stackOf s (lineStack l)) (lineChan l) 0).getD 0
  let s := if kind ≠ .rd64 && lineAwaited s l then
      modSlice s (homeSlice l) (fun x => { x with stale := setInsert x.stale l })
    else s
  ctlPerform s (lineStack l) (mkReq s kind tag l key prot mask d pois) l

-- L2 slices (R66 to R71, R223)

/-- A line held by a slice. -/
def l2Find (x : SliceS) (l : Nat) : Option L2Line := x.lines.find? (fun y => y.line == l)
/-- Put a line at the most recently used place. -/
def l2Put (x : SliceS) (y : L2Line) : SliceS :=
  { x with lines := y :: x.lines.filter (fun z => !(z.line == y.line)) }
/-- Drop a line; the high-water mark takes its timestamp (R221). -/
def l2Drop (x : SliceS) (y : L2Line) : SliceS :=
  { x with lines := x.lines.filter (fun z => !(z.line == y.line))
           high := if x.high.ult y.ts then y.ts else x.high }

/-- All 64 bytes. -/
def allBytes : W64 := BitVec.allOnes 64

/-- The write-back of a dirty line: its mask, or every bit with POIS = 1 for a poisoned line (R67,
R71). -/
def writeBack (s : State) (y : L2Line) : State :=
  if y.dirty == 0 || y.replica then s
  else if y.poison then (ctlNow s .wr64 y.line y.slot y.prot allBytes y.data true).1
  else (ctlNow s .wr64 y.line y.slot y.prot y.dirty y.data false).1

/-- L2_EVICTION (R67, R71): a latent error drops a clean line and poisons a dirty one. -/
def evict (s : State) (k : Nat) (y : L2Line) : State :=
  let s := modSlice s k (fun x => l2Drop x y)
  let s := if y.ue then logLine s ecL2ue 3 y.line else s
  writeBack s (if y.ue then { y with poison := true } else y)

/-- The ways of a line's set. -/
def setWays (x : SliceS) (l : Nat) : List L2Line := x.lines.filter (fun y => lineSet y.line == lineSet l)

/-- Room for a line in its set: the least recently used of the eligible ways leaves (R66, R70). Answers
false where no way is eligible. -/
def makeRoom (s : State) (k l : Nat) : State × Bool :=
  let ways := setWays (sliceOf s k) l
  if ways.length < 16 then (s, true)
  else
    match ways.reverse.find? (fun y => y.pins == 0 && y.stage.isNone) with
    | some y => (evict s k y, true)
    | none => (s, false)

/-- What an access finds where its line holds a latent error (R71): a clean line is invalidated, a dirty one
poisoned. -/
def meetUe (s : State) (k l : Nat) : State :=
  match l2Find (sliceOf s k) l with
  | some y =>
    if !y.ue then s
    else
      let s := logLine s ecL2ue 3 l
      if y.dirty == 0 then modSlice s k (fun x => l2Drop x y)
      else modSlice s k (fun x => l2Put x { y with ue := false, poison := true })
  | none => s

/-- What a stack reply delivers; a refusal delivers poison (R81, R83). -/
def replyVal (r : Option StackReply) : LineVal :=
  match r with
  | some x => { data := x.data, bad := x.pois || x.kind == 0xB, rev := x.stat == 4 }
  | none => { bad := true }

/-- A reply that a slice does not keep: a refusal, or an error of the stored line (R67, R81). -/
def replyLost (r : StackReply) : Bool := r.kind == 0xB || 3 ≤ r.stat

/-- Install a stack reply: the full line, keeping the dirty bytes (R67), with the read count of its fill
(R69). A latent error is met first (R71); a refusal or an error is not kept, nor a line whose slot is revoked (R81). A
line of which every byte is dirty takes nothing from the fill, its poison neither (R85). -/
def l2Install (s : State) (k l slot prot rc : Nat) (r : StackReply) : State :=
  if replyLost r || keyRevoked s (bhOf s (lineBh l)).part slot then s
  else
    let s := meetUe s k l
    match l2Find (sliceOf s k) l with
    | some y =>
      let y := { y with data := mergeLine r.data y.data y.dirty, valid := allBytes,
                        poison := y.poison || (r.pois && y.dirty != allBytes), rc := if y.dirty == 0 then rc else 0 }
      modSlice s k (fun x => l2Put x y)
    | none =>
      match makeRoom s k l with
      | (s, false) => s
      | (s, true) =>
        let y : L2Line := { line := l, data := r.data, valid := allBytes, dirty := 0, poison := r.pois,
                            replica := k ≠ homeSlice l, slot := slot, prot := prot, rc := rc
                            ts := (sliceOf s k).high }
        modSlice s k (fun x => l2Put x y)

/-- Pin, count and mark recently used a line that serves a read (R69, R70). -/
def l2Touch (s : State) (k : Nat) (y : L2Line) (pin : Bool) : State :=
  let y := if pin then { y with pins := y.pins + 1 } else y
  if y.rc = 1 then
    if y.pins = 0 then modSlice s k (fun x => l2Drop x y)
    else modSlice s k (fun x => l2Put x { y with rc := 0, spent := true })
  else modSlice s k (fun x => l2Put x { y with rc := y.rc - 1 })

/-- Serve a read from a line the slice holds (R69, R85). -/
def lineServe (s : State) (k : Nat) (y : L2Line) : State × LineVal :=
  (l2Touch s k y false, if y.poison then { bad := true } else { data := y.data })

/-- The read that filled a line is served from it, where the slice kept it; else it takes the reply itself. -/
def fillServe (s : State) (k l : Nat) (r : StackReply) : State × LineVal :=
  match l2Find (sliceOf s k) l with
  | some y => if replyLost r then (s, replyVal (some r)) else lineServe s k y
  | none => (s, replyVal (some r))

/-- A line read at once through its home slice by a reader of node `node`, its fill carrying a read count
(R67, R69, R223): staged bytes of another node are not seen. A read that meets a latent error gives poison
(R71). -/
def lineRead (s : State) (l slot prot : Nat) (node : Option NodeId) (rc : Nat) : State × LineVal :=
  let k := homeSlice l
  match l2Find (sliceOf s k) l with
  | some y =>
    if y.ue then (meetUe s k l, { bad := true })
    else if y.stage.isSome && y.stage ≠ node then
      let (s, r) := ctlNow s .rd64 l slot prot 0 0 false
      (s, replyVal r)
    else if y.poison || y.valid == allBytes then lineServe s k y
    else if y.stage.isSome then
      let (s, r) := ctlNow s .rd64 l slot prot 0 0 false
      let v := replyVal r
      (s, { v with data := mergeLine v.data y.data y.dirty })
    else
      let (s, r) := ctlNow s .rmw l slot prot y.dirty y.data false
      match r with
      | some x => fillServe (l2Install s k l slot prot 0 x) k l x
      | none => (s, { bad := true })
  | none =>
    let (s, r) := ctlNow s .rd64 l slot prot 0 0 false
    match r with
    | some x => fillServe (l2Install s k l slot prot rc x) k l x
    | none => (s, { bad := true })

/-- Replicas of a line leave every other slice (R68, R217). -/
def dropReplicas (s : State) (l : Nat) : State :=
  { s with slices := s.slices.map (fun p =>
      (p.1, { p.2 with lines := p.2.lines.filter (fun y => !(y.line == l && y.replica)) })) }

/-- A committed write that another agent makes to a line which a node holds staged: the clean bytes of the
line, which a commit leaves behind, take it; the node's own bytes stand (R116, R223). -/
def stagedUnder (s : State) (k : Nat) (y : L2Line) (d : BitVec 512) (mask : W64) : State :=
  modSlice s k (fun x => { x with lines := x.lines.map (fun z =>
    if z.line == y.line then { z with data := mergeLine z.data d (mask &&& z.valid &&& ~~~z.dirty) } else z) })

/-- A line written at its home slice (R67, R85, R223). `stage` tags a staged write; a committed write of a
staged line goes to memory behind it. Answers false where a staged write finds no eligible way (R70). -/
def lineWrite (s : State) (l slot prot : Nat) (d : BitVec 512) (mask : W64) (pois : Bool)
    (stage : Option NodeId) : State × Bool :=
  let k := homeSlice l
  let s := meetUe s k l
  let full := mask == allBytes
  match l2Find (sliceOf s k) l with
  | some y =>
    if y.stage.isSome && stage.isSome && y.stage ≠ stage then (s, false)
    else if y.stage.isSome && stage.isNone then
      (stagedUnder (ctlNow s .wr64 l slot prot mask d (pois && full)).1 k y d mask, true)
    else
      let staged := ((setWays (sliceOf s k) l).filter (fun z => z.stage.isSome)).length
      if stage.isSome && y.stage.isNone && 8 ≤ staged then (s, false)
      else
        let s := if stage.isSome && y.stage.isNone then writeBack s y else s
        let dirty0 := if stage.isSome && y.stage.isNone then 0 else y.dirty
        let y := { y with data := mergeLine y.data d mask, valid := y.valid ||| mask,
                          dirty := dirty0 ||| mask, rc := 0, spent := false, slot := slot, prot := prot,
                          stage := stage, poison := if full then pois else y.poison || pois }
        (modSlice s k (fun x => l2Put x y), true)
  | none =>
    let staged := ((setWays (sliceOf s k) l).filter (fun z => z.stage.isSome)).length
    if stage.isSome && 8 ≤ staged then (s, false)
    else
      match makeRoom s k l with
      | (s, false) =>
        if stage.isSome then (s, false)
        else ((ctlNow s .wr64 l slot prot mask d (pois && full)).1, true)
      | (s, true) =>
        let y : L2Line := { line := l, data := mergeLine 0 d mask, valid := mask, dirty := mask,
                            poison := pois, stage := stage, slot := slot, prot := prot,
                            ts := (sliceOf s k).high }
        (modSlice s k (fun x => l2Put x y), true)

/-- A line written through at its home slice by a host (R116, R387): a full line by WR64 and a partial one by RMW, so
that the stack has the bytes and the slice keeps a line that it holds only as a clean one, refilled from a merge. A
latent error is met first (R71); bytes that the slice held dirty go with the write. A refused write leaves nothing in the
slice. Answers whether the stack has taken the bytes. -/
def lineThrough (s : State) (l slot prot : Nat) (d : BitVec 512) (mask : W64) : State × Bool :=
  let k := homeSlice l
  let s := meetUe s k l
  let kind (m : W64) : StackKind := if m == allBytes then .wr64 else .rmw
  let took (r : Option StackReply) : Bool := match r with | some x => !(x.kind == 0xB) | none => false
  match l2Find (sliceOf s k) l with
  | some y =>
    if y.stage.isSome then
      let (s, r) := ctlNow s (kind mask) l slot prot mask d false
      (stagedUnder s k y d mask, took r)
    else
      let m := y.dirty ||| mask
      let data := mergeLine y.data d mask
      let pois := y.poison && mask != allBytes
      let (s, r) := ctlNow s (if pois then .wr64 else kind m) l slot prot (if pois then allBytes else m) data pois
      match r with
      | some x =>
        if x.kind == 0xB then (modSlice s k (fun x => l2Drop x y), false)
        else
          let z := { y with data := if x.kind == 0xA then x.data else data, valid := y.valid ||| m, dirty := 0
                            rc := 0, spent := false, slot := slot, prot := prot, poison := x.pois || pois }
          let z := if x.kind == 0xA then { z with valid := allBytes } else z
          (modSlice s k (fun q => if z.valid == allBytes || z.poison then l2Put q z else l2Drop q y), true)
      | none => (modSlice s k (fun x => l2Drop x y), false)
  | none =>
    let (s, r) := ctlNow s (kind mask) l slot prot mask d false
    (s, took r)

-- Reads and writes by byte range, for the agents whose accesses are synchronous (log entry 2)

/-- The lines of `n` bytes at a physical address. -/
def paLines (pa n : Nat) : List Nat :=
  (List.range ((pa % 64 + n + 63) / 64)).map (fun i => pa / 64 + i)

/-- A range of bytes read: the bytes, poisoned, revoked, and which of its bytes lie in a poisoned or revoked
line (R85). -/
structure BytesVal where
  bytes : List Byte := []
  bad   : Bool := false
  rev   : Bool := false
  marks : List Bool := []
  deriving DecidableEq, Repr

/-- `n` bytes at a physical address under a region's slot and protection. -/
def paRead (s : State) (pa n slot prot : Nat) (node : Option NodeId) (rc : Nat) : State × BytesVal :=
  let r := (paLines pa n).foldl (fun (acc : State × BytesVal) l =>
    let (s, v) := lineRead acc.1 l slot prot node rc
    (s, { bytes := acc.2.bytes ++ lineBytes v.data, bad := acc.2.bad || v.bad,
          rev := acc.2.rev || v.rev, marks := acc.2.marks ++ List.replicate 64 (v.bad || v.rev) })) (s, {})
  (r.1, { r.2 with bytes := (r.2.bytes.drop (pa % 64)).take n, marks := (r.2.marks.drop (pa % 64)).take n })

/-- The piece of a byte list that falls on line l, as data and mask. -/
def linePiece (pa l : Nat) (bs : List Byte) : BitVec 512 × W64 :=
  let f (i : Nat) : Option Byte := if 64 * l + i < pa then none else bs[64 * l + i - pa]?
  (BitVec.ofNat 512 (leNat ((List.range 64).map (fun i => (f i).getD 0))),
   ofBits 64 (fun i => (f i).isSome))

/-- Write bytes at a physical address. -/
def paWrite (s : State) (pa slot prot : Nat) (bs : List Byte) (pois : Bool) : State :=
  (paLines pa bs.length).foldl (fun s l =>
    let (d, m) := linePiece pa l bs
    (lineWrite s l slot prot d m pois none).1) s

/-- Bytes that a host writes at a physical address (R387); answers whether the stack has taken every line. -/
def paThrough (s : State) (pa slot prot : Nat) (bs : List Byte) : State × Bool :=
  (paLines pa bs.length).foldl (fun (x : State × Bool) l =>
    let (d, m) := linePiece pa l bs
    let (s, ok) := lineThrough x.1 l slot prot d m
    (s, x.2 && ok)) (s, true)

end Sys2Proof.Machine
end

