-- ==== Sys2Proof/Machine/Xlate.lean ====
section
/-! DEFINITION. Regions and their translation (R207 to R213), windows (R23, R24, R74), the egress cache of an
array (R214), replayability (R134, R223), and the requests of an array to the slices (R60 to R63). -/
namespace Sys2Proof.Machine
open Sys2Proof

/-- What an access does: a read, a write, an SC operation that writes, and an SC or PRED read of a SEQ word
(R210). -/
inductive AccK where
  | rd | wr | sc | scRd
  deriving DecidableEq, Repr

/-- The access writes. -/
def AccK.writes : AccK → Bool
  | .wr | .sc => true
  | _ => false

/-- The access is one of those that a SEQ region takes. -/
def AccK.seq : AccK → Bool
  | .sc | .scRd => true
  | _ => false

/-- The outcome of a translation: the descriptor and the byte offset in its region, or the trap. -/
inductive XRes where
  | ok (num : Nat) (r : Region) (off : Nat)
  | bad (c : Cause) (num : Nat)
  deriving DecidableEq, Repr

/-- The index entries of a region hold its number: 2^(k - 21) of them, from the granule of its virtual base (R211; log
entry 131). -/
def indexed (r : Region) (va : Nat) : Bool :=
  let g := va / 2 ^ 21
  r.vbase / 2 ^ 21 ≤ g && g < r.vbase / 2 ^ 21 + 2 ^ (r.k - 21)

/-- The descriptor that the index names for an address (R210, R211). -/
def regionAtVa (s : State) (p va : Nat) : Option (Nat × Region) :=
  (partOf s p).regions.find? (fun r => r.2.kind ≠ 0 && indexed r.2 va)

/-- The same through an array's region cache (R213). -/
def arrRegion (s : State) (a : ArrayS) (p va : Nat) : Option (Nat × Region) :=
  match a.rcache.find? (fun r => indexed r.2 va) with
  | some x => some x
  | none => regionAtVa s p va

/-- WINCFG fields (R27). -/
def winWord (s : State) (w : Nat) : W32 := tabGet s.hub.win 0 w
/-- EN. -/
def winEn (s : State) (w : Nat) : Bool := bitB (winWord s w) 31
/-- WR. -/
def winWr (s : State) (w : Nat) : Bool := bitB (winWord s w) 30
/-- IMP. -/
def winImp (s : State) (w : Nat) : Nat := bitsN (winWord s w) 26 4
/-- EXP. -/
def winExp (s : State) (w : Nat) : Nat := bitsN (winWord s w) 22 4
/-- REGION. -/
def winRegion (s : State) (w : Nat) : Nat := bitsN (winWord s w) 0 14

/-- Clear EN of a window (R24). What is in flight meets its end at the bridge: a stale generation is discarded
there, else the disabled window answers with poison or discards (`execWindowRequest`). -/
def winDisable (s : State) (w : Nat) : State :=
  { s with hub := { s.hub with win := tabSet s.hub.win w (setBit (winWord s w) 31 false) } }

/-- Translate an access by owner code `own` (R210), in the order REGION, FOREIGN, KEYEXH, KEYREV (R81,
R283); a store through a window whose WR is 0 is REGION (R293). -/
def xlate (s : State) (p : Nat) (found : Option (Nat × Region)) (va size own : Nat) (k : AccK) : XRes :=
  if 2 ^ 40 ≤ va then .bad .region 0x3FFF
  else
    match found with
    | none => .bad .region 0x3FFF
    | some (n, d) =>
      if va < d.vbase || d.vbase + 2 ^ d.k < va + size then .bad .region n
      else if k.seq != (d.kind == 3) || (d.kind = 2 && k.writes) ||
          (d.win && k.writes && !winWr s d.winIx) then .bad .region n
      else if d.kind = 1 && d.owner ≠ own then .bad .foreign n
      else if k.writes && d.ro then .bad .keyexh n
      else if k.writes && keyRevoked s p d.slot then .bad .keyrev n
      else .ok n d (va - d.vbase)

/-- The region an agent without a region cache finds. -/
def xlatePart (s : State) (p va size own : Nat) (k : AccK) : XRes :=
  xlate s p (regionAtVa s p va) va size own k

/-- Translate an access of array p as its logical array, through its region cache (R210, R213). -/
def xlateArr (s : State) (p va n : Nat) (k : AccK) : XRes :=
  let a := arrOf s p
  let q := partOfArr s p
  xlate s q (arrRegion s a q va) va n a.logical k

/-- Put a descriptor at the most recently used place of the 64 (R213). -/
def rcPut (l : List (Nat × Region)) (n : Nat) (r : Region) : List (Nat × Region) :=
  ((n, r) :: l.filter (fun x => !(x.1 == n))).take 64

/-- An address goes through array p's region cache: what holds it becomes the most recently used entry, and a
miss, which an engine walks without freezing the domain, brings it in (R213). -/
def rcUse (s : State) (p va : Nat) : State :=
  let a := arrOf s p
  match arrRegion s a (partOfArr s p) va with
  | some (n, r) => setArr s p { a with rcache := rcPut a.rcache n r }
  | none => s

/-- The exporter's region of a window, with its partition, for an access of partition p: the window is
enabled and p is the one it imports to (R23). -/
def winTarget (s : State) (w p : Nat) : Option (Nat × Region) :=
  if winEn s w && winImp s w = p then
    (tabFind (partOf s (winExp s w)).regions (winRegion s w)).map (fun r => (winExp s w, r))
  else none

/-- The hub gates pass a window request: its generation is the importer's and its exporter generation the
exporter's, by the gates' copies (R18, R74). -/
def gatePass (s : State) (w b : Nat) (gen expGen : W16) : Bool :=
  gen == tabGet s.hub.gateGens 1 b && expGen == tabGet s.hub.gateGens 1 (winExp s w)

/-- A window access of bulkhead b made at once: the exporter's region, else the class of the record that a
discarded write leaves (R24, R74). -/
def winNow (s : State) (w b : Nat) : Except Nat Region :=
  match winTarget s w (bhOf s b).part with
  | none => .error ecWindow
  | some (_, e) =>
    if gatePass s w b (bhOf s b).gen (tabGet s.hub.winGen 0 w) then .ok e else .error ecStalegen

/-- The record of a window access that is discarded (R24, R74). -/
def winLog (s : State) (cls w b off : Nat) : State :=
  logErr s cls b (bhOf s b).part 0 (if cls = ecStalegen then winRegion s w else 0x3FFF) (off / 64) 1

/-- Bytes of a region read at once by an agent of bulkhead b (R23, R24): through a disabled window they are
poison. `rc` is the read count of the fills (R69); window lines are never counted. -/
def regRead (s : State) (b : Nat) (r : Region) (off n : Nat) (node : Option NodeId) (rc : Nat) :
    State × BytesVal :=
  if r.win then
    match winNow s r.winIx b with
    | .ok e => paRead s (e.pbase + off) n e.slot e.prot node 0
    | .error cls =>
      (if cls = ecStalegen then winLog s cls r.winIx b off else s,
        { bytes := List.replicate n 0, bad := true, marks := List.replicate n true })
  else paRead s (r.pbase + off) n r.slot r.prot node rc

/-- Bytes of a region written at once; through a disabled window they are discarded and logged (R24). -/
def regWrite (s : State) (b : Nat) (r : Region) (off : Nat) (bs : List Byte) (pois : Bool) : State :=
  if r.win then
    match winNow s r.winIx b with
    | .ok e => paWrite s (e.pbase + off) e.slot e.prot bs pois
    | .error cls => winLog s cls r.winIx b off
  else paWrite s (r.pbase + off) r.slot r.prot bs pois

/-- Bytes that a host writes to a region (R38, R387); through a disabled window they are discarded and logged
(R24). Answers whether the stack has taken them. -/
def regThrough (s : State) (b : Nat) (r : Region) (off : Nat) (bs : List Byte) : State × Bool :=
  if r.win then
    match winNow s r.winIx b with
    | .ok e => paThrough s (e.pbase + off) e.slot e.prot bs
    | .error cls => (winLog s cls r.winIx b off, true)
  else paThrough s (r.pbase + off) r.slot r.prot bs

/-- An access at va by owner code `own` must wait for a release that its region still records at another
array's FIFO (R215), or for an XFER packet that has not completed (R105). `phys` is the array that makes it,
if one does. -/
def releaseWait (s : State) (p own : Nat) (phys : Option Nat) (va : Nat) : Bool :=
  match regionAtVa s p va with
  | some (n, r) => r.rpend && r.owner = own &&
      ((partOf s p).xfers.any (fun x => x.1 == n) ||
        (r.markV && some r.markA ≠ phys && (arrOf s r.markA).fifo.contains (.marker r.mark)))
  | none => false

-- Replayability (R134, R223, R316)

/-- A node becomes non-replayable: its staged lines commit, and the first reason is kept (R125, R134). -/
def unreplay (s : State) (n : NodeId) (why : Nat) : State :=
  match nodeOf s n with
  | none => s
  | some nd =>
    if !nd.replay then s
    else
      let s := setNode s n { nd with replay := false, nrWhy := why, staged := 0 }
      let free (y : L2Line) : L2Line := if y.stage = some n then { y with stage := none } else y
      let freeE (e : Nat × EgLine) : Nat × EgLine :=
        if e.2.node = some n then (e.1, { e.2 with stage := false }) else e
      let freeA (p : Nat × ArrayS) : Nat × ArrayS :=
        (p.1, { p.2 with eg := p.2.eg.map freeE, drained := p.2.drained.map freeE })
      { s with slices := s.slices.map (fun (p : Nat × SliceS) =>
                 (p.1, { p.2 with lines := p.2.lines.map free }))
               arrs := s.arrs.map freeA }

/-- The same for the node of the array the instruction acts on. -/
def unreplayHere (s : State) (why : Nat) : State :=
  match (here s).node with
  | some n => unreplay s n why
  | none => s

/-- A byte range lies in a footprint entry (R120). -/
def inFootprint (nd : NodeS) (num off n : Nat) : Bool :=
  nd.fps.any (fun f => f.1 == num && decide (f.2.1 ≤ off) && decide (off + n ≤ f.2.1 + f.2.2))

/-- The node of an array, if it is still replayable. -/
def replayNode (s : State) (a : ArrayS) : Option NodeId :=
  match a.node with
  | none => none
  | some n =>
    match nodeOf s n with
    | some nd => if nd.replay then some n else none
    | none => none

/-- What a write of a node's array does to its replayability (R223). -/
def noteWrite (s : State) (p num off n : Nat) (r : Region) : State :=
  match (arrOf s p).node with
  | none => s
  | some id =>
    match nodeOf s id with
    | none => s
    | some nd =>
      if !nd.replay then s
      else if !r.stage then unreplay s id 3
      else if !inFootprint nd num off n then unreplay s id 1
      else s

-- The egress cache (R214)

/-- The key of a line in the egress cache: its package line, or its line in a window. -/
def egKey (r : Region) (off : Nat) : Nat :=
  if r.win then 2 ^ 36 * (1 + r.winIx) + off / 64 else (r.pbase + off) / 64

/-- The bytes of a line that lie in the egress cache or on their way to the slice: data, mask, poison. -/
def egSee (a : ArrayS) (key : Nat) : BitVec 512 × W64 × Bool :=
  let put (x : BitVec 512 × W64 × Bool) (e : EgLine) : BitVec 512 × W64 × Bool :=
    (mergeLine x.1 e.data e.mask, x.2.1 ||| e.mask, x.2.2 || e.poison)
  let x := a.drained.foldl (fun x e => if e.1 = key then put x e.2 else x) (0, 0, false)
  match tabFind a.eg key with
  | some e => put x e
  | none => x

/-- Lines in the cache: 64 KiB (R214). -/
def egFull (a : ArrayS) : Bool := 1024 ≤ a.eg.length

/-- Write bytes of a line into the cache; a line that becomes dirty joins the tail of the FIFO (R214). -/
def egPut (a : ArrayS) (key : Nat) (d : BitVec 512) (mask : W64) (pois : Bool) (num : Nat) (r : Region)
    (stage : Bool) (cls : Nat) : ArrayS :=
  match tabFind a.eg key with
  | some e =>
    let e := { e with node := a.node, data := mergeLine e.data d mask, mask := e.mask ||| mask,
                      poison := if mask == allBytes then pois else e.poison || pois, stage := stage
                      cls := if e.cls = 1 then 1 else cls }
    { a with eg := tabSet a.eg key e }
  | none =>
    let e : EgLine := { data := mergeLine 0 d mask, mask := mask, poison := pois, region := num,
                        slot := r.slot, prot := r.prot, stage := stage, cls := cls, node := a.node,
                        win := if r.win then some r.winIx else none }
    { a with eg := tabSet a.eg key e, fifo := a.fifo ++ [.line key] }

/-- A save program writes in the save area of its node (R122, R137). -/
def savesHere (s : State) (p off n : Nat) (r : Region) : Bool :=
  let a := arrOf s p
  match a.node.bind (nodeOf s) with
  | none => false
  | some nd =>
    let top := nd.gangs.foldl (fun m g => max m (g.first + g.count)) 0
    a.svrun = 1 && decide (nd.save ≤ r.vbase + off) && decide (r.vbase + off + n ≤ nd.save + 0xB00000 * top)

/-- A write of bytes by an array on a path of torus class `cls`, entering its egress cache (R63, R214, R223). A write to the
save area bypasses staging (R137). -/
def arrWrite (s : State) (p num off : Nat) (r : Region) (bs : List Byte) (pois : Bool) (cls : Nat) : State :=
  let area := savesHere s p off bs.length r
  let s := if area then s else noteWrite s p num off bs.length r
  let stage := !area && r.stage && (replayNode s (arrOf s p)).isSome
  (paLines off bs.length).foldl (fun s l =>
    let (d, m) := linePiece off l bs
    modArr s p (fun a => egPut a (egKey r (64 * l)) d m pois num r stage cls)) s

/-- Place a marker in the FIFO; answers its number (R214). -/
def placeMarker (a : ArrayS) : Nat × ArrayS :=
  let m := (a.markNext + 1) % 2 ^ 24
  (m, { a with markNext := m, fifo := a.fifo ++ [.marker m] })

/-- A marker has passed (R214): it has left the FIFO. -/
def markerPassed (a : ArrayS) (m : Nat) : Bool := !a.fifo.contains (.marker m)

/-- The XFER packets of a partition whose markers have all passed are over: RPEND of their regions returns to 0,
unless another packet or a sequencer's marker is outstanding (R105, R215). -/
def xferSettle (s : State) (p : Nat) : State :=
  let passed (x : Nat × Tab Nat) : Bool := x.2.all (fun m => markerPassed (arrOf s m.1) m.2)
  let x := partOf s p
  if !x.xfers.any passed then s
  else
    let left := x.xfers.filter (fun y => !passed y)
    let f (r : Nat × Region) : Nat × Region :=
      if r.2.rpend && !r.2.markV && !left.any (fun y => y.1 == r.1) then (r.1, { r.2 with rpend := false }) else r
    setPart s p { x with xfers := left, regions := x.regions.map f }

-- Requests of an array (R60 to R63, R68)

/-- Send a request of array p to slice k (R60). -/
def sendSlice (s : State) (p k : Nat) (r : SliceReq) : State :=
  let t := sliceRouter k
  netSend s r.cls (arrRouter p t.2.1) t (bhOfArr p) (.slice (k / 96) (k % 96) r)

/-- Send a window request of array p to the bridge, through the hub gate of its bulkhead (R23). Through a disabled
window a read returns poison, and a write is discarded with a WINDOW record (R24). -/
def sendWin (s : State) (p : Nat) (r : WinReq) : State :=
  let t := hubRouter (bhOfArr p)
  if (winTarget s r.win (bhOf s r.bh).part).isSome then
    netSend s 3 (arrRouter p t.2.1) t (bhOfArr p) (.win r)
  else if r.write then winLog (drainArrived s r.who) ecWindow r.win r.bh (64 * r.line)
  else deliverLine s r.who { bad := true } none

/-- Where a read of a line goes: a replica in the slice of the same local number, else home (R68). -/
def readSlice (s : State) (b l : Nat) : Nat :=
  let k := sliceKey b (lineIn l % 96)
  match l2Find (sliceOf s k) l with
  | some _ => k
  | none => homeSlice l

/-- Send a read of a line of a region for an array (R68, R69, R214); window lines go to the hub bridge
(R23). -/
def sendRead (s : State) (p cls : Nat) (r : Region) (off rc : Nat) (who : Requester) : State :=
  let a := arrOf s p
  let b := bhOfArr p
  if r.win then
    sendWin s p { win := r.winIx, write := false, line := off / 64, data := 0, mask := 0, bh := b,
                  gen := (bhOf s b).gen, expGen := tabGet s.hub.winGen 0 r.winIx, who := who, node := a.node }
  else
    let l := (r.pbase + off) / 64
    sendSlice s p (readSlice s b l)
      { write := false, line := l, slot := r.slot, prot := r.prot, who := who, bh := b, rc := rc, cls := cls
        node := a.node, shared := r.kind == 2 && lineBh l ≠ b }

end Sys2Proof.Machine
end

