-- ==== Sys2Proof/Machine/SeqMem.lean ====
section
/-! DEFINITION. Sequencer instructions that reach memory, other arrays, semaphores and links
(R293, R296 to R303). -/
namespace Sys2Proof.Machine
open Sys2Proof

/-- Go on with the array's registers unmarked, else take the mark's trap (R282, R283). -/
def withRegsS (s : State) (sl : Slot) (rs : List (BitVec 5)) (k : State) : State :=
  match markAmong (here s) rs with
  | some m => onArr s (fun a => raiseMark a sl m)
  | none => k

/-- Raise a fault in a slot at the array the instruction acts on. -/
def faultS (s : State) (sl : Slot) (c : Cause) (detail : W64) (num : Nat) : State :=
  onArr s (fun a => raiseAt a (slotCode sl) c detail num)

/-- The detail of a failed translation: the path for REGION and FOREIGN (R227). -/
def xDetail (c : Cause) (path : Nat) : W64 :=
  match c with
  | .region | .foreign => pathDetail path
  | _ => 0

/-- Translate an access of the array the instruction acts on, on a path, as its logical array. -/
def xlateHere (s : State) (va size : Nat) (k : AccK) : XRes := xlateArr s s.cur.phys va size k

/-- Go on with the translated access, else trap (R283, checks 5 and 6). -/
def withAccess (s : State) (sl : Slot) (path va size : Nat) (k : AccK)
    (go : Nat → Region → Nat → State) : State :=
  if va % size ≠ 0 then faultS s sl .align (BitVec.ofNat 64 size) 0x3FFF
  else
    match xlateHere s va size k with
    | .bad c n => faultS s sl c (xDetail c path) n
    | .ok n r off => go n r off

/-- LD (R293): from the egress cache 6 ac after issue, else when the reply arrives. -/
def execSLd (size : MemSize) (zx : Bool) (d a : BitVec 5) (off : BitVec 32) (s : State) :
    Host.Outcome State Fault Refusal :=
  .next (withRegsS s .s [a] (
    let n := sizeBytes size
    let va := effAddr (here s) a off
    withAccess s .s 1 va n .rd (fun _ r o =>
      let x := here s
      let (ed, em, ep) := egSee x (egKey r o)
      let want : W64 := ofBits 64 (fun i => o % 64 ≤ i && i < o % 64 + n)
      if em &&& want == want then
        onArr s (fun x => pendIn x d (loadExt n zx (ed.toNat >>> (8 * (o % 64))))
          (if ep then some { rev := false, src := 0 } else none) 6)
      else
        sendRead (onArr s (fun x => sPend x d)) s.cur.phys 1 r o 0
          (.load s.cur.phys x.epoch d.toNat (o % 64) n zx ed em ep))))

/-- ST (R293): into the egress cache, staged or committed under R223. -/
def execSSt (size : MemSize) (b a : BitVec 5) (off : BitVec 32) (s : State) :
    Host.Outcome State Fault Refusal :=
  .next (withRegsS s .s [b, a] (
    let n := sizeBytes size
    let va := effAddr (here s) a off
    withAccess s .s 1 va n .wr (fun num r o =>
      arrWrite s s.cur.phys num o r (leBytes n (sVal (here s) b).toNat) false 1)))

-- SC operations (R220, R221, R296, R297)

/-- Queue an SC operation (R221). -/
def scPush (s : State) (o : ScOp) (d : BitVec 5) : State :=
  onArr s (fun a => { sPend a d with sc := a.sc ++ [o] })

/-- The access an SC operation makes: LD.SC reads, the others write (R210). -/
def scAcc : ScKind → AccK
  | .load => .scRd
  | _ => .sc

/-- An SC operation at the address in s[a] (R220, R296). -/
def scOp (kind : ScKind) (w64 : Bool) (d a b c : BitVec 5) (rs : List (BitVec 5)) (s : State) : State :=
  withRegsS s .s rs (
    let x := here s
    let va := (sVal x a).toNat
    withAccess s .s 1 va (if w64 then 8 else 4) (scAcc kind) (fun _ _ _ =>
      scPush s { kind := kind, w64 := w64, va := va, reg := d.toNat, b := sVal x b, c := sVal x c } d))

/-- LD.SC (R296). -/
def execSLdSc (w64 : Bool) (d a : BitVec 5) (s : State) : Host.Outcome State Fault Refusal :=
  .next (scOp .load w64 d a 0 0 [a] s)
/-- ST.SC: it makes nothing pending and ends replayability (R134, R296, R316). -/
def execSStSc (w64 : Bool) (b a : BitVec 5) (s : State) : Host.Outcome State Fault Refusal :=
  let t := scOp .store w64 0 a b 0 [b, a] s
  .next (if (here t).sc.length = (here s).sc.length then t else unreplayHere t 3)
/-- AMO.ADD (R297). -/
def execSAmoAdd (w64 : Bool) (d b a : BitVec 5) (s : State) : Host.Outcome State Fault Refusal :=
  .next (scOp (.amo .add false) w64 d a b 0 [b, a] s)
/-- AMO.MIN (R297). -/
def execSAmoMin (w64 uns : Bool) (d b a : BitVec 5) (s : State) : Host.Outcome State Fault Refusal :=
  .next (scOp (.amo .min uns) w64 d a b 0 [b, a] s)
/-- AMO.MAX (R297). -/
def execSAmoMax (w64 uns : Bool) (d b a : BitVec 5) (s : State) : Host.Outcome State Fault Refusal :=
  .next (scOp (.amo .max uns) w64 d a b 0 [b, a] s)
/-- AMO.AND (R297). -/
def execSAmoAnd (w64 : Bool) (d b a : BitVec 5) (s : State) : Host.Outcome State Fault Refusal :=
  .next (scOp (.amo .and false) w64 d a b 0 [b, a] s)
/-- AMO.OR (R297). -/
def execSAmoOr (w64 : Bool) (d b a : BitVec 5) (s : State) : Host.Outcome State Fault Refusal :=
  .next (scOp (.amo .or false) w64 d a b 0 [b, a] s)
/-- AMO.SWAP (R297). -/
def execSAmoSwap (w64 : Bool) (d b a : BitVec 5) (s : State) : Host.Outcome State Fault Refusal :=
  .next (scOp (.amo .swap false) w64 d a b 0 [b, a] s)
/-- AMO.CAS (R297). -/
def execSAmoCas (w64 : Bool) (d b c a : BitVec 5) (s : State) : Host.Outcome State Fault Refusal :=
  .next (scOp (.amo .cas false) w64 d a b c [b, c, a] s)

-- Ownership and fences (R215, R216, R299, R300)

/-- The logical arrays of a virtual shape (R120). -/
def vsCount (vs : Nat) : Nat := 6 * 2 ^ vs

/-- An owner code that a sequencer XFER may name (R209, R299). -/
def xferOwnerOk (s : State) (a : ArrayS) (p owner : Nat) : Bool :=
  if owner < 0x60 then owner < vsCount a.vs
  else owner < 0x80 && owner % 16 < partSize s p

/-- A region that the array owns (R215, R299), or the trap. -/
def withOwned (s : State) (num : Nat) (go : Nat → Region → State) : State :=
  let a := here s
  let p := partOfArr s s.cur.phys
  match tabFind (partOf s p).regions num with
  | none => faultS s .s .region (pathDetail 1) num
  | some r =>
    if r.kind ≠ 1 then faultS s .s .region (pathDetail 1) num
    else if r.owner ≠ a.logical then faultS s .s .foreign (pathDetail 1) num
    else go p r

/-- Every region cache of a partition is to drop an entry (R213). -/
def postInval (s : State) (p num : Nat) : State :=
  (partArrs s p).foldl (fun s q =>
    if ((arrOf s q).rcache.any (fun e => e.1 == num)) then
      modArr s q (fun a => { a with rinv := a.rinv ++ [num] })
    else s) s

/-- XFER (R215): the marker, the descriptor, the invalidations; the sequencer freezes until the caches are
done. -/
def execSXfer (region : BitVec 14) (owner : BitVec 8) (s : State) :
    Host.Outcome State Fault Refusal :=
  .next (
    let num := region.toNat
    let p := partOfArr s s.cur.phys
    match tabFind (partOf s p).regions num with
    | none => faultS s .s .region (pathDetail 1) num
    | some r0 =>
      if r0.kind = 1 && !xferOwnerOk s (here s) p owner.toNat then
        faultS s .s .region (pathDetail 1) num
      else
        withOwned s num (fun p r =>
          let (m, a) := placeMarker (here s)
          let s := setArr s s.cur.phys { a with wait := some (.xfer num a.ac) }
          let r := { r with owner := owner.toNat, rpend := true, mark := m, markA := s.cur.phys,
                            markV := true }
          let s := modPart s p (fun x => { x with regions := tabSet x.regions num r })
          unreplayHere (postInval s p num) 3))

/-- REL (R216): a marker, and the freeze until it has passed. -/
def execSRel (region : BitVec 14) (s : State) : Host.Outcome State Fault Refusal :=
  .next (withOwned s region.toNat (fun _ _ =>
    let s := unreplayHere s 3
    let (m, a) := placeMarker (here s)
    setArr s s.cur.phys { a with wait := some (.rel m a.ac) }))

/-- FENCE.X (R218, R300): memory writes of the sequencer and of a message-passing step reach their coherence
point as they enter the egress cache, and bank writes at the end of their issue cycle; what is left to wait
for are the copies started before it, when set a holds P-CP, and the collectives, when it holds P-CL. An OSW on its way
through the rows does not move while the domain is frozen: the copies that a fence from P-LD to P-CP puts behind it wait
for it (log entry 122). -/
def execSFenceX (pa pb : BitVec 5) (s : State) : Host.Outcome State Fault Refusal :=
  .next (onArr s (fun a =>
    { a with wait := some (.fence (if bitB pa 2 then a.chans.map (fun c => c.1) else []) (bitB pa 3) a.ac)
             ldFence := if bitB pa 0 && bitB pb 2 then some a.tt else a.ldFence }))

-- Semaphores (R112, R113, R301, R302)

/-- A semaphore name whose bulkhead offset lies in the partition (R112). -/
def semNameOk (s : State) (p : Nat) (name : W16) : Bool := bitsN name 12 4 < partSize s p

/-- Send a semaphore operation, or trap with SEMNAME (R301). -/
def semOp (kind : SemKind) (name : W16) (v : State → W64) (d : BitVec 5) (rs : List (BitVec 5))
    (effect : State → State) (s : State) : State :=
  withRegsS s .s rs (
    if !semNameOk s (partOfArr s s.cur.phys) name then faultS s .s .semname (name.setWidth 64) 0x3FFF
    else effect (onArr s (fun a =>
      { sPend a d with sems := a.sems ++
          [{ kind := kind, name := name, v := v s, reg := d.toNat, at_ := a.ac, sent := false,
             ep := a.epoch }] })))

/-- SEM.ADD (R301). -/
def execSSemAdd (name : W16) (b : BitVec 5) (s : State) : Host.Outcome State Fault Refusal :=
  .next (semOp .add name (fun s => sVal (here s) b) 0 [b] (fun s => unreplayHere s 3) s)
/-- SEM.SET (R301). -/
def execSSemSet (name : W16) (b : BitVec 5) (s : State) : Host.Outcome State Fault Refusal :=
  .next (semOp .set name (fun s => sVal (here s) b) 0 [b] (fun s => unreplayHere s 3) s)
/-- SEM.RD (R301). -/
def execSSemRd (d : BitVec 5) (name : W16) (s : State) : Host.Outcome State Fault Refusal :=
  .next (semOp .read name (fun _ => 0) d [] id s)
/-- SEM.WAIT (R302). -/
def execSSemWait (name : W16) (b : BitVec 5) (s : State) : Host.Outcome State Fault Refusal :=
  .next (withRegsS s .s [b] (
    if !semNameOk s (partOfArr s s.cur.phys) name then faultS s .s .semname (name.setWidth 64) 0x3FFF
    else onArr s (fun a => { a with wait := some (.sem name (sVal a b) a.ac none) })))

-- Streams (R52 to R54, R303)

/-- The link a stream instruction names (R48). -/
def streamLink (s : State) (link : BitVec 4) : Nat := 9 * bhOfArr s.cur.phys + link.toNat

/-- The common checks of LSEND and LRECV (R52, R283, R303). A link in training takes flits to send and has none to give. The
detail of a misaligned address is a free value, as for LAND (log entry 59). -/
def withStream (s : State) (link : BitVec 4) (q : BitVec 2) (a : BitVec 5) (go : Nat → Nat → State) :
    State :=
  withRegsS s .s [a] (
    let va := (sVal (here s) a).toNat
    if va % 64 ≠ 0 then faultS s .s .align ((Config.openDetail 64).setWidth 64) 0x3FFF
    else if 65536 < va + 64 then faultS s .s .region (pathDetail 3) 0x3FFF
    else if (linkOf s (streamLink s link)).st = .down then
      faultS s .s .link (BitVec.ofNat 64 (link.toNat + q.toNat <<< 8)) 0x3FFF
    else go (streamLink s link) va)

/-- LSEND: 64 bytes as one flit on lane VLq (R53, R303). -/
def execSLsend (link : BitVec 4) (q : BitVec 2) (a : BitVec 5) (s : State) :
    Host.Outcome State Fault Refusal :=
  .next (withStream s link q a (fun l va =>
    if dmBad (here s) va 64 then faultS s .s .poison 4 0x3FFF
    else
      let f : Flit := { kind := 1, vl := q.toNat, seq := 0, ack := 0, off := 0, tag := 0, len := 63,
                        crcOk := true, data := memLine (here s).dmem va }
      unreplayHere (modLink s l (fun x =>
        { x with txq := tabMod x.txq [] q.toNat (fun t => t ++ [f]) })) 3))

/-- LRECV: the oldest entry of queue q (R53, R303). -/
def execSLrecv (link : BitVec 4) (q : BitVec 2) (a : BitVec 5) (s : State) :
    Host.Outcome State Fault Refusal :=
  .next (withStream s link q a (fun l va =>
    match tabGet (linkOf s l).rxq [] q.toNat with
    | [] => s
    | f :: r =>
      let s := modLink s l (fun x => { x with rxq := tabSet x.rxq q.toNat r })
      onArr s (fun x => dmWrite x va 64 f.data.toNat)))

end Sys2Proof.Machine
end

