-- ==== Sys2Proof/Machine/Copy.lean ====
section
/-! DEFINITION. The semaphore file (R112, R113), landings and prefetches (R165, R166, R376, R378), and the
copy engine (R196 to R200). -/
namespace Sys2Proof.Machine
open Sys2Proof

-- Semaphores (R112, R113)

/-- The bulkhead and index of a name in a partition (R112). -/
def semPlace (p : Nat) (name : W16) : Nat × Nat := (p + bitsN name 12 4, bitsN name 0 12)
/-- The value of a semaphore. -/
def semGet (s : State) (p : Nat) (name : W16) : W64 :=
  tabGet (bhOf s (semPlace p name).1).sems 0 (semPlace p name).2
/-- Set a semaphore. -/
def semPut (s : State) (p : Nat) (name : W16) (v : W64) : State :=
  modBh s (semPlace p name).1 (fun b => { b with sems := tabPut b.sems 0 (semPlace p name).2 v })
/-- Add to a semaphore, modulo 2^64. -/
def semAdd (s : State) (p : Nat) (name : W16) (v : W64) : State := semPut s p name (semGet s p name + v)

/-- An add or set of a packet or a completion of bulkhead b in partition p: at once at its own file, and over the torus in
class C1 at another's (R113). -/
def semSend (s : State) (b p : Nat) (k : SemKind) (name : W16) (v : W64) : State :=
  let t := (semPlace p name).1
  if t = b then (match k with | .set => semPut s p name v | _ => semAdd s p name v)
  else
    netSend s 1 (cmdRouter b) (cmdRouter t) b
      (.sem t (6 * b) { kind := k, name := name, v := v, reg := 0, at_ := 0, sent := true, mute := true })

/-- A completion add of bulkhead b, where one is asked for (R113, R114). -/
def semDone (s : State) (b p : Nat) (m : Option (W16 × W64)) : State :=
  match m with
  | some (n, v) => semSend s b p .add n v
  | none => s

-- The A slot: LAND and PFC (R376, R378)

/-- LAND (R165, R166, R376). The detail of a misaligned address is a free value: its four bits cannot hold the
64 bytes of the access (R227; log entry 59). -/
def execALand (slot sa sd : BitVec 5) (lines : BitVec 6) (d : BitVec 13) (s : State) :
    Host.Outcome State Fault Refusal :=
  .next (
    if d = 0 then onArr s (fun a => raiseIll a .a)
    else
      withRegsS s .a [sa, sd] (
        let a := here s
        let va := (sVal a sa).toNat
        let dst := (sVal a sd).toNat
        let n := 64 * (lines.toNat + 1)
        if va % 64 ≠ 0 || dst % 64 ≠ 0 then faultS s .a .align ((Config.openDetail 64).setWidth 64) 0x3FFF
        else
          match xlateHere s va n .rd with
          | .bad c num => faultS s .a c (xDetail c 0) num
          | .ok _ r off =>
            if spadSize < dst + n then faultS s .a .region (pathDetail 0) 0x3FFF
            else if (tabFind a.land slot.toNat).isSome || (a.mpe.isSome && 16 ≤ slot.toNat) then
              faultS s .a .hstate (slot.setWidth 64) 0x3FFF
            else
              let ls := List.range (lines.toNat + 1)
              let x : LandS :=
                { dest := dst, bytes := n, due := a.tt + d.toNat, lines := [], done := 0,
                  ov := ls.map (fun i => (i, egSee a (egKey r (off + 64 * i)))) }
              let s := setArr s s.cur.phys { a with land := tabSet a.land slot.toNat x }
              ls.foldl (fun s i => sendRead s s.cur.phys 0 r (off + 64 * i) 0
                (.land s.cur.phys a.epoch slot.toNat i)) s))

/-- PFC (R378): window lines and lines under a revoked slot are not fetched. -/
def execAPfc (sa : BitVec 5) (rc : BitVec 8) (lines : BitVec 6) (s : State) :
    Host.Outcome State Fault Refusal :=
  .next (withRegsS s .a [sa] (
    let va := (sVal (here s) sa).toNat
    let n := 64 * (lines.toNat + 1)
    if va % 64 ≠ 0 then faultS s .a .align ((Config.openDetail 64).setWidth 64) 0x3FFF
    else
      match xlateHere s va n .rd with
      | .bad c num => faultS s .a c (xDetail c 0) num
      | .ok _ r off =>
        if r.win || keyRevoked s (partOfArr s s.cur.phys) r.slot then s
        else
          (List.range (lines.toNat + 1)).foldl (fun s i =>
            sendRead s s.cur.phys 0 r (off + 64 * i) rc.toNat .nobody) s))

-- Copy templates (R197 to R199)

/-- `n` bytes of a template from offset `o`. -/
def tmF (t : BitVec 1024) (o n : Nat) : Nat := bitsN t (8 * o) (8 * n)
/-- Source space. -/
def tmSsp (t : BitVec 1024) : Nat := tmF t 0 1
/-- Destination space. -/
def tmDsp (t : BitVec 1024) : Nat := tmF t 1 1
/-- XPOSE. -/
def tmXpose (t : BitVec 1024) : Bool := bitB t 24
/-- SEM enable. -/
def tmSem (t : BitVec 1024) : Bool := bitB t 25
/-- Element size code. -/
def tmEsz (t : BitVec 1024) : Nat := tmF t 2 1
/-- Destination handle. -/
def tmHnd (t : BitVec 1024) : Nat := tmF t 6 1
/-- Count i. -/
def tmCnt (t : BitVec 1024) (i : Nat) : Nat := tmF t (0x30 + 4 * i) 4
/-- Source stride i. -/
def tmSstr (t : BitVec 1024) (i : Nat) : Int := signedOf 32 (tmF t (0x48 + 4 * i) 4)
/-- Destination stride i. -/
def tmDstr (t : BitVec 1024) (i : Nat) : Int := signedOf 32 (tmF t (0x60 + 4 * i) 4)
/-- The peer mask: bit L is logical array L. -/
def tmPeers (t : BitVec 1024) : Nat := tmF t 0x18 12
/-- The semaphore name. -/
def tmName (t : BitVec 1024) : W16 := BitVec.ofNat 16 (tmF t 0x24 2)

/-- The template's fields are in range and its zero fields zero (R199). -/
def tmOk (t : BitVec 1024) : Bool :=
  tmSsp t ≤ 2 && tmDsp t ≤ 3 && tmEsz t ≤ 3 && tmF t 3 1 < 4 && tmF t 4 1 < 32 && tmF t 5 1 < 32 &&
    (tmHnd t < 128 || tmHnd t = 0xFF) && tmF t 0x26 2 = 0 && tmF t 0x44 4 = 0 && tmF t 0x5C 4 = 0 &&
    tmF t 0x74 12 = 0 && (List.range 5).all (fun i => 1 ≤ tmCnt t i && tmCnt t i ≤ 2 ^ 24) &&
    (tmEsz t ≠ 0 || (tmCnt t 0 % 2 = 0 && (!tmXpose t || tmCnt t 1 % 2 = 0))) &&
    (tmDsp t = 3 || tmPeers t = 0)

/-- Bytes of `n` elements in a row (R198). -/
def rowBytes (t : BitVec 1024) (n : Nat) : Nat := if tmEsz t = 0 then n / 2 else n * 2 ^ (tmEsz t - 1)

/-- The base of a footprint, and its extent, from a base and the strides it takes (R189, R199). -/
def footprint (base : W64) (terms : List (Nat × Int)) (row : Nat) : Int × Int :=
  let lo := terms.foldl (fun (x : Int) p => x + min 0 (((p.1 : Int) - 1) * p.2)) (base.toNat : Int)
  let hi := terms.foldl (fun (x : Int) p => x + max 0 (((p.1 : Int) - 1) * p.2)) (base.toNat : Int)
  (lo, hi + row)

/-- The source footprint of a channel. -/
def srcFoot (t : BitVec 1024) (sreg : W64) : Int × Int :=
  footprint (BitVec.ofNat 64 (tmF t 8 8) + sreg)
    ((List.range 4).map (fun i => (tmCnt t (i + 1), tmSstr t (i + 1)))) (rowBytes t (tmCnt t 0))

/-- The destination footprint of a channel. -/
def dstFoot (t : BitVec 1024) (dreg : W64) : Int × Int :=
  let c1 := if tmXpose t then tmCnt t 0 else tmCnt t 1
  let n := if tmXpose t then tmCnt t 1 else tmCnt t 0
  footprint (BitVec.ofNat 64 (tmF t 0x10 8) + dreg)
    ((c1, tmDstr t 1) :: (List.range 3).map (fun i => (tmCnt t (i + 2), tmDstr t (i + 2))))
    (rowBytes t n)

/-- A footprint lies in a space of 4 MiB. -/
def footIn (f : Int × Int) : Bool := 0 ≤ f.1 && f.2 ≤ (spadSize : Int)

/-- The gang of a logical array of a node (R120). -/
def gangOf (nd : NodeS) (l : Nat) : Option Gang :=
  nd.gangs.find? (fun g => decide (g.first ≤ l) && decide (l < g.first + g.count))

/-- The logical arrays of the issuing array's gang. -/
def gangMembers (s : State) (a : ArrayS) : List Nat :=
  match a.node with
  | none => []
  | some n =>
    match nodeOf s n with
    | none => []
    | some nd =>
      match gangOf nd a.logical with
      | some g => (List.range g.count).map (fun i => g.first + i)
      | none => []

/-- The translation of a memory footprint (R199, R210): outside the 40 bits it is REGION. -/
def xlateFoot (s : State) (f : Int × Int) (k : AccK) : XRes :=
  if f.1 < 0 then .bad .region 0x3FFF
  else xlateHere s f.1.toNat (f.2 - f.1).toNat k

/-- A key slot revoked under a memory source (R199). -/
def revokedSrc (s : State) (x : XRes) : XRes :=
  match x with
  | .ok n r off => if keyRevoked s (partOfArr s s.cur.phys) r.slot then .bad .keyrev n else .ok n r off
  | y => y

/-- What ST.A's checks find (R199): none, or the trap with its region and handle; handles are seen as they stood
at the start of the issue cycle (R235). -/
def copyCheck (s : State) (t : BitVec 1024) (sreg dreg : W64) (nosem : Bool) :
    Option (Cause × Nat × Nat) :=
  let a := here s
  let sf := srcFoot t sreg
  let df := dstFoot t dreg
  let sx := if tmSsp t = 0 then revokedSrc s (xlateFoot s sf .rd) else .ok 0x3FFF {} 0
  let dx := if tmDsp t = 0 then xlateFoot s df .wr else .ok 0x3FFF {} 0
  let members := gangMembers s a
  let peersOk := (List.range 96).all (fun l => !(tmPeers t).testBit l || members.contains l)
  let bad (c : Cause) : Option Nat :=
    match sx, dx with
    | .bad d n, _ => if d = c then some n else match dx with
      | .bad e m => if e = c then some m else none
      | _ => none
    | _, .bad e m => if e = c then some m else none
    | _, _ => none
  if !tmOk t || (tmSsp t ≠ 0 && !footIn sf) || (tmDsp t ≠ 0 && !footIn df) || !peersOk then
    some (.region, 0x3FFF, 0)
  else
    match [Cause.region, .foreign, .keyexh, .keyrev].findSome? (fun c => (bad c).map (fun n => (c, n))) with
    | some (c, n) => some (c, n, 0)
    | none =>
      let h := tabGet a.handles0 {} (tmHnd t)
      if (tmDsp t = 1 || tmDsp t = 2) && tmHnd t ≠ 0xFF &&
          (h.kind ≠ tmDsp t || df.1 < (h.base : Int) || ((h.base + h.len : Nat) : Int) < df.2) then
        some (.hstate, 0x3FFF, tmHnd t)
      else if tmSem t && !nosem && !semNameOk s (partOfArr s s.cur.phys) (tmName t) then
        some (.semname, 0x3FFF, 0)
      else none

/-- The detail of a trap of ST.A: path P-CP and the channel, the handle, or the name (R227). -/
def copyDetail (c : Cause) (ch h : Nat) (t : BitVec 1024) : W64 :=
  match c with
  | .region => BitVec.ofNat 64 (2 + 256 * ch)
  | .foreign => pathDetail 2
  | .keyrev | .keyexh => BitVec.ofNat 64 (256 * ch)
  | .hstate => BitVec.ofNat 64 h
  | _ => (tmName t).setWidth 64

/-- ST.A (R196, R199, R308): the template and the values of SREG and DREG are copied into the channel. -/
def execSStA (b : BitVec 5) (ap : BitVec 16) (s : State) : Host.Outcome State Fault Refusal :=
  .next (withRegsS s .s [b] (
    let a := here s
    let v := sVal a b
    let o := ap.toNat
    let ch := o / 16 % 16
    if o < 0x1000 || 0x1100 ≤ o || o % 16 ≠ 0 then faultS s .s .region (pathDetail 2) 0x3FFF
    else if bitsN v 7 57 ≠ 0 then faultS s .s .region (BitVec.ofNat 64 (2 + 256 * ch)) 0x3FFF
    else
      let t := tabGet a.tmpl 0 (bitsN v 0 6)
      let rs : List (BitVec 5) := [BitVec.ofNat 5 (tmF t 4 1), BitVec.ofNat 5 (tmF t 5 1)]
      withRegsS s .s rs (
        let sreg := sVal a (BitVec.ofNat 5 (tmF t 4 1))
        let dreg := sVal a (BitVec.ofNat 5 (tmF t 5 1))
        let nosem := bitB v 6
        match copyCheck s t sreg dreg nosem with
        | some (c, n, h) => faultS s .s c (copyDetail c ch h t) n
        | none =>
          let c : ChanS :=
            { tmpl := t, sreg := sreg, dreg := dreg, nosem := nosem, pos := 0, stop := false, after := a.ldFence }
          onArr s (fun a => { a with chans := tabSet a.chans ch c }))))

-- Moving the bytes (R198, R200)

/-- The units a channel moves: bytes for 4-bit elements, else elements. -/
def chUnit (t : BitVec 1024) : Nat := if tmEsz t = 0 then 1 else 2 ^ (tmEsz t - 1)

/-- The counts of the loops over units, innermost first: with 4-bit elements the row of the destination
is counted in bytes. -/
def chCounts (t : BitVec 1024) : List Nat :=
  let c (i : Nat) : Nat := tmCnt t i
  if tmEsz t ≠ 0 then (List.range 5).map c
  else if tmXpose t then [c 0, c 1 / 2, c 2, c 3, c 4] else [c 0 / 2, c 1, c 2, c 3, c 4]

/-- Units of a channel in all. -/
def chTotal (t : BitVec 1024) : Nat := (chCounts t).foldl (· * ·) 1

/-- The loop indices of unit k. -/
def chIndex (t : BitVec 1024) (k : Nat) : List Nat :=
  ((chCounts t).foldl (fun (x : List Nat × Nat) c => (x.1 ++ [x.2 % c], x.2 / c)) ([], k)).1

/-- A base plus strided indices. -/
def strided (base : W64) (terms : List (Nat × Int)) : Nat :=
  (terms.foldl (fun (x : Int) p => x + (p.1 : Int) * p.2) (base.toNat : Int)).toNat

/-- The source byte address of element i0 of row i1 (R198), before the step within the row. -/
def chSrcRow (c : ChanS) (i1 i2 i3 i4 : Nat) : Nat :=
  let t := c.tmpl
  strided (BitVec.ofNat 64 (tmF t 8 8) + c.sreg)
    [(i1, tmSstr t 1), (i2, tmSstr t 2), (i3, tmSstr t 3), (i4, tmSstr t 4)]

/-- The destination byte address of unit k (R198). -/
def chDst (c : ChanS) (k : Nat) : Nat :=
  let t := c.tmpl
  let ix := chIndex t k
  let i (n : Nat) : Nat := listGet ix 0 n
  let base := BitVec.ofNat 64 (tmF t 0x10 8) + c.dreg
  let row := if tmXpose t then i 0 else i 1
  let n := if tmXpose t then i 1 else i 0
  strided base [(row, tmDstr t 1), (i 2, tmDstr t 2), (i 3, tmDstr t 3), (i 4, tmDstr t 4)]
    + n * chUnit t

/-- Bytes with a mark on each. -/
abbrev MkBytes := List Byte × List Bool

/-- Some byte is marked. -/
def MkBytes.bad (x : MkBytes) : Bool := x.2.any id

/-- `n` marked bytes of zeros. -/
def badBytes (n : Nat) : MkBytes := (List.replicate n 0, List.replicate n true)

/-- Bytes of memory as an array sees them: its own egress cache before the home slice, each byte with the mark
of its poisoned or revoked line (R85, R214). -/
def ownRead (s : State) (p : Nat) (r : Region) (off n rc : Nat) : State × MkBytes :=
  let a := arrOf s p
  let (s, v) := regRead s (bhOfArr p) r off n a.node rc
  let see (i : Nat) : Option (Byte × Bool) :=
    let (d, m, pois) := egSee a (egKey r (off + i))
    let b := (off + i) % 64
    if m.getLsbD b then some (d.extractLsb' (8 * b) 8, pois) else none
  (s, (List.range n).map (fun i => match see i with | some x => x.1 | none => listGet v.bytes 0 i),
    (List.range n).map (fun i => match see i with | some x => x.2 | none => listGet v.marks false i))

/-- Bytes read by the copy engine of array p: from memory, its scratchpad or its operand store (R197, R198,
R200, R399). -/
def chRead (s : State) (p : Nat) (t : BitVec 1024) (addr n : Nat) : State × MkBytes :=
  let a := arrOf s p
  match tmSsp t with
  | 0 =>
    let s := rcUse s p addr
    match xlateArr s p addr n .rd with
    | .bad _ _ => (s, badBytes n)
    | .ok _ r off => ownRead s p r off n (tmF t 7 1)
  | 1 => (s, leBytes n (memNat a.spad addr n), spMarks a addr n)
  | _ =>
    let l := (List.range n).map (fun i => osRead a (addr + i))
    (s, l.map (fun x => x.1), l.map (fun x => x.2))

/-- A full poisoned line over each line that bytes of a memory destination touch (R85, R200). -/
def arrPoison (s : State) (p num off n : Nat) (r : Region) (cls : Nat) : State :=
  (paLines off n).foldl (fun s l => arrWrite s p num (64 * l) r (List.replicate 64 0) true cls) s

/-- Count bytes that the copy engine writes at an address in the handle named, where they lie in its range
(R194). -/
def hArrive (a : ArrayS) (h kind addr n : Nat) : ArrayS :=
  if h = 0xFF then a
  else
    let x := tabGet a.handles {} h
    if x.kind = kind && x.base ≤ addr && addr + n ≤ x.base + x.len then
      { a with handles := tabSet a.handles h (hSettle { x with arr := x.arr + n }) }
    else a

/-- Count bytes that the copy engine writes in an ac at the array they reach (R194, R200). A peer's handle that does not
take them has an HSTATE trap noted, and counts nothing. -/
def asyCount (p : Nat) (a : ArrayS) (w : AsyW) : ArrayS :=
  let n := w.bytes.length
  if w.hnd = 0xFF then a
  else if w.src.1 = p then hArrive a w.hnd (if w.os then 2 else 1) w.addr n
  else
    let y := tabGet a.handles {} w.hnd
    if (y.st = .filling || y.st = .full) && y.kind = 1 && y.base ≤ w.addr && w.addr + n ≤ y.base + y.len then
      hArrive a w.hnd 1 w.addr n
    else noteAsync a .hstate (BitVec.ofNat 64 w.hnd) 0x3FFF

/-- Bytes reach the asynchronous ports of array p: a bank's port takes them in this ac, when they are counted, if it has
not moved its line; else they wait for it (R181, R185, R194). -/
def asyPut (p : Nat) (a : ArrayS) (w : AsyW) : ArrayS :=
  let b := w.addr / 64 % 32
  if !w.os && a.asyUsed.contains b then { a with asy := a.asy ++ [{ w with go := false }] }
  else
    asyCount p { a with asyUsed := if w.os then a.asyUsed else setInsert a.asyUsed b,
                        asy := a.asy ++ [{ w with go := true }] } w

/-- Operand-store bytes in pieces of one 16-byte slot each (R179, R399). -/
def osWrite (a : ArrayS) (addr : Nat) (x : MkBytes) : ArrayS :=
  (List.range ((addr % 16 + x.1.length + 15) / 16)).foldl (fun a i =>
    let lo := max addr (16 * (addr / 16 + i))
    let hi := min (addr + x.1.length) (16 * (addr / 16 + i) + 16)
    osWriteSlot a lo ((x.1.drop (lo - addr)).take (hi - lo))
      (((x.2.drop (lo - addr)).take (hi - lo)).any id)) a

/-- One write by the asynchronous port (R185). -/
def asyWrite (a : ArrayS) (w : AsyW) : ArrayS :=
  if w.os then osWrite a w.addr (w.bytes, w.marks) else spWriteMk a w.addr w.bytes w.marks

/-- Entries of the asynchronous ports in the order in which they are served: local channels, then peers in the order of
arrival (R185). -/
def asyOrder (p : Nat) (l : List AsyW) : List AsyW :=
  l.filter (fun w => w.src.1 = p) ++ l.filter (fun w => w.src.1 ≠ p)

/-- The writes that the asynchronous ports have taken, made at the end of the ac (R185). -/
def asyFlush (p : Nat) (a : ArrayS) : ArrayS :=
  if a.asy.isEmpty then a
  else
    (asyOrder p (a.asy.filter (fun w => w.go))).foldl asyWrite { a with asy := a.asy.filter (fun w => !w.go) }

/-- The asynchronous ports begin an ac with what has waited for them (R181, R185). -/
def asyBegin (p : Nat) (a : ArrayS) : ArrayS :=
  (asyOrder p a.asy).foldl (asyPut p) { a with asy := [], asyUsed := [] }

/-- The physical array of a node's logical array. -/
def physOf (s : State) (n : Option NodeId) (l : Nat) : Option Nat :=
  (s.arrs.find? (fun x => x.2.node.isSome && x.2.node == n && x.2.logical == l)).map (fun x => x.1)

/-- Change a channel. -/
def modChan (s : State) (p ch : Nat) (f : ChanS → ChanS) : State :=
  modArr s p (fun a => { a with chans := a.chans.map (fun x => if x.1 = ch then (x.1, f x.2) else x) })

/-- Bytes written by the copy engine of array p at its destination; a trap of a revoked or read-only
destination stops it (R200). -/
def chWrite (s : State) (p ch : Nat) (t : BitVec 1024) (addr : Nat) (x : MkBytes) : State :=
  let a := arrOf s p
  let n := x.1.length
  let piece (os : Bool) : AsyW :=
    { os := os, addr := addr, bytes := x.1, marks := x.2, src := (p, ch), hnd := tmHnd t, go := false }
  match tmDsp t with
  | 0 =>
    let s := rcUse s p addr
    match xlateArr s p addr n .wr with
    | .bad c num =>
      modArr (modChan s p ch (fun y => { y with stop := true })) p (fun a =>
        noteAsync a c (copyDetail c ch 0 t) num)
    | .ok num r off => if x.bad then arrPoison s p num off n r 2 else arrWrite s p num off r x.1 false 2
  | 1 => modArr s p (fun a => asyPut p a (piece false))
  | 2 => modArr s p (fun a => asyPut p a (piece true))
  | _ =>
    (List.range 96).foldl (fun s l =>
      if (tmPeers t).testBit l then
        match physOf s a.node l with
        | some q => modArr s q (fun y => asyPut q y (piece false))
        | none => s
      else s) s

/-- The source bytes of unit k (R198): a byte of a transposed 4-bit copy takes one nibble from each of two
rows. -/
def unitRead (s : State) (p : Nat) (c : ChanS) (k : Nat) : State × MkBytes :=
  let t := c.tmpl
  let ix := chIndex t k
  let i (n : Nat) : Nat := listGet ix 0 n
  if tmEsz t = 0 && tmXpose t then
    let nib (s : State) (i1 : Nat) : State × Nat × Bool :=
      let (s, x) := chRead s p t (chSrcRow c i1 (i 2) (i 3) (i 4) + i 0 / 2) 1
      (s, (listGet x.1 0 0).toNat / 16 ^ (i 0 % 2) % 16, x.bad)
    let (s, lo, b1) := nib s (2 * i 1)
    let (s, hi, b2) := nib s (2 * i 1 + 1)
    (s, [BitVec.ofNat 8 (lo + 16 * hi)], [b1 || b2])
  else chRead s p t (chSrcRow c (i 1) (i 2) (i 3) (i 4) + i 0 * chUnit t) (chUnit t)

/-- How many units the next line of a channel holds: without XPOSE the rest of the row within one 64-byte
line of the destination; with XPOSE one unit. -/
def chRun (c : ChanS) : Nat :=
  let t := c.tmpl
  let u := chUnit t
  if tmXpose t then 1
  else
    let c0 := listGet (chCounts t) 1 0
    max 1 (min (c0 - c.pos % c0) ((64 - chDst c c.pos % 64) / u))

/-- The virtual address that a channel's next line takes from memory or writes to it, if any. -/
def chMemVa (c : ChanS) : List Nat :=
  let t := c.tmpl
  let ix := chIndex t c.pos
  let i (n : Nat) : Nat := listGet ix 0 n
  (if tmSsp t = 0 then [chSrcRow c (i 1) (i 2) (i 3) (i 4) + i 0 * chUnit t] else []) ++
    (if tmDsp t = 0 then [chDst c c.pos] else [])

/-- The scratchpad banks that a channel's next line is read from (R181, R185). -/
def chBanks (c : ChanS) : List Nat :=
  let t := c.tmpl
  let ix := chIndex t c.pos
  let i (n : Nat) : Nat := listGet ix 0 n
  if tmSsp t ≠ 1 then []
  else
    let run := chRun c
    let rows : List (Nat × Nat) :=
      if tmEsz t = 0 && tmXpose t then
        [2 * i 1, 2 * i 1 + 1].map (fun r => (chSrcRow c r (i 2) (i 3) (i 4) + i 0 / 2, 1))
      else [(chSrcRow c (i 1) (i 2) (i 3) (i 4) + i 0 * chUnit t, run * chUnit t)]
    (rows.flatMap (fun x => linesOf x.1 x.2)).map (fun l => l % 32)

/-- An OSW of a bundle issued before TT `n` is still on its way through the rows of the array (R347). -/
def oswBefore (a : ArrayS) (n : Nat) : Bool :=
  (a.pipe ++ a.inq).any (fun x =>
    match x with
    | some e => decide (e.tt < n) && (match e.ins with | .cOsw _ => true | _ => false)
    | none => false)

/-- A channel that reads the operand store waits for the OSW that a fence has put before it (R218, R347). -/
def chFenced (a : ArrayS) (c : ChanS) : Bool :=
  tmSsp c.tmpl = 2 && (match c.after with | some n => oswBefore a n | none => false)

/-- One line of a channel moved (R198, R200): reads first, then the write. An access to a region whose release is
pending waits (R215). -/
def channelLine (s : State) (p ch : Nat) : State :=
  match tabFind (arrOf s p).chans ch with
  | none => s
  | some c0 =>
    let s := modChan s p ch (fun x => { x with sent := false })
    let c := { c0 with sent := false }
    let t := c.tmpl
    let a := arrOf s p
    if c.stop || chTotal t ≤ c.pos || (tmDsp t = 0 && egFull a) || chFenced a c ||
        (chMemVa c).any (releaseWait s (partOfArr s p) a.logical (some p)) then s
    else
      let n := chRun c
      let (s, x) :=
        if n = 1 then unitRead s p c c.pos
        else
          let ix := chIndex t c.pos
          let i (n : Nat) : Nat := listGet ix 0 n
          chRead s p t (chSrcRow c (i 1) (i 2) (i 3) (i 4) + i 0 * chUnit t) (n * chUnit t)
      let s := modChan s p ch (fun x => { x with pos := c.pos + n })
      let s := chWrite s p ch t (chDst c c.pos) x
      if chTotal t ≤ c.pos + n && tmDsp t = 0 then
        let (m, a) := placeMarker (arrOf s p)
        modChan (setArr s p a) p ch (fun x => { x with mark := some m })
      else s

/-- Bytes of a channel of array p wait for the asynchronous port of a bank, or are written at the end of this ac. -/
def chUnwritten (s : State) (p ch : Nat) : Bool := s.arrs.any (fun x => x.2.asy.any (fun w => w.src == (p, ch)))

/-- A channel of array p has written its last byte and the writes are visible (R114, R200). -/
def channelDone (s : State) (p ch : Nat) (c : ChanS) : Bool :=
  c.stop || (decide (chTotal c.tmpl ≤ c.pos) && !chUnwritten s p ch &&
    match c.mark with | some m => markerPassed (arrOf s p) m | none => true)

/-- The channel's completion: it is free again, and unless it was stopped or NOSEM is set, the semaphore add
is performed (R200). -/
def channelComplete (s : State) (p ch : Nat) : State :=
  match tabFind (arrOf s p).chans ch with
  | none => s
  | some c =>
    if !channelDone s p ch c then s
    else
      let s := modArr s p (fun a => { a with chans := tabErase a.chans ch })
      if c.stop || c.nosem || !tmSem c.tmpl then s
      else semSend s (bhOfArr p) (partOfArr s p) .add (tmName c.tmpl) (BitVec.ofNat 64 (tmF c.tmpl 0x28 8))

end Sys2Proof.Machine
end

