-- ==== Sys2Proof/Machine/Mpe.lean ====
section
/-! DEFINITION. The message-passing engine (R201 to R206, R311). -/
namespace Sys2Proof.Machine
open Sys2Proof

/-- What an engine of an array reads from memory: the bytes, whether they are poisoned or under a revoked
slot, and the trap of a refused access with its region. -/
structure ARead where
  bytes : List Byte := []
  bad   : Bool := false
  err   : Option (Cause × Nat) := none
  deriving DecidableEq, Repr

/-- `n` bytes of memory read by an engine of array p, through its egress cache (R85, R214). -/
def arrRead (s : State) (p va n : Nat) : State × ARead :=
  let s := rcUse s p va
  match xlateArr s p va n .rd with
  | .bad c num => (s, { err := some (c, num) })
  | .ok _ r off =>
    let (s, x) := ownRead s p r off n 0
    (s, { bytes := x.1, bad := x.bad })

/-- `n` bytes of memory written by the message-passing engine of array p, whose lines leave in class C0 with its
gathers (R63); answers the trap of a refused access. -/
def arrPut (s : State) (p va : Nat) (bs : List Byte) : State × Option (Cause × Nat) :=
  let s := rcUse s p va
  match xlateArr s p va bs.length .wr with
  | .bad c num => (s, some (c, num))
  | .ok num r off => (arrWrite s p num off r bs false 0, none)

/-- Field of a message-passing descriptor (R201). -/
def mdF (d : BitVec 1024) (o n : Nat) : Nat := bitsN d (8 * o) (8 * n)

/-- The fields of a descriptor (R201) as a step that starts at `t0`. -/
def mpeOf (d : BitVec 1024) (t0 : Nat) (packet : Bool) : MpeS :=
  { edges := mdF d 0 8, eCount := mdF d 8 4, sBase := mdF d 0x10 8, sStr := mdF d 0x18 4,
    fs := mdF d 0x1C 4, dBase := mdF d 0x20 8, dStr := mdF d 0x28 4, fd := mdF d 0x2C 4,
    oBase := mdF d 0x30 8, oStr := mdF d 0x38 4, doff := mdF d 0x3C 2,
    cin := bitB d 0x1F0, cont := bitB d 0x1F1, carry := mdF d 0x40 8, stg := mdF d 0x48 4,
    dstart := mdF d 0x4C 2, p := mdF d 0x4E 2, t0 := t0, packet := packet,
    buf := [], cval := false, cdst := 0 }

/-- Blocks of 64 edges (R202). -/
def mpeB (m : MpeS) : Nat := (m.eCount + 63) / 64
/-- Feature words of a row (R202). -/
def mpeW (m : MpeS) : Nat := (m.fs + m.fd) / 4
/-- Block starts (R203). -/
def mpeSb (m : MpeS) (b : Nat) : Nat := m.t0 + 513 + b * m.p

/-- The bundle's C slot is a segmented DRN that takes the carry-in, selects ym3 and takes its segment bits
from ym2 (R202). -/
def mpeDrnOk (b : BundleBits) : Bool :=
  match slotInstr (slotBits b) .c with
  | .cDrn f => drnOp f = 6 && bitB f.spec 10 && f.ys = 3 && bitsN f.spec 8 2 = 2
  | _ => false

/-- Everything R202 asks of a descriptor. `bundle` is the dictionary bundle DSTART + DOFF, `slots` says that
landing slots 16 to 31 are free, and `reach` tells whether the owner may access the carry location. -/
def mpeOk (d : BitVec 1024) (bundle : Option BundleBits) (slots : Bool) (reach : AccK → Bool) : Bool :=
  let m := mpeOf d 0 false
  let f := (512 + m.p - 1) / m.p + 1
  1 ≤ m.eCount && m.eCount ≤ 2 ^ 31 && mdF d 0x0C 4 = 0 && m.sStr % 64 = 0 &&
    m.fs % 64 = 0 && 64 ≤ m.fs && m.fs ≤ 1024 && m.dStr % 64 = 0 && m.fd % 64 = 0 && m.fd ≤ 1024 &&
    m.oStr % 256 = 0 && mdF d 0x3E 2 < 4 && m.carry % 64 = 0 && m.stg % 64 = 0 && bitsN d 0x280 384 = 0 &&
    m.dstart + m.p ≤ 8192 && 64 ≤ m.p && mpeW m ≤ m.p && m.doff < m.p &&
    m.stg + 128 * (m.fs + m.fd) ≤ spadSize && f * 64 * (m.fs + m.fd) ≤ 65536 && slots &&
    (!m.cin || reach .rd) && (!m.cont || reach .wr) &&
    (match bundle with | some b => mpeDrnOk b | none => false)

/-- A range as pieces within one line: address and bytes. -/
def linePieces (va n : Nat) : List (Nat × Nat) :=
  (paLines va n).map (fun k => (max va (64 * k), min (va + n) (64 * k + 64) - max va (64 * k)))

/-- The pieces in which the records of block b are read (R201, R204). -/
def mpeRecPieces (m : MpeS) (b : Nat) : List (Nat × Nat) :=
  if mpeB m ≤ b then [] else linePieces (m.edges + 512 * b) (8 * min 64 (m.eCount - 64 * b))

/-- The buffers of the step of an array, or of the one that is to start, changed. -/
def modMpe (f : MpeS → MpeS) (a : ArrayS) : ArrayS := { a with mpe := a.mpe.map f, ahead := a.ahead.map f }

/-- The records of block b, each with its trap, from the lines that have come; none while one is still to come
(R204). -/
def mpeRecords (m : MpeS) (b : Nat) : Option (List EdgeRec) :=
  let ps := (mpeRecPieces m b).zipIdx
  if !ps.all (fun x => (tabFind m.recs (16 * b + x.2)).isSome || (tabFind m.recBad (16 * b + x.2)).isSome) then none
  else
    let bytes : List (Byte × Bool × Option (Cause × Nat)) := ps.flatMap (fun x =>
      let k := 16 * b + x.2
      let (d, mk) := tabGet m.recs (0, 0) k
      (List.range x.1.2).map (fun i =>
        let j := x.1.1 % 64 + i
        (d.extractLsb' (8 * j) 8, mk.getLsbD j, tabFind m.recBad k)))
    some ((List.range (min 64 (m.eCount - 64 * b))).map (fun r =>
      let bs := (bytes.drop (8 * r)).take 8
      let x := leNat (bs.map (fun y => y.1))
      { src := natBits x 0 32, dst := natBits x 32 32
        bad := match bs.findSome? (fun y => y.2.2) with
          | some z => some z
          | none => if bs.any (fun y => y.2.1) then some (.poison, 0x3FFF) else none }))

/-- The records of block b join the edge buffer once every line of them has come (R204). -/
def mpeFill (b : Nat) (m : MpeS) : MpeS :=
  match mpeRecords m b with
  | none => m
  | some l => { m with buf := tabSet m.buf b l, recs := m.recs.filter (fun x => x.1 / 16 ≠ b)
                       recBad := m.recBad.filter (fun x => x.1 / 16 ≠ b) }

/-- A line of array p is asked for by the engine, in class C0, and comes under a slot of the engine's (R63, R204). -/
def mpeAsk (s : State) (p slot key off : Nat) (r : Region) : State :=
  sendRead s p 0 r off 0 (.land p (arrOf s p).epoch slot key)

/-- Ask for the records of block b (R204). An address that no region allows is noted with its record. -/
def mpeEdges (s : State) (p b : Nat) : State :=
  match (arrOf s p).mpe <|> (arrOf s p).ahead with
  | none => s
  | some m =>
    let s := ((mpeRecPieces m b).zipIdx).foldl (fun s x =>
      let k := 16 * b + x.2
      let s := rcUse s p x.1.1
      match xlateArr s p x.1.1 x.1.2 .rd with
      | .bad c n => modArr s p (modMpe (fun m => { m with recBad := tabSet m.recBad k (c, n) }))
      | .ok _ r off =>
        let ov := egSee (arrOf s p) (egKey r off)
        mpeAsk (modArr s p (modMpe (fun m => { m with recOv := tabSet m.recOv k ov }))) p 33 k off r) s
    modArr s p (modMpe (fun m => if mpeB m ≤ b then m else mpeFill b m))

/-- The records of the first min(4, B) blocks are in the edge buffer (R201, R204, R311). -/
def mpeFirst (m : MpeS) : Bool := (List.range (min 4 (mpeB m))).all (fun b => (tabFind m.buf b).isSome)

/-- Ask for the first records of a step that is to start (R201, R311). -/
def mpeAhead (s : State) (p : Nat) (m : MpeS) : State :=
  (List.range 4).foldl (fun s b => mpeEdges s p b) (modArr s p (fun a => { a with ahead := some m }))

/-- Start a step with the edge records that have been read ahead; without them they are asked for now (R201, R204,
R311). -/
def mpeStart (s : State) (p : Nat) (m : MpeS) : State :=
  let a := arrOf s p
  let go (m : MpeS) : State :=
    setArr s p { a with mpe := some m, ahead := none, nextPc := nextOf a, jumped := true }
  match a.ahead with
  | some x =>
    if x.edges = m.edges && x.eCount = m.eCount then
      go { m with buf := x.buf, recs := x.recs, recOv := x.recOv, recBad := x.recBad }
    else (List.range 4).foldl (fun s b => mpeEdges s p b) (go m)
  | none => (List.range 4).foldl (fun s b => mpeEdges s p b) (go m)

/-- MPASS (R311): the descriptor read on P-MP and checked under R202. -/
def execSMpass (a : BitVec 5) (s : State) : Host.Outcome State Fault Refusal :=
  .next (
    let h := here s
    let p := s.cur.phys
    if h.mpe.isSome then onArr s (fun x => raiseIll x .s)
    else
      withRegsS s .s [a] (
        let va := (sVal h a).toNat
        if va % 128 ≠ 0 then faultS s .s .region (pathDetail 4) 0x3FFF
        else
          let (s, r) := arrRead s p va 128
          match r.err with
          | some (c, n) => faultS s .s c (xDetail c 4) n
          | none =>
            if r.bad then faultS s .s .poison 0 0x3FFF
            else
              let d := BitVec.ofNat 1024 (leNat r.bytes)
              let m := mpeOf d h.tt false
              let reach (k : AccK) : Bool :=
                match xlateArr s p m.carry 320 k with | .ok _ _ _ => true | .bad _ _ => false
              let slots := bitsN h.busy0 16 16 == 0
              if mpeOk d (tabFind h.dict (m.dstart + m.doff)) slots reach then mpeStart s p m
              else faultS s .s .region (pathDetail 4) 0x3FFF))

/-- A trap of a step: taken in this issue cycle, before its bundle issues (R204, R205). -/
def mpeTrap (s : State) (p : Nat) (c : Cause) (detail : W64) (num : Nat) : State :=
  modArr s p (fun a => { takeAsync a c detail num with stepTrap := true })

/-- The carry record of a step under CIN, read at t0 + 1 (R205). -/
def mpeCarry (s : State) (p : Nat) (m : MpeS) : State :=
  let (s, r) := arrRead s p m.carry 320
  match r.err with
  | some (c, n) => mpeTrap s p c (xDetail c 4) n
  | none =>
    if r.bad then mpeTrap s p .poison 0 0x3FFF
    else
      let w (o : Nat) : Nat := leNat ((r.bytes.drop o).take 8)
      if w 264 ≠ 1 then s
      else
        let lanes := (List.range 64).map (fun c =>
          (c, BitVec.ofNat 32 (leNat ((r.bytes.drop (4 * c)).take 4))))
        modArr s p (fun a =>
          { a with mpe := a.mpe.map (fun m => { m with cval := true, cdst := w 256 })
                   latchIn := lanes })

/-- The addresses of the lines of one row: its source features and then its destination features (R204). -/
def mpeLines (m : MpeS) (e : EdgeRec) : List Nat :=
  (List.range (m.fs / 64)).map (fun i => m.sBase + e.src * m.sStr + 64 * i) ++
    (List.range (m.fd / 64)).map (fun i => m.dBase + e.dst * m.dStr + 64 * i)

/-- The lines of a block's rows, each with its key and its address (R204). -/
def mpeBlockLines (m : MpeS) (b : Nat) (es : List EdgeRec) : List (Nat × Nat) :=
  es.zipIdx.flatMap (fun e => (mpeLines m e.1).zipIdx.map (fun l => (32 * (64 * b + e.2) + l.2, l.1)))

/-- The request of block b's features (R204): a bad record or an address outside every region traps; else each line is asked
for, and the records of block b + 4 after them. -/
def mpeGather (s : State) (p b : Nat) : State :=
  match (arrOf s p).mpe with
  | none => s
  | some m =>
    let es := tabGet m.buf [] b
    let ls := mpeBlockLines m b es
    let see (va : Nat) : Option (Cause × Nat) :=
      match xlateArr s p va 64 .rd with | .bad c n => some (c, n) | .ok _ _ _ => none
    match es.findSome? (fun e => e.bad), ls.findSome? (fun l => see l.2) with
    | some (c, n), _ => mpeTrap s p c (if c = .poison then 7 else xDetail c 4) n
    | none, some (c, n) => mpeTrap s p c (xDetail c 4) n
    | none, none =>
      let s := ls.foldl (fun s l =>
        let s := rcUse s p l.2
        match xlateArr s p l.2 64 .rd with
        | .bad _ _ => s
        | .ok _ r off =>
          let ov := egSee (arrOf s p) (egKey r off)
          mpeAsk (modArr s p (modMpe (fun m => { m with featOv := tabSet m.featOv l.1 ov }))) p 32 l.1 off r) s
      mpeEdges s p (b + 4)

/-- The block whose features are requested in issue cycle t, if any (R204). -/
def mpeAsks (m : MpeS) (t : Nat) : Option Nat :=
  let b := (t - (m.t0 + 1)) / m.p
  if m.t0 + 1 ≤ t && (t - (m.t0 + 1)) % m.p = 0 && b < mpeB m then some b else none

/-- What the engine does in an issue cycle before its bundle issues (R204, R205): carry, requests, masks,
and the carry's entry into DLAT before the block-0 DRN. -/
def mpePre (s : State) (p : Nat) : State :=
  let a := arrOf s p
  match a.mpe with
  | none => s
  | some m =>
    let t := a.tt
    let s := if m.cin && t = m.t0 + 1 then mpeCarry s p m else s
    let s := match mpeAsks m t with
      | some b => if (arrOf s p).cond ≠ .held then mpeGather s p b else s
      | none => s
    let c := (t - mpeSb m 0) / m.p
    if mpeSb m 0 ≤ t && (t - mpeSb m 0) % m.p = 0 && c < mpeB m && (arrOf s p).cond ≠ .held then
      modArr s p (fun a =>
        let m := a.mpe.getD m
        let es := tabGet m.buf [] c
        let prev := match (tabGet m.buf [] (c - 1)).getLast? with | some e => e.dst | none => 0
        let valid (r : Nat) : Bool := decide (r < es.length)
        let dst (r : Nat) : Nat := match es[r]? with | some e => e.dst | none => 0
        let start (r : Nat) : Bool :=
          if r ≠ 0 then dst r ≠ dst (r - 1)
          else if c ≠ 0 then dst 0 ≠ prev
          else !m.cval || dst 0 ≠ m.cdst
        let a := if c = 0 && m.cval then { a with dlat := a.latchIn, latchIn := [] } else a
        { a with ym := tabSet (tabSet a.ym 3 (ofBits 64 valid)) 2
                   (ofBits 64 (fun r => valid r && start r)) })
    else s

/-- A staging vector: where it goes, its words, how many rows hold an edge, its block and its word. -/
structure StageVec where
  addr  : Nat
  vec   : PortVec
  rows  : Nat
  block : Nat
  word  : Nat
  deriving DecidableEq, Repr

/-- The block and vector whose staging write is due in an array's present issue cycle (R204). -/
def mpeStageAt (a : ArrayS) (m : MpeS) : Option (Nat × Nat) :=
  let x := a.tt + mpeW m
  let b := (x - mpeSb m 0) / m.p
  let j := (x - mpeSb m 0) % m.p
  if mpeSb m 0 ≤ x && b < mpeB m && j < mpeW m then some (b, j) else none

/-- Word w of row r of block b, with its mark, from the line that has come (R204, R399). -/
def mpeWord (m : MpeS) (b r w : Nat) : W32 × Bool :=
  let (d, mk) := tabGet m.feat (0, 0) (32 * (64 * b + r) + w / 16)
  (d.extractLsb' (32 * (w % 16)) 32, bitsN mk (4 * (w % 16)) 4 ≠ 0)

/-- Every row's line with word j of block b has come (R204). -/
def mpeHere (m : MpeS) (b j : Nat) : Bool :=
  (List.range (min 64 (m.eCount - 64 * b))).all (fun r => (tabFind m.feat (32 * (64 * b + r) + j / 16)).isSome)

/-- The staging vector due in an issue cycle (R204). -/
def mpeStaged (a : ArrayS) : Option StageVec :=
  match a.mpe with
  | none => none
  | some m =>
    match mpeStageAt a m with
    | none => none
    | some (b, j) =>
      let n := min 64 (m.eCount - 64 * b)
      if !mpeHere m b j then none
      else some
        { addr := m.stg + 64 * (m.fs + m.fd) * (b % 2) + 256 * j
          vec := pvOf ((List.range 64).map (fun r => if r < n then mpeWord m b r j else (0, false)))
          rows := n, block := b, word := j }

/-- What the engine still lacks for the next issue cycle, which freezes the domain (R168, R204): the records of the block
whose features it requests, or a line of the vector it writes. -/
def mpeLate (a : ArrayS) : Bool :=
  match a.mpe with
  | none => false
  | some m =>
    (match mpeAsks m a.tt with | some b => (tabFind m.buf b).isNone | none => false) ||
      (match mpeStageAt a m with | some (b, j) => !mpeHere m b j | none => false)

/-- Write it (requester 6, R204, R399). -/
def mpeStage (a : ArrayS) : ArrayS :=
  match mpeStaged a with
  | none => a
  | some v =>
    let bs := (List.range v.rows).flatMap (fun r =>
      (List.range 4).map (fun i => (v.addr + 4 * r + i, (pvElem v.vec r).1.extractLsb' (8 * i) 8)))
    let bad := ((List.range v.rows).filter (fun r => (pvElem v.vec r).2)).map (fun r => v.addr / 4 + r)
    let a := spWriteBytes a bs bad
    if v.word % 16 = 15 then
      { a with mpe := a.mpe.map (fun m => { m with
          feat := m.feat.filter (fun x => x.1 / 2048 ≠ v.block || x.1 % 32 ≠ v.word / 16) }) }
    else a

/-- The bytes of 64 lanes. -/
def laneBytes (t : Tab Nat) : List Byte := (List.range 64).flatMap (fun c => leBytes 4 (tabGet t 0 c))

/-- One closed segment written to its vertex (R205). -/
def mpeOut (s : State) (p : Nat) (m : MpeS) (v : Nat) (lanes : Tab Nat) : State :=
  match arrPut s p (m.oBase + v * m.oStr) (laneBytes lanes) with
  | (s, none) => s
  | (s, some (c, n)) =>
    modArr s p (fun a => noteAsync { a with stepTrap := true } c (xDetail c 4) n)

/-- The block of which an entry is the segmented DRN, if it is one of the step (R202, R205). -/
def mpeBlockOf (m : MpeS) (e : PipeE) : Option Nat :=
  let b := (e.tt - mpeSb m 0) / m.p
  if e.tt < mpeSb m 0 || (e.tt - mpeSb m 0) % m.p ≠ m.doff || mpeB m ≤ b then none else some b

/-- The destination vertex of row r of block b. -/
def mpeDst (m : MpeS) (b r : Nat) : Nat :=
  match (tabGet m.buf [] b)[r]? with | some x => x.dst | none => 0

/-- The vertex of the segment that row r of block b closes, if a carry is valid there (R204, R205). -/
def mpePrev (m : MpeS) (b r : Nat) : Option Nat :=
  if r ≠ 0 then some (mpeDst m b (r - 1))
  else if b ≠ 0 then (tabGet m.buf [] (b - 1)).getLast?.map (fun x => x.dst)
  else if m.cval then some m.cdst else none

/-- The vertex of the last edge of block b. -/
def mpeLast (m : MpeS) (b : Nat) : Nat := mpeDst m b ((tabGet m.buf [] b).length - 1)

/-- The taps of a block's DRN that the engine writes: those of rows in which a cell executes (R205). -/
def mpeTaps (e : PipeE) : List (Nat × Tab Nat) := e.taps.filter (fun t => e.tapLive.getLsbD t.1)

/-- The segmented DRN of a block reaches the south edge (R205): its taps, and after the last block the open
segment, are written. -/
def mpeEdge65 (s : State) (p : Nat) (e : PipeE) : State :=
  match (arrOf s p).mpe with
  | none => s
  | some m =>
    match mpeBlockOf m e with
    | none => s
    | some b =>
      let s := (mpeTaps e).foldl (fun s t =>
        match mpePrev m b t.1 with
        | some v => mpeOut s p m v t.2
        | none => s) s
      if b + 1 ≠ mpeB m then
        modArr s p (fun a => { a with mpe := a.mpe.map (fun m =>
          { m with buf := if b = 0 then m.buf else tabErase m.buf (b - 1) }) })
      else if m.cont then
        match arrPut s p m.carry (laneBytes e.lane ++ leBytes 8 (mpeLast m b) ++ leBytes 8 1) with
        | (s, none) => s
        | (s, some (c, n)) =>
          modArr s p (fun a => noteAsync { a with stepTrap := true } c (xDetail c 4) n)
      else mpeOut s p m (mpeLast m b) e.lane

/-- The addresses at which the engine writes when an entry leaves row 63 (R205). -/
def mpeOutVas (m : MpeS) (e : PipeE) : List Nat :=
  match mpeBlockOf m e with
  | none => []
  | some b =>
    ((mpeTaps e).filterMap (fun t => mpePrev m b t.1)).map (fun v => m.oBase + v * m.oStr) ++
      (if b + 1 ≠ mpeB m then []
       else if m.cont then [m.carry] else [m.oBase + mpeLast m b * m.oStr])

/-- The addresses of the records of block b, one a line (R201). -/
def mpeEdgeVas (m : MpeS) (b : Nat) : List Nat := (mpeRecPieces m b).map (fun x => x.1)

/-- The addresses that the engine writes in the present issue cycle, if it runs (R205). -/
def mpeOuts (a : ArrayS) : List Nat :=
  match a.mpe, listGet a.pipe none 63 with
  | some m, some e => mpeOutVas m e
  | _, _ => []

/-- The addresses that it reads in it (R204, R205). -/
def mpeIns (a : ArrayS) : List Nat :=
  match a.mpe with
  | none => []
  | some m =>
    (if m.cin && a.tt = m.t0 + 1 then [m.carry] else []) ++
      (match mpeAsks m a.tt with
       | some b =>
         let es := tabGet m.buf [] b
         (if es.any (fun e => e.bad.isSome) then [] else es.flatMap (mpeLines m)) ++ mpeEdgeVas m (b + 4)
       | none => [])

/-- The addresses that an MPASS reads before it issues, beside its descriptor: the records of the first four
blocks (R311). -/
def mpassVas (s : State) (p va : Nat) : List Nat :=
  let (_, r) := arrRead s p va 128
  if r.err.isSome || r.bad || va % 128 ≠ 0 then []
  else
    let m := mpeOf (BitVec.ofNat 1024 (leNat r.bytes)) 0 false
    (List.range 4).flatMap (mpeEdgeVas m)

/-- While an MPASS waits to issue: with a descriptor that is valid under R202, the records of its first blocks are asked for
(R204, R311). -/
def mpassAsk (s : State) (p : Nat) (va : Nat) : State :=
  let (s, r) := arrRead s p va 128
  let a := arrOf s p
  let d := BitVec.ofNat 1024 (leNat r.bytes)
  let m := mpeOf d a.tt false
  let reach (k : AccK) : Bool :=
    match xlateArr s p m.carry 320 k with | .ok _ _ _ => true | .bad _ _ => false
  if r.err.isSome || r.bad || va % 128 ≠ 0 || !mpeOk d (tabFind a.dict (m.dstart + m.doff)) (a.land.all (fun x => x.1 < 16)) reach then s
  else mpeAhead s p m

/-- A bundle whose S slot is HALT and whose other slots are NOP: what ends a step launched by a packet
(R201). -/
def haltBundle : BundleBits :=
  match encS .sHalt with
  | some (w, _) => w ++ (0#320 : BitVec 320)
  | none => 0

/-- The bundle a step issues at a TT (R201, R203): none where the step of an MPASS instruction has ended. A body bundle's word is its
dictionary index. -/
def mpeBundle (a : ArrayS) (m : MpeS) : Option (W16 × BundleBits × Bool) :=
  let s0 := mpeSb m 0
  let sB := mpeSb m (mpeB m)
  if a.tt < s0 then some (0, 0, true)
  else if a.tt < sB then
    let i := m.dstart + (a.tt - s0) % m.p
    match tabFind a.dict i with
    | some b => some (BitVec.ofNat 16 i, b, true)
    | none => some (BitVec.ofNat 16 i, 0, false)
  else if a.tt ≤ sB + 64 then some (0, 0, true)
  else if m.packet then some (0, haltBundle, true)
  else none

end Sys2Proof.Machine
end

