-- ==== Sys2Proof/Machine/ArrayEvents.lean ====
section
/-! DEFINITION. Events of an array: landings, replies, the egress FIFO, region walks and invalidations, SC
operations, asynchronous traps, copies and the end of HALT (R165, R200, R213, R214, R221, R224, R281,
R288, R302). An event whose condition does not hold leaves the state as it is (log entry 11). -/
namespace Sys2Proof.Machine
open Sys2Proof

-- Landings (R165, R166)

/-- A line that has come, under the array's own later bytes, with a mark for each byte (R165, R214, R399). -/
def landMerge (x : LandIn) (ov : BitVec 512 × W64 × Bool) : BitVec 512 × W64 :=
  (mergeLine x.data ov.1 ov.2.1, (if x.bad then ~~~ov.2.1 else 0) ||| (if ov.2.2 then ov.2.1 else 0))

/-- A line enters its landing slot's buffer; the line pinned for it is noted (R70, R165). What the message-passing engine has
asked for enters its own (R204). -/
def landEnter (a : ArrayS) (x : LandIn) : ArrayS :=
  if x.slot = 32 then
    modMpe (fun m => { m with feat := tabSet m.feat x.line (landMerge x (tabGet m.featOv (0, 0, false) x.line))
                              featOv := tabErase m.featOv x.line }) a
  else if x.slot = 33 then
    modMpe (fun m => mpeFill (x.line / 16) { m with
      recs := tabSet m.recs x.line (landMerge x (tabGet m.recOv (0, 0, false) x.line))
      recOv := tabErase m.recOv x.line }) a
  else
    match tabFind a.land x.slot with
    | none => a
    | some l =>
      { a with land := tabSet a.land x.slot { l with
          lines := tabSet l.lines x.line (landMerge x (tabGet l.ov (0, 0, false) x.line))
          pas := l.pas ++ x.pin.toList } }

/-- LANDING_LINE_ARRIVAL (R165): the oldest line that has come back enters its slot's buffer. Where the slot is no
longer in use, the pin it holds is released. -/
def execLandingLineArrival (s : State) : Host.Outcome State Fault Refusal :=
  .next (
    match (here s).landIn with
    | [] => s
    | x :: r =>
      let s := onArr s (fun a => landEnter { a with landIn := r } x)
      match (tabFind (here s).land x.slot).isSome, x.pin with
      | false, some l => l2Unpin s l
      | _, _ => s)

/-- The pieces of 256 bytes of a landing (R165). -/
def landPieces (l : LandS) : Nat := (l.bytes + 255) / 256

/-- The piece of a landing that is due in issue cycle t, if any. -/
def landDue (l : LandS) (t : Nat) : Option Nat :=
  if l.due ≤ t && t < l.due + landPieces l then some (t - l.due) else none

/-- The lines of a piece. -/
def pieceLines (l : LandS) (i : Nat) : List Nat :=
  (List.range 4).filterMap (fun j => if 256 * i + 64 * j < l.bytes then some (4 * i + j) else none)

/-- All of a piece has reached the buffer. -/
def pieceHere (l : LandS) (i : Nat) : Bool := (pieceLines l i).all (fun k => (tabFind l.lines k).isSome)

/-- Write a piece (R165, R166, R399): a marked byte marks its word. -/
def landPut (a : ArrayS) (l : LandS) (i : Nat) : ArrayS :=
  let ls := pieceLines l i
  let bs := ls.flatMap (fun k =>
    let v := tabGet l.lines (0, 0) k
    (lineBytes v.1).zipIdx.map (fun (p : Byte × Nat) => (l.dest + 64 * k + p.2, p.1)))
  let bad := ls.flatMap (fun k =>
    let mk := (tabGet l.lines (0, 0) k).2
    ((List.range 16).filter (fun w => bitsN mk (4 * w) 4 ≠ 0)).map (fun w => (l.dest + 64 * k) / 4 + w))
  spWriteBytes a bs bad

/-- LANDING_WRITE (R165): every landing with a piece due in the array's present issue cycle writes it; the
last piece frees the slot and releases its lines (R70). -/
def execLandingWrite (s : State) : Host.Outcome State Fault Refusal :=
  .next (
    let p := s.cur.phys
    (arrOf s p).land.foldl (fun s x =>
      match landDue x.2 (arrOf s p).tt with
      | none => s
      | some i =>
        if !pieceHere x.2 i then s
        else
          let s := modArr s p (fun a => landPut a x.2 i)
          if i + 1 = landPieces x.2 then
            x.2.pas.foldl l2Unpin (modArr s p (fun a => { a with land := tabErase a.land x.1 }))
          else modArr s p (fun a => { a with land := tabSet a.land x.1 { x.2 with done := i + 1 } })) s)

-- Values on their way (R281, R282, R297)

/-- A value is written to its register, where it is still awaited; a failed AMO leaves it pending and traps
(R281, R297), and so does a tau past the end of the clock (R221). The clock itself took tau with the reply. -/
def pendWrite (a : ArrayS) (v : PendVal) : ArrayS :=
  if v.clk then noteAsync a .scclk 0 0x3FFF
  else if v.bad then noteAsync a .poison 0 0x3FFF
  else if v.reg = 0 || !(tabGet a.s {} v.reg).pend then a
  else { a with s := tabSet a.s v.reg { v := v.v, mark := v.mark, pend := false } }

/-- PENDING_VALUE_WRITE (R281): every value that is ready by this ac. -/
def execPendingValueWrite (s : State) : Host.Outcome State Fault Refusal :=
  .next (onArr s (fun a =>
    let ready := a.pend.filter (fun v => v.at_ ≤ a.ac)
    let rest := a.pend.filter (fun v => a.ac < v.at_)
    ready.foldl pendWrite { a with pend := rest }))

-- Asynchronous traps (R169, R224)

/-- ASYNCHRONOUS_TRAP: the first cause noted at the array is taken at its issue-cycle boundary. -/
def execAsynchronousTrap (s : State) : Host.Outcome State Fault Refusal :=
  .next (onArr s (fun a =>
    match a.async with
    | [] => a
    | f :: _ =>
      if a.cond = .running || a.cond = .halting then
        { takeAsync a f.cause f.detail f.region with async := [] }
      else a))

-- Semaphore waits (R302)

/-- Every semaphore operation that array p has issued before its wait has been performed (R301). -/
def ownSemsDone (a : ArrayS) : Bool := a.sems.all (fun o => o.kind = .wait || (o.sent && !o.far))

/-- A wait goes to the file of another bulkhead, over the torus in class C1 (R113, R302). -/
def sendWait (s : State) (p t : Nat) (name : W16) (v : W64) (since : Nat) : State :=
  let a := arrOf s p
  let o : SemOp := { kind := .wait, name := name, v := v, reg := 0, at_ := since, sent := true, ep := a.epoch, far := true }
  netSend (setArr s p { a with sems := a.sems ++ [o] }) 1 (arrRouter p (cmdRouter t).2.1) (cmdRouter t) (bhOfArr p)
    (.sem t p o)

/-- A wait of array p that has come to the file of bulkhead t is satisfied: the reply goes back (R302). -/
def answerWait (s : State) (p t : Nat) : State :=
  let a := arrOf s p
  match (bhOf s t).semWaits.find? (fun x => x.1 = p && x.2.ep = a.epoch) with
  | none => s
  | some x =>
    if !x.2.v.ule (semGet s (partOfArr s p) x.2.name) then s
    else
      netSend (modBh s t (fun y => { y with semWaits := y.semWaits.filter (fun z => z.1 ≠ p) })) 1 (cmdRouter t)
        (arrRouter p (cmdRouter t).2.1) t
        (.value p a.epoch { reg := 0, v := 0, mark := none, at_ := 0, wait := true })

/-- SEMAPHORE_WAIT_SATISFIED (R113, R301, R302): a wait is behind the array's own operations, and is evaluated at the file
from the ac in which it arrives: 10 after its issue in the array's bulkhead, and in another when it has come over the
torus. -/
def execSemaphoreWaitSatisfied (s : State) : Host.Outcome State Fault Refusal :=
  .next (
    let p := s.cur.phys
    let a := arrOf s p
    match a.wait with
    | some (.sem name v since none) =>
      let t := (semPlace (partOfArr s p) name).1
      if a.ac < since + 10 || !ownSemsDone a then s
      else if t = bhOfArr p then
        if v.ule (semGet s (partOfArr s p) name) then
          setArr s p { a with wait := some (.sem name v since (some a.ac)) }
        else s
      else if a.sems.any (fun o => o.kind = .wait) then answerWait s p t
      else sendWait s p t name v since
    | _ => s)

-- The egress FIFO (R214)

/-- A line leaves the cache for its home slice, or for the hub bridge (R23), in the class of the path that wrote
it (R63). -/
def drainLine (s : State) (p key : Nat) (e : EgLine) : State :=
  let b := bhOfArr p
  match e.win with
  | some w =>
    sendWin s p { win := w, write := true, line := key % 2 ^ 36, data := e.data, mask := e.mask, bh := b,
                  gen := (bhOf s b).gen, expGen := tabGet s.hub.winGen 0 w, who := .drain p key,
                  poison := e.poison, node := e.node, stage := e.stage }
  | none =>
    sendSlice s p (homeSlice key)
      { write := true, line := key, slot := e.slot, prot := e.prot, who := .drain p key, bh := b,
        node := e.node, stage := e.stage, data := e.data, mask := e.mask, poison := e.poison,
        cls := e.cls }

/-- A passed marker that a region's release records clears RPEND, unless an XFER packet of the region has still to
complete (R105, R215). -/
def clearRpend (s : State) (p m : Nat) : State :=
  let q := partOfArr s p
  let f (t : List (Nat × Tab Nat)) (x : Nat × Region) : Nat × Region :=
    if x.2.rpend && x.2.markV && x.2.markA = p && x.2.mark = m then
      (x.1, { x.2 with rpend := t.any (fun y => y.1 == x.1), markV := false })
    else x
  modPart s q (fun x => { x with regions := x.regions.map (f x.xfers) })

/-- EGRESS_LINE_DRAIN (R214): the head of the FIFO. A marker passes when every line ahead of it has reached
its slice. -/
def execEgressLineDrain (s : State) : Host.Outcome State Fault Refusal :=
  .next (
    let p := s.cur.phys
    let a := arrOf s p
    match a.fifo with
    | [] => s
    | .marker m :: r =>
      if a.drained.isEmpty then clearRpend (setArr s p { a with fifo := r }) p m else s
    | .line k :: r =>
      match tabFind a.eg k with
      | none => setArr s p { a with fifo := r }
      | some e =>
        let a := { a with fifo := r, eg := tabErase a.eg k, drained := a.drained ++ [(k, e)] }
        drainLine (setArr s p a) p k e)

-- Region caches (R213)

/-- REGION_WALK_COMPLETE (R213): the walk returns the descriptor, or finds none. -/
def execRegionWalkComplete (s : State) : Host.Outcome State Fault Refusal :=
  .next (
    let p := s.cur.phys
    let a := arrOf s p
    match a.walk with
    | none => s
    | some va =>
      match regionAtVa s (partOfArr s p) va with
      | some (n, r) => setArr s p { a with walk := none, rcache := rcPut a.rcache n r }
      | none => setArr s p { a with walk := none, walkBad := true })

/-- REGION_CACHE_INVALIDATION (R213): the array's region cache drops the entries it was told to. -/
def execRegionCacheInvalidation (s : State) : Host.Outcome State Fault Refusal :=
  .next (onArr s (fun a =>
    { a with rcache := a.rcache.filter (fun x => !a.rinv.contains x.1), rinv := [] }))

-- The SC order (R220 to R222, R296, R297)

/-- The value an AMO writes; none where a CAS does not (R297). -/
def amoNew (op : AmoOp) (uns : Bool) (w : Nat) (old b c : Nat) : Option Nat :=
  let le (x y : Nat) : Bool := if uns then x ≤ y else signedOf w x ≤ signedOf w y
  match op with
  | .add => some ((old + b) % 2 ^ w)
  | .min => some (if le old b then old else b)
  | .max => some (if le b old then old else b)
  | .and => some (old &&& b)
  | .or => some (old ||| b)
  | .swap => some b
  | .cas => if old = b then some c else none

/-- An AMO is unsigned: .n on MIN and MAX (R297). -/
def scUns : ScKind → Bool
  | .amo _ u => u
  | _ => false

/-- Set the timestamp of a line in its home slice; without the line the high-water mark rises instead
(R221). -/
def setTs (s : State) (l : Nat) (t : W64) : State :=
  modSlice s (homeSlice l) (fun x =>
    if (l2Find x l).isSome then
      { x with lines := x.lines.map (fun y => if y.line = l then { y with ts := t } else y) }
    else { x with high := if x.high.ult t then t else x.high })

/-- The timestamp an SC operation finds (R221). -/
def lineTs (s : State) (l : Nat) : W64 :=
  match l2Find (sliceOf s (homeSlice l)) l with
  | some y => y.ts
  | none => (sliceOf s (homeSlice l)).high

/-- An SC operation has been performed at slice k: its reply goes back to its array in class C1 (R63,
R221). -/
def scReply (s : State) (p k : Nat) (v : PendVal) : State :=
  let f := sliceRouter k
  let ep := (arrOf s p).epoch
  netSend (modArr s p (fun a => { a with sc := a.sc.drop 1, scBusy := false, scWait := true })) 1 f
    (arrRouter p f.2.1) (k / 96) (.value p ep { v with sc := true })

/-- SC_OPERATION_PERFORM (R221, R222): the oldest SC operation of the array, at its home slice. -/
def execScOperationPerform (s : State) : Host.Outcome State Fault Refusal :=
  .next (
    let p := s.cur.phys
    let a := arrOf s p
    match a.sc with
    | [] => s
    | o :: _ =>
      let n := if o.w64 then 8 else 4
      let w := 8 * n
      let none_ : PendVal := { reg := o.reg, v := 0, mark := none, at_ := a.ac }
      match xlateArr s p o.va n (scAcc o.kind) with
      | .bad c num =>
        scReply (modArr s p (fun a => noteAsync a c (xDetail c 1) num)) p (sliceKey (bhOfArr p) 0)
          { none_ with reg := 0 }
      | .ok _ r off =>
        let l := (r.pbase + off) / 64
        let k := homeSlice l
        let (s, v) := lineRead s l r.slot r.prot a.node 0
        let ts := lineTs s l
        let top := if a.clock.ult ts then ts else a.clock
        if top = BitVec.allOnes 64 then scReply s p k { none_ with clk := true }
        else
          let tau := top + 1
          let old := v.data.toNat / 2 ^ (8 * (off % 64)) % 2 ^ w
          let ext : W64 :=
            if scUns o.kind then BitVec.ofNat 64 old else BitVec.ofInt 64 (signedOf w old)
          let put (s : State) (x : Nat) : State :=
            let (d, m) := linePiece (64 * l + off % 64) l (leBytes n x)
            setTs (lineWrite s l r.slot r.prot d m false none).1 l tau
          match o.kind with
          | .load =>
            let mk : Option SMark :=
              if v.rev then some { rev := true, src := 0 }
              else if v.bad then some { rev := false, src := 0 } else none
            scReply (setTs s l tau) p k { none_ with v := ext, mark := mk, tau := some tau }
          | .store => scReply (put s (o.b.toNat % 2 ^ w)) p k { none_ with reg := 0, tau := some tau }
          | .amo op uns =>
            if v.bad then scReply s p k { none_ with bad := true }
            else
              let s := match amoNew op uns w old (o.b.toNat % 2 ^ w) (o.c.toNat % 2 ^ w) with
                | some x => put s x
                | none => setTs s l tau
              let s := match a.node with | some id => unreplay s id 3 | none => s
              scReply s p k { none_ with v := ext, tau := some tau })

-- Semaphore operations of an array at the file (R113, R301)

/-- Perform one operation of array p at the file: the state, and the value that answers it, ready from ac
`ready` (R301). -/
def semPerform (s : State) (p : Nat) (o : SemOp) (ready : Nat) : State × PendVal :=
  let q := partOfArr s p
  let none_ : PendVal := { reg := 0, v := 0, mark := none, at_ := ready }
  match o.kind with
  | .add => (semAdd s q o.name o.v, none_)
  | .set => (semPut s q o.name o.v, none_)
  | .read | .wait => (s, { none_ with reg := o.reg, v := semGet s q o.name })

/-- The operations of array p that are due at the file, in issue order: those of its own bulkhead are
performed 10 ac after issue and answered at 20, and others travel over the torus in class C1 (R113,
R301). -/
def semDue (s : State) (p : Nat) : State :=
  let a := arrOf s p
  let b := bhOfArr p
  let away (o : SemOp) : Bool := (semPlace (partOfArr s p) o.name).1 ≠ b
  let step (x : State × List SemOp × Bool) (o : SemOp) : State × List SemOp × Bool :=
    let (s, keep, stop) := x
    if o.sent then
      if o.far then (s, keep ++ [o], true)
      else (s, if a.ac < o.at_ + 20 then keep ++ [o] else keep, stop)
    else if stop || a.ac < o.at_ + 10 then (s, keep ++ [o], true)
    else if away o then
      let t := (semPlace (partOfArr s p) o.name).1
      (netSend s 1 (arrRouter p (cmdRouter t).2.1) (cmdRouter t) b (.sem t p o),
        keep ++ [{ o with sent := true, far := true }], true)
    else
      let (s, v) := semPerform s p o (o.at_ + 20)
      (deliverValue s p o.ep v, keep ++ [{ o with sent := true }], stop)
  let (s, l, _) := a.sems.foldl step (s, [], false)
  modArr s p (fun a => { a with sems := l })

/-- SEMAPHORE_REMOTE_ARRIVAL (R113, R301, R302): the oldest arrival at a bulkhead's file is performed and answered over
the torus; a read's value is ready at least 20 ac after issue. An add or set of a packet or a completion is not answered,
and a wait stays at the file. -/
def execSemaphoreRemoteArrival (s : State) : Host.Outcome State Fault Refusal :=
  .next (
    let b := s.cur.bh
    match (bhOf s b).semArr with
    | [] => s
    | (p, o) :: r =>
      let s := modBh s b (fun x => { x with semArr := r })
      if o.kind = .wait then
        let old := (bhOf s b).semWaits.filter (fun y => y.1 ≠ p && (arrOf s y.1).epoch = y.2.ep)
        modBh s b (fun x => { x with semWaits := old ++ [(p, o)] })
      else
        let (s, v) := semPerform s p o (max (arrOf s p).ac (o.at_ + 20))
        if o.mute then s else netSend s 1 (cmdRouter b) (arrRouter p (cmdRouter b).2.1) b (.value p o.ep v))

-- Copies (R107, R200)

/-- The queue copy `i` moves one more line (R107): source through its home slice, destination written whole
and poisoned where the source is; a revoked or read-only destination stops it. DESIGN CHOICE (log entry 140): the spec
does not say what a region does that refuses the copy midway for another reason; the copy stops and the queue faults with
REGION. -/
def queueCopyLine (s : State) (b q i : Nat) : State :=
  match tabFind (queueOf s b q).copies i with
  | none => s
  | some c =>
    let part := (bhOf s b).part
    let own := 0x60 + (b - part)
    let s := modQueue s b q (fun x => { x with copies := tabSet x.copies i { c with sent := false } })
    let c := { c with sent := false }
    if c.stop.isSome || c.rows * c.row ≤ c.pos then s
    else
      let r := c.pos / c.row
      let o := c.pos % c.row
      let sa := ((c.src : Int) + (r : Int) * c.sp).toNat + o
      let da := ((c.dst : Int) + (r : Int) * c.dp).toNat + o
      let n := min (c.row - o) (min (64 - da % 64) (64 - sa % 64))
      let step (s : State) (st : Option Nat) : State :=
        modQueue s b q (fun x => { x with
          copies := tabSet x.copies i { c with pos := c.pos + n, stop := st } })
      if releaseWait s part own none sa || releaseWait s part own none da then s
      else
      match xlatePart s part da n own .wr with
      | .bad .keyrev _ => step s (some 0x08)
      | .bad .keyexh _ => step s (some 0x0D)
      | .bad _ _ => step s (some 0x06)
      | .ok _ d doff =>
        match xlatePart s part sa n own .rd with
        | .bad _ _ => step s (some 0x06)
        | .ok _ r soff =>
          let (s, v) := regRead s b r soff n none c.rc
          let s := if v.bad || v.rev then
              (paLines doff n).foldl (fun s l => regWrite s b d (64 * l) (List.replicate 64 0) true) s
            else regWrite s b d doff v.bytes false
          step s none

/-- COPY_LINE_WRITE (R107, R198, R200): a channel or a queue's copy moves one line. -/
def execCopyLineWrite (id : CopyId) (s : State) : Host.Outcome State Fault Refusal :=
  match id with
  | .channel a ch => .next (channelLine s a.toNat ch.toNat)
  | .packet b q i => .next (queueCopyLine s b.toNat q.toNat i.toNat)

/-- COPY_COMPLETE (R107, R114, R200): the last byte is written; the semaphore add is performed, and a
stopped COPY leaves its fault for the queue's next packet boundary. -/
def execCopyComplete (id : CopyId) (s : State) : Host.Outcome State Fault Refusal :=
  match id with
  | .channel a ch => .next (channelComplete s a.toNat ch.toNat)
  | .packet b q i =>
    match tabFind (queueOf s b.toNat q.toNat).copies i.toNat with
    | none => .next s
    | some c =>
      if c.stop.isNone && c.pos < c.rows * c.row then .next s
      else
        let s := modQueue s b.toNat q.toNat (fun x =>
          { x with copies := tabErase x.copies i.toNat,
                   late := x.late <|> c.stop.map (fun k =>
                     { cause := k, level := c.level, at_ := c.at_, head := c.head }) })
        .next (semDone s b.toNat (bhOf s b.toNat).part c.sem)

end Sys2Proof.Machine
end

