-- ==== Sys2Proof/Machine/MemEvents.lean ====
section
/-! DEFINITION. Events of the memory system: the torus routers (R60 to R63), the slices (R66 to R71), the
base-die controllers (R72 to R79) and the hub's window bridge (R23, R24, R74). -/
namespace Sys2Proof.Machine
open Sys2Proof

-- Base-die controllers (R72, R73)

/-- Requests of these kinds are taken by one event: RD64 also answers the reserved kinds, which are refused
(R72, R73). -/
def sameEvent (kind : StackKind) (r : StackReq) : Bool :=
  r.kind = kind || (kind = .rd64 && reservedKind r.kind)

/-- The oldest request of an event that no older request to its line stands before (R73). -/
def pickStack (kind : StackKind) : List StackReq → List StackReq → Option (StackReq × List StackReq)
  | _, [] => none
  | seen, r :: rest =>
    if sameEvent kind r && !(seen.any (fun x => x.line = r.line)) then some (r, seen ++ rest)
    else pickStack kind (seen ++ [r]) rest

/-- Perform the oldest request of a kind at a controller. -/
def stackEvent (kind : StackKind) (s : State) : Host.Outcome State Fault Refusal :=
  .next (
    let k := s.cur.stack
    match pickStack kind [] (stackOf s k).reqs with
    | none => s
    | some (r, rest) =>
      let s := modStack s k (fun x => { x with reqs := rest })
      let done := match packageLine k r.line with
        | some l => ctlPerform s k r l
        | none => upperPerform s k r
      match done with
      | (s, some x) => giveReply s k r x
      | (s, none) => s)

/-- RD64 (R72). -/
def execRd64 (s : State) : Host.Outcome State Fault Refusal := stackEvent .rd64 s
/-- WR64 (R72). -/
def execWr64 (s : State) : Host.Outcome State Fault Refusal := stackEvent .wr64 s
/-- RMW (R72). -/
def execRmw (s : State) : Host.Outcome State Fault Refusal := stackEvent .rmw s

/-- A landing pins the line it is served from (R70). DEDUCED (log entry 144): the message-passing engine's lines, which no
LAND has asked for, pin none. -/
def pinsLine : Requester → Bool
  | .land _ _ slot _ => decide (slot < 32)
  | _ => false

-- Slices (R66 to R71, R223)

/-- The oldest request of a slice that is a write or not, and that no older request to its line stands
before. -/
def pickSlice (write : Bool) : List SliceReq → List SliceReq → Option (SliceReq × List SliceReq)
  | _, [] => none
  | seen, r :: rest =>
    if r.write == write && !(seen.any (fun x => x.line = r.line)) then some (r, seen ++ rest)
    else pickSlice write (seen ++ [r]) rest

/-- A fifth way of a set may not be pinned (R70). -/
def pinsFull (x : SliceS) (l : Nat) : Bool :=
  let ways := setWays x l
  !(ways.any (fun y => y.line = l && y.pins ≠ 0)) && 4 ≤ (ways.filter (fun y => y.pins ≠ 0)).length

/-- A read at slice k that is to pin its line: a landing's at the home slice, not through a window, whose array
run still stands (R23, R68, R70). -/
def wantsPin (s : State) (k : Nat) (r : SliceReq) : Bool :=
  pinsLine r.who && k = homeSlice r.line && r.win.isNone && readerLive s r.who

/-- Serve a read from a line the slice holds (R69, R70, R85). -/
def serveHeld (s : State) (k : Nat) (r : SliceReq) (y : L2Line) : State :=
  let v : LineVal := if y.poison then { bad := true } else { data := y.data }
  let pin := wantsPin s k r
  sendLine (l2Touch s k y pin) k r v (if pin then some r.line else none)

/-- Ask the stack for a line and let the read wait; a second read of the line waits with the first (R67). While
every tag of the channel is in use, the read stays queued (R73). -/
def askStack (s : State) (k : Nat) (r : SliceReq) (kind : StackKind) (mask : W64) (d : BitVec 512) : State :=
  let x := sliceOf s k
  let waits : SliceS := { x with waiting := x.waiting ++ [r] }
  if x.waiting.any (fun w => w.line = r.line) then setSlice s k waits
  else
    match freeTag (stackOf s (lineStack r.line)) (lineChan r.line) 1 with
    | none => setSlice s k { x with reqs := r :: x.reqs }
    | some tag =>
      let s := modStack (setSlice s k waits) (lineStack r.line) (fun t => takeTag t (lineChan r.line) tag)
      sendStack s k { mkReq s kind tag r.line r.slot r.prot mask d false with from_ := k, cls := r.cls } r.line

/-- The line lies in a region that is SHARED-READ now and is not being changed to another kind (R212, R217). -/
def sharedNow (s : State) (l : Nat) : Bool :=
  let p := (bhOf s (lineBh l)).part
  match regionAtPa s p (64 * l) with
  | some (n, r) => r.kind == 2 && (match (partOf s p).rdPend with | some d => !(d.num == n) | none => true)
  | none => false

/-- A place for a replica: a read of a SHARED-READ line from another bulkhead (R68, R217). -/
def placeReplica (s : State) (r : SliceReq) (v : LineVal) : State :=
  let k := sliceKey r.bh (lineIn r.line % 96)
  if !r.shared || v.bad || v.rev || !sharedNow s r.line || (l2Find (sliceOf s k) r.line).isSome then s
  else
    match makeRoom s k r.line with
    | (s, false) => s
    | (s, true) =>
      let y : L2Line := { line := r.line, data := v.data, valid := allBytes, dirty := 0, replica := true,
                          slot := r.slot, prot := r.prot, ts := (sliceOf s k).high }
      modSlice s k (fun x => l2Put x y)

/-- A read at a slice, once taken from its queue (R67 to R71, R81, R223). A read that finds no replica goes on to
the home slice (R68). -/
def sliceRead (s : State) (k : Nat) (r : SliceReq) : State :=
  let x := sliceOf s k
  let other (s : State) : State :=
    let (s, v) := lineRead s r.line r.slot r.prot r.node 0
    sendLine s k r v none
  if k ≠ homeSlice r.line then
    match l2Find x r.line with
    | some y => if y.ue then sendLine (meetUe s k r.line) k r { bad := true } none else serveHeld s k r y
    | none =>
      let h := homeSlice r.line
      netSend s r.cls (sliceRouter k) (sliceRouter h) r.bh (.slice (h / 96) (h % 96) r)
  else
    match l2Find x r.line with
    | some y =>
      if r.who = .nobody && r.win.isNone then s
      else if y.ue then sendLine (meetUe s k r.line) k r { bad := true } none
      else if y.stage.isSome && y.stage ≠ r.node then other s
      else if y.poison || y.valid == allBytes then
        placeReplica (serveHeld s k r y) r { data := y.data, bad := y.poison }
      else if y.stage.isSome then other s
      else askStack s k r .rmw y.dirty y.data
    | none =>
      if r.who = .nobody && keyRevoked s (bhOf s (lineBh r.line)).part r.slot then s
      else askStack s k r .rd64 0 0

/-- L2_READ (R67): the oldest read of a slice. A landing that would pin a fifth way of its set waits
(R70). -/
def execL2Read (s : State) : Host.Outcome State Fault Refusal :=
  .next (
    let k := sliceKey s.cur.bh s.cur.slice
    let x := sliceOf s k
    match pickSlice false [] x.reqs with
    | none => s
    | some (r, rest) =>
      if wantsPin s k r && pinsFull x r.line then s
      else sliceRead (setSlice s k { x with reqs := rest }) k r)

/-- Answer a read that waited for a fill: with poison where the stack has refused it (R79, R83); where its pin would be a
fifth of the set, it is queued again (R67, R70). -/
def answerWaiting (q : StackReply) (k l : Nat) (s : State) (r : SliceReq) : State :=
  match l2Find (sliceOf s k) l with
  | some y =>
    if r.who = .nobody then s
    else if replyLost q then sendLine s k r (replyVal (some q)) none
    else if wantsPin s k r && pinsFull (sliceOf s k) l then modSlice s k (fun x => { x with reqs := r :: x.reqs })
    else placeReplica (serveHeld s k r y) r { data := y.data, bad := y.poison }
  | none => sendLine s k r (replyVal (some q)) none

/-- STACK_REPLY_RECEIVE (R67, R72, R73): the oldest reply of a slice frees its tag, fills its line with the largest
read count asked for (R69), and answers the reads that waited for it. A reply that is older than a write which has since
reached the stack fills nothing, and its reads ask again (R116). -/
def execStackReplyReceive (s : State) : Host.Outcome State Fault Refusal :=
  .next (
    let k := sliceKey s.cur.bh s.cur.slice
    let x := sliceOf s k
    match x.replies with
    | [] => s
    | q :: rest =>
      match packageLine (s.cur.bh / 2) q.line with
      | none => setSlice s k { x with replies := rest }
      | some l =>
        let mine := x.waiting.filter (fun r => r.line = l)
        let s := setSlice s k { x with replies := rest, waiting := x.waiting.filter (fun r => r.line ≠ l)
                                       stale := x.stale.filter (fun i => i ≠ l) }
        let s := modStack s (lineStack l) (fun t => dropTag t q.ch q.tag)
        match mine with
        | [] => s
        | r0 :: _ =>
          if x.stale.contains l then modSlice s k (fun x => { x with reqs := mine ++ x.reqs })
          else
          let s := l2Install s k l r0.slot r0.prot (mine.foldl (fun n r => max n r.rc) 0) q
          mine.foldl (answerWaiting q k l) s)

/-- The controller would refuse an access to this line under this slot (R83). -/
def domainRefuses (s : State) (l slot : Nat) : Bool :=
  tabGet (stackOf s (lineStack l)).pat 0 (lineBh l % 2 * bhGrans + lineGran l) ≠
    (keyOf s (bhOf s (lineBh l)).part slot).domain

/-- The node whose staged write this still is: a node that has become non-replayable stages no more
(R223). -/
def stageOf (s : State) (r : SliceReq) : Option NodeId :=
  if !r.stage then none
  else match r.node with
    | none => none
    | some n => (nodeOf s n).bind (fun nd => if nd.replay then some n else none)

/-- One more staged line of a node would pass the staging budget it shares (R121, R134). -/
def stageOver (s : State) (n : NodeId) (nd : NodeS) : Bool :=
  let lines := ((bhOf s n.1).nodes.filter (fun x => x.2.stgAt = nd.stgAt)).foldl (fun t x => t + x.2.staged) 0
  nd.staging < 64 * (lines + 1)

/-- A staged write at its home slice (R70, R134, R223): a line more than the budget or the set takes makes
the node non-replayable, and the write is committed. DEDUCED (log entry 146). -/
def stagedWrite (s : State) (n : NodeId) (r : SliceReq) : State :=
  let k := homeSlice r.line
  let before : Bool := match l2Find (sliceOf s k) r.line with | some y => y.stage == some n | none => false
  let past : Bool := match nodeOf s n with | some nd => !before && stageOver s n nd | none => false
  let commit (s : State) : State :=
    (lineWrite (unreplay s n 2) r.line r.slot r.prot r.data r.mask r.poison none).1
  if past then commit s
  else
    match lineWrite s r.line r.slot r.prot r.data r.mask r.poison (some n) with
    | (s, true) => if before then s else modNode s n (fun nd => { nd with staged := nd.staged + 1 })
    | (s, false) => commit s

/-- A write that came through a window is no longer outstanding at the bridge (R23). -/
def winDone (s : State) (r : SliceReq) : State :=
  match r.win with
  | some w => { s with hub := { s.hub with winOut := tabMod s.hub.winOut 0 w (· - 1) } }
  | none => s

/-- L2_WRITE (R67, R81, R83, R223): the oldest write of a slice; while reads of its line wait for the stack it
stays queued. A write under a revoked slot is discarded, and one that the controller's allocation table
refuses traps the writing array with DOMAIN. -/
def execL2Write (s : State) : Host.Outcome State Fault Refusal :=
  .next (
    let k := sliceKey s.cur.bh s.cur.slice
    let x := sliceOf s k
    match pickSlice true [] x.reqs with
    | none => s
    | some (r, rest) =>
      if x.waiting.any (fun w => w.line = r.line) then s
      else
        let s := winDone (drainArrived (setSlice s k { x with reqs := rest }) r.who) r
        let p := (bhOf s (lineBh r.line)).part
        if keyRevoked s p r.slot then s
        else if domainRefuses s r.line r.slot then
          let s := logLine s ecDomain 0 r.line
          match r.who with
          | .drain q _ => modArr s q (fun a => noteAsync a .domain 0 0x3FFF)
          | _ => s
        else
          match stageOf s r with
          | some n => stagedWrite s n r
          | none => (lineWrite s r.line r.slot r.prot r.data r.mask r.poison none).1)

-- The window bridge (R18, R23, R24, R74)

/-- The oldest request at the bridge whose window has fewer than 64 outstanding (R23). -/
def pickWin (s : State) : List WinReq → List WinReq → Option (WinReq × List WinReq)
  | _, [] => none
  | seen, r :: rest =>
    if tabGet s.hub.winOut 0 r.win < 64 && !(seen.any (fun x => x.win = r.win)) then some (r, seen ++ rest)
    else pickWin s (seen ++ [r]) rest

/-- A window request goes on from the exporter's hub gate to the home slice of its line, in class C3 (R23, R74). -/
def winForward (s : State) (r : WinReq) (e : Region) : State :=
  let l := e.pbase / 64 + r.line
  let h := homeSlice l
  let q : SliceReq :=
    { write := r.write, line := l, slot := e.slot, prot := e.prot, who := if r.write then .nobody else r.who,
      bh := r.bh, node := r.node, stage := r.stage, data := r.data, mask := r.mask, poison := r.poison,
      cls := 3, win := some r.win }
  netSend { s with hub := { s.hub with winOut := tabMod s.hub.winOut 0 r.win (· + 1) } } 3
    (hubRouter (lineBh l)) (sliceRouter h) (lineBh l) (.slice (h / 96) (h % 96) q)

/-- WINDOW_REQUEST (R23, R24, R74): the oldest request at the bridge that may go meets the exporter's hub gate. A
stale generation discards it with a STALEGEN record; through a disabled window a write is discarded with a WINDOW
record. A read that goes no further returns poison (R24). -/
def execWindowRequest (s : State) : Host.Outcome State Fault Refusal :=
  .next (
    match pickWin s [] s.hub.bridge with
    | none => s
    | some (r, rest) =>
      let s := { s with hub := { s.hub with bridge := rest } }
      let s := if r.write then drainArrived s r.who else s
      if !gatePass s r.win r.bh r.gen r.expGen then
        let s := winLog s ecStalegen r.win r.bh (64 * r.line)
        if r.write then s else winOnward s r.bh r.who { bad := true }
      else
        match winTarget s r.win (bhOf s r.bh).part with
        | none =>
          if r.write then winLog s ecWindow r.win r.bh (64 * r.line)
          else winOnward s r.bh r.who { bad := true }
        | some (_, e) =>
          if r.write && !winWr s r.win then winLog s ecWindow r.win r.bh (64 * r.line)
          else winForward s r e)

-- Torus routers (R61 to R63)

/-- What a packet does next at a router. -/
inductive Hop where
  | deliver
  | cross (die : Nat)
  | go (d : Dir)
  deriving DecidableEq, Repr

/-- The number of a direction. -/
def dirNo : Dir → Nat
  | .east => 0 | .west => 1 | .south => 2 | .north => 3

/-- The bulkheads of a die that are joined to local bulkhead j through open torus gates to one side, by steps of `d`
bulkheads: how many, at most three (R13). -/
def gateRun (s : State) (die j d : Nat) : Nat :=
  let at_ (i : Nat) : Nat := 4 * die + (j + d * i) % 4
  ((List.range 3).takeWhile (fun i => sameGate s (at_ i) (at_ (i + 1)))).length

/-- The first column of the row ring through a bulkhead's columns, and its length: the bulkheads of the die that the
open gates join (R13). -/
def rowRing (s : State) (die x : Nat) : Nat × Nat :=
  let j := x / 4
  let w := gateRun s die j 3
  if w = 3 && sameGate s (4 * die + (j + 1) % 4) (4 * die + j) then (0, 16)
  else (4 * ((j + 4 - w) % 4), 4 * min 4 (1 + w + gateRun s die j 1))

/-- The place of a column on the row ring that begins at column b. -/
def ringPos (b x : Nat) : Nat := (x + 16 - b) % 16

/-- The next hop (R61): rows first, the shorter way, east or south on a tie; between dies through the lane
group of the packet's bulkhead, across CD0-CD1 or CD2-CD3 first. -/
def nextHop (s : State) (die x y : Nat) (p : Packet) : Hop :=
  let j := p.bh % 4
  let via : Nat := if (die ^^^ p.die) % 2 = 1 then die ^^^ 1 else die ^^^ 2
  let (tx, ty) := if die = p.die then (p.x, p.y) else (4 * j, if via = die ^^^ 1 then 0 else 5)
  if x = tx && y = ty then (if die = p.die then .deliver else .cross via)
  else if x ≠ tx then
    let (b, n) := rowRing s die x
    let u := ringPos b x
    let v := ringPos b tx % n
    if (v + n - u) % n ≤ (u + n - v) % n then .go .east else .go .west
  else if (ty + 6 - y) % 6 ≤ (y + 6 - ty) % 6 then .go .south else .go .north

/-- The neighbouring router in a direction (R13, R61). -/
def neighbour (s : State) (die x y : Nat) (d : Dir) : Nat :=
  let (b, n) := rowRing s die x
  match d with
  | .east => routerKey die ((b + (ringPos b x + 1) % n) % 16) y
  | .west => routerKey die ((b + (ringPos b x + n - 1) % n) % 16) y
  | .south => routerKey die x ((y + 1) % 6)
  | .north => routerKey die x ((y + 5) % 6)

/-- Put a packet among those that wait to enter a ring at a router. -/
def enterRing (s : State) (k : Nat) (p : Packet) : State :=
  modRouter s k (fun r => { r with enter := tabMod r.enter [] p.cls (fun q => q ++ [p]) })

/-- A packet is too old to travel on (R18). -/
def tooOld (s : State) (p : Packet) : Bool := 1300000 < s.now - p.born

/-- The head packet of a ring moves on, turns, crosses or arrives (R61, R62); a packet older than 1,300,000
ac is discarded (R18). Where the four buffers of the next router are taken, it waits (R61). -/
def ringStep (die x y : Nat) (s : State) (d : Dir) : State :=
  let k := routerKey die x y
  match tabGet (routerOf s k).ring [] (dirNo d) with
  | [] => s
  | p :: rest =>
    let out (s : State) : State := modRouter s k (fun r => { r with ring := tabSet r.ring (dirNo d) rest })
    if tooOld s p then out s
    else
      match nextHop s die x y p with
      | .deliver => netGive (out s) p.msg
      | .cross e => enterRing (out s) (routerKey e x y) p
      | .go e =>
        if e ≠ d then enterRing (out s) k p
        else
          let n := neighbour s die x y d
          if 4 ≤ (tabGet (routerOf s n).ring [] (dirNo d)).length then s
          else modRouter (out s) n (fun r => { r with ring := tabMod r.ring [] (dirNo d) (fun q => q ++ [p]) })

/-- The weights of TORARB; 0 acts as 1 (R63). -/
def torWeight (s : State) (die x cls : Nat) : Nat :=
  max 1 (bitsN (bhOf s (4 * die + x / 4)).torarb (8 * cls) 8)

/-- The class that enters next at an output among those that have a packet for it (R63): packets left in
this round first, else a new round. -/
def pickClass (s : State) (die x y : Nat) (d : Dir) (cs : List Nat) : Option (Nat × List (Nat × Nat)) :=
  let r := routerOf s (routerKey die x y)
  let left (c : Nat) : Nat := tabGet r.credit 0 (4 * dirNo d + c)
  match cs.find? (fun c => left c ≠ 0) with
  | some c => some (c, [(c, left c - 1)])
  | none =>
    match cs with
    | [] => none
    | c :: _ =>
      some (c, (List.range 4).map (fun i => (i, torWeight s die x i - (if i = c then 1 else 0))))

/-- One entering packet per output, under the bubble rule (R62, R63); a packet already at its place is
handed over or crosses. -/
def enterStep (die x y : Nat) (s : State) (d : Dir) : State :=
  let k := routerKey die x y
  let r := routerOf s k
  let head (c : Nat) : Option Packet :=
    (tabGet r.enter [] c).find? (fun p => nextHop s die x y p = .go d)
  let cs := (List.range 4).filter (fun c => (head c).isSome)
  if 3 ≤ (tabGet r.ring [] (dirNo d)).length then s
  else
    match pickClass s die x y d cs with
    | none => s
    | some (c, cr) =>
      match head c with
      | none => s
      | some p =>
        modRouter s k (fun r =>
          { r with
            enter := tabMod r.enter [] c (fun q => q.erase p)
            ring := tabMod r.ring [] (dirNo d) (fun q => q ++ [p])
            credit := cr.foldl (fun t x => tabSet t (4 * dirNo d + x.1) x.2) r.credit })

/-- Packets that wait to enter and are already where they are to be handed over, or to cross; one that is too old is
discarded (R18). -/
def arriveStep (die x y : Nat) (s : State) : State :=
  let k := routerKey die x y
  let all := (routerOf s k).enter.flatMap (fun e => e.2)
  all.foldl (fun s p =>
    let drop (s : State) : State :=
      modRouter s k (fun r => { r with enter := tabMod r.enter [] p.cls (fun q => q.erase p) })
    if tooOld s p then drop s
    else match nextHop s die x y p with
    | .deliver => netGive (drop s) p.msg
    | .cross e => enterRing (drop s) (routerKey e x y) p
    | .go _ => s) s

/-- ROUTER_ARBITRATION_ROUND (R61 to R63): packets on a ring go first, then one entering packet for each
output. -/
def execRouterArbitrationRound (s : State) : Host.Outcome State Fault Refusal :=
  .next (
    let die := s.cur.die
    let x := s.cur.x
    let y := s.cur.y
    let ds : List Dir := [.east, .west, .south, .north]
    let s := ds.foldl (ringStep die x y) s
    let s := arriveStep die x y s
    ds.foldl (enterStep die x y) s)

end Sys2Proof.Machine
end

