-- ==== Sys2Proof/Machine/Wire.lean ====
section
/-! DEFINITION. What travels on the Ethernet port and on a fabric link, as bytes: RoCEv2 frames and pause frames in
network byte order (R5, R36, R37, R44; log entry 40), and flits (R49). -/
namespace Sys2Proof.Machine
open Sys2Proof

-- RoCE packets (R5, R37)

/-- The operation code of a packet's base transport header. -/
def bthOp (p : RocePkt) : Nat :=
  match p.op, p.first, p.last with
  | .send, true, true => 0x04 | .send, false, true => 0x02
  | .sendImm, true, true => 0x05 | .sendImm, false, true => 0x03
  | .send, true, false | .sendImm, true, false => 0x00
  | .send, false, false | .sendImm, false, false => 0x01
  | .write, true, true => 0x0A | .write, false, true => 0x08
  | .writeImm, true, true => 0x0B | .writeImm, false, true => 0x09
  | .write, true, false | .writeImm, true, false => 0x06
  | .write, false, false | .writeImm, false, false => 0x07
  | .read, _, _ => 0x0C
  | .readResp, true, true => 0x10 | .readResp, true, false => 0x0D
  | .readResp, false, true => 0x0F | .readResp, false, false => 0x0E
  | .atomic, _, _ => 0x13
  | .ack, _, _ | .nak _, _, _ => 0x11
  | .cnp, _, _ => 0x81

/-- Bytes of a packet's extension headers. -/
def roceExt (p : RocePkt) : Nat :=
  let reth := if p.first then 16 else 0
  match p.op with
  | .send => 0
  | .sendImm => if p.last then 4 else 0
  | .write => reth
  | .writeImm => reth + (if p.last then 4 else 0)
  | .read => 16
  | .atomic => 28
  | .ack | .nak _ => 4
  | .readResp => if p.first || p.last then 4 else 0
  | .cnp => 16

/-- The syndrome of an answer. -/
def aethSyn : RoceOp → Nat
  | .nak c => 0x60 + c
  | _ => 0x1F

/-- The extension headers that the device sends: a READ or WRITE request's, an answer's, or a CNP's reserved bytes. -/
def roceExtBytes (p : RocePkt) : List Byte :=
  let reth : List Byte := beBytes 8 p.va ++ beBytes 4 p.rkey.toNat ++ beBytes 4 p.len
  let aeth : List Byte := beBytes 1 (aethSyn p.op) ++ beBytes 3 p.msn
  let bs := match p.op with
    | .write | .writeImm | .read => reth
    | .ack | .nak _ | .readResp => aeth
    | _ => []
  (bs ++ List.replicate 28 0).take (roceExt p)

/-- The base transport header, with its reserved byte as the ICRC sees it where `mask`. -/
def bthBytes (p : RocePkt) (mask : Bool) : List Byte :=
  let pad := (4 - p.data.length % 4) % 4
  let ask := match p.op with | .send | .write | .read => p.last | _ => false
  beBytes 1 (bthOp p) ++ beBytes 1 (pad * 16) ++ beBytes 2 0xFFFF ++ beBytes 1 (if mask then 0xFF else 0) ++
    beBytes 3 p.qpn ++ beBytes 1 (if ask then 0x80 else 0) ++ beBytes 3 p.psn

/-- A packet's headers and payload, filled to a multiple of 4. -/
def roceBytes (p : RocePkt) (mask : Bool) : List Byte :=
  bthBytes p mask ++ roceExtBytes p ++ p.data ++ List.replicate ((4 - p.data.length % 4) % 4) 0

-- IP, UDP and Ethernet (R5, R36, R37)

/-- CRC-32 of IEEE 802.3, as transmitted. -/
def crc32Bytes (bs : List Byte) : List Byte :=
  leBytes 4 (~~~(bs.foldl (crcStep 0xEDB88320) 0xFFFFFFFF)).toNat

/-- The ones' complement sum of an IPv4 header. -/
def ipSum (bs : List Byte) : Nat :=
  let s := ((List.range (bs.length / 2)).map (fun i => beNat ((bs.drop (2 * i)).take 2))).sum
  let s := s % 65536 + s / 65536
  65535 - (s % 65536 + s / 65536)

/-- The IP header of a frame whose UDP datagram has `n` bytes; where `mask`, with the fields that a router may change
as the ICRC sees them. -/
def ipBytes (f : Frame) (n : Nat) (mask : Bool) : List Byte :=
  let ff (k : Nat) (v : Nat) : List Byte := beBytes k (if mask then 256 ^ k - 1 else v)
  if f.v6 then
    (if mask then beBytes 4 0x6FFFFFFF else beBytes 4 (0x60000000 + f.tc % 256 * 2 ^ 20)) ++ beBytes 2 n ++
      beBytes 1 17 ++ ff 1 64 ++ beBytes 16 f.sip.toNat ++ beBytes 16 f.ip.toNat
  else
    let h (sum : Nat) : List Byte :=
      beBytes 1 0x45 ++ ff 1 (f.tc % 256) ++ beBytes 2 (20 + n) ++ beBytes 4 0x4000 ++ ff 1 64 ++ beBytes 1 17 ++
        ff 2 sum ++ beBytes 4 f.sip.toNat ++ beBytes 4 f.ip.toNat
    h (ipSum (h 0))

/-- The UDP header of a RoCE packet, to port 4791 (R37). -/
def udpBytes (n : Nat) (mask : Bool) : List Byte :=
  beBytes 2 0xC000 ++ beBytes 2 4791 ++ beBytes 2 n ++ beBytes 2 (if mask then 0xFFFF else 0)

/-- The addresses, the VLAN tag and the type of a frame. -/
def ethBytes (f : Frame) (type : Nat) : List Byte :=
  beBytes 6 f.mac.toNat ++ beBytes 6 f.src.toNat ++
    (if f.vlan = 0 then [] else beBytes 2 0x8100 ++ beBytes 2 (f.pcp % 8 * 2 ^ 13 + f.vlan)) ++ beBytes 2 type

/-- A RoCE frame without its FCS: the ICRC covers the invariant fields (R37). -/
def roceFrame (f : Frame) (p : RocePkt) : List Byte :=
  let n := 8 + (roceBytes p false).length + 4
  let body := udpBytes n false ++ roceBytes p false
  let icrc := crc32Bytes (List.replicate 8 0xFF ++ ipBytes f n true ++ udpBytes n true ++ roceBytes p true)
  ethBytes f (if f.v6 then 0x86DD else 0x0800) ++ ipBytes f n false ++ body ++ icrc

/-- The PTP header's message type (R46). -/
def ptpType : PtpKind → Nat
  | .sync => 0 | .delayReq => 1 | .pdelayReq => 2 | .pdelayResp => 3 | .followUp => 8 | .delayResp => 9
  | .pdelayRespFollowUp => 0xA | .announce => 0xB

/-- The UDP port of a PTP message: 319 for event messages, 320 for the others (R46). -/
def ptpPort (k : PtpKind) : Nat := if ptpType k < 8 then 319 else 320

/-- A PTP message: its header with the domain, and a timestamp in seconds and nanoseconds. -/
def ptpBytes (m : PtpMsg) : List Byte :=
  let n := if m.kind = .delayReq then 44 else 54
  let head : List Byte := beBytes 1 (ptpType m.kind) ++ beBytes 1 0x12 ++ beBytes 2 n ++ [m.domain]
  let time : List Byte := beBytes 6 (m.time / 1000000000) ++ beBytes 4 (m.time % 1000000000)
  (head ++ List.replicate (34 - head.length) 0 ++ time ++ List.replicate 10 0).take n

/-- The bytes of a frame that the device sends, in the order of transmission (R5). -/
def frameBytes (f : Frame) : List Byte :=
  let bs := match f.body with
    | .roce p => roceFrame f p
    | .pfc en q =>
      ethBytes f 0x8808 ++ beBytes 2 0x0101 ++ beBytes 2 en.toNat ++
        (List.range 8).flatMap (fun c => beBytes 2 (bitsN q (16 * c) 16))
    | .ptp m =>
      (match m.trans with
       | .ether => ethBytes f 0x88F7 ++ ptpBytes m
       | _ =>
         let b := ptpBytes m
         let n := 8 + b.length
         ethBytes f (if f.v6 then 0x86DD else 0x0800) ++ ipBytes f n false ++
           (beBytes 2 (ptpPort m.kind) ++ beBytes 2 (ptpPort m.kind) ++ beBytes 2 n ++ beBytes 2 0) ++ b)
    | .pause | .other => []
  let bs := bs ++ List.replicate (60 - bs.length) 0
  bs ++ crc32Bytes bs

-- Flits (R49)

/-- The trailer of a flit without its CRC: bytes 64 to 75 of the flit (R49). -/
def flitTrailer (f : Flit) : List Byte :=
  leBytes 12 (f.seq % 2 ^ 12 + f.ack % 2 ^ 12 * 2 ^ 12 + f.vl % 8 * 2 ^ 24 + f.kind % 16 * 2 ^ 27 +
    f.off.toNat * 2 ^ 32 + f.tag.toNat * 2 ^ 40 + f.len % 256 * 2 ^ 56)

/-- CRC-32C over bytes 0 to 75 of a flit (R49). -/
def flitCrc (f : Flit) : W32 :=
  ~~~(crcBytes 0xFFFFFFFF (leBytes 64 f.data.toNat ++ flitTrailer f))

/-- The 80 bytes of a flit (R49). -/
def flitBytes (f : Flit) : List Byte :=
  leBytes 64 f.data.toNat ++ flitTrailer f ++ leBytes 4 (flitCrc f).toNat

/-- The flit that 80 bytes are: its CRC is good where it is that of bytes 0 to 75 (R49). -/
def flitOf (bs : List Byte) : Flit :=
  let t := leNat ((bs.drop 64).take 12)
  let f : Flit :=
    { kind := t / 2 ^ 27 % 16, vl := t / 2 ^ 24 % 8, seq := t % 2 ^ 12, ack := t / 2 ^ 12 % 2 ^ 12
      off := BitVec.ofNat 6 (t / 2 ^ 32), tag := BitVec.ofNat 16 (t / 2 ^ 40), len := t / 2 ^ 56 % 256
      crcOk := false, data := BitVec.ofNat 512 (leNat (bs.take 64)) }
  let crc : W32 := ~~~(crcBytes 0xFFFFFFFF (bs.take 76))
  { f with crcOk := crc.toNat = leNat ((bs.drop 76).take 4) }

end Sys2Proof.Machine
end

