-- ==== Sys2Proof/Machine/Notify.lean ====
section
/-! DEFINITION. Functions of the host port and their queue pairs (R37 to R42), the frames the device sends,
and notifications (R94 to R96). -/
namespace Sys2Proof.Machine
open Sys2Proof

-- Functions (R39, R41, R42)

/-- The package supervisor function's number (R41). -/
def psf : Nat := 512
/-- VFMAP of a VF (R39). -/
def vfWord (s : State) (v : Nat) : W32 := tabGet s.port.vfmap 0 v
/-- VFMAP.PART. -/
def vfPart (s : State) (v : Nat) : Nat := bitsN (vfWord s v) 16 4
/-- A partition number names a partition whose bulkheads are ASSIGNED (R16). -/
def assigned (s : State) (p : Nat) : Bool :=
  (partOf s p).live && (partBhs s p).all (fun b => (bhOf s b).st == .assigned && (bhOf s b).part == p)
/-- A function is enabled (R39): the PSF always. -/
def fnOn (s : State) (f : Nat) : Bool :=
  f == psf || (decide (f < psf) && bitB (vfWord s f) 31 && assigned s (vfPart s f))
/-- A word of a function's address block (R41). -/
def fnAddr (s : State) (f w : Nat) : W32 := tabGet s.port.fnaddr 0 (16 * f + w)
/-- A VLAN identifier as the wire has it: 0 and 4,095 are untagged (R39). -/
def vlanId (v : Nat) : Nat := if v = 4095 then 0 else v
/-- The VLAN of a function (R39, R41). -/
def fnVlan (s : State) (f : Nat) : Nat :=
  vlanId (if f = psf then bitsN (fnAddr s f 3) 2 12 else bitsN (vfWord s f) 0 12)
/-- Whose reservation a function's frames use: its partition, 16 for the PSF (R43). -/
def fnGroup (s : State) (f : Nat) : Nat := if f = psf then 16 else vfPart s f

/-- The key of queue pair n of function f; its number is 0x4000 above (R42). -/
def qpKey (f n : Nat) : Nat := 64 * f + n
/-- Function and queue pair exist (R42). -/
def qpExists (f n : Nat) : Bool := if f = psf then n < 64 else decide (f < psf) && decide (n < 16)
/-- A queue pair. -/
def qpOf (s : State) (k : Nat) : QpS := tabGet s.port.qps {} k
/-- Change a queue pair. -/
def modQp (s : State) (k : Nat) (f : QpS → QpS) : State :=
  { s with port := { s.port with qps := tabMod s.port.qps {} k f } }
/-- The path MTU of a queue pair in bytes (R37, R42). -/
def mtuBytes (q : QpS) : Nat := 1024 * 2 ^ q.mtu

-- Frames to send (R37, R41, R43, R45)

/-- Bytes of a frame with its FCS (log entry 40). -/
def frameLen (vlan : Nat) (v6 : Bool) (p : RocePkt) : Nat :=
  max 64 (14 + (if vlan = 0 then 0 else 4) + (if v6 then 40 else 20) + 8 + 12 + roceExt p +
    (p.data.length + 3) / 4 * 4 + 4 + 4)

/-- A function sends an IP version (R41). -/
def fnSends (s : State) (f : Nat) (v6 : Bool) : Bool := bitB (fnAddr s f 3) (if v6 then 1 else 0)
/-- The MAC address of a function (R41). -/
def fnMac (s : State) (f : Nat) : Nat := (fnAddr s f 1).toNat % 65536 * 2 ^ 32 + (fnAddr s f 0).toNat
/-- Its IPv4 or IPv6 address (R41). -/
def fnIp (s : State) (f : Nat) (v6 : Bool) : Nat :=
  let w (i : Nat) : Nat := (fnAddr s f i).toNat
  if v6 then ((w 4 * 2 ^ 32 + w 5) * 2 ^ 32 + w 6) * 2 ^ 32 + w 7 else w 2

/-- The frame of a packet that queue pair k sends; its own addresses are put in when it goes out. -/
def mkFrame (s : State) (k : Nat) (p : RocePkt) : Frame :=
  let q := qpOf s k
  let vlan := fnVlan s (k / 64)
  { mac := q.mac, vlan := vlan, v6 := q.v6, ip := q.ip, len := frameLen vlan q.v6 p, fcs := true, ce := false,
    tc := q.tcls + (if q.ecn then 2 else 0), body := .roce { p with qpn := q.remote }, qp := some k
    ord := s.port.ordNext }

/-- Bytes of a list of frames. -/
def framesLen (l : List Frame) : Nat := (l.map (fun f => f.len)).sum

/-- The frames that hold a place in reservation g: of partition g, 16 of the PSF, and 17 the checkpoint frames of FREE
bulkheads, which lie in the PSF's (R43, R87). -/
def txFrames (s : State) (g : Nat) : List Frame :=
  if g < 16 then tabGet s.port.tx [] g else tabGet s.port.tx [] 16 ++ s.port.txFree

/-- Room for a frame in a transmit reservation of 512 KiB (R43). -/
def txRoom (s : State) (g n : Nat) : Bool := framesLen (txFrames s g) + n ≤ 524288

/-- A frame takes its place in a reservation. -/
def enterTx (p : PortS) (g : Nat) (f : Frame) : PortS :=
  if g = 17 then { p with txFree := p.txFree ++ [f] } else { p with tx := tabMod p.tx [] g (fun l => l ++ [f]) }

/-- A frame takes its place in a reservation, or waits for room in it behind those that wait already (R43). -/
def readyFrame (s : State) (g : Nat) (f : Frame) : State :=
  let p := { s.port with ordNext := s.port.ordNext + 1 }
  if (tabGet p.txWait [] g).isEmpty && txRoom s g f.len then { s with port := enterTx p g f }
  else { s with port := { p with txWait := tabMod p.txWait [] g (fun l => l ++ [f]) } }

/-- The frames that wait for a reservation enter it in order while there is room (R43). -/
def fillTx (s : State) (g : Nat) : List Frame → State
  | [] => { s with port := { s.port with txWait := tabPut s.port.txWait [] g [] } }
  | f :: r =>
    if txRoom s g f.len then fillTx { s with port := enterTx s.port g f } g r
    else { s with port := { s.port with txWait := tabPut s.port.txWait [] g (f :: r) } }

/-- A checkpoint frame of a FREE bulkhead is ready, in the PSF's reservation (R43, R45, R87). -/
def readyFree (s : State) (f : Frame) : State := readyFrame s 17 f

/-- An RTS queue pair sends a packet (R42). -/
def sendPkt (s : State) (k : Nat) (p : RocePkt) : State :=
  if (qpOf s k).st = .rts then readyFrame s (fnGroup s (k / 64)) (mkFrame s k p) else s

/-- Make a request's frame ready: in the function's reservation, but for checkpoint frames (R43, R45, R87). -/
def readyReq (s : State) (k : Nat) (p : RocePkt) (w : QpWork) : State :=
  match w with
  | .ckpt (some g) => readyFrame s g (mkFrame s k p)
  | .ckpt none => readyFree s (mkFrame s k p)
  | _ => readyFrame s (fnGroup s (k / 64)) (mkFrame s k p)

/-- The frames of a queue pair that have not gone out are dropped: only an RTS queue pair sends (R42). -/
def dropTx (s : State) (k : Nat) : State :=
  let keep (l : List Frame) : List Frame := l.filter (fun f => f.qp ≠ some k)
  let all (t : Tab (List Frame)) : Tab (List Frame) := t.map (fun x => (x.1, keep x.2))
  { s with port := { s.port with
      tx := all s.port.tx, txWait := all s.port.txWait, txFree := keep s.port.txFree } }

/-- An RTS queue pair sends a request, and keeps it until it is acknowledged; it takes `n` PSNs (R37). -/
def sendReq (s : State) (k : Nat) (p : RocePkt) (n : Nat) (w : QpWork) : State :=
  let q := qpOf s k
  if q.st = .rts then
    let p := { p with psn := q.sPsn, qpn := q.remote }
    modQp (readyReq s k p w) k (fun q =>
      { q with sPsn := (q.sPsn + n) % 2 ^ 24, out := q.out ++ [(p.psn, p, w)]
               at_ := if q.out.isEmpty then s.now else q.at_ })
  else s

/-- Every frame that has not gone out. -/
def allTx (s : State) : List Frame :=
  s.port.tx.flatMap (fun x => x.2) ++ s.port.txWait.flatMap (fun x => x.2) ++ s.port.txFree

-- Notifications (R94, R95)

/-- The buffer of a function is full (R95). -/
def notifFull (s : State) (f : Nat) : Bool := 256 ≤ (tabGet s.port.notif [] f).length
/-- A notification joins a function's buffer. -/
def pushNotif (s : State) (f : Nat) (n : Notif) : State :=
  { s with port := { s.port with notif := tabMod s.port.notif [] f (fun l => l ++ [n]) } }

/-- A notification that no packet waits for joins the buffer, or waits for room in it (R95; log entry 60). -/
def pushLate (s : State) (f : Nat) (n : Notif) : State :=
  if notifFull s f then
    { s with port := { s.port with notifLate := tabMod s.port.notifLate [] f (fun l => l ++ [n]) } }
  else pushNotif s f n

/-- A buffer that has room takes the oldest notification that waits for it. -/
def lateNotif (s : State) (f : Nat) : State :=
  match tabGet s.port.notifLate [] f with
  | [] => s
  | n :: r =>
    if notifFull s f then s
    else pushNotif { s with port := { s.port with notifLate := tabPut s.port.notifLate [] f r } } f n

/-- The 64 bytes of a notification (R94). -/
def notifBytes (n : Notif) : List Byte :=
  leBytes 1 n.kind ++ leBytes 1 n.cause ++ leBytes 1 n.q ++ leBytes 1 n.level ++ leBytes 4 n.seq.toNat ++
    leBytes 8 n.cookie.toNat ++ leBytes 4 n.offset ++ leBytes 4 n.disc ++ leBytes 8 n.time.toNat ++
    leBytes 32 n.tail.toNat

/-- A SEND of bytes (R37). -/
def sendOp (bs : List Byte) : RocePkt := { op := .send, qpn := 0, psn := 0, data := bs }

/-- A notification of function f that goes out on another queue pair than k has not left yet (R117). -/
def notifAhead (s : State) (f k : Nat) : Bool :=
  (allTx s).any (fun g => match g.qp, g.body with
    | some j, .roce p => j / 64 = f && j ≠ k && p.op = .send
    | _, _ => false)

/-- NOTIFICATION_SEND (R39, R95, R117): the oldest notification of an enabled function whose queue pair is RTS goes out,
where its frame has room and those before it have left. -/
def execNotificationSend (s : State) : Host.Outcome State Fault Refusal :=
  .next (
    let f := s.cur.fn
    match tabGet s.port.notif [] f with
    | [] => s
    | n :: r =>
      let k := qpKey f n.qp
      if fnOn s f && (qpOf s k).st = .rts && txRoom s (fnGroup s f) 154 && !notifAhead s f k then
        sendReq (lateNotif { s with port := { s.port with notif := tabSet s.port.notif f r } } f) k
          (sendOp (notifBytes n)) 1 .notify
      else s)

/-- The 32 bytes of an error record (R86). -/
def errBytes (r : ErrRec) : List Byte :=
  leBytes 2 r.cls ++ leBytes 1 (r.bh + 16 * r.part) ++ leBytes 1 r.syn ++ leBytes 2 r.region ++ leBytes 2 0 ++
    leBytes 4 r.line ++ leBytes 4 r.count ++ leBytes 8 r.time ++ leBytes 8 0

/-- The notification of an error record (R94, R96). -/
def errNotif (s : State) (r : ErrRec) : Notif :=
  { kind := 7, cause := 0, q := 0, level := 0, seq := 0, cookie := 0, offset := 0, disc := 0,
    time := BitVec.ofNat 64 (nsTime s), tail := BitVec.ofNat 256 (leNat (errBytes r)), qp := s.hub.errQp }

/-- ERROR_RECORD_DELIVER (R96): the oldest buffered record goes to the supervisor, while EN is 1 and its queue
pair is RTS. -/
def execErrorRecordDeliver (s : State) : Host.Outcome State Fault Refusal :=
  .next (
    match s.hub.errBuf with
    | [] => s
    | r :: rest =>
      let k := qpKey psf s.hub.errQp
      if s.hub.errEn && (qpOf s k).st = .rts && txRoom s 16 154 then
        sendReq { s with hub := { s.hub with errBuf := rest } } k (sendOp (notifBytes (errNotif s r))) 1 .notify
      else s)

/-- ERRQP_DROP_CLEAR (R6, R96): a 1 written anywhere in DROP clears it. -/
def execErrqpDropClear (s : State) : Host.Outcome State Fault Refusal :=
  .next { s with hub := { s.hub with errDrop := s.hub.errDrop.clear s.now } }

end Sys2Proof.Machine
end

