-- ==== Sys2Proof/Machine/Queue.lean ====
section
/-! DEFINITION. Queues: their states, submit records, stream levels and capture, faults and waits (R88 to
R93, R101, R102, R110, R115). -/
namespace Sys2Proof.Machine
open Sys2Proof

/-- The fault causes of R115. -/
def qfIllpkt : Nat := 0x01
/-- Malformed packet. -/
def qfMalform : Nat := 0x02
/-- Packet not allowed on the queue. -/
def qfQkind : Nat := 0x03
/-- Third IB level. -/
def qfIbdepth : Nat := 0x04
/-- Span rules. -/
def qfSpan : Nat := 0x05
/-- Address, kind or owner. -/
def qfRegion : Nat := 0x06
/-- Poison. -/
def qfPoison : Nat := 0x07
/-- Key revoked. -/
def qfKeyrev : Nat := 0x08
/-- Semaphore name. -/
def qfSemname : Nat := 0x09
/-- Host fetch failed. -/
def qfFetch : Nat := 0x0A
/-- Descriptor invalid. -/
def qfDesc : Nat := 0x0B
/-- Copy footprints overlap. -/
def qfOverlap : Nat := 0x0C
/-- Read-only region. -/
def qfKeyexh : Nat := 0x0D
/-- A link of a collective is down. -/
def qfLink : Nat := 0x0E

/-- The queue fault of a refused command-path access (R99). -/
def xFault : Cause → Nat
  | .keyexh => qfKeyexh
  | .keyrev => qfKeyrev
  | _ => qfRegion

/-- The owner code of a bulkhead's command path (R209). -/
def cmdOwner (s : State) (b : Nat) : Nat := 0x60 + (b - (bhOf s b).part)
/-- The partition of a bulkhead. -/
def partOfBh (s : State) (b : Nat) : Nat := (bhOf s b).part
/-- Queue number Q of local queue q of bulkhead b (R88). -/
def queueNum (s : State) (b q : Nat) : Nat := 16 * (b - partOfBh s b) + q

-- Notifications of a queue (R94, R95, R117)

/-- A notification of queue q about its current submission. -/
def queueNotif (s : State) (b q kind cause level offset disc : Nat) (cookie : Option W64)
    (tail : BitVec 256) : Notif :=
  let x := queueOf s b q
  let r := x.cur
  { kind := kind, cause := cause, q := queueNum s b q, level := level,
    seq := (r.map (fun r => r.seq)).getD 0,
    cookie := cookie.getD ((r.map (fun r => r.cookie)).getD 0), offset := offset, disc := disc,
    time := BitVec.ofNat 64 (nsTime s), tail := tail, qp := x.nqp }

/-- The level a queue executes at (R103). -/
def queueLevel (x : QueueS) : Nat := x.levels.length - 1
/-- The innermost level. -/
def topLevel (x : QueueS) : Option LevelS := x.levels.getLast?
/-- Change the innermost level. -/
def modTop (x : QueueS) (f : LevelS → LevelS) : QueueS :=
  match x.levels.getLast? with
  | some l => { x with levels := x.levels.dropLast ++ [f l] }
  | none => x

/-- The header word at an offset of a level, as captured. -/
def heldWord (l : LevelS) (o : Nat) : Option W32 :=
  let bs := (List.range 4).map (fun i => tabFind l.bytes (o + i))
  if bs.all (fun x => match x with | some (.byte _) => true | _ => false) then
    some (BitVec.ofNat 32 (leNat (bs.map (fun x => match x with | some (.byte v) => v | _ => 0))))
  else none

-- Leaving RUNNING and WAITING (R90, R118)

/-- Submissions discarded when a queue halts or faults: the running one and those pending (R118). -/
def discardCount (x : QueueS) : Nat := (if x.cur.isSome then 1 else 0) + x.pend.length

/-- Drop the rest of the submission and every pending record (R90). -/
def dropWork (x : QueueS) (st : QState) : QueueS :=
  { x with st := st, pend := [], cur := none, levels := [], wait := none, waited := false, fetching := false,
           reply := none, scanning := false, haltReq := false, marks := [] }

/-- The queue waits (R90). -/
def queueWait (s : State) (b q : Nat) (w : QWait) : State :=
  modQueue s b q (fun x => { x with st := .waiting, wait := some w })

/-- A queue fault of the packet at a level and offset (R94, R115): QFAULT with its header word, and FAULTED; with 256
notifications held the packet waits first (R95). -/
def queueFaultAt (s : State) (b q cause level at_ : Nat) (head : W32) : State :=
  let x := queueOf s b q
  if notifFull s x.vf then queueWait s b q .notif
  else
    let s := pushNotif s x.vf (queueNotif s b q 4 cause level at_ (discardCount x) none (head.setWidth 256))
    modQueue s b q (fun x => dropWork x .faulted)

/-- A queue fault of the packet being executed. DESIGN CHOICE (log entry 139): the spec does not say what header a QFAULT
carries where the packet's header has not come whole; it is zero. -/
def queueFault (s : State) (b q cause : Nat) : State :=
  let x := queueOf s b q
  queueFaultAt s b q cause (queueLevel x) x.at_ (((topLevel x).bind (fun l => heldWord l x.at_)).getD 0)

/-- Enter HALTED, with a HALTED notification where one is asked for (R90, R105). -/
def queueHalt (s : State) (b q : Nat) (note : Bool) : State :=
  let x := queueOf s b q
  if note && notifFull s x.vf then queueWait s b q .notif
  else
    let s := if note then
        pushNotif s x.vf (queueNotif s b q 5 0 (queueLevel x) x.at_ (discardCount x) none 0)
      else s
    modQueue s b q (fun x => dropWork x .halted)

/-- QMAP_HALT (R89): at the next packet boundary while RUNNING, at once while WAITING, else ignored. -/
def execQmapHalt (s : State) : Host.Outcome State Fault Refusal :=
  .next (
    let b := s.cur.bh
    let q := s.cur.q
    match (queueOf s b q).st with
    | .running => modQueue s b q (fun x => { x with haltReq := true })
    | .waiting => queueHalt s b q false
    | _ => s)

-- Submit records (R91, R92)

/-- Start a record: its main stream is level 0. -/
def startRec (x : QueueS) (r : SubRec) : QueueS :=
  let l : LevelS := { host := r.host, base := r.addr, len := r.len, rkey := r.rkey, pos := 0 }
  { x with st := .running, cur := some r, levels := [l], wait := none, waited := false, fetching := false,
           reply := none, scanning := false, at_ := 0 }

/-- The payload of a record is well formed (R92, check 1). -/
def recOk (bs : List Byte) : Bool :=
  let f (o n : Nat) : Nat := leNat ((bs.drop o).take n)
  bs.length == 64 && decide (f 1 1 ≤ 1) && decide (f 2 1 < 4) && f 3 1 == 0 && decide (4 ≤ f 0x10 4) &&
    decide (f 0x10 4 ≤ 2 ^ 24) && f 0x10 4 % 4 == 0 && (f 1 1 == 1 || f 0x14 4 == 0) && f 0x20 32 == 0

/-- The record of a payload. DESIGN CHOICE (log entry 138): the spec does not say what a REFUSED record names for a payload
shorter than 64 bytes; the bytes it lacks read as zero. -/
def recOf (bs : List Byte) (f qp : Nat) : SubRec :=
  let g (o n : Nat) : Nat := leNat ((bs.drop o).take n)
  { q := g 0 1, host := g 1 1 == 1, flags := g 2 1, seq := BitVec.ofNat 32 (g 4 4), addr := g 8 8,
    len := g 0x10 4, rkey := BitVec.ofNat 32 (g 0x14 4), cookie := BitVec.ofNat 64 (g 0x18 8), fn := f,
    qp := qp }

/-- The first check of R92 that a record fails. -/
def recRefused (s : State) (bs : List Byte) (f : Nat) : Option Nat :=
  let r := recOf bs f 0
  let p := vfPart s f
  let x := queueOf s (p + r.q / 16) (r.q % 16)
  let stopped := x.st == .halted || x.st == .faulted
  if !recOk bs then some 1
  else if f = psf || !assigned s p || partSize s p ≤ r.q / 16 || !x.en || x.vf ≠ f then some 2
  else if r.seq ≠ x.expected then some 3
  else if (r.flags % 2 == 1) ≠ stopped then some 4
  else if 64 ≤ x.pend.length then some 5
  else none

/-- A submit record arrives on queue pair n of function f (R91, R92). -/
def submit (s : State) (f n : Nat) (bs : List Byte) : State :=
  let r := recOf bs f n
  match recRefused s bs f with
  | some c =>
    if notifFull s f then s
    else pushNotif s f
      { kind := 3, cause := c, q := r.q, level := 0, seq := r.seq, cookie := r.cookie, offset := 0, disc := 0,
        time := BitVec.ofNat 64 (nsTime s), tail := 0, qp := n }
  | none =>
    modQueue s (vfPart s f + r.q / 16) (r.q % 16) (fun x =>
      let x := { x with expected := x.expected + 1 }
      match x.st with
      | .running | .waiting => { x with pend := x.pend ++ [r] }
      | _ => startRec x r)

-- Capture of stream bytes (R93, R110)

/-- The stretch of a level that has still to be captured in [lo, hi): from its first byte not held to its
last. -/
def missing (l : LevelS) (lo hi : Nat) : Option (Nat × Nat) :=
  let offs := ((List.range (min hi l.len - lo)).map (fun i => lo + i)).filter
    (fun o => (tabFind l.bytes o).isNone)
  match offs.head?, offs.getLast? with
  | some a, some z => some (a, z + 1 - a)
  | _, _ => none

/-- What the packet at the head of a level needs captured before it starts (R110): its header's 260 bytes, then
its own and 256 more. -/
def captureEnd (l : LevelS) : Nat :=
  match heldWord l l.pos with
  | some h => l.pos + 4 * max 1 (bitsN h 10 14) + 256
  | none => l.pos + 260

/-- Hold bytes that were fetched, keeping those already held (R110). -/
def holdBytes (l : LevelS) (o : Nat) (bs : List HeldByte) : LevelS :=
  let put (x : Tab HeldByte × Nat) (v : HeldByte) : Tab HeldByte × Nat :=
    (if (tabFind x.1 x.2).isSome || l.len ≤ x.2 then x.1 else tabSet x.1 x.2 v, x.2 + 1)
  { l with bytes := (bs.foldl put (l.bytes, o)).1 }

/-- Drop the held bytes of [lo, hi). -/
def dropHeld (l : LevelS) (lo hi : Nat) : LevelS :=
  { l with bytes := l.bytes.filter (fun x => x.1 < lo || hi ≤ x.1) }

/-- Stream bytes of device memory (R93): each line's, or the fault it raises when its packet starts. -/
def deviceBytes (s : State) (b va n : Nat) : State × List HeldByte :=
  let p := partOfBh s b
  (paLines va n).foldl (fun (x : State × List HeldByte) l =>
    let lo := max va (64 * l)
    let m := min (va + n) (64 * l + 64) - lo
    let refused (c : Nat) : State × List HeldByte := (x.1, x.2 ++ List.replicate m (.bad c))
    match regionAtVa x.1 p lo with
    | none => refused qfRegion
    | some (_, r) =>
      if r.kind = 2 || (r.kind = 1 && r.owner = cmdOwner x.1 b) then
        match xlatePart x.1 p lo m (cmdOwner x.1 b) .rd with
        | .bad c _ => refused (xFault c)
        | .ok _ r off =>
          let (t, v) := regRead x.1 b r off m none 0
          if v.rev then refused qfKeyrev
          else if v.bad then (t, x.2 ++ List.replicate m (.bad qfPoison))
          else (t, x.2 ++ v.bytes.map .byte)
      else refused qfRegion) (s, [])

/-- Some line of device stream bytes waits for a release of its region (R105, R215). -/
def deviceWaits (s : State) (b va n : Nat) : Bool :=
  (paLines va n).any (fun l => releaseWait s (partOfBh s b) (cmdOwner s b) none (max va (64 * l)))

/-- The bytes one host read asks for: at most 4 KiB and one path MTU (R93). -/
def readSize (q : QpS) (n : Nat) : Nat := min n (min 4096 (mtuBytes q))

/-- Start to fetch `n` bytes of a level at an offset (R93): an RDMA READ on the record's queue pair for a host
stream, a read of class C1 for device memory. -/
def startFetch (s : State) (b q o n : Nat) : State :=
  let x := queueOf s b q
  match topLevel x, x.cur with
  | some l, some r =>
    if l.host then
      let k := qpKey r.fn r.qp
      let n := readSize (qpOf s k) n
      if (qpOf s k).st = .rts then
        let p : RocePkt := { op := .read, qpn := 0, psn := 0, va := l.base + o, rkey := l.rkey, len := n }
        modQueue (sendReq s k p 1 (.fetch b q (queueLevel x) o n)) b q
          (fun x => { x with fetching := true, reply := none })
      else modQueue s b q (fun x => { x with fetching := true, reply := some none })
    else modQueue s b q (fun x => { x with fetching := true, reply := some (some (o, n, [])) })
  | _, _ => s

/-- STREAM_FETCH_COMPLETE (R93, R102, R110): the bytes a queue fetched are captured, or looked at for the check of a
LOOP span; a host read that ended in error faults the queue with FETCH. -/
def execStreamFetchComplete (s : State) : Host.Outcome State Fault Refusal :=
  .next (
    let b := s.cur.bh
    let q := s.cur.q
    let x := queueOf s b q
    if !x.fetching then s
    else
      match x.reply, topLevel x with
      | none, _ => s
      | some none, _ => queueFault s b q qfFetch
      | some (some (o, n, bs)), some l =>
        if !l.host && deviceWaits s b (l.base + o) n then s
        else
          let (s, hs) := if l.host then (s, bs.map HeldByte.byte) else deviceBytes s b (l.base + o) n
          modQueue s b q (fun x =>
            modTop { x with fetching := false, scanning := false, reply := none } (fun l =>
              if x.scanning then { l with scan := (holdBytes { l with bytes := l.scan } o hs).bytes }
              else holdBytes l o hs))
      | some (some _), none => modQueue s b q (fun x => { x with fetching := false, reply := none }))

-- Work of a queue (R105, R106)

/-- A node that has reached an end (R124). -/
def nodeOver (n : NodeS) : Bool := n.st == .done || n.st == .failed

/-- Nothing that the queue started is left, and every write of it is committed (R105 QUIESCE). -/
def queueQuiet (s : State) (b q : Nat) : Bool :=
  let x := bhOf s b
  (queueOf s b q).copies.isEmpty && x.nodes.all (fun n => n.2.q ≠ some q || (nodeOver n.2 && !n.2.addDue)) &&
    x.colls.all (fun c => c.2.q ≠ some q) &&
    (partArrs s x.part).all (fun p =>
      let a := arrOf s p
      a.nq ≠ some (b, q) || (a.eg.isEmpty && a.drained.isEmpty))

/-- Launched nodes of a BCP that have not ended (R106). -/
def liveNodes (s : State) (b : Nat) : Nat := ((bhOf s b).nodes.filter (fun n => !nodeOver n.2)).length

/-- Blocks of a chain of WCBs that a BCP does not hold (R123). -/
def freshBlocks (s : State) (b : Nat) (chain : List Nat) : Nat :=
  (chain.filter (fun w => (tabFind (bhOf s b).wcbs w).isNone)).length

/-- What a WAITING queue awaits now holds (R90). A launch that waits names no chain once copies have been released (R123). -/
def waitHolds (s : State) (b q : Nat) : QWait → Bool
  | .sem name v => !(semGet s (partOfBh s b) name).ult v
  | .quiesce => queueQuiet s b q
  | .nodes ch => liveNodes s b < 256 && (bhOf s b).wcbs.length + freshBlocks s b ch ≤ 512 &&
      !(s.hub.ckBusy && bitB s.hub.ckRun.mask b)
  | .copies => (queueOf s b q).copies.length < 8
  | .notif => !notifFull s (queueOf s b q).vf
  | .xfer _ | .fetch => false

/-- QUEUE_WAIT_SATISFIED (R90): the queue returns to RUNNING and its packet starts again. -/
def execQueueWaitSatisfied (s : State) : Host.Outcome State Fault Refusal :=
  .next (
    let b := s.cur.bh
    let q := s.cur.q
    let x := queueOf s b q
    match x.wait with
    | none => s
    | some w =>
      if x.st = .waiting && waitHolds s b q w then
        let passed := match w with | .sem _ _ | .quiesce => true | _ => x.waited
        modQueue s b q (fun x => { x with st := .running, wait := none, waited := passed })
      else s)

end Sys2Proof.Machine
end

