-- ==== Sys2Proof/Machine/Packets.lean ====
section
/-! DEFINITION. The command packets that are synchronous, order the queue or copy memory (R97 to R107). -/
namespace Sys2Proof.Machine
open Sys2Proof

/-- The kinds of queues a packet is allowed on (R98). -/
inductive QueueKinds where
  | all | c | y | l | cy
  deriving DecidableEq, Repr

/-- Local queue q is of an allowed kind (R88, R98). -/
def kindAllows (k : QueueKinds) (q : Nat) : Bool :=
  match k with
  | .all => true
  | .c => q < 8
  | .y => 8 ≤ q && q < 12
  | .l => 12 ≤ q
  | .cy => q < 12

/-- The packet of `len` words at the head of the innermost level is over: its bytes are no longer held
(R110). -/
def packetDone (s : State) (len : Nat) : State :=
  modQueue s s.cur.bh s.cur.q (fun x =>
    modTop { x with waited := false } (fun l =>
      dropHeld { l with pos := l.pos + 4 * len, scan := [] } l.pos (l.pos + 4 * len)))

/-- Fault the queue the instruction acts on. -/
def packetFault (s : State) (cause : Nat) : State := queueFault s s.cur.bh s.cur.q cause

/-- The frame of every packet (R97, R98, R101): its queue's kind, the span it needs, and the skip under a
false predicate. -/
def packetGo (s : State) (len : Nat) (pr : Bool) (k : QueueKinds) (go : LevelS → State) : State :=
  match topLevel (queueOf s s.cur.bh s.cur.q) with
  | none => s
  | some l =>
    if !kindAllows k s.cur.q then packetFault s qfQkind
    else if pr && l.span.isNone then packetFault s qfSpan
    else if pr && l.span = some false then packetDone s len
    else go l

/-- A packet with a W flag waits first until the queue's work has finished (R105). -/
def waitQuiet (s : State) (w : Bool) (go : State) : State :=
  let b := s.cur.bh
  let q := s.cur.q
  if w && !(queueOf s b q).waited && !queueQuiet s b q then queueWait s b q .quiesce else go

/-- The command path of a bulkhead writes bytes (R99): the fault, or the state after the write; none while a
release of the region is pending. -/
def cmdWrite (s : State) (b va : Nat) (bs : List Byte) : Except Nat (Option State) :=
  match xlatePart s (partOfBh s b) va bs.length (cmdOwner s b) .wr with
  | .bad c _ => .error (xFault c)
  | .ok _ r off =>
    if releaseWait s (partOfBh s b) (cmdOwner s b) none va then .ok none
    else .ok (some (regWrite s b r off bs false))

/-- Go on after a write of the command path. -/
def withCmdWrite (s : State) (va : Nat) (bs : List Byte) (go : State → State) : State :=
  match cmdWrite s s.cur.bh va bs with
  | .error c => packetFault s c
  | .ok none => s
  | .ok (some t) => go t

-- Synchronous packets (R99 to R103)

/-- NOP (R99). -/
def execPktNop (pr : Bool) (len : BitVec 14) (s : State) : Host.Outcome State Fault Refusal :=
  .next (packetGo s len.toNat pr .all (fun _ => packetDone s len.toNat))

/-- WRITE (R99): the data words at ascending addresses. -/
def execPktWrite (pr : Bool) (addr : BitVec 64) (data : List (BitVec 32)) (s : State) :
    Host.Outcome State Fault Refusal :=
  .next (packetGo s (3 + data.length) pr .all (fun _ =>
    withCmdWrite s addr.toNat (data.flatMap (fun w => leBytes 4 w.toNat))
      (fun t => packetDone t (3 + data.length))))

/-- STAMP (R99): the hub's nanosecond counter. -/
def execPktStamp (pr w : Bool) (addr : BitVec 64) (s : State) : Host.Outcome State Fault Refusal :=
  .next (packetGo s 3 pr .all (fun _ =>
    match cmdWrite s s.cur.bh addr.toNat (leBytes 8 (nsTime s)) with
    | .error c => packetFault s c
    | .ok none => s
    | .ok (some t) => waitQuiet s w (packetDone t 3)))

/-- The comparison of PRED (R100). -/
def predCmp (cc : BitVec 3) (sg : Bool) (x y : W64) : Bool :=
  let lt (x y : W64) : Bool := if sg then x.slt y else x.ult y
  match cc.toNat with
  | 0 => x == y
  | 1 => x != y
  | 2 => lt x y
  | 3 => !lt y x
  | 4 => lt y x
  | _ => !lt x y

/-- The 64-bit word a PRED reads, or its fault (R100): a SEQ region is readable here, whatever its RO
(R210). -/
def predRead (s : State) (b va : Nat) : Except Nat (State × W64) :=
  let p := partOfBh s b
  let f : XRes :=
    match regionAtVa s p va with
    | some (n, r) =>
      if r.kind = 3 then if r.vbase + 2 ^ r.k < va + 8 then .bad .region n else .ok n r (va - r.vbase)
      else xlatePart s p va 8 (cmdOwner s b) .rd
    | none => .bad .region 0x3FFF
  match f with
  | .bad c _ => .error (xFault c)
  | .ok _ r off =>
    let (s, v) := regRead s b r off 8 none 0
    if v.rev then .error qfKeyrev
    else if v.bad then .error qfPoison
    else .ok (s, BitVec.ofNat 64 (leNat v.bytes))

/-- Set the span predicate of the innermost level. -/
def setSpan (s : State) (v : Option Bool) : State :=
  modQueue s s.cur.bh s.cur.q (fun x => modTop x (fun l =>
    let lp := if v.isNone then l.loop.map (fun p => { p with inSpan := false }) else l.loop
    { l with span := v, loop := lp }))

/-- PRED (R100, R101); it waits while a release of the word's region is pending (R105). -/
def execPktPred (pr : Bool) (cc : BitVec 3) (sg : Bool) (addr value mask : BitVec 64) (s : State) :
    Host.Outcome State Fault Refusal :=
  .next (
    if pr then packetFault s qfSpan
    else packetGo s 7 false .all (fun l =>
      if l.span.isSome then packetFault s qfSpan
      else
        let b := s.cur.bh
        match predRead s b addr.toNat with
        | .error c => packetFault s c
        | .ok (t, w) =>
          if releaseWait s (partOfBh s b) (cmdOwner s b) none addr.toNat then s
          else
            let t := setSpan t (some (predCmp cc sg (w &&& mask) value))
            packetDone (modQueue t b s.cur.q (fun x =>
              modTop x (fun z => { z with pred := (l.pos, (heldWord l l.pos).getD 0) }))) 7))

/-- PEND (R100, R101). -/
def execPktPend (pr : Bool) (s : State) : Host.Outcome State Fault Refusal :=
  .next (
    if pr then packetFault s qfSpan
    else packetGo s 1 false .all (fun l =>
      if l.span.isNone then packetFault s qfSpan else packetDone (setSpan s none) 1))

/-- Start a pass of a LOOP (R102, R110): write the index, drop the span's held bytes. -/
def loopPass (s : State) (b q : Nat) (lp : SLoop) : State :=
  let go (s : State) : State :=
    modQueue s b q (fun x => modTop { x with waited := false } (fun l =>
      dropHeld { l with pos := lp.start, loop := some lp } lp.start lp.stop))
  if lp.addr = 0 then go s
  else
    match cmdWrite s b lp.addr (leBytes 8 lp.index) with
    | .error c => queueFaultAt s b q c (queueLevel (queueOf s b q)) (lp.start - 20) lp.head
    | .ok none => s
    | .ok (some t) => go t

/-- LOOP (R101, R102): its span follows it; a count of 0 skips the span. -/
def execPktLoop (pr : Bool) (count span : BitVec 32) (idx : BitVec 64) (s : State) :
    Host.Outcome State Fault Refusal :=
  .next (
    let stop (l : LevelS) : Nat := l.pos + 20 + 4 * span.toNat
    match topLevel (queueOf s s.cur.bh s.cur.q) with
    | none => s
    | some l =>
      if l.loop.isSome then packetFault s qfSpan
      else if l.len < stop l then packetFault s qfMalform
      else if count = 0 || (pr && l.span = some false) then
        packetGo s (5 + span.toNat) pr .all (fun _ => packetDone s (5 + span.toNat))
      else
        packetGo s 5 pr .all (fun l =>
          let lp : SLoop := { head := (heldWord l l.pos).getD 0, start := l.pos + 20, stop := stop l, count := count.toNat, index := 0,
                              addr := idx.toNat, inSpan := l.span.isSome }
          let t := modQueue s s.cur.bh s.cur.q (fun x =>
            modTop x (fun l => { dropHeld l l.pos (l.pos + 20) with scan := [] }))
          if idx = 0 then loopPass t s.cur.bh s.cur.q lp
          else
            match cmdWrite s s.cur.bh idx.toNat (leBytes 8 0) with
            | .error c => packetFault s c
            | .ok none => s
            | .ok (some _) => loopPass t s.cur.bh s.cur.q lp))

/-- IB (R103): the called stream is the next level; the caller goes on behind the packet. -/
def execPktIb (pr host : Bool) (addr : BitVec 64) (bytes rkey : BitVec 32) (s : State) :
    Host.Outcome State Fault Refusal :=
  .next (packetGo s 5 pr .all (fun _ =>
    if 3 ≤ (queueOf s s.cur.bh s.cur.q).levels.length then packetFault s qfIbdepth
    else
      let l : LevelS := { host := host, base := addr.toNat, len := bytes.toNat, rkey := rkey, pos := 0 }
      modQueue (packetDone s 5) s.cur.bh s.cur.q (fun x => { x with levels := x.levels ++ [l] })))

-- Semaphore packets (R104, R112, R113)

/-- A semaphore name a packet may use, else SEMNAME (R112). -/
def withName (s : State) (name : W16) (go : State) : State :=
  if semNameOk s (partOfBh s s.cur.bh) name then go else packetFault s qfSemname

/-- SEMSIG.add (R104). -/
def execPktSemsigAdd (pr w : Bool) (name : BitVec 16) (v : BitVec 64) (s : State) :
    Host.Outcome State Fault Refusal :=
  .next (packetGo s 4 pr .all (fun _ =>
    withName s name (waitQuiet s w (packetDone (semSend s s.cur.bh (partOfBh s s.cur.bh) .add name v) 4))))

/-- SEMSIG.set (R104). -/
def execPktSemsigSet (pr w : Bool) (name : BitVec 16) (v : BitVec 64) (s : State) :
    Host.Outcome State Fault Refusal :=
  .next (packetGo s 4 pr .all (fun _ =>
    withName s name (waitQuiet s w (packetDone (semSend s s.cur.bh (partOfBh s s.cur.bh) .set name v) 4))))

/-- SEMWAIT (R104): passes once the semaphore has been at least the value. -/
def execPktSemwait (pr : Bool) (name : BitVec 16) (v : BitVec 64) (s : State) :
    Host.Outcome State Fault Refusal :=
  .next (packetGo s 4 pr .all (fun _ =>
    withName s name (
      let b := s.cur.bh
      let q := s.cur.q
      if (queueOf s b q).waited || !(semGet s (partOfBh s b) name).ult v then packetDone s 4
      else queueWait s b q (.sem name v))))

-- Ordering and control packets (R105)

/-- FFENCE (R105, R110): every held byte of every level goes. -/
def execPktFfence (pr : Bool) (s : State) : Host.Outcome State Fault Refusal :=
  .next (packetGo s 1 pr .all (fun _ =>
    modQueue (packetDone s 1) s.cur.bh s.cur.q (fun x =>
      { x with levels := x.levels.map (fun l => { l with bytes := [] }) })))

/-- NOTIFY (R95, R105). -/
def execPktNotify (pr w : Bool) (qp : BitVec 4) (cookie : BitVec 64) (s : State) :
    Host.Outcome State Fault Refusal :=
  .next (packetGo s 4 pr .all (fun l =>
    waitQuiet s w (
      let b := s.cur.bh
      let q := s.cur.q
      let x := queueOf s b q
      if notifFull s x.vf then queueWait s b q .notif
      else
        packetDone (pushNotif s x.vf
          { queueNotif s b q 1 0 (queueLevel x) l.pos 0 (some cookie) 0 with qp := qp.toNat }) 4)))

/-- QUIESCE (R105). -/
def execPktQuiesce (pr : Bool) (s : State) : Host.Outcome State Fault Refusal :=
  .next (packetGo s 1 pr .all (fun _ => waitQuiet s true (packetDone s 1)))

/-- HALT (R90, R105). -/
def execPktHalt (pr notify : Bool) (s : State) : Host.Outcome State Fault Refusal :=
  .next (packetGo s 1 pr .all (fun _ => queueHalt s s.cur.bh s.cur.q notify))

/-- An owner code that the partition has (R209). -/
def ownerOk (s : State) (p code : Nat) : Bool :=
  code < 0x60 || (code < 0x80 && code % 16 < partSize s p)

/-- Place a marker in the FIFO of every physical array of a partition (R105, R212); answers the markers by
array. -/
def markAll (s : State) (p : Nat) : State × Tab Nat :=
  (partArrs s p).foldl (fun (x : State × Tab Nat) q =>
    let (m, a) := placeMarker (arrOf x.1 q)
    (setArr x.1 q a, tabSet x.2 q m)) (s, [])

/-- Every recorded marker has passed. -/
def marksPassed (s : State) (ms : Tab Nat) : Bool := ms.all (fun m => markerPassed (arrOf s m.1) m.2)

/-- XFER (R105): markers everywhere, the owner set with RPEND, the region caches told; the queue waits until
the markers have passed. -/
def execPktXfer (pr w : Bool) (region : BitVec 14) (owner : BitVec 8) (s : State) :
    Host.Outcome State Fault Refusal :=
  .next (packetGo s 2 pr .cy (fun _ =>
    let b := s.cur.bh
    let q := s.cur.q
    let p := partOfBh s b
    let num := region.toNat
    match tabFind (partOf s p).regions num with
    | none => packetFault s qfRegion
    | some r =>
      if r.kind ≠ 1 then packetFault s qfRegion
      else if !ownerOk s p owner.toNat then packetFault s qfDesc
      else
        waitQuiet s w (
          let (s, ms) := markAll s p
          let r := { r with owner := owner.toNat, rpend := true, markV := false }
          let s := modPart s p (fun x => { x with regions := tabSet x.regions num r })
          let s := postInval s p num
          let s := modPart s p (fun x => { x with xfers := x.xfers ++ [(num, ms)] })
          modQueue s b q (fun x => { x with st := .waiting, wait := some (.xfer num), marks := ms }))))

/-- XFER_PACKET_COMPLETE (R105): the markers have passed, so the packet is over, and RPEND returns to 0 where no other
transfer of the region is outstanding. A marker of an earlier sequencer XFER stands ahead of those of the
packet in its FIFO. -/
def execXferPacketComplete (s : State) : Host.Outcome State Fault Refusal :=
  .next (
    let b := s.cur.bh
    let q := s.cur.q
    let x := queueOf s b q
    match x.wait with
    | some (.xfer _) =>
      if marksPassed s x.marks then
        packetDone (modQueue (xferSettle s (partOfBh s b)) b q (fun x =>
          { x with st := .running, wait := none, marks := [] })) 2
      else s
    | _ => s)

-- COPY (R106, R107)

/-- The completion semaphore of a packet (R106). -/
def semOpt (sem : Bool) (name : W16) (add : W64) : Option (W16 × W64) := if sem then some (name, add) else none

/-- A completion semaphore's name is checked before the packet has any effect (R97, R112). -/
def withSem (s : State) (sem : Bool) (name : W16) (go : State) : State := if sem then withName s name go else go

/-- The first fault of a COPY's rows (R107), as R99 checks an access. -/
def copyRows (s : State) (b base row rows : Nat) (pitch : Int) (k : AccK) : Option Nat :=
  (List.range rows).findSome? (fun (i : Nat) =>
    let a : Int := (base : Int) + (i : Int) * pitch
    if a < 0 then some qfRegion
    else
      match xlatePart s (partOfBh s b) a.toNat row (cmdOwner s b) k with
      | .bad c _ => some (xFault c)
      | .ok _ _ _ => none)

/-- COPY (R106, R107): the footprints are checked, and the copy runs on while the queue goes on. -/
def execPktCopy (pr sem : Bool) (src dst : BitVec 64) (rowBytes : BitVec 24) (rows : BitVec 16)
    (rc : BitVec 8) (spitch dpitch : BitVec 32) (name : BitVec 16) (add : BitVec 64) (s : State) :
    Host.Outcome State Fault Refusal :=
  .next (packetGo s 12 pr .y (fun l =>
    let b := s.cur.bh
    let q := s.cur.q
    let n := rows.toNat + 1
    let rb := rowBytes.toNat
    withSem s sem name (
      match copyRows s b src.toNat rb n spitch.toInt .rd with
      | some c => packetFault s c
      | none =>
        match copyRows s b dst.toNat rb n dpitch.toInt .wr with
        | some c => packetFault s c
        | none =>
          let sf := footprint src [(n, spitch.toInt)] rb
          let df := footprint dst [(n, dpitch.toInt)] rb
          if sf.1 < df.2 && df.1 < sf.2 then packetFault s qfOverlap
          else if 8 ≤ (queueOf s b q).copies.length then queueWait s b q .copies
          else
            let i := ((List.range 8).find? (fun i => (tabFind (queueOf s b q).copies i).isNone)).getD 0
            let c : QCopy := { level := queueLevel (queueOf s b q), at_ := l.pos,
                               head := (heldWord l l.pos).getD 0, src := src.toNat, dst := dst.toNat, row := rb, rows := n, rc := rc.toNat,
                               sp := spitch.toInt, dp := dpitch.toInt, pos := 0,
                               sem := semOpt sem name add, stop := none }
            packetDone (modQueue s b q (fun x => { x with copies := tabSet x.copies i c })) 12)))

/-- A reserved packet opcode faults with ILLPKT (R98, R115), skipped or not (R101). -/
def execReservedPacketOpcode (_pr : Bool) (_op : BitVec 8) (s : State) :
    Host.Outcome State Fault Refusal :=
  .next (packetFault s qfIllpkt)

-- One turn of a queue (R90, R97, R101, R102, R107, R110)

/-- The end of a level (R90, R94, R103): an IB returns; the main stream ends the submission. -/
def levelEnd (s : State) (b q : Nat) : State :=
  let x := queueOf s b q
  if 1 < x.levels.length then modQueue s b q (fun x => { x with levels := x.levels.dropLast })
  else
    match x.cur with
    | none => modQueue s b q (fun x => { x with st := .idle, levels := [] })
    | some r =>
      let wanted : Bool := (r.flags / 2) % 2 == 1
      if wanted && notifFull s x.vf then queueWait s b q .notif
      else
        let s := if wanted then pushNotif s x.vf (queueNotif s b q 2 0 0 r.len 0 none 0) else s
        modQueue s b q (fun x =>
          match x.pend with
          | p :: rest => startRec { x with pend := rest } p
          | [] => { x with st := .idle, cur := none, levels := [] })

/-- A span is still open where it must not be: the packet at fault is the PRED that opened it (R94, R101; log entry
61). -/
def openSpan (s : State) (b q : Nat) (l : LevelS) : State :=
  queueFaultAt s b q qfSpan (queueLevel (queueOf s b q)) l.pred.1 l.pred.2

/-- The end of a pass of a LOOP (R102): a span opened in it must be closed. -/
def passEnd (s : State) (b q : Nat) (l : LevelS) (lp : SLoop) : State :=
  if l.span.isSome && !lp.inSpan then openSpan s b q l
  else if lp.index + 1 < lp.count then loopPass s b q { lp with index := lp.index + 1 }
  else modQueue s b q (fun x => modTop x (fun l => { l with loop := none }))

/-- What a queue does with the packet at the head of its level, once its bytes are held. -/
inductive Todo where
  | fault (cause : Nat)
  | skip (len : Nat)
  | run (i : Instr)
  deriving DecidableEq, Repr

/-- The bytes of [o, o + n) as words, or the first fault among them. -/
def heldWords (l : LevelS) (o n : Nat) : Except Nat (List W32) :=
  let bs := (List.range (4 * n)).map (fun i => (tabFind l.bytes (o + i)).getD (.byte 0))
  match bs.findSome? (fun x => match x with | .bad c => some c | .byte _ => none) with
  | some c => .error c
  | none =>
    .ok ((List.range n).map (fun i => BitVec.ofNat 32 (leNat ((List.range 4).map (fun j =>
      match bs.getD (4 * i + j) (.byte 0) with | .byte v => v | .bad _ => 0)))))

/-- The kinds of queue an opcode is allowed on (R98). -/
def opKinds (op : Nat) : QueueKinds :=
  match op with
  | 0x02 => .y
  | 0x03 | 0x04 | 0x10 => .c
  | 0x0E => .cy
  | 0x0F => .l
  | _ => .all

/-- A stream word as the check of a LOOP span sees it: as captured, else as it looked (R102). -/
def scanWord (l : LevelS) (o : Nat) : Option (Except Nat W32) :=
  let see (i : Nat) : Option HeldByte := tabFind l.bytes (o + i) <|> tabFind l.scan (o + i)
  let bs := (List.range 4).map see
  if bs.any (fun x => x.isNone) then none
  else
    match bs.findSome? (fun x => match x with | some (.bad c) => some c | _ => none) with
    | some c => some (.error c)
    | none => some (.ok (BitVec.ofNat 32 (leNat (bs.map (fun x => match x with | some (.byte v) => v | _ => 0)))))

/-- What the check of a LOOP span has come to (R102): it needs the header at an offset, its end falls inside a packet
or behind one of LEN 0, or it stands. A header that cannot be read is left to its own packet. -/
inductive SpanCheck where
  | need (o : Nat) | broken | good
  deriving DecidableEq, Repr

/-- Walk the packets of a span from one to the next. -/
def spanWalk (l : LevelS) (stop : Nat) : Nat → Nat → SpanCheck
  | 0, _ => .broken
  | fuel + 1, o =>
    if o = stop then .good
    else if stop < o then .broken
    else
      match scanWord l o with
      | none => .need o
      | some (.error _) => .good
      | some (.ok h) => if bitsN h 10 14 = 0 then .broken else spanWalk l stop fuel (o + 4 * bitsN h 10 14)

/-- The check of the span of the LOOP at the head of a level. -/
def spanCheck (l : LevelS) (stop : Nat) : SpanCheck :=
  if l.len < stop then .good else spanWalk l stop ((stop - l.pos) / 4 + 1) (l.pos + 20)

/-- The span does not end on a packet boundary (R102). -/
def spanBroken (l : LevelS) (stop : Nat) : Bool := spanCheck l stop == .broken

/-- The header that the check of a LOOP at the head of a level has still to look at. -/
def spanNeed (l : LevelS) : Option Nat :=
  match scanWord l l.pos, scanWord l (l.pos + 8) with
  | some (.ok h), some (.ok w) =>
    if bitsN h 24 8 = 8 && bitsN h 10 14 = 5 && l.loop.isNone then
      match spanCheck l (l.pos + 20 + 4 * w.toNat) with
      | .need o => some o
      | _ => none
    else none
  | _, _ => none

/-- Examine the packet at the head of a level (R97, R98, R101, R102). The body of a NOP and of a skipped packet is not
examined, but for W2 of a LOOP; a LOOP's span ends on a packet boundary. -/
def examine (l : LevelS) (q : Nat) : Todo :=
  match heldWords l l.pos 1 with
  | .error c => .fault c
  | .ok hs =>
    let h := hs.headD 0
    let len := bitsN h 10 14
    let op := bitsN h 24 8
    let pr := bitB h 9
    let left := (l.len - l.pos) / 4
    let lim := match l.loop with | some lp => (lp.stop - l.pos) / 4 | none => left
    if len = 0 || left < len then .fault qfMalform
    else if lim < len then .fault qfSpan
    else if 0x13 ≤ op then .run (.reservedPacketOpcode pr (bits h 24 8))
    else if !kindAllows (opKinds op) q then .fault qfQkind
    else if !headerOk h left then .fault qfMalform
    else if pr && (op = 6 || op = 7 || l.span.isNone) then .fault qfSpan
    else if pr && l.span = some false then
      if op = 8 then
        match heldWords l (l.pos + 8) 1 with
        | .error c => .fault c
        | .ok ws =>
          let w2 := (ws.headD 0).toNat
          if l.loop.isSome then .fault qfSpan
          else if w2 = 0 || left < 5 + w2 then .fault qfMalform
          else if spanBroken l (l.pos + 20 + 4 * w2) then .fault qfSpan
          else .skip (5 + w2)
      else .skip len
    else
      match (if op = 0 then .ok (h :: List.replicate (len - 1) 0) else heldWords l l.pos len) with
      | .error c => .fault c
      | .ok ws =>
        match decodePacket ws with
        | .packet i [] =>
          if op = 8 && l.loop.isNone && spanBroken l (l.pos + 20 + 4 * (ws.getD 2 0).toNat) then .fault qfSpan
          else .run i
        | _ => .fault qfMalform

/-- A RUNNING queue up to its next packet: a fault or halt at the packet boundary, the end of a pass or level,
or a fetch is dealt with here and gives none; else what to do with the packet. DESIGN CHOICE (log entry 141): the spec does
not say where the fault of a COPY goes whose submission has ended; the next submission takes it, under its own sequence
number and cookie. -/
def queueReady (s : State) (b q : Nat) : State × Option Todo :=
  let x := queueOf s b q
  if x.st ≠ .running || x.fetching then (s, none)
  else
    match topLevel x with
    | none => (modQueue s b q (fun x => { x with st := .idle }), none)
    | some l =>
      if x.haltReq then (queueHalt s b q false, none)
      else
        match x.late with
        | some f =>
          let t := queueFaultAt s b q f.cause f.level f.at_ f.head
          (if (queueOf t b q).st = .faulted then modQueue t b q (fun x => { x with late := none }) else t, none)
        | none =>
          match l.loop with
          | some lp =>
            if lp.stop ≤ l.pos then (passEnd s b q l lp, none) else fetchOr s b q l
          | none =>
            if l.len ≤ l.pos then
              (if l.span.isSome then openSpan s b q l else levelEnd s b q, none)
            else fetchOr s b q l
where
  /-- Fetch what the packet needs, or examine it. -/
  fetchOr (s : State) (b q : Nat) (l : LevelS) : State × Option Todo :=
    let s := modQueue s b q (fun x => { x with at_ := l.pos })
    match missing l l.pos (captureEnd l) with
    | some (o, n) => (startFetch s b q o n, none)
    | none =>
      match spanNeed l with
      | some o =>
        (modQueue (startFetch s b q o (min 4096 (l.len - o))) b q (fun x => { x with scanning := true }), none)
      | none => (s, some (examine l q))

end Sys2Proof.Machine
end

