-- ==== Sys2Proof/Machine/Coll.lean ====
section
/-! DEFINITION. Collectives: descriptors, the reduction of contributions, the ring, and completion (R55 to R59,
R108, R109, R312). -/
namespace Sys2Proof.Machine
open Sys2Proof

-- Descriptors (R108)

/-- A field of a collective descriptor: `n` bytes at offset `o`. -/
def cdF (d : BitVec 512) (o n : Nat) : Nat := bitsN d (8 * o) (8 * n)
/-- Operation: 0 all-reduce, 1 reduce-scatter, 2 all-gather. -/
def cdOp (d : BitVec 512) : Nat := cdF d 0 1
/-- Input format. -/
def cdIn (d : BitVec 512) : Nat := cdF d 1 1
/-- Output format. -/
def cdOut (d : BitVec 512) : Nat := cdF d 2 1
/-- Chips in the ring. -/
def cdC (d : BitVec 512) : Nat := cdF d 4 1
/-- This chip's position. -/
def cdJ (d : BitVec 512) : Nat := cdF d 5 1
/-- Local link towards the next chip. -/
def cdNext (d : BitVec 512) : Nat := cdF d 6 1
/-- Local link from the chip before. -/
def cdPrev (d : BitVec 512) : Nat := cdF d 7 1
/-- Elements per contribution. -/
def cdN (d : BitVec 512) : Nat := cdF d 0x20 8
/-- Contributing logical arrays. -/
def cdMask (d : BitVec 512) : List Nat := (List.range 96).filter (fun l => bitB d (8 * 0x28 + l))
/-- Bytes of an element of a format. -/
def fmtBytes (f : Nat) : Nat := if f = 1 || f = 2 then 2 else 4
/-- The element format of a code. -/
def collFmt (f : Nat) : EFmt :=
  match f with
  | 1 => .flt .bf16 | 2 => .flt .f16 | 3 => .int false 32 | 4 => .int true 32 | _ => .flt .f32

/-- The descriptor is valid (R108). -/
def cdOk (d : BitVec 512) : Bool :=
  let bytes := cdN d * fmtBytes (cdIn d)
  cdOp d ≤ 2 && cdIn d ≤ 4 && cdOut d ≤ 4 && (cdIn d < 3 || cdOut d = cdIn d) && cdF d 3 1 ≤ 4 &&
    1 ≤ cdC d && cdC d ≤ 64 && cdJ d < cdC d && cdNext d ≤ 8 && cdPrev d ≤ 8 && cdF d 0x10 8 % 64 = 0 &&
    (if cdOp d = 2 then bytes % 64 = 0 && (cdMask d).length = 1
     else bytes % (64 * cdC d) = 0 && 1 ≤ (cdMask d).length) &&
    cdF d 0x34 4 % 64 = 0 && cdF d 0x38 8 % 8 = 0

/-- Elements of a chunk: a contribution is split over the ring, but for an all-gather (R108). -/
def chunkLen (d : BitVec 512) : Nat := if cdOp d = 2 then cdN d else cdN d / cdC d

-- The partition's result (R56 to R58, R108, R109, R210)

/-- The owner code of a bulkhead's collective engine (R209). -/
def collOwner (s : State) (b : Nat) : Nat := 0x70 + (b - partOfBh s b)

/-- The lower of two status codes of which 0 is none (R109). -/
def lowCode (x y : Nat) : Nat := if x = 0 then y else if y = 0 then x else min x y

/-- The array that issued a collective, while the run that did lasts. -/
def collArr (s : State) (c : CollS) : Option Nat :=
  match c.arr with
  | some (p, ep) => if (arrOf s p).epoch = ep then some p else none
  | none => none

/-- What an engine reads of one line, through the egress cache of the array it works for: its bytes with their
poison, the status code, and the region of a foreign owner (R109, R210, R214). -/
def collLine (s : State) (b : Nat) (arr : Option Nat) (va n : Nat) :
    State × List (Byte × Bool) × Nat × Option Nat :=
  let bad (c : Nat) (f : Option Nat) : State × List (Byte × Bool) × Nat × Option Nat :=
    (s, List.replicate n (0, true), c, f)
  match xlatePart s (partOfBh s b) va n (collOwner s b) .rd with
  | .bad c num => bad 3 (if c = .foreign then some num else none)
  | .ok _ r off =>
    if !r.win && domainRefuses s ((r.pbase + off) / 64) r.slot then bad 3 none
    else
      let (t, v) := regRead s b r off n none 0
      let see (i : Nat) : Option (Byte × Bool) := arr.bind (fun p =>
        let (d, m, pois) := egSee (arrOf s p) (egKey r (off + i))
        let j := (off + i) % 64
        if m.getLsbD j then some (d.extractLsb' (8 * j) 8, pois) else none)
      let bs := (List.range n).map (fun i =>
        (see i).getD (listGet v.bytes 0 i, v.rev || listGet v.marks false i))
      let covered := (List.range n).all (fun i => (see i).isSome)
      (t, bs, if v.rev && !covered then 3 else if bs.any (fun x => x.2) then 2 else 0, none)

/-- An element widened exactly to f32, the bits of a NaN with it (R58). -/
def collWiden (f x : Nat) : Nat :=
  if f = 1 then x * 65536
  else if f = 2 then
    if x / 1024 % 32 = 31 then x / 32768 * 2 ^ 31 + 0x7F800000 + x % 1024 * 8192
    else (convertElem (collFmt f) (.flt .f32) .rne false 0 x).1
  else x

/-- A contribution widened to words: bf16 and f16 to f32 (R58). -/
def collWords (f : Nat) (bs : List (Byte × Bool)) : List CWord :=
  let n := fmtBytes f
  (List.range (bs.length / n)).map (fun i =>
    let e := (bs.drop (n * i)).take n
    let x := leNat (e.map (fun y => y.1))
    (BitVec.ofNat 32 (collWiden f x), e.any (fun y => y.2)))

/-- The pieces in which the contributions are read, in order: logical array, address and bytes (R108). -/
def collPieces (d : BitVec 512) : List (Nat × Nat × Nat) :=
  (cdMask d).flatMap (fun l =>
    (linePieces (cdF d 8 8 + l * cdF d 0x10 8) (cdN d * fmtBytes (cdIn d))).map (fun x => (l, x)))

/-- One addition of the reduction (R58). -/
def collAdd (f : Nat) (x y : CWord) : CWord :=
  let v : W32 := if 3 ≤ f then x.1 + y.1 else BitVec.ofNat 32 (addF32 .rne false 0 x.1.toNat y.1.toNat).1
  (v, x.2 || y.2)

/-- An addition of contributions, either of which may be absent (R56). -/
def collJoin (f : Nat) : Option (List CWord) → Option (List CWord) → Option (List CWord)
  | some x, some y => some (List.zipWith (collAdd f) x y)
  | some x, none => some x
  | none, y => y

/-- One level of the reduction tree (R56). -/
def collLevel (f : Nat) : List (Option (List CWord)) → List (Option (List CWord))
  | x :: y :: r => collJoin f x y :: collLevel f r
  | r => r

/-- The index of a contribution (R56). -/
def collIndex (l : Nat) : Nat := 8 * (l / 6) + l % 6

/-- The reduction within a partition (R56, R57): absent contributions change nothing, so the tree is taken over
the 128 indices of a package. -/
def collReduce (f : Nat) (xs : List (Nat × List CWord)) : List CWord :=
  let leaves := (List.range 128).map (fun i => (xs.find? (fun x => collIndex x.1 = i)).map (fun x => x.2))
  ((iter (collLevel f) 7 leaves).headD none).getD []

-- The ring (R49, R55, R59, R108)

/-- The collective engine of a bulkhead. -/
def collOf (s : State) (b i : Nat) : Option CollS := tabFind (bhOf s b).colls i
/-- Replace a collective. -/
def setColl (s : State) (b i : Nat) (c : CollS) : State :=
  modBh s b (fun x => { x with colls := tabSet x.colls i c })

/-- The tag of a chunk's flits: the descriptor's line, and the chunk with bit 6 set for the gather phase and bit 7
where a contribution in it held poison (log entry 50). -/
def collTag (c : CollS) (k : Nat) (held : Bool) : W16 :=
  BitVec.ofNat 16 (c.va / 64 % 256 * 256 + (if held then 128 else 0) + k)

/-- The words of a list in groups of `n`. -/
def groupsOf {α : Type} (n : Nat) (xs : List α) : List (List α) :=
  (List.range ((xs.length + n - 1) / n)).map (fun i => (xs.drop (n * i)).take n)

/-- The flits of a chunk: its words on VL4, and their poison on VL5 (R49, R50; log entry 50). -/
def chunkFlits (c : CollS) (k : Nat) (ws : List CWord) (held : Bool) : List Flit × List Flit :=
  let flit (kind vl n : Nat) (d : BitVec 512) : Flit :=
    { kind := kind, vl := vl, seq := 0, ack := 0, off := 0, tag := collTag c k held, len := n - 1, crcOk := true,
      data := d }
  ((groupsOf 16 ws).map (fun g =>
     flit 2 4 (4 * g.length) (BitVec.ofNat 512 (leNat (g.flatMap (fun w => leBytes 4 w.1.toNat))))),
   (groupsOf 512 ws).map (fun g =>
     flit 3 5 ((g.length + 7) / 8) (ofBits 512 (fun i => (g.map (fun w => w.2)).getD i false))))

/-- Queue a chunk towards the next chip. -/
def sendChunk (s : State) (b : Nat) (c : CollS) (k : Nat) (ws : List CWord) (held : Bool) : State :=
  let (x, y) := chunkFlits c k ws held
  modLink s (9 * b + cdNext c.desc) (fun l =>
    { l with txq := tabMod (tabMod l.txq [] 4 (fun t => t ++ x)) [] 5 (fun t => t ++ y) })

/-- This chip's own contribution holds poison (R109). -/
def ownHeld (c : CollS) : Bool := c.words.any (fun w => w.2)

/-- The words of chunk k of this chip's own contribution. -/
def ownChunk (c : CollS) (k : Nat) : List CWord :=
  let n := chunkLen c.desc
  if cdOp c.desc = 2 then c.words else (c.words.drop (n * k)).take n

/-- Ring steps of a collective: C - 1 for each phase it has. -/
def ringSteps (d : BitVec 512) : Nat := (cdC d - 1) * (if cdOp d = 0 then 2 else 1)

/-- The chunk tag that a ring step receives (R59, R108). -/
def stepTag (d : BitVec 512) (r : Nat) : Nat :=
  let n := cdC d
  if cdOp d ≠ 2 && r < n - 1 then (cdJ d + 2 * n - 2 - r) % n
  else
    let q := if cdOp d = 2 then r else r - (n - 1)
    64 + (cdJ d + 2 * n - 1 - q) % n

/-- The ring is over. -/
def ringDone (c : CollS) : Bool := c.ready && ringSteps c.desc ≤ c.step

/-- One ring step, whose chunk has come whole (R59, R108): the sum with the incoming value on the left, or the
copy, and what goes on to the next chip. A chunk of a first phase tells of each contribution in it that held poison
(R109). -/
def ringStep1 (s : State) (b i : Nat) (c : CollS) (inc : List CWord) : State :=
  let d := c.desc
  let n := cdC d
  let t := stepTag d c.step
  let held := c.held.contains t
  let c' := { c with step := c.step + 1, inbox := tabErase c.inbox t, held := c.held.filter (fun k => !(k == t))
                     met := c.met || held }
  if t < 64 then
    let ws := List.zipWith (collAdd (cdIn d)) inc (ownChunk c t)
    if c.step + 2 = n then
      let s := setColl s b i { c' with chunks := tabSet c'.chunks t ws }
      if cdOp d = 0 then sendChunk s b c (64 + t) ws false else s
    else sendChunk (setColl s b i c') b c t ws (held || ownHeld c)
  else
    let s := setColl s b i { c' with chunks := tabSet c'.chunks (t - 64) inc }
    if c.step + 1 < ringSteps d then sendChunk s b c t inc held else s

/-- The chunk a ring step waits for, if it has come whole. -/
def chunkCame (c : CollS) : Option (List CWord) :=
  let n := chunkLen c.desc
  let (ws, ps) := tabGet c.inbox ([], []) (stepTag c.desc c.step)
  if n ≤ ws.length && n ≤ ps.length then some ((List.zip ws ps).take n) else none

/-- Take every ring step whose chunk has come. -/
def ringGo (s : State) (b i : Nat) : Nat → State
  | 0 => s
  | k + 1 =>
    match collOf s b i with
    | none => s
    | some c =>
      if !c.ready || c.down || ringDone c then s
      else
        match chunkCame c with
        | some inc => ringGo (ringStep1 s b i c inc) b i k
        | none => s

/-- A received collective flit joins the collective it belongs to; answers false where none takes it yet. -/
def collTake (s : State) (b li : Nat) (f : Flit) : State × Bool :=
  let k := f.tag.toNat % 128
  let fits (c : CollS) : Bool :=
    c.ready && 1 < cdC c.desc && cdPrev c.desc = li && c.va / 64 % 256 = f.tag.toNat / 256 &&
      (List.range (ringSteps c.desc)).any (fun r => c.step ≤ r && stepTag c.desc r = k)
  match (bhOf s b).colls.find? (fun x => fits x.2) with
  | none => (s, false)
  | some (i, c) =>
    if c.down then (s, true)
    else
    let (ws, ps) := tabGet c.inbox ([], []) k
    let x : List W32 × List Bool :=
      if f.kind = 2 then
        (ws ++ (List.range ((f.len + 1) / 4)).map (fun j => f.data.extractLsb' (32 * j) 32), ps)
      else (ws, ps ++ (List.range (8 * (f.len + 1))).map (fun j => bitB f.data j))
    let held := if bitB f.tag 7 then setInsert c.held k else c.held
    (ringGo (setColl s b i { c with inbox := tabSet c.inbox k x, held := held }) b i (2 * cdC c.desc), true)

/-- The collective flits of a lane that their collectives take, oldest first; the others stay. -/
def collDrain (s : State) (b li vl : Nat) (kept : List Flit) : List Flit → State
  | [] => modLink s (9 * b + li) (fun l => { l with rxq := tabSet l.rxq vl kept })
  | f :: r =>
    match collTake s b li f with
    | (t, true) => collDrain t b li vl kept r
    | (t, false) => collDrain t b li vl (kept ++ [f]) r

/-- Offer what a link has received for collectives. -/
def collOffer (s : State) (b li : Nat) : State :=
  let s := collDrain s b li 4 [] (tabGet (linkOf s (9 * b + li)).rxq [] 4)
  collDrain s b li 5 [] (tabGet (linkOf s (9 * b + li)).rxq [] 5)

-- Start (R55, R108, R312)

/-- A collective joins the engine of a bulkhead; one whose links are not UP ends with status 1 (R109). -/
def collStart (s : State) (b : Nat) (c : CollS) : State :=
  let i := ((List.range (((bhOf s b).colls.length) + 1)).find? (fun i => (collOf s b i).isNone)).getD 0
  let up (l : Nat) : Bool := (linkOf s (9 * b + l)).st == .up
  let down := 1 < cdC c.desc && !(up (cdNext c.desc) && up (cdPrev c.desc))
  setColl s b i { c with down := down, code := if down then 1 else 0 }

/-- A release is pending on a region the engine owns that a range meets: the access waits (R105, R215). -/
def engineWaits (s : State) (b va n : Nat) : Bool :=
  (partOf s (partOfBh s b)).regions.any (fun r =>
    r.2.kind == 1 && r.2.rpend && r.2.owner == collOwner s b && decide (r.2.vbase < va + n) &&
      decide (va < r.2.vbase + 2 ^ r.2.k))

/-- The contributions have been read: they are reduced, and the ring starts (R55 to R59, R108). -/
def collBegin (s : State) (b i : Nat) (c : CollS) : State :=
  let d := c.desc
  let ws := collReduce (cdIn d) ((cdMask d).map (fun l => (l, collWords (cdIn d) (tabGet c.parts [] l))))
  let own : Tab (List CWord) := if cdC d = 1 || cdOp d = 2 then [(cdJ d, ws)] else []
  let c := { c with ready := true, parts := [], words := ws, chunks := own }
  let s := setColl s b i c
  if c.down || cdC d = 1 then s
  else
    let s :=
      if cdOp d = 2 then sendChunk s b c (64 + cdJ d) ws (ownHeld c)
      else
        let k := (cdJ d + cdC d - 1) % cdC d
        sendChunk s b c k (ownChunk c k) (ownHeld c)
    collOffer s b (cdPrev d)

/-- The engine reads a line of the contributions, which waits where a release is pending on its region; after the last
it reduces them (R105, R108, R215). A foreign owner traps the array that issued COLL.GO (R312); a collective whose link is
DOWN reads no more. -/
def collRead (s : State) (b i : Nat) (c : CollS) : State :=
  match (if c.down then none else (collPieces c.desc)[c.rd]?) with
  | none => collBegin s b i c
  | some (l, va, n) =>
    if engineWaits s b va n then s
    else
      let (s, bs, code, frn) := collLine s b (collArr s c) va n
      let s := match c.arr, frn with
        | some (p, ep), some num =>
          modArr s p (fun a =>
            if a.epoch = ep && !c.foreign then noteAsync a .foreign (pathDetail 3) num else a)
        | _, _ => s
      let c := { c with rd := c.rd + 1, parts := tabMod c.parts [] l (fun t => t ++ bs), code := lowCode c.code code
                        foreign := c.foreign || frn.isSome }
      if (collPieces c.desc).length ≤ c.rd then collBegin s b i c else setColl s b i c

/-- COLL (R106, R108, R209): the collective engine reads the descriptor, and it is checked. -/
def execPktColl (pr sem : Bool) (desc : BitVec 64) (name : BitVec 16) (add : BitVec 64) (s : State) :
    Host.Outcome State Fault Refusal :=
  .next (packetGo s 6 pr .l (fun l =>
    let b := s.cur.bh
    let q := s.cur.q
    withSem s sem name (
      match xlatePart s (partOfBh s b) desc.toNat 64 (collOwner s b) .rd with
      | .bad c _ => packetFault s (xFault c)
      | .ok _ r off =>
        if releaseWait s (partOfBh s b) (collOwner s b) none desc.toNat then s
        else
          let (s, v) := regRead s b r off 64 none 0
          if v.rev then packetFault s qfKeyrev
          else if v.bad then packetFault s qfPoison
          else
            let d := BitVec.ofNat 512 (leNat v.bytes)
            if !cdOk d then packetFault s qfDesc
            else
              let x := queueOf s b q
              let c : CollS :=
                { desc := d, va := desc.toNat, sem := semOpt sem name add, q := some q, arr := none,
                  seq := (x.cur.map (fun r => r.seq)).getD 0, cookie := (x.cur.map (fun r => r.cookie)).getD 0,
                  level := queueLevel x, offset := l.pos, head := (heldWord l l.pos).getD 0 }
              packetDone (collStart s b c) 6)))

/-- COLL.GO (R203, R312): the descriptor is read on P-CL and checked, and the collective runs as a packet's
does. -/
def execSCollGo (a : BitVec 5) (sem : Option (BitVec 5 × BitVec 16)) (s : State) :
    Host.Outcome State Fault Refusal :=
  .next (
    let h := here s
    let p := s.cur.phys
    if h.mpe.isSome then onArr s (fun x => raiseIll x .s)
    else
      withRegsS s .s (match sem with | some (b, _) => [a, b] | none => [a]) (
        let va := (sVal h a).toNat
        if va % 64 ≠ 0 then faultS s .s .region (pathDetail 3) 0x3FFF
        else
          let (s, r) := arrRead s p va 64
          match r.err with
          | some (c, n) => faultS s .s c (xDetail c 3) n
          | none =>
            if r.bad then faultS s .s .poison 0 0x3FFF
            else
              let d := BitVec.ofNat 512 (leNat r.bytes)
              let nameOk := match sem with
                | some (_, name) => semNameOk s (partOfArr s p) name
                | none => true
              if !cdOk d then faultS s .s .region (pathDetail 3) 0x3FFF
              else if !nameOk then
                faultS s .s .semname (match sem with | some (_, name) => name.setWidth 64 | none => 0) 0x3FFF
              else
                let c : CollS :=
                  { desc := d, va := va, sem := sem.map (fun x => (x.2, sVal h x.1)), q := none,
                    arr := some (p, h.epoch) }
                let s := onArr (unreplayHere s 3) (fun x => { x with colls := x.colls + 1 })
                collStart s (bhOfArr p) c))

-- Completion (R58, R59, R108, R109)

/-- The 16-bit NaN that a word widened from one holds, if it does (R58): a sum's NaN is the canonical one, and a
lone contribution's its own. -/
def collNan (f v : Nat) : Option Nat :=
  if v / 2 ^ 23 % 256 ≠ 255 || v % 2 ^ 23 = 0 then none
  else if f = 1 && v % 65536 = 0 then some (v / 65536)
  else if f = 2 && v % 8192 = 0 then some (v / 2 ^ 31 * 32768 + 0x7C00 + v % 2 ^ 23 / 8192)
  else none

/-- The bytes of an output word, each with its poison: the conversion named by the descriptor (R108, R266); equal
formats pass unchanged. -/
def collOut (d : BitVec 512) (w : CWord) : List (Byte × Bool) :=
  let conv := (convertElem (if 3 ≤ cdIn d then collFmt (cdIn d) else .flt .f32) (collFmt (cdOut d))
      (rmOfCode (cdF d 3 1)) false 0 w.1.toNat).1
  let v := if cdOut d ≠ cdIn d then conv
    else if fmtBytes (cdOut d) = 4 then w.1.toNat
    else (collNan (cdOut d) w.1.toNat).getD conv
  (leBytes (fmtBytes (cdOut d)) v).map (fun x => (x, w.2))

/-- The words that a collective writes, in the order of its destination (R108). -/
def collResult (c : CollS) : List CWord :=
  if cdOp c.desc = 1 then tabGet c.chunks [] (cdJ c.desc)
  else if cdC c.desc = 1 then c.words
  else (List.range (cdC c.desc)).flatMap (fun k => tabGet c.chunks [] k)

/-- A contribution held poison (R109): another chip's, or this chip's own but for its own refused lines, whose code is
3. -/
def collDirty (c : CollS) : Bool := c.met || (c.code ≠ 3 && (collResult c).any (fun w => w.2))

/-- One line of the destination: a line that depends on poison is written as a full poisoned line. What COLL.GO
started writes through the egress cache of its array (R214). Answers whether the access was refused (R85,
R109). -/
def collPut (s : State) (b : Nat) (arr : Option Nat) (va : Nat) (bs : List (Byte × Bool)) : State × Bool :=
  match xlatePart s (partOfBh s b) va bs.length (collOwner s b) .wr with
  | .bad _ _ => (s, true)
  | .ok num r off =>
    let bad := bs.any (fun x => x.2)
    if !r.win && domainRefuses s ((r.pbase + off) / 64) r.slot then (s, true)
    else
      let (o, d) := if bad then (off / 64 * 64, List.replicate 64 0) else (off, bs.map (fun x => x.1))
      match arr with
      | some p => (arrWrite s p num o r d bad 2, false)
      | none => (regWrite s b r o d bad, false)

/-- The bytes of the destination, each with its poison (R108). -/
def collBytes (c : CollS) : List (Byte × Bool) := (collResult c).flatMap (collOut c.desc)

/-- The pieces in which the destination is written, in order. DESIGN CHOICE (log entry 137): R109 lets each line of the
destination hold its earlier or its final value where the status is not zero; a collective whose link went DOWN writes
no more of them. -/
def collDest (c : CollS) : List (Nat × Nat) :=
  if c.down then [] else linePieces (cdF c.desc 0x18 8) (fmtBytes (cdOut c.desc) * (collResult c).length)

/-- An access of the engine has to wait: a release is pending on its region, or the egress cache that it would enter is
full (R105, R214, R215). -/
def collStall (s : State) (b : Nat) (c : CollS) (va n : Nat) : Bool :=
  engineWaits s b va n || (match collArr s c with | some p => egFull (arrOf s p) | none => false)

/-- Write one piece of the destination (R85, R108, R109). -/
def collWrite (s : State) (b i : Nat) (c : CollS) (va n : Nat) : State :=
  if collStall s b c va n then s
  else
    let bs := (collBytes c).drop (va - cdF c.desc 0x18 8)
    let (t, bad) := collPut s b (collArr s c) va (bs.take n)
    setColl t b i { c with put := c.put + 1, refused := c.refused || bad }

/-- The address of the engine's next access for a collective, if it makes one. -/
def collNext (c : CollS) : Option Nat :=
  if !c.ready then (if c.down then none else ((collPieces c.desc)[c.rd]?).map (fun x => x.2.1))
  else
    match (collDest c)[c.put]? with
    | some x => some x.1
    | none => if cdF c.desc 0x38 8 = 0 then none else some (cdF c.desc 0x38 8)

/-- The queue fault that a status code notifies (R109, R115). -/
def collCause (code : Nat) : Nat := if code = 1 then qfLink else if code = 2 then qfPoison else qfRegion

/-- The notification of a collective that ends with an error (R94, R109). -/
def collNotif (s : State) (b q code : Nat) (c : CollS) : Notif :=
  { kind := 4, cause := collCause code, q := queueNum s b q, level := c.level, seq := c.seq, cookie := c.cookie,
    offset := c.offset, disc := 0, time := BitVec.ofNat 64 (nsTime s), tail := c.head.setWidth 256,
    qp := (queueOf s b q).nqp }

/-- A collective of an array has ended: the run that started it has one fewer, or the state captured from that run,
re-placed or not (R138, R312). -/
def collLower (s : State) (p ep : Nat) : State :=
  let a := arrOf s p
  if a.epoch = ep && a.colls ≠ 0 then setArr s p { a with colls := a.colls - 1 }
  else
    let low (nd : NodeS) (x : Nat × ArrayS) : Nat × ArrayS :=
      if x.2.epoch = ep && (tabGet nd.logs {} x.1).phys = p then (x.1, { x.2 with colls := x.2.colls - 1 }) else x
    { s with bhs := s.bhs.map (fun b =>
        (b.1, { b.2 with nodes := b.2.nodes.map (fun n => (n.1, { n.2 with saved := n.2.saved.map (low n.2) })) })) }

/-- The writes of a collective are committed: its completion add, and the notification of an error (R109, R114). -/
def collEnd (s : State) (b i : Nat) (c : CollS) : State :=
  let t := modBh s b (fun x => { x with colls := tabErase x.colls i })
  let t := semDone t b (partOfBh t b) c.sem
  let t := match c.arr with
    | some (p, ep) => collLower t p ep
    | none => t
  match c.q with
  | some q => if c.code = 0 then t else pushNotif t (queueOf t b q).vf (collNotif t b q c.code c)
  | none => t

/-- The status that a collective reports: the lowest code among its causes (R109). -/
def collStatus (c : CollS) : Nat :=
  lowCode (lowCode c.code (if c.down then 1 else if collDirty c then 2 else 0)) (if c.refused then 3 else 0)

/-- Write a collective's status word (R109). DESIGN CHOICE (log entry 136): the spec does not say what a refused write of
it does; it is left out, and the status stays. -/
def collOutput (s : State) (b : Nat) (c : CollS) : State :=
  let at_ := cdF c.desc 0x38 8
  if at_ = 0 then s
  else (collPut s b (collArr s c) at_ ((leBytes 8 (collStatus c)).map (fun x => (x, false)))).1

/-- The status word of a collective cannot be written yet (R105, R214, R215), or the notification of an error finds no
room (R94). -/
def collHeld (s : State) (b : Nat) (c : CollS) : Bool :=
  (cdF c.desc 0x38 8 ≠ 0 && collStall s b c (cdF c.desc 0x38 8) 8) ||
    (collStatus c ≠ 0 && (match c.q with | some q => notifFull s (queueOf s b q).vf | none => false))

/-- The end of a collective's writes: its status word, and for COLL.GO a marker behind them in its array's FIFO, which
shows when they are committed (R109, R114, R214). -/
def collFinish (s : State) (b i : Nat) (c : CollS) : State :=
  if collHeld s b c then s
  else
    let t := collOutput s b c
    let c := { c with wrote := true, code := collStatus c }
    match collArr s c with
    | some p =>
      let (m, a) := placeMarker (arrOf t p)
      setColl (setArr t p a) b i { c with mark := some m }
    | none => collEnd t b i c

/-- COLLECTIVE_COMPLETE (R55, R109, R114, R214, R312): a line of a collective has come to its engine. It reads the lines of
the contributions one by one, and after the ring writes those of the destination, then the status word; once the writes
are committed the collective ends. -/
def execCollectiveComplete (i : BitVec 16) (s : State) : Host.Outcome State Fault Refusal :=
  .next (
    let b := s.cur.bh
    match collOf s b i.toNat with
    | none => s
    | some c0 =>
      let c := { c0 with sent := false }
      let s := setColl s b i.toNat c
      if c.wrote then
        match collArr s c, c.mark with
        | some p, some m => if markerPassed (arrOf s p) m then collEnd s b i.toNat c else s
        | _, _ => collEnd s b i.toNat c
      else if !c.ready then collRead s b i.toNat c
      else if !(c.down || ringDone c) then s
      else
        match (collDest c)[c.put]? with
        | some (va, n) => collWrite s b i.toNat c va n
        | none => collFinish s b i.toNat c)

end Sys2Proof.Machine
end

