-- ==== Sys2Proof/Machine/Issue.lean ====
section
/-! DEFINITION. What stands before a bundle's issue: the fetch (R231 to R233), the registers it names
(R281), the scratchpad banks it touches (R182 to R184), its ports (R178), and the conditions that freeze the
domain (R168). -/
namespace Sys2Proof.Machine
open Sys2Proof

-- Fetch (R203, R231 to R233)

/-- A fetched bundle: the code word, its bits, the words that feed TTCRC, and the instruction that traps in
its place: a reserved code word with its detail, or poison in code memory. -/
structure Fetched where
  word  : W16
  bits  : BundleBits
  words : List W16
  ill   : Bool := false
  pois  : Bool := false
  deriving DecidableEq, Repr

/-- Fetch the bundle at PC, or the one a message-passing step issues. -/
def fetchBundle (a : ArrayS) : Fetched :=
  match a.mpe.bind (mpeBundle a) with
  | some (w, b, ok) =>
    { word := w, bits := b, words := [], ill := !ok,
      pois := ok && a.dictUe.contains w.toNat && b != 0 }
  | none =>
    let w := tabGet a.code 0 a.pc
    if a.nc ≤ a.pc then { word := 0, bits := 0, words := [], ill := true }
    else if a.codeUe.contains a.pc then { word := w, bits := 0, words := [], pois := true }
    else if w = 0xFFF0 then
      if a.nc ≤ a.pc + 24 then { word := 0, bits := 0, words := [], ill := true }
      else
        let ws := (List.range 24).map (fun i => tabGet a.code 0 (a.pc + 1 + i))
        { word := w,
          bits := BitVec.ofNat 384 (ws.foldr (fun x n => n <<< 16 + x.toNat) 0), words := w :: ws,
          pois := (List.range 24).any (fun i => a.codeUe.contains (a.pc + 1 + i)) }
    else if w.toNat < 0x2000 && w.toNat < a.nd then
      { word := w, bits := tabGet a.dict 0 w.toNat, words := [w], pois := a.dictUe.contains w.toNat }
    else { word := w, bits := 0, words := [], ill := true }

/-- RESERVED_CODE_WORD (R231, R232): every slot is unperformed. -/
def execReservedCodeWord (w : BitVec 16) (s : State) : Host.Outcome State Fault Refusal :=
  .next (onArr s (fun a =>
    { a with faults := a.faults ++ [{ cause := .illcode, slot := 0xF, detail := w.setWidth 64 }]
             perf := 0 }))

/-- RESERVED_SLOT_OPCODE (R238): only this slot is unperformed. -/
def execReservedSlotOpcode (slot : Slot) (s : State) : Host.Outcome State Fault Refusal :=
  .next (onArr s (fun a => raiseIll a slot))

-- Registers a slot names (R281)

/-- The registers that the fields of an S or A slot name. -/
def namedRegs : Instr → List (BitVec 5)
  | .sBrc _ a b _ => [a, b]
  | .sJmpr a => [a]
  | .sLoop (.reg a) _ _ => [a]
  | .sLidx d _ => [d]
  | .sAdd d a b | .sSub d a b | .sAnd d a b | .sOr d a b | .sXor d a b | .sShl d a b | .sShr d a b
  | .sSar d a b | .sMul d a b | .sMulh d a b | .sMulhn d a b | .sDivs d a b | .sDivn d a b
  | .sRems d a b | .sRemn d a b | .sMin d a b | .sMax d a b | .sMinn d a b | .sMaxn d a b
  | .sSlt d a b | .sSltn d a b => [d, a, b]
  | .sSel d a b c => [d, a, b, c]
  | .sClz d a | .sPopc d a => [d, a]
  | .sAddi d a _ | .sAndi d a _ | .sOri d a _ | .sXori d a _ => [d, a]
  | .sLi d _ => [d]
  | .sTidx d a _ _ => [d, a]
  | .sLd _ _ d a _ | .sLdDm _ _ d a _ | .sLdx _ _ d a _ => [d, a]
  | .sSt _ b a _ | .sStDm _ b a _ | .sStx _ b a _ => [b, a]
  | .sLdSc _ d a => [d, a]
  | .sStSc _ b a => [b, a]
  | .sAmoAdd _ d b a | .sAmoAnd _ d b a | .sAmoOr _ d b a | .sAmoSwap _ d b a => [d, b, a]
  | .sAmoMin _ _ d b a | .sAmoMax _ _ d b a => [d, b, a]
  | .sAmoCas _ d b c a => [d, b, c, a]
  | .sStA b _ => [b]
  | .sSemAdd _ b | .sSemSet _ b | .sSemWait _ b => [b]
  | .sSemRd d _ => [d]
  | .sLsend _ _ a | .sLrecv _ _ a => [a]
  | .sMovYm _ a | .sMovXm _ a | .sShpW _ _ a | .sNestW _ _ a | .sCtLd _ a => [a]
  | .sEdgeRd d _ => [d]
  | .sSysr d _ => [d]
  | .sSysw _ a => [a]
  | .sTtChk (.reg a) _ => [a]
  | .sTtRd d => [d]
  | .sSrSeed a b => a :: b.toList
  | .sMpass a => [a]
  | .sCollGo a m => a :: (match m with | some (b, _) => [b] | none => [])
  | .aLand _ sa sd _ _ => [sa, sd]
  | .aPfc sa _ _ => [sa]
  | .aHExpect _ (.reg a) => [a]
  | _ => []

/-- The registers that a bundle waits for, with SREG and DREG of the template an ST.A names, whose values it
copies (R281, R308; log entry 21). -/
def awaitedRegs (a : ArrayS) (i : Instr) : List (BitVec 5) :=
  match i with
  | .sStA b _ =>
    let t := tabGet a.tmpl 0 (bitsN (sVal a b) 0 6)
    [b, BitVec.ofNat 5 (tmF t 4 1), BitVec.ofNat 5 (tmF t 5 1)]
  | _ => namedRegs i

/-- Some register named is pending. -/
def anyPending (a : ArrayS) (i : Instr) : Bool := (awaitedRegs a i).any (fun r => (sReg a r).pend)

-- Scratchpad lines by requester (R182)

/-- Lines of the loader operation of a slot, or of an AUTO that goes on under it (R366). -/
def loaderLines (a : ArrayS) (l : PortLoader) (i : Instr) : List Nat :=
  let x := loaderState a (portSide l)
  let vec : List Nat := if canStep x then vecLines x.active x.pos else []
  let running : List Nat := if x.auto = 0 then [] else vec
  match i with
  | .nwStep _ _ | .nwBcast _ _ => vec
  | .nwAuto _ _ n => if x.pos + n.toNat * nestNeed x.active < nestTotal x.active then vec else running
  | .wGather => if hasVector x && nestGath x.active then vecLines x.active x.pos else running
  | .nwGo _ => if goOk (portSide l) x.shadow then [] else running
  | .nwHold _ | .nwZero _ => []
  | _ => running

/-- Lines of the D slot. -/
def drainLines (a : ArrayS) (i : Instr) : List Nat :=
  let x := a.ldD
  match i with
  | .dSt => if hasVector x then vecLines x.active x.pos else []
  | .dAcc _ _ => if hasVector x && nestEsz x.active = 4 then vecLines x.active x.pos else []
  | .dSeg =>
    let n := a.edgeTaps.length
    if n ≠ 0 && x.valid && x.pos + (n - 1) * nestNeed x.active < nestTotal x.active then
      (List.range n).foldl (fun t k => setUnion t (vecLines x.active (x.pos + k * nestNeed x.active))) []
    else []
  | _ => []

/-- The line of an LDX or STX that makes its access. -/
def ldxLines (a : ArrayS) (i : Instr) : List Nat :=
  let go (rs : List (BitVec 5)) (size : MemSize) (r : BitVec 5) (off : BitVec 32) : List Nat :=
    let va := effAddr a r off
    if (markAmong a rs).isSome || va % sizeBytes size ≠ 0 || spadSize ≤ va then [] else [va / 64]
  match i with
  | .sLdx size _ _ r off => go [r] size r off
  | .sStx size b r off => go [b, r] size r off
  | _ => []

/-- The lines of the landings due now (requester 5). -/
def landLines (a : ArrayS) : List Nat :=
  a.land.foldl (fun t x =>
    match landDue x.2 a.tt with
    | some i => setUnion t ((pieceLines x.2 i).map (fun k => x.2.dest / 64 + k))
    | none => t) []

/-- The lines of each requester in an issue cycle, by its code (R182). -/
def requests (a : ArrayS) (z : SlotBits) : List (Nat × List Nat) :=
  let i (sl : Slot) : Instr := slotInstr z sl
  let sp : List Nat :=
    match i .t with
    | .tTinSp _ addr => (List.range 4).map (fun k => addr.toNat / 64 + k)
    | _ => []
  let st : List Nat := match mpeStaged a with | some v => linesOf v.addr 256 | none => []
  [(0, loaderLines a .n (i .n)), (1, loaderLines a .w (i .w)), (2, drainLines a (i .d)), (3, sp),
   (4, ldxLines a (i .s)), (5, landLines a), (6, st)]

/-- The banks of some lines. -/
def banksOf (ls : List Nat) : List Nat := ls.foldl (fun t l => setInsert t (l % 32)) []

/-- The first meeting of two requesters in a bank: lowest bank, and the two lowest codes (R183, R184). -/
def bankClash (q : List (Nat × List Nat)) : Option W64 :=
  let bs := q.map (fun x => (x.1, banksOf x.2))
  let who (b : Nat) : List Nat := (bs.filter (fun x => x.2.contains b)).map (fun x => x.1)
  (List.range 32).findSome? (fun b =>
    match who b with
    | i :: j :: _ => some (BitVec.ofNat 64 (b + i <<< 8 + j <<< 12))
    | _ => none)

/-- The ac that a set of lines takes from its fullest bank (R183). -/
def bankDepth (ls : List Nat) : Nat :=
  (List.range 32).foldl (fun m b => max m ((ls.filter (fun l => l % 32 = b)).length)) 0

/-- The frozen ac after an issue cycle: the largest k - 1 of its requesters (R183). -/
def bankStall (q : List (Nat × List Nat)) : Nat := q.foldl (fun m x => max m (bankDepth x.2 - 1)) 0

-- Ports (R178)

/-- Vectors carried by the bundle that issues at TT u. -/
def carried (a : ArrayS) (u : Nat) (north : Bool) : List PortVec :=
  (a.fly.filter (fun v => v.due = u && v.north == north)).map (fun v => v.vec)

/-- PORTMT or PORTOV as the bundle issues (R178): the first of PORTMT np, PORTMT wp, PORTOV np, PORTOV wp. -/
def portFault (a : ArrayS) (c : Instr) : Option (Cause × W64) :=
  let has (north : Bool) : Nat := if (carried a a.tt north).isEmpty then 0 else 1
  let names (west : Bool) : Bool := match cParts c with | some (o, f) => namesPort o f west | none => false
  if names false && a.occN + has true = 0 then some (.portmt, 0)
  else if names true && a.occW + has false = 0 then some (.portmt, 1)
  else if has true = 1 && 4 ≤ a.occN then some (.portov, 0)
  else if has false = 1 && 4 ≤ a.occW then some (.portov, 1)
  else none

-- Freezes (R168)

/-- The virtual address that a slot translates when it issues. -/
def slotVa (a : ArrayS) (i : Instr) : Option Nat :=
  let at_ (rs : List (BitVec 5)) (va n : Nat) : Option Nat :=
    if (markAmong a rs).isSome || va % n ≠ 0 then none else some va
  match i with
  | .sLd size _ _ r off => at_ [r] (effAddr a r off) (sizeBytes size)
  | .sSt size b r off => at_ [b, r] (effAddr a r off) (sizeBytes size)
  | .sLdSc w _ r => at_ [r] (sVal a r).toNat (if w then 8 else 4)
  | .sStSc w b r => at_ [b, r] (sVal a r).toNat (if w then 8 else 4)
  | .sAmoAdd w _ b r | .sAmoAnd w _ b r | .sAmoOr w _ b r | .sAmoSwap w _ b r =>
    at_ [b, r] (sVal a r).toNat (if w then 8 else 4)
  | .sAmoMin w _ _ b r | .sAmoMax w _ _ b r => at_ [b, r] (sVal a r).toNat (if w then 8 else 4)
  | .sAmoCas w _ b c r => at_ [b, c, r] (sVal a r).toNat (if w then 8 else 4)
  | .sMpass r => at_ [r] (sVal a r).toNat 128
  | .sCollGo r _ => at_ [r] (sVal a r).toNat 64
  | .aLand _ sa sd _ _ => at_ [sa, sd] (sVal a sa).toNat 64
  | .aPfc sa _ _ => at_ [sa] (sVal a sa).toNat 64
  | _ => none

/-- The next bundle waits for a walk of this address (R213): no descriptor of the region cache holds it and
no walk has found it unmapped. -/
def needsWalk (a : ArrayS) (i : Instr) : Option Nat :=
  match slotVa a i with
  | some va =>
    if 2 ^ 40 ≤ va || a.walkBad || a.rcache.any (fun r => r.2.vbase ≤ va && va < r.2.vbase + 2 ^ r.2.k)
    then none else some va
  | none => none

/-- Some of the addresses wait for a release of their region (R105, R215). -/
def awaitsVas (s : State) (p : Nat) (vas : List Nat) : Bool :=
  vas.any (releaseWait s (partOfArr s p) (arrOf s p).logical (some p))

/-- The access of a slot waits for a release of its region (R105, R215). -/
def awaitsRelease (s : State) (p : Nat) (i : Instr) : Bool :=
  match slotVa (arrOf s p) i with
  | some va => awaitsVas s p [va]
  | none => false

/-- The message-passing engine waits for a release, or for room in the egress cache (R204, R205, R214, R215). -/
def mpeWaits (s : State) (p : Nat) : Bool :=
  let a := arrOf s p
  awaitsVas s p (mpeIns a ++ mpeOuts a) || (egFull a && !(mpeOuts a).isEmpty)

/-- A store that needs a new line of a full egress cache waits (R293). -/
def awaitsEgress (s : State) (p : Nat) (i : Instr) : Bool :=
  let a := arrOf s p
  match i with
  | .sSt size _ _ _ =>
    (match slotVa a i with
    | none => false
    | some va =>
      match xlateArr s p va (sizeBytes size) .wr with
      | .ok _ r off => egFull a && (tabFind a.eg (egKey r off)).isNone
      | .bad _ _ => false)
  | _ => false

/-- The address of a stream instruction passes the checks that come before its wait (R283, R303). -/
def streamAddrOk (a : ArrayS) (r : BitVec 5) : Bool :=
  let va := (sVal a r).toNat
  (sReg a r).mark.isNone && va % 64 == 0 && decide (va + 64 ≤ 65536)

/-- Every line that the array's landings have asked for has come (R166, R288). -/
def landingsHere (a : ArrayS) : Bool :=
  a.land.all (fun x => (List.range (landPieces x.2)).all (fun i => decide (i < x.2.done) || pieceHere x.2 i))

/-- A handle as it stood at the start of the ac, which is what a bundle that waits for it finds (R168, R377). -/
def startHandle (a : ArrayS) (h : BitVec 7) : HandleS := tabGet (a.hstart.getD a.handles) {} h.toNat

/-- What the S and A slots of the next bundle themselves wait for (R54, R194, R196, R221, R288, R311, R312). An
ST.A that traps at issue waits for nothing. -/
def slotWaits (s : State) (p : Nat) (i : Instr) : Bool :=
  let a := arrOf s p
  match i with
  | .sLsend l q r =>
    let k := linkOf s (9 * bhOfArr p + l.toNat)
    streamAddrOk a r && k.st ≠ .down && k.seen.getLsbD q.toNat
  | .sLrecv l q r =>
    let k := linkOf s (9 * bhOfArr p + l.toNat)
    streamAddrOk a r && k.st ≠ .down && (tabGet k.rxq [] q.toNat).isEmpty
  | .sLdSc .. | .sStSc .. | .sAmoAdd .. | .sAmoMin .. | .sAmoMax .. | .sAmoAnd .. | .sAmoOr .. | .sAmoSwap ..
  | .sAmoCas .. => 9 ≤ a.sc.length + (if a.scWait then 1 else 0)
  | .sStA b ap =>
    let o := ap.toNat
    0x1000 ≤ o && o < 0x1100 && o % 16 = 0 && (sReg a b).mark.isNone && bitsN (sVal a b) 7 57 = 0 &&
      (tabFind a.chans (o / 16 % 16)).isSome
  | .sMpass r =>
    (sReg a r).mark.isNone && ((a.descVa = some 0 && awaitsVas s p (mpassVas s p (sVal a r).toNat)) ||
      (a.descVa = some 1 && a.ahead.any (fun m => !mpeFirst m)))
  | .sCollGo .. => 2 ≤ a.colls
  | .sHalt =>
    a.s.any (fun x => x.2.pend) || !a.sc.isEmpty || a.scWait || !a.sems.isEmpty || !landingsHere a
  | .aHWait h ph => (startHandle a h).kind ≠ 0 && (startHandle a h).ph != ph
  | .aHDrain h | .aHFree h => (startHandle a h).kind ≠ 0 && (startHandle a h).st = .filling
  | _ => false

/-- What an S slot issued earlier still waits for; an answer of none ends the wait (R168, R215, R216, R300,
R302). -/
def waitStands (s : State) (p : Nat) : Bool :=
  let a := arrOf s p
  match a.wait with
  | none => false
  | some (.sem _ _ since ok) =>
    (match ok with
    | none => true
    | some w => a.ac < max (w + 10) (since + 20))
  | some (.fence cs colls since) =>
    a.ac ≤ since + 1 || (colls && a.colls ≠ 0) || cs.any (fun ch =>
      chUnwritten s p ch ||
      match tabFind a.chans ch with
      | some c => !c.stop && decide (c.pos < chTotal c.tmpl)
      | none => false)
  | some (.rel m since) => a.ac ≤ since + 1 || !markerPassed a m
  | some (.xfer num since) =>
    a.ac ≤ since + 1 || (partArrs s (partOfArr s p)).any (fun q => (arrOf s q).rinv.contains num)

/-- The issue cycle before a block of a message-passing step, other than the first, is a switchable boundary
(R203). -/
def blockBoundary (a : ArrayS) : Bool :=
  match a.mpe with
  | some m => mpeSb m 0 ≤ a.tt + 1 && (a.tt + 1 - mpeSb m 0) % m.p = 0 &&
      1 ≤ (a.tt + 1 - mpeSb m 0) / m.p && (a.tt + 1 - mpeSb m 0) / m.p < mpeB m
  | none => false

/-- What a switchable boundary waits for while a pre-emption request is held (R284). -/
def boundaryWaits (a : ArrayS) : Bool :=
  a.preReq && (a.s.any (fun x => x.2.pend) || !a.sc.isEmpty || a.scWait || !a.sems.isEmpty)

/-- A late landing: the next issue cycle is A + i and the piece is not all there (R168). -/
def landLate (a : ArrayS) : Bool :=
  a.land.any (fun x => match landDue x.2 a.tt with | some i => !pieceHere x.2 i | none => false)

/-- A division takes 19 frozen ac before its bundle issues (R291). -/
def isDivide : Instr → Bool
  | .sDivs .. | .sDivn .. | .sRems .. | .sRemn .. => true
  | _ => false

/-- MPASS and COLL.GO wait at least one ac for the read of their descriptor; an MPASS then waits for the records of its
first blocks (R311, R312). -/
def readsDescriptor : Instr → Bool
  | .sMpass .. | .sCollGo .. => true
  | _ => false

/-- How the next bundle of an array stands in this ac (R158): the leader issues from its own PC, a follower a bundle
of the leader's, which may be its HALT bundle; or none is due. -/
inductive Due where
  | lead | follow (halt : Bool) | none
  deriving DecidableEq, Repr

/-- The S and A slots that the next bundle decodes (R158). -/
def dueSlots (a : ArrayS) (d : Due) : Instr × Instr :=
  let f := fetchBundle a
  let z := slotBits f.bits
  if f.ill || f.pois then (.sNop, .aNop)
  else match d with
    | .lead => (slotInstr z .s, slotInstr z .a)
    | .follow _ => (.sNop, slotInstr z .a)
    | .none => (.sNop, .aNop)

/-- The addresses that the slots translate are used in the region cache (R213). -/
def useSlots (s : State) (p : Nat) (is : List Instr) : State :=
  (is.filterMap (slotVa (arrOf s p))).foldl (fun s va => rcUse s p va) s

/-- One freeze condition holds in this ac (R168); what goes on meanwhile is started or counted in the array's
state. -/
def freezeStep (s : State) (p : Nat) (d : Due) : State × Bool :=
  let a := arrOf s p
  if a.stall ≠ 0 then
    let a := { a with stall := a.stall - 1 }
    let a := if a.stall = 0 && a.gath.isSome then { gatherFinish { a with tt := a.tt - 1 } with tt := a.tt }
      else a
    (setArr s p a, true)
  else if d = .none then (s, false)
  else if landLate a || mpeLate a || waitStands s p || mpeWaits s p || (d = .follow true && !landingsHere a) then (s, true)
  else
    let (si, ai) := dueSlots a d
    let a := { a with wait := none }
    let s := setArr s p a
    if anyPending a si || anyPending a ai || slotWaits s p si || slotWaits s p ai || awaitsRelease s p si ||
        awaitsRelease s p ai || awaitsEgress s p si then (s, true)
    else
      match needsWalk a si, needsWalk a ai with
      | some va, _ | none, some va => (setArr s p { a with walk := some va }, true)
      | none, none =>
        if isDivide si && a.divLeft ≠ some 0 then
          (setArr s p { a with divLeft := some (match a.divLeft with | some n => n - 1 | none => 18) }, true)
        else if readsDescriptor si && a.descVa.isNone then (setArr s p { a with descVa := some 0 }, true)
        else
          match si with
          | .sMpass r =>
            if a.descVa ≠ some 0 || (sReg a r).mark.isSome then (useSlots s p [si, ai], false)
            else
              let s := mpassAsk (modArr s p (fun a => { a with descVa := some 1 })) p (sVal a r).toNat
              if (arrOf s p).ahead.any (fun m => !mpeFirst m) then (s, true) else (useSlots s p [si, ai], false)
          | _ => (useSlots s p [si, ai], false)

end Sys2Proof.Machine
end

