-- ==== Sys2Proof/Machine/Links.lean ====
section
/-! DEFINITION. Fabric links: training, flits, retry, flow control and going DOWN (R48 to R54, R394). -/
namespace Sys2Proof.Machine
open Sys2Proof

-- Going DOWN (R52)

/-- The stream instruction that an array is frozen in on a link: its trap detail (R54, R227). -/
def frozenOn (s : State) (p li : Nat) : Option W64 :=
  let a := arrOf s p
  let f := fetchBundle a
  if a.cond ≠ .running || a.chpos ≠ 0 || f.ill || f.pois then none
  else
    let i := slotInstr (slotBits f.bits) .s
    match i with
    | .sLsend l q _ | .sLrecv l q _ =>
      if l.toNat = li && slotWaits s p i then some (BitVec.ofNat 64 (li + q.toNat <<< 8)) else none
    | _ => none

/-- A collective that uses a link ends with status 1 (R109). -/
def collLose (li : Nat) (c : CollS) : CollS :=
  if 1 < cdC c.desc && (cdNext c.desc = li || cdPrev c.desc = li) then { c with down := true, code := 1 } else c

/-- What a link end keeps when it is DOWN: its registers and its retry count. -/
def downLink (x : LinkS) : LinkS :=
  { dis := x.dis, fabid := x.fabid, trainId := x.trainId, trainAt := x.trainAt, rtt := x.rtt, retry := x.retry,
    arb := x.arb, wire := x.wire, sent := x.sent }

/-- A LINK goes DOWN (R52): queued flits go, frozen programs trap, its collectives fail, and a LINK record is
logged. -/
def linkDown (s : State) (l : Nat) : State :=
  let x := linkOf s l
  if x.st = .down then s
  else
    let b := l / 9
    let li := l % 9
    let fz := (List.range 6).filterMap (fun i => (frozenOn s (6 * b + i) li).map (fun d => (6 * b + i, d)))
    let s := fz.foldl (fun s z => modArr s z.1 (fun a => noteAsync a .link z.2 0x3FFF)) s
    let s := setLink s l (downLink x)
    let s := modBh s b (fun y => { y with colls := y.colls.map (fun c => (c.1, collLose li c.2)) })
    logErr s ecLink b (bhOf s b).part 0 l 0 1

-- Training (R48, R52)

/-- LINK_TRAIN (R48, R52): a DOWN link of an ASSIGNED bulkhead starts training with the FABID it holds. -/
def execLinkTrain (s : State) : Host.Outcome State Fault Refusal :=
  .next (
    let l := s.cur.link
    let x := linkOf s l
    if x.st = .down && !x.dis && (bhOf s (l / 9)).st = .assigned then
      setLink s l { x with st := .training, trainId := x.fabid, trainAt := s.now }
    else s)

/-- LINK_DISABLE (R52): the link goes DOWN and stays there. -/
def execLinkDisable (s : State) : Host.Outcome State Fault Refusal :=
  .next (modLink (linkDown s s.cur.link) s.cur.link (fun x => { x with dis := true }))

/-- LINK_TRAINING_COMPLETE (R48, R52): with the partner's FABID equal and a round trip of at most 184 ac the link
is UP from SEQ 0; else it stays DOWN. -/
def execLinkTrainingComplete (fabid : BitVec 16) (rtt : BitVec 8) (s : State) :
    Host.Outcome State Fault Refusal :=
  .next (
    let l := s.cur.link
    let x := linkOf s l
    if x.st ≠ .training then s
    else
      let x := { x with rtt := rtt.toNat }
      if fabid = x.trainId && rtt.toNat ≤ 184 then
        setLink s l { downLink x with st := .up, txq := x.txq, ackAt := s.now, goodAt := s.now, vl6At := s.now }
      else linkDown (setLink s l x) l)

/-- LINK_TRAINING_TIMEOUT (R48): 130,000,000 ac after TRAIN. -/
def execLinkTrainingTimeout (s : State) : Host.Outcome State Fault Refusal :=
  .next (
    let l := s.cur.link
    let x := linkOf s l
    if x.st = .training && x.trainAt + 130000000 ≤ s.now then linkDown s l else s)

-- Sending (R49 to R52, R394)

/-- The off and on marks of a lane (R50); VL6 never turns off. -/
def laneMarks (vl : Nat) : Nat × Nat := if vl < 4 then (64, 32) else (256, 128)

/-- The OFF bits a receiver sends (R50). -/
def offBits (x : LinkS) : BitVec 6 :=
  ofBits 6 (fun vl =>
    let n := (tabGet x.rxq [] vl).length
    if (laneMarks vl).1 ≤ n then true else if n ≤ (laneMarks vl).2 then false else x.off.getLsbD vl)

/-- A lane holds a flit and is on at the partner (R394). -/
def laneReady (x : LinkS) (vl : Nat) : Bool := !(tabGet x.txq [] vl).isEmpty && !x.seen.getLsbD vl

/-- The next ready lane of a group in round robin, after the one served last (R394). -/
def nextLane (x : LinkS) (lanes : List Nat) (last : Nat) : Option Nat :=
  ((lanes.filter (fun v => last < v)) ++ (lanes.filter (fun v => v ≤ last))).find? (laneReady x)

/-- The lane of a group that would be served: true names the collective group. -/
def groupLane (x : LinkS) (coll : Bool) : Option Nat :=
  if coll then nextLane x [4, 5] x.laneC else nextLane x [0, 1, 2, 3] x.laneS

/-- Flits of a turn (R394): WC or WS, 0 acting as 1. -/
def turnSize (x : LinkS) (coll : Bool) : Nat := max 1 (if coll then bitsN x.arb 8 8 else bitsN x.arb 0 8)

/-- The lane served in this ac under the weighted turns, and the turn after it (R394). -/
def pickLane (x : LinkS) : Option (Nat × LinkS) :=
  let serve (coll : Bool) (left : Nat) : Option (Nat × LinkS) :=
    (groupLane x coll).map (fun v =>
      (v, if coll then { x with turnColl := true, turnLeft := left, laneC := v }
          else { x with turnColl := false, turnLeft := left, laneS := v }))
  (if x.turnLeft = 0 then none else serve x.turnColl (x.turnLeft - 1)) <|>
    serve (!x.turnColl) (turnSize x (!x.turnColl) - 1) <|> serve x.turnColl (turnSize x x.turnColl - 1)

/-- A flit as it goes out: the number expected from the partner and the own lanes off (R49, R50). -/
def outFlit (x : LinkS) (f : Flit) : Flit := { f with ack := x.rxSeq, off := x.off }

/-- A flit without payload. -/
def bareFlit (kind seq : Nat) : Flit :=
  { kind := kind, vl := 0, seq := seq, ack := 0, off := 0, tag := 0, len := 63, crcOk := true, data := 0 }

/-- Put a flit on the wire. -/
def emit (x : LinkS) (f : Flit) : LinkS := { x with sent := outFlit x f :: x.sent }

/-- Send a flit of a lane for the first time: it takes a sequence number and stays in the retry buffer until it is
acknowledged (R51). -/
def sendNew (now : Nat) (x : LinkS) (vl : Nat) : LinkS :=
  match tabGet x.txq [] vl with
  | [] => x
  | f :: r =>
    let f := outFlit x { f with seq := x.txSeq, vl := vl }
    { emit x f with
      txq := tabSet x.txq vl r, txSeq := (x.txSeq + 1) % 4096, buf := x.buf ++ [f]
      ackAt := if x.buf.isEmpty then now else x.ackAt }

/-- What an UP end sends in one ac (R50 to R52, R394): a retry request that is due, a resent flit, a VL6 flit, a
flit of the weighted turns, or an idle flit, which ends the turn as no lane of either group is ready. DESIGN CHOICE
(log entry 135): R51 gives a retry flit both the next unsent number and, as a retry request, the number expected; it
carries the number expected. -/
def sendOne (now : Nat) (x : LinkS) : LinkS :=
  let x := { x with off := offBits x }
  if x.askRetry then { emit x (bareFlit 4 x.rxSeq) with askRetry := false, asked := true }
  else
    match x.resend with
    | f :: r => { emit x f with resend := r }
    | [] =>
      if 512 ≤ x.buf.length then emit x (bareFlit 0 x.txSeq)
      else if !(tabGet x.txq [] 6).isEmpty && x.vl6At ≤ now then
        { sendNew now x 6 with vl6At := now + 64 }
      else
        match pickLane x with
        | some (v, y) => sendNew now y v
        | none => { emit x (bareFlit 0 x.txSeq) with turnLeft := 0 }

/-- LINK_FLIT_SEND (R394). -/
def execLinkFlitSend (s : State) : Host.Outcome State Fault Refusal :=
  .next (modLink s s.cur.link (fun x => if x.st = .up then sendOne s.now x else x))

-- Receiving (R50 to R53, R55)

/-- Take in ACK and OFF of a good flit (R49, R51): acknowledged flits leave the retry buffer. -/
def takeAck (now : Nat) (x : LinkS) (f : Flit) : LinkS :=
  let x := { x with seen := f.off, goodAt := now }
  match x.buf with
  | [] => x
  | o :: _ =>
    let n := (f.ack + 4096 - o.seq) % 4096
    if n = 0 || x.buf.length < n then x
    else
      { x with
        buf := x.buf.drop n, ackAt := now, retryRun := 0
        resend := x.resend.filter (fun g => (x.buf.drop n).any (fun h => h.seq = g.seq)) }

/-- Discard a flit and ask for a resend; `again` asks even where a request is already out (R51). DESIGN CHOICE (log
entry 134): the spec does not say whether a request is repeated while flits out of their turn go on arriving; it is
made once for each loss, and again on a flit with a bad CRC. -/
def askAgain (x : LinkS) (again : Bool) : LinkS :=
  if x.asked && !again then x else { x with askRetry := true }

/-- The flit that has arrived at the link the instruction acts on, if it is good and of a kind; a flit at an end
that is not UP is lost. -/
def arriving (s : State) (kind : Nat) (go : LinkS → Flit → State) : State :=
  let l := s.cur.link
  let x := linkOf s l
  match x.wire with
  | [] => s
  | f :: r =>
    if !f.crcOk || f.kind ≠ kind then s
    else if x.st ≠ .up then setLink s l { x with wire := r }
    else go (takeAck s.now { x with wire := r } f) f

/-- A sequenced flit: in its turn it is taken, else it is discarded (R51). -/
def sequenced (s : State) (kind : Nat) (take : LinkS → Flit → State) : State :=
  arriving s kind (fun x f =>
    if f.seq = x.rxSeq then take { x with rxSeq := (x.rxSeq + 1) % 4096, asked := false, askRetry := false } f
    else setLink s s.cur.link (askAgain x false))

/-- A flit joins a receive queue (R50). -/
def queueFlit (x : LinkS) (vl : Nat) (f : Flit) : LinkS :=
  { x with rxq := tabMod x.rxq [] vl (fun t => t ++ [f]) }

/-- STREAM_DATA_FLIT_RECEIVE (R53): the flit joins stream queue q. DESIGN CHOICE (log entry 64): the spec does not say
what a KIND 1 flit with a VL of 4 or more does; its sequence number is taken and the flit dropped. -/
def execStreamDataFlitReceive (s : State) : Host.Outcome State Fault Refusal :=
  .next (sequenced s 1 (fun x f => setLink s s.cur.link (if f.vl < 4 then queueFlit x f.vl f else x)))

/-- A collective flit reaches the link engine, which hands it to its collective (R55). -/
def collFlit (s : State) (kind vl : Nat) : State :=
  sequenced s kind (fun x f =>
    collOffer (setLink s s.cur.link (queueFlit x vl f)) (s.cur.link / 9) (s.cur.link % 9))

/-- COLLECTIVE_DATA_FLIT_RECEIVE (R55). -/
def execCollectiveDataFlitReceive (s : State) : Host.Outcome State Fault Refusal := .next (collFlit s 2 4)
/-- COLLECTIVE_CONTROL_FLIT_RECEIVE (R55). -/
def execCollectiveControlFlitReceive (s : State) : Host.Outcome State Fault Refusal := .next (collFlit s 3 5)

/-- MANAGEMENT_FLIT_RECEIVE (R50): the flit is received on VL6, whose buffer holds 16. DESIGN CHOICE (log entry 63):
the spec does not say what becomes of a flit that finds the buffer full; the oldest gives way. -/
def execManagementFlitReceive (s : State) : Host.Outcome State Fault Refusal :=
  .next (sequenced s 5 (fun x f =>
    let q := tabGet x.rxq [] 6 ++ [f]
    setLink s s.cur.link { x with rxq := tabSet x.rxq 6 (q.drop (q.length - 16)) }))

/-- IDLE_FLIT_RECEIVE (R51): ACK and OFF are taken in; a number other than the one expected asks for a
resend. -/
def execIdleFlitReceive (s : State) : Host.Outcome State Fault Refusal :=
  .next (arriving s 0 (fun x f =>
    setLink s s.cur.link (if f.seq = x.rxSeq then x else askAgain x false)))

/-- RETRY_REQUEST_FLIT_RECEIVE (R51, R52): resend from the number asked for; the 16th consecutive retry of one
number takes the link DOWN. -/
def execRetryRequestFlitReceive (s : State) : Host.Outcome State Fault Refusal :=
  .next (arriving s 4 (fun x f =>
    let run := if x.retryRun ≠ 0 && x.retrySeq = f.seq then x.retryRun + 1 else 1
    let x := { x with
      resend := x.buf.dropWhile (fun g => g.seq ≠ f.seq), retry := x.retry.count s.now
      retrySeq := f.seq, retryRun := run }
    let s := setLink s s.cur.link x
    if 16 ≤ run then linkDown s s.cur.link else s))

/-- FLIT_CRC_FAILURE (R49, R51): a flit with a bad CRC, or of KIND 6 to 15, is discarded and asked for again. -/
def execFlitCrcFailure (s : State) : Host.Outcome State Fault Refusal :=
  .next (
    let l := s.cur.link
    let x := linkOf s l
    match x.wire with
    | [] => s
    | f :: r =>
      if f.crcOk && f.kind < 6 then s
      else if x.st ≠ .up then setLink s l { x with wire := r }
      else setLink s l (askAgain { x with wire := r } true))

/-- LINK_ACK_TIMEOUT (R52): 65,536 ac without ACK progress while flits are unacknowledged. -/
def execLinkAckTimeout (s : State) : Host.Outcome State Fault Refusal :=
  .next (
    let x := linkOf s s.cur.link
    if x.st = .up && !x.buf.isEmpty && x.ackAt + 65536 ≤ s.now then linkDown s s.cur.link else s)

/-- LINK_RX_SILENCE_TIMEOUT (R52): 1,024 consecutive ac of an UP link without a flit of good CRC. -/
def execLinkRxSilenceTimeout (s : State) : Host.Outcome State Fault Refusal :=
  .next (
    let x := linkOf s s.cur.link
    if x.st = .up && x.goodAt + 1024 ≤ s.now then linkDown s s.cur.link else s)

/-- LNKSTAT_RETRY_CLEAR (R6, R52). -/
def execLnkstatRetryClear (s : State) : Host.Outcome State Fault Refusal :=
  .next (modLink s s.cur.link (fun x => { x with retry := x.retry.clear s.now }))

end Sys2Proof.Machine
end

