-- ==== Sys2Proof/Machine/Port.lean ====
section
/-! DEFINITION. The host port: its configuration, functions and queue pairs, the sharing of its buffers, the
transmit round, and time (R36 to R47). -/
namespace Sys2Proof.Machine
open Sys2Proof

-- Sharing (R43, R44)

/-- PORTPART of a partition number. -/
def portPart (s : State) (p : Nat) : W32 := tabGet s.port.part 1 p
/-- RESV in 64 KiB units. -/
def resv (s : State) (p : Nat) : Nat := bitsN (portPart s p) 11 9
/-- WGT; 0 acts as 1. -/
def portWgt (s : State) (p : Nat) : Nat := max 1 (bitsN (portPart s p) 0 8)
/-- The partition class: PRIO, 7 acting as 6. -/
def portClass (s : State) (p : Nat) : Nat := min 6 (bitsN (portPart s p) 8 3)
/-- Bytes of the receive buffer that a group may hold: 1 MiB for the PSF (R43). -/
def resvBytes (s : State) (g : Nat) : Nat := if g = 16 then 2 ^ 20 else 65536 * resv s g
/-- Bytes it holds. -/
def heldBytes (s : State) (g : Nat) : Nat := tabGet s.port.held 0 g

/-- A frame goes out, from the addresses that its enabled function has then, in an IP version that it sends and with its
class's priority, which is 7 for the PSF; else it is dropped (R39, R41, R43, R44). -/
def sendFrame (s : State) (f : Frame) : State :=
  let put (f : Frame) : State := { s with port := { s.port with sent := f :: s.port.sent } }
  match f.qp, f.body with
  | some k, .roce p =>
    let n := k / 64
    let v := fnVlan s n
    if fnOn s n && fnSends s n f.v6 then
      put { f with src := BitVec.ofNat 48 (fnMac s n), sip := BitVec.ofNat 128 (fnIp s n f.v6), vlan := v
                   len := frameLen v f.v6 p, pcp := if n = psf then 7 else portClass s (vfPart s n) }
    else s
  | _, _ => put f

/-- A priority flow control frame: XOFF with the longest time for the classes that went off, XON for those that came
on (R44). -/
def pfcFrame (s : State) (old new : BitVec 8) : Frame :=
  { mac := 0x0180C2000001, vlan := 0, v6 := false, ip := 0, len := 64, fcs := true, ce := false
    src := BitVec.ofNat 48 (fnMac s psf)
    body := .pfc (old ^^^ new) (BitVec.ofNat 128 (leNat ((List.range 8).flatMap (fun c =>
      leBytes 2 (if new.getLsbD c && !old.getLsbD c then 0xFFFF else 0))))) }

/-- XOFF and XON towards the partner, by class (R44); a change is told in a frame while the port is up. A partition
with RESV = 0 holds back nobody. -/
def pfcUpdate (s : State) : State :=
  let ps (c : Nat) : List Nat := (List.range 16).filter (fun p => portClass s p = c && resv s p ≠ 0)
  let x := ofBits 8 (fun c =>
    if (ps c).any (fun p => resvBytes s p ≤ heldBytes s p + 262144) then true
    else if (ps c).all (fun p => heldBytes s p + 524288 < resvBytes s p) then false
    else s.port.xoff.getLsbD c)
  let t := { s with port := { s.port with xoff := x } }
  if x = s.port.xoff || !s.port.up then t else sendFrame t (pfcFrame s s.port.xoff x)

-- Queue pairs (R37, R40, R42)

/-- The queue pairs of a function. -/
def fnQps (f : Nat) : List Nat := (List.range (if f = psf then 64 else 16)).map (qpKey f)

/-- A host read for a queue has ended: with its bytes, or in error (R93). -/
def replyFetch (s : State) (w : QpWork) (r : Option (List Byte)) : State :=
  match w with
  | .fetch b q level off n =>
    let x := queueOf s b q
    if x.fetching && queueLevel x = level then
      modQueue s b q (fun x => { x with reply := some (r.map (fun bs => (off, n, bs))) })
    else s
  | _ => s

/-- An outstanding request ends in error (R37, R40, R87). -/
def failWork (s : State) (w : QpWork) : State :=
  match w with
  | .notify => s
  | .fetch .. => replyFetch s w none
  | .ckpt _ => if s.hub.ckBusy then { s with hub := { s.hub with ckStop := some 3 } } else s

/-- The packets a queue pair holds leave the receive buffer, which may let a class go on (R44). -/
def dropRx (s : State) (k : Nat) : State :=
  let n := ((qpOf s k).rx.map (fun r => r.2)).sum
  let g := fnGroup s (k / 64)
  let s := { s with port := { s.port with held := tabMod s.port.held 0 g (fun h => h - n) } }
  pfcUpdate (modQp s k (fun q => { q with rx := [], msg := none }))

/-- Outstanding requests of a queue pair complete with flush errors, and what it had ready does not go out (R40,
R42). -/
def flushQp (s : State) (k : Nat) : State :=
  let ws := (qpOf s k).out
  let s := ws.foldl (fun s o => failWork s o.2.2) (dropTx (dropRx s k) k)
  modQp s k (fun q => { q with out := [], retries := 0, flushed := q.flushed + ws.length })

/-- A queue pair moves to ERROR (R40, R42). -/
def qpError (s : State) (k : Nat) : State := modQp (flushQp s k) k (fun q => { q with st := .error })

/-- Every queue pair of a function moves to ERROR. -/
def fnError (s : State) (f : Nat) : State := (fnQps f).foldl qpError s

/-- Clear VFMAP.EN of a VF that has it set (R40). -/
def vfClear (s : State) (v : Nat) : State :=
  if bitB (vfWord s v) 31 then
    let s := fnError s v
    { s with port := { s.port with vfmap := tabSet s.port.vfmap v (setBit (vfWord s v) 31 false) } }
  else s

/-- VFMAP_WRITE (R39, R40): it writes PART and VLAN, so while EN = 1 it first clears EN. -/
def execVfmapWrite (v : BitVec 9) (w : BitVec 32) (s : State) : Host.Outcome State Fault Refusal :=
  .next (
    let k := v.toNat
    let new : W32 := w &&& 0x800F0FFF
    let s := vfClear s k
    { s with port := { s.port with vfmap := tabSet s.port.vfmap k new } })

/-- The bits of a word of an address block that can be written (R41). -/
def fnAddrMask (f w : Nat) : W32 :=
  if w = 1 then 0xFFFF
  else if w = 3 then (if f = psf then 0x3FFF else 3)
  else if w < 8 then 0xFFFFFFFF else 0

/-- FNADDR_WRITE (R41): for an enabled VF it first clears VFMAP.EN. -/
def execFnaddrWrite (f : BitVec 10) (word : BitVec 4) (v : BitVec 32) (s : State) :
    Host.Outcome State Fault Refusal :=
  .next (
    let n := f.toNat
    let w := word.toNat
    if psf < n then s
    else
      let s := if n < psf then vfClear s n else s
      if 8 ≤ w then s
      else { s with port := { s.port with fnaddr := tabSet s.port.fnaddr (16 * n + w) (v &&& fnAddrMask n w) } })

/-- QPBUF as bytes (R42). -/
def qpBufBytes (s : State) : List Byte :=
  (List.range 16).flatMap (fun i => leBytes 4 (tabGet s.port.qpbuf 0 i).toNat)

/-- Every field of QPBUF is in range and every zero field zero (R42). -/
def qpBufOk (bs : List Byte) : Bool :=
  let f (o n : Nat) : Nat := leNat ((bs.drop o).take n)
  f 3 1 = 0 && f 7 1 = 0 && f 11 1 = 0 && f 0x0C 1 ≤ 2 && f 0x0D 1 < 4 && f 0x0E 1 ≤ 20 &&
    f 0x0F 1 % 4 = 0 && (f 0x0D 1 % 2 = 1 || f 0x14 12 = 0) && f 0x26 26 = 0

/-- The connection that QPBUF describes (R42). An IPv4 address takes the low 32 bits. -/
def qpOfBuf (bs : List Byte) : QpS :=
  let f (o n : Nat) : Nat := leNat ((bs.drop o).take n)
  let be (o n : Nat) : Nat := leNat ((bs.drop o).take n).reverse
  let v6 := f 0x0D 1 % 2 = 1
  { st := .rts, remote := f 0 3, sPsn := f 4 3, rPsn := f 8 3, mtu := f 0x0C 1, v6 := v6,
    ecn := f 0x0D 1 / 2 = 1, tmo := f 0x0E 1, tcls := f 0x0F 1,
    ip := BitVec.ofNat 128 (if v6 then be 0x10 16 else be 0x10 4), mac := BitVec.ofNat 48 (be 0x20 6) }

/-- The result of a QPCMD command. -/
def qpErrPut (s : State) (e : Nat) : State := { s with port := { s.port with qpErr := e } }

/-- QP_CONNECT (R42): queue pair (FN, QPN) goes from RESET to RTS with the connection in QPBUF. DESIGN CHOICE (log
entry 65): the spec does not say which ERR code a command reports where several causes hold; the checks come in the
order 4, 3, 1, 2. -/
def execQpConnect (s : State) : Host.Outcome State Fault Refusal :=
  .next (
    let p := s.port
    let k := qpKey p.qpFn p.qpN
    let bs := qpBufBytes s
    if p.qpBusy then qpErrPut s 4
    else if !qpExists p.qpFn p.qpN then qpErrPut s 3
    else if !qpBufOk bs then qpErrPut s 1
    else if (qpOf s k).st ≠ .reset then qpErrPut s 2
    else modQp (qpErrPut s 0) k (fun _ => { qpOfBuf bs with at_ := s.now }))

/-- QP_RESET (R42): the queue pair goes to RESET, and its outstanding requests are flushed. -/
def execQpReset (s : State) : Host.Outcome State Fault Refusal :=
  .next (
    let p := s.port
    let k := qpKey p.qpFn p.qpN
    if p.qpBusy then qpErrPut s 4
    else if !qpExists p.qpFn p.qpN then qpErrPut s 3
    else
      let busy := !(qpOf s k).out.isEmpty
      let s := modQp (flushQp (qpErrPut s 0) k) k (fun q => { q with st := .reset })
      { s with port := { s.port with qpBusy := busy } })

/-- QP_FLUSH_COMPLETE (R42). -/
def execQpFlushComplete (s : State) : Host.Outcome State Fault Refusal :=
  .next { s with port := { s.port with qpBusy := false } }

-- Requester (R37)

/-- Send again every outstanding request of a queue pair from a PSN on (R37, go-back-N). -/
def resendFrom (s : State) (k psn : Nat) : State :=
  let os := (qpOf s k).out.dropWhile (fun o => o.1 ≠ psn)
  modQp (os.foldl (fun s o => readyReq s k o.2.1 o.2.2) s) k (fun q => { q with at_ := s.now })

/-- QP_RETRY_TIMEOUT (R37, R42): go-back-N, and ERROR after 7 retries. -/
def execQpRetryTimeout (s : State) : Host.Outcome State Fault Refusal :=
  .next (
    let k := qpKey s.cur.fn s.cur.qpn
    let q := qpOf s k
    match q.out with
    | [] => s
    | o :: _ =>
      if q.st ≠ .rts || s.now < q.at_ + 4096 * 2 ^ q.tmo then s
      else if 7 ≤ q.retries then qpError s k
      else resendFrom (modQp s k (fun q => { q with retries := q.retries + 1 })) k o.1)

/-- Line rate in the units of a queue pair's rate. -/
def lineRate : Nat := 2 ^ 30

/-- CNP_RATE_INCREASE (R37): after 50,000 ac without a CNP, 1/64 of line rate more. -/
def execCnpRateIncrease (s : State) : Host.Outcome State Fault Refusal :=
  .next (
    let k := qpKey s.cur.fn s.cur.qpn
    let q := qpOf s k
    match q.cnpAt with
    | some t =>
      if t + 50000 ≤ s.now && q.rate < lineRate then
        modQp s k (fun q => { q with rate := min lineRate (q.rate + lineRate / 64), cnpAt := some s.now })
      else s
    | none => s)

-- Port (R36, R41)

/-- Every queue pair of every function in ERROR (R41). -/
def allQpError (s : State) : State :=
  (List.range 513).foldl fnError s

/-- PORTCFG_MODE_CHANGE (R36, R41): a change of mode takes the port down and retrains it. -/
def execPortcfgModeChange (mode : Bool) (s : State) : Host.Outcome State Fault Refusal :=
  .next (if s.port.mode = mode then s else { s with port := { s.port with mode := mode, up := false } })

/-- PORTCFG_EN_SET (R41). -/
def execPortcfgEnSet (s : State) : Host.Outcome State Fault Refusal :=
  .next { s with port := { s.port with en := true } }

/-- PORTCFG_EN_CLEAR (R41): the port goes down and every queue pair to ERROR. -/
def execPortcfgEnClear (s : State) : Host.Outcome State Fault Refusal :=
  .next (
    let s := if s.port.en then allQpError s else s
    { s with port := { s.port with en := false, up := false } })

/-- PORT_UP (R36, R41): training of an enabled port completes; the partner hears of the classes that are off (R44). -/
def execPortUp (s : State) : Host.Outcome State Fault Refusal :=
  .next (
    if s.port.en && s.hub.phase = 2 then
      let s' := { s with port := { s.port with up := true } }
      if s.port.up || s.port.xoff = 0 then s' else sendFrame s' (pfcFrame s 0 s.port.xoff)
    else s)

-- Pauses (R44)

/-- PORTPART_WRITE (R43): an invalid or over-committed RESV is refused, and PRIO and WGT still take effect. -/
def execPortpartWrite (v : BitVec 32) (s : State) : Host.Outcome State Fault Refusal :=
  .next (
    let p := s.cur.part
    let r := bitsN v 11 9
    let sum := ((List.range 16).map (fun q => if q = p then r else resv s q)).sum
    let bad := (1 ≤ r && r < 16) || 368 < sum
    let w : W32 := setField (v &&& 0x7FF) 11 9 (if bad then resv s p else r)
    pfcUpdate { s with port := { s.port with part := tabSet s.port.part p (setBit w 31 bad) } })

/-- ac of a pause of q quanta of 512 bit times (R44). -/
def pauseAc (s : State) (q : Nat) : Nat := (q * 512 * 13 * (if s.port.mode then 2 else 1) + 15999) / 16000

/-- A pause arrives: quanta of 0 are XON; priority 7 is never paused (R44). -/
def pfcReceive (s : State) (enable : BitVec 8) (quanta : BitVec 128) : State :=
  if !s.port.up then s
  else
    (List.range 7).foldl (fun s c =>
      if !enable.getLsbD c then s
      else
        let q := bitsN quanta (16 * c) 16
        if q = 0 then { s with port := { s.port with paused := setBit s.port.paused c false } }
        else
          { s with port := { s.port with
              paused := setBit s.port.paused c true
              pauseEnd := tabSet s.port.pauseEnd c (s.now + pauseAc s q) } }) s

/-- PFC_FRAME_RECEIVE (R44). -/
def execPfcFrameReceive (enable : BitVec 8) (quanta : BitVec 128) (s : State) :
    Host.Outcome State Fault Refusal := .next (pfcReceive s enable quanta)

/-- PFC_PAUSE_EXPIRY (R44). -/
def execPfcPauseExpiry (prio : BitVec 3) (s : State) : Host.Outcome State Fault Refusal :=
  .next (
    let c := prio.toNat
    if s.port.paused.getLsbD c && tabGet s.port.pauseEnd 0 c ≤ s.now then
      { s with port := { s.port with paused := setBit s.port.paused c false } }
    else s)

-- Transmission (R37, R45, R87)

/-- Bytes of PSF data in each 65,536 ac: 1/32 of line rate (R45). -/
def psfLimit (s : State) : Nat := if s.port.mode then 157538 else 315076

/-- ac that a queue pair's rate gives a frame of `n` bytes; at line rate its frames are not held apart (R37). -/
def paceAc (s : State) (rate n : Nat) : Nat :=
  if lineRate ≤ rate then 0
  else n * 13 * (if s.port.mode then 2 else 1) * lineRate / (2000 * max 1 rate)

/-- A frame may go: its queue pair's rate lets it, and it is the oldest of its queue pair (R37, R45). -/
def frameReady (s : State) (f : Frame) : Bool :=
  match f.qp with
  | none => true
  | some k => (qpOf s k).nextTx ≤ s.now && (allTx s).all (fun g => g.qp ≠ some k || f.ord ≤ g.ord)

/-- A frame leaves a reservation, by its number and place, and goes out; the next one of its queue pair keeps its
rate. -/
def launchFrame (s : State) (f : Frame) : State :=
  let out (l : List Frame) : List Frame := l.filter (fun g => g.ord ≠ f.ord)
  let s := { s with port := { s.port with
    tx := s.port.tx.map (fun x => (x.1, out x.2)), txFree := out s.port.txFree } }
  let s := match f.qp with
    | some k => modQp s k (fun q => { q with nextTx := s.now + paceAc s q.rate f.len })
    | none => s
  sendFrame s f

/-- The PSF's frames that are ready and that the limit lets go, those of the checkpoint of FREE bulkheads without it
(R45, R87). -/
def sendPsf (s : State) : List Frame → State
  | [] => s
  | f :: r =>
    let free := s.port.txFree.any (fun g => g.ord = f.ord)
    if !frameReady s f then sendPsf s r
    else if free then sendPsf (launchFrame s f) r
    else if s.port.psfSent + f.len ≤ psfLimit s then
      sendPsf (launchFrame { s with port := { s.port with psfSent := s.port.psfSent + f.len } } f) r
    else sendPsf s r

/-- The ready frames of a partition that its deficit pays for; answers the deficit left, 0 where none is left ready
(R45). -/
def sendPart (s : State) (d : Nat) : List Frame → State × Nat
  | [] => (s, 0)
  | f :: r =>
    if !frameReady s f then sendPart s d r
    else if f.len ≤ d then sendPart (launchFrame s f) (d - f.len) r else (s, d)

/-- The turn of partition p (R45). -/
def txTurn (s : State) (p : Nat) : State :=
  let fs := tabGet s.port.tx [] p
  if !fs.any (frameReady s) then { s with port := { s.port with deficit := tabSet s.port.deficit p 0 } }
  else if s.port.paused.getLsbD (portClass s p) then s
  else
    let (s, d) := sendPart s (tabGet s.port.deficit 0 p + portWgt s p * 256) fs
    { s with port := { s.port with deficit := tabSet s.port.deficit p d } }

/-- What waits for room in a reservation enters it (R43). -/
def refillTx (s : State) : State := s.port.txWait.foldl (fun s x => fillTx s x.1 x.2) s

/-- The first step of a round: PTP messages, the PSF's frames and the checkpoint frames of FREE bulkheads (R45). -/
def sendFirst (s : State) : State :=
  let s := (s.port.ptpTx).foldl sendFrame { s with port := { s.port with ptpTx := [] } }
  sendPsf s (sortBy (fun f g => decide (f.ord ≤ g.ord)) (tabGet s.port.tx [] 16 ++ s.port.txFree))

/-- TRANSMIT_ARBITRATION_ROUND (R45). -/
def execTransmitArbitrationRound (s : State) : Host.Outcome State Fault Refusal :=
  .next (
    if !s.port.up then s
    else
      let s := if s.port.psfSince + 65536 ≤ s.now then
          { s with port := { s.port with psfSince := s.now, psfSent := 0 } } else s
      refillTx ((List.range 16).foldl txTurn (sendFirst s)))

-- Time (R46, R47)

/-- What the ordinary clock sends on a message (R46): a response and its follow-up on a peer delay request, and on a Sync,
where its delay mechanism asks for it, a request, which is open; nothing on others. -/
def ptpSends (k : PtpKind) (v : W64) : List PtpKind :=
  match k with
  | .pdelayReq => [.pdelayResp, .pdelayRespFollowUp]
  | .sync => match bitsN v 0 2 with | 1 => [.delayReq] | 2 => [.pdelayReq] | _ => []
  | _ => []

/-- The servo takes in what a message brings. -/
def ptpTimes : PtpKind → Bool
  | .pdelayReq | .delayReq | .announce => false
  | _ => true

/-- The frame of a PTP message from the PSF's addresses, on priority 7 (R44). -/
def ptpFrame (s : State) (m : PtpMsg) : Frame :=
  let f : Frame :=
    { mac := 0x011B19000000, vlan := 0, v6 := m.trans == .udp6
      ip := if m.trans == .udp6 then 0xFF0E0000000000000000000000000181 else 0xE0000181
      len := 0, fcs := true, ce := false, src := BitVec.ofNat 48 (fnMac s psf)
      sip := BitVec.ofNat 128 (fnIp s psf (m.trans == .udp6)), body := .ptp m, pcp := 7 }
  { f with len := (frameBytes f).length }

/-- The servo takes an offset in ns at the end of a sync interval: LOCK needs 16 in a row below 50 ns (R46). -/
def ptpServo (h : HubS) (offset : Int) : HubS :=
  let good := if offset.natAbs < 50 then min 16 (h.ptpGood + 1) else 0
  { h with ptpGood := good, lock := 16 ≤ good }

/-- The counter moves forward, if it does: a launch whose tick it passes starts in the next ac (R47). -/
def moveTimer (h : HubS) (t : Nat) : HubS :=
  if t < h.timer then h else { h with timer := t, before := some (h.before.getD h.timer) }

/-- A PTP message of the clock's domain in hardware mode (R46): what the servo makes of it is open, so the step
forward, the period, the servo offset and whether a sync interval ends with it are free values (log entry 4). -/
def ptpReceive (s : State) (m : PtpMsg) : State :=
  if s.hub.tmode || m.domain ≠ s.hub.domain || !s.port.up then s
  else
    let (ns, s) := freeValue s
    let (fr, s) := freeValue s
    let (of, s) := freeValue s
    let (out, s) := freeValue s
    let s :=
      if ptpTimes m.kind then
        let h := { moveTimer s.hub ((s.hub.timer + ns.toNat * 2 ^ 32 + bitsN fr 0 32) % 2 ^ 96) with
                   adj := signedOf 31 (bitsN fr 32 31) }
        { s with hub := if bitB fr 63 then ptpServo h of.toInt else h }
      else s
    let fs := (ptpSends m.kind out).map (fun k => ptpFrame s { m with kind := k, time := nsTime s })
    { s with port := { s.port with ptpTx := s.port.ptpTx ++ fs } }

/-- The kind and transport of a PTP message of which only the domain is named: open (log entry 4). -/
def ptpOpen (domain : Byte) (v : W64) : PtpMsg :=
  let kind : PtpKind := match bitsN v 0 3 with
    | 0 => .sync | 1 => .delayReq | 2 => .pdelayReq | 3 => .pdelayResp | 4 => .followUp | 5 => .delayResp
    | 6 => .pdelayRespFollowUp | _ => .announce
  let trans : PtpTransport := match bitsN v 3 2 with | 0 => .udp4 | 1 => .udp6 | _ => .ether
  { kind := kind, trans := trans, domain := domain }

/-- PTP_MESSAGE_RECEIVE (R46). -/
def execPtpMessageReceive (domain : BitVec 8) (s : State) : Host.Outcome State Fault Refusal :=
  .next (
    let (v, s) := freeValue s
    ptpReceive s (ptpOpen domain v))

/-- TIMESTEP_WRITE (R46): in host-fed mode a positive step moves the counter on, and a negative one holds it. -/
def execTimestepWrite (v : BitVec 32) (s : State) : Host.Outcome State Fault Refusal :=
  .next (
    if !s.hub.tmode then s
    else if v.slt 0 then
      { s with hub := { s.hub with hold := s.hub.hold + (-v.toInt).toNat * 2 ^ 32 } }
    else { s with hub := moveTimer s.hub ((s.hub.timer + v.toNat * 2 ^ 32) % 2 ^ 96) })

end Sys2Proof.Machine
end

