-- ==== Sys2Proof/Machine/Bulk.lean ====
section
/-! DEFINITION. Bulkheads, partitions, scrub, windows, power, bring-up and attestation (R10 to R35). -/
namespace Sys2Proof.Machine
open Sys2Proof

-- Bulkhead states and scrub (R16, R21, R22)

/-- FREE in an allocation table (R83). -/
def freeGran : Nat := 0xFFF1

/-- The slot-0 keys that a scrub installs, from the hub's random source (R21), and the bulkhead's metadata key with
them (R78; log entry 66). -/
def scrubKeys (s : State) (b : Nat) : State :=
  modBh { s with fresh := s.fresh + 4 } b (fun x =>
    { x with key0 := Config.randomKey s.fresh, key0t := Config.randomKey (s.fresh + 1)
             keyM := Config.randomKey (s.fresh + 2), keyMt := Config.randomKey (s.fresh + 3) })

/-- A bulkhead enters SCRUB (R21, R22): a fresh key in slot 0, and every granule in domain 0 (R83). -/
def startScrub (s : State) (b : Nat) (dest : Nat) (host : Bool) : State :=
  let s := scrubKeys s b
  let lo := b % 2 * bhGrans
  let s := modStack s (b / 2) (fun k =>
    { k with pat := k.pat.filter (fun g => g.1 < lo || lo + bhGrans ≤ g.1) })
  modBh s b (fun x =>
    { x with st := .scrub, dest := dest, scrHost := host, scrDone := 0, chunkQ := [], scrSent := false })

/-- BHCTL_PWR_SET (R16, R26, R32): from OFF to POWERUP once the hub is up; no chunk counts as scrubbed since.
DESIGN CHOICE (log entry 67): the generation is 0x0001 after the package's power-up (R17), and a bulkhead that is
powered up again keeps the one it has. -/
def execBhctlPwrSet (s : State) : Host.Outcome State Fault Refusal :=
  .next (
    if s.hub.phase = 2 then
      modBh s s.cur.bh (fun x => if x.st = .off then { x with st := .powerup, scrDone := 0 } else x)
    else s)

/-- BHCTL_PWR_CLEAR (R16): from FREE or FAILED to OFF. -/
def execBhctlPwrClear (s : State) : Host.Outcome State Fault Refusal :=
  .next (modBh s s.cur.bh (fun x => if x.st = .free || x.st = .failed then { x with st := .off } else x))

/-- BHCTL_CHUNK (R22): queue a chunk of a host-assisted scrub. DESIGN CHOICE (log entry 68): the chunk being scrubbed
still counts among the 32 queued, until SCRUB_CHUNK_COMPLETE. -/
def execBhctlChunk (c : BitVec 5) (s : State) : Host.Outcome State Fault Refusal :=
  .next (modBh s s.cur.bh (fun x =>
    if x.st = .scrub && x.scrHost && x.chunkQ.length < 32 then { x with chunkQ := x.chunkQ ++ [c.toNat] }
    else x))

/-- POWERUP_SELF_TEST_DONE (R16, R32): a hardware scrub, whatever SCRMODE, or FAILED. -/
def execPowerupSelfTestDone (pass : Bool) (s : State) : Host.Outcome State Fault Refusal :=
  .next (
    let b := s.cur.bh
    if (bhOf s b).st ≠ .powerup then s
    else if pass then startScrub s b 4 false
    else modBh s b (fun x => { x with st := .failed }))

/-- The bytes, metadata and counters of a range of lines return to zero (R21). -/
def zeroLines (s : State) (l n : Nat) : State :=
  let out (lo hi k : Nat) : Bool := decide (k < lo) || decide (hi ≤ k)
  { s with
    mem := s.mem.filter (fun c => out (64 * l) (64 * (l + n)) c.1)
    lmeta := s.lmeta.filter (fun c => out l (l + n) c.1)
    pages := s.pages.filter (fun c => out (l / 64) ((l + n) / 64) c.1) }

/-- The tree counters of a bulkhead return to zero, written afresh (R20, R21). -/
def zeroTree (s : State) (b : Nat) : State :=
  { s with
    tree := s.tree.filter (fun c => c.1 / 2 ^ 40 / 8 ≠ b)
    metaErr := s.metaErr.filter (fun c => c.1 / 2 ^ 40 / 8 ≠ b) }

/-- The chunk a scrub does next (R22). -/
def nextChunk (x : BhS) : Option Nat :=
  if x.scrHost then x.chunkQ.head? else (List.range 32).find? (fun c => !x.scrDone.getLsbD c)

/-- The last chunk is done: the bulkhead reaches its destination (R16, R26). -/
def leaveScrub (s : State) (b : Nat) : State :=
  let x := bhOf s b
  if x.dest = 5 then
    let s := modBh s b (fun x => { x with st := .assigned, dest := 0 })
    modPart s x.part (fun p => { p with since := s.now, refills := 0 })
  else modBh s b (fun x => { x with st := .free, dest := 0, part := 0, own := false })

/-- SCRUB_CHUNK_COMPLETE (R22): one chunk of 1 GiB; chunks 28 to 31 hold the counters and tags (R64). -/
def execScrubChunkComplete (s : State) : Host.Outcome State Fault Refusal :=
  .next (
    let b := s.cur.bh
    let s := modBh s b (fun x => { x with scrSent := false })
    let x := bhOf s b
    if x.st ≠ .scrub then s
    else
      match nextChunk x with
      | none => s
      | some c =>
        let s := if c < 28 then zeroLines s (b * bhLines + c * 2 ^ 24) (2 ^ 24) else zeroTree s b
        let s := modBh s b (fun x =>
          { x with scrDone := setBit x.scrDone c true
                   chunkQ := if x.scrHost then x.chunkQ.drop 1 else x.chunkQ })
        if (bhOf s b).scrDone = BitVec.allOnes 32 then leaveScrub s b else s)

-- Generations (R17, R27)

/-- The generation after another. -/
def nextGen (g : W16) : W16 := if g = 0xFFFF then 1 else g + 1

/-- The partition whose accepted create waits for its generations and includes a bulkhead. -/
def creatingOf (s : State) (b : Nat) : Option Nat :=
  (s.parts.find? (fun p => p.2.creating && p.1 ≤ b && b < p.1 + 2 ^ p.2.size)).map (fun p => p.1)

/-- The generation that controllers and gates are to hold for a bulkhead. -/
def targetGen (s : State) (b : Nat) : W16 :=
  if (creatingOf s b).isSome then nextGen (bhOf s b).gen else (bhOf s b).gen

/-- Every controller and gate holds the generations of a list of bulkheads. -/
def gensApplied (s : State) (bs : List Nat) : Bool :=
  bs.all (fun b =>
    tabGet s.hub.gateGens 1 b == targetGen s b &&
      (List.range 8).all (fun k => tabGet (stackOf s k).gens 1 b == targetGen s b))

/-- The queues of a bulkhead after a create or a reset: nothing left, in a state; QMAP stays (R20, R90, R91). -/
def cleanQueues (x : BhS) (st : QState) : Tab QueueS :=
  (List.range 16).map (fun q =>
    let y := tabGet x.queues {} q
    (q, { en := y.en, vf := y.vf, nqp := y.nqp, st := st }))

/-- The key slots a tenant finds (R21, R80): slot 0, in each bulkhead as its scrub loaded it. -/
def firstKeys : Tab KeySlot := [(0, { loaded := true, epoch := 1, scrub := true })]

/-- Take every link of a bulkhead DOWN (R48, R52). -/
def linksDown (s : State) (b : Nat) : State := (List.range 9).foldl (fun s i => linkDown s (9 * b + i)) s

/-- An accepted create is complete: its bulkheads become ASSIGNED in one ac (R27). One that is no longer FREE cannot
become ASSIGNED (R16): the create then ends without effect, with ERR 2 (log entry 69). -/
def finishCreate (s : State) (p : Nat) : State :=
  let bs := partBhs s p
  if !bs.all (fun b => (bhOf s b).st == .free) then modPart s p (fun x => { x with creating := false, err := 2 })
  else
    let s := bs.foldl (fun s b =>
      modBh (linksDown s b) b (fun x =>
        { x with st := .assigned, gen := nextGen x.gen, dest := 0, part := p, own := true, sems := [],
                 queues := cleanQueues x .idle })) s
    modPart s p (fun x =>
      { x with creating := false, live := true, keys := firstKeys, regions := [], since := s.now, refills := 0 })

/-- GENERATION_ACKNOWLEDGE (R17, R27): controller `stack` below 8, or else the hub gates, applies the generations
and acknowledges; the gates come first. -/
def execGenerationAcknowledge (s : State) : Host.Outcome State Fault Refusal :=
  .next (
    let k := s.cur.stack
    let s :=
      if 8 ≤ k then
        { s with hub := { s.hub with gateGens := (List.range 16).map (fun b => (b, targetGen s b)) } }
      else
        (List.range 16).foldl (fun s b =>
          if tabGet s.hub.gateGens 1 b = targetGen s b then
            modStack s k (fun x => { x with gens := tabSet x.gens b (targetGen s b) })
          else s) s
    (List.range 16).foldl (fun s p =>
      if (partOf s p).creating && gensApplied s (partBhs s p) then finishCreate s p else s) s)

-- Windows (R23, R24, R27)

/-- WINCFG_WRITE (R23, R24, R27): a write while EN = 1 first clears EN; EN takes effect only between ASSIGNED
partitions and not for a SEQ region, and records the exporter's generation. DESIGN CHOICE (log entry 70): where the
region descriptor it names is not in use, EN takes effect. -/
def execWincfgWrite (w : BitVec 6) (v : BitVec 32) (s : State) : Host.Outcome State Fault Refusal :=
  .next (
    let n := w.toNat
    let new : W32 := v &&& 0xFFC03FFF
    let s := if winEn s n then winDisable s n else s
    let ex := bitsN new 22 4
    let seq := match tabFind (partOf s ex).regions (bitsN new 0 14) with
      | some r => r.kind = 3
      | none => false
    let on := bitB new 31 && assigned s (bitsN new 26 4) && assigned s ex && !seq
    { s with hub := { s.hub with
        win := tabSet s.hub.win n (setBit new 31 on)
        winGen := if on then tabSet s.hub.winGen n (bhOf s ex).gen else s.hub.winGen } })

-- Partitions (R15, R19, R20, R27)

/-- Write the result of a PTCFG command. -/
def ptErr (s : State) (p e : Nat) : State := modPart s p (fun x => { x with err := e })

/-- A bulkhead belongs to partition p and is in one of some states. -/
def inPart (s : State) (p : Nat) (sts : List BhState) (b : Nat) : Bool :=
  (bhOf s b).own && (bhOf s b).part = p && sts.contains (bhOf s b).st

/-- The bulkheads of partition p in some states, those of a larger partition it was before among them (R26). -/
def ownIn (s : State) (p : Nat) (sts : List BhState) : List Nat := (List.range 16).filter (inPart s p sts)

/-- PTCFG.BUSY (R26, R27). -/
def partBusy (s : State) (p : Nat) : Bool :=
  (partOf s p).creating || !(ownIn s p [.reset, .scrub]).isEmpty

/-- PARTITION_CREATE (R17, R27). -/
def execPartitionCreate (size : BitVec 3) (s : State) : Host.Outcome State Fault Refusal :=
  .next (
    let p := s.cur.part
    let z := size.toNat
    let busy := (partOf s p).creating
    let s := modPart s p (fun x => { x with sizeReg := z })
    if busy then ptErr s p 4
    else if 4 < z || p % 2 ^ z ≠ 0 then ptErr s p 1
    else
      let bs := (List.range (2 ^ z)).map (fun i => p + i)
      if !bs.all (fun b => (bhOf s b).st == .free && (creatingOf s b).isNone) then ptErr s p 2
      else modPart (ptErr s p 0) p (fun x => { x with creating := true, live := false, size := z }))

/-- The state of a bulkhead from the ac in which its reset is accepted (R17, R19, R20). -/
def resetBh (x : BhS) (dest : Nat) : BhS :=
  { x with
    st := .reset, gen := nextGen x.gen, dest := dest, skip := false, skipReq := false, share := 0, scrDone := 0, chunkQ := [], sems := [],
    semArr := [], semWaits := [], queues := cleanQueues x .halted, nodes := [], wcbs := [], colls := [] }

/-- What a message is for lies in a list of bulkheads. -/
def packetOf (bs : List Nat) (p : Packet) : Bool := bs.contains p.bh

/-- A window read that is at or beyond the exporter's hub gate: the importing bulkhead and who asked. -/
def winReader (r : SliceReq) : Option (Nat × Requester) :=
  if r.win.isSome && !r.write then some (r.bh, r.who) else none

/-- The window reads of other bulkheads that are under way inside some bulkheads (R24). -/
def winReaders (s : State) (bs : List Nat) : List (Nat × Requester) :=
  let inSlices := (s.slices.filter (fun x => bs.contains (x.1 / 96))).flatMap (fun x =>
    (x.2.reqs ++ x.2.waiting).filterMap winReader)
  let ofPacket (p : Packet) : Option (Nat × Requester) :=
    match p.msg with
    | .slice _ _ r => winReader r
    | .winLine _ b who _ => some (b, who)
    | _ => none
  let inNet := s.routers.flatMap (fun x =>
    (x.2.ring ++ x.2.enter).flatMap (fun q => (q.2.filter (packetOf bs)).filterMap ofPacket))
  (inSlices ++ inNet).filter (fun x => !bs.contains x.1)

/-- Start the reset sequence of some bulkheads of a partition (R19, R20, R24, R40): generations step, links go
DOWN, queues, nodes, semaphores, arrays and slices are emptied without write-back, what travels inside is
discarded (window reads of others return poison), no descriptor applies, and windows and functions of the partition are disabled. -/
def startReset (s : State) (p : Nat) (bs : List Nat) (dest : Nat) : State :=
  let s := bs.foldl (fun s b => modBh (linksDown s b) b (fun x => resetBh x dest)) s
  let s := (List.range 64).foldl (fun s w =>
    if winEn s w && (winImp s w = p || winExp s w = p) then winDisable s w else s) s
  let s := s.port.vfmap.foldl (fun s v => if vfPart s v.1 = p then vfClear s v.1 else s) s
  let readers := winReaders s bs
  let keep (b : Nat) : Bool := !bs.contains b
  let clean (r : RouterS) : RouterS :=
    let f (q : Tab (List Packet)) : Tab (List Packet) :=
      q.map (fun c => (c.1, c.2.filter (fun k => !packetOf bs k)))
    { r with ring := f r.ring, enter := f r.enter }
  let s := { s with
    arrs := s.arrs.map (fun a => if keep (a.1 / 6) then a else (a.1, { epoch := a.2.epoch + 1 }))
    slices := s.slices.filter (fun x => keep (x.1 / 96))
    routers := s.routers.map (fun r => (r.1, clean r.2))
    hub := { s.hub with winOut := s.hub.winOut.filter (fun x => winImp s x.1 ≠ p && winExp s x.1 ≠ p)
                        ckSent := false, ckBuf := [] } }
  let s := readers.foldl (fun s x => winOnward s x.1 x.2 { bad := true }) s
  modPart s p (fun x =>
    { x with resetAt := s.now, regions := [], keys := [], revoking := [], rekey := none, rdPend := none,
             xfers := [], ten := false, tblNode := [] })

/-- Start a reset of every ASSIGNED bulkhead of a partition. -/
def resetPart (s : State) (p dest : Nat) : State :=
  startReset s p ((partBhs s p).filter (inPart s p [.assigned])) dest

/-- PARTITION_RESET (R19, R27); in the ac of an escalation it joins the sequence that has begun. -/
def execPartitionReset (s : State) : Host.Outcome State Fault Refusal :=
  .next (
    let p := s.cur.part
    if (partOf s p).escAt = some s.now && !(partOf s p).creating then ptErr s p 0
    else if partBusy s p then ptErr s p 4
    else if !assigned s p then ptErr s p 3
    else ptErr (resetPart s p 5) p 0)

/-- PARTITION_DISSOLVE (R16, R27): while BUSY it only changes the destination of the bulkheads in RESET or SCRUB. -/
def execPartitionDissolve (s : State) : Host.Outcome State Fault Refusal :=
  .next (
    let p := s.cur.part
    if (partOf s p).creating then ptErr s p 4
    else if (ownIn s p [.assigned, .reset, .scrub]).isEmpty then ptErr s p 3
    else
      if partBusy s p then
        ptErr ((ownIn s p [.reset, .scrub]).foldl (fun s b => modBh s b (fun x => { x with dest := 4 })) s) p 0
      else modPart (ptErr (resetPart s p 4) p 0) p (fun x => { x with live := false }))

/-- BCP_ESCALATION_RESET (R141): the reset of an assigned partition; one that is already running goes on. -/
def execBcpEscalationReset (s : State) : Host.Outcome State Fault Refusal :=
  .next (
    let p := s.cur.part
    if !assigned s p then s
    else modPart (resetPart s p 5) p (fun x => { x with escAt := some s.now }))

/-- RESET_SEQUENCE_COMPLETE (R16, R17, R18, R19): 1,300,000 ac after acceptance at the earliest, with the
generations applied everywhere; the bulkheads enter SCRUB. -/
def execResetSequenceComplete (s : State) : Host.Outcome State Fault Refusal :=
  .next (
    let p := s.cur.part
    let bs := ownIn s p [.reset]
    if bs.isEmpty || !gensApplied s bs || s.now < (partOf s p).resetAt + 1300000 then s
    else
      let s := bs.foldl (fun s b =>
        let x := bhOf s b
        startScrub (zeroTree s b) b x.dest x.scrmode) s
      modPart s p (fun x => { x with keys := firstKeys }))

/-- RESET_SEQUENCE_TIMEOUT (R16, R19): past 6,500,000 ac a bulkhead still in RESET enters FAILED. -/
def execResetSequenceTimeout (s : State) : Host.Outcome State Fault Refusal :=
  .next (
    let b := s.cur.bh
    let x := bhOf s b
    if x.st = .reset && (partOf s x.part).resetAt + 6500000 < s.now then
      modBh s b (fun x => { x with st := .failed, dest := 0, part := 0, own := false })
    else s)

-- Power, bring-up and identity (R29 to R35)

/-- The cap in W (R29): CAP held between 600 and 2,800. -/
def powerCap (h : HubS) : Nat := max 600 (min 2800 h.cap)

/-- The draw of the ASSIGNED bulkheads, which removed cycles are shared out by (R29). -/
def drawTotal (s : State) : Nat :=
  (s.bhs.filter (fun x => x.2.st == .assigned)).foldl (fun n x => n + x.2.draw) 0

/-- While the draw exceeds the cap, each ac adds a bulkhead's draw to its account; a cycle of it is removed for each time
that the account reaches the draw of all (R29). DESIGN CHOICE (log entry 44): the spec does not say how many cycles are
removed; in all it is one for each ac. -/
def shareDraw (s : State) : State :=
  if powerCap s.hub < s.hub.draw then
    { s with bhs := s.bhs.map (fun (x : Nat × BhS) =>
        (x.1, if x.2.st == .assigned then { x.2 with share := x.2.share + x.2.draw } else x.2)) }
  else s

/-- A bulkhead's account has reached the draw of all (R29). -/
def cycleDue (s : State) (x : BhS) : Bool :=
  powerCap s.hub < s.hub.draw && x.st == .assigned && drawTotal s ≠ 0 && drawTotal s ≤ x.share

/-- POWER_LIMIT_CYCLE_REMOVAL (R29): while the measured draw exceeds the cap, the next clock cycle of an ASSIGNED bulkhead
is removed. -/
def execPowerLimitCycleRemoval (s : State) : Host.Outcome State Fault Refusal :=
  .next (
    if powerCap s.hub < s.hub.draw then
      modBh s s.cur.bh (fun x =>
        if x.st = .assigned then { x with skipReq := true, share := x.share - drawTotal s } else x)
    else s)

/-- Power is gone (R30): fuses and the firmware store stay. -/
def powerDown (s : State) : State :=
  { fresh := s.fresh, hub := { fw := s.hub.fw, boots := s.hub.boots } }

/-- INPUT_POWER_LOSS (R30). -/
def execInputPowerLoss (s : State) : Host.Outcome State Fault Refusal := .next (powerDown s)
/-- PACKAGE_TRIP (R31). -/
def execPackageTrip (s : State) : Host.Outcome State Fault Refusal := .next (powerDown s)

/-- The PSF's address block as the firmware store holds it (R41). -/
def fwAddr (f : FwStore) : Tab W32 :=
  [(16 * psf, f.macl), (16 * psf + 1, f.mach.setWidth 32), (16 * psf + 2, f.ip4),
   (16 * psf + 3, setBit (f.pvlan.setWidth 32 <<< 2) 0 f.v4en)]

/-- The identity of the package, with the lower LMS tree signed for a boot (R33). -/
def identOf (boot : Nat) : IdentS :=
  { ec := Config.identity 0, lms := Config.identity 1, lower := Config.lowerTree boot, ecCert := Config.identity 2,
    lmsCert := Config.identity 3 }

/-- BRING_UP (R32, R33, R41): the hub starts and derives its identity; a firmware image whose signatures do not both
verify halts it, which the management interface reports. DESIGN CHOICE (log entry 71): a boot that fails so still
counts among those that the one-time fuses allow. -/
def execBringUp (s : State) : Host.Outcome State Fault Refusal :=
  .next (
    let f := s.hub.fw
    if s.hub.phase ≠ 0 then s
    else
      let h := { s.hub with timer := 0, boots := s.hub.boots + 1, reports := 0, ident := identOf (s.hub.boots + 1) }
      let s := { s with hub := h }
      if !(f.hubOk && f.hubLms && f.bcpOk && f.bcpLms) then
        { s with hub := { s.hub with phase := 1, bootFail := true } }
      else
        { s with
          hub := { s.hub with phase := 2 }
          port := { s.port with mode := f.mode, en := f.en, up := f.en, fnaddr := fwAddr f } })

-- The registers of the package that a report covers (R26, R34)

/-- Fields put together: width and value, lowest first. -/
def packW : List (Nat × Nat) → Nat
  | [] => 0
  | (w, v) :: r => v % 2 ^ w + 2 ^ w * packW r

/-- A bit as a number. -/
def oneIf (b : Bool) : Nat := if b then 1 else 0

/-- The state codes of R26. -/
def bhCode : BhState → Nat
  | .off => 0 | .powerup => 1 | .reset => 2 | .scrub => 3 | .free => 4 | .assigned => 5 | .failed => 6

/-- The other bulkheads that the gateways join to a bulkhead (R11). -/
def gatewayPeers (b : Nat) : List Nat :=
  [4 * Nat.xor (b / 4) 1 + b % 4, 4 * Nat.xor (b / 4) 2 + b % 4]

/-- BHSTAT (R26). -/
def readBhstat (s : State) (b : Nat) : Nat :=
  let x := bhOf s b
  let die := b / 4 * 4
  let beside := (if b % 4 = 0 then [] else [b - 1]) ++ (if b % 4 = 3 then [] else [b + 1])
  packW [(3, bhCode x.st), (1, oneIf ((beside ++ gatewayPeers b).any (sameGate s b))),
    (1, oneIf (sameGate s b (die + (b + 3) % 4))), (1, oneIf (sameGate s b (die + (b + 1) % 4))),
    (1, oneIf ((gatewayPeers b).any (sameGate s b))), (1, oneIf (x.st == .assigned)), (1, oneIf x.skip),
    (3, if x.st == .reset || x.st == .scrub then x.dest else 0), (4, if x.own then x.part else 0),
    (16, x.gen.toNat)]

/-- PTCFG (R26). -/
def readPtcfg (s : State) (p : Nat) : Nat :=
  packW [(8, 0), (3, (partOf s p).sizeReg), (1, oneIf (partBusy s p)), (4, (partOf s p).err)]

/-- The configuration that a report covers: PTCFG, BHSTAT and every enabled WINCFG (R34). -/
def configWords (s : State) : List W32 :=
  (List.range 16).map (fun p => BitVec.ofNat 32 (readPtcfg s p)) ++
    (List.range 16).map (fun b => BitVec.ofNat 32 (readBhstat s b)) ++
    ((List.range 64).filter (winEn s)).map (winWord s)

/-- The 256 signed bytes of an attestation report (R34). -/
def reportOf (s : State) (pkg : Bool) (nonce : BitVec 256) : BitVec 2048 :=
  let p := s.cur.part
  let who := if pkg then 0xFFFF else p + 16 * (partOf s p).size
  let gens := (List.range 16).flatMap (fun b => leBytes 2 (bhOf s b).gen.toNat)
  BitVec.ofNat 2048 (leNat (
    leBytes 4 0x4B4E4154 ++ leBytes 2 1 ++ leBytes 2 who ++ leBytes 32 nonce.toNat ++
      leBytes 8 (nsTime s) ++ leBytes 48 s.hub.fw.hubSha.toNat ++ leBytes 48 s.hub.fw.bcpSha.toNat ++
      leBytes 48 (Config.configDigest (configWords s)).toNat ++ gens ++ leBytes 8 s.hub.fw.secver.toNat))

/-- The 3,800 bytes of a report: its signatures under the two identity keys rest on fused secrets (R33, R34; log entry
4). `n` is the number of the report in its boot. -/
def reportBytes (h : HubS) (r : BitVec 2048) : List Byte :=
  let sig (key : BitVec 384) (i : Nat) : List Byte := leBytes 8 (Config.reportSignature key r h.reports i).toNat
  leBytes 256 r.toNat ++ (List.range 12).flatMap (sig h.ident.ec) ++ leBytes 4 3444 ++
    ((List.range 431).flatMap (sig h.ident.lower)).take 3444

/-- ATTESTATION_REPORT_REQUEST (R33, R34), once the hub is up (R32): at most 32,768 reports in each of 1,048,576 boots,
then ATTEXH. DESIGN CHOICE (log entry 132): past the last boot that the fuses allow, the hub comes up as before and
every report is refused. -/
def execAttestationReportRequest (pkg : Bool) (nonce : BitVec 256) (s : State) :
    Host.Outcome State Fault Refusal :=
  .next (
    if s.hub.phase ≠ 2 then s
    else if 32768 ≤ s.hub.reports || 1048576 < s.hub.boots then { s with hub := { s.hub with attExh := true } }
    else
      { s with hub := { s.hub with
          reports := s.hub.reports + 1, issued := reportBytes s.hub (reportOf s pkg nonce) :: s.hub.issued } })

end Sys2Proof.Machine
end

