-- ==== Sys2Proof/Machine/Keys.lean ====
section
/-! DEFINITION. Key slots, rekeying, granules, region descriptors and the checkpoint (R80 to R87, R208 to R213). -/
namespace Sys2Proof.Machine
open Sys2Proof

-- Key slots (R80, R81)

/-- The result of a KEYCTL command. -/
def keyErrPut (s : State) (p e : Nat) : State := modPart s p (fun x => { x with keyErr := e })

/-- KEYCTL.BUSY: a revoke or rekey runs (R82). -/
def keyBusy (x : PartS) : Bool := !x.revoking.isEmpty || x.rekey.isSome

/-- A half of KEYBUF (R80): Kd in words 0 to 7, Kt in words 8 to 15. -/
def keyBufHalf (x : PartS) (i : Nat) : Key :=
  BitVec.ofNat 256 (leNat ((List.range 8).flatMap (fun j => leBytes 4 (tabGet x.keyBuf 0 (8 * i + j)).toNat)))

/-- KEY_LOAD (R80, R82): an empty slot takes KEYBUF, which is zeroised, and KEYARG.DOMAIN; its epoch steps. -/
def execKeyLoad (slot : BitVec 8) (s : State) : Host.Outcome State Fault Refusal :=
  .next (
    let p := s.cur.part
    let x := partOf s p
    let k := slot.toNat
    let old := tabGet x.keys {} k
    if keyBusy x then keyErrPut s p 4
    else if old.loaded then keyErrPut s p 2
    else
      let new : KeySlot := { kd := keyBufHalf x 0, kt := keyBufHalf x 1, loaded := true, domain := x.keyDom,
                             epoch := (old.epoch + 1) % 2 ^ 64, revoked := false }
      modPart s p (fun x => { x with keyErr := 0, keys := tabSet x.keys k new, keyBuf := [] }))

/-- KEY_REVOKE (R81): the keys are zeroised and the slot is revoked; it is busy until that is applied
everywhere. -/
def execKeyRevoke (slot : BitVec 8) (s : State) : Host.Outcome State Fault Refusal :=
  .next (
    let p := s.cur.part
    let x := partOf s p
    let k := slot.toNat
    if keyBusy x then keyErrPut s p 4
    else
      let new : KeySlot := { tabGet x.keys {} k with kd := 0, kt := 0, loaded := false, revoked := true }
      modPart s p (fun x => { x with keyErr := 0, keys := tabSet x.keys k new, revoking := [k] }))

/-- A stack request writes under a slot a line of a partition. -/
def writesUnder (s : State) (p slot k : Nat) (r : StackReq) : Bool :=
  r.kind ≠ .rd64 && r.key = slot &&
    match packageLine k r.line with
    | some l => (bhOf s (lineBh l)).part = p && (bhOf s (lineBh l)).own
    | none => false

/-- A slice request writes under a slot a line of a partition. -/
def sliceWritesUnder (s : State) (p slot : Nat) (r : SliceReq) : Bool :=
  r.write && r.slot = slot && (bhOf s (lineBh r.line)).part = p && (bhOf s (lineBh r.line)).own

/-- A stack request that is discarded: its tag is free again (R73), and the reads that wait for the merge of an RMW get
what a read under a revoked slot returns (R81). -/
def stackGone (s : State) (k : Nat) (r : StackReq) : State :=
  let s := modStack s k (fun x => dropTag x r.ch r.tag)
  let mine (q : SliceReq) : Bool := r.kind = .rmw && packageLine k r.line = some q.line
  let x := sliceOf s r.from_
  let s := setSlice s r.from_ { x with waiting := x.waiting.filter (fun q => !mine q) }
  (x.waiting.filter mine).foldl (fun s q => sendLine s r.from_ q { bad := true, rev := true } none) s

/-- A window whose exporter is partition p, with its region under a slot. -/
def winUnder (s : State) (p slot w : Nat) : Bool :=
  winEn s w && winExp s w = p &&
    (match tabFind (partOf s p).regions (winRegion s w) with | some r => r.slot = slot | none => false)

/-- A packet on the torus carries a write under a slot. -/
def packetUnder (s : State) (p slot : Nat) (x : Packet) : Bool :=
  match x.msg with
  | .slice _ _ r => sliceWritesUnder s p slot r
  | .stack k r => writesUnder s p slot k r
  | .win r => r.write && winUnder s p slot r.win
  | _ => false

/-- What a packet that is discarded leaves: its line no longer drains, or its tag is free. -/
def packetGone (s : State) (x : Packet) : State :=
  match x.msg with
  | .slice _ _ r => drainArrived s r.who
  | .stack k r => stackGone s k r
  | .win r => drainArrived s r.who
  | _ => s

/-- The packets in a router. -/
def routerPackets (x : RouterS) : List Packet := x.ring.flatMap (fun q => q.2) ++ x.enter.flatMap (fun q => q.2)

/-- The writes under a slot of a partition that are queued at slices, at the window bridge, on the torus or in a
controller's queue are discarded (R81). -/
def discardWrites (s : State) (p slot : Nat) : State :=
  let inNet := (s.routers.flatMap (fun x => routerPackets x.2)).filter (packetUnder s p slot)
  let inSlices := s.slices.flatMap (fun x => x.2.reqs.filter (sliceWritesUnder s p slot))
  let inStacks := s.stks.flatMap (fun x => (x.2.reqs.filter (writesUnder s p slot x.1)).map (fun r => (x.1, r)))
  let keep (q : Nat × List Packet) : Nat × List Packet := (q.1, q.2.filter (fun x => !packetUnder s p slot x))
  let t := { s with
    routers := s.routers.map (fun x => (x.1, { x.2 with ring := x.2.ring.map keep, enter := x.2.enter.map keep }))
    slices := s.slices.map (fun x => (x.1, { x.2 with reqs := x.2.reqs.filter (fun r => !sliceWritesUnder s p slot r) }))
    stks := s.stks.map (fun x => (x.1, { x.2 with reqs := x.2.reqs.filter (fun r => !writesUnder s p slot x.1 r) }))
    hub := { s.hub with bridge := s.hub.bridge.filter (fun r => !(r.write && winUnder s p slot r.win)) } }
  let t := (s.hub.bridge.filter (fun r => r.write && winUnder s p slot r.win)).foldl
    (fun t r => drainArrived t r.who) t
  let t := inNet.foldl packetGone t
  let t := inSlices.foldl (fun t r => drainArrived t r.who) t
  inStacks.foldl (fun t x => stackGone t x.1 x.2) t

/-- A slice drops its lines under a slot, dirty and staged ones included, with one KEYREV record (R81). DESIGN CHOICE (log
entry 129): the record names the most recently used of those lines, and a slice that holds none logs none. -/
def sliceRevoke (s : State) (b i slot : Nat) : State :=
  let k := sliceKey b i
  let ls := (sliceOf s k).lines.filter (fun y => y.slot = slot)
  match ls with
  | [] => s
  | y :: _ =>
    let s := logLine s ecKeyrev 0 y.line
    ls.foldl (fun s y => modSlice s k (fun x => l2Drop x y)) s

/-- Lines of an array's egress cache are discarded. -/
def egDiscard (gone : Nat × EgLine → Bool) (a : ArrayS) : ArrayS :=
  let ks := (a.eg.filter gone).map (fun e => e.1)
  { a with
    eg := a.eg.filter (fun e => !ks.contains e.1)
    fifo := a.fifo.filter (fun f => match f with | .line k => !ks.contains k | .marker _ => true) }

/-- An array's writes under a slot that lie in its egress cache are discarded (R81). -/
def egRevoke (slot : Nat) (a : ArrayS) : ArrayS := egDiscard (fun e => e.2.slot = slot && e.2.win.isNone) a

/-- The same of its writes through windows on a region of partition p under the slot. -/
def egRevokeWin (s : State) (p slot : Nat) (a : ArrayS) : ArrayS :=
  egDiscard (fun e => match e.2.win with | some w => winUnder s p slot w | none => false) a

/-- REVOCATION_APPLIED (R81): the slices, arrays, torus and controllers of the partition have applied a revocation. -/
def execRevocationApplied (slot : BitVec 8) (s : State) : Host.Outcome State Fault Refusal :=
  .next (
    let p := s.cur.part
    let k := slot.toNat
    if !(partOf s p).revoking.contains k then s
    else
      let s := discardWrites s p k
      let s := (partBhs s p).foldl (fun s b => (List.range 96).foldl (fun s i => sliceRevoke s b i k) s) s
      let s := (partArrs s p).foldl (fun s q =>
        if (tabFind s.arrs q).isSome then modArr s q (egRevoke k) else s) s
      let s := { s with arrs := s.arrs.map (fun (a : Nat × ArrayS) => (a.1, egRevokeWin s p k a.2)) }
      modPart s p (fun x => { x with revoking := x.revoking.filter (fun j => j ≠ k) }))

-- Rekeying (R82)

/-- REKEY_START (R82): the region becomes read-only. -/
def execRekeyStart (region : BitVec 14) (newSlot : BitVec 8) (s : State) :
    Host.Outcome State Fault Refusal :=
  .next (
    let p := s.cur.part
    let x := partOf s p
    let num := region.toNat
    if keyBusy x then keyErrPut s p 4
    else if !(tabGet x.keys {} newSlot.toNat).loaded then keyErrPut s p 2
    else
      match tabFind x.regions num with
      | none => keyErrPut s p 3
      | some r =>
        let k : RekeyS := { region := num, slot := newSlot.toNat, old := r.slot, done := [], queued := [],
                            cur := none, host := x.keyMode }
        postInval (modPart s p (fun x =>
          { x with keyErr := 0, rekey := some k, keyDone := 0, doneAll := false
                   regions := tabSet x.regions num { r with ro := true } })) p num)

/-- REKEY_CHUNK (R82): a chunk of a host-assisted rekey is queued, up to 4. DESIGN CHOICE (log entry 73): with no rekey
running, in hardware mode, or with a chunk past the region, it is refused with ERR 1. -/
def execRekeyChunk (chunk : BitVec 12) (s : State) : Host.Outcome State Fault Refusal :=
  .next (
    let p := s.cur.part
    let x := partOf s p
    match x.rekey with
    | none => keyErrPut s p 1
    | some k =>
      let n := match tabFind x.regions k.region with | some r => rekeyChunks r | none => 0
      if !k.host || n ≤ chunk.toNat then keyErrPut s p 1
      else if 4 ≤ k.queued.length then keyErrPut s p 4
      else
        let k := match k.cur with
          | none => { k with cur := some chunk.toNat }
          | some _ => { k with queued := k.queued ++ [chunk.toNat] }
        modPart s p (fun x => { x with keyErr := 0, rekey := some k }))

/-- The read of a line by the hub's rekey fails: it is poisoned, its slot is revoked, or the stored line or its metadata
show an error that is not corrected (R81, R85). -/
def rekeyLost (s : State) (p : Nat) (k : RekeyS) (l : Nat) : Bool :=
  (lineMeta s l).poison || keyRevoked s p k.old ||
    (match (readErr s p k.old l).1 with | .uncorrectable | .tag => true | _ => false)

/-- A line's metadata after its re-encryption: it is written afresh, and poisoned where its read failed (log entry 130). -/
def rekeyMeta (s : State) (p : Nat) (k : RekeyS) (l : Nat) : LineMeta :=
  { poison := rekeyLost s p k l, prot := (lineMeta s l).prot, slot := k.slot, epoch := (keyOf s p k.slot).epoch
    keys := keysFor s p k.slot l }

/-- The record that the read of a line by the hub's rekey leaves (R77, R86). -/
def rekeyLog (s : State) (p : Nat) (k : RekeyS) (t : State) (l : Nat) : State :=
  if (lineMeta s l).poison || keyRevoked s p k.old then t
  else match readErr s p k.old l with
    | (.uncorrectable, n) => logLine t ecUE n l
    | (.tag, n) => logLine t ecInteg n l
    | (.corrected _, n) => logLine t ecCE n l
    | (.none, _) => t

/-- Give the lines of a range their metadata. -/
def mapMeta (t : Tab LineMeta) (l n : Nat) (f : Nat → LineMeta) : Tab LineMeta :=
  let mid := ((List.range n).map (fun i => (l + i, f (l + i)))).filter (fun (x : Nat × LineMeta) => x.2 ≠ {})
  t.filter (fun x => x.1 < l) ++ mid ++ t.filter (fun x => l + n ≤ x.1)

/-- Re-encrypt chunk c of the region under the new slot: the counters of its pages restart at 0, and each counter block is
written once (R78, R82). Bits that were flipped are corrected, or written back as they were read. -/
def rekeyLines (s : State) (p : Nat) (k : RekeyS) (r : Region) (c : Nat) : State :=
  let l := r.pbase / 64 + c * 2 ^ 18
  let n := min (2 ^ 18) (2 ^ r.k / 64)
  let listed := (s.lmeta.filter (fun x => l ≤ x.1 && x.1 < l + n)).map (fun x => x.1)
  let t := listed.foldl (rekeyLog s p k) s
  { t with
    mem := (listed.filter (fun i => (lineMeta s i).flips ≠ [] && !rekeyLost s p k i)).foldl
      (fun m i => memPut m (64 * i) (lineBytes (lineUnder s p k.old i))) s.mem
    lmeta := mapMeta s.lmeta l n (rekeyMeta s p k)
    pages := s.pages.filter (fun x => x.1 < l / 64 || l / 64 + n / 64 ≤ x.1)
    tree := treeBump s.tree (l / 64) (n / 64) 1
    metaErr := metaClean s.metaErr (l / 64) (n / 64) }

/-- The chunk a rekey works on. -/
def rekeyNext (k : RekeyS) (r : Region) : Option Nat :=
  if k.host then k.cur else (List.range (rekeyChunks r)).find? (fun c => !k.done.contains c)

/-- REKEY_CHUNK_COMPLETE (R82). -/
def execRekeyChunkComplete (s : State) : Host.Outcome State Fault Refusal :=
  .next (
    let p := s.cur.part
    let x := partOf s p
    match x.rekey with
    | none => s
    | some k =>
      match tabFind x.regions k.region with
      | none => s
      | some r =>
        match rekeyNext k r with
        | none => s
        | some c =>
          let s := if k.done.contains c || r.win then s else rekeyLines s p k r c
          let k := { k with done := setInsert k.done c, cur := k.queued.head?, queued := k.queued.drop 1 }
          modPart s p (fun x => { x with rekey := some k, keyDone := k.done.length }))

/-- Lines on their way to memory, on the torus and off it, take the new slot of their region. -/
def retag (lo hi new : Nat) (s : State) : State :=
  let inR (l : Nat) : Bool := decide (lo ≤ l) && decide (l < hi)
  let ofSlice (r : SliceReq) : SliceReq := if inR r.line then { r with slot := new } else r
  let ofStack (k : Nat) (r : StackReq) : StackReq :=
    match packageLine k r.line with
    | some l => if inR l then { r with key := new } else r
    | none => r
  let ofPacket (x : Packet) : Packet :=
    match x.msg with
    | .slice b k r => { x with msg := .slice b k (ofSlice r) }
    | .stack k r => { x with msg := .stack k (ofStack k r) }
    | _ => x
  let ofQueue (q : Nat × List Packet) : Nat × List Packet := (q.1, q.2.map ofPacket)
  { s with
    routers := s.routers.map (fun x =>
      (x.1, { x.2 with ring := x.2.ring.map ofQueue, enter := x.2.enter.map ofQueue }))
    slices := s.slices.map (fun k => (k.1, { k.2 with
      lines := k.2.lines.map (fun y => if inR y.line then { y with slot := new } else y)
      reqs := k.2.reqs.map ofSlice, waiting := k.2.waiting.map ofSlice }))
    stks   := s.stks.map (fun k => (k.1, { k.2 with
      reqs := k.2.reqs.map (ofStack k.1) }))
    arrs := s.arrs.map (fun a => (a.1, { a.2 with
      eg := a.2.eg.map (fun e => (e.1, if inR e.1 then { e.2 with slot := new } else e.2))
      drained := a.2.drained.map (fun e => (e.1, if inR e.1 then { e.2 with slot := new } else e.2)) })) }

/-- REKEY_COMPLETE (R79, R82): every chunk is done; the descriptor names the new slot and is writable. -/
def execRekeyComplete (s : State) : Host.Outcome State Fault Refusal :=
  .next (
    let p := s.cur.part
    let x := partOf s p
    match x.rekey with
    | none => s
    | some k =>
      match tabFind x.regions k.region with
      | none => s
      | some r =>
        if k.done.length < rekeyChunks r then s
        else
          let s := retag (r.pbase / 64) ((r.pbase + 2 ^ r.k) / 64) k.slot s
          let s := modPart s p (fun x =>
            { x with rekey := none, doneAll := true
                     regions := tabSet x.regions k.region { r with slot := k.slot, ro := false } })
          postInval (rcRefresh s p) p k.region)

/-- KEYCTL_BAD_COMMAND (R82): CMD 5 to 7 is refused. -/
def execKeyctlBadCommand (_cmd : BitVec 3) (s : State) : Host.Outcome State Fault Refusal :=
  .next (keyErrPut s s.cur.part 1)

-- Granules (R83, R84)

/-- The allocation-table entry of granule g of bulkhead b; domain 0 after a scrub (R83). -/
def granOf (s : State) (b g : Nat) : Nat := tabGet (stackOf s (b / 2)).pat 0 (b % 2 * bhGrans + g)

/-- Write it. -/
def setGran (s : State) (b g d : Nat) : State :=
  modStack s (b / 2) (fun k => { k with pat := tabPut k.pat 0 (b % 2 * bhGrans + g) d })

/-- The result of a PATCTL command, with its parameter fields. -/
def patPut (s : State) (b e g d : Nat) : State :=
  modBh s b (fun x => { x with patErr := e, patGran := g, patDom := d })

/-- A row neighbour lets domain d in: FREE or of that domain (R84). -/
def neighbourOk (s : State) (b g d : Nat) : Bool := granOf s b g = 0xFFF1 || granOf s b g = d

/-- GRANULE_ASSIGN (R84). DESIGN CHOICE (log entry 74): the spec does not say which ERR is reported where several
conditions hold; the checks come in the order 4, 2, 3, 1. -/
def execGranuleAssign (gran : BitVec 14) (domain : BitVec 12) (s : State) :
    Host.Outcome State Fault Refusal :=
  .next (
    let b := s.cur.bh
    let g := gran.toNat
    let d := domain.toNat
    let put (e : Nat) : State := patPut s b e g d
    if (bhOf s b).st ≠ .assigned then put 4
    else if bhGrans ≤ g then put 2
    else if !neighbourOk s b g d then put 3
    else if (g ≠ 0 && !neighbourOk s b (g - 1) d) || (g + 1 ≠ bhGrans && !neighbourOk s b (g + 1) d) then put 1
    else setGran (put 0) b g d)

/-- Every line of a granule is stored poisoned, each by a write that its counters count (R78, R84); copies of it in the
slices go. -/
def poisonGran (s : State) (b g : Nat) : State :=
  let l := b * bhLines + g * 32768
  let inG (y : L2Line) : Bool := decide (l ≤ y.line) && decide (y.line < l + 32768)
  { s with
    lmeta := mapMeta s.lmeta l 32768 (fun i => { lineMeta s i with poison := true, flips := [], tagBad := false })
    pages := (List.range 512).foldl (fun t i => tabMod t {} (l / 64 + i) pageBump) s.pages
    tree := treeBump s.tree (l / 64) 512 64
    metaErr := metaClean s.metaErr (l / 64) 512
    slices := s.slices.map (fun k => (k.1, { k.2 with lines := k.2.lines.filter (fun y => !inG y) })) }

/-- GRANULE_FREE (R84). -/
def execGranuleFree (gran : BitVec 14) (s : State) : Host.Outcome State Fault Refusal :=
  .next (
    let b := s.cur.bh
    let g := gran.toNat
    let put (e : Nat) : State := patPut s b e g (bhOf s b).patDom
    if (bhOf s b).st ≠ .assigned then put 4
    else if bhGrans ≤ g then put 2
    else setGran (poisonGran (put 0) b g) b g 0xFFF1)

-- Region descriptors (R208 to R213)

/-- The result of an RDCTL command. -/
def rdErrPut (s : State) (p e : Nat) : State := modPart s p (fun x => { x with rdErr := e })

/-- RDBUF as one number (R208, R212). -/
def rdBufBits (x : PartS) : BitVec 512 :=
  BitVec.ofNat 512 (leNat ((List.range 16).flatMap (fun i => leBytes 4 (tabGet x.rdBuf 0 i).toNat)))

/-- A descriptor's fields (R208). -/
def regionOfBits (d : BitVec 512) : Region :=
  let f (o n : Nat) : Nat := cdBytes d o n
  { vbase := f 0 8, k := f 8 1, kind := f 9 1, owner := f 0x0A 1, slot := f 0x0B 1, prot := f 0x0C 1,
    stage := bitB d 0x68, win := bitB d 0x69, winIx := f 0x0E 1, pbase := f 0x10 8, tag := bitsN d 0xC0 18 }
where
  /-- `n` bytes at offset `o`. -/
  cdBytes (d : BitVec 512) (o n : Nat) : Nat := bitsN d (8 * o) (8 * n)

/-- Every field of a descriptor is valid (R208, R209, R212): a hardware-set field is zero, and a window's size is
that of the exporter's region. A virtual base that is no multiple of 2^k is none of the cases that R212 refuses, and
R388 rests on one (log entry 131). -/
def regionOk (s : State) (p : Nat) (d : BitVec 512) : Bool :=
  let r := regionOfBits d
  1 ≤ r.kind && r.kind ≤ 3 && (if r.kind = 1 then ownerOk s p r.owner else r.owner = 0) &&
    bitsN d 0x6A 6 = 0 && bitsN d 0xE0 32 = 0 && bitsN d 0x78 8 = 0 && bitsN d 0xD2 14 = 0 &&
    bitsN d 0x100 256 = 0 && 21 ≤ r.k && r.k ≤ 36 && r.vbase + 2 ^ r.k ≤ 2 ^ 40 &&
    r.prot ≤ 6 && (r.kind ≠ 3 || r.prot = 0) && r.pbase % 2 ^ 21 = 0 &&
    (if r.win then
      r.winIx < 64 && r.pbase = 0 && r.kind ≠ 3 &&
        (match tabFind (partOf s (winExp s r.winIx)).regions (winRegion s r.winIx) with
         | some e => e.k = r.k
         | none => true)
     else r.winIx = 0)

/-- Two ranges meet. -/
def meet (a n b m : Nat) : Bool := decide (a < b + m) && decide (b < a + n)

/-- A new region meets what is there, or leaves the partition (R212). -/
def regionMeets (s : State) (p : Nat) (r : Region) : Bool :=
  let x := partOf s p
  x.regions.any (fun e => e.2.kind ≠ 0 &&
      (meet (r.vbase / 2 ^ 21) (2 ^ (r.k - 21)) (e.2.vbase / 2 ^ 21) (2 ^ (e.2.k - 21)) ||
        (!r.win && !e.2.win && meet r.pbase (2 ^ r.k) e.2.pbase (2 ^ e.2.k)))) ||
    (!r.win && (r.pbase < p * bhBytes || (p + partSize s p) * bhBytes < r.pbase + 2 ^ r.k ||
      meet r.pbase (2 ^ r.k) (p * bhBytes + x.rdGran * 2 ^ 21) (2 ^ 21)))

/-- What RDCTL checks first (R212): busy, and a partition that is not ASSIGNED. -/
def rdGo (s : State) (p num : Nat) (go : State → State) : State :=
  let s := modPart s p (fun x => { x with rdNum := num })
  if (partOf s p).rdPend.isSome then rdErrPut s p 4
  else if !assigned s p then rdErrPut s p 5
  else go s

/-- The hub writes the line of a descriptor in the table's granule, and the lines of the index entries of a region
(R211): their counters count it (R78). -/
def tableTouch (s : State) (p num : Nat) (r : Region) : State :=
  let l := p * bhLines + (partOf s p).rdGran * 32768
  let g := r.vbase / 2 ^ 21
  (List.range ((g + 2 ^ (r.k - 21) - 1) / 32 - g / 32 + 1)).foldl (fun s i => ctrBump s (l + 16384 + g / 32 + i))
    (ctrBump s (l + num))

/-- A command is accepted and runs until every region cache has dropped the entry and its markers have
passed. -/
def rdAccept (s : State) (p num kind : Nat) (marks : Tab Nat) : State :=
  postInval (modPart s p (fun x => { x with rdErr := 0, rdPend := some { num := num, kind := kind, marks := marks } }))
    p num

/-- A region becomes SEQ: the windows that name it are disabled (R23). -/
def seqWindows (s : State) (p n : Nat) : State :=
  (List.range 64).foldl (fun s w => if winEn s w && winExp s w = p && winRegion s w = n then winDisable s w else s) s

/-- REGION_DESCRIPTOR_WRITE (R212). -/
def execRegionDescriptorWrite (num : BitVec 14) (s : State) : Host.Outcome State Fault Refusal :=
  .next (
    let p := s.cur.part
    let n := num.toNat
    rdGo s p n (fun s =>
      let x := partOf s p
      let d := rdBufBits x
      let r := regionOfBits d
      if (tabFind x.regions n).isSome then rdErrPut s p 3
      else if !regionOk s p d then rdErrPut s p 1
      else if regionMeets s p r then rdErrPut s p 2
      else
        let s := if r.kind = 3 then seqWindows s p n else s
        rdAccept (tableTouch (modPart s p (fun x => { x with regions := tabSet x.regions n r })) p n r) p n 0 []))

/-- A line lies in a region's physical range. -/
def lineOfRegion (r : Region) (l : Nat) : Bool :=
  !r.win && decide (r.pbase ≤ 64 * l) && decide (64 * l < r.pbase + 2 ^ r.k)

/-- Replicas of a region leave the slices (R68, R212). -/
def dropRegionReplicas (s : State) (r : Region) : State :=
  { s with slices := s.slices.map (fun k => (k.1, { k.2 with
      lines := k.2.lines.filter (fun y => !(y.replica && lineOfRegion r y.line)) })) }

/-- Dirty lines of a region are written back, and its lines leave the slices (R212). -/
def flushRegion (s : State) (r : Region) : State :=
  let all := s.slices.flatMap (fun k => (k.2.lines.filter (fun y => lineOfRegion r y.line && y.stage.isNone)).map
    (fun y => (k.1, y)))
  all.foldl (fun s y => evict s y.1 y.2) s

/-- REGION_DESCRIPTOR_CLEAR (R212): refused while a live node names the region in its footprint. -/
def execRegionDescriptorClear (num : BitVec 14) (s : State) : Host.Outcome State Fault Refusal :=
  .next (
    let p := s.cur.part
    let n := num.toNat
    rdGo s p n (fun s =>
      let named (nd : NodeS) : Bool := !nodeOver nd && nd.part = p && nd.fps.any (fun f => f.1 = n)
      match tabFind (partOf s p).regions n with
      | none => rdErrPut s p 0
      | some r =>
        if (partBhs s p).any (fun b => (bhOf s b).nodes.any (fun x => named x.2)) then rdErrPut s p 3
        else
          let s := flushRegion (dropRegionReplicas s r) r
          rdAccept (modPart (tableTouch s p n r) p (fun x => { x with regions := tabErase x.regions n })) p n 0 []))

/-- A region holds staged lines (R212, R223). -/
def regionStaged (s : State) (p num : Nat) (r : Region) : Bool :=
  s.slices.any (fun k => k.2.lines.any (fun y => y.stage.isSome && lineOfRegion r y.line)) ||
    (partArrs s p).any (fun q =>
      let a := arrOf s q
      (a.eg ++ a.drained).any (fun e => e.2.stage && e.2.region = num))

/-- REGION_DESCRIPTOR_CONVERT (R212): kind and owner from RDBUF. -/
def execRegionDescriptorConvert (num : BitVec 14) (s : State) : Host.Outcome State Fault Refusal :=
  .next (
    let p := s.cur.part
    let n := num.toNat
    rdGo s p n (fun s =>
      let d := regionOfBits (rdBufBits (partOf s p))
      let put (s : State) (r : Region) : State :=
        ctrBump (modPart s p (fun x => { x with regions := tabSet x.regions n r }))
          (p * bhLines + (partOf s p).rdGran * 32768 + n)
      match tabFind (partOf s p).regions n with
      | none => rdErrPut s p 1
      | some r =>
        if !(1 ≤ d.kind && d.kind ≤ 3) || (d.kind = 3) ≠ (r.kind = 3) || !ownerOk s p d.owner then rdErrPut s p 1
        else if d.kind = r.kind && (d.kind ≠ 1 || d.owner = r.owner) then rdAccept s p n 0 []
        else if r.kind = 2 then
          rdAccept (put (dropRegionReplicas s r) { r with kind := 1, owner := d.owner }) p n 0 []
        else if regionStaged s p n r then rdErrPut s p 3
        else
          let (s, ms) := markAll s p
          if d.kind = 2 then rdAccept s p n 2 ms
          else
            let s := modPart s p (fun x => { x with xfers := x.xfers ++ [(n, ms)] })
            rdAccept (put s { r with owner := d.owner, rpend := true, markV := false }) p n 0 ms))

/-- What an RDCTL command changes once its markers have passed: the new kind (R212). -/
def rdMake (s : State) (p : Nat) (c : RdPend) : State :=
  modPart s p (fun x =>
    { x with
      rdPend := some { c with made := true }
      regions := match tabFind x.regions c.num with
        | some r =>
          if c.kind = 2 then tabSet x.regions c.num { r with kind := 2, owner := 0 } else x.regions
        | none => x.regions })

/-- An RDCTL command that runs: once its markers have passed it makes its change and tells the region caches, and once
none of them holds the entry BUSY clears (R212, R213). -/
def rdSettle (s : State) (p : Nat) : State :=
  match (partOf s p).rdPend with
  | none => s
  | some c =>
    if !marksPassed s c.marks then s
    else if c.kind ≠ 0 && !c.made then postInval (rdMake s p c) p c.num
    else if (partArrs s p).any (fun q => (arrOf s q).rinv.contains c.num) then s
    else modPart s p (fun x => { x with rdPend := none })

-- The descriptor table in memory (R211)

/-- The 64 bytes of a descriptor (R208). -/
def descBytes (r : Region) : List Byte :=
  leBytes 8 r.vbase ++ leBytes 1 r.k ++ leBytes 1 r.kind ++ leBytes 1 r.owner ++ leBytes 1 r.slot ++
    leBytes 1 r.prot ++ leBytes 1 (natOfBools [r.stage, r.win, r.ro, r.rpend]) ++ leBytes 1 r.winIx ++
    leBytes 1 0 ++ leBytes 8 r.pbase ++ leBytes 4 r.tag ++
    leBytes 4 (r.mark + r.markA * 2 ^ 24 + (if r.markV then 2 ^ 31 else 0)) ++ List.replicate 32 0

/-- The index entry of a granule of virtual addresses: the number of the descriptor that maps it, plus 1, or 0
(R211). -/
def indexEntry (x : PartS) (g : Nat) : Nat :=
  match x.regions.find? (fun r => indexed r.2 (g * 2 ^ 21)) with
  | some r => r.1 + 1
  | none => 0

/-- Line i of the granule that RDBASE names: the table, and behind it the index (R211; log entry 77). -/
def tableBytes (x : PartS) (i : Nat) : List Byte :=
  if i < 16384 then
    match tabFind x.regions i with
    | some r => descBytes r
    | none => List.replicate 64 0
  else (List.range 32).flatMap (fun j => leBytes 2 (indexEntry x (32 * (i - 16384) + j)))

/-- The line is one of the granule of a partition's descriptor table, held under the metadata key of the partition's
first bulkhead, while a descriptor is in use (R211): its line of the granule. -/
def tableLine (s : State) (l : Nat) : Option (Nat × Nat) :=
  let b := lineBh l
  let x := partOf s b
  if (bhOf s b).own && (bhOf s b).part = b && !x.regions.isEmpty && lineGran l = x.rdGran then
    some (b, lineIn l % 32768)
  else none

/-- RDBASE_WRITE (R212): ignored while any descriptor is in use. -/
def execRdbaseWrite (v : BitVec 32) (s : State) : Host.Outcome State Fault Refusal :=
  .next (modPart s s.cur.part (fun x => if x.regions.isEmpty then { x with rdGran := bitsN v 0 14 } else x))

-- Checkpoint (R87)

/-- A bulkhead may be streamed: FREE, or of a partition whose queues are all halted, with no node RUNNING. -/
def ckQuiet (s : State) (b : Nat) : Bool :=
  let x := bhOf s b
  x.st == .free ||
    (x.st == .assigned && (partBhs s x.part).all (fun c =>
      (List.range 16).all (fun q => (queueOf s c q).st == .halted) &&
        (bhOf s c).nodes.all (fun n => n.2.st != .running)))

/-- CHECKPOINT_START (R87). -/
def execCheckpointStart (s : State) : Host.Outcome State Fault Refusal :=
  .next (
    let h := s.hub
    if h.ckBusy then { s with hub := { h with ckErr := 1 } }
    else if !(List.range 16).all (fun b => !bitB h.ckMask b || ckQuiet s b) then
      { s with hub := { h with ckErr := 2 } }
    else
      let r : CkRun := { qp := h.ckQp, mask := h.ckMask, rkey := h.ckRkey,
                         va := h.ckVah.toNat * 2 ^ 32 + h.ckVal.toNat, seq := h.ckSeq, key := h.ckKey, at_ := s.now }
      { s with hub := { h with ckBusy := true, ckErr := 0, ckRun := r, ckRec := 0, ckStop := none, ckSent := false, ckBuf := [] } })

/-- CHECKPOINT_ABORT (R87): the stream stops after the record in flight. -/
def execCheckpointAbort (s : State) : Host.Outcome State Fault Refusal :=
  .next (
    if s.hub.ckBusy && s.hub.ckStop.isNone then { s with hub := { s.hub with ckStop := some 4 } } else s)

/-- Records of 64 KiB in one bulkhead. -/
def ckPerBh : Nat := bhBytes / 65536

/-- The bulkheads that a stream names, ascending. -/
def ckBhs (s : State) : List Nat := (List.range 16).filter (fun b => bitB s.hub.ckRun.mask b)

/-- What the checkpoint's RD64 of a stored line brings, with its record (R72, R77, R78, R85): the bytes, and whether they
are poisoned. A line goes under the slot that it was written under; the lines of a FREE bulkhead stand under the key of
its scrub (R21). -/
def ckRead (s : State) (l : Nat) : State × BitVec 512 × Bool :=
  let b := lineBh l
  let m := lineMeta s l
  if (bhOf s b).own then
    match ctlNow s .rd64 l m.slot m.prot 0 0 false with
    | (s, some x) => (s, x.data, x.pois || x.kind == 0xB)
    | (s, none) => (s, 0, true)
  else if m.poison then (s, 0, true)
  else
    let e : LineErr := if metaState s l = 2 then .uncorrectable else if metaState s l = 3 || m.tagBad then .tag
      else flipErr m.prot m.flips
    match e with
    | .uncorrectable => (logLine s ecUE 3 l, 0, true)
    | .tag => (logLine s ecInteg (if metaState s l = 3 then 5 else 4) l, 0, true)
    | .corrected n => (logLine s ecCE n l, lineData s l, false)
    | .none => (if metaState s l = 1 then logLine s ecCE 1 l else s, lineData s l, false)

/-- A line as the stream sends it: its bytes with what a slice holds newer, and whether it goes as poisoned. -/
def ckLine (s : State) (l : Nat) : State × BitVec 512 × Bool :=
  let b := lineBh l
  let rev := (bhOf s b).own && keyRevoked s (bhOf s b).part (lineMeta s l).slot
  match tableLine s l with
  | some (p, i) => (s, BitVec.ofNat 512 (leNat (tableBytes (partOf s p) i)), false)
  | none =>
    match l2Find (sliceOf s (homeSlice l)) l with
    | some y =>
      if y.stage.isSome then ckRead s l
      else if y.dirty == allBytes then (s, y.data, rev || y.poison)
      else
        let (s, d, bad) := ckRead s l
        (s, mergeLine d y.data y.dirty, rev || y.poison || bad)
    | none => ckRead s l

/-- The slices meet the latent errors of the lines of a record before it is read (R71). -/
def ckMeetUe (s : State) (l : Nat) : State :=
  (List.range 1024).foldl (fun s i => meetUe s (homeSlice (l + i)) (l + i)) s

/-- The lines of a record in order: those that have come, and the others read now. -/
def ckLines (s : State) (l : Nat) : State × List (BitVec 512 × Bool) :=
  (List.range 1024).foldl (fun (x : State × List (BitVec 512 × Bool)) i =>
    let (s, d) := match tabFind s.hub.ckBuf i with
      | some v => (x.1, v)
      | none => ckLine x.1 (l + i)
    (s, x.2 ++ [d])) (s, [])

/-- The bytes of the record whose first line is l, before it is sealed (R87). -/
def ckRecord (s : State) (l : Nat) (ls : List (BitVec 512 × Bool)) : List Byte :=
  leBytes 8 (64 * l) ++ leBytes 8 s.hub.ckRec ++ leBytes 16 0 ++
    leBytes 128 (natOfBools (ls.map (fun x => x.2))) ++
    ls.flatMap (fun x => if x.2 then List.replicate 64 0 else lineBytes x.1)

/-- A sealed record: AES-256-GCM under CKPTKEY, with its tag behind it (R87; log entry 51). -/
def ckSealed (s : State) (l : Nat) (ls : List (BitVec 512 × Bool)) : List Byte :=
  let key := (List.range 8).flatMap (fun i => leBytes 4 (tabGet s.hub.ckRun.key 0 i).toNat)
  let iv := BitVec.ofNat 96 (s.hub.ckRun.seq.toNat * 2 ^ 64 + s.hub.ckRec % 2 ^ 64)
  let (c, t) := aesGcm key iv (ckRecord s l ls)
  c ++ t

/-- CHECKPOINT_RECORD_SEND (R45, R87): the next record goes out as RDMA WRITEs of one path MTU each. -/
def execCheckpointRecordSend (s : State) : Host.Outcome State Fault Refusal :=
  .next (
    let h := s.hub
    let k := qpKey psf h.ckRun.qp
    match (ckBhs s)[h.ckRec / ckPerBh]? with
    | none => s
    | some b =>
      let own := (bhOf s b).own
      let g := if own then (bhOf s b).part else 16
      let free := (s.port.txFree.map (fun f => f.len)).sum
      if !h.ckBusy || h.ckStop.isSome || (qpOf s k).st ≠ .rts || !txRoom s g (80000 + (if own then 0 else free))
      then s
      else
        let l := b * bhLines + h.ckRec % ckPerBh * 1024
        let (s, ls) := ckLines (ckMeetUe s l) l
        let bs := ckSealed s l ls
        let n := mtuBytes (qpOf s k)
        let base := h.ckRun.va + h.ckRec * 65712
        let s := (List.range ((bs.length + n - 1) / n)).foldl (fun s i =>
          let d := (bs.drop (n * i)).take n
          sendReq s k { op := .write, qpn := 0, psn := 0, va := base + n * i, rkey := h.ckRun.rkey, len := d.length,
                        data := d } 1 (.ckpt (if own then some g else none))) s
        { s with hub := { s.hub with ckRec := h.ckRec + 1, ckSent := false, ckBuf := [] } })

/-- CHECKPOINT_END (R87): every record is acknowledged, or the stream was stopped; BUSY clears. -/
def execCheckpointEnd (s : State) : Host.Outcome State Fault Refusal :=
  .next (
    let h := s.hub
    let waiting := (qpOf s (qpKey psf h.ckRun.qp)).out.any (fun o => match o.2.2 with | .ckpt _ => true | _ => false)
    let ended := h.ckStop.isSome || (ckBhs s).length * ckPerBh ≤ h.ckRec
    if h.ckBusy && ended && (!waiting || h.ckStop = some 3) then
      { s with hub := { h with ckBusy := false, ckErr := h.ckStop.getD 0, ckStop := none } }
    else s)

end Sys2Proof.Machine
end

