-- ==== Sys2Proof/Machine/Launch.lean ====
section
/-! DEFINITION. Work control blocks, the checks of a launch, and the packets that launch nodes (R106, R120 to
R124, R134, R202). -/
namespace Sys2Proof.Machine
open Sys2Proof

-- Reads and writes of a command processor that are no packet's (R120 to R126, R137, R226)

/-- `n` bytes at a virtual address read as a bulkhead's command path, line by line. -/
def bcpRead (s : State) (b va n : Nat) : State × Except Cause BytesVal :=
  (paLines va n).foldl (fun (x : State × Except Cause BytesVal) l =>
    match x.2 with
    | .error _ => x
    | .ok v =>
      let lo := max va (64 * l)
      let m := min (va + n) (64 * l + 64) - lo
      match xlatePart x.1 (partOfBh x.1 b) lo m (cmdOwner x.1 b) .rd with
      | .bad c _ => (x.1, .error c)
      | .ok _ r off =>
        let (t, w) := regRead x.1 b r off m none 0
        (t, .ok { bytes := v.bytes ++ w.bytes, bad := v.bad || w.bad, rev := v.rev || w.rev }))
    (s, .ok {})

/-- Bytes written as a bulkhead's command path, line by line; a refused line is left out (log entry 45). -/
def bcpWrite (s : State) (b va : Nat) (bs : List Byte) : State :=
  (paLines va bs.length).foldl (fun s l =>
    let lo := max va (64 * l)
    let m := min (va + bs.length) (64 * l + 64) - lo
    match xlatePart s (partOfBh s b) lo m (cmdOwner s b) .wr with
    | .bad _ _ => s
    | .ok _ r off => regWrite s b r off ((bs.drop (lo - va)).take m) false) s

/-- What a read that must deliver gives: the bytes, or the cause that a refused, revoked or poisoned line
raises. -/
def needBytes (r : Except Cause BytesVal) : Except Cause (List Byte) :=
  match r with
  | .error c => .error c
  | .ok v => if v.rev then .error .keyrev else if v.bad then .error .poison else .ok v.bytes

/-- The queue fault of a command processor's read (R115). -/
def readFault : Cause → Nat
  | .poison => qfPoison
  | c => xFault c

/-- Every byte of a range lies in some region of a partition (R122). -/
def covered (s : State) (p : Nat) : Nat → Nat → Nat → Bool
  | 0, _, n => n == 0
  | fuel + 1, va, n =>
    if n = 0 then true
    else
      match regionAtVa s p va with
      | none => false
      | some (_, r) =>
        let m := r.vbase + 2 ^ r.k - va
        if n ≤ m then true else covered s p fuel (va + m) (n - m)

/-- A range lies in regions of a partition. -/
def inRegions (s : State) (p va n : Nat) : Bool :=
  va + n ≤ 2 ^ 40 && covered s p ((partOf s p).regions.length + 1) va n

-- Work control blocks (R120, R121)

/-- A field of a WCB: `n` bytes at offset `o`. -/
def wF (w : BitVec 1024) (o n : Nat) : Nat := bitsN w (8 * o) (8 * n)
/-- A field of the control word. -/
def wC (w : BitVec 1024) (lo n : Nat) : Nat := bitsN w lo n
/-- KIND. -/
def wKind (w : BitVec 1024) : Nat := wC w 29 3
/-- DEPTH. -/
def wDepth (w : BitVec 1024) : Nat := wC w 26 3
/-- Inheritance mask bit i (R121). -/
def wMask (w : BitVec 1024) (i : Nat) : Bool := bitB w (32 + i)
/-- Parent address. -/
def wParent (w : BitVec 1024) : Nat := wF w 8 8
/-- The longest switchable interval. -/
def wIval (w : BitVec 1024) : Nat := wF w 0x24 4

/-- Gang table entry i (R120). -/
def wGang (w : BitVec 1024) (i : Nat) : Gang :=
  { first := wF w (0x40 + 4 * i) 1, count := wF w (0x41 + 4 * i) 1, chain := bitsN w (8 * (0x42 + 4 * i) + 1) 2 }

/-- The reserved bits of gang entry i are zero. -/
def wGangOk (w : BitVec 1024) (i : Nat) : Bool :=
  !bitB w (8 * (0x42 + 4 * i)) && bitsN w (8 * (0x42 + 4 * i) + 3) 13 = 0 && (wGang w i).count ≤ 96

/-- The gangs in use, by ascending FIRST. -/
def wGangs (w : BitVec 1024) : List Gang :=
  sortBy (fun a b => decide (a.first ≤ b.first)) (((List.range 8).map (wGang w)).filter (fun g => g.count ≠ 0))

/-- Every field of one block is in range and every zero field zero (R120, R122). -/
def wcbOk (w : BitVec 1024) : Bool :=
  let k := wKind w
  k ≤ 4 && wC w 24 2 = 0 && wC w 0 11 = 0 && wC w 18 2 ≤ 2 && wC w 11 3 ≤ 4 && wF w 5 3 = 0 &&
    wF w 0x18 8 % 64 = 0 && wF w 0x20 4 < (if k = 1 then 4096 else 1) && wParent w % 64 = 0 &&
    (k ≠ 0 || wParent w = 0) &&
    (if k < 4 then bitsN w (8 * 0x24) (8 * 92) = 0
     else
      wIval w ≤ 2 ^ 31 && wF w 0x28 8 % 64 = 0 && wF w 0x30 8 % 64 = 0 && wF w 0x38 4 ≤ 16384 &&
        wF w 0x38 4 % 8 = 0 && wF w 0x3F 1 = 0 && (List.range 8).all (wGangOk w) &&
        wF w 0x60 8 % 64 = 0 && wF w 0x68 4 ≤ 64 && wF w 0x6C 4 = 0 && wF w 0x70 8 % 64 = 0 &&
        wF w 0x78 8 % 8 = 0)

/-- Read the chain of blocks from a WCB up to the root; a copy already held is used (R123). -/
def readChain (s : State) (b : Nat) : Nat → Nat → State × Except Nat (List (Nat × BitVec 1024))
  | 0, _ => (s, .error qfDesc)
  | fuel + 1, va =>
    let (s, r) : State × Except Nat (BitVec 1024) :=
      match tabFind (bhOf s b).wcbs va with
      | some c => (s, .ok c.raw)
      | none =>
        let (s, r) := bcpRead s b va 128
        (s, match needBytes r with
          | .error c => .error (readFault c)
          | .ok bs => .ok (BitVec.ofNat 1024 (leNat bs)))
    match r with
    | .error c => (s, .error c)
    | .ok w =>
      if !wcbOk w then (s, .error qfDesc)
      else if wParent w = 0 then (s, .ok [(va, w)])
      else
        match readChain s b fuel (wParent w) with
        | (s, .error c) => (s, .error c)
        | (s, .ok l) => (s, .ok ((va, w) :: l))

/-- The block that defines field i for the first block of a chain (R121). -/
def definer (ch : List (Nat × BitVec 1024)) (i : Nat) : Nat × BitVec 1024 :=
  (ch.find? (fun x => wMask x.2 i)).getD (0, 0)

/-- The effective virtual shape. -/
def effVs (ch : List (Nat × BitVec 1024)) : Nat := wC (definer ch 5).2 11 3

/-- The shape of the tree above a node (R122). -/
def chainOk (ch : List (Nat × BitVec 1024)) : Bool :=
  match ch with
  | [] => false
  | x :: up =>
    let root := (ch.getLast?.getD (0, 0)).2
    wKind x.2 = 4 && up.all (fun y => wKind y.2 ≤ 3) &&
      (ch.zip up).all (fun y => wDepth y.1.2 = wDepth y.2.2 + 1) &&
      wDepth root = 0 && wKind root = 0 && bitsN root 32 32 = 0xFF &&
      up.all (fun y => wKind y.2 ≠ 1 || wDepth y.2 = 1) &&
      (up.filter (fun y => wKind y.2 = 1)).length = 1 && up.any (fun y => wKind y.2 = 2)

/-- Two gangs share no logical array. -/
def gangsApart : List Gang → Bool
  | [] => true
  | g :: r => r.all (fun h => g.first + g.count ≤ h.first || h.first + h.count ≤ g.first) && gangsApart r

/-- The gang table fits the shape and the partition (R122). -/
def gangsOk (s : State) (p : Nat) (ch : List (Nat × BitVec 1024)) : Bool :=
  let w := (ch.headD (0, 0)).2
  let gs := wGangs w
  let phys := 6 * partSize s p
  !gs.isEmpty && gangsApart gs && gs.all (fun g =>
    g.first + g.count ≤ vsCount (effVs ch) && g.count % (g.chain + 1) = 0 &&
      (g.count ≤ phys || (g.chain = 0 && 0 < wIval w)))

/-- The highest logical array that a gang names. -/
def topLogical (w : BitVec 1024) : Nat := (wGangs w).foldl (fun m g => max m (g.first + g.count - 1)) 0

/-- The places a node uses lie in regions of the partition (R122, R226). -/
def placesOk (s : State) (p : Nat) (w : BitVec 1024) : Bool :=
  (wF w 0x60 8 = 0 || inRegions s p (wF w 0x60 8) (16 * wF w 0x68 4)) &&
    inRegions s p (wF w 0x30 8) (wF w 0x38 4) &&
    (wF w 0x78 8 = 0 || inRegions s p (wF w 0x78 8) 40) &&
    inRegions s p (wF w 0x70 8) (0xB00000 * (topLogical w + 1))

/-- The footprint entries of a list (R120); none where a zero field is not zero. -/
def footEntries (bs : List Byte) : Nat → Option (List (Nat × Nat × Nat))
  | 0 => some []
  | n + 1 =>
    let f (o k : Nat) : Nat := leNat ((bs.drop o).take k)
    if 2 ^ 14 ≤ f 0 4 || f 4 4 ≠ 0 then none
    else (footEntries (bs.drop 16) n).map (fun r => (f 0 4, f 8 4, f 12 4) :: r)

/-- The lines that a footprint touches, one that several entries share counted once (R134). -/
def footLines (fps : List (Nat × Nat × Nat)) : Nat :=
  let sp := sortBy (fun (x y : Nat × Nat × Nat) => decide (x.1 < y.1 ∨ (x.1 = y.1 ∧ x.2.1 ≤ y.2.1)))
    ((fps.filter (fun f => f.2.2 ≠ 0)).map (fun f => (f.1, f.2.1 / 64, (f.2.1 + f.2.2 + 63) / 64)))
  (sp.foldl (fun (t : Nat × Nat × Nat) f =>
    let from_ := if f.1 = t.2.1 then max f.2.1 t.2.2 else f.2.1
    (t.1 + (f.2.2 - from_), f.1, if f.1 = t.2.1 then max t.2.2 f.2.2 else f.2.2)) (0, 0, 0)).1

/-- A node is replayable at its launch (R134). -/
def replayable (s : State) (p : Nat) (w : BitVec 1024) (fps : List (Nat × Nat × Nat)) (stg : Nat) : Bool :=
  bitB w 14 && fps.all (fun f =>
    match tabFind (partOf s p).regions f.1 with
    | some r => r.kind = 1 && f.2.1 + f.2.2 ≤ 2 ^ r.k
    | none => false) && 64 * footLines fps ≤ stg

/-- Dictionary bundle i of a code image (R248, R249); zero where it cannot be read. -/
def imageBundle (s : State) (b image i : Nat) : BundleBits :=
  match (bcpRead s b (image + 8) 4).2 with
  | .error _ => 0
  | .ok v =>
    if leNat v.bytes ≤ i then 0
    else
      match (bcpRead s b (image + 64 + 48 * i) 48).2 with
      | .ok x => if x.bad || x.rev then 0 else BitVec.ofNat 384 (leNat x.bytes)
      | .error _ => 0

/-- A logical array may access 320 bytes at a carry location (R202, R210). -/
def carryReach (s : State) (p l va : Nat) (k : AccK) : Bool :=
  match xlatePart s p va 320 l k with
  | .ok _ _ _ => true
  | .bad _ _ => false

/-- The descriptor of a step read as the logical array that runs it (R201, R209, R210; log entry 53). -/
def readStep (s : State) (b p l va : Nat) : State × Except Cause BytesVal :=
  match xlatePart s p va 128 l .rd with
  | .bad c _ => (s, .error c)
  | .ok _ r off => let (s, v) := regRead s b r off 128 none 0; (s, .ok v)

/-- The descriptors of an MPASS packet, checked under R202 before launch (R201). -/
def readSteps (s : State) (b p image desc : Nat) (ls : List Nat) : State × Option (Tab (BitVec 1024)) :=
  ls.zipIdx.foldl (fun (x : State × Option (Tab (BitVec 1024))) li =>
    match x.2 with
    | none => x
    | some t =>
      let (s, r) := readStep x.1 b p li.1 (desc + 128 * li.2)
      match needBytes r with
      | .error _ => (s, none)
      | .ok bs =>
        let d := BitVec.ofNat 1024 (leNat bs)
        let m := mpeOf d 0 true
        if mpeOk d (some (imageBundle s b image (m.dstart + m.doff))) true (carryReach s p li.1 m.carry) then
          (s, some (tabSet t li.1 d))
        else (s, none)) (s, some [])

/-- How a launch ends: a fault, a wait for room for the copies of a chain, a release of a region that it reads
still to come (R105), or the node's slot. -/
inductive Launched where
  | fault (cause : Nat)
  | wait (chain : List Nat)
  | hold
  | ok (slot : Nat)
  deriving DecidableEq, Repr

/-- The logical arrays of a list of gangs. -/
def gangLogicals (gs : List Gang) : List Nat := gs.flatMap (fun g => (List.range g.count).map (fun i => g.first + i))

/-- The budget a node charges is used up. -/
def budgetOut (x : BhS) (nd : NodeS) : Bool :=
  match nd.budget with
  | none => false
  | some w => match tabFind x.wcbs w with | some c => c.left = 0 | none => false

/-- The node of a checked chain (R120, R121, R124, R134). -/
def newNode (s : State) (b : Nat) (q : Option Nat) (ch : List (Nat × BitVec 1024))
    (fps : List (Nat × Nat × Nat)) (sem : Option (W16 × W64)) (tick : Option Nat)
    (steps : Option (Tab (BitVec 1024))) (atick : Option Nat) (index : Nat) : NodeS :=
  let p := partOfBh s b
  let w := (ch.headD (0, 0)).2
  let d (i : Nat) : BitVec 1024 := (definer ch i).2
  let rep := replayable s p w fps (wF (d 7) 0x18 8)
  let x := match q with | some q => queueOf s b q | none => {}
  { st := if tick.isSome then .waiting else .ready, part := p, wcb := (ch.headD (0, 0)).1,
    chain := ch.map (fun y => y.1),
    graph := ((ch.find? (fun y => wKind y.2 = 2)).getD (0, 0)).1,
    kdom := ((ch.find? (fun y => wKind y.2 = 1)).getD (0, 0)).1,
    q := q, seq := (x.cur.map (fun r => r.seq)).getD 0, cookie := (x.cur.map (fun r => r.cookie)).getD 0,
    level := queueLevel x, offset := if q.isSome then x.at_ else index, sem := sem, tick := tick, steps := steps,
    prio := wC (d 0) 20 4, fdom := wC (d 1) 18 2, fpmode := bitB (d 2) 17, svmode := bitB (d 3) 16,
    fast := bitB (d 4) 15, vs := effVs ch,
    budget := if wF (d 6) 0x10 8 = 0 then none else some (definer ch 6).1,
    stgAt := (definer ch 7).1, staging := wF (d 7) 0x18 8, ival := wIval w, image := wF w 0x28 8,
    params := wF w 0x30 8, pbytes := wF w 0x38 4, vsem := BitVec.ofNat 16 (wF w 0x3C 2),
    rqLimit := wF w 0x3E 1, gangs := wGangs w, fps := fps, save := wF w 0x70 8, status := wF w 0x78 8,
    logs := sortBy (fun a b => decide (a.1 ≤ b.1))
      ((gangLogicals (wGangs w)).map (fun l => (l, ({ tick := atick } : LogS)))),
    replay := rep, nrWhy := if rep then 0 else 1, readyAt := s.now }

/-- A launch must wait for a release of what it reads: the blocks of the chain and the footprint list as the command
path, the descriptors of its steps as the arrays that run them (R105, R215). -/
def launchHeld (s : State) (b : Nat) (ch : List (Nat × BitVec 1024)) (desc : Option Nat) : Bool :=
  let p := partOfBh s b
  let w := (ch.headD (0, 0)).2
  (wF w 0x60 8 :: ch.map (fun x => x.1)).any (releaseWait s p (cmdOwner s b) none) ||
    match desc with
    | some d => (gangLogicals (wGangs w)).zipIdx.any (fun x => releaseWait s p x.1 none (d + 128 * x.2))
    | none => false

/-- Launch the node of a WCB (R122 to R124). A node under a budget that is exhausted starts at priority 0 (R132). `desc` is the descriptor address of an MPASS packet. -/
def launch (s : State) (b : Nat) (q : Option Nat) (wcb : Nat) (sem : Option (W16 × W64)) (tick : Option Nat)
    (desc : Option Nat) (atick : Option Nat) (index : Nat) : State × Launched :=
  let p := partOfBh s b
  let (s, r) := readChain s b 8 wcb
  match r with
  | .error c => (s, .fault c)
  | .ok ch =>
    let w := (ch.headD (0, 0)).2
    if !chainOk ch || !gangsOk s p ch || !placesOk s p w ||
        (bitB (definer ch 2).2 17 && !semNameOk s p (BitVec.ofNat 16 (wF w 0x3C 2))) then (s, .fault qfDesc)
    else if launchHeld s b ch desc then (s, .hold)
    else
      let (s, fr) := if wF w 0x60 8 = 0 then (s, .ok {}) else bcpRead s b (wF w 0x60 8) (16 * wF w 0x68 4)
      match needBytes fr with
      | .error c => (s, .fault (readFault c))
      | .ok fb =>
        match footEntries fb (fb.length / 16) with
        | none => (s, .fault qfDesc)
        | some fps =>
          let (s, st) := match desc with
            | none => (s, some none)
            | some d =>
              let (s, t) := readSteps s b p (wF w 0x28 8) d (gangLogicals (wGangs w))
              (s, t.map some)
          match st with
          | none => (s, .fault qfDesc)
          | some steps =>
            let fresh := ch.filter (fun x => (tabFind (bhOf s b).wcbs x.1).isNone)
            if 256 ≤ liveNodes s b || 512 < (bhOf s b).wcbs.length + fresh.length ||
                (s.hub.ckBusy && bitB s.hub.ckRun.mask b) then (s, .wait (ch.map (fun x => x.1)))
            else
              match (List.range 256).find? (fun i => (tabFind (bhOf s b).nodes i).isNone) with
              | none => (s, .wait (ch.map (fun x => x.1)))
              | some slot =>
                let nd := newNode s b q ch fps sem tick steps atick index
                let nd := { nd with demoted := budgetOut (bhOf s b) nd }
                let s := modBh s b (fun x =>
                  { x with
                    wcbs := fresh.foldl (fun t y =>
                      tabSet t y.1 { raw := y.2, left := wF y.2 0x10 8 }) x.wcbs
                    nodes := tabSet x.nodes slot nd })
                (s, .ok slot)

/-- A packet that launches a node (R106). -/
def launchPacket (s : State) (len : Nat) (sem : Bool) (name : W16) (add : W64) (wcb : Nat)
    (tick desc : Option Nat) : State :=
  withSem s sem name (
    match launch s s.cur.bh (some s.cur.q) wcb (semOpt sem name add) tick desc none 0 with
    | (_, .fault c) => packetFault s c
    | (_, .wait ch) => queueWait s s.cur.bh s.cur.q (.nodes ch)
    | (_, .hold) => s
    | (t, .ok _) => packetDone t len)

/-- LAUNCH (R106): the node enters READY. -/
def execPktLaunch (pr sem : Bool) (wcb : BitVec 64) (name : BitVec 16) (add : BitVec 64) (s : State) :
    Host.Outcome State Fault Refusal :=
  .next (packetGo s 6 pr .c (fun _ => launchPacket s 6 sem name add wcb.toNat none none))

/-- TLAUNCH (R106): the node enters WAITING until its start tick. -/
def execPktTlaunch (pr sem : Bool) (wcb tick : BitVec 64) (name : BitVec 16) (add : BitVec 64) (s : State) :
    Host.Outcome State Fault Refusal :=
  .next (packetGo s 8 pr .c (fun _ => launchPacket s 8 sem name add wcb.toNat (some tick.toNat) none))

/-- MPASS (R106, R201, R202): the node runs one message-passing step on each used array. -/
def execPktMpass (pr sem : Bool) (wcb desc : BitVec 64) (name : BitVec 16) (add : BitVec 64) (s : State) :
    Host.Outcome State Fault Refusal :=
  .next (packetGo s 8 pr .c (fun _ => launchPacket s 8 sem name add wcb.toNat none (some desc.toNat)))

end Sys2Proof.Machine
end

