-- ==== Sys2Proof/Machine/Image.lean ====
section
/-! DEFINITION. The code image and what loading it onto an array sets (R161, R248 to R250), and the save image
of a pre-empted array (R137, R138). -/
namespace Sys2Proof.Machine
open Sys2Proof

/-- A number of `n` bytes at offset `o` of a byte list. -/
def bF (bs : List Byte) (o n : Nat) : Nat := leNat ((bs.drop o).take n)

/-- A size rounded up to 64. -/
def pad64 (n : Nat) : Nat := (n + 63) / 64 * 64

/-- The header of a code image and where its sections start (R248, R249). -/
structure ImageH where
  magic : Nat
  ver   : Nat
  vs    : Nat
  nd    : Nat
  nc    : Nat
  entry : Nat
  svPc  : Nat
  rsPc  : Nat
  ns    : Nat
  dst   : Nat
  nh    : Nat
  nt    : Nat
  nsh   : Nat
  nn    : Nat
  nr    : Nat
  zero  : Bool
  deriving DecidableEq, Repr

/-- The header's fields. -/
def imageHead (bs : List Byte) : ImageH :=
  { magic := bF bs 0 4, ver := bF bs 4 2, vs := bF bs 6 1, nd := bF bs 8 4, nc := bF bs 0x0C 4,
    entry := bF bs 0x10 4, svPc := bF bs 0x14 4, rsPc := bF bs 0x18 4, ns := bF bs 0x1C 4, dst := bF bs 0x20 4,
    nh := bF bs 0x24 1, nt := bF bs 0x25 1, nsh := bF bs 0x26 1, nn := bF bs 0x27 1, nr := bF bs 0x28 2,
    zero := bF bs 7 1 = 0 && bF bs 0x2A 22 = 0 }

/-- Offset of the code section. -/
def imCode (h : ImageH) : Nat := 64 + pad64 (48 * h.nd)
/-- Offset of the handles. -/
def imHandles (h : ImageH) : Nat := imCode h + pad64 (2 * h.nc)
/-- Offset of the templates. -/
def imTmpl (h : ImageH) : Nat := imHandles h + pad64 (16 * h.nh)
/-- Offset of the shapes. -/
def imShapes (h : ImageH) : Nat := imTmpl h + pad64 (128 * h.nt)
/-- Offset of the nests. -/
def imNests (h : ImageH) : Nat := imShapes h + pad64 (32 * h.nsh)
/-- Offset of the region requirements. -/
def imRegs (h : ImageH) : Nat := imNests h + pad64 (64 * h.nn)
/-- Offset of the scratchpad bytes. -/
def imSpad (h : ImageH) : Nat := imRegs h + pad64 (8 * h.nr)
/-- Length of the image. -/
def imLen (h : ImageH) : Nat := imSpad h + pad64 h.ns

/-- The header's own ranges (R248). -/
def headOk (h : ImageH) (vs : Nat) : Bool :=
  let pcOk (x : Nat) : Bool := x < h.nc || x = 0xFFFFFFFF
  h.magic = 0x4B4E4349 && h.ver = 1 && h.zero && h.vs = vs && h.nd ≤ 8192 && 1 ≤ h.nc && h.nc ≤ 131072 &&
    h.entry < h.nc && pcOk h.svPc && pcOk h.rsPc && h.ns % 64 = 0 && h.ns ≤ spadSize && h.dst % 64 = 0 &&
    h.dst + h.ns ≤ spadSize && h.nh ≤ 128 && h.nt ≤ 64 && h.nsh ≤ 16 && h.nn ≤ 3 && h.nr ≤ 256

/-- Dictionary entry i. -/
def imBundle (bs : List Byte) (i : Nat) : BundleBits := BitVec.ofNat 384 (bF bs (64 + 48 * i) 48)

/-- Handle entry i: number, kind, BASE, LEN (R249). -/
def imHandle (h : ImageH) (bs : List Byte) (i : Nat) : Nat × Nat × Nat × Nat :=
  let o := imHandles h + 16 * i
  (bF bs o 1, bF bs (o + 1) 1, bF bs (o + 8) 4, bF bs (o + 12) 4)

/-- The fields of a handle entry are in range (R193, R249). -/
def imHandleOk (h : ImageH) (bs : List Byte) (i : Nat) : Bool :=
  let (n, k, base, len) := imHandle h bs i
  let unit := if k = 2 then 65536 else 64
  n < 128 && (k = 1 || k = 2) && bF bs (imHandles h + 16 * i + 2) 6 = 0 && len % unit = 0 &&
    (k = 1 || base % 65536 = 0)

/-- A shape entry is in range (R249). -/
def imShapeOk (h : ImageH) (bs : List Byte) (i : Nat) : Bool :=
  let o := imShapes h + 32 * i
  let m := bF bs o 1
  1 ≤ m && m ≤ 5 && bF bs (o + 1) 3 = 0 && bF bs (o + 24) 8 = 0 && (List.range 5).all (fun j =>
    let e := bF bs (o + 4 + 4 * j) 4
    e ≤ 2 ^ 24 && (1 ≤ e || m ≤ j))

/-- A region requirement is in range (R249). -/
def imRegOk (h : ImageH) (bs : List Byte) (i : Nat) : Bool :=
  let o := imRegs h + 8 * i
  bF bs o 2 < 16384 && bF bs (o + 5) 2 < 16 * vsCount h.vs && bF bs (o + 7) 1 = 0

/-- A region requirement matches its descriptor (R250). -/
def imRegMeets (s : State) (p : Nat) (h : ImageH) (bs : List Byte) (i : Nat) : Bool :=
  let o := imRegs h + 8 * i
  match tabFind (partOf s p).regions (bF bs o 2) with
  | some r => r.kind ≠ 0 && r.kind = bF bs (o + 2) 1 && r.k = bF bs (o + 3) 1 && r.prot = bF bs (o + 4) 1
  | none => false

/-- The first handle entry that lies outside 4 MiB, or that overlaps or names again an earlier one (R250). -/
def handleBad (h : ImageH) (bs : List Byte) : Option Nat :=
  let rec go (seen : List (Nat × Nat × Nat × Nat)) : List (Nat × Nat × Nat × Nat) → Option Nat
    | [] => none
    | (n, k, b, l) :: r =>
      if spadSize < b + l || seen.any (fun (x : Nat × Nat × Nat × Nat) =>
          x.1 = n || (x.2.1 = k && decide (b < x.2.2.1 + x.2.2.2) && decide (x.2.2.1 < b + l))) then some n
      else go (seen ++ [(n, k, b, l)]) r
  go [] ((List.range h.nh).map (imHandle h bs))

/-- A check of the load that failed, as its trap record has it (R226, R227, R250). -/
structure LoadFault where
  cause  : Cause
  pc     : Nat := 0
  detail : Nat := 0
  region : Nat := 0x3FFF
  deriving DecidableEq, Repr

/-- The image of a node read and checked in the order of R250: the first failed check, or the
bytes. -/
def readImage (s : State) (b : Nat) (nd : NodeS) : State × Except LoadFault (List Byte) :=
  match regionAtVa s nd.part nd.image with
  | none => (s, .error { cause := .region })
  | some (num, r) =>
    if !(r.kind = 2 || (r.kind = 1 && r.owner = cmdOwner s b)) then
      (s, .error { cause := .region, region := num })
    else
      let room := r.vbase + 2 ^ r.k - nd.image
      let (s, hd) := bcpRead s b nd.image (min 64 room)
      match needBytes hd with
      | .error c => (s, .error { cause := c })
      | .ok hb =>
        let h := imageHead hb
        if room < 64 || !headOk h nd.vs || room < imLen h then (s, .error { cause := .illcode })
        else
          let (s, all) := bcpRead s b nd.image (imLen h)
          match needBytes all with
          | .error c => (s, .error { cause := c })
          | .ok bs =>
            if !((List.range h.nh).all (imHandleOk h bs) && (List.range h.nsh).all (imShapeOk h bs) &&
                (List.range h.nr).all (imRegOk h bs)) then (s, .error { cause := .illcode })
            else
              match (List.range h.nr).find? (fun i => !imRegMeets s nd.part h bs i) with
              | some i => (s, .error { cause := .region, region := bF bs (imRegs h + 8 * i) 2 })
              | none =>
                match (List.range h.nd).findSome? (fun i =>
                    (firstConflict (slotBits (imBundle bs i))).map (fun c => (i, c))) with
                | some (i, c) => (s, .error { cause := .slotcf, pc := i, detail := c.1 + 16 * c.2 })
                | none =>
                  match handleBad h bs with
                  | some n => (s, .error { cause := .hstate, detail := n })
                  | none => (s, .ok bs)

/-- What an array keeps from the one it held before: its egress cache with the queue that its writes count for,
its region cache, its physical faults and the run number (R105, R129, R213, R214, R230). -/
def bareArray (a : ArrayS) : ArrayS :=
  { epoch := a.epoch + 1, ac := a.ac, eg := a.eg, fifo := a.fifo, drained := a.drained, markNext := a.markNext,
    rcache := a.rcache, rinv := a.rinv, nq := a.nq, residCell := a.residCell, residSeq := a.residSeq,
    parity := a.parity, sram := a.sram }

/-- A shape entry of the image; an extent of 0 loads as 1 (R249). -/
def imShape (h : ImageH) (bs : List Byte) (i : Nat) : ShapeE :=
  let o := imShapes h + 32 * i
  { m := bF bs o 1, ex := (List.range 5).map (fun j => (j, bF bs (o + 4 + 4 * j) 4 - 1)) }

/-- A shadow nest of the image. -/
def imNest (h : ImageH) (bs : List Byte) (l : Nat) : Nest :=
  if l < h.nn then (List.range 16).map (fun f => (f, bF bs (imNests h + 64 * l + 4 * f) 4)) else []

/-- Load an image onto an array that has been placed (R161, R250): everything else takes its node-start
value. -/
def loadArray (a : ArrayS) (bs pb : List Byte) : ArrayS :=
  let h := imageHead bs
  { a with
    nd := h.nd, nc := h.nc
    dict := (List.range h.nd).map (fun i => (i, imBundle bs i))
    code := (List.range h.nc).map (fun i => (i, BitVec.ofNat 16 (bF bs (imCode h + 2 * i) 2)))
    pc := h.entry
    shapes := (List.range h.nsh).map (fun i => (i, imShape h bs i))
    ldN := { shadow := imNest h bs 0 }, ldW := { shadow := imNest h bs 1 }, ldD := { shadow := imNest h bs 2 }
    handles := sortBy (fun x y => decide (x.1 ≤ y.1)) ((List.range h.nh).map (fun i =>
      let (n, k, base, len) := imHandle h bs i
      (n, ({ kind := k, base := base, len := len } : HandleS))))
    tmpl := (List.range h.nt).map (fun i => (i, BitVec.ofNat 1024 (bF bs (imTmpl h + 128 * i) 128)))
    spad := memPut [] h.dst ((bs.drop (imSpad h)).take h.ns)
    dmem := memPut [] 0 pb
    tile := BitVec.ofNat 32 a.logical }

/-- The placement of an array: what R129, R130 and R157 set, with nothing else carried over. -/
def placedArray (a : ArrayS) (n : NodeId) (nd : NodeS) (l : Nat) (tick : Option Nat) : ArrayS :=
  { bareArray a with
    cond := .placed, node := some n, nq := nd.q.map (fun q => (n.1, q)), logical := l, vs := nd.vs, fast := nd.fast, startTick := tick,
    leader := a.leader, chpos := a.chpos, chlen := a.chlen, lower := a.lower, slow := a.slow, delay := a.delay }

-- The save image (R137, R138)

/-- A 128-bit register as 16 bytes. -/
def regBytes (v : Vec) : List Byte := leBytes 16 v.toNat

/-- The 512 bytes of a cell: q0 to q15, k0 to k7, cm, ha, then zero (R137). -/
def cellBytes (x : CellS) : List Byte :=
  (List.range 16).flatMap (fun i => regBytes (tabGet x.q 0 i)) ++
    (List.range 8).flatMap (fun i => regBytes (tabGet x.k 0 i)) ++ regBytes x.cm ++ regBytes x.ha ++
    List.replicate 96 0

/-- The operand store: slot by slot, the 16 bytes of every cell in row-major order (R179). -/
def osBytes (a : ArrayS) : List Byte :=
  (List.range 64).flatMap (fun i => (List.range 64).flatMap (fun r => (List.range 64).flatMap (fun c =>
    regBytes (tabGet (cellAt a r c).os 0 i))))

/-- The save image from offset 0x00A1_0000 on: the parts that SVDATA reads in the same words (R137, R314). -/
def saveTail (a : ArrayS) (capId : Nat) : List Byte :=
  (List.range (0xF0000 / 8)).flatMap (fun i =>
    let off := 0xA10000 + 8 * i
    leBytes 8 (if off < 0xAB0000 then (svWord a capId off).toNat else 0))

/-- The save image of an array (R137). -/
def saveBytes (a : ArrayS) (capId : Nat) : List Byte :=
  memBytes a.spad 0 spadSize ++ osBytes a ++
    (List.range 64).flatMap (fun r => (List.range 64).flatMap (fun c => cellBytes (cellAt a r c))) ++
    memBytes a.dmem 0 65536 ++ saveTail a capId

/-- A cell with its registers from the save image (R138). -/
def cellFrom (x : CellS) (bs : List Byte) : CellS :=
  let v (i : Nat) : Vec := BitVec.ofNat 128 (bF bs (16 * i) 16)
  { x with q := (List.range 16).map (fun i => (i, v i)), k := (List.range 8).map (fun i => (i, v (16 + i)))
           cm := v 24, ha := v 25 }

/-- Take the save image (R137, R138): scratchpad, operand store, cell registers, data memory, landing buffer and the cell
control image, counts first, and the words without a stated layout, which as they were captured give the state as it was
captured (log entry 46). -/
def restoreFrom (a : ArrayS) (capId : Nat) (bs : List Byte) : ArrayS :=
  let at_ (o n : Nat) : List Byte := (bs.drop o).take n
  let cells := (List.range 64).map (fun r => (r, (List.range 64).map (fun c =>
    let x := cellFrom (cellAt a r c) (at_ (0x800000 + 512 * (64 * r + c)) 512)
    (c, { x with os := (List.range 64).map (fun i =>
      (i, BitVec.ofNat 128 (bF (at_ (0x400000 + 65536 * i + 1024 * r + 16 * c) 16) 0 16))) }))))
  let a := { a with spad := memPut [] 0 (at_ 0 spadSize), dmem := memPut [] 0 (at_ 0xA00000 65536), cells := cells }
  let put (a : ArrayS) (off : Nat) : ArrayS := svPut a capId off (BitVec.ofNat 64 (bF (at_ off 8) 0 8))
  let a := (List.range 49152).foldl (fun a i => put a (0xA10000 + 8 * i)) a
  (List.range 4096).foldl (fun a i =>
    ([6, 0, 1, 2, 3, 4, 5] : List Nat).foldl (fun a w => put a (0xA70000 + 64 * i + 8 * w)) a) a

/-- The state to be resumed takes what a restore program put in place with its own instructions (R314). -/
def restoreMix (saved now : ArrayS) : ArrayS :=
  let cells := (List.range 64).map (fun r => (r, (List.range 64).map (fun c =>
    let x := cellAt saved r c
    let y := cellAt now r c
    (c, { y with g := x.g, fstk := x.fstk }))))
  { saved with spad := now.spad, spMk := now.spMk, dmem := now.dmem, dmUe := now.dmUe, cells := cells }

/-- A captured state put onto the array that resumes it: placement and memory side are the array's own, and the collectives
of both are under way. -/
def resumeOn (a saved : ArrayS) : ArrayS :=
  { resumable saved with
    cond := .running, epoch := a.epoch, ac := a.ac, node := a.node, leader := a.leader, chpos := a.chpos
    chlen := a.chlen, lower := a.lower, slow := a.slow, delay := a.delay, nd := a.nd, nc := a.nc
    dict := a.dict, code := a.code, dictUe := a.dictUe, codeUe := a.codeUe, eg := a.eg, fifo := a.fifo
    drained := a.drained, markNext := a.markNext, rcache := a.rcache, rinv := a.rinv, residCell := a.residCell
    nq := a.nq, residSeq := a.residSeq, parity := a.parity, sram := a.sram, asy := [], scBusy := false
    scWait := false, preReq := a.preReq, preLeft := a.preLeft, boundary := false, tbAc := 0, svrun := 0
    asyUsed := a.asyUsed, hstart := none, ahead := none, colls := saved.colls + a.colls }

/-- The array that runs a save program: memories and cells stay, the sequencer is the program's own (R137,
R314). -/
def saveRun (a : ArrayS) (pc : Nat) : ArrayS :=
  { loadArray a [] [] with
    cond := .running, nd := a.nd, nc := a.nc, dict := a.dict, code := a.code, pc := pc, shapes := []
    handles := a.handles, tmpl := a.tmpl, spad := a.spad, dmem := a.dmem, s := [], calls := [], loops := []
    tt := 0, ttcrc := 0xFFFFFFFF, frzac := 0, er := [], erq := [], ef := false, efv := 0, efop := false
    edgemode := 0, svaddr := 0, svrun := 1, seed := 0, srcount := 0, pend := [], ym := [], xm := [], dlat := []
    latch := [], latchLog := [], latchMk := [], tq := [], fly := [], occN := 0, occW := 0, npq := [], wpq := []
    pipe := [], inq := [], efq := [], land := [], landIn := [], wait := none, mpe := none, preReq := false
    preLeft := 0, boundary := false, haltSeen := false, hac := 0, sigi := 0xFFFFFFFF, sigiRef := 0xFFFFFFFF
    sigs := 0xFFFFFFFF, fstOr := 0, lead := [], stall := 0, gath := none, tbuf := [], tbufMk := []
    held := none, replay := false, tbAc := 0, moved := false, ahead := none, ldFence := none, svOver := [] }

end Sys2Proof.Machine
end

