-- ==== Sys2Proof/Machine/Nodes.lean ====
section
/-! DEFINITION. The life of a node: its ends, kills and verdicts, HALT, and the policy of a trap (R124, R125,
R139 to R142, R226). -/
namespace Sys2Proof.Machine
open Sys2Proof

/-- A node of a BCP by slot, with its identity. -/
def partNodes (s : State) (p : Nat) : List (NodeId × NodeS) :=
  (partBhs s p).flatMap (fun b => (bhOf s b).nodes.map (fun n => ((b, n.1), n.2)))

/-- The logical arrays of a node with the arrays that hold them. -/
def nodePhys (nd : NodeS) : List (Nat × Nat) :=
  nd.logs.filterMap (fun l => if l.2.st = .placed || l.2.st = .started then some (l.1, l.2.phys) else none)

/-- Change the state of a logical array. -/
def setLog (nd : NodeS) (l : Nat) (f : LogS → LogS) : NodeS := { nd with logs := tabMod nd.logs {} l f }

/-- WCB copies that no launched node needs any more are released, and a launch that waits reads its chain again (R123). -/
def dropCopies (s : State) (b : Nat) : State :=
  modBh s b (fun x =>
    let used := x.nodes.flatMap (fun n => if nodeOver n.2 then [] else n.2.chain)
    let again (q : Nat × QueueS) : Nat × QueueS :=
      match q.2.wait with
      | some (.nodes _) => (q.1, { q.2 with wait := some (.nodes []) })
      | _ => q
    if x.wcbs.all (fun c => used.contains c.1) then x
    else { x with wcbs := x.wcbs.filter (fun c => used.contains c.1), queues := x.queues.map again })

-- Status and notifications (R94, R125, R226)

/-- The status word (R125). -/
def statusWord (nd : NodeS) : Nat :=
  (if nd.st = .done then 5 else 6) + min 255 nd.preempts <<< 8 + (nd.requeues % 256) <<< 16 + nd.nrWhy <<< 24 +
    (match nd.trap with | some t => causeCode t.cause | none => 0) <<< 26 +
    (match nd.trap with | some t => t.logical | none => 0xFF) <<< 32

/-- The first trap record, or zeros, to the 32 bytes after the status word (R226). -/
def writeTrap (s : State) (b : Nat) (nd : NodeS) : State :=
  if nd.status = 0 then s
  else bcpWrite s b (nd.status + 8) (match nd.trap with | some t => trapBytes t | none => List.replicate 32 0)

/-- The record, and then the status word (R125, R226). -/
def writeStatus (s : State) (b : Nat) (nd : NodeS) : State :=
  if nd.status = 0 then s
  else bcpWrite (writeTrap s b nd) b nd.status (leBytes 8 (statusWord nd))

/-- NODE (R94, R95): to the launching queue's virtual function; a node of the schedule table notifies queue 0 of
the partition's first bulkhead (log entry 47), and a full buffer is waited for (log entry 60). -/
def nodeNotif (s : State) (id : NodeId) (nd : NodeS) : State :=
  let (b, q) := match nd.q with | some q => (id.1, q) | none => (nd.part, 0)
  let x := queueOf s b q
  pushLate s x.vf
    { kind := 6, cause := (match nd.trap with | some t => causeCode t.cause | none => 0), q := queueNum s b q,
      level := nd.level, seq := nd.seq, cookie := nd.cookie, offset := nd.offset, disc := 0,
      time := BitVec.ofNat 64 (nsTime s), tail := BitVec.ofNat 256 nd.wcb, qp := x.nqp }

-- Releasing arrays and staged lines (R70, R140, R223)

/-- The lines pinned for the landings of an array are free of them (R70, R166). -/
def unpinLandings (s : State) (p : Nat) : State :=
  let a := arrOf s p
  (a.land.flatMap (fun x => x.2.pas) ++ a.landIn.filterMap (fun x => x.pin)).foldl l2Unpin s

/-- An array of a node is released without save (R140): what it still had under way ends with its run. -/
def releaseOne (s : State) (p : Nat) : State := modArr (unpinLandings s p) p bareArray

/-- Every array of a node is released. -/
def releaseAll (s : State) (id : NodeId) : State := (nodeArrs s id).foldl releaseOne s

/-- A staged write of a node on its way to its slice or to the window bridge. -/
def stagedMsg (id : NodeId) : NetMsg → Bool
  | .slice _ _ r => r.stage && r.node = some id
  | .win r => r.stage && r.node = some id
  | _ => false

/-- The egress cache of an array without the lines that a node staged (R140). -/
def dropStagedEg (id : NodeId) (a : ArrayS) : ArrayS :=
  let keep (e : Nat × EgLine) : Bool := !(e.2.stage && e.2.node = some id)
  let eg := a.eg.filter keep
  { a with
    eg := eg
    fifo := a.fifo.filter (fun f => match f with | .line k => (tabFind eg k).isSome | .marker _ => true)
    drained := a.drained.filter keep }

/-- Every staged line tagged with the node, and every staged write on its way, goes without write-back
(R140). -/
def discardStaged (s : State) (id : NodeId) : State :=
  let keepP (p : Packet) : Bool := !stagedMsg id p.msg
  { s with
    arrs := s.arrs.map (fun (x : Nat × ArrayS) => (x.1, dropStagedEg id x.2))
    hub := { s.hub with bridge := s.hub.bridge.filter (fun r => !(r.stage && r.node = some id)) }
    slices := s.slices.map (fun (x : Nat × SliceS) =>
      (x.1, { x.2 with lines := x.2.lines.filter (fun y => y.stage ≠ some id)
                       reqs := x.2.reqs.filter (fun r => !(r.stage && r.node = some id)) }))
    routers := s.routers.map (fun (x : Nat × RouterS) =>
      (x.1, { x.2 with ring := x.2.ring.map (fun (q : Nat × List Packet) => (q.1, q.2.filter keepP))
                       enter := x.2.enter.map (fun (q : Nat × List Packet) => (q.1, q.2.filter keepP)) })) }

/-- The node's staged lines become ordinary dirty lines (R223). -/
def commitStaged (s : State) (id : NodeId) : State :=
  let free (y : L2Line) : L2Line := if y.stage = some id then { y with stage := none } else y
  { s with slices := s.slices.map (fun (x : Nat × SliceS) => (x.1, { x.2 with lines := x.2.lines.map free })) }

-- The ends of a node (R125, R139 to R141)

/-- A node enters FAILED: staged lines discarded, arrays released, status, NODE (R125, R141); a node of an MPASS
packet has its add still to perform, since the step ends with an error (R106, R114). -/
def failNode (s : State) (id : NodeId) : State :=
  match nodeOf s id with
  | none => s
  | some nd =>
    if nodeOver nd then s
    else
      let s := releaseAll (discardStaged s id) id
      let nd := { nd with st := .failed, staged := 0, asked := [], saved := []
                          addDue := nd.steps.isSome && nd.sem.isSome }
      let s := setNode s id nd
      let s := writeStatus s id.1 nd
      dropCopies (nodeNotif s id nd) id.1

/-- Escalation to the node's fault domain (R141). -/
def escalate (s : State) (id : NodeId) (nd : NodeS) : State :=
  let below (x : NodeId × NodeS) : Bool :=
    match nd.fdom with
    | 1 => x.2.chain.contains nd.graph
    | 2 => x.2.chain.contains nd.kdom
    | _ => x.1 = id
  ((partNodes s nd.part).filter below).foldl (fun s x => failNode s x.1) s

/-- An axolotl re-queue (R140): the node passes through REQUEUED. -/
def requeue (s : State) (id : NodeId) (nd : NodeS) : State :=
  setNode (releaseAll (discardStaged s id) id) id
    { nd with st := .requeued, requeues := nd.requeues + 1, staged := 0, asked := [], saved := [], group := []
              logs := nd.logs.map (fun (l : Nat × LogS) => (l.1, { l.2 with st := .unplaced })) }

/-- A pre-emption that was asked of a node is off: a trap is handled first, and the node is not saved (R135). -/
def callOff (s : State) (id : NodeId) : State :=
  (nodeArrs s id).foldl (fun s p => modArr s p (fun a => { a with preReq := false, boundary := false }))
    (modNode s id (fun nd => { nd with asked := [], switch := none }))

/-- REQUEUE_COMPLETE (R124, R140): REQUEUED to READY, from the beginning of the image. -/
def execRequeueComplete (s : State) : Host.Outcome State Fault Refusal :=
  .next (
    let id := (s.cur.bh, s.cur.node)
    match nodeOf s id with
    | some nd => if nd.st = .requeued then setNode s id { nd with st := .ready, readyAt := s.now } else s
    | none => s)

/-- A node is killed under FPMODE 0 (R139). -/
def killNode (s : State) (id : NodeId) (nd : NodeS) (c : Cause) : State :=
  if transient c && nd.replay && nd.requeues < nd.rqLimit then requeue s id nd else escalate s id nd

/-- The arrays of a node that are not held with `ms` are to be held with EXTKILL (R224, R227). -/
def holdOthers (s : State) (id : NodeId) (ms : List Nat) (l : Nat) : State :=
  { s with arrs := s.arrs.map (fun (x : Nat × ArrayS) =>
      if x.2.node = some id && !ms.contains x.1 && (x.2.cond = .running || x.2.cond = .halting) then
        (x.1, noteAsync x.2 .extkill (BitVec.ofNat 64 l) 0x3FFF)
      else x) }

/-- What a trap of a clock domain does to its node (R139, R142, R224, R226). `ms` are the domain's arrays. -/
def nodeTrapped (s : State) (ms : List Nat) (t : TrapRec) : State :=
  match ms with
  | [] => s
  | p :: _ =>
    match (arrOf s p).node with
    | none => s
    | some id =>
      match nodeOf s id with
      | none => s
      | some nd =>
        if t.cause = .extkill || nodeOver nd || nd.st = .draining 2 then s
        else
          let nd := { nd with trap := if nd.trap.isSome then nd.trap else some t, asked := [], switch := none }
          let s := callOff (setNode s id nd) id
          if nd.fpmode then
            let s := holdOthers (setNode s id { nd with st := .draining 2 }) id ms t.logical
            nodeNotif (writeTrap s id.1 nd) id nd
          else killNode s id nd t.cause

/-- A failed check of the load is a program-class trap of the first used logical array, and escalates whatever
FPMODE says; a poisoned image is a trap of its own class (R139, R250; log entry 48). A node that is only PLACED
is not re-queued (R124). -/
def loadFailed (s : State) (id : NodeId) (nd : NodeS) (f : LoadFault) : State :=
  let t : TrapRec :=
    { cause := f.cause, logical := (nd.logs.map (fun l => l.1)).headD 0, perf := 0, slot := 0xF, member := 0
      pc := f.pc, tt := 0, detail := BitVec.ofNat 64 f.detail, region := f.region, row := 0, col := 0
      valid := false }
  let nd := { nd with trap := if nd.trap.isSome then nd.trap else some t }
  let s := setNode s id nd
  if f.cause = .poison && nd.st ≠ .placed then killNode s id nd f.cause else escalate s id nd

/-- VERDICT_READ (R142): the verdict semaphore is read and zeroed, and the verdict acted on. A node whose save program had
trapped goes on with its save under verdict 4 (R137). -/
def execVerdictRead (s : State) : Host.Outcome State Fault Refusal :=
  .next (
    let id := (s.cur.bh, s.cur.node)
    match nodeOf s id with
    | none => s
    | some nd =>
      let v := semGet s nd.part nd.vsem
      if nd.st ≠ .draining 2 || v = 0 then s
      else
        let s := semPut s nd.part nd.vsem 0
        let arrays := nodeArrs s id
        let resumable := arrays.all (fun p => !(arrOf s p).stepTrap)
        if v = 1 && nd.replay then requeue s id nd
        else if v = 3 then escalate s id nd
        else if v = 4 && resumable then
          arrays.foldl (fun s p =>
            modArr s p (fun a =>
              let a := { a with async := a.async.filter (fun f => f.cause ≠ .extkill) }
              if a.cond = .preempted then { a with cond := .running } else resumeTrap a))
            (setNode s id { nd with
              st := if arrays.any (fun p => (arrOf s p).svrun = 1) then .draining 1 else .running })
        else failNode s id)

/-- WATCHDOG_EXPIRY (R136): the array has not reached its boundary in time. -/
def execWatchdogExpiry (s : State) : Host.Outcome State Fault Refusal :=
  .next (onArr s (fun a =>
    if a.preReq && a.preLeft = 0 then noteAsync { a with preReq := false } .watchdog 0 0x3FFF else a))

/-- Nothing that a node wrote is left in an egress cache of its partition, or on its way from one (R114, R214). -/
def nodeDrained (s : State) (id : NodeId) (nd : NodeS) : Bool :=
  (partArrs s nd.part).all (fun p =>
    let a := arrOf s p
    a.eg.all (fun e => e.2.node ≠ some id) && a.drained.all (fun e => e.2.node ≠ some id))

/-- NODE_DONE (R106, R114, R125): once the copies and collectives of its arrays have ended and its lines have drained,
staged writes are committed, the status word written and the completion add performed. A step that has failed performs its
add once its lines have drained. -/
def execNodeDone (s : State) : Host.Outcome State Fault Refusal :=
  .next (
    let id := (s.cur.bh, s.cur.node)
    match nodeOf s id with
    | none => s
    | some nd =>
      let clear (p : Nat) : Bool :=
        let a := arrOf s p
        a.node ≠ some id || (a.chans.isEmpty && a.colls = 0 && a.eg.isEmpty && a.drained.isEmpty)
      if nd.addDue then
        if nodeDrained s id nd then semDone (setNode s id { nd with addDue := false }) id.1 nd.part nd.sem else s
      else if nd.st ≠ .draining 0 || !(nd.logs.all (fun l => clear l.2.phys)) || !nodeDrained s id nd then s
      else
        let s := releaseAll (commitStaged s id) id
        let nd := { nd with st := .done, staged := 0, saved := [] }
        let s := setNode s id nd
        dropCopies (semDone (writeStatus s id.1 nd) id.1 nd.part nd.sem) id.1)

-- The end of HALT (R124, R145, R166, R229, R288, R314)

/-- No C slot is left in the pipe. -/
def pipeEmpty (a : ArrayS) : Bool := a.pipe.all (fun x => x.isNone) && a.inq.all (fun x => x.isNone)

/-- The arrays of a clock domain: those that have the same leader for the same node (R145, R157). -/
def domainArrs (s : State) (p : Nat) : List Nat :=
  let a := arrOf s p
  if a.chlen = 0 then [p]
  else (s.arrs.filter (fun x => x.2.node = a.node && x.2.leader = a.leader && x.2.chlen ≠ 0)).map (fun x => x.1)

/-- A logical array has ended: its node's map says so, and with the last one the node drains (R124). -/
def endLogical (s : State) (p : Nat) : State :=
  let a := arrOf s p
  match a.node with
  | none => s
  | some id =>
    modNode s id (fun nd =>
      let nd := setLog { nd with asked := nd.asked.filter (fun x => x ≠ p) } a.logical
        (fun l => { l with st := .halted })
      if nd.logs.all (fun l => l.2.st = .halted) then { nd with st := .draining 0 } else nd)

/-- A restore program has ended: the array resumes the state that was captured (R138, R314). -/
def endRestore (s : State) (p : Nat) : State :=
  let a := arrOf s p
  match capturedOf s a with
  | some (_, _, c) => setArr s p (resumeOn a (restoreMix c a))
  | none => s

/-- What becomes of the landings at HALT (R166): one whose arrival cycle is not beyond the HALT's TT, the issue
cycle before the present one, is written to its end; the others are discarded. -/
def endLandings (a : ArrayS) : ArrayS :=
  a.land.foldl (fun (a : ArrayS) (x : Nat × LandS) =>
    if x.2.due < a.tt then
      (List.range (landPieces x.2)).foldl (fun (a : ArrayS) i =>
        if i < x.2.done || !pieceHere x.2 i then a else landPut a x.2 i) a
    else a) a

/-- HALT_COMPLETE (R288): once the last C slot has left row 63 the signatures are compared; a mismatch traps
with the HALT slot unperformed, else the logical array ends, or the save or restore program that ran on it.
Landings end as `endLandings` says (R166). -/
def execHaltComplete (s : State) : Host.Outcome State Fault Refusal :=
  .next (
    let p := s.cur.phys
    let a := arrOf s p
    if a.cond ≠ .halting || !pipeEmpty a then s
    else if a.sigi ≠ a.sigs then
      let f : FaultE := { cause := .wavesig, slot := 0, detail := 0 }
      let h : HeldS := a.held.getD { bits := 0, word := 0, pc := a.pc, tt := a.tt, perf := a.perf, rows := [] }
      let b := takeTrap { a with
        faults := [f], cur := h.bits, word := h.word, pc := h.pc, tt := h.tt, perf := setBit h.perf 0 false }
      setArr s p { b with pc := a.pc, tt := a.tt }
    else
      (domainArrs s p).foldl (fun s q =>
        let s := modArr (unpinLandings s q) q endLandings
        let s := modArr s q (fun a =>
          { a with cond := .halted, land := [], landIn := [], fly := [], preReq := false })
        match (arrOf s q).svrun with
        | 0 => endLogical s q
        | 1 => s
        | _ => endRestore s q) s)

end Sys2Proof.Machine
end

