-- ==== Sys2Proof/Machine/Sched.lean ====
section
/-! DEFINITION. Placement, start on time, budgets, pre-emption and the schedule table (R126 to R138). -/
namespace Sys2Proof.Machine
open Sys2Proof

-- Priority (R132, R133)

/-- The effective priority of a node (R132). -/
def effPrio (nd : NodeS) : Nat := if nd.demoted then 0 else nd.prio

/-- The queue number a tie goes by; table entries come after queues (R133). -/
def nodeQueue (s : State) (x : NodeId × NodeS) : Nat :=
  match x.2.q with | some q => queueNum s x.1.1 q | none => 256

/-- One node comes before another in the order of placement (R133). -/
def nodeBefore (s : State) (x y : NodeId × NodeS) : Bool :=
  let key (z : NodeId × NodeS) : List Nat :=
    [15 - min 15 (effPrio z.2), z.2.readyAt, nodeQueue s z, z.2.offset, z.1.2]
  let rec le : List Nat → List Nat → Bool
    | a :: r, b :: t => decide (a < b) || (a = b && le r t)
    | _, _ => true
  le (key x) (key y)

/-- The quantum in ac (R128). -/
def quantum (s : State) (p : Nat) : Nat := max 1 (partOf s p).quant * 65536

-- Which arrays a gang takes (R130, R131, R157)

/-- A logical array that an array held has executed HALT: it no longer holds it (R130, R131). -/
def logicalOver (a : ArrayS) : Bool := a.cond = .halted && a.svrun = 0

/-- A physical array is free: nothing holds it, or what it held has halted and its copies and collectives are
over, and its egress cache has drained (R114, R130, R288; log entry 49). -/
def arrFree (s : State) (p : Nat) : Bool :=
  let a := arrOf s p
  (bhOf s (bhOfArr p)).st = .assigned && a.eg.isEmpty && a.drained.isEmpty &&
    (a.node.isNone || (logicalOver a && a.chans.isEmpty && a.colls = 0))

/-- The arrays that a chain link leads to, lowest first, with the link's kind: true for 8 ac (R157). -/
def chainNext (p : Nat) : List (Nat × Bool) :=
  let b := p / 6
  if p % 6 < 5 then [(p + 1, false)]
  else
    let flat := if b % 4 ≠ 3 then [(6 * (b + 1), false)] else []
    let die (e : Nat) : List (Nat × Bool) := [(6 * (4 * e + b % 4), true)]
    sortBy (fun x y => decide (x.1 ≤ y.1)) (flat ++ die (Nat.xor (b / 4) 1) ++ die (Nat.xor (b / 4) 2))

/-- The paths of `n` more arrays below an array among those free, lowest first, each array without those above
it. -/
def chainPaths (free : List Nat) : Nat → Nat → List (List (Nat × Bool))
  | 0, _ => [[]]
  | n + 1, p =>
    ((chainNext p).filter (fun x => free.contains x.1)).flatMap (fun x =>
      (chainPaths (free.filter (· ≠ x.1)) n x.1).map (fun r => x :: r))

/-- The chains of `len` + 1 arrays among those free, lowest first. Each is a list of arrays with the link
above. -/
def chainsOf (len : Nat) (free : List Nat) : List (List (Nat × Bool)) :=
  free.flatMap (fun p => (chainPaths (free.filter (· ≠ p)) len p).map (fun r => (p, false) :: r))

/-- The arrays that a chain leaves. -/
def afterChain (ch : List (Nat × Bool)) (free : List Nat) : List Nat :=
  free.filter (fun p => !ch.any (fun x => x.1 = p))

/-- `k` chains with the lowest physical numbers that the free arrays allow, or none (R130). -/
def fitChains (len : Nat) : Nat → List Nat → Option (List (List (Nat × Bool)))
  | 0, _ => some []
  | k + 1, free =>
    if free.length < (k + 1) * (len + 1) then none
    else (chainsOf len free).findSome? (fun ch => (fitChains len k (afterChain ch free)).map (fun r => ch :: r))

/-- As many chains as there are, each the lowest that is left: what a gang that cannot be placed claims (R130). -/
def someChains (len : Nat) : Nat → List Nat → List (List (Nat × Bool))
  | 0, _ => []
  | k + 1, free =>
    match (chainsOf len free).head? with
    | none => []
    | some ch => ch :: someChains len k (afterChain ch free)

/-- The members of a gang that are still to run: not halted and not in place. -/
def gangTodo (nd : NodeS) (g : Gang) : List Nat :=
  ((List.range g.count).map (fun i => g.first + i)).filter (fun l =>
    let st := (tabGet nd.logs {} l).st
    st = .unplaced || st = .saved)

/-- A gang is time-sliced: more members than the partition has arrays (R131). -/
def sliced (s : State) (p : Nat) (g : Gang) : Bool := 6 * partSize s p < g.count

/-- The group that a member of a time-sliced gang belongs to (R131). -/
def groupOf (s : State) (p : Nat) (g : Gang) (l : Nat) : Nat := (l - g.first) / (6 * partSize s p)

/-- The group of a time-sliced gang whose turn it is: the first with members left, from the gang's `group` on and round
(R131). -/
def groupMembers (s : State) (nd : NodeS) (g : Gang) : List Nat :=
  let n := 6 * partSize s nd.part
  let k := (g.count + n - 1) / n
  let of (i : Nat) : List Nat := (gangTodo nd g).filter (fun l => groupOf s nd.part g l = i)
  (((List.range k).map (fun i => of ((tabGet nd.group 0 g.first + i) % k))).find? (fun l => !l.isEmpty)).getD []

/-- A gang has members in place or running. -/
def gangBusy (nd : NodeS) (g : Gang) : Bool :=
  (nodePhys nd).any (fun x => decide (g.first ≤ x.1) && decide (x.1 < g.first + g.count))

/-- The members that a gang would place next, all of it or the group whose turn it is; none while a group of it is
in place (R130, R131). -/
def unitOf (s : State) (nd : NodeS) (g : Gang) : List Nat :=
  if sliced s nd.part g then if gangBusy nd g then [] else groupMembers s nd g else gangTodo nd g

/-- What a node would place next: the gang and the members (R130, R131). -/
def nextUnit (s : State) (nd : NodeS) : Option (Gang × List Nat) :=
  nd.gangs.findSome? (fun g => match unitOf s nd g with | [] => none | l => some (g, l))

/-- The chains of a unit. -/
def unitChains (g : Gang) (members : List Nat) : Nat := members.length / (g.chain + 1)

/-- The arrays for a unit among those free, chain by chain, where it fits whole (R130). -/
def pickUnit (g : Gang) (members : List Nat) (free : List Nat) : Option (List (List (Nat × Bool))) :=
  fitChains g.chain (unitChains g members) free

/-- The arrays that a unit that does not fit claims (R130). -/
def unitClaims (g : Gang) (members : List Nat) (free : List Nat) : List Nat :=
  (someChains g.chain (unitChains g members) free).flatten.map (fun x => x.1)

/-- The chain fields of the arrays of one chain (R157, R158): leader, position, length, lower neighbour, kind of
the link above, delay behind the leader. -/
def linkChain (s : State) (ch : List (Nat × Bool)) : State :=
  let leader := (ch.headD (0, false)).1
  ch.zipIdx.foldl (fun s xi =>
    let (x, i) := xi
    let g := ((ch.take (i + 1)).filter (fun y => y.2)).length
    modArr s x.1 (fun a =>
      { a with leader := leader, chpos := i, chlen := ch.length - 1, lower := (ch[i + 1]?).map (fun y => y.1)
               slow := x.2, delay := 64 * i + 8 * g })) s

/-- The collectives that a captured run of an array started belong to the array and run that take it up (R138,
R312). -/
def moveColls (s : State) (p ep q eq : Nat) : State :=
  let f (c : Nat × CollS) : Nat × CollS := if c.2.arr = some (p, ep) then (c.1, { c.2 with arr := some (q, eq) }) else c
  { s with bhs := s.bhs.map (fun b => (b.1, { b.2 with colls := b.2.colls.map f })) }

/-- Put a logical array of a node on an array; what it had saved is of that array's run from now on (R130, R138). A request
that is on its way to every array of the node reaches this one too (R135). -/
def placeLogical (s : State) (id : NodeId) (l q : Nat) : State :=
  match nodeOf s id with
  | none => s
  | some nd =>
    let lg := tabGet nd.logs {} l
    let s := modArr s q (fun a => placedArray a id nd l lg.tick)
    let nd := { setLog nd l (fun g => { g with st := .placed, phys := q }) with
      asked := if nd.asked.isEmpty || nd.switch.isSome then nd.asked else nd.asked ++ [q] }
    match tabFind nd.saved l with
    | none => setNode s id nd
    | some c =>
      let eq := (arrOf s q).epoch
      setNode (moveColls s lg.phys c.epoch q eq) id
        { nd with saved := tabSet nd.saved l { c with epoch := eq } }

/-- Put the members of a unit on their arrays (R130). -/
def placeUnit (s : State) (id : NodeId) (members : List Nat) (chs : List (List (Nat × Bool))) : State :=
  (members.zip chs.flatten).foldl (fun s lx => placeLogical s id lx.1 lx.2.1) (chs.foldl linkChain s)

/-- The arrays that a node may take now: free, and not claimed by a node of higher priority. -/
def openArrs (s : State) (p : Nat) (taken : List Nat) : List Nat :=
  (partArrs s p).filter (fun q => arrFree s q && !taken.contains q)

/-- A unit of a node has been placed (R124, R131). -/
def unitPlaced (s : State) (id : NodeId) (g : Gang) (l : List Nat) : State :=
  modNode s id (fun nd =>
    let nd := if sliced s nd.part g then { nd with group := tabSet nd.group g.first (groupOf s nd.part g (l.headD 0)) }
      else nd
    if nd.st = .ready then { nd with st := .placed, placedAt := s.now } else nd)

/-- Place the gangs of a node that fit now, in order; one that does not fit holds back those after it, but a time-sliced one
does not, nor do its claims bar them. Answers the arrays that the units left over claim (R130, R131). -/
def placeNode (s : State) (id : NodeId) (taken : List Nat) : List Gang → State × List Nat
  | [] => (s, [])
  | g :: gs =>
    match nodeOf s id with
    | none => (s, [])
    | some nd =>
      match unitOf s nd g with
      | [] => placeNode s id taken gs
      | l =>
        let free := openArrs s nd.part taken
        match pickUnit g l free with
        | some chs => placeNode (unitPlaced (placeUnit s id l chs) id g l) id taken gs
        | none =>
          let cl := unitClaims g l free
          if sliced s nd.part g then
            let (s, r) := placeNode s id taken gs
            (s, cl ++ r)
          else (s, cl)

-- Pre-emption (R133, R135)

/-- Arrays that a pre-emption already decided will give back. -/
def comingFree (s : State) (p : Nat) : List Nat :=
  (partArrs s p).filter (fun q =>
    match (arrOf s q).node.bind (nodeOf s) with
    | some nd => !nd.asked.isEmpty || nd.st = .draining 1
    | none => false)

/-- Nodes that may be pre-empted for a READY node of priority q: lowest priority first, then those placed last
(R133). -/
def victims (s : State) (p q : Nat) : List (NodeId × NodeS) :=
  sortBy (fun x y => decide (effPrio x.2 < effPrio y.2) ||
      (effPrio x.2 = effPrio y.2 && decide (y.2.placedAt ≤ x.2.placedAt)))
    ((partNodes s p).filter (fun x =>
      x.2.st = .running && 0 < x.2.ival && x.2.asked.isEmpty &&
        (effPrio x.2 < q || (effPrio x.2 = q && x.2.placedAt + quantum s p ≤ s.now))))

/-- Physical numbers in ascending order. -/
def sortNats (l : List Nat) : List Nat := sortBy (fun a b => decide (a ≤ b)) l

/-- The fewest victims, in order, whose arrays with those free place a unit; none unless they suffice. DESIGN CHOICE (log
entry 142): the spec does not say whether a victim is spared whose arrays turn out not to be needed; the victims are the
shortest prefix of the order that suffices. -/
def choose (g : Gang) (l free : List Nat) : List (NodeId × NodeS) → Option (List (NodeId × NodeS))
  | [] => none
  | v :: r =>
    let free := sortNats (free ++ (nodePhys v.2).map (fun x => x.2))
    if (pickUnit g l free).isSome then some [v] else (choose g l free r).map (fun t => v :: t)

/-- The BCP decides that arrays of a node stop at their next switchable boundary, all of them or at the quantum of a gang
its group; the request reaches them 4 ac later (R131, R135). -/
def askNode (s : State) (id : NodeId) (sw : Option Nat) (arrs : List Nat) : State :=
  modNode s id (fun nd => { nd with asked := arrs, askAt := s.now, switch := sw })

/-- The arrays that hold logical arrays of a node that have not executed HALT. -/
def liveArrs (s : State) (id : NodeId) : List Nat :=
  (nodeArrs s id).filter (fun p => (arrOf s p).cond = .running || (arrOf s p).cond = .placed)

/-- Decide pre-emption for a READY node that cannot be placed (R133). `kept` are the arrays on their way back that
nodes before it wait for; answers the same with those that this node waits for. -/
def preemptFor (s : State) (x : NodeId × NodeS) (free kept : List Nat) : State × List Nat :=
  match nextUnit s x.2 with
  | none => (s, kept)
  | some (g, l) =>
    let soon := sortNats (free ++ (comingFree s x.2.part).filter (fun p => !kept.contains p))
    let keep (chs : List (List (Nat × Bool))) : List Nat :=
      kept ++ (chs.flatten.map (fun y => y.1)).filter (fun p => !free.contains p)
    match pickUnit g l soon with
    | some chs => (s, keep chs)
    | none =>
      match choose g l soon (victims s x.2.part (effPrio x.2)) with
      | none => (s, kept)
      | some vs =>
        let all := sortNats (soon ++ vs.flatMap (fun v => (nodePhys v.2).map (fun y => y.2)))
        (vs.foldl (fun s v => askNode s v.1 none (liveArrs s v.1)) s, keep ((pickUnit g l all).getD []))

/-- NODE_PLACEMENT (R130, R133): the nodes of a partition in order; what cannot be placed claims arrays and
may cause pre-emption. -/
def execNodePlacement (s : State) : Host.Outcome State Fault Refusal :=
  .next (
    let p := s.cur.part
    let order := sortBy (nodeBefore s)
      ((partNodes s p).filter (fun x => x.2.st = .ready || x.2.st = .placed || x.2.st = .running))
    (order.foldl (fun (acc : State × List (Nat × Nat) × List Nat) x =>
      let (s, claims, kept) := acc
      match nodeOf s x.1 with
      | none => acc
      | some nd =>
        let taken := (claims.filter (fun c => effPrio nd < c.1)).map (fun c => c.2)
        let (s, cl) := placeNode s x.1 taken nd.gangs
        let claims := claims ++ cl.map (fun q => (effPrio nd, q))
        match nodeOf s x.1 with
        | some n2 =>
          if n2.st = .ready then
            let (s, kept) := preemptFor s (x.1, n2) (openArrs s p taken) kept
            (s, claims, kept)
          else (s, claims, kept)
        | none => (s, claims, kept)) (s, [], [])).1)

/-- An array that has not started is given back with those that are saved: it has nothing to save (R135; log entry
62). -/
def giveBack (s : State) (id : NodeId) (p : Nat) : State :=
  let l := (arrOf s p).logical
  modArr (modNode s id (fun nd =>
    setLog nd l (fun g => { g with st := if (tabFind nd.saved l).isSome then .saved else .unplaced }))) p bareArray

/-- PREEMPTION_REQUEST (R135, R136): the request reaches an array, and its watchdog starts; one that has not started
starts no more, and is given back when the node has been saved. -/
def execPreemptionRequest (s : State) : Host.Outcome State Fault Refusal :=
  .next (
    let p := s.cur.phys
    let a := arrOf s p
    match a.node with
    | none => s
    | some id =>
      match nodeOf s id with
      | none => s
      | some nd =>
        if nd.asked.contains p && a.cond = .placed then
          setNode s id { nd with asked := nd.asked.filter (fun x => x ≠ p)
                                 st := if nd.st = .running then .draining 1 else nd.st }
        else if nd.asked.contains p && a.cond = .running then
          setArr s p { a with preReq := true, preLeft := 2 * nd.ival }
        else s)

/-- SWITCHABLE_BOUNDARY_REACHED (R135): the closing bundle of a switchable iteration has issued while a request
is held; fetch stops. In the next ac the pipes still move, and the ac after it the shed bank captures them. -/
def execSwitchableBoundaryReached (s : State) : Host.Outcome State Fault Refusal :=
  .next (
    let p := s.cur.phys
    let a := arrOf s p
    if !a.preReq || !a.boundary || a.cond ≠ .running then s
    else
      (domainArrs s p).foldl (fun s q =>
        let s := modArr s q (fun a => { a with cond := .preempted, preReq := false, boundary := false, tbAc := 0 })
        match (arrOf s q).node with
        | none => s
        | some id =>
          modNode s id (fun nd =>
            { nd with asked := nd.asked.filter (fun x => x ≠ q)
                      st := if nd.st = .running then .draining 1 else nd.st })) s)

/-- The arrays of a node that have stopped at a boundary. -/
def stoppedArrs (s : State) (id : NodeId) : List Nat :=
  (nodeArrs s id).filter (fun p => (arrOf s p).cond = .preempted)

/-- The shed bank has captured, and what goes on after the boundary has ended at an array (R135): landings, copies, and
the flush of its dirty lines that are not staged. -/
def settled (s : State) (p : Nat) : Bool :=
  let a := arrOf s p
  2 ≤ a.tbAc && a.landIn.isEmpty && a.land.all (fun l => (List.range ((l.2.bytes + 63) / 64)).all (fun i =>
    (tabFind l.2.lines i).isSome)) && a.mpe.all (fun m => m.featOv.isEmpty && m.recOv.isEmpty) && a.chans.isEmpty && a.asy.isEmpty && a.drained.all (fun e => e.2.stage) && a.pend.isEmpty && a.sc.isEmpty &&
    !a.scWait && a.sems.isEmpty && a.eg.all (fun e => e.2.stage)

/-- What is captured of an array: all of it, but that its landings, complete in their buffer, pin no line any more
(R70, R135). -/
def captured (a : ArrayS) : ArrayS :=
  { a with land := a.land.map (fun (x : Nat × LandS) => (x.1, { x.2 with pas := [] })) }

/-- NODE_SAVE_START (R135, R137): the state of every stopped array is captured; with SVMODE 1 the save entry
program starts on it. -/
def execNodeSaveStart (s : State) : Host.Outcome State Fault Refusal :=
  .next (
    let id := (s.cur.bh, s.cur.node)
    match nodeOf s id with
    | none => s
    | some nd =>
      let ps := stoppedArrs s id
      if nd.st ≠ .draining 1 || !nd.asked.isEmpty || ps.isEmpty || !ps.all (settled s) then s
      else
        let saved := ps.foldl (fun t p => tabSet t (arrOf s p).logical (captured (arrOf s p))) nd.saved
        let s := setNode { s with fresh := s.fresh + 1 } id { nd with saved := saved, capId := s.fresh }
        let (s, im) := if nd.svmode then readImage s id.1 nd else (s, .ok [])
        ps.foldl (fun s p =>
          modArr s p (fun a =>
            if nd.svmode then
              match im with
              | .ok bs => saveRun a (imageHead bs).svPc
              | .error _ => { a with cond := .capturing }
            else { a with cond := .capturing })) s)

/-- An array of a saving node has been saved. -/
def savedArr (a : ArrayS) : Bool := a.cond = .capturing || (a.cond = .halted && a.svrun = 1)

/-- NODE_SAVE_COMPLETE (R124, R137): once every array is saved, or has executed HALT or not started, the save images
are written under SVMODE 0, the arrays are given back and the node is READY. -/
def execNodeSaveComplete (s : State) : Host.Outcome State Fault Refusal :=
  .next (
    let id := (s.cur.bh, s.cur.node)
    match nodeOf s id with
    | none => s
    | some nd =>
      let ps := (nodeArrs s id).filter (fun p => savedArr (arrOf s p))
      let waiting := (nodeArrs s id).filter (fun p => (arrOf s p).cond = .placed)
      let rest := (nodeArrs s id).any (fun p =>
        let a := arrOf s p
        !savedArr a && a.cond ≠ .placed && !logicalOver a)
      if nd.st ≠ .draining 1 || rest || !nd.asked.isEmpty then s
      else
        let s := if nd.svmode then s
          else ps.foldl (fun s p =>
            let l := (arrOf s p).logical
            bcpWrite s id.1 (nd.save + 0xB00000 * l) (saveBytes (tabGet nd.saved {} l) nd.capId)) s
        let nd := ps.foldl (fun nd p =>
          setLog nd (arrOf s p).logical (fun l => { l with st := .saved, tick := none })) nd
        let s := setNode (ps.foldl releaseOne s) id
          { nd with st := .ready, preempts := min 255 (nd.preempts + 1), readyAt := s.now, switch := none
                    group := match nd.switch with | some f => tabMod nd.group 0 f (· + 1) | none => nd.group }
        waiting.foldl (fun s p => giveBack s id p) s)

-- Starting (R124, R128, R138, R201, R250)

/-- The state that a logical array starts with on an array: the image's, or what was saved (R138, R250). -/
def startState (s : State) (id : NodeId) (nd : NodeS) (p : Nat) (bs pb : List Byte) : State :=
  let a := loadArray (arrOf s p) bs pb
  match tabFind nd.saved a.logical with
  | none => setArr s p a
  | some c =>
    if nd.svmode then setArr s p { a with pc := (imageHead bs).rsPc, svrun := 2 }
    else
      let (s, r) := bcpRead s id.1 (nd.save + 0xB00000 * a.logical) 0xB00000
      let im := match r with | .ok v => v.bytes | .error _ => saveBytes c nd.capId
      setArr s p { resumeOn a (restoreFrom c nd.capId im) with cond := .placed }

/-- An array of an MPASS node that starts afresh asks for the records of its step's first blocks (R201, R204). -/
def stepAhead (s : State) (nd : NodeS) (p : Nat) : State :=
  match nd.steps with
  | none => s
  | some t =>
    if (tabFind nd.saved (arrOf s p).logical).isSome then s
    else mpeAhead s p (mpeOf (tabGet t 0 (arrOf s p).logical) 0 true)

/-- NODE_START (R124, R250): the image and the parameters are loaded onto every array placed and not yet
loaded, and saved state restored; arrays without a tick can start at once. -/
def execNodeStart (s : State) : Host.Outcome State Fault Refusal :=
  .next (
    let id := (s.cur.bh, s.cur.node)
    match nodeOf s id with
    | none => s
    | some nd =>
      let todo := nd.logs.filter (fun l => l.2.st = .placed)
      if (nd.st ≠ .placed && nd.st ≠ .running) || todo.isEmpty then s
      else
        let (s, im) := readImage s id.1 nd
        match im with
        | .error f => loadFailed s id nd f
        | .ok bs =>
          let (s, pr) := bcpRead s id.1 nd.params nd.pbytes
          match needBytes pr with
          | .error c => loadFailed s id nd { cause := c }
          | .ok pb =>
            let s := todo.foldl (fun s l => stepAhead (startState s id nd l.2.phys bs pb) nd l.2.phys) s
            modNode s id (fun nd =>
              todo.foldl (fun nd l => setLog nd l.1 (fun x => { x with st := .started })) nd))

/-- The arrays that hold members of a gang of a node that have not executed HALT. -/
def gangArrs (s : State) (id : NodeId) (g : Gang) : List Nat :=
  (liveArrs s id).filter (fun p =>
    let l := (arrOf s p).logical
    decide (g.first ≤ l) && decide (l < g.first + g.count))

/-- The first members of a group of a time-sliced gang to run start its time (R131). -/
def groupStart (s : State) (id : NodeId) (ms : List Nat) : State :=
  let starts (g : Gang) : Bool :=
    let ps := gangArrs s id g
    ms.any ps.contains && ps.all (fun p => (arrOf s p).cond = .placed)
  modNode s id (fun nd =>
    let gs := nd.gangs.filter (fun g => sliced s nd.part g && starts g)
    { nd with groupAt := gs.foldl (fun t g => tabSet t g.first s.now) nd.groupAt })

/-- ARRAY_TICK_START (R124, R128): a loaded array whose tick the counter has reached issues its first bundle in
the next ac, with the members of its chain; an array of an MPASS node starts its step, once the records of its first blocks
have been read (R201). -/
def execArrayTickStart (s : State) : Host.Outcome State Fault Refusal :=
  .next (
    let p := s.cur.phys
    let a := arrOf s p
    match a.node with
    | none => s
    | some id =>
      match nodeOf s id with
      | none => s
      | some nd =>
        let due : Bool := match a.startTick with | some t => decide (t ≤ startNs s) | none => true
        let ready (q : Nat) : Bool := (tabGet nd.logs {} (arrOf s q).logical).st = .started
        let ms := domainArrs s p
        let here (q : Nat) : Bool := (arrOf s q).ahead.all mpeFirst
        if a.cond ≠ .placed || a.chpos ≠ 0 || !due || !ms.all ready || !ms.all here ||
            (nd.st ≠ .placed && nd.st ≠ .running) then s
        else
          let s := groupStart (setNode s id { nd with st := .running }) id ms
          ms.foldl (fun s q =>
            let s := modArr s q (fun a => { a with cond := .running })
            match nd.steps with
            | some t =>
              if (tabFind nd.saved (arrOf s q).logical).isSome then s
              else
                let s := mpeStart s q (mpeOf (tabGet t 0 (arrOf s q).logical) 0 true)
                modArr s q (fun a => { a with jumped := false })
            | none => s) s)

/-- START_TICK_REACHED (R124, R47): a WAITING node whose tick has come or passed is READY. -/
def execStartTickReached (s : State) : Host.Outcome State Fault Refusal :=
  .next (
    let id := (s.cur.bh, s.cur.node)
    match nodeOf s id with
    | none => s
    | some nd =>
      let due : Bool := match nd.tick with | some t => decide (t ≤ startNs s) | none => true
      if nd.st = .waiting && due then setNode s id { nd with st := .ready, readyAt := s.now } else s)

-- Budgets and quanta (R131, R132)

/-- The refill period in ac (R128). -/
def refillPeriod (s : State) (p : Nat) : Nat := max 1 (partOf s p).refill * 2 ^ 20

/-- BUDGET_REFILL (R132): every budget of the partition is full again, and demoted nodes take back their
PRIO. -/
def execBudgetRefill (s : State) : Host.Outcome State Fault Refusal :=
  .next (
    let p := s.cur.part
    let s := modPart s p (fun x => { x with refills := s.now - x.since })
    (partBhs s p).foldl (fun s b =>
      modBh s b (fun x =>
        { x with wcbs := x.wcbs.map (fun (c : Nat × WcbS) => (c.1, { c.2 with left := wF c.2.raw 0x10 8 }))
                 nodes := x.nodes.map (fun (n : Nat × NodeS) => (n.1, { n.2 with demoted := false })) })) s)

/-- BUDGET_EXHAUSTED (R132): the nodes that charge an exhausted budget fall to priority 0. -/
def execBudgetExhausted (s : State) : Host.Outcome State Fault Refusal :=
  .next (modBh s s.cur.bh (fun x =>
    { x with nodes := x.nodes.map (fun (n : Nat × NodeS) =>
        (n.1, { n.2 with demoted := n.2.demoted || budgetOut x n.2 })) }))

/-- The group in place of a time-sliced gang has had its quantum, and members of another group are still to run (R131). -/
def quantumOver (s : State) (id : NodeId) (nd : NodeS) (g : Gang) : Bool :=
  sliced s nd.part g && !(gangTodo nd g).isEmpty && (gangArrs s id g).any (fun p => (arrOf s p).cond = .running) &&
    decide (tabGet nd.groupAt 0 g.first + quantum s nd.part ≤ s.now)

/-- QUANTUM_EXPIRY (R131): the group of a time-sliced gang that has had its quantum is pre-empted, one gang at a time. -/
def execQuantumExpiry (s : State) : Host.Outcome State Fault Refusal :=
  .next (
    let id := (s.cur.bh, s.cur.node)
    match nodeOf s id with
    | none => s
    | some nd =>
      if nd.st ≠ .running || !nd.asked.isEmpty then s
      else
        match nd.gangs.find? (quantumOver s id nd) with
        | some g => askNode s id (some g.first) (gangArrs s id g)
        | none => s)

-- The schedule table (R126, R127)

/-- SCHEDULE_TABLE_ENABLE (R127): TEN goes from 0 to 1, and entries are read in index order. -/
def execScheduleTableEnable (s : State) : Host.Outcome State Fault Refusal :=
  .next (modPart s s.cur.part (fun x =>
    if x.ten then x else { x with ten := true, tblNext := 0, tblPrev := 0, tblNode := [] }))

/-- An entry's fields are in range (R126); the semaphore fields of a later entry of a launched WCB are ignored
(R127). -/
def entryOk (s : State) (p : Nat) (bs : List Byte) (later : Bool) : Bool :=
  let sem := bF bs 0x14 1
  let name : W16 := BitVec.ofNat 16 (bF bs 0x12 2)
  bF bs 0x08 8 % 64 = 0 && 1 ≤ bF bs 0x11 1 && bF bs 0x11 1 ≤ 96 && bF bs 0x15 3 = 0 &&
    (later || (sem ≤ 1 && (sem = 1 || name = 0) && (sem = 0 || semNameOk s p name)))

/-- The bytes of the table entry that is next, from a SHARED-READ region or one of the first bulkhead's command
path (R126); none where they cannot be read. -/
def entryBytes (s : State) (p : Nat) : State × Option (List Byte) :=
  let x := partOf s p
  let va := x.tblBase + 32 * x.tblNext
  let ok := match regionAtVa s p va with
    | some (_, r) => r.kind = 2 || (r.kind = 1 && r.owner = cmdOwner s p)
    | none => false
  if !ok then (s, none)
  else
    let (s, r) := bcpRead s p va 32
    match needBytes r with
    | .ok bs => (s, some bs)
    | .error _ => (s, none)

/-- The next entry has been dealt with. -/
def entryDone (s : State) (p tick : Nat) : State :=
  modPart s p (fun x => { x with tblNext := x.tblNext + 1, tblPrev := tick })

/-- An entry that fails is skipped, and queue 0 of the first bulkhead is told (R127). -/
def entrySkip (s : State) (p tick : Nat) : State :=
  let x := queueOf s p 0
  let n : Notif :=
    { kind := 4, cause := qfDesc, q := 0, level := 0, seq := 0, cookie := 0, offset := (partOf s p).tblNext,
      disc := 0, time := BitVec.ofNat 64 (nsTime s), tail := 0, qp := x.nqp }
  if notifFull s x.vf then s else entryDone (pushNotif s x.vf n) p tick

/-- SCHEDULE_ENTRY_READ (R126, R127): the next entry, once its tick less the look-ahead is reached, or at once
where its tick is not above the one before. -/
def execScheduleEntryRead (s : State) : Host.Outcome State Fault Refusal :=
  .next (
    let p := s.cur.part
    let x := partOf s p
    if !x.ten || x.tblN ≤ x.tblNext || !assigned s p then s
    else
      match entryBytes s p with
      | (t, none) => entrySkip t p x.tblPrev
      | (t, some bs) =>
        let tick := bF bs 0 8
        let look := max 1 x.look * 4096
        let wcb := bF bs 8 8
        if (x.tblNext = 0 || x.tblPrev < tick) && nsTime s + look < tick then s
        else if !entryOk t p bs (tabFind x.tblNode wcb).isSome then entrySkip t p tick
        else
          match tabFind x.tblNode wcb with
          | some slot =>
            let id := (p, slot)
            let first := bF bs 0x10 1
            let names (l : Nat) : Bool := decide (first ≤ l) && decide (l < first + bF bs 0x11 1)
            let t := match nodeOf t id with
              | some nd =>
                if nd.wcb = wcb && nd.q.isNone && !nodeOver nd then
                  let t := setNode t id { nd with
                    logs := nd.logs.map (fun (g : Nat × LogS) =>
                      if names g.1 then (g.1, { g.2 with tick := some tick }) else g) }
                  { t with arrs := t.arrs.map (fun (a : Nat × ArrayS) =>
                      if a.2.node = some id && a.2.cond = .placed && names a.2.logical then
                        (a.1, { a.2 with startTick := some tick })
                      else a) }
                else t
              | none => t
            entryDone t p tick
          | none =>
            let sem := semOpt (bF bs 0x14 1 = 1) (BitVec.ofNat 16 (bF bs 0x12 2)) (BitVec.ofNat 64 (bF bs 0x18 8))
            match launch t p none wcb sem (some (tick - look)) none (some tick) x.tblNext with
            | (_, .wait _) | (_, .hold) => s
            | (t, .fault _) => entrySkip t p tick
            | (t, .ok slot) =>
              entryDone (modPart t p (fun y => { y with tblNode := tabSet y.tblNode wcb slot })) p tick)

end Sys2Proof.Machine
end

