-- ==== Sys2Proof/Machine/Regs.lean ====
section
/-! DEFINITION. The package register space: what every register reads and what a write of it does (R6 to R9, R26 to
R29, R39 to R52, R63, R80 to R89, R96, R126 to R131, R212, R394, R398). -/
namespace Sys2Proof.Machine
open Sys2Proof

-- Writes (R6, R7, R398)

/-- The state a command leaves, taken at a place. -/
def command (s : State) (place : Cur) (f : State → Host.Outcome State Fault Refusal) : State :=
  match f { s with cur := place } with
  | .next t => { t with cur := s.cur }
  | .fault _ => s
  | .refused _ => s

/-- Change the hub. -/
def modHub (s : State) (f : HubS → HubS) : State := { s with hub := f s.hub }
/-- Change the port. -/
def modPort (s : State) (f : PortS → PortS) : State := { s with port := f s.port }

/-- BHCTL (R22, R26): SCRMODE, then PWR, then CHUNK. -/
def writeBhctl (s : State) (b : Nat) (v : W32) : State :=
  let place := { s.cur with bh := b }
  let s := modBh s b (fun x => { x with scrmode := bitB v 2 })
  let s := command s place (if bitB v 0 then execBhctlPwrSet else execBhctlPwrClear)
  command s place (execBhctlChunk (bits v 4 5))

/-- PTCFG (R26, R27). -/
def writePtcfg (s : State) (p : Nat) (v : W32) : State :=
  let place := { s.cur with part := p }
  let s := modPart s p (fun x => { x with sizeReg := bitsN v 8 3 })
  match bitsN v 30 2 with
  | 1 => command s place (execPartitionCreate (bits v 8 3))
  | 2 => command s place execPartitionReset
  | 3 => command s place execPartitionDissolve
  | _ => s

/-- PORTCFG (R41). -/
def writePortcfg (s : State) (v : W32) : State :=
  let s := command s s.cur (execPortcfgModeChange (bitB v 1))
  command s s.cur (if bitB v 0 then execPortcfgEnSet else execPortcfgEnClear)

/-- QPCMD (R42). -/
def writeQpcmd (s : State) (v : W32) : State :=
  let s := modPort s (fun p => { p with qpFn := bitsN v 16 10, qpN := bitsN v 0 6 })
  match bitsN v 30 2 with
  | 1 => command s s.cur execQpConnect
  | 2 => command s s.cur execQpReset
  | _ => s

/-- LNKCTL (R52): FABID, then DIS, then TRAIN. -/
def writeLnkctl (s : State) (l : Nat) (v : W32) : State :=
  let place := { s.cur with link := l }
  let s := modLink s l (fun x => { x with fabid := bits v 0 16 })
  let s := if bitB v 30 then command s place execLinkDisable else modLink s l (fun x => { x with dis := false })
  if bitB v 31 then command s place execLinkTrain else s

/-- KEYCTL (R82). -/
def writeKeyctl (s : State) (p : Nat) (v : W32) : State :=
  let place := { s.cur with part := p }
  let s := modPart s p (fun x =>
    { x with keyMode := bitB v 24, keySlot := bitsN v 16 8, keyReg := bitsN v 0 14 })
  let x := partOf s p
  match bitsN v 29 3 with
  | 0 => s
  | 1 => command s place (execKeyLoad (bits v 16 8))
  | 2 => command s place (execKeyRevoke (bits v 16 8))
  | 3 => command s place (execRekeyStart (bits v 0 14) (BitVec.ofNat 8 x.keyNew))
  | 4 => command s place (execRekeyChunk (BitVec.ofNat 12 x.keyChunk))
  | _ => command s place (execKeyctlBadCommand (bits v 29 3))

/-- QMAP (R89). -/
def writeQmap (s : State) (b q : Nat) (v : W32) : State :=
  let s := modQueue s b q (fun x => { x with en := bitB v 31, nqp := bitsN v 20 4, vf := bitsN v 0 9 })
  if bitB v 30 then command s { s.cur with bh := b, q := q } execQmapHalt else s

/-- PATCTL (R84). -/
def writePatctl (s : State) (b : Nat) (v : W32) : State :=
  let place := { s.cur with bh := b }
  let s := modBh s b (fun x => { x with patGran := bitsN v 12 14, patDom := bitsN v 0 12 })
  match bitsN v 30 2 with
  | 1 => command s place (execGranuleAssign (bits v 12 14) (bits v 0 12))
  | 2 => command s place (execGranuleFree (bits v 12 14))
  | _ => s

/-- CKPTCTL (R87). -/
def writeCkptctl (s : State) (v : W32) : State :=
  let s := modHub s (fun h => { h with ckQp := bitsN v 16 6, ckMask := bits v 0 16 })
  match bitsN v 30 2 with
  | 1 => command s s.cur execCheckpointStart
  | 2 => command s s.cur execCheckpointAbort
  | _ => s

/-- SCHCTL (R127, R128). -/
def writeSchctl (s : State) (p : Nat) (v : W32) : State :=
  let s := modPart s p (fun x => { x with refill := bitsN v 24 8, quant := bitsN v 16 8, look := bitsN v 8 8 })
  if bitB v 1 then command s { s.cur with part := p } execScheduleTableEnable
  else modPart s p (fun x => { x with ten := false })

/-- SCHTBLL, SCHTBLH and SCHTBN (R126, R128): ignored while TEN = 1. DESIGN CHOICE (log entry 72): a COUNT above 65,536
is held as 65,536 and reads so. -/
def writeSchtbl (s : State) (p i : Nat) (v : W32) : State :=
  modPart s p (fun x =>
    if x.ten then x
    else if i = 1 then { x with tblBase := x.tblBase / 2 ^ 32 * 2 ^ 32 + v.toNat / 64 * 64 }
    else if i = 2 then { x with tblBase := v.toNat * 2 ^ 32 + x.tblBase % 2 ^ 32 }
    else { x with tblN := min v.toNat 65536 })

/-- RDCTL (R212). -/
def writeRdctl (s : State) (p : Nat) (v : W32) : State :=
  let place := { s.cur with part := p }
  let s := modPart s p (fun x => { x with rdNum := bitsN v 0 14 })
  match bitsN v 30 2 with
  | 1 => command s place (execRegionDescriptorWrite (bits v 0 14))
  | 2 => command s place (execRegionDescriptorClear (bits v 0 14))
  | 3 => command s place (execRegionDescriptorConvert (bits v 0 14))
  | _ => s

/-- A write of the words of a group that begins at `base` with `n` words. -/
def wordIn (off base n : Nat) : Option Nat :=
  if base ≤ off && off < base + 4 * n then some ((off - base) / 4) else none

/-- The registers of the hub, the bulkheads and the partitions. -/
def writeHubReg (s : State) (off : Nat) (v : W32) : Option State :=
  if off = 0x100 then some (modHub s (fun h => { h with cap := bitsN v 0 12 }))
  else if off = 0x200 then
    some (modHub s (fun h => { h with rate := bits v 16 16, domain := bits v 8 8, tmode := bitB v 0 }))
  else if off = 0x204 then some (command s s.cur (execTimestepWrite v))
  else if off = 0x300 then
    let s := modHub s (fun h => { h with errEn := bitB v 31, errQp := bitsN v 0 6 })
    some (if bits v 6 16 = 0 then s else command s s.cur execErrqpDropClear)
  else
    match wordIn off 0x400 16, wordIn off 0x1000 64, wordIn off 0x2000 16, wordIn off 0x3000 64 with
    | some b, _, _, _ => some (modBh s b (fun x => { x with torarb := v }))
    | _, some i, _, _ => some (if i % 4 = 0 then writeBhctl s (i / 4) v else s)
    | _, _, some p, _ => some (writePtcfg s p v)
    | _, _, _, some w => some (command s s.cur (execWincfgWrite (BitVec.ofNat 6 w) v))
    | _, _, _, _ => none

/-- The registers of the port and the links. -/
def writePortReg (s : State) (off : Nat) (v : W32) : Option State :=
  if off = 0x4800 then some (writePortcfg s v)
  else if off = 0x4810 then some (writeQpcmd s v)
  else
    match wordIn off 0x4000 16, wordIn off 0x4840 16, wordIn off 0x5000 512 with
    | some p, _, _ => some (command s { s.cur with part := p } (execPortpartWrite v))
    | _, some i, _ => some (modPort s (fun p => { p with qpbuf := tabSet p.qpbuf i v }))
    | _, _, some f => some (command s s.cur (execVfmapWrite (BitVec.ofNat 9 f) v))
    | _, _, _ =>
      match wordIn off 0x6000 288, wordIn off 0x6800 144, wordIn off 0x10000 (16 * 513) with
      | some i, _, _ =>
        some (if i % 2 = 0 then writeLnkctl s (i / 2) v
          else if bits v 0 16 = 0 then s else command s { s.cur with link := i / 2 } execLnkstatRetryClear)
      | _, some l, _ => some (modLink s l (fun x => { x with arb := v &&& 0xFFFF }))
      | _, _, some i =>
        some (command s s.cur (execFnaddrWrite (BitVec.ofNat 10 (i / 16)) (BitVec.ofNat 4 (i % 16)) v))
      | _, _, _ => none

/-- The registers of keys, queues, granules, checkpoint, schedule and descriptors. -/
def writeMemReg (s : State) (off : Nat) (v : W32) : Option State :=
  match wordIn off 0x7000 64, wordIn off 0x7800 256, wordIn off 0x8000 256, wordIn off 0x9000 16 with
  | some i, _, _, _ =>
    let p := i / 4
    some (if i % 4 = 0 then writeKeyctl s p v
      else if i % 4 = 1 then
        modPart s p (fun x => { x with keyDom := bitsN v 20 12, keyChunk := bitsN v 8 12, keyNew := bitsN v 0 8 })
      else s)
  | _, some i, _, _ => some (modPart s (i / 16) (fun x => { x with keyBuf := tabSet x.keyBuf (i % 16) v }))
  | _, _, some i, _ => some (writeQmap s (i / 16) (i % 16) v)
  | _, _, _, some b => some (writePatctl s b v)
  | _, _, _, _ =>
    match wordIn off 0xA000 16, wordIn off 0xB000 64, wordIn off 0xD000 64, wordIn off 0xD800 256 with
    | some 0, _, _, _ => some (writeCkptctl s v)
    | some 1, _, _, _ => some (modHub s (fun h => { h with ckRkey := v }))
    | some 2, _, _, _ => some (modHub s (fun h => { h with ckVal := v }))
    | some 3, _, _, _ => some (modHub s (fun h => { h with ckVah := v }))
    | some 4, _, _, _ => some (modHub s (fun h => { h with ckSeq := v }))
    | some i, _, _, _ => if 8 ≤ i then some (modHub s (fun h => { h with ckKey := tabSet h.ckKey (i - 8) v })) else none
    | _, some i, _, _ => some (if i % 4 = 0 then writeSchctl s (i / 4) v else writeSchtbl s (i / 4) (i % 4) v)
    | _, _, some i, _ =>
      some (if i % 4 = 0 then writeRdctl s (i / 4) v
        else if i % 4 = 1 then command s { s.cur with part := i / 4 } (execRdbaseWrite v) else s)
    | _, _, _, some i => some (modPart s (i / 16) (fun x => { x with rdBuf := tabSet x.rdBuf (i % 16) v }))
    | _, _, _, _ => none

/-- A write of a package register by offset; an offset without a register, or one that only reads, is left alone
(R6). -/
def writeReg (s : State) (off : Nat) (v : W32) : State :=
  if off % 4 ≠ 0 then s
  else ((writeHubReg s off v <|> writePortReg s off v) <|> writeMemReg s off v).getD s

/-- REGISTER_WRITE (R6, R7, R32, R398): no register is served before the hub is up. -/
def execRegisterWrite (off v : BitVec 32) (s : State) : Host.Outcome State Fault Refusal :=
  .next (if s.hub.phase = 2 then writeReg s off.toNat v else s)

-- Reads (R6, R7)

/-- The state codes of a queue (R89). -/
def queueCode : QState → Nat
  | .idle => 0 | .running => 1 | .waiting => 2 | .halted => 3 | .faulted => 4

/-- The state codes of a node (R125). -/
def nodeCode : NodeState → Nat
  | .waiting => 0 | .ready => 1 | .placed => 2 | .running => 3 | .draining _ => 4 | .done => 5 | .failed => 6
  | .requeued => 7

/-- RMAP of a physical array (R131); one whose logical array has executed HALT holds none (R130). -/
def readRmap (s : State) (p : Nat) : Nat :=
  let a := arrOf s p
  match if logicalOver a then none else a.node with
  | none => 0
  | some n =>
    let st := match nodeOf s n with | some nd => nodeCode nd.st | none => 0
    packW [(8, n.2), (8, 0), (8, st), (7, a.logical), (1, 1)]

/-- The state codes of a queue pair (R42). -/
def qpCode : QpState → Nat
  | .reset => 0 | .rts => 1 | .error => 2

/-- The registers of the hub, the bulkheads and the partitions. -/
def readHubReg (s : State) (off : Nat) : Option Nat :=
  let h := s.hub
  if off = 0x100 then some h.cap
  else if off = 0x200 then
    some (packW [(1, oneIf h.tmode), (1, oneIf h.lock), (6, 0), (8, h.domain.toNat), (16, h.rate.toNat)])
  else if off = 0x300 then some (packW [(6, h.errQp), (16, h.errDrop.n), (9, 0), (1, oneIf h.errEn)])
  else
    match wordIn off 0x400 16, wordIn off 0x1000 64, wordIn off 0x2000 16, wordIn off 0x3000 64 with
    | some b, _, _, _ => some (bhOf s b).torarb.toNat
    | _, some i, _, _ =>
      let x := bhOf s (i / 4)
      some (match i % 4 with
        | 0 => packW [(1, oneIf (x.st ≠ .off)), (1, 0), (1, oneIf x.scrmode)]
        | 1 => readBhstat s (i / 4)
        | 2 => x.scrDone.toNat
        | _ => 0)
    | _, _, some p, _ =>
      some (readPtcfg s p)
    | _, _, _, some w => some (winWord s w).toNat
    | _, _, _, _ => none

/-- The registers of the port and the links. -/
def readPortReg (s : State) (off : Nat) : Option Nat :=
  let p := s.port
  if off = 0x4800 then some (packW [(1, oneIf p.en), (1, oneIf p.mode)])
  else if off = 0x4810 then
    some (packW [(6, p.qpN), (2, 0), (8, qpCode (qpOf s (qpKey p.qpFn p.qpN)).st), (10, p.qpFn),
      (1, oneIf p.qpBusy), (3, p.qpErr)])
  else
    match wordIn off 0x4000 16, wordIn off 0x5000 512, wordIn off 0x6000 288 with
    | some q, _, _ => some (portPart s q).toNat
    | _, some f, _ => some (vfWord s f).toNat
    | _, _, some i =>
      let x := linkOf s (i / 2)
      some (if i % 2 = 0 then packW [(16, x.fabid.toNat), (14, 0), (1, oneIf x.dis)]
        else packW [(16, x.retry.n), (8, x.rtt), (6, 0),
          (2, match x.st with | .down => 0 | .training => 1 | .up => 2)])
    | _, _, _ =>
      match wordIn off 0x6800 144, wordIn off 0x10000 (16 * 513) with
      | some l, _ => some (linkOf s l).arb.toNat
      | _, some i => some (tabGet p.fnaddr 0 i).toNat
      | _, _ => none

/-- The registers of keys, queues, granules, checkpoint, schedule and descriptors. -/
def readMemReg (s : State) (off : Nat) : Option Nat :=
  let h := s.hub
  match wordIn off 0x7000 64, wordIn off 0x8000 256, wordIn off 0x9000 16, wordIn off 0xA000 5 with
  | some i, _, _, _ =>
    let x := partOf s (i / 4)
    let chunks : Nat × Bool := match x.rekey with
      | some k => (k.queued.length, k.host && k.cur.isSome)
      | none => (0, false)
    some (match i % 4 with
      | 0 => packW [(14, x.keyReg), (2, 0), (8, x.keySlot), (1, oneIf x.keyMode), (3, x.keyErr), (1, oneIf (keyBusy x))]
      | 1 => packW [(8, x.keyNew), (12, x.keyChunk), (12, x.keyDom)]
      | 2 => packW [(13, x.keyDone), (1, oneIf x.doneAll), (14, 0), (3, chunks.1), (1, oneIf chunks.2)]
      | _ => 0)
  | _, some i, _, _ =>
    let q := queueOf s (i / 16) (i % 16)
    some (packW [(9, q.vf), (11, 0), (4, q.nqp), (3, 0), (3, queueCode q.st), (1, 0), (1, oneIf q.en)])
  | _, _, some b, _ =>
    let x := bhOf s b
    some (packW [(12, x.patDom), (14, x.patGran), (1, 0), (3, x.patErr)])
  | _, _, _, some 0 => some (packW [(16, h.ckMask.toNat), (6, h.ckQp), (4, 0), (3, h.ckErr), (1, oneIf h.ckBusy)])
  | _, _, _, some 1 => some h.ckRkey.toNat
  | _, _, _, some 2 => some h.ckVal.toNat
  | _, _, _, some 3 => some h.ckVah.toNat
  | _, _, _, some _ => some h.ckSeq.toNat
  | _, _, _, _ =>
    match wordIn off 0xB000 64, wordIn off 0xC000 128, wordIn off 0xD000 64 with
    | some i, _, _ =>
      let x := partOf s (i / 4)
      some (match i % 4 with
        | 0 => packW [(1, 0), (1, oneIf x.ten), (6, 0), (8, x.look), (8, x.quant), (8, x.refill)]
        | 1 => x.tblBase % 2 ^ 32
        | 2 => x.tblBase / 2 ^ 32
        | _ => x.tblN)
    | _, some i, _ => some (if i % 8 < 6 then readRmap s (6 * (i / 8) + i % 8) else 0)
    | _, _, some i =>
      let x := partOf s (i / 4)
      some (match i % 4 with
        | 0 => packW [(14, x.rdNum), (12, 0), (3, x.rdErr), (1, oneIf x.rdPend.isSome)]
        | 1 => x.rdGran
        | _ => 0)
    | _, _, _ => none

/-- A read of a package register by offset; write-only and unlisted words read zero (R6, R7). -/
def readReg (s : State) (off : Nat) : W32 :=
  if off % 4 ≠ 0 then 0
  else BitVec.ofNat 32 (((readHubReg s off <|> readPortReg s off) <|> readMemReg s off).getD 0)

end Sys2Proof.Machine
end

