-- ==== Sys2Proof/Machine/Rdma.lean ====
section
/-! DEFINITION. Frames that arrive at the host port, and the RoCE responder and requester (R36 to R45). -/
namespace Sys2Proof.Machine
open Sys2Proof

-- Arrival (R36, R37, R39, R41 to R43)

/-- A frame is dropped and counted (R36, R39). -/
def dropFrame (s : State) : State := logErr s ecPortrx 0 0 0 0 0 1

/-- A frame's addresses match a function (R41). -/
def fnMatches (s : State) (f : Nat) (x : Frame) : Bool :=
  fnOn s f && x.mac.toNat = fnMac s f && x.vlan = fnVlan s f && fnSends s f x.v6 && x.ip.toNat = fnIp s f x.v6

/-- A CE mark sends one CNP per queue pair in 5,000 ac at most (R37). -/
def ceMark (s : State) (k : Nat) (ce : Bool) : State :=
  let due := match (qpOf s k).ceAt with | some t => decide (t + 5000 ≤ s.now) | none => true
  if ce && due then
    sendPkt (modQp s k (fun q => { q with ceAt := some s.now })) k { op := .cnp, qpn := 0, psn := 0 }
  else s

/-- PORT_FRAME_RECEIVE (R36, R37, R39, R41 to R43): the frame at the head of the wire is dropped, or held for the
queue pair it is addressed to. -/
def execPortFrameReceive (s : State) : Host.Outcome State Fault Refusal :=
  .next (
    match s.port.wire with
    | [] => s
    | x :: rest =>
      let s := { s with port := { s.port with wire := rest } }
      if !s.port.up then s
      else if 4200 < x.len || !x.fcs then dropFrame s
      else
        match x.body with
        | .pause => s
        | .pfc en q => pfcReceive s en q
        | .ptp m => ptpReceive s m
        | .other => dropFrame s
        | .roce p =>
          match (List.range 513).find? (fun f => fnMatches s f x) with
          | none => dropFrame s
          | some f =>
            let k := p.qpn - 0x4000
            let g := fnGroup s f
            if !p.icrc then s
            else if !p.rc || p.qpn < 0x4000 || k / 64 ≠ f || !qpExists f (k % 64) || (qpOf s k).st ≠ .rts ||
                resvBytes s g < heldBytes s g + x.len then dropFrame s
            else
              let s := modQp s k (fun q => { q with rx := q.rx ++ [(p, x.len)] })
              let s := { s with port := { s.port with held := tabMod s.port.held 0 g (fun n => n + x.len) } }
              ceMark (pfcUpdate s) k x.ce)

-- Responder (R37, R38)

/-- The oldest packet held for the queue pair the instruction acts on, if it is of the right kind; it leaves the
receive buffer. -/
def withRx (s : State) (kind : RoceOp → Bool) (go : State → Nat → RocePkt → State) : State :=
  let k := qpKey s.cur.fn s.cur.qpn
  match (qpOf s k).rx with
  | [] => s
  | (p, n) :: rest =>
    if !kind p.op || (qpOf s k).st ≠ .rts then s
    else
      let s := modQp s k (fun q => { q with rx := rest })
      let s := { s with port := { s.port with held := tabMod s.port.held 0 (fnGroup s s.cur.fn) (fun h => h - n) } }
      go (pfcUpdate s) k p

/-- Answer a request, with the count of messages received so far. -/
def answer (s : State) (k : Nat) (op : RoceOp) (psn : Nat) : State :=
  sendPkt s k { op := op, qpn := 0, psn := psn, msn := (qpOf s k).msn }

/-- A request in its turn is performed; one ahead of its turn is refused with a sequence NAK, and one seen before
is handled by `again` (R37). -/
def inTurn (s : State) (k : Nat) (p : RocePkt) (n : Nat) (again go : State → State) : State :=
  let q := qpOf s k
  let d := (p.psn + 2 ^ 24 - q.rPsn) % 2 ^ 24
  if d = 0 then go (modQp s k (fun q => { q with rPsn := (q.rPsn + n) % 2 ^ 24 }))
  else if d < 2 ^ 23 then answer s k (.nak 0) q.rPsn
  else again s

/-- A packet of a message fits the message that is being received: the first one where none is, a later one of the
same kind where one is, each but the last a whole path MTU, none above it (R37). -/
def inMessage (q : QpS) (p : RocePkt) (write : Bool) : Bool :=
  let n := mtuBytes q
  (match q.msg with | none => p.first | some m => !p.first && m.write == write) &&
    (if p.last then decide (p.data.length ≤ n) else p.data.length == n)

/-- A message ends, or goes on with what is known of it. -/
def msgGo (s : State) (k : Nat) (p : RocePkt) (m : RdmaMsg) : State :=
  modQp s k (fun q =>
    if p.last then { q with msg := none, msn := (q.msn + 1) % 2 ^ 24 } else { q with msg := some m })

/-- ROCE_SEND_RECEIVE (R37, R91): the payload of the whole message, which may be of several packets and of up to 2^31
bytes, is a submit record. -/
def execRoceSendReceive (s : State) : Host.Outcome State Fault Refusal :=
  .next (withRx s (fun o => o == .send || o == .sendImm) (fun s k p =>
    inTurn s k p 1 (fun s => answer s k .ack p.psn) (fun s =>
      let m := ((qpOf s k).msg).getD { write := false }
      let m := { m with data := m.data ++ p.data }
      if !inMessage (qpOf s k) p false || 2 ^ 31 < m.data.length then answer s k (.nak 1) p.psn
      else
        let s := if p.last then submit s s.cur.fn s.cur.qpn m.data else s
        answer (msgGo s k p m) k .ack p.psn)))

/-- The region that an R_Key gives access to, with the offset (R38). -/
def rdmaRegion (s : State) (p : Nat) (key : W32) (va n : Nat) (write : Bool) : Option (Region × Nat) :=
  match tabFind (partOf s p).regions (bitsN key 18 14) with
  | none => none
  | some r =>
    if r.kind = 0 || r.tag ≠ bitsN key 0 18 || va < r.vbase || r.vbase + 2 ^ r.k < va + n then none
    else if write && (r.kind ≠ 1 || r.ro || keyRevoked s p r.slot || (r.win && !winWr s r.winIx)) then none
    else some (r, va - r.vbase)

/-- The words of a list of bytes. -/
def wordsOf (bs : List Byte) : List W32 :=
  (List.range (bs.length / 4)).map (fun i => BitVec.ofNat 32 (leNat ((bs.drop (4 * i)).take 4)))

/-- The bytes of one packet of a WRITE land: in package registers on the package supervisor function, else in the
region (R26, R38, R387; log entry 52). Answers whether they have landed. -/
def landWrite (s : State) (f : Nat) (m : RdmaMsg) (bs : List Byte) : State × Bool :=
  if f = psf then ((wordsOf bs).zipIdx.foldl (fun s w => writeReg s (m.va + 4 * w.2) w.1) s, true)
  else
    match rdmaRegion s (vfPart s f) m.rkey m.va bs.length true with
    | some (r, off) => regThrough s (vfPart s f) r off bs
    | none => (s, true)

/-- A WRITE may go on with a packet of `n` bytes: the whole message at its first packet, and each packet's bytes, lie
where the R_Key lets the function write (R38). -/
def writeAllowed (s : State) (f : Nat) (m : RdmaMsg) (n : Nat) : Bool :=
  if f = psf then m.va % 4 = 0 && n % 4 = 0 && m.left % 4 = 0
  else (rdmaRegion s (vfPart s f) m.rkey m.va m.left true).isSome

/-- ROCE_RDMA_WRITE (R26, R37, R38, R387): a packet of a WRITE of up to 2^31 bytes; its bytes land before its answer,
and where the stack refuses them the answer is NAK Remote Operational Error (log entry 128). -/
def execRoceRdmaWrite (s : State) : Host.Outcome State Fault Refusal :=
  .next (withRx s (fun o => o == .write || o == .writeImm) (fun s k p =>
    inTurn s k p 1 (fun s => answer s k .ack p.psn) (fun s =>
      let n := p.data.length
      let m := ((qpOf s k).msg).getD { write := true, rkey := p.rkey, va := p.va, left := p.len }
      if !inMessage (qpOf s k) p true || 2 ^ 31 < m.left || (if p.last then m.left ≠ n else m.left < n) then
        answer s k (.nak 1) p.psn
      else if !writeAllowed s s.cur.fn m n then answer s k (.nak 2) p.psn
      else
        let (s, ok) := landWrite s s.cur.fn m p.data
        if !ok then answer s k (.nak 3) p.psn
        else answer (msgGo s k p { m with va := m.va + n, left := m.left - n }) k .ack p.psn)))

/-- Packet i of the m that answer a READ: the answer's bytes, with its place in the message. -/
def readPkt (s : State) (k : Nat) (p : RocePkt) (i m : Nat) (d : List Byte) : State :=
  sendPkt s k { op := .readResp, qpn := 0, psn := (p.psn + i) % 2 ^ 24, len := d.length, data := d
                msn := (qpOf s k).msn, first := i = 0, last := i + 1 = m }

/-- The response packets of an RDMA READ, one path MTU each, up to a poisoned line (R38). -/
def readResponses (s : State) (b k : Nat) (p : RocePkt) (r : Region) (off n i : Nat) : Nat → State
  | 0 => s
  | m + 1 =>
    let lo := n * i
    let (s, v) := regRead s b r (off + lo) (min n (p.len - lo)) none 0
    if v.bad || v.rev then answer s k (.nak 3) ((p.psn + i) % 2 ^ 24)
    else
      readResponses (readPkt s k p i (i + 1 + m) v.bytes) b k p r off n (i + 1) m

/-- ROCE_RDMA_READ (R26, R37, R38). -/
def execRoceRdmaRead (s : State) : Host.Outcome State Fault Refusal :=
  .next (withRx s (fun o => o == .read) (fun s k p =>
    let n := mtuBytes (qpOf s k)
    let m := max 1 ((p.len + n - 1) / n)
    let serve (s : State) : State :=
      if 2 ^ 31 < p.len then answer s k (.nak 1) p.psn
      else if s.cur.fn = psf then
        if p.va % 4 ≠ 0 || p.len % 4 ≠ 0 then answer s k (.nak 2) p.psn
        else
          let bs := (List.range (p.len / 4)).flatMap (fun i => leBytes 4 (readReg s (p.va + 4 * i)).toNat)
          (List.range m).foldl (fun s i =>
            readPkt s k p i m ((bs.drop (n * i)).take n)) s
      else
        match rdmaRegion s (vfPart s s.cur.fn) p.rkey p.va p.len false with
        | none => answer s k (.nak 2) p.psn
        | some (r, off) => readResponses s (vfPart s s.cur.fn) k p r off n 0 m
    inTurn s k p m serve (fun s => serve (modQp s k (fun q => { q with msn := (q.msn + 1) % 2 ^ 24 })))))

/-- ROCE_ATOMIC_REQUEST (R37): NAK Invalid Request. -/
def execRoceAtomicRequest (s : State) : Host.Outcome State Fault Refusal :=
  .next (withRx s (fun o => o == .atomic) (fun s k p =>
    inTurn s k p 1 (fun s => answer s k (.nak 1) p.psn) (fun s => answer s k (.nak 1) p.psn)))

-- Requester (R37, R87, R93)

/-- Outstanding requests that an acknowledgement of `psn` completes: those up to it, but for a READ, which only its
response completes. -/
def ackPrefix (psn : Nat) (os : List (Nat × RocePkt × QpWork)) : List (Nat × RocePkt × QpWork) :=
  os.takeWhile (fun o => (psn + 2 ^ 24 - o.1) % 2 ^ 24 < 2 ^ 23 && !(o.2.1.op == .read))

/-- Drop outstanding requests that are complete; progress restarts the retry timer and count. -/
def ackDrop (s : State) (k n : Nat) : State :=
  if n = 0 then s
  else modQp s k (fun q => { q with out := q.out.drop n, retries := 0, at_ := s.now })

/-- ROCE_RESPONSE_RECEIVE (R37): an acknowledgement, a NAK or a read response. A NAK of another kind than a
sequence error ends its request in error (R87, R93). DESIGN CHOICE (log entry 133): the spec does not say which
retransmissions the retry count of 7 counts; only those of the retry timer are counted here. -/
def execRoceResponseReceive (s : State) : Host.Outcome State Fault Refusal :=
  .next (withRx s (fun o => match o with | .ack | .nak _ | .readResp => true | _ => false) (fun s k p =>
    match p.op with
    | .ack => ackDrop s k (ackPrefix p.psn (qpOf s k).out).length
    | .nak c =>
      let s := ackDrop s k (ackPrefix ((p.psn + 2 ^ 24 - 1) % 2 ^ 24) (qpOf s k).out).length
      if c = 0 then resendFrom s k p.psn
      else
        match (qpOf s k).out with
        | o :: _ => if o.1 = p.psn then ackDrop (failWork s o.2.2) k 1 else s
        | [] => s
    | .readResp =>
      let s := ackDrop s k (ackPrefix p.psn (qpOf s k).out).length
      (match (qpOf s k).out with
       | o :: _ =>
         if o.1 = p.psn && o.2.1.op == .read then ackDrop (replyFetch s o.2.2 (some p.data)) k 1 else s
       | [] => s)
    | _ => s))

/-- CNP_RECEIVE (R37): the queue pair's rate halves. -/
def execCnpReceive (s : State) : Host.Outcome State Fault Refusal :=
  .next (withRx s (fun o => o == .cnp) (fun s k _ =>
    modQp s k (fun q => { q with rate := q.rate / 2, cnpAt := some s.now })))

end Sys2Proof.Machine
end

