-- ==== Sys2Proof/Machine/Dispatch.lean ====
section
/-! DEFINITION. One arm per constructor of Instr: the meaning each instruction has. -/
namespace Sys2Proof.Machine
open Sys2Proof

/-- The meaning of an instruction at a state. -/
def exec (i : Instr) (s : State) : Host.Outcome State Fault Refusal :=
  match i with
  | .bhctlPwrSet => Sys2Proof.Machine.execBhctlPwrSet s
  | .bhctlPwrClear => Sys2Proof.Machine.execBhctlPwrClear s
  | .bhctlChunk c => Sys2Proof.Machine.execBhctlChunk c s
  | .powerupSelfTestDone pass => Sys2Proof.Machine.execPowerupSelfTestDone pass s
  | .scrubChunkComplete => Sys2Proof.Machine.execScrubChunkComplete s
  | .partitionCreate size => Sys2Proof.Machine.execPartitionCreate size s
  | .partitionReset => Sys2Proof.Machine.execPartitionReset s
  | .partitionDissolve => Sys2Proof.Machine.execPartitionDissolve s
  | .generationAcknowledge => Sys2Proof.Machine.execGenerationAcknowledge s
  | .bcpEscalationReset => Sys2Proof.Machine.execBcpEscalationReset s
  | .resetSequenceComplete => Sys2Proof.Machine.execResetSequenceComplete s
  | .resetSequenceTimeout => Sys2Proof.Machine.execResetSequenceTimeout s
  | .wincfgWrite w v => Sys2Proof.Machine.execWincfgWrite w v s
  | .powerLimitCycleRemoval => Sys2Proof.Machine.execPowerLimitCycleRemoval s
  | .inputPowerLoss => Sys2Proof.Machine.execInputPowerLoss s
  | .packageTrip => Sys2Proof.Machine.execPackageTrip s
  | .bringUp => Sys2Proof.Machine.execBringUp s
  | .attestationReportRequest pkg nonce => Sys2Proof.Machine.execAttestationReportRequest pkg nonce s
  | .portFrameReceive => Sys2Proof.Machine.execPortFrameReceive s
  | .portcfgModeChange mode => Sys2Proof.Machine.execPortcfgModeChange mode s
  | .portcfgEnSet => Sys2Proof.Machine.execPortcfgEnSet s
  | .portcfgEnClear => Sys2Proof.Machine.execPortcfgEnClear s
  | .portUp => Sys2Proof.Machine.execPortUp s
  | .roceSendReceive => Sys2Proof.Machine.execRoceSendReceive s
  | .roceRdmaWrite => Sys2Proof.Machine.execRoceRdmaWrite s
  | .roceRdmaRead => Sys2Proof.Machine.execRoceRdmaRead s
  | .roceAtomicRequest => Sys2Proof.Machine.execRoceAtomicRequest s
  | .roceResponseReceive => Sys2Proof.Machine.execRoceResponseReceive s
  | .qpRetryTimeout => Sys2Proof.Machine.execQpRetryTimeout s
  | .cnpReceive => Sys2Proof.Machine.execCnpReceive s
  | .cnpRateIncrease => Sys2Proof.Machine.execCnpRateIncrease s
  | .vfmapWrite v w => Sys2Proof.Machine.execVfmapWrite v w s
  | .fnaddrWrite f word v => Sys2Proof.Machine.execFnaddrWrite f word v s
  | .qpConnect => Sys2Proof.Machine.execQpConnect s
  | .qpReset => Sys2Proof.Machine.execQpReset s
  | .qpFlushComplete => Sys2Proof.Machine.execQpFlushComplete s
  | .portpartWrite v => Sys2Proof.Machine.execPortpartWrite v s
  | .pfcFrameReceive enable quanta => Sys2Proof.Machine.execPfcFrameReceive enable quanta s
  | .transmitArbitrationRound => Sys2Proof.Machine.execTransmitArbitrationRound s
  | .ptpMessageReceive domain => Sys2Proof.Machine.execPtpMessageReceive domain s
  | .timestepWrite v => Sys2Proof.Machine.execTimestepWrite v s
  | .linkTrain => Sys2Proof.Machine.execLinkTrain s
  | .linkDisable => Sys2Proof.Machine.execLinkDisable s
  | .linkTrainingComplete fabid rtt => Sys2Proof.Machine.execLinkTrainingComplete fabid rtt s
  | .linkTrainingTimeout => Sys2Proof.Machine.execLinkTrainingTimeout s
  | .linkFlitSend => Sys2Proof.Machine.execLinkFlitSend s
  | .streamDataFlitReceive => Sys2Proof.Machine.execStreamDataFlitReceive s
  | .collectiveDataFlitReceive => Sys2Proof.Machine.execCollectiveDataFlitReceive s
  | .collectiveControlFlitReceive => Sys2Proof.Machine.execCollectiveControlFlitReceive s
  | .managementFlitReceive => Sys2Proof.Machine.execManagementFlitReceive s
  | .idleFlitReceive => Sys2Proof.Machine.execIdleFlitReceive s
  | .retryRequestFlitReceive => Sys2Proof.Machine.execRetryRequestFlitReceive s
  | .linkAckTimeout => Sys2Proof.Machine.execLinkAckTimeout s
  | .linkRxSilenceTimeout => Sys2Proof.Machine.execLinkRxSilenceTimeout s
  | .lnkstatRetryClear => Sys2Proof.Machine.execLnkstatRetryClear s
  | .errqpDropClear => Sys2Proof.Machine.execErrqpDropClear s
  | .routerArbitrationRound => Sys2Proof.Machine.execRouterArbitrationRound s
  | .rd64 => Sys2Proof.Machine.execRd64 s
  | .wr64 => Sys2Proof.Machine.execWr64 s
  | .rmw => Sys2Proof.Machine.execRmw s
  | .stackReplyReceive => Sys2Proof.Machine.execStackReplyReceive s
  | .l2Read => Sys2Proof.Machine.execL2Read s
  | .l2Write => Sys2Proof.Machine.execL2Write s
  | .windowRequest => Sys2Proof.Machine.execWindowRequest s
  | .keyLoad slot => Sys2Proof.Machine.execKeyLoad slot s
  | .keyRevoke slot => Sys2Proof.Machine.execKeyRevoke slot s
  | .revocationApplied slot => Sys2Proof.Machine.execRevocationApplied slot s
  | .rekeyStart region newSlot => Sys2Proof.Machine.execRekeyStart region newSlot s
  | .rekeyChunk chunk => Sys2Proof.Machine.execRekeyChunk chunk s
  | .rekeyChunkComplete => Sys2Proof.Machine.execRekeyChunkComplete s
  | .rekeyComplete => Sys2Proof.Machine.execRekeyComplete s
  | .keyctlBadCommand cmd => Sys2Proof.Machine.execKeyctlBadCommand cmd s
  | .granuleAssign gran domain => Sys2Proof.Machine.execGranuleAssign gran domain s
  | .granuleFree gran => Sys2Proof.Machine.execGranuleFree gran s
  | .errorRecordDeliver => Sys2Proof.Machine.execErrorRecordDeliver s
  | .checkpointStart => Sys2Proof.Machine.execCheckpointStart s
  | .checkpointAbort => Sys2Proof.Machine.execCheckpointAbort s
  | .checkpointRecordSend => Sys2Proof.Machine.execCheckpointRecordSend s
  | .checkpointEnd => Sys2Proof.Machine.execCheckpointEnd s
  | .qmapHalt => Sys2Proof.Machine.execQmapHalt s
  | .streamFetchComplete => Sys2Proof.Machine.execStreamFetchComplete s
  | .queueWaitSatisfied => Sys2Proof.Machine.execQueueWaitSatisfied s
  | .notificationSend => Sys2Proof.Machine.execNotificationSend s
  | .pktNop pr len => Sys2Proof.Machine.execPktNop pr len s
  | .pktWrite pr addr data => Sys2Proof.Machine.execPktWrite pr addr data s
  | .pktCopy pr sem src dst rowBytes rows rc spitch dpitch name add => Sys2Proof.Machine.execPktCopy pr sem src dst rowBytes rows rc spitch dpitch name add s
  | .pktLaunch pr sem wcb name add => Sys2Proof.Machine.execPktLaunch pr sem wcb name add s
  | .pktTlaunch pr sem wcb tick name add => Sys2Proof.Machine.execPktTlaunch pr sem wcb tick name add s
  | .pktIb pr host addr bytes rkey => Sys2Proof.Machine.execPktIb pr host addr bytes rkey s
  | .pktPred pr cc signed addr value mask => Sys2Proof.Machine.execPktPred pr cc signed addr value mask s
  | .pktPend pr => Sys2Proof.Machine.execPktPend pr s
  | .pktLoop pr count span idx => Sys2Proof.Machine.execPktLoop pr count span idx s
  | .pktSemsigAdd pr w name v => Sys2Proof.Machine.execPktSemsigAdd pr w name v s
  | .pktSemsigSet pr w name v => Sys2Proof.Machine.execPktSemsigSet pr w name v s
  | .pktSemwait pr name v => Sys2Proof.Machine.execPktSemwait pr name v s
  | .pktFfence pr => Sys2Proof.Machine.execPktFfence pr s
  | .pktNotify pr w qp cookie => Sys2Proof.Machine.execPktNotify pr w qp cookie s
  | .pktStamp pr w addr => Sys2Proof.Machine.execPktStamp pr w addr s
  | .pktXfer pr w region owner => Sys2Proof.Machine.execPktXfer pr w region owner s
  | .xferPacketComplete => Sys2Proof.Machine.execXferPacketComplete s
  | .pktColl pr sem desc name add => Sys2Proof.Machine.execPktColl pr sem desc name add s
  | .pktMpass pr sem wcb desc name add => Sys2Proof.Machine.execPktMpass pr sem wcb desc name add s
  | .pktQuiesce pr => Sys2Proof.Machine.execPktQuiesce pr s
  | .pktHalt pr notify => Sys2Proof.Machine.execPktHalt pr notify s
  | .copyLineWrite id => Sys2Proof.Machine.execCopyLineWrite id s
  | .copyComplete id => Sys2Proof.Machine.execCopyComplete id s
  | .collectiveComplete idx => Sys2Proof.Machine.execCollectiveComplete idx s
  | .semaphoreRemoteArrival => Sys2Proof.Machine.execSemaphoreRemoteArrival s
  | .nodePlacement => Sys2Proof.Machine.execNodePlacement s
  | .nodeStart => Sys2Proof.Machine.execNodeStart s
  | .scheduleTableEnable => Sys2Proof.Machine.execScheduleTableEnable s
  | .scheduleEntryRead => Sys2Proof.Machine.execScheduleEntryRead s
  | .startTickReached => Sys2Proof.Machine.execStartTickReached s
  | .arrayTickStart => Sys2Proof.Machine.execArrayTickStart s
  | .budgetRefill => Sys2Proof.Machine.execBudgetRefill s
  | .budgetExhausted => Sys2Proof.Machine.execBudgetExhausted s
  | .quantumExpiry => Sys2Proof.Machine.execQuantumExpiry s
  | .preemptionRequest => Sys2Proof.Machine.execPreemptionRequest s
  | .switchableBoundaryReached => Sys2Proof.Machine.execSwitchableBoundaryReached s
  | .nodeSaveStart => Sys2Proof.Machine.execNodeSaveStart s
  | .nodeSaveComplete => Sys2Proof.Machine.execNodeSaveComplete s
  | .watchdogExpiry => Sys2Proof.Machine.execWatchdogExpiry s
  | .requeueComplete => Sys2Proof.Machine.execRequeueComplete s
  | .verdictRead => Sys2Proof.Machine.execVerdictRead s
  | .nodeDone => Sys2Proof.Machine.execNodeDone s
  | .asynchronousTrap => Sys2Proof.Machine.execAsynchronousTrap s
  | .haltComplete => Sys2Proof.Machine.execHaltComplete s
  | .landingLineArrival => Sys2Proof.Machine.execLandingLineArrival s
  | .landingWrite => Sys2Proof.Machine.execLandingWrite s
  | .pendingValueWrite => Sys2Proof.Machine.execPendingValueWrite s
  | .semaphoreWaitSatisfied => Sys2Proof.Machine.execSemaphoreWaitSatisfied s
  | .egressLineDrain => Sys2Proof.Machine.execEgressLineDrain s
  | .regionWalkComplete => Sys2Proof.Machine.execRegionWalkComplete s
  | .scOperationPerform => Sys2Proof.Machine.execScOperationPerform s
  | .regionDescriptorWrite num => Sys2Proof.Machine.execRegionDescriptorWrite num s
  | .regionDescriptorClear num => Sys2Proof.Machine.execRegionDescriptorClear num s
  | .regionDescriptorConvert num => Sys2Proof.Machine.execRegionDescriptorConvert num s
  | .rdbaseWrite v => Sys2Proof.Machine.execRdbaseWrite v s
  | .registerWrite off v => Sys2Proof.Machine.execRegisterWrite off v s
  | .sNop => Sys2Proof.Machine.execSNop s
  | .sBr target => Sys2Proof.Machine.execSBr target s
  | .sBrc cc a b target => Sys2Proof.Machine.execSBrc cc a b target s
  | .sBrf t target => Sys2Proof.Machine.execSBrf t target s
  | .sCall target => Sys2Proof.Machine.execSCall target s
  | .sRet => Sys2Proof.Machine.execSRet s
  | .sJmpr a => Sys2Proof.Machine.execSJmpr a s
  | .sLoop count sw last => Sys2Proof.Machine.execSLoop count sw last s
  | .sLoopbrk => Sys2Proof.Machine.execSLoopbrk s
  | .sLidx d n => Sys2Proof.Machine.execSLidx d n s
  | .sHalt => Sys2Proof.Machine.execSHalt s
  | .sTrapi imm => Sys2Proof.Machine.execSTrapi imm s
  | .sAdd d a b => Sys2Proof.Machine.execSAdd d a b s
  | .sSub d a b => Sys2Proof.Machine.execSSub d a b s
  | .sAnd d a b => Sys2Proof.Machine.execSAnd d a b s
  | .sOr d a b => Sys2Proof.Machine.execSOr d a b s
  | .sXor d a b => Sys2Proof.Machine.execSXor d a b s
  | .sShl d a b => Sys2Proof.Machine.execSShl d a b s
  | .sShr d a b => Sys2Proof.Machine.execSShr d a b s
  | .sSar d a b => Sys2Proof.Machine.execSSar d a b s
  | .sMul d a b => Sys2Proof.Machine.execSMul d a b s
  | .sMulh d a b => Sys2Proof.Machine.execSMulh d a b s
  | .sMulhn d a b => Sys2Proof.Machine.execSMulhn d a b s
  | .sDivs d a b => Sys2Proof.Machine.execSDivs d a b s
  | .sDivn d a b => Sys2Proof.Machine.execSDivn d a b s
  | .sRems d a b => Sys2Proof.Machine.execSRems d a b s
  | .sRemn d a b => Sys2Proof.Machine.execSRemn d a b s
  | .sSel d a b c => Sys2Proof.Machine.execSSel d a b c s
  | .sMin d a b => Sys2Proof.Machine.execSMin d a b s
  | .sMax d a b => Sys2Proof.Machine.execSMax d a b s
  | .sMinn d a b => Sys2Proof.Machine.execSMinn d a b s
  | .sMaxn d a b => Sys2Proof.Machine.execSMaxn d a b s
  | .sSlt d a b => Sys2Proof.Machine.execSSlt d a b s
  | .sSltn d a b => Sys2Proof.Machine.execSSltn d a b s
  | .sClz d a => Sys2Proof.Machine.execSClz d a s
  | .sPopc d a => Sys2Proof.Machine.execSPopc d a s
  | .sAddi d a imm => Sys2Proof.Machine.execSAddi d a imm s
  | .sAndi d a imm => Sys2Proof.Machine.execSAndi d a imm s
  | .sOri d a imm => Sys2Proof.Machine.execSOri d a imm s
  | .sXori d a imm => Sys2Proof.Machine.execSXori d a imm s
  | .sLi d imm => Sys2Proof.Machine.execSLi d imm s
  | .sTidx d a sh k => Sys2Proof.Machine.execSTidx d a sh k s
  | .sLd size zx d a off => Sys2Proof.Machine.execSLd size zx d a off s
  | .sSt size b a off => Sys2Proof.Machine.execSSt size b a off s
  | .sLdDm size zx d a off => Sys2Proof.Machine.execSLdDm size zx d a off s
  | .sStDm size b a off => Sys2Proof.Machine.execSStDm size b a off s
  | .sLdx size zx d a off => Sys2Proof.Machine.execSLdx size zx d a off s
  | .sStx size b a off => Sys2Proof.Machine.execSStx size b a off s
  | .sLdSc w64 d a => Sys2Proof.Machine.execSLdSc w64 d a s
  | .sStSc w64 b a => Sys2Proof.Machine.execSStSc w64 b a s
  | .sAmoAdd w64 d b a => Sys2Proof.Machine.execSAmoAdd w64 d b a s
  | .sAmoMin w64 uns d b a => Sys2Proof.Machine.execSAmoMin w64 uns d b a s
  | .sAmoMax w64 uns d b a => Sys2Proof.Machine.execSAmoMax w64 uns d b a s
  | .sAmoAnd w64 d b a => Sys2Proof.Machine.execSAmoAnd w64 d b a s
  | .sAmoOr w64 d b a => Sys2Proof.Machine.execSAmoOr w64 d b a s
  | .sAmoSwap w64 d b a => Sys2Proof.Machine.execSAmoSwap w64 d b a s
  | .sAmoCas w64 d b c a => Sys2Proof.Machine.execSAmoCas w64 d b c a s
  | .sStA b ap => Sys2Proof.Machine.execSStA b ap s
  | .sXfer region owner => Sys2Proof.Machine.execSXfer region owner s
  | .sRel region => Sys2Proof.Machine.execSRel region s
  | .sFenceX pa pb => Sys2Proof.Machine.execSFenceX pa pb s
  | .sSemAdd name b => Sys2Proof.Machine.execSSemAdd name b s
  | .sSemSet name b => Sys2Proof.Machine.execSSemSet name b s
  | .sSemWait name b => Sys2Proof.Machine.execSSemWait name b s
  | .sSemRd d name => Sys2Proof.Machine.execSSemRd d name s
  | .sLsend link q a => Sys2Proof.Machine.execSLsend link q a s
  | .sLrecv link q a => Sys2Proof.Machine.execSLrecv link q a s
  | .sMovYm m a => Sys2Proof.Machine.execSMovYm m a s
  | .sMovXm m a => Sys2Proof.Machine.execSMovXm m a s
  | .sShpW sh f a => Sys2Proof.Machine.execSShpW sh f a s
  | .sNestW l f a => Sys2Proof.Machine.execSNestW l f a s
  | .sCtLd ct a => Sys2Proof.Machine.execSCtLd ct a s
  | .sEdgeRd d er => Sys2Proof.Machine.execSEdgeRd d er s
  | .sSysr d num => Sys2Proof.Machine.execSSysr d num s
  | .sSysw num a => Sys2Proof.Machine.execSSysw num a s
  | .sTtChk tt crc => Sys2Proof.Machine.execSTtChk tt crc s
  | .sTtRd d => Sys2Proof.Machine.execSTtRd d s
  | .sSrSeed a b => Sys2Proof.Machine.execSSrSeed a b s
  | .sMpass a => Sys2Proof.Machine.execSMpass a s
  | .sCollGo a sem => Sys2Proof.Machine.execSCollGo a sem s
  | .cNop f => Sys2Proof.Machine.execCNop f s
  | .cClr f => Sys2Proof.Machine.execCClr f s
  | .cMov f => Sys2Proof.Machine.execCMov f s
  | .cMovi f => Sys2Proof.Machine.execCMovi f s
  | .cAdd f => Sys2Proof.Machine.execCAdd f s
  | .cSub f => Sys2Proof.Machine.execCSub f s
  | .cMul f => Sys2Proof.Machine.execCMul f s
  | .cFma f => Sys2Proof.Machine.execCFma f s
  | .cFms f => Sys2Proof.Machine.execCFms f s
  | .cNeg f => Sys2Proof.Machine.execCNeg f s
  | .cAbs f => Sys2Proof.Machine.execCAbs f s
  | .cMin f => Sys2Proof.Machine.execCMin f s
  | .cMax f => Sys2Proof.Machine.execCMax f s
  | .cAnd f => Sys2Proof.Machine.execCAnd f s
  | .cOr f => Sys2Proof.Machine.execCOr f s
  | .cXor f => Sys2Proof.Machine.execCXor f s
  | .cNot f => Sys2Proof.Machine.execCNot f s
  | .cShl f => Sys2Proof.Machine.execCShl f s
  | .cShr f => Sys2Proof.Machine.execCShr f s
  | .cSar f => Sys2Proof.Machine.execCSar f s
  | .cRot f => Sys2Proof.Machine.execCRot f s
  | .cCmpEq f => Sys2Proof.Machine.execCCmpEq f s
  | .cCmpNe f => Sys2Proof.Machine.execCCmpNe f s
  | .cCmpLt f => Sys2Proof.Machine.execCCmpLt f s
  | .cCmpLe f => Sys2Proof.Machine.execCCmpLe f s
  | .cSel f => Sys2Proof.Machine.execCSel f s
  | .cSetg f => Sys2Proof.Machine.execCSetg f s
  | .cCvt f => Sys2Proof.Machine.execCCvt f s
  | .cPack f => Sys2Proof.Machine.execCPack f s
  | .cUnpack f => Sys2Proof.Machine.execCUnpack f s
  | .cReq f => Sys2Proof.Machine.execCReq f s
  | .cRcp f => Sys2Proof.Machine.execCRcp f s
  | .cRsq f => Sys2Proof.Machine.execCRsq f s
  | .cExp2 f => Sys2Proof.Machine.execCExp2 f s
  | .cLog2 f => Sys2Proof.Machine.execCLog2 f s
  | .cHsum f => Sys2Proof.Machine.execCHsum f s
  | .cHmax f => Sys2Proof.Machine.execCHmax f s
  | .cHmin f => Sys2Proof.Machine.execCHmin f s
  | .cMmaE4m3 f => Sys2Proof.Machine.execCMmaE4m3 f s
  | .cMmaE5m2 f => Sys2Proof.Machine.execCMmaE5m2 f s
  | .cMmaE2m1 f => Sys2Proof.Machine.execCMmaE2m1 f s
  | .cMmaBf16 f => Sys2Proof.Machine.execCMmaBf16 f s
  | .cMmaF16 f => Sys2Proof.Machine.execCMmaF16 f s
  | .cMmaI8 f => Sys2Proof.Machine.execCMmaI8 f s
  | .cMmaI4 f => Sys2Proof.Machine.execCMmaI4 f s
  | .cMmaT f => Sys2Proof.Machine.execCMmaT f s
  | .cOsw f => Sys2Proof.Machine.execCOsw f s
  | .cOsr f => Sys2Proof.Machine.execCOsr f s
  | .cDrn f => Sys2Proof.Machine.execCDrn f s
  | .cFlg f => Sys2Proof.Machine.execCFlg f s
  | .cHash32 f => Sys2Proof.Machine.execCHash32 f s
  | .cTidx f => Sys2Proof.Machine.execCTidx f s
  | .yxNop ax => Sys2Proof.Machine.execYxNop ax s
  | .yxSet ax m m2 => Sys2Proof.Machine.execYxSet ax m m2 s
  | .yxOne ax m => Sys2Proof.Machine.execYxOne ax m s
  | .yxNone ax m => Sys2Proof.Machine.execYxNone ax m s
  | .yxShl ax m n => Sys2Proof.Machine.execYxShl ax m n s
  | .yxShr ax m n => Sys2Proof.Machine.execYxShr ax m n s
  | .yxRotl ax m n => Sys2Proof.Machine.execYxRotl ax m n s
  | .yxRotr ax m n => Sys2Proof.Machine.execYxRotr ax m n s
  | .yxAnd ax m m2 => Sys2Proof.Machine.execYxAnd ax m m2 s
  | .yxOr ax m m2 => Sys2Proof.Machine.execYxOr ax m m2 s
  | .yxRange ax m lo len => Sys2Proof.Machine.execYxRange ax m lo len s
  | .yxStride ax m ph st => Sys2Proof.Machine.execYxStride ax m ph st s
  | .yxFlag ax m => Sys2Proof.Machine.execYxFlag ax m s
  | .yxFlagN ax m => Sys2Proof.Machine.execYxFlagN ax m s
  | .nwNop l => Sys2Proof.Machine.execNwNop l s
  | .nwGo l => Sys2Proof.Machine.execNwGo l s
  | .nwStep l dst => Sys2Proof.Machine.execNwStep l dst s
  | .nwAuto l dst n => Sys2Proof.Machine.execNwAuto l dst n s
  | .nwHold l => Sys2Proof.Machine.execNwHold l s
  | .nwZero l => Sys2Proof.Machine.execNwZero l s
  | .nwBcast l j => Sys2Proof.Machine.execNwBcast l j s
  | .nwSet l f v => Sys2Proof.Machine.execNwSet l f v s
  | .wGather => Sys2Proof.Machine.execWGather s
  | .dNop => Sys2Proof.Machine.execDNop s
  | .dGo => Sys2Proof.Machine.execDGo s
  | .dSt => Sys2Proof.Machine.execDSt s
  | .dAcc ty rm => Sys2Proof.Machine.execDAcc ty rm s
  | .dRed op ty er => Sys2Proof.Machine.execDRed op ty er s
  | .dSeg => Sys2Proof.Machine.execDSeg s
  | .dSet f v => Sys2Proof.Machine.execDSet f v s
  | .tNop => Sys2Proof.Machine.execTNop s
  | .tTin i0 => Sys2Proof.Machine.execTTin i0 s
  | .tTinSp i0 addr => Sys2Proof.Machine.execTTinSp i0 addr s
  | .tTout j => Sys2Proof.Machine.execTTout j s
  | .tTclr => Sys2Proof.Machine.execTTclr s
  | .aNop => Sys2Proof.Machine.execANop s
  | .aLand slot sa sd lines d => Sys2Proof.Machine.execALand slot sa sd lines d s
  | .aHExpect h n => Sys2Proof.Machine.execAHExpect h n s
  | .aHWait h p => Sys2Proof.Machine.execAHWait h p s
  | .aHDrain h => Sys2Proof.Machine.execAHDrain h s
  | .aHFree h => Sys2Proof.Machine.execAHFree h s
  | .aOsClaim h first count => Sys2Proof.Machine.execAOsClaim h first count s
  | .aOsSeal h => Sys2Proof.Machine.execAOsSeal h s
  | .aOsRelease h => Sys2Proof.Machine.execAOsRelease h s
  | .aPfc sa rc lines => Sys2Proof.Machine.execAPfc sa rc lines s
  | .flitCrcFailure => Sys2Proof.Machine.execFlitCrcFailure s
  | .pfcPauseExpiry prio => Sys2Proof.Machine.execPfcPauseExpiry prio s
  | .regionCacheInvalidation => Sys2Proof.Machine.execRegionCacheInvalidation s
  | .reservedPacketOpcode pr op => Sys2Proof.Machine.execReservedPacketOpcode pr op s
  | .reservedCodeWord w => Sys2Proof.Machine.execReservedCodeWord w s
  | .reservedSlotOpcode slot => Sys2Proof.Machine.execReservedSlotOpcode slot s

end Sys2Proof.Machine
end

