-- ==== Sys2Proof/Machine/Cycle.lean ====
section
/-! DEFINITION. One ac of an array, or of a chain as one clock domain (R145 to R160, R168, R224, R225). -/
namespace Sys2Proof.Machine
open Sys2Proof

/-- The state that an instruction leaves; a stop leaves the state as it is (no slot or array event stops). -/
def perform (i : Instr) (s : State) : State :=
  match exec i s with
  | .next t => t
  | .fault _ => s
  | .refused _ => s

/-- Perform an instruction at array p, row r. -/
def performAt (i : Instr) (p r : Nat) (s : State) : State :=
  perform i { s with cur := { s.cur with phys := p, row := r } }

/-- The members of a chain from a leader down (R157). -/
def chainFrom (s : State) : Nat → Nat → List Nat
  | 0, p => [p]
  | n + 1, p =>
    match (arrOf s p).lower with
    | some q => p :: chainFrom s n q
    | none => [p]

/-- The chain that array p leads; p alone where it leads none. -/
def chainOf (s : State) (p : Nat) : List Nat := chainFrom s 3 p

/-- The position of an array in its issue and halting ac. -/
def clkOf (a : ArrayS) : Nat := a.tt + a.hac

-- What reaches the south edge (R154, R156, R159, R176, R229)

/-- An entry leaves row 63 of an array: DLAT, the sticky flags and the taps of a segmented DRN. -/
def leaveRows (a : ArrayS) (x : Option PipeE) : ArrayS :=
  match x with
  | none => { a with edgeTaps := [] }
  | some e =>
    let a := { a with fstOr := e.fst, edgeTaps := e.taps.map (fun t => t.2) }
    match e.ins with
    | .cDrn _ => { a with dlat := e.lane.map (fun (l : Nat × Nat) => (l.1, BitVec.ofNat 32 l.2)) }
    | _ => a

/-- What the last member's entry gives the leader: SIGS, and the edge flag 2 issue cycles later, or 2 + 8g
behind g slow links (R156, R159). `clk` is the leader's position. -/
def leaveChain (a : ArrayS) (slow : Nat) (x : Option PipeE) : ArrayS :=
  match x with
  | none => a
  | some e =>
    let bytes := leBytes 8 e.craw.toNat ++ leBytes 8 e.ym0.toNat ++ leBytes 8 e.xm0.toNat
    let a := { a with sigs := crcBytes a.sigs bytes, sigiRef := e.sigi }
    match e.ins with
    | .cFlg f =>
      let op := bitB f.spec 13
      let ef := if op then e.fl == BitVec.allOnes 64 else e.fl != 0
      { a with efq := a.efq ++ [(clkOf a + 2 + 8 * slow, e.fl, ef, op)] }
    | _ => a

/-- Results that have become readable: EFV and er (R156, R191). -/
def readable (a : ArrayS) : ArrayS :=
  let a := a.efq.foldl (fun (a : ArrayS) (q : Nat × W64 × Bool × Bool) =>
    if q.1 ≤ clkOf a then { a with efv := q.2.1, ef := q.2.2.1, efop := q.2.2.2 } else a) a
  let now := clkOf a
  let a := { a with efq := a.efq.filter (fun q => now < q.1) }
  let a := a.erq.foldl (fun (a : ArrayS) (q : Nat × Nat × W64) =>
    if q.1 ≤ a.tt then { a with er := tabSet a.er q.2.1 q.2.2 } else a) a
  { a with erq := a.erq.filter (fun q => a.tt < q.1) }

/-- Latch loads and transposer operations that every bundle still to come sees (R150, R192) are folded into
the latches and TBUF. -/
def settleLogs (a : ArrayS) : ArrayS :=
  let oldL := a.latchLog.filter (fun l => l.tt + 72 ≤ a.tt)
  let a := oldL.foldl (fun (a : ArrayS) l =>
    (List.range 64).foldl (fun (a : ArrayS) i =>
      let k := 64 * l.id + i
      let x := pvElem l.vec i
      let m := 4 * k + l.q
      { a with
        latch := tabSet a.latch k (setField (tabGet a.latch 0 k) (32 * l.q) 32 x.1.toNat)
        latchMk := if x.2 then setInsert a.latchMk m else a.latchMk.filter (fun y => !(y == m)) }) a) a
  let a := { a with latchLog := a.latchLog.filter (fun l => a.tt < l.tt + 72) }
  let oldT := a.tq.filter (fun o => o.tt + 16 ≤ a.tt)
  let a := oldT.foldl (fun (a : ArrayS) o =>
    match o.row with
    | none => { a with tbuf := [], tbufMk := [] }
    | some r =>
      (List.range 64).foldl (fun (a : ArrayS) j =>
        let x := pvElem o.vec j
        { a with tbuf := tabSet a.tbuf (64 * r + j) x.1, tbufMk := tabPut a.tbufMk false (64 * r + j) x.2 }) a) a
  { a with tq := a.tq.filter (fun o => a.tt < o.tt + 16) }

-- The pipe (R147, R148, R157 to R159)

/-- An entry takes a follower's masks and port vectors (R151, R158), and the cm of the row 63 it leaves
(R159). -/
def crossLink (above : ArrayS) (smp : Option Sample) (x : Option PipeE) : Option PipeE :=
  x.map (fun e =>
    let up := cmRow above 63
    let e : PipeE := { e with upcm := some up.1, upmk := up.2, taps := [], tapLive := 0 }
    match smp, cParts e.ins with
    | some m, some (_, f) =>
      { e with
        ym := tabGet m.ym (BitVec.allOnes 64) f.ys.toNat, xm := tabGet m.xm (BitVec.allOnes 64) f.xs.toNat
        seg := tabGet m.ym (BitVec.allOnes 64) (bitsN f.spec 8 2), np := m.np, wp := m.wp }
    | _, _ => e)

/-- Each row takes in the vectors of the entry that has just come to it (R148). -/
def takePorts (a : ArrayS) : ArrayS :=
  a.pipe.zipIdx.foldl (fun (a : ArrayS) (x : Option PipeE × Nat) =>
    match x.1 with
    | none => a
    | some e =>
      let r := x.2
      let a := match e.np with
        | some v => { a with npq := tabMod a.npq [] r (fun q => q ++ [v]) }
        | none => a
      match e.wp with
      | some v => { a with wpq := tabMod a.wpq [] r (fun q => q ++ [pvElem v r]) }
      | none => a) a

/-- Move the pipe of an array by one row; answers what leaves row 63. -/
def shiftOne (a : ArrayS) (inp : Option PipeE) : ArrayS × Option PipeE :=
  let out := listGet a.pipe none 63
  let a := { a with cm63 := cmRow a 63 }
  (takePorts { a with pipe := (inp :: a.pipe).take 64 }, out)

/-- Move the pipes of a chain, leader first (R157, R159). -/
def shiftChain (s : State) (ms : List Nat) : State :=
  let step (x : State × Option PipeE × Nat) (p : Nat) : State × Option PipeE × Nat :=
    let (s, from_, slow) := x
    let a := arrOf s p
    if a.chpos = 0 then
      let (a, out) := shiftOne { a with inq := [] } (a.inq.head?.getD none)
      let s := setArr s p (leaveRows a out)
      (match out with | some e => mpeEdge65 s p e | none => s, out, slow)
    else
      let above := match ms[a.chpos - 1]? with | some q => arrOf s q | none => a
      let (inp, inq) :=
        if a.slow then
          let q := crossLink above none from_ :: a.inq
          (listGet q none 8, q.take 8)
        else (crossLink above none from_, [])
      let inp := inp.map (fun e =>
        match crossLink above a.smp (some e) with
        | some g => { g with upcm := e.upcm, upmk := e.upmk }
        | none => e)
      let (a, out) := shiftOne { a with inq := inq, smp := none } inp
      (setArr s p (leaveRows a out), out, if a.slow then slow + 1 else slow)
  let (s, out, slow) := ms.foldl step (s, none, 0)
  match ms with
  | [] => s
  | p :: _ => modArr s p (fun a => leaveChain a slow out)

/-- Perform the C slots in the rows of array p, row 63 first, so that a dn read sees the row below after
this ac and an up read the row above before it (R149). -/
def runRows (s : State) (p : Nat) : State :=
  (List.range 64).foldl (fun s i =>
    let r := 63 - i
    match listGet (arrOf s p).pipe none r with
    | some e => performAt e.ins p r s
    | none => s) s

/-- The same for a chain, last member first; a row 63 reads the cm below the link, which across a slow one is that
of the bundles up to t - 17 (R159). -/
def runChain (s : State) (ms : List Nat) : State :=
  ms.reverse.foldl (fun s p =>
    let a := arrOf s p
    let low : Option (Tab Vec × W64) :=
      match a.lower with
      | none => none
      | some q =>
        let b := arrOf s q
        if b.slow then b.cm0[8]? else some (cmRow b 0)
    let s := runRows (setArr s p { a with cmLow := low }) p
    modArr s p (fun a => { a with cm0 := (cmRow a 0 :: a.cm0).take 9 })) s

-- Issue (R145, R151, R158, R163, R178, R224, R229)

/-- A C slot uses a stochastic rounding count (R276). -/
def usesCount (i : Instr) : Bool := match cParts i with | some (_, f) => f.rm = 5 | none => false

/-- The port vector a bundle carries; where a loader and the transposer both feed wp, which travels is open, and is the same
in every run of the program (R143; log entry 22). -/
def carriedVec (a : ArrayS) (north : Bool) : Option PortVec :=
  match carried a a.tt north with
  | [] => none
  | [v] => some v
  | v :: w :: _ => if Config.portChoice a.logical a.tt then some v else some w

/-- The C slot NOP. -/
def nopC : Instr := .cNop ⟨0, 0, 0, 0, 0, 0, 0, 0, 0, false, 0, false, 0, 0⟩

/-- The C slot enters the pipe with its masks and vectors (R147, R148, R151); the ports' row 0 occupancy
and the stochastic-rounding count move on. -/
def enterC (s : State) (p : Nat) (z : SlotBits) (i : Instr) : State :=
  modArr s p (fun a =>
    let f : CSlot := match cParts i with
      | some (_, f) => f
      | none => ⟨0, 0, 0, 0, 0, 0, 0, 0, 0, false, 0, false, 0, 0⟩
    let np := carriedVec a true
    let wp := carriedVec a false
    let names (west : Bool) : Nat :=
      match cParts i with | some (o, f) => if namesPort o f west then 1 else 0 | none => 0
    let ym := ymOf a f.ys
    let xm := xmOf a f.xs
    let sigi := crcBytes a.sigi (leBytes 8 z.c.toNat ++ leBytes 8 ym.toNat ++ leBytes 8 xm.toNat)
    let e : PipeE :=
      { ins := i, craw := z.c, ym := ym, xm := xm, seg := ymOf a (BitVec.ofNat 2 (bitsN f.spec 8 2)),
        em := a.edgemode, srn := a.srcount, seed := a.seed, tile := a.tile, pc := a.pc, tt := a.tt,
        word := a.word, np := np, wp := wp, lane := [], taps := [], fl := 0, fst := 0, sigi := sigi,
        upcm := none, upmk := 0, perf := 0x3FF, ym0 := ym, xm0 := xm }
    { a with
      inq := [some e], sigi := sigi
      occN := a.occN + (if np.isSome then 1 else 0) - names false
      occW := a.occW + (if wp.isSome then 1 else 0) - names true
      fly := a.fly.filter (fun v => !(v.due == a.tt))
      srcount := if usesCount i then a.srcount + 1 else a.srcount })

/-- The entry with TT t that is on its way to a follower. -/
def entryOn (s : State) (ms : List Nat) (t : Nat) : Option PipeE :=
  (ms.flatMap (fun p => (arrOf s p).pipe ++ (arrOf s p).inq)).findSome? (fun x =>
    match x with
    | some e => if e.tt = t then some e else none
    | none => none)

/-- A follower's sample for the leader's C slot of the same bundle (R151, R158), which it counts as the leader
does (R276). -/
def sampleC (s : State) (p : Nat) (i : Instr) : State :=
  modArr s p (fun a =>
    let np := carriedVec a true
    let wp := carriedVec a false
    let names (west : Bool) : Nat :=
      match cParts i with | some (o, f) => if namesPort o f west then 1 else 0 | none => 0
    { a with
      smp := some { ym := a.ym, xm := a.xm, np := np, wp := wp }
      occN := a.occN + (if np.isSome then 1 else 0) - names false
      occW := a.occW + (if wp.isSome then 1 else 0) - names true
      fly := a.fly.filter (fun v => !(v.due == a.tt))
      srcount := if usesCount i then a.srcount + 1 else a.srcount })

/-- The slots of an issue cycle in the order in which the model performs them, after the C slot. -/
def edgeSlots : List Slot := [.y, .x, .n, .w, .d, .t, .a, .s]

/-- A bundle's slots, those of `want`, at array p (R235): the C slot samples first, and the S slot of a
follower is not decoded (R158). `first` is false in a replay of single slots: no AUTO reads there (R366). -/
def runSlots (s : State) (p : Nat) (z : SlotBits) (want : BitVec 10) (lead : Option Instr) (first : Bool) :
    State :=
  let s :=
    if !bitB want 1 then s
    else
      match lead with
      | some i => sampleC s p i
      | none =>
        match slotInstr z .c with
        | .reservedSlotOpcode sl =>
          performAt (.reservedSlotOpcode sl) p 0 (if first then enterC s p z nopC else s)
        | i => enterC s p z i
  let s := edgeSlots.foldl (fun s sl =>
    if bitB want (slotCode sl) && !(sl = .s && lead.isSome) then performAt (slotInstr z sl) p 0 s else s) s
  if first then modArr s p (fun a => autoStep .w (autoStep .n a)) else s

/-- Fault a whole bundle (R224): every slot unperformed, the faulting slot 0xF (R226). -/
def wholeFault (a : ArrayS) (c : Cause) (detail : W64) : ArrayS :=
  { a with faults := a.faults ++ [{ cause := c, slot := 0xF, detail := detail }], perf := 0 }

/-- A Y slot or MOV.YM that writes ym2 or ym3 during a message-passing step (R203). -/
def stepMaskSlot (a : ArrayS) (z : SlotBits) : Option Slot :=
  if a.mpe.isNone then none
  else if bitsN z.s 56 8 = 0x60 && bitB z.s 34 then some .s
  else if 1 ≤ bitsN z.y 12 4 && bitsN z.y 12 4 ≤ 12 && bitB z.y 11 then some .y
  else none

/-- The fault that leaves a whole bundle unperformed, if there is one (R203, R224, R230, R231, R237, R178,
R183). `c` is the C slot that names ports. -/
def bundleFault (a : ArrayS) (f : Fetched) (z : SlotBits) (c : Instr) : Option (Cause × W64) :=
  if f.pois then some (.poison, 5)
  else
    match (if f.word = 0xFFF0 then firstConflict z else none), stepMaskSlot a z, portFault a c,
      bankClash (requests a z) with
    | some (i, j), _, _, _ => some (.slotcf, BitVec.ofNat 64 (i + 16 * j))
    | none, some sl, _, _ => some (.slotcf, ownPair sl)
    | none, none, some x, _ => some x
    | none, none, none, some d => some (.bankcf, d)
    | none, none, none, none => none

/-- Landing and staging writes of an issue cycle, made after its reads (R165, R204). -/
def timedWrites (s : State) (p : Nat) : State :=
  modArr (performAt .landingWrite p 0 s) p mpeStage

/-- The frozen ac that follow an issue cycle (R183, R190). -/
def stallAfter (a : ArrayS) (q : List (Nat × List Nat)) : Nat :=
  bankStall q + (match a.gath with
    | some g =>
      max 1 (bankDepth ((g.filter (fun x => !(x.1 == spadSize))).foldl
        (fun t x => setInsert t (x.1 / 64)) []))
    | none => 0)

/-- The loop advance and the next PC (R232, R286): not in a message-passing step, and not where the S slot
traps or moves PC itself. -/
def nextPcOf (a : ArrayS) (inStep : Bool) : ArrayS :=
  if inStep then { a with boundary := blockBoundary a }
  else
    let sBad := !bitB a.perf 0 || a.faults.any (fun f => f.cause = .trapi)
    if a.jumped || sBad then { a with pc := a.nextPc, boundary := false }
    else
      let (pc, loops, sw) := loopAdvance a.pc a.nextPc a.loops false
      { a with pc := pc, loops := loops, boundary := sw }

/-- The landing slots in use, those of a message-passing step among them (R170, R202). -/
def busyNow (a : ArrayS) : W32 :=
  ofBits 32 (fun i => (tabFind a.land i).isSome || (a.mpe.isSome && 16 ≤ i))

/-- What the slots of a bundle that issues now read (R235). -/
def inputsOf (a : ArrayS) : InputS :=
  { s := a.s, ym := a.ym, xm := a.xm, shN := a.ldN.shadow, shW := a.ldW.shadow, shD := a.ldD.shadow, srn := a.srcount
    seed := a.seed, tile := a.tile }

/-- Get an array ready for a bundle: what its slots and system registers read as they stood at the start of
the issue cycle (R235). -/
def beginIssue (a : ArrayS) (f : Fetched) : ArrayS :=
  let a := match a.mpe with
    | some m => if mpeSb m (mpeB m) + 65 ≤ a.tt then { a with mpe := none } else a
    | none => a
  { a with
    word := f.word, cur := f.bits, perf := 0x3FF, jumped := false, ledAuto := 0,
    nextPc := a.pc + (if f.word = 0xFFF0 then 25 else 1), walkBad := false, divLeft := none, descVa := none,
    handles0 := a.hstart.getD a.handles, busy0 := busyNow a, inp := inputsOf a }

/-- What an issue cycle leaves at its end: TT, TTCRC, the next PC and the frozen ac to come. -/
def endIssue (a : ArrayS) (f : Fetched) (inStep : Bool) (q : List (Nat × List Nat)) : ArrayS :=
  let w := f.words.flatMap (fun x => leBytes 2 x.toNat)
  let a := nextPcOf { a with stall := stallAfter a q } inStep
  let h : HeldS := { bits := a.cur, word := a.word, pc := 0, tt := a.tt, perf := a.perf, rows := [], inp := a.inp }
  { a with tt := a.tt + 1, ttcrc := crcBytes a.ttcrc w, held := if a.cond = .halting then some h else none }

/-- The slots of a bundle that a member decodes: a follower neither its own C slot nor its S slot (R158). -/
def decodedSlots (b : BundleBits) (lead : Option Instr) : SlotBits :=
  if lead.isSome then { slotBits b with s := 0, c := 0 } else slotBits b

/-- The uses of srcount in a bundle whose C slot is `c`: RM = 5 in it, and in an ACC (R276). -/
def countUses (c : Instr) (z : SlotBits) : Nat :=
  (if usesCount c then 1 else 0) + (match slotInstr z .d with | .dAcc _ .sr => 1 | _ => 0)

/-- Issue the next bundle of array p (R145, R224). `lead` holds the C slot of a chain's leader where p is a follower. A
bundle that is wholly unperformed has issued all the same, and counts in srcount (R276). -/
def issueOne (s : State) (p : Nat) (lead : Option Instr) : State :=
  let s := mpePre s p
  let a := arrOf s p
  if a.cond = .held then s
  else
    let f := fetchBundle a
    let z := decodedSlots f.bits lead
    let a := beginIssue a f
    let pc := a.pc
    let inStep := a.mpe.isSome
    let s := setArr s p a
    if f.ill then
      modArr (performAt (.reservedCodeWord f.word) p 0 s) p (fun a => endIssue a { f with words := [] } inStep [])
    else
      let c := match lead with | some i => i | none => slotInstr z .c
      match bundleFault a f z c with
      | some (cause, d) => modArr s p (fun a =>
          endIssue (wholeFault { a with srcount := a.srcount + BitVec.ofNat 32 (countUses c z) } cause d) f inStep [])
      | none =>
        let q := requests a z
        let s := runSlots s p z 0x3FF lead true
        let s := timedWrites s p
        modArr s p (fun a =>
          let b := endIssue a f (inStep && a.mpe.isSome) q
          { b with held := b.held.map (fun h => { h with pc := pc }) })

-- Traps (R158, R160, R224, R225)

/-- The members that have trapped are held, and their node is told of the first record (R139, R142, R226). -/
def tellNode (s : State) (ms trapped : List Nat) : State :=
  match trapped.findSome? (fun p => (arrOf s p).trec) with
  | some t => nodeTrapped s ms t
  | none => s

/-- After an ac: every member that found a fault takes its trap, and the whole chain is held (R160, R224). -/
def settleTraps (s : State) (ms : List Nat) (pcs : List (Nat × Nat × Nat)) : State :=
  let trapped := ms.filter (fun p => !(arrOf s p).faults.isEmpty || (arrOf s p).cond = .held)
  if !trapped.isEmpty then
    let s := ms.foldl (fun s p =>
      modArr s p (fun a =>
        if a.faults.isEmpty then { a with cond := .held, held := if a.cond = .held then a.held else none }
        else
          let at_ : Nat × Nat := match pcs.find? (fun x => x.1 = p) with
            | some x => x.2
            | none => (a.pc, a.tt)
          let b := takeTrap { a with pc := at_.1, tt := at_.2 }
          { b with pc := a.pc, tt := a.tt })) s
    tellNode s ms trapped
  else s

/-- The entries of a table that a slot has changed from `old`, put into `base`. -/
def tabMerge {α : Type} [DecidableEq α] (old now base : Tab α) : Tab α :=
  now.foldl (fun t x => if tabFind old x.1 = some x.2 then t else tabSet t x.1 x.2) base

/-- An array with the inputs of a held bundle (R225). -/
def withInputs (a : ArrayS) (i : InputS) : ArrayS :=
  { a with
    s := i.s, ym := i.ym, xm := i.xm, srcount := i.srn, seed := i.seed, tile := i.tile
    ldN := { a.ldN with shadow := i.shN }, ldW := { a.ldW with shadow := i.shW }, ldD := { a.ldD with shadow := i.shD } }

/-- After the slots of a held bundle have run on their inputs: what they have changed, and else what the array holds by
now, `b`. A replay counts nothing in srcount; an SR.SEED that runs in it sets it (R225, R276). -/
def restoreInputs (i : InputS) (b a : ArrayS) (seeded : Bool) : ArrayS :=
  { a with
    s := tabMerge i.s a.s b.s, ym := tabMerge i.ym a.ym b.ym, xm := tabMerge i.xm a.xm b.xm
    ldN := { a.ldN with shadow := tabMerge i.shN a.ldN.shadow b.ldN.shadow }
    ldW := { a.ldW with shadow := tabMerge i.shW a.ldW.shadow b.ldW.shadow }
    ldD := { a.ldD with shadow := tabMerge i.shD a.ldD.shadow b.ldD.shadow }
    srcount := if seeded then a.srcount else b.srcount, seed := if seeded then a.seed else b.seed
    tile := if seeded then a.tile else b.tile }

/-- An SR.SEED of a held bundle runs in its replay. -/
def seedsIn (z : SlotBits) (want : BitVec 10) (lead : Option Instr) : Bool :=
  bitB want 0 && lead.isNone && (match slotInstr z .s with | .sSrSeed _ _ => true | _ => false)

/-- The unperformed slots of a held bundle, on the inputs they would have had (R225): an ACC counts after the C slot of its
bundle (R276). -/
def replaySlots (s : State) (p : Nat) (z : SlotBits) (want : BitVec 10) (lead : Option Instr) (i : InputS)
    (first : Bool) : State :=
  let b := arrOf s p
  let c := match lead with | some i => i | none => slotInstr z .c
  let j : InputS := if !bitB want 1 && usesCount c then { i with srn := i.srn + 1 } else i
  modArr (runSlots (modArr s p (fun a => withInputs a j)) p z want lead first) p (fun a =>
    restoreInputs i b a (seedsIn z want lead && a.faults.isEmpty))

/-- The replay ac of a member (R225): only what was not performed runs, with the inputs it would have had;
no bundle issues. -/
def replayOne (s : State) (p : Nat) (lead : Option Instr) : State :=
  let a := arrOf s p
  match a.held with
  | none => s
  | some h =>
    let z := decodedSlots h.bits lead
    let pc := a.pc
    let tt := a.tt
    let whole := h.perf = 0
    let s := setArr s p
      { a with
        word := h.word, cur := h.bits, perf := BitVec.allOnes 10, faults := [], jumped := false,
        ledAuto := if whole then 0 else 7,
        pc := h.pc, tt := h.tt, nextPc := h.pc + (if h.word = 0xFFF0 then 25 else 1)
        handles0 := a.hstart.getD a.handles, busy0 := busyNow a, inp := h.inp }
    let s := h.rows.foldl (fun s x => performAt x.2.ins p x.1 s) s
    let s :=
      if !whole then replaySlots s p z (~~~h.perf) lead h.inp false
      else
        let b := arrOf s p
        let f : Fetched := { word := h.word, bits := h.bits, words := [] }
        let c := match lead with | some i => i | none => slotInstr z .c
        if (a.trec.map (fun t => t.cause)) = some .illcode then performAt (.reservedCodeWord h.word) p 0 s
        else
          match bundleFault b f z c with
          | some (cause, d) => setArr s p (wholeFault b cause d)
          | none =>
            let q := requests b z
            modArr (timedWrites (replaySlots s p z 0x3FF lead h.inp true) p) p (fun a =>
              { a with stall := stallAfter a q })
    let again := arrOf s p
    if !again.faults.isEmpty then
      setArr s p { takeTrap again with pc := pc, tt := tt }
    else
      let ranS := whole || !bitB h.perf 0
      let b := if ranS && a.mpe.isNone then nextPcOf again false else { again with pc := pc }
      let pc := if ranS && a.mpe.isNone then b.pc else pc
      let done_ : HeldS := { h with rows := [], perf := 0x3FF }
      setArr s p { b with pc := pc, tt := tt, held := if b.haltSeen then some done_ else none }

/-- The replay ac of a chain. -/
def replayChain (s : State) (ms : List Nat) : State :=
  let s := ms.foldl (fun s p =>
    let a := arrOf s p
    let lead : Option Instr :=
      if a.chpos = 0 then none
      else match a.held with
        | some h => (entryOn s ms h.tt).map (fun e => e.ins)
        | none => none
    replayOne (setArr s p { a with replay := false }) p lead) s
  let trapped := ms.filter (fun p => (arrOf s p).trec.isSome && (arrOf s p).cond = .held)
  if !trapped.isEmpty then
    tellNode (ms.foldl (fun s p => modArr s p (fun a => { a with cond := .held })) s) ms trapped
  else
    ms.foldl (fun s p =>
      modArr s p (fun a => { a with
        cond := if a.haltSeen then .halting else .running })) s

-- One ac (R145)

/-- What an uncorrectable error of an array SRAM marks poisoned (R230, R399). A cell's registers are q0 to q15, k0
to k7, cm and ha in that order; the shed bank holds a row while its array is pre-empted. -/
def sramMark (a : ArrayS) (l : SramLoc) : ArrayS :=
  match l with
  | .cell r c reg =>
    let x := cellAt a r c
    setCell a r c
      (if reg < 16 then { x with qm := setBit x.qm reg true }
       else if reg < 24 then { x with km := setBit x.km (reg - 16) true }
       else if reg = 24 then { x with cmm := true } else { x with ham := true })
  | .os r c slot => let x := cellAt a r c; setCell a r c { x with osm := setBit x.osm slot true }
  | .spad w => { a with spMk := tabPut a.spMk false w true }
  | .code w => { a with codeUe := setInsert a.codeUe w }
  | .dict w => { a with dictUe := setInsert a.dictUe w }
  | .dmem w => { a with dmUe := setInsert a.dmUe w }
  | .land slot line =>
    let mark (t : Tab (BitVec 512 × W64)) : Tab (BitVec 512 × W64) :=
      t.map (fun y => if y.1 = line then (y.1, y.2.1, allBytes) else y)
    if slot = 32 then { a with mpe := a.mpe.map (fun m => { m with feat := mark m.feat }) }
    else
      { a with land := a.land.map (fun (x : Nat × LandS) =>
          if x.1 = slot then (x.1, { x.2 with lines := mark x.2.lines }) else x) }
  | .shed row =>
    if a.cond = .preempted then
      { a with pipe := a.pipe.modify row (fun e => e.map (fun e => { e with pois := true })) }
    else a
  | .egress k => { a with eg := a.eg.map (fun x => if x.1 = k then (x.1, { x.2 with poison := true }) else x) }

/-- The errors that an array's SRAM has taken (R230): a corrected one logs a record of class CE, an uncorrectable one
marks its value. -/
def sramTake (s : State) (p : Nat) : State :=
  (arrOf s p).sram.foldl (fun s e =>
    if e.ue then modArr s p (fun a => sramMark a e.loc)
    else logErr s ecCE (bhOfArr p) (partOfArr s p) 1 0x3FFF 0 1)
    (if (arrOf s p).sram.isEmpty then s else modArr s p (fun a => { a with sram := [] }))

/-- What goes on at an array in every ac, frozen or not (R168, R194, R230, R281). -/
def everyAc (s : State) (p : Nat) : State :=
  let s := performAt .pendingValueWrite p 0 (sramTake s p)
  modArr s p (fun a => settleLogs (readable { a with
    handles := a.handles.map (fun (h : Nat × HandleS) => (h.1, hSettle h.2)) }))

/-- Count an ac at an array. -/
def countAc (s : State) (p : Nat) : State :=
  modArr s p (fun a => { a with ac := a.ac + 1, preLeft := a.preLeft - 1 })

/-- Count a frozen ac at every member of a chain (R145, R160). -/
def frozenAc (s : State) (ms : List Nat) : State :=
  ms.foldl (fun s q => modArr s q (fun a => { a with frzac := a.frzac + 1 })) s

/-- Note what the leader had for the bundle it issues now (R158, R356). -/
def noteLead (s : State) (p : Nat) : State :=
  modArr s p (fun a =>
    let l : LeadLog := { tt := a.tt, pc := a.pc, efv := a.efv, seed := a.seed, tile := a.tile, srn := a.srcount }
    { a with lead := (l :: a.lead).take 320 })

/-- The bundles that a chain's members are due to issue in this ac: a follower takes on what the leader had for
its bundle (R158, R276, R356). -/
def alignChain (s : State) (ms : List Nat) : State × List (Nat × Due) :=
  match ms with
  | [] => (s, [])
  | p :: rest =>
    let b := arrOf s p
    rest.foldl (fun (x : State × List (Nat × Due)) q =>
      let a := arrOf x.1 q
      match b.lead.find? (fun l => l.tt + a.delay = clkOf b) with
      | none => (x.1, x.2 ++ [(q, .none)])
      | some l =>
        (setArr x.1 q { a with pc := l.pc, efv := l.efv, seed := l.seed, tile := l.tile, srcount := l.srn },
          x.2 ++ [(q, .follow (b.haltSeen && (b.lead.head?.map (fun l => l.tt)) == some l.tt))]))
      (s, [(p, if b.cond = .halting then .none else .lead)])

/-- The followers' bundles that are due now (R158), last member first. -/
def issueFollowers (s : State) (ms : List Nat) (dues : List (Nat × Due)) : State :=
  dues.reverse.foldl (fun s d =>
    match d.2 with
    | .follow _ =>
      let i := match entryOn s ms (arrOf s d.1).tt with
        | some e => e.ins
        | none => nopC
      issueOne s d.1 (some i)
    | _ => s) s

/-- An ac begins with no fault found at the members of a chain. -/
def noFaults (s : State) (ms : List Nat) : State :=
  ms.foldl (fun s q => modArr s q (fun a => { a with faults := [] })) s

/-- The PC and TT of the bundle that each member of a chain issues next. -/
def duePcs (s : State) (ms : List Nat) : List (Nat × Nat × Nat) :=
  ms.map (fun q => (q, (arrOf s q).pc, (arrOf s q).tt))

/-- The pipes of a chain move and their rows perform (R147, R148). -/
def movePipes (s : State) (ms : List Nat) : State := runChain (shiftChain (noFaults s ms) ms) ms

/-- A running ac: the pipe moves, the rows perform, the bundle issues. After a pre-emption the pipe has made the first of
these moves already (R135, R392). -/
def runAc (s : State) (p : Nat) (ms : List Nat) (dues : List (Nat × Due)) : State :=
  let pcs := duePcs s ms
  let s :=
    if (arrOf s p).moved then ms.foldl (fun s q => modArr s q (fun a => { a with moved := false })) (noFaults s ms)
    else movePipes s ms
  let s := if ms.length = 1 then s else noteLead s p
  let s := issueOne (issueFollowers s ms dues) p none
  settleTraps s ms pcs

/-- A halting ac (R145, R288). -/
def haltAc (s : State) (p : Nat) (ms : List Nat) (dues : List (Nat × Due)) : State :=
  let pcs := duePcs s ms
  let s := movePipes s ms
  let s := issueFollowers s ms dues
  let s := modArr s p (fun a => { a with hac := a.hac + 1 })
  let s := settleTraps s ms pcs
  if (arrOf s p).cond = .halting && ms.all (fun q => pipeEmpty (arrOf s q)) then
    let s := performAt .haltComplete p 0 s
    let c := (arrOf s p).cond
    let s := ms.foldl (fun s q => modArr s q (fun a => { a with cond := c })) s
    if c = .held then tellNode s ms [p] else s
  else s

/-- An asynchronous cause at a member is taken at the boundary, and holds the whole chain (R160, R224). -/
def asyncAc (s : State) (ms : List Nat) : State :=
  let trapped := ms.filter (fun q => !(arrOf s q).async.isEmpty)
  let s := trapped.foldl (fun s q => performAt .asynchronousTrap q 0 s) s
  let s := ms.foldl (fun s q => modArr s q (fun a =>
    if a.cond = .held then a else { a with cond := .held, held := none })) s
  tellNode s ms trapped

/-- An ac in which nothing holds the domain: frozen where a member finds a freeze condition, or where the bundle
would close a switchable iteration before what a pre-emption waits for has ended (R168, R284); else running or
halting. A boundary that is reached under a request is noted (R135). -/
def liveAc (s : State) (p : Nat) (ms : List Nat) (dues : List (Nat × Due)) : State :=
  let (s, frozen) := dues.foldl (fun (x : State × Bool) d =>
    let (s, b) := freezeStep x.1 d.1 d.2
    (s, x.2 || b)) (s, false)
  if frozen then frozenAc s ms
  else if (arrOf s p).cond = .halting then haltAc s p ms dues
  else
    let t := runAc s p ms dues
    if (arrOf t p).preReq && (arrOf t p).boundary && (arrOf t p).cond = .running then
      if boundaryWaits (arrOf s p) then frozenAc s ms else performAt .switchableBoundaryReached p 0 t
    else t

/-- An ac after a switchable boundary (R135): in the first of them the pipe still moves, while no bundle issues. -/
def boundaryAc (s : State) (p : Nat) (ms : List Nat) : State :=
  let first := (arrOf s p).tbAc = 0
  let s := ms.foldl (fun s q => modArr s q (fun a => { a with tbAc := a.tbAc + 1, moved := a.moved || first })) s
  if first then settleTraps (movePipes s ms) ms (duePcs s ms) else s

/-- One ac of the clock domain that array p leads (R145). -/
def domainAc (s : State) (p : Nat) : State :=
  let ms := chainOf s p
  let a := arrOf s p
  if a.cond = .held then ms.foldl countAc (ms.foldl everyAc s)
  else if a.cond = .preempted then ms.foldl countAc (boundaryAc (ms.foldl everyAc s) p ms)
  else if a.cond ≠ .running && a.cond ≠ .halting then s
  else
    let s := ms.foldl everyAc s
    let s :=
      if a.replay then replayChain s ms
      else
        let (s, dues) := alignChain s ms
        if ms.any (fun q => !(arrOf s q).async.isEmpty) then asyncAc s ms else liveAc s p ms dues
    ms.foldl countAc s

end Sys2Proof.Machine
end

