-- ==== Sys2Proof/Machine/Schedule.lean ====
section
/-! DEFINITION. One ac of the package: what the clock does by itself, the turns that the ac gives to what is under
way, and the taking of a turn (log entry 2). -/
namespace Sys2Proof.Machine
open Sys2Proof

-- Time (R9, R46)

/-- The nominal period in 2^-32 ns (R46). -/
def nominalPeriod : Nat := 0xC4EC4EC5

/-- The period an ac adds (R46): in host-fed mode RATE corrects it in 1/256 ppm, else the servo. DESIGN CHOICE (log entry
75): the time source runs always, so R9's next start is taken to be the next ac, and a write of TIMECTL.MODE counts from
there. DESIGN CHOICE (log entry 76): the corrected period is rounded to the nearest multiple of 2^-32 ns, as the spec
rounds the nominal one. -/
def clockPeriod (h : HubS) : Nat :=
  if h.tmode then (((nominalPeriod : Int) * h.rate.toInt + 128000000) / 256000000 + nominalPeriod).toNat
  else ((nominalPeriod : Int) + h.adj).toNat

/-- The nanosecond counter after an ac (R46, R47), once the hub's firmware has started it (R32): a held counter absorbs the
period first. -/
def advanceTimer (h : HubS) : HubS :=
  let p := clockPeriod h
  if h.phase ≠ 2 then h
  else if p ≤ h.hold then { h with hold := h.hold - p }
  else { h with hold := 0, timer := (h.timer + (p - h.hold)) % 2 ^ 96 }

-- Budgets (R29, R132, R137)

/-- An array's ac is charged to the node it holds (R132, R137): the node RUNNING, and a logical array that has not
executed HALT, or its save program under SVMODE 1. -/
def charged (nd : NodeS) (a : ArrayS) : Bool :=
  if nd.st = .running then !logicalOver a else nd.st = .draining 1 && a.svrun = 1 && a.cond ≠ .halted

/-- A bulkhead has its clock in this ac (R29). -/
def bhRuns (s : State) (b : Nat) : Bool := !(bhOf s b).skip

/-- A clock domain has an ac: no clock cycle is removed from a bulkhead of its chain (R29, R160). -/
def hasAc (s : State) (p : Nat) : Bool := (chainOf s p).all (fun q => bhRuns s (bhOfArr q))

/-- Arrays that hold a node this ac, those of a domain whose cycle power limiting has removed apart (R29, R132). -/
def heldArrs (s : State) (id : NodeId) (nd : NodeS) : Nat :=
  ((nodeArrs s id).filter (fun p => hasAc s p && charged nd (arrOf s p))).length

/-- Charge an ac to the budgets that the nodes of a bulkhead's BCP charge (R132). -/
def chargeBudgets (s : State) (b : Nat) : State :=
  (bhOf s b).nodes.foldl (fun s n =>
    match n.2.budget with
    | some w =>
      modBh s b (fun x =>
        { x with wcbs := x.wcbs.map (fun (c : Nat × WcbS) =>
            if c.1 = w then (c.1, { c.2 with left := c.2.left - heldArrs s (b, n.1) n.2 }) else c) })
    | none => s) s

/-- The bulkheads that are listed. -/
def listedBhs (s : State) : List Nat := s.bhs.map (fun x => x.1)

/-- The slots of nodes that have ended are free again. -/
def tidyBh (x : BhS) : BhS := { x with nodes := x.nodes.filter (fun n => !nodeOver n.2 || n.2.addDue) }

/-- A removed cycle is over, and the one that was to be removed next begins (R29). -/
def nextCycle (x : BhS) : BhS := { x with skip := x.skipReq, skipReq := false }

/-- What an ac does by itself: time, the asynchronous ports' writes of the last ac, budgets, notifications that find room,
and the end of transfers and of descriptor commands. -/
def clockTick (s : State) : State :=
  let s := { s with now := s.now + 1, hub := { advanceTimer s.hub with before := none } }
  let s := shareDraw { s with bhs := s.bhs.map (fun x => (x.1, nextCycle x.2)) }
  let s := { s with arrs := s.arrs.map (fun (x : Nat × ArrayS) =>
    (x.1, { asyFlush x.1 x.2 with hstart := some x.2.handles })) }
  let s := (listedBhs s).foldl chargeBudgets s
  let s := (s.port.notifLate.map (fun x => x.1)).foldl lateNotif s
  (s.parts.map (fun x => x.1)).foldl (fun s p => rdSettle (xferSettle s p) p) s

-- What the engines send over the torus (R60, R63)

/-- Where the line of an engine's access is: in memory, behind a window, or nowhere that a packet goes to. -/
inductive EngineAt where
  | line (l : Nat)
  | window (w n : Nat)
  | none
  deriving DecidableEq, Repr

/-- The place that a translation names. -/
def engineAt : XRes → EngineAt
  | .ok _ r off => if r.win then .window r.winIx (off / 64) else .line ((r.pbase + off) / 64)
  | .bad _ _ => .none

/-- The column of the routers on the way from a line. -/
def engineCol : EngineAt → Nat
  | .line l => (sliceRouter (homeSlice l)).2.1
  | _ => 0

/-- An engine's access, of an array or of a bulkhead's command processor, made when its line has come to its router: from
its home slice, or in class C3 through the window bridge (R23, R63). An access without a line is made at once. -/
def engineSend (s : State) (cls : Nat) (l : EngineAt) (i : Instr) (p : Option Nat) (b : Nat) : State :=
  let t := match p with | some p => arrRouter p (engineCol l) | none => cmdRouter b
  let now : State := postNow s [.event i { phys := p.getD 0, bh := b }]
  match l with
  | .none => now
  | .line l => netSend s cls (sliceRouter (homeSlice l)) t b (.act i (p.getD 0) b)
  | .window w n =>
    if (winTarget s w (bhOf s b).part).isNone then now
    else
      let f := match p with | some p => arrRouter p (hubRouter b).2.1 | none => cmdRouter b
      netSend s 3 f (hubRouter b) b (.win
        { win := w, write := false, line := n, data := 0, mask := 0, bh := b, gen := (bhOf s b).gen
          expGen := tabGet s.hub.winGen 0 w, who := .engine i p b })

/-- Where the line that an address of array p names is. -/
def arrLine (s : State) (p va : Nat) : EngineAt := engineAt (xlateArr s p va 1 .rd)

/-- The channels of an array with a line to move, from the one whose turn it is (R185). -/
def channelTurns (a : ArrayS) : List (Nat × ChanS) :=
  let l := a.chans.filter (fun c => !c.2.stop && !c.2.sent && decide (c.2.pos < chTotal c.2.tmpl))
  l.filter (fun c => decide (a.chNext ≤ c.1)) ++ l.filter (fun c => decide (c.1 < a.chNext))

/-- Up to four channels of an array each move a line of 64 bytes (R185, R200). A scratchpad line is read at the end of the
ac, after its timetabled accesses, through the asynchronous port of a bank that has moved no line in it; then the ports
begin the next ac (R181). -/
def sendChannels (s : State) (p : Nat) : State :=
  let a := arrOf s p
  let (_, cs) := ((channelTurns a).take 4).foldl (fun (x : List Nat × List (Nat × ChanS)) c =>
    let bs := chBanks c.2
    if bs.any x.1.contains then x else (bs.foldl setInsert x.1, x.2 ++ [c])) (a.asyUsed, [])
  cs.foldl (fun s c =>
    let i := Instr.copyLineWrite (.channel (BitVec.ofNat 7 p) (BitVec.ofNat 4 c.1))
    let l := match (chMemVa c.2).head? with | some va => arrLine s p va | none => .none
    engineSend (modChan (modArr s p (fun a => { a with chNext := (c.1 + 1) % 16 })) p c.1
      (fun x => { x with sent := true })) 2 l i (some p) (bhOfArr p)) (modArr s p (asyBegin p))

/-- The oldest SC operation of an array goes to its home slice in class C1, one at a time (R63, R221). -/
def sendSc (s : State) (p : Nat) : State :=
  let a := arrOf s p
  match a.sc with
  | [] => s
  | o :: _ =>
    if a.scBusy || a.scWait then s
    else
      let h := match arrLine s p o.va with | .line l => homeSlice l | _ => sliceKey (bhOfArr p) 0
      let t := sliceRouter h
      netSend (setArr s p { a with scBusy := true }) 1 (arrRouter p t.2.1) t (bhOfArr p) (.scGo p a.epoch)

/-- The copies of a queue each move a line (R107). -/
def sendCopies (s : State) (b q : Nat) : State :=
  ((queueOf s b q).copies.filter (fun c => !c.2.sent && c.2.stop.isNone && decide (c.2.pos < c.2.rows * c.2.row))).foldl
    (fun s c =>
      let va := ((c.2.src : Int) + ((c.2.pos / c.2.row : Nat) : Int) * c.2.sp).toNat + c.2.pos % c.2.row
      let l := engineAt (xlatePart s (bhOf s b).part va 1 (cmdOwner s b) .rd)
      engineSend (modQueue s b q (fun x => { x with copies := tabSet x.copies c.1 { c.2 with sent := true } })) 2 l
        (.copyLineWrite (.packet (BitVec.ofNat 4 b) (BitVec.ofNat 4 q) (BitVec.ofNat 3 c.1))) none b) s

/-- The collectives of a bulkhead each read or write their next line, in class C2 (R63). -/
def sendColls (s : State) (b : Nat) : State :=
  ((bhOf s b).colls.filter (fun c =>
      !c.2.wrote && !c.2.sent && (!c.2.ready || c.2.down || ringDone c.2))).foldl (fun s c =>
    let l := match collNext c.2 with
      | some va => engineAt (xlatePart s (bhOf s b).part va 1 (collOwner s b) .rd)
      | none => .none
    engineSend (setColl s b c.1 { c.2 with sent := true }) 2 l (.collectiveComplete (BitVec.ofNat 16 c.1)) none b) s

/-- The scrub of a bulkhead sends its next chunk, in class C3 (R22, R63). One packet stands for its lines: 2^29 of them
do not pass the hub's router in the 36,400,000 ac of R21 (R61; log entry 16). -/
def sendScrub (s : State) (b : Nat) : State :=
  let x := bhOf s b
  if x.st ≠ .scrub || x.scrSent || (nextChunk x).isNone then s
  else netSend (modBh s b (fun x => { x with scrSent := true })) 3 (hubRouter b) (chanRouter b 0) b
    (.act .scrubChunkComplete 0 b)

/-- The checkpoint reads the lines of its next record, each of which goes from its channel to the hub gate in class C2
(R63, R87); once all have come, `hubTurns` sends the record. -/
def sendCheckpoint (s : State) : State :=
  let h := s.hub
  match (ckBhs s)[h.ckRec / ckPerBh]? with
  | none => s
  | some b =>
    if !h.ckBusy || h.ckSent || h.ckStop.isSome then s
    else
      let l := b * bhLines + h.ckRec % ckPerBh * 1024
      (List.range 1024).foldl (fun s i =>
        let (s, v) := ckLine s (l + i)
        netSend s 2 (chanRouter b (lineChan (l + i) % 16)) (hubRouter b) b (.ckpt h.ckRun.at_ h.ckRec i v))
        (ckMeetUe { s with hub := { h with ckSent := true } } l)

/-- What the engines of the package begin to move in an ac. -/
def sendEngines (s : State) : State :=
  let s := (s.arrs.map (fun x => x.1)).foldl (fun s p =>
    if bhRuns s (bhOfArr p) then sendSc (sendChannels s p) p else s) s
  let s := (listedBhs s).foldl (fun s b =>
    if bhRuns s b then
      sendColls (((bhOf s b).queues.map (fun q => q.1)).foldl (fun s q => sendCopies s b q) s) b
    else s) s
  if s.hub.phase = 2 then sendCheckpoint ((listedBhs s).foldl sendScrub s) else s

-- What is under way

/-- A list if a condition holds. -/
def onlyIf {α : Type} (c : Bool) (l : List α) : List α := if c then l else []

/-- The turns of the hub, once it has started (R17, R19, R32, R74, R82, R87, R96). -/
def hubTurns (s : State) : List Turn :=
  let ev (i : Instr) (c : Cur) : Turn := .event i c
  let need (k : Nat) : Bool :=
    (List.range 16).any (fun b => tabGet (stackOf s k).gens 1 b != targetGen s b)
  onlyIf (s.hub.phase == 2) (
    onlyIf ((List.range 16).any (fun b => tabGet s.hub.gateGens 1 b != targetGen s b))
        [ev .generationAcknowledge { stack := 8 }] ++
      ((List.range 8).filter need).map (fun k => ev .generationAcknowledge { stack := k }) ++
      s.parts.flatMap (fun x =>
        onlyIf ((ownIn s x.1 [.reset]).length != 0) [ev .resetSequenceComplete { part := x.1 }] ++
          onlyIf x.2.rekey.isSome [ev .rekeyChunkComplete { part := x.1 }, ev .rekeyComplete { part := x.1 }] ++
          x.2.revoking.map (fun k => ev (.revocationApplied (BitVec.ofNat 8 k)) { part := x.1 })) ++
      s.bhs.flatMap (fun x => onlyIf (x.2.st == .reset) [ev .resetSequenceTimeout { bh := x.1 }]) ++
      s.bhs.flatMap (fun x => onlyIf (cycleDue s x.2) [ev .powerLimitCycleRemoval { bh := x.1 }]) ++
      onlyIf (!s.hub.bridge.isEmpty) [ev .windowRequest {}] ++
      onlyIf (s.hub.errEn && !s.hub.errBuf.isEmpty) [ev .errorRecordDeliver {}] ++
      onlyIf (s.hub.ckBusy && s.hub.ckBuf.length == 1024) [ev .checkpointRecordSend {}] ++
      onlyIf s.hub.ckBusy [ev .checkpointEnd {}])

/-- The event that handles a packet held for a queue pair (R37). -/
def rxEvent : RoceOp → Instr
  | .send | .sendImm => .roceSendReceive
  | .write | .writeImm => .roceRdmaWrite
  | .read => .roceRdmaRead
  | .atomic => .roceAtomicRequest
  | .ack | .nak _ | .readResp => .roceResponseReceive
  | .cnp => .cnpReceive

/-- The turns of a queue pair. -/
def qpTurns (k : Nat) (q : QpS) : List Turn :=
  let c : Cur := { fn := k / 64, qpn := k % 64 }
  (match q.rx with | (p, _) :: _ => [.event (rxEvent p.op) c] | [] => []) ++
    onlyIf (!q.out.isEmpty) [.event .qpRetryTimeout c] ++
    onlyIf (q.cnpAt.isSome && q.rate != lineRate) [.event .cnpRateIncrease c]

/-- The turns of the host port (R36, R42, R44, R45, R95). -/
def portTurns (s : State) : List Turn :=
  onlyIf (!s.port.wire.isEmpty) [.event .portFrameReceive {}] ++
    s.port.qps.flatMap (fun x => qpTurns x.1 x.2) ++
    onlyIf s.port.qpBusy [.event .qpFlushComplete {}] ++
    (s.port.notif.filter (fun x => !x.2.isEmpty)).map (fun x => .event .notificationSend { fn := x.1 }) ++
    ((List.range 8).filter (fun c => s.port.paused.getLsbD c)).map
      (fun c => .event (.pfcPauseExpiry (BitVec.ofNat 3 c)) {}) ++
    onlyIf s.port.up [.event .transmitArbitrationRound {}]

/-- The event that takes in a flit (R49, R51). -/
def flitEvent (f : Flit) : Instr :=
  if !f.crcOk then .flitCrcFailure
  else
    match f.kind with
    | 0 => .idleFlitReceive
    | 1 => .streamDataFlitReceive
    | 2 => .collectiveDataFlitReceive
    | 3 => .collectiveControlFlitReceive
    | 4 => .retryRequestFlitReceive
    | 5 => .managementFlitReceive
    | _ => .flitCrcFailure

/-- The turns of a link end (R48 to R52, R394). -/
def linkTurns (l : Nat) (x : LinkS) : List Turn :=
  let c : Cur := { link := l }
  (match x.wire with | f :: _ => [.event (flitEvent f) c] | [] => []) ++
    (match x.st with
     | .down => []
     | .training => [.event .linkTrainingTimeout c]
     | .up => [.event .linkFlitSend c, .event .linkAckTimeout c, .event .linkRxSilenceTimeout c])

/-- The request event of a stack packet; RD64 also answers the reserved kinds (R72). -/
def stackKindEvent : StackKind → Instr
  | .rd64 | .reserved _ => .rd64
  | .wr64 => .wr64
  | .rmw => .rmw

/-- The bulkhead whose columns hold a router (R60). -/
def routerBh (k : Nat) : Nat := 4 * (k / 96) + k % 16 / 4

/-- The turns of the memory system (R61, R67, R72). -/
def memTurns (s : State) : List Turn :=
  s.stks.flatMap (fun x =>
      match x.2.reqs with | r :: _ => [.event (stackKindEvent r.kind) { stack := x.1, ch := r.ch }] | [] => []) ++
    (s.slices.filter (fun x => bhRuns s (x.1 / 96))).flatMap (fun x =>
      let c : Cur := { bh := x.1 / 96, slice := x.1 % 96 }
      onlyIf (!x.2.replies.isEmpty) [.event .stackReplyReceive c] ++
        onlyIf (x.2.reqs.any (fun r => r.write)) [.event .l2Write c] ++
        onlyIf (x.2.reqs.any (fun r => !r.write)) [.event .l2Read c]) ++
    (s.routers.filter (fun x => bhRuns s (routerBh x.1))).flatMap (fun x =>
      onlyIf (x.2.ring.any (fun q => !q.2.isEmpty) || x.2.enter.any (fun q => !q.2.isEmpty))
        [.event .routerArbitrationRound { die := x.1 / 96, x := x.1 % 16, y := x.1 % 96 / 16 }])

/-- The turns of an array's engines (R135, R165, R213, R214). -/
def engineTurns (p : Nat) (a : ArrayS) : List Turn :=
  let c : Cur := { phys := p, bh := bhOfArr p }
  List.replicate a.landIn.length (.event .landingLineArrival c) ++
    onlyIf (!a.fifo.isEmpty) [.event .egressLineDrain c] ++
    onlyIf a.walk.isSome [.event .regionWalkComplete c] ++
    onlyIf (!a.rinv.isEmpty) [.event .regionCacheInvalidation c] ++
    onlyIf (a.preReq && a.preLeft == 0) [.event .watchdogExpiry c]

/-- The requests of a node that reach their arrays: 4 ac after the decision (R135). -/
def requestTurns (s : State) (nd : NodeS) : List Turn :=
  if s.now < nd.askAt + 4 then []
  else (nd.asked.filter (fun p =>
    (arrOf s p).cond == .placed || ((arrOf s p).cond == .running && !(arrOf s p).preReq))).map
      (fun p => .event .preemptionRequest { phys := p, bh := bhOfArr p })

/-- The turns of a node (R124 to R142). -/
def nodeTurns (s : State) (id : NodeId) (nd : NodeS) : List Turn :=
  let c : Cur := { bh := id.1, node := id.2 }
  requestTurns s nd ++
    match nd.st with
    | .waiting => [.event .startTickReached c]
    | .placed | .running =>
      onlyIf (nd.logs.any (fun l => l.2.st == .placed)) [.event .nodeStart c] ++
        onlyIf (nd.gangs.any (fun g => sliced s nd.part g)) [.event .quantumExpiry c]
    | .draining 0 => [.event .nodeDone c]
    | .draining 1 => [.event .nodeSaveStart c, .event .nodeSaveComplete c]
    | .requeued => [.event .requeueComplete c]
    | .failed => onlyIf nd.addDue [.event .nodeDone c]
    | .draining _ | .ready | .done => []

/-- The verdicts that the BCPs look for (R113, R142). -/
def verdictTurns (s : State) : List Turn :=
  (s.bhs.filter (fun x => bhRuns s x.1)).flatMap (fun x =>
    (x.2.nodes.filter (fun n => n.2.st == .draining 2)).map (fun n =>
      .event .verdictRead { bh := x.1, node := n.1 }))

/-- A partition has something to place (R130). -/
def placesSome (s : State) (p : Nat) : Bool :=
  (partNodes s p).any (fun x =>
    (x.2.st == .ready || x.2.st == .placed || x.2.st == .running) && (nextUnit s x.2).isSome)

/-- The bulkheads that have their clock in this ac. -/
def runningBhs (s : State) : List (Nat × BhS) := s.bhs.filter (fun x => bhRuns s x.1)

/-- Queues that run, and fetches that have come back: the BCPs' packets (R90, R93). -/
def queueTurns (s : State) : List Turn :=
  (runningBhs s).flatMap (fun x => x.2.queues.flatMap (fun q =>
    onlyIf (q.2.fetching && q.2.reply.isSome) [.event .streamFetchComplete { bh := x.1, q := q.1 }] ++
      onlyIf (q.2.st == .running && !q.2.fetching) [.queue x.1 q.1]))

/-- The completions of an ac: copies, collectives and nodes, and what the BCPs and the scheduler do for nodes (R105 to
R109, R113, R124 to R142). -/
def completionTurns (s : State) : List Turn :=
  (s.arrs.filter (fun x => bhRuns s (bhOfArr x.1))).flatMap (fun x =>
      (x.2.chans.filter (fun c => channelDone s x.1 c.1 c.2)).map (fun c =>
        .event (.copyComplete (.channel (BitVec.ofNat 7 x.1) (BitVec.ofNat 4 c.1))) { phys := x.1, bh := bhOfArr x.1 })) ++
    (runningBhs s).flatMap (fun x =>
      (x.2.colls.filter (fun c => c.2.wrote)).map (fun c =>
          .event (.collectiveComplete (BitVec.ofNat 16 c.1)) { bh := x.1 }) ++
        x.2.queues.flatMap (fun q =>
          let c : Cur := { bh := x.1, q := q.1 }
          q.2.copies.map (fun k => .event (.copyComplete (.packet (BitVec.ofNat 4 x.1) (BitVec.ofNat 4 q.1)
              (BitVec.ofNat 3 k.1))) c) ++
            (match q.2.wait with | some (.xfer _) => [.event .xferPacketComplete c] | _ => [])) ++
        onlyIf (x.2.nodes.any (fun n => budgetOut x.2 n.2 && !n.2.demoted)) [.event .budgetExhausted { bh := x.1 }] ++
        x.2.nodes.flatMap (fun n => nodeTurns s (x.1, n.1) n.2)) ++
    (s.parts.filter (fun x => bhRuns s x.1)).flatMap (fun x =>
      let c : Cur := { part := x.1 }
      let n := refillPeriod s x.1
      onlyIf (x.2.live && x.2.refills / n < (s.now - x.2.since) / n) [.event .budgetRefill c] ++
        onlyIf (x.2.ten && x.2.tblNext < x.2.tblN) [.event .scheduleEntryRead c] ++
        onlyIf (placesSome s x.1) [.event .nodePlacement c])

/-- One turn for each semaphore operation that has come over the torus (R113). -/
def arrivalTurns (s : State) : List Turn :=
  (runningBhs s).flatMap (fun x => List.replicate x.2.semArr.length (.event .semaphoreRemoteArrival { bh := x.1 }))

/-- The waits on semaphores, looked at after every operation of the ac (R90, R113, R302). -/
def waitTurns (s : State) : List Turn :=
  (s.arrs.filter (fun x => bhRuns s (bhOfArr x.1))).flatMap (fun x =>
      match x.2.wait with
      | some (.sem _ _ _ none) => [.event .semaphoreWaitSatisfied { phys := x.1, bh := bhOfArr x.1 }]
      | _ => []) ++
    (runningBhs s).flatMap (fun x => x.2.queues.flatMap (fun q =>
      match q.2.wait with
      | some (.xfer _) | none => []
      | some _ => [.event .queueWaitSatisfied { bh := x.1, q := q.1 }]))

/-- The turns of the clock domains: a loaded array whose tick has come starts, and has its first ac at once; a
running one has its ac (R128, R145). -/
def arrayTurns (s : State) : List Turn :=
  (s.arrs.filter (fun x => x.2.chpos == 0 && hasAc s x.1)).flatMap (fun x =>
    match x.2.cond with
    | .placed => [.event .arrayTickStart { phys := x.1, bh := bhOfArr x.1 }, .array x.1]
    | .running | .halting | .held | .preempted => [.array x.1]
    | _ => [])

/-- Every turn that an ac gives, in the order of R113: what moves, the BCPs, the sequencers of each bulkhead in order,
completions, torus arrivals, the waits, and the clock domains (log entry 2). The links and the engines of the arrays come
last: a flit or a line that arrives in an ac ends a freeze from the next ac on, whose start finds it (R168). -/
def enabledTurns (s : State) : List Turn :=
  hubTurns s ++ onlyIf (s.hub.phase == 2) (portTurns s) ++ memTurns s ++ queueTurns s ++ verdictTurns s ++
    (runningBhs s).map (fun x => .sems x.1) ++ completionTurns s ++ arrivalTurns s ++ waitTurns s ++ arrayTurns s ++
    (s.links.filter (fun x => bhRuns s (x.1 / 9))).flatMap (fun x => linkTurns x.1 x.2) ++
    (s.arrs.filter (fun x => bhRuns s (bhOfArr x.1))).flatMap (fun x => engineTurns x.1 x.2)

/-- A tick: the next ac begins. -/
def tick (s : State) : State :=
  let s := sendEngines (clockTick s)
  let ts := enabledTurns s
  post { s with bhs := s.bhs.map (fun x => (x.1, tidyBh x.2)) } ts

-- Taking a turn

/-- One packet of a queue (R90, R97): what stands before it, or the packet that its words decode to. -/
def queueTurn (s : State) (b q : Nat) : Host.Outcome State Fault Refusal :=
  let (t, todo) := queueReady s b q
  let t := { t with cur := { t.cur with bh := b, q := q } }
  match todo with
  | none => .next t
  | some (.fault c) => .next (queueFault t b q c)
  | some (.skip n) => .next (packetDone t n)
  | some (.run i) => exec i t

/-- The semaphore operations that the sequencers of a bulkhead have due at the file, in the order A0 to A5 (R113). -/
def semTurn (s : State) (b : Nat) : State :=
  (List.range 6).foldl (fun s i => if (arrOf s (6 * b + i)).sems.isEmpty then s else semDue s (6 * b + i)) s

/-- Take a turn. -/
def runTurn (s : State) (t : Turn) : Host.Outcome State Fault Refusal :=
  match t with
  | .event i place => exec i { s with cur := place }
  | .queue b q => queueTurn s b q
  | .sems b => .next (semTurn s b)
  | .array p => .next (domainAc s p)
  | .tick => .next (tick s)

end Sys2Proof.Machine
end

