-- ==== Sys2Proof/Machine/Step.lean ====
section
/-! DEFINITION. The step of the machine, and the placing of one instruction where the step finds it. -/
namespace Sys2Proof.Machine
open Sys2Proof

/-- One step (log entry 2): the turn at the head of the agenda, or the next tick where none is left. -/
def step (s : State) : Host.Outcome State Fault Refusal :=
  match s.agenda with
  | [] => .next (tick s)
  | t :: rest => runTurn { s with agenda := rest } t

/-- A packet of one header and words of zeros, held at level 0 of a running queue that allows it (log
entry 5). -/
def State.withPacket (s : State) (h : W32) : State :=
  let n := max 1 (bitsN h 10 14)
  let q : Nat := match opKinds (bitsN h 24 8) with
    | .y => 8 | .l => 12 | _ => 0
  let bs := (leBytes 4 h.toNat ++ List.replicate (4 * n - 4) 0).zipIdx.map (fun (b : Byte × Nat) => (b.2, HeldByte.byte b.1))
  let l : LevelS := { host := false, base := 0, len := 4 * n, rkey := 0, pos := 0, bytes := bs,
                      span := if bitB h 9 then some true else none }
  let r : SubRec := { q := q, host := false, flags := 0, seq := 0, addr := 0, len := 4 * n, rkey := 0,
                      cookie := 0, fn := 0, qp := 0 }
  let s := modQueue s 0 q (fun x => { x with st := .running, cur := some r, levels := [l] })
  { s with agenda := [.queue 0 q] }

/-- A bundle that stands in code memory at the PC of array 0, whose domain runs (log entry 5). -/
def State.withBundle (s : State) (z : SlotBits) : State :=
  let b := joinSlots z
  let s := modArr s 0 (fun a =>
    let ws := (List.range 24).map (fun i => bits b (16 * i) 16)
    { a with
      cond := .running, chpos := 0, wait := none, stall := 0, gath := none, async := [], replay := false
      mpe := none, nc := a.pc + 25
      code := (ws.zipIdx).foldl (fun t w => tabSet t (a.pc + 1 + w.2) w.1) (tabSet a.code a.pc 0xFFF0) })
  { s with agenda := [.array 0] }

/-- The instruction whose bits are `w` placed where the next step finds it (log entry 5). -/
def State.withFetchWord (s : State) (nbits w : Nat) : State :=
  let z := slotBits 0
  if nbits = 32 then s.withPacket (BitVec.ofNat 32 w)
  else if nbits = 16 then s.withBundle { z with y := BitVec.ofNat 16 w }
  else s.withBundle { z with t := BitVec.ofNat 24 w }

end Sys2Proof.Machine
end

