-- ==== Sys2Proof/Safety.lean ====
section
/-! DEFINITION. The terms in which claims about the machine are stated: operands that may be read, operations
tables of the spec in plain arithmetic, what an instruction leaves alone, and the invariant of the memory. -/
namespace Sys2Proof.Machine
open Sys2Proof

-- What is left alone

/-- `t` is `s` but for array `p`. -/
abbrev OnlyArr (p : Nat) (s t : State) : Prop := t = setArr s p (arrOf t p)

/-- `t` is `s` but for bulkhead `b`. -/
abbrev OnlyBh (b : Nat) (s t : State) : Prop := t = setBh s b (bhOf t b)

/-- `t` is `s` but for partition number `p`. -/
abbrev OnlyPart (p : Nat) (s t : State) : Prop := t = setPart s p (partOf t p)

/-- `t` is `s` but for link end `l`. -/
abbrev OnlyLink (l : Nat) (s t : State) : Prop := t = setLink s l (linkOf t l)

/-- `y` is `x` but for its sequencer registers. -/
abbrev OnlyRegs (x y : ArrayS) : Prop := y = { x with s := y.s }

-- The sequencer

/-- No register named carries a poison or revoked mark (R282). -/
abbrev Unmarked (a : ArrayS) (rs : List (BitVec 5)) : Prop := ∀ r ∈ rs, (sReg a r).mark = none

/-- The registers named may be read, and no residue fault waits for the sequencer's ALU (R228, R282). -/
abbrev AluReady (a : ArrayS) (rs : List (BitVec 5)) : Prop := Unmarked a rs ∧ a.residSeq = 0

/-- The two-operand rows of R290, in plain arithmetic. -/
def r290Two : List ((BitVec 5 → BitVec 5 → BitVec 5 → Instr) × (W64 → W64 → W64)) :=
  [(.sAdd, fun x y => BitVec.ofNat 64 (x.toNat + y.toNat)),
   (.sSub, fun x y => BitVec.ofInt 64 (x.toInt - y.toInt)),
   (.sAnd, fun x y => x &&& y),
   (.sOr, fun x y => x ||| y),
   (.sXor, fun x y => x ^^^ y),
   (.sShl, fun x y => BitVec.ofNat 64 (x.toNat * 2 ^ (y.toNat % 64))),
   (.sShr, fun x y => BitVec.ofNat 64 (x.toNat / 2 ^ (y.toNat % 64))),
   (.sSar, fun x y => BitVec.ofInt 64 (x.toInt / 2 ^ (y.toNat % 64))),
   (.sMul, fun x y => BitVec.ofNat 64 (x.toNat * y.toNat)),
   (.sMulh, fun x y => BitVec.ofInt 64 (x.toInt * y.toInt / 2 ^ 64)),
   (.sMulhn, fun x y => BitVec.ofNat 64 (x.toNat * y.toNat / 2 ^ 64)),
   (.sDivs, fun x y => if y.toInt = 0 then BitVec.ofInt 64 (-1) else BitVec.ofInt 64 (x.toInt.tdiv y.toInt)),
   (.sDivn, fun x y => if y.toNat = 0 then BitVec.ofInt 64 (-1) else BitVec.ofNat 64 (x.toNat / y.toNat)),
   (.sRems, fun x y =>
      if y.toInt = 0 then x else BitVec.ofInt 64 (x.toInt - x.toInt.tdiv y.toInt * y.toInt)),
   (.sRemn, fun x y =>
      if y.toNat = 0 then x else BitVec.ofNat 64 (x.toNat - x.toNat / y.toNat * y.toNat)),
   (.sMin, fun x y => if x.toInt ≤ y.toInt then x else y),
   (.sMax, fun x y => if y.toInt ≤ x.toInt then x else y),
   (.sMinn, fun x y => if x.toNat ≤ y.toNat then x else y),
   (.sMaxn, fun x y => if y.toNat ≤ x.toNat then x else y),
   (.sSlt, fun x y => if x.toInt < y.toInt then 1 else 0),
   (.sSltn, fun x y => if x.toNat < y.toNat then 1 else 0)]

/-- imm64 of R239: IMM sign-extended, or E[31:0] above IMM. -/
def imm64 : SImm → W64
  | .short v => BitVec.ofInt 64 v.toInt
  | .long v => v

/-- The rows of R290 with an immediate. -/
def r290Imm : List ((BitVec 5 → BitVec 5 → SImm → Instr) × (W64 → W64 → W64)) :=
  [(.sAddi, fun x y => BitVec.ofNat 64 (x.toNat + y.toNat)),
   (.sAndi, fun x y => x &&& y),
   (.sOri, fun x y => x ||| y),
   (.sXori, fun x y => x ^^^ y)]

/-- compare of R285. -/
def compareHolds (cc : Sys2Proof.Cond) (x y : W64) : Bool :=
  match cc with
  | .eq => decide (x = y)
  | .ne => decide (x ≠ y)
  | .lt => decide (x.toInt < y.toInt)
  | .ge => decide (y.toInt ≤ x.toInt)
  | .ltn => decide (x.toNat < y.toNat)
  | .gen => decide (y.toNat ≤ x.toNat)

/-- next of R285: 25 words on for a tadpole, else one. -/
def nextPc285 (a : ArrayS) : Nat := if a.word = 0xFFF0 then a.pc + 25 else a.pc + 1

/-- The bundle issued next is the one at `pc` (R146, R285). -/
def transferTo (a : ArrayS) (pc : Nat) : ArrayS := { a with nextPc := pc, jumped := true }

/-- The product of the first k extents of a shape entry (R162). -/
def extentProd (e : ShapeE) : Nat → Nat
  | 0 => 1
  | k + 1 => extentProd e k * (tabGet e.ex 0 k + 1)

/-- A shape entry as SHP.W leaves it (R305). -/
abbrev ShapeOk (e : ShapeE) : Prop := 1 ≤ e.m ∧ e.m ≤ 5 ∧ ∀ i < 5, tabGet e.ex 0 i + 1 ≤ 2 ^ 24

/-- The address of an access: s[a] + sext(IMM), unsigned (R293 to R295). -/
def accessAddr (a : ArrayS) (r : BitVec 5) (off : BitVec 32) : Nat :=
  (sVal a r + BitVec.ofInt 64 off.toInt).toNat

/-- `n` little-endian bytes as a register receives them: zero-extended under .n, else sign-extended
(R293). -/
def loadedValue (n : Nat) (zx : Bool) (x : Nat) : W64 :=
  if zx || x < 2 ^ (8 * n - 1) then BitVec.ofNat 64 x else BitVec.ofInt 64 ((x : Int) - 2 ^ (8 * n))

/-- A slot that is found at issue to be unperformed: its fault is noted and its performed bit cleared
(R224). -/
def slotTraps (a : ArrayS) (sl : Slot) (c : Cause) (detail : W64) (region : Nat) : ArrayS :=
  { a with
    faults := a.faults ++ [{ cause := c, slot := slotCode sl, detail := detail, region := region }]
    perf := setBit a.perf (slotCode sl) false }

/-- A register made pending, with its value on the way: ready `delay` ac after this one (R280, R281). -/
def readyIn (a : ArrayS) (d : BitVec 5) (v : W64) (m : Option SMark) (delay : Nat) : ArrayS :=
  if d = 0 then a
  else { sPend a d with pend := a.pend ++ [{ reg := d.toNat, v := v, mark := m, at_ := a.ac + delay }] }

/-- The SC instructions of R296 and R297: what each queues, by its operands d, b, c. -/
def scRows (w64 : Bool) (d b c a : BitVec 5) : List (Instr × ScKind × BitVec 5 × BitVec 5) :=
  [(.sLdSc w64 d a, .load, 0, 0),
   (.sAmoAdd w64 d b a, .amo .add false, b, 0),
   (.sAmoMin w64 false d b a, .amo .min false, b, 0),
   (.sAmoMin w64 true d b a, .amo .min true, b, 0),
   (.sAmoMax w64 false d b a, .amo .max false, b, 0),
   (.sAmoMax w64 true d b a, .amo .max true, b, 0),
   (.sAmoAnd w64 d b a, .amo .and false, b, 0),
   (.sAmoOr w64 d b a, .amo .or false, b, 0),
   (.sAmoSwap w64 d b a, .amo .swap false, b, 0),
   (.sAmoCas w64 d b c a, .amo .cas false, b, c)]

/-- The value of `w` bits that an AMO writes, none where a CAS does not match (R297). -/
def amoResult (op : AmoOp) (uns : Bool) (w old b c : Nat) : Option Nat :=
  let num (x : Nat) : Int := if uns || x < 2 ^ (w - 1) then (x : Int) else (x : Int) - 2 ^ w
  match op with
  | .add => some ((old + b) % 2 ^ w)
  | .min => some (if num b < num old then b else old)
  | .max => some (if num old < num b then b else old)
  | .and => some (old &&& b)
  | .or => some (old ||| b)
  | .swap => some b
  | .cas => if old = b then some c else none

-- Cells

/-- Nothing that a cell of row `r` may read under pipe entry `e` carries a poison mark (R322). -/
abbrev CleanRow (a : ArrayS) (e : PipeE) (r : Nat) : Prop :=
  ∀ c < 64, (∀ code < 33, (srcVal (cellAt a r c) (envOf a e r c) 0 code).2 = none) ∧
    (cellAt a r c).km = 0 ∧ (cellAt a r c).osm = 0

/-- A C slot's instance may be performed: entry `e` of the pipe stands in the row, no physical fault waits for
it (R228 to R230), and nothing it may read is poisoned. -/
abbrev InstanceReady (s : State) (e : PipeE) : Prop :=
  listGet (here s).pipe none s.cur.row = some e ∧ e.pois = false ∧ s.cur.row ∉ (here s).parity ∧ (here s).residCell = 0 ∧
    CleanRow (here s) e s.cur.row

/-- The operand that source code `code` names at the cell in row r, column c (R242). -/
def operandAt (a : ArrayS) (e : PipeE) (f : CSlot) (r c : Nat) (code : BitVec 6) : Vec :=
  (srcVal (cellAt a r c) (envOf a e r c) f.e code.toNat).1

/-- The operand of a source that an operation uses, zero for one it does not (R241). -/
def usedOperand (u : Bool) (a : ArrayS) (e : PipeE) (f : CSlot) (r c : Nat) (code : BitVec 6) : Vec :=
  if u then operandAt a e f r c code else 0

/-- What a C operation does in the cell at row r, column c: the cell's new state, the lane value it passes on
and its flag bit (R318). -/
def cellEffect (o : COp) (f : CSlot) (a : ArrayS) (e : PipeE) (r c : Nat) : CellS × Nat × Bool :=
  cellExec o f
    { sr := { seed := e.seed, tile := e.tile, row := 64 * a.chpos + r, n := e.srn, col := c },
      rho := 64 * a.chpos + r, col := c, logical := a.logical }
    (cellAt a r c) (usedOperand (cSources o).1 a e f r c f.sa) (usedOperand (cSources o).2.1 a e f r c f.sb)
    (usedOperand (cSources o).2.2 a e f r c f.sc) (tabGet (laneInit o f a r e).lane 0 c) (e.seg.getLsbD r)

/-- An integer result delivered at width `w`: clamped to the type's range under SAT, else wrapped (R259,
R267). -/
def delivered (uns : Bool) (w : Nat) (sat : Bool) (x : Int) : Nat :=
  let lo : Int := if uns then 0 else -(2 ^ (w - 1))
  let hi : Int := if uns then 2 ^ w - 1 else 2 ^ (w - 1) - 1
  ((if sat then max lo (min hi x) else x) % 2 ^ w).toNat

/-- The exact integer result of an operation of R326. -/
def exactInt (o : COp) (x y z : Int) : Int :=
  match o with
  | .add => x + y
  | .sub => x - y
  | .mul => x * y
  | .fma => x * y + z
  | .fms => x * y - z
  | .neg => -x
  | .abs => (x.natAbs : Int)
  | .min => min x y
  | _ => max x y

/-- A finite value in units of 2^f, for f at or below its exponent. -/
def unitsOf (f : Int) : Val → Int
  | .num n m e _ => (if n then -(m : Int) else m) * 2 ^ (e - f).toNat
  | _ => 0

/-- The exponent of a finite value. -/
def expOf : Val → Int
  | .num _ _ e _ => e
  | _ => 0

/-- The order of exact values that are no NaN: minus infinity, the numbers, plus infinity (R268). -/
def valLe (p q : Val) : Prop :=
  match p, q with
  | .nan _, _ | _, .nan _ => False
  | .inf true, _ | _, .inf false => True
  | .inf false, _ | _, .inf true => False
  | .num .., .num .. => unitsOf (min (expOf p) (expOf q)) p ≤ unitsOf (min (expOf p) (expOf q)) q

/-- mix32 of R277 in plain arithmetic modulo 2^32. -/
def mixed (x : Nat) : Nat :=
  let x := Nat.xor x (x / 2 ^ 16)
  let x := x * 0x7FEB352D % 2 ^ 32
  let x := Nat.xor x (x / 2 ^ 15)
  let x := x * 0x846CA68B % 2 ^ 32
  Nat.xor x (x / 2 ^ 16)

/-- The floating MMA operations with their input formats (R342, R344). -/
def floatMmas (f : CSlot) : List (COp × FFmt) :=
  [(.mmaE4m3, .e4m3), (.mmaE5m2, .e5m2), (.mmaE2m1, .e2m1), (.mmaBf16, .bf16), (.mmaF16, .f16)] ++
    (([FFmt.e4m3, .e5m2, .e2m1, .bf16, .f16][f.spec.toNat % 8]?).map (fun g => (COp.mmaT, g))).toList

/-- The terms of lane l of a floating MMA: the accumulator, and the exact product of each pair under its scales (R270,
R271, R342 to R344). -/
def mmaTerms (o : COp) (g : FFmt) (a b c : Vec) (sc : Option Vec) (l : Nat) : List Val :=
  let w := ffWidth g
  let k := 32 / w
  let scale (i : Nat) : Nat := match sc with | some v => elem v 8 i | none => 127
  valOf .f32 (elem c 32 l) :: (List.range k).map (fun j =>
    (valMul (scaledVal (scale l) (valOf g (elem a w (if o = .mmaT then 4 * j + l else k * l + j))))
      (scaledVal (scale (4 + l)) (valOf g (elem b w (k * l + j))))).1)

-- Edges

/-- The selector operations of R358: the mask that each writes. -/
def r358Rows (ax : Axis) (m m2 : BitVec 2) (n lo ph : BitVec 6) (len st : BitVec 4) :
    List (Instr × (ArrayS → Nat → Bool)) :=
  [(.yxSet ax m m2, fun a i => (maskOf ax a m2).getLsbD i),
   (.yxOne ax m, fun _ _ => true),
   (.yxNone ax m, fun _ _ => false),
   (.yxShl ax m n, fun a i => decide (n.toNat ≤ i) && (maskOf ax a m).getLsbD (i - n.toNat)),
   (.yxShr ax m n, fun a i => (maskOf ax a m).getLsbD (i + n.toNat)),
   (.yxRotl ax m n, fun a i => (maskOf ax a m).getLsbD ((i + 64 - n.toNat) % 64)),
   (.yxRotr ax m n, fun a i => (maskOf ax a m).getLsbD ((i + n.toNat) % 64)),
   (.yxAnd ax m m2, fun a i => (maskOf ax a m).getLsbD i && (maskOf ax a m2).getLsbD i),
   (.yxOr ax m m2, fun a i => (maskOf ax a m).getLsbD i || (maskOf ax a m2).getLsbD i),
   (.yxRange ax m lo len, fun _ i => decide (lo.toNat ≤ i ∧ i ≤ lo.toNat + len.toNat)),
   (.yxStride ax m ph st, fun _ i => decide (i % (st.toNat + 1) = ph.toNat)),
   (.yxFlag ax m, fun a i => a.efv.getLsbD i),
   (.yxFlagN ax m, fun a i => !a.efv.getLsbD i)]

/-- A vector on its way to a port: carried by the bundle issued 4 issue cycles later (R148). -/
def vectorSent (a : ArrayS) (north : Bool) (v : PortVec) : ArrayS :=
  { a with fly := a.fly ++ [{ due := a.tt + 4, north := north, vec := v }] }

-- Queues and packets

/-- The queue that the instruction acts on. -/
abbrev hereQ (s : State) : QueueS := queueOf s s.cur.bh s.cur.q

/-- `t` is `s` but for queue `q` of bulkhead `b`. -/
abbrev OnlyQueue (b q : Nat) (s t : State) : Prop := t = modQueue s b q (fun _ => queueOf t b q)

/-- A packet with P flag `pr` is executed at the head of level `l`: its queue is of an allowed kind, and the span it
needs is open and true (R98, R101). -/
abbrev PacketRuns (s : State) (pr : Bool) (k : QueueKinds) (l : LevelS) : Prop :=
  topLevel (hereQ s) = some l ∧ kindAllows k s.cur.q = true ∧ (pr = true → l.span = some true)

/-- A W flag holds nothing back: it is clear, or the queue has waited or has nothing under way (R105). -/
abbrev QuietFor (s : State) (w : Bool) : Prop :=
  w = true → (hereQ s).waited = true ∨ queueQuiet s s.cur.bh s.cur.q = true

/-- A level behind the packet of `len` words at its head, whose bytes it no longer holds (R97, R110). -/
def passed (l : LevelS) (len : Nat) : LevelS :=
  { l with
    pos := l.pos + 4 * len, scan := []
    bytes := l.bytes.filter (fun y => y.1 < l.pos || l.pos + 4 * len ≤ y.1) }

/-- The queue goes on behind a packet of `len` words, and has not waited (R97, R110). -/
def packetOver (s : State) (len : Nat) (l : LevelS) : State :=
  modQueue s s.cur.bh s.cur.q (fun x =>
    { x with waited := false, levels := x.levels.dropLast ++ [passed l len] })

/-- The packet faults the queue with a cause: with room for its notification the queue is FAULTED, its submissions
are dropped, and one QFAULT notification names the cause and counts them; memory is as it was (R90, R94, R115,
R118). -/
def QueueFaults (s : State) (cause : Nat) (out : Host.Outcome State Fault Refusal) : Prop :=
  let held := tabGet s.port.notif [] (hereQ s).vf
  held.length < 256 →
  ∃ t n, out = .next t ∧ (hereQ t).st = .faulted ∧ (hereQ t).pend = [] ∧ (hereQ t).cur = none ∧
    (hereQ t).levels = [] ∧ t.mem = s.mem ∧ tabGet t.port.notif [] (hereQ s).vf = held ++ [n] ∧
    n.kind = 4 ∧ n.cause = cause ∧
    n.disc = (if (hereQ s).cur.isSome then 1 else 0) + (hereQ s).pend.length

/-- The packets with a P flag that a false predicate passes over by their own length, with the queues they are
allowed on (R98, R101). -/
def skippable (len : BitVec 14) (data : List W32) (sem w host : Bool) (name : W16) (x y z : W64) (u v : W32)
    (rb : BitVec 24) (rows : W16) (rc : Byte) (qp : BitVec 4) (num : BitVec 14) :
    List (Instr × Nat × QueueKinds) :=
  [(.pktNop true len, len.toNat, .all), (.pktWrite true x data, 3 + data.length, .all),
   (.pktCopy true sem x y rb rows rc u v name z, 12, .y), (.pktLaunch true sem x name y, 6, .c),
   (.pktTlaunch true sem x y name z, 8, .c), (.pktIb true host x u v, 5, .all),
   (.pktSemsigAdd true w name x, 4, .all), (.pktSemsigSet true w name x, 4, .all),
   (.pktSemwait true name x, 4, .all), (.pktFfence true, 1, .all), (.pktNotify true w qp x, 4, .all),
   (.pktStamp true w x, 3, .all), (.pktXfer true w num rc, 2, .cy), (.pktColl true sem x name y, 6, .l),
   (.pktMpass true sem x y name z, 8, .c), (.pktQuiesce true, 1, .all), (.pktHalt true w, 1, .all)]

/-- The comparison that PRED names by its condition code (R100). -/
def predHolds (cc : BitVec 3) (sg : Bool) (x y : W64) : Bool :=
  let le (a b : W64) : Prop := if sg then a.toInt ≤ b.toInt else a.toNat ≤ b.toNat
  match cc.toNat with
  | 0 => decide (x = y)
  | 1 => decide (x ≠ y)
  | 2 => decide (le x y ∧ x ≠ y)
  | 3 => decide (le x y)
  | 4 => decide (le y x ∧ x ≠ y)
  | _ => decide (le y x)

/-- An add (or a set) to a semaphore that bulkhead `b` of partition `p` sends: made at once where the name lies in
its own file, and otherwise a request over the torus in class C1 to the bulkhead that holds it, which nobody is
told of (R61, R63, R113). -/
def semSent (s : State) (b p : Nat) (set : Bool) (name : W16) (v : W64) : State :=
  if (semPlace p name).1 = b then semPut s p name (if set then v else semGet s p name + v)
  else
    netSend s 1 (cmdRouter b) (cmdRouter (semPlace p name).1) b (.sem (semPlace p name).1 (6 * b)
      { kind := if set then .set else .add, name := name, v := v, reg := 0, at_ := 0, sent := true, mute := true })

/-- The completion add of a piece of work of bulkhead `b` in partition `p`, where it names one (R114). -/
def semAdded (s : State) (b p : Nat) : Option (W16 × W64) → State
  | some (name, v) => semSent s b p false name v
  | none => s

-- The host port

/-- The oldest packet, of `n` bytes, that the queue pair holds has been taken: it leaves the receive buffer, and `psns`
sequence numbers pass (R37, R43). -/
def packetTaken (s : State) (rest : List (RocePkt × Nat)) (n psns : Nat) : State :=
  let k := qpKey s.cur.fn s.cur.qpn
  let u := modQp s k (fun q => { q with rx := rest })
  let v := { u with port := { u.port with held := tabMod u.port.held 0 (fnGroup s s.cur.fn) (fun h => h - n) } }
  modQp (pfcUpdate v) k (fun q => { q with rPsn := (q.rPsn + psns) % 2 ^ 24 })

/-- A queue pair is in ERROR with nothing outstanding (R40, R42). -/
abbrev QpFlushed (s : State) (k : Nat) : Prop := (qpOf s k).st = .error ∧ (qpOf s k).out = [] ∧ (qpOf s k).rx = []

-- Bulkheads and partitions

/-- The reset sequence of a partition has begun towards a destination (R16, R17, R19, R20): its bulkheads are in RESET
under the next generation with their queues HALTED and empty, no semaphore, node or collective left; its arrays are idle
in a new run; its descriptors and keys are gone; memory is untouched, since nothing is written back. -/
def ResetBegun (s t : State) (p dest : Nat) : Prop :=
  (∀ b ∈ partBhs s p,
    (bhOf t b).st = .reset ∧ (bhOf t b).dest = dest ∧ (bhOf t b).gen = nextGen (bhOf s b).gen ∧
    (bhOf t b).sems = [] ∧ (bhOf t b).nodes = [] ∧ (bhOf t b).colls = [] ∧
    ∀ q < 16, (queueOf t b q).st = .halted ∧ (queueOf t b q).pend = [] ∧ (queueOf t b q).levels = [] ∧
      (queueOf t b q).en = (queueOf s b q).en ∧ (queueOf t b q).vf = (queueOf s b q).vf) ∧
  (∀ a, a / 6 ∈ partBhs s p → (arrOf t a).cond = .idle ∧ (arrOf t a).node = none ∧ (arrOf t a).eg = []) ∧
  (partOf t p).regions = [] ∧ (partOf t p).keys = [] ∧ (partOf t p).resetAt = s.now ∧ t.mem = s.mem

-- The memory

/-- Byte i of a line. -/
abbrev lineByte (d : BitVec 512) (i : Nat) : Byte := d.extractLsb' (8 * i) 8

/-- The oldest entry of a queue of requests that is of a kind and that no older request to its line stands before
(R73). -/
def Oldest {α : Type} (kind : α → Prop) (line : α → Nat) (l pre : List α) (r : α) (post : List α) : Prop :=
  l = pre ++ r :: post ∧ kind r ∧ (∀ x ∈ pre, line x ≠ line r) ∧
    ∀ u x v, pre = u ++ x :: v → kind x → ∃ y ∈ u, line y = line x

/-- Device memory lists its bytes by rising address and lists no zero. -/
abbrev MemCanonical (s : State) : Prop := s.mem.wf = true

end Sys2Proof.Machine
end

