-- ==== Sys2Proof/Certificates/Slice0/Obligations.lean ====
section
/-! DEFINITION. The statements about the machine, one `def Obligations.<Name> : Prop` each, made from the numbered rules
of the spec; a docstring names the rules. -/
open Sys2Proof Sys2Proof.Machine

-- The sequencer

/-- R161, R282: a write of s[d] gives the value with its mark and ends pending; s0 discards it and reads zero; every
other register and every other field of the array is unchanged. -/
def Obligations.SequencerRegisterWrite : Prop :=
  ∀ (a : ArrayS) (d j : BitVec 5) (v : W64) (m : Option SMark),
    sReg (sPutMk a d v m) j =
        (if j = 0 then {} else if j = d then { v := v, mark := m, pend := false } else sReg a j) ∧
      OnlyRegs a (sPutMk a d v m) ∧ sVal a 0 = 0

/-- R290, whole: where the registers read carry no mark and no residue fault waits, each of these instructions
answers the state in which s[d] holds the value of the table, computed here in plain arithmetic, and nothing else
has changed (SequencerRegisterWrite says what that write does, s0 included). A word that decodes to one of them has
zero in every field that its form does not use. -/
def Obligations.SequencerArithmetic : Prop :=
  (∀ op ∈ r290Two, ∀ (d a b : BitVec 5) (s : State), AluReady (here s) [a, b] →
      exec (op.1 d a b) s =
        .next (onArr s (fun x => sPut x d (op.2 (sVal x a) (sVal x b))))) ∧
  (∀ op ∈ r290Imm, ∀ (d a : BitVec 5) (imm : SImm) (s : State), AluReady (here s) [a] →
      exec (op.1 d a imm) s =
        .next (onArr s (fun x => sPut x d (op.2 (sVal x a) (imm64 imm))))) ∧
  (∀ (d : BitVec 5) (imm : SImm) (s : State), AluReady (here s) [] →
      exec (.sLi d imm) s = .next (onArr s (fun x => sPut x d (imm64 imm)))) ∧
  (∀ (d a b c : BitVec 5) (s : State), AluReady (here s) [a, b, c] →
      exec (.sSel d a b c) s =
        .next (onArr s (fun x => sPut x d (if sVal x c ≠ 0 then sVal x a else sVal x b)))) ∧
  (∀ (d a : BitVec 5) (s : State), AluReady (here s) [a] →
      ∃ n ≤ 64, exec (.sClz d a) s = .next (onArr s (fun x => sPut x d (BitVec.ofNat 64 n))) ∧
        (∀ i < n, (sVal (here s) a).getLsbD (63 - i) = false) ∧
        (n < 64 → (sVal (here s) a).getLsbD (63 - n) = true)) ∧
  (∀ (d a : BitVec 5) (s : State), AluReady (here s) [a] →
      exec (.sPopc d a) s = .next (onArr s (fun x =>
        sPut x d (BitVec.ofNat 64 ((List.range 64).countP (fun i => (sVal x a).getLsbD i)))))) ∧
  (∀ (w : BitVec 64) (e : BitVec 40) (i : Instr), decodeS w e = some i →
      let op := w.toNat / 2 ^ 56
      (0x10 ≤ op ∧ op ≤ 0x25 ∧ op ≠ 0x1F → w.toNat % 2 ^ 41 = 0) ∧
      (op = 0x1F → w.toNat % 2 ^ 33 = 0 ∧ w.toNat / 2 ^ 38 % 2 ^ 3 = 0) ∧
      (op = 0x26 ∨ op = 0x27 → w.toNat % 2 ^ 46 = 0) ∧
      (0x28 ≤ op ∧ op ≤ 0x2B → w.toNat / 2 ^ 33 % 2 ^ 13 = 0) ∧
      (op = 0x2C → w.toNat / 2 ^ 33 % 2 ^ 18 = 0))

/-- R290, its corners: a divisor of zero, and -2^63 by -1. R162, R292: with an index below 2^32 and a shape entry as
SHP.W leaves it, TIDX delivers digit k of the index in the mixed radix of the extents, or for k at or above the
count the quotient left over; a larger index traps with ILLCODE. The derived pairs of R162 give every quotient
exactly. -/
def Obligations.DivisionAndIndexDecomposition : Prop :=
  ((∀ (d a b : BitVec 5) (s : State), AluReady (here s) [a, b] → sVal (here s) b = 0 →
        (∀ i ∈ [Instr.sDivs d a b, .sDivn d a b],
          exec i s = .next (onArr s (fun x => sPut x d (BitVec.allOnes 64)))) ∧
        (∀ i ∈ [Instr.sRems d a b, .sRemn d a b],
          exec i s = .next (onArr s (fun x => sPut x d (sVal x a))))) ∧
    (∀ (d a b : BitVec 5) (s : State), AluReady (here s) [a, b] →
        sVal (here s) a = BitVec.ofInt 64 (-2 ^ 63) → sVal (here s) b = BitVec.ofInt 64 (-1) →
        exec (.sDivs d a b) s = .next (onArr s (fun x => sPut x d (BitVec.ofInt 64 (-2 ^ 63)))) ∧
        exec (.sRems d a b) s = .next (onArr s (fun x => sPut x d 0)))) ∧
  (∀ (d a : BitVec 5) (sh : BitVec 4) (k : BitVec 3) (s : State), AluReady (here s) [a] →
      (2 ^ 32 ≤ (sVal (here s) a).toNat →
        exec (.sTidx d a sh k) s = .next (onArr s (fun x => raiseIll x .s))) ∧
      ((sVal (here s) a).toNat < 2 ^ 32 → ShapeOk (tabGet (here s).shapes {} sh.toNat) →
        exec (.sTidx d a sh k) s = .next (onArr s (fun x =>
          let e := tabGet x.shapes {} sh.toNat
          let v := (sVal x a).toNat
          sPut x d (BitVec.ofNat 64
            (if k.toNat < e.m then v / extentProd e k.toNat % (tabGet e.ex 0 k.toNat + 1)
             else v / extentProd e e.m))))))

/-- R285: NOP has no effect, and outside a message-passing step each transfer leaves the PC of the bundle issued
next, and the call stack, as the rule gives; a full or empty call stack traps with CALLOV, detail 0 or 1, and a
target of 131,072 or more with ILLCODE. R288, R289: after HALT the domain is halting, and TRAPI's whole effect is
its trap, with detail sext(IMM), its slot counting as performed. Neither changes a register, memory or another
array. -/
def Obligations.ControlFlow : Prop :=
  ((∀ s : State, exec .sNop s = .next s) ∧
    ∀ s : State, (here s).mpe = none →
      (∀ t : BitVec 17, exec (.sBr t) s = .next (onArr s (fun x => transferTo x t.toNat))) ∧
      (∀ (cc : Sys2Proof.Cond) (a b : BitVec 5) (t : BitVec 17), Unmarked (here s) [a, b] →
        exec (.sBrc cc a b t) s = .next (onArr s (fun x =>
          if compareHolds cc (sVal x a) (sVal x b) then transferTo x t.toNat
          else { x with nextPc := nextPc285 x }))) ∧
      (∀ (v : Bool) (t : BitVec 17), exec (.sBrf v t) s = .next (onArr s (fun x =>
          if x.ef = v then transferTo x t.toNat else { x with nextPc := nextPc285 x }))) ∧
      (∀ t : BitVec 17, exec (.sCall t) s = .next (onArr s (fun x =>
          if x.calls.length < 8 then transferTo { x with calls := nextPc285 x :: x.calls } t.toNat
          else slotTraps x .s .callov 0 0x3FFF))) ∧
      ((∀ pc rest, (here s).calls = pc :: rest →
          exec .sRet s = .next (onArr s (fun x => transferTo { x with calls := rest } pc))) ∧
        ((here s).calls = [] → exec .sRet s = .next (onArr s (fun x => slotTraps x .s .callov 1 0x3FFF)))) ∧
      (∀ a : BitVec 5, Unmarked (here s) [a] → exec (.sJmpr a) s = .next (onArr s (fun x =>
          if (sVal x a).toNat < 131072 then transferTo x (sVal x a).toNat else raiseIll x .s)))) ∧
  ((∀ s : State, (here s).mpe = none → ∃ t, exec .sHalt s = .next t ∧ OnlyArr s.cur.phys s t ∧
        (here t).cond = .halting ∧ (here t).s = (here s).s ∧ (here t).cells = (here s).cells ∧
        (here t).faults = (here s).faults ∧ (here t).tt = (here s).tt ∧ (here t).dmem = (here s).dmem) ∧
    (∀ (imm : BitVec 32) (s : State), exec (.sTrapi imm) s = .next (onArr s (fun x =>
        { x with faults := x.faults ++ [
            { cause := .trapi, slot := 0, detail := BitVec.ofInt 64 imm.toInt, region := 0x3FFF }] }))))

/-- R286: LOOP pushes an entry with index 0, or with a count of 0 goes to the successor of the end bundle; a count
of 2^24 or an end below next traps with ILLCODE, a push onto six entries with LOOPOV. LOOPBRK pops the entry and
leaves its body, and LIDX reads the index of an entry held, or 0. R286, LOOP_ADVANCE: the end bundle of the
innermost loop goes round again while passes are left; the last pass pops the entry, and an outer loop that ends at
the same PC advances next; a bundle that ends no loop goes to next. -/
def Obligations.Loops : Prop :=
  ((∀ (c : LoopCount) (sw : Bool) (last : BitVec 17) (s : State), (here s).mpe = none →
      (∀ a, c = .reg a → Unmarked (here s) [a]) →
      exec (.sLoop c sw last) s = .next (onArr s (fun x =>
        let n := match c with | .reg a => (sVal x a).toNat | .imm v => v.toNat
        if 2 ^ 24 ≤ n ∨ last.toNat < nextPc285 x then raiseIll x .s
        else if n = 0 then transferTo x (last.toNat + (if tabGet x.code 0 last.toNat = 0xFFF0 then 25 else 1))
        else if 6 ≤ x.loops.length then slotTraps x .s .loopov 0 0x3FFF
        else transferTo { x with loops := 
            { index := 0, count := n, start := nextPc285 x, stop := last.toNat, sw := sw } :: x.loops } (nextPc285 x)))) ∧
    (∀ s : State, (here s).mpe = none →
      (∀ e r, (here s).loops = e :: r → exec .sLoopbrk s = .next (onArr s (fun x =>
        transferTo { x with loops := r } (e.stop + (if tabGet x.code 0 e.stop = 0xFFF0 then 25 else 1))))) ∧
      ((here s).loops = [] → exec .sLoopbrk s = .next (onArr s (fun x => slotTraps x .s .loopov 0 0x3FFF)))) ∧
    (∀ (d : BitVec 5) (n : BitVec 3) (s : State), exec (.sLidx d n) s = .next (onArr s (fun x =>
      sPut x d (if h : n.toNat < x.loops.length then BitVec.ofNat 64 (x.loops[n.toNat]).index else 0))))) ∧
  ((∀ (pc next : Nat) (sw : Bool), loopAdvance pc next [] sw = (next, [], sw)) ∧
    ∀ (pc next : Nat) (e : LoopE) (r : List LoopE) (sw : Bool),
      (e.stop ≠ pc → loopAdvance pc next (e :: r) sw = (next, e :: r, sw)) ∧
      (e.stop = pc → e.index + 1 < e.count →
        loopAdvance pc next (e :: r) sw = (e.start, { e with index := e.index + 1 } :: r, sw || e.sw)) ∧
      (e.stop = pc → e.count ≤ e.index + 1 →
        loopAdvance pc next (e :: r) sw = loopAdvance pc next r (sw || e.sw)))

/-- R294: a load of data memory writes s[d] at once with its little-endian bytes, sign-extended or under .n
zero-extended; a store replaces exactly its bytes. An address at or above 65,536 traps with REGION, detail path 1,
and a misaligned one with ALIGN. An uncorrectable error in a word read gives s[d] a mark with source 4. R295: LDX
makes s[d] pending, ready 2 ac after issue with the scratchpad's bytes, marked with source 1 where a byte is marked;
STX replaces exactly its bytes at once. An address at or above 4 MiB traps with REGION, detail path 0, and a
misaligned one with ALIGN. -/
def Obligations.LocalMemories : Prop :=
  (∀ (size : MemSize) (a : BitVec 5) (off : BitVec 32) (s : State),
      let n := sizeBytes size
      let va := accessAddr (here s) a off
      (∀ (zx : Bool) (d : BitVec 5), Unmarked (here s) [a] →
        (va % n ≠ 0 → exec (.sLdDm size zx d a off) s =
          .next (onArr s (fun x => slotTraps x .s .align (BitVec.ofNat 64 n) 0x3FFF))) ∧
        (va % n = 0 → 65536 ≤ va → exec (.sLdDm size zx d a off) s =
          .next (onArr s (fun x => slotTraps x .s .region 1 0x3FFF))) ∧
        (va % n = 0 → va < 65536 → exec (.sLdDm size zx d a off) s = .next (onArr s (fun x =>
          sPutMk x d (loadedValue n zx (memNat x.dmem va n))
            (if x.dmUe.any (fun w => decide (va / 8 ≤ w) && decide (w ≤ (va + n - 1) / 8))
             then some { rev := false, src := 4 } else none))))) ∧
      (∀ b : BitVec 5, Unmarked (here s) [b, a] →
        (va % n ≠ 0 → exec (.sStDm size b a off) s =
          .next (onArr s (fun x => slotTraps x .s .align (BitVec.ofNat 64 n) 0x3FFF))) ∧
        (va % n = 0 → 65536 ≤ va → exec (.sStDm size b a off) s =
          .next (onArr s (fun x => slotTraps x .s .region 1 0x3FFF))) ∧
        (va % n = 0 → va < 65536 → ∃ t, exec (.sStDm size b a off) s = .next t ∧
          t = onArr s (fun x => { x with dmem := (here t).dmem, dmUe := (here t).dmUe }) ∧
          (∀ j < n, memGet (here t).dmem (va + j) = (sVal (here s) b).extractLsb' (8 * j) 8) ∧
          (∀ p, p < va ∨ va + n ≤ p → memGet (here t).dmem p = memGet (here s).dmem p)))) ∧
  (∀ (size : MemSize) (a : BitVec 5) (off : BitVec 32) (s : State),
      let n := sizeBytes size
      let va := accessAddr (here s) a off
      (∀ (zx : Bool) (d : BitVec 5), Unmarked (here s) [a] →
        (va % n ≠ 0 → exec (.sLdx size zx d a off) s =
          .next (onArr s (fun x => slotTraps x .s .align (BitVec.ofNat 64 n) 0x3FFF))) ∧
        (va % n = 0 → 4194304 ≤ va → exec (.sLdx size zx d a off) s =
          .next (onArr s (fun x => slotTraps x .s .region 0 0x3FFF))) ∧
        (va % n = 0 → va < 4194304 → exec (.sLdx size zx d a off) s = .next (onArr s (fun x =>
          if d = 0 then x
          else { sPend x d with
            pend := x.pend ++ [
              { reg := d.toNat, v := loadedValue n zx (memNat x.spad va n), at_ := x.ac + 2,
                mark := if spMarked x va n then some { rev := false, src := 1 } else none }] })))) ∧
      (∀ b : BitVec 5, Unmarked (here s) [b, a] →
        (va % n ≠ 0 → exec (.sStx size b a off) s =
          .next (onArr s (fun x => slotTraps x .s .align (BitVec.ofNat 64 n) 0x3FFF))) ∧
        (va % n = 0 → 4194304 ≤ va → exec (.sStx size b a off) s =
          .next (onArr s (fun x => slotTraps x .s .region 0 0x3FFF))) ∧
        (va % n = 0 → va < 4194304 → ∃ t, exec (.sStx size b a off) s = .next t ∧
          t = onArr s (fun x => { x with spad := (here t).spad, spMk := (here t).spMk }) ∧
          (∀ j < n, memGet (here t).spad (va + j) = (sVal (here s) b).extractLsb' (8 * j) 8) ∧
          (∀ p, p < va ∨ va + n ≤ p → memGet (here t).spad p = memGet (here s).spad p))))

-- The sequencer: memory, other arrays, semaphores, links, registers and engines

/-- R293: LD of an aligned address that translates. Where the egress cache holds every byte, s[d] is ready 6 ac
after issue with those bytes, extended; else s[d] is pending and the read of its line is on its way. A misaligned
address traps with ALIGN, and one that does not translate with its cause, path 1 for REGION and FOREIGN. R214, R293:
ST of an aligned address that translates puts exactly its bytes into the line of the egress cache: those bytes are
the low bytes of s[b], every other byte that the cache gives is as before, and no byte of device memory has changed.
-/
def Obligations.MemoryAccess : Prop :=
  (∀ (size : MemSize) (zx : Bool) (d a : BitVec 5) (off : BitVec 32) (s : State), Unmarked (here s) [a] →
      let n := sizeBytes size
      let va := accessAddr (here s) a off
      (va % n ≠ 0 → exec (.sLd size zx d a off) s =
        .next (onArr s (fun x => slotTraps x .s .align (BitVec.ofNat 64 n) 0x3FFF))) ∧
      (∀ c num, va % n = 0 → xlateHere s va n .rd = .bad c num → exec (.sLd size zx d a off) s =
        .next (onArr s (fun x => slotTraps x .s c (if c = .region ∨ c = .foreign then 1 else 0) num))) ∧
      (∀ num r o, va % n = 0 → xlateHere s va n .rd = .ok num r o → o % n = 0 →
        let line := egSee (here s) (egKey r o)
        ((∀ i < n, line.2.1.getLsbD (o % 64 + i) = true) → exec (.sLd size zx d a off) s =
          .next (onArr s (fun x => readyIn x d
            (loadedValue n zx (line.1.toNat / 2 ^ (8 * (o % 64)) % 2 ^ (8 * n)))
            (if line.2.2 then some { rev := false, src := 0 } else none) 6))) ∧
        (¬ (∀ i < n, line.2.1.getLsbD (o % 64 + i) = true) → exec (.sLd size zx d a off) s =
          .next (sendRead (onArr s (fun x => sPend x d)) s.cur.phys 1 r o 0
            (.load s.cur.phys (here s).epoch d.toNat (o % 64) n zx line.1 line.2.1 line.2.2))))) ∧
  (∀ (size : MemSize) (b a : BitVec 5) (off : BitVec 32) (s : State), Unmarked (here s) [b, a] →
      let n := sizeBytes size
      let va := accessAddr (here s) a off
      (va % n ≠ 0 → exec (.sSt size b a off) s =
        .next (onArr s (fun x => slotTraps x .s .align (BitVec.ofNat 64 n) 0x3FFF))) ∧
      (∀ c num, va % n = 0 → xlateHere s va n .wr = .bad c num → exec (.sSt size b a off) s =
        .next (onArr s (fun x => slotTraps x .s c (if c = .region ∨ c = .foreign then 1 else 0) num))) ∧
      (∀ num r o, va % n = 0 → xlateHere s va n .wr = .ok num r o → o % n = 0 → r.pbase % 64 = 0 →
        ∃ t, exec (.sSt size b a off) s = .next t ∧ t.mem = s.mem ∧ (here t).s = (here s).s ∧
          (here t).faults = (here s).faults ∧
          let was := egSee (here s) (egKey r o)
          let now := egSee (here t) (egKey r o)
          (∀ i < 64,
            (if o % 64 ≤ i ∧ i < o % 64 + n then
              now.1.extractLsb' (8 * i) 8 = (sVal (here s) b).extractLsb' (8 * (i - o % 64)) 8 ∧
                now.2.1.getLsbD i = true
            else now.1.extractLsb' (8 * i) 8 = was.1.extractLsb' (8 * i) 8 ∧
                now.2.1.getLsbD i = was.2.1.getLsbD i)) ∧
          ∀ k, k ≠ egKey r o → (egSee (here t) k).1 = (egSee (here s) k).1 ∧
            (egSee (here t) k).2.1 = (egSee (here s) k).2.1))

/-- R296, R297: LD.SC and each AMO on an aligned address of a SEQ region queues its operation, with the values of
its operands, and makes s[d] pending. ST.SC queues its store, makes nothing pending, and ends replayability (R316).
R210, R221, R222, R296, R297: the oldest SC operation of an array reads its line at the home slice and takes tau,
one past the later of the array's clock and the line's timestamp, which it leaves at the line and answers with: a
load returns the word, a store writes it, and an AMO returns the word and writes what its operator gives. -/
def Obligations.ScOperations : Prop :=
  (∀ (w64 : Bool) (d b c a : BitVec 5) (s : State),
      let va := (sVal (here s) a).toNat
      let n := if w64 then 8 else 4
      ∀ num r o, va % n = 0 → Unmarked (here s) [a, b, c] →
        (∀ x ∈ scRows w64 d b c a,
          xlateHere s va n (if x.2.1 = .load then .scRd else .sc) = .ok num r o → exec x.1 s = .next (onArr s (fun y =>
            let z := sPend y d
            { z with sc := y.sc ++
                [{ kind := x.2.1, w64 := w64, va := va, reg := d.toNat, b := sVal y x.2.2.1, c := sVal y x.2.2.2 }] }))) ∧
        (xlateHere s va n .sc = .ok num r o → exec (.sStSc w64 b a) s = .next (unreplayHere (onArr s (fun y =>
          { y with sc := y.sc ++
              [{ kind := .store, w64 := w64, va := va, reg := 0, b := sVal y b, c := 0 }] })) 3))) ∧
  (∀ (s : State) (o : ScOp) (rest : List ScOp) (num : Nat) (r : Region) (off : Nat),
      let p := s.cur.phys
      let n := if o.w64 then 8 else 4
      let l := (r.pbase + off) / 64
      let u := lineRead s l r.slot r.prot (here s).node 0
      let tau := (if (here s).clock.ult (lineTs u.1 l) then lineTs u.1 l else (here s).clock) + 1
      let old := u.2.data.toNat / 2 ^ (8 * (off % 64)) % 2 ^ (8 * n)
      let put (t : State) (x : Nat) : State :=
        let y := linePiece (64 * l + off % 64) l (leBytes n x)
        setTs (lineWrite t l r.slot r.prot y.1 y.2 false none).1 l tau
      let reply (t : State) (v : PendVal) : Host.Outcome State Fault Refusal := .next (scReply t p (homeSlice l) v)
      (here s).sc = o :: rest → xlateArr s p o.va n (if o.kind = .load then .scRd else .sc) = .ok num r off → tau ≠ 0 →
      (o.kind = .load → exec .scOperationPerform s = reply (setTs u.1 l tau)
        { reg := o.reg, v := loadedValue n false old, at_ := (here s).ac, tau := some tau
          mark := if u.2.rev then some { rev := true, src := 0 }
            else if u.2.bad then some { rev := false, src := 0 } else none }) ∧
      (o.kind = .store → exec .scOperationPerform s = reply (put u.1 (o.b.toNat % 2 ^ (8 * n)))
        { reg := 0, v := 0, mark := none, at_ := (here s).ac, tau := some tau }) ∧
      (∀ op uns, o.kind = .amo op uns → u.2.bad = false →
        let t := match amoResult op uns (8 * n) old (o.b.toNat % 2 ^ (8 * n)) (o.c.toNat % 2 ^ (8 * n)) with
          | some x => put u.1 x
          | none => setTs u.1 l tau
        exec .scOperationPerform s = reply (match (here s).node with | some id => unreplay t id 3 | none => t)
          { reg := o.reg, v := loadedValue n uns old, mark := none, at_ := (here s).ac, tau := some tau }))

/-- R301, R302: with a name whose bulkhead offset lies in the partition, SEM.ADD, SEM.SET and SEM.RD send their
operation to the semaphore file, SEM.RD making s[d] pending and the other two ending replayability (R316), and
SEM.WAIT freezes the domain on the value of s[b]; another name traps with SEMNAME. -/
def Obligations.SemaphoreInstructions : Prop :=
  ∀ (name : W16) (b d : BitVec 5) (s : State), Unmarked (here s) [b] →
    let inPart : Prop := (name.extractLsb' 12 4).toNat < partSize s (partOfArr s s.cur.phys)
    let op (k : SemKind) (v : W64) (reg : BitVec 5) (x : ArrayS) : SemOp :=
      { kind := k, name := name, v := v, reg := reg.toNat, at_ := x.ac, sent := false, ep := x.epoch }
    (inPart →
      exec (.sSemAdd name b) s = .next (unreplayHere
        (onArr s (fun x => { x with sems := x.sems ++ [op .add (sVal x b) 0 x] })) 3) ∧
      exec (.sSemSet name b) s = .next (unreplayHere
        (onArr s (fun x => { x with sems := x.sems ++ [op .set (sVal x b) 0 x] })) 3) ∧
      exec (.sSemRd d name) s = .next
        (onArr s (fun x => let y := sPend x d; { y with sems := x.sems ++ [op .read 0 d x] })) ∧
      exec (.sSemWait name b) s = .next
        (onArr s (fun x => { x with wait := some (.sem name (sVal x b) x.ac none) }))) ∧
    (¬ inPart → ∀ i ∈ [Instr.sSemAdd name b, .sSemSet name b, .sSemRd d name, .sSemWait name b],
      exec i s = .next (onArr s (fun x => slotTraps x .s .semname (name.setWidth 64) 0x3FFF)))

/-- R215, R216, R299, R300: XFER of a region the array owns gives the descriptor its new owner, pending release,
behind a marker in the array's FIFO, and freezes the domain; REL places a marker and freezes. A region that is not OWNED
traps with REGION, one of another owner with FOREIGN, and an owner code that an XFER may not name with REGION. What
FENCE.X waits for is the model's choice (log entry 122): the copies started before it, where set a holds P-CP, and the
collectives, where it holds P-CL; the writes of the other paths are taken to be at their coherence points already, and a
fence from P-LD to P-CP leaves its TT for copies that read the operand store. -/
def Obligations.OwnershipAndFences : Prop :=
  (∀ (num : BitVec 14) (owner : BitVec 8) (s : State) (r : Region),
    let p := partOfArr s s.cur.phys
    let m := ((here s).markNext + 1) % 2 ^ 24
    tabFind (partOf s p).regions num.toNat = some r → r.kind = 1 →
    (xferOwnerOk s (here s) p owner.toNat = true → r.owner = (here s).logical →
      ∃ t, exec (.sXfer num owner) s = .next t ∧ t.mem = s.mem ∧ (here t).s = (here s).s ∧
        (here t).wait = some (.xfer num.toNat (here s).ac) ∧
        (here t).fifo = (here s).fifo ++ [.marker m] ∧
        tabFind (partOf t p).regions num.toNat =
          some { r with owner := owner.toNat, rpend := true, mark := m, markA := s.cur.phys, markV := true } ∧
        (∀ k, k ≠ num.toNat → tabFind (partOf t p).regions k = tabFind (partOf s p).regions k)) ∧
    (r.owner = (here s).logical →
      ∃ t, exec (.sRel num) s = .next t ∧ t.mem = s.mem ∧ t.parts = s.parts ∧ (here t).s = (here s).s ∧
        (here t).wait = some (.rel m (here s).ac) ∧ (here t).fifo = (here s).fifo ++ [.marker m]) ∧
    (r.owner ≠ (here s).logical →
      (xferOwnerOk s (here s) p owner.toNat = true → exec (.sXfer num owner) s =
        .next (onArr s (fun x => slotTraps x .s .foreign 1 num.toNat))) ∧
      exec (.sRel num) s = .next (onArr s (fun x => slotTraps x .s .foreign 1 num.toNat)))) ∧
  (∀ (num : BitVec 14) (owner : BitVec 8) (s : State),
    (∀ r, tabFind (partOf s (partOfArr s s.cur.phys)).regions num.toNat = some r → r.kind ≠ 1) →
    ∀ i ∈ [Instr.sXfer num owner, .sRel num],
      exec i s = .next (onArr s (fun x => slotTraps x .s .region 1 num.toNat))) ∧
  (∀ (num : BitVec 14) (owner : BitVec 8) (s : State), xferOwnerOk s (here s) (partOfArr s s.cur.phys) owner.toNat = false →
    (∃ r, tabFind (partOf s (partOfArr s s.cur.phys)).regions num.toNat = some r ∧ r.kind = 1) →
    exec (.sXfer num owner) s = .next (onArr s (fun x => slotTraps x .s .region 1 num.toNat))) ∧
  (∀ (pa pb : BitVec 5) (s : State), exec (.sFenceX pa pb) s = .next (onArr s (fun x =>
    { x with
      wait := some (.fence (if pa.getLsbD 2 then x.chans.map (fun c => c.1) else []) (pa.getLsbD 3) x.ac)
      ldFence := if pa.getLsbD 0 ∧ pb.getLsbD 2 then some x.tt else x.ldFence })))

/-- R52, R54, R283, R303: on a link that is not DOWN, with a 64-aligned address whose 64 bytes lie in data memory, LSEND
sends those bytes as one flit on lane VLq, and LRECV writes the oldest entry of queue q there and removes it. A
misaligned address traps with ALIGN, whose detail is open (log entry 59), one past the end with REGION, detail path 3,
and a link that is DOWN with LINK. -/
def Obligations.StreamInstructions : Prop :=
  ∀ (link : BitVec 4) (q : BitVec 2) (a : BitVec 5) (s : State), Unmarked (here s) [a] →
    let va := (sVal (here s) a).toNat
    let l := 9 * (s.cur.phys / 6) + link.toNat
    (va % 64 = 0 ∧ va + 64 ≤ 65536 → (linkOf s l).st ≠ .down →
      (dmBad (here s) va 64 = false →
        exec (.sLsend link q a) s = .next (unreplayHere (modLink s l (fun x =>
          { x with txq := tabSet x.txq q.toNat (tabGet x.txq [] q.toNat ++
              [{ kind := 1, vl := q.toNat, seq := 0, ack := 0, off := 0, tag := 0, len := 63, crcOk := true,
                 data := memLine (here s).dmem va }]) })) 3)) ∧
      (∀ f r, tabGet (linkOf s l).rxq [] q.toNat = f :: r →
        ∃ t, exec (.sLrecv link q a) s = .next t ∧
          tabGet (linkOf t l).rxq [] q.toNat = r ∧ (here t).s = (here s).s ∧
          (∀ j < 64, memGet (here t).dmem (va + j) = f.data.extractLsb' (8 * j) 8) ∧
          (∀ p, p < va ∨ va + 64 ≤ p → memGet (here t).dmem p = memGet (here s).dmem p))) ∧
    (va % 64 ≠ 0 → ∀ i ∈ [Instr.sLsend link q a, .sLrecv link q a],
      ∃ detail, exec i s = .next (onArr s (fun x => slotTraps x .s .align detail 0x3FFF))) ∧
    (va % 64 = 0 → 65536 < va + 64 → ∀ i ∈ [Instr.sLsend link q a, .sLrecv link q a],
      exec i s = .next (onArr s (fun x => slotTraps x .s .region 3 0x3FFF))) ∧
    (va % 64 = 0 ∧ va + 64 ≤ 65536 → (linkOf s l).st = .down →
      ∀ i ∈ [Instr.sLsend link q a, .sLrecv link q a],
        exec i s = .next (onArr s (fun x =>
          slotTraps x .s .link (BitVec.ofNat 64 (link.toNat + 256 * q.toNat)) 0x3FFF)))

/-- R304 to R307, R310: each of these writes its one register: a mask, an extent or count of a shape entry, a field of
a shadow nest to its width (log entry 13: CTL is kept 32 bits wide), a template of 128 bytes of data memory, the seed
with srcount 0. MOV.YM of ym2 or ym3 in a message-passing step traps with SLOTCF (R203), its detail the slot's code
twice (log entry 90); SHP.W of a value out of range with ILLCODE; CT.LD of an address that is no multiple of 8 with
ALIGN, and of one past the end of data memory with REGION, detail path 1. -/
def Obligations.SetUpInstructions : Prop :=
  ∀ (a : BitVec 5) (s : State), Unmarked (here s) [a] →
    (∀ m : BitVec 2, ((here s).mpe = none ∨ m.toNat < 2) → exec (.sMovYm m a) s =
      .next (onArr s (fun x => { x with ym := tabSet x.ym m.toNat (sVal x a) }))) ∧
    (∀ m : BitVec 2, (here s).mpe ≠ none → 2 ≤ m.toNat → exec (.sMovYm m a) s =
      .next (onArr s (fun x => slotTraps x .s .slotcf 0 0x3FFF))) ∧
    (∀ m : BitVec 2, exec (.sMovXm m a) s =
      .next (onArr s (fun x => { x with xm := tabSet x.xm m.toNat (sVal x a) }))) ∧
    (∀ (sh : BitVec 4) (f : BitVec 3), f.toNat ≤ 4 → 1 ≤ (sVal (here s) a).toNat →
      (sVal (here s) a).toNat ≤ 2 ^ 24 → exec (.sShpW sh f a) s = .next (onArr s (fun x =>
        let e := tabGet x.shapes {} sh.toNat
        let e' := { e with ex := tabSet e.ex f.toNat ((sVal x a).toNat - 1) }
        { x with shapes := tabSet x.shapes sh.toNat e' }))) ∧
    (∀ (sh : BitVec 4) (f : BitVec 3), f.toNat = 5 → 1 ≤ (sVal (here s) a).toNat →
      (sVal (here s) a).toNat ≤ 5 → exec (.sShpW sh f a) s = .next (onArr s (fun x =>
        let e := tabGet x.shapes {} sh.toNat
        { x with shapes := tabSet x.shapes sh.toNat { e with m := (sVal x a).toNat } }))) ∧
    (∀ (sh : BitVec 4) (f : BitVec 3), f.toNat ≤ 5 →
      (sVal (here s) a).toNat < 1 ∨ (if f.toNat = 5 then 5 else 2 ^ 24) < (sVal (here s) a).toNat →
      exec (.sShpW sh f a) s = .next (onArr s (fun x => raiseIll x .s))) ∧
    (∀ (l : Loader) (f : BitVec 4), exec (.sNestW l f a) s = .next (onArr s (fun x =>
        setLoader x l { loaderState x l with
          shadow := tabSet (loaderState x l).shadow f.toNat ((sVal x a).toNat % 2 ^ nestWidth f.toNat) }))) ∧
    (∀ ct : BitVec 6, (sVal (here s) a).toNat % 8 = 0 → (sVal (here s) a).toNat + 128 ≤ 65536 →
      dmBad (here s) (sVal (here s) a).toNat 128 = false → exec (.sCtLd ct a) s = .next (onArr s (fun x =>
        let t := BitVec.ofNat 1024 (memNat x.dmem (sVal x a).toNat 128)
        { x with tmpl := tabSet x.tmpl ct.toNat t }))) ∧
    (∀ ct : BitVec 6, ((sVal (here s) a).toNat % 8 ≠ 0 → exec (.sCtLd ct a) s =
        .next (onArr s (fun x => slotTraps x .s .align 8 0x3FFF))) ∧
      ((sVal (here s) a).toNat % 8 = 0 → 65536 < (sVal (here s) a).toNat + 128 → exec (.sCtLd ct a) s =
        .next (onArr s (fun x => slotTraps x .s .region 1 0x3FFF)))) ∧
    exec (.sSrSeed a none) s = .next (onArr s (fun x =>
      { x with seed := (sVal x a).setWidth 32, srcount := 0 })) ∧
    (∀ b : BitVec 5, Unmarked (here s) [b] → exec (.sSrSeed a (some b)) s = .next (onArr s (fun x =>
      { x with seed := (sVal x a).setWidth 32, srcount := 0, tile := (sVal x b).setWidth 32 })))

/-- R164, R229, R309, R313 to R315: EDGE.RD, TT.RD and SYSR of a listed register write s[d]; SYSW to EDGEMODE, FRZAC
and SVADDR writes the register, to a listed RO register it is ignored; unlisted numbers trap with PRIV. SVDATA
reaches the captured state for a save or restore program, else it traps with PRIV. TT.CHK has no effect where TT,
TTCRC and the signatures match, and traps with TTDEV, then WAVESIG, where they do not. -/
def Obligations.SystemRegisterAccess : Prop :=
  (∀ (d : BitVec 5) (er : BitVec 2) (s : State),
    exec (.sEdgeRd d er) s = .next (onArr s (fun x => sPut x d (tabGet x.er 0 er.toNat))) ∧
    exec (.sTtRd d) s = .next (onArr s (fun x => sPut x d (BitVec.ofNat 64 x.tt)))) ∧
  (∀ (d : BitVec 5) (s : State),
    exec (.sSysr d 0x100) s = .next (onArr s (fun x => sPut x d (arridVal x))) ∧
    exec (.sSysr d 0x101) s = .next (onArr s (fun x => sPut x d (x.edgemode.setWidth 64))) ∧
    exec (.sSysr d 0x102) s = .next (onArr s (fun x => sPut x d (BitVec.ofNat 64 x.tt))) ∧
    exec (.sSysr d 0x103) s = .next (onArr s (fun x => sPut x d (x.ttcrc.setWidth 64))) ∧
    exec (.sSysr d 0x104) s = .next (onArr s (fun x => sPut x d x.frzac)) ∧
    exec (.sSysr d 0x108) s = .next (onArr s (fun x => sPut x d (x.fstOr.setWidth 64)))) ∧
  (∀ (a : BitVec 5) (s : State), Unmarked (here s) [a] →
    exec (.sSysw 0x101 a) s = .next (onArr s (fun x =>
      { x with edgemode := edgemodeWrite x.edgemode (sVal x a) })) ∧
    exec (.sSysw 0x104 a) s = .next (onArr s (fun x => { x with frzac := sVal x a })) ∧
    exec (.sSysw 0x120 a) s = .next (onArr s (fun x =>
      { x with svaddr := (sVal x a).toNat / 8 % 2 ^ 21 })) ∧
    (∀ num ∈ [0x100#16, 0x102, 0x103, 0x105, 0x106, 0x107, 0x108, 0x110, 0x111, 0x112, 0x113, 0x200, 0x2FF],
      exec (.sSysw num a) s = .next (onArr s id))) ∧
  (∀ (d a : BitVec 5) (s : State) (n : NodeId) (nd : NodeS) (c : ArrayS),
    capturedOf s (here s) = some (n, nd, c) →
    (svReach (here s) 1 = true → exec (.sSysr d 0x121) s = .next (onArr s (fun x =>
      svNext (sPut x d (svWord c nd.capId (8 * x.svaddr)))))) ∧
    (svReach (here s) 2 = true → Unmarked (here s) [a] → exec (.sSysw 0x121 a) s =
      .next (onArr (setNode s n { nd with
        saved := tabSet nd.saved (here s).logical (svPut c nd.capId (8 * (here s).svaddr) (sVal (here s) a)) }) svNext)) ∧
    (svReach (here s) 1 = false → exec (.sSysr d 0x121) s =
      .next (onArr s (fun x => slotTraps x .s .priv 0x121 0x3FFF))) ∧
    (svReach (here s) 2 = false → Unmarked (here s) [a] → exec (.sSysw 0x121 a) s =
      .next (onArr s (fun x => slotTraps x .s .priv 0x121 0x3FFF)))) ∧
  (∀ (d a : BitVec 5) (num : BitVec 16) (s : State), Unmarked (here s) [a] → num ≠ 0x121 →
    sysRead (here s) num.toNat = none →
    ∀ i ∈ [Instr.sSysr d num, .sSysw num a],
      exec i s = .next (onArr s (fun x => slotTraps x .s .priv (num.setWidth 64) 0x3FFF))) ∧
  (∀ (want : TtExpect) (crc : W32) (s : State), (∀ a, want = .reg a → Unmarked (here s) [a]) →
    let tt : W64 := match want with | .reg a => sVal (here s) a | .imm e => e.setWidth 64
    exec (.sTtChk want crc) s = .next (onArr s (fun x =>
      if BitVec.ofNat 64 x.tt ≠ tt ∨ x.ttcrc ≠ crc then slotTraps x .s .ttdev (x.ttcrc.setWidth 64) 0x3FFF
      else if x.sigiRef ≠ x.sigs then slotTraps x .s .wavesig 0 0x3FFF
      else x)))

/-- R196, R199, R308: ST.A to the aperture of channel c, with a template whose check finds nothing, starts the copy:
the channel holds the template and the values of SREG and DREG, and nothing else has changed. A start that the check
refuses traps, and an address outside the aperture traps with REGION, detail path 2. -/
def Obligations.CopyStart : Prop :=
  ∀ (b : BitVec 5) (ap : BitVec 16) (s : State), Unmarked (here s) [b] →
    let v := sVal (here s) b
    let ch := ap.toNat / 16 % 16
    let t := tabGet (here s).tmpl 0 (v.toNat % 64)
    let rs : BitVec 5 := BitVec.ofNat 5 (tmF t 4 1)
    let rd : BitVec 5 := BitVec.ofNat 5 (tmF t 5 1)
    (ap.toNat < 0x1000 ∨ 0x1100 ≤ ap.toNat ∨ ap.toNat % 16 ≠ 0 → exec (.sStA b ap) s =
      .next (onArr s (fun x => slotTraps x .s .region 2 0x3FFF))) ∧
    (0x1000 ≤ ap.toNat → ap.toNat < 0x1100 → ap.toNat % 16 = 0 → v.toNat < 128 →
      Unmarked (here s) [rs, rd] →
      (copyCheck s t (sVal (here s) rs) (sVal (here s) rd) (v.getLsbD 6) = none →
        exec (.sStA b ap) s = .next (onArr s (fun x =>
          let c : ChanS :=
            { tmpl := t, sreg := sVal x rs, dreg := sVal x rd, nosem := v.getLsbD 6, pos := 0, stop := false
              after := x.ldFence }
          { x with chans := tabSet x.chans ch c }))) ∧
      (∀ c n h, copyCheck s t (sVal (here s) rs) (sVal (here s) rd) (v.getLsbD 6) = some (c, n, h) →
        exec (.sStA b ap) s = .next (onArr s (fun x => slotTraps x .s c (copyDetail c ch h t) n))))

/-- R203, R311, R312: in a body bundle MPASS and COLL.GO trap with ILLCODE; outside one, an address that is not
aligned to the descriptor traps with REGION, detail path 4 or 3. With an aligned address whose descriptor is read
without error and found valid, MPASS starts the step the descriptor gives, and COLL.GO hands the collective to the
bulkhead's engine, counts it at the array and ends replayability. -/
def Obligations.EngineStarts : Prop :=
  ∀ (a : BitVec 5) (s : State), Unmarked (here s) [a] →
    let p := s.cur.phys
    let va := (sVal (here s) a).toNat
    ((here s).mpe.isSome → ∀ i ∈ [Instr.sMpass a, .sCollGo a none],
      exec i s = .next (onArr s (fun x => raiseIll x .s))) ∧
    ((here s).mpe = none →
      (va % 128 ≠ 0 → exec (.sMpass a) s = .next (onArr s (fun x => slotTraps x .s .region 4 0x3FFF))) ∧
      (va % 64 ≠ 0 → exec (.sCollGo a none) s = .next (onArr s (fun x => slotTraps x .s .region 3 0x3FFF))) ∧
      (∀ t r, va % 128 = 0 → arrRead s p va 128 = (t, r) → r.err = none → r.bad = false →
        let d := BitVec.ofNat 1024 (leNat r.bytes)
        let m := mpeOf d (here s).tt false
        mpeOk d (tabFind (here s).dict (m.dstart + m.doff)) ((here s).busy0.extractLsb' 16 16 = 0)
          (fun k => match xlateArr t p m.carry 320 k with | .ok _ _ _ => true | .bad _ _ => false) = true →
        exec (.sMpass a) s = .next (mpeStart t p m)) ∧
      (∀ t r, va % 64 = 0 → arrRead s p va 64 = (t, r) → r.err = none → r.bad = false →
        let d := BitVec.ofNat 512 (leNat r.bytes)
        let c : CollS := { desc := d, va := va, sem := none, q := none, arr := some (p, (here s).epoch) }
        cdOk d = true → exec (.sCollGo a none) s =
          .next (collStart (onArr (unreplayHere t 3) (fun x => { x with colls := x.colls + 1 })) (p / 6) c) ∧
        ∀ (b : BitVec 5) (name : W16), Unmarked (here s) [b] →
          semNameOk t (partOfArr t p) name = true → exec (.sCollGo a (some (b, name))) s =
          .next (collStart (onArr (unreplayHere t 3) (fun x => { x with colls := x.colls + 1 })) (p / 6)
            { c with sem := some (name, sVal (here s) b) })))

-- Cells

/-- R147, R151, R317, R318: for every C operation, an instance that is ready runs without a fault; every cell of its
row whose mask bits and guard hold takes the operation's effect, and every other cell of the array is unchanged.
Only the cells, the row's port queues and its pipe entry change: every other row's entry stands, and this row's carries
the lane values and flag lanes that the executing cells have passed on, under DRN and FLG alone (R153, R156). R178: an
instance that runs takes one entry from the front of each port queue of its row that a used source names, and from no
other. -/
def Obligations.CellInstances : Prop :=
  (∀ (o : COp) (f : CSlot) (s : State) (e : PipeE), InstanceReady s e →
      ∃ t, exec (cInstr o f) s = .next t ∧ OnlyArr s.cur.phys s t ∧
        here t = { here s with cells := (here t).cells, npq := (here t).npq, wpq := (here t).wpq,
                               pipe := (here t).pipe } ∧
        ∀ r c, c < 64 → cellAt (here t) r c =
          if r = s.cur.row ∧ executes (here s) e f r c then (cellEffect o f (here s) e r c).1
          else cellAt (here s) r c) ∧
  (∀ (o : COp) (f : CSlot) (s t : State) (e : PipeE), InstanceReady s e → exec (cInstr o f) s = .next t →
      let r := s.cur.row
      let e1 := laneInit o f (here s) r e
      ∃ e2 : PipeE, (here t).pipe = (here s).pipe.set r (some e2) ∧
        e2 = { e1 with lane := e2.lane, fl := e2.fl, taps := e2.taps, tapLive := e2.tapLive, fst := e2.fst
                       upcm := none, upmk := 0, dncm := none, dnmk := 0 } ∧
        ∀ c < 64,
          tabGet e2.lane 0 c = (if o = .drn ∧ executes (here s) e f r c then (cellEffect o f (here s) e r c).2.1
            else tabGet e1.lane 0 c) ∧
          e2.fl.getLsbD c = (if o = .flg ∧ executes (here s) e f r c then
              (if f.spec.getLsbD 13 then e1.fl.getLsbD c && (cellEffect o f (here s) e r c).2.2
               else e1.fl.getLsbD c || (cellEffect o f (here s) e r c).2.2)
            else e1.fl.getLsbD c)) ∧
  (∀ (o : COp) (f : CSlot) (s t : State) (e : PipeE), InstanceReady s e → exec (cInstr o f) s = .next t →
      ∀ r, tabGet (here t).npq [] r = (if r = s.cur.row ∧ cNames o f 29 then (tabGet (here s).npq [] r).drop 1
            else tabGet (here s).npq [] r) ∧
        tabGet (here t).wpq [] r = (if r = s.cur.row ∧ cNames o f 30 then (tabGet (here s).wpq [] r).drop 1
            else tabGet (here s).wpq [] r))

/-- R259, R267, R326: in an integer view, each element of ADD, SUB, MUL, FMA, FMS, NEG, ABS, MIN and MAX is the exact
integer result of the elements, wrapped to the width or clamped under SAT. R279, R338: REQ scales the product of each
lane's accumulator and multiplier, rounded to the nearest, ties up, adds the zero point and clamps; the elements from
4 upwards are zero. R277, R351: HASH32 mixes each lane of b with SPEC, and the result with a's lane. -/
def Obligations.CellIntegerArithmetic : Prop :=
  (∀ o ∈ [COp.add, .sub, .mul, .fma, .fms, .neg, .abs, .min, .max],
    ∀ (f : CSlot) (x : CellCtx) (a b c : Vec) (sc : Option Vec) (u : Bool) (w : Nat),
      viewOf f = .int u w → w ∈ [4, 8, 16, 32] → ∀ i < 128 / w,
        elem (cellAlu o f x a b c sc).1 w i = delivered u w f.sat
          (exactInt o (intOf u w (elem a w i)) (intOf u w (elem b w i)) (intOf u w (elem c w i)))) ∧
  (∀ (f : CSlot) (x : CellCtx) (a b c : Vec) (sc : Option Vec) (u : Bool) (w : Nat),
      viewOf f = .int u w → w ∈ [4, 8, 16] →
        (∀ l < 4,
          let p := intOf false 32 (elem a 32 l) * intOf false 32 (elem b 32 l)
          let n := elem c 32 l % 32
          elem (cellAlu .req f x a b c sc).1 w l = delivered u w true
            ((if n = 0 then p else (p + 2 ^ (n - 1)) / 2 ^ n) + intOf false 9 f.spec.toNat)) ∧
        ∀ i, 4 ≤ i → i < 128 / w → elem (cellAlu .req f x a b c sc).1 w i = 0) ∧
  (∀ (f : CSlot) (x : CellCtx) (a b c : Vec) (sc : Option Vec), ∀ l < 4,
      elem (cellAlu .hash32 f x a b c sc).1 32 l =
        mixed (Nat.xor (elem a 32 l) (mixed (Nat.xor (elem b 32 l) f.spec.toNat))))

/-- R325, R329, R330, R332, and R352: MOV delivers a whole, MOVI in every element the low bits of SPEC, extended by
UNS; AND, OR, XOR and NOT act on all 128 bits; the shifts act on each element of TYPE 3 to 6 by the low bits of its
amount; SEL takes a's element where c's is not zero; TIDX gives its four lanes. None sets a flag, and the result
goes to the destination. -/
def Obligations.CellMovesLogicShifts : Prop :=
  ∀ (f : CSlot) (x : CellCtx) (y : CellS) (a b c : Vec) (sc : Option Vec) (lane : Nat) (seg : Bool),
    let w := [32, 16, 16, 32, 16, 8, 4].getD f.typ.toNat 4
    let got (o : COp) : Vec := (cellAlu o f x a b c sc).1
    (∀ o ∈ [COp.mov, .movi, .and, .or, .xor, .not, .shl, .shr, .sar, .rot, .sel, .tidx],
      (cellAlu o f x a b c sc).2 = flNone ∧
      (f.hold = 0 → (cellExec o f x y a b c lane seg).1 = writeDst y f.dst.toNat (got o))) ∧
    got .mov = a ∧
    (∀ i < 128 / w, elem (got .movi) w i =
      (if f.uns then f.spec.toNat % 2 ^ w else (f.spec.toInt % 2 ^ w).toNat)) ∧
    got .and = a &&& b ∧ got .or = a ||| b ∧ got .xor = a ^^^ b ∧ got .not = ~~~a ∧
    (3 ≤ f.typ.toNat → f.typ.toNat ≤ 6 → ∀ i < 128 / w,
      let v := elem a w i
      let n := elem b w i % w
      elem (got .shl) w i = v * 2 ^ n % 2 ^ w ∧ elem (got .shr) w i = v / 2 ^ n ∧
      elem (got .sar) w i = (intOf false w v / 2 ^ n % 2 ^ w).toNat ∧
      elem (got .rot) w i = v * 2 ^ n % 2 ^ w + v / 2 ^ (w - n)) ∧
    (∀ i < 128 / w, elem (got .sel) w i = (if elem c w i ≠ 0 then elem a w i else elem b w i)) ∧
    (laneOf (got .tidx) 0).toNat = x.rho % 2 ^ 32 ∧ (laneOf (got .tidx) 1).toNat = x.col % 2 ^ 32 ∧
    (laneOf (got .tidx) 2).toNat = x.logical % 2 ^ 32 ∧
    (laneOf (got .tidx) 3).toNat = (64 * x.rho + x.col) % 2 ^ 32

/-- R331, R332, R340, R341: in an integer view a compare gives all ones or zero by the order of the elements; SEL
takes a's element where c's is not zero; HSUM delivers the sum of all elements to 32 bits; HMAX and HMIN deliver an
element that no element passes. R268, R331: in a floating view a compare gives all ones or zero by the order of the
exact values, the infinities at its ends; +0 equals -0, and with a NaN eq, lt and le are false and ne is true. -/
def Obligations.CellCompareSelectReduce : Prop :=
  (∀ (f : CSlot) (x : CellCtx) (a b c : Vec) (sc : Option Vec) (g : FFmt), viewOf f = .flt g →
    let w := ffWidth g
    ∀ i < 128 / w,
      let p := valOf g (elem a w i)
      let q := valOf g (elem b w i)
      ∀ y ∈ [(COp.cmpEq, valLe p q ∧ valLe q p), (.cmpNe, ¬ (valLe p q ∧ valLe q p)),
          (.cmpLt, valLe p q ∧ ¬ valLe q p), (.cmpLe, valLe p q)],
        (y.2 → elem (cellAlu y.1 f x a b c sc).1 w i = 2 ^ w - 1) ∧
        (¬ y.2 → elem (cellAlu y.1 f x a b c sc).1 w i = 0)) ∧
  ∀ (f : CSlot) (x : CellCtx) (a b c : Vec) (sc : Option Vec) (u : Bool) (w : Nat),
    viewOf f = .int u w → w ∈ [4, 8, 16, 32] →
    (∀ i < 128 / w,
      let p := intOf u w (elem a w i)
      let q := intOf u w (elem b w i)
      elem (cellAlu .cmpEq f x a b c sc).1 w i = (if p = q then 2 ^ w - 1 else 0) ∧
      elem (cellAlu .cmpNe f x a b c sc).1 w i = (if p ≠ q then 2 ^ w - 1 else 0) ∧
      elem (cellAlu .cmpLt f x a b c sc).1 w i = (if p < q then 2 ^ w - 1 else 0) ∧
      elem (cellAlu .cmpLe f x a b c sc).1 w i = (if p ≤ q then 2 ^ w - 1 else 0) ∧
      elem (cellAlu .sel f x a b c sc).1 w i = (if elem c w i ≠ 0 then elem a w i else elem b w i)) ∧
    (cellAlu .hsum f x a b c sc).1.toNat = delivered u 32 f.sat
      (((List.range (128 / w)).map (fun i => intOf u w (elem a w i))).sum) ∧
    (∃ i < 128 / w, (cellAlu .hmax f x a b c sc).1.toNat = elem a w i ∧
      ∀ j < 128 / w, intOf u w (elem a w j) ≤ intOf u w (elem a w i)) ∧
    (∃ i < 128 / w, (cellAlu .hmin f x a b c sc).1.toNat = elem a w i ∧
      ∀ j < 128 / w, intOf u w (elem a w i) ≤ intOf u w (elem a w j))

/-- R272, R342, R344: each lane of an integer MMA is c's lane plus the exact sum of the products of the lane's
elements, wrapped to 32 bits or clamped under SAT; MMA.T takes a's elements across the lanes. R270, R271, R343, R345:
each lane of a floating MMA is the exact sum of c's lane and the scaled products, rounded once under RNE; with a NaN
among the terms, or both infinities, it is 0x7FC00000, and with one infinity that infinity. -/
def Obligations.CellMma : Prop :=
  (∀ (f : CSlot) (x : CellCtx) (a b c : Vec) (sc : Option Vec), ∀ y ∈ floatMmas f, ∀ l < 4,
    let ts := mmaTerms y.1 y.2 a b c sc l
    let lane := elem (cellAlu y.1 f x a b c sc).1 32 l
    ((∃ t ∈ ts, valIsNan t = true) ∨ Val.inf true ∈ ts ∧ Val.inf false ∈ ts → lane = 0x7FC00000) ∧
    ((∀ t ∈ ts, valIsNan t = false) →
      (Val.inf false ∈ ts → Val.inf true ∉ ts → lane = 0x7F800000) ∧
      (Val.inf true ∈ ts → Val.inf false ∉ ts → lane = 0xFF800000) ∧
      (Val.inf false ∉ ts → Val.inf true ∉ ts → ∃ e : Int, (∀ t ∈ ts, e ≤ expOf t) ∧
        let n := (ts.map (unitsOf e)).sum
        (n = 0 → lane = 0 ∨ lane = 0x80000000) ∧
        (n ≠ 0 → lane = (roundTo .f32 .rne false 0 (.num (decide (n < 0)) n.natAbs e false)).1)))) ∧
  ∀ (f : CSlot) (x : CellCtx) (a b c : Vec) (sc : Option Vec) (w : Nat) (o : COp),
    (o = .mmaI8 ∧ w = 8) ∨ (o = .mmaI4 ∧ w = 4) ∨
      (o = .mmaT ∧ f.spec.toNat % 8 = 5 ∧ w = 8) ∨ (o = .mmaT ∧ f.spec.toNat % 8 = 6 ∧ w = 4) →
    ∀ l < 4, elem (cellAlu o f x a b c sc).1 32 l = delivered f.uns 32 f.sat
      (intOf f.uns 32 (elem c 32 l) + ((List.range (32 / w)).map (fun j =>
        intOf f.uns w (elem a w (if o = .mmaT then 4 * j + l else 32 / w * l + j)) *
          intOf f.uns w (elem b w (32 / w * l + j)))).sum)

/-- R153, R174, R324, R333, R346 to R348, R350: NOP leaves the cell as it is; CLR writes zero to its destination and
clears the state SPEC names; OSW stores a, OSR delivers a slot of the operand store; SETG writes one guard from its
test; FLG gives its test to the flag lane and changes no register but what HOLD names; DRN delivers the lane's new
value to its destination and passes it on, its exception flags going to the cell's flag stack (log entry 88). R174: a
push delivers to q0 and moves every entry up by one, the oldest lost; codes 16 to 23 write a k register, 24 cm, and 33
nothing; the write clears the mark of what it writes. -/
def Obligations.CellStateInstructions : Prop :=
  (∀ (f : CSlot) (x : CellCtx) (y : CellS) (a b c : Vec) (lane : Nat) (seg : Bool),
      (cellExec .nop f x y a b c lane seg).1 = y ∧
      (f.hold = 0 →
        (cellExec .osw f x y a b c lane seg).1 =
            { y with os := tabSet y.os (f.spec.toNat % 64) a, osm := setBit y.osm (f.spec.toNat % 64) false } ∧
        (cellExec .osr f x y a b c lane seg).1 = writeDst y f.dst.toNat (tabGet y.os 0 (f.spec.toNat % 64)) ∧
        (cellExec .setg f x y a b c lane seg).1 =
            { y with g := setBit y.g (f.dst.toNat % 4) (anyTest f (f.spec.getLsbD 0) a != f.spec.getLsbD 1) } ∧
        (cellExec .flg f x y a b c lane seg).1 = y ∧
        (cellExec .flg f x y a b c lane seg).2.2 = anyTest f (f.spec.getLsbD 12) a ∧
        (∀ v fl, laneStep f x seg lane (laneOf a (f.spec.toNat % 4)).toNat = (v, fl) →
          (cellExec .drn f x y a b c lane seg).2.1 = v ∧
          (cellExec .drn f x y a b c lane seg).1 =
            (let z := writeDst y f.dst.toNat (BitVec.ofNat 128 v)
             { z with fstk := z.fstk ||| fl }))) ∧
      (let z := (cellExec .clr f x y a b c lane seg).1
       (f.spec.getLsbD 0 = true → z.fstk = 0) ∧ (f.spec.getLsbD 1 = true → z.g = 0) ∧
       (f.spec.getLsbD 2 = true → z.ha = 0) ∧ (f.spec.getLsbD 3 = true → ∀ i < 16, (cellQ z i).1 = 0) ∧
       (f.spec.getLsbD 4 = true → ∀ i < 8, tabGet z.k 0 i = 0) ∧ z.os = y.os ∧
       (f.spec.toNat % 32 = 0 → z = writeDst y f.dst.toNat 0) ∧ (f.dst.toNat = 0 → cellQ z 0 = (0, false)) ∧
       (∀ d < 8, f.dst.toNat = 16 + d → tabGet z.k 0 d = 0 ∧ z.km.getLsbD d = false) ∧
       (f.dst.toNat = 24 → z.cm = 0 ∧ z.cmm = false))) ∧
  (∀ (x : CellS) (v : Vec),
      (cellQ (writeDst x 0 v) 0 = (v, false) ∧
        (∀ i < 15, cellQ (writeDst x 0 v) (i + 1) = cellQ x i) ∧
        (writeDst x 0 v).k = x.k ∧ (writeDst x 0 v).cm = x.cm) ∧
      (∀ d, 16 ≤ d → d ≤ 23 → tabGet (writeDst x d v).k 0 (d - 16) = v ∧
        (writeDst x d v).km.getLsbD (d - 16) = false ∧
        (∀ j < 8, j ≠ d - 16 → tabGet (writeDst x d v).k 0 j = tabGet x.k 0 j) ∧
        (writeDst x d v).q = x.q ∧ (writeDst x d v).cm = x.cm) ∧
      writeDst x 24 v = { x with cm := v, cmm := false } ∧ writeDst x 33 v = x)

/-- R262: a magnitude of m units of 2^e rounds to u units of 2^q with u below or at it under RTZ, and under RNE to the
nearest, a tie to the even one; RUP and RDN round away from it by the sign. R260, R261, R265: in a floating format
other than e2m1, an operation of R327 with a NaN among its operands delivers the canonical NaN; a signalling one sets
invalid, and so does an infinity less itself. R266, R335 to R337: CVT, PACK and UNPACK convert the elements that their
fields name, each by itself, e8m0 being no destination; a conversion between integers wraps or clamps, one from a
floating format to an integer rounds and clamps, NaN giving 0, and one to a floating format rounds the exact value
once. R275, R339: RCP, RSQ, EXP2 and LOG2 deliver the values of the table for zeros, infinities, NaNs and negative
numbers; RCP and RSQ of other numbers round once the exact quotient and root, known to a unit and whether it is exact;
EXP2 of an integer and LOG2 of a power of two round the exact value. -/
def Obligations.FloatRounding : Prop :=
  (∀ (m rb : Nat) (e q : Int) (neg : Bool),
      let f := min e q
      let x := m * 2 ^ (e - f).toNat
      let one := 2 ^ (q - f).toNat
      let u (rm : Rm) := (roundUnits rm rb neg m e q false).1
      u .rtz * one ≤ x ∧ x < (u .rtz + 1) * one ∧
      2 * (u .rne * one) ≤ 2 * x + one ∧ 2 * x ≤ 2 * (u .rne * one) + one ∧
      (2 * (u .rne * one) = 2 * x + one ∨ 2 * x = 2 * (u .rne * one) + one → u .rne % 2 = 0) ∧
      u .rup = (if x = u .rtz * one ∨ neg then u .rtz else u .rtz + 1) ∧
      u .rdn = (if x = u .rtz * one ∨ !neg then u .rtz else u .rtz + 1) ∧
      ((roundUnits .rne rb neg m e q false).2 = true ↔ x ≠ u .rtz * one)) ∧
  (∀ (g : FFmt) (rm : Rm) (sat : Bool) (rb a b c : Nat), g ≠ .e2m1 →
      (∀ o ∈ [COp.add, .sub, .mul], valIsNan (valOf g a) ∨ valIsNan (valOf g b) →
        (floatArith o g rm sat rb a b c).1 = ffNan g ∧
        ((floatArith o g rm sat rb a b c).2 = flInvalid ↔ valSig (valOf g a) ∨ valSig (valOf g b))) ∧
      (∀ o ∈ [COp.fma, .fms], valIsNan (valOf g a) ∨ valIsNan (valOf g b) ∨ valIsNan (valOf g c) →
        (floatArith o g rm sat rb a b c).1 = ffNan g) ∧
      (∀ n, valOf g a = .inf n → (floatArith .sub g rm sat rb a a c) = (ffNan g, flInvalid))) ∧
  (∀ (f : CSlot) (x : CellCtx) (a b c : Vec) (sc : Option Vec),
      let sp := f.spec.toNat
      let conv (s d : EFmt) (i v : Nat) : Nat :=
        (convertElem s d (rmOfSlot f) f.sat (rbOf x (rmOfSlot f) (efWidth d) i) v).1
      (∀ s d, efOfCode (sp % 16) = some s → efOfCode (sp / 16 % 16) = some d → d ≠ .flt .e8m0 →
        let ws := efWidth s
        let wd := efWidth d
        let n := 128 / max ws wd
        ∀ i, (i < n → elem (cellAlu .cvt f x a b c sc).1 wd i =
            conv s d i (elem a ws ((if ws < wd then sp / 256 % 8 * n else 0) + i))) ∧
          (n ≤ i → elem (cellAlu .cvt f x a b c sc).1 wd i = 0)) ∧
      (∀ d, efOfCode (sp / 16 % 16) = some d → d ≠ .flt .e8m0 → efWidth (viewOf f) = 2 * efWidth d →
        ∀ i < 128 / efWidth (viewOf f),
        let ws := efWidth (viewOf f)
        let n := 128 / ws
        elem (cellAlu .pack f x a b c sc).1 (efWidth d) i = conv (viewOf f) d i (elem a ws i) ∧
        elem (cellAlu .pack f x a b c sc).1 (efWidth d) (n + i) = conv (viewOf f) d (n + i) (elem b ws i)) ∧
      (∀ s, efOfCode (sp / 16 % 16) = some s → efWidth (viewOf f) = 2 * efWidth s → ∀ i < 128 / efWidth (viewOf f),
        let n := 128 / efWidth (viewOf f)
        elem (cellAlu .unpack f x a b c sc).1 (efWidth (viewOf f)) i =
          conv s (viewOf f) i (elem a (efWidth s) ((if f.spec.getLsbD 8 then n else 0) + i)))) ∧
  (∀ (rm : Rm) (sat : Bool) (rb v : Nat),
      (∀ u w u' w', (convertElem (.int u w) (.int u' w') rm sat rb v).1 = delivered u' w' sat (intOf u w v)) ∧
      (∀ u w g, convertElem (.int u w) (.flt g) rm sat rb v =
        roundTo g rm sat rb (.num (decide (intOf u w v < 0)) (intOf u w v).natAbs 0 false)) ∧
      (∀ g g', (convertElem (.flt g) (.flt g') rm sat rb v).1 = (roundTo g' rm sat rb (valOf g v)).1) ∧
      (∀ g u w, (∀ y, valOf g v = .nan y → convertElem (.flt g) (.int u w) rm sat rb v = (0, flInvalid)) ∧
        (∀ n m e st, valOf g v = .num n m e st → (convertElem (.flt g) (.int u w) rm sat rb v).1 =
          delivered u w true (if n then -((roundUnits rm rb n m e 0 st).1 : Int) else (roundUnits rm rb n m e 0 st).1)))) ∧
  (∀ (rm : Rm) (sat : Bool) (v : Nat),
      let val (n : Bool) (m : Nat) (e : Int) (st : Bool) : Nat × Flags := roundTo .f32 rm sat 0 (.num n m e st)
      (∀ y op, valOf .f32 v = .nan y → (special32 op rm sat v).1 = 0x7FC00000) ∧
      (∀ n, valIsZero (valOf .f32 v) → valSign (valOf .f32 v) = n →
        (∀ op ∈ [Special.rcp, .rsq], special32 op rm sat v = (if n then 0xFF800000 else 0x7F800000, flDivZero)) ∧
        special32 .exp2 rm sat v = (0x3F800000, flNone) ∧ special32 .log2 rm sat v = (0xFF800000, flDivZero)) ∧
      (∀ n, valOf .f32 v = .inf n →
        special32 .rcp rm sat v = (if n then 0x80000000 else 0, flNone) ∧
        special32 .rsq rm sat v = (if n then (0x7FC00000, flInvalid) else (0, flNone)) ∧
        special32 .exp2 rm sat v = (if n then 0 else 0x7F800000, flNone) ∧
        special32 .log2 rm sat v = (if n then (0x7FC00000, flInvalid) else (0x7F800000, flNone))) ∧
      (∀ n m e st, valOf .f32 v = .num n m e st → m ≠ 0 →
        (∃ r k : Nat, ∃ h : Bool, special32 .rcp rm sat v = val n r (-e - k) h ∧ r * m ≤ 2 ^ k ∧ 2 ^ k < (r + 1) * m ∧
          (h = true ↔ r * m ≠ 2 ^ k)) ∧
        (n = true → ∀ op ∈ [Special.rsq, .log2], special32 op rm sat v = (0x7FC00000, flInvalid)) ∧
        (n = false → ∃ r k m' : Nat, ∃ h : Int, ∃ b : Bool, special32 .rsq rm sat v = val false r (-h - k) b ∧
          (m' = m ∧ e = 2 * h ∨ m' = 2 * m ∧ e = 2 * h + 1) ∧ r * r * m' ≤ 2 ^ (2 * k) ∧
          2 ^ (2 * k) < (r + 1) * (r + 1) * m' ∧ (b = true ↔ r * r * m' ≠ 2 ^ (2 * k))) ∧
        (∀ z : Int, z.natAbs ≤ 4096 →
          (if e < 0 then z * 2 ^ (-e).toNat = (if n then -(m : Int) else m)
           else z = (if n then -(m : Int) else m) * 2 ^ e.toNat) →
          special32 .exp2 rm sat v = val false 1 z false) ∧
        (∀ j : Nat, n = false → m = 2 ^ j →
          special32 .log2 rm sat v = val (decide (e + j < 0)) (e + j).natAbs 0 false)))

-- Edges

/-- R203, R358, R360: each selector operation writes its one mask, bit by bit as the rule gives, from the masks as
they stood; during a message-passing step a Y-slot write of ym2 or ym3 traps with SLOTCF, its detail the slot's code
twice (log entry 90). NOP has no effect. -/
def Obligations.SelectorOperations : Prop :=
  ∀ (ax : Axis) (m m2 : BitVec 2) (n lo ph : BitVec 6) (len st : BitVec 4) (s : State),
    exec (.yxNop ax) s = .next s ∧
    ∀ x ∈ r358Rows ax m m2 n lo ph len st,
      (ax = .x ∨ (here s).mpe = none ∨ m.toNat < 2 → ∃ t, exec x.1 s = .next t ∧
        t = onArr s (fun a => match ax with | .y => { a with ym := (here t).ym } | .x => { a with xm := (here t).xm }) ∧
        (∀ i < 64, (maskOf ax (here t) m).getLsbD i = x.2 (here s) i) ∧
        ∀ k, k ≠ m → maskOf ax (here t) k = maskOf ax (here s) k) ∧
      (ax = .y → (here s).mpe.isSome → 2 ≤ m.toNat → exec x.1 s =
        .next (onArr s (fun a => slotTraps a .y .slotcf 0x22 0x3FFF)))

/-- R186, R189, R361, R363, R365, R369: GO of a loader whose shadow nest passes the check exchanges the nest sets and
starts at element 0, else traps with REGION, detail path 0; SET writes the low bits of one field of the shadow nest
(log entry 13: CTL is kept 32 bits wide); NOP has no effect. R148, R362 to R367: a loader with elements left delivers
its vector: STEP and AUTO to the port or a latch quarter, BCAST one slot of it to all 64, GATHER reads the indices and
leaves their data addresses; HOLD sends the last vector again and ZERO a vector of zeros. Each ends an AUTO that runs;
AUTO then leaves n to run. A loader with none left, or in gather mode, traps with REGION, detail path 0. -/
def Obligations.Loaders : Prop :=
  (∀ s : State,
      (∀ l, exec (.nwNop l) s = .next s) ∧ exec .dNop s = .next s ∧
      (∀ y ∈ [(Instr.nwGo .n, Loader.n), (.nwGo .w, .w), (.dGo, .d)],
        (goOk y.2 (loaderState (here s) y.2).shadow = true → ∃ t, exec y.1 s = .next t ∧
          OnlyArr s.cur.phys s t ∧
          loaderState (here t) y.2 =
            { loaderState (here s) y.2 with
              active := (loaderState (here s) y.2).shadow, shadow := (loaderState (here s) y.2).active,
              valid := true, pos := 0, auto := 0 } ∧
          (∀ l, l ≠ y.2 → loaderState (here t) l = loaderState (here s) l) ∧
          (here t).spad = (here s).spad ∧ (here t).faults = (here s).faults) ∧
        (goOk y.2 (loaderState (here s) y.2).shadow = false → exec y.1 s =
          .next (onArr s (fun a => slotTraps a (loaderSlot y.2) .region 0 0x3FFF)))) ∧
      (∀ (f : BitVec 4) (v : LImm), ∀ y ∈ [(Instr.nwSet .n f v, Loader.n), (.nwSet .w f v, .w), (.dSet f v, .d)],
        exec y.1 s = .next (onArr s (fun a => setLoader a y.2 { loaderState a y.2 with
          shadow := tabSet (loaderState a y.2).shadow f.toNat (limmVal v % 2 ^ nestWidth f.toNat) })))) ∧
  (∀ (l : PortLoader) (s : State),
      let x := loaderState (here s) (portSide l)
      let v := vecAt (here s) x.active x.pos
      let next : LoaderS := { x with pos := x.pos + nestNeed x.active }
      let sent (t : State) (w : PortVec) : Prop := (here t).fly = (here s).fly ++
        [{ due := (here s).tt + 4, north := l == .n, vec := w }]
      (x.valid = true → x.pos < nestTotal x.active → nestGath x.active = false →
        (∀ dst, ∃ t, exec (.nwStep l dst) s = .next t ∧ OnlyArr s.cur.phys s t ∧
          (here t).faults = (here s).faults ∧
          loaderState (here t) (portSide l) =
            { next with auto := 0, v := if dst = .port then v else x.v } ∧
          (dst = .port → sent t v ∧ (here t).latchLog = (here s).latchLog) ∧
          (∀ q, dst = .first q ∨ dst = .second q → (here t).fly = (here s).fly ∧
            (here t).latchLog = (here s).latchLog ++
              [{ tt := (here s).tt, id := (if l = .n then 0 else 2) + (if dst = .first q then 0 else 1),
                 q := q.toNat, vec := v }])) ∧
        (∀ dst n, x.pos + n.toNat * nestNeed x.active < nestTotal x.active →
          ∃ t, exec (.nwAuto l dst n) s = .next t ∧ OnlyArr s.cur.phys s t ∧
            (here t).faults = (here s).faults ∧
            loaderState (here t) (portSide l) =
              { next with auto := n.toNat, autoDst := dst, v := if dst = .port then v else x.v } ∧
            (dst = .port → sent t v ∧ (here t).latchLog = (here s).latchLog) ∧
            (∀ q, dst = .first q ∨ dst = .second q → (here t).fly = (here s).fly ∧
              (here t).latchLog = (here s).latchLog ++
                [{ tt := (here s).tt, id := (if l = .n then 0 else 2) + (if dst = .first q then 0 else 1),
                   q := q.toNat, vec := v }])) ∧
        (∀ j : BitVec 6, ∃ t, exec (.nwBcast l j) s = .next t ∧ OnlyArr s.cur.phys s t ∧
          (here t).faults = (here s).faults ∧
          let w := pvOf (List.replicate 64 (pvElem v j.toNat))
          sent t w ∧ loaderState (here t) (portSide l) = { next with auto := 0, v := w })) ∧
      (∃ t, exec (.nwHold l) s = .next t ∧ OnlyArr s.cur.phys s t ∧ (here t).faults = (here s).faults ∧
        sent t x.v ∧ loaderState (here t) (portSide l) = { x with auto := 0 }) ∧
      (∃ t, exec (.nwZero l) s = .next t ∧ OnlyArr s.cur.phys s t ∧ (here t).faults = (here s).faults ∧
        sent t {} ∧ loaderState (here t) (portSide l) = { x with auto := 0, v := {} }) ∧
      (¬ (x.valid = true ∧ x.pos < nestTotal x.active ∧ nestGath x.active = false) →
        (∀ dst n j, ∀ i ∈ [Instr.nwStep l dst, .nwAuto l dst n, .nwBcast l j],
          exec i s = .next (onArr s (fun a => slotTraps a (portSlot l) .region 0 0x3FFF)))) ∧
      ((here s).ldW.valid = true → (here s).ldW.pos < nestTotal (here s).ldW.active →
        nestGath (here s).ldW.active = true → ∃ t, exec .wGather s = .next t ∧ OnlyArr s.cur.phys s t ∧
          (here t).faults = (here s).faults ∧
          (here t).gath = some ((gatherAddrs (here s) (here s).ldW.active (here s).ldW.pos).map
            (fun p => (p.1.getD 4194304, p.2))) ∧
          (here t).ldW = { (here s).ldW with pos := (here s).ldW.pos + 64, auto := 0 }))

/-- R188, R369, R370: with elements left, ST writes DLAT to the scratchpad bytes that the vector's elements address
and to no other, and ACC under i32 and n32, with 4-byte elements at distinct addresses, adds each lane to its word;
both move on by one vector. With none left they trap with REGION, detail path 0. R191, R371, R372: RED puts the
value of the fixed pairwise tree over DLAT on its way to one edge register, readable 3 issue cycles later, and an
integer ADD is the sum of the lanes modulo 2^32; SEG without taps has no effect, and with a vector left for each tap
moves on by one vector a tap. R192, R374: TIN and TIN.sp put a row on its way into TBUF, TCLR its clearing, and TOUT
sends the column that operations issued 16 or more issue cycles before have built; NOP has no effect. -/
def Obligations.DrainOperations : Prop :=
  ((∀ s : State,
        let x := (here s).ldD
        let left (j : Nat) : Prop := j < nestNeed x.active ∧ x.pos + j < nestTotal x.active
        (x.valid = true → x.pos < nestTotal x.active →
          (∃ t, exec .dSt s = .next t ∧ OnlyArr s.cur.phys s t ∧ (here t).faults = (here s).faults ∧
            (here t).ldD = { x with pos := x.pos + nestNeed x.active } ∧
            ∀ p, (∀ j, left j → p < nestAddr x.active (x.pos + j) ∨
                nestAddr x.active (x.pos + j) + nestEsz x.active ≤ p) →
              memGet (here t).spad p = memGet (here s).spad p) ∧
          ((∀ i j, left i → left j → i ≠ j →
              nestAddr x.active (x.pos + i) + nestEsz x.active ≤ nestAddr x.active (x.pos + j) ∨
              nestAddr x.active (x.pos + j) + nestEsz x.active ≤ nestAddr x.active (x.pos + i)) →
            ∀ t, exec .dSt s = .next t → ∀ j, left j → ∀ i < nestEsz x.active,
              memGet (here t).spad (nestAddr x.active (x.pos + j) + i) =
                (dlatOf (here s) (j / (4 / nestEsz x.active))).extractLsb'
                  (8 * (nestEsz x.active * (j % (4 / nestEsz x.active)) + i)) 8) ∧
          (nestEsz x.active = 4 → ∀ ty ∈ [AccTy.i32, .n32], ∀ rm,
            (∀ i j, left i → left j → i ≠ j →
              nestAddr x.active (x.pos + i) + 4 ≤ nestAddr x.active (x.pos + j) ∨
              nestAddr x.active (x.pos + j) + 4 ≤ nestAddr x.active (x.pos + i)) →
            ∃ t, exec (.dAcc ty rm) s = .next t ∧ OnlyArr s.cur.phys s t ∧ (here t).faults = (here s).faults ∧
              (here t).ldD = { x with pos := x.pos + 64 } ∧
              ∀ j, left j → memNat (here t).spad (nestAddr x.active (x.pos + j)) 4 =
                (memNat (here s).spad (nestAddr x.active (x.pos + j)) 4 + (dlatOf (here s) j).toNat) % 2 ^ 32)) ∧
        (¬ (x.valid = true ∧ x.pos < nestTotal x.active) →
          exec .dSt s = .next (onArr s (fun a => slotTraps a .d .region 0 0x3FFF)) ∧
          ∀ ty rm, exec (.dAcc ty rm) s = .next (onArr s (fun a => slotTraps a .d .region 0 0x3FFF)))) ∧
    ((∀ (op : RedOp) (ty : AccTy) (er : BitVec 2) (s : State),
        exec (.dRed op ty er) s = .next (onArr s (fun a =>
          { a with erq := a.erq ++ [(a.tt + 3, er.toNat, redResult op ty a)] }))) ∧
      (∀ a : ArrayS, (redResult .add .n32 a).toNat =
        (((List.range 64).map (fun c => (dlatOf a c).toNat)).sum) % 2 ^ 32) ∧
      (∀ s : State, ((here s).edgeTaps = [] → exec .dSeg s = .next (onArr s id)) ∧
        ∀ k, (here s).edgeTaps.length = k + 1 → (here s).ldD.valid = true →
          (here s).ldD.pos + k * nestNeed (here s).ldD.active < nestTotal (here s).ldD.active →
          ∃ t, exec .dSeg s = .next t ∧ OnlyArr s.cur.phys s t ∧ (here t).faults = (here s).faults ∧
            (here t).ldD = { (here s).ldD with pos := (here s).ldD.pos + (k + 1) * nestNeed (here s).ldD.active }))) ∧
  (∀ (i j : BitVec 6) (addr : BitVec 22) (s : State),
      exec .tNop s = .next s ∧
      exec (.tTin i) s = .next (onArr s (fun a => { a with tq := a.tq ++
        [{ tt := a.tt, row := some i.toNat,
           vec := pvOf ((List.range 64).map (fun c => (tabGet a.dlat 0 c, false))) }] })) ∧
      exec (.tTinSp i addr) s = .next (onArr s (fun a => { a with tq := a.tq ++
        [{ tt := a.tt, row := some i.toNat,
           vec := pvOf ((List.range 64).map (fun c =>
             (BitVec.ofNat 32 (memNat a.spad (addr.toNat + 4 * c) 4), spMarked a (addr.toNat + 4 * c) 4))) }] })) ∧
      exec (.tTout j) s = .next (onArr s (fun a =>
        vectorSent a false (pvOf ((List.range 64).map (fun r => tbufSeen a a.tt r j.toNat))))) ∧
      exec .tTclr s = .next (onArr s (fun a => { a with tq := a.tq ++ [{ tt := a.tt, row := none, vec := {} }] })))

/-- R180, R193, R194, R377: what each handle operation does in the state it is for; in any other it traps with
HSTATE, the handle as detail, and the handle keeps its state. H.WAIT of a configured handle passes. R165, R166,
R376, R378: LAND into a free slot holds the landing, due at its TT plus d, and sends a read for each of its lines;
PFC of a region that is no window and not under a revoked slot sends a read for each line that nobody is answered,
and changes no register. A misaligned address traps with ALIGN (its detail is an open value, log entry 59), a slot
in use with HSTATE. -/
def Obligations.ASlot : Prop :=
  (∀ (h : BitVec 7) (s : State),
      let x := hOf (here s) h
      let goes (y : HandleS) : Host.Outcome State Fault Refusal :=
        .next (onArr s (fun a => { a with handles := tabSet a.handles h.toNat y }))
      let stop : Host.Outcome State Fault Refusal :=
        .next (onArr s (fun a => slotTraps a .a .hstate (h.setWidth 64) 0x3FFF))
      exec .aNop s = .next s ∧
      (∀ n : BitVec 26, x.kind ≠ 0 → 1 ≤ n.toNat → n.toNat ≤ 4194304 →
        (x.st = .free ∨ x.st = .full → exec (.aHExpect h (.imm n)) s = goes { x with st := .filling, exp := n.toNat }) ∧
        (x.st = .filling → x.exp + n.toNat < 2 ^ 24 →
          exec (.aHExpect h (.imm n)) s = goes { x with exp := x.exp + n.toNat }) ∧
        (x.st = .draining ∨ x.st = .filling ∧ 2 ^ 24 ≤ x.exp + n.toNat → exec (.aHExpect h (.imm n)) s = stop)) ∧
      (∀ r : BitVec 5, Unmarked (here s) [r] → ∀ n : BitVec 26, (sVal (here s) r).toNat = n.toNat →
        exec (.aHExpect h (.reg r)) s = exec (.aHExpect h (.imm n)) s) ∧
      (∀ p, exec (.aHWait h p) s = if x.kind = 0 then stop else .next (onArr s id)) ∧
      (x.kind ≠ 0 → x.st = .full → exec (.aHDrain h) s = goes { x with st := .draining }) ∧
      (x.st ≠ .full → x.st ≠ .filling → exec (.aHDrain h) s = stop) ∧
      (x.kind ≠ 0 → x.st = .full ∨ x.st = .draining → x.arr = 0 →
        exec (.aHFree h) s = goes { x with st := .free }) ∧
      (x.st = .free → exec (.aHFree h) s = stop) ∧
      (∀ (first : BitVec 6) (count : BitVec 7),
        (x.kind ≠ 1 → x.st = .free → first.toNat + count.toNat ≤ 64 →
          (∀ k y, (k, y) ∈ (here s).handles → k ≠ h.toNat → y.kind = 2 →
            y.base + y.len ≤ 65536 * first.toNat ∨ 65536 * (first.toNat + count.toNat) ≤ y.base) →
          exec (.aOsClaim h first count) s = goes { x with
            kind := 2, base := 65536 * first.toNat, len := 65536 * count.toNat, st := .filling,
            exp := 65536 * count.toNat }) ∧
        (x.kind = 1 ∨ x.st ≠ .free → exec (.aOsClaim h first count) s = stop)) ∧
      (x.kind = 2 → x.st = .filling →
        exec (.aOsSeal h) s = goes { x with st := .full, ph := !x.ph, exp := 0, arr := 0 }) ∧
      (x.st ≠ .filling → exec (.aOsSeal h) s = stop) ∧
      (x.kind = 2 → x.st = .full ∨ x.st = .draining →
        exec (.aOsRelease h) s = goes { x with st := .free, kind := 0 }) ∧
      (x.st = .free ∨ x.st = .filling → exec (.aOsRelease h) s = stop)) ∧
  ((∀ (slot sa sd : BitVec 5) (lines : BitVec 6) (d : BitVec 13) (s : State), d ≠ 0 →
      Unmarked (here s) [sa, sd] →
      let va := (sVal (here s) sa).toNat
      let dst := (sVal (here s) sd).toNat
      let n := 64 * (lines.toNat + 1)
      (va % 64 ≠ 0 ∨ dst % 64 ≠ 0 → ∃ v, exec (.aLand slot sa sd lines d) s =
        .next (onArr s (fun a => slotTraps a .a .align v 0x3FFF))) ∧
      (va % 64 = 0 → dst % 64 = 0 → ∀ num r off, xlateHere s va n .rd = .ok num r off → dst + n ≤ 4194304 →
        ((tabFind (here s).land slot.toNat).isSome → exec (.aLand slot sa sd lines d) s =
          .next (onArr s (fun a => slotTraps a .a .hstate (slot.setWidth 64) 0x3FFF))) ∧
        (tabFind (here s).land slot.toNat = none → ((here s).mpe = none ∨ slot.toNat < 16) →
          ∃ x, exec (.aLand slot sa sd lines d) s = .next ((List.range (lines.toNat + 1)).foldl (fun t i =>
              sendRead t t.cur.phys 0 r (off + 64 * i) 0 (.land t.cur.phys (here s).epoch slot.toNat i))
            (onArr s (fun a => { a with land := tabSet a.land slot.toNat x }))) ∧
            x.dest = dst ∧ x.bytes = n ∧ x.due = (here s).tt + d.toNat ∧ x.lines = [] ∧ x.done = 0))) ∧
    (∀ (sa : BitVec 5) (rc : BitVec 8) (lines : BitVec 6) (s : State), Unmarked (here s) [sa] →
      let va := (sVal (here s) sa).toNat
      (va % 64 ≠ 0 → ∃ v, exec (.aPfc sa rc lines) s = .next (onArr s (fun a => slotTraps a .a .align v 0x3FFF))) ∧
      (va % 64 = 0 → ∀ num r off, xlateHere s va (64 * (lines.toNat + 1)) .rd = .ok num r off →
        r.win = false → keyRevoked s (partOfArr s s.cur.phys) r.slot = false →
        exec (.aPfc sa rc lines) s = .next ((List.range (lines.toNat + 1)).foldl (fun t i =>
          sendRead t t.cur.phys 0 r (off + 64 * i) rc.toNat .nobody) s))))

-- Encoding

/-- R97, R98, R231, R234 to R242, and the tables of the edge slots behind them: decoding the encoding of any
well-formed instruction that has one gives the instruction back, with every operand at every value its field admits.
-/
def Obligations.EncodingRoundTrip : Prop :=
  ∀ i : Instr, i.wf = true → encode i ≠ .none → decodeEnc (encode i) = some i

/-- R98, R232, R238: what a slot decoder accepts is well formed and encodes to the bits that were read, so a
reserved value or a non-zero unused field is refused; opcodes past the end of each table are refused, a packet
opcode of 0x13 or more is a reserved packet, and a packet of length 0 is malformed. -/
def Obligations.ReservedEncodingsRefused : Prop :=
  (∀ (w : BitVec 64) (e : BitVec 40) (i : Instr),
    (decodeS w e = some i → i.wf = true ∧ ∃ x, encS i = some (w, x) ∧ (x = none ∨ x = some e)) ∧
    (decodeC w e = some i → i.wf = true ∧ ∃ x, encC i = some (w, x) ∧ (x = none ∨ x = some e))) ∧
  (∀ (w e : BitVec 40) (l : PortLoader) (i : Instr),
    (decodeNW l w e = some i → i.wf = true ∧ ∃ x, encNW i = some (w, x) ∧ (x = none ∨ x = some e)) ∧
    (decodeD w e = some i → i.wf = true ∧ ∃ x, encD i = some (w, x) ∧ (x = none ∨ x = some e)) ∧
    (decodeA w = some i → i.wf = true ∧ encA i = some w)) ∧
  (∀ (w : BitVec 24) (e : BitVec 40) (i : Instr), decodeT w e = some i →
    i.wf = true ∧ ∃ x, encT i = some (w, x) ∧ (x = none ∨ x = some e)) ∧
  (∀ (ax : Axis) (w : BitVec 16) (i : Instr), decodeYX ax w = some i → i.wf = true ∧ encYX i = some w) ∧
  (∀ (w : BitVec 64) (e : BitVec 40),
    (0x6D ≤ w.toNat / 2 ^ 56 → decodeS w e = none) ∧ (0x76 ≤ w.toNat / 2 ^ 56 → decodeC w e = none)) ∧
  (∀ (ax : Axis) (w : BitVec 16), 13 ≤ w.toNat / 2 ^ 12 → decodeYX ax w = none) ∧
  (∀ (l : PortLoader) (w e : BitVec 40),
    (9 ≤ w.toNat / 2 ^ 34 ∨ (8 ≤ w.toNat / 2 ^ 34 ∧ l = .n) → decodeNW l w e = none) ∧
    (7 ≤ w.toNat / 2 ^ 34 → decodeD w e = none) ∧ (10 ≤ w.toNat / 2 ^ 34 → decodeA w = none)) ∧
  (∀ (w : BitVec 24) (e : BitVec 40), 4 ≤ w.toNat / 2 ^ 20 → decodeT w e = none) ∧
  (∀ (h : W32) (r : List W32),
    (0x13 ≤ h.toNat / 2 ^ 24 → decodePacket (h :: r) =
      .packet (.reservedPacketOpcode (h.getLsbD 9) (h.extractLsb' 24 8)) r) ∧
    (h.toNat / 2 ^ 24 < 0x13 → h.toNat / 2 ^ 10 % 2 ^ 14 = 0 → decodePacket (h :: r) = .malform))

/-- R97, R104, R234, R239, R240, R243 to R247: words written out from the spec's tables decode to the instructions
they stand for: ADD s3,s1,s2; LI s4 with E; a C ADD f32 of q1 and k0 to q0; YX ROTL of ym1 by 5; N STEP to quarter 2
of NPL; D RED max of i32 to er1; T TIN 9; A LAND; and the packet SEMSIG.set. -/
def Obligations.DecodeWords : Prop :=
  decodeS (0x10#8 ++ 3#5 ++ 1#5 ++ 2#5 ++ 0#8 ++ 0#1 ++ 0#32) 0 = some (.sAdd 3 1 2) ∧
  decodeS (0x2C#8 ++ 4#5 ++ 0#5 ++ 0#5 ++ 0#8 ++ 1#1 ++ 0x89ABCDEF#32) 0x01234567 =
    some (.sLi 4 (.long 0x0123456789ABCDEF)) ∧
  decodeC (0x10#8 ++ 0#3 ++ 0#2 ++ 0#2 ++ 0#3 ++ 0#6 ++ 1#6 ++ 16#6 ++ 0#6 ++ 0#3 ++ 0#1 ++ 0#3 ++ 0#1 ++ 0#14) 0 =
    some (.cAdd ⟨0, 0, 0, 0, 0, 1, 16, 0, 0, false, 0, false, 0, 0⟩) ∧
  decodeYX .y (6#4 ++ 1#2 ++ 0#4 ++ 5#6) = some (.yxRotl .y 1 5) ∧
  decodeNW .n (2#6 ++ 1#2 ++ 2#2 ++ 0#30) 0 = some (.nwStep .n (.first 2)) ∧
  decodeD (4#6 ++ 1#2 ++ 2#3 ++ 0#2 ++ 0#27) 0 = some (.dRed .max .i32 1) ∧
  decodeT (1#4 ++ 0#1 ++ 9#6 ++ 0#13) 0 = some (.tTin 9) ∧
  decodeA (1#6 ++ 2#5 ++ 3#5 ++ 4#5 ++ 7#6 ++ 100#13) = some (.aLand 2 3 4 7 100) ∧
  decodePacket [0x09#8 ++ 4#14 ++ 0#1 ++ 1#9, 0x1234, 7, 0] = .packet (.pktSemsigSet false false 0x1234 7) []

-- The step

/-- A step takes the turn at the head of the agenda, or is a tick where none is left (log entry 2): an event is exec
of it at its place; a turn of a running queue whose next packet is held whole, with what a LOOP's span check looks
at, is exec of the instruction that its words decode to. -/
def Obligations.StepRunsEventsAndPackets : Prop :=
  (∀ s : State, s.agenda = [] → step s = .next (tick s)) ∧
  (∀ (s : State) (i : Instr) (place : Cur) (rest : List Turn), s.agenda = .event i place :: rest →
    step s = exec i { s with agenda := rest, cur := place }) ∧
  (∀ (l : LevelS) (q : Nat) (h : W32) (ws : List W32) (i : Instr),
    let len := h.toNat / 2 ^ 10 % 2 ^ 14
    let op := h.toNat / 2 ^ 24
    heldWords l l.pos 1 = .ok [h] → heldWords l l.pos len = .ok ws → 1 ≤ len → len ≤ (l.len - l.pos) / 4 →
    l.loop = none → 1 ≤ op → op < 0x13 → kindAllows (opKinds op) q = true → h.getLsbD 9 = false →
    (op = 8 → spanBroken l (l.pos + 20 + 4 * (ws.getD 2 0).toNat) = false) →
    decodePacket (h :: ws.drop 1) = .packet i [] → decodePacket ws = .packet i [] → examine l q = .run i) ∧
  (∀ (s : State) (b q : Nat) (rest : List Turn) (l : LevelS) (i : Instr),
    s.agenda = .queue b q :: rest → (queueOf s b q).st = .running → (queueOf s b q).fetching = false →
    (queueOf s b q).haltReq = false → (queueOf s b q).late = none → topLevel (queueOf s b q) = some l →
    l.loop = none → l.pos < l.len → missing l l.pos (captureEnd l) = none → spanNeed l = none → examine l q = .run i →
    step s =
      let t := modQueue { s with agenda := rest } b q (fun x => { x with at_ := l.pos })
      exec i { t with cur := { s.cur with bh := b, q := q } })

/-- R145, R147, R151, R203, R235: an array's turn is one ac of the domain it leads; in an ac of a lone running array
that nothing freezes, the rows perform the C slots that stand in them, and the bundle at PC issues: its C slot
enters the pipe, and each other slot performs the instruction that its bits decode to, a reserved one the trap of
R238. -/
def Obligations.StepIssuesBundles : Prop :=
  (∀ (s : State) (p : Nat) (rest : List Turn), s.agenda = .array p :: rest →
    step s = .next (domainAc { s with agenda := rest } p)) ∧
  (∀ (s : State) (p : Nat), chainOf s p = [p] → (arrOf s p).cond = .running → (arrOf s p).replay = false →
    let u := everyAc s p
    let v := (freezeStep u p .lead).1
    let t := runAc v p [p] [(p, .lead)]
    (arrOf u p).cond = .running → (arrOf u p).async = [] → (freezeStep u p .lead).2 = false →
    (arrOf v p).cond = .running → (arrOf t p).preReq = false → domainAc s p = countAc t p) ∧
  (∀ (s : State) (p : Nat), (arrOf s p).mpe = none → (arrOf s p).cond ≠ .held →
    let f := fetchBundle (arrOf s p)
    let z := slotBits f.bits
    let a := beginIssue (arrOf s p) f
    f.ill = false → bundleFault a f z (slotInstr z .c) = none →
    issueOne s p none = modArr (timedWrites (runSlots (setArr s p a) p z 0x3FF none true) p) p (fun x =>
      let b := endIssue x f false (requests a z)
      { b with held := b.held.map (fun h => { h with pc := a.pc }) })) ∧
  (∀ (s : State) (p : Nat) (z : SlotBits) (i : Instr), decodeC z.c z.e = some i →
    runSlots s p z 0x3FF none true = modArr (edgeSlots.foldl (fun t sl => performAt (slotInstr z sl) p 0 t)
      (enterC s p z i)) p (fun a => autoStep .w (autoStep .n a))) ∧
  (∀ (z : SlotBits) (sl : Slot) (i : Instr),
    (decodeSlot z sl = some i → slotInstr z sl = i) ∧
    (decodeSlot z sl = none → slotInstr z sl = .reservedSlotOpcode sl)) ∧
  (∀ (i : Instr) (s t : State) (p r : Nat), exec i { s with cur := { s.cur with phys := p, row := r } } = .next t →
    performAt i p r s = t) ∧
  (∀ (s : State) (p r : Nat) (e : PipeE) (o : COp) (f : CSlot), r < 64 →
    listGet (arrOf s p).pipe none r = some e → e.ins = cInstr o f →
    (∀ k, k < 64 → k ≠ r → listGet (arrOf s p).pipe none k = none) →
    runRows s p = performAt (cInstr o f) p r s)

-- Reset and the memory

/-- R6, R16, R26, R29, R43, R63, R89, R128, R394: what the package registers read right after input power is applied:
the reset values that the register tables give where they are not zero, and zero everywhere else. Of the zeros, those
of registers for which the spec states no reset value are the model's choice (log entry 7), as are the point at which
reset stands and the empty firmware store (log entries 1 and 6); that an offset which names no register reads zero is
log entry 114. -/
def Obligations.ResetRegisters : Prop :=
  (∀ b, (bhOf State.reset b).st = .off) ∧ State.reset.agenda = [] ∧ State.reset.now = 0 ∧
  ∀ off : Nat, readReg State.reset off =
    (if off = 0x100 then 2800
     else if off % 4 = 0 ∧ 0x400 ≤ off ∧ off < 0x440 then 0x01040408
     else if off % 16 = 4 ∧ 0x1000 ≤ off ∧ off < 0x1100 then 0x00010000
     else if off % 4 = 0 ∧ 0x4000 ≤ off ∧ off < 0x4040 then 1
     else if off % 4 = 0 ∧ 0x6800 ≤ off ∧ off < 0x6A40 then 0x0404
     else if off % 16 = 0 ∧ 0xB000 ≤ off ∧ off < 0xB100 then 0x0A141000
     else 0)

/-- Device memory lists its bytes by rising address and lists no zero, right after reset: it lists nothing, and an
unlisted byte reads zero (the model's choice, log entry 8). -/
def Obligations.MemoryCanonicalAtReset : Prop :=
  MemCanonical State.reset ∧ ∀ a, memGet State.reset.mem a = 0

/-- Every step keeps device memory in its canonical form, whichever turn is taken and whatever the state. -/
def Obligations.StepKeepsMemoryCanonical : Prop :=
  ∀ s t : State, MemCanonical s → step s = .next t → MemCanonical t

-- Traps

/-- R224, R226: of the faults of one ac the record names a C instance of the lowest row, else the lowest slot;
taking the trap holds the domain, keeps the record and changes nothing that the bundle has written. An asynchronous
cause is taken at the boundary with slot 0xF and no slot performed. R225: returning from a trap makes the array run
again with its replay ac. -/
def Obligations.TakingATrap : Prop :=
  (∀ (l : List FaultE) (f : FaultE), firstFault l = some f → f ∈ l ∧ ∀ g ∈ l,
    (f.row = none → g.row = none ∧ f.slot ≤ g.slot) ∧
    ∀ r q, f.row = some r → g.row = some q → r ≤ q) ∧
  (∀ (a : ArrayS), a.faults = [] → takeTrap a = a) ∧
  (∀ (a : ArrayS) (f : FaultE), firstFault a.faults = some f →
    let t := takeTrap a
    t = { a with trec := t.trec, cond := .held, faults := [], held := t.held } ∧
    ∃ r, t.trec = some r ∧ r.cause = f.cause ∧ r.detail = f.detail ∧ r.region = f.region ∧
      r.logical = a.logical ∧ r.member = a.chpos ∧
      (f.row = none → r.slot = f.slot ∧ r.pc = a.pc ∧ r.tt = BitVec.ofNat 64 a.tt ∧ r.perf = a.perf ∧
        r.valid = false) ∧
      (∀ k, f.row = some k → r.slot = 1 ∧ r.row = k ∧ r.col = f.col ∧ r.valid = true)) ∧
  (∀ (s : State) (f : FaultE) (rest : List FaultE), (here s).async = f :: rest →
    (here s).cond = .running ∨ (here s).cond = .halting →
    ∃ t, exec .asynchronousTrap s = .next t ∧ OnlyArr s.cur.phys s t ∧
      here t = { here s with trec := (here t).trec, cond := .held, held := none, async := [] } ∧
      ∃ r, (here t).trec = some r ∧ r.cause = f.cause ∧ r.detail = f.detail ∧ r.region = f.region ∧
        r.slot = 0xF ∧ r.perf = 0 ∧ r.pc = (here s).pc ∧ r.tt = BitVec.ofNat 64 (here s).tt) ∧
  (∀ a : ArrayS, resumeTrap a = if a.cond = .held then { a with cond := .running, replay := true } else a)

/-- R82, R98, R115, R231, R232, R238: a reserved code word leaves every slot unperformed and traps with ILLCODE, the
word as its detail; a reserved slot opcode does so for its slot alone; a reserved packet opcode faults the queue
with ILLPKT, and CMD 5 to 7 of KEYCTL answers ERR 1. -/
def Obligations.ReservedEncodingsTrap : Prop :=
  ∀ s : State,
    (∀ w : BitVec 16, exec (.reservedCodeWord w) s = .next (onArr s (fun a => { a with
      faults := a.faults ++ [{ cause := .illcode, slot := 0xF, detail := w.setWidth 64, region := 0x3FFF }]
      perf := 0 }))) ∧
    (∀ sl : Slot, exec (.reservedSlotOpcode sl) s =
      .next (onArr s (fun a => slotTraps a sl .illcode (a.word.setWidth 64) 0x3FFF))) ∧
    (∀ (pr : Bool) (op : BitVec 8), notifFull s (hereQ s).vf = false →
      ∃ t n, exec (.reservedPacketOpcode pr op) s = .next t ∧ n.kind = 4 ∧ n.cause = 1 ∧
        n.offset = (hereQ s).at_ ∧ (hereQ t).st = .faulted ∧ (hereQ t).cur = none ∧ (hereQ t).pend = [] ∧
        tabGet t.port.notif [] (hereQ s).vf = tabGet s.port.notif [] (hereQ s).vf ++ [n] ∧ t.mem = s.mem) ∧
    (∀ cmd : BitVec 3, exec (.keyctlBadCommand cmd) s =
      .next (setPart s s.cur.part { partOf s s.cur.part with keyErr := 1 }))

-- Command packets

/-- R97 to R99, R101, R104, R105, R110: at the head of a level whose span lets it run, NOP only passes; WRITE stores
its words and STAMP the nanosecond time at an address that translates and waits for no release; SEMSIG adds to or
sets its semaphore and SEMWAIT passes once the semaphore is at least the value, else it waits; FFENCE drops every
held byte, NOTIFY and HALT.notify give their notification, QUIESCE waits for the queue's work, and HALT halts the
queue. An add or a set in another bulkhead of the partition travels over the torus; SEMWAIT reads the value directly
(log entry 16). -/
def Obligations.SynchronousPackets : Prop :=
  ∀ (s : State) (pr : Bool) (l : LevelS), PacketRuns s pr .all l →
    let b := s.cur.bh
    let q := s.cur.q
    let p := partOfBh s b
    let full := 256 ≤ (tabGet s.port.notif [] (hereQ s).vf).length
    let note (kind off disc qp : Nat) (cookie : W64) : Notif :=
      { kind := kind, cause := 0, q := 16 * (b - p) + q, level := (hereQ s).levels.length - 1,
        seq := ((hereQ s).cur.map (fun r => r.seq)).getD 0, cookie := cookie, offset := off, disc := disc,
        time := BitVec.ofNat 64 (s.hub.timer / 2 ^ 32), tail := 0, qp := qp }
    (∀ len, exec (.pktNop pr len) s = .next (packetOver s len.toNat l)) ∧
    (∀ (addr : BitVec 64) (data : List (BitVec 32)) num r o,
      xlatePart s p addr.toNat (4 * data.length) (cmdOwner s b) .wr = .ok num r o →
      releaseWait s p (cmdOwner s b) none addr.toNat = false →
      exec (.pktWrite pr addr data) s = .next (packetOver
        (regWrite s b r o (data.flatMap (fun w => leBytes 4 w.toNat)) false) (3 + data.length) l)) ∧
    (∀ (w : Bool) (addr : BitVec 64) num r o, QuietFor s w →
      xlatePart s p addr.toNat 8 (cmdOwner s b) .wr = .ok num r o →
      releaseWait s p (cmdOwner s b) none addr.toNat = false →
      exec (.pktStamp pr w addr) s = .next (packetOver
        (regWrite s b r o (leBytes 8 (s.hub.timer / 2 ^ 32)) false) 3 l)) ∧
    (∀ (w : Bool) (name : W16) (v : W64), QuietFor s w → (name.extractLsb' 12 4).toNat < partSize s p →
      exec (.pktSemsigAdd pr w name v) s = .next (packetOver (semSent s b p false name v) 4 l) ∧
      exec (.pktSemsigSet pr w name v) s = .next (packetOver (semSent s b p true name v) 4 l)) ∧
    (∀ (name : W16) (v : W64), (name.extractLsb' 12 4).toNat < partSize s p →
      (v.toNat ≤ (semGet s p name).toNat → exec (.pktSemwait pr name v) s = .next (packetOver s 4 l)) ∧
      ((semGet s p name).toNat < v.toNat → (hereQ s).waited = false →
        exec (.pktSemwait pr name v) s = .next (modQueue s b q (fun x =>
          { x with st := .waiting, wait := some (.sem name v) })))) ∧
    exec (.pktFfence pr) s = .next (modQueue (packetOver s 1 l) b q (fun x =>
      { x with levels := x.levels.map (fun y => { y with bytes := [] }) })) ∧
    (∀ (w : Bool) (qp : BitVec 4) (cookie : W64), QuietFor s w → ¬ full →
      exec (.pktNotify pr w qp cookie) s = .next (packetOver
        (pushNotif s (hereQ s).vf (note 1 l.pos 0 qp.toNat cookie)) 4 l)) ∧
    (QuietFor s true → exec (.pktQuiesce pr) s = .next (packetOver s 1 l)) ∧
    (¬ QuietFor s true → exec (.pktQuiesce pr) s = .next (modQueue s b q (fun x =>
      { x with st := .waiting, wait := some .quiesce }))) ∧
    (∀ notify : Bool, (notify = true → ¬ full) →
      ∃ t, exec (.pktHalt pr notify) s = .next t ∧ (hereQ t).st = .halted ∧ (hereQ t).pend = [] ∧
        (hereQ t).cur = none ∧ (hereQ t).levels = [] ∧ (hereQ t).expected = (hereQ s).expected ∧ t.mem = s.mem ∧
        t.port = if notify then (pushNotif s (hereQ s).vf (note 5 (hereQ s).at_
          ((if (hereQ s).cur.isSome then 1 else 0) + (hereQ s).pend.length) (hereQ s).nqp
          (((hereQ s).cur.map (fun r => r.cookie)).getD 0))).port else s.port)

/-- R98, R100 to R103, R115: PRED opens a span with the comparison of the masked word read; PEND closes it; IB
enters its stream as the next of at most three levels; LOOP starts its first pass, its index written where an
address is given, and a count of 0 skips the span. Under a false predicate a packet is passed over without effect. A
fault of these rules leaves the queue FAULTED with one notification of its cause; that the queue's kind is looked at
before the span is log entry 35. -/
def Obligations.FlowPackets : Prop :=
  ∀ (s : State) (l : LevelS), topLevel (hereQ s) = some l →
    let b := s.cur.bh
    let q := s.cur.q
    let p := partOfBh s b
    (∀ (cc : BitVec 3) (sg : Bool) (addr value mask : W64) (t : State) (w : W64), l.span = none → cc.toNat < 6 →
      predRead s b addr.toNat = .ok (t, w) → releaseWait s p (cmdOwner s b) none addr.toNat = false →
      exec (.pktPred false cc sg addr value mask) s = .next (packetOver t 7
        { l with span := some (predHolds cc sg (w &&& mask) value), pred := (l.pos, (heldWord l l.pos).getD 0) })) ∧
    (∀ (cc : BitVec 3) (sg : Bool) (addr value mask : W64),
      QueueFaults s 0x05 (exec (.pktPred true cc sg addr value mask) s) ∧
      QueueFaults s 0x05 (exec (.pktPend true) s) ∧
      (l.span ≠ none → QueueFaults s 0x05 (exec (.pktPred false cc sg addr value mask) s)) ∧
      (l.span = none → QueueFaults s 0x05 (exec (.pktPend false) s))) ∧
    (∀ v, l.span = some v → exec (.pktPend false) s = .next (packetOver s 1
      { l with span := none, loop := l.loop.map (fun x => { x with inSpan := false }) })) ∧
    (∀ (pr host : Bool) (addr : W64) (bytes rkey : W32), (pr = true → l.span = some true) →
      ((hereQ s).levels.length < 3 →
        exec (.pktIb pr host addr bytes rkey) s = .next (modQueue (packetOver s 5 l) b q (fun x =>
          { x with levels := x.levels ++
              [{ host := host, base := addr.toNat, len := bytes.toNat, rkey := rkey, pos := 0 }] }))) ∧
      (3 ≤ (hereQ s).levels.length → QueueFaults s 0x04 (exec (.pktIb pr host addr bytes rkey) s))) ∧
    (∀ (pr : Bool) (count span : W32) (idx : W64), l.loop = none → (pr = true → l.span.isSome = true) →
      l.pos + 20 + 4 * span.toNat ≤ l.len →
      (count = 0 ∨ (pr = true ∧ l.span = some false) →
        exec (.pktLoop pr count span idx) s = .next (packetOver s (5 + span.toNat) l)) ∧
      (count ≠ 0 → (pr = true → l.span = some true) → (idx = 0 ∨ ∃ num r o,
          xlatePart s p idx.toNat 8 (cmdOwner s b) .wr = .ok num r o ∧
            releaseWait s p (cmdOwner s b) none idx.toNat = false) →
        ∃ t x, exec (.pktLoop pr count span idx) s = .next t ∧ (idx = 0 → t.slices = s.slices ∧ t.mem = s.mem) ∧
          topLevel (hereQ t) = some x ∧ x.pos = l.pos + 20 ∧ x.span = l.span ∧ x.len = l.len ∧
          x.loop = some { head := (heldWord l l.pos).getD 0, start := l.pos + 20, stop := l.pos + 20 + 4 * span.toNat, count := count.toNat,
                          index := 0, addr := idx.toNat, inSpan := l.span.isSome })) ∧
    ∀ (len : BitVec 14) (data : List W32) (sem w host : Bool) (name : W16) (x y z : W64) (u v : W32) (rb : BitVec 24)
      (rows : W16) (rc : Byte) (qp : BitVec 4) (num : BitVec 14),
      ∀ i ∈ skippable len data sem w host name x y z u v rb rows rc qp num,
        (kindAllows i.2.2 q = true → l.span = some false → exec i.1 s = .next (packetOver s i.2.1 l)) ∧
        (kindAllows i.2.2 q = true → l.span = none → QueueFaults s 0x05 (exec i.1 s)) ∧
        (kindAllows i.2.2 q = false → QueueFaults s 0x03 (exec i.1 s))

/-- R106, R122 to R124, R201: LAUNCH, TLAUNCH and MPASS of a work control block that passes its checks leave a node
in a free slot, READY, or WAITING for its start tick, with the steps of an MPASS, and the queue goes on behind the
packet. -/
def Obligations.LaunchPackets : Prop :=
  ∀ (s : State) (pr sem : Bool) (name : W16) (add : W64) (l : LevelS),
    let b := s.cur.bh
    let q := s.cur.q
    let add' := if sem then some (name, add) else none
    PacketRuns s pr .c l → (sem = true → (name.extractLsb' 12 4).toNat < partSize s (partOfBh s b)) →
    ∀ (wcb tick desc : W64) (t : State) (slot : Nat),
      (launch s b (some q) wcb.toNat add' none none none 0 = (t, .ok slot) →
        exec (.pktLaunch pr sem wcb name add) s = .next (packetOver t 6 l) ∧
        ∃ nd, nodeOf t (b, slot) = some nd ∧ nd.st = .ready ∧ nd.wcb = wcb.toNat ∧ nd.q = some q ∧ nd.sem = add') ∧
      (launch s b (some q) wcb.toNat add' (some tick.toNat) none none 0 = (t, .ok slot) →
        exec (.pktTlaunch pr sem wcb tick name add) s = .next (packetOver t 8 l) ∧
        ∃ nd, nodeOf t (b, slot) = some nd ∧ nd.st = .waiting ∧ nd.tick = some tick.toNat ∧ nd.sem = add') ∧
      (launch s b (some q) wcb.toNat add' none (some desc.toNat) none 0 = (t, .ok slot) →
        exec (.pktMpass pr sem wcb desc name add) s = .next (packetOver t 8 l) ∧
        ∃ nd, nodeOf t (b, slot) = some nd ∧ nd.st = .ready ∧ nd.steps.isSome = true)

/-- R105 to R108, R215: COPY starts a copy in a free place of eight; COLL starts a collective of a valid descriptor;
and XFER gives a region its new owner, pending release, behind one marker in the FIFO of every array of the
partition, until XFER_PACKET_COMPLETE finds all of them passed: the queue goes on, and the region is released where
no other transfer of it is outstanding. That the rows of a COPY may lie in several regions is log entry 37, and that the
collective engine reads the descriptor under its own owner code is log entry 125. -/
def Obligations.TransferPackets : Prop :=
  ∀ (s : State) (pr sem : Bool) (name : W16) (add : W64) (l : LevelS),
    let b := s.cur.bh
    let q := s.cur.q
    let p := partOfBh s b
    let semOk : Prop := sem = true → (name.extractLsb' 12 4).toNat < partSize s p
    let add' := if sem then some (name, add) else none
    (PacketRuns s pr .y l → semOk → ∀ (src dst : W64) (rowBytes : BitVec 24) (rows : W16) (rc : Byte) (sp dp : W32),
      let n := rows.toNat + 1
      let row (base : W64) (pitch : W32) (i : Nat) : Int := (base.toNat : Int) + (i : Int) * pitch.toInt
      let fits (base : W64) (pitch : W32) (k : AccK) : Prop := ∀ i < n, 0 ≤ row base pitch i ∧
        ∃ num r o, xlatePart s p (row base pitch i).toNat rowBytes.toNat (cmdOwner s b) k = .ok num r o
      let apart : Prop := (∀ i < n, ∀ j < n, row src sp i + rowBytes.toNat ≤ row dst dp j) ∨
        (∀ i < n, ∀ j < n, row dst dp j + rowBytes.toNat ≤ row src sp i)
      fits src sp .rd → fits dst dp .wr → apart → (hereQ s).copies.length < 8 →
      let c : QCopy :=
        { src := src.toNat, dst := dst.toNat, row := rowBytes.toNat, rows := n, rc := rc.toNat, sp := sp.toInt,
          dp := dp.toInt, pos := 0, sem := add', stop := none, level := (hereQ s).levels.length - 1, at_ := l.pos,
          head := (heldWord l l.pos).getD 0 }
      ∃ i < 8, tabFind (hereQ s).copies i = none ∧
        exec (.pktCopy pr sem src dst rowBytes rows rc sp dp name add) s = .next (packetOver
          (modQueue s b q (fun x => { x with copies := tabSet x.copies i c })) 12 l)) ∧
    (PacketRuns s pr .l l → semOk → ∀ (desc : W64) num r o,
      releaseWait s p (collOwner s b) none desc.toNat = false →
      xlatePart s p desc.toNat 64 (collOwner s b) .rd = .ok num r o →
      let v := (regRead s b r o 64 none 0).2
      let d : BitVec 512 := BitVec.ofNat 512 (leNat v.bytes)
      v.bad = false → v.rev = false → cdOk d = true →
      ∃ t i c, exec (.pktColl pr sem desc name add) s = .next t ∧ topLevel (hereQ t) = some (passed l 6) ∧
        collOf s b i = none ∧ collOf t b i = some c ∧ c.desc = d ∧ c.va = desc.toNat ∧ c.q = some q ∧ c.sem = add' ∧
        c.ready = false ∧ (c.down = true ↔ 1 < cdC d ∧
          ((linkOf s (9 * b + cdNext d)).st ≠ .up ∨ (linkOf s (9 * b + cdPrev d)).st ≠ .up))) ∧
    (∀ (w : Bool) (num : BitVec 14) (owner : Byte) (r : Region), PacketRuns s pr .cy l → QuietFor s w →
      tabFind (partOf s p).regions num.toNat = some r → r.kind = 1 → ownerOk s p owner.toNat = true →
      ∃ t, exec (.pktXfer pr w num owner) s = .next t ∧ t.mem = s.mem ∧
        tabFind (partOf t p).regions num.toNat =
          some { r with owner := owner.toNat, rpend := true, markV := false } ∧
        (hereQ t).st = .waiting ∧ (hereQ t).wait = some (.xfer num.toNat) ∧ (hereQ t).levels = (hereQ s).levels ∧
        (partOf t p).xfers = (partOf s p).xfers ++ [(num.toNat, (hereQ t).marks)] ∧
        ∀ a ∈ partArrs s p, (arrOf t a).fifo =
          (arrOf s a).fifo ++ [.marker (((arrOf s a).markNext + 1) % 2 ^ 24)] ∧
          tabFind (hereQ t).marks a = some (((arrOf s a).markNext + 1) % 2 ^ 24)) ∧
    (∀ (num : Nat) (r : Region), topLevel (hereQ s) = some l → (hereQ s).wait = some (.xfer num) →
      let gone (ms : Tab Nat) : Prop := ∀ m ∈ ms, FifoE.marker m.2 ∉ (arrOf s m.1).fifo
      gone (hereQ s).marks →
      ∃ t, exec .xferPacketComplete s = .next t ∧ t.mem = s.mem ∧ (hereQ t).st = .running ∧ (hereQ t).wait = none ∧
        topLevel (hereQ t) = some (passed l 2) ∧
        (tabFind (partOf s p).regions num = some r → r.markV = false → (num, (hereQ s).marks) ∈ (partOf s p).xfers →
          (∀ x ∈ (partOf s p).xfers, x.1 = num → gone x.2) →
          tabFind (partOf t p).regions num = some { r with rpend := false }))

-- Queues, copies and collectives

/-- R89, R90, R93, R95, R96, R110: QMAP.HALT asks a RUNNING queue to halt, halts a WAITING one and leaves any other
alone; a fetched stream byte is held at its offset unless one is held there already, a look-ahead for a LOOP's span
holds none, and a failed host fetch faults the queue with FETCH; a queue runs again when what it waits for holds;
the oldest notification of an enabled function that no earlier one of its queue stands before and the oldest error
record go out as SENDs of their bytes on a queue pair that is RTS, taking one PSN, behind the frames that wait; and DROP
clears, but for a count in the same ac. That QMAP.HALT notifies nobody is log entry 38, and the look-ahead is log entry
36. -/
def Obligations.QueueEvents : Prop :=
  ∀ s : State,
    let b := s.cur.bh
    let q := s.cur.q
    let f := s.cur.fn
    let sendOf (k : Nat) (bs : List Byte) : RocePkt :=
      { op := .send, qpn := (qpOf s k).remote, psn := (qpOf s k).sPsn, data := bs }
    let sent (k : Nat) (bs : List Byte) (t : State) : Prop :=
      (qpOf t k).sPsn = ((qpOf s k).sPsn + 1) % 2 ^ 24 ∧
      (qpOf t k).out = (qpOf s k).out ++ [((qpOf s k).sPsn, sendOf k bs, .notify)] ∧
      let ready (u : State) : List Frame :=
        tabGet u.port.tx [] (fnGroup s (k / 64)) ++ tabGet u.port.txWait [] (fnGroup s (k / 64))
      ∃ fr, ready t = ready s ++ [fr] ∧ fr.body = .roce (sendOf k bs) ∧ fr.mac = (qpOf s k).mac ∧ fr.ip = (qpOf s k).ip
    ((hereQ s).st = .running → exec .qmapHalt s = .next (modQueue s b q (fun x => { x with haltReq := true }))) ∧
    ((hereQ s).st = .waiting → ∃ t, exec .qmapHalt s = .next t ∧ OnlyQueue b q s t ∧ (hereQ t).st = .halted ∧
      (hereQ t).pend = [] ∧ (hereQ t).cur = none ∧ (hereQ t).levels = [] ∧ (hereQ t).wait = none) ∧
    ((hereQ s).st ≠ .running → (hereQ s).st ≠ .waiting → exec .qmapHalt s = .next s) ∧
    ((hereQ s).fetching = true → (hereQ s).reply = some none → QueueFaults s 0x0A (exec .streamFetchComplete s)) ∧
    (∀ o n bs l, (hereQ s).fetching = true → (hereQ s).reply = some (some (o, n, bs)) →
      topLevel (hereQ s) = some l → (l.host = true ∨ deviceWaits s b (l.base + o) n = false) →
      let got := if l.host then bs.map HeldByte.byte else (deviceBytes s b (l.base + o) n).2
      ∃ t x, exec .streamFetchComplete s = .next t ∧ topLevel (hereQ t) = some x ∧ x.pos = l.pos ∧
        (hereQ t).fetching = false ∧ (hereQ t).reply = none ∧ (hereQ t).st = (hereQ s).st ∧
        ((hereQ s).scanning = true → x.bytes = l.bytes) ∧
        ((hereQ s).scanning = false → ∀ i, tabFind x.bytes i =
          if (tabFind l.bytes i).isNone ∧ o ≤ i ∧ i < l.len then got[i - o]? else tabFind l.bytes i)) ∧
    (∀ w, (hereQ s).st = .waiting → (hereQ s).wait = some w → waitHolds s b q w = true →
      ∃ t, exec .queueWaitSatisfied s = .next t ∧ OnlyQueue b q s t ∧ (hereQ t).st = .running ∧
        (hereQ t).wait = none ∧ (hereQ t).levels = (hereQ s).levels) ∧
    (∀ n rest, tabGet s.port.notif [] f = n :: rest → (qpOf s (qpKey f n.qp)).st = .rts →
      fnOn s f = true → notifAhead s f (qpKey f n.qp) = false → txRoom s (fnGroup s f) 154 = true → f ≤ 512 →
      n.qp < 64 → ∃ t more, exec .notificationSend s = .next t ∧ tabGet t.port.notif [] f = rest ++ more ∧ t.mem = s.mem ∧
        (tabGet s.port.notifLate [] f = [] → more = []) ∧ sent (qpKey f n.qp) (notifBytes n) t) ∧
    (∀ r rest, s.hub.errBuf = r :: rest → s.hub.errEn = true → (qpOf s (qpKey 512 s.hub.errQp)).st = .rts →
      txRoom s 16 154 = true → s.hub.errQp < 64 →
      ∃ t, exec .errorRecordDeliver s = .next t ∧ t.hub.errBuf = rest ∧ t.mem = s.mem ∧
        sent (qpKey 512 s.hub.errQp) (notifBytes (errNotif s r)) t) ∧
    ∃ d : CountF, exec .errqpDropClear s = .next { s with hub := { s.hub with errDrop := d } } ∧
      d.n = if s.hub.errDrop.cntAt = some s.now then 1 else 0

/-- R106, R107, R113, R114, R198, R200, R215, R301: COPY_LINE_WRITE moves the next bytes of a queue's copy that waits
for no release, a poisoned source writing poisoned lines, and the next units of a channel that no fence holds back: a
scratchpad copy sends exactly its source bytes to its destination by the asynchronous port, which takes them at once
unless their bank has moved its line of this ac. COPY_COMPLETE frees the copy; a packet's performs its semaphore add,
and leaves the fault of a stopped one for the queue's next boundary; a channel's performs its add unless it was
stopped or NOSEM is set; an add to another bulkhead's semaphore goes over the torus. A semaphore operation that
arrives over the torus is performed, and answered unless a packet or a completion sent it; a wait stays with the file.
R52, R109, R114, R214, R312: a collective reads its contributions a line at a time, reduces them after the last, and
once its ring is over writes its destination a line at a time, a line that depends on poison as a full poisoned line;
none of these accesses is made while a release of its region is pending. Then it writes its status: a packet's leaves
the engine, its completion semaphore is added to, and a status that is not 0 notifies its queue; that of COLL.GO
leaves a marker behind its writes in its array's FIFO, and ends in the same way once the marker has passed, and
notifies nobody. The packets of a collective are log entry 16, that one whose link went DOWN writes no more of its
destination is log entry 137, and that a refused status word is left out is log entry 136. -/
def Obligations.CopyEvents : Prop :=
  ((∀ (b q : BitVec 4) (i : BitVec 3) (s : State) (c : QCopy),
      tabFind (queueOf s b.toNat q.toNat).copies i.toNat = some c →
      let id := CopyId.packet b q i
      let p := (bhOf s b.toNat).part
      let own := 0x60 + (b.toNat - p)
      let sa := ((c.src : Int) + ((c.pos / c.row : Nat) : Int) * c.sp).toNat + c.pos % c.row
      let da := ((c.dst : Int) + ((c.pos / c.row : Nat) : Int) * c.dp).toNat + c.pos % c.row
      let n := min (c.row - c.pos % c.row) (min (64 - da % 64) (64 - sa % 64))
      let put (u : State) (x : QCopy) : State := modQueue u b.toNat q.toNat (fun y =>
        { y with copies := tabSet y.copies i.toNat x })
      let s' := put s { c with sent := false }
      let step (u : State) : State := put u { c with sent := false, pos := c.pos + n, stop := none }
      (∀ dn d doff sn r soff, c.stop = none → c.pos < c.rows * c.row →
        releaseWait s' p own none sa = false → releaseWait s' p own none da = false →
        xlatePart s' p da n own .wr = .ok dn d doff → xlatePart s' p sa n own .rd = .ok sn r soff →
        let v := regRead s' b.toNat r soff n none c.rc
        (v.2.bad = false → v.2.rev = false →
          exec (.copyLineWrite id) s = .next (step (regWrite v.1 b.toNat d doff v.2.bytes false))) ∧
        (v.2.bad = true ∨ v.2.rev = true → exec (.copyLineWrite id) s = .next (step
          ((paLines doff n).foldl (fun u k => regWrite u b.toNat d (64 * k) (List.replicate 64 0) true) v.1)))) ∧
      (c.stop ≠ none ∨ c.rows * c.row ≤ c.pos →
        exec (.copyComplete id) s = .next (semAdded (modQueue s b.toNat q.toNat (fun x =>
          { x with copies := tabErase x.copies i.toNat
                   late := if x.late.isSome then x.late
                     else c.stop.map (fun k => LateFault.mk k c.level c.at_ c.head) })) b.toNat p c.sem))) ∧
    (∀ (p : BitVec 7) (ch : BitVec 4) (s : State) (c : ChanS), tabFind (arrOf s p.toNat).chans ch.toNat = some c →
      let id := CopyId.channel p ch
      let ix (j : Nat) : Nat := listGet (chIndex c.tmpl c.pos) 0 j
      let n := chRun c * chUnit c.tmpl
      let src := chSrcRow c (ix 1) (ix 2) (ix 3) (ix 4) + ix 0 * chUnit c.tmpl
      let fenced := chFenced (arrOf s p.toNat) c
      (c.stop = false → c.pos < chTotal c.tmpl → (tmDsp c.tmpl = 0 → egFull (arrOf s p.toNat) = false) →
        fenced = false → (∀ va ∈ chMemVa { c with sent := false },
          releaseWait s (partOfArr s p.toNat) (arrOf s p.toNat).logical (some p.toNat) va = false) →
        ∃ t x, exec (.copyLineWrite id) s = .next t ∧ tabFind (arrOf t p.toNat).chans ch.toNat = some x ∧
          x.pos = c.pos + chRun c ∧ x.tmpl = c.tmpl) ∧
      (c.stop = false → c.pos < chTotal c.tmpl → tmSsp c.tmpl = 1 → tmDsp c.tmpl = 1 → tmHnd c.tmpl = 0xFF →
        tmEsz c.tmpl ≠ 0 →
        ∃ t, exec (.copyLineWrite id) s = .next t ∧ OnlyArr p.toNat s t ∧
          (arrOf t p.toNat).spad = (arrOf s p.toNat).spad ∧
          (arrOf t p.toNat).asy = (arrOf s p.toNat).asy ++
            [{ os := false, addr := chDst c c.pos, src := (p.toNat, ch.toNat), hnd := 0xFF
               bytes := (List.range n).map (fun j => memGet (arrOf s p.toNat).spad (src + j))
               marks := (List.range n).map (fun j => tabGet (arrOf s p.toNat).spMk false ((src + j) / 4))
               go := !(arrOf s p.toNat).asyUsed.contains (chDst c c.pos / 64 % 32) }]) ∧
      (channelDone s p.toNat ch.toNat c = true → exec (.copyComplete id) s = .next (semAdded
        (modArr s p.toNat (fun a => { a with chans := tabErase a.chans ch.toNat })) (bhOfArr p.toNat)
        (partOfArr s p.toNat)
        (if c.stop = false ∧ c.nosem = false ∧ tmSem c.tmpl = true then
          some (tmName c.tmpl, BitVec.ofNat 64 (tmF c.tmpl 0x28 8)) else none)))) ∧
    (∀ (s : State) (p : Nat) (o : SemOp) (rest : List (Nat × SemOp)),
      let b := s.cur.bh
      (bhOf s b).semArr = (p, o) :: rest →
      let u := modBh s b (fun x => { x with semArr := rest })
      let answer (t : State) (reg : Nat) (v : W64) : State :=
        netSend t 1 (cmdRouter b) (arrRouter p (cmdRouter b).2.1) b
          (.value p o.ep { reg := reg, v := v, mark := none, at_ := max (arrOf s p).ac (o.at_ + 20) })
      let done (t : State) (reg : Nat) (v : W64) : State := if o.mute then t else answer t reg v
      (o.kind = .add → exec .semaphoreRemoteArrival s = .next (done (semPut u (partOfArr u p) o.name
        (semGet u (partOfArr u p) o.name + o.v)) 0 0)) ∧
      (o.kind = .set → exec .semaphoreRemoteArrival s = .next (done (semPut u (partOfArr u p) o.name o.v) 0 0)) ∧
      (o.kind = .read → exec .semaphoreRemoteArrival s = .next (done u o.reg (semGet u (partOfArr u p) o.name))) ∧
      (o.kind = .wait → exec .semaphoreRemoteArrival s = .next (modBh u b (fun x => { x with
        semWaits := x.semWaits.filter (fun y => y.1 ≠ p && (arrOf s y.1).epoch = y.2.ep) ++ [(p, o)] }))))) ∧
  (∀ (i : BitVec 16) (s : State) (c : CollS),
      let b := s.cur.bh
      let p := partOfBh s b
      let d := c.desc
      let c' := { c with sent := false }
      let u := setColl s b i.toNat c'
      let gone (t : State) : State := modBh t b (fun x => { x with colls := tabErase x.colls i.toNat })
      let whole (r : Region) (off : Nat) : Prop := r.win = true ∨ domainRefuses u ((r.pbase + off) / 64) r.slot = false
      collOf s b i.toNat = some c →
      (∀ l va n num r off, c.wrote = false → c.ready = false → c.down = false → collArr s c = none →
        (collPieces d)[c.rd]? = some (l, va, n) → engineWaits u b va n = false →
        xlatePart u p va n (collOwner s b) .rd = .ok num r off → whole r off →
        let v := regRead u b r off n none 0
        v.2.rev = false → (∀ j < n, listGet v.2.marks false j = false) →
        let parts := tabMod c.parts [] l (fun t => t ++ (List.range n).map (fun j => (listGet v.2.bytes 0 j, false)))
        (c.rd + 1 < (collPieces d).length → exec (.collectiveComplete i) s =
          .next (setColl v.1 b i.toNat { c' with rd := c.rd + 1, parts := parts })) ∧
        (c.rd + 1 = (collPieces d).length → cdC d = 1 →
          let ws := collReduce (cdIn d) ((cdMask d).map (fun k => (k, collWords (cdIn d) (tabGet parts [] k))))
          exec (.collectiveComplete i) s = .next (setColl v.1 b i.toNat
            { c' with rd := c.rd + 1, parts := [], ready := true, words := ws, chunks := [(cdJ d, ws)] }))) ∧
      (∀ va n num r off, c.wrote = false → c.ready = true → ringDone c = true → c.down = false → collArr s c = none →
        (collDest c)[c.put]? = some (va, n) → collStall u b c' va n = false →
        let bs := ((collBytes c).drop (va - cdF d 0x18 8)).take n
        xlatePart u p va bs.length (collOwner s b) .wr = .ok num r off → whole r off →
        exec (.collectiveComplete i) s = .next (setColl
          (if bs.any (fun x => x.2) then regWrite u b r (off / 64 * 64) (List.replicate 64 0) true
           else regWrite u b r off (bs.map (fun x => x.1)) false) b i.toNat { c' with put := c.put + 1 })) ∧
      (c.wrote = false → c.ready = true → c.down = true ∨ ringDone c = true ∧ (collDest c)[c.put]? = none →
        collHeld u b c' = false →
        (∀ q, c.q = some q → c.arr = none →
          let t := semAdded (gone (collOutput u b c')) b p c.sem
          (collStatus c = 0 → exec (.collectiveComplete i) s = .next t) ∧
          (collStatus c ≠ 0 → ∃ n, exec (.collectiveComplete i) s = .next (pushNotif t (queueOf s b q).vf n) ∧
            n.kind = 4 ∧ n.seq = c.seq ∧ n.cookie = c.cookie ∧ n.offset = c.offset ∧
            n.cause = (if collStatus c = 1 then 0x0E else if collStatus c = 2 then 0x07 else 0x06))) ∧
        (∀ a, c.q = none → collArr s c = some a →
          ∃ t x m, exec (.collectiveComplete i) s = .next t ∧ collOf t b i.toNat = some x ∧ x.wrote = true ∧
            x.mark = some m ∧ (arrOf t a).fifo.getLast? = some (.marker m) ∧ t.port = s.port ∧
            ∀ name, semGet t p name = semGet s p name)) ∧
      (c.wrote = true → (∀ a m, collArr s c = some a → c.mark = some m → FifoE.marker m ∉ (arrOf s a).fifo) →
        let v := semAdded (gone u) b p c.sem
        ∃ t, exec (.collectiveComplete i) s = .next t ∧ collOf t b i.toNat = none ∧ t.routers = v.routers ∧
          (∀ name, semGet t p name = semGet v p name) ∧ t.mem = s.mem ∧ (c.q = none → t.port = s.port)))

-- Events of an array

/-- R113, R165, R166, R213, R214, R281, R302, R399: a line that has come back enters its landing slot, the array's own
later bytes over it, each byte with the mark of the line it comes from; a landing alone writes the piece that is due
whole, and nothing else of the scratchpad, its last piece freeing the slot; values that are ready leave the list of
those awaited, and one alone reaches its register; a wait on a semaphore is behind the array's own operations, is
satisfied ten ac after issue where the value has been reached, and in another bulkhead's file goes to it over the
torus and is answered from there; the region cache takes what a walk returns and drops what it is told to; and a line
that leaves the egress cache goes to its home slice or to the window bridge and is still seen by its own array
meanwhile, while a marker leaves only behind every line ahead of it and clears the release it stands for, unless an
XFER packet of the region is outstanding. That a marker waits for the lines ahead of it to reach their slices is log
entry 100. -/
def Obligations.ArrayEvents : Prop :=
  ∀ s : State,
    let p := s.cur.phys
    let q := partOfArr s p
    (∀ x rest l, (here s).landIn = x :: rest → x.slot < 32 → tabFind (here s).land x.slot = some l →
      let ov := tabGet l.ov (0, 0, false) x.line
      ∃ t v mk, exec .landingLineArrival s = .next t ∧ OnlyArr p s t ∧ (here t).landIn = rest ∧
        tabFind (here t).land x.slot = some { l with
          lines := tabSet l.lines x.line (v, mk)
          pas := l.pas ++ x.pin.toList } ∧
        ∀ i < 64, lineByte v i = (if ov.2.1.getLsbD i then lineByte ov.1 i else lineByte x.data i) ∧
          mk.getLsbD i = if ov.2.1.getLsbD i then ov.2.2 else x.bad) ∧
    (∀ slot l i, (here s).land = [(slot, l)] → l.due ≤ (here s).tt → (here s).tt = l.due + i → 256 * i < l.bytes →
      (∀ k ∈ pieceLines l i, ∃ v, tabFind l.lines k = some v) →
      ∃ t, exec .landingWrite s = .next t ∧ t.mem = s.mem ∧
        (∀ k ∈ pieceLines l i, ∀ j < 64, memGet (here t).spad (l.dest + 64 * k + j) =
          lineByte (tabGet l.lines (0, 0) k).1 j) ∧
        (∀ a, (∀ k ∈ pieceLines l i, a < l.dest + 64 * k ∨ l.dest + 64 * k + 64 ≤ a) →
          memGet (here t).spad a = memGet (here s).spad a) ∧
        (here t).land = (if l.bytes ≤ 256 * (i + 1) then [] else [(slot, { l with done := i + 1 })])) ∧
    (∃ t, exec .pendingValueWrite s = .next t ∧ OnlyArr p s t ∧
      (here t).pend = (here s).pend.filter (fun v => decide ((here s).ac < v.at_)) ∧
      ((here t).pend = (here s).pend → here t = here s) ∧
      ∀ v, (here s).pend.filter (fun v => decide (v.at_ ≤ (here s).ac)) = [v] → v.bad = false → v.clk = false →
        (tabGet (here s).s {} v.reg).pend = true → v.reg ≠ 0 →
        (here t).s = tabSet (here s).s v.reg { v := v.v, mark := v.mark, pend := false } ∧
        (here t).async = (here s).async ∧ (here t).clock = (here s).clock) ∧
    (∀ name v since, (here s).wait = some (.sem name v since none) → since + 10 ≤ (here s).ac →
      ownSemsDone (here s) = true →
      let b := bhOfArr p
      let f := (semPlace q name).1
      let o : SemOp := { kind := .wait, name := name, v := v, reg := 0, at_ := since, sent := true, far := true
                         ep := (here s).epoch }
      (f = b → v.toNat ≤ (semGet s q name).toNat → exec .semaphoreWaitSatisfied s =
        .next (onArr s (fun a => { a with wait := some (.sem name v since (some a.ac)) }))) ∧
      (f = b → (semGet s q name).toNat < v.toNat → exec .semaphoreWaitSatisfied s = .next s) ∧
      (f ≠ b → (∀ x ∈ (here s).sems, x.kind ≠ .wait) → exec .semaphoreWaitSatisfied s = .next (netSend
        (onArr s (fun a => { a with sems := a.sems ++ [o] })) 1 (arrRouter p (cmdRouter f).2.1) (cmdRouter f) b
        (.sem f p o))) ∧
      (∀ x, f ≠ b → o ∈ (here s).sems →
        (bhOf s f).semWaits.find? (fun y => y.1 = p && y.2.ep = (here s).epoch) = some (p, x) →
        ((semGet s q x.name).toNat < x.v.toNat → exec .semaphoreWaitSatisfied s = .next s) ∧
        (x.v.toNat ≤ (semGet s q x.name).toNat → exec .semaphoreWaitSatisfied s = .next (netSend
          (modBh s f (fun y => { y with semWaits := y.semWaits.filter (fun z => z.1 ≠ p) })) 1 (cmdRouter f)
          (arrRouter p (cmdRouter f).2.1) f
          (.value p (here s).epoch { reg := 0, v := 0, mark := none, at_ := 0, wait := true }))))) ∧
    (∀ va, (here s).walk = some va →
      (∀ n r, regionAtVa s q va = some (n, r) → exec .regionWalkComplete s = .next (onArr s (fun a =>
        { a with walk := none
                 rcache := ((n, r) :: a.rcache.filter (fun x => decide (x.1 ≠ n))).take 64 }))) ∧
      (regionAtVa s q va = none → exec .regionWalkComplete s = .next (onArr s (fun a =>
        { a with walk := none, walkBad := true })))) ∧
    (∃ t, exec .regionCacheInvalidation s = .next t ∧ OnlyArr p s t ∧ (here t).rinv = [] ∧
      ∀ x, x ∈ (here t).rcache ↔ x ∈ (here s).rcache ∧ x.1 ∉ (here s).rinv) ∧
    (∀ m rest, (here s).fifo = .marker m :: rest → (here s).drained = [] →
      ∃ t, exec .egressLineDrain s = .next t ∧ t.mem = s.mem ∧ (here t).fifo = rest ∧
        ∀ n r, tabFind (partOf s q).regions n = some r → tabFind (partOf t q).regions n =
          some (if r.rpend ∧ r.markV ∧ r.markA = p ∧ r.mark = m then
              { r with rpend := (partOf s q).xfers.any (fun y => y.1 == n), markV := false }
            else r)) ∧
    (∀ m rest, (here s).fifo = .marker m :: rest → (here s).drained ≠ [] → exec .egressLineDrain s = .next s) ∧
    (∀ k rest e, (here s).fifo = .line k :: rest → tabFind (here s).eg k = some e →
      let a := { here s with
                 fifo := rest, eg := tabErase (here s).eg k, drained := (here s).drained ++ [(k, e)] }
      let b := bhOfArr p
      (∀ j, egSee a j = egSee (here s) j) ∧
      (e.win = none → exec .egressLineDrain s = .next (sendSlice (setArr s p a) p (homeSlice k)
        { write := true, line := k, slot := e.slot, prot := e.prot, who := .drain p k, bh := b, node := e.node
          stage := e.stage, data := e.data, mask := e.mask, poison := e.poison, cls := e.cls })) ∧
      (∀ w, e.win = some w → exec .egressLineDrain s = .next (sendWin (setArr s p a) p
        { win := w, write := true, line := k % 2 ^ 36, data := e.data, mask := e.mask, bh := b, gen := (bhOf s b).gen
          expGen := tabGet s.hub.winGen 0 w, who := .drain p k, poison := e.poison, node := e.node
          stage := e.stage })))

/-- R135, R136, R166, R229, R288: once the pipe is empty a HALT whose signatures agree ends the run of every array
of its clock domain, its landings gone, and one whose signatures differ traps with WAVESIG and its slot unperformed;
a pre-emption request reaches the running array it was sent to and starts the watchdog at twice the switchable
interval, whose expiry notes WATCHDOG, and an array that has not started starts no more (log entry 62); and at a
switchable boundary the domain stops where it is, the pipe's last movement still to come. -/
def Obligations.HaltAndPreemption : Prop :=
  ∀ s : State,
    let p := s.cur.phys
    ((here s).cond = .halting → pipeEmpty (here s) = true → (here s).sigi = (here s).sigs →
      ∃ t, exec .haltComplete s = .next t ∧ t.mem = s.mem ∧ ∀ q ∈ domainArrs s p, (arrOf s q).svrun ≤ 1 →
        (arrOf t q).cond = .halted ∧ (arrOf t q).land = [] ∧ (arrOf t q).landIn = [] ∧
        (arrOf t q).s = (arrOf s q).s ∧ (arrOf t q).pc = (arrOf s q).pc ∧ (arrOf t q).cells = (arrOf s q).cells) ∧
    ((here s).cond = .halting → pipeEmpty (here s) = true → (here s).sigi ≠ (here s).sigs →
      ∃ t r, exec .haltComplete s = .next t ∧ OnlyArr p s t ∧ (here t).cond = .held ∧ (here t).trec = some r ∧
        r.cause = .wavesig ∧ r.slot = 0 ∧ r.perf.getLsbD 0 = false ∧ (here t).pc = (here s).pc) ∧
    (∀ id nd, (here s).node = some id → nodeOf s id = some nd → p ∈ nd.asked → (here s).cond = .running →
      exec .preemptionRequest s = .next (onArr s (fun a => { a with preReq := true, preLeft := 2 * nd.ival }))) ∧
    (∀ id nd, (here s).node = some id → nodeOf s id = some nd → p ∈ nd.asked → (here s).cond = .placed →
      exec .preemptionRequest s = .next (setNode s id { nd with
        asked := nd.asked.filter (fun x => decide (x ≠ p)), st := if nd.st = .running then .draining 1 else nd.st })) ∧
    ((here s).preReq = true → (here s).preLeft = 0 → exec .watchdogExpiry s = .next (onArr s (fun a =>
      { a with preReq := false
               async := a.async ++ [{ cause := .watchdog, slot := 0xF, detail := 0, region := 0x3FFF }] }))) ∧
    ((here s).preReq = true → (here s).boundary = true → (here s).cond = .running →
      ∃ t, exec .switchableBoundaryReached s = .next t ∧ t.mem = s.mem ∧ ∀ q ∈ domainArrs s p,
        arrOf t q = { arrOf s q with cond := .preempted, preReq := false, boundary := false, tbAc := 0 } ∧
        ∀ id nd, (arrOf s q).node = some id → nodeOf s id = some nd → ∃ nt, nodeOf t id = some nt ∧
          q ∉ nt.asked ∧ (nd.st = .running → nt.st = .draining 1))

-- The memory system

/-- R72 to R79, R83, R85, R86: at a controller the oldest request of a kind that no older one to its line stands
before is performed. One of a stale generation is discarded and logged; one with a reserved kind, a wrong channel,
protection 7 or another die's bulkhead answers status 7, and one of a refused domain status 6. RD64 answers poison
for a revoked slot (status 4) and for a poisoned line (0), else what the code and the tag of the line say: the
bytes, corrected (1) or sound (0), or poison for an uncorrectable error (2) or a tag that does not match (3), each
error with its record. WR64 and RMW put exactly the masked bytes into the line, mark it as R85 says and answer its
bytes; a counter at its end answers 5. R64, R72: a request whose LINE lies in the upper 4 GiB of a bulkhead, where
no data line lies, is checked in the same way and reads or writes that line, which holds a value that the spec leaves
open until a request writes it (log entry 102); without a request of its kind that may go, the event changes nothing.
The order of STAT 7, 6, 5 and 4 is log entry 147, that of an error of the metadata and of the line log entry 57, and the
protection of a read log entry 121. -/
def Obligations.StackRequests : Prop :=
  (∀ (s : State) (kind : StackKind) (i : Instr) (pre post : List StackReq) (r : StackReq) (l : Nat),
      (i, kind) ∈ [(Instr.rd64, StackKind.rd64), (.wr64, .wr64), (.rmw, .rmw)] →
      let k := s.cur.stack
      let p := (bhOf s (lineBh l)).part
      let m := lineMeta s l
      Oldest (fun x => sameEvent kind x = true) (fun x => x.line) (stackOf s k).reqs pre r post →
      packageLine k r.line = some l →
      let u := modStack s k (fun x => { x with reqs := pre ++ post })
      let now : Prop := r.gen = tabGet (stackOf s k).gens 1 r.bh
      let framed : Prop := r.kind = kind ∧ r.ch = lineChan l ∧ r.prot < 7 ∧ r.bh / 2 = lineBh l / 2
      let domainOk : Prop := tabGet (stackOf s k).pat 0 (lineBh l % 2 * bhGrans + lineGran l) = (keyOf s p r.key).domain
      let reply (kd st : Nat) (pois : Bool) (d : BitVec 512) : StackReply :=
        { kind := kd, tag := r.tag, ch := r.ch, pois := pois, stat := st, data := d, line := r.line }
      let answers (t : State) (x : StackReply) : Prop := exec i s = .next (giveReply t k r x)
      let old := lineUnder s p r.key l
      let found := readErr s p r.key l
      let full := r.mask = BitVec.allOnes 64
      (¬ now → exec i s = .next (logLine u ecStalegen 0 l)) ∧
      (now → ¬ framed → answers u (reply 0xB 7 false 0)) ∧
      (now → framed → ¬ domainOk → answers (logLine u ecDomain 0 l) (reply 0xB 6 true 0)) ∧
      (now → framed → domainOk → keyRevoked s p r.key = true → answers u (reply (if kind = .rd64 then 8 else 0xB) 4 true 0)) ∧
      (now → framed → domainOk → keyRevoked s p r.key = false → kind = .rd64 →
        (m.poison = true → answers u (reply 8 0 true 0)) ∧
        (m.poison = false →
          (found.1 = .none → answers u (reply 8 0 false old)) ∧
          (∀ n, found.1 = .corrected n → answers (logLine u ecCE found.2 l) (reply 8 1 false old)) ∧
          (found.1 = .uncorrectable → answers (logLine u ecUE found.2 l) (reply 8 2 true 0)) ∧
          (found.1 = .tag → answers (logLine u ecInteg found.2 l) (reply 8 3 true 0)))) ∧
      (now → framed → domainOk → keyRevoked s p r.key = false → kind ≠ .rd64 →
        (ctrExhausted s l = true → ∃ t, answers t (reply 0xB 5 true 0) ∧ (lineMeta t l).poison = true ∧
          ∀ a, memGet t.mem a = memGet s.mem a) ∧
        (ctrExhausted s l = false → ∃ t x, answers t x ∧ x.kind = (if kind = .rmw then 0xA else 9) ∧ x.tag = r.tag ∧
          (∀ a, memGet t.mem a = if a / 64 = l then
              (if r.mask.getLsbD (a % 64) then lineByte r.data (a % 64) else lineByte old (a % 64))
            else memGet s.mem a) ∧
          ((lineMeta t l).poison = true ↔ (if full then r.pois = true else
            m.poison = true ∨ found.1 = .uncorrectable ∨ found.1 = .tag ∨ r.pois = true)) ∧
          x.stat = (if full ∨ m.poison = true then 0
            else match found.1 with | .none => 0 | .corrected _ => 1 | _ => 2) ∧
          x.pois = (lineMeta t l).poison ∧
          (x.pois = false → ∀ j < 64, lineByte x.data j = memGet t.mem (64 * l + j))))) ∧
  (∀ (s : State) (kind : StackKind) (i : Instr),
      (i, kind) ∈ [(Instr.rd64, StackKind.rd64), (.wr64, .wr64), (.rmw, .rmw)] →
      (∀ pre r post, Oldest (fun x => sameEvent kind x = true) (fun x => x.line) (stackOf s s.cur.stack).reqs pre r post →
        0x1C000000 ≤ r.line % 2 ^ 29 →
        let k := s.cur.stack
        let u := modStack s k (fun x => { x with reqs := pre ++ post })
        let v := { u with fresh := u.fresh + 1 }
        let b := 2 * k + r.line / 2 ^ 29
        let p := (bhOf s b).part
        let n := k * 2 ^ 30 + r.line
        let old := (tabFind s.upper n).getD (Config.metadataLine n s.fresh)
        let reply (kd st : Nat) (pois : Bool) (d : BitVec 512) : StackReply :=
          { kind := kd, tag := r.tag, ch := r.ch, pois := pois, stat := st, data := d, line := r.line }
        let now : Prop := r.gen = tabGet (stackOf s k).gens 1 r.bh
        let framed : Prop := r.kind = kind ∧ r.ch = reqChan r.line ∧ r.prot < 7 ∧ r.bh / 2 = b / 2
        (¬ now → exec i s = .next (logErr u ecStalegen b p 0 0x3FFF 0 1)) ∧
        (now → ¬ framed → exec i s = .next (giveReply u k r (reply 0xB 7 false 0))) ∧
        (now → framed → keyRevoked s p r.key = true →
          exec i s = .next (giveReply v k r (reply (if kind = .rd64 then 8 else 0xB) 4 true 0))) ∧
        (now → framed → keyRevoked s p r.key = false → kind = .rd64 →
          exec i s = .next (giveReply v k r (reply 8 0 false old))) ∧
        (now → framed → keyRevoked s p r.key = false → kind ≠ .rd64 →
          ∃ d, exec i s = .next (giveReply { v with upper := tabSet v.upper n d } k r
            (reply (if kind = .rmw then 0xA else 9) 0 r.pois (if r.pois then 0 else d))) ∧
            ∀ j < 64, lineByte d j = if r.mask.getLsbD j then lineByte r.data j else lineByte old j)) ∧
      ((∀ r ∈ (stackOf s s.cur.stack).reqs, sameEvent kind r = false) → exec i s = .next s))

/-- R60, R67 to R70, R73, R81, R83, R85, R223: at its home slice a read of a whole clean line sends its bytes to who
asked, and a read of a line the slice does not hold asks the stack for it under a free tag and waits; a read that
finds no replica goes on to the home slice. A write under a revoked slot goes nowhere, one whose domain is refused
traps its array with DOMAIN (log entry 101), and any other reaches the line, the one the slice holds byte by byte. A
stack's reply that no later write has passed answers a read that waited alone. -/
def Obligations.SliceRequests : Prop :=
  ∀ (s : State) (pre post : List SliceReq) (r : SliceReq),
    let k := sliceKey s.cur.bh s.cur.slice
    let x := sliceOf s k
    let p := (bhOf s (lineBh r.line)).part
    let u := setSlice s k { x with reqs := pre ++ post }
    let h := homeSlice r.line
    (Oldest (fun y => y.write = false) (fun y => y.line) x.reqs pre r post → wantsPin s k r = false →
      (∀ y, k = h → l2Find x r.line = some y → y.ue = false → y.stage = none → y.poison = false →
        y.valid = BitVec.allOnes 64 → r.shared = false → r.who ≠ .nobody →
        exec .l2Read s = .next (sendLine (l2Touch u k y false) k r { data := y.data } none)) ∧
      (∀ tag, k = h → l2Find x r.line = none → r.who ≠ .nobody → (∀ w ∈ x.waiting, w.line ≠ r.line) →
        freeTag (stackOf s (lineStack r.line)) (lineChan r.line) 1 = some tag →
        ∃ t q, exec .l2Read s = .next (sendStack t k q r.line) ∧ t.mem = s.mem ∧ (sliceOf t k).reqs = pre ++ post ∧
          (sliceOf t k).waiting = x.waiting ++ [r] ∧ q.kind = .rd64 ∧ q.tag = tag ∧ q.ch = lineChan r.line ∧
          q.line = stackLine r.line ∧ q.key = r.slot ∧ q.prot = r.prot ∧ q.gen = (bhOf s (lineBh r.line)).gen ∧
          q.from_ = k ∧ q.cls = r.cls) ∧
      (k ≠ h → l2Find x r.line = none → exec .l2Read s = .next
        (netSend u r.cls (sliceRouter k) (sliceRouter h) r.bh (.slice (h / 96) (h % 96) r)))) ∧
    (Oldest (fun y => y.write = true) (fun y => y.line) x.reqs pre r post → (∀ w ∈ x.waiting, w.line ≠ r.line) →
      let v := winDone (drainArrived u r.who) r
      (keyRevoked s p r.slot = true → exec .l2Write s = .next v) ∧
      (∀ a key, keyRevoked s p r.slot = false → domainRefuses s r.line r.slot = true → r.who = .drain a key →
        exec .l2Write s = .next (modArr (logLine v ecDomain 0 r.line) a (fun b => { b with
          async := b.async ++ [{ cause := .domain, slot := 0xF, detail := 0, region := 0x3FFF }] }))) ∧
      (keyRevoked s p r.slot = false → domainRefuses s r.line r.slot = false → r.stage = false →
        exec .l2Write s = .next (lineWrite v r.line r.slot r.prot r.data r.mask r.poison none).1 ∧
        ∀ y a key, k = h → l2Find x r.line = some y → y.ue = false → y.stage = none → r.who = .drain a key →
          ∃ t z, exec .l2Write s = .next t ∧ t.mem = s.mem ∧ l2Find (sliceOf t k) r.line = some z ∧
            (∀ j < 64, lineByte z.data j = if r.mask.getLsbD j then lineByte r.data j else lineByte y.data j) ∧
            z.valid = y.valid ||| r.mask ∧ z.dirty = y.dirty ||| r.mask ∧
            z.poison = (if r.mask = BitVec.allOnes 64 then r.poison else y.poison || r.poison) ∧
            (arrOf t a).drained = (arrOf s a).drained.eraseP (fun e => decide (e.1 = key)))) ∧
    (∀ q rest l, x.replies = q :: rest → packageLine (s.cur.bh / 2) q.line = some l →
      x.waiting.filter (fun w => decide (w.line = l)) = [r] → r.shared = false → r.who ≠ .nobody →
      l ∉ x.stale → wantsPin s k r = false → q.kind = 8 → q.stat = 0 → q.pois = false → l2Find x l = none →
      ∃ t, exec .stackReplyReceive s = .next (sendLine t k r { data := q.data } none) ∧
        (sliceOf t k).waiting = x.waiting.filter (fun w => decide (w.line ≠ l)))

/-- R18, R23, R24, R61, R74: the oldest request at the window bridge whose window has fewer than 64 outstanding
meets the exporter's hub gate. A stale one is discarded with a STALEGEN record, and a stale read answers poison (log
entry 28); through a disabled window, or one that another partition imports (log entry 27), a read
answers poison and a write is discarded with a WINDOW record, as is a write through a read-only one; any other goes
on in class C3 to the home slice of the exporter's line, one more outstanding. At a router a lone packet on a ring
that has arrived is handed over, one that goes on along the ring moves to the neighbour, or waits where the four
buffers of its ring there are taken, and one older than 1,300,000 ac is discarded. -/
def Obligations.WindowsAndRouters : Prop :=
  (∀ (s : State) (pre post : List WinReq) (r : WinReq),
    Oldest (fun x => tabGet s.hub.winOut 0 x.win < 64) (fun x => x.win) s.hub.bridge pre r post →
    let u := { s with hub := { s.hub with bridge := pre ++ post } }
    let v := if r.write then drainArrived u r.who else u
    let current : Prop := r.gen = tabGet s.hub.gateGens 1 r.bh ∧ r.expGen = tabGet s.hub.gateGens 1 (winExp s r.win)
    let target := winTarget s r.win (bhOf s r.bh).part
    let stale := winLog v ecStalegen r.win r.bh (64 * r.line)
    (¬ current → r.write = true → exec .windowRequest s = .next stale) ∧
    (¬ current → r.write = false → exec .windowRequest s = .next (winOnward stale r.bh r.who { bad := true })) ∧
    (current → r.write = true → target = none ∨ winWr s r.win = false →
      exec .windowRequest s = .next (winLog v ecWindow r.win r.bh (64 * r.line))) ∧
    (current → r.write = false → target = none →
      exec .windowRequest s = .next (winOnward v r.bh r.who { bad := true })) ∧
    (∀ p e, current → target = some (p, e) → (r.write = true → winWr s r.win = true) →
      let l := e.pbase / 64 + r.line
      let h := homeSlice l
      exec .windowRequest s = .next (netSend
        { v with hub := { v.hub with winOut := tabMod v.hub.winOut 0 r.win (· + 1) } } 3
        (hubRouter (lineBh l)) (sliceRouter h) (lineBh l) (.slice (h / 96) (h % 96)
          { write := r.write, line := l, slot := e.slot, prot := e.prot, bh := r.bh, node := r.node, stage := r.stage
            who := if r.write then .nobody else r.who, data := r.data, mask := r.mask, poison := r.poison, cls := 3
            win := some r.win })))) ∧
  (∀ (s : State) (d : Dir) (p : Packet) (rest : List Packet) (cr : Tab Nat),
    let k := routerKey s.cur.die s.cur.x s.cur.y
    let hop := nextHop s s.cur.die s.cur.x s.cur.y p
    routerOf s k = { ring := [(dirNo d, p :: rest)], enter := [], credit := cr } →
    let u := modRouter s k (fun r => { r with ring := tabSet r.ring (dirNo d) rest })
    (s.now ≤ p.born + 1300000 → hop = .deliver → (∀ w b who v, p.msg ≠ .winLine w b who v) →
      exec .routerArbitrationRound s = .next (netGive u p.msg)) ∧
    let n := neighbour s s.cur.die s.cur.x s.cur.y d
    let full := 4 ≤ (tabGet (routerOf s n).ring [] (dirNo d)).length
    (s.now ≤ p.born + 1300000 → hop = .go d → n ≠ k → ¬ full →
      exec .routerArbitrationRound s = .next (modRouter u n (fun r =>
        { r with ring := tabMod r.ring [] (dirNo d) (fun q => q ++ [p]) }))) ∧
    (s.now ≤ p.born + 1300000 → hop = .go d → full → exec .routerArbitrationRound s = .next s) ∧
    (p.born + 1300000 < s.now → exec .routerArbitrationRound s = .next u))

-- Bulkheads, partitions and the hub

/-- R16, R21, R22, R26, R29, R32, R78, R83: once the hub is up PWR takes a bulkhead from OFF to POWERUP, with no
chunk scrubbed since, and from FREE or FAILED to OFF; its self-test ends in FAILED or in a hardware scrub with fresh
keys and every granule in domain 0; a host-assisted scrub queues up to 32 chunks (log entry 68); a scrub chunk
leaves zero in its 1 GiB and no other byte of memory changed, and the last one leaves the bulkhead ASSIGNED or FREE;
a bulkhead still in RESET after 6,500,000 ac is FAILED; and while the draw exceeds the cap, held between 600 and
2,800, the power limit takes the next cycle from an ASSIGNED one, whose share has come to a whole cycle (log entry 44).
The generation is kept across a power-up (log entry 67), the metadata keys are drawn at each scrub (log entry 66), and a
CHUNK write past the 32nd that waits is ignored (log entry 68). -/
def Obligations.BulkheadStates : Prop :=
  ∀ s : State,
    let b := s.cur.bh
    let x := bhOf s b
    (s.hub.phase = 2 → exec .bhctlPwrSet s =
      .next (setBh s b (if x.st = .off then { x with st := .powerup, scrDone := 0 } else x))) ∧
    (s.hub.phase ≠ 2 → exec .bhctlPwrSet s = .next s) ∧
    (exec .bhctlPwrClear s =
      .next (setBh s b { x with st := if x.st = .free ∨ x.st = .failed then .off else x.st })) ∧
    (∀ c : BitVec 5, x.st = .scrub → x.scrHost = true →
      (x.chunkQ.length < 32 → exec (.bhctlChunk c) s = .next (setBh s b { x with chunkQ := x.chunkQ ++ [c.toNat] })) ∧
      (32 ≤ x.chunkQ.length → exec (.bhctlChunk c) s = .next (setBh s b x))) ∧
    (x.st = .powerup →
      exec (.powerupSelfTestDone false) s = .next (setBh s b { x with st := .failed }) ∧
      ∃ t, exec (.powerupSelfTestDone true) s = .next t ∧ t.mem = s.mem ∧ t.fresh = s.fresh + 4 ∧
        bhOf t b = { x with st := .scrub, dest := 4, scrHost := false, scrDone := 0, chunkQ := [], scrSent := false
                            key0 := Config.randomKey s.fresh, key0t := Config.randomKey (s.fresh + 1)
                            keyM := Config.randomKey (s.fresh + 2), keyMt := Config.randomKey (s.fresh + 3) } ∧
        ∀ g < 14336, granOf t b g = 0) ∧
    (∀ c, x.st = .scrub → nextChunk x = some c →
      let size := if c < 28 then 2 ^ 30 else 0
      let lo := 64 * (b * 0x1C000000) + c * 2 ^ 30
      let done := setBit x.scrDone c true
      ∃ t, exec .scrubChunkComplete s = .next t ∧
        (∀ a, memGet t.mem a = if lo ≤ a ∧ a < lo + size then 0 else memGet s.mem a) ∧
        (bhOf t b).scrDone = done ∧
        (bhOf t b).st = (if done = BitVec.allOnes 32 then (if x.dest = 5 then .assigned else .free) else .scrub)) ∧
    (x.st = .reset → (partOf s x.part).resetAt + 6500000 < s.now → exec .resetSequenceTimeout s =
      .next (setBh s b { x with st := .failed, dest := 0, part := 0, own := false })) ∧
    (max 600 (min 2800 s.hub.cap) < s.hub.draw → exec .powerLimitCycleRemoval s =
      .next (setBh s b (if x.st = .assigned then { x with skipReq := true, share := x.share - drawTotal s } else x))) ∧
    (s.hub.draw ≤ max 600 (min 2800 s.hub.cap) → exec .powerLimitCycleRemoval s = .next s)

/-- R15 to R20, R26, R27, R141: CREATE of FREE bulkheads at an aligned number is accepted, and refused with ERR 4, 1
or 2; once every controller and the gates hold the next generations its bulkheads are ASSIGNED, and a create one of
whose bulkheads has left FREE ends with ERR 2 (log entry 69); RESET, DISSOLVE and the escalation of the BCP begin
the reset sequence, towards ASSIGNED or FREE, are refused with ERR 3 or 4, and a DISSOLVE during RESET or SCRUB only
changes the destination (log entry 24); a RESET in the ac of an escalation joins it; and the sequence ends in SCRUB no
earlier than 1,300,000 ac after it began. That everything is cleared in the ac of acceptance is log entry 25. -/
def Obligations.PartitionCommands : Prop :=
  ∀ s : State,
    let p := s.cur.part
    let x := partOf s p
    let mine (b : Nat) : Prop := (bhOf s b).own = true ∧ (bhOf s b).part = p
    let whole : Prop := ∀ b ∈ partBhs s p, (bhOf s b).st = .assigned ∧ mine b
    let changing (b : Nat) : Prop := mine b ∧ ((bhOf s b).st = .reset ∨ (bhOf s b).st = .scrub)
    let quiet : Prop := x.creating = false ∧ ∀ b < 16, ¬ changing b
    (∀ size : BitVec 3,
      let z := size.toNat
      let bs := (List.range (2 ^ z)).map (fun i => p + i)
      let free : Prop := ∀ b ∈ bs, (bhOf s b).st = .free ∧ ∀ q ∈ s.parts, q.2.creating = true →
        b < q.1 ∨ q.1 + 2 ^ q.2.size ≤ b
      (x.creating = true → exec (.partitionCreate size) s = .next (setPart s p { x with sizeReg := z, err := 4 })) ∧
      (x.creating = false → (4 < z ∨ p % 2 ^ z ≠ 0) →
        exec (.partitionCreate size) s = .next (setPart s p { x with sizeReg := z, err := 1 })) ∧
      (x.creating = false → z ≤ 4 → p % 2 ^ z = 0 → ¬ free →
        exec (.partitionCreate size) s = .next (setPart s p { x with sizeReg := z, err := 2 })) ∧
      (x.creating = false → z ≤ 4 → p % 2 ^ z = 0 → free → exec (.partitionCreate size) s =
        .next (setPart s p { x with sizeReg := z, err := 0, creating := true, live := false, size := z }))) ∧
    (∀ k, k = s.cur.stack → p + partSize s p ≤ 16 → x.creating = true →
      (∀ q, q ≠ p → (partOf s q).creating = false) →
      (8 ≤ k ∨ ∀ b ∈ partBhs s p, tabGet s.hub.gateGens 1 b = nextGen (bhOf s b).gen) →
      (∀ b ∈ partBhs s p, ∀ j < 8, j ≠ k → tabGet (stackOf s j).gens 1 b = nextGen (bhOf s b).gen) →
      ∃ t, exec .generationAcknowledge s = .next t ∧ t.mem = s.mem ∧ (partOf t p).creating = false ∧
        ((∀ b ∈ partBhs s p, (bhOf s b).st = .free) →
          (partOf t p).live = true ∧ (partOf t p).regions = [] ∧ (partOf t p).keys = firstKeys ∧
          ∀ b ∈ partBhs s p, (bhOf t b).st = .assigned ∧ (bhOf t b).gen = nextGen (bhOf s b).gen ∧
            (bhOf t b).part = p ∧ (bhOf t b).own = true) ∧
        ((∃ b ∈ partBhs s p, (bhOf s b).st ≠ .free) →
          t.bhs = s.bhs ∧ partOf t p = { x with creating := false, err := 2 })) ∧
    (8 ≤ s.cur.stack → (∀ q < 16, (partOf s q).creating = false) → (∀ b < 16, creatingOf s b = none) →
      ∃ t, exec .generationAcknowledge s = .next t ∧
        ∀ b < 16, tabGet t.hub.gateGens 1 b = (bhOf s b).gen) ∧
    (p < 16 → x.live = true → whole →
      ∃ t, exec .bcpEscalationReset s = .next t ∧ ResetBegun s t p 5 ∧ (partOf t p).escAt = some s.now) ∧
    (p < 16 → quiet → x.live = true → whole →
      (x.escAt ≠ some s.now → ∃ t, exec .partitionReset s = .next t ∧ ResetBegun s t p 5 ∧ (partOf t p).err = 0) ∧
      (∃ t, exec .partitionDissolve s = .next t ∧ ResetBegun s t p 4 ∧ (partOf t p).err = 0 ∧
        (partOf t p).live = false)) ∧
    (x.escAt = some s.now → x.creating = false →
      exec .partitionReset s = .next (setPart s p { x with err := 0 })) ∧
    (x.escAt ≠ some s.now → ¬ quiet →
      exec .partitionReset s = .next (setPart s p { x with err := 4 })) ∧
    (x.escAt ≠ some s.now → quiet → (x.live = false ∨ ∃ b ∈ partBhs s p, (bhOf s b).st ≠ .assigned) →
      exec .partitionReset s = .next (setPart s p { x with err := 3 })) ∧
    (x.live = false ∨ (∃ b ∈ partBhs s p, (bhOf s b).st ≠ .assigned) → exec .bcpEscalationReset s = .next s) ∧
    (x.creating = true → exec .partitionDissolve s = .next (setPart s p { x with err := 4 })) ∧
    (x.creating = false → (∀ b < 16, mine b → (bhOf s b).st ≠ .assigned ∧ ¬ changing b) →
      exec .partitionDissolve s = .next (setPart s p { x with err := 3 })) ∧
    (x.creating = false → ¬ quiet → ∃ t, exec .partitionDissolve s = .next t ∧ t.mem = s.mem ∧
      partOf t p = { x with err := 0 } ∧
      ∀ b < 16, (changing b → bhOf t b = { bhOf s b with dest := 4 }) ∧ (¬ changing b → bhOf t b = bhOf s b)) ∧
    (let bs := ownIn s p [.reset]
     (bs ≠ [] → gensApplied s bs = true → x.resetAt + 1300000 ≤ s.now →
        ∃ t, exec .resetSequenceComplete s = .next t ∧ t.mem = s.mem ∧ (partOf t p).keys = firstKeys ∧
          ∀ b ∈ bs, (bhOf t b).st = .scrub ∧ (bhOf t b).dest = (bhOf s b).dest ∧
            (bhOf t b).scrHost = (bhOf s b).scrmode ∧ (bhOf t b).scrDone = 0 ∧ ∀ g < 14336, granOf t b g = 0) ∧
     (s.now < x.resetAt + 1300000 → exec .resetSequenceComplete s = .next s))

/-- R1, R6, R23, R24, R27, R30 to R34, R46: loss of power and a trip leave the fuses and the firmware store alone;
BRING_UP derives the identity and starts a hub whose images verify, and one whose images do not is halted and
reported (log entries 71 and 109); once the hub is up a report of 3,800 bytes names the request's nonce and the time,
and past its limits none is issued (log entry 132), and before that no register and no report is served;
TIMESTEP moves or holds the counter in host-fed mode, and a PTP message of the clock's domain never moves it back,
sets LOCK only by 16 sync intervals in a row and may be answered (log entry 4); a window's EN is set only between
ASSIGNED partitions and not for a SEQ region (log entry 70), with the exporter's generation; and a register without side
effect reads back what its fields took, while an offset that names none takes nothing (log entry 114). -/
def Obligations.HubAndRegisters : Prop :=
  ∀ s : State,
    (∀ i ∈ [Instr.inputPowerLoss, .packageTrip], exec i s =
      .next { fresh := s.fresh, hub := { fw := s.hub.fw, boots := s.hub.boots } }) ∧
    (s.hub.phase = 0 →
      let f := s.hub.fw
      let verified : Prop := f.hubOk = true ∧ f.hubLms = true ∧ f.bcpOk = true ∧ f.bcpLms = true
      let ident := identOf (s.hub.boots + 1)
      (¬ verified → exec .bringUp s = .next { s with hub := { s.hub with
        timer := 0, boots := s.hub.boots + 1, reports := 0, ident := ident, phase := 1, bootFail := true } }) ∧
      (verified → ∃ t, exec .bringUp s = .next t ∧ t.mem = s.mem ∧ t.bhs = s.bhs ∧
        t.hub = { s.hub with timer := 0, boots := s.hub.boots + 1, reports := 0, ident := ident, phase := 2 } ∧
        t.port.mode = f.mode ∧ t.port.en = f.en ∧ t.port.up = f.en ∧ fnAddr t 512 0 = f.macl ∧
        fnAddr t 512 1 = f.mach.setWidth 32 ∧ fnAddr t 512 2 = f.ip4)) ∧
    (s.hub.phase ≠ 2 → (∀ pkg nonce, exec (.attestationReportRequest pkg nonce) s = .next s) ∧
      ∀ off v, exec (.registerWrite off v) s = .next s) ∧
    (∀ (pkg : Bool) (nonce : BitVec 256), s.hub.phase = 2 →
      (s.hub.reports < 32768 → s.hub.boots ≤ 1048576 → ∃ r : List Byte,
        exec (.attestationReportRequest pkg nonce) s = .next { s with
          hub := { s.hub with reports := s.hub.reports + 1, issued := r :: s.hub.issued } } ∧
        r.length = 3800 ∧ leNat (r.take 4) = 0x4B4E4154 ∧ leNat ((r.drop 8).take 32) = nonce.toNat ∧
        leNat ((r.drop 40).take 8) = s.hub.timer / 2 ^ 32 % 2 ^ 64) ∧
      (32768 ≤ s.hub.reports ∨ 1048576 < s.hub.boots →
        exec (.attestationReportRequest pkg nonce) s = .next { s with hub := { s.hub with attExh := true } })) ∧
    (∀ v : W32,
      (s.hub.tmode = true → 0 ≤ v.toInt → s.hub.timer + v.toNat * 2 ^ 32 < 2 ^ 96 →
        exec (.timestepWrite v) s = .next { s with hub := { s.hub with
          timer := s.hub.timer + v.toNat * 2 ^ 32, before := some (s.hub.before.getD s.hub.timer) } }) ∧
      (s.hub.tmode = true → v.toInt < 0 → exec (.timestepWrite v) s = .next { s with hub := { s.hub with
        hold := s.hub.hold + (-v.toInt).toNat * 2 ^ 32 } }) ∧
      (s.hub.tmode = false → exec (.timestepWrite v) s = .next s)) ∧
    (∀ d : BitVec 8,
      (s.hub.tmode = false → d = s.hub.domain → s.port.up = true → ∃ timer before adj good lock tx,
        exec (.ptpMessageReceive d) s = .next { s with
          fresh := s.fresh + 5, port := { s.port with ptpTx := s.port.ptpTx ++ tx }
          hub := { s.hub with timer := timer, before := before, adj := adj, ptpGood := good, lock := lock } } ∧
        (timer = s.hub.timer ∧ before = s.hub.before ∨
          s.hub.timer ≤ timer ∧ before = some (s.hub.before.getD s.hub.timer)) ∧ tx.length ≤ 2 ∧ (lock = s.hub.lock ∧ good = s.hub.ptpGood ∨
          lock = decide (16 ≤ good) ∧ (good = 0 ∨ good = min 16 (s.hub.ptpGood + 1)))) ∧
      (s.hub.tmode = true ∨ d ≠ s.hub.domain ∨ s.port.up = false →
        exec (.ptpMessageReceive d) s = .next { s with fresh := s.fresh + 1 })) ∧
    (∀ (w : BitVec 6) (v : W32),
      let im := (v.extractLsb' 26 4).toNat
      let ex := (v.extractLsb' 22 4).toNat
      let on : Prop := v.getLsbD 31 = true ∧ assigned s im = true ∧ assigned s ex = true ∧
        ∀ r, tabFind (partOf s ex).regions (v.extractLsb' 0 14).toNat = some r → r.kind ≠ 3
      ∃ t win gens, exec (.wincfgWrite w v) s = .next t ∧
        t = { s with hub := { s.hub with win := win, winGen := gens } } ∧
        (on → tabGet gens 0 w.toNat = (bhOf s ex).gen) ∧ (¬ on → gens = s.hub.winGen) ∧
        (winEn t w.toNat = true ↔ on) ∧ winImp t w.toNat = im ∧ winExp t w.toNat = ex ∧
        winWr t w.toNat = v.getLsbD 30 ∧ winRegion t w.toNat = (v.extractLsb' 0 14).toNat ∧
        (∀ u, u ≠ w.toNat → winWord t u = winWord s u)) ∧
    (∀ v : W32, s.hub.phase = 2 → (∀ x ∈ ([(0x100, 0xFFF), (0xA004, 0xFFFFFFFF), (0xA008, 0xFFFFFFFF), (0xA00C, 0xFFFFFFFF),
        (0xA010, 0xFFFFFFFF)] ++ (List.range 16).map (fun b => (0x400 + 4 * b, 0xFFFFFFFF)) ++
        (List.range 144).map (fun l => (0x6800 + 4 * l, 0xFFFF)) ++
        (List.range 16).map (fun p => (0x7004 + 16 * p, 0xFFFFFFFF)) : List (Nat × W32)),
      ∃ t, exec (.registerWrite (BitVec.ofNat 32 x.1) v) s = .next t ∧ t.mem = s.mem ∧
        readReg t x.1 = v &&& x.2) ∧
      ∀ off : W32, off.toNat % 4 ≠ 0 → exec (.registerWrite off v) s = .next s)

-- Keys, granules, descriptors and the checkpoint

/-- R79 to R82: KEY_LOAD gives an empty slot the key words of KEYBUF, which is cleared, and steps its epoch;
KEY_REVOKE zeroises a slot, and once applied no slice or egress cache of the partition holds a line under it, no
write under it waits at a slice or a controller, and nothing has been written back; a rekey makes its region
read-only, moves the lines of each chunk to the new slot with their bytes, flipped bits corrected, and their poison, a
line whose read fails becoming poison (log entry 130), and ends with the descriptor under the new slot and writable. A
command while one runs answers ERR 4. That a revoked slot may be loaded again is log entry 110, and the order of a key's
words log entry 123. -/
def Obligations.KeyCommands : Prop :=
  ∀ (s : State) (slot : BitVec 8) (num : BitVec 14) (chunk : BitVec 12),
    let p := s.cur.part
    let x := partOf s p
    let k := slot.toNat
    (x.revoking ≠ [] ∨ x.rekey ≠ none → ∀ i ∈ [Instr.keyLoad slot, .keyRevoke slot, .rekeyStart num slot],
      exec i s = .next (setPart s p { x with keyErr := 4 })) ∧
    (x.revoking = [] → x.rekey = none →
      ((tabGet x.keys {} k).loaded = true → exec (.keyLoad slot) s = .next (setPart s p { x with keyErr := 2 })) ∧
      ((tabGet x.keys {} k).loaded = false → ∃ y : KeySlot,
        exec (.keyLoad slot) s =
          .next (setPart s p { x with keyErr := 0, keyBuf := [], keys := tabSet x.keys k y }) ∧
        y.loaded = true ∧ y.revoked = false ∧ y.domain = x.keyDom ∧
        y.epoch = ((tabGet x.keys {} k).epoch + 1) % 2 ^ 64 ∧
        ∀ j < 8, y.kd.extractLsb' (32 * j) 32 = tabGet x.keyBuf 0 j ∧
          y.kt.extractLsb' (32 * j) 32 = tabGet x.keyBuf 0 (8 + j)) ∧
      (let y : KeySlot := { tabGet x.keys {} k with kd := 0, kt := 0, loaded := false, revoked := true }
      exec (.keyRevoke slot) s =
        .next (setPart s p { x with keyErr := 0, revoking := [k], keys := tabSet x.keys k y })) ∧
      (∀ r, (tabGet x.keys {} k).loaded = true → tabFind x.regions num.toNat = some r →
        ∃ t, exec (.rekeyStart num slot) s = .next t ∧ t.mem = s.mem ∧
          tabFind (partOf t p).regions num.toNat = some { r with ro := true } ∧ (partOf t p).keyErr = 0 ∧
          (partOf t p).rekey = some { region := num.toNat, slot := k, old := r.slot, done := [], queued := [],
                                      cur := none, host := x.keyMode })) ∧
    (k ∈ x.revoking → ∃ t, exec (.revocationApplied slot) s = .next t ∧ t.mem = s.mem ∧
      k ∉ (partOf t p).revoking ∧
      (∀ b ∈ partBhs s p, ∀ i < 96, ∀ y ∈ (sliceOf t (sliceKey b i)).lines, y.slot ≠ k) ∧
      (∀ a ∈ partArrs s p, ∀ e ∈ (arrOf t a).eg, e.2.win = none → e.2.slot ≠ k) ∧
      (∀ j, ∀ r ∈ (sliceOf t j).reqs, r.write = true → r.slot = k →
        ¬ ((bhOf s (lineBh r.line)).own = true ∧ (bhOf s (lineBh r.line)).part = p)) ∧
      ∀ j, ∀ r ∈ (stackOf t j).reqs, r.kind ≠ .rd64 → r.key = k → ∀ l, packageLine j r.line = some l →
        ¬ ((bhOf s (lineBh l)).own = true ∧ (bhOf s (lineBh l)).part = p)) ∧
    (∀ y r, x.rekey = some y → tabFind x.regions y.region = some r →
      (y.host = true → chunk.toNat < rekeyChunks r → y.queued.length < 4 →
        let y' : RekeyS := if y.cur = none then { y with cur := some chunk.toNat }
          else { y with queued := y.queued ++ [chunk.toNat] }
        exec (.rekeyChunk chunk) s = .next (setPart s p { x with keyErr := 0, rekey := some y' })) ∧
      (∀ c, rekeyNext y r = some c → c ∉ y.done → r.win = false →
        let lo := r.pbase / 64 + c * 2 ^ 18
        let hi := lo + min (2 ^ 18) (2 ^ r.k / 64)
        let found (l : Nat) : LineErr := (readErr s p y.old l).1
        let lost (l : Nat) : Prop := (lineMeta s l).poison = true ∨ keyRevoked s p y.old = true ∨
          found l = .uncorrectable ∨ found l = .tag
        ∃ t, exec .rekeyChunkComplete s = .next t ∧
          (∀ a, let l := a / 64
            (lo ≤ l ∧ l < hi ∧ (lineMeta s l).flips ≠ [] ∧ ¬ lost l →
              memGet t.mem a = lineByte (lineUnder s p y.old l) (a % 64)) ∧
            (l < lo ∨ hi ≤ l ∨ (lineMeta s l).flips = [] ∨ lost l → memGet t.mem a = memGet s.mem a)) ∧
          (∀ l, lo ≤ l → l < hi → (lineMeta t l).slot = y.slot ∧ (lineMeta t l).epoch = (keyOf s p y.slot).epoch ∧
            (lineMeta t l).flips = [] ∧ ((lineMeta t l).poison = true ↔ lost l)) ∧
          (∀ l, l < lo ∨ hi ≤ l → lineMeta t l = lineMeta s l) ∧
          ∃ y', (partOf t p).rekey = some y' ∧ (∀ d, d ∈ y'.done ↔ d = c ∨ d ∈ y.done) ∧
            (partOf t p).keyDone = y'.done.length) ∧
      (rekeyChunks r ≤ y.done.length → ∃ t, exec .rekeyComplete s = .next t ∧ t.mem = s.mem ∧
        (partOf t p).rekey = none ∧ (partOf t p).doneAll = true ∧
        tabFind (partOf t p).regions y.region = some { r with slot := y.slot, ro := false }))

/-- R68, R83, R84, R208 to R213: a granule is assigned to a domain whose neighbours let it in, and freed with every
line of it poisoned and none left in a slice; a descriptor that passes the checks is written into an unused number,
a clear takes one away together with its lines, a convert to another owner leaves the region pending release behind
markers that its next owner waits for, and a conversion from SHARED to OWNED applies at once; RDBASE is written only
while no descriptor is in use. The order of the ERR codes is log entries 74 and 111. -/
def Obligations.GranulesAndDescriptors : Prop :=
  (∀ (s : State) (gran : BitVec 14) (d : BitVec 12),
    let b := s.cur.bh
    let x := bhOf s b
    let g := gran.toNat
    let allows (h : Nat) : Prop := granOf s b h = 0xFFF1 ∨ granOf s b h = d.toNat
    (x.st ≠ .assigned →
      exec (.granuleAssign gran d) s = .next (setBh s b { x with patErr := 4, patGran := g, patDom := d.toNat }) ∧
      exec (.granuleFree gran) s = .next (setBh s b { x with patErr := 4, patGran := g })) ∧
    (x.st = .assigned → g < 14336 → allows g → (g ≠ 0 → allows (g - 1)) → (g ≠ 14335 → allows (g + 1)) →
      ∃ t, exec (.granuleAssign gran d) s = .next t ∧ t.mem = s.mem ∧ (bhOf t b).patErr = 0 ∧
        ∀ c h, h < 14336 → granOf t c h = if c = b ∧ h = g then d.toNat else granOf s c h) ∧
    (x.st = .assigned → g < 14336 → ∃ t, exec (.granuleFree gran) s = .next t ∧ t.mem = s.mem ∧
      (bhOf t b).patErr = 0 ∧
      (∀ c h, h < 14336 → granOf t c h = if c = b ∧ h = g then 0xFFF1 else granOf s c h) ∧
      (∀ i < 32768, (lineMeta t (b * 0x1C000000 + g * 32768 + i)).poison = true) ∧
      ∀ k, ∀ y ∈ (sliceOf t k).lines, ¬ (b * 0x1C000000 + g * 32768 ≤ y.line ∧
        y.line < b * 0x1C000000 + (g + 1) * 32768))) ∧
  (∀ (s : State) (num : BitVec 14),
    let p := s.cur.part
    let x := partOf s p
    let n := num.toNat
    let d := regionOfBits (rdBufBits x)
    (x.rdPend ≠ none → ∀ i ∈ [Instr.regionDescriptorWrite num, .regionDescriptorClear num,
        .regionDescriptorConvert num], exec i s = .next (setPart s p { x with rdNum := n, rdErr := 4 })) ∧
    (x.rdPend = none → assigned s p = false → ∀ i ∈ [Instr.regionDescriptorWrite num, .regionDescriptorClear num,
        .regionDescriptorConvert num], exec i s = .next (setPart s p { x with rdNum := n, rdErr := 5 })) ∧
    (x.rdPend = none → assigned s p = true →
      (tabFind x.regions n = none → regionOk s p (rdBufBits x) = true → regionMeets s p d = false →
        ∃ t, exec (.regionDescriptorWrite num) s = .next t ∧ t.mem = s.mem ∧
          tabFind (partOf t p).regions n = some d ∧ (partOf t p).rdErr = 0 ∧
          ∀ m, m ≠ n → tabFind (partOf t p).regions m = tabFind x.regions m) ∧
      (∀ r, tabFind x.regions n = some r →
        (exec (.regionDescriptorWrite num) s = .next (setPart s p { x with rdNum := n, rdErr := 3 })) ∧
        ((∀ b ∈ partBhs s p, ∀ y ∈ (bhOf s b).nodes, nodeOver y.2 = false → y.2.part = p → ∀ f ∈ y.2.fps, f.1 ≠ n) →
          ∃ t, exec (.regionDescriptorClear num) s = .next t ∧ tabFind (partOf t p).regions n = none ∧
            (partOf t p).rdErr = 0 ∧
            ∀ k, ∀ y ∈ (sliceOf t k).lines, lineOfRegion r y.line = true → y.stage ≠ none) ∧
        (r.kind = 2 → d.kind = 1 → ownerOk s p d.owner = true →
          ∃ t, exec (.regionDescriptorConvert num) s = .next t ∧ t.mem = s.mem ∧ (partOf t p).rdErr = 0 ∧
            tabFind (partOf t p).regions n = some { r with kind := 1, owner := d.owner }) ∧
        (r.kind = 1 → d.kind = 1 → d.owner ≠ r.owner → ownerOk s p d.owner = true →
          regionStaged s p n r = false →
          ∃ t, exec (.regionDescriptorConvert num) s = .next t ∧ t.mem = s.mem ∧ (partOf t p).rdErr = 0 ∧
            tabFind (partOf t p).regions n = some { r with owner := d.owner, rpend := true, markV := false } ∧
            (∃ ms, (partOf t p).xfers = x.xfers ++ [(n, ms)]) ∧
            ∀ a ∈ partArrs s p, (arrOf t a).fifo =
              (arrOf s a).fifo ++ [.marker (((arrOf s a).markNext + 1) % 2 ^ 24)]))) ∧
    ∀ v : W32, exec (.rdbaseWrite v) s = .next (setPart s p
      { x with rdGran := if x.regions = [] then (v.extractLsb' 0 14).toNat else x.rdGran }))

/-- R45, R87: CHECKPOINT_START of quiet bulkheads takes its parameters, and answers ERR 1 while a stream runs and
ERR 2 for a bulkhead that is not quiet; an abort stops the stream with ERR 4; a record goes out as RDMA WRITEs of at
most one path MTU each, one PSN each; and the stream ends, BUSY clear, when its last record is acknowledged. That a
stream keeps its parameters is log entry 113, and the layout of a sealed record log entry 51. -/
def Obligations.CheckpointEvents : Prop :=
  ∀ s : State,
    let h := s.hub
    let quiet : Prop := ∀ b < 16, h.ckMask.getLsbD b = true → ckQuiet s b = true
    let k := qpKey 512 h.ckRun.qp
    (h.ckBusy = true → exec .checkpointStart s = .next { s with hub := { h with ckErr := 1 } }) ∧
    (h.ckBusy = false → ¬ quiet → exec .checkpointStart s = .next { s with hub := { h with ckErr := 2 } }) ∧
    (h.ckBusy = false → quiet → ∃ r, exec .checkpointStart s =
        .next { s with hub := { h with ckBusy := true, ckErr := 0, ckRun := r, ckRec := 0, ckStop := none,
                                            ckSent := false, ckBuf := [] } } ∧
      r.qp = h.ckQp ∧ r.mask = h.ckMask ∧ r.rkey = h.ckRkey ∧ r.seq = h.ckSeq ∧ r.key = h.ckKey ∧
      r.va = h.ckVah.toNat * 2 ^ 32 + h.ckVal.toNat) ∧
    (h.ckBusy = true → h.ckStop = none →
      exec .checkpointAbort s = .next { s with hub := { h with ckStop := some 4 } }) ∧
    (∀ b, (ckBhs s)[h.ckRec / 458752]? = some b → h.ckBusy = true → h.ckStop = none → (qpOf s k).st = .rts →
      let g := if (bhOf s b).own then (bhOf s b).part else 16
      txRoom s g (80000 + (if (bhOf s b).own then 0 else (s.port.txFree.map (fun f => f.len)).sum)) = true →
      let size := 1024 * 2 ^ (qpOf s k).mtu
      let m := (65712 + size - 1) / size
      ∃ t, exec .checkpointRecordSend s = .next t ∧ t.hub.ckRec = h.ckRec + 1 ∧
        ((∀ j, (stackOf s j).reqs = []) → t.mem = s.mem) ∧
        (qpOf t k).sPsn = ((qpOf s k).sPsn + m) % 2 ^ 24 ∧ (qpOf t k).out.length = (qpOf s k).out.length + m ∧
        ∀ o ∈ (qpOf t k).out.drop (qpOf s k).out.length, o.2.1.op = .write ∧ o.2.1.rkey = h.ckRun.rkey ∧
          o.2.1.data.length ≤ size) ∧
    (h.ckBusy = true → (h.ckStop ≠ none ∨ (ckBhs s).length * 458752 ≤ h.ckRec) →
      ((∀ o ∈ (qpOf s k).out, ∀ w, o.2.2 ≠ .ckpt w) ∨ h.ckStop = some 3) → exec .checkpointEnd s =
        .next { s with hub := { h with ckBusy := false, ckErr := h.ckStop.getD 0, ckStop := none } })

-- The host port and the fabric links

/-- R36 to R41, R43 to R45: VFMAP and the address blocks keep the bits they have, and a write of an enabled
function's first moves its queue pairs to ERROR; PORTCFG changes mode, enables and disables the port, and PORT_UP
brings an enabled one up, telling the partner of the classes that are off; RESV is refused where it is invalid or
passes 368; a PFC frame pauses each enabled class 0 to 6 for its quanta or releases it; a frame whose turn, rate and
deficit have come is sent from its enabled function's addresses on its class's priority, 7 for the PSF; and a good
frame addressed to an RTS queue pair with room is held for it, a bad one dropped and counted. -/
def Obligations.HostPort : Prop :=
  ∀ s : State,
    (∀ (v : BitVec 9) (w : W32),
      let new := w &&& 0x800F0FFF
      ∃ t, exec (.vfmapWrite v w) s = .next t ∧ t.mem = s.mem ∧ vfWord t v.toNat = new ∧
        (∀ u, u ≠ v.toNat → vfWord t u = vfWord s u) ∧
        ((vfWord s v.toNat).getLsbD 31 = true → ∀ n < 16, QpFlushed t (qpKey v.toNat n)) ∧
        ((vfWord s v.toNat).getLsbD 31 = false → t.port.qps = s.port.qps)) ∧
    (∀ (f : BitVec 10) (w : BitVec 4) (v : W32),
      (512 < f.toNat → exec (.fnaddrWrite f w v) s = .next s) ∧
      (f.toNat ≤ 512 → ∃ t, exec (.fnaddrWrite f w v) s = .next t ∧ t.mem = s.mem ∧
        (∀ u j, j < 16 → fnAddr t u j = if u = f.toNat ∧ j = w.toNat ∧ j < 8 then v &&& fnAddrMask u j
          else fnAddr s u j) ∧
        (f.toNat < 512 → (vfWord t f.toNat).getLsbD 31 = false ∧
          ((vfWord s f.toNat).getLsbD 31 = true → ∀ n < 16, QpFlushed t (qpKey f.toNat n))))) ∧
    (∀ m : Bool, exec (.portcfgModeChange m) s = .next { s with port := { s.port with
      mode := m, up := s.port.up && (s.port.mode == m) } }) ∧
    exec .portcfgEnSet s = .next { s with port := { s.port with en := true } } ∧
    (∃ t, exec .portcfgEnClear s = .next t ∧ t.mem = s.mem ∧ t.port.en = false ∧ t.port.up = false ∧
      (s.port.en = true → ∀ f n, (f < 512 ∧ n < 16) ∨ (f = 512 ∧ n < 64) → QpFlushed t (qpKey f n))) ∧
    (s.port.en = false ∨ s.hub.phase ≠ 2 → exec .portUp s = .next s) ∧
    (s.port.en = true → s.hub.phase = 2 →
      let u := { s with port := { s.port with up := true } }
      (s.port.up = true ∨ s.port.xoff = 0 → exec .portUp s = .next u) ∧
      (s.port.up = false → s.port.xoff ≠ 0 → ∃ f qs,
        exec .portUp s = .next { u with port := { u.port with sent := f :: s.port.sent } } ∧
        f.body = .pfc s.port.xoff qs ∧ ∀ c < 8, s.port.xoff.getLsbD c = true → qs.extractLsb' (16 * c) 16 = 0xFFFF)) ∧
    (∀ v : W32, s.cur.part < 16 →
      let r := (v.extractLsb' 11 9).toNat
      let sum := r + (((List.range 16).filter (fun q => decide (q ≠ s.cur.part))).map (resv s)).sum
      ∃ t, exec (.portpartWrite v) s = .next t ∧ t.mem = s.mem ∧
        resv t s.cur.part = (if (0 < r ∧ r < 16) ∨ 368 < sum then resv s s.cur.part else r) ∧
        (portPart t s.cur.part).extractLsb' 0 11 = v.extractLsb' 0 11 ∧
        ((portPart t s.cur.part).getLsbD 31 = true ↔ (0 < r ∧ r < 16) ∨ 368 < sum) ∧
        ∀ q, q ≠ s.cur.part → portPart t q = portPart s q) ∧
    (∀ (en : BitVec 8) (qs : BitVec 128), s.port.up = true →
      ∃ t, exec (.pfcFrameReceive en qs) s = .next t ∧ t.mem = s.mem ∧
        ∀ c < 8, (t.port.paused.getLsbD c =
            if c < 7 ∧ en.getLsbD c = true then decide (qs.extractLsb' (16 * c) 16 ≠ 0) else s.port.paused.getLsbD c) ∧
          (c < 7 → en.getLsbD c = true → qs.extractLsb' (16 * c) 16 ≠ 0 → tabGet t.port.pauseEnd 0 c =
            s.now + pauseAc s (qs.extractLsb' (16 * c) 16).toNat)) ∧
    (∀ c : BitVec 3, s.port.paused.getLsbD c.toNat = true → tabGet s.port.pauseEnd 0 c.toNat ≤ s.now →
      exec (.pfcPauseExpiry c) s = .next { s with port := { s.port with
        paused := s.port.paused &&& ~~~(1#8 <<< c.toNat) } }) ∧
    (∀ f p, s.port.up = true → s.port.txFree = [] → s.port.txWait = [] → s.port.ptpTx = [] → p ≤ 16 →
      (∀ g, g ≤ 16 → g ≠ p → tabGet s.port.tx [] g = []) → tabGet s.port.tx [] p = [f] → frameReady s f = true →
      (∀ k y, f.qp = some k → f.body = .roce y → fnOn s (k / 64) = true ∧ fnSends s (k / 64) f.v6 = true) →
      (p < 16 → s.port.paused.getLsbD (portClass s p) = false ∧
        f.len ≤ tabGet s.port.deficit 0 p + portWgt s p * 256) →
      (p = 16 → s.now < s.port.psfSince + 65536 ∧ s.port.psfSent + f.len ≤ psfLimit s) →
      ∃ t g, exec .transmitArbitrationRound s = .next t ∧ t.mem = s.mem ∧ t.port.sent = g :: s.port.sent ∧
        tabGet t.port.tx [] p = [] ∧ g.body = f.body ∧ g.mac = f.mac ∧ g.ip = f.ip ∧
        ∀ k y, f.qp = some k → f.body = .roce y →
          g.src = BitVec.ofNat 48 (fnMac s (k / 64)) ∧ g.sip = BitVec.ofNat 128 (fnIp s (k / 64) f.v6) ∧
          g.vlan = fnVlan s (k / 64) ∧ g.pcp = if k / 64 = 512 then 7 else portClass s (vfPart s (k / 64))) ∧
    (∀ x rest, s.port.wire = x :: rest → s.port.up = true →
      let u := { s with port := { s.port with wire := rest } }
      (4200 < x.len ∨ x.fcs = false → exec .portFrameReceive s = .next (logErr u 12 0 0 0 0 0 1)) ∧
      (∀ en qs, x.len ≤ 4200 → x.fcs = true → x.body = .pfc en qs →
        exec .portFrameReceive s = exec (.pfcFrameReceive en qs) u) ∧
      (∀ p f k, x.len ≤ 4200 → x.fcs = true → x.body = .roce p → p.icrc = true → p.rc = true →
        p.qpn = 0x4000 + k → k / 64 = f → f ≤ 512 → fnMatches s f x = true → (∀ g < f, fnMatches s g x = false) →
        qpExists f (k % 64) = true → (qpOf s k).st = .rts →
        heldBytes s (fnGroup s f) + x.len ≤ resvBytes s (fnGroup s f) →
        ∃ t, exec .portFrameReceive s = .next t ∧ t.mem = s.mem ∧ t.port.wire = rest ∧
          (qpOf t k).rx = (qpOf s k).rx ++ [(p, x.len)] ∧
          heldBytes t (fnGroup s f) = heldBytes s (fnGroup s f) + x.len))

/-- R37, R38, R42, R91, R92: QP_CONNECT takes a queue pair from RESET to RTS with the numbers of QPBUF, QP_RESET
flushes one, and a command at a busy engine answers 4; a packet in its turn passes one number and is answered: a
SEND of one or several packets is a submit record, which starts an idle queue, a WRITE of one or several reaches the
region that its R_Key names, or is answered by NAK Remote Operational Error where the stack refuses its bytes (log entry
128), or the package register on the supervisor function (log entry 52), a read answers the bytes, an atomic
is refused; acknowledged requests leave, a read response reaches its queue, seven retries without progress end in
ERROR, and a CNP halves the rate, which rises again by 1/64 of line rate. The checks of a packet's place in its
message are the model's (log entry 40), and the order of QPCMD's ERR codes is log entry 65. -/
def Obligations.QueuePairs : Prop :=
  ∀ s : State,
    let fn := s.cur.fn
    let k := qpKey fn s.cur.qpn
    let q := qpOf s k
    let c := qpKey s.port.qpFn s.port.qpN
    (s.port.qpBusy = true → ∀ i ∈ [Instr.qpConnect, .qpReset],
      exec i s = .next { s with port := { s.port with qpErr := 4 } }) ∧
    (s.port.qpBusy = false → qpExists s.port.qpFn s.port.qpN = false → ∀ i ∈ [Instr.qpConnect, .qpReset],
      exec i s = .next { s with port := { s.port with qpErr := 3 } }) ∧
    (s.port.qpBusy = false → qpExists s.port.qpFn s.port.qpN = true →
      (qpBufOk (qpBufBytes s) = true → (qpOf s c).st = .reset → ∃ t, exec .qpConnect s = .next t ∧ t.mem = s.mem ∧
        (qpOf t c).st = .rts ∧ (qpOf t c).remote = (tabGet s.port.qpbuf 0 0).toNat % 2 ^ 24 ∧
        (qpOf t c).sPsn = (tabGet s.port.qpbuf 0 1).toNat % 2 ^ 24 ∧
        (qpOf t c).rPsn = (tabGet s.port.qpbuf 0 2).toNat % 2 ^ 24 ∧ (qpOf t c).out = [] ∧ t.port.qpErr = 0) ∧
      (qpBufOk (qpBufBytes s) = false → exec .qpConnect s = .next { s with port := { s.port with qpErr := 1 } }) ∧
      (qpBufOk (qpBufBytes s) = true → (qpOf s c).st ≠ .reset →
        exec .qpConnect s = .next { s with port := { s.port with qpErr := 2 } }) ∧
      ∃ t, exec .qpReset s = .next t ∧ t.mem = s.mem ∧ (qpOf t c).st = .reset ∧ (qpOf t c).out = [] ∧
        (qpOf t c).rx = [] ∧ t.port.qpErr = 0 ∧ (t.port.qpBusy = true ↔ (qpOf s c).out ≠ [])) ∧
    exec .qpFlushComplete s = .next { s with port := { s.port with qpBusy := false } } ∧
    (∀ o os, q.out = o :: os → q.st = .rts → q.at_ + 4096 * 2 ^ q.tmo ≤ s.now →
      (7 ≤ q.retries → ∃ t, exec .qpRetryTimeout s = .next t ∧ t.mem = s.mem ∧ QpFlushed t k) ∧
      (q.retries < 7 → ∃ t, exec .qpRetryTimeout s = .next t ∧ t.mem = s.mem ∧ (qpOf t k).out = q.out ∧
        (qpOf t k).retries = q.retries + 1 ∧ (qpOf t k).at_ = s.now ∧
        (os = [] → o.2.2 = .notify → ∃ fr, fr.body = .roce { o.2.1 with qpn := q.remote } ∧
          let g := fnGroup s (k / 64)
          (tabGet t.port.tx [] g = tabGet s.port.tx [] g ++ [fr] ∨
            tabGet t.port.txWait [] g = tabGet s.port.txWait [] g ++ [fr])))) ∧
    (∀ a, q.cnpAt = some a → a + 50000 ≤ s.now → q.rate < 2 ^ 30 → exec .cnpRateIncrease s =
      .next (modQp s k (fun x => { x with rate := min (2 ^ 30) (x.rate + 2 ^ 24), cnpAt := some s.now }))) ∧
    ∀ p n rest, q.rx = (p, n) :: rest → q.st = .rts →
      (p.op = .cnp → ∃ t, exec .cnpReceive s = .next t ∧ t.mem = s.mem ∧ (qpOf t k).rx = rest ∧
        (qpOf t k).rate = q.rate / 2 ∧ (qpOf t k).cnpAt = some s.now) ∧
      (p.op = .ack → ∃ t, exec .roceResponseReceive s = .next t ∧ t.mem = s.mem ∧ (qpOf t k).rx = rest ∧
        (qpOf t k).out = q.out.drop (ackPrefix p.psn q.out).length) ∧
      (∀ o os b qu level off len, p.op = .readResp → q.out = o :: os → o.1 = p.psn → o.2.1.op = .read →
        o.2.2 = .fetch b qu level off len → (queueOf s b qu).fetching = true → queueLevel (queueOf s b qu) = level →
        ∃ t, exec .roceResponseReceive s = .next t ∧ t.mem = s.mem ∧ (qpOf t k).rx = rest ∧ (qpOf t k).out = os ∧
          (queueOf t b qu).reply = some (some (off, len, p.data))) ∧
      (p.psn = q.rPsn →
        let u := packetTaken s rest n 1
        let ended (t : State) : State := modQp t k (fun x => { x with msg := none, msn := (x.msn + 1) % 2 ^ 24 })
        let whole : Prop := q.msg = none ∧ p.first = true ∧ p.last = true ∧ p.data.length ≤ 1024 * 2 ^ q.mtu
        (p.op = .atomic → exec .roceAtomicRequest s = .next (answer u k (.nak 1) p.psn)) ∧
        (p.op = .send ∨ p.op = .sendImm →
          let m := q.msg.getD { write := false }
          (inMessage q p false = false → exec .roceSendReceive s = .next (answer u k (.nak 1) p.psn)) ∧
          (inMessage q p false = true → p.last = false → m.data.length + p.data.length ≤ 2 ^ 31 →
            exec .roceSendReceive s = .next (answer
              (modQp u k (fun x => { x with msg := some { m with data := m.data ++ p.data } })) k .ack p.psn)) ∧
          (inMessage q p false = true → p.last = true → m.data.length + p.data.length ≤ 2 ^ 31 →
            exec .roceSendReceive s =
              .next (answer (ended (submit u fn s.cur.qpn (m.data ++ p.data))) k .ack p.psn)) ∧
          (whole → p.data.length ≤ 2 ^ 31 →
            let t := answer (ended (submit u fn s.cur.qpn p.data)) k .ack p.psn
            let r := recOf p.data fn s.cur.qpn
            let b := vfPart s fn + r.q / 16
            exec .roceSendReceive s = .next t ∧
            (recRefused s p.data fn = none → (queueOf s b (r.q % 16)).st = .idle →
              let y := queueOf t b (r.q % 16)
              y.st = .running ∧ y.cur = some r ∧ y.expected = (queueOf s b (r.q % 16)).expected + 1 ∧
              y.levels = [{ host := r.host, base := r.addr, len := r.len, rkey := r.rkey, pos := 0 }]))) ∧
        (p.op = .write ∨ p.op = .writeImm →
          let m := q.msg.getD { write := true, rkey := p.rkey, va := p.va, left := p.len }
          (inMessage q p true = true → m.left ≤ 2 ^ 31 → p.data.length ≤ m.left →
            (p.last = true → p.data.length = m.left) → writeAllowed s fn m p.data.length = true →
            let d := landWrite u fn m p.data
            (d.2 = true → exec .roceRdmaWrite s = .next (answer (msgGo d.1 k p
              { m with va := m.va + p.data.length, left := m.left - p.data.length }) k .ack p.psn)) ∧
            (d.2 = false → exec .roceRdmaWrite s = .next (answer d.1 k (.nak 3) p.psn))) ∧
          (whole → p.len = p.data.length → p.len ≤ 2 ^ 31 →
            (∀ r off, fn ≠ 512 → rdmaRegion s (vfPart s fn) p.rkey p.va p.len true = some (r, off) →
              let d := regThrough u (vfPart s fn) r off p.data
              (d.2 = true → exec .roceRdmaWrite s = .next (answer (ended d.1) k .ack p.psn)) ∧
              (d.2 = false → exec .roceRdmaWrite s = .next (answer d.1 k (.nak 3) p.psn))) ∧
            (fn ≠ 512 → rdmaRegion s (vfPart s fn) p.rkey p.va p.len true = none →
              exec .roceRdmaWrite s = .next (answer u k (.nak 2) p.psn)) ∧
            (∀ w : W32, fn = 512 → p.va % 4 = 0 → p.data = leBytes 4 w.toNat →
              exec .roceRdmaWrite s = .next (answer (ended (writeReg u p.va w)) k .ack p.psn)))) ∧
        (p.op = .read → p.len ≤ 1024 * 2 ^ q.mtu → p.len ≤ 2 ^ 31 →
          let w := modQp u k (fun x => { x with msn := (x.msn + 1) % 2 ^ 24 })
          let resp (d : List Byte) : RocePkt :=
            { op := .readResp, qpn := 0, psn := p.psn % 2 ^ 24, len := d.length, data := d, msn := (q.msn + 1) % 2 ^ 24 }
          (∀ r off, fn ≠ 512 → rdmaRegion s (vfPart s fn) p.rkey p.va p.len false = some (r, off) →
            let v := regRead w (vfPart s fn) r off p.len none 0
            (v.2.bad = false → v.2.rev = false → exec .roceRdmaRead s = .next (sendPkt v.1 k (resp v.2.bytes))) ∧
            (v.2.bad = true ∨ v.2.rev = true →
              exec .roceRdmaRead s = .next (answer v.1 k (.nak 3) (p.psn % 2 ^ 24)))) ∧
          (fn ≠ 512 → rdmaRegion s (vfPart s fn) p.rkey p.va p.len false = none →
            exec .roceRdmaRead s = .next (answer w k (.nak 2) p.psn)) ∧
          (fn = 512 → p.va % 4 = 0 → p.len = 4 →
            exec .roceRdmaRead s = .next (sendPkt w k (resp (leBytes 4 (readReg w p.va).toNat))))))

/-- R48 to R52, R54, R109: TRAIN starts a DOWN link of an ASSIGNED bulkhead that is not disabled, and training ends
UP from SEQ 0 where the identity agrees and the round trip is at most 184 ac, else DOWN; a training that lasts
130,000,000 ac, 65,536 ac without acknowledgement progress, 1,024 ac of silence and a disable take the link DOWN with
nothing queued, the collectives that name it end with status 1, and a program frozen on it traps (the 16th consecutive
retry request of one number is in the next statement); a write clears the retry count. What waits to be sent when
training ends UP goes out then. -/
def Obligations.LinkTraining : Prop :=
  ∀ s : State,
    let l := s.cur.link
    let b := l / 9
    let x := linkOf s l
    let goesDown (i : Instr) (y : LinkS) : Prop := ∃ t, exec i s = .next t ∧ t.mem = s.mem ∧ linkOf t l = y ∧
      (bhOf t b).colls = (bhOf s b).colls.map (fun c => (c.1, collLose (l % 9) c.2)) ∧
      ∀ j < 6, ∀ d, frozenOn s (6 * b + j) (l % 9) = some d →
        arrOf t (6 * b + j) = noteAsync (arrOf s (6 * b + j)) .link d 0x3FFF
    (x.st = .down → x.dis = false → (bhOf s b).st = .assigned → exec .linkTrain s =
      .next (setLink s l { x with st := .training, trainId := x.fabid, trainAt := s.now })) ∧
    (x.st ≠ .down ∨ x.dis = true ∨ (bhOf s b).st ≠ .assigned → exec .linkTrain s = .next s) ∧
    (x.st = .down → exec .linkDisable s = .next (setLink s l { x with dis := true })) ∧
    (x.st ≠ .down → goesDown .linkDisable { downLink x with dis := true }) ∧
    (∀ (id : W16) (rtt : BitVec 8),
      (x.st ≠ .training → exec (.linkTrainingComplete id rtt) s = .next s) ∧
      (x.st = .training →
        (id = x.trainId → rtt.toNat ≤ 184 → exec (.linkTrainingComplete id rtt) s = .next (setLink s l
          { downLink x with
            st := .up, rtt := rtt.toNat, ackAt := s.now, goodAt := s.now, vl6At := s.now
            txSeq := 0, rxSeq := 0, buf := [], txq := x.txq, rxq := [] })) ∧
        (id ≠ x.trainId ∨ 184 < rtt.toNat →
          goesDown (.linkTrainingComplete id rtt) { downLink x with rtt := rtt.toNat }))) ∧
    (x.st = .training → x.trainAt + 130000000 ≤ s.now → goesDown .linkTrainingTimeout (downLink x)) ∧
    (x.st = .up → x.buf ≠ [] → x.ackAt + 65536 ≤ s.now → goesDown .linkAckTimeout (downLink x)) ∧
    (x.st = .up → x.goodAt + 1024 ≤ s.now → goesDown .linkRxSilenceTimeout (downLink x)) ∧
    (x.st = .training → s.now < x.trainAt + 130000000 → exec .linkTrainingTimeout s = .next s) ∧
    (x.st = .up → s.now < x.ackAt + 65536 → exec .linkAckTimeout s = .next s) ∧
    (x.st = .up → s.now < x.goodAt + 1024 → exec .linkRxSilenceTimeout s = .next s) ∧
    exec .lnkstatRetryClear s = .next (setLink s l { x with retry :=
      { n := if x.retry.cntAt = some s.now then 1 else 0, cntAt := x.retry.cntAt, clrAt := some s.now } })

/-- R49 to R53, R55, R394: an UP end sends, in this order, a retry request that is due, a flit to resend, an idle flit
while 512 are unacknowledged, a flit of lane 6 each 64 ac, the oldest flit of the lane that the arbitration picks,
which takes the next number and stays until it is acknowledged, or an idle flit, which ends the turn; a flit in its
turn reaches its queue, or its collective, and one out of its turn or damaged is asked for again, once for each loss
(log entry 134); an acknowledgement drops what it covers; a retry request, whose number is the one expected (log entry
135), resends from its number, and the 16th consecutive one of a number takes the link DOWN, the collectives that name
it end with status 1 and a program frozen on it traps. A KIND 1 flit of a lane above 3 is dropped (log entry 64), the
tag of a collective's flits is log entry 50, and the lanes' buffers log entry 106. -/
def Obligations.LinkFlits : Prop :=
  ∀ s : State,
    let l := s.cur.link
    let b := l / 9
    let x := linkOf s l
    (x.st ≠ .up → exec .linkFlitSend s = .next (setLink s l x)) ∧
    (x.st = .up →
      let y := { x with off := offBits x }
      let sends (z : LinkS) : Prop := exec .linkFlitSend s = .next (setLink s l z)
      let idle : LinkS := { y with sent := { bareFlit 0 x.txSeq with ack := x.rxSeq, off := offBits x } :: x.sent }
      let takes (z : LinkS) (v : Nat) (f : Flit) (r : List Flit) (vl6 : Nat) : Prop :=
        let g := { f with seq := x.txSeq, vl := v, ack := x.rxSeq, off := offBits x }
        sends { z with
          sent := g :: x.sent, buf := x.buf ++ [g], txq := tabSet x.txq v r, txSeq := (x.txSeq + 1) % 4096
          ackAt := if x.buf = [] then s.now else x.ackAt, vl6At := vl6 }
      (x.askRetry = true → sends { y with
        askRetry := false, asked := true
        sent := { bareFlit 4 x.rxSeq with ack := x.rxSeq, off := offBits x } :: x.sent }) ∧
      (x.askRetry = false → ∀ f r, x.resend = f :: r →
        sends { y with resend := r, sent := { f with ack := x.rxSeq, off := offBits x } :: x.sent }) ∧
      (x.askRetry = false → x.resend = [] → 512 ≤ x.buf.length → sends idle) ∧
      (x.askRetry = false → x.resend = [] → x.buf.length < 512 →
        (∀ f r, tabGet x.txq [] 6 = f :: r → x.vl6At ≤ s.now → takes y 6 f r (s.now + 64)) ∧
        (tabGet x.txq [] 6 = [] ∨ s.now < x.vl6At →
          (∀ v z f r, pickLane y = some (v, z) → tabGet x.txq [] v = f :: r →
            takes z v f r x.vl6At ∧ x.seen.getLsbD v = false ∧ v < 6) ∧
          (pickLane y = none → sends { idle with turnLeft := 0 })))) ∧
    ∀ f r, x.wire = f :: r → x.st = .up →
      let y := takeAck s.now { x with wire := r } f
      let taken := { y with rxSeq := (x.rxSeq + 1) % 4096, asked := false, askRetry := false }
      (f.crcOk = false ∨ 6 ≤ f.kind → exec .flitCrcFailure s =
        .next (setLink s l { x with wire := r, askRetry := true })) ∧
      (f.crcOk = true →
        (∀ o os, x.buf = o :: os → let n := (f.ack + 4096 - o.seq) % 4096
          y.buf = if n = 0 ∨ x.buf.length < n then x.buf else x.buf.drop n) ∧
        (f.kind = 0 → exec .idleFlitReceive s = .next (setLink s l
          { y with askRetry := y.askRetry || (decide (f.seq ≠ x.rxSeq) && !y.asked) })) ∧
        (∀ i kind, (i, kind) ∈ [(Instr.streamDataFlitReceive, 1), (.collectiveDataFlitReceive, 2),
            (.collectiveControlFlitReceive, 3), (.managementFlitReceive, 5)] → f.kind = kind → f.seq ≠ x.rxSeq →
          exec i s = .next (setLink s l { y with askRetry := y.askRetry || !y.asked })) ∧
        (f.kind = 1 → f.seq = x.rxSeq → exec .streamDataFlitReceive s = .next (setLink s l
          (if f.vl < 4 then { taken with rxq := tabSet x.rxq f.vl (tabGet x.rxq [] f.vl ++ [f]) } else taken))) ∧
        (f.kind = 5 → f.seq = x.rxSeq → (tabGet x.rxq [] 6).length < 16 → exec .managementFlitReceive s =
          .next (setLink s l { taken with rxq := tabSet x.rxq 6 (tabGet x.rxq [] 6 ++ [f]) })) ∧
        (∀ i kind vl, (i, kind, vl) ∈ [(Instr.collectiveDataFlitReceive, 2, 4),
            (.collectiveControlFlitReceive, 3, 5)] → f.kind = kind → f.seq = x.rxSeq →
          ((bhOf s b).colls = [] → ∃ t, exec i s = .next t ∧ OnlyLink l s t ∧
            linkOf t l = { taken with rxq := (linkOf t l).rxq } ∧
            ∀ v, tabGet (linkOf t l).rxq [] v = if v = vl then tabGet x.rxq [] v ++ [f] else tabGet x.rxq [] v) ∧
          (∀ j c, (bhOf s b).colls = [(j, c)] → c.ready = true → 1 < cdC c.desc →
            cdPrev c.desc = l % 9 → c.va / 64 % 256 = f.tag.toNat / 256 → c.step < ringSteps c.desc →
            let k := f.tag.toNat % 128
            stepTag c.desc c.step = k → tabGet x.rxq [] 4 = [] → tabGet x.rxq [] 5 = [] →
            let was := tabGet c.inbox ([], []) k
            let now : List W32 × List Bool := if kind = 2 then
                (was.1 ++ (List.range ((f.len + 1) / 4)).map (fun w => f.data.extractLsb' (32 * w) 32), was.2)
              else (was.1, was.2 ++ (List.range (8 * (f.len + 1))).map (fun w => f.data.getLsbD w))
            let c' := { c with inbox := tabSet c.inbox k now
                               held := if f.tag.getLsbD 7 then setInsert c.held k else c.held }
            (c.down = true → ∃ t, exec i s = .next t ∧ OnlyLink l s t ∧ tabGet (linkOf t l).rxq [] vl = []) ∧
            (c.down = false → chunkCame c' = none →
              ∃ t, exec i s = .next t ∧ t.mem = s.mem ∧ collOf t b j = some c' ∧
                tabGet (linkOf t l).rxq [] vl = []))) ∧
        (f.kind = 4 →
          let run := if y.retryRun ≠ 0 ∧ x.retrySeq = f.seq then y.retryRun + 1 else 1
          let n := if x.retry.clrAt = some s.now then 1 else min 0xFFFF (x.retry.n + 1)
          let z := { y with resend := y.buf.dropWhile (fun g => decide (g.seq ≠ f.seq)), retrySeq := f.seq
                            retryRun := run, retry := { x.retry with n := n, cntAt := some s.now } }
          (run < 16 → exec .retryRequestFlitReceive s = .next (setLink s l z)) ∧
          (16 ≤ run → ∃ t, exec .retryRequestFlitReceive s = .next t ∧ t.mem = s.mem ∧ linkOf t l = downLink z ∧
            (bhOf t b).colls = (bhOf s b).colls.map (fun c => (c.1, collLose (l % 9) c.2)) ∧
            ∀ j < 6, ∀ d, frozenOn (setLink s l z) (6 * b + j) (l % 9) = some d →
              arrOf t (6 * b + j) = noteAsync (arrOf s (6 * b + j)) .link d 0x3FFF)))

-- Nodes and the schedule

/-- R114, R124, R125, R128, R130, R131, R140, R201, R250: a WAITING node whose tick has come and a REQUEUED node are
READY; a READY node whose next unit fits is PLACED with its members, a lone member on the lowest free array; a
placed node is loaded, or restored by its restore program, and its arrays start at their tick, a step of the time in the
same ac apart (R47), with all of their chain (log entry 85); and a node whose arrays' copies, collectives and egress are
over and whose lines have drained is DONE, its arrays given back and its semaphore added to (an array that another
node holds had drained before: log entry 49); a step that has failed performs its add once its lines have drained. -/
def Obligations.NodeLife : Prop :=
  ∀ (s : State) (nd : NodeS),
    let id := (s.cur.bh, s.cur.node)
    nodeOf s id = some nd →
    let time := (s.hub.before.getD s.hub.timer) / 2 ^ 32
    (nd.st = .waiting → (∀ t, nd.tick = some t → t ≤ time) →
      exec .startTickReached s = .next (setNode s id { nd with st := .ready, readyAt := s.now })) ∧
    (nd.st = .waiting → (∃ t, nd.tick = some t ∧ time < t) →
      exec .startTickReached s = .next s) ∧
    (nd.st = .requeued →
      exec .requeueComplete s = .next (setNode s id { nd with st := .ready, readyAt := s.now })) ∧
    (∀ g ms chs, nd.st = .ready → nd.part = s.cur.part → partNodes s s.cur.part = [(id, nd)] →
      nextUnit s nd = some (g, ms) → ms.length % (g.chain + 1) = 0 →
      let free := (partArrs s nd.part).filter (arrFree s)
      pickUnit g ms free = some chs →
      ∃ t nt, exec .nodePlacement s = .next t ∧ t.mem = s.mem ∧ nodeOf t id = some nt ∧ nt.st = .placed ∧
        nt.placedAt = s.now ∧ (∀ m ∈ ms, (tabGet nt.logs {} m).st = .placed) ∧
        ∀ m a rest, nd.gangs = [g] → g.chain = 0 → ms = [m] → free = a :: rest →
          (arrOf t a).node = some id ∧ (arrOf t a).logical = m ∧ (arrOf t a).cond = .placed) ∧
    (∀ u bs v pb w, nd.st = .placed ∨ nd.st = .running → readImage s id.1 nd = (u, .ok bs) →
      bcpRead u id.1 nd.params nd.pbytes = (v, w) → needBytes w = .ok pb →
      nd.logs.filter (fun l => decide (l.2.st = .placed)) ≠ [] →
      ∃ t nt, exec .nodeStart s = .next t ∧ nodeOf t id = some nt ∧
        (∀ l, l ∈ nd.logs → l.2.st = .placed → (tabGet nt.logs {} l.1).st = .started) ∧
        ∀ l, nd.logs.filter (fun x => decide (x.2.st = .placed)) = [l] →
          let a := loadArray (arrOf v l.2.phys) bs pb
          (tabFind nd.saved (arrOf v l.2.phys).logical = none → nd.steps = none → arrOf t l.2.phys = a) ∧
          (∀ c, tabFind nd.saved (arrOf v l.2.phys).logical = some c → nd.svmode = true →
            arrOf t l.2.phys = { a with pc := (imageHead bs).rsPc, svrun := 2 })) ∧
    (∀ p, (arrOf s p).node = some id → p = s.cur.phys → (arrOf s p).cond = .placed → (arrOf s p).chpos = 0 →
      (∀ t, (arrOf s p).startTick = some t → t ≤ time) → nd.st = .placed ∨ nd.st = .running →
      (∀ q ∈ domainArrs s p, (tabGet nd.logs {} (arrOf s q).logical).st = .started ∧
        (arrOf s q).ahead.all mpeFirst = true) → nd.steps = none →
      ∃ t g, exec .arrayTickStart s = .next t ∧ t.mem = s.mem ∧
        (∀ k, tabFind g k = tabFind nd.groupAt k ∨ tabFind g k = some s.now) ∧
        ((∀ h ∈ nd.gangs, sliced s nd.part h = false) → g = nd.groupAt) ∧
        nodeOf t id = some { nd with st := .running, groupAt := g } ∧
        ∀ q ∈ domainArrs s p, arrOf t q = { arrOf s q with cond := .running }) ∧
    (nd.st = .draining 0 → nd.addDue = false → nodeDrained s id nd = true → (∀ l ∈ nd.logs, (arrOf s l.2.phys).node = some id → (arrOf s l.2.phys).chans = [] ∧
        (arrOf s l.2.phys).colls = 0 ∧ (arrOf s l.2.phys).eg = [] ∧ (arrOf s l.2.phys).drained = []) →
      ∃ t u nt, exec .nodeDone s = .next t ∧ nodeOf t id = some nt ∧ nt.st = .done ∧
        (∀ a, (arrOf s a).node = some id → (arrOf t a).node = none ∧ (arrOf t a).cond = .idle) ∧
        (∀ name, semGet u nd.part name = semGet s nd.part name) ∧
        t = dropCopies (semAdded u id.1 nd.part nd.sem) id.1) ∧
    (nd.addDue = true → nodeDrained s id nd = true →
      exec .nodeDone s = .next (semAdded (setNode s id { nd with addDue := false }) id.1 nd.part nd.sem)) ∧
    (nd.addDue = true → nodeDrained s id nd = false → exec .nodeDone s = .next s) ∧
    (nd.st = .draining 0 → nd.addDue = false → (∃ l ∈ nd.logs, (arrOf s l.2.phys).node = some id ∧ (arrOf s l.2.phys).eg ≠ []) →
      exec .nodeDone s = .next s)

/-- R124, R139 to R142: a held node takes its verdict, the semaphore zeroed: 1 re-queues a replayable node and ends
another FAILED, 4 lets it go on from the instruction that trapped, with its save where a save program had trapped, 3
ends it FAILED with its fault domain, and 2, an unknown verdict, or 4 where an array was held in a step (the model's
choice: log entry 79) ends it FAILED; 0 is no verdict yet. -/
def Obligations.NodeVerdicts : Prop :=
  ∀ (s : State) (nd : NodeS),
    let id := (s.cur.bh, s.cur.node)
    nodeOf s id = some nd → nd.st = .draining 2 →
    let v := semGet s nd.part nd.vsem
    let fails : Prop := ∃ t nt, exec .verdictRead s = .next t ∧ nodeOf t id = some nt ∧ nt.st = .failed ∧
      nt.addDue = (nd.steps.isSome && nd.sem.isSome) ∧ semGet t nd.part nd.vsem = 0 ∧
      ∀ a ∈ nodeArrs s id, (arrOf t a).node = none
    (v = 0 → exec .verdictRead s = .next s) ∧
    (v = 1 → nd.replay = true → ∃ t nt, exec .verdictRead s = .next t ∧ t.mem = s.mem ∧
      nodeOf t id = some nt ∧ nt.st = .requeued ∧ nt.requeues = nd.requeues + 1 ∧
      (∀ a ∈ nodeArrs s id, (arrOf t a).node = none) ∧ semGet t nd.part nd.vsem = 0) ∧
    (v = 4 → (∀ a ∈ nodeArrs s id, (arrOf s a).stepTrap = false) → ∃ t nt, exec .verdictRead s = .next t ∧
      t.mem = s.mem ∧ nodeOf t id = some nt ∧ semGet t nd.part nd.vsem = 0 ∧
      nt.st = (if ∃ a ∈ nodeArrs s id, (arrOf s a).svrun = 1 then .draining 1 else .running) ∧
      ∀ a ∈ nodeArrs s id, ((arrOf s a).cond = .held → (arrOf t a).cond = .running ∧ (arrOf t a).replay = true) ∧
        ((arrOf s a).cond = .preempted → (arrOf t a).cond = .running)) ∧
    (v = 3 → nd.fdom ≠ 1 → nd.fdom ≠ 2 → s.cur.bh ∈ partBhs s nd.part → fails) ∧
    (v = 2 ∨ 4 < v.toNat ∨ (v = 1 ∧ nd.replay = false) ∨
      (v = 4 ∧ ∃ a ∈ nodeArrs s id, (arrOf s a).stepTrap = true) → fails)

/-- R126, R127, R131, R132, R135, R137: a saving node whose arrays have settled captures each of them; with its
images written it is READY again, one pre-emption more counted, its arrays given back (log entries 83 and 84); at a
quantum's end the members in place of a time-sliced gang are asked to stop, and that gang's next group has its turn (log
entry 80); a refill fills every budget and restores every priority, and an exhausted budget demotes its nodes; and the
schedule table, once enabled, is read from its first entry on, an entry whose checks and launch succeed leaving a node,
one that cannot be read leaving a notification and faulting no queue (log entry 39). -/
def Obligations.SavingAndSchedule : Prop :=
  (∀ (s : State) (nd : NodeS),
    let id := (s.cur.bh, s.cur.node)
    nodeOf s id = some nd →
    (nd.st = .draining 1 → nd.asked = [] → nd.svmode = false → stoppedArrs s id ≠ [] →
      (∀ a ∈ stoppedArrs s id, settled s a = true) →
      ∃ t nt, exec .nodeSaveStart s = .next t ∧ t.mem = s.mem ∧ nodeOf t id = some nt ∧
        (∀ a ∈ stoppedArrs s id, (arrOf t a).cond = .capturing) ∧
        ∀ a, stoppedArrs s id = [a] → tabFind nt.saved (arrOf s a).logical =
          some { arrOf s a with land := (arrOf s a).land.map (fun x => (x.1, { x.2 with pas := [] })) }) ∧
    (nd.st = .draining 1 → (nd.asked ≠ [] ∨ ∃ a ∈ stoppedArrs s id, settled s a = false) →
      exec .nodeSaveStart s = .next s) ∧
    (nd.st = .draining 1 → nd.asked = [] →
      (∀ a ∈ nodeArrs s id, savedArr (arrOf s a) = true ∨ (arrOf s a).cond = .placed ∨ logicalOver (arrOf s a) = true) →
      ∃ t nt, exec .nodeSaveComplete s = .next t ∧ nodeOf t id = some nt ∧ nt.st = .ready ∧
        nt.preempts = min 255 (nd.preempts + 1) ∧ nt.readyAt = s.now ∧ nt.switch = none ∧
        nt.group = (match nd.switch with | some f => tabMod nd.group 0 f (· + 1) | none => nd.group) ∧
        ∀ a ∈ nodeArrs s id,
          (savedArr (arrOf s a) = true ∨ (arrOf s a).cond = .placed → (arrOf t a).node = none) ∧
          (savedArr (arrOf s a) = true → (∀ c ∈ nodeArrs s id, (arrOf s c).cond ≠ .placed) →
            (tabGet nt.logs {} (arrOf s a).logical).st = .saved)) ∧
    (nd.st = .running → nd.asked = [] →
      let timeUp (g : Gang) : Prop := sliced s nd.part g = true ∧ gangTodo nd g ≠ [] ∧
        (∃ a ∈ gangArrs s id g, (arrOf s a).cond = .running) ∧ tabGet nd.groupAt 0 g.first + quantum s nd.part ≤ s.now
      (∀ pre g post, nd.gangs = pre ++ g :: post → timeUp g → (∀ h ∈ pre, ¬ timeUp h) →
        exec .quantumExpiry s = .next (setNode s id
          { nd with switch := some g.first, asked := gangArrs s id g, askAt := s.now })) ∧
      ((∀ g ∈ nd.gangs, ¬ timeUp g) → exec .quantumExpiry s = .next s))) ∧
  (∀ s : State,
    let p := s.cur.part
    let x := partOf s p
    (∃ t, exec .budgetRefill s = .next t ∧ t.mem = s.mem ∧ (partOf t p).refills = s.now - x.since ∧
      ∀ b ∈ partBhs s p, ∀ k,
        tabFind (bhOf t b).wcbs k = (tabFind (bhOf s b).wcbs k).map (fun c =>
          { c with left := (c.raw.extractLsb' 128 64).toNat }) ∧
        nodeOf t (b, k) = (nodeOf s (b, k)).map (fun n => { n with demoted := false })) ∧
    (∃ t, exec .budgetExhausted s = .next t ∧ t.mem = s.mem ∧ ∀ k n, nodeOf s (s.cur.bh, k) = some n →
      ∃ m, nodeOf t (s.cur.bh, k) = some m ∧ (m.demoted = true ↔ n.demoted = true ∨
        ∃ w c, n.budget = some w ∧ tabFind (bhOf s s.cur.bh).wcbs w = some c ∧ c.left = 0)) ∧
    (x.ten = false → exec .scheduleTableEnable s =
      .next (setPart s p { x with ten := true, tblNext := 0, tblPrev := 0, tblNode := [] })) ∧
    (x.ten = true → x.tblNext < x.tblN → assigned s p = true →
      (∀ u, entryBytes s p = (u, none) → (tabGet s.port.notif [] (queueOf s p 0).vf).length < 256 →
        ∃ t n, exec .scheduleEntryRead s = .next t ∧ (partOf t p).tblNext = x.tblNext + 1 ∧
          tabGet t.port.notif [] (queueOf s p 0).vf = tabGet s.port.notif [] (queueOf s p 0).vf ++ [n] ∧
          n.kind = 4 ∧ n.cause = 0x0B ∧ n.offset = x.tblNext) ∧
      ∀ u bs t slot, entryBytes s p = (u, some bs) →
        let tick := bF bs 0 8
        let look := max 1 x.look * 4096
        tick ≤ s.hub.timer / 2 ^ 32 + look → entryOk u p bs false = true → tabFind x.tblNode (bF bs 8 8) = none →
        launch u p none (bF bs 8 8)
          (if bF bs 0x14 1 = 1 then some (BitVec.ofNat 16 (bF bs 0x12 2), BitVec.ofNat 64 (bF bs 0x18 8)) else none)
          (some (tick - look)) none (some tick) x.tblNext = (t, .ok slot) →
        ∃ v nd, exec .scheduleEntryRead s = .next v ∧ nodeOf v (p, slot) = some nd ∧ nd.st = .waiting ∧
          nd.wcb = bF bs 8 8 ∧ nd.tick = some (tick - look) ∧ (partOf v p).tblNext = x.tblNext + 1 ∧
          (partOf v p).tblPrev = tick ∧ tabFind (partOf v p).tblNode (bF bs 8 8) = some slot))
end

