-- ==== Sys2Proof/Laws/Encoding.lean ====
section
/-! SUPPORT. Fields of encoded words, and the round trip of one instruction by slot. -/
namespace Sys2Proof
open Sys2Proof.Machine

-- Fields of a concatenation

theorem bits_append_high {m n : Nat} (x : BitVec m) (y : BitVec n) (lo len : Nat) (h : n ≤ lo) :
    bits (x ++ y) lo len = bits x (lo - n) len := by
  ext i hi
  simp only [bits, BitVec.getElem_extractLsb', BitVec.getLsbD_append]
  rw [if_neg (by omega)]
  congr 1; omega

theorem bits_append_low {m n : Nat} (x : BitVec m) (y : BitVec n) (lo len : Nat) (h : lo + len ≤ n) :
    bits (x ++ y) lo len = bits y lo len := by
  ext i hi
  simp only [bits, BitVec.getElem_extractLsb', BitVec.getLsbD_append]
  rw [if_pos (by omega)]

theorem bits_self {n : Nat} (x : BitVec n) : bits x 0 n = x := by
  ext i hi; simp [bits]

theorem bitB_append_high {m n : Nat} (x : BitVec m) (y : BitVec n) (i : Nat) (h : n ≤ i) :
    bitB (x ++ y) i = bitB x (i - n) := by
  simp [bitB, BitVec.getLsbD_append]; omega

theorem bitB_append_low {m n : Nat} (x : BitVec m) (y : BitVec n) (i : Nat) (h : i < n) :
    bitB (x ++ y) i = bitB y i := by
  simp [bitB, BitVec.getLsbD_append]; omega

theorem bits_setWidth {m n : Nat} (x : BitVec m) (lo len : Nat) (h : lo + len ≤ n) :
    bits (x.setWidth n) lo len = bits x lo len := by
  ext i hi
  simp only [bits, BitVec.getElem_extractLsb', BitVec.getLsbD_setWidth]
  simp; omega

theorem bits_setWidth_self {m n : Nat} (x : BitVec m) (h : m ≤ n) : bits (x.setWidth n) 0 m = x := by
  rw [bits_setWidth _ _ _ (by omega), bits_self]

theorem setWidth_setWidth_self {m n : Nat} (x : BitVec m) (h : m ≤ n) :
    (x.setWidth n).setWidth m = x := by
  rw [BitVec.setWidth_setWidth_of_le _ h, BitVec.setWidth_eq]

theorem bits_halves (v : BitVec 64) : bits v 32 32 ++ bits v 0 32 = v := by
  apply BitVec.eq_of_getLsbD_eq
  intro i hi
  show (bits v 32 32 ++ bits v 0 32).getLsbD i = _
  simp only [bits, BitVec.getLsbD_append, BitVec.getLsbD_extractLsb']
  by_cases h : i < 32
  · simp [h]
  · simp [h, show i - 32 < 32 by omega, show 32 + (i - 32) = i by omega]

-- The S slot

section
variable (op : BitVec 8) (d a b : BitVec 5) (x : BitVec 8) (xe : BitVec 1) (imm : BitVec 32)

theorem bitsN_sWord_op : bitsN (sWord op d a b x xe imm) 56 8 = op.toNat := by
  show (bits (n := 8 + 5 + 5 + 5 + 8 + 1 + 32) (op ++ d ++ a ++ b ++ x ++ xe ++ imm) 56 8).toNat = _
  simp (disch := decide) only [bits_append_high]
  exact congrArg _ (bits_self _)

theorem bits_sWord_d : bits (sWord op d a b x xe imm) 51 5 = d := by
  show bits (n := 8 + 5 + 5 + 5 + 8 + 1 + 32) (op ++ d ++ a ++ b ++ x ++ xe ++ imm) 51 5 = _
  simp (disch := decide) only [bits_append_high, bits_append_low]
  exact bits_self _

theorem bits_sWord_a : bits (sWord op d a b x xe imm) 46 5 = a := by
  show bits (n := 8 + 5 + 5 + 5 + 8 + 1 + 32) (op ++ d ++ a ++ b ++ x ++ xe ++ imm) 46 5 = _
  simp (disch := decide) only [bits_append_high, bits_append_low]
  exact bits_self _

theorem bits_sWord_b : bits (sWord op d a b x xe imm) 41 5 = b := by
  show bits (n := 8 + 5 + 5 + 5 + 8 + 1 + 32) (op ++ d ++ a ++ b ++ x ++ xe ++ imm) 41 5 = _
  simp (disch := decide) only [bits_append_high, bits_append_low]
  exact bits_self _

theorem bits_sWord_x (lo len : Nat) (h : 33 ≤ lo) (h2 : lo + len ≤ 41) :
    bits (sWord op d a b x xe imm) lo len = bits x (lo - 33) len := by
  show bits (n := 8 + 5 + 5 + 5 + 8 + 1 + 32) (op ++ d ++ a ++ b ++ x ++ xe ++ imm) lo len = _
  rw [bits_append_high _ _ _ _ (by omega), bits_append_high _ _ _ _ (by omega),
    bits_append_low _ _ _ _ (by omega), Nat.sub_sub]

theorem bitsN_sWord_x (lo len : Nat) (h : 33 ≤ lo) (h2 : lo + len ≤ 41) :
    bitsN (sWord op d a b x xe imm) lo len = bitsN x (lo - 33) len :=
  congrArg BitVec.toNat (bits_sWord_x op d a b x xe imm lo len h h2)

theorem bits_sWord_imm (lo len : Nat) (h : lo + len ≤ 32) :
    bits (sWord op d a b x xe imm) lo len = bits imm lo len := by
  show bits (n := 8 + 5 + 5 + 5 + 8 + 1 + 32) (op ++ d ++ a ++ b ++ x ++ xe ++ imm) lo len = _
  rw [bits_append_low _ _ _ _ h]

theorem bitB_sWord_x (i : Nat) (h : 33 ≤ i) (h2 : i < 41) :
    bitB (sWord op d a b x xe imm) i = bitB x (i - 33) := by
  show bitB (n := 8 + 5 + 5 + 5 + 8 + 1 + 32) (op ++ d ++ a ++ b ++ x ++ xe ++ imm) i = _
  rw [bitB_append_high _ _ _ (by omega), bitB_append_high _ _ _ (by omega), bitB_append_low _ _ _ (by omega),
    Nat.sub_sub]

theorem bitB_sWord_xe : bitB (sWord op d a b x xe imm) 32 = bitB xe 0 := by
  show bitB (n := 8 + 5 + 5 + 5 + 8 + 1 + 32) (op ++ d ++ a ++ b ++ x ++ xe ++ imm) 32 = _
  rw [bitB_append_high _ _ _ (by omega), bitB_append_low _ _ _ (by omega)]
end

theorem decodeS_of {i : Instr} {w : BitVec 64} {y : Option (BitVec 40)} (he : encS i = some (w, y))
    (h : i.wf = true) (hc : candS w (y.getD 0) = some i) : decodeS w (y.getD 0) = some i := by
  simp only [decodeS, hc, h, he, Bool.true_and]
  cases y <;> simp [encAgrees]

/-- The round trip of an instruction of the S slot. -/
theorem roundTripS {i : Instr} {w : BitVec 64} {y : Option (BitVec 40)} (he : encS i = some (w, y))
    (hc : candS w (y.getD 0) = some i) (h : i.wf = true) : decodeEnc (encode i) = some i := by
  simp only [encode, he, decodeEnc, decodeS_of he h hc]

-- The C slot

section
variable (o : COp) (f : CSlot)

/-- The C slot with its widths added up as they stand, for the lemmas of concatenation. -/
theorem bits_cWord (lo len : Nat) : bits (cWord o f) lo len =
    bits (n := 8 + 3 + 2 + 2 + 3 + 6 + 6 + 6 + 6 + 3 + 1 + 3 + 1 + 14) (cCode o ++ f.typ ++ f.ys ++ f.xs ++ f.grd ++
      f.dst ++ f.sa ++ f.sb ++ f.sc ++ f.hold ++ flag1 f.uns ++ f.rm ++ flag1 f.sat ++ f.spec) lo len := rfl

theorem bitB_cWord (i : Nat) : bitB (cWord o f) i =
    bitB (n := 8 + 3 + 2 + 2 + 3 + 6 + 6 + 6 + 6 + 3 + 1 + 3 + 1 + 14) (cCode o ++ f.typ ++ f.ys ++ f.xs ++ f.grd ++
      f.dst ++ f.sa ++ f.sb ++ f.sc ++ f.hold ++ flag1 f.uns ++ f.rm ++ flag1 f.sat ++ f.spec) i := rfl

theorem bitB_flag1 (b : Bool) : bitB (flag1 b) 0 = b := by cases b <;> rfl

theorem cOfCode_cCode : cOfCode (cCode o) = some o := by cases o <;> rfl

theorem cOfCode_cWord : cOfCode (bits (cWord o f) 56 8) = some o := by
  rw [bits_cWord]
  simp (disch := decide) only [bits_append_high]
  rw [show 56 - 14 - 1 - 3 - 1 - 3 - 6 - 6 - 6 - 6 - 3 - 2 - 2 - 3 = 0 from rfl, bits_self]
  exact cOfCode_cCode o

theorem cFields_cWord (e : BitVec 40) : cFields o (cWord o f) e = { f with e := if cNames o f 32 then e else 0 } := by
  have h : ({ typ := bits (cWord o f) 53 3, ys := bits (cWord o f) 51 2, xs := bits (cWord o f) 49 2,
              grd := bits (cWord o f) 46 3, dst := bits (cWord o f) 40 6, sa := bits (cWord o f) 34 6,
              sb := bits (cWord o f) 28 6, sc := bits (cWord o f) 22 6, hold := bits (cWord o f) 19 3,
              uns := bitB (cWord o f) 18, rm := bits (cWord o f) 15 3, sat := bitB (cWord o f) 14,
              spec := bits (cWord o f) 0 14, e := 0 } : CSlot) = { f with e := 0 } := by
    simp (disch := decide) only [bits_cWord, bitB_cWord, bits_append_high, bits_append_low, bitB_append_high,
      bitB_append_low, Nat.reduceSub, bits_self, bitB_flag1]
  unfold cFields
  simp only [h]
  rw [show cNames o { f with e := 0 } 32 = cNames o f 32 from rfl]
  by_cases hn : cNames o f 32 = true
  · simp only [hn, if_true]
    simpa using h
  · simp [hn]

theorem cSlot_e_zero (h : cLegal o f = true) (hn : cNames o f 32 = false) : f.e = 0 := by
  cases o <;> simp_all [cLegal]
end

/-- The round trip of an instruction of the C slot. -/
theorem roundTripC {i : Instr} {o : COp} {f : CSlot} (hs : encS i = none) (hp : cParts i = some (o, f))
    (hi : cInstr o f = i) (h : i.wf = true) : decodeEnc (encode i) = some i := by
  have hl : cLegal o f = true := by
    simp only [Instr.wf, hp, Bool.and_eq_true] at h; exact h.1.1.1.1
  have he : ∀ e, (cNames o f 32 = true → e = f.e) → decodeC (cWord o f) e = some i := by
    intro e hn
    have : ({ f with e := if cNames o f 32 then e else 0 } : CSlot) = f := by
      by_cases hc : cNames o f 32 = true
      · simp [hc, hn hc]
      · have h0 := cSlot_e_zero o f hl (by simpa using hc)
        simp only [hc]
        cases f; simp_all
    simp only [decodeC, cOfCode_cWord, cFields_cWord, this, hl, if_true, hi]
  simp only [encode, hs, encC, hp, decodeEnc]
  apply he
  intro hn
  simp [hn]

-- The edge slots

/-- The round trip of an instruction of the Y or X slot. -/
theorem roundTripYX {i : Instr} {ax : Axis} {w : BitVec 16} (hs : encS i = none) (hc : encC i = none)
    (he : encYX i = some w) (ha : axisOf i = some ax) (hd : candYX ax w = some i) (h : i.wf = true) :
    decodeEnc (encode i) = some i := by
  have : decodeYX ax w = some i := by simp [decodeYX, hd, h, he]
  cases ax <;> simp only [encode, hs, hc, he, ha, decodeEnc, setWidth_setWidth_self _ (show 16 ≤ 64 by decide), this]

/-- The round trip of an instruction of the N or W slot. -/
theorem roundTripNW {i : Instr} {l : PortLoader} {w : BitVec 40} {y : Option (BitVec 40)} (hs : encS i = none)
    (hc : encC i = none) (hyx : encYX i = none) (he : encNW i = some (w, y)) (ha : portOf i = some l)
    (hd : candNW l w (y.getD 0) = some i) (h : i.wf = true) : decodeEnc (encode i) = some i := by
  have : decodeNW l w (y.getD 0) = some i := by
    simp only [decodeNW, hd, h, he, Bool.true_and]
    cases y <;> simp [encAgrees]
  cases l <;>
    simp only [encode, hs, hc, hyx, he, ha, decodeEnc, setWidth_setWidth_self _ (show 40 ≤ 64 by decide), this]

/-- The round trip of an instruction of the D slot. -/
theorem roundTripD {i : Instr} {w : BitVec 40} {y : Option (BitVec 40)} (hs : encS i = none)
    (hc : encC i = none) (hyx : encYX i = none) (hn : encNW i = none) (he : encD i = some (w, y))
    (hd : candD w (y.getD 0) = some i) (h : i.wf = true) : decodeEnc (encode i) = some i := by
  have : decodeD w (y.getD 0) = some i := by
    simp only [decodeD, hd, h, he, Bool.true_and]
    cases y <;> simp [encAgrees]
  simp only [encode, hs, hc, hyx, hn, he, decodeEnc, setWidth_setWidth_self _ (show 40 ≤ 64 by decide), this]

/-- The round trip of an instruction of the T slot. -/
theorem roundTripT {i : Instr} {w : BitVec 24} {y : Option (BitVec 40)} (hs : encS i = none)
    (hc : encC i = none) (hyx : encYX i = none) (hn : encNW i = none) (hdd : encD i = none)
    (he : encT i = some (w, y)) (hd : candT w (y.getD 0) = some i) (h : i.wf = true) :
    decodeEnc (encode i) = some i := by
  have : decodeT w (y.getD 0) = some i := by
    simp only [decodeT, hd, h, he, Bool.true_and]
    cases y <;> simp [encAgrees]
  simp only [encode, hs, hc, hyx, hn, hdd, he, decodeEnc, setWidth_setWidth_self _ (show 24 ≤ 64 by decide), this]

/-- The round trip of an instruction of the A slot. -/
theorem roundTripA {i : Instr} {w : BitVec 40} (hs : encS i = none) (hc : encC i = none) (hyx : encYX i = none)
    (hn : encNW i = none) (hdd : encD i = none) (ht : encT i = none) (he : encA i = some w)
    (hd : candA w = some i) (h : i.wf = true) : decodeEnc (encode i) = some i := by
  have : decodeA w = some i := by simp [decodeA, hd, h, he]
  simp only [encode, hs, hc, hyx, hn, hdd, ht, he, decodeEnc, setWidth_setWidth_self _ (show 40 ≤ 64 by decide), this]

/-- The round trip of a packet. -/
theorem roundTripPkt {i : Instr} {h0 : BitVec 32} {ws : List (BitVec 32)} (hs : encS i = none) (hc : encC i = none)
    (hyx : encYX i = none) (hn : encNW i = none) (hdd : encD i = none) (ht : encT i = none) (ha : encA i = none)
    (he : encPkt i = some (h0 :: ws)) (hop : bitsN h0 24 8 < 0x13) (hlen : bitsN h0 10 14 = ws.length + 1)
    (hok : headerOk h0 (ws.length + 1) = true) (hd : candPkt (h0 :: ws) = some i) (h : i.wf = true) :
    decodeEnc (encode i) = some i := by
  have : decodePacket (h0 :: ws) = .packet i [] := by
    unfold decodePacket
    simp only []
    rw [if_neg (by omega), if_neg (by simpa using hok), hlen]
    have ht : (h0 :: ws).take (ws.length + 1) = h0 :: ws := List.take_length (l := h0 :: ws)
    have hr : (h0 :: ws).drop (ws.length + 1) = [] := List.drop_length (l := h0 :: ws)
    simp only [ht, hr, hd, h, he]
    simp
  simp only [encode, hs, hc, hyx, hn, hdd, ht, ha, he, decodeEnc, this]

-- Fields of the edge slots

theorem bitsN_yxWord_op (op : BitVec 4) (m : BitVec 2) (x : BitVec 10) : bitsN (yxWord op m x) 12 4 = op.toNat := by
  show (bits (n := 4 + 2 + 10) (op ++ m ++ x) 12 4).toNat = _
  simp (disch := decide) only [bits_append_high]
  exact congrArg _ (bits_self _)

theorem bits_yxWord_m (op : BitVec 4) (m : BitVec 2) (x : BitVec 10) : bits (yxWord op m x) 10 2 = m := by
  show bits (n := 4 + 2 + 10) (op ++ m ++ x) 10 2 = _
  simp (disch := decide) only [bits_append_high, bits_append_low]
  exact bits_self _

theorem bits_yxWord_x (op : BitVec 4) (m : BitVec 2) (x : BitVec 10) (lo len : Nat) (h : lo + len ≤ 10) :
    bits (yxWord op m x) lo len = bits x lo len := by
  show bits (n := 4 + 2 + 10) (op ++ m ++ x) lo len = _
  rw [bits_append_low _ _ _ _ h]

theorem bitB_yxWord_x (op : BitVec 4) (m : BitVec 2) (x : BitVec 10) (i : Nat) (h : i < 10) :
    bitB (yxWord op m x) i = bitB x i := by
  show bitB (n := 4 + 2 + 10) (op ++ m ++ x) i = _
  rw [bitB_append_low _ _ _ h]

theorem bitsN_edgeWord_op (op : BitVec 6) (x : BitVec 34) : bitsN (edgeWord op x) 34 6 = op.toNat := by
  show (bits (n := 6 + 34) (op ++ x) 34 6).toNat = _
  simp (disch := decide) only [bits_append_high]
  exact congrArg _ (bits_self _)

theorem bits_edgeWord (op : BitVec 6) (x : BitVec 34) (lo len : Nat) (h : lo + len ≤ 34) :
    bits (edgeWord op x) lo len = bits x lo len := by
  show bits (n := 6 + 34) (op ++ x) lo len = _
  rw [bits_append_low _ _ _ _ h]

theorem bitsN_edgeWord (op : BitVec 6) (x : BitVec 34) (lo len : Nat) (h : lo + len ≤ 34) :
    bitsN (edgeWord op x) lo len = bitsN x lo len := congrArg BitVec.toNat (bits_edgeWord op x lo len h)

theorem bitB_edgeWord (op : BitVec 6) (x : BitVec 34) (i : Nat) (h : i < 34) :
    bitB (edgeWord op x) i = bitB x i := by
  show bitB (n := 6 + 34) (op ++ x) i = _
  rw [bitB_append_low _ _ _ h]

theorem bitsN_tWord_op (op : BitVec 4) (src : BitVec 1) (i : BitVec 6) : bitsN (tWord op src i) 20 4 = op.toNat := by
  show (bits (n := 4 + 1 + 6 + 13) (op ++ src ++ i ++ 0#13) 20 4).toNat = _
  simp (disch := decide) only [bits_append_high]
  exact congrArg _ (bits_self _)

theorem bits_tWord_i (op : BitVec 4) (src : BitVec 1) (i : BitVec 6) : bits (tWord op src i) 13 6 = i := by
  show bits (n := 4 + 1 + 6 + 13) (op ++ src ++ i ++ 0#13) 13 6 = _
  simp (disch := decide) only [bits_append_high, bits_append_low]
  exact bits_self _

theorem bitB_tWord_src (op : BitVec 4) (src : BitVec 1) (i : BitVec 6) :
    bitB (tWord op src i) 19 = bitB src 0 := by
  show bitB (n := 4 + 1 + 6 + 13) (op ++ src ++ i ++ 0#13) 19 = _
  simp (disch := decide) only [bitB_append_high, bitB_append_low]

-- Fields of a packet header

section
variable (op : BitVec 8) (len : Nat) (pr : Bool) (fl : BitVec 9)

theorem bitsN_pktHeader_op : bitsN (pktHeader op len pr fl) 24 8 = op.toNat := by
  show (bits (n := 8 + 14 + 1 + 9) (op ++ BitVec.ofNat 14 len ++ flag1 pr ++ fl) 24 8).toNat = _
  simp (disch := decide) only [bits_append_high]
  exact congrArg _ (bits_self _)

theorem bits_pktHeader_op : bits (pktHeader op len pr fl) 24 8 = op := by
  show bits (n := 8 + 14 + 1 + 9) (op ++ BitVec.ofNat 14 len ++ flag1 pr ++ fl) 24 8 = _
  simp (disch := decide) only [bits_append_high]
  exact bits_self _

theorem bits_pktHeader_len : bits (pktHeader op len pr fl) 10 14 = BitVec.ofNat 14 len := by
  show bits (n := 8 + 14 + 1 + 9) (op ++ BitVec.ofNat 14 len ++ flag1 pr ++ fl) 10 14 = _
  simp (disch := decide) only [bits_append_high, bits_append_low]
  exact bits_self _

theorem bitsN_pktHeader_len : bitsN (pktHeader op len pr fl) 10 14 = len % 2 ^ 14 :=
  (congrArg BitVec.toNat (bits_pktHeader_len op len pr fl)).trans (BitVec.toNat_ofNat _ _)

theorem bitB_pktHeader_p : bitB (pktHeader op len pr fl) 9 = pr := by
  show bitB (n := 8 + 14 + 1 + 9) (op ++ BitVec.ofNat 14 len ++ flag1 pr ++ fl) 9 = _
  simp (disch := decide) only [bitB_append_high, bitB_append_low]
  exact bitB_flag1 pr

theorem bits_pktHeader_flags (lo n : Nat) (h : lo + n ≤ 9) : bits (pktHeader op len pr fl) lo n = bits fl lo n := by
  show bits (n := 8 + 14 + 1 + 9) (op ++ BitVec.ofNat 14 len ++ flag1 pr ++ fl) lo n = _
  rw [bits_append_low _ _ _ _ h]

theorem bitB_pktHeader_flags (i : Nat) (h : i < 9) : bitB (pktHeader op len pr fl) i = bitB fl i := by
  show bitB (n := 8 + 14 + 1 + 9) (op ++ BitVec.ofNat 14 len ++ flag1 pr ++ fl) i = _
  rw [bitB_append_low _ _ _ h]
end

end Sys2Proof
end

