-- ==== Sys2Proof/Laws/Table.lean ====
section
/-! SUPPORT. Reading a table or a memory after a write, and the canonical form that every write keeps. -/
namespace Sys2Proof.Machine
open Sys2Proof

section
variable {α : Type}

-- Tables

@[simp] theorem tabGet_tabSet_same (t : Tab α) (d : α) (k : Nat) (v : α) : tabGet (tabSet t k v) d k = v := by
  induction t with
  | nil => simp [tabSet, tabGet]
  | cons x r ih =>
    obtain ⟨j, u⟩ := x
    simp only [tabSet]
    split
    · simp [tabGet]
    · split <;> simp [tabGet, *]

theorem tabGet_tabSet_ne (t : Tab α) (d : α) {k j : Nat} (v : α) (h : j ≠ k) :
    tabGet (tabSet t k v) d j = tabGet t d j := by
  induction t with
  | nil => simp [tabSet, tabGet, h.symm]
  | cons x r ih =>
    obtain ⟨i, u⟩ := x
    simp only [tabSet]
    split
    · simp [tabGet, h.symm]
    · split
      · subst_vars; simp [tabGet, h.symm]
      · simp [tabGet, *]

theorem tabGet_tabSet (t : Tab α) (d : α) (k j : Nat) (v : α) :
    tabGet (tabSet t k v) d j = if j = k then v else tabGet t d j := by
  split
  · subst_vars; exact tabGet_tabSet_same t d _ v
  · exact tabGet_tabSet_ne t d v ‹_›

theorem tabGet_eq_getD (t : Tab α) (d : α) (k : Nat) : tabGet t d k = (tabFind t k).getD d := by
  induction t with
  | nil => rfl
  | cons x r ih =>
    obtain ⟨j, u⟩ := x
    simp only [tabGet, tabFind]
    split <;> simp [ih]

@[simp] theorem tabFind_tabSet_same (t : Tab α) (k : Nat) (v : α) : tabFind (tabSet t k v) k = some v := by
  induction t with
  | nil => simp [tabSet, tabFind]
  | cons x r ih =>
    obtain ⟨j, u⟩ := x
    simp only [tabSet]
    split
    · simp [tabFind]
    · split <;> simp [tabFind, *]

theorem tabFind_tabSet_ne (t : Tab α) {k j : Nat} (v : α) (h : j ≠ k) :
    tabFind (tabSet t k v) j = tabFind t j := by
  induction t with
  | nil => simp [tabSet, tabFind, h.symm]
  | cons x r ih =>
    obtain ⟨i, u⟩ := x
    simp only [tabSet]
    split
    · simp [tabFind, h.symm]
    · split
      · subst_vars; simp [tabFind, h.symm]
      · simp [tabFind, *]

theorem tabFind_tabSet (t : Tab α) (k j : Nat) (v : α) :
    tabFind (tabSet t k v) j = if j = k then some v else tabFind t j := by
  split
  · subst_vars; exact tabFind_tabSet_same t _ v
  · exact tabFind_tabSet_ne t v ‹_›

theorem tabFind_tabErase (t : Tab α) (k j : Nat) :
    tabFind (tabErase t k) j = if j = k then none else tabFind t j := by
  induction t with
  | nil => simp [tabErase, tabFind]
  | cons x r ih =>
    obtain ⟨i, u⟩ := x
    simp only [tabErase, List.filter_cons] at ih ⊢
    by_cases hik : i = k
    · subst hik
      simp only [beq_self_eq_true, Bool.not_true, Bool.false_eq_true, if_false, ih, tabFind]
      by_cases hj : j = i
      · simp [hj]
      · simp [hj, Ne.symm hj]
    · simp only [beq_eq_false_iff_ne.mpr hik, Bool.not_false, if_true, tabFind, ih]
      by_cases hj : j = k
      · subst hj; simp [hik]
      · simp [hj]

theorem tabGet_tabErase (t : Tab α) (d : α) (k j : Nat) :
    tabGet (tabErase t k) d j = if j = k then d else tabGet t d j := by
  rw [tabGet_eq_getD, tabFind_tabErase]
  split <;> simp [tabGet_eq_getD]

theorem tabGet_tabPut [DecidableEq α] (t : Tab α) (d : α) (k j : Nat) (v : α) :
    tabGet (tabPut t d k v) d j = if j = k then v else tabGet t d j := by
  unfold tabPut
  split
  · subst_vars; exact tabGet_tabErase t v k j
  · exact tabGet_tabSet t d k j v

@[simp] theorem tabGet_tabMod_same (t : Tab α) (d : α) (k : Nat) (f : α → α) :
    tabGet (tabMod t d k f) d k = f (tabGet t d k) := tabGet_tabSet_same t d k _

theorem tabGet_tabMod_ne (t : Tab α) (d e : α) {k j : Nat} (f : α → α) (h : j ≠ k) :
    tabGet (tabMod t d k f) e j = tabGet t e j := tabGet_tabSet_ne t e _ h
end

-- Byte order

@[simp] theorem length_leBytes (n x : Nat) : (leBytes n x).length = n := by
  induction n generalizing x with
  | zero => rfl
  | succ n ih => simp [leBytes, ih]

theorem leNat_leBytes (n x : Nat) : leNat (leBytes n x) = x % 2 ^ (8 * n) := by
  induction n generalizing x with
  | zero => simp [leBytes, leNat, Nat.mod_one]
  | succ n ih =>
    simp only [leBytes, leNat, ih, BitVec.toNat_ofNat]
    rw [show 8 * (n + 1) = 8 + 8 * n by ring, pow_add, Nat.mod_mul]
    norm_num

theorem getElem_leBytes (n x i : Nat) (h : i < n) :
    (leBytes n x)[i]'(by simpa using h) = BitVec.ofNat 8 (x / 256 ^ i) := by
  induction n generalizing x i with
  | zero => omega
  | succ n ih =>
    cases i with
    | zero =>
      apply BitVec.eq_of_toNat_eq
      simp [leBytes]
    | succ i =>
      simp only [leBytes, List.getElem_cons_succ]
      rw [ih _ _ (by omega), Nat.div_div_eq_div_mul, pow_succ, mul_comm]

-- Memories

theorem memGet_memSet (m : Memory) (a b : Nat) (v : Byte) :
    memGet (memSet m a v) b = if b = a then v else memGet m b := tabGet_tabPut m 0 a b v

theorem memGet_memPut (m : Memory) (a : Nat) (bs : List Byte) (b : Nat) :
    memGet (memPut m a bs) b = if a ≤ b ∧ b < a + bs.length then bs.getD (b - a) 0 else memGet m b := by
  induction bs generalizing m a with
  | nil => rw [if_neg (by simp)]; rfl
  | cons x r ih =>
    rw [memPut, ih, memGet_memSet, List.length_cons]
    by_cases h : b = a
    · subst h; simp
    · by_cases h1 : a + 1 ≤ b ∧ b < a + 1 + r.length
      · rw [if_pos h1, if_pos (by omega), show b - a = (b - (a + 1)) + 1 by omega, List.getD_cons_succ]
      · rw [if_neg h1, if_neg h, if_neg (by omega)]

theorem memGet_memPut_out (m : Memory) (a : Nat) (bs : List Byte) (b : Nat) (h : b < a ∨ a + bs.length ≤ b) :
    memGet (memPut m a bs) b = memGet m b := by
  rw [memGet_memPut, if_neg (by omega)]

theorem memGet_memPutNat (m : Memory) (a n x b : Nat) :
    memGet (memPutNat m a n x) b =
      if a ≤ b ∧ b < a + n then BitVec.ofNat 8 (x / 256 ^ (b - a)) else memGet m b := by
  unfold memPutNat
  rw [memGet_memPut]
  simp only [length_leBytes]
  split
  · rw [List.getD_eq_getElem _ _ (by rw [length_leBytes]; omega), getElem_leBytes _ _ _ (by omega)]
  · rfl

@[simp] theorem length_memBytes (m : Memory) (a n : Nat) : (memBytes m a n).length = n := by simp [memBytes]

theorem memBytes_memPut_same (m : Memory) (a : Nat) (bs : List Byte) : memBytes (memPut m a bs) a bs.length = bs := by
  apply List.ext_getElem (by simp)
  intro i h1 h2
  simp only [memBytes, List.getElem_map, List.getElem_range]
  rw [memGet_memPut, if_pos (by omega), Nat.add_sub_cancel_left, List.getD_eq_getElem _ _ h2]

theorem memNat_memPutNat_same (m : Memory) (a n x : Nat) : memNat (memPutNat m a n x) a n = x % 2 ^ (8 * n) := by
  have h := memBytes_memPut_same m a (leBytes n x)
  rw [length_leBytes] at h
  rw [memNat, memPutNat, h, leNat_leBytes]

theorem memNat_congr {m k : Memory} {a n : Nat} (h : ∀ i < n, memGet m (a + i) = memGet k (a + i)) :
    memNat m a n = memNat k a n := by
  unfold memNat memBytes
  congr 1
  apply List.map_congr_left
  intro i hi
  exact h i (List.mem_range.mp hi)

-- The canonical form

theorem keysRise_mono {m : Memory} {lo hi : Nat} (h : keysRise hi m = true) (hl : lo ≤ hi) : keysRise lo m = true := by
  cases m with
  | nil => rfl
  | cons x r =>
    simp only [keysRise, Bool.and_eq_true, decide_eq_true_eq] at h ⊢
    exact ⟨⟨by omega, h.1.2⟩, h.2⟩

theorem keysRise_filter {m : Memory} {lo : Nat} (p : Host.Cell → Bool) (h : keysRise lo m = true) :
    keysRise lo (m.filter p) = true := by
  induction m generalizing lo with
  | nil => rfl
  | cons x r ih =>
    simp only [keysRise, Bool.and_eq_true, decide_eq_true_eq] at h
    rw [List.filter_cons]
    split
    · simp only [keysRise, Bool.and_eq_true, decide_eq_true_eq]
      exact ⟨h.1, ih h.2⟩
    · exact keysRise_mono (ih h.2) (by omega)

theorem keysRise_tabSet {m : Memory} {lo k : Nat} {v : Byte} (h : keysRise lo m = true) (hl : lo ≤ k) (hv : v ≠ 0) :
    keysRise lo (tabSet m k v) = true := by
  induction m generalizing lo with
  | nil =>
    simp only [tabSet, keysRise, Bool.and_true, Bool.and_eq_true, decide_eq_true_eq]
    exact ⟨hl, by simpa using hv⟩
  | cons x r ih =>
    obtain ⟨j, u⟩ := x
    simp only [keysRise, Bool.and_eq_true, decide_eq_true_eq] at h
    simp only [tabSet]
    split
    · simp only [keysRise, Bool.and_eq_true, decide_eq_true_eq]
      exact ⟨⟨hl, by simpa using hv⟩, ⟨by omega, h.1.2⟩, h.2⟩
    · split
      · subst_vars
        simp only [keysRise, Bool.and_eq_true, decide_eq_true_eq]
        exact ⟨⟨hl, by simpa using hv⟩, h.2⟩
      · simp only [keysRise, Bool.and_eq_true, decide_eq_true_eq]
        exact ⟨h.1, ih h.2 (by omega)⟩

/-- A write of one byte keeps the canonical form. -/
theorem Memory.wf_memSet {m : Memory} (h : m.wf = true) (a : Nat) (v : Byte) : (memSet m a v).wf = true := by
  unfold memSet tabPut
  split
  · exact keysRise_filter _ h
  · exact keysRise_tabSet h (Nat.zero_le _) ‹_›

/-- A write of bytes keeps the canonical form. -/
theorem Memory.wf_memPut {m : Memory} (h : m.wf = true) (a : Nat) (bs : List Byte) : (memPut m a bs).wf = true := by
  induction bs generalizing m a with
  | nil => exact h
  | cons x r ih => exact ih (Memory.wf_memSet h a x) _

theorem Memory.wf_memPutNat {m : Memory} (h : m.wf = true) (a n x : Nat) : (memPutNat m a n x).wf = true :=
  Memory.wf_memPut h a _

/-- Dropping entries keeps the canonical form. -/
theorem Memory.wf_filter {m : Memory} (h : m.wf = true) (p : Host.Cell → Bool) :
    Memory.wf (m.filter p) = true := keysRise_filter p h

theorem Memory.wf_nil : Memory.wf ([] : Memory) = true := rfl

end Sys2Proof.Machine
end

