-- ==== Sys2Proof/Laws/Lines.lean ====
section
/-! SUPPORT. The bytes of a 64-byte line: masks, merging, and the pieces of an access. -/
namespace Sys2Proof.Machine
open Sys2Proof

-- Bits from predicates

theorem natOfBools_lt (l : List Bool) : natOfBools l < 2 ^ l.length := by
  induction l with
  | nil => simp [natOfBools]
  | cons b r ih => simp only [natOfBools, List.length_cons, pow_succ]; split <;> omega

theorem testBit_natOfBools (l : List Bool) (i : Nat) : (natOfBools l).testBit i = l.getD i false := by
  induction l generalizing i with
  | nil => simp [natOfBools]
  | cons b r ih =>
    cases i with
    | zero => cases b <;> simp [natOfBools, Nat.testBit_zero, Nat.add_mod]
    | succ i =>
      rw [List.getD_cons_succ, ← ih, natOfBools, Nat.testBit_succ]
      congr 1; split <;> omega

@[simp] theorem getLsbD_ofBits (n : Nat) (f : Nat → Bool) (i : Nat) : (ofBits n f).getLsbD i = (decide (i < n) && f i) := by
  unfold ofBits
  rw [BitVec.getLsbD_ofNat, testBit_natOfBools]
  by_cases h : i < n <;> simp [h]

theorem and_ofBits_eq (n : Nat) (m : BitVec n) (f : Nat → Bool) :
    ((m &&& ofBits n f == ofBits n f) = true) ↔ ∀ i < n, f i = true → m.getLsbD i = true := by
  rw [beq_iff_eq]
  constructor
  · intro h i hi hf
    have := congrArg (fun x => BitVec.getLsbD x i) h
    simpa [hi, hf] using this
  · intro h
    apply BitVec.eq_of_getLsbD_eq
    intro i hi
    simp only [BitVec.getLsbD_and, getLsbD_ofBits, hi, decide_true, Bool.true_and]
    cases hf : f i
    · simp
    · simp [h i hi hf]

-- Lines

theorem testBit_foldr_bytes (f : Nat → Bool) (l : List Nat) (j : Nat) :
    (l.foldr (fun i n => n * 256 + (if f i then 255 else 0)) 0).testBit j =
      match l[j / 8]? with
      | some i => f i
      | none => false := by
  induction l generalizing j with
  | nil => simp
  | cons x r ih =>
    simp only [List.foldr_cons]
    by_cases h : j < 8
    · rw [Nat.div_eq_of_lt h]
      simp only [List.getElem?_cons_zero]
      rw [show ∀ n, n * 256 + (if f x then 255 else 0) = 2 ^ 8 * n + (if f x then 255 else 0) by intro n; ring]
      rw [Nat.testBit_two_pow_mul_add _ (by split <;> norm_num)]
      simp only [h, if_true]
      split
      · rename_i hf
        rw [hf]
        interval_cases j <;> rfl
      · rename_i hf
        simp at hf; simp [hf]
    · rw [show j / 8 = (j - 8) / 8 + 1 by omega]
      simp only [List.getElem?_cons_succ, ← ih]
      rw [show ∀ n, n * 256 + (if f x then 255 else 0) = 2 ^ 8 * n + (if f x then 255 else 0) by intro n; ring]
      rw [Nat.testBit_two_pow_mul_add _ (by split <;> norm_num)]
      simp [h]

theorem getLsbD_spreadMask (m : W64) (j : Nat) (h : j < 512) : (spreadMask m).getLsbD j = m.getLsbD (j / 8) := by
  unfold spreadMask
  rw [BitVec.getLsbD_ofNat, testBit_foldr_bytes]
  have : j / 8 < 64 := by omega
  simp [h, this]

theorem byte_mergeLine (old d : BitVec 512) (m : W64) (i : Nat) (h : i < 64) :
    (mergeLine old d m).extractLsb' (8 * i) 8 =
      if m.getLsbD i then d.extractLsb' (8 * i) 8 else old.extractLsb' (8 * i) 8 := by
  apply BitVec.eq_of_getLsbD_eq
  intro j hj
  have h1 : 8 * i + j < 512 := by omega
  have h2 : (8 * i + j) / 8 = i := by omega
  simp only [mergeLine, BitVec.getLsbD_extractLsb', hj, decide_true, Bool.true_and, BitVec.getLsbD_or, BitVec.getLsbD_and,
    BitVec.getLsbD_not, h1, getLsbD_spreadMask _ _ h1, h2]
  cases hm : m.getLsbD i <;> simp [BitVec.getLsbD_extractLsb', hj]

theorem leNat_byte (bs : List Byte) (i : Nat) : leNat bs / 2 ^ (8 * i) % 256 = (bs.getD i 0).toNat := by
  induction bs generalizing i with
  | nil => simp [leNat]
  | cons b r ih =>
    have hb : b.toNat < 256 := b.isLt
    cases i with
    | zero => simp [leNat]; omega
    | succ i =>
      rw [List.getD_cons_succ, ← ih, leNat, show 8 * (i + 1) = 8 + 8 * i by ring, pow_add, ← Nat.div_div_eq_div_mul]
      congr 2; norm_num; omega

theorem extract_byte (n x i : Nat) (h : 8 * i + 8 ≤ n) :
    (BitVec.ofNat n x).extractLsb' (8 * i) 8 = BitVec.ofNat 8 (x / 2 ^ (8 * i)) := by
  apply BitVec.eq_of_getLsbD_eq
  intro j hj
  have h1 : 8 * i + j < n := by omega
  rw [BitVec.getLsbD_extractLsb', BitVec.getLsbD_ofNat, BitVec.getLsbD_ofNat, Nat.testBit_div_two_pow]
  rw [decide_eq_true h1, decide_eq_true hj, Bool.true_and, Bool.true_and, Bool.true_and, Nat.add_comm]

theorem byte_linePiece (pa l : Nat) (bs : List Byte) (i : Nat) (h : i < 64) :
    (linePiece pa l bs).1.extractLsb' (8 * i) 8 =
      (if 64 * l + i < pa then 0 else bs.getD (64 * l + i - pa) 0) := by
  unfold linePiece
  simp only
  rw [extract_byte _ _ _ (by omega)]
  apply BitVec.eq_of_toNat_eq
  rw [BitVec.toNat_ofNat, show (2:Nat) ^ 8 = 256 by rfl, leNat_byte]
  simp only [List.getD_eq_getElem?_getD, List.getElem?_map, List.getElem?_range, h, if_true, Option.map_some]
  simp only [Option.getD_some]
  split <;> simp

theorem mask_linePiece (pa l : Nat) (bs : List Byte) (i : Nat) (h : i < 64) :
    (linePiece pa l bs).2.getLsbD i = decide (pa ≤ 64 * l + i ∧ 64 * l + i < pa + bs.length) := by
  unfold linePiece
  simp only [getLsbD_ofBits, h, decide_true, Bool.true_and]
  by_cases h1 : 64 * l + i < pa
  · rw [if_pos h1]; simp only [Option.isSome_none]; symm; rw [decide_eq_false_iff_not]; omega
  · by_cases h2 : 64 * l + i - pa < bs.length
    · rw [if_neg h1, List.getElem?_eq_getElem h2]; simp only [Option.isSome_some]; symm; rw [decide_eq_true_eq]; omega
    · rw [if_neg h1, List.getElem?_eq_none (by omega)]; simp only [Option.isSome_none]; symm; rw [decide_eq_false_iff_not]; omega

theorem paLines_one (pa n : Nat) (h : pa % 64 + n ≤ 64) (hn : 1 ≤ n) : paLines pa n = [pa / 64] := by
  unfold paLines
  rw [show (pa % 64 + n + 63) / 64 = 1 by omega]
  simp [List.range_succ]

end Sys2Proof.Machine
end

