-- ==== Sys2Proof/Laws/PerInstr.lean ====
section
/-! SUPPORT. The round trip of encoding and decoding, one lemma for each constructor of Instr. -/
set_option Elab.async false
namespace Sys2Proof.Laws.RoundTrip
open Sys2Proof Sys2Proof.Machine

/-- Decoding the encoding of a well-formed instruction that has one gives it back. -/
def Statement (i : Instr) : Prop := i.wf = true → encode i ≠ .none → decodeEnc (encode i) = some i

-- Fields that are joined of parts

theorem bits_cas (c : BitVec 5) (w : Bool) : bits (n := 8) (c ++ (0#2 : BitVec 2) ++ flag1 w) 3 5 = c := by
  show bits (n := 5 + 2 + 1) (c ++ 0#2 ++ flag1 w) 3 5 = _
  simp (disch := decide) only [bits_append_high]
  exact bits_self _

theorem bits_m2 (m : BitVec 2) : bits (n := 10) (m ++ (0#8 : BitVec 8)) 8 2 = m := by
  show bits (n := 2 + 8) (m ++ 0#8) 8 2 = _
  simp (disch := decide) only [bits_append_high]
  exact bits_self _

theorem bits_range_lo (a : BitVec 6) (b : BitVec 4) : bits (n := 10) (a ++ b) 4 6 = a := by
  show bits (n := 6 + 4) (a ++ b) 4 6 = _
  simp (disch := decide) only [bits_append_high]
  exact bits_self _

theorem bits_range_len (a : BitVec 6) (b : BitVec 4) : bits (n := 10) (a ++ b) 0 4 = b := by
  show bits (n := 6 + 4) (a ++ b) 0 4 = _
  rw [bits_append_low _ _ _ _ (by decide), bits_self]

theorem bits_latch_q (k q : BitVec 2) : bits (n := 34) ((k ++ q : BitVec 4) ++ (0#30 : BitVec 30)) 30 2 = q := by
  show bits (n := 2 + 2 + 30) (k ++ q ++ 0#30) 30 2 = _
  simp (disch := decide) only [bits_append_high, bits_append_low]
  exact bits_self _

theorem bitsN_latch_dst (k q : BitVec 2) : bitsN (n := 34) ((k ++ q : BitVec 4) ++ (0#30 : BitVec 30)) 32 2 = k.toNat := by
  show (bits (n := 2 + 2 + 30) (k ++ q ++ 0#30) 32 2).toNat = _
  simp (disch := decide) only [bits_append_high]
  exact congrArg _ (bits_self _)

theorem bits_auto_q (k q : BitVec 2) (n : BitVec 24) :
    bits (n := 34) ((k ++ q : BitVec 4) ++ (0#6 : BitVec 6) ++ n) 30 2 = q := by
  show bits (n := 2 + 2 + 6 + 24) (k ++ q ++ 0#6 ++ n) 30 2 = _
  simp (disch := decide) only [bits_append_high, bits_append_low]
  exact bits_self _

theorem bitsN_auto_dst (k q : BitVec 2) (n : BitVec 24) :
    bitsN (n := 34) ((k ++ q : BitVec 4) ++ (0#6 : BitVec 6) ++ n) 32 2 = k.toNat := by
  show (bits (n := 2 + 2 + 6 + 24) (k ++ q ++ 0#6 ++ n) 32 2).toNat = _
  simp (disch := decide) only [bits_append_high]
  exact congrArg _ (bits_self _)

theorem bitsN_auto_port (n : BitVec 24) :
    bitsN (n := 34) ((0 : BitVec 4) ++ (0#6 : BitVec 6) ++ n) 32 2 = 0 := by
  show (bits (n := 4 + 6 + 24) ((0 : BitVec 4) ++ 0#6 ++ n) 32 2).toNat = _
  simp (disch := decide) only [bits_append_high]
  rfl

theorem bits_auto_n (x : BitVec 4) (n : BitVec 24) :
    bits (n := 34) (x ++ (0#6 : BitVec 6) ++ n) 0 24 = n := by
  show bits (n := 4 + 6 + 24) (x ++ 0#6 ++ n) 0 24 = _
  rw [bits_append_low _ _ _ _ (by decide), bits_self]

theorem bits_set_f (f : BitVec 4) (x : BitVec 29) :
    bits (n := 34) (f ++ (0#1 : BitVec 1) ++ x) 30 4 = f := by
  show bits (n := 4 + 1 + 29) (f ++ 0#1 ++ x) 30 4 = _
  simp (disch := decide) only [bits_append_high]
  exact bits_self _

theorem bits_set_v (f : BitVec 4) (x : BitVec 29) :
    bits (n := 34) (f ++ (0#1 : BitVec 1) ++ x) 0 29 = x := by
  show bits (n := 4 + 1 + 29) (f ++ 0#1 ++ x) 0 29 = _
  rw [bits_append_low _ _ _ _ (by decide), bits_self]

theorem bitB_set_xe (f : BitVec 4) (x : BitVec 29) :
    bitB (n := 34) (f ++ (0#1 : BitVec 1) ++ x) 29 = false := by
  show bitB (n := 4 + 1 + 29) (f ++ 0#1 ++ x) 29 = _
  rw [bitB_append_high _ _ _ (by decide), bitB_append_low _ _ _ (by decide)]; rfl

theorem bits_setl_f (f : BitVec 4) :
    bits (n := 34) (f ++ (1#1 : BitVec 1) ++ (0#29 : BitVec 29)) 30 4 = f := by
  show bits (n := 4 + 1 + 29) (f ++ 1#1 ++ 0#29) 30 4 = _
  simp (disch := decide) only [bits_append_high]
  exact bits_self _

theorem bitB_setl_xe (f : BitVec 4) :
    bitB (n := 34) (f ++ (1#1 : BitVec 1) ++ (0#29 : BitVec 29)) 29 = true := by
  show bitB (n := 4 + 1 + 29) (f ++ 1#1 ++ 0#29) 29 = _
  rw [bitB_append_high _ _ _ (by decide), bitB_append_low _ _ _ (by decide)]; rfl

theorem bitsN_acc_ty (t r : BitVec 3) : bitsN (n := 34) (t ++ r ++ (0#28 : BitVec 28)) 31 3 = t.toNat := by
  show (bits (n := 3 + 3 + 28) (t ++ r ++ 0#28) 31 3).toNat = _
  simp (disch := decide) only [bits_append_high]
  exact congrArg _ (bits_self _)

theorem bitsN_acc_rm (t r : BitVec 3) : bitsN (n := 34) (t ++ r ++ (0#28 : BitVec 28)) 28 3 = r.toNat := by
  show (bits (n := 3 + 3 + 28) (t ++ r ++ 0#28) 28 3).toNat = _
  simp (disch := decide) only [bits_append_high, bits_append_low]
  exact congrArg _ (bits_self _)

theorem bits_red_er (er : BitVec 2) (op : BitVec 3) (t : BitVec 2) :
    bits (n := 34) (er ++ op ++ t ++ (0#27 : BitVec 27)) 32 2 = er := by
  show bits (n := 2 + 3 + 2 + 27) (er ++ op ++ t ++ 0#27) 32 2 = _
  simp (disch := decide) only [bits_append_high]
  exact bits_self _

theorem bitsN_red_op (er : BitVec 2) (op : BitVec 3) (t : BitVec 2) :
    bitsN (n := 34) (er ++ op ++ t ++ (0#27 : BitVec 27)) 29 3 = op.toNat := by
  show (bits (n := 2 + 3 + 2 + 27) (er ++ op ++ t ++ 0#27) 29 3).toNat = _
  simp (disch := decide) only [bits_append_high, bits_append_low]
  exact congrArg _ (bits_self _)

theorem bitsN_red_ty (er : BitVec 2) (op : BitVec 3) (t : BitVec 2) :
    bitsN (n := 34) (er ++ op ++ t ++ (0#27 : BitVec 27)) 27 2 = t.toNat := by
  show (bits (n := 2 + 3 + 2 + 27) (er ++ op ++ t ++ 0#27) 27 2).toNat = _
  simp (disch := decide) only [bits_append_high, bits_append_low]
  exact congrArg _ (bits_self _)

section
variable (h : BitVec 7)

theorem bits_land (sl sa sd : BitVec 5) (n : BitVec 6) (d : BitVec 13) :
    bits (n := 34) (sl ++ sa ++ sd ++ n ++ d) 29 5 = sl ∧ bits (n := 34) (sl ++ sa ++ sd ++ n ++ d) 24 5 = sa ∧
    bits (n := 34) (sl ++ sa ++ sd ++ n ++ d) 19 5 = sd ∧ bits (n := 34) (sl ++ sa ++ sd ++ n ++ d) 13 6 = n ∧
    bits (n := 34) (sl ++ sa ++ sd ++ n ++ d) 0 13 = d := by
  refine ⟨?_, ?_, ?_, ?_, ?_⟩
  · show bits (n := 5 + 5 + 5 + 6 + 13) (sl ++ sa ++ sd ++ n ++ d) 29 5 = _
    simp (disch := decide) only [bits_append_high]; exact bits_self _
  · show bits (n := 5 + 5 + 5 + 6 + 13) (sl ++ sa ++ sd ++ n ++ d) 24 5 = _
    simp (disch := decide) only [bits_append_high, bits_append_low]; exact bits_self _
  · show bits (n := 5 + 5 + 5 + 6 + 13) (sl ++ sa ++ sd ++ n ++ d) 19 5 = _
    simp (disch := decide) only [bits_append_high, bits_append_low]; exact bits_self _
  · show bits (n := 5 + 5 + 5 + 6 + 13) (sl ++ sa ++ sd ++ n ++ d) 13 6 = _
    simp (disch := decide) only [bits_append_high, bits_append_low]; exact bits_self _
  · show bits (n := 5 + 5 + 5 + 6 + 13) (sl ++ sa ++ sd ++ n ++ d) 0 13 = _
    simp (disch := decide) only [bits_append_low]; exact bits_self _

theorem bits_expect_reg (a : BitVec 5) :
    bits (n := 34) (h ++ (1#1 : BitVec 1) ++ (0#21 : BitVec 21) ++ a) 27 7 = h ∧
    bitB (n := 34) (h ++ (1#1 : BitVec 1) ++ (0#21 : BitVec 21) ++ a) 26 = true ∧
    bits (n := 34) (h ++ (1#1 : BitVec 1) ++ (0#21 : BitVec 21) ++ a) 0 5 = a := by
  refine ⟨?_, ?_, ?_⟩
  · show bits (n := 7 + 1 + 21 + 5) (h ++ 1#1 ++ 0#21 ++ a) 27 7 = _
    simp (disch := decide) only [bits_append_high]; exact bits_self _
  · show bitB (n := 7 + 1 + 21 + 5) (h ++ 1#1 ++ 0#21 ++ a) 26 = _
    simp (disch := decide) only [bitB_append_high, bitB_append_low]; rfl
  · show bits (n := 7 + 1 + 21 + 5) (h ++ 1#1 ++ 0#21 ++ a) 0 5 = _
    simp (disch := decide) only [bits_append_low]; exact bits_self _

theorem bits_expect_imm (n : BitVec 26) :
    bits (n := 34) (h ++ (0#1 : BitVec 1) ++ n) 27 7 = h ∧
    bitB (n := 34) (h ++ (0#1 : BitVec 1) ++ n) 26 = false ∧
    bits (n := 34) (h ++ (0#1 : BitVec 1) ++ n) 0 26 = n := by
  refine ⟨?_, ?_, ?_⟩
  · show bits (n := 7 + 1 + 26) (h ++ 0#1 ++ n) 27 7 = _
    simp (disch := decide) only [bits_append_high]; exact bits_self _
  · show bitB (n := 7 + 1 + 26) (h ++ 0#1 ++ n) 26 = _
    simp (disch := decide) only [bitB_append_high, bitB_append_low]; rfl
  · show bits (n := 7 + 1 + 26) (h ++ 0#1 ++ n) 0 26 = _
    simp (disch := decide) only [bits_append_low]; exact bits_self _

theorem bits_wait (p : Bool) : bits (n := 34) (h ++ flag1 p ++ (0#26 : BitVec 26)) 27 7 = h ∧
    bitB (n := 34) (h ++ flag1 p ++ (0#26 : BitVec 26)) 26 = p := by
  refine ⟨?_, ?_⟩
  · show bits (n := 7 + 1 + 26) (h ++ flag1 p ++ 0#26) 27 7 = _
    simp (disch := decide) only [bits_append_high]; exact bits_self _
  · show bitB (n := 7 + 1 + 26) (h ++ flag1 p ++ 0#26) 26 = _
    simp (disch := decide) only [bitB_append_high, bitB_append_low]; exact bitB_flag1 p

theorem bits_handle : bits (n := 34) (h ++ (0#27 : BitVec 27)) 27 7 = h := by
  show bits (n := 7 + 27) (h ++ 0#27) 27 7 = _
  simp (disch := decide) only [bits_append_high]; exact bits_self _

theorem bits_claim (f : BitVec 6) (n : BitVec 7) :
    bits (n := 34) (h ++ f ++ n ++ (0#14 : BitVec 14)) 27 7 = h ∧
    bits (n := 34) (h ++ f ++ n ++ (0#14 : BitVec 14)) 21 6 = f ∧
    bits (n := 34) (h ++ f ++ n ++ (0#14 : BitVec 14)) 14 7 = n := by
  refine ⟨?_, ?_, ?_⟩
  · show bits (n := 7 + 6 + 7 + 14) (h ++ f ++ n ++ 0#14) 27 7 = _
    simp (disch := decide) only [bits_append_high]; exact bits_self _
  · show bits (n := 7 + 6 + 7 + 14) (h ++ f ++ n ++ 0#14) 21 6 = _
    simp (disch := decide) only [bits_append_high, bits_append_low]; exact bits_self _
  · show bits (n := 7 + 6 + 7 + 14) (h ++ f ++ n ++ 0#14) 14 7 = _
    simp (disch := decide) only [bits_append_high, bits_append_low]; exact bits_self _

theorem bits_pfc (sa : BitVec 5) (rc : BitVec 8) (n : BitVec 6) :
    bits (n := 34) (sa ++ rc ++ n ++ (0#15 : BitVec 15)) 29 5 = sa ∧
    bits (n := 34) (sa ++ rc ++ n ++ (0#15 : BitVec 15)) 21 8 = rc ∧
    bits (n := 34) (sa ++ rc ++ n ++ (0#15 : BitVec 15)) 15 6 = n := by
  refine ⟨?_, ?_, ?_⟩
  · show bits (n := 5 + 8 + 6 + 15) (sa ++ rc ++ n ++ 0#15) 29 5 = _
    simp (disch := decide) only [bits_append_high]; exact bits_self _
  · show bits (n := 5 + 8 + 6 + 15) (sa ++ rc ++ n ++ 0#15) 21 8 = _
    simp (disch := decide) only [bits_append_high, bits_append_low]; exact bits_self _
  · show bits (n := 5 + 8 + 6 + 15) (sa ++ rc ++ n ++ 0#15) 15 6 = _
    simp (disch := decide) only [bits_append_high, bits_append_low]; exact bits_self _
end

theorem bits_owner (o : Byte) (r : BitVec 14) : bits (n := 32) (o ++ (0#10 : BitVec 10) ++ r) 0 14 = r ∧
    bits (n := 32) (o ++ (0#10 : BitVec 10) ++ r) 24 8 = o := by
  refine ⟨?_, ?_⟩
  · show bits (n := 8 + 10 + 14) (o ++ 0#10 ++ r) 0 14 = _
    simp (disch := decide) only [bits_append_low]; exact bits_self _
  · show bits (n := 8 + 10 + 14) (o ++ 0#10 ++ r) 24 8 = _
    simp (disch := decide) only [bits_append_high]; exact bits_self _

theorem bits_copy_row (rc : Byte) (rows : BitVec 16) : bits ((rc ++ rows).setWidth 32) 0 16 = rows ∧
    bits ((rc ++ rows).setWidth 32) 16 8 = rc := by
  refine ⟨?_, ?_⟩ <;> rw [bits_setWidth _ _ _ (by decide)]
  · rw [bits_append_low _ _ _ _ (by decide), bits_self]
  · rw [bits_append_high _ _ _ _ (by decide), bits_self]

theorem pair64_words2 (v : BitVec 64) (ws r : List (BitVec 32)) (i : Nat) (h : ws.drop i = words2 v ++ r) :
    pair64 ws i = v := by
  have h0 : ws.getD i 0 = bits v 0 32 := by
    have : (ws.drop i)[0]? = some (bits v 0 32) := by rw [h]; rfl
    rw [List.getElem?_drop] at this
    simpa [List.getD] using congrArg (Option.getD · 0) this
  have h1 : ws.getD (i + 1) 0 = bits v 32 32 := by
    have : (ws.drop i)[1]? = some (bits v 32 32) := by rw [h]; rfl
    rw [List.getElem?_drop] at this
    simpa [List.getD] using congrArg (Option.getD · 0) this
  unfold pair64
  rw [h0, h1]; exact bits_halves v

theorem flags_word (a b : Bool) : bitB (flag9 a 0) 0 = a ∧ bitB (flag9 a 1) 1 = a ∧ bitB (flag9 a 1) 0 = false ∧
    bitB (1 ||| flag9 a 1) 0 = true ∧ bitB (1 ||| flag9 a 1) 1 = a ∧ bitB (0 : BitVec 9) 0 = false ∧
    bitB (flag9 b 0) 0 = b := by cases a <;> cases b <;> decide

theorem pred_flags (cc : BitVec 3) (sg : Bool) : bits (cc.setWidth 9 ||| flag9 sg 3) 0 3 = cc ∧
    bitB (cc.setWidth 9 ||| flag9 sg 3) 3 = sg := by
  revert cc; cases sg <;> decide

theorem pred_mask (cc : BitVec 3) (sg : Bool) :
    (cc.setWidth 9 ||| flag9 sg 3) &&& ~~~(0xF : BitVec 9) = 0 := by
  revert cc; cases sg <;> decide

theorem bitB_flag8_0 (v : Bool) : bitB (flag8 v 0) 0 = v := by cases v <;> rfl

theorem bitB_flag8_or (v : Bool) : bitB (flag8 v 0 ||| 2) 0 = v ∧ bitB (flag8 v 0 ||| 2) 1 = true ∧
    bitB (flag8 v 0) 1 = false := by cases v <;> decide

theorem bitB_flag8_pair (u v : Bool) : bitB (flag8 u 0 ||| flag8 v 1) 0 = u ∧
    bitB (flag8 u 0 ||| flag8 v 1) 1 = v := by cases u <;> cases v <;> decide

theorem bitB_size_flag (z : MemSize) (v : Bool) : bitB (sizeCode z ||| flag8 v 2) 2 = v := by
  cases z <;> cases v <;> decide

theorem bitsN_size_flag (z : MemSize) (v : Bool) : sizeOf2 (bitsN (sizeCode z ||| flag8 v 2) 0 2) = z ∧
    sizeOf2 (bitsN (sizeCode z) 0 2) = z := by
  cases z <;> cases v <;> decide

theorem bitB_cas (c : BitVec 5) (w : Bool) : bitB (n := 8) (c ++ (0#2 : BitVec 2) ++ flag1 w) 0 = w := by
  show bitB (n := 5 + 2 + 1) (c ++ 0#2 ++ flag1 w) 0 = _
  rw [bitB_append_low _ _ _ (by decide)]; exact bitB_flag1 w

theorem sImmOf_short (v : BitVec 32) (e : BitVec 40) : sImmOf (bitB (0 : BitVec 1) 0) v e = .short v := rfl

theorem sImmOf_long (v : BitVec 64) :
    sImmOf (bitB (1 : BitVec 1) 0) (bits v 0 32) ((bits v 32 32).setWidth 40) = .long v := by
  show SImm.long _ = _
  rw [bits_setWidth_self _ (by decide), bits_halves]

-- One lemma per constructor

theorem bhctlChunk (c : BitVec 5) : Statement (.bhctlChunk c) :=
  fun _ h => absurd rfl h

theorem powerupSelfTestDone (pass : Bool) : Statement (.powerupSelfTestDone pass) :=
  fun _ h => absurd rfl h

theorem partitionCreate (size : BitVec 3) : Statement (.partitionCreate size) :=
  fun _ h => absurd rfl h

theorem wincfgWrite (w : BitVec 6) (v : BitVec 32) : Statement (.wincfgWrite w v) :=
  fun _ h => absurd rfl h

theorem attestationReportRequest (pkg : Bool) (nonce : BitVec 256) : Statement (.attestationReportRequest pkg nonce)
    :=
  fun _ h => absurd rfl h

theorem portcfgModeChange (mode : Bool) : Statement (.portcfgModeChange mode) :=
  fun _ h => absurd rfl h

theorem vfmapWrite (v : BitVec 9) (w : BitVec 32) : Statement (.vfmapWrite v w) :=
  fun _ h => absurd rfl h

theorem fnaddrWrite (f : BitVec 10) (word : BitVec 4) (v : BitVec 32) : Statement (.fnaddrWrite f word v) :=
  fun _ h => absurd rfl h

theorem portpartWrite (v : BitVec 32) : Statement (.portpartWrite v) :=
  fun _ h => absurd rfl h

theorem pfcFrameReceive (enable : BitVec 8) (quanta : BitVec 128) : Statement (.pfcFrameReceive enable quanta) :=
  fun _ h => absurd rfl h

theorem pfcPauseExpiry (prio : BitVec 3) : Statement (.pfcPauseExpiry prio) :=
  fun _ h => absurd rfl h

theorem ptpMessageReceive (domain : BitVec 8) : Statement (.ptpMessageReceive domain) :=
  fun _ h => absurd rfl h

theorem timestepWrite (v : BitVec 32) : Statement (.timestepWrite v) :=
  fun _ h => absurd rfl h

theorem linkTrainingComplete (fabid : BitVec 16) (rtt : BitVec 8) : Statement (.linkTrainingComplete fabid rtt) :=
  fun _ h => absurd rfl h

theorem keyLoad (slot : BitVec 8) : Statement (.keyLoad slot) :=
  fun _ h => absurd rfl h

theorem keyRevoke (slot : BitVec 8) : Statement (.keyRevoke slot) :=
  fun _ h => absurd rfl h

theorem revocationApplied (slot : BitVec 8) : Statement (.revocationApplied slot) :=
  fun _ h => absurd rfl h

theorem rekeyStart (region : BitVec 14) (newSlot : BitVec 8) : Statement (.rekeyStart region newSlot) :=
  fun _ h => absurd rfl h

theorem rekeyChunk (chunk : BitVec 12) : Statement (.rekeyChunk chunk) :=
  fun _ h => absurd rfl h

theorem keyctlBadCommand (cmd : BitVec 3) : Statement (.keyctlBadCommand cmd) :=
  fun _ h => absurd rfl h

theorem granuleAssign (gran : BitVec 14) (domain : BitVec 12) : Statement (.granuleAssign gran domain) :=
  fun _ h => absurd rfl h

theorem granuleFree (gran : BitVec 14) : Statement (.granuleFree gran) :=
  fun _ h => absurd rfl h

theorem copyLineWrite (id : CopyId) : Statement (.copyLineWrite id) :=
  fun _ h => absurd rfl h

theorem copyComplete (id : CopyId) : Statement (.copyComplete id) :=
  fun _ h => absurd rfl h

theorem collectiveComplete (idx : BitVec 16) : Statement (.collectiveComplete idx) :=
  fun _ h => absurd rfl h

theorem regionDescriptorWrite (num : BitVec 14) : Statement (.regionDescriptorWrite num) :=
  fun _ h => absurd rfl h

theorem regionDescriptorClear (num : BitVec 14) : Statement (.regionDescriptorClear num) :=
  fun _ h => absurd rfl h

theorem regionDescriptorConvert (num : BitVec 14) : Statement (.regionDescriptorConvert num) :=
  fun _ h => absurd rfl h

theorem rdbaseWrite (v : BitVec 32) : Statement (.rdbaseWrite v) :=
  fun _ h => absurd rfl h

theorem registerWrite (off : BitVec 32) (v : BitVec 32) : Statement (.registerWrite off v) :=
  fun _ h => absurd rfl h

theorem pktNop (pr : Bool) (len : BitVec 14) : Statement (.pktNop pr len) :=
  by
    intro h _
    have hl : len.toNat ≠ 0 := by
      intro h0
      have : len = 0 := BitVec.eq_of_toNat_eq h0
      subst this; cases pr <;> exact absurd h (by decide)
    have hb := len.isLt
    refine roundTripPkt rfl rfl rfl rfl rfl rfl rfl rfl (by rw [bitsN_pktHeader_op]; decide)
      (by rw [bitsN_pktHeader_len, List.length_replicate]; omega) ?_ ?_ h
    · unfold headerOk
      simp (disch := decide) only [bitsN_pktHeader_op, bitsN_pktHeader_len, bits_pktHeader_flags, bits_self,
        List.length_replicate, Nat.mod_eq_of_lt hb]
      show (decide (1 ≤ len.toNat) && decide (len.toNat ≤ len.toNat - 1 + 1) && _) = true
      simp only [Bool.and_eq_true, decide_eq_true_eq]
      exact ⟨⟨by omega, by omega⟩, rfl⟩
    · unfold candPkt
      dsimp only
      rw [List.getD_cons_zero, bitsN_pktHeader_op]
      show some (Instr.pktNop _ _) = _
      rw [Option.some.injEq, Instr.pktNop.injEq]
      refine ⟨bitB_pktHeader_p _ _ _ _, (bits_pktHeader_len _ _ _ _).trans ?_⟩
      exact BitVec.eq_of_toNat_eq (by rw [BitVec.toNat_ofNat]; exact Nat.mod_eq_of_lt hb)

theorem pktWrite (pr : Bool) (addr : BitVec 64) (data : List (BitVec 32)) : Statement (.pktWrite pr addr data) :=
  by
    intro h _
    have hl : 1 ≤ data.length ∧ data.length ≤ 16380 := by
      have h := (Bool.and_eq_true _ _ ▸ (Bool.and_eq_true _ _ ▸ h).1).2
      have h : (decide (1 ≤ data.length) && decide (data.length ≤ 16380) && addr.toNat % 4 == 0) = true := h
      simp only [Bool.and_eq_true, decide_eq_true_eq] at h
      exact h.1
    refine roundTripPkt rfl rfl rfl rfl rfl rfl rfl rfl (by rw [bitsN_pktHeader_op]; decide)
      (by rw [bitsN_pktHeader_len]; show _ = data.length + 2 + 1; omega) ?_ ?_ h
    · unfold headerOk
      simp (disch := decide) only [bitsN_pktHeader_op, bitsN_pktHeader_len, bits_pktHeader_flags, bits_self]
      show (decide (4 ≤ (3 + data.length) % 2 ^ 14) && decide ((3 + data.length) % 2 ^ 14 ≤ data.length + 2 + 1) && _)
        = true
      simp only [Bool.and_eq_true, decide_eq_true_eq]
      exact ⟨⟨by omega, by omega⟩, rfl⟩
    · unfold candPkt
      dsimp only
      rw [List.getD_cons_zero, bitsN_pktHeader_op]
      show some (Instr.pktWrite _ _ _) = _
      rw [Option.some.injEq, Instr.pktWrite.injEq]
      exact ⟨bitB_pktHeader_p _ _ _ _, bits_halves _, rfl⟩

theorem pktCopy (pr : Bool) (sem : Bool) (src : BitVec 64) (dst : BitVec 64) (rowBytes : BitVec 24) (rows : BitVec
    16) (rc : BitVec 8) (spitch : BitVec 32) (dpitch : BitVec 32) (name : BitVec 16) (add : BitVec 64) : Statement
    (.pktCopy pr sem src dst rowBytes rows rc spitch dpitch name add) :=
  by
    exact fun h _ => roundTripPkt rfl rfl rfl rfl rfl rfl rfl rfl (by rw [bitsN_pktHeader_op]; decide)
      (by rw [bitsN_pktHeader_len]; rfl) (by
        unfold headerOk
        simp (disch := decide) only [bitsN_pktHeader_op, bitsN_pktHeader_len, bits_pktHeader_flags, bits_self]
        cases sem <;> rfl)
      (by
        unfold candPkt
        dsimp only
        rw [List.getD_cons_zero, bitsN_pktHeader_op]
        show some (Instr.pktCopy _ _ _ _ _ _ _ _ _ _ _) = _
        rw [Option.some.injEq, Instr.pktCopy.injEq]
        exact ⟨bitB_pktHeader_p _ _ _ _,
          (bitB_pktHeader_flags _ _ _ _ 0 (by decide)).trans (by cases sem <;> rfl),
          bits_halves _,
          bits_halves _,
          bits_setWidth_self _ (by decide),
          (bits_copy_row _ _).1,
          (bits_copy_row _ _).2,
          rfl,
          rfl,
          bits_setWidth_self _ (by decide),
          bits_halves _⟩) h

theorem pktLaunch (pr : Bool) (sem : Bool) (wcb : BitVec 64) (name : BitVec 16) (add : BitVec 64) : Statement
    (.pktLaunch pr sem wcb name add) :=
  by
    exact fun h _ => roundTripPkt rfl rfl rfl rfl rfl rfl rfl rfl (by rw [bitsN_pktHeader_op]; decide)
      (by rw [bitsN_pktHeader_len]; rfl) (by
        unfold headerOk
        simp (disch := decide) only [bitsN_pktHeader_op, bitsN_pktHeader_len, bits_pktHeader_flags, bits_self]
        cases sem <;> rfl)
      (by
        unfold candPkt
        dsimp only
        rw [List.getD_cons_zero, bitsN_pktHeader_op]
        show some (Instr.pktLaunch _ _ _ _ _) = _
        rw [Option.some.injEq, Instr.pktLaunch.injEq]
        exact ⟨bitB_pktHeader_p _ _ _ _,
          (bitB_pktHeader_flags _ _ _ _ 0 (by decide)).trans (by cases sem <;> rfl),
          bits_halves _,
          bits_setWidth_self _ (by decide),
          bits_halves _⟩) h

theorem pktTlaunch (pr : Bool) (sem : Bool) (wcb : BitVec 64) (tick : BitVec 64) (name : BitVec 16) (add : BitVec
    64) : Statement (.pktTlaunch pr sem wcb tick name add) :=
  by
    exact fun h _ => roundTripPkt rfl rfl rfl rfl rfl rfl rfl rfl (by rw [bitsN_pktHeader_op]; decide)
      (by rw [bitsN_pktHeader_len]; rfl) (by
        unfold headerOk
        simp (disch := decide) only [bitsN_pktHeader_op, bitsN_pktHeader_len, bits_pktHeader_flags, bits_self]
        cases sem <;> rfl)
      (by
        unfold candPkt
        dsimp only
        rw [List.getD_cons_zero, bitsN_pktHeader_op]
        show some (Instr.pktTlaunch _ _ _ _ _ _) = _
        rw [Option.some.injEq, Instr.pktTlaunch.injEq]
        exact ⟨bitB_pktHeader_p _ _ _ _,
          (bitB_pktHeader_flags _ _ _ _ 0 (by decide)).trans (by cases sem <;> rfl),
          bits_halves _,
          bits_halves _,
          bits_setWidth_self _ (by decide),
          bits_halves _⟩) h

theorem pktIb (pr : Bool) (host : Bool) (addr : BitVec 64) (bytes : BitVec 32) (rkey : BitVec 32) : Statement
    (.pktIb pr host addr bytes rkey) :=
  by
    exact fun h _ => roundTripPkt rfl rfl rfl rfl rfl rfl rfl rfl (by rw [bitsN_pktHeader_op]; decide)
      (by rw [bitsN_pktHeader_len]; rfl) (by
        unfold headerOk
        simp (disch := decide) only [bitsN_pktHeader_op, bitsN_pktHeader_len, bits_pktHeader_flags, bits_self]
        cases host <;> rfl)
      (by
        unfold candPkt
        dsimp only
        rw [List.getD_cons_zero, bitsN_pktHeader_op]
        show some (Instr.pktIb _ _ _ _ _) = _
        rw [Option.some.injEq, Instr.pktIb.injEq]
        exact ⟨bitB_pktHeader_p _ _ _ _,
          (bitB_pktHeader_flags _ _ _ _ 0 (by decide)).trans (by cases host <;> rfl),
          bits_halves _,
          rfl,
          rfl⟩) h

theorem pktPred (pr : Bool) (cc : BitVec 3) (signed : Bool) (addr : BitVec 64) (value : BitVec 64) (mask : BitVec
    64) : Statement (.pktPred pr cc signed addr value mask) :=
  by
    exact fun h _ => roundTripPkt rfl rfl rfl rfl rfl rfl rfl rfl (by rw [bitsN_pktHeader_op]; decide)
      (by rw [bitsN_pktHeader_len]; rfl) (by
        unfold headerOk
        simp (disch := decide) only [bitsN_pktHeader_op, bitsN_pktHeader_len, bits_pktHeader_flags, bits_self]
        exact beq_iff_eq.mpr (pred_mask cc signed))
      (by
        unfold candPkt
        dsimp only
        rw [List.getD_cons_zero, bitsN_pktHeader_op]
        show some (Instr.pktPred _ _ _ _ _ _) = _
        rw [Option.some.injEq, Instr.pktPred.injEq]
        exact ⟨bitB_pktHeader_p _ _ _ _,
          (bits_pktHeader_flags _ _ _ _ 0 3 (by decide)).trans (pred_flags _ _).1,
          (bitB_pktHeader_flags _ _ _ _ 3 (by decide)).trans (pred_flags _ _).2,
          bits_halves _,
          bits_halves _,
          bits_halves _⟩) h

theorem pktPend (pr : Bool) : Statement (.pktPend pr) :=
  by
    exact fun h _ => roundTripPkt rfl rfl rfl rfl rfl rfl rfl rfl (by rw [bitsN_pktHeader_op]; decide)
      (by rw [bitsN_pktHeader_len]; rfl) (by
        unfold headerOk
        simp (disch := decide) only [bitsN_pktHeader_op, bitsN_pktHeader_len, bits_pktHeader_flags, bits_self]
        rfl)
      (by
        unfold candPkt
        dsimp only
        rw [List.getD_cons_zero, bitsN_pktHeader_op]
        show some (Instr.pktPend _) = _
        rw [Option.some.injEq, Instr.pktPend.injEq]
        exact bitB_pktHeader_p _ _ _ _) h

theorem pktLoop (pr : Bool) (count : BitVec 32) (span : BitVec 32) (idx : BitVec 64) : Statement (.pktLoop pr count
    span idx) :=
  by
    exact fun h _ => roundTripPkt rfl rfl rfl rfl rfl rfl rfl rfl (by rw [bitsN_pktHeader_op]; decide)
      (by rw [bitsN_pktHeader_len]; rfl) (by
        unfold headerOk
        simp (disch := decide) only [bitsN_pktHeader_op, bitsN_pktHeader_len, bits_pktHeader_flags, bits_self]
        rfl)
      (by
        unfold candPkt
        dsimp only
        rw [List.getD_cons_zero, bitsN_pktHeader_op]
        show some (Instr.pktLoop _ _ _ _) = _
        rw [Option.some.injEq, Instr.pktLoop.injEq]
        exact ⟨bitB_pktHeader_p _ _ _ _,
          rfl,
          rfl,
          bits_halves _⟩) h

theorem pktSemsigAdd (pr : Bool) (w : Bool) (name : BitVec 16) (v : BitVec 64) : Statement (.pktSemsigAdd pr w name
    v) :=
  by
    exact fun h _ => roundTripPkt rfl rfl rfl rfl rfl rfl rfl rfl (by rw [bitsN_pktHeader_op]; decide)
      (by rw [bitsN_pktHeader_len]; rfl) (by
        unfold headerOk
        simp (disch := decide) only [bitsN_pktHeader_op, bitsN_pktHeader_len, bits_pktHeader_flags, bits_self]
        cases w <;> rfl)
      (by
        unfold candPkt
        dsimp only
        rw [List.getD_cons_zero, bitsN_pktHeader_op]
        rw [show bitB _ 0 = false from (bitB_pktHeader_flags _ _ _ _ 0 (by decide)).trans (by cases w <;> rfl)]
        show some (Instr.pktSemsigAdd _ _ _ _) = _
        rw [Option.some.injEq, Instr.pktSemsigAdd.injEq]
        exact ⟨bitB_pktHeader_p _ _ _ _,
          (bitB_pktHeader_flags _ _ _ _ 1 (by decide)).trans (by cases w <;> rfl),
          bits_setWidth_self _ (by decide),
          bits_halves _⟩) h

theorem pktSemsigSet (pr : Bool) (w : Bool) (name : BitVec 16) (v : BitVec 64) : Statement (.pktSemsigSet pr w name
    v) :=
  by
    exact fun h _ => roundTripPkt rfl rfl rfl rfl rfl rfl rfl rfl (by rw [bitsN_pktHeader_op]; decide)
      (by rw [bitsN_pktHeader_len]; rfl) (by
        unfold headerOk
        simp (disch := decide) only [bitsN_pktHeader_op, bitsN_pktHeader_len, bits_pktHeader_flags, bits_self]
        cases w <;> rfl)
      (by
        unfold candPkt
        dsimp only
        rw [List.getD_cons_zero, bitsN_pktHeader_op]
        rw [show bitB _ 0 = true from (bitB_pktHeader_flags _ _ _ _ 0 (by decide)).trans (by cases w <;> rfl)]
        show some (Instr.pktSemsigSet _ _ _ _) = _
        rw [Option.some.injEq, Instr.pktSemsigSet.injEq]
        exact ⟨bitB_pktHeader_p _ _ _ _,
          (bitB_pktHeader_flags _ _ _ _ 1 (by decide)).trans (by cases w <;> rfl),
          bits_setWidth_self _ (by decide),
          bits_halves _⟩) h

theorem pktSemwait (pr : Bool) (name : BitVec 16) (v : BitVec 64) : Statement (.pktSemwait pr name v) :=
  by
    exact fun h _ => roundTripPkt rfl rfl rfl rfl rfl rfl rfl rfl (by rw [bitsN_pktHeader_op]; decide)
      (by rw [bitsN_pktHeader_len]; rfl) (by
        unfold headerOk
        simp (disch := decide) only [bitsN_pktHeader_op, bitsN_pktHeader_len, bits_pktHeader_flags, bits_self]
        rfl)
      (by
        unfold candPkt
        dsimp only
        rw [List.getD_cons_zero, bitsN_pktHeader_op]
        show some (Instr.pktSemwait _ _ _) = _
        rw [Option.some.injEq, Instr.pktSemwait.injEq]
        exact ⟨bitB_pktHeader_p _ _ _ _,
          bits_setWidth_self _ (by decide),
          bits_halves _⟩) h

theorem pktFfence (pr : Bool) : Statement (.pktFfence pr) :=
  by
    exact fun h _ => roundTripPkt rfl rfl rfl rfl rfl rfl rfl rfl (by rw [bitsN_pktHeader_op]; decide)
      (by rw [bitsN_pktHeader_len]; rfl) (by
        unfold headerOk
        simp (disch := decide) only [bitsN_pktHeader_op, bitsN_pktHeader_len, bits_pktHeader_flags, bits_self]
        rfl)
      (by
        unfold candPkt
        dsimp only
        rw [List.getD_cons_zero, bitsN_pktHeader_op]
        show some (Instr.pktFfence _) = _
        rw [Option.some.injEq, Instr.pktFfence.injEq]
        exact bitB_pktHeader_p _ _ _ _) h

theorem pktNotify (pr : Bool) (w : Bool) (qp : BitVec 4) (cookie : BitVec 64) : Statement (.pktNotify pr w qp
    cookie) :=
  by
    exact fun h _ => roundTripPkt rfl rfl rfl rfl rfl rfl rfl rfl (by rw [bitsN_pktHeader_op]; decide)
      (by rw [bitsN_pktHeader_len]; rfl) (by
        unfold headerOk
        simp (disch := decide) only [bitsN_pktHeader_op, bitsN_pktHeader_len, bits_pktHeader_flags, bits_self]
        cases w <;> rfl)
      (by
        unfold candPkt
        dsimp only
        rw [List.getD_cons_zero, bitsN_pktHeader_op]
        show some (Instr.pktNotify _ _ _ _) = _
        rw [Option.some.injEq, Instr.pktNotify.injEq]
        exact ⟨bitB_pktHeader_p _ _ _ _,
          (bitB_pktHeader_flags _ _ _ _ 0 (by decide)).trans (by cases w <;> rfl),
          bits_setWidth_self _ (by decide),
          bits_halves _⟩) h

theorem pktStamp (pr : Bool) (w : Bool) (addr : BitVec 64) : Statement (.pktStamp pr w addr) :=
  by
    exact fun h _ => roundTripPkt rfl rfl rfl rfl rfl rfl rfl rfl (by rw [bitsN_pktHeader_op]; decide)
      (by rw [bitsN_pktHeader_len]; rfl) (by
        unfold headerOk
        simp (disch := decide) only [bitsN_pktHeader_op, bitsN_pktHeader_len, bits_pktHeader_flags, bits_self]
        cases w <;> rfl)
      (by
        unfold candPkt
        dsimp only
        rw [List.getD_cons_zero, bitsN_pktHeader_op]
        show some (Instr.pktStamp _ _ _) = _
        rw [Option.some.injEq, Instr.pktStamp.injEq]
        exact ⟨bitB_pktHeader_p _ _ _ _,
          (bitB_pktHeader_flags _ _ _ _ 0 (by decide)).trans (by cases w <;> rfl),
          bits_halves _⟩) h

theorem pktXfer (pr : Bool) (w : Bool) (region : BitVec 14) (owner : BitVec 8) : Statement (.pktXfer pr w region
    owner) :=
  by
    exact fun h _ => roundTripPkt rfl rfl rfl rfl rfl rfl rfl rfl (by rw [bitsN_pktHeader_op]; decide)
      (by rw [bitsN_pktHeader_len]; rfl) (by
        unfold headerOk
        simp (disch := decide) only [bitsN_pktHeader_op, bitsN_pktHeader_len, bits_pktHeader_flags, bits_self]
        cases w <;> rfl)
      (by
        unfold candPkt
        dsimp only
        rw [List.getD_cons_zero, bitsN_pktHeader_op]
        show some (Instr.pktXfer _ _ _ _) = _
        rw [Option.some.injEq, Instr.pktXfer.injEq]
        exact ⟨bitB_pktHeader_p _ _ _ _,
          (bitB_pktHeader_flags _ _ _ _ 0 (by decide)).trans (by cases w <;> rfl),
          (bits_owner _ _).1,
          (bits_owner _ _).2⟩) h

theorem pktColl (pr : Bool) (sem : Bool) (desc : BitVec 64) (name : BitVec 16) (add : BitVec 64) : Statement
    (.pktColl pr sem desc name add) :=
  by
    exact fun h _ => roundTripPkt rfl rfl rfl rfl rfl rfl rfl rfl (by rw [bitsN_pktHeader_op]; decide)
      (by rw [bitsN_pktHeader_len]; rfl) (by
        unfold headerOk
        simp (disch := decide) only [bitsN_pktHeader_op, bitsN_pktHeader_len, bits_pktHeader_flags, bits_self]
        cases sem <;> rfl)
      (by
        unfold candPkt
        dsimp only
        rw [List.getD_cons_zero, bitsN_pktHeader_op]
        show some (Instr.pktColl _ _ _ _ _) = _
        rw [Option.some.injEq, Instr.pktColl.injEq]
        exact ⟨bitB_pktHeader_p _ _ _ _,
          (bitB_pktHeader_flags _ _ _ _ 0 (by decide)).trans (by cases sem <;> rfl),
          bits_halves _,
          bits_setWidth_self _ (by decide),
          bits_halves _⟩) h

theorem pktMpass (pr : Bool) (sem : Bool) (wcb : BitVec 64) (desc : BitVec 64) (name : BitVec 16) (add : BitVec 64)
    : Statement (.pktMpass pr sem wcb desc name add) :=
  by
    exact fun h _ => roundTripPkt rfl rfl rfl rfl rfl rfl rfl rfl (by rw [bitsN_pktHeader_op]; decide)
      (by rw [bitsN_pktHeader_len]; rfl) (by
        unfold headerOk
        simp (disch := decide) only [bitsN_pktHeader_op, bitsN_pktHeader_len, bits_pktHeader_flags, bits_self]
        cases sem <;> rfl)
      (by
        unfold candPkt
        dsimp only
        rw [List.getD_cons_zero, bitsN_pktHeader_op]
        show some (Instr.pktMpass _ _ _ _ _ _) = _
        rw [Option.some.injEq, Instr.pktMpass.injEq]
        exact ⟨bitB_pktHeader_p _ _ _ _,
          (bitB_pktHeader_flags _ _ _ _ 0 (by decide)).trans (by cases sem <;> rfl),
          bits_halves _,
          bits_halves _,
          bits_setWidth_self _ (by decide),
          bits_halves _⟩) h

theorem pktQuiesce (pr : Bool) : Statement (.pktQuiesce pr) :=
  by
    exact fun h _ => roundTripPkt rfl rfl rfl rfl rfl rfl rfl rfl (by rw [bitsN_pktHeader_op]; decide)
      (by rw [bitsN_pktHeader_len]; rfl) (by
        unfold headerOk
        simp (disch := decide) only [bitsN_pktHeader_op, bitsN_pktHeader_len, bits_pktHeader_flags, bits_self]
        rfl)
      (by
        unfold candPkt
        dsimp only
        rw [List.getD_cons_zero, bitsN_pktHeader_op]
        show some (Instr.pktQuiesce _) = _
        rw [Option.some.injEq, Instr.pktQuiesce.injEq]
        exact bitB_pktHeader_p _ _ _ _) h

theorem pktHalt (pr : Bool) (notify : Bool) : Statement (.pktHalt pr notify) :=
  by
    exact fun h _ => roundTripPkt rfl rfl rfl rfl rfl rfl rfl rfl (by rw [bitsN_pktHeader_op]; decide)
      (by rw [bitsN_pktHeader_len]; rfl) (by
        unfold headerOk
        simp (disch := decide) only [bitsN_pktHeader_op, bitsN_pktHeader_len, bits_pktHeader_flags, bits_self]
        cases notify <;> rfl)
      (by
        unfold candPkt
        dsimp only
        rw [List.getD_cons_zero, bitsN_pktHeader_op]
        show some (Instr.pktHalt _ _) = _
        rw [Option.some.injEq, Instr.pktHalt.injEq]
        exact ⟨bitB_pktHeader_p _ _ _ _,
          (bitB_pktHeader_flags _ _ _ _ 0 (by decide)).trans (by cases notify <;> rfl)⟩) h

theorem sBr (target : BitVec 17) : Statement (.sBr target) :=
  fun h _ => roundTripS rfl (by
    unfold candS; rw [bitsN_sWord_op]; show some _ = some _
    simp (disch := decide) only [bits_sWord_imm, bits_setWidth, bits_self]) h

theorem sBrc (cc : Cond) (a : BitVec 5) (b : BitVec 5) (target : BitVec 17) : Statement (.sBrc cc a b target) :=
  by
    cases cc <;> exact fun h _ => roundTripS rfl (by
      unfold candS; rw [bitsN_sWord_op]; show Option.map _ _ = some _
      rw [bitsN_sWord_x _ _ _ _ _ _ _ 33 _ (by decide) (by decide)]; show some _ = some _
      simp (disch := decide) only [bits_sWord_a, bits_sWord_b, bits_sWord_imm, bits_setWidth, bits_self]) h

theorem sBrf (t : Bool) (target : BitVec 17) : Statement (.sBrf t target) :=
  fun h _ => roundTripS rfl (by
    unfold candS; rw [bitsN_sWord_op]; show some _ = some _
    simp (disch := decide) only [bitB_flag8_0, bits_sWord_imm, bitB_sWord_x, bits_setWidth, bits_self, Nat.reduceSub]
      <;> rfl) h

theorem sCall (target : BitVec 17) : Statement (.sCall target) :=
  fun h _ => roundTripS rfl (by
    unfold candS; rw [bitsN_sWord_op]; show some _ = some _
    simp (disch := decide) only [bits_sWord_imm, bits_setWidth, bits_self]) h

theorem sJmpr (a : BitVec 5) : Statement (.sJmpr a) :=
  fun h _ => roundTripS rfl (by
    unfold candS; rw [bitsN_sWord_op]; show some _ = some _
    simp (disch := decide) only [bits_sWord_a]) h

theorem sLoop (count : LoopCount) (sw : Bool) (last : BitVec 17) : Statement (.sLoop count sw last) :=
  by cases count <;> exact fun h _ => roundTripS rfl (by
    unfold candS; rw [bitsN_sWord_op]; show some _ = some _
    simp (disch := decide) only [bitB_flag8_0, bits_sWord_a, bits_sWord_imm, bitB_sWord_x, bitB_sWord_xe, bits_setWidth,
      bits_self, Nat.reduceSub, Option.getD_some, Option.getD_none] <;> rfl) h

theorem sLidx (d : BitVec 5) (n : BitVec 3) : Statement (.sLidx d n) :=
  fun h _ => roundTripS rfl (by
    unfold candS; rw [bitsN_sWord_op]; show some _ = some _
    simp (disch := decide) only [bits_sWord_d, bits_sWord_x, bits_setWidth, bits_self, Nat.reduceSub]) h

theorem sTrapi (imm : BitVec 32) : Statement (.sTrapi imm) :=
  fun h _ => roundTripS rfl (by
    unfold candS; rw [bitsN_sWord_op]; show some _ = some _
    simp (disch := decide) only [bits_sWord_imm, bits_self]) h

theorem sAdd (d : BitVec 5) (a : BitVec 5) (b : BitVec 5) : Statement (.sAdd d a b) :=
  fun h _ => roundTripS rfl (by
    unfold candS; rw [bitsN_sWord_op]; show some _ = some _
    simp (disch := decide) only [bits_sWord_d, bits_sWord_a, bits_sWord_b]) h

theorem sSub (d : BitVec 5) (a : BitVec 5) (b : BitVec 5) : Statement (.sSub d a b) :=
  fun h _ => roundTripS rfl (by
    unfold candS; rw [bitsN_sWord_op]; show some _ = some _
    simp (disch := decide) only [bits_sWord_d, bits_sWord_a, bits_sWord_b]) h

theorem sAnd (d : BitVec 5) (a : BitVec 5) (b : BitVec 5) : Statement (.sAnd d a b) :=
  fun h _ => roundTripS rfl (by
    unfold candS; rw [bitsN_sWord_op]; show some _ = some _
    simp (disch := decide) only [bits_sWord_d, bits_sWord_a, bits_sWord_b]) h

theorem sOr (d : BitVec 5) (a : BitVec 5) (b : BitVec 5) : Statement (.sOr d a b) :=
  fun h _ => roundTripS rfl (by
    unfold candS; rw [bitsN_sWord_op]; show some _ = some _
    simp (disch := decide) only [bits_sWord_d, bits_sWord_a, bits_sWord_b]) h

theorem sXor (d : BitVec 5) (a : BitVec 5) (b : BitVec 5) : Statement (.sXor d a b) :=
  fun h _ => roundTripS rfl (by
    unfold candS; rw [bitsN_sWord_op]; show some _ = some _
    simp (disch := decide) only [bits_sWord_d, bits_sWord_a, bits_sWord_b]) h

theorem sShl (d : BitVec 5) (a : BitVec 5) (b : BitVec 5) : Statement (.sShl d a b) :=
  fun h _ => roundTripS rfl (by
    unfold candS; rw [bitsN_sWord_op]; show some _ = some _
    simp (disch := decide) only [bits_sWord_d, bits_sWord_a, bits_sWord_b]) h

theorem sShr (d : BitVec 5) (a : BitVec 5) (b : BitVec 5) : Statement (.sShr d a b) :=
  fun h _ => roundTripS rfl (by
    unfold candS; rw [bitsN_sWord_op]; show some _ = some _
    simp (disch := decide) only [bits_sWord_d, bits_sWord_a, bits_sWord_b]) h

theorem sSar (d : BitVec 5) (a : BitVec 5) (b : BitVec 5) : Statement (.sSar d a b) :=
  fun h _ => roundTripS rfl (by
    unfold candS; rw [bitsN_sWord_op]; show some _ = some _
    simp (disch := decide) only [bits_sWord_d, bits_sWord_a, bits_sWord_b]) h

theorem sMul (d : BitVec 5) (a : BitVec 5) (b : BitVec 5) : Statement (.sMul d a b) :=
  fun h _ => roundTripS rfl (by
    unfold candS; rw [bitsN_sWord_op]; show some _ = some _
    simp (disch := decide) only [bits_sWord_d, bits_sWord_a, bits_sWord_b]) h

theorem sMulh (d : BitVec 5) (a : BitVec 5) (b : BitVec 5) : Statement (.sMulh d a b) :=
  fun h _ => roundTripS rfl (by
    unfold candS; rw [bitsN_sWord_op]; show some _ = some _
    simp (disch := decide) only [bits_sWord_d, bits_sWord_a, bits_sWord_b]) h

theorem sMulhn (d : BitVec 5) (a : BitVec 5) (b : BitVec 5) : Statement (.sMulhn d a b) :=
  fun h _ => roundTripS rfl (by
    unfold candS; rw [bitsN_sWord_op]; show some _ = some _
    simp (disch := decide) only [bits_sWord_d, bits_sWord_a, bits_sWord_b]) h

theorem sDivs (d : BitVec 5) (a : BitVec 5) (b : BitVec 5) : Statement (.sDivs d a b) :=
  fun h _ => roundTripS rfl (by
    unfold candS; rw [bitsN_sWord_op]; show some _ = some _
    simp (disch := decide) only [bits_sWord_d, bits_sWord_a, bits_sWord_b]) h

theorem sDivn (d : BitVec 5) (a : BitVec 5) (b : BitVec 5) : Statement (.sDivn d a b) :=
  fun h _ => roundTripS rfl (by
    unfold candS; rw [bitsN_sWord_op]; show some _ = some _
    simp (disch := decide) only [bits_sWord_d, bits_sWord_a, bits_sWord_b]) h

theorem sRems (d : BitVec 5) (a : BitVec 5) (b : BitVec 5) : Statement (.sRems d a b) :=
  fun h _ => roundTripS rfl (by
    unfold candS; rw [bitsN_sWord_op]; show some _ = some _
    simp (disch := decide) only [bits_sWord_d, bits_sWord_a, bits_sWord_b]) h

theorem sRemn (d : BitVec 5) (a : BitVec 5) (b : BitVec 5) : Statement (.sRemn d a b) :=
  fun h _ => roundTripS rfl (by
    unfold candS; rw [bitsN_sWord_op]; show some _ = some _
    simp (disch := decide) only [bits_sWord_d, bits_sWord_a, bits_sWord_b]) h

theorem sSel (d : BitVec 5) (a : BitVec 5) (b : BitVec 5) (c : BitVec 5) : Statement (.sSel d a b c) :=
  fun h _ => roundTripS rfl (by
    unfold candS; rw [bitsN_sWord_op]; show some _ = some _
    simp (disch := decide) only [bits_sWord_d, bits_sWord_a, bits_sWord_b, bits_sWord_x, bits_setWidth, bits_self,
      Nat.reduceSub]) h

theorem sMin (d : BitVec 5) (a : BitVec 5) (b : BitVec 5) : Statement (.sMin d a b) :=
  fun h _ => roundTripS rfl (by
    unfold candS; rw [bitsN_sWord_op]; show some _ = some _
    simp (disch := decide) only [bits_sWord_d, bits_sWord_a, bits_sWord_b]) h

theorem sMax (d : BitVec 5) (a : BitVec 5) (b : BitVec 5) : Statement (.sMax d a b) :=
  fun h _ => roundTripS rfl (by
    unfold candS; rw [bitsN_sWord_op]; show some _ = some _
    simp (disch := decide) only [bits_sWord_d, bits_sWord_a, bits_sWord_b]) h

theorem sMinn (d : BitVec 5) (a : BitVec 5) (b : BitVec 5) : Statement (.sMinn d a b) :=
  fun h _ => roundTripS rfl (by
    unfold candS; rw [bitsN_sWord_op]; show some _ = some _
    simp (disch := decide) only [bits_sWord_d, bits_sWord_a, bits_sWord_b]) h

theorem sMaxn (d : BitVec 5) (a : BitVec 5) (b : BitVec 5) : Statement (.sMaxn d a b) :=
  fun h _ => roundTripS rfl (by
    unfold candS; rw [bitsN_sWord_op]; show some _ = some _
    simp (disch := decide) only [bits_sWord_d, bits_sWord_a, bits_sWord_b]) h

theorem sSlt (d : BitVec 5) (a : BitVec 5) (b : BitVec 5) : Statement (.sSlt d a b) :=
  fun h _ => roundTripS rfl (by
    unfold candS; rw [bitsN_sWord_op]; show some _ = some _
    simp (disch := decide) only [bits_sWord_d, bits_sWord_a, bits_sWord_b]) h

theorem sSltn (d : BitVec 5) (a : BitVec 5) (b : BitVec 5) : Statement (.sSltn d a b) :=
  fun h _ => roundTripS rfl (by
    unfold candS; rw [bitsN_sWord_op]; show some _ = some _
    simp (disch := decide) only [bits_sWord_d, bits_sWord_a, bits_sWord_b]) h

theorem sClz (d : BitVec 5) (a : BitVec 5) : Statement (.sClz d a) :=
  fun h _ => roundTripS rfl (by
    unfold candS; rw [bitsN_sWord_op]; show some _ = some _
    simp (disch := decide) only [bits_sWord_d, bits_sWord_a]) h

theorem sPopc (d : BitVec 5) (a : BitVec 5) : Statement (.sPopc d a) :=
  fun h _ => roundTripS rfl (by
    unfold candS; rw [bitsN_sWord_op]; show some _ = some _
    simp (disch := decide) only [bits_sWord_d, bits_sWord_a]) h

theorem sAddi (d : BitVec 5) (a : BitVec 5) (imm : SImm) : Statement (.sAddi d a imm) :=
  by cases imm <;> exact fun h _ => roundTripS rfl (by
    unfold candS; rw [bitsN_sWord_op]; show some _ = some _
    simp (disch := decide) only [sImmOf_short, sImmOf_long, bits_sWord_d, bits_sWord_a, bits_sWord_imm, bitB_sWord_xe,
      bits_self, Option.getD_some, Option.getD_none]) h

theorem sAndi (d : BitVec 5) (a : BitVec 5) (imm : SImm) : Statement (.sAndi d a imm) :=
  by cases imm <;> exact fun h _ => roundTripS rfl (by
    unfold candS; rw [bitsN_sWord_op]; show some _ = some _
    simp (disch := decide) only [sImmOf_short, sImmOf_long, bits_sWord_d, bits_sWord_a, bits_sWord_imm, bitB_sWord_xe,
      bits_self, Option.getD_some, Option.getD_none]) h

theorem sOri (d : BitVec 5) (a : BitVec 5) (imm : SImm) : Statement (.sOri d a imm) :=
  by cases imm <;> exact fun h _ => roundTripS rfl (by
    unfold candS; rw [bitsN_sWord_op]; show some _ = some _
    simp (disch := decide) only [sImmOf_short, sImmOf_long, bits_sWord_d, bits_sWord_a, bits_sWord_imm, bitB_sWord_xe,
      bits_self, Option.getD_some, Option.getD_none]) h

theorem sXori (d : BitVec 5) (a : BitVec 5) (imm : SImm) : Statement (.sXori d a imm) :=
  by cases imm <;> exact fun h _ => roundTripS rfl (by
    unfold candS; rw [bitsN_sWord_op]; show some _ = some _
    simp (disch := decide) only [sImmOf_short, sImmOf_long, bits_sWord_d, bits_sWord_a, bits_sWord_imm, bitB_sWord_xe,
      bits_self, Option.getD_some, Option.getD_none]) h

theorem sLi (d : BitVec 5) (imm : SImm) : Statement (.sLi d imm) :=
  by cases imm <;> exact fun h _ => roundTripS rfl (by
    unfold candS; rw [bitsN_sWord_op]; show some _ = some _
    simp (disch := decide) only [sImmOf_short, sImmOf_long, bits_sWord_d, bits_sWord_imm, bitB_sWord_xe, bits_self,
      Option.getD_some, Option.getD_none]) h

theorem sTidx (d : BitVec 5) (a : BitVec 5) (sh : BitVec 4) (k : BitVec 3) : Statement (.sTidx d a sh k) :=
  fun h _ => roundTripS rfl (by
    unfold candS; rw [bitsN_sWord_op]; show some _ = some _
    simp (disch := decide) only [bits_sWord_d, bits_sWord_a, bits_sWord_x, bits_sWord_imm, bits_setWidth, bits_self,
      Nat.reduceSub]) h

theorem sLd (size : MemSize) (zx : Bool) (d : BitVec 5) (a : BitVec 5) (off : BitVec 32) : Statement (.sLd size zx d
    a off) :=
  by cases size <;> exact fun h _ => roundTripS rfl (by
    unfold candS; rw [bitsN_sWord_op]; show some _ = some _
    simp (disch := decide) only [bitB_flag8_0, bitB_flag8_or, bits_sWord_d, bits_sWord_a, bits_sWord_imm, bitB_sWord_x,
      bits_self, Nat.reduceSub] <;> rfl) h

theorem sSt (size : MemSize) (b : BitVec 5) (a : BitVec 5) (off : BitVec 32) : Statement (.sSt size b a off) :=
  by cases size <;> exact fun h _ => roundTripS rfl (by
    unfold candS; rw [bitsN_sWord_op]; show some _ = some _
    simp (disch := decide) only [bits_sWord_a, bits_sWord_b, bits_sWord_imm, bitB_sWord_x, bits_self, Nat.reduceSub] <;>
      rfl) h

theorem sLdDm (size : MemSize) (zx : Bool) (d : BitVec 5) (a : BitVec 5) (off : BitVec 32) : Statement (.sLdDm size
    zx d a off) :=
  by cases size <;> exact fun h _ => roundTripS rfl (by
    unfold candS; rw [bitsN_sWord_op]; show some _ = some _
    simp (disch := decide) only [bitB_flag8_or, bits_sWord_d, bits_sWord_a, bits_sWord_imm, bitB_sWord_x, bits_self,
      Nat.reduceSub] <;> rfl) h

theorem sStDm (size : MemSize) (b : BitVec 5) (a : BitVec 5) (off : BitVec 32) : Statement (.sStDm size b a off) :=
  by cases size <;> exact fun h _ => roundTripS rfl (by
    unfold candS; rw [bitsN_sWord_op]; show some _ = some _
    simp (disch := decide) only [bits_sWord_a, bits_sWord_b, bits_sWord_imm, bitB_sWord_x, bits_self, Nat.reduceSub] <;>
      rfl) h

theorem sLdx (size : MemSize) (zx : Bool) (d : BitVec 5) (a : BitVec 5) (off : BitVec 32) : Statement (.sLdx size zx
    d a off) :=
  by cases size <;> exact fun h _ => roundTripS rfl (by
    unfold candS; rw [bitsN_sWord_op]; show some _ = some _
    simp (disch := decide) only [bitB_size_flag, bitsN_size_flag, bits_sWord_d, bits_sWord_a, bitsN_sWord_x,
      bits_sWord_imm, bitB_sWord_x, bits_self, Nat.reduceSub]) h

theorem sStx (size : MemSize) (b : BitVec 5) (a : BitVec 5) (off : BitVec 32) : Statement (.sStx size b a off) :=
  by cases size <;> exact fun h _ => roundTripS rfl (by
    unfold candS; rw [bitsN_sWord_op]; show some _ = some _
    simp (disch := decide) only [bits_sWord_a, bits_sWord_b, bitsN_sWord_x, bits_sWord_imm, bits_self, Nat.reduceSub]
      <;> rfl) h

theorem sLdSc (w64 : Bool) (d : BitVec 5) (a : BitVec 5) : Statement (.sLdSc w64 d a) :=
  fun h _ => roundTripS rfl (by
    unfold candS; rw [bitsN_sWord_op]; show some _ = some _
    simp (disch := decide) only [bitB_flag8_0, bits_sWord_d, bits_sWord_a, bitB_sWord_x, Nat.reduceSub]) h

theorem sStSc (w64 : Bool) (b : BitVec 5) (a : BitVec 5) : Statement (.sStSc w64 b a) :=
  fun h _ => roundTripS rfl (by
    unfold candS; rw [bitsN_sWord_op]; show some _ = some _
    simp (disch := decide) only [bitB_flag8_0, bits_sWord_a, bits_sWord_b, bitB_sWord_x, Nat.reduceSub]) h

theorem sAmoAdd (w64 : Bool) (d : BitVec 5) (b : BitVec 5) (a : BitVec 5) : Statement (.sAmoAdd w64 d b a) :=
  fun h _ => roundTripS rfl (by
    unfold candS; rw [bitsN_sWord_op]; show some _ = some _
    simp (disch := decide) only [bitB_flag8_0, bits_sWord_d, bits_sWord_a, bits_sWord_b, bitB_sWord_x, Nat.reduceSub]
      <;> rfl) h

theorem sAmoMin (w64 : Bool) (uns : Bool) (d : BitVec 5) (b : BitVec 5) (a : BitVec 5) : Statement (.sAmoMin w64 uns
    d b a) :=
  fun h _ => roundTripS rfl (by
    unfold candS; rw [bitsN_sWord_op]; show some _ = some _
    simp (disch := decide) only [bitB_flag8_pair, bits_sWord_d, bits_sWord_a, bits_sWord_b, bitB_sWord_x, Nat.reduceSub]
      <;> rfl) h

theorem sAmoMax (w64 : Bool) (uns : Bool) (d : BitVec 5) (b : BitVec 5) (a : BitVec 5) : Statement (.sAmoMax w64 uns
    d b a) :=
  fun h _ => roundTripS rfl (by
    unfold candS; rw [bitsN_sWord_op]; show some _ = some _
    simp (disch := decide) only [bitB_flag8_pair, bits_sWord_d, bits_sWord_a, bits_sWord_b, bitB_sWord_x, Nat.reduceSub]
      <;> rfl) h

theorem sAmoAnd (w64 : Bool) (d : BitVec 5) (b : BitVec 5) (a : BitVec 5) : Statement (.sAmoAnd w64 d b a) :=
  fun h _ => roundTripS rfl (by
    unfold candS; rw [bitsN_sWord_op]; show some _ = some _
    simp (disch := decide) only [bitB_flag8_0, bits_sWord_d, bits_sWord_a, bits_sWord_b, bitB_sWord_x, Nat.reduceSub]
      <;> rfl) h

theorem sAmoOr (w64 : Bool) (d : BitVec 5) (b : BitVec 5) (a : BitVec 5) : Statement (.sAmoOr w64 d b a) :=
  fun h _ => roundTripS rfl (by
    unfold candS; rw [bitsN_sWord_op]; show some _ = some _
    simp (disch := decide) only [bitB_flag8_0, bits_sWord_d, bits_sWord_a, bits_sWord_b, bitB_sWord_x, Nat.reduceSub]
      <;> rfl) h

theorem sAmoSwap (w64 : Bool) (d : BitVec 5) (b : BitVec 5) (a : BitVec 5) : Statement (.sAmoSwap w64 d b a) :=
  fun h _ => roundTripS rfl (by
    unfold candS; rw [bitsN_sWord_op]; show some _ = some _
    simp (disch := decide) only [bitB_flag8_0, bits_sWord_d, bits_sWord_a, bits_sWord_b, bitB_sWord_x, Nat.reduceSub]
      <;> rfl) h

theorem sAmoCas (w64 : Bool) (d : BitVec 5) (b : BitVec 5) (c : BitVec 5) (a : BitVec 5) : Statement (.sAmoCas w64 d
    b c a) :=
  fun h _ => roundTripS rfl (by
    unfold candS; rw [bitsN_sWord_op]; show some _ = some _
    simp (disch := decide) only [bitB_cas, bits_sWord_d, bits_sWord_a, bits_sWord_b, bits_sWord_x, bitB_sWord_x,
      bits_self, bits_append_high, Nat.reduceSub]) h

theorem sStA (b : BitVec 5) (ap : BitVec 16) : Statement (.sStA b ap) :=
  fun h _ => roundTripS rfl (by
    unfold candS; rw [bitsN_sWord_op]; show some _ = some _
    simp (disch := decide) only [bits_sWord_b, bits_sWord_imm, bits_setWidth, bits_self]) h

theorem sXfer (region : BitVec 14) (owner : BitVec 8) : Statement (.sXfer region owner) :=
  fun h _ => roundTripS rfl (by
    unfold candS; rw [bitsN_sWord_op]; show some _ = some _
    simp (disch := decide) only [bits_sWord_x, bits_sWord_imm, bits_setWidth, bits_self, Nat.reduceSub]) h

theorem sRel (region : BitVec 14) : Statement (.sRel region) :=
  fun h _ => roundTripS rfl (by
    unfold candS; rw [bitsN_sWord_op]; show some _ = some _
    simp (disch := decide) only [bits_sWord_imm, bits_setWidth, bits_self]) h

theorem sFenceX (pa : BitVec 5) (pb : BitVec 5) : Statement (.sFenceX pa pb) :=
  fun h _ => roundTripS rfl (by
    unfold candS; rw [bitsN_sWord_op]; show some _ = some _
    simp (disch := decide) only [bits_sWord_imm, bits_setWidth, bits_self, bits_append_high, bits_append_low,
      Nat.reduceSub]) h

theorem sSemAdd (name : BitVec 16) (b : BitVec 5) : Statement (.sSemAdd name b) :=
  fun h _ => roundTripS rfl (by
    unfold candS; rw [bitsN_sWord_op]; show some _ = some _
    simp (disch := decide) only [bits_sWord_b, bits_sWord_imm, bits_setWidth, bits_self]) h

theorem sSemSet (name : BitVec 16) (b : BitVec 5) : Statement (.sSemSet name b) :=
  fun h _ => roundTripS rfl (by
    unfold candS; rw [bitsN_sWord_op]; show some _ = some _
    simp (disch := decide) only [bits_sWord_b, bits_sWord_imm, bits_setWidth, bits_self]) h

theorem sSemWait (name : BitVec 16) (b : BitVec 5) : Statement (.sSemWait name b) :=
  fun h _ => roundTripS rfl (by
    unfold candS; rw [bitsN_sWord_op]; show some _ = some _
    simp (disch := decide) only [bits_sWord_b, bits_sWord_imm, bits_setWidth, bits_self]) h

theorem sSemRd (d : BitVec 5) (name : BitVec 16) : Statement (.sSemRd d name) :=
  fun h _ => roundTripS rfl (by
    unfold candS; rw [bitsN_sWord_op]; show some _ = some _
    simp (disch := decide) only [bits_sWord_d, bits_sWord_imm, bits_setWidth, bits_self]) h

theorem sLsend (link : BitVec 4) (q : BitVec 2) (a : BitVec 5) : Statement (.sLsend link q a) :=
  fun h _ => roundTripS rfl (by
    unfold candS; rw [bitsN_sWord_op]; show some _ = some _
    simp (disch := decide) only [bits_sWord_a, bits_sWord_x, bits_setWidth, bits_self, bits_append_high,
      bits_append_low, Nat.reduceSub]) h

theorem sLrecv (link : BitVec 4) (q : BitVec 2) (a : BitVec 5) : Statement (.sLrecv link q a) :=
  fun h _ => roundTripS rfl (by
    unfold candS; rw [bitsN_sWord_op]; show some _ = some _
    simp (disch := decide) only [bits_sWord_a, bits_sWord_x, bits_setWidth, bits_self, bits_append_high,
      bits_append_low, Nat.reduceSub]) h

theorem sMovYm (m : BitVec 2) (a : BitVec 5) : Statement (.sMovYm m a) :=
  fun h _ => roundTripS rfl (by
    unfold candS; rw [bitsN_sWord_op]; show some _ = some _
    simp (disch := decide) only [bits_sWord_a, bits_sWord_x, bits_setWidth, bits_self, Nat.reduceSub]) h

theorem sMovXm (m : BitVec 2) (a : BitVec 5) : Statement (.sMovXm m a) :=
  fun h _ => roundTripS rfl (by
    unfold candS; rw [bitsN_sWord_op]; show some _ = some _
    simp (disch := decide) only [bits_sWord_a, bits_sWord_x, bits_setWidth, bits_self, Nat.reduceSub]) h

theorem sShpW (sh : BitVec 4) (f : BitVec 3) (a : BitVec 5) : Statement (.sShpW sh f a) :=
  fun h _ => roundTripS rfl (by
    unfold candS; rw [bitsN_sWord_op]; show some _ = some _
    simp (disch := decide) only [bits_sWord_a, bits_sWord_x, bits_sWord_imm, bits_setWidth, bits_self, Nat.reduceSub]
      <;> rfl) h

theorem sNestW (l : Loader) (f : BitVec 4) (a : BitVec 5) : Statement (.sNestW l f a) :=
  by
    cases l <;> exact fun h _ => roundTripS rfl (by
      unfold candS; rw [bitsN_sWord_op]; show Option.map _ _ = some _
      rw [bitsN_sWord_x _ _ _ _ _ _ _ 33 _ (by decide) (by decide)]; show some _ = some _
      simp (disch := decide) only [bits_sWord_a, bits_sWord_b, bits_sWord_imm, bits_setWidth, bits_self]) h

theorem sCtLd (ct : BitVec 6) (a : BitVec 5) : Statement (.sCtLd ct a) :=
  fun h _ => roundTripS rfl (by
    unfold candS; rw [bitsN_sWord_op]; show some _ = some _
    simp (disch := decide) only [bits_sWord_a, bits_sWord_imm, bits_setWidth, bits_self]) h

theorem sEdgeRd (d : BitVec 5) (er : BitVec 2) : Statement (.sEdgeRd d er) :=
  fun h _ => roundTripS rfl (by
    unfold candS; rw [bitsN_sWord_op]; show some _ = some _
    simp (disch := decide) only [bits_sWord_d, bits_sWord_x, bits_setWidth, bits_self, Nat.reduceSub]) h

theorem sSysr (d : BitVec 5) (num : BitVec 16) : Statement (.sSysr d num) :=
  fun h _ => roundTripS rfl (by
    unfold candS; rw [bitsN_sWord_op]; show some _ = some _
    simp (disch := decide) only [bits_sWord_d, bits_sWord_imm, bits_setWidth, bits_self]) h

theorem sSysw (num : BitVec 16) (a : BitVec 5) : Statement (.sSysw num a) :=
  fun h _ => roundTripS rfl (by
    unfold candS; rw [bitsN_sWord_op]; show some _ = some _
    simp (disch := decide) only [bits_sWord_a, bits_sWord_imm, bits_setWidth, bits_self]) h

theorem sTtChk (tt : TtExpect) (crc : BitVec 32) : Statement (.sTtChk tt crc) :=
  by cases tt <;> exact fun h _ => roundTripS rfl (by
    unfold candS; rw [bitsN_sWord_op]; show some _ = some _
    simp (disch := decide) only [bits_sWord_a, bits_sWord_imm, bitB_sWord_xe, bits_self, Option.getD_some,
      Option.getD_none] <;> rfl) h

theorem sTtRd (d : BitVec 5) : Statement (.sTtRd d) :=
  fun h _ => roundTripS rfl (by
    unfold candS; rw [bitsN_sWord_op]; show some _ = some _
    simp (disch := decide) only [bits_sWord_d]) h

theorem sSrSeed (a : BitVec 5) (b : Option (BitVec 5)) : Statement (.sSrSeed a b) :=
  by cases b <;> exact fun h _ => roundTripS rfl (by
    unfold candS; rw [bitsN_sWord_op]; show some _ = some _
    simp (disch := decide) only [bits_sWord_a, bits_sWord_b, bitB_sWord_x, Nat.reduceSub] <;> rfl) h

theorem sMpass (a : BitVec 5) : Statement (.sMpass a) :=
  fun h _ => roundTripS rfl (by
    unfold candS; rw [bitsN_sWord_op]; show some _ = some _
    simp (disch := decide) only [bits_sWord_a]) h

theorem sCollGo (a : BitVec 5) (sem : Option (BitVec 5 × BitVec 16)) : Statement (.sCollGo a sem) :=
  by
    rcases sem with _ | ⟨b, m⟩ <;> exact fun h _ => roundTripS rfl (by
      unfold candS; rw [bitsN_sWord_op]; show some _ = some _
      simp (disch := decide) only [bits_sWord_a, bits_sWord_b, bits_sWord_imm, bits_setWidth, bits_self,
        bitB_sWord_x] <;> rfl) h

theorem cNop (f : CSlot) : Statement (.cNop f) :=
  fun h _ => roundTripC rfl rfl rfl h

theorem cClr (f : CSlot) : Statement (.cClr f) :=
  fun h _ => roundTripC rfl rfl rfl h

theorem cMov (f : CSlot) : Statement (.cMov f) :=
  fun h _ => roundTripC rfl rfl rfl h

theorem cMovi (f : CSlot) : Statement (.cMovi f) :=
  fun h _ => roundTripC rfl rfl rfl h

theorem cAdd (f : CSlot) : Statement (.cAdd f) :=
  fun h _ => roundTripC rfl rfl rfl h

theorem cSub (f : CSlot) : Statement (.cSub f) :=
  fun h _ => roundTripC rfl rfl rfl h

theorem cMul (f : CSlot) : Statement (.cMul f) :=
  fun h _ => roundTripC rfl rfl rfl h

theorem cFma (f : CSlot) : Statement (.cFma f) :=
  fun h _ => roundTripC rfl rfl rfl h

theorem cFms (f : CSlot) : Statement (.cFms f) :=
  fun h _ => roundTripC rfl rfl rfl h

theorem cNeg (f : CSlot) : Statement (.cNeg f) :=
  fun h _ => roundTripC rfl rfl rfl h

theorem cAbs (f : CSlot) : Statement (.cAbs f) :=
  fun h _ => roundTripC rfl rfl rfl h

theorem cMin (f : CSlot) : Statement (.cMin f) :=
  fun h _ => roundTripC rfl rfl rfl h

theorem cMax (f : CSlot) : Statement (.cMax f) :=
  fun h _ => roundTripC rfl rfl rfl h

theorem cAnd (f : CSlot) : Statement (.cAnd f) :=
  fun h _ => roundTripC rfl rfl rfl h

theorem cOr (f : CSlot) : Statement (.cOr f) :=
  fun h _ => roundTripC rfl rfl rfl h

theorem cXor (f : CSlot) : Statement (.cXor f) :=
  fun h _ => roundTripC rfl rfl rfl h

theorem cNot (f : CSlot) : Statement (.cNot f) :=
  fun h _ => roundTripC rfl rfl rfl h

theorem cShl (f : CSlot) : Statement (.cShl f) :=
  fun h _ => roundTripC rfl rfl rfl h

theorem cShr (f : CSlot) : Statement (.cShr f) :=
  fun h _ => roundTripC rfl rfl rfl h

theorem cSar (f : CSlot) : Statement (.cSar f) :=
  fun h _ => roundTripC rfl rfl rfl h

theorem cRot (f : CSlot) : Statement (.cRot f) :=
  fun h _ => roundTripC rfl rfl rfl h

theorem cCmpEq (f : CSlot) : Statement (.cCmpEq f) :=
  fun h _ => roundTripC rfl rfl rfl h

theorem cCmpNe (f : CSlot) : Statement (.cCmpNe f) :=
  fun h _ => roundTripC rfl rfl rfl h

theorem cCmpLt (f : CSlot) : Statement (.cCmpLt f) :=
  fun h _ => roundTripC rfl rfl rfl h

theorem cCmpLe (f : CSlot) : Statement (.cCmpLe f) :=
  fun h _ => roundTripC rfl rfl rfl h

theorem cSel (f : CSlot) : Statement (.cSel f) :=
  fun h _ => roundTripC rfl rfl rfl h

theorem cSetg (f : CSlot) : Statement (.cSetg f) :=
  fun h _ => roundTripC rfl rfl rfl h

theorem cCvt (f : CSlot) : Statement (.cCvt f) :=
  fun h _ => roundTripC rfl rfl rfl h

theorem cPack (f : CSlot) : Statement (.cPack f) :=
  fun h _ => roundTripC rfl rfl rfl h

theorem cUnpack (f : CSlot) : Statement (.cUnpack f) :=
  fun h _ => roundTripC rfl rfl rfl h

theorem cReq (f : CSlot) : Statement (.cReq f) :=
  fun h _ => roundTripC rfl rfl rfl h

theorem cRcp (f : CSlot) : Statement (.cRcp f) :=
  fun h _ => roundTripC rfl rfl rfl h

theorem cRsq (f : CSlot) : Statement (.cRsq f) :=
  fun h _ => roundTripC rfl rfl rfl h

theorem cExp2 (f : CSlot) : Statement (.cExp2 f) :=
  fun h _ => roundTripC rfl rfl rfl h

theorem cLog2 (f : CSlot) : Statement (.cLog2 f) :=
  fun h _ => roundTripC rfl rfl rfl h

theorem cHsum (f : CSlot) : Statement (.cHsum f) :=
  fun h _ => roundTripC rfl rfl rfl h

theorem cHmax (f : CSlot) : Statement (.cHmax f) :=
  fun h _ => roundTripC rfl rfl rfl h

theorem cHmin (f : CSlot) : Statement (.cHmin f) :=
  fun h _ => roundTripC rfl rfl rfl h

theorem cMmaE4m3 (f : CSlot) : Statement (.cMmaE4m3 f) :=
  fun h _ => roundTripC rfl rfl rfl h

theorem cMmaE5m2 (f : CSlot) : Statement (.cMmaE5m2 f) :=
  fun h _ => roundTripC rfl rfl rfl h

theorem cMmaE2m1 (f : CSlot) : Statement (.cMmaE2m1 f) :=
  fun h _ => roundTripC rfl rfl rfl h

theorem cMmaBf16 (f : CSlot) : Statement (.cMmaBf16 f) :=
  fun h _ => roundTripC rfl rfl rfl h

theorem cMmaF16 (f : CSlot) : Statement (.cMmaF16 f) :=
  fun h _ => roundTripC rfl rfl rfl h

theorem cMmaI8 (f : CSlot) : Statement (.cMmaI8 f) :=
  fun h _ => roundTripC rfl rfl rfl h

theorem cMmaI4 (f : CSlot) : Statement (.cMmaI4 f) :=
  fun h _ => roundTripC rfl rfl rfl h

theorem cMmaT (f : CSlot) : Statement (.cMmaT f) :=
  fun h _ => roundTripC rfl rfl rfl h

theorem cOsw (f : CSlot) : Statement (.cOsw f) :=
  fun h _ => roundTripC rfl rfl rfl h

theorem cOsr (f : CSlot) : Statement (.cOsr f) :=
  fun h _ => roundTripC rfl rfl rfl h

theorem cDrn (f : CSlot) : Statement (.cDrn f) :=
  fun h _ => roundTripC rfl rfl rfl h

theorem cFlg (f : CSlot) : Statement (.cFlg f) :=
  fun h _ => roundTripC rfl rfl rfl h

theorem cHash32 (f : CSlot) : Statement (.cHash32 f) :=
  fun h _ => roundTripC rfl rfl rfl h

theorem cTidx (f : CSlot) : Statement (.cTidx f) :=
  fun h _ => roundTripC rfl rfl rfl h

theorem yxNop (ax : Axis) : Statement (.yxNop ax) :=
  fun h _ => roundTripYX rfl rfl rfl rfl (by
    simp (disch := decide) only [candYX, bitsN_yxWord_op, bits_yxWord_m, bits_yxWord_x, bitB_yxWord_x] <;> rfl) h

theorem yxSet (ax : Axis) (m : BitVec 2) (m2 : BitVec 2) : Statement (.yxSet ax m m2) :=
  fun h _ => roundTripYX rfl rfl rfl rfl (by
    simp (disch := decide) only [candYX, bitsN_yxWord_op, bits_yxWord_m, bits_yxWord_x, bitB_yxWord_x, bits_m2] <;> rfl)
    h

theorem yxOne (ax : Axis) (m : BitVec 2) : Statement (.yxOne ax m) :=
  fun h _ => roundTripYX rfl rfl rfl rfl (by
    simp (disch := decide) only [candYX, bitsN_yxWord_op, bits_yxWord_m, bits_yxWord_x, bitB_yxWord_x] <;> rfl) h

theorem yxNone (ax : Axis) (m : BitVec 2) : Statement (.yxNone ax m) :=
  fun h _ => roundTripYX rfl rfl rfl rfl (by
    simp (disch := decide) only [candYX, bitsN_yxWord_op, bits_yxWord_m, bits_yxWord_x, bitB_yxWord_x] <;> rfl) h

theorem yxShl (ax : Axis) (m : BitVec 2) (n : BitVec 6) : Statement (.yxShl ax m n) :=
  fun h _ => roundTripYX rfl rfl rfl rfl (by
    simp (disch := decide) only [candYX, bitsN_yxWord_op, bits_yxWord_m, bits_yxWord_x, bitB_yxWord_x, bits_setWidth,
    bits_self] <;> rfl) h

theorem yxShr (ax : Axis) (m : BitVec 2) (n : BitVec 6) : Statement (.yxShr ax m n) :=
  fun h _ => roundTripYX rfl rfl rfl rfl (by
    simp (disch := decide) only [candYX, bitsN_yxWord_op, bits_yxWord_m, bits_yxWord_x, bitB_yxWord_x, bits_setWidth,
    bits_self] <;> rfl) h

theorem yxRotl (ax : Axis) (m : BitVec 2) (n : BitVec 6) : Statement (.yxRotl ax m n) :=
  fun h _ => roundTripYX rfl rfl rfl rfl (by
    simp (disch := decide) only [candYX, bitsN_yxWord_op, bits_yxWord_m, bits_yxWord_x, bitB_yxWord_x, bits_setWidth,
    bits_self] <;> rfl) h

theorem yxRotr (ax : Axis) (m : BitVec 2) (n : BitVec 6) : Statement (.yxRotr ax m n) :=
  fun h _ => roundTripYX rfl rfl rfl rfl (by
    simp (disch := decide) only [candYX, bitsN_yxWord_op, bits_yxWord_m, bits_yxWord_x, bitB_yxWord_x, bits_setWidth,
    bits_self] <;> rfl) h

theorem yxAnd (ax : Axis) (m : BitVec 2) (m2 : BitVec 2) : Statement (.yxAnd ax m m2) :=
  fun h _ => roundTripYX rfl rfl rfl rfl (by
    simp (disch := decide) only [candYX, bitsN_yxWord_op, bits_yxWord_m, bits_yxWord_x, bitB_yxWord_x, bits_m2] <;> rfl)
    h

theorem yxOr (ax : Axis) (m : BitVec 2) (m2 : BitVec 2) : Statement (.yxOr ax m m2) :=
  fun h _ => roundTripYX rfl rfl rfl rfl (by
    simp (disch := decide) only [candYX, bitsN_yxWord_op, bits_yxWord_m, bits_yxWord_x, bitB_yxWord_x, bits_m2] <;> rfl)
    h

theorem yxRange (ax : Axis) (m : BitVec 2) (lo : BitVec 6) (len : BitVec 4) : Statement (.yxRange ax m lo len) :=
  fun h _ => roundTripYX rfl rfl rfl rfl (by
    simp (disch := decide) only [candYX, bitsN_yxWord_op, bits_yxWord_m, bits_yxWord_x, bitB_yxWord_x, bits_range_lo,
    bits_range_len] <;> rfl) h

theorem yxStride (ax : Axis) (m : BitVec 2) (ph : BitVec 6) (st : BitVec 4) : Statement (.yxStride ax m ph st) :=
  fun h _ => roundTripYX rfl rfl rfl rfl (by
    simp (disch := decide) only [candYX, bitsN_yxWord_op, bits_yxWord_m, bits_yxWord_x, bitB_yxWord_x, bits_range_lo,
    bits_range_len] <;> rfl) h

theorem yxFlag (ax : Axis) (m : BitVec 2) : Statement (.yxFlag ax m) :=
  fun h _ => roundTripYX rfl rfl rfl rfl (by
    simp (disch := decide) only [candYX, bitsN_yxWord_op, bits_yxWord_m, bits_yxWord_x, bitB_yxWord_x] <;> rfl) h

theorem yxFlagN (ax : Axis) (m : BitVec 2) : Statement (.yxFlagN ax m) :=
  fun h _ => roundTripYX rfl rfl rfl rfl (by
    simp (disch := decide) only [candYX, bitsN_yxWord_op, bits_yxWord_m, bits_yxWord_x, bitB_yxWord_x] <;> rfl) h

theorem nwNop (l : PortLoader) : Statement (.nwNop l) :=
  by exact fun h _ => roundTripNW rfl rfl rfl rfl rfl (by
    simp (disch := decide) only [candNW, Option.getD_none, bitsN_edgeWord_op, bits_edgeWord, bitsN_edgeWord] <;> rfl) h

theorem nwGo (l : PortLoader) : Statement (.nwGo l) :=
  by exact fun h _ => roundTripNW rfl rfl rfl rfl rfl (by
    simp (disch := decide) only [candNW, Option.getD_none, bitsN_edgeWord_op, bits_edgeWord, bitsN_edgeWord] <;> rfl) h

theorem nwStep (l : PortLoader) (dst : LatchDst) : Statement (.nwStep l dst) :=
  by cases dst <;> exact fun h _ => roundTripNW rfl rfl rfl rfl rfl (by
    simp (disch := decide) only [candNW, Option.getD_none, bitsN_edgeWord_op, bits_edgeWord, bitsN_edgeWord, latchBits,
    bits_latch_q, bitsN_latch_dst] <;> rfl) h

theorem nwAuto (l : PortLoader) (dst : LatchDst) (n : BitVec 24) : Statement (.nwAuto l dst n) :=
  by cases dst <;> exact fun h _ => roundTripNW rfl rfl rfl rfl rfl (by
    simp (disch := decide) only [candNW, Option.getD_none, bitsN_edgeWord_op, bits_edgeWord, bitsN_edgeWord, latchBits,
    bits_auto_q, bitsN_auto_dst, bitsN_auto_port, bits_auto_n] <;> rfl) h

theorem nwHold (l : PortLoader) : Statement (.nwHold l) :=
  by exact fun h _ => roundTripNW rfl rfl rfl rfl rfl (by
    simp (disch := decide) only [candNW, Option.getD_none, bitsN_edgeWord_op, bits_edgeWord, bitsN_edgeWord] <;> rfl) h

theorem nwZero (l : PortLoader) : Statement (.nwZero l) :=
  by exact fun h _ => roundTripNW rfl rfl rfl rfl rfl (by
    simp (disch := decide) only [candNW, Option.getD_none, bitsN_edgeWord_op, bits_edgeWord, bitsN_edgeWord] <;> rfl) h

theorem nwBcast (l : PortLoader) (j : BitVec 6) : Statement (.nwBcast l j) :=
  by exact fun h _ => roundTripNW rfl rfl rfl rfl rfl (by
    simp (disch := decide) only [candNW, Option.getD_none, bitsN_edgeWord_op, bits_edgeWord, bitsN_edgeWord,
    bits_setWidth, bits_self] <;> rfl) h

theorem nwSet (l : PortLoader) (f : BitVec 4) (v : LImm) : Statement (.nwSet l f v) :=
  by cases v <;> exact fun h _ => roundTripNW rfl rfl rfl rfl rfl (by
    simp (disch := decide) only [candNW, Option.getD_some, Option.getD_none, bitsN_edgeWord_op, bits_edgeWord,
    bitsN_edgeWord, bitB_edgeWord, bits_setWidth, bits_self, limmOf, bits_set_f, bits_set_v, bitB_set_xe,
    bits_setl_f, bitB_setl_xe] <;> rfl) h

theorem dAcc (ty : AccTy) (rm : Rm) : Statement (.dAcc ty rm) :=
  by cases ty <;> cases rm <;> exact fun h _ => roundTripD rfl rfl rfl rfl rfl (by
    simp (disch := decide) only [candD, Option.getD_none, bitsN_edgeWord_op, bits_edgeWord, bitsN_edgeWord,
    bitsN_acc_ty, bitsN_acc_rm] <;> rfl) h

theorem dRed (op : RedOp) (ty : AccTy) (er : BitVec 2) : Statement (.dRed op ty er) :=
  by cases op <;> cases ty <;> exact fun h _ => roundTripD rfl rfl rfl rfl rfl (by
    simp (disch := decide) only [candD, Option.getD_none, bitsN_edgeWord_op, bits_edgeWord, bitsN_edgeWord,
    bitsN_red_op, bitsN_red_ty, bits_red_er] <;> rfl) h

theorem dSet (f : BitVec 4) (v : LImm) : Statement (.dSet f v) :=
  by cases v <;> exact fun h _ => roundTripD rfl rfl rfl rfl rfl (by
    simp (disch := decide) only [candD, Option.getD_some, Option.getD_none, bitsN_edgeWord_op, bits_edgeWord,
    bitsN_edgeWord, bitB_edgeWord, bits_setWidth, bits_self, limmOf, bits_set_f, bits_set_v, bitB_set_xe,
    bits_setl_f, bitB_setl_xe] <;> rfl) h

theorem tTin (i : BitVec 6) : Statement (.tTin i) :=
  fun h _ => roundTripT rfl rfl rfl rfl rfl rfl (by
    simp (disch := decide) only [Option.getD_none, candT, bitsN_tWord_op, bits_tWord_i, bitB_tWord_src] <;> rfl) h

theorem tTinSp (i : BitVec 6) (addr : BitVec 22) : Statement (.tTinSp i addr) :=
  fun h _ => roundTripT rfl rfl rfl rfl rfl rfl (by
    simp (disch := decide) only [Option.getD_some, candT, bitsN_tWord_op, bits_tWord_i, bitB_tWord_src, bits_setWidth,
    bits_self] <;> rfl) h

theorem tTout (j : BitVec 6) : Statement (.tTout j) :=
  fun h _ => roundTripT rfl rfl rfl rfl rfl rfl (by
    simp (disch := decide) only [Option.getD_none, candT, bitsN_tWord_op, bits_tWord_i, bitB_tWord_src] <;> rfl) h

theorem aLand (slot : BitVec 5) (sa : BitVec 5) (sd : BitVec 5) (lines : BitVec 6) (d : BitVec 13) : Statement
    (.aLand slot sa sd lines d) :=
  by exact fun h _ => roundTripA rfl rfl rfl rfl rfl rfl rfl (by
    simp (disch := decide) only [candA, bitsN_edgeWord_op, bits_edgeWord, bitB_edgeWord, bits_land] <;> rfl) h

theorem aHExpect (h : BitVec 7) (n : ExpectCount) : Statement (.aHExpect h n) :=
  by cases n <;> exact fun h _ => roundTripA rfl rfl rfl rfl rfl rfl rfl (by
    simp (disch := decide) only [candA, bitsN_edgeWord_op, bits_edgeWord, bitB_edgeWord, bits_expect_reg,
    bits_expect_imm] <;> rfl) h

theorem aHWait (h : BitVec 7) (p : Bool) : Statement (.aHWait h p) :=
  by exact fun h _ => roundTripA rfl rfl rfl rfl rfl rfl rfl (by
    simp (disch := decide) only [candA, bitsN_edgeWord_op, bits_edgeWord, bitB_edgeWord, bits_wait] <;> rfl) h

theorem aHDrain (h : BitVec 7) : Statement (.aHDrain h) :=
  by exact fun h _ => roundTripA rfl rfl rfl rfl rfl rfl rfl (by
    simp (disch := decide) only [candA, bitsN_edgeWord_op, bits_edgeWord, bitB_edgeWord, bits_handle] <;> rfl) h

theorem aHFree (h : BitVec 7) : Statement (.aHFree h) :=
  by exact fun h _ => roundTripA rfl rfl rfl rfl rfl rfl rfl (by
    simp (disch := decide) only [candA, bitsN_edgeWord_op, bits_edgeWord, bitB_edgeWord, bits_handle] <;> rfl) h

theorem aOsClaim (h : BitVec 7) (first : BitVec 6) (count : BitVec 7) : Statement (.aOsClaim h first count) :=
  by exact fun h _ => roundTripA rfl rfl rfl rfl rfl rfl rfl (by
    simp (disch := decide) only [candA, bitsN_edgeWord_op, bits_edgeWord, bitB_edgeWord, bits_claim] <;> rfl) h

theorem aOsSeal (h : BitVec 7) : Statement (.aOsSeal h) :=
  by exact fun h _ => roundTripA rfl rfl rfl rfl rfl rfl rfl (by
    simp (disch := decide) only [candA, bitsN_edgeWord_op, bits_edgeWord, bitB_edgeWord, bits_handle] <;> rfl) h

theorem aOsRelease (h : BitVec 7) : Statement (.aOsRelease h) :=
  by exact fun h _ => roundTripA rfl rfl rfl rfl rfl rfl rfl (by
    simp (disch := decide) only [candA, bitsN_edgeWord_op, bits_edgeWord, bitB_edgeWord, bits_handle] <;> rfl) h

theorem aPfc (sa : BitVec 5) (rc : BitVec 8) (lines : BitVec 6) : Statement (.aPfc sa rc lines) :=
  by exact fun h _ => roundTripA rfl rfl rfl rfl rfl rfl rfl (by
    simp (disch := decide) only [candA, bitsN_edgeWord_op, bits_edgeWord, bitB_edgeWord, bits_pfc] <;> rfl) h

theorem reservedPacketOpcode (pr : Bool) (op : BitVec 8) : Statement (.reservedPacketOpcode pr op) :=
  by
    intro h _
    have hop : 0x13 ≤ op.toNat := by
      have h := (Bool.and_eq_true _ _ ▸ (Bool.and_eq_true _ _ ▸ h).1).2
      exact of_decide_eq_true h
    show decodeEnc (.packet [pktHeader op 1 pr 0]) = _
    simp only [decodeEnc, decodePacket, bitsN_pktHeader_op, hop, if_true, bitB_pktHeader_p, bits_pktHeader_op,
      List.drop_one, List.tail_cons]

theorem reservedCodeWord (w : BitVec 16) : Statement (.reservedCodeWord w) :=
  fun h _ => if_pos (Bool.and_eq_true _ _ ▸ h).2

theorem reservedSlotOpcode (slot : Slot) : Statement (.reservedSlotOpcode slot) :=
  fun _ h => absurd rfl h

theorem sNop : Statement .sNop :=
  fun h _ => roundTripS rfl (by
    unfold candS; rw [bitsN_sWord_op]; show some _ = some _
    simp (disch := decide) only []) h

theorem sRet : Statement .sRet :=
  fun h _ => roundTripS rfl (by
    unfold candS; rw [bitsN_sWord_op]; show some _ = some _
    simp (disch := decide) only []) h

theorem sLoopbrk : Statement .sLoopbrk :=
  fun h _ => roundTripS rfl (by
    unfold candS; rw [bitsN_sWord_op]; show some _ = some _
    simp (disch := decide) only []) h

theorem sHalt : Statement .sHalt :=
  fun h _ => roundTripS rfl (by
    unfold candS; rw [bitsN_sWord_op]; show some _ = some _
    simp (disch := decide) only []) h

theorem wGather : Statement .wGather :=
  by exact fun h _ => roundTripNW rfl rfl rfl rfl rfl (by
    simp (disch := decide) only [candNW, Option.getD_none, bitsN_edgeWord_op, bits_edgeWord, bitsN_edgeWord] <;> rfl) h

theorem dNop : Statement .dNop :=
  by exact fun h _ => roundTripD rfl rfl rfl rfl rfl (by
    simp (disch := decide) only [candD, Option.getD_none, bitsN_edgeWord_op, bits_edgeWord, bitsN_edgeWord] <;> rfl) h

theorem dGo : Statement .dGo :=
  by exact fun h _ => roundTripD rfl rfl rfl rfl rfl (by
    simp (disch := decide) only [candD, Option.getD_none, bitsN_edgeWord_op, bits_edgeWord, bitsN_edgeWord] <;> rfl) h

theorem dSt : Statement .dSt :=
  by exact fun h _ => roundTripD rfl rfl rfl rfl rfl (by
    simp (disch := decide) only [candD, Option.getD_none, bitsN_edgeWord_op, bits_edgeWord, bitsN_edgeWord] <;> rfl) h

theorem dSeg : Statement .dSeg :=
  by exact fun h _ => roundTripD rfl rfl rfl rfl rfl (by
    simp (disch := decide) only [candD, Option.getD_none, bitsN_edgeWord_op, bits_edgeWord, bitsN_edgeWord] <;> rfl) h

theorem tNop : Statement .tNop :=
  fun h _ => roundTripT rfl rfl rfl rfl rfl rfl (by
    simp (disch := decide) only [Option.getD_none, candT, bitsN_tWord_op, bits_tWord_i, bitB_tWord_src] <;> rfl) h

theorem tTclr : Statement .tTclr :=
  fun h _ => roundTripT rfl rfl rfl rfl rfl rfl (by
    simp (disch := decide) only [Option.getD_none, candT, bitsN_tWord_op, bits_tWord_i, bitB_tWord_src] <;> rfl) h

theorem aNop : Statement .aNop :=
  by exact fun h _ => roundTripA rfl rfl rfl rfl rfl rfl rfl (by
    simp (disch := decide) only [candA, bitsN_edgeWord_op, bits_edgeWord, bitB_edgeWord] <;> rfl) h

theorem bhctlPwrSet : Statement .bhctlPwrSet :=
  fun _ h => absurd rfl h

theorem bhctlPwrClear : Statement .bhctlPwrClear :=
  fun _ h => absurd rfl h

theorem scrubChunkComplete : Statement .scrubChunkComplete :=
  fun _ h => absurd rfl h

theorem partitionReset : Statement .partitionReset :=
  fun _ h => absurd rfl h

theorem partitionDissolve : Statement .partitionDissolve :=
  fun _ h => absurd rfl h

theorem generationAcknowledge : Statement .generationAcknowledge :=
  fun _ h => absurd rfl h

theorem bcpEscalationReset : Statement .bcpEscalationReset :=
  fun _ h => absurd rfl h

theorem resetSequenceComplete : Statement .resetSequenceComplete :=
  fun _ h => absurd rfl h

theorem resetSequenceTimeout : Statement .resetSequenceTimeout :=
  fun _ h => absurd rfl h

theorem powerLimitCycleRemoval : Statement .powerLimitCycleRemoval :=
  fun _ h => absurd rfl h

theorem inputPowerLoss : Statement .inputPowerLoss :=
  fun _ h => absurd rfl h

theorem packageTrip : Statement .packageTrip :=
  fun _ h => absurd rfl h

theorem bringUp : Statement .bringUp :=
  fun _ h => absurd rfl h

theorem portFrameReceive : Statement .portFrameReceive :=
  fun _ h => absurd rfl h

theorem portcfgEnSet : Statement .portcfgEnSet :=
  fun _ h => absurd rfl h

theorem portcfgEnClear : Statement .portcfgEnClear :=
  fun _ h => absurd rfl h

theorem portUp : Statement .portUp :=
  fun _ h => absurd rfl h

theorem roceSendReceive : Statement .roceSendReceive :=
  fun _ h => absurd rfl h

theorem roceRdmaWrite : Statement .roceRdmaWrite :=
  fun _ h => absurd rfl h

theorem roceRdmaRead : Statement .roceRdmaRead :=
  fun _ h => absurd rfl h

theorem roceAtomicRequest : Statement .roceAtomicRequest :=
  fun _ h => absurd rfl h

theorem roceResponseReceive : Statement .roceResponseReceive :=
  fun _ h => absurd rfl h

theorem qpRetryTimeout : Statement .qpRetryTimeout :=
  fun _ h => absurd rfl h

theorem cnpReceive : Statement .cnpReceive :=
  fun _ h => absurd rfl h

theorem cnpRateIncrease : Statement .cnpRateIncrease :=
  fun _ h => absurd rfl h

theorem qpConnect : Statement .qpConnect :=
  fun _ h => absurd rfl h

theorem qpReset : Statement .qpReset :=
  fun _ h => absurd rfl h

theorem qpFlushComplete : Statement .qpFlushComplete :=
  fun _ h => absurd rfl h

theorem transmitArbitrationRound : Statement .transmitArbitrationRound :=
  fun _ h => absurd rfl h

theorem linkTrain : Statement .linkTrain :=
  fun _ h => absurd rfl h

theorem linkDisable : Statement .linkDisable :=
  fun _ h => absurd rfl h

theorem linkTrainingTimeout : Statement .linkTrainingTimeout :=
  fun _ h => absurd rfl h

theorem linkFlitSend : Statement .linkFlitSend :=
  fun _ h => absurd rfl h

theorem streamDataFlitReceive : Statement .streamDataFlitReceive :=
  fun _ h => absurd rfl h

theorem collectiveDataFlitReceive : Statement .collectiveDataFlitReceive :=
  fun _ h => absurd rfl h

theorem collectiveControlFlitReceive : Statement .collectiveControlFlitReceive :=
  fun _ h => absurd rfl h

theorem managementFlitReceive : Statement .managementFlitReceive :=
  fun _ h => absurd rfl h

theorem idleFlitReceive : Statement .idleFlitReceive :=
  fun _ h => absurd rfl h

theorem retryRequestFlitReceive : Statement .retryRequestFlitReceive :=
  fun _ h => absurd rfl h

theorem linkAckTimeout : Statement .linkAckTimeout :=
  fun _ h => absurd rfl h

theorem linkRxSilenceTimeout : Statement .linkRxSilenceTimeout :=
  fun _ h => absurd rfl h

theorem lnkstatRetryClear : Statement .lnkstatRetryClear :=
  fun _ h => absurd rfl h

theorem errqpDropClear : Statement .errqpDropClear :=
  fun _ h => absurd rfl h

theorem routerArbitrationRound : Statement .routerArbitrationRound :=
  fun _ h => absurd rfl h

theorem rd64 : Statement .rd64 :=
  fun _ h => absurd rfl h

theorem wr64 : Statement .wr64 :=
  fun _ h => absurd rfl h

theorem rmw : Statement .rmw :=
  fun _ h => absurd rfl h

theorem stackReplyReceive : Statement .stackReplyReceive :=
  fun _ h => absurd rfl h

theorem l2Read : Statement .l2Read :=
  fun _ h => absurd rfl h

theorem l2Write : Statement .l2Write :=
  fun _ h => absurd rfl h

theorem windowRequest : Statement .windowRequest :=
  fun _ h => absurd rfl h

theorem rekeyChunkComplete : Statement .rekeyChunkComplete :=
  fun _ h => absurd rfl h

theorem rekeyComplete : Statement .rekeyComplete :=
  fun _ h => absurd rfl h

theorem errorRecordDeliver : Statement .errorRecordDeliver :=
  fun _ h => absurd rfl h

theorem checkpointStart : Statement .checkpointStart :=
  fun _ h => absurd rfl h

theorem checkpointAbort : Statement .checkpointAbort :=
  fun _ h => absurd rfl h

theorem checkpointRecordSend : Statement .checkpointRecordSend :=
  fun _ h => absurd rfl h

theorem checkpointEnd : Statement .checkpointEnd :=
  fun _ h => absurd rfl h

theorem qmapHalt : Statement .qmapHalt :=
  fun _ h => absurd rfl h

theorem streamFetchComplete : Statement .streamFetchComplete :=
  fun _ h => absurd rfl h

theorem queueWaitSatisfied : Statement .queueWaitSatisfied :=
  fun _ h => absurd rfl h

theorem notificationSend : Statement .notificationSend :=
  fun _ h => absurd rfl h

theorem xferPacketComplete : Statement .xferPacketComplete :=
  fun _ h => absurd rfl h

theorem semaphoreRemoteArrival : Statement .semaphoreRemoteArrival :=
  fun _ h => absurd rfl h

theorem nodePlacement : Statement .nodePlacement :=
  fun _ h => absurd rfl h

theorem nodeStart : Statement .nodeStart :=
  fun _ h => absurd rfl h

theorem scheduleTableEnable : Statement .scheduleTableEnable :=
  fun _ h => absurd rfl h

theorem scheduleEntryRead : Statement .scheduleEntryRead :=
  fun _ h => absurd rfl h

theorem startTickReached : Statement .startTickReached :=
  fun _ h => absurd rfl h

theorem arrayTickStart : Statement .arrayTickStart :=
  fun _ h => absurd rfl h

theorem budgetRefill : Statement .budgetRefill :=
  fun _ h => absurd rfl h

theorem budgetExhausted : Statement .budgetExhausted :=
  fun _ h => absurd rfl h

theorem quantumExpiry : Statement .quantumExpiry :=
  fun _ h => absurd rfl h

theorem preemptionRequest : Statement .preemptionRequest :=
  fun _ h => absurd rfl h

theorem switchableBoundaryReached : Statement .switchableBoundaryReached :=
  fun _ h => absurd rfl h

theorem nodeSaveStart : Statement .nodeSaveStart :=
  fun _ h => absurd rfl h

theorem nodeSaveComplete : Statement .nodeSaveComplete :=
  fun _ h => absurd rfl h

theorem watchdogExpiry : Statement .watchdogExpiry :=
  fun _ h => absurd rfl h

theorem requeueComplete : Statement .requeueComplete :=
  fun _ h => absurd rfl h

theorem verdictRead : Statement .verdictRead :=
  fun _ h => absurd rfl h

theorem nodeDone : Statement .nodeDone :=
  fun _ h => absurd rfl h

theorem asynchronousTrap : Statement .asynchronousTrap :=
  fun _ h => absurd rfl h

theorem haltComplete : Statement .haltComplete :=
  fun _ h => absurd rfl h

theorem landingLineArrival : Statement .landingLineArrival :=
  fun _ h => absurd rfl h

theorem landingWrite : Statement .landingWrite :=
  fun _ h => absurd rfl h

theorem pendingValueWrite : Statement .pendingValueWrite :=
  fun _ h => absurd rfl h

theorem semaphoreWaitSatisfied : Statement .semaphoreWaitSatisfied :=
  fun _ h => absurd rfl h

theorem egressLineDrain : Statement .egressLineDrain :=
  fun _ h => absurd rfl h

theorem regionWalkComplete : Statement .regionWalkComplete :=
  fun _ h => absurd rfl h

theorem scOperationPerform : Statement .scOperationPerform :=
  fun _ h => absurd rfl h

theorem flitCrcFailure : Statement .flitCrcFailure :=
  fun _ h => absurd rfl h

theorem regionCacheInvalidation : Statement .regionCacheInvalidation :=
  fun _ h => absurd rfl h

end Sys2Proof.Laws.RoundTrip
end

