-- ==== Sys2Proof/Laws/State.lean ====
section
/-! SUPPORT. One lemma for each field of State under each named update, and what each named place reads after
each update, so that no proof unfolds a record update. -/
namespace Sys2Proof.Machine
open Sys2Proof

-- setArr

section
variable (s : State) (p : Nat) (a : ArrayS)

@[simp] theorem setArr_agenda : (setArr s p a).agenda = s.agenda := rfl
@[simp] theorem setArr_cur : (setArr s p a).cur = s.cur := rfl
@[simp] theorem setArr_fresh : (setArr s p a).fresh = s.fresh := rfl
@[simp] theorem setArr_now : (setArr s p a).now = s.now := rfl
@[simp] theorem setArr_hub : (setArr s p a).hub = s.hub := rfl
@[simp] theorem setArr_port : (setArr s p a).port = s.port := rfl
@[simp] theorem setArr_bhs : (setArr s p a).bhs = s.bhs := rfl
@[simp] theorem setArr_parts : (setArr s p a).parts = s.parts := rfl
@[simp] theorem setArr_links : (setArr s p a).links = s.links := rfl
@[simp] theorem setArr_routers : (setArr s p a).routers = s.routers := rfl
@[simp] theorem setArr_slices : (setArr s p a).slices = s.slices := rfl
@[simp] theorem setArr_stks : (setArr s p a).stks = s.stks := rfl
@[simp] theorem setArr_pages : (setArr s p a).pages = s.pages := rfl
@[simp] theorem setArr_tree : (setArr s p a).tree = s.tree := rfl
@[simp] theorem setArr_metaErr : (setArr s p a).metaErr = s.metaErr := rfl
@[simp] theorem setArr_upper : (setArr s p a).upper = s.upper := rfl
@[simp] theorem setArr_mem : (setArr s p a).mem = s.mem := rfl
@[simp] theorem setArr_lmeta : (setArr s p a).lmeta = s.lmeta := rfl
end

-- modArr

section
variable (s : State) (p : Nat) (f : ArrayS → ArrayS)

@[simp] theorem modArr_agenda : (modArr s p f).agenda = s.agenda := rfl
@[simp] theorem modArr_cur : (modArr s p f).cur = s.cur := rfl
@[simp] theorem modArr_fresh : (modArr s p f).fresh = s.fresh := rfl
@[simp] theorem modArr_now : (modArr s p f).now = s.now := rfl
@[simp] theorem modArr_hub : (modArr s p f).hub = s.hub := rfl
@[simp] theorem modArr_port : (modArr s p f).port = s.port := rfl
@[simp] theorem modArr_bhs : (modArr s p f).bhs = s.bhs := rfl
@[simp] theorem modArr_parts : (modArr s p f).parts = s.parts := rfl
@[simp] theorem modArr_links : (modArr s p f).links = s.links := rfl
@[simp] theorem modArr_routers : (modArr s p f).routers = s.routers := rfl
@[simp] theorem modArr_slices : (modArr s p f).slices = s.slices := rfl
@[simp] theorem modArr_stks : (modArr s p f).stks = s.stks := rfl
@[simp] theorem modArr_pages : (modArr s p f).pages = s.pages := rfl
@[simp] theorem modArr_tree : (modArr s p f).tree = s.tree := rfl
@[simp] theorem modArr_metaErr : (modArr s p f).metaErr = s.metaErr := rfl
@[simp] theorem modArr_upper : (modArr s p f).upper = s.upper := rfl
@[simp] theorem modArr_mem : (modArr s p f).mem = s.mem := rfl
@[simp] theorem modArr_lmeta : (modArr s p f).lmeta = s.lmeta := rfl
end

-- onArr

section
variable (s : State) (f : ArrayS → ArrayS)

@[simp] theorem onArr_agenda : (onArr s f).agenda = s.agenda := rfl
@[simp] theorem onArr_cur : (onArr s f).cur = s.cur := rfl
@[simp] theorem onArr_fresh : (onArr s f).fresh = s.fresh := rfl
@[simp] theorem onArr_now : (onArr s f).now = s.now := rfl
@[simp] theorem onArr_hub : (onArr s f).hub = s.hub := rfl
@[simp] theorem onArr_port : (onArr s f).port = s.port := rfl
@[simp] theorem onArr_bhs : (onArr s f).bhs = s.bhs := rfl
@[simp] theorem onArr_parts : (onArr s f).parts = s.parts := rfl
@[simp] theorem onArr_links : (onArr s f).links = s.links := rfl
@[simp] theorem onArr_routers : (onArr s f).routers = s.routers := rfl
@[simp] theorem onArr_slices : (onArr s f).slices = s.slices := rfl
@[simp] theorem onArr_stks : (onArr s f).stks = s.stks := rfl
@[simp] theorem onArr_pages : (onArr s f).pages = s.pages := rfl
@[simp] theorem onArr_tree : (onArr s f).tree = s.tree := rfl
@[simp] theorem onArr_metaErr : (onArr s f).metaErr = s.metaErr := rfl
@[simp] theorem onArr_upper : (onArr s f).upper = s.upper := rfl
@[simp] theorem onArr_mem : (onArr s f).mem = s.mem := rfl
@[simp] theorem onArr_lmeta : (onArr s f).lmeta = s.lmeta := rfl
end

-- setBh

section
variable (s : State) (b : Nat) (x : BhS)

@[simp] theorem setBh_agenda : (setBh s b x).agenda = s.agenda := rfl
@[simp] theorem setBh_cur : (setBh s b x).cur = s.cur := rfl
@[simp] theorem setBh_fresh : (setBh s b x).fresh = s.fresh := rfl
@[simp] theorem setBh_now : (setBh s b x).now = s.now := rfl
@[simp] theorem setBh_hub : (setBh s b x).hub = s.hub := rfl
@[simp] theorem setBh_port : (setBh s b x).port = s.port := rfl
@[simp] theorem setBh_parts : (setBh s b x).parts = s.parts := rfl
@[simp] theorem setBh_links : (setBh s b x).links = s.links := rfl
@[simp] theorem setBh_routers : (setBh s b x).routers = s.routers := rfl
@[simp] theorem setBh_slices : (setBh s b x).slices = s.slices := rfl
@[simp] theorem setBh_stks : (setBh s b x).stks = s.stks := rfl
@[simp] theorem setBh_pages : (setBh s b x).pages = s.pages := rfl
@[simp] theorem setBh_tree : (setBh s b x).tree = s.tree := rfl
@[simp] theorem setBh_metaErr : (setBh s b x).metaErr = s.metaErr := rfl
@[simp] theorem setBh_upper : (setBh s b x).upper = s.upper := rfl
@[simp] theorem setBh_mem : (setBh s b x).mem = s.mem := rfl
@[simp] theorem setBh_lmeta : (setBh s b x).lmeta = s.lmeta := rfl
@[simp] theorem setBh_arrs : (setBh s b x).arrs = s.arrs := rfl
end

-- modBh

section
variable (s : State) (b : Nat) (f : BhS → BhS)

@[simp] theorem modBh_agenda : (modBh s b f).agenda = s.agenda := rfl
@[simp] theorem modBh_cur : (modBh s b f).cur = s.cur := rfl
@[simp] theorem modBh_fresh : (modBh s b f).fresh = s.fresh := rfl
@[simp] theorem modBh_now : (modBh s b f).now = s.now := rfl
@[simp] theorem modBh_hub : (modBh s b f).hub = s.hub := rfl
@[simp] theorem modBh_port : (modBh s b f).port = s.port := rfl
@[simp] theorem modBh_parts : (modBh s b f).parts = s.parts := rfl
@[simp] theorem modBh_links : (modBh s b f).links = s.links := rfl
@[simp] theorem modBh_routers : (modBh s b f).routers = s.routers := rfl
@[simp] theorem modBh_slices : (modBh s b f).slices = s.slices := rfl
@[simp] theorem modBh_stks : (modBh s b f).stks = s.stks := rfl
@[simp] theorem modBh_pages : (modBh s b f).pages = s.pages := rfl
@[simp] theorem modBh_tree : (modBh s b f).tree = s.tree := rfl
@[simp] theorem modBh_metaErr : (modBh s b f).metaErr = s.metaErr := rfl
@[simp] theorem modBh_upper : (modBh s b f).upper = s.upper := rfl
@[simp] theorem modBh_mem : (modBh s b f).mem = s.mem := rfl
@[simp] theorem modBh_lmeta : (modBh s b f).lmeta = s.lmeta := rfl
@[simp] theorem modBh_arrs : (modBh s b f).arrs = s.arrs := rfl
end

-- modQueue

section
variable (s : State) (b q : Nat) (f : QueueS → QueueS)

@[simp] theorem modQueue_agenda : (modQueue s b q f).agenda = s.agenda := rfl
@[simp] theorem modQueue_cur : (modQueue s b q f).cur = s.cur := rfl
@[simp] theorem modQueue_fresh : (modQueue s b q f).fresh = s.fresh := rfl
@[simp] theorem modQueue_now : (modQueue s b q f).now = s.now := rfl
@[simp] theorem modQueue_hub : (modQueue s b q f).hub = s.hub := rfl
@[simp] theorem modQueue_port : (modQueue s b q f).port = s.port := rfl
@[simp] theorem modQueue_parts : (modQueue s b q f).parts = s.parts := rfl
@[simp] theorem modQueue_links : (modQueue s b q f).links = s.links := rfl
@[simp] theorem modQueue_routers : (modQueue s b q f).routers = s.routers := rfl
@[simp] theorem modQueue_slices : (modQueue s b q f).slices = s.slices := rfl
@[simp] theorem modQueue_stks : (modQueue s b q f).stks = s.stks := rfl
@[simp] theorem modQueue_pages : (modQueue s b q f).pages = s.pages := rfl
@[simp] theorem modQueue_tree : (modQueue s b q f).tree = s.tree := rfl
@[simp] theorem modQueue_metaErr : (modQueue s b q f).metaErr = s.metaErr := rfl
@[simp] theorem modQueue_upper : (modQueue s b q f).upper = s.upper := rfl
@[simp] theorem modQueue_mem : (modQueue s b q f).mem = s.mem := rfl
@[simp] theorem modQueue_lmeta : (modQueue s b q f).lmeta = s.lmeta := rfl
@[simp] theorem modQueue_arrs : (modQueue s b q f).arrs = s.arrs := rfl
end

-- setNode

section
variable (s : State) (n : NodeId) (x : NodeS)

@[simp] theorem setNode_agenda : (setNode s n x).agenda = s.agenda := rfl
@[simp] theorem setNode_cur : (setNode s n x).cur = s.cur := rfl
@[simp] theorem setNode_fresh : (setNode s n x).fresh = s.fresh := rfl
@[simp] theorem setNode_now : (setNode s n x).now = s.now := rfl
@[simp] theorem setNode_hub : (setNode s n x).hub = s.hub := rfl
@[simp] theorem setNode_port : (setNode s n x).port = s.port := rfl
@[simp] theorem setNode_parts : (setNode s n x).parts = s.parts := rfl
@[simp] theorem setNode_links : (setNode s n x).links = s.links := rfl
@[simp] theorem setNode_routers : (setNode s n x).routers = s.routers := rfl
@[simp] theorem setNode_slices : (setNode s n x).slices = s.slices := rfl
@[simp] theorem setNode_stks : (setNode s n x).stks = s.stks := rfl
@[simp] theorem setNode_pages : (setNode s n x).pages = s.pages := rfl
@[simp] theorem setNode_tree : (setNode s n x).tree = s.tree := rfl
@[simp] theorem setNode_metaErr : (setNode s n x).metaErr = s.metaErr := rfl
@[simp] theorem setNode_upper : (setNode s n x).upper = s.upper := rfl
@[simp] theorem setNode_mem : (setNode s n x).mem = s.mem := rfl
@[simp] theorem setNode_lmeta : (setNode s n x).lmeta = s.lmeta := rfl
@[simp] theorem setNode_arrs : (setNode s n x).arrs = s.arrs := rfl
end

-- setPart

section
variable (s : State) (p : Nat) (x : PartS)

@[simp] theorem setPart_agenda : (setPart s p x).agenda = s.agenda := rfl
@[simp] theorem setPart_cur : (setPart s p x).cur = s.cur := rfl
@[simp] theorem setPart_fresh : (setPart s p x).fresh = s.fresh := rfl
@[simp] theorem setPart_now : (setPart s p x).now = s.now := rfl
@[simp] theorem setPart_hub : (setPart s p x).hub = s.hub := rfl
@[simp] theorem setPart_port : (setPart s p x).port = s.port := rfl
@[simp] theorem setPart_bhs : (setPart s p x).bhs = s.bhs := rfl
@[simp] theorem setPart_links : (setPart s p x).links = s.links := rfl
@[simp] theorem setPart_routers : (setPart s p x).routers = s.routers := rfl
@[simp] theorem setPart_slices : (setPart s p x).slices = s.slices := rfl
@[simp] theorem setPart_stks : (setPart s p x).stks = s.stks := rfl
@[simp] theorem setPart_pages : (setPart s p x).pages = s.pages := rfl
@[simp] theorem setPart_tree : (setPart s p x).tree = s.tree := rfl
@[simp] theorem setPart_metaErr : (setPart s p x).metaErr = s.metaErr := rfl
@[simp] theorem setPart_upper : (setPart s p x).upper = s.upper := rfl
@[simp] theorem setPart_mem : (setPart s p x).mem = s.mem := rfl
@[simp] theorem setPart_lmeta : (setPart s p x).lmeta = s.lmeta := rfl
@[simp] theorem setPart_arrs : (setPart s p x).arrs = s.arrs := rfl
end

-- modPart

section
variable (s : State) (p : Nat) (f : PartS → PartS)

@[simp] theorem modPart_agenda : (modPart s p f).agenda = s.agenda := rfl
@[simp] theorem modPart_cur : (modPart s p f).cur = s.cur := rfl
@[simp] theorem modPart_fresh : (modPart s p f).fresh = s.fresh := rfl
@[simp] theorem modPart_now : (modPart s p f).now = s.now := rfl
@[simp] theorem modPart_hub : (modPart s p f).hub = s.hub := rfl
@[simp] theorem modPart_port : (modPart s p f).port = s.port := rfl
@[simp] theorem modPart_bhs : (modPart s p f).bhs = s.bhs := rfl
@[simp] theorem modPart_links : (modPart s p f).links = s.links := rfl
@[simp] theorem modPart_routers : (modPart s p f).routers = s.routers := rfl
@[simp] theorem modPart_slices : (modPart s p f).slices = s.slices := rfl
@[simp] theorem modPart_stks : (modPart s p f).stks = s.stks := rfl
@[simp] theorem modPart_pages : (modPart s p f).pages = s.pages := rfl
@[simp] theorem modPart_tree : (modPart s p f).tree = s.tree := rfl
@[simp] theorem modPart_metaErr : (modPart s p f).metaErr = s.metaErr := rfl
@[simp] theorem modPart_upper : (modPart s p f).upper = s.upper := rfl
@[simp] theorem modPart_mem : (modPart s p f).mem = s.mem := rfl
@[simp] theorem modPart_lmeta : (modPart s p f).lmeta = s.lmeta := rfl
@[simp] theorem modPart_arrs : (modPart s p f).arrs = s.arrs := rfl
end

-- setLink

section
variable (s : State) (l : Nat) (x : LinkS)

@[simp] theorem setLink_agenda : (setLink s l x).agenda = s.agenda := rfl
@[simp] theorem setLink_cur : (setLink s l x).cur = s.cur := rfl
@[simp] theorem setLink_fresh : (setLink s l x).fresh = s.fresh := rfl
@[simp] theorem setLink_now : (setLink s l x).now = s.now := rfl
@[simp] theorem setLink_hub : (setLink s l x).hub = s.hub := rfl
@[simp] theorem setLink_port : (setLink s l x).port = s.port := rfl
@[simp] theorem setLink_bhs : (setLink s l x).bhs = s.bhs := rfl
@[simp] theorem setLink_parts : (setLink s l x).parts = s.parts := rfl
@[simp] theorem setLink_routers : (setLink s l x).routers = s.routers := rfl
@[simp] theorem setLink_slices : (setLink s l x).slices = s.slices := rfl
@[simp] theorem setLink_stks : (setLink s l x).stks = s.stks := rfl
@[simp] theorem setLink_pages : (setLink s l x).pages = s.pages := rfl
@[simp] theorem setLink_tree : (setLink s l x).tree = s.tree := rfl
@[simp] theorem setLink_metaErr : (setLink s l x).metaErr = s.metaErr := rfl
@[simp] theorem setLink_upper : (setLink s l x).upper = s.upper := rfl
@[simp] theorem setLink_mem : (setLink s l x).mem = s.mem := rfl
@[simp] theorem setLink_lmeta : (setLink s l x).lmeta = s.lmeta := rfl
@[simp] theorem setLink_arrs : (setLink s l x).arrs = s.arrs := rfl
end

-- modLink

section
variable (s : State) (l : Nat) (f : LinkS → LinkS)

@[simp] theorem modLink_agenda : (modLink s l f).agenda = s.agenda := rfl
@[simp] theorem modLink_cur : (modLink s l f).cur = s.cur := rfl
@[simp] theorem modLink_fresh : (modLink s l f).fresh = s.fresh := rfl
@[simp] theorem modLink_now : (modLink s l f).now = s.now := rfl
@[simp] theorem modLink_hub : (modLink s l f).hub = s.hub := rfl
@[simp] theorem modLink_port : (modLink s l f).port = s.port := rfl
@[simp] theorem modLink_bhs : (modLink s l f).bhs = s.bhs := rfl
@[simp] theorem modLink_parts : (modLink s l f).parts = s.parts := rfl
@[simp] theorem modLink_routers : (modLink s l f).routers = s.routers := rfl
@[simp] theorem modLink_slices : (modLink s l f).slices = s.slices := rfl
@[simp] theorem modLink_stks : (modLink s l f).stks = s.stks := rfl
@[simp] theorem modLink_pages : (modLink s l f).pages = s.pages := rfl
@[simp] theorem modLink_tree : (modLink s l f).tree = s.tree := rfl
@[simp] theorem modLink_metaErr : (modLink s l f).metaErr = s.metaErr := rfl
@[simp] theorem modLink_upper : (modLink s l f).upper = s.upper := rfl
@[simp] theorem modLink_mem : (modLink s l f).mem = s.mem := rfl
@[simp] theorem modLink_lmeta : (modLink s l f).lmeta = s.lmeta := rfl
@[simp] theorem modLink_arrs : (modLink s l f).arrs = s.arrs := rfl
end

-- setSlice

section
variable (s : State) (k : Nat) (x : SliceS)

@[simp] theorem setSlice_agenda : (setSlice s k x).agenda = s.agenda := rfl
@[simp] theorem setSlice_cur : (setSlice s k x).cur = s.cur := rfl
@[simp] theorem setSlice_fresh : (setSlice s k x).fresh = s.fresh := rfl
@[simp] theorem setSlice_now : (setSlice s k x).now = s.now := rfl
@[simp] theorem setSlice_hub : (setSlice s k x).hub = s.hub := rfl
@[simp] theorem setSlice_port : (setSlice s k x).port = s.port := rfl
@[simp] theorem setSlice_bhs : (setSlice s k x).bhs = s.bhs := rfl
@[simp] theorem setSlice_parts : (setSlice s k x).parts = s.parts := rfl
@[simp] theorem setSlice_links : (setSlice s k x).links = s.links := rfl
@[simp] theorem setSlice_routers : (setSlice s k x).routers = s.routers := rfl
@[simp] theorem setSlice_stks : (setSlice s k x).stks = s.stks := rfl
@[simp] theorem setSlice_pages : (setSlice s k x).pages = s.pages := rfl
@[simp] theorem setSlice_tree : (setSlice s k x).tree = s.tree := rfl
@[simp] theorem setSlice_metaErr : (setSlice s k x).metaErr = s.metaErr := rfl
@[simp] theorem setSlice_upper : (setSlice s k x).upper = s.upper := rfl
@[simp] theorem setSlice_mem : (setSlice s k x).mem = s.mem := rfl
@[simp] theorem setSlice_lmeta : (setSlice s k x).lmeta = s.lmeta := rfl
@[simp] theorem setSlice_arrs : (setSlice s k x).arrs = s.arrs := rfl
end

-- modSlice

section
variable (s : State) (k : Nat) (f : SliceS → SliceS)

@[simp] theorem modSlice_agenda : (modSlice s k f).agenda = s.agenda := rfl
@[simp] theorem modSlice_cur : (modSlice s k f).cur = s.cur := rfl
@[simp] theorem modSlice_fresh : (modSlice s k f).fresh = s.fresh := rfl
@[simp] theorem modSlice_now : (modSlice s k f).now = s.now := rfl
@[simp] theorem modSlice_hub : (modSlice s k f).hub = s.hub := rfl
@[simp] theorem modSlice_port : (modSlice s k f).port = s.port := rfl
@[simp] theorem modSlice_bhs : (modSlice s k f).bhs = s.bhs := rfl
@[simp] theorem modSlice_parts : (modSlice s k f).parts = s.parts := rfl
@[simp] theorem modSlice_links : (modSlice s k f).links = s.links := rfl
@[simp] theorem modSlice_routers : (modSlice s k f).routers = s.routers := rfl
@[simp] theorem modSlice_stks : (modSlice s k f).stks = s.stks := rfl
@[simp] theorem modSlice_pages : (modSlice s k f).pages = s.pages := rfl
@[simp] theorem modSlice_tree : (modSlice s k f).tree = s.tree := rfl
@[simp] theorem modSlice_metaErr : (modSlice s k f).metaErr = s.metaErr := rfl
@[simp] theorem modSlice_upper : (modSlice s k f).upper = s.upper := rfl
@[simp] theorem modSlice_mem : (modSlice s k f).mem = s.mem := rfl
@[simp] theorem modSlice_lmeta : (modSlice s k f).lmeta = s.lmeta := rfl
@[simp] theorem modSlice_arrs : (modSlice s k f).arrs = s.arrs := rfl
end

-- setStack

section
variable (s : State) (k : Nat) (x : StackS)

@[simp] theorem setStack_agenda : (setStack s k x).agenda = s.agenda := rfl
@[simp] theorem setStack_cur : (setStack s k x).cur = s.cur := rfl
@[simp] theorem setStack_fresh : (setStack s k x).fresh = s.fresh := rfl
@[simp] theorem setStack_now : (setStack s k x).now = s.now := rfl
@[simp] theorem setStack_hub : (setStack s k x).hub = s.hub := rfl
@[simp] theorem setStack_port : (setStack s k x).port = s.port := rfl
@[simp] theorem setStack_bhs : (setStack s k x).bhs = s.bhs := rfl
@[simp] theorem setStack_parts : (setStack s k x).parts = s.parts := rfl
@[simp] theorem setStack_links : (setStack s k x).links = s.links := rfl
@[simp] theorem setStack_routers : (setStack s k x).routers = s.routers := rfl
@[simp] theorem setStack_slices : (setStack s k x).slices = s.slices := rfl
@[simp] theorem setStack_pages : (setStack s k x).pages = s.pages := rfl
@[simp] theorem setStack_tree : (setStack s k x).tree = s.tree := rfl
@[simp] theorem setStack_metaErr : (setStack s k x).metaErr = s.metaErr := rfl
@[simp] theorem setStack_upper : (setStack s k x).upper = s.upper := rfl
@[simp] theorem setStack_mem : (setStack s k x).mem = s.mem := rfl
@[simp] theorem setStack_lmeta : (setStack s k x).lmeta = s.lmeta := rfl
@[simp] theorem setStack_arrs : (setStack s k x).arrs = s.arrs := rfl
end

-- modStack

section
variable (s : State) (k : Nat) (f : StackS → StackS)

@[simp] theorem modStack_agenda : (modStack s k f).agenda = s.agenda := rfl
@[simp] theorem modStack_cur : (modStack s k f).cur = s.cur := rfl
@[simp] theorem modStack_fresh : (modStack s k f).fresh = s.fresh := rfl
@[simp] theorem modStack_now : (modStack s k f).now = s.now := rfl
@[simp] theorem modStack_hub : (modStack s k f).hub = s.hub := rfl
@[simp] theorem modStack_port : (modStack s k f).port = s.port := rfl
@[simp] theorem modStack_bhs : (modStack s k f).bhs = s.bhs := rfl
@[simp] theorem modStack_parts : (modStack s k f).parts = s.parts := rfl
@[simp] theorem modStack_links : (modStack s k f).links = s.links := rfl
@[simp] theorem modStack_routers : (modStack s k f).routers = s.routers := rfl
@[simp] theorem modStack_slices : (modStack s k f).slices = s.slices := rfl
@[simp] theorem modStack_pages : (modStack s k f).pages = s.pages := rfl
@[simp] theorem modStack_tree : (modStack s k f).tree = s.tree := rfl
@[simp] theorem modStack_metaErr : (modStack s k f).metaErr = s.metaErr := rfl
@[simp] theorem modStack_upper : (modStack s k f).upper = s.upper := rfl
@[simp] theorem modStack_mem : (modStack s k f).mem = s.mem := rfl
@[simp] theorem modStack_lmeta : (modStack s k f).lmeta = s.lmeta := rfl
@[simp] theorem modStack_arrs : (modStack s k f).arrs = s.arrs := rfl
end

-- post

section
variable (s : State) (ts : List Turn)

@[simp] theorem post_cur : (post s ts).cur = s.cur := rfl
@[simp] theorem post_fresh : (post s ts).fresh = s.fresh := rfl
@[simp] theorem post_now : (post s ts).now = s.now := rfl
@[simp] theorem post_hub : (post s ts).hub = s.hub := rfl
@[simp] theorem post_port : (post s ts).port = s.port := rfl
@[simp] theorem post_bhs : (post s ts).bhs = s.bhs := rfl
@[simp] theorem post_parts : (post s ts).parts = s.parts := rfl
@[simp] theorem post_links : (post s ts).links = s.links := rfl
@[simp] theorem post_routers : (post s ts).routers = s.routers := rfl
@[simp] theorem post_slices : (post s ts).slices = s.slices := rfl
@[simp] theorem post_stks : (post s ts).stks = s.stks := rfl
@[simp] theorem post_pages : (post s ts).pages = s.pages := rfl
@[simp] theorem post_tree : (post s ts).tree = s.tree := rfl
@[simp] theorem post_metaErr : (post s ts).metaErr = s.metaErr := rfl
@[simp] theorem post_upper : (post s ts).upper = s.upper := rfl
@[simp] theorem post_mem : (post s ts).mem = s.mem := rfl
@[simp] theorem post_lmeta : (post s ts).lmeta = s.lmeta := rfl
@[simp] theorem post_arrs : (post s ts).arrs = s.arrs := rfl
end

-- Places after an update of another kind

section
variable (s : State) (p : Nat) (a : ArrayS) (j : Nat)

@[simp] theorem bhOf_setArr : bhOf (setArr s p a) j = bhOf s j := rfl
@[simp] theorem partOf_setArr : partOf (setArr s p a) j = partOf s j := rfl
@[simp] theorem linkOf_setArr : linkOf (setArr s p a) j = linkOf s j := rfl
@[simp] theorem sliceOf_setArr : sliceOf (setArr s p a) j = sliceOf s j := rfl
@[simp] theorem stackOf_setArr : stackOf (setArr s p a) j = stackOf s j := rfl
@[simp] theorem queueOf_setArr (i : Nat) : queueOf (setArr s p a) j i = queueOf s j i := rfl
@[simp] theorem nodeOf_setArr (m : NodeId) : nodeOf (setArr s p a) m = nodeOf s m := rfl
end

section
variable (s : State) (p : Nat) (f : ArrayS → ArrayS) (j : Nat)

@[simp] theorem bhOf_modArr : bhOf (modArr s p f) j = bhOf s j := rfl
@[simp] theorem partOf_modArr : partOf (modArr s p f) j = partOf s j := rfl
@[simp] theorem linkOf_modArr : linkOf (modArr s p f) j = linkOf s j := rfl
@[simp] theorem sliceOf_modArr : sliceOf (modArr s p f) j = sliceOf s j := rfl
@[simp] theorem stackOf_modArr : stackOf (modArr s p f) j = stackOf s j := rfl
@[simp] theorem queueOf_modArr (i : Nat) : queueOf (modArr s p f) j i = queueOf s j i := rfl
@[simp] theorem nodeOf_modArr (m : NodeId) : nodeOf (modArr s p f) m = nodeOf s m := rfl
end

section
variable (s : State) (f : ArrayS → ArrayS) (j : Nat)

@[simp] theorem bhOf_onArr : bhOf (onArr s f) j = bhOf s j := rfl
@[simp] theorem partOf_onArr : partOf (onArr s f) j = partOf s j := rfl
@[simp] theorem linkOf_onArr : linkOf (onArr s f) j = linkOf s j := rfl
@[simp] theorem sliceOf_onArr : sliceOf (onArr s f) j = sliceOf s j := rfl
@[simp] theorem stackOf_onArr : stackOf (onArr s f) j = stackOf s j := rfl
@[simp] theorem queueOf_onArr (i : Nat) : queueOf (onArr s f) j i = queueOf s j i := rfl
@[simp] theorem nodeOf_onArr (m : NodeId) : nodeOf (onArr s f) m = nodeOf s m := rfl
end

section
variable (s : State) (b : Nat) (x : BhS) (j : Nat)

@[simp] theorem arrOf_setBh : arrOf (setBh s b x) j = arrOf s j := rfl
@[simp] theorem partOf_setBh : partOf (setBh s b x) j = partOf s j := rfl
@[simp] theorem linkOf_setBh : linkOf (setBh s b x) j = linkOf s j := rfl
@[simp] theorem sliceOf_setBh : sliceOf (setBh s b x) j = sliceOf s j := rfl
@[simp] theorem stackOf_setBh : stackOf (setBh s b x) j = stackOf s j := rfl
@[simp] theorem here_setBh : here (setBh s b x) = here s := rfl
end

section
variable (s : State) (b : Nat) (f : BhS → BhS) (j : Nat)

@[simp] theorem arrOf_modBh : arrOf (modBh s b f) j = arrOf s j := rfl
@[simp] theorem partOf_modBh : partOf (modBh s b f) j = partOf s j := rfl
@[simp] theorem linkOf_modBh : linkOf (modBh s b f) j = linkOf s j := rfl
@[simp] theorem sliceOf_modBh : sliceOf (modBh s b f) j = sliceOf s j := rfl
@[simp] theorem stackOf_modBh : stackOf (modBh s b f) j = stackOf s j := rfl
@[simp] theorem here_modBh : here (modBh s b f) = here s := rfl
end

section
variable (s : State) (b q : Nat) (f : QueueS → QueueS) (j : Nat)

@[simp] theorem arrOf_modQueue : arrOf (modQueue s b q f) j = arrOf s j := rfl
@[simp] theorem partOf_modQueue : partOf (modQueue s b q f) j = partOf s j := rfl
@[simp] theorem linkOf_modQueue : linkOf (modQueue s b q f) j = linkOf s j := rfl
@[simp] theorem sliceOf_modQueue : sliceOf (modQueue s b q f) j = sliceOf s j := rfl
@[simp] theorem stackOf_modQueue : stackOf (modQueue s b q f) j = stackOf s j := rfl
@[simp] theorem here_modQueue : here (modQueue s b q f) = here s := rfl
end

section
variable (s : State) (n : NodeId) (x : NodeS) (j : Nat)

@[simp] theorem arrOf_setNode : arrOf (setNode s n x) j = arrOf s j := rfl
@[simp] theorem partOf_setNode : partOf (setNode s n x) j = partOf s j := rfl
@[simp] theorem linkOf_setNode : linkOf (setNode s n x) j = linkOf s j := rfl
@[simp] theorem sliceOf_setNode : sliceOf (setNode s n x) j = sliceOf s j := rfl
@[simp] theorem stackOf_setNode : stackOf (setNode s n x) j = stackOf s j := rfl
@[simp] theorem here_setNode : here (setNode s n x) = here s := rfl
end

section
variable (s : State) (p : Nat) (x : PartS) (j : Nat)

@[simp] theorem arrOf_setPart : arrOf (setPart s p x) j = arrOf s j := rfl
@[simp] theorem bhOf_setPart : bhOf (setPart s p x) j = bhOf s j := rfl
@[simp] theorem linkOf_setPart : linkOf (setPart s p x) j = linkOf s j := rfl
@[simp] theorem sliceOf_setPart : sliceOf (setPart s p x) j = sliceOf s j := rfl
@[simp] theorem stackOf_setPart : stackOf (setPart s p x) j = stackOf s j := rfl
@[simp] theorem here_setPart : here (setPart s p x) = here s := rfl
@[simp] theorem queueOf_setPart (i : Nat) : queueOf (setPart s p x) j i = queueOf s j i := rfl
@[simp] theorem nodeOf_setPart (m : NodeId) : nodeOf (setPart s p x) m = nodeOf s m := rfl
end

section
variable (s : State) (p : Nat) (f : PartS → PartS) (j : Nat)

@[simp] theorem arrOf_modPart : arrOf (modPart s p f) j = arrOf s j := rfl
@[simp] theorem bhOf_modPart : bhOf (modPart s p f) j = bhOf s j := rfl
@[simp] theorem linkOf_modPart : linkOf (modPart s p f) j = linkOf s j := rfl
@[simp] theorem sliceOf_modPart : sliceOf (modPart s p f) j = sliceOf s j := rfl
@[simp] theorem stackOf_modPart : stackOf (modPart s p f) j = stackOf s j := rfl
@[simp] theorem here_modPart : here (modPart s p f) = here s := rfl
@[simp] theorem queueOf_modPart (i : Nat) : queueOf (modPart s p f) j i = queueOf s j i := rfl
@[simp] theorem nodeOf_modPart (m : NodeId) : nodeOf (modPart s p f) m = nodeOf s m := rfl
end

section
variable (s : State) (l : Nat) (x : LinkS) (j : Nat)

@[simp] theorem arrOf_setLink : arrOf (setLink s l x) j = arrOf s j := rfl
@[simp] theorem bhOf_setLink : bhOf (setLink s l x) j = bhOf s j := rfl
@[simp] theorem partOf_setLink : partOf (setLink s l x) j = partOf s j := rfl
@[simp] theorem sliceOf_setLink : sliceOf (setLink s l x) j = sliceOf s j := rfl
@[simp] theorem stackOf_setLink : stackOf (setLink s l x) j = stackOf s j := rfl
@[simp] theorem here_setLink : here (setLink s l x) = here s := rfl
@[simp] theorem queueOf_setLink (i : Nat) : queueOf (setLink s l x) j i = queueOf s j i := rfl
@[simp] theorem nodeOf_setLink (m : NodeId) : nodeOf (setLink s l x) m = nodeOf s m := rfl
end

section
variable (s : State) (l : Nat) (f : LinkS → LinkS) (j : Nat)

@[simp] theorem arrOf_modLink : arrOf (modLink s l f) j = arrOf s j := rfl
@[simp] theorem bhOf_modLink : bhOf (modLink s l f) j = bhOf s j := rfl
@[simp] theorem partOf_modLink : partOf (modLink s l f) j = partOf s j := rfl
@[simp] theorem sliceOf_modLink : sliceOf (modLink s l f) j = sliceOf s j := rfl
@[simp] theorem stackOf_modLink : stackOf (modLink s l f) j = stackOf s j := rfl
@[simp] theorem here_modLink : here (modLink s l f) = here s := rfl
@[simp] theorem queueOf_modLink (i : Nat) : queueOf (modLink s l f) j i = queueOf s j i := rfl
@[simp] theorem nodeOf_modLink (m : NodeId) : nodeOf (modLink s l f) m = nodeOf s m := rfl
end

section
variable (s : State) (k : Nat) (x : SliceS) (j : Nat)

@[simp] theorem arrOf_setSlice : arrOf (setSlice s k x) j = arrOf s j := rfl
@[simp] theorem bhOf_setSlice : bhOf (setSlice s k x) j = bhOf s j := rfl
@[simp] theorem partOf_setSlice : partOf (setSlice s k x) j = partOf s j := rfl
@[simp] theorem linkOf_setSlice : linkOf (setSlice s k x) j = linkOf s j := rfl
@[simp] theorem stackOf_setSlice : stackOf (setSlice s k x) j = stackOf s j := rfl
@[simp] theorem here_setSlice : here (setSlice s k x) = here s := rfl
@[simp] theorem queueOf_setSlice (i : Nat) : queueOf (setSlice s k x) j i = queueOf s j i := rfl
@[simp] theorem nodeOf_setSlice (m : NodeId) : nodeOf (setSlice s k x) m = nodeOf s m := rfl
end

section
variable (s : State) (k : Nat) (f : SliceS → SliceS) (j : Nat)

@[simp] theorem arrOf_modSlice : arrOf (modSlice s k f) j = arrOf s j := rfl
@[simp] theorem bhOf_modSlice : bhOf (modSlice s k f) j = bhOf s j := rfl
@[simp] theorem partOf_modSlice : partOf (modSlice s k f) j = partOf s j := rfl
@[simp] theorem linkOf_modSlice : linkOf (modSlice s k f) j = linkOf s j := rfl
@[simp] theorem stackOf_modSlice : stackOf (modSlice s k f) j = stackOf s j := rfl
@[simp] theorem here_modSlice : here (modSlice s k f) = here s := rfl
@[simp] theorem queueOf_modSlice (i : Nat) : queueOf (modSlice s k f) j i = queueOf s j i := rfl
@[simp] theorem nodeOf_modSlice (m : NodeId) : nodeOf (modSlice s k f) m = nodeOf s m := rfl
end

section
variable (s : State) (k : Nat) (x : StackS) (j : Nat)

@[simp] theorem arrOf_setStack : arrOf (setStack s k x) j = arrOf s j := rfl
@[simp] theorem bhOf_setStack : bhOf (setStack s k x) j = bhOf s j := rfl
@[simp] theorem partOf_setStack : partOf (setStack s k x) j = partOf s j := rfl
@[simp] theorem linkOf_setStack : linkOf (setStack s k x) j = linkOf s j := rfl
@[simp] theorem sliceOf_setStack : sliceOf (setStack s k x) j = sliceOf s j := rfl
@[simp] theorem here_setStack : here (setStack s k x) = here s := rfl
@[simp] theorem queueOf_setStack (i : Nat) : queueOf (setStack s k x) j i = queueOf s j i := rfl
@[simp] theorem nodeOf_setStack (m : NodeId) : nodeOf (setStack s k x) m = nodeOf s m := rfl
end

section
variable (s : State) (k : Nat) (f : StackS → StackS) (j : Nat)

@[simp] theorem arrOf_modStack : arrOf (modStack s k f) j = arrOf s j := rfl
@[simp] theorem bhOf_modStack : bhOf (modStack s k f) j = bhOf s j := rfl
@[simp] theorem partOf_modStack : partOf (modStack s k f) j = partOf s j := rfl
@[simp] theorem linkOf_modStack : linkOf (modStack s k f) j = linkOf s j := rfl
@[simp] theorem sliceOf_modStack : sliceOf (modStack s k f) j = sliceOf s j := rfl
@[simp] theorem here_modStack : here (modStack s k f) = here s := rfl
@[simp] theorem queueOf_modStack (i : Nat) : queueOf (modStack s k f) j i = queueOf s j i := rfl
@[simp] theorem nodeOf_modStack (m : NodeId) : nodeOf (modStack s k f) m = nodeOf s m := rfl
end

section
variable (s : State) (ts : List Turn) (j : Nat)

@[simp] theorem arrOf_post : arrOf (post s ts) j = arrOf s j := rfl
@[simp] theorem bhOf_post : bhOf (post s ts) j = bhOf s j := rfl
@[simp] theorem partOf_post : partOf (post s ts) j = partOf s j := rfl
@[simp] theorem linkOf_post : linkOf (post s ts) j = linkOf s j := rfl
@[simp] theorem sliceOf_post : sliceOf (post s ts) j = sliceOf s j := rfl
@[simp] theorem stackOf_post : stackOf (post s ts) j = stackOf s j := rfl
@[simp] theorem here_post : here (post s ts) = here s := rfl
@[simp] theorem queueOf_post (i : Nat) : queueOf (post s ts) j i = queueOf s j i := rfl
@[simp] theorem nodeOf_post (m : NodeId) : nodeOf (post s ts) m = nodeOf s m := rfl
end

-- Places after an update of their kind

@[simp] theorem arrOf_setArr_same (s : State) (p : Nat) (x : ArrayS) : arrOf (setArr s p x) p = x :=
  tabGet_tabSet_same _ _ _ _

theorem arrOf_setArr_ne (s : State) {p j : Nat} (x : ArrayS) (h : j ≠ p) : arrOf (setArr s p x) j = arrOf s j :=
  tabGet_tabSet_ne _ _ _ h

theorem arrOf_setArr (s : State) (p j : Nat) (x : ArrayS) : arrOf (setArr s p x) j = if j = p then x else arrOf s j :=
  tabGet_tabSet _ _ _ _ _

@[simp] theorem arrOf_modArr_same (s : State) (p : Nat) (f : ArrayS → ArrayS) : arrOf (modArr s p f) p = f (arrOf s p) :=
  tabGet_tabSet_same _ _ _ _

theorem arrOf_modArr_ne (s : State) {p j : Nat} (f : ArrayS → ArrayS) (h : j ≠ p) : arrOf (modArr s p f) j = arrOf s j :=
  tabGet_tabSet_ne _ _ _ h

@[simp] theorem bhOf_setBh_same (s : State) (b : Nat) (x : BhS) : bhOf (setBh s b x) b = x :=
  tabGet_tabSet_same _ _ _ _

theorem bhOf_setBh_ne (s : State) {b j : Nat} (x : BhS) (h : j ≠ b) : bhOf (setBh s b x) j = bhOf s j :=
  tabGet_tabSet_ne _ _ _ h

theorem bhOf_setBh (s : State) (b j : Nat) (x : BhS) : bhOf (setBh s b x) j = if j = b then x else bhOf s j :=
  tabGet_tabSet _ _ _ _ _

@[simp] theorem bhOf_modBh_same (s : State) (b : Nat) (f : BhS → BhS) : bhOf (modBh s b f) b = f (bhOf s b) :=
  tabGet_tabSet_same _ _ _ _

theorem bhOf_modBh_ne (s : State) {b j : Nat} (f : BhS → BhS) (h : j ≠ b) : bhOf (modBh s b f) j = bhOf s j :=
  tabGet_tabSet_ne _ _ _ h

@[simp] theorem partOf_setPart_same (s : State) (p : Nat) (x : PartS) : partOf (setPart s p x) p = x :=
  tabGet_tabSet_same _ _ _ _

theorem partOf_setPart_ne (s : State) {p j : Nat} (x : PartS) (h : j ≠ p) : partOf (setPart s p x) j = partOf s j :=
  tabGet_tabSet_ne _ _ _ h

theorem partOf_setPart (s : State) (p j : Nat) (x : PartS) : partOf (setPart s p x) j = if j = p then x else partOf s j :=
  tabGet_tabSet _ _ _ _ _

@[simp] theorem partOf_modPart_same (s : State) (p : Nat) (f : PartS → PartS) : partOf (modPart s p f) p = f (partOf s p) :=
  tabGet_tabSet_same _ _ _ _

theorem partOf_modPart_ne (s : State) {p j : Nat} (f : PartS → PartS) (h : j ≠ p) : partOf (modPart s p f) j = partOf s j :=
  tabGet_tabSet_ne _ _ _ h

@[simp] theorem linkOf_setLink_same (s : State) (l : Nat) (x : LinkS) : linkOf (setLink s l x) l = x :=
  tabGet_tabSet_same _ _ _ _

theorem linkOf_setLink_ne (s : State) {l j : Nat} (x : LinkS) (h : j ≠ l) : linkOf (setLink s l x) j = linkOf s j :=
  tabGet_tabSet_ne _ _ _ h

theorem linkOf_setLink (s : State) (l j : Nat) (x : LinkS) : linkOf (setLink s l x) j = if j = l then x else linkOf s j :=
  tabGet_tabSet _ _ _ _ _

@[simp] theorem linkOf_modLink_same (s : State) (l : Nat) (f : LinkS → LinkS) : linkOf (modLink s l f) l = f (linkOf s l) :=
  tabGet_tabSet_same _ _ _ _

theorem linkOf_modLink_ne (s : State) {l j : Nat} (f : LinkS → LinkS) (h : j ≠ l) : linkOf (modLink s l f) j = linkOf s j :=
  tabGet_tabSet_ne _ _ _ h

@[simp] theorem sliceOf_setSlice_same (s : State) (k : Nat) (x : SliceS) : sliceOf (setSlice s k x) k = x :=
  tabGet_tabSet_same _ _ _ _

theorem sliceOf_setSlice_ne (s : State) {k j : Nat} (x : SliceS) (h : j ≠ k) : sliceOf (setSlice s k x) j = sliceOf s j :=
  tabGet_tabSet_ne _ _ _ h

theorem sliceOf_setSlice (s : State) (k j : Nat) (x : SliceS) : sliceOf (setSlice s k x) j = if j = k then x else sliceOf s j :=
  tabGet_tabSet _ _ _ _ _

@[simp] theorem sliceOf_modSlice_same (s : State) (k : Nat) (f : SliceS → SliceS) : sliceOf (modSlice s k f) k = f (sliceOf s k) :=
  tabGet_tabSet_same _ _ _ _

theorem sliceOf_modSlice_ne (s : State) {k j : Nat} (f : SliceS → SliceS) (h : j ≠ k) : sliceOf (modSlice s k f) j = sliceOf s j :=
  tabGet_tabSet_ne _ _ _ h

@[simp] theorem stackOf_setStack_same (s : State) (k : Nat) (x : StackS) : stackOf (setStack s k x) k = x :=
  tabGet_tabSet_same _ _ _ _

theorem stackOf_setStack_ne (s : State) {k j : Nat} (x : StackS) (h : j ≠ k) : stackOf (setStack s k x) j = stackOf s j :=
  tabGet_tabSet_ne _ _ _ h

theorem stackOf_setStack (s : State) (k j : Nat) (x : StackS) : stackOf (setStack s k x) j = if j = k then x else stackOf s j :=
  tabGet_tabSet _ _ _ _ _

@[simp] theorem stackOf_modStack_same (s : State) (k : Nat) (f : StackS → StackS) : stackOf (modStack s k f) k = f (stackOf s k) :=
  tabGet_tabSet_same _ _ _ _

theorem stackOf_modStack_ne (s : State) {k j : Nat} (f : StackS → StackS) (h : j ≠ k) : stackOf (modStack s k f) j = stackOf s j :=
  tabGet_tabSet_ne _ _ _ h

@[simp] theorem here_onArr (s : State) (f : ArrayS → ArrayS) : here (onArr s f) = f (here s) :=
  tabGet_tabSet_same _ _ _ _

theorem arrOf_onArr (s : State) (f : ArrayS → ArrayS) (p : Nat) :
    arrOf (onArr s f) p = if p = s.cur.phys then f (here s) else arrOf s p := tabGet_tabSet _ _ _ _ _

/-- A change of the array acted on changes that array alone. -/
theorem onlyArr_onArr (s : State) (f : ArrayS → ArrayS) : onArr s f = setArr s s.cur.phys (here (onArr s f)) := by
  rw [here_onArr]; rfl

/-- Two changes that agree on the array acted on are one. -/
theorem onArr_congr (s : State) {f g : ArrayS → ArrayS} (h : f (here s) = g (here s)) : onArr s f = onArr s g :=
  congrArg (setArr s s.cur.phys) h

theorem queueOf_modQueue_same (s : State) (b q : Nat) (f : QueueS → QueueS) :
    queueOf (modQueue s b q f) b q = f (queueOf s b q) := by
  unfold queueOf modQueue
  rw [bhOf_modBh_same]
  exact tabGet_tabSet_same _ _ _ _

theorem queueOf_modQueue_ne (s : State) {b q c r : Nat} (f : QueueS → QueueS) (h : c ≠ b ∨ r ≠ q) :
    queueOf (modQueue s b q f) c r = queueOf s c r := by
  unfold queueOf modQueue
  by_cases hc : c = b
  · subst hc
    rw [bhOf_modBh_same]
    exact tabGet_tabSet_ne _ _ _ (h.resolve_left (· rfl))
  · rw [bhOf_modBh_ne _ _ hc]

theorem nodeOf_modQueue (s : State) (b q : Nat) (f : QueueS → QueueS) (n : NodeId) :
    nodeOf (modQueue s b q f) n = nodeOf s n := by
  unfold nodeOf modQueue
  by_cases hc : n.1 = b
  · rw [hc, bhOf_modBh_same]
  · rw [bhOf_modBh_ne _ _ hc]

theorem nodeOf_setNode_same (s : State) (n : NodeId) (x : NodeS) : nodeOf (setNode s n x) n = some x := by
  unfold nodeOf setNode
  rw [bhOf_modBh_same]
  exact tabFind_tabSet_same _ _ _

theorem nodeOf_setNode_ne (s : State) {n m : NodeId} (x : NodeS) (h : m ≠ n) :
    nodeOf (setNode s n x) m = nodeOf s m := by
  unfold nodeOf setNode
  by_cases hc : m.1 = n.1
  · rw [hc, bhOf_modBh_same]
    refine tabFind_tabSet_ne _ _ (fun h2 => h (Prod.ext hc h2))
  · rw [bhOf_modBh_ne _ _ hc]

theorem queueOf_setNode (s : State) (n : NodeId) (x : NodeS) (b q : Nat) :
    queueOf (setNode s n x) b q = queueOf s b q := by
  unfold queueOf setNode
  by_cases hc : b = n.1
  · rw [hc, bhOf_modBh_same]
  · rw [bhOf_modBh_ne _ _ hc]

@[simp] theorem modNode_mem (s : State) (n : NodeId) (f : NodeS → NodeS) : (modNode s n f).mem = s.mem := by
  unfold modNode; split <;> rfl

@[simp] theorem modNode_arrs (s : State) (n : NodeId) (f : NodeS → NodeS) : (modNode s n f).arrs = s.arrs := by
  unfold modNode; split <;> rfl

@[simp] theorem modNode_cur (s : State) (n : NodeId) (f : NodeS → NodeS) : (modNode s n f).cur = s.cur := by
  unfold modNode; split <;> rfl

/-- The memory right after reset is in the canonical form. -/
theorem reset_mem_wf : Memory.wf State.reset.mem = true := rfl

end Sys2Proof.Machine
end

