-- ==== Sys2Proof/Laws/Sequencer.lean ====
section
/-! SUPPORT. What the shared operations of the sequencer can do: register reads and writes, marks, the ALU, address checks,
translation, and the end of replayability. -/
namespace Sys2Proof.Machine
open Sys2Proof

-- Tables

theorem tabGet_map {α : Type} (t : Tab α) (d : α) (f : α → α) (k : Nat) (h : f d = d) :
    tabGet (t.map (fun x => (x.1, f x.2))) d k = f (tabGet t d k) := by
  induction t with
  | nil => simp [tabGet, h]
  | cons x r ih => obtain ⟨j, v⟩ := x; simp only [List.map_cons, tabGet]; split <;> simp [ih]

theorem tabFind_map {α β : Type} (t : Tab α) (f : α → β) (k : Nat) :
    tabFind (t.map (fun x => (x.1, f x.2))) k = (tabFind t k).map f := by
  induction t with
  | nil => rfl
  | cons x r ih => obtain ⟨j, v⟩ := x; simp only [List.map_cons, tabFind]; split <;> simp [ih]

-- Registers

theorem markAmong_unmarked {a : ArrayS} {rs : List (BitVec 5)} (h : Unmarked a rs) : markAmong a rs = none := by
  simpa only [markAmong, List.findSome?_eq_none_iff] using h

theorem withRegs_unmarked {a : ArrayS} (sl : Slot) {rs : List (BitVec 5)} (k : ArrayS → ArrayS) (h : Unmarked a rs) :
    withRegs a sl rs k = k a := by
  simp [withRegs, markAmong_unmarked h]

theorem withRegsS_unmarked {s : State} (sl : Slot) {rs : List (BitVec 5)} (k : State) (h : Unmarked (here s) rs) :
    withRegsS s sl rs k = k := by
  simp [withRegsS, markAmong_unmarked h]

theorem sReg_sPutMk (a : ArrayS) (d j : BitVec 5) (v : W64) (m : Option SMark) :
    sReg (sPutMk a d v m) j = if j = 0 then {} else if j = d then { v := v, mark := m, pend := false } else sReg a j := by
  unfold sReg sPutMk
  by_cases hj : j = 0
  · simp [hj]
  · by_cases hd : d = 0
    · subst hd; have : ¬ j = (0 : BitVec 5) := hj; simp only [this, if_false, if_true]
    · simp only [hj, hd, if_false]
      by_cases e : j = d
      · subst e; simp
      · have h : j.toNat ≠ d.toNat := fun h => e (BitVec.eq_of_toNat_eq h)
        rw [if_neg e]; exact tabGet_tabSet_ne _ _ _ h

theorem onlyRegs_sPutMk (a : ArrayS) (d : BitVec 5) (v : W64) (m : Option SMark) : OnlyRegs a (sPutMk a d v m) := by
  unfold OnlyRegs sPutMk; split <;> rfl

@[simp] theorem sVal_zero (a : ArrayS) : sVal a 0 = 0 := by simp [sVal, sReg]

/-- An instruction of the sequencer's ALU, where its registers may be read and no residue fault waits. -/
theorem runAlu_ready {rs : List (BitVec 5)} (d : BitVec 5) (f : ArrayS → W64) {s : State} (h : AluReady (here s) rs) :
    runAlu rs d f s = .next (onArr s (fun x => sPut x d (f x))) := by
  unfold runAlu; congr 1; apply onArr_congr
  unfold aluOp; rw [withRegs_unmarked _ _ h.1]; simp [aluWrite, h.2]

-- Addresses, faults and translation

theorem effAddr_eq (a : ArrayS) (r : BitVec 5) (off : BitVec 32) : effAddr a r off = accessAddr a r off := rfl

theorem raise_eq (x : ArrayS) (sl : Slot) (c : Cause) (d : W64) : raise x sl c d = slotTraps x sl c d 0x3FFF := rfl

theorem faultS_eq (s : State) (sl : Slot) (c : Cause) (d : W64) (n : Nat) :
    faultS s sl c d n = onArr s (fun x => slotTraps x sl c d n) := rfl

theorem xDetail_eq (c : Cause) (p : Nat) : xDetail c p = if c = .region ∨ c = .foreign then pathDetail p else 0 := by
  cases c <;> rfl

theorem aligned_ok {x : ArrayS} (sl : Slot) {va n : Nat} (k : ArrayS → ArrayS) (h : va % n = 0) :
    aligned x sl va n k = k x := by simp [aligned, h]

theorem aligned_bad {x : ArrayS} (sl : Slot) {va n : Nat} (k : ArrayS → ArrayS) (h : va % n ≠ 0) :
    aligned x sl va n k = slotTraps x sl .align (BitVec.ofNat 64 n) 0x3FFF := by simp [aligned, h, raise_eq]

theorem withAccess_misaligned (s : State) (sl : Slot) (path : Nat) {va size : Nat} (k : AccK) (go)
    (h : va % size ≠ 0) :
    withAccess s sl path va size k go = onArr s (fun x => slotTraps x sl .align (BitVec.ofNat 64 size) 0x3FFF) := by
  simp [withAccess, h, faultS_eq]

theorem withAccess_bad {s : State} (sl : Slot) (path : Nat) {va size : Nat} {k : AccK} (go) {c : Cause} {num : Nat}
    (h : va % size = 0) (hx : xlateHere s va size k = .bad c num) :
    withAccess s sl path va size k go =
      onArr s (fun x => slotTraps x sl c (if c = .region ∨ c = .foreign then pathDetail path else 0) num) := by
  simp [withAccess, h, hx, faultS_eq, xDetail_eq]

theorem withAccess_ok {s : State} (sl : Slot) (path : Nat) {va size : Nat} {k : AccK} (go) {num off : Nat} {r : Region}
    (h : va % size = 0) (hx : xlateHere s va size k = .ok num r off) :
    withAccess s sl path va size k go = go num r off := by
  simp [withAccess, h, hx]

theorem sizeBytes_pos (z : MemSize) : 1 ≤ sizeBytes z ∧ sizeBytes z ≤ 8 := by cases z <;> decide

theorem loadExt_eq {n : Nat} (zx : Bool) {x : Nat} (hn : 1 ≤ n) (h : x < 2 ^ (8 * n)) :
    loadExt n zx x = loadedValue n zx x := by
  have e : x % 2 ^ (8 * n) = x := Nat.mod_eq_of_lt h
  unfold loadExt loadedValue signedOf
  cases zx
  · simp only [e, Bool.false_eq_true, if_false, Bool.false_or, decide_eq_true_eq]
    split
    · simp
    · push_cast; rfl
  · simp [e]

theorem leNat_lt (bs : List Byte) : leNat bs < 2 ^ (8 * bs.length) := by
  induction bs with
  | nil => simp [leNat]
  | cons b r ih =>
    simp only [leNat, List.length_cons]
    have h : b.toNat < 256 := b.isLt
    rw [show 8 * (r.length + 1) = 8 + 8 * r.length by ring, pow_add]
    have : 256 * leNat r + 256 ≤ 256 * 2 ^ (8 * r.length) := by omega
    norm_num; omega

theorem memNat_lt (m : Memory) (a n : Nat) : memNat m a n < 2 ^ (8 * n) := by
  have h := leNat_lt (memBytes m a n)
  rwa [length_memBytes] at h

theorem loadExt_mod (n : Nat) (zx : Bool) (x : Nat) : loadExt n zx (x % 2 ^ (8 * n)) = loadExt n zx x := by
  simp [loadExt, signedOf]

-- Replayability

theorem unreplay_mem (s : State) (n : NodeId) (w : Nat) : (unreplay s n w).mem = s.mem := by
  unfold unreplay; split
  · rfl
  · split <;> rfl

theorem unreplay_cur (s : State) (n : NodeId) (w : Nat) : (unreplay s n w).cur = s.cur := by
  unfold unreplay; split
  · rfl
  · split <;> rfl

/-- What the end of a node's replayability leaves of an array: all but the staged marks of that node's lines. -/
theorem arrOf_unreplay (s : State) (n : NodeId) (w p : Nat) :
    arrOf (unreplay s n w) p = arrOf s p ∨
      ∃ f : EgLine → EgLine, (∀ e, ∃ b, f e = { e with stage := b }) ∧
      arrOf (unreplay s n w) p = { arrOf s p with
        eg := (arrOf s p).eg.map (fun e => (e.1, f e.2))
        drained := (arrOf s p).drained.map (fun e => (e.1, f e.2)) } := by
  unfold unreplay
  split
  · exact .inl rfl
  · rename_i nd hnd
    split
    · exact .inl rfl
    · refine .inr ⟨fun e => if e.node = some n then { e with stage := false } else e, ?_, ?_⟩
      · intro e; by_cases h : e.node = some n
        · exact ⟨false, by simp [h]⟩
        · exact ⟨e.stage, by simp [h]⟩
      · have ef : (fun e : Nat × EgLine => if e.2.node = some n then (e.1, { e.2 with stage := false }) else e) =
            fun e => (e.1, if e.2.node = some n then { e.2 with stage := false } else e.2) := by
          funext e; split <;> rfl
        have e := tabGet_map s.arrs {} (fun a : ArrayS => { a with
            eg := a.eg.map (fun e => (e.1, if e.2.node = some n then { e.2 with stage := false } else e.2))
            drained := a.drained.map (fun e => (e.1, if e.2.node = some n then { e.2 with stage := false } else e.2)) })
          p rfl
        unfold arrOf
        simp only [ef]
        exact e

end Sys2Proof.Machine
end

