-- ==== Sys2Proof/Machine/Cipher.lean ====
section
/-! DEFINITION. What the stacks store of a line, its counters and the counter tree (R75, R77, R78): State holds a line as
the plain text it decrypts to, and the counters as numbers; the stored bytes and their tags are functions of those. -/
namespace Sys2Proof.Machine
open Sys2Proof

/-- The bits of a line that its protection code covers (R75). -/
def protMask (prot : Nat) : BitVec 512 := ofBits 512 (fun i => protBit prot i)

/-- GHASH of 64 bytes and a 128-bit word under the tag key, added to the cipher of a counter block (R77). -/
def tagOf (kt : Key) (m : List Byte) (w cb : BitVec 128) : BitVec 128 :=
  ghash (aes256 kt 0) (blocks16 m ++ [beBytes 16 w.toNat]) ^^^ aes256 kt cb

/-- The tag of a line: 64 bits for STRICT, 32 for TOLERANT (R77). -/
def lineTag (kt : Key) (prot epoch major minor stack line : Nat) (ct : BitVec 512) : Nat :=
  let m := lineBytes (ct &&& protMask prot)
  let t := tagOf kt m (BitVec.ofNat 64 epoch ++ BitVec.ofNat 64 major) (lineCb major minor stack line 0)
  if prot = 0 then t.toNat / 2 ^ 64 else t.toNat / 2 ^ 96

/-- What is stored at a line, with the keys and the epoch that it stands under: a line of a partition's descriptor table
under the metadata key of its bulkhead (R78, R211; log entry 77), any other as it was written (R77). -/
def lineStored (s : State) (l : Nat) : BitVec 512 × Key × Key × Nat :=
  match tableLine s l with
  | some (p, i) =>
    (BitVec.ofNat 512 (leNat (tableBytes (partOf s p) i)), (bhOf s (lineBh l)).keyM, (bhOf s (lineBh l)).keyMt, 1)
  | none => (memLine s.mem (64 * l), (lineKeys s l).1, (lineKeys s l).2, (lineMeta s l).epoch)

/-- The cipher text that memory holds of a line, flipped bits included (R75, R77). -/
def storedLine (s : State) (l : Nat) : BitVec 512 :=
  let (major, minor) := lineCtr s l
  let (d, kd, _, _) := lineStored s l
  (lineMeta s l).flips.foldl (fun d i => if i < 512 then d ^^^ (1#512 <<< i) else d)
    (lineCrypt kd major minor (lineStack l) (stackLine l) d)

/-- The tag that a write of the line stored with it (R77). -/
def storedTag (s : State) (l : Nat) : Nat :=
  let (major, minor) := lineCtr s l
  let (d, kd, kt, epoch) := lineStored s l
  lineTag kt (lineMeta s l).prot epoch major minor (lineStack l) (stackLine l)
    (lineCrypt kd major minor (lineStack l) (stackLine l) d)

-- Counter blocks and nodes (R78)

/-- The 64 bytes of a page's counter block: the major counter, then the minors (R78; log entry 78). -/
def counterBlock (x : PageS) : List Byte :=
  leBytes 8 x.major ++
    leBytes 56 ((List.range 64).foldl (fun t i => t + tabGet x.minors 0 i % 128 * 2 ^ (7 * i)) 0)

/-- The key of node n at level i of a bulkhead's tree: the counter of its child n one level down (R78). -/
def treeKey (b i n : Nat) : Nat := (8 * b + i) * 2 ^ 40 + n

/-- The 64 bytes of a tree node at level i of 1 to 7: the counters of its eight children (R78). -/
def treeNode (s : State) (b i n : Nat) : List Byte :=
  (List.range 8).flatMap (fun j => leBytes 8 (tabGet s.tree 0 (treeKey b (i - 1) (8 * n + j))))

/-- The 32-bit tag of a counter block or node under the metadata key, with the counter that its parent holds for it;
`line` is its LINE in the upper 4 GiB, whose layout the spec does not give (R78; log entry 78). -/
def nodeTag (s : State) (b counter line : Nat) (bytes : List Byte) : Nat :=
  let t := tagOf (bhOf s b).keyMt bytes (BitVec.ofNat 128 counter) (lineCb counter 0 (b / 2) line 0)
  t.toNat / 2 ^ 96

end Sys2Proof.Machine
end

