-- ==== Sys2Proof/Tests/Slice0.lean ====
section
/-! SUPPORT. Tests: ill-formed terms are refused, words decode, and for each statement states that meet its
hypotheses, with what the machine answers there. Expected values are worked out from the rules named. -/
set_option Elab.async false
namespace Sys2Proof.Tests
open Sys2Proof Sys2Proof.Machine

-- Small states

/-- The next state an instruction answers. -/
def nx (o : Host.Outcome State Fault Refusal) : Option State := match o with | .next t => some t | _ => none
/-- A fact about the next state that an instruction answers. -/
def after (o : Host.Outcome State Fault Refusal) (p : State → Bool) : Bool :=
  match o with | .next t => p t | _ => false

/-- Three regions of 2 MiB: OWNED by logical array 0, SHARED-READ, SEQ. -/
def regsA : Tab Region :=
  [(1, { vbase := 0, k := 21, kind := 1 }), (2, { vbase := 2 ^ 21, k := 21, kind := 2, pbase := 2 ^ 21 }),
   (3, { vbase := 2 ^ 22, k := 21, kind := 3, pbase := 2 ^ 22 }),
   (4, { vbase := 2 ^ 23, k := 21, kind := 1, owner := 1, pbase := 3 * 2 ^ 21 })]

/-- A running node of bulkhead 0 with logical array 0 on array 0. -/
def nodeA : NodeS :=
  { st := .running, part := 0, wcb := 0x1000, chain := [0x1000], graph := 0, kdom := 0, q := some 0, seq := 0, cookie := 0,
    level := 0, offset := 0, sem := some (3, 5), tick := none, steps := none, prio := 4, fdom := 0, fpmode := false,
    svmode := false, fast := false, vs := 0, budget := none, stgAt := 0, staging := 0, ival := 64, image := 0, params := 0,
    pbytes := 0, vsem := 7, rqLimit := 0, gangs := [{ first := 0, count := 1, chain := 0 }], fps := [], save := 0,
    status := 0, logs := [(0, { st := .started })], replay := true, nrWhy := 0 }

/-- An array that runs, with values in s1 to s4. -/
def arrA : ArrayS :=
  { cond := .running, node := some (0, 0), ac := 100, tt := 50, pc := 10,
    s := [(1, { v := 0x40 }), (2, { v := 7 }), (3, { v := 0x400000 }), (4, { v := 0xFFFFFFFFFFFFFFF9 })],
    rcache := regsA, nc := 100, dmem := [(0x40, 0x21), (0x41, 0x80)], spad := [(0x40, 0x21), (0x41, 0x80)] }

/-- Bulkhead 0 assigned to partition 0. -/
def bhA : BhS := { st := .assigned, own := true, nodes := [(0, nodeA)] }

/-- A machine that is up, with one partition of one bulkhead whose array 0 is as given. -/
def wA (a : ArrayS) : State :=
  { State.reset with
    hub := { State.reset.hub with phase := 2 }
    bhs := [(0, bhA)]
    parts := [(0, { live := true, regions := regsA, keys := firstKeys })]
    arrs := [(0, a)] }

/-- The same with the array above. -/
def w0 : State := wA arrA

-- The sequencer (R161, R281 to R294)

theorem test_sequencer_register :
    sVal (sPut arrA 5 9) 5 = 9 ∧ sVal (sPut arrA 0 9) 0 = 0 ∧ sVal (sPut arrA 5 9) 2 = 7 := by decide +kernel

/-- R290: 0x40 + 7, -7 / 7 rounded toward zero, and 7 shifted by 64 mod 64. -/
theorem test_sequencer_alu : AluReady (here w0) [1, 2, 4] ∧
    nx (exec (.sAdd 5 1 2) w0) = some (onArr w0 (fun x => sPut x 5 0x47)) ∧
    nx (exec (.sDivs 5 4 2) w0) = some (onArr w0 (fun x => sPut x 5 0xFFFFFFFFFFFFFFFF)) ∧
    nx (exec (.sShl 5 2 1) w0) = some (onArr w0 (fun x => sPut x 5 7)) ∧
    nx (exec (.sMulhn 5 4 2) w0) = some (onArr w0 (fun x => sPut x 5 6)) ∧
    nx (exec (.sAddi 5 2 (.short 0xFFFFFFF8)) w0) = some (onArr w0 (fun x => sPut x 5 0xFFFFFFFFFFFFFFFF)) := by
  decide +kernel

theorem test_sequencer_alu_one : AluReady (here w0) [1, 2, 4] ∧
    nx (exec (.sClz 5 1) w0) = some (onArr w0 (fun x => sPut x 5 57)) ∧
    nx (exec (.sPopc 5 4) w0) = some (onArr w0 (fun x => sPut x 5 62)) ∧
    nx (exec (.sSel 5 1 2 0) w0) = some (onArr w0 (fun x => sPut x 5 7)) ∧
    nx (exec (.sLi 5 (.long 9)) w0) = some (onArr w0 (fun x => sPut x 5 9)) := by decide +kernel

/-- R290: a divisor of zero, and -2^63 by -1. -/
theorem test_division : AluReady (here w0) [1, 0] ∧ sVal (here w0) 0 = 0 ∧
    nx (exec (.sDivn 5 1 0) w0) = some (onArr w0 (fun x => sPut x 5 0xFFFFFFFFFFFFFFFF)) ∧
    nx (exec (.sRems 5 1 0) w0) = some (onArr w0 (fun x => sPut x 5 0x40)) ∧
    (let w := onArr w0 (fun x => sPut (sPut x 1 0x8000000000000000) 2 0xFFFFFFFFFFFFFFFF)
     AluReady (here w) [1, 2] ∧ sVal (here w) 1 = BitVec.ofInt 64 (-2 ^ 63) ∧ sVal (here w) 2 = BitVec.ofInt 64 (-1) ∧
     nx (exec (.sDivs 5 1 2) w) = some (onArr w (fun x => sPut x 5 0x8000000000000000))) := by decide +kernel

/-- R162, R292: with extents 3, 4, 1, 1, 1 the index 0x40 = 64 is 1 + 3 * (1 + 4 * 5). -/
theorem test_tidx :
    let w := onArr w0 (fun x => { x with shapes := [(0, { ex := [(0, 2), (1, 3)] })] })
    ShapeOk (tabGet (here w).shapes {} 0) ∧ (sVal (here w) 1).toNat < 2 ^ 32 ∧
    nx (exec (.sTidx 5 1 0 1) w) = some (onArr w (fun x => sPut x 5 1)) ∧
    nx (exec (.sTidx 5 1 0 5) w) = some (onArr w (fun x => sPut x 5 5)) ∧
    2 ^ 32 ≤ (sVal (here w) 4).toNat ∧
    nx (exec (.sTidx 5 4 0 1) w) = some (onArr w (fun x => raiseIll x .s)) := by
  refine ⟨⟨by decide, by decide, by decide⟩, ?_⟩; decide +kernel

/-- R285. -/
theorem test_control_flow : (here w0).mpe = none ∧ Unmarked (here w0) [1, 2, 4] ∧
    nx (exec .sNop w0) = some w0 ∧
    after (exec (.sBr 9) w0) (fun t => (here t).nextPc == 9) ∧
    after (exec (.sBrc .lt 4 2 9) w0) (fun t => (here t).nextPc == 9) ∧
    after (exec (.sBrc .ltn 4 2 9) w0) (fun t => (here t).nextPc == 11) ∧
    after (exec (.sBrf true 9) w0) (fun t => (here t).nextPc == 11) ∧
    after (exec (.sCall 9) w0) (fun t => (here t).calls == [11]) ∧
    nx (exec .sRet w0) = some (onArr w0 (fun x => slotTraps x .s .callov 1 0x3FFF)) ∧
    nx (exec (.sJmpr 4) w0) = some (onArr w0 (fun x => raiseIll x .s)) ∧
    after (exec (.sJmpr 1) w0) (fun t => (here t).nextPc == 0x40) ∧
    after (exec .sHalt w0) (fun t => (here t).cond == .halting) ∧
    after (exec (.sTrapi 0xFFFFFFFF) w0) (fun t => (here t).faults.map (fun f => f.detail) == [0xFFFFFFFFFFFFFFFF]) := by
  decide +kernel

theorem test_call_return :
    let w := onArr w0 (fun x => { x with calls := [20] })
    let v := onArr w0 (fun x => { x with calls := [1, 2, 3, 4, 5, 6, 7, 8] })
    after (exec .sRet w) (fun t => (here t).nextPc == 20 && (here t).calls.isEmpty) ∧
    nx (exec (.sCall 9) v) = some (onArr v (fun x => slotTraps x .s .callov 0 0x3FFF)) := by decide +kernel

/-- R286: two passes, none, and too many. -/
theorem test_loops : (here w0).mpe = none ∧ Unmarked (here w0) [1] ∧
    after (exec (.sLoop (.imm 2) false 11) w0) (fun t =>
      (here t).loops == [{ index := 0, count := 2, start := 11, stop := 11, sw := false }]) ∧
    after (exec (.sLoop (.imm 0) false 12) w0) (fun t => (here t).nextPc == 13 && (here t).loops.isEmpty) ∧
    nx (exec (.sLoop (.imm 2) false 9) w0) = some (onArr w0 (fun x => raiseIll x .s)) ∧
    nx (exec .sLoopbrk w0) = some (onArr w0 (fun x => slotTraps x .s .loopov 0 0x3FFF)) ∧
    (let e : LoopE := { index := 1, count := 3, start := 4, stop := 20, sw := true }
     let w := onArr w0 (fun x => { x with loops := [e] })
     after (exec .sLoopbrk w) (fun t => (here t).nextPc == 21) ∧
     nx (exec (.sLidx 5 0) w) = some (onArr w (fun x => sPut x 5 1)) ∧
     nx (exec (.sLidx 5 1) w) = some (onArr w (fun x => sPut x 5 0)) ∧
     loopAdvance 20 21 [e] false = (4, [{ e with index := 2 }], true) ∧
     loopAdvance 20 21 [{ e with index := 2 }] false = (21, [], true) ∧
     loopAdvance 19 20 [e] false = (20, [e], false)) := by decide +kernel

/-- R294: 0x8021 from data memory, sign-extended and not; the traps; a store. -/
theorem test_data_memory : Unmarked (here w0) [1, 2] ∧
    nx (exec (.sLdDm .h false 5 1 0) w0) = some (onArr w0 (fun x => sPut x 5 0xFFFFFFFFFFFF8021)) ∧
    nx (exec (.sLdDm .h true 5 1 0) w0) = some (onArr w0 (fun x => sPut x 5 0x8021)) ∧
    nx (exec (.sLdDm .h true 5 1 1) w0) = some (onArr w0 (fun x => slotTraps x .s .align 2 0x3FFF)) ∧
    nx (exec (.sLdDm .h true 5 1 0xFFC0) w0) = some (onArr w0 (fun x => slotTraps x .s .region 1 0x3FFF)) ∧
    after (exec (.sStDm .b 2 1 1) w0) (fun t => memNat (here t).dmem 0x40 2 == 0x0721) ∧
    nx (exec (.sStDm .h 2 1 1) w0) = some (onArr w0 (fun x => slotTraps x .s .align 2 0x3FFF)) ∧
    nx (exec (.sStDm .h 2 1 0xFFC0) w0) = some (onArr w0 (fun x => slotTraps x .s .region 1 0x3FFF)) := by
  decide +kernel

/-- R295. -/
theorem test_scratchpad : Unmarked (here w0) [1, 2] ∧
    after (exec (.sLdx .h false 5 1 0) w0) (fun t =>
      (here t).pend == [{ reg := 5, v := 0xFFFFFFFFFFFF8021, mark := none, at_ := 102 }] && (sReg (here t) 5).pend) ∧
    nx (exec (.sLdx .h true 5 1 1) w0) = some (onArr w0 (fun x => slotTraps x .s .align 2 0x3FFF)) ∧
    nx (exec (.sLdx .h true 5 1 0x3FFFC0) w0) = some (onArr w0 (fun x => slotTraps x .s .region 0 0x3FFF)) ∧
    after (exec (.sStx .b 2 1 1) w0) (fun t => memNat (here t).spad 0x40 2 == 0x0721) ∧
    nx (exec (.sStx .h 2 1 1) w0) = some (onArr w0 (fun x => slotTraps x .s .align 2 0x3FFF)) ∧
    nx (exec (.sStx .h 2 1 0x3FFFC0) w0) = some (onArr w0 (fun x => slotTraps x .s .region 0 0x3FFF)) := by
  decide +kernel

-- Memory, other arrays and engines (R293 to R312)

/-- R293: a load that the egress cache answers, one that it does not, and the traps. -/
theorem test_load : Unmarked (here w0) [1] ∧
    (∃ r, xlateHere w0 0x40 4 .rd = .ok 1 r 0x40) ∧ (egSee (here w0) 1).2.1 = 0 ∧
    nx (exec (.sLd .w true 5 1 0) w0) = some (sendRead (onArr w0 (fun x => sPend x 5)) 0 1 (tabGet regsA {} 1) 0x40 0
      (.load 0 0 5 0 4 true 0 0 false)) ∧
    (let w := onArr w0 (fun x => { x with eg := [(1, { data := 0x99, mask := 0xF })] })
     nx (exec (.sLd .w true 5 1 0) w) = some (onArr w (fun x => readyIn x 5 0x99 none 6))) ∧
    nx (exec (.sLd .w true 5 1 1) w0) = some (onArr w0 (fun x => slotTraps x .s .align 4 0x3FFF)) ∧
    xlateHere w0 0x600040 4 .rd = .bad .region 0x3FFF ∧
    nx (exec (.sLd .w true 5 1 0x600000) w0) = some (onArr w0 (fun x => slotTraps x .s .region 1 0x3FFF)) := by
  refine ⟨by decide +kernel, ⟨tabGet regsA {} 1, by decide +kernel⟩, ?_⟩; decide +kernel

/-- R293, R214: the low bytes of s2 = 7 join the line; the SHARED-READ and the foreign region refuse a store. -/
theorem test_store : Unmarked (here w0) [2, 1] ∧
    (∃ r, xlateHere w0 0x40 4 .wr = .ok 1 r 0x40 ∧ r.pbase % 64 = 0) ∧
    after (exec (.sSt .w 2 1 0) w0) (fun t => (egSee (here t) 1).1 == 7 && (egSee (here t) 1).2.1 == 0xF) ∧
    nx (exec (.sSt .w 2 1 1) w0) = some (onArr w0 (fun x => slotTraps x .s .align 4 0x3FFF)) ∧
    xlateHere w0 0x800040 4 .wr = .bad .foreign 4 ∧
    nx (exec (.sSt .w 2 1 0x800000) w0) = some (onArr w0 (fun x => slotTraps x .s .foreign 1 4)) := by
  refine ⟨by decide +kernel, ⟨tabGet regsA {} 1, by decide +kernel⟩, ?_⟩; decide +kernel


/-- R296, R297: in the SEQ region; s3 = 0x400000. -/
theorem test_sc_queue : Unmarked (here w0) [3, 2, 1] ∧
    (sVal (here w0) 3).toNat % 8 = 0 ∧
    (∃ r, xlateHere w0 0x400000 8 .sc = .ok 3 r 0 ∧ xlateHere w0 0x400000 8 .scRd = .ok 3 r 0) ∧
    after (exec (.sAmoCas true 5 2 1 3) w0) (fun t => (here t).sc ==
      [{ kind := .amo .cas false, w64 := true, va := 0x400000, reg := 5, b := 7, c := 0x40 }]) ∧
    after (exec (.sLdSc true 5 3) w0) (fun t => (here t).sc.length == 1 && (sReg (here t) 5).pend) ∧
    after (exec (.sStSc true 2 3) w0) (fun t => (here t).sc.length == 1 &&
      (nodeOf t (0, 0)).any (fun n => !n.replay && n.nrWhy == 3)) := by
  refine ⟨by decide +kernel, by decide +kernel, ⟨tabGet regsA {} 3, by decide +kernel⟩, ?_⟩; decide +kernel

/-- The array with one SC operation queued. -/
def wSc (k : ScKind) : State := wA { arrA with sc := [{ kind := k, w64 := true, va := 0x400000, reg := 5, b := 7, c := 0 }] }

/-- R221, R222, R296, R297: the line's timestamp is 9, so tau is 10. -/
theorem test_sc_perform :
    let put (k : ScKind) : State := setSlice (wSc k) (homeSlice 0x10000)
      { lines := [{ line := 0x10000, data := 30, valid := allBytes, dirty := 0, ts := 9 }] }
    (∃ r, xlateArr (put .load) 0 0x400000 8 .scRd = .ok 3 r 0 ∧ xlateArr (put .load) 0 0x400000 8 .sc = .ok 3 r 0) ∧
    after (exec .scOperationPerform (put .load)) (fun t => lineTs t 0x10000 == 10 && (here t).sc.isEmpty) ∧
    after (exec .scOperationPerform (put .store)) (fun t =>
      (l2Find (sliceOf t (homeSlice 0x10000)) 0x10000).any (fun y => y.data == 7 && y.ts == 10)) ∧
    after (exec .scOperationPerform (put (.amo .add false))) (fun t =>
      (l2Find (sliceOf t (homeSlice 0x10000)) 0x10000).any (fun y => y.data == 37 && y.ts == 10)) := by
  refine ⟨⟨tabGet regsA {} 3, by decide +kernel⟩, ?_⟩; decide +kernel

/-- R301, R302: a name of bulkhead offset 0 and one of offset 1, which the partition does not have. -/
theorem test_semaphore_instructions : Unmarked (here w0) [2] ∧ partSize w0 0 = 1 ∧
    after (exec (.sSemAdd 3 2) w0) (fun t => (here t).sems.length == 1) ∧
    after (exec (.sSemRd 5 3) w0) (fun t => (sReg (here t) 5).pend) ∧
    after (exec (.sSemWait 3 2) w0) (fun t => (here t).wait == some (.sem 3 7 100 none)) ∧
    nx (exec (.sSemSet 0x1003 2) w0) = some (onArr w0 (fun x => slotTraps x .s .semname 0x1003 0x3FFF)) := by
  decide +kernel

/-- R215, R216, R299, R300: region 1 is the array's, 2 is not OWNED, 4 is another's. -/
theorem test_ownership : tabFind (partOf w0 (partOfArr w0 0)).regions 1 = some (tabGet regsA {} 1) ∧
    xferOwnerOk w0 (here w0) 0 1 = true ∧
    after (exec (.sXfer 1 1) w0) (fun t =>
      (tabFind (partOf t 0).regions 1).any (fun r => r.owner == 1 && r.rpend && r.markV) &&
      (here t).fifo == [.marker 1] && (here t).wait == some (.xfer 1 100)) ∧
    after (exec (.sRel 1) w0) (fun t => (here t).wait == some (.rel 1 100)) ∧
    nx (exec (.sRel 4) w0) = some (onArr w0 (fun x => slotTraps x .s .foreign 1 4)) ∧
    nx (exec (.sXfer 2 1) w0) = some (onArr w0 (fun x => slotTraps x .s .region 1 2)) ∧
    after (exec (.sFenceX 8 0) w0) (fun t => (here t).wait == some (.fence [] true 100)) := by decide +kernel

/-- R298: an owner code of no array of the partition; the set P-LD of a fence to P-CP leaves its TT (log entry 122). -/
theorem test_ownership_corners :
    xferOwnerOk w0 (here w0) 0 0xFF = false ∧
    nx (exec (.sXfer 1 0xFF) w0) = some (onArr w0 (fun x => slotTraps x .s .region 1 1)) ∧
    after (exec (.sFenceX 1 4) w0) (fun t => (here t).ldFence == some 50 && (here t).wait == some (.fence [] false 100)) := by
  decide +kernel

/-- A flit with a number as its data. -/
def flitA (kind vl seq : Nat) (d : BitVec 512) : Flit :=
  { kind := kind, vl := vl, seq := seq, ack := 0, off := 0, tag := 0, len := 63, crcOk := true, data := d }

/-- R52, R54, R303. -/
theorem test_streams :
    let w := setLink w0 2 { st := .up, rxq := [(1, [flitA 1 1 0 5])] }
    Unmarked (here w) [1, 2] ∧ dmBad (here w) 0x40 64 = false ∧
    after (exec (.sLsend 2 1 1) w) (fun t =>
      (tabGet (linkOf t 2).txq [] 1).map (fun f => (f.kind, f.vl, f.len, f.data)) == [(1, 1, 63, 0x8021)]) ∧
    after (exec (.sLrecv 2 1 1) w) (fun t =>
      memNat (here t).dmem 0x40 64 == 5 && (tabGet (linkOf t 2).rxq [] 1).isEmpty) ∧
    after (exec (.sLrecv 2 1 2) w) (fun t => (here t).faults.map (fun f => f.cause) == [.align]) ∧
    (let v := onArr w (fun x => sPut x 1 0x10000)
     nx (exec (.sLrecv 2 1 1) v) = some (onArr v (fun x => slotTraps x .s .region 3 0x3FFF))) ∧
    nx (exec (.sLsend 3 1 1) w) = some (onArr w (fun x => slotTraps x .s .link 0x103 0x3FFF)) := by decide +kernel

/-- R304 to R307, R310. -/
theorem test_set_up : Unmarked (here w0) [1, 2] ∧ (here w0).mpe = none ∧ dmBad (here w0) 0x40 128 = false ∧
    after (exec (.sMovYm 3 1) w0) (fun t => tabGet (here t).ym 0 3 == 0x40) ∧
    after (exec (.sMovXm 3 1) w0) (fun t => tabGet (here t).xm 0 3 == 0x40) ∧
    after (exec (.sShpW 2 4 1) w0) (fun t => tabGet (tabGet (here t).shapes {} 2).ex 0 4 == 0x3F) ∧
    after (exec (.sNestW .n 3 1) w0) (fun t => tabGet (here t).ldN.shadow 0 3 == 0x40) ∧
    after (exec (.sCtLd 2 1) w0) (fun t => tabGet (here t).tmpl 0 2 == 0x8021) ∧
    after (exec (.sSrSeed 1 (some 2)) w0) (fun t => (here t).seed == 0x40 && (here t).tile == 7) ∧
    (let w := onArr w0 (fun x => sPut x 1 5)
     after (exec (.sShpW 2 5 1) w) (fun t => (tabGet (here t).shapes {} 2).m == 5)) := by decide +kernel

/-- R203, R305, R307: where these instructions trap: an extent of 0, a count of 6, and addresses 7 and 65,536. -/
theorem test_set_up_traps :
    let step := wA { arrA with mpe := some (mpeOf 0 50 false) }
    let at_ (v : W64) : State := onArr w0 (fun x => sPut x 1 v)
    (here step).mpe ≠ none ∧
    nx (exec (.sMovYm 2 1) step) = some (onArr step (fun x => slotTraps x .s .slotcf 0 0x3FFF)) ∧
    after (exec (.sMovYm 1 1) step) (fun t => tabGet (here t).ym 0 1 == 0x40) ∧
    nx (exec (.sShpW 2 0 1) (at_ 0)) = some (onArr (at_ 0) (fun x => raiseIll x .s)) ∧
    nx (exec (.sShpW 2 5 1) (at_ 6)) = some (onArr (at_ 6) (fun x => raiseIll x .s)) ∧
    nx (exec (.sCtLd 2 1) (at_ 7)) = some (onArr (at_ 7) (fun x => slotTraps x .s .align 8 0x3FFF)) ∧
    nx (exec (.sCtLd 2 1) (at_ 0x10000)) = some (onArr (at_ 0x10000) (fun x => slotTraps x .s .region 1 0x3FFF)) := by
  decide +kernel

/-- R164, R309, R313 to R315. -/
theorem test_system_registers : Unmarked (here w0) [1] ∧
    nx (exec (.sTtRd 5) w0) = some (onArr w0 (fun x => sPut x 5 50)) ∧
    after (exec (.sSysw 0x101 1) w0) (fun t => (here t).edgemode == edgemodeWrite 0 0x40) ∧
    after (exec (.sSysw 0x120 1) w0) (fun t => (here t).svaddr == 8) ∧
    nx (exec (.sSysw 0x100 1) w0) = some w0 ∧
    sysRead (here w0) 0x300 = none ∧
    nx (exec (.sSysr 5 0x300) w0) = some (onArr w0 (fun x => slotTraps x .s .priv 0x300 0x3FFF)) ∧
    nx (exec (.sTtChk (.imm 50) 0xFFFFFFFF) w0) = some (onArr w0 id) ∧
    nx (exec (.sTtChk (.imm 51) 0xFFFFFFFF) w0) = some (onArr w0 (fun x => slotTraps x .s .ttdev 0xFFFFFFFF 0x3FFF)) := by
  decide +kernel

/-- R314: an array that runs a save program, with its captured state. -/
theorem test_svdata :
    let w := setNode (wA { arrA with svrun := 1, svaddr := 0x142000 }) (0, 0) { nodeA with saved := [(0, arrA)] }
    let v := setNode (wA { arrA with svrun := 2, svaddr := 0x155FFF }) (0, 0) { nodeA with saved := [(0, arrA)] }
    capturedOf w (here w) = some ((0, 0), { nodeA with saved := [(0, arrA)] }, arrA) ∧
    svReach (here w) 1 = true ∧ svReach (here w) 2 = false ∧ svReach (here v) 2 = true ∧
    svReach { arrA with svrun := 1, svaddr := 0x156000 } 1 = false ∧
    after (exec (.sSysr 5 0x121) w) (fun t => sVal (here t) 5 == svWord arrA 0 0xA10000 && (here t).svaddr == 0x142001) ∧
    nx (exec (.sSysr 5 0x121) v) = some (onArr v (fun x => slotTraps x .s .priv 0x121 0x3FFF)) := by
  decide +kernel

/-- A template that copies one line of 64 bytes of the scratchpad to the operand store is refused here for its
format; the aperture's edges are 0x1000 and 0x10F0. -/
theorem test_copy_start : Unmarked (here w0) [2, 0] ∧ (sVal (here w0) 2).toNat < 128 ∧
    (copyCheck w0 0 0 0 false).isSome = true ∧
    after (exec (.sStA 2 0x10F0) w0) (fun t => !(here t).faults.isEmpty) ∧
    nx (exec (.sStA 2 0x1100) w0) = some (onArr w0 (fun x => slotTraps x .s .region 2 0x3FFF)) ∧
    nx (exec (.sStA 2 0x1001) w0) = some (onArr w0 (fun x => slotTraps x .s .region 2 0x3FFF)) := by decide +kernel

/-- R311, R312: misaligned descriptors, and body bundles. -/
theorem test_engine_traps : Unmarked (here w0) [2] ∧
    nx (exec (.sMpass 2) w0) = some (onArr w0 (fun x => slotTraps x .s .region 4 0x3FFF)) ∧
    nx (exec (.sCollGo 2 none) w0) = some (onArr w0 (fun x => slotTraps x .s .region 3 0x3FFF)) := by decide +kernel


-- Cells (R151, R178, R259 to R272, R317 to R352)

/-- A C slot that takes q1 and k0 and writes q0, in every row and column of masks 0. -/
def cf (typ : BitVec 3) (sa sb : BitVec 6) : CSlot := ⟨typ, 0, 0, 0, 0, sa, sb, 0, 0, false, 0, false, 0, 0⟩

/-- A pipe entry whose masks name row 0 and the columns 0 and 1. -/
def peA (i : Instr) : PipeE :=
  { ins := i, craw := 0, ym := 1, xm := 3, seg := 0, em := 0, srn := 0, seed := 0, tile := 0, pc := 10, tt := 50
    word := 0, np := none, wp := none, lane := [], taps := [], fl := 0, fst := 0, sigi := 0, upcm := none, upmk := 0
    perf := 0x3FF }

/-- Row 0 of the array holds an entry; its port queues hold two entries each. -/
def wC (i : Instr) : State :=
  wA { arrA with
    pipe := [some (peA i)]
    npq := [(0, [{ data := 5 }, { data := 6 }])], wpq := [(0, [(7, false), (8, false)])]
    cells := [(0, [(0, { q := [(1, 0x3F800000)], k := [(0, 0x40000000)] })])] }

/-- 1.0 + 2.0 = 3.0 in lane 0 of cell 0, 0 + 0 in cell 1, and cell 2 keeps its registers. -/
theorem test_cell_add :
    let i := cInstr .add (cf 0 1 16)
    InstanceReady (wC i) (peA i) ∧
    executes (here (wC i)) (peA i) (cf 0 1 16) 0 0 = true ∧ executes (here (wC i)) (peA i) (cf 0 1 16) 0 2 = false ∧
    after (exec i (wC i)) (fun t =>
      (cellQ (cellAt (here t) 0 0) 0).1 == 0x40400000 && (cellQ (cellAt (here t) 0 0) 2).1 == 0x3F800000 &&
      cellAt (here t) 0 2 == {} && tabGet (here t).npq [] 0 == [{ data := 5 }, { data := 6 }]) := by
  decide +kernel

/-- A source that names the North port takes one entry of its row's queue and none of the West queue. -/
theorem test_cell_port :
    let i := cInstr .mov (cf 0 29 0)
    InstanceReady (wC i) (peA i) ∧ cNames .mov (cf 0 29 0) 29 = true ∧
    after (exec i (wC i)) (fun t =>
      tabGet (here t).npq [] 0 == [{ data := 6 }] && (tabGet (here t).wpq [] 0).length == 2) := by decide +kernel

/-- The context of a cell in a test. -/
def ctxA : CellCtx := { sr := { seed := 0, tile := 0, row := 1, n := 0, col := 2 }, rho := 1, col := 2, logical := 0 }

/-- 127 + 1 as i8 wraps to -128, or saturates; 3 * 4 + 5; bytes of all ones compare as -1. -/
theorem test_cell_integer :
    viewOf (cf 5 0 0) = .int false 8 ∧
    (cellAlu .add (cf 5 0 0) ctxA 0x7F 1 0 none).1 = 0x80 ∧
    (cellAlu .add { cf 5 0 0 with sat := true } ctxA 0x7F 1 0 none).1 = 0x7F ∧
    (cellAlu .fma (cf 5 0 0) ctxA 3 4 5 none).1 = 17 ∧
    (cellAlu .cmpLt (cf 5 0 0) ctxA 0xFF 0 0 none).1 = 0xFF ∧
    (cellAlu .hsum (cf 5 0 0) ctxA 0xFF02 0 0 none).1 = 1 ∧
    (cellAlu .hmax (cf 5 0 0) ctxA 0xFF02 0 0 none).1 = 2 := by decide +kernel

/-- Lane 0 of MMA.i8: 10 + 2 * 3 + (-1) * 4. -/
theorem test_cell_mma : (cellAlu .mmaI8 (cf 5 0 0) ctxA 0xFF02 0x0403 10 none).1 = 12 := by decide +kernel

/-- R279: 5 * 3 / 2 is 7.5, ties up to 8, plus the zero point 1, in lane 0; the elements from 4 on are zero. -/
theorem test_cell_requantize :
    let v := (cellAlu .req { cf 5 0 0 with spec := 1 } ctxA 5 3 1 none).1
    elem v 8 0 = 9 ∧ elem v 8 4 = 0 ∧ elem v 8 15 = 0 := by decide +kernel

/-- R268: -0 equals +0, 1 is below 2, and a NaN is unordered; R270, R271: 3 + 1 * 2 in lane 0 of MMA.bf16. -/
theorem test_cell_float_views :
    let got (o : COp) (a b : Vec) : Nat := elem (cellAlu o (cf 0 0 0) ctxA a b 0 none).1 32 0
    viewOf (cf 0 0 0) = .flt .f32 ∧
    got .cmpEq 0x80000000 0 = 0xFFFFFFFF ∧ got .cmpLt 0x3F800000 0x40000000 = 0xFFFFFFFF ∧
    got .cmpLt 0x40000000 0x3F800000 = 0 ∧ got .cmpLe 0x7FC00000 0x7FC00000 = 0 ∧ got .cmpNe 0x7FC00000 0x7FC00000 = 0xFFFFFFFF ∧
    elem (cellAlu .mmaBf16 (cf 2 0 0) ctxA 0x3F80 0x4000 0x40400000 none).1 32 0 = 0x40A00000 := by decide +kernel

/-- R266, R275: 1.5 as i32 is 2 under RNE, NaN is 0, 3 as f32 is 3.0; the reciprocals of 4, of -0 and of infinity, the
root of 1/4, 2^3, and the logarithms of 8 and of -1. -/
theorem test_cell_conversions :
    let f (op : Special) (v : Nat) : Nat := (special32 op .rne false v).1
    convertElem (.flt .f32) (.int false 32) .rne false 0 0x3FC00000 = (2, flInexact) ∧
    convertElem (.flt .f32) (.int false 32) .rne false 0 0x7FC00000 = (0, flInvalid) ∧
    (convertElem (.int false 32) (.flt .f32) .rne false 0 3).1 = 0x40400000 ∧
    (convertElem (.int false 32) (.int false 8) .rne true 0 300).1 = 127 ∧
    f .rcp 0x40800000 = 0x3E800000 ∧ special32 .rcp .rne false 0x80000000 = (0xFF800000, flDivZero) ∧ f .rcp 0x7F800000 = 0 ∧
    f .rsq 0x3E800000 = 0x40000000 ∧ f .exp2 0x40400000 = 0x41000000 ∧ f .log2 0x41000000 = 0x40400000 ∧
    special32 .log2 .rne false 0xBF800000 = (0x7FC00000, flInvalid) := by decide +kernel

theorem test_cell_shift :
    (cellAlu .shl (cf 4 0 0) ctxA 0x8001 1 0 none).1 = 2 ∧ (cellAlu .sar (cf 4 0 0) ctxA 0x8001 1 0 none).1 = 0xC000 ∧
    (cellAlu .rot (cf 4 0 0) ctxA 0x8001 1 0 none).1 = 3 ∧
    (laneOf (cellAlu .tidx (cf 0 0 0) ctxA 0 0 0 none).1 3).toNat = 66 := by decide +kernel

/-- 3 units of 2^-1 is 1.5: to 1 under RTZ, to 2 under RNE, RUP; with a sign RUP goes to 1. -/
theorem test_rounding :
    (roundUnits .rtz 0 false 3 (-1) 0 false).1 = 1 ∧ (roundUnits .rne 0 false 3 (-1) 0 false).1 = 2 ∧
    (roundUnits .rne 0 false 5 (-1) 0 false).1 = 2 ∧ (roundUnits .rup 0 false 3 (-1) 0 false).1 = 2 ∧
    (roundUnits .rup 0 true 3 (-1) 0 false).1 = 1 := by decide +kernel

/-- R261: a quiet NaN passes as the canonical one, a signalling one sets invalid, and so does inf - inf. -/
theorem test_nan :
    valIsNan (valOf .f32 0x7FC00001) = true ∧ valSig (valOf .f32 0x7F800001) = true ∧
    floatArith .add .f32 .rne false 0 0x7FC00001 0 0 = (0x7FC00000, flNone) ∧
    (floatArith .add .f32 .rne false 0 0x7F800001 0 0).2 = flInvalid ∧
    valOf .f32 0x7F800000 = .inf false ∧
    floatArith .sub .f32 .rne false 0 0x7F800000 0x7F800000 0 = (0x7FC00000, flInvalid) := by decide +kernel

/-- R174: a push moves q0 to q1; k3 by code 19; cm by 24. -/
theorem test_write_destination :
    let x : CellS := { q := [(0, 9)], k := [(3, 1)], km := 8 }
    cellQ (writeDst x 0 7) 0 = (7, false) ∧ cellQ (writeDst x 0 7) 1 = (9, false) ∧
    tabGet (writeDst x 19 7).k 0 3 = 7 ∧ (writeDst x 19 7).km = 0 ∧ (writeDst x 24 7).cm = 7 ∧ writeDst x 33 7 = x := by
  decide +kernel

-- Edges (R186 to R192, R358 to R374)

/-- ym1 = 0x8000000000000001 rotated left by one is 3. -/
theorem test_selector :
    let w := wA { arrA with ym := [(1, 0x8000000000000001)] }
    (here w).mpe = none ∧
    after (exec (.yxRotl .y 1 1) w) (fun t => maskOf .y (here t) 1 == 3 && maskOf .y (here t) 0 == maskOf .y (here w) 0) ∧
    after (exec (.yxRange .y 1 2 1) w) (fun t => maskOf .y (here t) 1 == 0xC) ∧
    after (exec (.yxStride .y 1 1 3) w) (fun t => maskOf .y (here t) 1 == 0x2222222222222222) := by decide +kernel

/-- A nest of 128 words from address 0. -/
def nestA : Nest := [(1, 6), (2, 128), (8, 4)]

/-- An array whose scratchpad holds 1, 2 in its first words, with loaders on that nest. -/
def arrL : ArrayS :=
  { arrA with
    spad := [(0, 1), (4, 2)]
    ldN := { active := nestA, valid := true }, ldW := { active := nestA, valid := true }
    ldD := { active := nestA, valid := true }, dlat := [(0, 10), (1, 20)] }

theorem test_go :
    let w := wA { arrA with ldN := { shadow := nestA } }
    goOk .n (loaderState (here w) .n).shadow = true ∧ goOk .w (loaderState (here w) .w).shadow = false ∧
    after (exec (.nwGo .n) w) (fun t => (here t).ldN == { active := nestA, valid := true }) ∧
    nx (exec (.nwGo .w) w) = some (onArr w (fun a => slotTraps a .w .region 0 0x3FFF)) ∧
    after (exec (.nwSet .n 2 (.short 9)) w) (fun t => tabGet (here t).ldN.shadow 0 2 == 9) := by decide +kernel

theorem test_loader :
    let w := wA arrL
    let x := loaderState (here w) (portSide .n)
    x.valid = true ∧ x.pos < nestTotal x.active ∧ nestGath x.active = false ∧ nestTotal x.active = 128 ∧
    after (exec (.nwStep .n .port) w) (fun t => (here t).ldN.pos == 64 &&
      (here t).fly.map (fun f => (f.due, f.north, pvElem f.vec 0, pvElem f.vec 1)) == [(54, true, (1, false), (2, false))]) ∧
    after (exec (.nwStep .w (.second 2)) w) (fun t => (here t).latchLog.map (fun e => (e.tt, e.id, e.q)) == [(50, 3, 2)]) ∧
    after (exec (.nwAuto .n .port 1) w) (fun t => (here t).ldN.auto == 1) ∧
    after (exec (.nwBcast .n 1) w) (fun t => (here t).fly.map (fun f => pvElem f.vec 63) == [(2, false)]) ∧
    after (exec (.nwHold .n) w) (fun t => (here t).fly.length == 1 && (here t).ldN.pos == 0) ∧
    after (exec (.nwZero .n) w) (fun t => (here t).fly.length == 1) ∧
    nx (exec (.nwStep .n .port) w0) = some (onArr w0 (fun a => slotTraps a .n .region 0 0x3FFF)) := by decide +kernel

/-- AUTO of two more vectors needs 128 elements behind this one; of one more, to the port or a latch quarter. -/
theorem test_loader_auto :
    let w := wA arrL
    let x := loaderState (here w) (portSide .n)
    x.pos + 1 * nestNeed x.active < nestTotal x.active ∧ ¬ x.pos + 2 * nestNeed x.active < nestTotal x.active ∧
    after (exec (.nwAuto .n .port 1) w) (fun t => (here t).fly.map (fun f => pvElem f.vec 1) == [(2, false)] && (here t).latchLog.isEmpty) ∧
    after (exec (.nwAuto .n (.first 3) 1) w) (fun t => (here t).latchLog.map (fun e => (e.tt, e.id, e.q, pvElem e.vec 1)) ==
      [(50, 0, 3, (2, false))] && (here t).fly.isEmpty) := by decide +kernel

/-- A gather: the first two indices are 1 and 2; WBASE 0, data elements of 4 bytes. -/
theorem test_gather :
    let g : Nest := [(1, 0x26), (2, 128), (8, 4), (15, 64)]
    let w := wA { arrL with ldW := { active := g, valid := true } }
    (here w).ldW.pos < nestTotal (here w).ldW.active ∧ nestGath (here w).ldW.active = true ∧
    after (exec .wGather w) (fun t => (here t).ldW.pos == 64 && (here t).gath.isSome) := by decide +kernel

/-- DLAT words 10 and 20 to the first two words; ACC adds them to 1 and 2. -/
theorem test_drain :
    let w := wA arrL
    (here w).ldD.valid = true ∧ (here w).ldD.pos < nestTotal (here w).ldD.active ∧ nestEsz (here w).ldD.active = 4 ∧
    (∀ i < 64, nestAddr (here w).ldD.active i = 4 * i) ∧
    after (exec .dSt w) (fun t => memNat (here t).spad 0 8 == 0x140000000A && (here t).ldD.pos == 64) ∧
    after (exec (.dAcc .i32 .rne) w) (fun t => memNat (here t).spad 0 8 == 0x160000000B) ∧
    nx (exec .dSt w0) = some (onArr w0 (fun a => slotTraps a .d .region 0 0x3FFF)) ∧
    (redResult .add .n32 (here w)).toNat = 30 ∧
    after (exec (.dRed .max .i32 1) w) (fun t => (here t).erq == [(53, 1, 20)]) ∧
    nx (exec .dSeg w) = some (onArr w id) ∧
    (let v := wA { arrL with edgeTaps := [[], []] }
     (here v).edgeTaps.length = 2 ∧ after (exec .dSeg v) (fun t => (here t).ldD.pos == 128)) := by decide +kernel

/-- A row put in 16 issue cycles before is seen by TOUT. -/
theorem test_transposer :
    let w := wA { arrL with tq := [{ tt := 34, row := some 9, vec := pvOf [(77, false)] }] }
    after (exec (.tTin 3) w) (fun t => ((here t).tq.map (fun o => o.row)) == [some 9, some 3]) ∧
    after (exec (.tTinSp 3 0) w) (fun t => ((here t).tq.map (fun o => pvElem o.vec 0)) == [(77, false), (1, false)]) ∧
    after (exec (.tTout 0) w) (fun t => (here t).fly.map (fun f => (f.due, f.north, pvElem f.vec 9)) == [(54, false, (77, false))]) ∧
    after (exec .tTclr w) (fun t => (here t).tq.length == 2) := by decide +kernel

-- The A slot (R165, R180, R193, R377, R378)

theorem test_handles :
    let h (k : Nat) (st : HState) : State := wA { arrA with handles := [(5, { kind := k, st := st, base := 0, len := 65536, exp := 8 })] }
    let goes (w : State) (i : Instr) (st : HState) : Bool := after (exec i w) (fun t => (hOf (here t) 5).st == st)
    let stops (w : State) (i : Instr) : Prop := nx (exec i w) = some (onArr w (fun a => slotTraps a .a .hstate 5 0x3FFF))
    goes (h 1 .free) (.aHExpect 5 (.imm 64)) .filling ∧ goes (h 1 .full) (.aHExpect 5 (.reg 1)) .filling ∧
    (sVal (here (h 1 .full)) 1).toNat = (64 : BitVec 26).toNat ∧
    after (exec (.aHExpect 5 (.imm 64)) (h 1 .filling)) (fun t => (hOf (here t) 5).exp == 72) ∧
    stops (h 1 .draining) (.aHExpect 5 (.imm 64)) ∧ stops (h 0 .free) (.aHWait 5 false) ∧
    goes (h 1 .full) (.aHDrain 5) .draining ∧ stops (h 1 .free) (.aHDrain 5) ∧
    goes (h 1 .draining) (.aHFree 5) .free ∧ stops (h 1 .free) (.aHFree 5) ∧
    goes (h 0 .free) (.aOsClaim 5 62 2) .filling ∧ stops (h 1 .free) (.aOsClaim 5 0 1) ∧
    goes (h 2 .filling) (.aOsSeal 5) .full ∧ stops (h 2 .full) (.aOsSeal 5) ∧
    goes (h 2 .full) (.aOsRelease 5) .free ∧ stops (h 2 .filling) (.aOsRelease 5) := by decide +kernel

theorem test_handle_wait :
    let w := wA { arrA with handles := [(5, { kind := 1, st := .full })] }
    nx (exec (.aHWait 5 false) w) = some (onArr w id) := by decide +kernel

/-- Two lines from address 0x40 to scratchpad address 0x80, due 20 issue cycles later. -/
theorem test_land :
    let w := wA { arrA with s := arrA.s ++ [(6, { v := 0x80 })] }
    Unmarked (here w) [1, 6] ∧ (∃ r, xlateHere w 0x40 128 .rd = .ok 1 r 0x40 ∧ r.win = false) ∧
    tabFind (here w).land 3 = none ∧ (here w).mpe = none ∧
    after (exec (.aLand 3 1 6 1 20) w) (fun t => (tabFind (here t).land 3).any (fun x =>
      x.dest == 0x80 && x.bytes == 128 && x.due == 70 && x.lines.isEmpty)) ∧
    after (exec (.aLand 3 2 6 1 20) w) (fun t => (here t).faults.map (fun f => f.cause) == [.align]) ∧
    (let v := onArr w (fun a => { a with land := [(3, { dest := 0, bytes := 64, due := 99, lines := [], done := 0 })] })
     nx (exec (.aLand 3 1 6 1 20) v) = some (onArr v (fun a => slotTraps a .a .hstate 3 0x3FFF))) := by
  refine ⟨by decide +kernel, ⟨tabGet regsA {} 1, by decide +kernel⟩, ?_⟩; decide +kernel

theorem test_prefetch :
    (∃ r, xlateHere w0 0x40 128 .rd = .ok 1 r 0x40 ∧ r.win = false ∧ keyRevoked w0 0 r.slot = false) ∧
    nx (exec (.aPfc 1 4 1) w0) = some (sendRead (sendRead w0 0 0 (tabGet regsA {} 1) 0x40 4 .nobody) 0 0
      (tabGet regsA {} 1) 0x80 4 .nobody) ∧
    after (exec (.aPfc 2 4 1) w0) (fun t => (here t).faults.map (fun f => f.cause) == [.align]) := by
  refine ⟨⟨tabGet regsA {} 1, by decide +kernel⟩, ?_⟩; decide +kernel


-- Decoding: words laid out from the tables of R97 to R108 and R239 to R247

/-- An S word: OP, D, A, B, X, XE, IMM (R239). -/
def wS (op d a b x xe imm : Nat) : BitVec 64 :=
  BitVec.ofNat 8 op ++ BitVec.ofNat 5 d ++ BitVec.ofNat 5 a ++ BitVec.ofNat 5 b ++ BitVec.ofNat 8 x ++ BitVec.ofNat 1 xe ++
    BitVec.ofNat 32 imm

theorem test_decode_s_control : ∀ x ∈
    [(wS 0 0 0 0 0 0 0, Instr.sNop), (wS 1 0 0 0 0 0 0x1FFFF, .sBr 0x1FFFF), (wS 2 0 1 2 3 0 9, .sBrc .ge 1 2 9),
     (wS 3 0 0 0 1 0 9, .sBrf true 9), (wS 4 0 0 0 0 0 9, .sCall 9), (wS 5 0 0 0 0 0 0, .sRet), (wS 6 0 1 0 0 0 0, .sJmpr 1),
     (wS 7 0 1 0 1 0 9, .sLoop (.reg 1) true 9), (wS 8 0 0 0 0 0 0, .sLoopbrk), (wS 9 3 0 0 5 0 0, .sLidx 3 5),
     (wS 0xA 0 0 0 0 0 0, .sHalt), (wS 0xB 0 0 0 0 0 0x80000001, .sTrapi 0x80000001)],
    decodeS x.1 0 = some x.2 := by decide +kernel

theorem test_decode_s_arithmetic :
    (∀ x ∈ ([.sAdd, .sSub, .sAnd, .sOr, .sXor, .sShl, .sShr, .sSar, .sMul, .sMulh, .sMulhn, .sDivs, .sDivn, .sRems,
        .sRemn] : List (BitVec 5 → BitVec 5 → BitVec 5 → Instr)).zipIdx,
      decodeS (wS (0x10 + x.2) 3 1 2 0 0 0) 0 = some (x.1 3 1 2)) ∧
    (∀ x ∈ ([.sMin, .sMax, .sMinn, .sMaxn, .sSlt, .sSltn] : List (BitVec 5 → BitVec 5 → BitVec 5 → Instr)).zipIdx,
      decodeS (wS (0x20 + x.2) 3 1 2 0 0 0) 0 = some (x.1 3 1 2)) ∧
    (∀ x ∈ ([.sAddi, .sAndi, .sOri, .sXori] : List (BitVec 5 → BitVec 5 → SImm → Instr)).zipIdx,
      decodeS (wS (0x28 + x.2) 3 1 0 0 0 0xFFFFFFFE) 0 = some (x.1 3 1 (.short 0xFFFFFFFE)) ∧
      decodeS (wS (0x28 + x.2) 3 1 0 0 1 7) 5 = some (x.1 3 1 (.long 0x500000007))) ∧
    decodeS (wS 0x1F 3 1 2 4 0 0) 0 = some (.sSel 3 1 2 4) ∧ decodeS (wS 0x26 3 1 0 0 0 0) 0 = some (.sClz 3 1) ∧
    decodeS (wS 0x27 3 1 0 0 0 0) 0 = some (.sPopc 3 1) ∧ decodeS (wS 0x2C 3 0 0 0 0 7) 0 = some (.sLi 3 (.short 7)) ∧
    decodeS (wS 0x2D 3 1 0 4 0 9) 0 = some (.sTidx 3 1 9 4) := by decide +kernel

theorem test_decode_s_memory : ∀ x ∈
    [(wS 0x30 3 1 0 1 0 8, Instr.sLd .b true 3 1 8), (wS 0x33 3 1 0 0 0 8, .sLd .d false 3 1 8),
     (wS 0x31 3 1 0 2 0 8, .sLdDm .h false 3 1 8), (wS 0x34 0 1 2 0 0 8, .sSt .b 2 1 8), (wS 0x36 0 1 2 2 0 8, .sStDm .w 2 1 8),
     (wS 0x38 3 1 0 5 0 8, .sLdx .h true 3 1 8), (wS 0x39 0 1 2 3 0 8, .sStx .d 2 1 8), (wS 0x3A 3 1 0 1 0 0, .sLdSc true 3 1),
     (wS 0x3B 0 1 2 0 0 0, .sStSc false 2 1), (wS 0x40 3 1 2 1 0 0, .sAmoAdd true 3 2 1),
     (wS 0x41 3 1 2 2 0 0, .sAmoMin false true 3 2 1), (wS 0x42 3 1 2 1 0 0, .sAmoMax true false 3 2 1),
     (wS 0x43 3 1 2 0 0 0, .sAmoAnd false 3 2 1), (wS 0x44 3 1 2 0 0 0, .sAmoOr false 3 2 1),
     (wS 0x45 3 1 2 0 0 0, .sAmoSwap false 3 2 1), (wS 0x46 3 1 2 0x21 0 0, .sAmoCas true 3 2 4 1)],
    decodeS x.1 0 = some x.2 := by decide +kernel

theorem test_decode_s_system : ∀ x ∈
    [(wS 0x48 0 0 2 0 0 0x1010, Instr.sStA 2 0x1010), (wS 0x49 0 0 0 0x65 0 9, .sXfer 9 0x65), (wS 0x4A 0 0 0 0 0 9, .sRel 9),
     (wS 0x4B 0 0 0 0 0 0x2A4, .sFenceX 4 0x15), (wS 0x50 0 0 2 0 0 0x1234, .sSemAdd 0x1234 2),
     (wS 0x51 0 0 2 0 0 0x1234, .sSemSet 0x1234 2), (wS 0x52 0 0 2 0 0 0x1234, .sSemWait 0x1234 2),
     (wS 0x53 3 0 0 0 0 0x1234, .sSemRd 3 0x1234), (wS 0x54 0 1 0 0x28 0 0, .sLsend 8 2 1), (wS 0x55 0 1 0 0x13 0 0, .sLrecv 3 1 1),
     (wS 0x60 0 1 0 2 0 0, .sMovYm 2 1), (wS 0x61 0 1 0 3 0 0, .sMovXm 3 1), (wS 0x62 0 1 0 5 0 9, .sShpW 9 5 1),
     (wS 0x63 0 1 0 2 0 9, .sNestW .d 9 1), (wS 0x64 0 1 0 0 0 0x3F, .sCtLd 0x3F 1), (wS 0x65 3 0 0 2 0 0, .sEdgeRd 3 2),
     (wS 0x66 3 0 0 0 0 0x121, .sSysr 3 0x121), (wS 0x67 0 1 0 0 0 0x101, .sSysw 0x101 1),
     (wS 0x68 0 1 0 0 0 0x99, .sTtChk (.reg 1) 0x99), (wS 0x69 3 0 0 0 0 0, .sTtRd 3), (wS 0x6A 0 1 2 1 0 0, .sSrSeed 1 (some 2)),
     (wS 0x6A 0 1 0 0 0 0, .sSrSeed 1 none), (wS 0x6B 0 1 0 0 0 0, .sMpass 1), (wS 0x6C 0 1 0 0 0 0, .sCollGo 1 none),
     (wS 0x6C 0 1 2 1 0 0x1234, .sCollGo 1 (some (2, 0x1234)))],
    decodeS x.1 0 = some x.2 := by decide +kernel

/-- A C word: OP, TYPE, YS, XS, GRD, DST, SA, SB, SC, HOLD, UNS, RM, SAT, SPEC (R240). -/
def wCs (op ty ys xs g dst sa sb sc hold uns rm sat spec : Nat) : BitVec 64 :=
  BitVec.ofNat 8 op ++ BitVec.ofNat 3 ty ++ BitVec.ofNat 2 ys ++ BitVec.ofNat 2 xs ++ BitVec.ofNat 3 g ++ BitVec.ofNat 6 dst ++
    BitVec.ofNat 6 sa ++ BitVec.ofNat 6 sb ++ BitVec.ofNat 6 sc ++ BitVec.ofNat 3 hold ++ BitVec.ofNat 1 uns ++ BitVec.ofNat 3 rm ++
    BitVec.ofNat 1 sat ++ BitVec.ofNat 14 spec

/-- Every opcode of R241, with source codes 1, 2, 3 where it has the source, into k1 in masks ym1 and xm2 when g1. -/
theorem test_decode_c : ∀ x ∈
    [(0x01, 0, 0, 0, 0, 0, 0x1F, COp.clr), (0x02, 0, 17, 1, 0, 0, 0, .mov), (0x03, 3, 17, 0, 0, 0, 0x3FFF, .movi),
     (0x10, 0, 17, 1, 2, 0, 0, .add), (0x11, 0, 17, 1, 2, 0, 0, .sub), (0x12, 0, 17, 1, 2, 0, 0, .mul),
     (0x13, 0, 17, 1, 2, 3, 0, .fma), (0x14, 0, 17, 1, 2, 3, 0, .fms), (0x15, 0, 17, 1, 0, 0, 0, .neg),
     (0x16, 0, 17, 1, 0, 0, 0, .abs), (0x17, 0, 17, 1, 2, 0, 0, .min), (0x18, 0, 17, 1, 2, 0, 0, .max),
     (0x20, 0, 17, 1, 2, 0, 0, .and), (0x21, 0, 17, 1, 2, 0, 0, .or), (0x22, 0, 17, 1, 2, 0, 0, .xor),
     (0x23, 0, 17, 1, 0, 0, 0, .not), (0x24, 3, 17, 1, 2, 0, 0, .shl), (0x25, 3, 17, 1, 2, 0, 0, .shr),
     (0x26, 3, 17, 1, 2, 0, 0, .sar), (0x27, 3, 17, 1, 2, 0, 0, .rot), (0x30, 0, 17, 1, 2, 0, 0, .cmpEq),
     (0x31, 0, 17, 1, 2, 0, 0, .cmpNe), (0x32, 0, 17, 1, 2, 0, 0, .cmpLt), (0x33, 0, 17, 1, 2, 0, 0, .cmpLe),
     (0x34, 0, 17, 1, 2, 3, 0, .sel), (0x35, 0, 3, 1, 0, 0, 1, .setg), (0x40, 0, 17, 1, 0, 0, 0x010, .cvt),
     (0x41, 0, 17, 1, 2, 0, 0x010, .pack), (0x42, 1, 17, 1, 0, 0, 0x0B0, .unpack), (0x50, 0, 17, 1, 0, 0, 0, .rcp),
     (0x51, 0, 17, 1, 0, 0, 0, .rsq), (0x52, 0, 17, 1, 0, 0, 0, .exp2), (0x53, 0, 17, 1, 0, 0, 0, .log2),
     (0x54, 0, 17, 1, 0, 0, 0, .hsum), (0x55, 0, 17, 1, 0, 0, 0, .hmax), (0x56, 0, 17, 1, 0, 0, 0, .hmin),
     (0x60, 0, 17, 1, 2, 3, 0, .mmaE4m3), (0x61, 0, 17, 1, 2, 3, 0, .mmaE5m2), (0x62, 0, 17, 1, 2, 3, 0, .mmaE2m1),
     (0x63, 0, 17, 1, 2, 3, 0, .mmaBf16), (0x64, 0, 17, 1, 2, 3, 0, .mmaF16), (0x65, 3, 17, 1, 2, 3, 0, .mmaI8),
     (0x66, 3, 17, 1, 2, 3, 0, .mmaI4), (0x67, 3, 17, 1, 2, 3, 5, .mmaT), (0x70, 0, 33, 1, 0, 0, 0x3F, .osw),
     (0x71, 0, 17, 0, 0, 0, 0x3F, .osr), (0x72, 0, 17, 1, 0, 0, 0, .drn), (0x73, 0, 33, 1, 0, 0, 0, .flg),
     (0x74, 3, 17, 1, 2, 0, 0x15, .hash32), (0x75, 3, 17, 0, 0, 0, 0, .tidx)],
    match x with
    | (op, ty, dst, sa, sb, sc, spec, o) => decodeC (wCs op ty 1 2 1 dst sa sb sc 0 0 0 0 spec) 0 =
      some (cInstr o ⟨BitVec.ofNat 3 ty, 1, 2, 1, BitVec.ofNat 6 dst, BitVec.ofNat 6 sa, BitVec.ofNat 6 sb,
        BitVec.ofNat 6 sc, 0, false, 0, false, BitVec.ofNat 14 spec, 0⟩) := by decide +kernel

/-- NOP; REQ of TYPE i4; and a source that names E, hold, UNS, RM and SAT. -/
theorem test_decode_c_fields :
    decodeC 0 0 = some (.cNop ⟨0, 0, 0, 0, 0, 0, 0, 0, 0, false, 0, false, 0, 0⟩) ∧
    decodeC (wCs 0x43 6 0 0 0 17 1 2 3 0 0 0 0 0) 0 = some (.cReq ⟨6, 0, 0, 0, 17, 1, 2, 3, 0, false, 0, false, 0, 0⟩) ∧
    decodeC (wCs 0x10 0 0 0 0 0 32 1 0 2 0 5 1 0) 0x3F800000 =
      some (.cAdd ⟨0, 0, 0, 0, 0, 32, 1, 0, 2, false, 5, true, 0, 0x3F800000⟩) ∧
    decodeC (wCs 0x10 5 0 0 0 0 1 1 0 0 1 0 0 0) 0 = some (.cAdd ⟨5, 0, 0, 0, 0, 1, 1, 0, 0, true, 0, false, 0, 0⟩) := by
  decide +kernel

/-- The bundle written out bit by bit below R247. -/
theorem test_decode_worked_bundle :
    decodeS 0x2821000000000100 0 = some (.sAddi 4 4 (.short 256)) ∧
    decodeC 0x13080075E0000000 0 = some (.cFma ⟨0, 1, 0, 0, 0, 29, 30, 0, 0, false, 0, false, 0, 0⟩) ∧
    decodeNW .n 0x0800000000 0 = some (.nwStep .n .port) ∧ decodeNW .w 0x0800000000 0 = some (.nwStep .w .port) := by
  decide +kernel

theorem test_decode_edges :
    (∀ x ∈ [(0x0#4 ++ 0#12, Instr.yxNop .y), (1#4 ++ 2#2 ++ 3#2 ++ 0#8, .yxSet .y 2 3), (2#4 ++ 2#2 ++ 0#10, .yxOne .y 2),
        (3#4 ++ 2#2 ++ 0#10, .yxNone .y 2), (4#4 ++ 2#2 ++ 0#4 ++ 9#6, .yxShl .y 2 9), (5#4 ++ 2#2 ++ 0#4 ++ 9#6, .yxShr .y 2 9),
        (6#4 ++ 2#2 ++ 0#4 ++ 9#6, .yxRotl .y 2 9), (7#4 ++ 2#2 ++ 0#4 ++ 9#6, .yxRotr .y 2 9),
        (8#4 ++ 2#2 ++ 3#2 ++ 0#8, .yxAnd .y 2 3), (9#4 ++ 2#2 ++ 3#2 ++ 0#8, .yxOr .y 2 3),
        (10#4 ++ 2#2 ++ 33#6 ++ 4#4, .yxRange .y 2 33 4), (11#4 ++ 2#2 ++ 3#6 ++ 4#4, .yxStride .y 2 3 4),
        (12#4 ++ 2#2 ++ 0#10, .yxFlag .y 2), (12#4 ++ 2#2 ++ 1#10, .yxFlagN .y 2)], decodeYX .y x.1 = some x.2) ∧
    decodeYX .x (2#4 ++ 2#2 ++ 0#10) = some (.yxOne .x 2) ∧
    (∀ x ∈ [(0#6 ++ 0#34, 0#40, Instr.nwNop .w), (1#6 ++ 0#34, 0, .nwGo .w), (2#6 ++ 2#2 ++ 3#2 ++ 0#30, 0, .nwStep .w (.second 3)),
        (3#6 ++ 0#10 ++ 99#24, 0, .nwAuto .w .port 99), (4#6 ++ 0#34, 0, .nwHold .w), (5#6 ++ 0#34, 0, .nwZero .w),
        (6#6 ++ 0#28 ++ 33#6, 0, .nwBcast .w 33), (7#6 ++ 9#4 ++ 0#1 ++ 77#29, 0, .nwSet .w 9 (.short 77)),
        (7#6 ++ 9#4 ++ 1#1 ++ 0#29, 78, .nwSet .w 9 (.long 78)), (8#6 ++ 0#34, 0, .wGather)],
      decodeNW .w x.1 x.2.1 = some x.2.2) ∧
    (∀ x ∈ [(0#6 ++ 0#34, Instr.dNop), (1#6 ++ 0#34, .dGo), (2#6 ++ 0#34, .dSt), (3#6 ++ 0#1 ++ 2#3 ++ 1#3 ++ 0#27, .dSeg)].take 3 ++
        [(3#6 ++ 2#3 ++ 1#3 ++ 0#28, .dAcc .f32 .rtz), (4#6 ++ 3#2 ++ 5#3 ++ 1#2 ++ 0#27, .dRed .minloc .n32 3),
         (5#6 ++ 0#34, .dSeg), (6#6 ++ 9#4 ++ 0#1 ++ 77#29, .dSet 9 (.short 77))], decodeD x.1 0 = some x.2) ∧
    (∀ x ∈ [(0#24, 0#40, Instr.tNop), (1#4 ++ 0#1 ++ 9#6 ++ 0#13, 0, .tTin 9), (1#4 ++ 1#1 ++ 9#6 ++ 0#13, 0x100, .tTinSp 9 0x100),
        (2#4 ++ 0#1 ++ 9#6 ++ 0#13, 0, .tTout 9), (3#4 ++ 0#20, 0, .tTclr)], decodeT x.1 x.2.1 = some x.2.2) := by decide +kernel

theorem test_decode_a : ∀ x ∈
    [(0#40, Instr.aNop), (1#6 ++ 2#5 ++ 3#5 ++ 4#5 ++ 7#6 ++ 100#13, .aLand 2 3 4 7 100),
     (2#6 ++ 100#7 ++ 0#1 ++ 64#26, .aHExpect 100 (.imm 64)), (2#6 ++ 100#7 ++ 1#1 ++ 0#21 ++ 5#5, .aHExpect 100 (.reg 5)),
     (3#6 ++ 100#7 ++ 1#1 ++ 0#26, .aHWait 100 true), (4#6 ++ 100#7 ++ 0#27, .aHDrain 100), (5#6 ++ 100#7 ++ 0#27, .aHFree 100),
     (6#6 ++ 100#7 ++ 9#6 ++ 33#7 ++ 0#14, .aOsClaim 100 9 33), (7#6 ++ 100#7 ++ 0#27, .aOsSeal 100),
     (8#6 ++ 100#7 ++ 0#27, .aOsRelease 100), (9#6 ++ 3#5 ++ 200#8 ++ 7#6 ++ 0#15, .aPfc 3 200 7)],
    decodeA x.1 = some x.2 := by decide +kernel

theorem test_decode_packets : ∀ x ∈
    [([0x00000800, 0xDEAD], Instr.pktNop false 2), ([0x01001000, 0x10, 0x2, 0xAB], .pktWrite false 0x200000010 [0xAB]),
     ([0x02003001, 0x10, 1, 0x20, 2, 0x30, 0x50004, 0xFFFFFFFF, 7, 0x1234, 8, 9],
       .pktCopy false true 0x100000010 0x200000020 0x30 4 5 0xFFFFFFFF 7 0x1234 0x900000008),
     ([0x03001801, 0x40, 1, 0x1234, 8, 9], .pktLaunch false true 0x100000040 0x1234 0x900000008),
     ([0x04002001, 0x40, 1, 5, 6, 0x1234, 8, 9], .pktTlaunch false true 0x100000040 0x600000005 0x1234 0x900000008),
     ([0x05001401, 0x40, 1, 64, 7], .pktIb false true 0x100000040 64 7),
     ([0x06001C0D, 0x40, 1, 2, 3, 4, 5], .pktPred false 5 true 0x100000040 0x300000002 0x500000004),
     ([0x07000400], .pktPend false), ([0x08001400, 3, 4, 0x40, 1], .pktLoop false 3 4 0x100000040),
     ([0x09001002, 0x1234, 8, 9], .pktSemsigAdd false true 0x1234 0x900000008),
     ([0x09001001, 0x1234, 8, 9], .pktSemsigSet false false 0x1234 0x900000008),
     ([0x0A001200, 0x1234, 8, 9], .pktSemwait true 0x1234 0x900000008), ([0x0B000400], .pktFfence false),
     ([0x0C001001, 5, 8, 9], .pktNotify false true 5 0x900000008), ([0x0D000C00, 0x40, 1], .pktStamp false false 0x100000040),
     ([0x0E000801, 0x65000009], .pktXfer false true 9 0x65), ([0x0F001801, 0x40, 1, 0x1234, 8, 9],
       .pktColl false true 0x100000040 0x1234 0x900000008),
     ([0x10002001, 0x40, 1, 0x80, 2, 0x1234, 8, 9], .pktMpass false true 0x100000040 0x200000080 0x1234 0x900000008),
     ([0x11000400], .pktQuiesce false), ([0x12000401], .pktHalt false true), ([0x13000600], .reservedPacketOpcode true 0x13)],
    decodePacket x.1 = .packet x.2 [] := by decide +kernel

/-- Code words: 0x1FFF is a dictionary index, 0x2000 and 0xFFFF are reserved, 0xFFF0 is the escape. -/
theorem test_code_words :
    (Instr.reservedCodeWord 0x2000).wf = true ∧ (Instr.reservedCodeWord 0xFFFF).wf = true ∧
    (Instr.reservedCodeWord 0x1FFF).wf = false ∧ (Instr.reservedCodeWord 0xFFF0).wf = false := by decide +kernel

-- What the decoder refuses (R97, R98, R232, R238)

theorem test_decode_refuses :
    decodeS (wS 0x0C 0 0 0 0 0 0) 0 = none ∧ decodeS (wS 0x10 3 1 2 1 0 0) 0 = none ∧ decodeS (wS 0x02 0 1 2 6 0 9) 0 = none ∧
    decodeS (wS 0x28 3 1 0 0 1 7) 0x100000000 = none ∧ decodeC (wCs 0x04 0 0 0 0 0 0 0 0 0 0 0 0 0) 0 = none ∧
    decodeC (wCs 0x10 7 0 0 0 0 1 1 0 0 0 0 0 0) 0 = none ∧ decodeC (wCs 0x10 0 0 0 0 1 1 1 0 0 0 0 0 0) 0 = none ∧
    decodeC (wCs 0x10 0 0 0 0 0 34 1 0 0 0 0 0 0) 0 = none ∧ decodeYX .y (13#4 ++ 0#12) = none ∧
    decodeNW .n (8#6 ++ 0#34) 0 = none ∧ decodeNW .n (2#6 ++ 3#2 ++ 0#32) 0 = none ∧ decodeD (7#6 ++ 0#34) 0 = none ∧
    decodeT (4#4 ++ 0#20) 0 = none ∧ decodeA (1#6 ++ 2#5 ++ 3#5 ++ 4#5 ++ 7#6 ++ 0#13) = none ∧
    decodePacket [0x07000800, 0] = .malform ∧ decodePacket [0x07000401] = .malform ∧
    decodePacket [0x01001000, 2, 0, 5] = .malform ∧ decodePacket [0x00000C00, 0] = .malform := by decide +kernel

-- Ill-formed terms, one for each check of WellFormed

theorem test_ill_formed : ∀ i ∈
    [Instr.sLidx 1 6, .sTidx 1 1 0 5, .sLd .d true 1 1 0, .sLdDm .d true 1 1 0, .sLdx .d true 1 1 0, .sLsend 9 0 1,
     .sLrecv 9 0 1, .sShpW 0 6 1, .yxStride .y 0 4 3, .dAcc .i32 .rtz, .dRed .or .f32 0, .tTinSp 0 0x80, .aLand 0 1 2 0 0,
     .aOsClaim 0 0 0, .aOsClaim 0 0 65, .pktNop false 0, .pktWrite false 0 [], .pktWrite false 2 [1],
     .pktCopy false false 0 0 0 0 0 0 0 0 0, .pktCopy false false 0 0 1 0 0 0 0 1 0, .pktLaunch false false 1 0 0,
     .pktLaunch false false 0 1 0, .pktTlaunch false false 1 0 0 0, .pktTlaunch false false 0 0 0 1, .pktIb false false 2 4 0,
     .pktIb false false 0 6 0, .pktIb false false 0 0 0, .pktIb false false 0 0x1000004 0, .pktPred false 6 false 0 0 0,
     .pktPred false 0 false 4 0 0, .pktLoop false 0x1000001 1 0, .pktLoop false 1 0 0, .pktLoop false 1 1 4,
     .pktStamp false false 4, .pktColl false false 1 0 0, .pktColl false false 0 1 0, .pktMpass false false 1 0 0 0,
     .pktMpass false false 0 0x40 0 0, .pktMpass false false 0 0 0 1, .reservedPacketOpcode false 0x12, .reservedCodeWord 0,
     .reservedCodeWord 0xFFF0, .copyLineWrite (.channel 96 0), .copyComplete (.channel 96 0), .fnaddrWrite 513 0 0,
     .cAdd ⟨7, 0, 0, 0, 0, 1, 1, 0, 0, false, 0, false, 0, 0⟩, .cMov ⟨0, 0, 0, 0, 0, 1, 1, 0, 0, false, 0, false, 0, 0⟩,
     .cMov ⟨0, 0, 0, 0, 1, 1, 0, 0, 0, false, 0, false, 0, 0⟩, .cMov ⟨0, 0, 0, 0, 0, 1, 0, 0, 2, false, 0, false, 0, 0⟩,
     .cMov ⟨0, 0, 0, 0, 0, 1, 0, 0, 0, false, 1, false, 0, 0⟩, .cMov ⟨0, 0, 0, 0, 0, 1, 0, 0, 0, false, 0, true, 0, 0⟩,
     .cMov ⟨3, 0, 0, 0, 0, 1, 0, 0, 0, true, 0, false, 0, 0⟩, .cMov ⟨0, 0, 0, 0, 0, 1, 0, 0, 0, false, 0, false, 1, 0⟩,
     .cAdd ⟨0, 0, 0, 0, 0, 32, 1, 0, 0, false, 0, false, 0, 0x100000000⟩],
    i.wf = false := by decide +kernel

theorem test_well_formed : ∀ i ∈
    [Instr.sLidx 1 5, .sLd .d false 1 1 0, .yxStride .y 0 3 3, .dAcc .f32 .rtz, .aOsClaim 0 0 64, .pktNop false 1,
     .pktLoop false 0x1000000 1 8, .copyLineWrite (.channel 95 0), .fnaddrWrite 512 0 0,
     .cAdd ⟨0, 0, 0, 0, 0, 32, 1, 0, 0, false, 0, false, 0, 0x3F800000⟩], i.wf = true := by decide +kernel

/-- A round trip's hypotheses hold of instructions of each kind of encoding. -/
theorem test_round_trip : ∀ i ∈
    [Instr.sAdd 1 2 3, .cAdd ⟨0, 0, 0, 0, 0, 32, 1, 0, 0, false, 0, false, 0, 0x3F800000⟩, .yxOne .x 1, .nwGo .w, .dSt, .tTinSp 9 0x100,
     .aPfc 1 2 3, .pktHalt true false, .reservedCodeWord 0x2000],
    i.wf = true ∧ encode i ≠ .none ∧ decodeEnc (encode i) = some i := by decide +kernel


-- The step, reset and traps

theorem test_step_tick : State.reset.agenda = [] ∧ nx (step State.reset) = some (tick State.reset) := by decide +kernel

theorem test_step_event :
    let w := { w0 with agenda := [.event .sNop { phys := 3 }, .tick] }
    nx (step w) = some { w0 with agenda := [.tick], cur := { phys := 3 } } := by decide +kernel

/-- The bytes of words, held from offset 0. -/
def heldA (ws : List W32) : Tab HeldByte := ((ws.flatMap (fun w => leBytes 4 w.toNat)).zipIdx).map (fun x => (x.2, .byte x.1))

/-- A level whose words are all held. -/
def lvA (ws : List W32) : LevelS := { host := false, base := 0, len := 4 * ws.length, rkey := 0, pos := 0, bytes := heldA ws }

/-- Regions of the command path, of the collective path, and SHARED-READ, each of 2 MiB. -/
def regsQ : Tab Region := regsA ++
  [(5, { vbase := 2 ^ 24, k := 21, kind := 1, owner := 0x60, pbase := 2 ^ 23 }),
   (6, { vbase := 2 ^ 25, k := 21, kind := 1, owner := 0x70, pbase := 2 ^ 24 })]

/-- A submission. -/
def subA : SubRec :=
  { q := 0, host := false, flags := 0, seq := 7, addr := 0, len := 64, rkey := 0, cookie := 0xC00C1E, fn := 0, qp := 0 }

/-- Queue q of bulkhead 0 runs at the head of a level. -/
def wQ (q : Nat) (l : LevelS) : State :=
  { State.reset with
    hub := { State.reset.hub with phase := 2, timer := 5 * 2 ^ 32 }
    cur := { q := q }
    bhs := [(0, { st := .assigned, own := true
                  queues := [(q, { en := true, st := .running, cur := some subA, levels := [l] })] })]
    parts := [(0, { live := true, regions := regsQ, keys := firstKeys })] }

/-- A NOTIFY on queue 3: its words are held, and the step runs what they decode to. -/
theorem test_step_queue :
    let ws : List W32 := [0x0C001000, 5, 0x11, 0x22]
    let w := { wQ 3 (lvA ws) with agenda := [.queue 0 3] }
    let l := lvA ws
    topLevel (queueOf w 0 3) = some l ∧ missing l l.pos (captureEnd l) = none ∧ spanNeed l = none ∧
    (heldWords l 0 4).toOption = some ws ∧ decodePacket ws = .packet (.pktNotify false false 5 0x2200000011) [] ∧
    (match examine l 3 with | .run i => i == .pktNotify false false 5 0x2200000011 | _ => false) = true ∧
    after (step w) (fun t => (tabGet t.port.notif [] 0).map (fun n => (n.kind, n.cookie, n.qp, n.seq, n.time)) ==
      [(1, 0x2200000011, 5, 7, 5)] && (topLevel (queueOf t 0 3)).any (fun x => x.pos == 16)) := by decide +kernel

/-- A lone running array: ADDI s4, s4, 256 from dictionary entry 0 at PC 0, in one ac. -/
theorem test_step_array :
    let a : ArrayS := { arrA with
      pc := 0, nc := 1, nd := 1, code := [(0, 0)], rcache := []
      dict := [(0, BitVec.ofNat 384 (0x2821000000000100 * 2 ^ 320))] }
    let w := { wA a with agenda := [.array 0] }
    chainOf w 0 = [0] ∧ (arrOf w 0).cond = .running ∧ (arrOf w 0).replay = false ∧ (arrOf w 0).mpe = none ∧
    (freezeStep (everyAc w 0) 0 .lead).2 = false ∧ (fetchBundle (arrOf w 0)).ill = false ∧
    after (step w) (fun t => sVal (arrOf t 0) 4 == 0xF9 && (arrOf t 0).tt == 51 && (arrOf t 0).pc == 1) := by decide +kernel

theorem test_reset_registers :
    readReg State.reset 0x100 = 2800 ∧ readReg State.reset 0x43C = 0x01040408 ∧ readReg State.reset 0x440 = 0 ∧
    readReg State.reset 0x10F4 = 0x00010000 ∧ readReg State.reset 0x403C = 1 ∧ readReg State.reset 0x6800 = 0x0404 ∧
    readReg State.reset 0xB010 = 0x0A141000 ∧ readReg State.reset 0x102 = 0 := by decide +kernel

/-- A memory in canonical form that lists a byte, and a step from it. -/
theorem test_memory_canonical :
    MemCanonical State.reset ∧ MemCanonical { w0 with mem := [(5, 1), (9, 2)] } ∧
    ¬ MemCanonical { w0 with mem := [(5, 1), (9, 0)] } ∧ ¬ MemCanonical { w0 with mem := [(9, 1), (5, 2)] } := by decide +kernel

/-- Of two faults the lower slot; of C instances the lowest row. -/
theorem test_take_trap :
    let f : FaultE := { cause := .align, slot := 8, detail := 0 }
    let g : FaultE := { cause := .region, slot := 0, detail := 3, region := 9 }
    let c : FaultE := { cause := .poison, slot := 1, detail := 1, row := some 5, col := 2 }
    firstFault [f, g] = some g ∧ firstFault [f, c] = some c ∧
    (let t := takeTrap { arrA with faults := [f, g], perf := 0x3FE }
     t.cond = .held ∧ t.faults = [] ∧ (t.trec.any (fun r => r.cause == .region && r.slot == 0 && r.pc == 10 && r.tt == 50 &&
       r.perf == 0x3FE && r.region == 9)) = true) ∧
    ((takeTrap { arrA with faults := [c] }).trec.any (fun r => r.slot == 1 && r.row == 5 && r.col == 2 && r.valid)) = true ∧
    resumeTrap { arrA with cond := .held } = { arrA with replay := true } := by decide +kernel

theorem test_asynchronous_trap :
    let w := wA { arrA with async := [{ cause := .domain, slot := 0xF, detail := 0, region := 0x3FFF }] }
    (here w).cond = .running ∧ after (exec .asynchronousTrap w) (fun t => (here t).cond == .held &&
      (here t).trec.any (fun r => r.cause == .domain && r.slot == 0xF && r.perf == 0 && r.pc == 10)) := by decide +kernel

theorem test_reserved :
    after (exec (.reservedCodeWord 0x2000) w0) (fun t => (here t).perf == 0 && (here t).faults.map (fun f => f.detail) == [0x2000]) ∧
    after (exec (.reservedSlotOpcode .t) w0) (fun t => (here t).faults.map (fun f => f.cause) == [.illcode]) ∧
    notifFull (wQ 3 (lvA [])) (hereQ (wQ 3 (lvA []))).vf = false ∧
    after (exec (.reservedPacketOpcode false 0x13) (wQ 3 (lvA []))) (fun t => (hereQ t).st == .faulted &&
      (tabGet t.port.notif [] 0).map (fun n => (n.kind, n.cause, n.disc)) == [(4, 1, 1)]) ∧
    after (exec (.keyctlBadCommand 5) w0) (fun t => (partOf t 0).keyErr == 1) := by decide +kernel

-- Command packets

/-- Words that stand for any packet of six. -/
def sixA : LevelS := lvA [0, 1, 2, 3, 4, 5]

/-- What a packet leaves: position, and a condition. -/
def passes (w : State) (i : Instr) (pos : Nat) (p : State → Bool) : Bool :=
  after (exec i w) (fun t => (topLevel (hereQ t)).any (fun x => x.pos == pos) && (hereQ t).st == .running && p t)

theorem test_packets :
    let w := wQ 3 sixA
    let l := sixA
    PacketRuns w false .all l ∧ QuietFor w true ∧ partSize w 0 = 1 ∧
    (∃ r o, xlatePart w 0 (2 ^ 24) 8 (cmdOwner w 0) .wr = .ok 5 r o) ∧ releaseWait w 0 (cmdOwner w 0) none (2 ^ 24) = false ∧
    passes w (.pktNop false 2) 8 (fun _ => true) ∧
    passes w (.pktWrite false (BitVec.ofNat 64 (2 ^ 24)) [0xAABBCCDD]) 16 (fun t =>
      (l2Find (sliceOf t (homeSlice (2 ^ 23 / 64))) (2 ^ 23 / 64)).any (fun y => y.data == 0xAABBCCDD && y.dirty == 0xF)) ∧
    passes w (.pktStamp false false (BitVec.ofNat 64 (2 ^ 24))) 12 (fun t =>
      (l2Find (sliceOf t (homeSlice (2 ^ 23 / 64))) (2 ^ 23 / 64)).any (fun y => y.data == 5)) ∧
    passes w (.pktSemsigSet false false 3 9) 16 (fun t => semGet t 0 3 == 9) ∧
    passes w (.pktSemsigAdd false true 3 9) 16 (fun t => semGet t 0 3 == 9) ∧
    passes w (.pktSemwait false 3 0) 16 (fun _ => true) ∧ passes w (.pktFfence false) 4 (fun t =>
      (hereQ t).levels.all (fun x => x.bytes.isEmpty)) ∧
    passes w (.pktQuiesce false) 4 (fun _ => true) ∧
    after (exec (.pktSemwait false 3 1) w) (fun t => (hereQ t).st == .waiting && (hereQ t).wait == some (.sem 3 1)) ∧
    after (exec (.pktHalt false true) w) (fun t => (hereQ t).st == .halted &&
      (tabGet t.port.notif [] 0).map (fun n => (n.kind, n.disc, n.cookie)) == [(5, 1, 0xC00C1E)]) := by
  refine ⟨by decide +kernel, by decide +kernel, by decide +kernel, ⟨tabGet regsQ {} 5, 0, by decide +kernel⟩, ?_⟩
  decide +kernel

/-- A queue with work under way: QUIESCE waits. -/
theorem test_quiesce_waits :
    let w := modBh (wQ 3 sixA) 0 (fun b => { b with nodes := [(0, { nodeA with q := some 3 })] })
    ¬ QuietFor w true ∧ after (exec (.pktQuiesce false) w) (fun t => (hereQ t).wait == some .quiesce) := by decide +kernel

theorem test_flow_packets :
    let w := wQ 3 sixA
    let inSpan (v : Bool) : State := wQ 3 { sixA with span := some v }
    topLevel (hereQ w) = some sixA ∧
    (match predRead w 0 (2 ^ 24) with | .ok x => x.2 == 0 | .error _ => false) = true ∧
    passes w (.pktPred false 0 false (BitVec.ofNat 64 (2 ^ 24)) 0 0xFF) 28 (fun t =>
      (topLevel (hereQ t)).any (fun x => x.span == some true && x.pred == (0, 0))) ∧
    passes w (.pktPred false 2 true (BitVec.ofNat 64 (2 ^ 24)) 0xFFFFFFFFFFFFFFFF 0xFF) 28 (fun t =>
      (topLevel (hereQ t)).any (fun x => x.span == some false)) ∧
    passes (inSpan false) (.pktPend false) 4 (fun t => (topLevel (hereQ t)).any (fun x => x.span.isNone)) ∧
    after (exec (.pktPend false) w) (fun t => (hereQ t).st == .faulted && (tabGet t.port.notif [] 0).map (fun n => n.cause) == [5]) ∧
    after (exec (.pktPred true 0 false 0 0 0) w) (fun t => (hereQ t).st == .faulted) ∧
    after (exec (.pktIb false false 0x40 64 0) w) (fun t => (hereQ t).levels.map (fun x => (x.base, x.len, x.pos)) ==
      [(0, 24, 20), (0x40, 64, 0)]) ∧
    (let v := modQueue w 0 3 (fun q => { q with levels := [sixA, sixA, sixA] })
     after (exec (.pktIb false false 0x40 64 0) v) (fun t => (tabGet t.port.notif [] 0).map (fun n => n.cause) == [4])) ∧
    after (exec (.pktLoop false 3 1 0) w) (fun t => (topLevel (hereQ t)).any (fun x => x.pos == 20 &&
      x.loop == some { start := 20, stop := 24, count := 3, index := 0, addr := 0, inSpan := false })) ∧
    passes w (.pktLoop false 0 1 0) 24 (fun _ => true) ∧
    passes (inSpan false) (.pktHalt true false) 4 (fun t => (hereQ t).levels.length == 1) ∧
    after (exec (.pktHalt true false) w) (fun t => (tabGet t.port.notif [] 0).map (fun n => n.cause) == [5]) ∧
    after (exec (.pktColl true false 0 0 0) (inSpan false)) (fun t => (tabGet t.port.notif [] 0).map (fun n => n.cause) == [3]) := by
  decide +kernel

/-- A copy of one row of 64 bytes inside the command path's region. -/
theorem test_copy_packet :
    let l := lvA (List.replicate 12 0)
    let w := wQ 8 l
    PacketRuns w false .y l ∧
    (∃ r o, xlatePart w 0 (2 ^ 24) 64 (cmdOwner w 0) .rd = .ok 5 r o) ∧
    (∃ r o, xlatePart w 0 (2 ^ 24 + 64) 64 (cmdOwner w 0) .wr = .ok 5 r o) ∧ (hereQ w).copies.length < 8 ∧
    passes w (.pktCopy false true (BitVec.ofNat 64 (2 ^ 24)) (BitVec.ofNat 64 (2 ^ 24 + 64)) 64 0 0 0 0 3 9) 48 (fun t =>
      (tabFind (hereQ t).copies 0).any (fun c => c.src == 2 ^ 24 && c.dst == 2 ^ 24 + 64 && c.row == 64 && c.rows == 1 &&
        c.sem == some (3, 9))) := by
  refine ⟨by decide +kernel, ⟨tabGet regsQ {} 5, 0, by decide +kernel⟩, ⟨tabGet regsQ {} 5, 64, by decide +kernel⟩, ?_⟩
  decide +kernel

/-- A region of array 0 goes to array 1 behind a marker of every array; once they are passed the queue goes on. -/
theorem test_xfer_packet :
    let l := lvA [0x0E000800, 0x01000001]
    let w := wQ 3 l
    PacketRuns w false .cy l ∧ QuietFor w false ∧ ownerOk w 0 1 = true ∧
    after (exec (.pktXfer false false 1 1) w) (fun t => (tabFind (partOf t 0).regions 1).any (fun r => r.owner == 1 && r.rpend) &&
      (hereQ t).st == .waiting && (arrOf t 5).fifo == [.marker 1] &&
      after (exec .xferPacketComplete (modArr (modArr (modArr (modArr (modArr (modArr t 0 (fun a => { a with fifo := [] }))
        1 (fun a => { a with fifo := [] })) 2 (fun a => { a with fifo := [] })) 3 (fun a => { a with fifo := [] }))
        4 (fun a => { a with fifo := [] })) 5 (fun a => { a with fifo := [] }))) (fun u =>
        (hereQ u).st == .running && (tabFind (partOf u 0).regions 1).any (fun r => r.owner == 1 && !r.rpend) &&
        (topLevel (hereQ u)).any (fun x => x.pos == 8))) := by decide +kernel

/-- An all-reduce of one chip: its descriptor lies in the collective path's region. -/
theorem test_coll_packet :
    let l := lvA (List.replicate 6 0)
    let d : BitVec 512 := BitVec.ofNat 512 (1 * 2 ^ 32 + 2 ^ 25 * 2 ^ 64 + (2 ^ 25 + 4096) * 2 ^ 192 + 16 * 2 ^ 256 + 1 * 2 ^ 320)
    let w := wQ 12 l
    let v := setSlice w (homeSlice (2 ^ 24 / 64)) { lines := [{ line := 2 ^ 24 / 64, data := d, valid := allBytes, dirty := 0 }] }
    cdOk d = true ∧ PacketRuns v false .l l ∧ (∃ r o, xlatePart v 0 (2 ^ 25) 64 (collOwner v 0) .rd = .ok 6 r o) ∧
    releaseWait v 0 (collOwner v 0) none (2 ^ 25) = false ∧
    passes v (.pktColl false false (BitVec.ofNat 64 (2 ^ 25)) 0 0) 24 (fun t => (bhOf t 0).colls.map (fun c => (c.2.desc == d, c.2.va, c.2.q)) ==
      [(true, 2 ^ 25, some 12)]) := by
  refine ⟨by decide +kernel, by decide +kernel, ⟨tabGet regsQ {} 6, 0, by decide +kernel⟩, ?_⟩
  decide +kernel


-- Launches (R106, R120 to R124, R202)

/-- A region large enough for a save area. -/
def regsN : Tab Region := regsQ ++ [(7, { vbase := 2 ^ 28, k := 24, kind := 1, owner := 0x60, pbase := 2 ^ 26 })]

/-- Numbers in fields of some bytes each, as bytes. -/
def packA (l : List (Nat × Nat)) : List Byte := l.flatMap (fun x => leBytes x.1 x.2)

/-- A node of one array over a graph, a key domain and the partition, from 2^24 on (R120). -/
def wcbA : List Byte :=
  packA [(4, 4 * 2 ^ 29 + 3 * 2 ^ 26), (4, 0), (8, 2 ^ 24 + 128), (8, 0), (8, 0), (4, 0), (4, 64), (8, 0), (8, 0), (4, 0), (2, 7), (2, 0),
    (4, 0x0100), (28, 0), (8, 0), (4, 0), (4, 0), (8, 2 ^ 28), (8, 0)] ++
  packA [(4, 2 * 2 ^ 29 + 2 * 2 ^ 26), (4, 0), (8, 2 ^ 24 + 256), (112, 0)] ++
  packA [(4, 1 * 2 ^ 29 + 1 * 2 ^ 26), (4, 0), (8, 2 ^ 24 + 384), (112, 0)] ++
  packA [(4, 4 * 2 ^ 20), (4, 0xFF), (120, 0)]

/-- Queue 3 at the head of six words, with the blocks in memory. -/
def wLaunch : State :=
  let w := wQ 3 (lvA [0, 1, 2, 3, 4, 5, 6, 7])
  { w with
    mem := memPut [] (2 ^ 23) wcbA
    parts := [(0, { live := true, regions := regsN, keys := firstKeys })] }

theorem test_launch_packet :
    PacketRuns wLaunch false .c (lvA [0, 1, 2, 3, 4, 5, 6, 7]) ∧
    (launch wLaunch 0 (some 3) (2 ^ 24) none none none none 0).2 = .ok 0 ∧
    after (exec (.pktLaunch false false (BitVec.ofNat 64 (2 ^ 24)) 0 0) wLaunch) (fun t =>
      (nodeOf t (0, 0)).any (fun n => n.st == .ready && n.prio == 4 && n.gangs == [{ first := 0, count := 1, chain := 0 }] &&
        n.chain == [2 ^ 24, 2 ^ 24 + 128, 2 ^ 24 + 256, 2 ^ 24 + 384]) &&
      (topLevel (hereQ t)).any (fun x => x.pos == 24)) := by decide +kernel

theorem test_tlaunch_packet :
    (launch wLaunch 0 (some 3) (2 ^ 24) (some (3, 9)) (some 100) none none 0).2 = .ok 0 ∧
    after (exec (.pktTlaunch false true (BitVec.ofNat 64 (2 ^ 24)) 100 3 9) wLaunch) (fun t =>
      (nodeOf t (0, 0)).any (fun n => n.st == .waiting && n.tick == some 100 && n.sem == some (3, 9))) := by decide +kernel

/-- A descriptor of one edge, features of 64 bytes, P = 64 and DSTART = DOFF = 0 (R202). -/
def mpeA : BitVec 1024 :=
  BitVec.ofNat 1024 (leNat (packA [(8, 0), (4, 1), (4, 0), (8, 0), (4, 0), (4, 64), (8, 0), (4, 0), (4, 0), (8, 0), (4, 0), (2, 0), (2, 0),
    (8, 0), (4, 0), (2, 0), (2, 64)]))

/-- A bundle whose C slot is a segmented DRN with carry-in under ym3, segments by ym2. -/
def drnA : BundleBits := BitVec.ofNat 384 ((wCs 0x72 0 3 0 0 16 1 0 0 0 0 0 0 0x3600).toNat * 2 ^ 256)

/-- The descriptor lies at address 0, the image's only bundle 64 bytes behind its header at 2^24 + 4096. -/
theorem test_mpass_packet :
    let wcb := packA [(4, 4 * 2 ^ 29 + 3 * 2 ^ 26), (4, 0), (8, 2 ^ 24 + 128), (8, 0), (8, 0), (4, 0), (4, 64), (8, 2 ^ 24 + 4096), (8, 0), (4, 0),
      (2, 7), (2, 0), (4, 0x0100), (28, 0), (8, 0), (4, 0), (4, 0), (8, 2 ^ 28), (8, 0)]
    let m0 := memPut (memPut wLaunch.mem (2 ^ 23) wcb) 0 (leBytes 128 mpeA.toNat)
    let w := { wLaunch with mem := memPut (memPut m0 (2 ^ 23 + 4096 + 8) [1]) (2 ^ 23 + 4096 + 64) (leBytes 48 drnA.toNat) }
    (launch w 0 (some 3) (2 ^ 24) none none (some 0) none 0).2 = .ok 0 ∧
    after (exec (.pktMpass false false (BitVec.ofNat 64 (2 ^ 24)) 0 0 0) w) (fun t =>
      (nodeOf t (0, 0)).any (fun n => n.st == .ready && n.steps == some [(0, mpeA)])) := by decide +kernel

/-- MPASS and COLL.GO of an array, their descriptors at address 0 of its own region. -/
theorem test_engine_starts :
    let a := { arrA with dict := [(0, drnA)], nd := 1 }
    let w := { wA a with mem := memPut [] 0 (leBytes 128 mpeA.toNat) }
    let d : BitVec 512 := BitVec.ofNat 512 (1 * 2 ^ 32 + 4096 * 2 ^ 192 + 16 * 2 ^ 256 + 1 * 2 ^ 320)
    let v := { wA a with mem := memPut [] 0 (leBytes 64 d.toNat) }
    let r := (arrRead w 0 0 128).2
    Unmarked (here w) [0] ∧ (here w).mpe = none ∧ r.err = none ∧ r.bad = false ∧
    mpeOk (BitVec.ofNat 1024 (leNat r.bytes)) (tabFind (here w).dict 0) ((here w).busy0.extractLsb' 16 16 = 0) (fun _ => true) = true ∧
    after (exec (.sMpass 0) w) (fun t => (here t).mpe.any (fun m => m.eCount == 1 && m.p == 64 && m.recOv.length == 1)) ∧
    (arrRead v 0 0 64).2.err = none ∧ (arrRead v 0 0 64).2.bad = false ∧ cdOk d = true ∧ semNameOk v 0 3 = true ∧
    after (exec (.sCollGo 0 (some (2, 3))) v) (fun t => (here t).colls == 1 &&
      (bhOf t 0).colls.map (fun c => (c.2.desc == d, c.2.sem)) == [(true, some (3, 7))]) := by decide +kernel

/-- The copy of four bytes from scratchpad address 0 to 0x400, with a semaphore add of 9 at its end (R197). -/
def tmplA : BitVec 1024 :=
  BitVec.ofNat 1024 (leNat (packA [(1, 1), (1, 1), (1, 1), (1, 2), (1, 0), (1, 0), (1, 0xFF), (1, 0), (8, 0), (8, 0x400), (12, 0), (2, 3), (2, 0),
    (8, 9), (4, 4), (4, 1), (4, 1), (4, 1), (4, 1)]))

theorem test_channel_copy :
    let w := wA { arrA with tmpl := [(7, tmplA)], spad := [(1, 0x55)] }
    let c : ChanS := { tmpl := tmplA, sreg := 0, dreg := 0, nosem := false, pos := 0, stop := false }
    let v := wA { arrA with chans := [(1, c)], spad := [(1, 0x55)] }
    let id := CopyId.channel 0 1
    copyCheck w tmplA 0 0 false = none ∧
    after (exec (.sStA 2 0x1010) w) (fun t => (here t).chans == [(1, c)]) ∧
    tmSsp tmplA = 1 ∧ tmDsp tmplA = 1 ∧ tmHnd tmplA = 0xFF ∧ chTotal tmplA = 4 ∧
    after (exec (.copyLineWrite id) v) (fun t => (here t).asy == [{ os := false, addr := 0x400, bytes := [0, 0x55, 0, 0], marks := [false, false, false, false], src := (0, 1), hnd := 0xFF, go := true }]) ∧
    chFenced (here v) c = false ∧
    channelDone (wA { arrA with chans := [(1, { c with pos := 4 })] }) 0 1 { c with pos := 4 } = true ∧
    after (exec (.copyComplete id) (wA { arrA with chans := [(1, { c with pos := 4 })] })) (fun t => (here t).chans.isEmpty && semGet t 0 3 == 9) := by
  decide +kernel

-- Queues (R89 to R96, R110, R113)

theorem test_queue_events :
    let w := wQ 3 sixA
    let host : State := modQueue (wQ 3 { sixA with host := true, bytes := [] }) 0 3 (fun q =>
      { q with fetching := true, reply := some (some (4, 8, leBytes 8 0x1122334455667788)) })
    let dev : State := modQueue { wQ 3 { sixA with bytes := [], base := 2 ^ 24 } with mem := [(2 ^ 23 + 4, 9)] } 0 3 (fun q =>
      { q with fetching := true, reply := some (some (4, 4, [])) })
    let bad : State := modQueue (wQ 3 sixA) 0 3 (fun q => { q with fetching := true, reply := some none })
    let waits : State := modQueue (wQ 3 sixA) 0 3 (fun q => { q with st := .waiting, wait := some (.sem 3 0) })
    after (exec .qmapHalt w) (fun t => (hereQ t).haltReq) ∧ after (exec .qmapHalt waits) (fun t => (hereQ t).st == .halted) ∧
    after (exec .streamFetchComplete host) (fun t => (topLevel (hereQ t)).any (fun x =>
      tabFind x.bytes 4 == some (.byte 0x88) && tabFind x.bytes 11 == some (.byte 0x11) && (tabFind x.bytes 12).isNone)) ∧
    deviceWaits dev 0 (2 ^ 24 + 4) 4 = false ∧
    after (exec .streamFetchComplete dev) (fun t => (topLevel (hereQ t)).any (fun x => tabFind x.bytes 4 == some (.byte 9))) ∧
    after (exec .streamFetchComplete bad) (fun t => (tabGet t.port.notif [] 0).map (fun n => n.cause) == [0x0A]) ∧
    waitHolds waits 0 3 (.sem 3 0) = true ∧
    after (exec .queueWaitSatisfied waits) (fun t => (hereQ t).st == .running) := by decide +kernel

/-- A notification of kind 1. -/
def notifA : Notif :=
  { kind := 1, cause := 0, q := 0, level := 0, seq := 7, cookie := 9, offset := 0, disc := 0, time := 5, tail := 0, qp := 2 }

theorem test_notification_send :
    let w : State := { w0 with
      port := { w0.port with up := true, vfmap := [(0, 0x80000000)], notif := [(0, [notifA])], qps := [(qpKey 0 2, { st := .rts, remote := 0x77, sPsn := 0xFFFFFF })] } }
    (qpOf w (qpKey 0 2)).st = .rts ∧ txRoom w (fnGroup w 0) 154 = true ∧ w.cur.fn = 0 ∧ fnOn w 0 = true ∧
    notifAhead w 0 (qpKey 0 2) = false ∧
    after (exec .notificationSend w) (fun t => (tabGet t.port.notif [] 0).isEmpty && (qpOf t 2).sPsn == 0 &&
      (tabGet t.port.tx [] 0).map (fun f => match f.body with | .roce p => (p.qpn, p.psn, p.data.length) | _ => (0, 0, 0)) ==
        [(0x77, 0xFFFFFF, 64)]) := by decide +kernel

theorem test_error_record :
    let r : ErrRec := { cls := 1, bh := 0, part := 0, syn := 1, region := 9, line := 3, count := 1, time := 4, at_ := 0 }
    let w : State := { w0 with
      hub := { w0.hub with errEn := true, errQp := 5, errBuf := [r] }, port := { w0.port with qps := [(qpKey 512 5, { st := .rts })] } }
    (qpOf w (qpKey 512 w.hub.errQp)).st = .rts ∧ txRoom w 16 154 = true ∧
    after (exec .errorRecordDeliver w) (fun t => t.hub.errBuf.isEmpty && (tabGet t.port.tx [] 16).length == 1) ∧
    after (exec .errqpDropClear { w with hub := { w.hub with errDrop := { n := 9 } } }) (fun t => t.hub.errDrop.n == 0) ∧
    after (exec .errqpDropClear { w with hub := { w.hub with errDrop := { n := 9, cntAt := some 0 } } }) (fun t => t.hub.errDrop.n == 1) := by
  decide +kernel

-- Copies and collectives

/-- A copy of 100 bytes: its first line moves 64 of them, and at its end the semaphore is added to. -/
theorem test_copy_line :
    let c : QCopy := { src := 2 ^ 24, dst := 2 ^ 24 + 4096, row := 100, rows := 1, rc := 0, sp := 0, dp := 0, pos := 0, sem := some (3, 9), stop := none }
    let w (x : QCopy) : State := { modQueue (wQ 8 sixA) 0 8 (fun q => { q with copies := [(2, x)] }) with mem := [(2 ^ 23 + 5, 0xAB)] }
    let id := CopyId.packet 0 8 2
    tabFind (queueOf (w c) 0 8).copies 2 = some c ∧ (bhOf (w c) 0).part = 0 ∧
    (∃ r, xlatePart (w c) 0 (2 ^ 24 + 4096) 64 0x60 .wr = .ok 5 r 4096 ∧ xlatePart (w c) 0 (2 ^ 24) 64 0x60 .rd = .ok 5 r 0) ∧
    releaseWait (w c) 0 0x60 none (2 ^ 24) = false ∧
    after (exec (.copyLineWrite id) (w c)) (fun t => (tabFind (queueOf t 0 8).copies 2).any (fun x => x.pos == 64) &&
      (l2Find (sliceOf t (homeSlice ((2 ^ 23 + 4096) / 64))) ((2 ^ 23 + 4096) / 64)).any (fun y => y.data == 0xAB0000000000)) ∧
    after (exec (.copyComplete id) (w { c with pos := 100 })) (fun t => (queueOf t 0 8).copies.isEmpty && semGet t 0 3 == 9) ∧
    after (exec (.copyComplete id) (w { c with stop := some 7 })) (fun t => (queueOf t 0 8).late.any (fun l => l.cause == 7)) := by
  refine ⟨by decide +kernel, by decide +kernel, ⟨tabGet regsQ {} 5, by decide +kernel⟩, ?_⟩; decide +kernel

theorem test_semaphore_arrival :
    let o (k : SemKind) : SemOp := { kind := k, name := 3, v := 9, reg := 5, at_ := 40, sent := true }
    let w (k : SemKind) : State := modBh w0 0 (fun b => { b with semArr := [(0, o k)], sems := [(3, 4)] })
    after (exec .semaphoreRemoteArrival (w .add)) (fun t => semGet t 0 3 == 13 && (bhOf t 0).semArr.isEmpty) ∧
    after (exec .semaphoreRemoteArrival (w .set)) (fun t => semGet t 0 3 == 9) ∧
    after (exec .semaphoreRemoteArrival (w .read)) (fun t => semGet t 0 3 == 4) ∧
    after (exec .semaphoreRemoteArrival (w .wait)) (fun t => (bhOf t 0).semWaits == [(0, o .wait)] && (bhOf t 0).semArr.isEmpty) := by
  decide +kernel

/-- A packet's add that arrives over the torus is not answered; a wait on a semaphore of bulkhead 1 goes there, and once
the value is reached its answer leaves. -/
theorem test_semaphore_remote :
    let o : SemOp := { kind := .wait, name := 0x1003, v := 9, reg := 0, at_ := 90, sent := true, far := true }
    let two (n : W64) (x : ArrayS) (l : List (Nat × SemOp)) : State := { wA x with
      bhs := [(0, bhA), (1, { st := .assigned, own := true, sems := [(3, n)], semWaits := l })]
      parts := [(0, { live := true, size := 1, regions := regsA, keys := firstKeys })] }
    let waits (l : List SemOp) : ArrayS := { arrA with wait := some (.sem 0x1003 9 90 none), sems := l }
    let add : SemOp := { kind := .add, name := 3, v := 9, reg := 0, at_ := 40, sent := true, mute := true }
    nx (exec .semaphoreRemoteArrival (modBh w0 0 (fun b => { b with semArr := [(0, add)] }))) = some (semPut w0 0 3 9) ∧
    (semPlace 0 0x1003).1 = 1 ∧
    after (exec .semaphoreWaitSatisfied (two 0 (waits []) [])) (fun t => (here t).sems == [o] && t.routers.length == 1) ∧
    nx (exec .semaphoreWaitSatisfied (two 8 (waits [o]) [(0, o)])) = some (two 8 (waits [o]) [(0, o)]) ∧
    after (exec .semaphoreWaitSatisfied (two 9 (waits [o]) [(0, o)])) (fun t => (bhOf t 1).semWaits.isEmpty && t.routers.length == 1) := by
  decide +kernel

/-- A collective of one chip: its one word is read and reduced, then written, and at the end its queue's semaphore is
added to. -/
theorem test_collective_complete :
    let d : BitVec 512 := BitVec.ofNat 512 (1 * 2 ^ 32 + 2 ^ 25 * 2 ^ 64 + (2 ^ 25 + 4096) * 2 ^ 192 + 1 * 2 ^ 256 + 1 * 2 ^ 320)
    let c0 : CollS := { desc := d, va := 2 ^ 25, sem := some (3, 9), q := some 12, arr := none }
    let c : CollS := { c0 with ready := true, rd := 1, words := [(0x40400000, false)], chunks := [(0, [(0x40400000, false)])] }
    let w (x : CollS) : State := { modBh (wQ 12 sixA) 0 (fun b => { b with colls := [(4, x)] }) with mem := memPut [] (2 ^ 24) (leBytes 4 0x40400000) }
    (collPieces d)[0]? = some (0, 2 ^ 25, 4) ∧ (collPieces d).length = 1 ∧ cdC d = 1 ∧ engineWaits (w c0) 0 (2 ^ 25) 4 = false ∧
    after (exec (.collectiveComplete 4) (w c0)) (fun t => collOf t 0 4 == some c) ∧
    (collDest c)[0]? = some (2 ^ 25 + 4096, 4) ∧ ringDone c = true ∧ collStall (w c) 0 c (2 ^ 25 + 4096) 4 = false ∧
    after (exec (.collectiveComplete 4) (w c)) (fun t => collOf t 0 4 == some { c with put := 1 } &&
      (l2Find (sliceOf t (homeSlice ((2 ^ 24 + 4096) / 64))) ((2 ^ 24 + 4096) / 64)).any (fun y => y.data == 0x40400000)) ∧
    collHeld (w { c with put := 1 }) 0 { c with put := 1 } = false ∧ collStatus { c with put := 1 } = 0 ∧
    after (exec (.collectiveComplete 4) (w { c with put := 1 })) (fun t => (collOf t 0 4).isNone && semGet t 0 3 == 9) ∧
    after (exec (.collectiveComplete 4) (w { c with put := 1, code := 2 })) (fun t =>
      (tabGet t.port.notif [] 0).map (fun n => (n.kind, n.cause)) == [(4, 7)]) := by
  decide +kernel

/-- The collective of an array leaves its marker, and ends once it has passed. -/
theorem test_collective_array :
    let d : BitVec 512 := BitVec.ofNat 512 (1 * 2 ^ 32 + 4096 * 2 ^ 192 + 1 * 2 ^ 256 + 2 ^ 320)
    let x : CollS := { desc := d, va := 64, sem := some (3, 9), q := none, arr := some (0, 0), ready := true, rd := 1, put := 1
                       words := [(0x40400000, false)], chunks := [(0, [(0x40400000, false)])] }
    let v := modBh w0 0 (fun b => { b with colls := [(4, x)] })
    collArr v x = some 0 ∧ (collDest x)[1]? = none ∧
    after (exec (.collectiveComplete 4) v) (fun t => (collOf t 0 4).any (fun y => y.wrote && y.mark == some 1) &&
      (arrOf t 0).fifo.getLast? == some (.marker 1) &&
      after (exec (.collectiveComplete 4) (modArr t 0 (fun a => { a with fifo := [] }))) (fun u => (collOf u 0 4).isNone && semGet u 0 3 == 9)) := by
  decide +kernel

-- Events of an array

theorem test_landing :
    let l : LandS := { dest := 128, bytes := 64, due := 50, lines := [(0, (0x1234, 0))], done := 0 }
    let w := wA { arrA with land := [(3, l)] }
    let v := wA { arrA with land := [(3, { l with lines := [], ov := [(0, (0xFF, 1, false))] })], landIn := [{ slot := 3, line := 0, data := 0x1234, bad := false }] }
    l.due ≤ (here w).tt ∧ after (exec .landingWrite w) (fun t => memNat (here t).spad 128 4 == 0x1234 && (here t).land.isEmpty) ∧
    after (exec .landingLineArrival v) (fun t => (here t).landIn.isEmpty &&
      (tabFind (here t).land 3).any (fun x => tabFind x.lines 0 == some (0x12FF, 0))) := by decide +kernel

theorem test_array_events :
    let pend := wA { arrA with s := arrA.s ++ [(6, { pend := true })], pend := [{ reg := 6, v := 0x99, mark := none, at_ := 100 }, { reg := 7, v := 1, mark := none, at_ := 101 }] }
    let sem := wA { arrA with wait := some (.sem 3 0 90 none) }
    let walk := wA { arrA with rcache := [], walk := some 0x400010 }
    let miss := wA { arrA with rcache := [], walk := some 0x4000000 }
    let inv := wA { arrA with rinv := [2, 3] }
    let e : EgLine := { data := 7, mask := 0xFF, region := 1 }
    let drain := wA { arrA with eg := [(1, e)], fifo := [.line 1, .marker 4] }
    let mark := setPart (wA { arrA with fifo := [.marker 4] }) 0 { partOf w0 0 with
      regions := [(1, { tabGet regsA {} 1 with rpend := true, mark := 4, markA := 0, markV := true })] }
    after (exec .pendingValueWrite pend) (fun t => sVal (here t) 6 == 0x99 && (here t).pend.length == 1) ∧
    after (exec .semaphoreWaitSatisfied sem) (fun t => (here t).wait == some (.sem 3 0 90 (some 100))) ∧
    after (exec .regionWalkComplete walk) (fun t => (here t).walk.isNone && (here t).rcache.map (fun x => x.1) == [3]) ∧
    after (exec .regionWalkComplete miss) (fun t => (here t).walkBad) ∧
    after (exec .regionCacheInvalidation inv) (fun t => (here t).rcache.map (fun x => x.1) == [1, 4] && (here t).rinv.isEmpty) ∧
    after (exec .egressLineDrain drain) (fun t => (here t).eg.isEmpty && (here t).fifo == [.marker 4] && (egSee (here t) 1).1 == 7 &&
      nx (exec .egressLineDrain t) == some t) ∧
    after (exec .egressLineDrain mark) (fun t => (here t).fifo.isEmpty && (tabFind (partOf t 0).regions 1).any (fun r => !r.rpend)) := by
  decide +kernel

theorem test_halt_and_preemption :
    let halt := wA { arrA with cond := .halting }
    let bad := wA { arrA with cond := .halting, sigi := 1 }
    let asks (c : Machine.Cond) : State := setNode (wA { arrA with cond := c }) (0, 0) { nodeA with asked := [0] }
    let dog := wA { arrA with preReq := true }
    let edge := setNode (wA { arrA with preReq := true, boundary := true }) (0, 0) { nodeA with asked := [0] }
    pipeEmpty (here halt) = true ∧ (here halt).sigi = (here halt).sigs ∧
    after (exec .haltComplete halt) (fun t => (here t).cond == .halted) ∧
    after (exec .haltComplete bad) (fun t => (here t).trec.any (fun r => r.cause == .wavesig && !r.perf.getLsbD 0)) ∧
    after (exec .preemptionRequest (asks .running)) (fun t => (here t).preReq && (here t).preLeft == 128) ∧
    after (exec .preemptionRequest (asks .placed)) (fun t => (here t).cond == .placed && (nodeOf t (0, 0)).any (fun n =>
      n.asked.isEmpty && n.st == .draining 1)) ∧
    after (exec .watchdogExpiry dog) (fun t => !(here t).preReq && (here t).async.map (fun f => f.cause) == [.watchdog]) ∧
    after (exec .switchableBoundaryReached edge) (fun t => (here t).cond == .preempted && (nodeOf t (0, 0)).any (fun n =>
      n.asked.isEmpty && n.st == .draining 1)) := by decide +kernel


-- The memory system (R67 to R86)

/-- A request to stack 0 for package line 0. -/
def reqA (k : StackKind) : StackReq :=
  { kind := k, tag := 5, ch := 0, bh := 0, gen := 1, key := 0, prot := 0, line := 0, mask := 0xFF, data := 0x1122334455667788, pois := false, from_ := 0 }

/-- Bulkhead 0's first line holds 7 in byte 9; stack 0 has one request. -/
def wStk (r : StackReq) : State :=
  { w0 with stks := [(0, { reqs := [r] })], mem := [(9, 7)] }

/-- The replies that the requesting slice's router will carry. -/
def repliesA (t : State) : List (Nat × Nat × Bool × Nat) :=
  (t.routers.flatMap (fun r => (r.2.enter ++ r.2.ring).flatMap (fun x => x.2))).filterMap (fun p =>
    match p.msg with | .stackReply _ r => some (r.kind, r.stat, r.pois, r.data.toNat) | _ => none)

theorem test_stack_requests :
    let l0 (f : LineMeta → LineMeta) (k : StackKind) : State := { wStk (reqA k) with lmeta := [(0, f { })] }
    packageLine 0 0 = some 0 ∧ sameEvent .rd64 (reqA .rd64) = true ∧ keyRevoked w0 0 0 = false ∧
    after (exec .rd64 (wStk (reqA .rd64))) (fun t => repliesA t == [(8, 0, false, 7 * 2 ^ 72)] && (stackOf t 0).reqs.isEmpty) ∧
    after (exec .wr64 (wStk (reqA .wr64))) (fun t => memNat t.mem 0 16 == 7 * 2 ^ 72 + 0x1122334455667788) ∧
    after (exec .rmw (wStk (reqA .rmw))) (fun t => repliesA t == [(0xA, 0, false, 7 * 2 ^ 72 + 0x1122334455667788)]) ∧
    after (exec .rd64 (wStk { reqA .rd64 with gen := 2 })) (fun t => (repliesA t).isEmpty && t.hub.errBuf.length == 1) ∧
    after (exec .rd64 (wStk { reqA .rd64 with prot := 7 })) (fun t => repliesA t == [(0xB, 7, false, 0)]) ∧
    after (exec .rd64 { wStk (reqA .rd64) with stks := [(0, { reqs := [reqA .rd64], pat := [(0, 3)] })] }) (fun t => repliesA t == [(0xB, 6, true, 0)]) ∧
    after (exec .rd64 (l0 (fun m => { m with poison := true }) .rd64)) (fun t => repliesA t == [(8, 0, true, 0)]) ∧
    after (exec .rd64 (l0 (fun m => { m with tagBad := true }) .rd64)) (fun t => repliesA t == [(8, 3, true, 0)]) ∧
    after (exec .rd64 (l0 (fun m => { m with flips := [8, 9] }) .rd64)) (fun t => repliesA t == [(8, 1, false, 7 * 2 ^ 72)]) ∧
    (let up (k : StackKind) : State := { wStk { reqA k with line := 0x1C000000 } with upper := [(0x1C000000, 0x7000000000000000000)] }
     after (exec .rd64 (up .rd64)) (fun t => repliesA t == [(8, 0, false, 7 * 2 ^ 72)]) ∧
     after (exec .wr64 (up .wr64)) (fun t => (repliesA t).map (fun x => x.1) == [9] &&
       tabFind t.upper 0x1C000000 == some 0x7001122334455667788)) ∧
    after (exec .rd64 (wStk { reqA .rd64 with line := 0x1C000000, prot := 7 })) (fun t => repliesA t == [(0xB, 7, false, 0)]) ∧
    nx (exec .rd64 w0) = some w0 := by decide +kernel

/-- A read of a line the slice holds, of one it does not, and a write into one. -/
theorem test_slice_requests :
    let rd : SliceReq := { write := false, line := 1, slot := 0, prot := 0, who := .land 0 0 3 0, bh := 0 }
    let wr : SliceReq := { write := true, line := 1, slot := 0, prot := 0, who := .drain 0 1, bh := 0, data := 0xAABB, mask := 3 }
    let y : L2Line := { line := 1, data := 0x11223344, valid := allBytes, dirty := 0 }
    let w (rs : List SliceReq) (ls : List L2Line) : State := { wA { arrA with drained := [(1, {})] } with
      cur := { slice := 1 }, slices := [(1, { reqs := rs, lines := ls })] }
    let back : State := { w [] [] with slices := [(1, { waiting := [rd], replies := [{ kind := 8, tag := 0, ch := 0, pois := false, stat := 0, data := 9, line := 1 }] })] }
    homeSlice 1 = 1 ∧ lineChan 1 = 0 ∧ stackLine 1 = 1 ∧
    after (exec .l2Read (w [rd] [y])) (fun t => (sliceOf t 1).reqs.isEmpty && (sliceOf t 1).waiting.isEmpty) ∧
    after (exec .l2Read (w [rd] [])) (fun t => (sliceOf t 1).waiting == [rd]) ∧
    freeTag (stackOf (w [rd] []) 0) 0 1 = some 0 ∧
    after (exec .l2Write (w [wr] [y])) (fun t => (sliceOf t 1).lines.map (fun z => (z.data, z.dirty)) == [(0x1122AABB, 3)] && (arrOf t 0).drained.isEmpty) ∧
    after (exec .l2Write { w [wr] [y] with parts := [(0, { live := true, keys := [(0, { revoked := true })] })] }) (fun t =>
      (sliceOf t 1).lines.map (fun z => z.dirty) == [0]) ∧
    after (exec .l2Write { w [wr] [y] with stks := [(0, { pat := [(0, 3)] })] }) (fun t => (arrOf t 0).async.map (fun f => f.cause) == [.domain]) ∧
    packageLine 0 1 = some 1 ∧
    after (exec .stackReplyReceive back) (fun t => (sliceOf t 1).waiting.isEmpty && (sliceOf t 1).replies.isEmpty) := by decide +kernel

theorem test_window :
    let r : WinReq := { win := 2, write := true, line := 3, data := 0xAA, mask := 1, bh := 0, gen := 1, expGen := 1, who := .nobody }
    let w (v : W32) (q : WinReq) : State := { w0 with
      hub := { w0.hub with bridge := [q], win := [(2, v)], winGen := [(2, 1)] }
      bhs := [(0, bhA), (1, { st := .assigned, own := true, part := 1 })]
      parts := w0.parts ++ [(1, { live := true, keys := firstKeys, regions := [(5, { vbase := 0, k := 21, kind := 1, owner := 0x60, pbase := 64 * 0x1C000000 })] })] }
    let on : W32 := 0xC0400005
    winTarget (w on r) 2 0 = some (1, { vbase := 0, k := 21, kind := 1, owner := 0x60, pbase := 64 * 0x1C000000 }) ∧
    after (exec .windowRequest (w on r)) (fun t => t.hub.bridge.isEmpty && tabGet t.hub.winOut 0 2 == 1 && t.hub.errBuf.isEmpty) ∧
    after (exec .windowRequest (w 0 r)) (fun t => tabGet t.hub.winOut 0 2 == 0 && t.hub.errBuf.map (fun e => e.cls) == [ecWindow]) ∧
    after (exec .windowRequest (w on { r with gen := 7 })) (fun t => t.hub.errBuf.map (fun e => e.cls) == [ecStalegen]) ∧
    after (exec .windowRequest (w 0x80400005 r)) (fun t => t.hub.errBuf.map (fun e => e.cls) == [ecWindow]) := by decide +kernel

/-- A packet for the next router to the east goes there; one at its router is handed over; an old one is dropped. -/
theorem test_router :
    let p (x born : Nat) : Packet := { cls := 0, die := 0, x := x, y := 0, bh := 0, born := born, msg := .value 0 0 { reg := 5, v := 3, mark := none, at_ := 100 } }
    let w (q : Packet) : State := { w0 with routers := [(routerKey 0 0 0, { ring := [(dirNo .east, [q])] })] }
    nextHop (w (p 1 0)) 0 0 0 (p 1 0) = .go .east ∧ nextHop (w (p 0 0)) 0 0 0 (p 0 0) = .deliver ∧
    after (exec .routerArbitrationRound (w (p 1 0))) (fun t => tabGet (routerOf t (routerKey 0 1 0)).ring [] (dirNo .east) == [p 1 0]) ∧
    after (exec .routerArbitrationRound (w (p 0 0))) (fun t => (arrOf t 0).pend.length == 1) ∧
    after (exec .routerArbitrationRound { w (p 1 0) with now := 1300001 }) (fun t => tabGet (routerOf t (routerKey 0 1 0)).ring [] (dirNo .east) == []) := by
  decide +kernel

/-- A fifth packet waits where the neighbour's ring has four, and a stale read through a window answers poison. -/
theorem test_ring_full_and_stale_read :
    let p : Packet := { cls := 0, die := 0, x := 1, y := 0, bh := 0, born := 0, msg := .value 0 0 { reg := 5, v := 3, mark := none, at_ := 100 } }
    let w (k : Nat) : State := { w0 with routers := [(routerKey 0 0 0, { ring := [(dirNo .east, [p])] }),
      (routerKey 0 1 0, { ring := [(dirNo .east, List.replicate k p)] })] }
    let r : WinReq := { win := 2, write := false, line := 3, data := 0, mask := 0, bh := 0, gen := 7, expGen := 0, who := .land 0 0 3 0 }
    let v : State := { w0 with hub := { w0.hub with bridge := [r] } }
    nx (exec .routerArbitrationRound (w 4)) = some (w 4) ∧
    after (exec .routerArbitrationRound (w 3)) (fun t => (tabGet (routerOf t (routerKey 0 1 0)).ring [] (dirNo .east)).length == 4) ∧
    nx (exec .windowRequest v) = some (winOnward (winLog { w0 with hub := { w0.hub with bridge := [] } } ecStalegen 2 0 (64 * 3)) 0
      (.land 0 0 3 0) { bad := true }) := by decide +kernel

-- Bulkheads and partitions (R15 to R27)

/-- The hub is up and bulkhead 0 is in a state. -/
def wB (x : BhS) : State := { State.reset with hub := { State.reset.hub with phase := 2 }, bhs := [(0, x)] }

theorem test_bulkhead_states :
    after (exec .bhctlPwrSet (wB {})) (fun t => (bhOf t 0).st == .powerup) ∧ nx (exec .bhctlPwrSet State.reset) = some State.reset ∧
    after (exec .bhctlPwrClear (wB { st := .free })) (fun t => (bhOf t 0).st == .off) ∧
    after (exec (.powerupSelfTestDone false) (wB { st := .powerup })) (fun t => (bhOf t 0).st == .failed) ∧
    after (exec (.powerupSelfTestDone true) (wB { st := .powerup })) (fun t => (bhOf t 0).st == .scrub && t.fresh == 4) ∧
    after (exec (.bhctlChunk 9) (wB { st := .scrub, scrHost := true })) (fun t => (bhOf t 0).chunkQ == [9]) ∧
    nextChunk { st := .scrub, scrDone := 0x7FFFFFFF } = some 31 ∧
    after (exec .scrubChunkComplete (wB { st := .scrub, scrDone := 0x7FFFFFFF })) (fun t => (bhOf t 0).st == .free) ∧
    after (exec .scrubChunkComplete { wB { st := .scrub } with mem := [(5, 9), (2 ^ 30, 7)] }) (fun t => t.mem == [(2 ^ 30, 7)]) ∧
    after (exec .resetSequenceTimeout { wB { st := .reset, own := true } with now := 6500001 }) (fun t => (bhOf t 0).st == .failed) ∧
    after (exec .powerLimitCycleRemoval { wB { st := .assigned } with hub := { cap := 0, draw := 601 } }) (fun t => (bhOf t 0).skipReq) ∧
    after (exec .powerLimitCycleRemoval { wB { st := .assigned } with hub := { cap := 0, draw := 600 } }) (fun t => !(bhOf t 0).skipReq) ∧
    after (exec (.bhctlChunk 9) (wB { st := .scrub, scrHost := true, chunkQ := List.replicate 32 1 })) (fun t => (bhOf t 0).chunkQ.length == 32) := by
  decide +kernel

theorem test_partition_commands :
    let free := wB { st := .free }
    let up := wA arrA
    let creating : State := { wB { st := .free } with
      parts := [(0, { creating := true })], cur := { stack := 8 }, stks := (List.range 8).map (fun k => (k, { gens := [(0, 2)] })) }
    after (exec (.partitionCreate 0) free) (fun t => (partOf t 0).creating && (partOf t 0).err == 0) ∧
    after (exec (.partitionCreate 5) free) (fun t => (partOf t 0).err == 1) ∧
    after (exec (.partitionCreate 1) free) (fun t => (partOf t 0).err == 2) ∧
    after (exec (.partitionCreate 0) creating) (fun t => (partOf t 0).err == 4) ∧
    after (exec .generationAcknowledge creating) (fun t => (bhOf t 0).st == .assigned && (bhOf t 0).gen == 2 && (partOf t 0).live) ∧
    after (exec .partitionReset up) (fun t => (bhOf t 0).st == .reset && (bhOf t 0).dest == 5 && (bhOf t 0).gen == 2 && (partOf t 0).regions.isEmpty &&
      (arrOf t 0).cond == .idle &&
      after (exec .partitionDissolve t) (fun u => (bhOf u 0).dest == 4 && (partOf u 0).err == 0 && (bhOf u 0).st == .reset) &&
      after (exec .partitionReset t) (fun u => (partOf u 0).err == 4)) ∧
    after (exec .bcpEscalationReset up) (fun t => (partOf t 0).escAt == some 0 && (bhOf t 0).dest == 5 &&
      after (exec .partitionReset t) (fun u => (partOf u 0).err == 0)) ∧
    after (exec .partitionDissolve up) (fun t => (bhOf t 0).dest == 4) ∧
    after (exec .partitionReset free) (fun t => (partOf t 0).err == 3) ∧
    (let r : State := { wB { st := .reset, own := true, dest := 5, gen := 2 } with
       now := 1300000, parts := [(0, { live := true })], stks := (List.range 8).map (fun k => (k, { gens := [(0, 2)] })) }
     let r := { r with hub := { r.hub with gateGens := [(0, 2)] } }
     gensApplied r (ownIn r 0 [.reset]) = true ∧
     after (exec .resetSequenceComplete r) (fun t => (bhOf t 0).st == .scrub && (bhOf t 0).dest == 5 && (partOf t 0).keys == firstKeys) ∧
     nx (exec .resetSequenceComplete { r with now := 1299999 }) = some { r with now := 1299999 }) := by decide +kernel

/-- An escalation of a partition that is not whole does nothing. -/
theorem test_escalation_lost :
    let half : State := { wA arrA with bhs := [(0, { bhA with st := .failed })] }
    nx (exec .bcpEscalationReset half) = some half := by decide +kernel

-- The hub (R29 to R34, R46)

theorem test_hub :
    after (exec .bringUp State.reset) (fun t => t.hub.phase == 2 && t.hub.boots == 1) ∧
    after (exec .bringUp { hub := { fw := { hubOk := true } } }) (fun t => t.hub.phase == 1 && t.hub.bootFail) ∧
    after (exec .packageTrip { w0 with hub := { w0.hub with boots := 7 } }) (fun t => t.hub.boots == 7 && t.arrs.isEmpty && t.hub.phase == 0) ∧
    after (exec (.attestationReportRequest true 0x99) { w0 with hub := { w0.hub with reports := 32768 } }) (fun t => t.hub.attExh && t.hub.issued.isEmpty) ∧
    after (exec (.timestepWrite 5) { w0 with hub := { w0.hub with tmode := true } }) (fun t => t.hub.timer == 5 * 2 ^ 32) ∧
    after (exec (.timestepWrite 0xFFFFFFFB) { w0 with hub := { w0.hub with tmode := true } }) (fun t => t.hub.hold == 5 * 2 ^ 32) ∧
    nx (exec (.timestepWrite 5) w0) = some w0 ∧
    w0.port.up = false ∧ nx (exec (.ptpMessageReceive 3) w0) = some { w0 with fresh := 1 } ∧
    nx (exec (.registerWrite 0x100 0) State.reset) = some State.reset ∧
    after (exec (.wincfgWrite 2 0xC0000005) w0) (fun t => winWord t 2 == 0xC0000005 && winEn t 2 && winWr t 2 && tabGet t.hub.winGen 0 2 == 1) ∧
    after (exec (.wincfgWrite 2 0xC0000003) w0) (fun t => !winEn t 2 && winRegion t 2 == 3) ∧
    after (exec (.registerWrite 0x100 0xFFFFF258) w0) (fun t => readReg t 0x100 == 0x258) ∧
    nx (exec (.registerWrite 0x102 1) w0) = some w0 := by decide +kernel

/-- Before the hub is up nothing is served. -/
theorem test_hub_down : (State.reset).hub.phase ≠ 2 ∧
    nx (exec (.attestationReportRequest true 0x99) State.reset) = some State.reset ∧
    nx (exec (.registerWrite 0x100 5) State.reset) = some State.reset := by decide +kernel

/-- A report of 3,800 bytes; its signatures are open values, so it is only counted. -/
theorem test_report : w0.hub.reports < 32768 ∧ w0.hub.boots ≤ 1048576 ∧
    after (exec (.attestationReportRequest true 0x99) w0) (fun t => t.hub.reports == 1 && t.hub.issued.length == 1) := by
  refine ⟨by decide +kernel, by decide +kernel, ?_⟩; rfl

-- Keys, granules, descriptors and the checkpoint (R79 to R87, R208 to R213)

/-- Partition 0 with a chosen part of its state. -/
def wP (f : PartS → PartS) : State := setPart w0 0 (f (partOf w0 0))

theorem test_keys :
    let buf := wP (fun x => { x with keyBuf := [(0, 0x11), (8, 0x22)], keyDom := 0 })
    let busy := wP (fun x => { x with revoking := [4] })
    let rekey := wP (fun x => { x with keys := x.keys ++ [(5, { loaded := true, epoch := 1 })] })
    let going := wP (fun x => { x with
      keys := x.keys ++ [(5, { loaded := true, epoch := 1 })]
      rekey := some { region := 1, slot := 5, old := 0, done := [], queued := [], cur := some 0, host := true } })
    let ovr := wP (fun x => { x with rekey := some { region := 1, slot := 5, old := 0, done := [0], queued := [], cur := none, host := false } })
    after (exec (.keyLoad 5) buf) (fun t => (tabGet (partOf t 0).keys {} 5).loaded && (tabGet (partOf t 0).keys {} 5).kd == 0x11 &&
      (tabGet (partOf t 0).keys {} 5).kt == 0x22 && (partOf t 0).keyBuf.isEmpty) ∧
    after (exec (.keyLoad 0) buf) (fun t => (partOf t 0).keyErr == 2) ∧ after (exec (.keyLoad 5) busy) (fun t => (partOf t 0).keyErr == 4) ∧
    after (exec (.keyRevoke 0) w0) (fun t => (partOf t 0).revoking == [0] && (tabGet (partOf t 0).keys {} 0).revoked) ∧
    after (exec (.revocationApplied 4) busy) (fun t => (partOf t 0).revoking.isEmpty) ∧
    after (exec (.rekeyStart 1 5) rekey) (fun t => (partOf t 0).rekey.isSome && (tabFind (partOf t 0).regions 1).any (fun r => r.ro)) ∧
    rekeyChunks (tabGet regsA {} 1) = 1 ∧ after (exec (.rekeyChunk 0) going) (fun t => (partOf t 0).rekey.any (fun y => y.queued == [0])) ∧
    rekeyNext { region := 1, slot := 5, old := 0, done := [], queued := [], cur := some 0, host := true } (tabGet regsA {} 1) = some 0 ∧
    after (exec .rekeyChunkComplete (modBh going 0 id)) (fun t => (partOf t 0).keyDone == 1 && (lineMeta t 5).slot == 5 && (lineMeta t 5).epoch == 1) ∧
    after (exec .rekeyComplete ovr) (fun t => (partOf t 0).rekey.isNone && (partOf t 0).doneAll &&
      (tabFind (partOf t 0).regions 1).any (fun r => r.slot == 5 && !r.ro)) := by decide +kernel

theorem test_granules_descriptors :
    let free (g : Nat) (w : State) : State := modStack w 0 (fun x => { x with pat := tabSet x.pat g 0xFFF1 })
    let w := free 7 (free 8 (free 9 w0))
    let d (l : List (Nat × W32)) : State := wP (fun x => { x with rdBuf := l })
    let word2 : W32 := 0x00000115
    after (exec (.granuleAssign 8 3) w) (fun t => granOf t 0 8 == 3 && (bhOf t 0).patErr == 0) ∧
    after (exec (.granuleAssign 20 3) w) (fun t => (bhOf t 0).patErr ≠ 0) ∧
    after (exec (.granuleAssign 8 3) (wB { st := .free })) (fun t => (bhOf t 0).patErr == 4) ∧
    regionOk (d [(1, 1), (2, word2), (4, 2 ^ 21 * 5)]) 0 (rdBufBits (partOf (d [(1, 1), (2, word2), (4, 2 ^ 21 * 5)]) 0)) = true ∧
    after (exec (.regionDescriptorWrite 9) (d [(1, 1), (2, word2), (4, 2 ^ 21 * 5)])) (fun t => (tabFind (partOf t 0).regions 9).any (fun r =>
      r.vbase == 2 ^ 32 && r.kind == 1 && r.k == 21 && r.pbase == 2 ^ 21 * 5) && (partOf t 0).rdErr == 0) ∧
    after (exec (.regionDescriptorWrite 1) (d [(1, 1), (2, word2)])) (fun t => (partOf t 0).rdErr == 3) ∧
    after (exec (.regionDescriptorClear 4) (modBh w0 0 (fun b => { b with nodes := [] }))) (fun t => (tabFind (partOf t 0).regions 4).isNone) ∧
    after (exec (.regionDescriptorConvert 2) (d [(2, word2)])) (fun t => (tabFind (partOf t 0).regions 2).any (fun r => r.kind == 1 && r.owner == 0)) ∧
    after (exec (.regionDescriptorConvert 1) (d [(2, 0x00010115)])) (fun t => (tabFind (partOf t 0).regions 1).any (fun r => r.owner == 1 && r.rpend) &&
      (arrOf t 3).fifo == [.marker 1]) ∧
    after (exec (.rdbaseWrite 9) (wB { st := .assigned, own := true })) (fun t => (partOf t 0).rdGran == 9) ∧
    after (exec (.rdbaseWrite 9) w0) (fun t => (partOf t 0).rdGran == 0) := by decide +kernel

theorem test_checkpoint :
    let w : State := { wB { st := .free } with hub := { phase := 2, ckMask := 1, ckQp := 3, ckVah := 1, ckRkey := 9 } }
    let busy : State := { w with hub := { w.hub with ckBusy := true } }
    let ovr : State := { w with hub := { w.hub with ckBusy := true, ckStop := some 4 } }
    ckQuiet w 0 = true ∧ after (exec .checkpointStart w) (fun t => t.hub.ckBusy && t.hub.ckRun.qp == 3 && t.hub.ckRun.va == 2 ^ 32) ∧
    after (exec .checkpointStart busy) (fun t => t.hub.ckErr == 1) ∧
    ckQuiet { w0 with hub := w.hub } 0 = false ∧ after (exec .checkpointStart { w0 with hub := w.hub }) (fun t => t.hub.ckErr == 2) ∧
    after (exec .checkpointAbort busy) (fun t => t.hub.ckStop == some 4) ∧
    after (exec .checkpointEnd ovr) (fun t => !t.hub.ckBusy && t.hub.ckErr == 4) := by decide +kernel

/-- A record's premises: its queue pair is RTS and there is room. -/
theorem test_checkpoint_record :
    let w : State := { wB { st := .free } with
      hub := { phase := 2, ckBusy := true, ckRun := { qp := 3, mask := 1 } }, port := { qps := [(qpKey 512 3, { st := .rts, mtu := 2 })] } }
    (ckBhs w)[w.hub.ckRec / 458752]? = some 0 ∧ (qpOf w (qpKey 512 3)).st = .rts ∧ (bhOf w 0).own = false ∧
    txRoom w 16 (80000 + (w.port.txFree.map (fun f => f.len)).sum) = true := by decide +kernel


-- The host port (R36 to R45)

/-- The port is up; VF 0 is enabled for partition 0 at a MAC and an IPv4 address; its queue pair 2 is as given. -/
def wPort (q : QpS) : State :=
  { w0 with
    port := { mode := false, en := true, up := true, vfmap := [(0, 0x80000000)]
              fnaddr := [(0, 0x22334455), (1, 0x0011), (2, 0x0A000001), (3, 1)], qps := [(qpKey 0 2, q)], part := [(0, 0x00008000)] }
    cur := { fn := 0, qpn := 2 } }

/-- A frame to that function with a packet. -/
def frameA (p : RocePkt) : Frame :=
  { mac := 0x001122334455, vlan := 0, v6 := false, ip := 0x0A000001, len := 154, fcs := true, ce := false, body := .roce p }

theorem test_port_registers :
    let w := wPort { st := .rts, rx := [({ op := .ack, qpn := 0x4002, psn := 0 }, 60)] }
    after (exec (.vfmapWrite 0 0xFFFFFFFF) w) (fun t => vfWord t 0 == 0x800F0FFF && (qpOf t 2).st == .error && (qpOf t 2).rx.isEmpty) ∧
    after (exec (.vfmapWrite 7 0x80030001) w) (fun t => vfWord t 7 == 0x80030001 && (qpOf t 2).st == .rts) ∧
    after (exec (.fnaddrWrite 0 2 0x0A000002) w) (fun t => fnAddr t 0 2 == 0x0A000002 && (vfWord t 0).getLsbD 31 == false) ∧
    nx (exec (.fnaddrWrite 513 0 1) w) = some w ∧
    after (exec (.portcfgModeChange true) w) (fun t => t.port.mode && !t.port.up) ∧ after (exec .portcfgEnSet w0) (fun t => t.port.en) ∧
    after (exec .portUp { w0 with port := { en := true } }) (fun t => t.port.up) ∧
    after (exec (.portpartWrite 0x00008205) w) (fun t => resv t 0 == 16 && !(portPart t 0).getLsbD 31) ∧
    after (exec (.portpartWrite 0x00000805) w) (fun t => resv t 0 == 16 && (portPart t 0).getLsbD 31) := by decide +kernel

theorem test_pfc :
    let w := wPort {}
    after (exec (.pfcFrameReceive 0x84 (0xFFFF#128 <<< 32)) w) (fun t => t.port.paused == 4 && tabGet t.port.pauseEnd 0 2 == pauseAc w 0xFFFF) ∧
    after (exec (.pfcPauseExpiry 2) { w with port := { w.port with paused := 6 } }) (fun t => t.port.paused == 2) := by decide +kernel

theorem test_send_round :
    let f : Frame := { frameA { op := .ack, qpn := 0x77, psn := 1 } with qp := some (qpKey 0 2), len := 64 }
    let w : State := { wPort { st := .rts } with port := { (wPort { st := .rts }).port with tx := [(0, [f])] } }
    frameReady w f = true ∧ fnSends w 0 false = true ∧ f.len ≤ tabGet w.port.deficit 0 0 + portWgt w 0 * 256 ∧
    after (exec .transmitArbitrationRound w) (fun t => (tabGet t.port.tx [] 0).isEmpty &&
      t.port.sent.map (fun g => (g.src, g.sip)) == [(0x001122334455, 0x0A000001)]) := by decide +kernel

theorem test_frame_receive :
    let p : RocePkt := { op := .send, qpn := 0x4002, psn := 0, data := leBytes 64 0 }
    let w (f : Frame) : State := { wPort { st := .rts } with port := { (wPort { st := .rts }).port with wire := [f] } }
    fnMatches (w (frameA p)) 0 (frameA p) = true ∧ fnGroup (w (frameA p)) 0 = 0 ∧ 154 ≤ resvBytes (w (frameA p)) 0 ∧
    after (exec .portFrameReceive (w (frameA p))) (fun t => (qpOf t 2).rx == [(p, 154)] && heldBytes t 0 == 154 && t.port.wire.isEmpty) ∧
    after (exec .portFrameReceive (w { frameA p with fcs := false })) (fun t => (qpOf t 2).rx.isEmpty && t.hub.errBuf.length == 1) ∧
    after (exec .portFrameReceive (w { frameA p with body := .pfc 4 (0x10#128 <<< 32) })) (fun t => t.port.paused == 4) := by decide +kernel

/-- The port comes up with class 2 off: a PFC frame that pauses it goes out. -/
theorem test_port_up_tells :
    let w : State := { w0 with port := { en := true, xoff := 4 } }
    after (exec .portUp w) (fun t => t.port.up && t.port.sent.map (fun f => match f.body with
      | .pfc en qs => (en, qs.extractLsb' 32 16) | _ => (0, 0)) == [(4, 0xFFFF)]) := by decide +kernel

/-- A QPBUF of a remote queue pair 0x99, with PSNs 5 and 6 (R42). -/
theorem test_queue_pair_commands :
    let w (q : QpS) : State := { wPort q with port := { (wPort q).port with qpFn := 0, qpN := 2, qpbuf := [(0, 0x99), (1, 5), (2, 6), (3, 0x00050001)] } }
    qpBufOk (qpBufBytes (w {})) = true ∧ qpExists 0 2 = true ∧ qpExists 0 16 = false ∧
    after (exec .qpConnect (w {})) (fun t => (qpOf t 2).st == .rts && (qpOf t 2).remote == 0x99 && (qpOf t 2).sPsn == 5 && (qpOf t 2).rPsn == 6) ∧
    after (exec .qpConnect (w { st := .rts })) (fun t => t.port.qpErr == 2) ∧
    after (exec .qpReset (w { st := .rts })) (fun t => (qpOf t 2).st == .reset && !t.port.qpBusy) ∧
    after (exec .qpFlushComplete { w {} with port := { (w {}).port with qpBusy := true } }) (fun t => !t.port.qpBusy) ∧
    after (exec .qpConnect { w {} with port := { (w {}).port with qpBusy := true } }) (fun t => t.port.qpErr == 4) ∧
    after (exec .qpConnect { w {} with port := { (w {}).port with qpN := 16 } }) (fun t => t.port.qpErr == 3) := by decide +kernel

/-- Queue pair 2 with one packet held. -/
def wRx (q : QpS) (p : RocePkt) : State := wPort { q with st := .rts, rx := [(p, 100)] }

/-- What the queue pair's partition has ready to send. -/
def answersA (t : State) : List (RoceOp × Nat) :=
  (tabGet t.port.tx [] 0).map (fun f => match f.body with | .roce p => (p.op, p.psn) | _ => (.cnp, 0))

/-- A submit record of queue 3: 64 bytes at address 2^24, cookie 9 (R91). -/
def recA : List Byte := packA [(1, 3), (1, 0), (1, 0), (1, 0), (4, 0), (8, 2 ^ 24), (4, 64), (4, 0), (8, 9), (32, 0)]

theorem test_receive :
    let pk (op : RoceOp) : RocePkt := { op := op, qpn := 0x4002, psn := 7 }
    let q : QpS := { rPsn := 7 }
    let sub : State := modQueue (wRx q { pk .send with data := recA }) 0 3 (fun x => { x with en := true })
    recRefused sub recA 0 = none ∧
    after (exec .roceSendReceive sub) (fun t => (queueOf t 0 3).st == .running && (queueOf t 0 3).levels.map (fun l => (l.base, l.len)) == [(2 ^ 24, 64)] &&
      answersA t == [(.ack, 7)] && (qpOf t 2).rPsn == 8) ∧
    after (exec .roceSendReceive (wRx q { pk .send with first := false })) (fun t => answersA t == [(.nak 1, 7)]) ∧
    after (exec .roceSendReceive (wRx q { pk .send with last := false, data := List.replicate 1024 1 })) (fun t =>
      (qpOf t 2).msg.any (fun m => m.data.length == 1024)) ∧
    after (exec .roceAtomicRequest (wRx q (pk .atomic))) (fun t => answersA t == [(.nak 1, 7)]) ∧
    after (exec .cnpReceive (wRx q (pk .cnp))) (fun t => (qpOf t 2).rate == 2 ^ 29) ∧
    after (exec .cnpRateIncrease (wPort { rate := 2 ^ 29, cnpAt := some 0 })) (fun t => (qpOf t 2).rate == 2 ^ 29) ∧
    after (exec .cnpRateIncrease { wPort { rate := 2 ^ 29, cnpAt := some 0 } with now := 50000 }) (fun t => (qpOf t 2).rate == 2 ^ 29 + 2 ^ 24) := by
  decide +kernel

theorem test_rdma :
    let q : QpS := { rPsn := 7 }
    let wr : RocePkt := { op := .write, qpn := 0x4002, psn := 7, va := 0x40, rkey := 1 <<< 18, len := 4, data := leBytes 4 0x11223344 }
    let rd : RocePkt := { op := .read, qpn := 0x4002, psn := 7, va := 0x44, rkey := 1 <<< 18, len := 4 }
    let psf (p : RocePkt) : State := { w0 with
      port := { en := true, up := true, qps := [(qpKey 512 2, { st := .rts, rPsn := 7, rx := [(p, 100)] })] }, cur := { fn := 512, qpn := 2 } }
    rdmaRegion (wRx q wr) 0 wr.rkey 0x40 4 true = some (tabGet regsA {} 1, 0x40) ∧
    after (exec .roceRdmaWrite (wRx q wr)) (fun t => memNat t.mem 0x40 4 == 0x11223344 && answersA t == [(.ack, 7)]) ∧
    (regThrough { wRx q wr with stks := [(0, { pat := [(0, 3)] })] } 0 (tabGet regsA {} 1) 0x40 wr.data).2 = false ∧
    after (exec .roceRdmaWrite { wRx q wr with stks := [(0, { pat := [(0, 3)] })] }) (fun t => answersA t == [(.nak 3, 7)]) ∧
    after (exec .roceRdmaWrite (wRx q { wr with rkey := 9 <<< 18 })) (fun t => answersA t == [(.nak 2, 7)] && t.mem.isEmpty) ∧
    after (exec .roceRdmaWrite (wRx { q with msg := some { write := true, rkey := wr.rkey, va := 0x40, left := 4 } } { wr with first := false })) (fun t =>
      memNat t.mem 0x40 4 == 0x11223344 && (qpOf t 2).msg.isNone) ∧
    after (exec .roceRdmaRead { wRx q rd with mem := [(0x45, 9)] }) (fun t => (tabGet t.port.tx [] 0).map (fun f => match f.body with
      | .roce p => p.data | _ => []) == [[0, 9, 0, 0]]) ∧
    after (exec .roceRdmaWrite (psf { wr with va := 0x100, data := leBytes 4 0x258 })) (fun t => readReg t 0x100 == 0x258) ∧
    after (exec .roceRdmaRead (psf { rd with va := 0x100 })) (fun t => (tabGet t.port.tx [] 16).map (fun f => match f.body with
      | .roce p => leNat p.data | _ => 0) == [2800]) := by decide +kernel

theorem test_responses :
    let o : Nat × RocePkt × QpWork := (5, { op := .send, qpn := 0x77, psn := 5 }, .notify)
    let rd : Nat × RocePkt × QpWork := (5, { op := .read, qpn := 0x77, psn := 5 }, .fetch 0 3 0 8 4)
    let got : State := modQueue (wRx { out := [rd] } { op := .readResp, qpn := 0x4002, psn := 5, data := [1, 2, 3, 4] }) 0 3 (fun x =>
      { x with fetching := true, levels := [{ host := true, base := 0, len := 64, rkey := 0, pos := 0 }] })
    after (exec .roceResponseReceive (wRx { out := [o] } { op := .ack, qpn := 0x4002, psn := 5 })) (fun t => (qpOf t 2).out.isEmpty) ∧
    queueLevel (queueOf got 0 3) = 0 ∧
    after (exec .roceResponseReceive got) (fun t => (qpOf t 2).out.isEmpty && (queueOf t 0 3).reply == some (some (8, 4, [1, 2, 3, 4]))) ∧
    after (exec .qpRetryTimeout { wPort { st := .rts, out := [o], retries := 7 } with now := 4096 }) (fun t => (qpOf t 2).st == .error) ∧
    after (exec .qpRetryTimeout { wPort { st := .rts, out := [o], retries := 6, remote := 0x77 } with now := 4096 }) (fun t =>
      (qpOf t 2).retries == 7 && answersA t == [(.send, 5)]) := by decide +kernel

-- Fabric links (R48 to R55)

/-- Link 0 of bulkhead 0 in a state. -/
def wL (x : LinkS) : State := setLink w0 0 x

theorem test_link_training :
    after (exec .linkTrain (wL { fabid := 9 })) (fun t => (linkOf t 0).st == .training && (linkOf t 0).trainId == 9) ∧
    nx (exec .linkTrain (wL { dis := true })) = some (wL { dis := true }) ∧
    after (exec .linkDisable (wL { st := .up })) (fun t => (linkOf t 0).st == .down && (linkOf t 0).dis) ∧
    after (exec (.linkTrainingComplete 9 184) (wL { st := .training, trainId := 9, txSeq := 5 })) (fun t => (linkOf t 0).st == .up && (linkOf t 0).txSeq == 0) ∧
    after (exec (.linkTrainingComplete 9 185) (wL { st := .training, trainId := 9 })) (fun t => (linkOf t 0).st == .down) ∧
    after (exec (.linkTrainingComplete 8 184) (wL { st := .training, trainId := 9 })) (fun t => (linkOf t 0).st == .down) ∧
    after (exec .linkTrainingTimeout { wL { st := .training } with now := 130000000 }) (fun t => (linkOf t 0).st == .down) ∧
    after (exec .linkTrainingTimeout { wL { st := .training } with now := 129999999 }) (fun t => (linkOf t 0).st == .training) ∧
    after (exec .linkAckTimeout { wL { st := .up, buf := [flitA 1 0 0 0] } with now := 65536 }) (fun t => (linkOf t 0).st == .down) ∧
    after (exec .linkRxSilenceTimeout { wL { st := .up } with now := 1024 }) (fun t => (linkOf t 0).st == .down) ∧
    after (exec .linkRxSilenceTimeout { wL { st := .up } with now := 1023 }) (fun t => (linkOf t 0).st == .up) ∧
    after (exec .lnkstatRetryClear (wL { retry := { n := 7 } })) (fun t => (linkOf t 0).retry.n == 0) := by decide +kernel

/-- A collective that names link 0 ends with status 1 and a program frozen on it traps when the link goes down. -/
theorem test_link_down :
    let d : BitVec 512 := BitVec.ofNat 512 (2 * 2 ^ 32 + 2 ^ 256 * 32)
    let w := modBh (setLink w0 0 { st := .up }) 0 (fun b => { b with colls := [(4, { desc := d, va := 0, sem := none, q := some 12, arr := none })] })
    after (exec .linkRxSilenceTimeout { w with now := 1024 }) (fun t => (bhOf t 0).colls.map (fun c => c.2.down) == [true]) := by decide +kernel

theorem test_link_send :
    let f := flitA 1 2 0 5
    after (exec .linkFlitSend (wL { st := .up, askRetry := true, rxSeq := 9 })) (fun t => (linkOf t 0).sent.map (fun g => (g.kind, g.seq)) == [(4, 9)]) ∧
    after (exec .linkFlitSend (wL { st := .up, resend := [flitA 1 0 3 5] })) (fun t => (linkOf t 0).sent.map (fun g => (g.kind, g.seq)) == [(1, 3)]) ∧
    after (exec .linkFlitSend (wL { st := .up, txq := [(2, [f])], txSeq := 4095 })) (fun t => (linkOf t 0).sent.map (fun g => (g.kind, g.vl, g.seq)) == [(1, 2, 4095)] &&
      (linkOf t 0).txSeq == 0 && (linkOf t 0).buf.length == 1) ∧
    after (exec .linkFlitSend (wL { st := .up, txq := [(6, [flitA 5 6 0 0])] })) (fun t => (linkOf t 0).vl6At == 64) ∧
    after (exec .linkFlitSend (wL { st := .up })) (fun t => (linkOf t 0).sent.map (fun g => g.kind) == [0]) ∧
    pickLane { st := .up, txq := [(2, [f])] } ≠ none := by decide +kernel

theorem test_link_receive :
    let w (x : LinkS) (f : Flit) : State := wL { x with st := .up, wire := [f] }
    after (exec .streamDataFlitReceive (w { rxSeq := 4095 } (flitA 1 2 4095 5))) (fun t => (tabGet (linkOf t 0).rxq [] 2).length == 1 && (linkOf t 0).rxSeq == 0) ∧
    after (exec .streamDataFlitReceive (w {} (flitA 1 2 7 5))) (fun t => (linkOf t 0).askRetry && (linkOf t 0).rxSeq == 0) ∧
    after (exec .flitCrcFailure (w {} { flitA 1 2 0 5 with crcOk := false })) (fun t => (linkOf t 0).askRetry) ∧
    after (exec .flitCrcFailure (w {} (flitA 6 2 0 5))) (fun t => (linkOf t 0).askRetry) ∧
    after (exec .idleFlitReceive (w { buf := [flitA 1 0 3 5, flitA 1 0 4 5] } { flitA 0 0 0 0 with ack := 4 })) (fun t => (linkOf t 0).buf.map (fun g => g.seq) == [4]) ∧
    after (exec .managementFlitReceive (w {} (flitA 5 6 0 5))) (fun t => (tabGet (linkOf t 0).rxq [] 6).length == 1) ∧
    after (exec .retryRequestFlitReceive (w { buf := [flitA 1 0 3 5, flitA 1 0 4 5] } (flitA 4 0 4 0))) (fun t => (linkOf t 0).resend.map (fun g => g.seq) == [4] &&
      (linkOf t 0).retry.n == 1) ∧
    after (exec .retryRequestFlitReceive (w { retryRun := 15, retrySeq := 4 } (flitA 4 0 4 0))) (fun t => (linkOf t 0).st == .down) ∧
    after (exec .collectiveDataFlitReceive (w {} (flitA 2 4 0 5))) (fun t => (tabGet (linkOf t 0).rxq [] 4).length == 1) := by decide +kernel

/-- The 16th consecutive retry request of a number ends the collective that names the link. -/
theorem test_retry_requests_end :
    let d : BitVec 512 := BitVec.ofNat 512 (2 * 2 ^ 32 + 2 ^ 256 * 32)
    let w := modBh (wL { st := .up, retryRun := 15, retrySeq := 4, wire := [flitA 4 0 4 0] }) 0 (fun b =>
      { b with colls := [(4, { desc := d, va := 0, sem := none, q := some 12, arr := none })] })
    after (exec .retryRequestFlitReceive w) (fun t => (linkOf t 0).st == .down && (bhOf t 0).colls.map (fun c => c.2.down) == [true]) := by
  decide +kernel

/-- A flit of a ring of two chips reaches its collective: tag 0x0100 of the descriptor at address 64. -/
theorem test_collective_flit :
    let d : BitVec 512 := BitVec.ofNat 512 (2 * 2 ^ 32 + 32 * 2 ^ 256 + 2 ^ 320)
    let c : CollS := { desc := d, va := 64, sem := none, q := some 12, arr := none, ready := true }
    let t0 := stepTag d 0
    let w (k : Nat) : State := modBh (wL { st := .up, wire := [{ flitA k 4 0 5 with tag := BitVec.ofNat 16 (256 + t0), len := if k = 2 then 63 else 0 }] }) 0 (fun b =>
      { b with colls := [(4, c)] })
    cdPrev d = 0 ∧ 0 < ringSteps d ∧
    after (exec .collectiveDataFlitReceive (w 2)) (fun t => (bhOf t 0).colls.map (fun x => (tabGet x.2.inbox ([], []) t0).1.length) == [16]) ∧
    after (exec .collectiveControlFlitReceive (w 3)) (fun t => (bhOf t 0).colls.map (fun x => (tabGet x.2.inbox ([], []) t0).2.length) == [8]) := by decide +kernel

-- Nodes (R124 to R142)

/-- A node in slot 0 of bulkhead 0, and the arrays. -/
def wN (nd : NodeS) (a : ArrayS) : State := setNode (wA a) (0, 0) nd

theorem test_node_life :
    let idle : ArrayS := {}
    let placed : ArrayS := { cond := .placed, node := some (0, 0) }
    let nd : NodeS := { nodeA with logs := [(0, {})] }
    let ovr : NodeS := { nodeA with st := .draining 0 }
    after (exec .startTickReached (wN { nd with st := .waiting, tick := some 0 } idle)) (fun t => (nodeOf t (0, 0)).any (fun n => n.st == .ready)) ∧
    after (exec .startTickReached (wN { nd with st := .waiting, tick := some 1 } idle)) (fun t => (nodeOf t (0, 0)).any (fun n => n.st == .waiting)) ∧
    after (exec .requeueComplete (wN { nd with st := .requeued } idle)) (fun t => (nodeOf t (0, 0)).any (fun n => n.st == .ready)) ∧
    nextUnit (wN { nd with st := .ready } idle) { nd with st := .ready } = some ({ first := 0, count := 1, chain := 0 }, [0]) ∧
    (pickUnit { first := 0, count := 1, chain := 0 } [0] ((partArrs (wN nd idle) 0).filter (arrFree (wN nd idle)))).isSome = true ∧
    after (exec .nodePlacement (wN { nd with st := .ready } idle)) (fun t => (nodeOf t (0, 0)).any (fun n => n.st == .placed) &&
      (arrOf t 0).node == some (0, 0) && (arrOf t 0).cond == .placed) ∧
    after (exec .arrayTickStart (wN { nodeA with st := .placed } placed)) (fun t => (nodeOf t (0, 0)).any (fun n => n.st == .running) && (arrOf t 0).cond == .running) ∧
    after (exec .nodeDone (wN ovr { arrA with cond := .halted })) (fun t => (nodeOf t (0, 0)).any (fun n => n.st == .done) && semGet t 0 3 == 5 &&
      (arrOf t 0).node.isNone) ∧
    after (exec .nodeDone (wN ovr { arrA with cond := .halted, eg := [(1, {})] })) (fun t => (nodeOf t (0, 0)).any (fun n => n.st == .draining 0)) := by
  decide +kernel

/-- A failed step's add waits for its lines, and is then performed. -/
theorem test_node_add_due :
    let nd : NodeS := { nodeA with st := .failed, addDue := true }
    let w (a : ArrayS) : State := wN nd a
    nodeDrained (w {}) (0, 0) nd = true ∧
    after (exec .nodeDone (w {})) (fun t => semGet t 0 3 == 5 && (nodeOf t (0, 0)).any (fun n => !n.addDue)) ∧
    (let v := w { fifo := [.line 1], eg := [(1, { data := 7, mask := 0xFF, region := 1, node := some (0, 0) })] }
     nodeDrained v (0, 0) nd = false ∧ nx (exec .nodeDone v) = some v) := by decide +kernel

/-- A step of the time in the same ac does not yet start an array. -/
theorem test_start_after_step :
    let placed : ArrayS := { cond := .placed, node := some (0, 0), startTick := some 5 }
    let w := wN { nodeA with st := .placed } placed
    let at_ (b : Option Nat) : State := { w with hub := { w.hub with timer := 5 * 2 ^ 32, before := b } }
    after (exec .arrayTickStart (at_ none)) (fun t => (arrOf t 0).cond == .running) ∧
    after (exec .arrayTickStart (at_ (some 0))) (fun t => (arrOf t 0).cond == .placed) := by decide +kernel

/-- An image of one code word at 2^24 + 4096 (R248): its node's array is loaded. -/
theorem test_node_start :
    let image := packA [(4, 0x4B4E4349), (2, 1), (2, 0), (4, 0), (4, 1), (4, 0), (4, 0xFFFFFFFF), (4, 0xFFFFFFFF), (36, 0), (2, 0x1234)]
    let nd : NodeS := { nodeA with st := .placed, image := 2 ^ 24 + 4096, params := 2 ^ 24, logs := [(0, { st := .placed })] }
    let v := wN nd { cond := .placed, node := some (0, 0) }
    let w := { v with parts := [(0, { live := true, regions := regsQ, keys := firstKeys })], mem := memPut [] (2 ^ 23 + 4096) image }
    (match readImage w 0 nd with | (_, .ok _) => true | _ => false) = true ∧
    after (exec .nodeStart w) (fun t => (nodeOf t (0, 0)).any (fun n => (tabGet n.logs {} 0).st == .started) && (arrOf t 0).nc == 1 &&
      tabGet (arrOf t 0).code 0 0 == 0x1234) := by decide +kernel

theorem test_verdicts :
    let held : ArrayS := { arrA with cond := .held }
    let w (v : W64) (f : NodeS → NodeS) (a : ArrayS) : State := semPut (wN (f { nodeA with st := .draining 2 }) a) 0 7 v
    after (exec .verdictRead (w 0 id held)) (fun t => (nodeOf t (0, 0)).any (fun n => n.st == .draining 2)) ∧
    after (exec .verdictRead (w 1 id held)) (fun t => (nodeOf t (0, 0)).any (fun n => n.st == .requeued && n.requeues == 1) && semGet t 0 7 == 0 && (arrOf t 0).node.isNone) ∧
    after (exec .verdictRead (w 1 (fun n => { n with replay := false }) held)) (fun t => (nodeOf t (0, 0)).any (fun n => n.st == .failed)) ∧
    after (exec .verdictRead (w 2 id held)) (fun t => (nodeOf t (0, 0)).any (fun n => n.st == .failed)) ∧
    after (exec .verdictRead (w 3 id held)) (fun t => (nodeOf t (0, 0)).any (fun n => n.st == .failed)) ∧
    after (exec .verdictRead (w 4 id held)) (fun t => (nodeOf t (0, 0)).any (fun n => n.st == .running) && (arrOf t 0).cond == .running && (arrOf t 0).replay) ∧
    after (exec .verdictRead (w 4 id { held with stepTrap := true })) (fun t => (nodeOf t (0, 0)).any (fun n => n.st == .failed)) ∧
    after (exec .verdictRead (w 5 id held)) (fun t => (nodeOf t (0, 0)).any (fun n => n.st == .failed)) ∧
    after (exec .verdictRead (w 4 id { held with svrun := 1 })) (fun t => (nodeOf t (0, 0)).any (fun n => n.st == .draining 1) && (arrOf t 0).cond == .running) := by decide +kernel

theorem test_saving :
    let nd : NodeS := { nodeA with st := .draining 1 }
    let stop : ArrayS := { arrA with cond := .preempted, tbAc := 2 }
    let big : NodeS := { nodeA with gangs := [{ first := 0, count := 12, chain := 0 }], groupAt := [] }
    settled (wN nd stop) 0 = true ∧ stoppedArrs (wN nd stop) (0, 0) = [0] ∧
    after (exec .nodeSaveStart (wN nd stop)) (fun t => (arrOf t 0).cond == .capturing && (nodeOf t (0, 0)).any (fun n => (tabFind n.saved 0).isSome)) ∧
    after (exec .nodeSaveStart (wN nd { stop with asy := [{ os := false, addr := 0, bytes := [1], marks := [false], src := (0, 0), hnd := 0xFF, go := true }] })) (fun t =>
      (arrOf t 0).cond == .preempted) ∧
    after (exec .nodeSaveComplete (wN nd { arrA with cond := .placed })) (fun t => (nodeOf t (0, 0)).any (fun n => n.st == .ready && n.preempts == 1) &&
      (arrOf t 0).node.isNone) ∧
    savedArr { arrA with cond := .capturing } = true ∧
    after (exec .nodeSaveComplete (wN { nd with switch := some 0 } { arrA with cond := .placed })) (fun t => (nodeOf t (0, 0)).any (fun n =>
      n.switch.isNone && tabGet n.group 0 0 == 1)) ∧
    quantum (wN big arrA) 0 = 20 * 65536 ∧ big.gangs.map (gangArrs (wN big arrA) (0, 0)) = [[0]] ∧
    after (exec .quantumExpiry { wN big arrA with now := 20 * 65536 }) (fun t => (nodeOf t (0, 0)).any (fun n => n.switch == some 0 && n.asked == [0])) ∧
    after (exec .quantumExpiry { wN big arrA with now := 20 * 65536 - 1 }) (fun t => (nodeOf t (0, 0)).any (fun n => n.switch.isNone)) := by decide +kernel

theorem test_budgets_and_table :
    let w := modBh (wN { nodeA with budget := some 0x1000, demoted := false } arrA) 0 (fun b => { b with wcbs := [(0x1000, { raw := 9#1024 <<< 128, left := 0 })] })
    let table : State := { wLaunch with parts := [(0, { live := true, regions := regsN, keys := firstKeys, ten := true, tblBase := 2 ^ 24 + 4096, tblN := 3 })] }
    let entry : State := { table with mem := memPut wLaunch.mem (2 ^ 23 + 4096) (packA [(8, 70000), (8, 2 ^ 24), (1, 0), (1, 1), (2, 0), (4, 0), (8, 0)]) }
    after (exec .budgetExhausted w) (fun t => (nodeOf t (0, 0)).any (fun n => n.demoted)) ∧
    after (exec .budgetRefill w) (fun t => (tabFind (bhOf t 0).wcbs 0x1000).any (fun c => c.left == 9) && (nodeOf t (0, 0)).any (fun n => !n.demoted)) ∧
    after (exec .scheduleTableEnable w0) (fun t => (partOf t 0).ten && (partOf t 0).tblNext == 0) ∧
    assigned table 0 = true ∧ (entryBytes entry 0).2.isSome = true ∧
    after (exec .scheduleEntryRead { entry with hub := { entry.hub with timer := 10000 * 2 ^ 32 } }) (fun t => (nodeOf t (0, 0)).any (fun n => n.st == .waiting && n.tick == some 4464 && n.wcb == 2 ^ 24) &&
      (partOf t 0).tblNext == 1 && (partOf t 0).tblPrev == 70000) ∧
    (let bad : State := { table with parts := [(0, { live := true, regions := regsN, keys := firstKeys, ten := true, tblBase := 2 ^ 39, tblN := 3 })] }
     (entryBytes bad 0).2 = none ∧ after (exec .scheduleEntryRead bad) (fun t => (partOf t 0).tblNext == 1 &&
       (tabGet t.port.notif [] 0).map (fun n => (n.kind, n.cause)) == [(4, 0x0B)])) := by decide +kernel

-- Codes with published check values

theorem test_crc32c : crcBytes 0xFFFFFFFF ("123456789".toUTF8.toList.map (fun b => b.toBitVec)) ^^^ 0xFFFFFFFF = 0xE3069283 := by decide +kernel

end Sys2Proof.Tests
end

namespace Sys2Proof.Machine
open Sys2Proof

/-! The package registers: which word of a group an offset names, and what each group reads and takes (R6, R7). -/

-- Offsets and groups

theorem wordIn_of_lt {base n k : Nat} (h : k < n) : wordIn (base + 4 * k) base n = some k := by
  have hr : base ≤ base + 4 * k ∧ base + 4 * k < base + 4 * n := by omega
  simp [wordIn, hr]

theorem wordIn_of_outside {off base n : Nat} (h : off < base ∨ base + 4 * n ≤ off) : wordIn off base n = none := by
  have hr : ¬ (base ≤ off ∧ off < base + 4 * n) := by omega
  simp [wordIn, hr]

/-- An aligned offset is a word of a group, or lies outside it. -/
theorem wordIn_cases {off base : Nat} (h4 : off % 4 = 0) (n : Nat) (hb : base % 4 = 0) :
    (∃ k < n, off = base + 4 * k) ∨ (off < base ∨ base + 4 * n ≤ off) := by
  by_cases h : base ≤ off ∧ off < base + 4 * n
  · exact .inl ⟨(off - base) / 4, by omega, by omega⟩
  · exact .inr (by omega)

/-- The value of the register at an aligned offset (R6). -/
theorem readReg_aligned (s : State) {off : Nat} (h : off % 4 = 0) :
    readReg s off = BitVec.ofNat 32 (((readHubReg s off <|> readPortReg s off) <|> readMemReg s off).getD 0) :=
  if_neg (by omega)

/-- A write at an aligned offset (R6). -/
theorem writeReg_aligned (s : State) {off : Nat} (h : off % 4 = 0) (v : W32) :
    writeReg s off v = ((writeHubReg s off v <|> writePortReg s off v) <|> writeMemReg s off v).getD s :=
  if_neg (by omega)

/-- No register lies at an offset that is not a multiple of 4 (R6, log entry 114). -/
theorem writeReg_unaligned (s : State) {off : Nat} (h : off % 4 ≠ 0) (v : W32) : writeReg s off v = s := if_pos h

section
variable (s : State) {off : Nat} (v : W32)

theorem readHubReg_of_above (h : 0x3100 ≤ off) : readHubReg s off = none := by
  simp (disch := omega) only [readHubReg, if_neg, wordIn_of_outside]

theorem readPortReg_of_between (h : 0x7000 ≤ off) (h2 : off < 0x10000) : readPortReg s off = none := by
  simp (disch := omega) only [readPortReg, if_neg, wordIn_of_outside]

theorem writeHubReg_of_above (h : 0x3100 ≤ off) : writeHubReg s off v = none := by
  simp (disch := omega) only [writeHubReg, if_neg, wordIn_of_outside]

theorem writePortReg_of_between (h : 0x7000 ≤ off) (h2 : off < 0x10000) : writePortReg s off v = none := by
  simp (disch := omega) only [writePortReg, if_neg, wordIn_of_outside]
end

-- Registers without side effect: what they read and what a write leaves

/-- TORARB of a bulkhead (R63). -/
theorem readReg_torarb (s : State) {b : Nat} (h : b < 16) : readReg s (0x400 + 4 * b) = (bhOf s b).torarb := by
  rw [readReg_aligned s (by omega)]
  simp (disch := omega) [readHubReg, if_neg, wordIn_of_lt h]

theorem writeReg_torarb (s : State) {b : Nat} (h : b < 16) (v : W32) :
    writeReg s (0x400 + 4 * b) v = modBh s b (fun x => { x with torarb := v }) := by
  rw [writeReg_aligned s (by omega)]
  simp (disch := omega) [writeHubReg, if_neg, wordIn_of_lt h]

/-- PORTPART of a partition number (R43). -/
theorem readReg_portpart (s : State) {p : Nat} (h : p < 16) : readReg s (0x4000 + 4 * p) = portPart s p := by
  rw [readReg_aligned s (by omega), readHubReg_of_above s (by omega)]
  simp (disch := omega) [readPortReg, if_neg, wordIn_of_lt h]

/-- LNKARB of a link (R394). -/
theorem readReg_lnkarb (s : State) {l : Nat} (h : l < 144) : readReg s (0x6800 + 4 * l) = (linkOf s l).arb := by
  rw [readReg_aligned s (by omega), readHubReg_of_above s (by omega)]
  simp (disch := omega) [readPortReg, if_neg, wordIn_of_outside, wordIn_of_lt h]

theorem writeReg_lnkarb (s : State) {l : Nat} (h : l < 144) (v : W32) :
    writeReg s (0x6800 + 4 * l) v = modLink s l (fun x => { x with arb := v &&& 0xFFFF }) := by
  rw [writeReg_aligned s (by omega), writeHubReg_of_above s v (by omega)]
  simp (disch := omega) [writePortReg, if_neg, wordIn_of_outside, wordIn_of_lt h]

/-- KEYARG of a partition number (R82). -/
theorem readReg_keyarg (s : State) {p : Nat} (h : p < 16) : readReg s (0x7000 + 4 * (4 * p + 1)) =
    BitVec.ofNat 32 (packW [(8, (partOf s p).keyNew), (12, (partOf s p).keyChunk), (12, (partOf s p).keyDom)]) := by
  have hi : 4 * p + 1 < 64 := by omega
  have hp : (4 * p + 1) / 4 = p := by omega
  rw [readReg_aligned s (by omega), readHubReg_of_above s (by omega), readPortReg_of_between s (by omega) (by omega)]
  simp (disch := omega) [readMemReg, wordIn_of_outside, wordIn_of_lt hi, hp]

theorem writeReg_keyarg (s : State) {p : Nat} (h : p < 16) (v : W32) : writeReg s (0x7000 + 4 * (4 * p + 1)) v =
    modPart s p (fun x => { x with keyDom := bitsN v 20 12, keyChunk := bitsN v 8 12, keyNew := bitsN v 0 8 }) := by
  have hi : 4 * p + 1 < 64 := by omega
  have hp : (4 * p + 1) / 4 = p := by omega
  rw [writeReg_aligned s (by omega), writeHubReg_of_above s v (by omega),
    writePortReg_of_between s v (by omega) (by omega)]
  simp (disch := omega) [writeMemReg, wordIn_of_outside, wordIn_of_lt hi, hp]

end Sys2Proof.Machine

namespace Sys2Proof.Machine
open Sys2Proof

/-! The package registers right after input power is applied (R6). -/

theorem bhOf_reset (b : Nat) : bhOf State.reset b = {} := rfl
theorem partOf_reset (p : Nat) : partOf State.reset p = {} := rfl
theorem linkOf_reset (l : Nat) : linkOf State.reset l = {} := rfl
theorem portPart_reset (p : Nat) : portPart State.reset p = 1 := rfl
theorem readRmap_reset (p : Nat) : readRmap State.reset p = 0 := rfl

theorem readBhstat_reset (b : Nat) : readBhstat State.reset b = 0x00010000 := by
  simp [readBhstat, sameGate, bhOf_reset, packW, oneIf, bhCode]

theorem readPtcfg_reset (p : Nat) : readPtcfg State.reset p = 0 := by
  simp [readPtcfg, partBusy, ownIn, inPart, bhOf_reset, partOf_reset, packW, oneIf]

/-- BHCTL, BHSTAT and the scrub count of a bulkhead at reset (R26). -/
theorem readReg_bulkhead_reset {i : Nat} (h : i < 64) :
    readReg State.reset (0x1000 + 4 * i) = if i % 4 = 1 then 0x00010000 else 0 := by
  rw [readReg_aligned _ (by omega)]
  simp (disch := omega) only [readHubReg, if_neg, wordIn_of_outside, wordIn_of_lt h, readBhstat_reset, bhOf_reset]
  have hword : i % 4 < 4 := by omega
  interval_cases i % 4 <;> rfl

/-- SCHCTL and the schedule table of a partition number at reset (R128). -/
theorem readReg_schedule_reset {i : Nat} (h : i < 64) :
    readReg State.reset (0xB000 + 4 * i) = if i % 4 = 0 then 0x0A141000 else 0 := by
  rw [readReg_aligned _ (by omega), readHubReg_of_above _ (by omega), readPortReg_of_between _ (by omega) (by omega)]
  simp (disch := omega) only [readMemReg, wordIn_of_outside, wordIn_of_lt h, partOf_reset]
  have hword : i % 4 < 4 := by omega
  interval_cases i % 4 <;> rfl

/-- A group of the table that holds no register at this offset, or one that reads zero. -/
def ReadsZero (o : Option Nat) : Prop := o = none ∨ o = some 0

theorem ReadsZero.orElse {a b : Option Nat} (ha : ReadsZero a) (hb : ReadsZero b) : ReadsZero (a <|> b) := by
  obtain rfl | rfl := ha
  · simpa using hb
  · exact .inr rfl

theorem ReadsZero.getD_eq {o : Option Nat} (h : ReadsZero o) : o.getD 0 = 0 := by
  obtain rfl | rfl := h <;> rfl

/-- The hub's registers outside CAP, TORARB and those of the bulkheads read zero at reset. -/
theorem readsZero_readHubReg_reset {off : Nat} (h0 : off ≠ 0x100) (h1 : wordIn off 0x400 16 = none)
    (h2 : wordIn off 0x1000 64 = none) : ReadsZero (readHubReg State.reset off) := by
  simp only [readHubReg, if_neg h0, h1, h2]
  split_ifs
  · exact .inr rfl
  · exact .inr rfl
  · split
    · contradiction
    · contradiction
    · rw [readPtcfg_reset]; exact .inr rfl
    · exact .inr rfl
    · exact .inl rfl

/-- The registers of the port and the links other than PORTPART and LNKARB read zero at reset. -/
theorem readsZero_readPortReg_reset {off : Nat} (h1 : wordIn off 0x4000 16 = none)
    (h2 : wordIn off 0x6800 144 = none) : ReadsZero (readPortReg State.reset off) := by
  simp only [readPortReg, h1, h2, linkOf_reset]
  split_ifs
  · exact .inr rfl
  · exact .inr rfl
  · split
    · contradiction
    · exact .inr rfl
    · split <;> exact .inr rfl
    · split
      · contradiction
      · exact .inr rfl
      · exact .inl rfl

/-- The registers of keys, queues, granules, checkpoint and descriptors read zero at reset. -/
theorem readsZero_readMemReg_reset {off : Nat} (h1 : wordIn off 0xB000 64 = none) :
    ReadsZero (readMemReg State.reset off) := by
  simp only [readMemReg, h1, partOf_reset, bhOf_reset]
  split
  case h_1 => split <;> exact .inr rfl
  case h_9 =>
    split
    · contradiction
    · rw [readRmap_reset, ite_self]; exact .inr rfl
    · split <;> exact .inr rfl
    · exact .inl rfl
  all_goals exact .inr rfl

/-- Outside the groups that have a reset value that is not zero, every offset reads zero at reset. -/
theorem readReg_reset_of_outside {off : Nat} (h0 : off ≠ 0x100) (h1 : off < 0x400 ∨ 0x400 + 4 * 16 ≤ off)
    (h2 : off < 0x1000 ∨ 0x1000 + 4 * 64 ≤ off) (h3 : off < 0x4000 ∨ 0x4000 + 4 * 16 ≤ off)
    (h4 : off < 0x6800 ∨ 0x6800 + 4 * 144 ≤ off) (h5 : off < 0xB000 ∨ 0xB000 + 4 * 64 ≤ off) :
    readReg State.reset off = 0 := by
  unfold readReg
  split
  · rfl
  · have hhub := readsZero_readHubReg_reset h0 (wordIn_of_outside h1) (wordIn_of_outside h2)
    have hport := readsZero_readPortReg_reset (wordIn_of_outside h3) (wordIn_of_outside h4)
    have hmem := readsZero_readMemReg_reset (wordIn_of_outside h5)
    rw [((hhub.orElse hport).orElse hmem).getD_eq]
    rfl

/-- An offset that is not a multiple of 4 reads zero (R6, log entry 114). -/
theorem readReg_unaligned (s : State) {off : Nat} (h : off % 4 ≠ 0) : readReg s off = 0 := if_pos h

/-- Settles O32, by the group of registers that the offset lies in. -/
theorem resetRegisters : Obligations.ResetRegisters := by
  refine ⟨fun _ => rfl, rfl, rfl, fun off => ?_⟩
  by_cases h4 : off % 4 = 0
  swap
  · rw [readReg_unaligned _ h4]
    simp (disch := omega) only [if_neg]
  by_cases hcap : off = 0x100
  · subst hcap; rfl
  obtain ⟨b, hb, rfl⟩ | h1 := wordIn_cases h4 (base := 0x400) 16 rfl
  · rw [readReg_torarb _ hb]
    simp (disch := omega) only [if_neg, if_pos, bhOf_reset]
  obtain ⟨i, hi, rfl⟩ | h2 := wordIn_cases h4 (base := 0x1000) 64 rfl
  · rw [readReg_bulkhead_reset hi]
    by_cases hi1 : i % 4 = 1 <;> simp (disch := omega) only [if_pos, if_neg]
  obtain ⟨p, hp, rfl⟩ | h3 := wordIn_cases h4 (base := 0x4000) 16 rfl
  · rw [readReg_portpart _ hp, portPart_reset]
    simp (disch := omega) only [if_neg, if_pos]
  obtain ⟨l, hl, rfl⟩ | h5 := wordIn_cases h4 (base := 0x6800) 144 rfl
  · rw [readReg_lnkarb _ hl, linkOf_reset]
    simp (disch := omega) only [if_neg, if_pos]
  obtain ⟨i, hi, rfl⟩ | h6 := wordIn_cases h4 (base := 0xB000) 64 rfl
  · rw [readReg_schedule_reset hi]
    by_cases hi0 : i % 4 = 0 <;> simp (disch := omega) only [if_pos, if_neg]
  rw [readReg_reset_of_outside hcap h1 h2 h3 h5 h6]
  simp (disch := omega) only [if_neg]

end Sys2Proof.Machine

namespace Sys2Proof.Machine
open Sys2Proof

/-! The hub: power, bring-up, reports, time and windows (R23, R24, R27, R30 to R34, R46). -/

-- Bring-up (R32, R33, R41)

/-- Both signatures of both firmware images verify (R32). -/
def FwStore.Verified (f : FwStore) : Prop := f.hubOk = true ∧ f.hubLms = true ∧ f.bcpOk = true ∧ f.bcpLms = true

theorem FwStore.verified_iff (f : FwStore) :
    f.Verified ↔ (f.hubOk && f.hubLms && f.bcpOk && f.bcpLms) = true := by
  simp [Verified, and_assoc]

theorem exec_bringUp_of_unverified (s : State) (hp : s.hub.phase = 0) (hv : ¬ s.hub.fw.Verified) :
    exec .bringUp s = .next { s with hub := { s.hub with
      timer := 0, boots := s.hub.boots + 1, reports := 0, ident := identOf (s.hub.boots + 1), phase := 1,
      bootFail := true } } := by
  rw [FwStore.verified_iff, Bool.not_eq_true] at hv
  show execBringUp s = _
  simp [execBringUp, hp, hv]

theorem exec_bringUp_of_verified (s : State) (hp : s.hub.phase = 0) (hv : s.hub.fw.Verified) :
    exec .bringUp s = .next { s with
      hub := { s.hub with
        timer := 0, boots := s.hub.boots + 1, reports := 0, ident := identOf (s.hub.boots + 1), phase := 2 }
      port := { s.port with
        mode := s.hub.fw.mode, en := s.hub.fw.en, up := s.hub.fw.en, fnaddr := fwAddr s.hub.fw } } := by
  rw [FwStore.verified_iff] at hv
  show execBringUp s = _
  simp [execBringUp, hp, hv]

-- Reports (R33, R34)

/-- Bytes that are no more than `n` come back from the number they make, with zeros above them. -/
theorem leBytes_leNat (l : List Byte) {n : Nat} (h : l.length ≤ n) :
    leBytes n (leNat l) = l ++ List.replicate (n - l.length) 0 := by
  induction n generalizing l with
  | zero => simp_all [leBytes]
  | succ n ih =>
    cases l with
    | nil =>
      have hr := ih [] (by simp)
      simp_all [leBytes, leNat, List.replicate_succ]
    | cons b r =>
      have hb : b.toNat < 256 := b.isLt
      have hq : (b.toNat + 256 * leNat r) / 256 = leNat r := by omega
      have hm : (b.toNat + 256 * leNat r) % 256 = b.toNat := by omega
      simp only [List.length_cons, Nat.add_le_add_iff_right] at h
      simp [leBytes, leNat, hq, hm, ih r h]

theorem length_flatMap_leBytes (l : List Nat) (n : Nat) (f : Nat → Nat) :
    (l.flatMap (fun i => leBytes n (f i))).length = n * l.length := by
  simp [List.length_flatMap, Nat.mul_comm]

theorem toNat_ofNat_leNat (l : List Byte) {w : Nat} (h : 8 * l.length ≤ w) :
    (BitVec.ofNat w (leNat l)).toNat = leNat l := by
  rw [BitVec.toNat_ofNat, Nat.mod_eq_of_lt ((leNat_lt l).trans_le (Nat.pow_le_pow_right Nat.two_pos h))]

/-- The number that at most 256 bytes make, in the 2,048 signed bits, comes back as those bytes. -/
theorem leBytes_ofNat_leNat (l : List Byte) (h : l.length ≤ 256) :
    leBytes 256 (BitVec.ofNat 2048 (leNat l)).toNat = l ++ List.replicate (256 - l.length) 0 := by
  rw [toNat_ofNat_leNat l (by omega), leBytes_leNat l h]

/-- The signed fields of a report: the magic, the version with whom it is about, the nonce and the time come first
(R34). -/
theorem reportOf_fields (s : State) (pkg : Bool) (nonce : BitVec 256) : ∃ who rest : List Byte,
    who.length = 4 ∧ rest.length = 184 ∧ reportOf s pkg nonce = BitVec.ofNat 2048 (leNat
      (leBytes 4 0x4B4E4154 ++ (who ++ (leBytes 32 nonce.toNat ++ (leBytes 8 (nsTime s) ++ rest))))) := by
  refine ⟨leBytes 2 1 ++ leBytes 2 (if pkg then 0xFFFF else s.cur.part + 16 * (partOf s s.cur.part).size),
    leBytes 48 s.hub.fw.hubSha.toNat ++ (leBytes 48 s.hub.fw.bcpSha.toNat ++
      (leBytes 48 (Config.configDigest (configWords s)).toNat ++
        ((List.range 16).flatMap (fun b => leBytes 2 (bhOf s b).gen.toNat) ++ leBytes 8 s.hub.fw.secver.toNat))),
    by simp, by simp, ?_⟩
  simp only [reportOf, List.append_assoc]

/-- A report is its 256 signed bytes, then the two signatures (R33, R34). -/
theorem reportBytes_signed (h : HubS) (r : BitVec 2048) : ∃ sigs : List Byte,
    sigs.length = 3544 ∧ reportBytes h r = leBytes 256 r.toNat ++ sigs := by
  unfold reportBytes
  rw [List.append_assoc, List.append_assoc]
  refine ⟨_, ?_, rfl⟩
  simp only [List.length_append, List.length_take, length_flatMap_leBytes, length_leBytes, List.length_range]
  rfl

/-- The bytes of a report as they go out. -/
theorem reportBytes_eq (s : State) (pkg : Bool) (nonce : BitVec 256) : ∃ who rest : List Byte,
    who.length = 4 ∧ rest.length = 3752 ∧ reportBytes s.hub (reportOf s pkg nonce) =
      leBytes 4 0x4B4E4154 ++ (who ++ (leBytes 32 nonce.toNat ++ (leBytes 8 (nsTime s) ++ rest))) := by
  obtain ⟨sigs, hsigs, hbytes⟩ := reportBytes_signed s.hub (reportOf s pkg nonce)
  obtain ⟨who, rest, hwho, hrest, hfields⟩ := reportOf_fields s pkg nonce
  rw [hbytes, hfields, leBytes_ofNat_leNat _ (by simp [hwho, hrest])]
  refine ⟨who, rest ++ (List.replicate 24 0 ++ sigs), hwho, by simp [hrest, hsigs], ?_⟩
  simp [hwho, hrest]

/-- A report names its request's nonce and the time of its issue (R34). -/
theorem reportBytes_reads (s : State) (pkg : Bool) (nonce : BitVec 256) :
    let r := reportBytes s.hub (reportOf s pkg nonce)
    r.length = 3800 ∧ leNat (r.take 4) = 0x4B4E4154 ∧ leNat ((r.drop 8).take 32) = nonce.toNat ∧
      leNat ((r.drop 40).take 8) = s.hub.timer / 2 ^ 32 % 2 ^ 64 := by
  obtain ⟨who, rest, hwho, hrest, h⟩ := reportBytes_eq s pkg nonce
  have hnonce : nonce.toNat < 2 ^ 256 := nonce.isLt
  intro r
  simp only [r, h]
  refine ⟨by simp [hwho, hrest], ?_, ?_, ?_⟩
  · rw [List.take_left' (by simp), leNat_leBytes]
    rfl
  · rw [← List.append_assoc, List.drop_left' (by simp [hwho]), List.take_left' (by simp), leNat_leBytes,
      Nat.mod_eq_of_lt hnonce]
  · rw [← List.append_assoc, ← List.append_assoc, List.drop_left' (by simp [hwho]), List.take_left' (by simp),
      leNat_leBytes, nsTime]

theorem exec_attestationReportRequest_of_down (s : State) (pkg : Bool) (nonce : BitVec 256) (hp : s.hub.phase ≠ 2) :
    exec (.attestationReportRequest pkg nonce) s = .next s := by
  show execAttestationReportRequest pkg nonce s = _
  rw [execAttestationReportRequest, if_pos hp]

theorem exec_attestationReportRequest_of_within (s : State) (pkg : Bool) (nonce : BitVec 256) (hp : s.hub.phase = 2)
    (hr : s.hub.reports < 32768) (hb : s.hub.boots ≤ 1048576) :
    exec (.attestationReportRequest pkg nonce) s = .next { s with hub := { s.hub with
      reports := s.hub.reports + 1, issued := reportBytes s.hub (reportOf s pkg nonce) :: s.hub.issued } } := by
  show execAttestationReportRequest pkg nonce s = _
  rw [execAttestationReportRequest, if_neg (by omega), if_neg (by simp; omega)]

theorem exec_attestationReportRequest_of_exhausted (s : State) (pkg : Bool) (nonce : BitVec 256)
    (hp : s.hub.phase = 2) (hx : 32768 ≤ s.hub.reports ∨ 1048576 < s.hub.boots) :
    exec (.attestationReportRequest pkg nonce) s = .next { s with hub := { s.hub with attExh := true } } := by
  show execAttestationReportRequest pkg nonce s = _
  rw [execAttestationReportRequest, if_neg (by omega), if_pos (by simpa using hx)]

-- Time (R46, R47)

/-- Time after a message: as it was, or moved on, with what it was before kept (R46, R47). -/
def TimeFollows (h : HubS) (timer : Nat) (before : Option Nat) : Prop :=
  timer = h.timer ∧ before = h.before ∨ h.timer ≤ timer ∧ before = some (h.before.getD h.timer)

/-- The counter moves to the time asked for, or stands. -/
theorem moveTimer_cases (h : HubS) (t : Nat) : ∃ timer before,
    moveTimer h t = { h with timer := timer, before := before } ∧ TimeFollows h timer before := by
  unfold moveTimer
  split
  · exact ⟨h.timer, h.before, rfl, .inl ⟨rfl, rfl⟩⟩
  · exact ⟨t, _, rfl, .inr ⟨by omega, rfl⟩⟩

theorem moveTimer_of_le (h : HubS) {t : Nat} (ht : h.timer ≤ t) :
    moveTimer h t = { h with timer := t, before := some (h.before.getD h.timer) } := if_neg (by omega)

theorem exec_timestepWrite_of_ptp (s : State) (v : W32) (hm : s.hub.tmode = false) :
    exec (.timestepWrite v) s = .next s := by
  show execTimestepWrite v s = _
  simp [execTimestepWrite, hm]

theorem exec_timestepWrite_of_neg (s : State) (v : W32) (hm : s.hub.tmode = true) (hv : v.toInt < 0) :
    exec (.timestepWrite v) s = .next { s with hub := { s.hub with
      hold := s.hub.hold + (-v.toInt).toNat * 2 ^ 32 } } := by
  have hs : v.slt 0 = true := by simpa [BitVec.slt] using hv
  show execTimestepWrite v s = _
  rw [execTimestepWrite, hm, hs]
  rfl

theorem exec_timestepWrite_of_nonneg (s : State) (v : W32) (hm : s.hub.tmode = true) (hv : 0 ≤ v.toInt)
    (ht : s.hub.timer + v.toNat * 2 ^ 32 < 2 ^ 96) :
    exec (.timestepWrite v) s = .next { s with hub := { s.hub with
      timer := s.hub.timer + v.toNat * 2 ^ 32, before := some (s.hub.before.getD s.hub.timer) } } := by
  have hs : v.slt 0 = false := by simpa [BitVec.slt] using hv
  show execTimestepWrite v s = _
  rw [execTimestepWrite, hm, hs, Nat.mod_eq_of_lt ht, moveTimer_of_le _ (by omega)]
  rfl

theorem length_ptpSends (k : PtpKind) (v : W64) : (ptpSends k v).length ≤ 2 := by
  unfold ptpSends
  split
  · simp
  · split <;> simp
  · simp

/-- LOCK after a message: as it was, or set by 16 sync intervals in a row below 50 ns (R46). -/
def LockFollows (h : HubS) (good : Nat) (lock : Bool) : Prop :=
  lock = h.lock ∧ good = h.ptpGood ∨ lock = decide (16 ≤ good) ∧ (good = 0 ∨ good = min 16 (h.ptpGood + 1))

/-- What the servo makes of an offset touches LOCK and its count alone. -/
theorem ptpServo_cases (h : HubS) (offset : Int) : ∃ good lock,
    ptpServo h offset = { h with ptpGood := good, lock := lock } ∧ LockFollows h good lock := by
  refine ⟨_, _, rfl, .inr ⟨rfl, ?_⟩⟩
  split
  · exact .inr rfl
  · exact .inl rfl

/-- The hub after a message that the servo takes in: `ns` and `fr` are the step and the period, `off` the offset at
the end of a sync interval (R46, log entry 4). -/
def ptpHub (h : HubS) (ns fr off : W64) : HubS :=
  let moved := { moveTimer h ((h.timer + ns.toNat * 2 ^ 32 + bitsN fr 0 32) % 2 ^ 96) with
                 adj := signedOf 31 (bitsN fr 32 31) }
  if bitB fr 63 then ptpServo moved off.toInt else moved

theorem ptpHub_cases (h : HubS) (ns fr off : W64) : ∃ timer before adj good lock,
    ptpHub h ns fr off = { h with timer := timer, before := before, adj := adj, ptpGood := good, lock := lock } ∧
      TimeFollows h timer before ∧ LockFollows h good lock := by
  obtain ⟨timer, before, hmoved, htime⟩ :=
    moveTimer_cases h ((h.timer + ns.toNat * 2 ^ 32 + bitsN fr 0 32) % 2 ^ 96)
  unfold ptpHub
  rw [hmoved]
  split
  · obtain ⟨good, lock, hservo, hlock⟩ :=
      ptpServo_cases { h with timer := timer, before := before, adj := signedOf 31 (bitsN fr 32 31) } off.toInt
    exact ⟨timer, before, _, good, lock, hservo, htime, hlock⟩
  · exact ⟨timer, before, _, h.ptpGood, h.lock, rfl, htime, .inl ⟨rfl, rfl⟩⟩

theorem ptpReceive_of_deaf (s : State) (m : PtpMsg)
    (h : s.hub.tmode = true ∨ m.domain ≠ s.hub.domain ∨ s.port.up = false) : ptpReceive s m = s :=
  if_pos (by simpa [or_assoc] using h)

/-- A message that the clock takes draws four free values, changes the hub as the servo does or not at all, and sends
at most two messages (R46). -/
theorem ptpReceive_of_listening (s : State) (m : PtpMsg) (ht : s.hub.tmode = false) (hd : m.domain = s.hub.domain)
    (hu : s.port.up = true) : ∃ (hub : HubS) (tx : List Frame), tx.length ≤ 2 ∧
      (hub = s.hub ∨ ∃ ns fr off, hub = ptpHub s.hub ns fr off) ∧
      ptpReceive s m =
        { s with fresh := s.fresh + 4, port := { s.port with ptpTx := s.port.ptpTx ++ tx }, hub := hub } := by
  unfold ptpReceive
  rw [if_neg (by simp [ht, hd, hu])]
  have hsends (v : W64) (f : PtpKind → Frame) : ((ptpSends m.kind v).map f).length ≤ 2 := by
    rw [List.length_map]; exact length_ptpSends _ _
  generalize ptpTimes m.kind = takes
  cases takes
  case false => exact ⟨_, _, hsends _ _, .inl rfl, rfl⟩
  case true => exact ⟨_, _, hsends _ _, .inr ⟨_, _, _, rfl⟩, rfl⟩

-- PTP_MESSAGE_RECEIVE (R46)

theorem ptpOpen_domain (d : Byte) (v : W64) : (ptpOpen d v).domain = d := rfl

theorem exec_ptpMessageReceive_of_deaf (s : State) (d : Byte)
    (h : s.hub.tmode = true ∨ d ≠ s.hub.domain ∨ s.port.up = false) :
    exec (.ptpMessageReceive d) s = .next { s with fresh := s.fresh + 1 } :=
  congrArg Host.Outcome.next (ptpReceive_of_deaf { s with fresh := s.fresh + 1 } (ptpOpen d _) h)

theorem exec_ptpMessageReceive_of_listening (s : State) (d : Byte) (ht : s.hub.tmode = false)
    (hd : d = s.hub.domain) (hu : s.port.up = true) : ∃ timer before adj good lock tx,
      exec (.ptpMessageReceive d) s = .next { s with
        fresh := s.fresh + 5, port := { s.port with ptpTx := s.port.ptpTx ++ tx }
        hub := { s.hub with timer := timer, before := before, adj := adj, ptpGood := good, lock := lock } } ∧
      TimeFollows s.hub timer before ∧ tx.length ≤ 2 ∧ LockFollows s.hub good lock := by
  obtain ⟨hub, tx, htx, hhub, hnext⟩ := ptpReceive_of_listening { s with fresh := s.fresh + 1 }
    (ptpOpen d (Config.freeWord s.fresh)) ht hd hu
  have hexec : exec (.ptpMessageReceive d) s = .next { s with
      fresh := s.fresh + 5, port := { s.port with ptpTx := s.port.ptpTx ++ tx }, hub := hub } :=
    congrArg Host.Outcome.next hnext
  obtain rfl | ⟨ns, fr, off, rfl⟩ := hhub
  · exact ⟨_, _, _, _, _, tx, hexec, .inl ⟨rfl, rfl⟩, htx, .inl ⟨rfl, rfl⟩⟩
  · obtain ⟨timer, before, adj, good, lock, hp, htime, hlock⟩ := ptpHub_cases s.hub ns fr off
    rw [hp] at hexec
    exact ⟨timer, before, adj, good, lock, tx, hexec, htime, htx, hlock⟩

-- Windows (R23, R24, R27)

theorem getLsbD_setBit {n : Nat} (w : BitVec n) {i : Nat} (b : Bool) (h : i < n) (j : Nat) :
    (setBit w i b).getLsbD j = if j = i then b else w.getLsbD j := by
  have hone : 1#n <<< i = BitVec.twoPow n i := rfl
  by_cases hj : j = i
  · subst hj
    cases b <;> simp [setBit, hone, h]
  · have hne : i ≠ j := Ne.symm hj
    cases b
    · have hlt : w.getLsbD j = true → j < n := BitVec.lt_of_getLsbD
      simpa [setBit, hone, BitVec.getLsbD_twoPow, hj, hne] using hlt
    · simp [setBit, hone, BitVec.getLsbD_twoPow, hj, hne]

theorem extractLsb'_setBit {n : Nat} (w : BitVec n) {i lo len : Nat} (b : Bool) (hi : i < n)
    (h : i < lo ∨ lo + len ≤ i) : (setBit w i b).extractLsb' lo len = w.extractLsb' lo len := by
  apply BitVec.eq_of_getLsbD_eq
  intro j hj
  simp only [BitVec.getLsbD_extractLsb', getLsbD_setBit w b hi]
  rw [if_neg (by omega)]

theorem extractLsb'_and_of_ones {n : Nat} (w m : BitVec n) {lo len : Nat}
    (h : ∀ j < len, m.getLsbD (lo + j) = true) : (w &&& m).extractLsb' lo len = w.extractLsb' lo len := by
  apply BitVec.eq_of_getLsbD_eq
  intro j hj
  simp [BitVec.getLsbD_extractLsb', h j hj]

/-- A WINCFG word asks for EN and may have it: both partitions are ASSIGNED, and the region is not a SEQ region
(R23, R24; log entry 70). -/
def WindowOn (s : State) (v : W32) : Prop :=
  v.getLsbD 31 = true ∧ assigned s (v.extractLsb' 26 4).toNat = true ∧ assigned s (v.extractLsb' 22 4).toNat = true ∧
    ∀ r, tabFind (partOf s (v.extractLsb' 22 4).toNat).regions (v.extractLsb' 0 14).toNat = some r →
      r.kind ≠ 3

/-- What a WINCFG word holds after a write of `v`: the fields of R27, and EN. -/
def windowWord (v : W32) (on : Bool) : W32 := setBit (v &&& 0xFFC03FFF) 31 on

section
variable (v : W32) (on : Bool)

theorem windowWord_en : (windowWord v on).getLsbD 31 = on := by
  rw [windowWord, getLsbD_setBit _ _ (by decide), if_pos rfl]

theorem windowWord_wr : (windowWord v on).getLsbD 30 = v.getLsbD 30 := by
  rw [windowWord, getLsbD_setBit _ _ (by decide), if_neg (by decide)]
  simp

theorem windowWord_imp : (windowWord v on).extractLsb' 26 4 = v.extractLsb' 26 4 := by
  rw [windowWord, extractLsb'_setBit _ _ (by decide) (by decide), extractLsb'_and_of_ones _ _ (by decide)]

theorem windowWord_exp : (windowWord v on).extractLsb' 22 4 = v.extractLsb' 22 4 := by
  rw [windowWord, extractLsb'_setBit _ _ (by decide) (by decide), extractLsb'_and_of_ones _ _ (by decide)]

theorem windowWord_region : (windowWord v on).extractLsb' 0 14 = v.extractLsb' 0 14 := by
  rw [windowWord, extractLsb'_setBit _ _ (by decide) (by decide), extractLsb'_and_of_ones _ _ (by decide)]
end

section
variable (s : State)

theorem assigned_of_hub (h : HubS) (p : Nat) : assigned { s with hub := h } p = assigned s p := rfl
theorem partOf_of_hub (h : HubS) (p : Nat) : partOf { s with hub := h } p = partOf s p := rfl
theorem bhOf_of_hub (h : HubS) (b : Nat) : bhOf { s with hub := h } b = bhOf s b := rfl

/-- A write while EN = 1 first clears EN: that touches the window's own word alone (R24). -/
theorem winDisable_if_on (n : Nat) : ∃ old : Tab W32, (∀ u, u ≠ n → tabGet old 0 u = winWord s u) ∧
    (if winEn s n then winDisable s n else s) = { s with hub := { s.hub with win := old } } := by
  split
  · exact ⟨_, fun u hu => tabGet_tabSet_ne _ _ _ hu, rfl⟩
  · exact ⟨s.hub.win, fun _ _ => rfl, rfl⟩
end

/-- WINCFG_WRITE writes the word of the window, and with EN keeps the exporter's generation. -/
theorem exec_wincfgWrite (s : State) (w : BitVec 6) (v : W32) : ∃ (on : Bool) (old : Tab W32),
    (on = true ↔ WindowOn s v) ∧ (∀ u, u ≠ w.toNat → tabGet old 0 u = winWord s u) ∧
    exec (.wincfgWrite w v) s = .next { s with hub := { s.hub with
      win := tabSet old w.toNat (windowWord v on)
      winGen := if on then tabSet s.hub.winGen w.toNat (bhOf s (v.extractLsb' 22 4).toNat).gen
        else s.hub.winGen } } := by
  have him : bitsN (v &&& 0xFFC03FFF) 26 4 = (v.extractLsb' 26 4).toNat :=
    congrArg BitVec.toNat (extractLsb'_and_of_ones v _ (by decide))
  have hex : bitsN (v &&& 0xFFC03FFF) 22 4 = (v.extractLsb' 22 4).toNat :=
    congrArg BitVec.toNat (extractLsb'_and_of_ones v _ (by decide))
  have hreg : bitsN (v &&& 0xFFC03FFF) 0 14 = (v.extractLsb' 0 14).toNat :=
    congrArg BitVec.toNat (extractLsb'_and_of_ones v _ (by decide))
  have hen : bitB (v &&& 0xFFC03FFF) 31 = v.getLsbD 31 := by simp [bitB]
  obtain ⟨old, hold, hcleared⟩ := winDisable_if_on s w.toNat
  show ∃ _ _, _ ∧ _ ∧ execWincfgWrite w v s = _
  unfold execWincfgWrite
  simp only [him, hex, hreg, hen, hcleared, assigned_of_hub, partOf_of_hub, bhOf_of_hub]
  refine ⟨_, old, ?_, hold, rfl⟩
  simp only [WindowOn, Bool.and_eq_true, Bool.not_eq_true', and_assoc]
  generalize tabFind (partOf s (v.extractLsb' 22 4).toNat).regions (v.extractLsb' 0 14).toNat = region
  cases region <;> simp

-- REGISTER_WRITE (R6, R32)

theorem exec_registerWrite_of_up (s : State) (off v : W32) (hp : s.hub.phase = 2) :
    exec (.registerWrite off v) s = .next (writeReg s off.toNat v) :=
  congrArg Host.Outcome.next (if_pos hp)

theorem exec_registerWrite_of_down (s : State) (off v : W32) (hp : s.hub.phase ≠ 2) :
    exec (.registerWrite off v) s = .next s :=
  congrArg Host.Outcome.next (if_neg hp)

/-- A write of the register at this offset touches no memory, and the register then reads the bits of `mask` that
were written. -/
def TakesField (s : State) (off : Nat) (mask v : W32) : Prop :=
  (writeReg s off v).mem = s.mem ∧ readReg (writeReg s off v) off = v &&& mask

theorem and_fff_eq (v : W32) : BitVec.ofNat 32 (bitsN v 0 12) = v &&& 0xFFF := by
  apply BitVec.eq_of_toNat_eq
  have hmask : (0xFFF : W32).toNat = 2 ^ 12 - 1 := rfl
  rw [BitVec.toNat_and, hmask, Nat.and_two_pow_sub_one_eq_mod, bitsN, BitVec.extractLsb'_toNat, BitVec.toNat_ofNat,
    Nat.shiftRight_zero]
  omega

theorem and_ones_eq (v : W32) : v &&& 0xFFFFFFFF = v := BitVec.and_allOnes

theorem takesField_cap (s : State) (v : W32) : TakesField s 0x100 0xFFF v :=
  ⟨rfl, and_fff_eq v⟩

theorem takesField_word {s : State} {off : Nat} {v : W32} (hmem : (writeReg s off v).mem = s.mem)
    (hread : readReg (writeReg s off v) off = BitVec.ofNat 32 v.toNat) : TakesField s off 0xFFFFFFFF v :=
  ⟨hmem, by rw [hread, and_ones_eq, BitVec.ofNat_toNat, BitVec.setWidth_eq]⟩

theorem takesField_torarb (s : State) {b : Nat} (h : b < 16) (v : W32) : TakesField s (0x400 + 4 * b) 0xFFFFFFFF v := by
  rw [TakesField, writeReg_torarb s h, readReg_torarb _ h, and_ones_eq, bhOf_modBh_same]
  exact ⟨rfl, rfl⟩

theorem takesField_lnkarb (s : State) {l : Nat} (h : l < 144) (v : W32) : TakesField s (0x6800 + 4 * l) 0xFFFF v := by
  rw [TakesField, writeReg_lnkarb s h, readReg_lnkarb _ h, linkOf_modLink_same]
  exact ⟨rfl, rfl⟩

/-- The three fields of KEYARG make up its word (R82). -/
theorem packW_keyarg (v : W32) :
    BitVec.ofNat 32 (packW [(8, bitsN v 0 8), (12, bitsN v 8 12), (12, bitsN v 20 12)]) = v := by
  apply BitVec.eq_of_toNat_eq
  have hv : v.toNat < 2 ^ 32 := v.isLt
  simp only [packW, bitsN, BitVec.extractLsb'_toNat, BitVec.toNat_ofNat, Nat.shiftRight_eq_div_pow]
  omega

theorem takesField_keyarg (s : State) {p : Nat} (h : p < 16) (v : W32) :
    TakesField s (0x7000 + 4 * (4 * p + 1)) 0xFFFFFFFF v := by
  rw [TakesField, writeReg_keyarg s h, readReg_keyarg _ h, and_ones_eq, partOf_modPart_same]
  exact ⟨rfl, packW_keyarg v⟩

theorem TakesField.exec_registerWrite {s : State} {off : Nat} {mask v : W32} (h : TakesField s off mask v)
    (hp : s.hub.phase = 2) (ho : off < 2 ^ 32) : ∃ t, exec (.registerWrite (BitVec.ofNat 32 off) v) s = .next t ∧
      t.mem = s.mem ∧ readReg t off = v &&& mask := by
  have hoff : (BitVec.ofNat 32 off).toNat = off := by rw [BitVec.toNat_ofNat, Nat.mod_eq_of_lt ho]
  refine ⟨_, exec_registerWrite_of_up s _ v hp, ?_⟩
  rw [hoff]
  exact h

/-- The registers without side effect by offset, with the bits that they hold (R6, R29, R63, R82, R87, R394). -/
def plainRegs : List (Nat × W32) :=
  [(0x100, 0xFFF), (0xA004, 0xFFFFFFFF), (0xA008, 0xFFFFFFFF), (0xA00C, 0xFFFFFFFF), (0xA010, 0xFFFFFFFF)] ++
    (List.range 16).map (fun b => (0x400 + 4 * b, 0xFFFFFFFF)) ++
    (List.range 144).map (fun l => (0x6800 + 4 * l, 0xFFFF)) ++
    (List.range 16).map (fun p => (0x7004 + 16 * p, 0xFFFFFFFF))

theorem takesField_of_mem_plainRegs (s : State) (v : W32) {x : Nat × W32} (hx : x ∈ plainRegs) :
    TakesField s x.1 x.2 v ∧ x.1 < 2 ^ 32 := by
  simp only [plainRegs, List.mem_append, List.mem_map, List.mem_range, List.mem_cons, List.not_mem_nil, or_false] at hx
  obtain (((rfl | rfl | rfl | rfl | rfl) | ⟨b, hb, rfl⟩) | ⟨l, hl, rfl⟩) | ⟨p, hp, rfl⟩ := hx
  · exact ⟨takesField_cap s v, by decide⟩
  · exact ⟨takesField_word rfl rfl, by decide⟩
  · exact ⟨takesField_word rfl rfl, by decide⟩
  · exact ⟨takesField_word rfl rfl, by decide⟩
  · exact ⟨takesField_word rfl rfl, by decide⟩
  · exact ⟨takesField_torarb s hb v, by dsimp only; omega⟩
  · exact ⟨takesField_lnkarb s hl v, by dsimp only; omega⟩
  · have hoff : 0x7004 + 16 * p = 0x7000 + 4 * (4 * p + 1) := by omega
    rw [hoff]
    exact ⟨takesField_keyarg s hp v, by omega⟩

/-- Settles O50, by the clauses on power, bring-up, reports, time, windows and plain registers. -/
theorem hubAndRegisters : Obligations.HubAndRegisters := by
  intro s
  refine ⟨?power, ?bringUp, ?down, ?report, ?timestep, ?ptp, ?window, ?registers⟩
  case power =>
    intro i hi
    simp only [List.mem_cons, List.not_mem_nil, or_false] at hi
    obtain rfl | rfl := hi <;> rfl
  case bringUp =>
    intro hp
    exact ⟨exec_bringUp_of_unverified s hp,
      fun hv => ⟨_, exec_bringUp_of_verified s hp hv, rfl, rfl, rfl, rfl, rfl, rfl, rfl, rfl, rfl⟩⟩
  case down =>
    intro hp
    exact ⟨fun pkg nonce => exec_attestationReportRequest_of_down s pkg nonce hp,
      fun off v => exec_registerWrite_of_down s off v hp⟩
  case report =>
    intro pkg nonce hp
    exact ⟨fun hr hb => ⟨_, exec_attestationReportRequest_of_within s pkg nonce hp hr hb,
      reportBytes_reads s pkg nonce⟩, exec_attestationReportRequest_of_exhausted s pkg nonce hp⟩
  case timestep =>
    intro v
    exact ⟨exec_timestepWrite_of_nonneg s v, exec_timestepWrite_of_neg s v, exec_timestepWrite_of_ptp s v⟩
  case ptp =>
    intro d
    exact ⟨exec_ptpMessageReceive_of_listening s d, exec_ptpMessageReceive_of_deaf s d⟩
  case window =>
    intro w v
    obtain ⟨on, old, hon, hold, hexec⟩ := exec_wincfgWrite s w v
    refine ⟨_, _, _, hexec, rfl, fun h => ?_, fun h => ?_, ?_, ?_, ?_, ?_, ?_, fun u hu => ?_⟩
    · rw [if_pos (hon.mpr h), tabGet_tabSet_same]
    · exact if_neg (mt hon.mp h)
    · rw [winEn, winWord, tabGet_tabSet_same, bitB, windowWord_en]; exact hon
    · rw [winImp, winWord, tabGet_tabSet_same, bitsN, windowWord_imp]
    · rw [winExp, winWord, tabGet_tabSet_same, bitsN, windowWord_exp]
    · rw [winWr, winWord, tabGet_tabSet_same, bitB, windowWord_wr]
    · rw [winRegion, winWord, tabGet_tabSet_same, bitsN, windowWord_region]
    · rw [winWord, tabGet_tabSet_ne _ _ _ hu, hold u hu]
  case registers =>
    intro v hp
    refine ⟨fun x hx => ?_, fun off ho => ?_⟩
    · obtain ⟨htakes, hlt⟩ := takesField_of_mem_plainRegs s v hx
      exact htakes.exec_registerWrite hp hlt
    · rw [exec_registerWrite_of_up s off v hp, writeReg_unaligned s ho]

end Sys2Proof.Machine

namespace Sys2Proof.Machine
open Sys2Proof

/-! Tables, folds and places that the commands of the bulkheads share. -/

-- Tables

section
variable {α : Type}

theorem tabSet_tabSet_same (t : Tab α) (k : Nat) (u v : α) : tabSet (tabSet t k u) k v = tabSet t k v := by
  induction t with
  | nil => simp [tabSet]
  | cons c r ih =>
    obtain ⟨j, w⟩ := c
    simp only [tabSet]
    split
    · simp [tabSet]
    · split <;> simp_all [tabSet]

/-- A table read gives a listed value or the one that unlisted keys read as. -/
theorem tabGet_mem_or_default (t : Tab α) (d : α) (k : Nat) : (k, tabGet t d k) ∈ t ∨ tabGet t d k = d := by
  induction t with
  | nil => exact .inr rfl
  | cons c r ih =>
    obtain ⟨j, w⟩ := c
    simp only [tabGet]
    split
    · subst_vars; exact .inl List.mem_cons_self
    · exact ih.imp_left (List.mem_cons_of_mem _)

theorem mem_of_mem_tabSet {t : Tab α} {k : Nat} {v : α} {c : Nat × α} (h : c ∈ tabSet t k v) : c = (k, v) ∨ c ∈ t := by
  induction t with
  | nil => exact .inl (by simpa [tabSet] using h)
  | cons e r ih =>
    obtain ⟨j, w⟩ := e
    simp only [tabSet] at h
    split at h
    · simpa using h
    · split at h
      · exact (List.mem_cons.mp h).imp_right (List.mem_cons_of_mem _)
      · obtain rfl | h := List.mem_cons.mp h
        · exact .inr List.mem_cons_self
        · exact (ih h).imp_right (List.mem_cons_of_mem _)

/-- A write loses at most the entry that the key read before it. -/
theorem mem_tabSet_of_mem {t : Tab α} {k : Nat} {v d : α} {c : Nat × α} (h : c ∈ t) :
    c ∈ tabSet t k v ∨ c = (k, tabGet t d k) := by
  induction t with
  | nil => cases h
  | cons e r ih =>
    obtain ⟨j, w⟩ := e
    simp only [tabSet, tabGet]
    split
    · exact .inl (List.mem_cons_of_mem _ h)
    · split
      · subst_vars
        obtain rfl | h := List.mem_cons.mp h
        · exact .inr rfl
        · exact .inl (List.mem_cons_of_mem _ h)
      · obtain rfl | h := List.mem_cons.mp h
        · exact .inl List.mem_cons_self
        · exact (ih h).imp_left (List.mem_cons_of_mem _)

/-- A table without some keys. -/
theorem tabGet_filter_key (t : Tab α) (d : α) (keep : Nat → Bool) (k : Nat) :
    tabGet (t.filter (fun c => keep c.1)) d k = if keep k then tabGet t d k else d := by
  induction t with
  | nil => simp [tabGet]
  | cons c r ih =>
    obtain ⟨j, w⟩ := c
    by_cases hj : j = k
    · subst hj
      cases hk : keep j <;> simp_all [tabGet]
    · cases hk : keep j <;> simp_all [tabGet]
end

-- Folds

/-- A fold whose step changes nothing at any of its indices. -/
theorem foldl_of_fixed {σ ι : Type} {step : σ → ι → σ} {l : List ι} {s : σ} (h : ∀ i ∈ l, step s i = s) :
    l.foldl step s = s := by
  induction l with
  | nil => rfl
  | cons i r ih =>
    rw [List.foldl_cons, h i List.mem_cons_self]
    exact ih (fun j hj => h j (List.mem_cons_of_mem _ hj))

/-- A fold whose step acts at one index alone. -/
theorem foldl_of_only {σ ι : Type} {step : σ → ι → σ} {l : List ι} {s t : σ} {i : ι} (hl : l.Nodup) (hi : i ∈ l)
    (hs : ∀ j ∈ l, j ≠ i → step s j = s) (hi2 : step s i = t) (ht : ∀ j ∈ l, j ≠ i → step t j = t) :
    l.foldl step s = t := by
  obtain ⟨pre, post, rfl⟩ := List.append_of_mem hi
  obtain ⟨-, hpost, hdisj⟩ := List.nodup_append.mp hl
  have hpre : pre.foldl step s = s := foldl_of_fixed fun j hj =>
    hs j (by simp [hj]) (fun h => hdisj j hj i List.mem_cons_self h)
  rw [List.foldl_append, hpre, List.foldl_cons, hi2]
  exact foldl_of_fixed fun j hj => ht j (by simp [hj]) (fun h => (List.nodup_cons.mp hpost).1 (h ▸ hj))

/-- A relation that every step of a fold keeps relates its ends. -/
theorem foldl_induct {σ ι : Type} {R : σ → σ → Prop} {step : σ → ι → σ} (hrefl : ∀ s, R s s)
    (htrans : ∀ {s t u}, R s t → R t u → R s u) (h : ∀ s i, R s (step s i)) (l : List ι) (s : σ) :
    R s (l.foldl step s) := by
  induction l generalizing s with
  | nil => exact hrefl s
  | cons i r ih => exact htrans (h s i) (ih _)

-- Places

theorem routerOf_modRouter_same (s : State) (k : Nat) (f : RouterS → RouterS) :
    routerOf (modRouter s k f) k = f (routerOf s k) := tabGet_tabMod_same _ _ _ _

theorem routerOf_modRouter_ne (s : State) {k j : Nat} (f : RouterS → RouterS) (h : j ≠ k) :
    routerOf (modRouter s k f) j = routerOf s j := tabGet_tabMod_ne _ _ _ _ h

theorem setPart_setPart (s : State) (p : Nat) (x y : PartS) : setPart (setPart s p x) p y = setPart s p y := by
  simp [setPart, tabSet_tabSet_same]

theorem modPart_modPart (s : State) (p : Nat) (f g : PartS → PartS) :
    modPart (modPart s p f) p g = setPart s p (g (f (partOf s p))) := by
  rw [modPart, partOf_modPart_same, modPart, setPart_setPart]

-- Lines handed over

/-- An array holds the same piece of work: in the same condition, for the same node, with the same writes. -/
structure SameRun (a b : ArrayS) : Prop where
  cond : b.cond = a.cond
  node : b.node = a.node
  eg : b.eg = a.eg

theorem SameRun.refl (a : ArrayS) : SameRun a a := ⟨rfl, rfl, rfl⟩

theorem SameRun.trans {a b c : ArrayS} (h : SameRun a b) (g : SameRun b c) : SameRun a c :=
  ⟨g.cond.trans h.cond, g.node.trans h.node, g.eg.trans h.eg⟩

theorem sameRun_setArr (s : State) (p : Nat) {x : ArrayS} (h : SameRun (arrOf s p) x) (a : Nat) :
    SameRun (arrOf s a) (arrOf (setArr s p x) a) := by
  rw [arrOf_setArr]
  split
  · subst_vars; exact h
  · exact .refl _

/-- A line that reaches who asked for it changes arrays, slices and the agenda alone, and no array's work. -/
theorem deliverLine_frame (s : State) (who : Requester) (v : LineVal) (pin : Option Nat) :
    ∃ arrs slices agenda,
      deliverLine s who v pin = { s with arrs := arrs, slices := slices, agenda := agenda } ∧
      ∀ a, SameRun (arrOf s a) (tabGet arrs {} a) := by
  have hstay : ∃ arrs slices agenda, s = { s with arrs := arrs, slices := slices, agenda := agenda } ∧
      ∀ a, SameRun (arrOf s a) (tabGet arrs {} a) := ⟨s.arrs, s.slices, s.agenda, rfl, fun a => .refl _⟩
  cases who with
  | load p ep reg off size zx ov om op =>
    simp only [deliverLine]
    split
    · exact hstay
    · exact ⟨_, _, _, rfl, sameRun_setArr s p ⟨rfl, rfl, rfl⟩⟩
  | land p ep slot line =>
    simp only [deliverLine]
    split
    · cases pin with
      | none => exact hstay
      | some l => exact ⟨_, _, _, rfl, fun a => .refl _⟩
    · exact ⟨_, _, _, rfl, sameRun_setArr s p ⟨rfl, rfl, rfl⟩⟩
  | engine i p b => exact ⟨_, _, _, rfl, fun a => .refl _⟩
  | drain a key => exact hstay
  | nobody => exact hstay

theorem drainArrived_frame (s : State) (who : Requester) : ∃ arrs, drainArrived s who = { s with arrs := arrs } := by
  cases who <;> exact ⟨_, rfl⟩

end Sys2Proof.Machine

namespace Sys2Proof.Machine
open Sys2Proof

/-! The window bridge and the torus routers (R18, R23, R24, R61, R74). -/

-- The window bridge

/-- The bridge takes the oldest request whose window has room. -/
theorem pickWin_of_oldest (s : State) {r : WinReq} {post : List WinReq} (hr : tabGet s.hub.winOut 0 r.win < 64)
    {pre seen : List WinReq} (hsame : ∀ x ∈ seen ++ pre, x.win ≠ r.win)
    (hblock : ∀ u x v, pre = u ++ x :: v → tabGet s.hub.winOut 0 x.win < 64 → ∃ y ∈ seen ++ u, y.win = x.win) :
    pickWin s seen (pre ++ r :: post) = some (r, seen ++ pre ++ post) := by
  induction pre generalizing seen with
  | nil =>
    have hfree : seen.any (fun x => x.win = r.win) = false := by
      simpa [List.any_eq_false] using hsame
    simp [pickWin, hr, hfree]
  | cons x pre ih =>
    have hpass : ¬ ((tabGet s.hub.winOut 0 x.win < 64 && !(seen.any (fun y => y.win = x.win))) = true) := by
      intro h
      simp only [Bool.and_eq_true, decide_eq_true_eq, Bool.not_eq_true', List.any_eq_false] at h
      obtain ⟨hroom, hnone⟩ := h
      obtain ⟨y, hy, hyx⟩ := hblock [] x pre rfl hroom
      exact hnone y (by simpa using hy) hyx
    rw [List.cons_append, pickWin, if_neg hpass, ih]
    · simp
    · simpa using hsame
    · intro u z v hz hroom
      obtain ⟨y, hy, hyz⟩ := hblock (x :: u) z v (by rw [hz]; rfl) hroom
      exact ⟨y, by simpa using hy, hyz⟩

/-- What the exporter's hub gate does with a request that has left the bridge (R18, R23, R24, R74). -/
def windowAtGate (s : State) (r : WinReq) : State :=
  if !gatePass s r.win r.bh r.gen r.expGen then
    if r.write then winLog s ecStalegen r.win r.bh (64 * r.line)
    else winOnward (winLog s ecStalegen r.win r.bh (64 * r.line)) r.bh r.who { bad := true }
  else
    match winTarget s r.win (bhOf s r.bh).part with
    | none =>
      if r.write then winLog s ecWindow r.win r.bh (64 * r.line) else winOnward s r.bh r.who { bad := true }
    | some (_, e) =>
      if r.write && !winWr s r.win then winLog s ecWindow r.win r.bh (64 * r.line) else winForward s r e

/-- A request that leaves the bridge: a drained line has arrived with it (R214). -/
def windowTaken (s : State) (rest : List WinReq) (r : WinReq) : State :=
  let u := { s with hub := { s.hub with bridge := rest } }
  if r.write then drainArrived u r.who else u

theorem exec_windowRequest_of_oldest (s : State) {pre post : List WinReq} {r : WinReq}
    (h : Oldest (fun x => tabGet s.hub.winOut 0 x.win < 64) (fun x => x.win) s.hub.bridge pre r post) :
    exec .windowRequest s = .next (windowAtGate (windowTaken s (pre ++ post) r) r) := by
  obtain ⟨hbridge, hroom, hsame, hblock⟩ := h
  have hpick : pickWin s [] s.hub.bridge = some (r, pre ++ post) := by
    rw [hbridge]
    exact pickWin_of_oldest s hroom (by simpa using hsame) (by simpa using hblock)
  show execWindowRequest s = _
  rw [execWindowRequest, hpick]
  rfl

/-- What the hub gate looks at is what it was before the request left the bridge. -/
theorem windowTaken_frame (s : State) (rest : List WinReq) (r : WinReq) : ∃ arrs,
    windowTaken s rest r = { s with arrs := arrs, hub := { s.hub with bridge := rest } } := by
  unfold windowTaken
  split
  · obtain ⟨arrs, h⟩ := drainArrived_frame { s with hub := { s.hub with bridge := rest } } r.who
    exact ⟨arrs, h⟩
  · exact ⟨s.arrs, rfl⟩

section
variable (s : State) (rest : List WinReq) (r : WinReq)

theorem gatePass_windowTaken (w b : Nat) (g e : W16) :
    gatePass (windowTaken s rest r) w b g e = true ↔
      g = tabGet s.hub.gateGens 1 b ∧ e = tabGet s.hub.gateGens 1 (winExp s w) := by
  obtain ⟨arrs, h⟩ := windowTaken_frame s rest r
  rw [h, gatePass, Bool.and_eq_true, beq_iff_eq, beq_iff_eq]
  rfl

theorem winTarget_windowTaken (w p : Nat) : winTarget (windowTaken s rest r) w p = winTarget s w p := by
  obtain ⟨arrs, h⟩ := windowTaken_frame s rest r
  rw [h]; rfl

theorem winWr_windowTaken (w : Nat) : winWr (windowTaken s rest r) w = winWr s w := by
  obtain ⟨arrs, h⟩ := windowTaken_frame s rest r
  rw [h]; rfl

theorem bhOf_windowTaken (b : Nat) : bhOf (windowTaken s rest r) b = bhOf s b := by
  obtain ⟨arrs, h⟩ := windowTaken_frame s rest r
  rw [h]; rfl
end

section
variable {s : State} {r : WinReq}

theorem windowAtGate_of_stale (h : ¬ gatePass s r.win r.bh r.gen r.expGen = true) : windowAtGate s r =
    if r.write then winLog s ecStalegen r.win r.bh (64 * r.line)
    else winOnward (winLog s ecStalegen r.win r.bh (64 * r.line)) r.bh r.who { bad := true } :=
  if_pos (by simpa using h)

theorem windowAtGate_of_untargeted (h : gatePass s r.win r.bh r.gen r.expGen = true)
    (ht : winTarget s r.win (bhOf s r.bh).part = none) : windowAtGate s r =
    if r.write then winLog s ecWindow r.win r.bh (64 * r.line) else winOnward s r.bh r.who { bad := true } := by
  simp only [windowAtGate, h, ht, Bool.not_true, Bool.false_eq_true, if_false]

theorem windowAtGate_of_readOnly (h : gatePass s r.win r.bh r.gen r.expGen = true) (hw : r.write = true)
    (hro : winWr s r.win = false) : windowAtGate s r = winLog s ecWindow r.win r.bh (64 * r.line) := by
  cases ht : winTarget s r.win (bhOf s r.bh).part with
  | none => rw [windowAtGate_of_untargeted h ht, if_pos hw]
  | some x =>
    simp only [windowAtGate, h, ht, hw, hro, Bool.not_true, Bool.false_eq_true, if_false, Bool.not_false,
      Bool.and_self, if_true]

theorem windowAtGate_of_targeted (h : gatePass s r.win r.bh r.gen r.expGen = true) {p : Nat} {e : Region}
    (ht : winTarget s r.win (bhOf s r.bh).part = some (p, e)) (hw : r.write = true → winWr s r.win = true) :
    windowAtGate s r = winForward s r e := by
  have hgo : (r.write && !winWr s r.win) = false := by simpa using hw
  simp only [windowAtGate, h, ht, hgo, Bool.not_true, Bool.false_eq_true, if_false]
end

-- The torus routers

section
variable {s : State} {die x y : Nat}

theorem ringStep_of_empty {d : Dir}
    (h : tabGet (routerOf s (routerKey die x y)).ring [] (dirNo d) = []) : ringStep die x y s d = s := by
  simp [ringStep, h]

theorem arriveStep_of_empty (h : (routerOf s (routerKey die x y)).enter = []) : arriveStep die x y s = s := by
  simp [arriveStep, h]

theorem pickClass_nil (d : Dir) : pickClass s die x y d [] = none := rfl

theorem enterStep_of_empty (h : (routerOf s (routerKey die x y)).enter = []) (d : Dir) :
    enterStep die x y s d = s := by
  simp [enterStep, h, tabGet, pickClass_nil]
end

/-- At a router no packet waits to enter, and no ring but one holds any. -/
def RingAlone (s : State) (k : Nat) (d : Dir) : Prop :=
  (routerOf s k).enter = [] ∧ ∀ e ≠ d, tabGet (routerOf s k).ring [] (dirNo e) = []

theorem dirNo_ne {d e : Dir} (h : e ≠ d) : dirNo e ≠ dirNo d := by
  cases d <;> cases e <;> simp_all [dirNo]

/-- A router with one ring holding no more than a list of packets. -/
theorem ringAlone_of_eq {s : State} {k : Nat} {d : Dir} {q : List Packet} {cr : Tab Nat}
    (h : routerOf s k = { ring := [(dirNo d, q)], enter := [], credit := cr }) : RingAlone s k d := by
  refine ⟨by rw [h], fun e he => ?_⟩
  rw [h]
  simp [tabGet, (dirNo_ne he).symm]

/-- Where one ring alone holds packets, before and after its turn, the round is that ring's turn (R61 to R63). -/
theorem exec_routerArbitrationRound_of_ringAlone {s t : State} {d : Dir}
    (hs : RingAlone s (routerKey s.cur.die s.cur.x s.cur.y) d)
    (hstep : ringStep s.cur.die s.cur.x s.cur.y s d = t)
    (ht : RingAlone t (routerKey s.cur.die s.cur.x s.cur.y) d) :
    exec .routerArbitrationRound s = .next t := by
  have hrings : [Dir.east, .west, .south, .north].foldl (ringStep s.cur.die s.cur.x s.cur.y) s = t :=
    foldl_of_only (i := d) (by decide) (by cases d <;> simp) (fun e _ he => ringStep_of_empty (hs.2 e he)) hstep
      (fun e _ he => ringStep_of_empty (ht.2 e he))
  show execRouterArbitrationRound s = _
  simp only [execRouterArbitrationRound, hrings, arriveStep_of_empty ht.1]
  exact congrArg Host.Outcome.next (foldl_of_fixed fun e _ => enterStep_of_empty ht.1 e)

/-- A packet handed over moves no packet of the torus, unless it is a window's line. -/
theorem routerOf_netGive (s : State) {m : NetMsg} (h : ∀ w b who v, m ≠ .winLine w b who v) (k : Nat) :
    routerOf (netGive s m) k = routerOf s k := by
  cases m with
  | line who v pin =>
    obtain ⟨arrs, slices, agenda, hd, -⟩ := deliverLine_frame s who v pin
    show routerOf (deliverLine s who v pin) k = _
    rw [hd]
    rfl
  | winLine w b who v => exact absurd rfl (h w b who v)
  | value p ep v =>
    simp only [netGive, netDeliver, deliverValue]
    split_ifs <;> rfl
  | scGo p ep =>
    simp only [netGive, netDeliver]
    split_ifs <;> rfl
  | ckpt t n i v =>
    simp only [netGive, netDeliver]
    split_ifs <;> rfl
  | slice b j r => rfl
  | sem b a op => rfl
  | stack j r => rfl
  | stackReply j r => rfl
  | win r => rfl
  | act i p b => rfl

/-- The head packet of a ring has left it. -/
def ringHeadTaken (s : State) (k : Nat) (d : Dir) (rest : List Packet) : State :=
  modRouter s k (fun r => { r with ring := tabSet r.ring (dirNo d) rest })

section
variable {s : State} {die x y : Nat} {d : Dir} {p : Packet} {rest : List Packet}
  (hq : tabGet (routerOf s (routerKey die x y)).ring [] (dirNo d) = p :: rest)
include hq

theorem ringStep_of_old (hb : p.born + 1300000 < s.now) :
    ringStep die x y s d = ringHeadTaken s (routerKey die x y) d rest := by
  have hold : tooOld s p = true := decide_eq_true (by omega)
  simp only [ringStep, hq, hold]
  rfl

theorem ringStep_of_deliver (hb : s.now ≤ p.born + 1300000) (hop : nextHop s die x y p = .deliver) :
    ringStep die x y s d = netGive (ringHeadTaken s (routerKey die x y) d rest) p.msg := by
  have hold : tooOld s p = false := decide_eq_false (by omega)
  simp only [ringStep, hq, hold, hop]
  rfl

theorem ringStep_of_go (hb : s.now ≤ p.born + 1300000) (hop : nextHop s die x y p = .go d) :
    ringStep die x y s d =
      if 4 ≤ (tabGet (routerOf s (neighbour s die x y d)).ring [] (dirNo d)).length then s
      else modRouter (ringHeadTaken s (routerKey die x y) d rest) (neighbour s die x y d) (fun r =>
        { r with ring := tabMod r.ring [] (dirNo d) (fun q => q ++ [p]) }) := by
  have hold : tooOld s p = false := decide_eq_false (by omega)
  simp only [ringStep, hq, hold, hop, Bool.false_eq_true, if_false, ne_eq, not_true_eq_false]
  rfl
end

theorem routerOf_ringHeadTaken {s : State} {k : Nat} {d : Dir} {q : List Packet} {cr : Tab Nat}
    (h : routerOf s k = { ring := [(dirNo d, q)], enter := [], credit := cr }) (rest : List Packet) :
    routerOf (ringHeadTaken s k d rest) k = { ring := [(dirNo d, rest)], enter := [], credit := cr } := by
  rw [ringHeadTaken, routerOf_modRouter_same, h]
  simp [tabSet]

/-- Settles O47: the gate's cases, then the turn of the one ring that holds packets. -/
theorem windowsAndRouters : Obligations.WindowsAndRouters := by
  refine ⟨?bridge, ?router⟩
  case bridge =>
    intro s pre post r hold
    have hexec := exec_windowRequest_of_oldest s hold
    have hgate := gatePass_windowTaken s (pre ++ post) r r.win r.bh r.gen r.expGen
    have htarget := winTarget_windowTaken s (pre ++ post) r r.win
    have hwr := winWr_windowTaken s (pre ++ post) r r.win
    have hpart := bhOf_windowTaken s (pre ++ post) r r.bh
    intro u v current target stale
    refine ⟨fun hc hw => ?_, fun hc hw => ?_, fun hc hw hx => ?_, fun hc hw hx => ?_, fun p e hc hx hw => ?_⟩
    · rw [hexec, windowAtGate_of_stale (mt hgate.mp hc), if_pos hw]
      rfl
    · rw [hexec, windowAtGate_of_stale (mt hgate.mp hc), if_neg (by simp [hw])]
      rfl
    · obtain hx | hx := hx
      · rw [hexec, windowAtGate_of_untargeted (hgate.mpr hc) (by rw [htarget, hpart]; exact hx), if_pos hw]
        rfl
      · rw [hexec, windowAtGate_of_readOnly (hgate.mpr hc) hw (hwr.trans hx)]
        rfl
    · rw [hexec, windowAtGate_of_untargeted (hgate.mpr hc) (by rw [htarget, hpart]; exact hx),
        if_neg (by simp [hw])]
      rfl
    · rw [hexec, windowAtGate_of_targeted (hgate.mpr hc) (by rw [htarget, hpart]; exact hx)
        (fun h => hwr.trans (hw h))]
      rfl
  case router =>
    intro s d p rest cr k hop hr
    have hq : tabGet (routerOf s k).ring [] (dirNo d) = p :: rest := by simp [hr, tabGet]
    have hs : RingAlone s k d := ringAlone_of_eq hr
    have hu : routerOf (ringHeadTaken s k d rest) k = _ := routerOf_ringHeadTaken hr rest
    intro u
    refine ⟨fun hb hd hm => ?_, fun hb hg hn hf => ?_, fun hb hg hf => ?_, fun hb => ?_⟩
    · exact exec_routerArbitrationRound_of_ringAlone hs (ringStep_of_deliver hq hb hd)
        (ringAlone_of_eq ((routerOf_netGive _ hm k).trans hu))
    · exact exec_routerArbitrationRound_of_ringAlone hs ((ringStep_of_go hq hb hg).trans (if_neg hf))
        (ringAlone_of_eq ((routerOf_modRouter_ne _ _ hn.symm).trans hu))
    · exact exec_routerArbitrationRound_of_ringAlone hs ((ringStep_of_go hq hb hg).trans (if_pos hf)) hs
    · exact exec_routerArbitrationRound_of_ringAlone hs (ringStep_of_old hq hb) (ringAlone_of_eq hu)

end Sys2Proof.Machine

namespace Sys2Proof.Machine
open Sys2Proof

/-! Power, self-test, scrub and time-outs of a bulkhead (R16, R21, R22, R26, R29, R32). -/

-- The granules of a bulkhead and the start of a scrub

section
variable (s : State) (b dest : Nat) (host : Bool)

/-- A scrub gives a bulkhead fresh keys and starts with no chunk done (R21, R22). -/
theorem bhOf_startScrub_same : bhOf (startScrub s b dest host) b =
    { bhOf s b with
      st := .scrub, dest := dest, scrHost := host, scrDone := 0, chunkQ := [], scrSent := false
      key0 := Config.randomKey s.fresh, key0t := Config.randomKey (s.fresh + 1)
      keyM := Config.randomKey (s.fresh + 2), keyMt := Config.randomKey (s.fresh + 3) } := by
  rw [startScrub, bhOf_modBh_same, bhOf_modStack, scrubKeys, bhOf_modBh_same]
  rfl

theorem bhOf_startScrub_ne {c : Nat} (h : c ≠ b) : bhOf (startScrub s b dest host) c = bhOf s c := by
  rw [startScrub, bhOf_modBh_ne _ _ h, bhOf_modStack, scrubKeys, bhOf_modBh_ne _ _ h]
  rfl

theorem startScrub_mem : (startScrub s b dest host).mem = s.mem := rfl

theorem startScrub_fresh : (startScrub s b dest host).fresh = s.fresh + 4 := rfl

theorem stackOf_startScrub_ne {k : Nat} (h : k ≠ b / 2) : stackOf (startScrub s b dest host) k = stackOf s k := by
  rw [startScrub, stackOf_modBh, stackOf_modStack_ne _ _ h]
  rfl

/-- The allocation table of the scrubbed bulkhead's stack loses the entries of that bulkhead (R83). -/
theorem stackOf_startScrub_same : (stackOf (startScrub s b dest host) (b / 2)).pat =
    (stackOf s (b / 2)).pat.filter (fun g => g.1 < b % 2 * bhGrans || b % 2 * bhGrans + bhGrans ≤ g.1) := by
  rw [startScrub, stackOf_modBh, stackOf_modStack_same]
  rfl

/-- Every granule of a scrubbed bulkhead is in domain 0 (R83). -/
theorem granOf_startScrub_same {g : Nat} (h : g < bhGrans) : granOf (startScrub s b dest host) b g = 0 := by
  have hin : (decide (b % 2 * bhGrans + g < b % 2 * bhGrans) ||
      decide (b % 2 * bhGrans + bhGrans ≤ b % 2 * bhGrans + g)) = false := by simp [h]
  rw [granOf, stackOf_startScrub_same,
    tabGet_filter_key _ _ (fun i => decide (i < b % 2 * bhGrans) || decide (b % 2 * bhGrans + bhGrans ≤ i)), hin]
  rfl

/-- A scrub moves no granule out of domain 0. -/
theorem granOf_startScrub_of_zero {c g : Nat} (h : granOf s c g = 0) : granOf (startScrub s b dest host) c g = 0 := by
  unfold granOf at h ⊢
  by_cases hk : c / 2 = b / 2
  · rw [hk] at h ⊢
    rw [stackOf_startScrub_same,
      tabGet_filter_key _ _ (fun i => decide (i < b % 2 * bhGrans) || decide (b % 2 * bhGrans + bhGrans ≤ i)), h]
    exact ite_self 0
  · rw [stackOf_startScrub_ne s b dest host hk, h]
end

-- Chunks

/-- Memory after a range of lines has returned to zero. -/
theorem memGet_zeroLines (s : State) (l n a : Nat) : memGet (zeroLines s l n).mem a =
    if 64 * l ≤ a ∧ a < 64 * (l + n) then 0 else memGet s.mem a := by
  have hfilter := tabGet_filter_key s.mem 0 (fun k => decide (k < 64 * l) || decide (64 * (l + n) ≤ k)) a
  refine hfilter.trans ?_
  by_cases h : 64 * l ≤ a ∧ a < 64 * (l + n)
  · rw [if_pos h, if_neg (by simp; omega)]
  · rw [if_neg h, if_pos (by simp; omega)]
    rfl

/-- The storage of a chunk returns to zero: 1 GiB of lines, or the counters and tags (R22, R64). -/
def zeroChunk (s : State) (b c : Nat) : State :=
  if c < 28 then zeroLines s (b * bhLines + c * 2 ^ 24) (2 ^ 24) else zeroTree s b

theorem memGet_zeroChunk (s : State) (b c a : Nat) : memGet (zeroChunk s b c).mem a =
    if 64 * (b * 0x1C000000) + c * 2 ^ 30 ≤ a ∧
        a < 64 * (b * 0x1C000000) + c * 2 ^ 30 + (if c < 28 then 2 ^ 30 else 0) then 0
    else memGet s.mem a := by
  unfold zeroChunk
  by_cases hc : c < 28
  · have hlo : 64 * (b * bhLines + c * 2 ^ 24) = 64 * (b * 0x1C000000) + c * 2 ^ 30 := by
      unfold bhLines; ring
    have hhi : 64 * (b * bhLines + c * 2 ^ 24 + 2 ^ 24) = 64 * (b * 0x1C000000) + c * 2 ^ 30 + 2 ^ 30 := by
      unfold bhLines; ring
    rw [if_pos hc, if_pos hc, memGet_zeroLines, hlo, hhi]
  · rw [if_neg hc, if_neg hc, if_neg (by omega)]
    rfl

theorem bhOf_zeroChunk (s : State) (b c j : Nat) : bhOf (zeroChunk s b c) j = bhOf s j := by
  unfold zeroChunk
  split <;> rfl

/-- A chunk of a bulkhead counts as scrubbed, and a queued one leaves its queue (R22). -/
def chunkDone (x : BhS) (c : Nat) : BhS :=
  { x with scrDone := setBit x.scrDone c true, chunkQ := if x.scrHost then x.chunkQ.drop 1 else x.chunkQ }

/-- The state after a chunk has been scrubbed, before the bulkhead leaves SCRUB. -/
def chunkScrubbed (s : State) (b c : Nat) : State :=
  modBh (zeroChunk (modBh s b (fun x => { x with scrSent := false })) b c) b (fun x => chunkDone x c)

theorem bhOf_chunkScrubbed (s : State) (b c : Nat) :
    bhOf (chunkScrubbed s b c) b = chunkDone { bhOf s b with scrSent := false } c := by
  rw [chunkScrubbed, bhOf_modBh_same, bhOf_zeroChunk, bhOf_modBh_same]

theorem nextChunk_unsent (x : BhS) : nextChunk { x with scrSent := false } = nextChunk x := rfl

theorem exec_scrubChunkComplete_of_next (s : State) {c : Nat} (hst : (bhOf s s.cur.bh).st = .scrub)
    (hc : nextChunk (bhOf s s.cur.bh) = some c) : exec .scrubChunkComplete s = .next (
      if setBit (bhOf s s.cur.bh).scrDone c true = BitVec.allOnes 32 then
        leaveScrub (chunkScrubbed s s.cur.bh c) s.cur.bh
      else chunkScrubbed s s.cur.bh c) := by
  have hdone : (bhOf (chunkScrubbed s s.cur.bh c) s.cur.bh).scrDone = setBit (bhOf s s.cur.bh).scrDone c true := by
    rw [bhOf_chunkScrubbed]; rfl
  have hunsent := bhOf_modBh_same s s.cur.bh (fun x => { x with scrSent := false })
  show execScrubChunkComplete s = _
  rw [← hdone]
  simp only [execScrubChunkComplete, hunsent]
  rw [if_neg (not_not_intro hst), nextChunk_unsent, hc]
  rfl

theorem leaveScrub_mem (s : State) (b : Nat) : (leaveScrub s b).mem = s.mem := by
  simp only [leaveScrub]
  split <;> rfl

/-- The last chunk leaves the bulkhead at its destination (R16, R26). -/
theorem bhOf_leaveScrub (s : State) (b : Nat) : (bhOf (leaveScrub s b) b).scrDone = (bhOf s b).scrDone ∧
    (bhOf (leaveScrub s b) b).st = if (bhOf s b).dest = 5 then .assigned else .free := by
  by_cases h : (bhOf s b).dest = 5
  · simp only [leaveScrub, if_pos h, bhOf_modPart, bhOf_modBh_same, and_self]
  · simp only [leaveScrub, if_neg h, bhOf_modBh_same, and_self]

-- The events of a bulkhead

theorem exec_bhctlPwrSet_of_up (s : State) (h : s.hub.phase = 2) : exec .bhctlPwrSet s =
    .next (modBh s s.cur.bh (fun x => if x.st = .off then { x with st := .powerup, scrDone := 0 } else x)) :=
  congrArg Host.Outcome.next (if_pos h)

theorem exec_bhctlPwrClear (s : State) : exec .bhctlPwrClear s = .next (setBh s s.cur.bh
    { bhOf s s.cur.bh with st := if (bhOf s s.cur.bh).st = .free ∨ (bhOf s s.cur.bh).st = .failed then .off
                                 else (bhOf s s.cur.bh).st }) := by
  show execBhctlPwrClear s = _
  by_cases h : (bhOf s s.cur.bh).st = .free ∨ (bhOf s s.cur.bh).st = .failed <;>
    simp [execBhctlPwrClear, modBh, h]

theorem exec_bhctlChunk_of_scrub (s : State) (c : BitVec 5) (hst : (bhOf s s.cur.bh).st = .scrub)
    (hh : (bhOf s s.cur.bh).scrHost = true) : exec (.bhctlChunk c) s = .next (setBh s s.cur.bh
      (if (bhOf s s.cur.bh).chunkQ.length < 32 then
        { bhOf s s.cur.bh with chunkQ := (bhOf s s.cur.bh).chunkQ ++ [c.toNat] }
      else bhOf s s.cur.bh)) := by
  show execBhctlChunk c s = _
  simp [execBhctlChunk, modBh, hst, hh]

theorem exec_powerupSelfTestDone_of_powerup (s : State) (pass : Bool) (h : (bhOf s s.cur.bh).st = .powerup) :
    exec (.powerupSelfTestDone pass) s = .next (
      if pass then startScrub s s.cur.bh 4 false else modBh s s.cur.bh (fun x => { x with st := .failed })) :=
  congrArg Host.Outcome.next (if_neg (not_not_intro h))

theorem exec_resetSequenceTimeout_of_late (s : State) (hst : (bhOf s s.cur.bh).st = .reset)
    (hlate : (partOf s (bhOf s s.cur.bh).part).resetAt + 6500000 < s.now) : exec .resetSequenceTimeout s =
      .next (setBh s s.cur.bh { bhOf s s.cur.bh with st := .failed, dest := 0, part := 0, own := false }) := by
  show execResetSequenceTimeout s = _
  simp [execResetSequenceTimeout, modBh, hst, hlate]

/-- Settles O48, by the rules of each event of a bulkhead. -/
theorem bulkheadStates : Obligations.BulkheadStates := by
  intro s b x
  refine ⟨?pwrUp, ?pwrDown, ?pwrClear, ?chunk, ?selfTest, ?scrub, ?timeout, ?capped, ?uncapped⟩
  case pwrUp => exact exec_bhctlPwrSet_of_up s
  case pwrDown => exact fun h => congrArg Host.Outcome.next (if_neg h)
  case pwrClear => exact exec_bhctlPwrClear s
  case chunk =>
    intro c hst hh
    have hexec := exec_bhctlChunk_of_scrub s c hst hh
    exact ⟨fun hq => by rw [hexec, if_pos hq], fun hq => by rw [hexec, if_neg (Nat.not_lt.mpr hq)]⟩
  case selfTest =>
    intro hst
    exact ⟨exec_powerupSelfTestDone_of_powerup s false hst, _, exec_powerupSelfTestDone_of_powerup s true hst,
      startScrub_mem s b 4 false, startScrub_fresh s b 4 false, bhOf_startScrub_same s b 4 false,
      fun g hg => granOf_startScrub_same s b 4 false hg⟩
  case scrub =>
    intro c hst hc size lo done
    have hmem (a : Nat) : memGet (chunkScrubbed s b c).mem a = if lo ≤ a ∧ a < lo + size then 0 else memGet s.mem a :=
      memGet_zeroChunk (modBh s b _) b c a
    have hbh : bhOf (chunkScrubbed s b c) b = chunkDone { x with scrSent := false } c := bhOf_chunkScrubbed s b c
    refine ⟨_, exec_scrubChunkComplete_of_next s hst hc, ?_⟩
    by_cases hall : done = BitVec.allOnes 32
    · obtain ⟨hdone, hleft⟩ := bhOf_leaveScrub (chunkScrubbed s b c) b
      rw [if_pos hall, if_pos hall, leaveScrub_mem, hdone, hleft, hbh]
      exact ⟨hmem, rfl, rfl⟩
    · rw [if_neg hall, if_neg hall, hbh]
      exact ⟨hmem, rfl, hst⟩
  case timeout => exact exec_resetSequenceTimeout_of_late s
  case capped => exact fun h => congrArg Host.Outcome.next (if_pos h)
  case uncapped => exact fun h => congrArg Host.Outcome.next (if_neg (Nat.not_lt.mpr h))

end Sys2Proof.Machine

namespace Sys2Proof.Machine
open Sys2Proof

/-! What the reset sequence does to the work of a partition (R16, R17, R19, R20, R24, R40, R52). -/

theorem tabGet_map_index {α : Type} (l : List Nat) (f : Nat → α) (d : α) (k : Nat) :
    tabGet (l.map (fun i => (i, f i))) d k = if k ∈ l then f k else d := by
  induction l with
  | nil => rfl
  | cons i r ih =>
    simp only [List.map_cons, tabGet, ih, List.mem_cons]
    by_cases hi : i = k
    · simp [hi]
    · simp [hi, Ne.symm hi]

-- What links, windows and functions leave alone

/-- A bulkhead but for its collectives, which may fail but do not begin, and for what its queues have fetched. -/
structure SameBh (x y : BhS) : Prop where
  rest : ∃ qs cs, y = { x with queues := qs, colls := cs }
  colls : x.colls = [] → y.colls = []
  queue : ∀ q, ∃ r, tabGet y.queues {} q = { tabGet x.queues {} q with reply := r }

theorem SameBh.refl (x : BhS) : SameBh x x := ⟨⟨_, _, rfl⟩, id, fun _ => ⟨_, rfl⟩⟩

theorem SameBh.trans {x y z : BhS} (h : SameBh x y) (g : SameBh y z) : SameBh x z := by
  obtain ⟨⟨qs, cs, rfl⟩, hcolls, hqueue⟩ := h
  obtain ⟨⟨qs', cs', rfl⟩, gcolls, gqueue⟩ := g
  refine ⟨⟨_, _, rfl⟩, fun hx => gcolls (hcolls hx), fun q => ?_⟩
  obtain ⟨r, hr⟩ := hqueue q
  obtain ⟨r', hr'⟩ := gqueue q
  exact ⟨r', by rw [hr', hr]⟩

/-- Memory, time, partitions and the arrays' work are as they were. -/
structure KeepsRest (s t : State) : Prop where
  mem : t.mem = s.mem
  now : t.now = s.now
  parts : t.parts = s.parts
  arr : ∀ a, SameRun (arrOf s a) (arrOf t a)

/-- And so are the bulkheads. -/
structure KeepsWork (s t : State) : Prop where
  kept : KeepsRest s t
  bh : ∀ b, SameBh (bhOf s b) (bhOf t b)

theorem KeepsRest.refl (s : State) : KeepsRest s s := ⟨rfl, rfl, rfl, fun _ => .refl _⟩

theorem KeepsRest.trans {s t u : State} (h : KeepsRest s t) (g : KeepsRest t u) : KeepsRest s u :=
  ⟨g.mem.trans h.mem, g.now.trans h.now, g.parts.trans h.parts, fun a => (h.arr a).trans (g.arr a)⟩

theorem KeepsWork.refl (s : State) : KeepsWork s s := ⟨.refl s, fun _ => .refl _⟩

theorem KeepsWork.trans {s t u : State} (h : KeepsWork s t) (g : KeepsWork t u) : KeepsWork s u :=
  ⟨h.kept.trans g.kept, fun b => (h.bh b).trans (g.bh b)⟩

theorem keepsWork_foldl {ι : Type} {step : State → ι → State} (h : ∀ s i, KeepsWork s (step s i)) (l : List ι)
    (s : State) : KeepsWork s (l.foldl step s) := foldl_induct .refl .trans h l s

theorem keepsWork_setArr (s : State) (p : Nat) {x : ArrayS} (h : SameRun (arrOf s p) x) :
    KeepsWork s (setArr s p x) :=
  ⟨⟨rfl, rfl, rfl, sameRun_setArr s p h⟩, fun _ => .refl _⟩

theorem keepsWork_modArr (s : State) (p : Nat) {f : ArrayS → ArrayS} (h : SameRun (arrOf s p) (f (arrOf s p))) :
    KeepsWork s (modArr s p f) := keepsWork_setArr s p h

theorem keepsRest_modBh (s : State) (b : Nat) (f : BhS → BhS) : KeepsRest s (modBh s b f) :=
  ⟨rfl, rfl, rfl, fun _ => .refl _⟩

theorem keepsWork_modBh (s : State) (b : Nat) {f : BhS → BhS} (h : SameBh (bhOf s b) (f (bhOf s b))) :
    KeepsWork s (modBh s b f) := by
  refine ⟨keepsRest_modBh s b f, fun c => ?_⟩
  by_cases hc : c = b
  · subst hc; rw [bhOf_modBh_same]; exact h
  · rw [bhOf_modBh_ne _ _ hc]; exact .refl _

/-- A change of the hub, the port, links, routers, slices or the agenda. -/
theorem keepsWork_outside (s : State) (hub : HubS) (port : PortS) (links : Tab LinkS) (routers : Tab RouterS)
    (slices : Tab SliceS) (agenda : List Turn) : KeepsWork s
      { s with hub := hub, port := port, links := links, routers := routers, slices := slices, agenda := agenda } :=
  ⟨⟨rfl, rfl, rfl, fun _ => .refl _⟩, fun _ => .refl _⟩

theorem keepsWork_hub (s : State) (hub : HubS) : KeepsWork s { s with hub := hub } :=
  keepsWork_outside s hub _ _ _ _ _

theorem keepsWork_port (s : State) (port : PortS) : KeepsWork s { s with port := port } :=
  keepsWork_outside s _ port _ _ _ _

theorem keepsWork_setLink (s : State) (l : Nat) (x : LinkS) : KeepsWork s (setLink s l x) :=
  keepsWork_outside s _ _ (tabSet s.links l x) _ _ _

-- Links (R52)

theorem keepsWork_linkDown (s : State) (l : Nat) : KeepsWork s (linkDown s l) := by
  simp only [linkDown]
  split
  · exact .refl s
  · have htraps := keepsWork_foldl (fun u (z : Nat × W64) =>
      keepsWork_modArr u z.1 (f := fun a => noteAsync a .link z.2 0x3FFF) ⟨rfl, rfl, rfl⟩)
    have hcolls (u : State) : KeepsWork u (modBh u (l / 9) (fun y =>
        { y with colls := y.colls.map (fun c => (c.1, collLose (l % 9) c.2)) })) :=
      keepsWork_modBh u _ ⟨⟨_, _, rfl⟩, fun hc => congrArg (List.map _) hc, fun q => ⟨_, rfl⟩⟩
    exact (((htraps _ s).trans (keepsWork_setLink _ l _)).trans (hcolls _)).trans (keepsWork_hub _ _)

theorem keepsWork_linksDown (s : State) (b : Nat) : KeepsWork s (linksDown s b) :=
  keepsWork_foldl (fun u i => keepsWork_linkDown u (9 * b + i)) _ s

/-- The links of each bulkhead of a list go DOWN, and the bulkhead changes. -/
def downEach (f : BhS → BhS) (bs : List Nat) (s : State) : State :=
  bs.foldl (fun s b => modBh (linksDown s b) b f) s

theorem downEach_cons (f : BhS → BhS) (b : Nat) (bs : List Nat) (s : State) :
    downEach f (b :: bs) s = downEach f bs (modBh (linksDown s b) b f) := by
  simp only [downEach, List.foldl_cons]

theorem keepsRest_downEach (f : BhS → BhS) (bs : List Nat) (s : State) : KeepsRest s (downEach f bs s) :=
  foldl_induct .refl .trans (fun u b => (keepsWork_linksDown u b).kept.trans (keepsRest_modBh _ b f)) bs s

theorem sameBh_downEach_of_notMem (f : BhS → BhS) {bs : List Nat} {b : Nat} (s : State) (h : b ∉ bs) :
    SameBh (bhOf s b) (bhOf (downEach f bs s) b) := by
  induction bs generalizing s with
  | nil => exact .refl _
  | cons c r ih =>
    obtain ⟨hbc, hbr⟩ := not_or.mp (mt List.mem_cons.mpr h)
    have hstep : SameBh (bhOf s b) (bhOf (modBh (linksDown s c) c f) b) := by
      rw [bhOf_modBh_ne _ _ hbc]
      exact (keepsWork_linksDown s c).bh b
    rw [downEach_cons]
    exact hstep.trans (ih _ hbr)

theorem sameBh_downEach_of_mem (f : BhS → BhS) {bs : List Nat} {b : Nat} (s : State) (hn : bs.Nodup) (h : b ∈ bs) :
    ∃ x, SameBh (bhOf s b) x ∧ SameBh (f x) (bhOf (downEach f bs s) b) := by
  induction bs generalizing s with
  | nil => cases h
  | cons c r ih =>
    obtain ⟨hc, hr⟩ := List.nodup_cons.mp hn
    have hlinks := (keepsWork_linksDown s c).bh b
    rw [downEach_cons]
    by_cases hbc : b = c
    · subst hbc
      refine ⟨_, hlinks, ?_⟩
      have hlater := sameBh_downEach_of_notMem f (modBh (linksDown s b) b f) hc
      rwa [bhOf_modBh_same] at hlater
    · obtain ⟨x, hx, hfx⟩ := ih (modBh (linksDown s c) c f) hr ((List.mem_cons.mp h).resolve_left hbc)
      rw [bhOf_modBh_ne _ _ hbc] at hx
      exact ⟨x, hlinks.trans hx, hfx⟩

-- Functions of the port (R40, R42)

theorem keepsWork_sendFrame (s : State) (f : Frame) : KeepsWork s (sendFrame s f) := by
  simp only [sendFrame]
  split
  · split
    · exact keepsWork_port s _
    · exact .refl s
  · exact keepsWork_port s _

theorem keepsWork_pfcUpdate (s : State) : KeepsWork s (pfcUpdate s) := by
  simp only [pfcUpdate]
  split
  · exact keepsWork_port s _
  · exact (keepsWork_port s _).trans (keepsWork_sendFrame _ _)

theorem keepsWork_modQp (s : State) (k : Nat) (f : QpS → QpS) : KeepsWork s (modQp s k f) := keepsWork_port s _

theorem keepsWork_dropRx (s : State) (k : Nat) : KeepsWork s (dropRx s k) := by
  simp only [dropRx]
  exact ((keepsWork_port s _).trans (keepsWork_modQp _ _ _)).trans (keepsWork_pfcUpdate _)

/-- A host read that ends leaves a queue all but its reply. -/
theorem keepsWork_replyFetch (s : State) (w : QpWork) (r : Option (List Byte)) : KeepsWork s (replyFetch s w r) := by
  cases w with
  | notify => exact .refl s
  | ckpt p => exact .refl s
  | fetch b q level off n =>
    simp only [replyFetch]
    split
    · refine keepsWork_modBh s b ⟨⟨_, _, rfl⟩, id, fun k => ?_⟩
      rw [tabGet_tabSet]
      split
      · subst_vars; exact ⟨_, rfl⟩
      · exact ⟨_, rfl⟩
    · exact .refl s

theorem keepsWork_failWork (s : State) (w : QpWork) : KeepsWork s (failWork s w) := by
  cases w with
  | notify => exact .refl s
  | fetch b q level off n => exact keepsWork_replyFetch s (.fetch b q level off n) none
  | ckpt p =>
    simp only [failWork]
    split
    · exact keepsWork_hub s _
    · exact .refl s

theorem keepsWork_qpError (s : State) (k : Nat) : KeepsWork s (qpError s k) := by
  have hdrop : KeepsWork s (dropTx (dropRx s k) k) := (keepsWork_dropRx s k).trans (keepsWork_port _ _)
  have hflush : KeepsWork s (flushQp s k) :=
    (hdrop.trans (keepsWork_foldl (fun u (o : Nat × RocePkt × QpWork) => keepsWork_failWork u o.2.2) _ _)).trans
      (keepsWork_modQp _ _ _)
  exact hflush.trans (keepsWork_modQp _ _ _)

theorem keepsWork_vfClear (s : State) (v : Nat) : KeepsWork s (vfClear s v) := by
  simp only [vfClear]
  split
  · exact (keepsWork_foldl keepsWork_qpError (fnQps v) s).trans (keepsWork_port _ _)
  · exact .refl s

-- Window reads that end in poison (R24)

theorem keepsWork_deliverLine (s : State) (who : Requester) (v : LineVal) (pin : Option Nat) :
    KeepsWork s (deliverLine s who v pin) := by
  obtain ⟨arrs, slices, agenda, h, harr⟩ := deliverLine_frame s who v pin
  rw [h]
  exact ⟨⟨rfl, rfl, rfl, harr⟩, fun _ => .refl _⟩

theorem keepsWork_winOnward (s : State) (b : Nat) (who : Requester) (v : LineVal) :
    KeepsWork s (winOnward s b who v) := by
  simp only [winOnward]
  split
  · exact .refl s
  · split
    · exact keepsWork_deliverLine s who v none
    · exact keepsWork_outside s _ _ _ _ _ _

-- The start of the reset sequence

/-- The windows and functions of a partition that has begun its reset are disabled (R24, R40). -/
def partitionShut (p : Nat) (s : State) : State :=
  let t := (List.range 64).foldl (fun s w =>
    if winEn s w && (winImp s w = p || winExp s w = p) then winDisable s w else s) s
  t.port.vfmap.foldl (fun s v => if vfPart s v.1 = p then vfClear s v.1 else s) t

theorem keepsWork_partitionShut (p : Nat) (s : State) : KeepsWork s (partitionShut p s) := by
  refine KeepsWork.trans (keepsWork_foldl (fun u w => ?_) _ _) (keepsWork_foldl (fun u v => ?_) _ _)
  · split
    · exact keepsWork_hub u _
    · exact .refl u
  · split
    · exact keepsWork_vfClear u v.1
    · exact .refl u

/-- Arrays and slices of some bulkheads are emptied, and what travels inside them is discarded (R19, R20). -/
def emptied (p : Nat) (bs : List Nat) (s : State) : State :=
  let clean (r : RouterS) : RouterS :=
    let f (q : Tab (List Packet)) : Tab (List Packet) := q.map (fun c => (c.1, c.2.filter (fun k => !packetOf bs k)))
    { r with ring := f r.ring, enter := f r.enter }
  { s with
    arrs := s.arrs.map (fun a => if !bs.contains (a.1 / 6) then a else (a.1, { epoch := a.2.epoch + 1 }))
    slices := s.slices.filter (fun x => !bs.contains (x.1 / 96))
    routers := s.routers.map (fun r => (r.1, clean r.2))
    hub := { s.hub with winOut := s.hub.winOut.filter (fun x => winImp s x.1 ≠ p && winExp s x.1 ≠ p)
                        ckSent := false, ckBuf := [] } }

/-- An emptied array is idle, in a new run. -/
theorem arrOf_emptied (p : Nat) (s : State) {bs : List Nat} {a : Nat} (h : a / 6 ∈ bs) :
    SameRun {} (arrOf (emptied p bs s) a) := by
  obtain hmem | hdef := tabGet_mem_or_default (emptied p bs s).arrs {} a
  · obtain ⟨c, -, hc⟩ := List.mem_map.mp hmem
    have hkey : c.1 = a := by
      have h1 := congrArg Prod.fst hc
      split at h1 <;> exact h1
    have hin : (!bs.contains (c.1 / 6)) = false := by simp [hkey, h]
    rw [hin, if_neg Bool.false_ne_true] at hc
    rw [arrOf, ← (Prod.mk.inj hc).2]
    exact ⟨rfl, rfl, rfl⟩
  · rw [arrOf, hdef]
    exact .refl _

theorem emptied_mem (p : Nat) (bs : List Nat) (s : State) : (emptied p bs s).mem = s.mem := rfl
theorem emptied_now (p : Nat) (bs : List Nat) (s : State) : (emptied p bs s).now = s.now := rfl
theorem emptied_parts (p : Nat) (bs : List Nat) (s : State) : (emptied p bs s).parts = s.parts := rfl
theorem bhOf_emptied (p : Nat) (bs : List Nat) (s : State) (b : Nat) : bhOf (emptied p bs s) b = bhOf s b := rfl

/-- Readers at other bulkheads get poison (R24). -/
def readersPoisoned (rs : List (Nat × Requester)) (s : State) : State :=
  rs.foldl (fun s x => winOnward s x.1 x.2 { bad := true }) s

theorem keepsWork_readersPoisoned (rs : List (Nat × Requester)) (s : State) : KeepsWork s (readersPoisoned rs s) :=
  keepsWork_foldl (fun u (x : Nat × Requester) => keepsWork_winOnward u x.1 x.2 { bad := true }) rs s

/-- The state in which a reset of some bulkheads leaves the package, before the partition's own record changes. -/
def resetSwept (s : State) (p : Nat) (bs : List Nat) (dest : Nat) : State :=
  let t := partitionShut p (downEach (resetBh · dest) bs s)
  readersPoisoned (winReaders t bs) (emptied p bs t)

theorem startReset_eq (s : State) (p : Nat) (bs : List Nat) (dest : Nat) : startReset s p bs dest =
    modPart (resetSwept s p bs dest) p (fun x =>
      { x with resetAt := (resetSwept s p bs dest).now, regions := [], keys := [], revoking := [], rekey := none
               rdPend := none, xfers := [], ten := false, tblNode := [] }) := rfl

section
variable (s : State) (p : Nat) (bs : List Nat) (dest : Nat)

/-- After the bulkheads themselves have changed, the sweep leaves them, memory, time and partitions alone. -/
theorem resetSwept_frame :
    (resetSwept s p bs dest).mem = s.mem ∧ (resetSwept s p bs dest).now = s.now ∧
    (resetSwept s p bs dest).parts = s.parts ∧
    (∀ b, SameBh (bhOf (downEach (resetBh · dest) bs s) b) (bhOf (resetSwept s p bs dest) b)) ∧
    ∀ a, a / 6 ∈ bs → SameRun {} (arrOf (resetSwept s p bs dest) a) := by
  have hdown := keepsRest_downEach (resetBh · dest) bs s
  unfold resetSwept
  generalize downEach (resetBh · dest) bs s = d at hdown ⊢
  have hshut := keepsWork_partitionShut p d
  generalize partitionShut p d = t at hshut ⊢
  have hread := keepsWork_readersPoisoned (winReaders t bs) (emptied p bs t)
  refine ⟨?_, ?_, ?_, fun b => ?_, fun a ha => (arrOf_emptied p t ha).trans (hread.kept.arr a)⟩
  · rw [hread.kept.mem, emptied_mem, hshut.kept.mem, hdown.mem]
  · rw [hread.kept.now, emptied_now, hshut.kept.now, hdown.now]
  · rw [hread.kept.parts, emptied_parts, hshut.kept.parts, hdown.parts]
  · have hlater := hread.bh b
    rw [bhOf_emptied] at hlater
    exact (hshut.bh b).trans hlater

theorem startReset_mem : (startReset s p bs dest).mem = s.mem := by
  rw [startReset_eq, modPart_mem, (resetSwept_frame s p bs dest).1]

theorem partOf_startReset_same : partOf (startReset s p bs dest) p =
    { partOf s p with resetAt := s.now, regions := [], keys := [], revoking := [], rekey := none
                      rdPend := none, xfers := [], ten := false, tblNode := [] } := by
  obtain ⟨-, hnow, hparts, -, -⟩ := resetSwept_frame s p bs dest
  have hpart : partOf (resetSwept s p bs dest) p = partOf s p := by rw [partOf, hparts, ← partOf]
  rw [startReset_eq, partOf_modPart_same, hnow, hpart]

theorem arrOf_startReset {a : Nat} (h : a / 6 ∈ bs) : SameRun {} (arrOf (startReset s p bs dest) a) := by
  obtain ⟨-, -, -, -, harr⟩ := resetSwept_frame s p bs dest
  rw [startReset_eq, arrOf_modPart]
  exact harr a h
end

/-- A queue that a reset has emptied (R20, R90). -/
theorem tabGet_cleanQueues (x : BhS) (st : QState) {q : Nat} (h : q < 16) :
    tabGet (cleanQueues x st) {} q =
      { en := (tabGet x.queues {} q).en, vf := (tabGet x.queues {} q).vf, nqp := (tabGet x.queues {} q).nqp
        st := st } := by
  rw [cleanQueues, tabGet_map_index, if_pos (List.mem_range.mpr h)]

/-- The bulkhead `y` is the bulkhead `x` after its reset has begun towards `dest` (R16, R17, R19, R20). -/
def BhResetBegun (x y : BhS) (dest : Nat) : Prop :=
  y.st = .reset ∧ y.dest = dest ∧ y.gen = nextGen x.gen ∧ y.sems = [] ∧ y.nodes = [] ∧ y.colls = [] ∧
    ∀ q < 16, (tabGet y.queues {} q).st = .halted ∧ (tabGet y.queues {} q).pend = [] ∧
      (tabGet y.queues {} q).levels = [] ∧ (tabGet y.queues {} q).en = (tabGet x.queues {} q).en ∧
      (tabGet y.queues {} q).vf = (tabGet x.queues {} q).vf

theorem bhResetBegun_of_sameBh {x x' y : BhS} {dest : Nat} (h : SameBh x x') (g : SameBh (resetBh x' dest) y) :
    BhResetBegun x y dest := by
  obtain ⟨⟨qs, cs, rfl⟩, -, hqueue⟩ := h
  obtain ⟨⟨qs', cs', rfl⟩, gcolls, gqueue⟩ := g
  refine ⟨rfl, rfl, rfl, rfl, rfl, gcolls rfl, fun q hq => ?_⟩
  obtain ⟨r, hr⟩ := hqueue q
  obtain ⟨r', hr'⟩ := gqueue q
  rw [hr', resetBh, tabGet_cleanQueues _ _ hq, hr]
  exact ⟨rfl, rfl, rfl, rfl, rfl⟩

theorem bhOf_startReset {s : State} (p dest : Nat) {bs : List Nat} (hn : bs.Nodup) {b : Nat} (h : b ∈ bs) :
    BhResetBegun (bhOf s b) (bhOf (startReset s p bs dest) b) dest := by
  obtain ⟨x, hx, hy⟩ := sameBh_downEach_of_mem (resetBh · dest) s hn h
  obtain ⟨-, -, -, hbh, -⟩ := resetSwept_frame s p bs dest
  rw [startReset_eq, bhOf_modPart]
  exact bhResetBegun_of_sameBh hx (hy.trans (hbh b))

theorem nodup_partBhs (s : State) (p : Nat) : (partBhs s p).Nodup :=
  List.nodup_range.map (fun _ _ h => Nat.add_left_cancel h)

/-- A change of the partition's record that leaves its descriptors, its keys and the ac of its reset. -/
theorem ResetBegun.modPart {s t : State} {p dest : Nat} (h : ResetBegun s t p dest) {f : PartS → PartS}
    (hr : (f (partOf t p)).regions = (partOf t p).regions) (hk : (f (partOf t p)).keys = (partOf t p).keys)
    (ha : (f (partOf t p)).resetAt = (partOf t p).resetAt) : ResetBegun s (modPart t p f) p dest := by
  obtain ⟨hbh, harr, hregions, hkeys, hat, hmem⟩ := h
  refine ⟨hbh, harr, ?_, ?_, ?_, hmem⟩ <;> rw [partOf_modPart_same]
  · exact hr.trans hregions
  · exact hk.trans hkeys
  · exact ha.trans hat

theorem resetPart_of_whole {s : State} {p : Nat} (dest : Nat)
    (h : ∀ b ∈ partBhs s p, inPart s p [.assigned] b = true) :
    resetPart s p dest = startReset s p (partBhs s p) dest := by
  rw [resetPart, List.filter_eq_self.mpr h]

/-- A reset of a partition whose bulkheads are all ASSIGNED begins the sequence in each of them (R19, R20). -/
theorem resetBegun_resetPart {s : State} {p : Nat} (dest : Nat)
    (h : ∀ b ∈ partBhs s p, inPart s p [.assigned] b = true) : ResetBegun s (resetPart s p dest) p dest := by
  rw [resetPart_of_whole dest h]
  have hpart := partOf_startReset_same s p (partBhs s p) dest
  refine ⟨fun b hb => bhOf_startReset p dest (nodup_partBhs s p) hb, fun a ha => ?_, by rw [hpart], by rw [hpart],
    by rw [hpart], startReset_mem s p _ dest⟩
  have hidle := arrOf_startReset s p _ dest ha
  exact ⟨hidle.cond, hidle.node, hidle.eg⟩

end Sys2Proof.Machine

namespace Sys2Proof.Machine
open Sys2Proof

/-! CREATE, RESET and DISSOLVE of a partition (R15 to R20, R26, R27, R141). -/

-- Which bulkheads and which partitions

theorem mem_ownIn (s : State) (p : Nat) (sts : List BhState) (b : Nat) : b ∈ ownIn s p sts ↔
    b < 16 ∧ ((bhOf s b).own = true ∧ (bhOf s b).part = p) ∧ (bhOf s b).st ∈ sts := by
  simp [ownIn, inPart]

theorem nodup_ownIn (s : State) (p : Nat) (sts : List BhState) : (ownIn s p sts).Nodup :=
  List.nodup_range.filter _

/-- A bulkhead of a partition is in RESET or SCRUB (R26). -/
def Changing (s : State) (p b : Nat) : Prop :=
  ((bhOf s b).own = true ∧ (bhOf s b).part = p) ∧ ((bhOf s b).st = .reset ∨ (bhOf s b).st = .scrub)

/-- PTCFG.BUSY is 0 (R26, R27). -/
def PartQuiet (s : State) (p : Nat) : Prop := (partOf s p).creating = false ∧ ∀ b < 16, ¬ Changing s p b

/-- The bulkheads of a partition are ASSIGNED to it. -/
def PartWhole (s : State) (p : Nat) : Prop :=
  ∀ b ∈ partBhs s p, (bhOf s b).st = .assigned ∧ (bhOf s b).own = true ∧ (bhOf s b).part = p

theorem mem_ownIn_changing (s : State) (p b : Nat) :
    b ∈ ownIn s p [.reset, .scrub] ↔ b < 16 ∧ Changing s p b := by
  simp [mem_ownIn, Changing]

theorem partBusy_eq_false_iff (s : State) (p : Nat) : partBusy s p = false ↔ PartQuiet s p := by
  simp [partBusy, PartQuiet, List.eq_nil_iff_forall_not_mem, mem_ownIn_changing]

theorem assigned_iff (s : State) (p : Nat) : assigned s p = true ↔
    (partOf s p).live = true ∧ ∀ b ∈ partBhs s p, (bhOf s b).st = .assigned ∧ (bhOf s b).part = p := by
  simp [assigned]

theorem PartWhole.assigned {s : State} {p : Nat} (h : PartWhole s p) (hl : (partOf s p).live = true) :
    assigned s p = true :=
  (assigned_iff s p).mpr ⟨hl, fun b hb => ⟨(h b hb).1, (h b hb).2.2⟩⟩

theorem assigned_eq_false_of {s : State} {p : Nat}
    (h : (partOf s p).live = false ∨ ∃ b ∈ partBhs s p, (bhOf s b).st ≠ .assigned) : assigned s p = false := by
  rw [← Bool.not_eq_true, assigned_iff]
  rintro ⟨hlive, hall⟩
  obtain hdead | ⟨b, hb, hst⟩ := h
  · simp [hdead] at hlive
  · exact hst (hall b hb).1

theorem PartWhole.resetBegun {s : State} {p : Nat} (h : PartWhole s p) (dest : Nat) :
    ResetBegun s (resetPart s p dest) p dest := by
  refine resetBegun_resetPart dest fun b hb => ?_
  obtain ⟨hst, hown, hpart⟩ := h b hb
  simp [inPart, hst, hown, hpart]

section
variable {s t : State} {p dest : Nat} (h : ResetBegun s t p dest)
include h

theorem ResetBegun.ptErr (e : Nat) : ResetBegun s (ptErr t p e) p dest := h.modPart rfl rfl rfl

theorem ResetBegun.escalated (at_ : Option Nat) :
    ResetBegun s (Machine.modPart t p (fun x => { x with escAt := at_ })) p dest := h.modPart rfl rfl rfl

theorem ResetBegun.dissolved : ResetBegun s (Machine.modPart t p (fun x => { x with live := false })) p dest :=
  h.modPart rfl rfl rfl
end

theorem partOf_ptErr_err (s : State) (p e : Nat) : (partOf (ptErr s p e) p).err = e := by
  rw [ptErr, partOf_modPart_same]

theorem partOf_dissolved (s : State) (p e : Nat) :
    (partOf (modPart (ptErr s p e) p (fun x => { x with live := false })) p).err = e ∧
    (partOf (modPart (ptErr s p e) p (fun x => { x with live := false })) p).live = false := by
  rw [partOf_modPart_same]
  exact ⟨partOf_ptErr_err s p e, rfl⟩

theorem self_mem_partBhs (s : State) (p : Nat) : p ∈ partBhs s p :=
  List.mem_map.mpr ⟨0, List.mem_range.mpr (Nat.two_pow_pos _), rfl⟩

-- PARTITION_CREATE (R15, R27)

/-- No accepted create that still waits for its generations includes a bulkhead. -/
theorem creatingOf_eq_none_iff (s : State) (b : Nat) : creatingOf s b = none ↔
    ∀ q ∈ s.parts, q.2.creating = true → b < q.1 ∨ q.1 + 2 ^ q.2.size ≤ b := by
  simp only [creatingOf, Option.map_eq_none_iff, List.find?_eq_none]
  refine forall₂_congr fun q _ => ?_
  by_cases hc : q.2.creating = true
  · simp [hc]; omega
  · simp [hc]

/-- The record of a partition that is not creating, before and after a write, tells nothing about creates. -/
theorem creatingOf_setPart_eq_none_iff (s : State) (p b : Nat) {x : PartS} (h : (partOf s p).creating = false)
    (hx : x.creating = false) : creatingOf (setPart s p x) b = none ↔ creatingOf s b = none := by
  rw [creatingOf_eq_none_iff, creatingOf_eq_none_iff]
  constructor
  · intro hall q hq hc
    obtain hin | rfl := mem_tabSet_of_mem (k := p) (v := x) (d := ({} : PartS)) hq
    · exact hall q hin hc
    · rw [partOf] at h
      simp [h] at hc
  · intro hall q hq hc
    obtain rfl | hin := mem_of_mem_tabSet hq
    · simp [hx] at hc
    · exact hall q hin hc

theorem modPart_setPart (s : State) (p : Nat) (x : PartS) (f : PartS → PartS) :
    modPart (setPart s p x) p f = setPart s p (f x) := by
  rw [modPart, partOf_setPart_same, setPart_setPart]

/-- The bulkheads that a create of a size names are FREE, and no other create includes them (R27). -/
def CreateFree (s : State) (p z : Nat) : Prop :=
  ∀ b ∈ (List.range (2 ^ z)).map (fun i => p + i), (bhOf s b).st = .free ∧
    ∀ q ∈ s.parts, q.2.creating = true → b < q.1 ∨ q.1 + 2 ^ q.2.size ≤ b

theorem ptErr_modPart (s : State) (p e : Nat) (f : PartS → PartS) :
    ptErr (modPart s p f) p e = setPart s p { f (partOf s p) with err := e } := modPart_modPart s p f _

section
variable (s : State) (size : BitVec 3)

theorem exec_partitionCreate_of_creating (h : (partOf s s.cur.part).creating = true) :
    exec (.partitionCreate size) s =
      .next (setPart s s.cur.part { partOf s s.cur.part with sizeReg := size.toNat, err := 4 }) :=
  congrArg Host.Outcome.next ((if_pos h).trans (ptErr_modPart ..))

variable (h : (partOf s s.cur.part).creating = false)
include h

theorem exec_partitionCreate_of_misplaced (hz : 4 < size.toNat ∨ s.cur.part % 2 ^ size.toNat ≠ 0) :
    exec (.partitionCreate size) s =
      .next (setPart s s.cur.part { partOf s s.cur.part with sizeReg := size.toNat, err := 1 }) :=
  congrArg Host.Outcome.next ((if_neg (Bool.eq_false_iff.mp h)).trans
    ((if_pos (by simpa using hz)).trans (ptErr_modPart ..)))

/-- The check of the bulkheads is made after SIZE has been written, which does not touch it. -/
theorem createFree_iff (z : Nat) : (((List.range (2 ^ z)).map (fun i => s.cur.part + i)).all (fun b =>
      (bhOf (modPart s s.cur.part (fun x => { x with sizeReg := z })) b).st == .free &&
        (creatingOf (modPart s s.cur.part (fun x => { x with sizeReg := z })) b).isNone)) = true ↔
    CreateFree s s.cur.part z := by
  simp only [List.all_eq_true, Bool.and_eq_true, beq_iff_eq, Option.isNone_iff_eq_none, bhOf_modPart]
  refine forall₂_congr fun b _ => and_congr_right fun _ => ?_
  rw [modPart, creatingOf_setPart_eq_none_iff s _ b (x := { partOf s s.cur.part with sizeReg := z }) h h,
    creatingOf_eq_none_iff]

variable (hz : size.toNat ≤ 4) (hp : s.cur.part % 2 ^ size.toNat = 0)
include hz hp

theorem exec_partitionCreate_of_placed : exec (.partitionCreate size) s = .next (
    let u := modPart s s.cur.part (fun x => { x with sizeReg := size.toNat })
    if !((List.range (2 ^ size.toNat)).map (fun i => s.cur.part + i)).all (fun b =>
      (bhOf u b).st == .free && (creatingOf u b).isNone) then ptErr u s.cur.part 2
    else modPart (ptErr u s.cur.part 0) s.cur.part (fun x =>
      { x with creating := true, live := false, size := size.toNat })) :=
  congrArg Host.Outcome.next ((if_neg (Bool.eq_false_iff.mp h)).trans (if_neg (by simp [hz, hp])))

theorem exec_partitionCreate_of_taken (hf : ¬ CreateFree s s.cur.part size.toNat) : exec (.partitionCreate size) s =
    .next (setPart s s.cur.part { partOf s s.cur.part with sizeReg := size.toNat, err := 2 }) := by
  rw [← createFree_iff s h, Bool.not_eq_true] at hf
  rw [exec_partitionCreate_of_placed s size h hz hp]
  exact congrArg Host.Outcome.next ((if_pos (by rw [hf]; rfl)).trans (ptErr_modPart ..))

theorem exec_partitionCreate_of_free (hf : CreateFree s s.cur.part size.toNat) : exec (.partitionCreate size) s =
    .next (setPart s s.cur.part { partOf s s.cur.part with
      sizeReg := size.toNat, err := 0, creating := true, live := false, size := size.toNat }) := by
  rw [← createFree_iff s h] at hf
  rw [exec_partitionCreate_of_placed s size h hz hp]
  refine congrArg Host.Outcome.next ((if_neg (by rw [hf]; decide)).trans ?_)
  rw [ptErr_modPart, modPart_setPart]
end

-- GENERATION_ACKNOWLEDGE (R17, R27)

/-- The controller of a stack takes the generations that the gates hold already. -/
def gensStored (k : Nat) (bs : List Nat) (s : State) : State :=
  bs.foldl (fun s b =>
    if tabGet s.hub.gateGens 1 b = targetGen s b then
      modStack s k (fun x => { x with gens := tabSet x.gens b (targetGen s b) })
    else s) s

theorem gensStored_frame (k : Nat) (bs : List Nat) (s : State) : ∃ stks, gensStored k bs s = { s with stks := stks } ∧
    (∀ j ≠ k, tabGet stks {} j = stackOf s j) ∧
    ∀ b, tabGet s.hub.gateGens 1 b = targetGen s b →
      b ∈ bs ∨ tabGet (stackOf s k).gens 1 b = targetGen s b →
      tabGet (tabGet stks {} k).gens 1 b = targetGen s b := by
  induction bs generalizing s with
  | nil =>
    exact ⟨s.stks, rfl, fun j _ => rfl, fun b _ hb => hb.resolve_left List.not_mem_nil⟩
  | cons c r ih =>
    simp only [gensStored, List.foldl_cons]
    split
    next hc =>
      obtain ⟨stks, heq, hne, hsame⟩ := ih (modStack s k (fun x => { x with gens := tabSet x.gens c (targetGen s c) }))
      refine ⟨stks, heq, fun j hj => (hne j hj).trans (stackOf_modStack_ne s _ hj), fun b hb hor => ?_⟩
      refine hsame b hb ?_
      rw [stackOf_modStack_same, tabGet_tabSet]
      by_cases hbc : b = c
      · subst hbc; exact .inr (if_pos rfl)
      · rw [if_neg hbc]
        exact hor.imp_left (fun hm => (List.mem_cons.mp hm).resolve_left hbc)
    next hc =>
      obtain ⟨stks, heq, hne, hsame⟩ := ih s
      refine ⟨stks, heq, hne, fun b hb hor => hsame b hb (hor.imp_left fun hm => ?_)⟩
      exact (List.mem_cons.mp hm).resolve_left (fun hbc => hc (hbc ▸ hb))

/-- The gates, or the controller of a stack, apply the generations. -/
def gensHeld (s : State) : State :=
  if 8 ≤ s.cur.stack then
    { s with hub := { s.hub with gateGens := (List.range 16).map (fun b => (b, targetGen s b)) } }
  else gensStored s.cur.stack (List.range 16) s

/-- A create whose generations are applied everywhere is complete. -/
def createTurn (s : State) (p : Nat) : State :=
  if (partOf s p).creating && gensApplied s (partBhs s p) then finishCreate s p else s

theorem exec_generationAcknowledge (s : State) :
    exec .generationAcknowledge s = .next ((List.range 16).foldl createTurn (gensHeld s)) := rfl

theorem createTurn_of_idle {s : State} {p : Nat} (h : (partOf s p).creating = false) : createTurn s p = s := by
  simp [createTurn, h]

theorem gensHeld_of_gates {s : State} (h : 8 ≤ s.cur.stack) : gensHeld s =
    { s with hub := { s.hub with gateGens := (List.range 16).map (fun b => (b, targetGen s b)) } } := if_pos h

theorem gensHeld_frame (s : State) : ∃ gates stks,
    gensHeld s = { s with stks := stks, hub := { s.hub with gateGens := gates } } := by
  unfold gensHeld
  split
  · exact ⟨_, s.stks, rfl⟩
  · obtain ⟨stks, h, -, -⟩ := gensStored_frame s.cur.stack (List.range 16) s
    exact ⟨s.hub.gateGens, stks, h⟩

section
variable (s : State)

theorem targetGen_gensHeld (b : Nat) : targetGen (gensHeld s) b = targetGen s b := by
  obtain ⟨gates, stks, h⟩ := gensHeld_frame s
  rw [h]; rfl

theorem bhs_gensHeld : (gensHeld s).bhs = s.bhs := by
  obtain ⟨gates, stks, h⟩ := gensHeld_frame s
  rw [h]

theorem parts_gensHeld : (gensHeld s).parts = s.parts := by
  obtain ⟨gates, stks, h⟩ := gensHeld_frame s
  rw [h]

theorem mem_gensHeld : (gensHeld s).mem = s.mem := by
  obtain ⟨gates, stks, h⟩ := gensHeld_frame s
  rw [h]

theorem bhOf_gensHeld (b : Nat) : bhOf (gensHeld s) b = bhOf s b := by rw [bhOf, bhs_gensHeld, ← bhOf]

theorem partOf_gensHeld (p : Nat) : partOf (gensHeld s) p = partOf s p := by rw [partOf, parts_gensHeld, ← partOf]

theorem partBhs_gensHeld (p : Nat) : partBhs (gensHeld s) p = partBhs s p := by
  rw [partBhs, partSize, partOf_gensHeld, ← partSize, ← partBhs]

/-- A bulkhead of a create that waits is to hold its next generation (R17). -/
theorem targetGen_of_creating {p b : Nat} (h : (partOf s p).creating = true) (hb : b ∈ partBhs s p) :
    targetGen s b = nextGen (bhOf s b).gen := by
  have hlisted : (p, partOf s p) ∈ s.parts := by
    refine (tabGet_mem_or_default s.parts {} p).resolve_right fun hdef => ?_
    rw [partOf, hdef] at h
    cases h
  have hsome : creatingOf s b ≠ none := by
    intro hnone
    obtain ⟨i, hi, rfl⟩ := List.mem_map.mp hb
    have hi' : i < 2 ^ (partOf s p).size := List.mem_range.mp hi
    have hout := (creatingOf_eq_none_iff s _).mp hnone _ hlisted h
    dsimp only at hout
    omega
  rw [targetGen, if_pos (Option.isSome_iff_ne_none.mpr hsome)]

theorem targetGen_of_none {b : Nat} (h : creatingOf s b = none) : targetGen s b = (bhOf s b).gen := by
  simp [targetGen, h]

/-- Once the gates and all other controllers hold them, the acknowledged generations are held everywhere. -/
theorem gensApplied_gensHeld {bs : List Nat} (hbs : ∀ b ∈ bs, b < 16)
    (hgate : 8 ≤ s.cur.stack ∨ ∀ b ∈ bs, tabGet s.hub.gateGens 1 b = targetGen s b)
    (hstack : ∀ b ∈ bs, ∀ j < 8, j ≠ s.cur.stack → tabGet (stackOf s j).gens 1 b = targetGen s b) :
    gensApplied (gensHeld s) bs = true := by
  simp only [gensApplied, List.all_eq_true, Bool.and_eq_true, beq_iff_eq, List.mem_range, targetGen_gensHeld]
  intro b hb
  by_cases hk : 8 ≤ s.cur.stack
  · rw [gensHeld_of_gates hk]
    refine ⟨?_, fun j hj => hstack b hb j hj (by omega)⟩
    rw [tabGet_map_index, if_pos (List.mem_range.mpr (hbs b hb))]
  · obtain ⟨stks, heq, hne, hsame⟩ := gensStored_frame s.cur.stack (List.range 16) s
    have hheld : gensHeld s = { s with stks := stks } := (if_neg hk).trans heq
    have hg := hgate.resolve_left hk b hb
    rw [hheld]
    refine ⟨hg, fun j hj => ?_⟩
    by_cases hjk : j = s.cur.stack
    · rw [hjk]
      exact hsame b hg (.inl (List.mem_range.mpr (hbs b hb)))
    · show tabGet (tabGet stks {} j).gens 1 b = _
      rw [hne j hjk]
      exact hstack b hb j hj hjk
end

-- The end of a create (R27)

/-- A bulkhead of a partition that has been created (R16, R20, R27). -/
def bhCreated (p : Nat) (x : BhS) : BhS :=
  { x with st := .assigned, gen := nextGen x.gen, dest := 0, part := p, own := true, sems := []
           queues := cleanQueues x .idle }

theorem finishCreate_of_taken {s : State} {p : Nat} (h : ∃ b ∈ partBhs s p, (bhOf s b).st ≠ .free) :
    finishCreate s p = modPart s p (fun x => { x with creating := false, err := 2 }) := by
  obtain ⟨b, hb, hst⟩ := h
  have hall : ((partBhs s p).all (fun b => (bhOf s b).st == .free)) = false := by
    rw [List.all_eq_false]
    exact ⟨b, hb, by simpa using hst⟩
  simp only [finishCreate, hall, Bool.not_false, if_true]

theorem finishCreate_of_free {s : State} {p : Nat} (h : ∀ b ∈ partBhs s p, (bhOf s b).st = .free) :
    ∃ now, finishCreate s p = modPart (downEach (bhCreated p) (partBhs s p) s) p (fun x =>
      { x with creating := false, live := true, keys := firstKeys, regions := [], since := now, refills := 0 }) := by
  have hall : ((partBhs s p).all (fun b => (bhOf s b).st == .free)) = true := by
    rw [List.all_eq_true]
    exact fun b hb => by simp [h b hb]
  simp only [finishCreate, hall, Bool.not_true, Bool.false_eq_true, if_false]
  exact ⟨_, rfl⟩

/-- A create that ends touches the record of its own partition alone, and no memory (R27). -/
theorem finishCreate_frame (s : State) (p : Nat) : (finishCreate s p).mem = s.mem ∧
    (partOf (finishCreate s p) p).creating = false ∧ ∀ q ≠ p, partOf (finishCreate s p) q = partOf s q := by
  by_cases h : ∀ b ∈ partBhs s p, (bhOf s b).st = .free
  · obtain ⟨now, heq⟩ := finishCreate_of_free h
    have hdown := keepsRest_downEach (bhCreated p) (partBhs s p) s
    rw [heq, modPart_mem, hdown.mem, partOf_modPart_same]
    refine ⟨rfl, rfl, fun q hq => ?_⟩
    rw [partOf_modPart_ne _ _ hq, partOf, hdown.parts, ← partOf]
  · push Not at h
    rw [finishCreate_of_taken h, partOf_modPart_same]
    exact ⟨rfl, rfl, fun q hq => partOf_modPart_ne s _ hq⟩

/-- The bulkheads of a create that ends well are ASSIGNED under their next generations (R16, R17, R27). -/
theorem bhOf_finishCreate {s : State} {p b : Nat} (h : ∀ b ∈ partBhs s p, (bhOf s b).st = .free)
    (hb : b ∈ partBhs s p) :
    (bhOf (finishCreate s p) b).st = .assigned ∧ (bhOf (finishCreate s p) b).gen = nextGen (bhOf s b).gen ∧
      (bhOf (finishCreate s p) b).part = p ∧ (bhOf (finishCreate s p) b).own = true := by
  obtain ⟨now, heq⟩ := finishCreate_of_free h
  obtain ⟨x, ⟨⟨_, _, hx⟩, -, -⟩, ⟨⟨_, _, hy⟩, -, -⟩⟩ :=
    sameBh_downEach_of_mem (bhCreated p) s (nodup_partBhs s p) hb
  rw [heq, bhOf_modPart, hy, hx]
  exact ⟨rfl, rfl, rfl, rfl⟩

/-- The acknowledgement that completes the one create that waits (R27). -/
theorem exec_generationAcknowledge_of_last {s : State} {p : Nat} (hp : p < 16) (hc : (partOf s p).creating = true)
    (hq : ∀ q, q ≠ p → (partOf s q).creating = false)
    (happ : gensApplied (gensHeld s) (partBhs s p) = true) :
    exec .generationAcknowledge s = .next (finishCreate (gensHeld s) p) := by
  obtain ⟨-, -, hothers⟩ := finishCreate_frame (gensHeld s) p
  rw [exec_generationAcknowledge]
  refine congrArg Host.Outcome.next (foldl_of_only List.nodup_range (List.mem_range.mpr hp) (fun q _ hne => ?_) ?_
    (fun q _ hne => ?_))
  · exact createTurn_of_idle (by rw [partOf_gensHeld]; exact hq q hne)
  · rw [createTurn, partOf_gensHeld, partBhs_gensHeld, hc, happ]
    rfl
  · exact createTurn_of_idle (by rw [hothers q hne, partOf_gensHeld]; exact hq q hne)

theorem exec_generationAcknowledge_of_idle {s : State} (h : ∀ q < 16, (partOf s q).creating = false) :
    exec .generationAcknowledge s = .next (gensHeld s) := by
  rw [exec_generationAcknowledge]
  refine congrArg Host.Outcome.next (foldl_of_fixed fun q hq => ?_)
  exact createTurn_of_idle (by rw [partOf_gensHeld]; exact h q (List.mem_range.mp hq))

-- RESET and DISSOLVE (R19, R27, R141)

theorem exec_partitionReset_of_joined {s : State} (he : (partOf s s.cur.part).escAt = some s.now)
    (hc : (partOf s s.cur.part).creating = false) : exec .partitionReset s = .next (ptErr s s.cur.part 0) := by
  show execPartitionReset s = _
  simp [execPartitionReset, he, hc]

section
variable {s : State} (he : (partOf s s.cur.part).escAt ≠ some s.now)
include he

theorem exec_partitionReset_of_busy (hq : ¬ PartQuiet s s.cur.part) :
    exec .partitionReset s = .next (ptErr s s.cur.part 4) := by
  rw [← partBusy_eq_false_iff, Bool.not_eq_false] at hq
  show execPartitionReset s = _
  simp [execPartitionReset, he, hq]

theorem exec_partitionReset_of_quiet (hq : PartQuiet s s.cur.part) : exec .partitionReset s = .next
    (if assigned s s.cur.part then ptErr (resetPart s s.cur.part 5) s.cur.part 0 else ptErr s s.cur.part 3) := by
  rw [← partBusy_eq_false_iff] at hq
  show execPartitionReset s = _
  cases ha : assigned s s.cur.part <;> simp [execPartitionReset, he, hq, ha]
end

theorem exec_bcpEscalationReset (s : State) : exec .bcpEscalationReset s = .next
    (if assigned s s.cur.part then
      modPart (resetPart s s.cur.part 5) s.cur.part (fun x => { x with escAt := some s.now })
    else s) := by
  show execBcpEscalationReset s = _
  cases ha : assigned s s.cur.part <;> simp [execBcpEscalationReset, ha]

theorem exec_partitionDissolve_of_creating {s : State} (h : (partOf s s.cur.part).creating = true) :
    exec .partitionDissolve s = .next (ptErr s s.cur.part 4) := congrArg Host.Outcome.next (if_pos h)

/-- Bulkheads of a list change, each on its own. -/
def modEach (f : BhS → BhS) (bs : List Nat) (s : State) : State := bs.foldl (fun s b => modBh s b f) s

theorem modEach_frame (f : BhS → BhS) (bs : List Nat) (s : State) :
    (modEach f bs s).mem = s.mem ∧ (modEach f bs s).parts = s.parts :=
  foldl_induct (R := fun s t : State => t.mem = s.mem ∧ t.parts = s.parts) (fun _ => ⟨rfl, rfl⟩)
    (fun h g => ⟨g.1.trans h.1, g.2.trans h.2⟩) (fun s b => ⟨modBh_mem s b f, modBh_parts s b f⟩) bs s

theorem bhOf_modEach (f : BhS → BhS) {bs : List Nat} (hn : bs.Nodup) (s : State) (b : Nat) :
    bhOf (modEach f bs s) b = if b ∈ bs then f (bhOf s b) else bhOf s b := by
  induction bs generalizing s with
  | nil => rfl
  | cons c r ih =>
    obtain ⟨hc, hr⟩ := List.nodup_cons.mp hn
    have hstep : bhOf (modEach f (c :: r) s) b = if b ∈ r then f (bhOf (modBh s c f) b) else bhOf (modBh s c f) b :=
      ih hr (modBh s c f)
    by_cases hbc : b = c
    · subst hbc
      rw [hstep, if_neg hc, if_pos List.mem_cons_self, bhOf_modBh_same]
    · rw [hstep, bhOf_modBh_ne _ _ hbc]
      simp [hbc]

section
variable {s : State} (hc : (partOf s s.cur.part).creating = false)
include hc

theorem exec_partitionDissolve_of_none (h : ∀ b, b ∉ ownIn s s.cur.part [.assigned, .reset, .scrub]) :
    exec .partitionDissolve s = .next (ptErr s s.cur.part 3) := by
  have hnil := List.eq_nil_iff_forall_not_mem.mpr h
  show execPartitionDissolve s = _
  simp [execPartitionDissolve, hc, hnil]

/-- DISSOLVE during RESET or SCRUB only changes the destination (R16, R27; log entry 24). -/
theorem exec_partitionDissolve_of_busy (hq : ¬ PartQuiet s s.cur.part) : exec .partitionDissolve s = .next
    (ptErr (modEach (fun x => { x with dest := 4 }) (ownIn s s.cur.part [.reset, .scrub]) s) s.cur.part 0) := by
  have hsome : ∃ b < 16, Changing s s.cur.part b := by
    by_contra hnone
    exact hq ⟨hc, fun b hb hch => hnone ⟨b, hb, hch⟩⟩
  obtain ⟨b, hb, hown, hst⟩ := hsome
  have hmem : b ∈ ownIn s s.cur.part [.assigned, .reset, .scrub] :=
    (mem_ownIn ..).mpr ⟨hb, hown, by simp [hst]⟩
  have hne : (ownIn s s.cur.part [.assigned, .reset, .scrub]).isEmpty = false :=
    List.isEmpty_eq_false_iff.mpr (List.ne_nil_of_mem hmem)
  rw [← partBusy_eq_false_iff, Bool.not_eq_false] at hq
  show execPartitionDissolve s = _
  simp only [execPartitionDissolve, hc, hne, hq, Bool.false_eq_true, if_false, if_true]
  rfl

theorem exec_partitionDissolve_of_whole (hp : s.cur.part < 16) (hq : PartQuiet s s.cur.part)
    (hw : PartWhole s s.cur.part) : exec .partitionDissolve s = .next
      (modPart (ptErr (resetPart s s.cur.part 4) s.cur.part 0) s.cur.part (fun x => { x with live := false })) := by
  obtain ⟨hst, hown⟩ := hw _ (self_mem_partBhs s s.cur.part)
  have hmem : s.cur.part ∈ ownIn s s.cur.part [.assigned, .reset, .scrub] :=
    (mem_ownIn ..).mpr ⟨hp, hown, by simp [hst]⟩
  have hne : (ownIn s s.cur.part [.assigned, .reset, .scrub]).isEmpty = false :=
    List.isEmpty_eq_false_iff.mpr (List.ne_nil_of_mem hmem)
  rw [← partBusy_eq_false_iff] at hq
  show execPartitionDissolve s = _
  simp only [execPartitionDissolve, hc, hne, hq, Bool.false_eq_true, if_false]
end

-- The end of the reset sequence (R16 to R19)

/-- Bulkheads of a list enter SCRUB towards the destination they have (R21). -/
def scrubEach (bs : List Nat) (s : State) : State :=
  bs.foldl (fun s b => startScrub (zeroTree s b) b (bhOf s b).dest (bhOf s b).scrmode) s

theorem scrubEach_cons (b : Nat) (bs : List Nat) (s : State) : scrubEach (b :: bs) s =
    scrubEach bs (startScrub (zeroTree s b) b (bhOf s b).dest (bhOf s b).scrmode) := by
  simp only [scrubEach, List.foldl_cons]

theorem bhOf_zeroTree (s : State) (b c : Nat) : bhOf (zeroTree s b) c = bhOf s c := rfl

theorem scrubEach_mem (bs : List Nat) (s : State) : (scrubEach bs s).mem = s.mem :=
  foldl_induct (R := fun s t : State => t.mem = s.mem) (fun _ => rfl) (fun h g => g.trans h)
    (fun s b => startScrub_mem (zeroTree s b) b (bhOf s b).dest (bhOf s b).scrmode) bs s

theorem bhOf_scrubEach_of_notMem {bs : List Nat} {b : Nat} (s : State) (h : b ∉ bs) :
    bhOf (scrubEach bs s) b = bhOf s b := by
  induction bs generalizing s with
  | nil => rfl
  | cons c r ih =>
    obtain ⟨hbc, hbr⟩ := not_or.mp (mt List.mem_cons.mpr h)
    rw [scrubEach_cons, ih _ hbr, bhOf_startScrub_ne _ _ _ _ hbc, bhOf_zeroTree]

theorem granOf_scrubEach_of_zero (bs : List Nat) {b g : Nat} (s : State) (h : granOf s b g = 0) :
    granOf (scrubEach bs s) b g = 0 := by
  induction bs generalizing s with
  | nil => exact h
  | cons c r ih =>
    rw [scrubEach_cons]
    exact ih _ (granOf_startScrub_of_zero _ _ _ _ h)

/-- The bulkhead `y` is the bulkhead `x` after it has entered SCRUB (R21, R22). -/
def ScrubBegun (x y : BhS) : Prop := y.st = .scrub ∧ y.dest = x.dest ∧ y.scrHost = x.scrmode ∧ y.scrDone = 0

theorem scrubBegun_scrubEach {bs : List Nat} {b : Nat} (s : State) (hn : bs.Nodup) (h : b ∈ bs) :
    ScrubBegun (bhOf s b) (bhOf (scrubEach bs s) b) ∧ ∀ g < bhGrans, granOf (scrubEach bs s) b g = 0 := by
  induction bs generalizing s with
  | nil => cases h
  | cons c r ih =>
    obtain ⟨hc, hr⟩ := List.nodup_cons.mp hn
    rw [scrubEach_cons]
    by_cases hbc : b = c
    · subst hbc
      rw [bhOf_scrubEach_of_notMem _ hc, bhOf_startScrub_same]
      exact ⟨⟨rfl, rfl, rfl, rfl⟩, fun g hg => granOf_scrubEach_of_zero r _ (granOf_startScrub_same _ _ _ _ hg)⟩
    · have hlater := ih (startScrub (zeroTree s c) c (bhOf s c).dest (bhOf s c).scrmode) hr
        ((List.mem_cons.mp h).resolve_left hbc)
      rwa [bhOf_startScrub_ne _ _ _ _ hbc, bhOf_zeroTree] at hlater

theorem exec_resetSequenceComplete_of_due {s : State} (hb : ownIn s s.cur.part [.reset] ≠ [])
    (hg : gensApplied s (ownIn s s.cur.part [.reset]) = true)
    (ht : (partOf s s.cur.part).resetAt + 1300000 ≤ s.now) : exec .resetSequenceComplete s = .next
      (modPart (scrubEach (ownIn s s.cur.part [.reset]) s) s.cur.part (fun x => { x with keys := firstKeys })) := by
  have hne := List.isEmpty_eq_false_iff.mpr hb
  have hnow : decide (s.now < (partOf s s.cur.part).resetAt + 1300000) = false := decide_eq_false (by omega)
  show execResetSequenceComplete s = _
  simp only [execResetSequenceComplete, hne, hg, hnow, Bool.not_true, Bool.or_self, Bool.false_eq_true, if_false]
  rfl

theorem exec_resetSequenceComplete_of_early {s : State} (ht : s.now < (partOf s s.cur.part).resetAt + 1300000) :
    exec .resetSequenceComplete s = .next s := by
  show execResetSequenceComplete s = _
  simp [execResetSequenceComplete, ht]

/-- Settles O49, by the cases of each command, the last acknowledgement and the frame of the reset sequence. -/
theorem partitionCommands : Obligations.PartitionCommands := by
  intro s p x mine whole changing quiet
  refine ⟨?create, ?acknowledge, ?gates, ?escalate, ?begin, ?joined, ?resetBusy, ?resetNone, ?escalateNone,
    ?dissolveCreating, ?dissolveNone, ?dissolveBusy, ?complete, ?early⟩
  case create =>
    intro size z bs free
    exact ⟨exec_partitionCreate_of_creating s size, exec_partitionCreate_of_misplaced s size,
      exec_partitionCreate_of_taken s size, exec_partitionCreate_of_free s size⟩
  case acknowledge =>
    rintro k rfl hsize hc hq hgate hstack
    have hpos : 0 < partSize s p := Nat.two_pow_pos _
    have htarget (b : Nat) (hb : b ∈ partBhs s p) : targetGen s b = nextGen (bhOf s b).gen :=
      targetGen_of_creating s hc hb
    have hlt (b : Nat) (hb : b ∈ partBhs s p) : b < 16 := by
      obtain ⟨i, hi, rfl⟩ := List.mem_map.mp hb
      have hi' := List.mem_range.mp hi
      omega
    have happ : gensApplied (gensHeld s) (partBhs s p) = true :=
      gensApplied_gensHeld s hlt (hgate.imp_right fun h b hb => (h b hb).trans (htarget b hb).symm)
        (fun b hb j hj hjk => (hstack b hb j hj hjk).trans (htarget b hb).symm)
    obtain ⟨hmem, hdone, -⟩ := finishCreate_frame (gensHeld s) p
    refine ⟨_, exec_generationAcknowledge_of_last (by omega) hc hq happ, hmem.trans (mem_gensHeld s), hdone,
      fun hfree => ?_, fun hleft => ?_⟩
    · have hfree' : ∀ b ∈ partBhs (gensHeld s) p, (bhOf (gensHeld s) b).st = .free := by
        simpa only [partBhs_gensHeld, bhOf_gensHeld] using hfree
      have hbhs (b : Nat) (hb : b ∈ partBhs s p) := bhOf_finishCreate hfree' ((partBhs_gensHeld s p).symm ▸ hb)
      obtain ⟨now, heq⟩ := finishCreate_of_free hfree'
      simp only [bhOf_gensHeld] at hbhs
      refine ⟨?_, ?_, ?_, hbhs⟩ <;> rw [heq, partOf_modPart_same]
    · have hleft' : ∃ b ∈ partBhs (gensHeld s) p, (bhOf (gensHeld s) b).st ≠ .free := by
        simpa only [partBhs_gensHeld, bhOf_gensHeld] using hleft
      rw [finishCreate_of_taken hleft', modPart_bhs, bhs_gensHeld, partOf_modPart_same, partOf_gensHeld]
      exact ⟨rfl, rfl⟩
  case gates =>
    intro hk hidle hnone
    refine ⟨_, exec_generationAcknowledge_of_idle hidle, fun b hb => ?_⟩
    rw [gensHeld_of_gates hk, tabGet_map_index, if_pos (List.mem_range.mpr hb), targetGen_of_none s (hnone b hb)]
  case escalate =>
    intro hp hlive (hw : PartWhole s p)
    refine ⟨_, exec_bcpEscalationReset s, ?_⟩
    rw [if_pos (hw.assigned hlive), partOf_modPart_same]
    exact ⟨(hw.resetBegun 5).escalated (some s.now), rfl⟩
  case begin =>
    intro hp (hq : PartQuiet s p) hlive (hw : PartWhole s p)
    refine ⟨fun he => ⟨_, exec_partitionReset_of_quiet he hq, ?_⟩,
      _, exec_partitionDissolve_of_whole hq.1 hp hq hw, ?_⟩
    · rw [if_pos (hw.assigned hlive)]
      exact ⟨(hw.resetBegun 5).ptErr 0, partOf_ptErr_err _ p 0⟩
    · exact ⟨((hw.resetBegun 4).ptErr 0).dissolved, partOf_dissolved _ p 0⟩
  case joined => exact exec_partitionReset_of_joined
  case resetBusy => exact exec_partitionReset_of_busy
  case resetNone =>
    intro he hq hnot
    rw [exec_partitionReset_of_quiet he hq, assigned_eq_false_of hnot]
    rfl
  case escalateNone =>
    intro hnot
    rw [exec_bcpEscalationReset, assigned_eq_false_of hnot]
    rfl
  case dissolveCreating => exact exec_partitionDissolve_of_creating
  case dissolveNone =>
    intro hc hnone
    refine exec_partitionDissolve_of_none hc fun b hb => ?_
    obtain ⟨hlt, hmine, hst⟩ := (mem_ownIn ..).mp hb
    obtain ⟨hne, hstill⟩ := hnone b hlt hmine
    have hchange : (bhOf s b).st = .reset ∨ (bhOf s b).st = .scrub := by simpa [hne] using hst
    exact hstill ⟨hmine, hchange⟩
  case dissolveBusy =>
    intro hc hq
    have hn := nodup_ownIn s p [.reset, .scrub]
    obtain ⟨hmem, hparts⟩ := modEach_frame (fun x => { x with dest := 4 }) (ownIn s p [.reset, .scrub]) s
    refine ⟨_, exec_partitionDissolve_of_busy hc hq, hmem, ?_, fun b hb => ⟨fun hch => ?_, fun hch => ?_⟩⟩
    · rw [ptErr, partOf_modPart_same, partOf, hparts, ← partOf]
    · rw [ptErr, bhOf_modPart, bhOf_modEach _ hn, if_pos ((mem_ownIn_changing s p b).mpr ⟨hb, hch⟩)]
    · rw [ptErr, bhOf_modPart, bhOf_modEach _ hn, if_neg (fun h => hch ((mem_ownIn_changing s p b).mp h).2)]
  case complete =>
    intro hb hg ht
    refine ⟨_, exec_resetSequenceComplete_of_due hb hg ht, scrubEach_mem _ s, ?_, fun b hb => ?_⟩
    · rw [partOf_modPart_same]
    · obtain ⟨⟨hst, hdest, hhost, hdone⟩, hgran⟩ := scrubBegun_scrubEach s (nodup_ownIn s p [.reset]) hb
      exact ⟨hst, hdest, hhost, hdone, hgran⟩
  case early => exact exec_resetSequenceComplete_of_early

end Sys2Proof.Machine

namespace Sys2Proof.Machine
open Sys2Proof

/-! The stream instructions LSEND and LRECV (R52, R53, R283, R303). -/

section
variable {s : State} {link : BitVec 4} {q : BitVec 2} {a : BitVec 5} (go : Nat → Nat → State)
  (hm : Unmarked (here s) [a])
include hm

/-- The fault of an address that is no multiple of 64; its detail is open (log entry 59). -/
theorem withStream_of_misaligned (h : (sVal (here s) a).toNat % 64 ≠ 0) : withStream s link q a go =
    onArr s (fun x => slotTraps x .s .align ((Config.openDetail 64).setWidth 64) 0x3FFF) := by
  rw [withStream, withRegsS_unmarked _ _ hm]
  exact if_pos h

theorem withStream_of_beyond (ha : (sVal (here s) a).toNat % 64 = 0) (h : 65536 < (sVal (here s) a).toNat + 64) :
    withStream s link q a go = onArr s (fun x => slotTraps x .s .region 3 0x3FFF) := by
  rw [withStream, withRegsS_unmarked _ _ hm]
  exact (if_neg (not_not.mpr ha)).trans (if_pos h)

theorem withStream_of_within (ha : (sVal (here s) a).toNat % 64 = 0) (h : (sVal (here s) a).toNat + 64 ≤ 65536) :
    withStream s link q a go = if (linkOf s (9 * (s.cur.phys / 6) + link.toNat)).st = .down then
      onArr s (fun x => slotTraps x .s .link (BitVec.ofNat 64 (link.toNat + 256 * q.toNat)) 0x3FFF)
    else go (9 * (s.cur.phys / 6) + link.toNat) (sVal (here s) a).toNat := by
  have hshift : q.toNat <<< 8 = 256 * q.toNat := by rw [Nat.shiftLeft_eq, Nat.mul_comm]
  rw [withStream, withRegsS_unmarked _ _ hm, ← hshift]
  exact (if_neg (not_not.mpr ha)).trans (if_neg (by omega))
end

/-- LSEND and LRECV are both the common checks with what follows them. -/
theorem exec_stream_eq (s : State) (link : BitVec 4) (q : BitVec 2) (a : BitVec 5) (i : Instr)
    (hi : i ∈ [Instr.sLsend link q a, .sLrecv link q a]) : ∃ go, exec i s = .next (withStream s link q a go) := by
  obtain rfl | rfl : i = .sLsend link q a ∨ i = .sLrecv link q a := by simpa using hi
  · exact ⟨_, rfl⟩
  · exact ⟨_, rfl⟩

/-- A byte of 64 bytes of data memory after a write of 64 bytes to it. -/
theorem memGet_dmWrite (x : ArrayS) (va p : Nat) (d : BitVec 512) :
    memGet (dmWrite x va 64 d.toNat).dmem p =
      if va ≤ p ∧ p < va + 64 then d.extractLsb' (8 * (p - va)) 8 else memGet x.dmem p := by
  show memGet (memPutNat x.dmem va 64 d.toNat) p = _
  rw [memGet_memPutNat]
  split
  · have hbyte := extract_byte 512 d.toNat (p - va) (by omega)
    rw [BitVec.ofNat_toNat, BitVec.setWidth_eq, pow_mul] at hbyte
    exact hbyte.symm
  · rfl

theorem exec_sLsend_of_open {s : State} {link : BitVec 4} {q : BitVec 2} {a : BitVec 5}
    (hm : Unmarked (here s) [a]) (ha : (sVal (here s) a).toNat % 64 = 0)
    (hw : (sVal (here s) a).toNat + 64 ≤ 65536) (hl : (linkOf s (9 * (s.cur.phys / 6) + link.toNat)).st ≠ .down)
    (hd : dmBad (here s) (sVal (here s) a).toNat 64 = false) :
    exec (.sLsend link q a) s = .next (unreplayHere (modLink s (9 * (s.cur.phys / 6) + link.toNat) (fun x =>
      { x with txq := tabSet x.txq q.toNat (tabGet x.txq [] q.toNat ++
          [{ kind := 1, vl := q.toNat, seq := 0, ack := 0, off := 0, tag := 0, len := 63, crcOk := true,
             data := memLine (here s).dmem (sVal (here s) a).toNat }]) })) 3) := by
  show execSLsend link q a s = _
  rw [execSLsend, withStream_of_within _ hm ha hw, if_neg hl, hd]
  rfl

theorem exec_sLrecv_of_held {s : State} {link : BitVec 4} {q : BitVec 2} {a : BitVec 5} {f : Flit} {r : List Flit}
    (hm : Unmarked (here s) [a]) (ha : (sVal (here s) a).toNat % 64 = 0)
    (hw : (sVal (here s) a).toNat + 64 ≤ 65536) (hl : (linkOf s (9 * (s.cur.phys / 6) + link.toNat)).st ≠ .down)
    (hf : tabGet (linkOf s (9 * (s.cur.phys / 6) + link.toNat)).rxq [] q.toNat = f :: r) :
    exec (.sLrecv link q a) s = .next (onArr (modLink s (9 * (s.cur.phys / 6) + link.toNat) (fun x =>
      { x with rxq := tabSet x.rxq q.toNat r })) (fun x => dmWrite x (sVal (here s) a).toNat 64 f.data.toNat)) := by
  show execSLrecv link q a s = _
  rw [execSLrecv, withStream_of_within _ hm ha hw, if_neg hl, hf]

/-- Settles O11, by the checks that both instructions share. -/
theorem streamInstructions : Obligations.StreamInstructions := by
  intro link q a s hm va l
  refine ⟨fun ⟨ha, hw⟩ hl => ⟨exec_sLsend_of_open hm ha hw hl, fun f r hf =>
    ⟨_, exec_sLrecv_of_held hm ha hw hl hf, ?_⟩⟩, fun ha i hi => ?_, fun ha hw i hi => ?_, fun ⟨ha, hw⟩ hl i hi => ?_⟩
  · rw [here_onArr, here_modLink, linkOf_onArr, linkOf_modLink_same]
    refine ⟨tabGet_tabSet_same _ _ _ _, rfl, fun j hj => ?_, fun p hp => ?_⟩
    · rw [memGet_dmWrite, if_pos (by omega), Nat.add_sub_cancel_left]
    · rw [memGet_dmWrite, if_neg (by omega)]
  all_goals obtain ⟨go, hgo⟩ := exec_stream_eq s link q a i hi
  · exact ⟨_, hgo.trans (congrArg Host.Outcome.next (withStream_of_misaligned go hm ha))⟩
  · exact hgo.trans (congrArg Host.Outcome.next (withStream_of_beyond go hm ha hw))
  · rw [hgo, withStream_of_within go hm ha hw, if_pos hl]

end Sys2Proof.Machine

namespace Sys2Proof.Machine
open Sys2Proof

/-! Training, time-outs, disabling and loss of a fabric link (R48 to R52, R54, R109). -/

theorem setLink_setLink (s : State) (l : Nat) (x y : LinkS) : setLink (setLink s l x) l y = setLink s l y := by
  simp [setLink, tabSet_tabSet_same]

-- What a link that goes DOWN does (R52, R54, R109)

/-- The arrays of a link's bulkhead whose programs are frozen on it, with the details of their traps. -/
def frozenArrs (s : State) (l : Nat) : List (Nat × W64) :=
  (List.range 6).filterMap (fun i => (frozenOn s (6 * (l / 9) + i) (l % 9)).map (fun d => (6 * (l / 9) + i, d)))

/-- A LINK trap is noted at each array of a list. -/
def linkTraps (zs : List (Nat × W64)) (s : State) : State :=
  zs.foldl (fun s z => modArr s z.1 (fun a => noteAsync a .link z.2 0x3FFF)) s

theorem linkTraps_cons (z : Nat × W64) (zs : List (Nat × W64)) (s : State) :
    linkTraps (z :: zs) s = linkTraps zs (modArr s z.1 (fun a => noteAsync a .link z.2 0x3FFF)) := rfl

theorem linkTraps_frame (zs : List (Nat × W64)) (s : State) : ∃ arrs, linkTraps zs s = { s with arrs := arrs } := by
  induction zs generalizing s with
  | nil => exact ⟨s.arrs, rfl⟩
  | cons z r ih => exact ih (modArr s z.1 (fun a => noteAsync a .link z.2 0x3FFF))

theorem arrOf_linkTraps_of_notMem {zs : List (Nat × W64)} {p : Nat} (s : State) (h : ∀ z ∈ zs, p ≠ z.1) :
    arrOf (linkTraps zs s) p = arrOf s p := by
  induction zs generalizing s with
  | nil => rfl
  | cons z r ih =>
    rw [linkTraps_cons, ih _ (fun y hy => h y (List.mem_cons_of_mem _ hy)),
      arrOf_modArr_ne _ _ (h z List.mem_cons_self)]

theorem arrOf_linkTraps_of_mem {zs : List (Nat × W64)} {z : Nat × W64} (s : State)
    (hn : zs.Pairwise (fun x y => x.1 ≠ y.1)) (h : z ∈ zs) :
    arrOf (linkTraps zs s) z.1 = noteAsync (arrOf s z.1) .link z.2 0x3FFF := by
  induction zs generalizing s with
  | nil => cases h
  | cons y r ih =>
    obtain ⟨hy, hr⟩ := List.pairwise_cons.mp hn
    rw [linkTraps_cons]
    obtain rfl | hz := List.mem_cons.mp h
    · rw [arrOf_linkTraps_of_notMem _ hy, arrOf_modArr_same]
    · rw [ih _ hr hz, arrOf_modArr_ne _ _ (hy z hz).symm]

theorem frozenArrs_pairwise (s : State) (l : Nat) : (frozenArrs s l).Pairwise (fun x y => x.1 ≠ y.1) := by
  refine List.pairwise_filterMap.mpr (List.nodup_range.imp fun {i j} hij x hx y hy => ?_)
  obtain ⟨d, -, rfl⟩ := Option.map_eq_some_iff.mp hx
  obtain ⟨e, -, rfl⟩ := Option.map_eq_some_iff.mp hy
  exact fun h => hij (Nat.add_left_cancel h)

theorem mem_frozenArrs {s : State} {l j : Nat} {d : W64} (hj : j < 6)
    (h : frozenOn s (6 * (l / 9) + j) (l % 9) = some d) : (6 * (l / 9) + j, d) ∈ frozenArrs s l :=
  List.mem_filterMap.mpr ⟨j, List.mem_range.mpr hj, by rw [h]; rfl⟩

/-- Link end `l` of `s` has become `y`: memory is as it was, the collectives that name it end with status 1, and each
program frozen on it traps (R52, R54, R109). -/
def LinkLost (s t : State) (l : Nat) (y : LinkS) : Prop :=
  t.mem = s.mem ∧ linkOf t l = y ∧
    (bhOf t (l / 9)).colls = (bhOf s (l / 9)).colls.map (fun c => (c.1, collLose (l % 9) c.2)) ∧
    ∀ j < 6, ∀ d, frozenOn s (6 * (l / 9) + j) (l % 9) = some d →
      arrOf t (6 * (l / 9) + j) = noteAsync (arrOf s (6 * (l / 9) + j)) .link d 0x3FFF

/-- The state of a link that has gone DOWN, before the loss is logged. -/
def linkDropped (s : State) (l : Nat) : State :=
  modBh (setLink (linkTraps (frozenArrs s l) s) l (downLink (linkOf s l))) (l / 9)
    (fun y => { y with colls := y.colls.map (fun c => (c.1, collLose (l % 9) c.2)) })

theorem linkDown_of_live {s : State} {l : Nat} (h : (linkOf s l).st ≠ .down) : linkDown s l =
    logErr (linkDropped s l) ecLink (l / 9) (bhOf (linkDropped s l) (l / 9)).part 0 l 0 1 := if_neg h

section
variable (s : State) (cls bh part syn region line n j : Nat)

theorem linkOf_logErr : linkOf (logErr s cls bh part syn region line n) j = linkOf s j := rfl
theorem bhOf_logErr : bhOf (logErr s cls bh part syn region line n) j = bhOf s j := rfl
theorem arrOf_logErr : arrOf (logErr s cls bh part syn region line n) j = arrOf s j := rfl
end

theorem linkLost_linkDown {s : State} {l : Nat} (h : (linkOf s l).st ≠ .down) :
    LinkLost s (linkDown s l) l (downLink (linkOf s l)) := by
  obtain ⟨arrs, htraps⟩ := linkTraps_frame (frozenArrs s l) s
  refine ⟨(keepsWork_linkDown s l).kept.mem, ?_, ?_, fun j hj d hd => ?_⟩ <;> rw [linkDown_of_live h]
  · rw [linkOf_logErr, linkDropped, linkOf_modBh, linkOf_setLink_same]
  · rw [bhOf_logErr, linkDropped, bhOf_modBh_same, bhOf_setLink, htraps]
    rfl
  · rw [arrOf_logErr, linkDropped, arrOf_modBh, arrOf_setLink]
    exact arrOf_linkTraps_of_mem s (frozenArrs_pairwise s l) (mem_frozenArrs hj hd)

theorem slotWaits_sLsend (s : State) (p : Nat) (l : BitVec 4) (q : BitVec 2) (r : BitVec 5) :
    slotWaits s p (.sLsend l q r) = (streamAddrOk (arrOf s p) r &&
      (linkOf s (9 * bhOfArr p + l.toNat)).st ≠ .down && (linkOf s (9 * bhOfArr p + l.toNat)).seen.getLsbD q.toNat) :=
  rfl

theorem slotWaits_sLrecv (s : State) (p : Nat) (l : BitVec 4) (q : BitVec 2) (r : BitVec 5) :
    slotWaits s p (.sLrecv l q r) = (streamAddrOk (arrOf s p) r &&
      (linkOf s (9 * bhOfArr p + l.toNat)).st ≠ .down &&
      (tabGet (linkOf s (9 * bhOfArr p + l.toNat)).rxq [] q.toNat).isEmpty) := rfl

/-- The trap detail of a stream instruction that waits on a link, none for another instruction (R54, R227). -/
def streamFrozen (s : State) (p li : Nat) (i : Instr) : Option W64 :=
  match i with
  | .sLsend l q _ | .sLrecv l q _ =>
    if l.toNat = li && slotWaits s p i then some (BitVec.ofNat 64 (li + q.toNat <<< 8)) else none
  | _ => none

theorem frozenOn_eq (s : State) (p li : Nat) : frozenOn s p li =
    if (arrOf s p).cond ≠ .running || (arrOf s p).chpos ≠ 0 || (fetchBundle (arrOf s p)).ill ||
      (fetchBundle (arrOf s p)).pois then none
    else streamFrozen s p li (slotInstr (slotBits (fetchBundle (arrOf s p)).bits) .s) := rfl

section
variable {s : State} {l : Nat} {x : LinkS} (hst : x.st = (linkOf s l).st) (hseen : x.seen = (linkOf s l).seen)
  (hrxq : x.rxq = (linkOf s l).rxq)
include hst hseen hrxq

theorem streamFrozen_setLink (p li : Nat) (i : Instr) :
    streamFrozen (setLink s l x) p li i = streamFrozen s p li i := by
  have hlink (k : Nat) : (linkOf (setLink s l x) k).st = (linkOf s k).st ∧
      (linkOf (setLink s l x) k).seen = (linkOf s k).seen ∧ (linkOf (setLink s l x) k).rxq = (linkOf s k).rxq := by
    rw [linkOf_setLink]
    split
    · subst_vars; exact ⟨hst, hseen, hrxq⟩
    · exact ⟨rfl, rfl, rfl⟩
  cases i
  case sLsend a q r =>
    obtain ⟨hst, hseen, -⟩ := hlink (9 * bhOfArr p + a.toNat)
    have hwaits : slotWaits (setLink s l x) p (.sLsend a q r) = slotWaits s p (.sLsend a q r) := by
      rw [slotWaits_sLsend, slotWaits_sLsend, hst, hseen, arrOf_setLink]
    simp only [streamFrozen, hwaits]
  case sLrecv a q r =>
    obtain ⟨hst, -, hrxq⟩ := hlink (9 * bhOfArr p + a.toNat)
    have hwaits : slotWaits (setLink s l x) p (.sLrecv a q r) = slotWaits s p (.sLrecv a q r) := by
      rw [slotWaits_sLrecv, slotWaits_sLrecv, hst, hrxq, arrOf_setLink]
    simp only [streamFrozen, hwaits]
  all_goals rfl

/-- A change of what neither LSEND nor LRECV looks at does not change who is frozen on a link. -/
theorem frozenOn_setLink (p li : Nat) : frozenOn (setLink s l x) p li = frozenOn s p li := by
  rw [frozenOn_eq, frozenOn_eq, streamFrozen_setLink hst hseen hrxq, arrOf_setLink]
end

-- Training and disabling (R48, R52)

section
variable {s : State}

theorem exec_linkTrain_of_ready (hst : (linkOf s s.cur.link).st = .down) (hdis : (linkOf s s.cur.link).dis = false)
    (hb : (bhOf s (s.cur.link / 9)).st = .assigned) : exec .linkTrain s = .next (setLink s s.cur.link
      { linkOf s s.cur.link with
        st := .training, trainId := (linkOf s s.cur.link).fabid, trainAt := s.now }) :=
  congrArg Host.Outcome.next (if_pos (by simp [hst, hdis, hb]))

theorem exec_linkTrain_of_unready (h : (linkOf s s.cur.link).st ≠ .down ∨ (linkOf s s.cur.link).dis = true ∨
    (bhOf s (s.cur.link / 9)).st ≠ .assigned) : exec .linkTrain s = .next s := by
  refine congrArg Host.Outcome.next (if_neg fun hready => ?_)
  simp only [Bool.and_eq_true, decide_eq_true_eq, Bool.not_eq_true'] at hready
  obtain ⟨⟨hst, hdis⟩, hb⟩ := hready
  obtain h | h | h := h
  · exact h hst
  · rw [hdis] at h; cases h
  · exact h hb

theorem exec_linkDisable_of_down (hst : (linkOf s s.cur.link).st = .down) :
    exec .linkDisable s = .next (setLink s s.cur.link { linkOf s s.cur.link with dis := true }) := by
  have hdown : linkDown s s.cur.link = s := if_pos hst
  show execLinkDisable s = _
  rw [execLinkDisable, hdown]
  rfl

theorem exec_linkDisable_of_live (hst : (linkOf s s.cur.link).st ≠ .down) : ∃ t, exec .linkDisable s = .next t ∧
    LinkLost s t s.cur.link { downLink (linkOf s s.cur.link) with dis := true } := by
  obtain ⟨hmem, hlink, hcolls, harr⟩ := linkLost_linkDown hst
  exact ⟨_, rfl, hmem, by rw [linkOf_modLink_same, hlink], hcolls, harr⟩

theorem exec_linkTrainingComplete_of_idle (id : W16) (rtt : BitVec 8) (hst : (linkOf s s.cur.link).st ≠ .training) :
    exec (.linkTrainingComplete id rtt) s = .next s := congrArg Host.Outcome.next (if_pos hst)

theorem exec_linkTrainingComplete_of_agreed {id : W16} {rtt : BitVec 8}
    (hst : (linkOf s s.cur.link).st = .training) (hid : id = (linkOf s s.cur.link).trainId)
    (hrtt : rtt.toNat ≤ 184) : exec (.linkTrainingComplete id rtt) s = .next (setLink s s.cur.link
      { downLink (linkOf s s.cur.link) with
        st := .up, rtt := rtt.toNat, ackAt := s.now, goodAt := s.now, vl6At := s.now
        txSeq := 0, rxSeq := 0, buf := [], txq := (linkOf s s.cur.link).txq, rxq := [] }) := by
  show execLinkTrainingComplete id rtt s = _
  simp only [execLinkTrainingComplete, hst, hid, hrtt, ne_eq, not_true_eq_false, decide_true, Bool.and_self, if_false,
    if_true]
  rfl

theorem exec_linkTrainingComplete_of_refused {id : W16} {rtt : BitVec 8} 
    (hst : (linkOf s s.cur.link).st = .training) (h : id ≠ (linkOf s s.cur.link).trainId ∨ 184 < rtt.toNat) :
    exec (.linkTrainingComplete id rtt) s =
      .next (linkDown (setLink s s.cur.link { linkOf s s.cur.link with rtt := rtt.toNat }) s.cur.link) := by
  refine congrArg Host.Outcome.next ((if_neg (not_not.mpr hst)).trans (if_neg fun hok => ?_))
  simp only [Bool.and_eq_true, decide_eq_true_eq] at hok
  exact h.elim (fun hid => hid hok.1) (fun hrtt => by omega)

/-- A link that goes DOWN with its round trip measured. -/
theorem linkLost_measured {l : Nat} (hst : (linkOf s l).st ≠ .down) (rtt : Nat) :
    LinkLost s (linkDown (setLink s l { linkOf s l with rtt := rtt }) l) l
      { downLink (linkOf s l) with rtt := rtt } := by
  have hlive : (linkOf (setLink s l { linkOf s l with rtt := rtt }) l).st ≠ .down := by rwa [linkOf_setLink_same]
  obtain ⟨hmem, hlink, hcolls, harr⟩ := linkLost_linkDown hlive
  rw [linkOf_setLink_same] at hlink
  have hfrozen := frozenOn_setLink (s := s) (l := l) (x := { linkOf s l with rtt := rtt }) rfl rfl rfl
  exact ⟨hmem, hlink, hcolls, fun j hj d hd => harr j hj d ((hfrozen _ _).trans hd)⟩

-- Time-outs (R48, R52)

theorem exec_linkTrainingTimeout_of_late (hst : (linkOf s s.cur.link).st = .training)
    (h : (linkOf s s.cur.link).trainAt + 130000000 ≤ s.now) :
    exec .linkTrainingTimeout s = .next (linkDown s s.cur.link) :=
  congrArg Host.Outcome.next (if_pos (by simp [hst, h]))

theorem exec_linkTrainingTimeout_of_early (h : s.now < (linkOf s s.cur.link).trainAt + 130000000) :
    exec .linkTrainingTimeout s = .next s :=
  congrArg Host.Outcome.next (if_neg (by simp [h]))

theorem exec_linkAckTimeout_of_late (hst : (linkOf s s.cur.link).st = .up) (hbuf : (linkOf s s.cur.link).buf ≠ [])
    (h : (linkOf s s.cur.link).ackAt + 65536 ≤ s.now) : exec .linkAckTimeout s = .next (linkDown s s.cur.link) :=
  congrArg Host.Outcome.next (if_pos (by simp [hst, hbuf, h]))

theorem exec_linkAckTimeout_of_early (h : s.now < (linkOf s s.cur.link).ackAt + 65536) :
    exec .linkAckTimeout s = .next s :=
  congrArg Host.Outcome.next (if_neg (by simp [h]))

theorem exec_linkRxSilenceTimeout_of_late (hst : (linkOf s s.cur.link).st = .up)
    (h : (linkOf s s.cur.link).goodAt + 1024 ≤ s.now) :
    exec .linkRxSilenceTimeout s = .next (linkDown s s.cur.link) :=
  congrArg Host.Outcome.next (if_pos (by simp [hst, h]))

theorem exec_linkRxSilenceTimeout_of_early (h : s.now < (linkOf s s.cur.link).goodAt + 1024) :
    exec .linkRxSilenceTimeout s = .next s :=
  congrArg Host.Outcome.next (if_neg (by simp [h]))
end

/-- Settles O56, by what going DOWN does and by the condition of each event. -/
theorem linkTraining : Obligations.LinkTraining := by
  intro s l b x goesDown
  have down {i : Instr} {t : State} {y : LinkS} (hexec : exec i s = .next t) (h : LinkLost s t l y) :
      goesDown i y := ⟨t, hexec, h⟩
  have hlive {st : LinkState} (hst : x.st = st) (h : st ≠ .down) : x.st ≠ .down := hst.trans_ne h
  refine ⟨?train, ?noTrain, ?disabled, ?disable, ?complete, ?training, ?ack, ?silence, ?trainingEarly, ?ackEarly,
    ?silenceEarly, rfl⟩
  case train => exact exec_linkTrain_of_ready
  case noTrain => exact exec_linkTrain_of_unready
  case disabled => exact exec_linkDisable_of_down
  case disable => exact exec_linkDisable_of_live
  case complete =>
    intro id rtt
    exact ⟨exec_linkTrainingComplete_of_idle id rtt, fun hst =>
      ⟨exec_linkTrainingComplete_of_agreed hst, fun h =>
        down (exec_linkTrainingComplete_of_refused hst h) (linkLost_measured (hlive hst (by simp)) _)⟩⟩
  case training =>
    exact fun hst h => down (exec_linkTrainingTimeout_of_late hst h) (linkLost_linkDown (hlive hst (by simp)))
  case ack =>
    exact fun hst hbuf h => down (exec_linkAckTimeout_of_late hst hbuf h) (linkLost_linkDown (hlive hst (by simp)))
  case silence =>
    exact fun hst h => down (exec_linkRxSilenceTimeout_of_late hst h) (linkLost_linkDown (hlive hst (by simp)))
  case trainingEarly => exact fun _ => exec_linkTrainingTimeout_of_early
  case ackEarly => exact fun _ => exec_linkAckTimeout_of_early
  case silenceEarly => exact fun _ => exec_linkRxSilenceTimeout_of_early

end Sys2Proof.Machine

namespace Sys2Proof.Machine
open Sys2Proof

/-! Flits of a fabric link: sending, receiving, acknowledgement and retry (R49 to R53, R55, R394). -/

-- Sending (R49 to R52, R394)

theorem exec_linkFlitSend_of_not_up {s : State} (h : (linkOf s s.cur.link).st ≠ .up) :
    exec .linkFlitSend s = .next (setLink s s.cur.link (linkOf s s.cur.link)) :=
  congrArg (fun x => Host.Outcome.next (setLink s s.cur.link x)) (if_neg h)

theorem exec_linkFlitSend_of_up {s : State} (h : (linkOf s s.cur.link).st = .up) :
    exec .linkFlitSend s = .next (setLink s s.cur.link (sendOne s.now (linkOf s s.cur.link))) :=
  congrArg (fun x => Host.Outcome.next (setLink s s.cur.link x)) (if_pos h)

/-- A flit that goes out for the first time from the head of a lane. -/
theorem sendNew_of_held (now : Nat) {x : LinkS} {v : Nat} {f : Flit} {r : List Flit}
    (h : tabGet x.txq [] v = f :: r) : sendNew now x v =
      { emit x { f with seq := x.txSeq, vl := v } with
        txq := tabSet x.txq v r, txSeq := (x.txSeq + 1) % 4096
        buf := x.buf ++ [outFlit x { f with seq := x.txSeq, vl := v }]
        ackAt := if x.buf = [] then now else x.ackAt } := by
  simp only [sendNew, h, List.isEmpty_iff]
  rfl

section
variable (now : Nat) {x : LinkS}

theorem sendOne_of_askRetry (h : x.askRetry = true) : sendOne now x =
    { emit { x with off := offBits x } (bareFlit 4 x.rxSeq) with askRetry := false, asked := true } := if_pos h

variable (hask : x.askRetry = false)
include hask

theorem sendOne_of_resend {f : Flit} {r : List Flit} (h : x.resend = f :: r) :
    sendOne now x = { emit { x with off := offBits x } f with resend := r } := by
  simp only [sendOne, hask, h, Bool.false_eq_true, if_false]

variable (hre : x.resend = [])
include hre

theorem sendOne_of_full (h : 512 ≤ x.buf.length) :
    sendOne now x = emit { x with off := offBits x } (bareFlit 0 x.txSeq) := by
  simp only [sendOne, hask, hre, h, Bool.false_eq_true, if_false, if_true]

variable (hbuf : x.buf.length < 512)
include hbuf

theorem sendOne_of_vl6 {f : Flit} {r : List Flit} (h : tabGet x.txq [] 6 = f :: r) (hdue : x.vl6At ≤ now) :
    sendOne now x = { sendNew now { x with off := offBits x } 6 with vl6At := now + 64 } := by
  have hroom : ¬ 512 ≤ x.buf.length := by omega
  simp only [sendOne, hask, hre, hroom, h, hdue, Bool.false_eq_true, if_false, if_true, List.isEmpty_cons, Bool.not_false,
    decide_true, Bool.and_self]

theorem sendOne_of_lanes (h : tabGet x.txq [] 6 = [] ∨ now < x.vl6At) : sendOne now x =
    match pickLane { x with off := offBits x } with
    | some (v, y) => sendNew now y v
    | none => { emit { x with off := offBits x } (bareFlit 0 x.txSeq) with turnLeft := 0 } := by
  have hroom : ¬ 512 ≤ x.buf.length := by omega
  have hidle : ¬ ((!(tabGet x.txq [] 6).isEmpty && decide (x.vl6At ≤ now)) = true) := by
    simpa using fun hne => h.resolve_left hne
  simp only [sendOne, hask, hre, hroom, hidle, Bool.false_eq_true, if_false] <;> rfl
end

/-- The lane that would be served is a lane of its group, holds a flit and is on at the partner. -/
theorem nextLane_ready {x : LinkS} {lanes : List Nat} {last v : Nat} (h : nextLane x lanes last = some v) :
    v ∈ lanes ∧ laneReady x v = true := by
  have hmem := List.mem_of_find?_eq_some h
  simp only [List.mem_append, List.mem_filter] at hmem
  exact ⟨hmem.elim And.left And.left, List.find?_some h⟩

theorem groupLane_ready {x : LinkS} {coll : Bool} {v : Nat} (h : groupLane x coll = some v) :
    v < 6 ∧ laneReady x v = true := by
  cases coll
  case false =>
    obtain ⟨hmem, hready⟩ := nextLane_ready (h : nextLane x [0, 1, 2, 3] x.laneS = some v)
    simp only [List.mem_cons, List.not_mem_nil, or_false] at hmem
    exact ⟨by omega, hready⟩
  case true =>
    obtain ⟨hmem, hready⟩ := nextLane_ready (h : nextLane x [4, 5] x.laneC = some v)
    simp only [List.mem_cons, List.not_mem_nil, or_false] at hmem
    exact ⟨by omega, hready⟩

/-- The turn of a group at the lane that it would serve. -/
def serveLane (x : LinkS) (coll : Bool) (left : Nat) : Option (Nat × LinkS) :=
  (groupLane x coll).map (fun v =>
    (v, if coll then { x with turnColl := true, turnLeft := left, laneC := v }
        else { x with turnColl := false, turnLeft := left, laneS := v }))

theorem pickLane_eq (x : LinkS) : pickLane x =
    ((if x.turnLeft = 0 then none else serveLane x x.turnColl (x.turnLeft - 1)) <|>
      (serveLane x (!x.turnColl) (turnSize x (!x.turnColl) - 1) <|>
        serveLane x x.turnColl (turnSize x x.turnColl - 1))) := rfl

/-- The link end is the same but for whose turn it is. -/
def TurnTaken (x z : LinkS) : Prop :=
  ∃ coll left ls lc, z = { x with turnColl := coll, turnLeft := left, laneS := ls, laneC := lc }

theorem serveLane_cases {x z : LinkS} {coll : Bool} {left v : Nat} (h : serveLane x coll left = some (v, z)) :
    v < 6 ∧ laneReady x v = true ∧ TurnTaken x z := by
  obtain ⟨u, hu, heq⟩ := Option.map_eq_some_iff.mp h
  obtain ⟨rfl, rfl⟩ := Prod.mk.inj heq
  obtain ⟨hlt, hready⟩ := groupLane_ready hu
  refine ⟨hlt, hready, ?_⟩
  cases coll
  · exact ⟨_, _, _, _, rfl⟩
  · exact ⟨_, _, _, _, rfl⟩

/-- The arbitration serves a ready lane and changes only whose turn it is (R394). -/
theorem pickLane_cases {x z : LinkS} {v : Nat} (h : pickLane x = some (v, z)) :
    v < 6 ∧ laneReady x v = true ∧ TurnTaken x z := by
  rw [pickLane_eq, Option.orElse_eq_some, Option.orElse_eq_some] at h
  obtain h | ⟨-, h | ⟨-, h⟩⟩ := h
  · split at h
    · cases h
    · exact serveLane_cases h
  · exact serveLane_cases h
  · exact serveLane_cases h

-- Receiving (R49 to R53)

theorem askAgain_once (x : LinkS) : askAgain x false = { x with askRetry := x.askRetry || !x.asked } := by
  by_cases hasked : x.asked = true
  · have hkept : (x.askRetry || !x.asked) = x.askRetry := by simp [hasked]
    rw [hkept]
    exact if_pos (by simp [hasked])
  · simp [askAgain, hasked]

/-- A resend is asked for unless the flit is the one expected. -/
theorem askAgain_unless (p : Prop) [Decidable p] (x : LinkS) : (if p then x else askAgain x false) =
    { x with askRetry := x.askRetry || (decide (¬ p) && !x.asked) } := by
  by_cases hp : p
  · have hkept : (x.askRetry || (decide (¬ p) && !x.asked)) = x.askRetry := by simp [hp]
    rw [if_pos hp, hkept]
  · have hasks : (x.askRetry || (decide (¬ p) && !x.asked)) = (x.askRetry || !x.asked) := by simp [hp]
    rw [if_neg hp, askAgain_once, hasks]

theorem askAgain_always (x : LinkS) : askAgain x true = { x with askRetry := true } := by
  simp [askAgain]

/-- What an acknowledgement and the partner's OFF bits change (R49, R51). -/
theorem takeAck_frame (now : Nat) (x : LinkS) (f : Flit) : ∃ buf ackAt run resend,
    takeAck now x f = { x with
      seen := f.off, goodAt := now, buf := buf, ackAt := ackAt, retryRun := run, resend := resend } := by
  simp only [takeAck]
  split
  · exact ⟨_, _, _, _, rfl⟩
  · split
    · exact ⟨_, _, _, _, rfl⟩
    · exact ⟨_, _, _, _, rfl⟩

section
variable (now : Nat) (x : LinkS) (f : Flit)

@[simp] theorem takeAck_st : (takeAck now x f).st = x.st := by
  obtain ⟨_, _, _, _, h⟩ := takeAck_frame now x f; rw [h]
@[simp] theorem takeAck_rxSeq : (takeAck now x f).rxSeq = x.rxSeq := by
  obtain ⟨_, _, _, _, h⟩ := takeAck_frame now x f; rw [h]
@[simp] theorem takeAck_rxq : (takeAck now x f).rxq = x.rxq := by
  obtain ⟨_, _, _, _, h⟩ := takeAck_frame now x f; rw [h]
@[simp] theorem takeAck_retry : (takeAck now x f).retry = x.retry := by
  obtain ⟨_, _, _, _, h⟩ := takeAck_frame now x f; rw [h]
@[simp] theorem takeAck_retrySeq : (takeAck now x f).retrySeq = x.retrySeq := by
  obtain ⟨_, _, _, _, h⟩ := takeAck_frame now x f; rw [h]

/-- An acknowledgement of `n` flits of the retry buffer drops them (R51). -/
theorem takeAck_buf {o : Flit} {os : List Flit} (h : x.buf = o :: os) :
    (takeAck now x f).buf = if (f.ack + 4096 - o.seq) % 4096 = 0 ∨ x.buf.length < (f.ack + 4096 - o.seq) % 4096
      then x.buf else x.buf.drop ((f.ack + 4096 - o.seq) % 4096) := by
  simp only [takeAck, h, Bool.or_eq_true, decide_eq_true_eq]
  split
  · rfl
  · rfl
end

/-- The link end that the event acts on, with a good flit off its wire and the flit's ACK and OFF taken in. -/
def ackTaken (s : State) (f : Flit) (r : List Flit) : LinkS :=
  takeAck s.now { linkOf s s.cur.link with wire := r } f

/-- And with the flit, which is in its turn, counted (R51). -/
def turnTaken (s : State) (f : Flit) (r : List Flit) : LinkS :=
  { ackTaken s f r with
    rxSeq := ((linkOf s s.cur.link).rxSeq + 1) % 4096, asked := false, askRetry := false }

section
variable {s : State} {f : Flit} {r : List Flit} (hw : (linkOf s s.cur.link).wire = f :: r)
  (hup : (linkOf s s.cur.link).st = .up)
include hw hup

theorem exec_flitCrcFailure_of_bad (hbad : f.crcOk = false ∨ 6 ≤ f.kind) : exec .flitCrcFailure s =
    .next (setLink s s.cur.link { linkOf s s.cur.link with wire := r, askRetry := true }) := by
  have hgood : ¬ ((f.crcOk && decide (f.kind < 6)) = true) := by
    obtain h | h := hbad
    · simp [h]
    · simp [Nat.not_lt.mpr h]
  show execFlitCrcFailure s = _
  simp only [execFlitCrcFailure, hw, hgood, hup, ne_eq, not_true_eq_false, if_false, askAgain_always]
  rfl

variable (hcrc : f.crcOk = true)
include hcrc

/-- What the flit at the head of the wire of an UP end does, if it is good and of the kind asked for. -/
theorem arriving_of_kind {kind : Nat} (hk : f.kind = kind) (go : LinkS → Flit → State) :
    arriving s kind go = go (ackTaken s f r) f := by
  simp only [ackTaken, arriving, hw, hcrc, hk, hup, ne_eq, not_true_eq_false, decide_false, Bool.not_true, Bool.or_self,
    Bool.false_eq_true, if_false]

theorem sequenced_of_astray {kind : Nat} (hk : f.kind = kind) (hseq : f.seq ≠ (linkOf s s.cur.link).rxSeq)
    (take : LinkS → Flit → State) : sequenced s kind take =
      setLink s s.cur.link (askAgain (ackTaken s f r) false) := by
  rw [sequenced, arriving_of_kind hw hup hcrc hk]
  exact if_neg (by rwa [ackTaken, takeAck_rxSeq])

theorem sequenced_of_inTurn {kind : Nat} (hk : f.kind = kind) (hseq : f.seq = (linkOf s s.cur.link).rxSeq)
    (take : LinkS → Flit → State) : sequenced s kind take = take (turnTaken s f r) f := by
  rw [sequenced, arriving_of_kind hw hup hcrc hk, if_pos (by rwa [ackTaken, takeAck_rxSeq]), turnTaken, ackTaken,
    takeAck_rxSeq]

theorem exec_idleFlitReceive_of_idle (hk : f.kind = 0) : exec .idleFlitReceive s = .next (setLink s s.cur.link
    (if f.seq = (linkOf s s.cur.link).rxSeq then ackTaken s f r
      else askAgain (ackTaken s f r) false)) := by
  refine congrArg Host.Outcome.next ((arriving_of_kind hw hup hcrc hk _).trans ?_)
  simp only [ackTaken, takeAck_rxSeq]

/-- Each kind of sequenced flit has its instruction. -/
theorem exec_astray_of_mem {i : Instr} {kind : Nat} (hi : (i, kind) ∈ [(Instr.streamDataFlitReceive, 1),
      (.collectiveDataFlitReceive, 2), (.collectiveControlFlitReceive, 3), (.managementFlitReceive, 5)])
    (hk : f.kind = kind) (hseq : f.seq ≠ (linkOf s s.cur.link).rxSeq) : exec i s =
      .next (setLink s s.cur.link (askAgain (ackTaken s f r) false)) := by
  have hastray (take : LinkS → Flit → State) := congrArg (Host.Outcome.next (φ := Fault) (ρ := Refusal))
    (sequenced_of_astray hw hup hcrc hk hseq take)
  simp only [List.mem_cons, Prod.mk.injEq, List.not_mem_nil, or_false] at hi
  obtain ⟨rfl, rfl⟩ | ⟨rfl, rfl⟩ | ⟨rfl, rfl⟩ | ⟨rfl, rfl⟩ := hi <;> exact hastray _
end

@[simp] theorem turnTaken_rxq (s : State) (f : Flit) (r : List Flit) :
    (turnTaken s f r).rxq = (linkOf s s.cur.link).rxq := takeAck_rxq _ _ f

/-- A link end after a retry request: it resends from the number asked for, and counts the request (R51, R52). -/
def retryAsked (now : Nat) (x : LinkS) (f : Flit) : LinkS :=
  { x with
    resend := x.buf.dropWhile (fun g => g.seq ≠ f.seq), retry := x.retry.count now, retrySeq := f.seq
    retryRun := if x.retryRun ≠ 0 && x.retrySeq = f.seq then x.retryRun + 1 else 1 }

theorem retryAsked_retryRun (now : Nat) (x : LinkS) (f : Flit) : (retryAsked now x f).retryRun =
    if x.retryRun ≠ 0 ∧ x.retrySeq = f.seq then x.retryRun + 1 else 1 := if_congr (by simp) rfl rfl

-- Collective flits (R55)

theorem modLink_setLink (s : State) (l : Nat) (x : LinkS) (f : LinkS → LinkS) :
    modLink (setLink s l x) l f = setLink s l (f x) := by
  rw [modLink, linkOf_setLink_same, setLink_setLink]

theorem onlyLink_setLink (s : State) (l : Nat) (x : LinkS) : OnlyLink l s (setLink s l x) := by
  rw [OnlyLink, linkOf_setLink_same]

theorem collTake_of_none {s : State} {b : Nat} (h : (bhOf s b).colls = []) (li : Nat) (f : Flit) :
    collTake s b li f = (s, false) := by
  simp only [collTake, h, List.find?_nil]

/-- What a lane has received and no collective takes stays in it. -/
def laneKeeps (vl : Nat) (kept : List Flit) (x : LinkS) : LinkS := { x with rxq := tabSet x.rxq vl kept }

theorem collDrain_nil (s : State) (b li vl : Nat) (kept : List Flit) :
    collDrain s b li vl kept [] = modLink s (9 * b + li) (laneKeeps vl kept) := rfl

theorem collDrain_of_none {s : State} {b : Nat} (h : (bhOf s b).colls = []) (li vl : Nat) (kept fs : List Flit) :
    collDrain s b li vl kept fs = modLink s (9 * b + li) (laneKeeps vl (kept ++ fs)) := by
  induction fs generalizing kept with
  | nil => rw [collDrain_nil, List.append_nil]
  | cons f r ih =>
    rw [List.append_cons, ← ih]
    simp only [collDrain, collTake_of_none h]

theorem collDrain_of_taken {s t : State} {b li : Nat} {f : Flit} (h : collTake s b li f = (t, true)) (vl : Nat) :
    collDrain s b li vl [] [f] = modLink t (9 * b + li) (laneKeeps vl []) := by
  simp only [collDrain, h]
  rfl

theorem collOffer_eq (s : State) (b li : Nat) : collOffer s b li =
    let t := collDrain s b li 4 [] (tabGet (linkOf s (9 * b + li)).rxq [] 4)
    collDrain t b li 5 [] (tabGet (linkOf t (9 * b + li)).rxq [] 5) := rfl

theorem collOffer_of_none {s : State} {b : Nat} (h : (bhOf s b).colls = []) (li : Nat) : collOffer s b li =
    modLink (modLink s (9 * b + li) (fun x => laneKeeps 4 (tabGet x.rxq [] 4) x)) (9 * b + li)
      (fun x => laneKeeps 5 (tabGet x.rxq [] 5) x) := by
  have hkept (u : State) (hu : (bhOf u b).colls = []) (vl : Nat) :
      collDrain u b li vl [] (tabGet (linkOf u (9 * b + li)).rxq [] vl) =
        modLink u (9 * b + li) (fun x => laneKeeps vl (tabGet x.rxq [] vl) x) := collDrain_of_none hu li vl [] _
  rw [collOffer_eq, hkept s h 4]
  exact hkept (modLink s _ _) h 5

/-- The one flit that a link has received for collectives, on VL4 or VL5, is taken: no lane of theirs holds any. -/
theorem collOffer_of_taken {s t : State} {l vl : Nat} {f : Flit} {y : LinkS}
    (htake : ∀ z, collTake (setLink s l z) (l / 9) (l % 9) f = (setLink t l z, true))
    (hlanes : vl = 4 ∧ tabGet y.rxq [] 4 = [f] ∧ tabGet y.rxq [] 5 = [] ∨
      vl = 5 ∧ tabGet y.rxq [] 4 = [] ∧ tabGet y.rxq [] 5 = [f]) :
    collOffer (setLink s l y) (l / 9) (l % 9) = setLink t l (laneKeeps 5 [] (laneKeeps 4 [] y)) := by
  have hl : 9 * (l / 9) + l % 9 = l := Nat.div_add_mod l 9
  have hlane : tabGet (laneKeeps 4 [] y).rxq [] 5 = tabGet y.rxq [] 5 := tabGet_tabSet_ne _ _ _ (by decide)
  obtain ⟨-, h4, h5⟩ | ⟨-, h4, h5⟩ := hlanes
  · simp only [collOffer_eq, hl, linkOf_setLink_same, h4, collDrain_of_taken (htake y), modLink_setLink, hlane, h5,
      collDrain_nil]
  · simp only [collOffer_eq, hl, linkOf_setLink_same, h4, collDrain_nil, modLink_setLink, hlane, h5,
      collDrain_of_taken (htake _)]

/-- A collective waits for the chunk that a flit from link `li` carries (R59, R108; log entry 50). -/
def AwaitsFlit (c : CollS) (li : Nat) (f : Flit) : Prop :=
  c.ready = true ∧ 1 < cdC c.desc ∧ cdPrev c.desc = li ∧ c.va / 64 % 256 = f.tag.toNat / 256 ∧
    c.step < ringSteps c.desc ∧ stepTag c.desc c.step = f.tag.toNat % 128

/-- A collective with a flit added to what it has received of the flit's chunk. -/
def flitJoined (c : CollS) (f : Flit) : CollS :=
  let k := f.tag.toNat % 128
  let was := tabGet c.inbox ([], []) k
  let now : List W32 × List Bool := if f.kind = 2 then
      (was.1 ++ (List.range ((f.len + 1) / 4)).map (fun w => f.data.extractLsb' (32 * w) 32), was.2)
    else (was.1, was.2 ++ (List.range (8 * (f.len + 1))).map (fun w => f.data.getLsbD w))
  { c with inbox := tabSet c.inbox k now, held := if f.tag.getLsbD 7 then setInsert c.held k else c.held }

/-- The ring stands while the chunk that it waits for has not come whole. -/
theorem ringGo_of_waiting {s : State} {b i : Nat} {c : CollS} (hc : collOf s b i = some c) (h : chunkCame c = none)
    (k : Nat) : ringGo s b i k = s := by
  cases k with
  | zero => rfl
  | succ k => simp only [ringGo, hc, h, ite_self]

theorem collOf_setColl (s : State) (b i : Nat) (c : CollS) : collOf (setColl s b i c) b i = some c := by
  rw [collOf, setColl, bhOf_modBh_same]
  exact tabFind_tabSet_same _ _ _

section
variable {s : State} {b li j : Nat} {c : CollS} {f : Flit} (hc : (bhOf s b).colls = [(j, c)]) (h : AwaitsFlit c li f)
include hc h

theorem collTake_of_awaited : collTake s b li f =
    if c.down then (s, true) else (ringGo (setColl s b j (flitJoined c f)) b j (2 * cdC c.desc), true) := by
  obtain ⟨hready, hring, hprev, hline, hstep, htag⟩ := h
  have hany : (List.range (ringSteps c.desc)).any
      (fun r => c.step ≤ r && stepTag c.desc r = f.tag.toNat % 128) = true :=
    List.any_eq_true.mpr ⟨c.step, List.mem_range.mpr hstep, by simp [htag]⟩
  have hfits : (c.ready && decide (1 < cdC c.desc) && decide (cdPrev c.desc = li) &&
      decide (c.va / 64 % 256 = f.tag.toNat / 256) && (List.range (ringSteps c.desc)).any
        (fun r => c.step ≤ r && stepTag c.desc r = f.tag.toNat % 128)) = true := by
    simp only [hready, hring, hprev, hline, hany, decide_true, Bool.and_self]
  simp only [collTake, hc, List.find?_cons, hfits]
  rfl

theorem collTake_of_down (hd : c.down = true) : collTake s b li f = (s, true) := by
  rw [collTake_of_awaited hc h, if_pos hd]

theorem collTake_of_joined (hd : c.down = false) (hcame : chunkCame (flitJoined c f) = none) :
    collTake s b li f = (setColl s b j (flitJoined c f), true) := by
  rw [collTake_of_awaited hc h, hd, ringGo_of_waiting (collOf_setColl ..) hcame]
  rfl
end

/-- A lane of a link that has received a flit on it (R50). -/
theorem tabGet_queueFlit (x : LinkS) (vl v : Nat) (f : Flit) : tabGet (queueFlit x vl f).rxq [] v =
    if v = vl then tabGet x.rxq [] v ++ [f] else tabGet x.rxq [] v := by
  by_cases hv : v = vl
  · subst hv
    rw [if_pos rfl, queueFlit, tabGet_tabMod_same]
  · rw [if_neg hv, queueFlit, tabGet_tabMod_ne _ _ _ _ hv]

theorem tabGet_laneKeeps_self (x : LinkS) (vl v : Nat) :
    tabGet (laneKeeps vl (tabGet x.rxq [] vl) x).rxq [] v = tabGet x.rxq [] v := by
  by_cases hv : v = vl
  · subst hv; exact tabGet_tabSet_same _ _ _ _
  · exact tabGet_tabSet_ne _ _ _ hv

/-- With no collective the link keeps what it has received. -/
theorem collOffer_setLink_of_none {s : State} {l : Nat} (h : (bhOf s (l / 9)).colls = []) (y : LinkS) :
    ∃ rxq, collOffer (setLink s l y) (l / 9) (l % 9) = setLink s l { y with rxq := rxq } ∧
      ∀ v, tabGet rxq [] v = tabGet y.rxq [] v := by
  have hl : 9 * (l / 9) + l % 9 = l := Nat.div_add_mod l 9
  rw [collOffer_of_none (by rwa [bhOf_setLink]), hl, modLink_setLink, modLink_setLink]
  exact ⟨_, rfl, fun v => (tabGet_laneKeeps_self _ 5 v).trans (tabGet_laneKeeps_self y 4 v)⟩

section
variable {s : State} {f : Flit} {r : List Flit} (hw : (linkOf s s.cur.link).wire = f :: r)
  (hup : (linkOf s s.cur.link).st = .up) (hcrc : f.crcOk = true)
include hw hup hcrc

theorem exec_streamDataFlitReceive_of_inTurn (hk : f.kind = 1) (hseq : f.seq = (linkOf s s.cur.link).rxSeq) :
    exec .streamDataFlitReceive s = .next (setLink s s.cur.link
      (if f.vl < 4 then queueFlit (turnTaken s f r) f.vl f else turnTaken s f r)) :=
  congrArg Host.Outcome.next (sequenced_of_inTurn hw hup hcrc hk hseq _)

theorem exec_managementFlitReceive_of_inTurn (hk : f.kind = 5) (hseq : f.seq = (linkOf s s.cur.link).rxSeq)
    (hroom : (tabGet (linkOf s s.cur.link).rxq [] 6).length < 16) : exec .managementFlitReceive s =
      .next (setLink s s.cur.link { turnTaken s f r with
        rxq := tabSet (linkOf s s.cur.link).rxq 6 (tabGet (linkOf s s.cur.link).rxq [] 6 ++ [f]) }) := by
  have hdrop : (tabGet (linkOf s s.cur.link).rxq [] 6 ++ [f]).length - 16 = 0 := by
    rw [List.length_append, List.length_singleton]; omega
  refine congrArg Host.Outcome.next ((sequenced_of_inTurn hw hup hcrc hk hseq _).trans ?_)
  simp only [turnTaken_rxq, hdrop, List.drop_zero]

/-- A collective flit in its turn joins its lane, and is offered to the collectives. -/
theorem exec_collective_of_mem {i : Instr} {kind vl : Nat} (hi : (i, kind, vl) ∈
      [(Instr.collectiveDataFlitReceive, 2, 4), (.collectiveControlFlitReceive, 3, 5)])
    (hk : f.kind = kind) (hseq : f.seq = (linkOf s s.cur.link).rxSeq) :
    (vl = 4 ∨ vl = 5) ∧ exec i s = .next
      (collOffer (setLink s s.cur.link (queueFlit (turnTaken s f r) vl f)) (s.cur.link / 9) (s.cur.link % 9)) := by
  have hturn (take : LinkS → Flit → State) := congrArg (Host.Outcome.next (φ := Fault) (ρ := Refusal))
    (sequenced_of_inTurn hw hup hcrc hk hseq take)
  simp only [List.mem_cons, Prod.mk.injEq, List.not_mem_nil, or_false] at hi
  obtain ⟨rfl, rfl, rfl⟩ | ⟨rfl, rfl, rfl⟩ := hi
  · exact ⟨.inl rfl, hturn _⟩
  · exact ⟨.inr rfl, hturn _⟩

theorem exec_retryRequestFlitReceive_of_request (hk : f.kind = 4) : exec .retryRequestFlitReceive s =
    .next (if 16 ≤ (retryAsked s.now (ackTaken s f r) f).retryRun then
      linkDown (setLink s s.cur.link (retryAsked s.now (ackTaken s f r) f)) s.cur.link
    else setLink s s.cur.link (retryAsked s.now (ackTaken s f r) f)) := by
  exact congrArg Host.Outcome.next (arriving_of_kind hw hup hcrc hk _)
end

/-- Settles O57, by the order in which an end sends and by what each kind of flit does. -/
theorem linkFlits : Obligations.LinkFlits := by
  intro s l b x
  refine ⟨exec_linkFlitSend_of_not_up, fun hup => ?send, fun f r hw hup => ?receive⟩
  case send =>
    intro y sends idle takes
    have hsend {z : LinkS} (h : sendOne s.now x = z) : sends z := by
      rw [← h]; exact exec_linkFlitSend_of_up hup
    refine ⟨fun hask => hsend (sendOne_of_askRetry _ hask), fun hask f r hre => hsend (sendOne_of_resend _ hask hre),
      fun hask hre hfull => hsend (sendOne_of_full _ hask hre hfull), fun hask hre hbuf =>
        ⟨fun f r h6 hdue => hsend ?_, fun h6 => ⟨fun v z f r hpick hlane => ?_, fun hpick => hsend ?_⟩⟩⟩
    · rw [sendOne_of_vl6 _ hask hre hbuf h6 hdue, sendNew_of_held s.now (x := y) h6]
      rfl
    · obtain ⟨hlt, hready, coll, left, ls, lc, rfl⟩ := pickLane_cases hpick
      refine ⟨hsend ?_, ?_, hlt⟩
      · rw [sendOne_of_lanes _ hask hre hbuf h6]
        simp only [show pickLane { x with off := offBits x } = _ from hpick]
        exact sendNew_of_held s.now hlane
      · simp only [laneReady, Bool.and_eq_true, Bool.not_eq_true'] at hready
        exact hready.2
    · rw [sendOne_of_lanes _ hask hre hbuf h6]
      simp only [show pickLane { x with off := offBits x } = _ from hpick]
      rfl
  case receive =>
    intro y taken
    refine ⟨exec_flitCrcFailure_of_bad hw hup, fun hcrc => ⟨fun o os hbuf => takeAck_buf _ _ _ hbuf, fun hk => ?idle,
      fun i kind hi hk hseq => ?astray, fun hk hseq => ?stream, fun hk hseq hroom =>
        exec_managementFlitReceive_of_inTurn hw hup hcrc hk hseq hroom, fun i kind vl hi hk hseq => ?collective,
      fun hk => ?retry⟩⟩
    case idle => rw [exec_idleFlitReceive_of_idle hw hup hcrc hk, askAgain_unless]; rfl
    case astray => rw [exec_astray_of_mem hw hup hcrc hi hk hseq, askAgain_once]; rfl
    case stream =>
      rw [exec_streamDataFlitReceive_of_inTurn hw hup hcrc hk hseq, queueFlit, tabMod, turnTaken_rxq]
      rfl
    case collective =>
      obtain ⟨hvl, hexec⟩ := exec_collective_of_mem hw hup hcrc hi hk hseq
      refine ⟨fun hnone => ?none, ?one⟩
      case none =>
        obtain ⟨rxq, hoffer, hrxq⟩ := collOffer_setLink_of_none hnone (queueFlit (turnTaken s f r) vl f)
        rw [hoffer] at hexec
        refine ⟨_, hexec, onlyLink_setLink s l _, ?_⟩
        rw [linkOf_setLink_same]
        refine ⟨rfl, fun v => ?_⟩
        rw [hrxq, tabGet_queueFlit, turnTaken_rxq]
      case one =>
        intro j c hc hready hring hprev hline hstep k htag h4 h5 was now c'
        have hwait : AwaitsFlit c (l % 9) f := ⟨hready, hring, hprev, hline, hstep, htag⟩
        have hlanes : vl = 4 ∧ tabGet (queueFlit (turnTaken s f r) vl f).rxq [] 4 = [f] ∧
              tabGet (queueFlit (turnTaken s f r) vl f).rxq [] 5 = [] ∨
            vl = 5 ∧ tabGet (queueFlit (turnTaken s f r) vl f).rxq [] 4 = [] ∧
              tabGet (queueFlit (turnTaken s f r) vl f).rxq [] 5 = [f] := by
          obtain rfl | rfl := hvl
          · exact .inl ⟨rfl, by rw [tabGet_queueFlit, turnTaken_rxq, h4]; rfl,
              by rw [tabGet_queueFlit, turnTaken_rxq, h5]; rfl⟩
          · exact .inr ⟨rfl, by rw [tabGet_queueFlit, turnTaken_rxq, h4]; rfl,
              by rw [tabGet_queueFlit, turnTaken_rxq, h5]; rfl⟩
        have hempty (y : LinkS) : tabGet (laneKeeps 5 [] (laneKeeps 4 [] y)).rxq [] vl = [] := by
          obtain rfl | rfl := hvl
          · exact (tabGet_tabSet_ne _ _ _ (by decide)).trans (tabGet_tabSet_same _ _ _ _)
          · exact tabGet_tabSet_same _ _ _ _
        refine ⟨fun hd => ?down, fun hd hcame => ?joined⟩
        case down =>
          rw [collOffer_of_taken (fun z => collTake_of_down hc hwait hd) hlanes] at hexec
          refine ⟨_, hexec, onlyLink_setLink s l _, ?_⟩
          rw [linkOf_setLink_same]
          exact hempty _
        case joined =>
          have hjoined : c' = flitJoined c f := by subst hk; rfl
          rw [hjoined] at hcame ⊢
          rw [collOffer_of_taken (t := setColl s b j (flitJoined c f))
            (fun z => collTake_of_joined hc hwait hd hcame) hlanes] at hexec
          refine ⟨_, hexec, rfl, collOf_setColl s b j _, ?_⟩
          rw [linkOf_setLink_same]
          exact hempty _
    case retry =>
      intro run n z
      have hseq : y.retrySeq = x.retrySeq := takeAck_retrySeq _ _ f
      have hcount : y.retry = x.retry := takeAck_retry _ _ f
      have hrun : (retryAsked s.now y f).retryRun = run := by rw [retryAsked_retryRun, hseq]
      have hz : retryAsked s.now y f = z := by
        show { retryAsked s.now y f with retryRun := (retryAsked s.now y f).retryRun } = z
        rw [hrun, retryAsked, hcount]
        rfl
      have hexec := exec_retryRequestFlitReceive_of_request hw hup hcrc hk
      rw [show ackTaken s f r = y from rfl, hrun, hz] at hexec
      refine ⟨fun hlt => ?few, fun hle => ?many⟩
      case few => rw [hexec, if_neg (Nat.not_le.mpr hlt)]
      case many =>
        rw [if_pos hle] at hexec
        have hlive : (linkOf (setLink s l z) l).st ≠ .down := by
          rw [linkOf_setLink_same]
          exact (takeAck_st _ _ f).trans_ne (hup.trans_ne (by simp))
        obtain ⟨hmem, hlink, hcolls, harr⟩ := linkLost_linkDown hlive
        rw [linkOf_setLink_same] at hlink
        exact ⟨_, hexec, hmem, hlink, hcolls, harr⟩

end Sys2Proof.Machine

namespace Sys2Proof.Machine
open Sys2Proof

/-! The host port's state: queue pairs, the frames that wait to go out, and the requests that await their
acknowledgement. -/

section
variable (s : State) (k : Nat) (f : QpS → QpS)

@[simp] theorem modQp_cur : (modQp s k f).cur = s.cur := rfl

@[simp] theorem qpOf_modQp_same : qpOf (modQp s k f) k = f (qpOf s k) := tabGet_tabMod_same ..

theorem qpOf_modQp_ne {j : Nat} (h : j ≠ k) : qpOf (modQp s k f) j = qpOf s j := tabGet_tabMod_ne _ _ _ _ h
end

/-- A frame joins those that wait to go out or to enter a reservation; the rest of the port stands. -/
theorem readyFrame_eq (s : State) (g : Nat) (f : Frame) : ∃ tx txWait txFree,
    readyFrame s g f = { s with port := { s.port with
      ordNext := s.port.ordNext + 1, tx := tx, txWait := txWait, txFree := txFree } } := by
  unfold readyFrame enterTx
  dsimp only
  split
  · split
    · exact ⟨_, _, _, rfl⟩
    · exact ⟨_, _, _, rfl⟩
  · exact ⟨_, _, _, rfl⟩

theorem readyReq_eq (s : State) (k : Nat) (p : RocePkt) (w : QpWork) : ∃ tx txWait txFree,
    readyReq s k p w = { s with port := { s.port with
      ordNext := s.port.ordNext + 1, tx := tx, txWait := txWait, txFree := txFree } } := by
  unfold readyReq readyFree
  split
  · exact readyFrame_eq ..
  · exact readyFrame_eq ..
  · exact readyFrame_eq ..

/-- The request a queue pair makes of a packet. -/
def numbered (q : QpS) (p : RocePkt) : RocePkt := { p with psn := q.sPsn, qpn := q.remote }

theorem sendReq_of_rts {s : State} {k : Nat} (h : (qpOf s k).st = .rts) (p : RocePkt) (n : Nat) (w : QpWork) :
    sendReq s k p n w = modQp (readyReq s k (numbered (qpOf s k) p) w) k (fun q =>
      { q with sPsn := (q.sPsn + n) % 2 ^ 24, out := q.out ++ [((qpOf s k).sPsn, numbered (qpOf s k) p, w)]
               at_ := if q.out.isEmpty then s.now else q.at_ }) := if_pos h

/-- The queue pair after a request of it. -/
theorem qpOf_sendReq {s : State} {k : Nat} (h : (qpOf s k).st = .rts) (p : RocePkt) (n : Nat) (w : QpWork) :
    qpOf (sendReq s k p n w) k = { qpOf s k with
      sPsn := ((qpOf s k).sPsn + n) % 2 ^ 24
      out := (qpOf s k).out ++ [((qpOf s k).sPsn, numbered (qpOf s k) p, w)]
      at_ := if (qpOf s k).out.isEmpty then s.now else (qpOf s k).at_ } := by
  obtain ⟨_, _, _, hready⟩ := readyReq_eq s k (numbered (qpOf s k) p) w
  rw [sendReq_of_rts h, qpOf_modQp_same, hready]
  rfl

/-- A request changes the port only. -/
theorem sendReq_frame (s : State) (k : Nat) (p : RocePkt) (n : Nat) (w : QpWork) :
    ∃ port, sendReq s k p n w = { s with port := port } := by
  by_cases h : (qpOf s k).st = .rts
  · obtain ⟨_, _, _, hready⟩ := readyReq_eq s k (numbered (qpOf s k) p) w
    rw [sendReq_of_rts h, hready]
    exact ⟨_, rfl⟩
  · exact ⟨s.port, if_neg h⟩

end Sys2Proof.Machine

namespace Sys2Proof.Machine
open Sys2Proof

/-! The checkpoint stream (R45, R87). -/

-- Commands and the end

theorem ckPerBh_eq : ckPerBh = 458752 := by decide

theorem quietAll_iff (s : State) :
    (List.range 16).all (fun b => !bitB s.hub.ckMask b || ckQuiet s b) = true ↔
      ∀ b < 16, s.hub.ckMask.getLsbD b = true → ckQuiet s b = true := by
  simp only [List.all_eq_true, List.mem_range, Bool.or_eq_true, Bool.not_eq_true', bitB]
  exact forall₂_congr fun b _ => by cases s.hub.ckMask.getLsbD b <;> simp

/-- Whether a request is a checkpoint record's. -/
def ofCkpt (w : QpWork) : Bool := match w with | .ckpt _ => true | _ => false

theorem ofCkpt_eq_false {w : QpWork} : ofCkpt w = false ↔ ∀ g, w ≠ .ckpt g := by cases w <;> simp [ofCkpt]

theorem execCheckpointEnd_eq (s : State) : execCheckpointEnd s = .next (
    let h := s.hub
    if h.ckBusy && (h.ckStop.isSome || (ckBhs s).length * ckPerBh ≤ h.ckRec) &&
        (!(qpOf s (qpKey psf h.ckRun.qp)).out.any (fun o => ofCkpt o.2.2) || h.ckStop = some 3) then
      { s with hub := { h with ckBusy := false, ckErr := h.ckStop.getD 0, ckStop := none } }
    else s) := rfl

-- The length of a sealed record

@[simp] theorem length_xorBytes (a b : List Byte) : (xorBytes a b).length = min a.length b.length :=
  List.length_zipWith

@[simp] theorem length_aesShift (b : List Byte) : (aesShift b).length = 16 := by simp [aesShift]

@[simp] theorem length_aesMix (b : List Byte) : (aesMix b).length = 16 := by simp [aesMix]

@[simp] theorem length_beBytes (n x : Nat) : (beBytes n x).length = n := by simp [beBytes]

theorem listGet_mem {α : Type} {l : List α} (d : α) {i : Nat} (h : i < l.length) : listGet l d i ∈ l := by
  rw [listGet, List.getD_eq_getElem _ _ h]
  exact List.getElem_mem h

/-- A key schedule: 16 bytes for each round. -/
def RoundKeys (ks : List (List Byte)) : Prop := ks ≠ [] ∧ ∀ k ∈ ks, k.length = 16

theorem length_aesBlock {ks : List (List Byte)} {b : List Byte} (hk : RoundKeys ks) (hb : b.length = 16) :
    (aesBlock ks b).length = 16 := by
  obtain ⟨hne, hall⟩ := hk
  obtain ⟨k, ks, rfl⟩ := List.exists_cons_of_ne_nil hne
  have hstart : (xorBytes b k).length = 16 := by simp [hb, hall k (by simp)]
  refine List.foldlRecOn (motive := fun b : List Byte => b.length = 16) _ _ hstart fun b _ kj hkj => ?_
  have hlen : kj.1.length = 16 := hall _ (by
    have := List.fst_mem_of_mem_zipIdx hkj
    exact List.mem_cons_of_mem _ this)
  rw [length_xorBytes, hlen, apply_ite List.length]
  simp

theorem length_aesNextWord {i : Nat} {ws : List (List Byte)} (hn : 8 ≤ ws.length) (hw : ∀ w ∈ ws, w.length = 4) :
    (aesNextWord i ws).length = 4 := by
  obtain ⟨t, ws', rfl⟩ := List.exists_cons_of_length_pos (by omega : 0 < ws.length)
  have ht : t.length = 4 := hw t (by simp)
  have hold : (listGet (t :: ws') [] 7).length = 4 := hw _ (listGet_mem _ hn)
  unfold aesNextWord
  split_ifs <;> simp [ht, hold]

/-- The words of a key schedule so far. -/
def KeyWords (n : Nat) (ws : List (List Byte)) : Prop := ws.length = 8 + n ∧ ∀ w ∈ ws, w.length = 4

theorem keyWords_step {n i : Nat} {ws : List (List Byte)} (h : KeyWords n ws) :
    KeyWords (n + 1) (aesNextWord i ws :: ws) := by
  obtain ⟨hn, hw⟩ := h
  refine ⟨by simp [hn]; omega, ?_⟩
  simp only [List.mem_cons, forall_eq_or_imp]
  exact ⟨length_aesNextWord (by omega) hw, hw⟩

theorem keyWords_foldl {ws : List (List Byte)} (h : KeyWords 0 ws) (n : Nat) :
    KeyWords n ((List.range n).foldl (fun ws i => aesNextWord (i + 8) ws :: ws) ws) := by
  induction n with
  | zero => exact h
  | succ n ih =>
    rw [List.range_succ, List.foldl_append]
    exact keyWords_step ih

theorem roundKeys_aesKeys {key : List Byte} (hkey : key.length = 32) : RoundKeys (aesKeys key) := by
  have hfirst : KeyWords 0 ((List.range 8).map (fun i => (key.drop (4 * i)).take 4)).reverse := by
    refine ⟨by simp, fun w hw => ?_⟩
    obtain ⟨i, hi, rfl⟩ := List.mem_map.1 (List.mem_reverse.1 hw)
    have := List.mem_range.1 hi
    simp [hkey]
    omega
  obtain ⟨hlen, hall⟩ := keyWords_foldl hfirst 52
  refine ⟨by simp [aesKeys], fun k hk => ?_⟩
  obtain ⟨r, hr, rfl⟩ := List.mem_map.1 hk
  have hr := List.mem_range.1 hr
  have hword (i : Nat) (hi : i < 4) : (listGet ((List.range 52).foldl (fun ws i => aesNextWord (i + 8) ws :: ws)
      ((List.range 8).map (fun i => (key.drop (4 * i)).take 4)).reverse).reverse [] (4 * r + i)).length = 4 :=
    hall _ (List.mem_reverse.1 (listGet_mem _ (by rw [List.length_reverse, hlen]; omega)))
  simp only [List.length_flatMap]
  rw [List.map_congr_left (g := fun _ => 4) (fun i hi => hword i (List.mem_range.1 hi))]
  rfl

theorem length_blocks16 (bs : List Byte) : (blocks16 bs).length = (bs.length + 15) / 16 := by simp [blocks16]

theorem length_of_mem_blocks16 {bs b : List Byte} (h : b ∈ blocks16 bs) : b.length = 16 := by
  obtain ⟨i, -, rfl⟩ := List.mem_map.1 h
  simp

theorem length_flatMap_of_forall {α β : Type} {l : List α} {f : α → List β} {n : Nat}
    (h : ∀ a ∈ l, (f a).length = n) : (l.flatMap f).length = l.length * n := by
  rw [List.length_flatMap, List.map_congr_left h]
  simp

/-- The cipher text is as long as the plain text, and the tag has 16 bytes. -/
theorem length_aesGcm {key : List Byte} (hkey : key.length = 32) (iv : BitVec 96) (bs : List Byte) :
    (aesGcm key iv bs).1.length = bs.length ∧ (aesGcm key iv bs).2.length = 16 := by
  have hks := roundKeys_aesKeys hkey
  have hctr (i : Nat) : (aesBlock (aesKeys key) (beBytes 12 iv.toNat ++ beBytes 4 i)).length = 16 :=
    length_aesBlock hks (by simp)
  constructor
  · have hall : ((blocks16 bs).zipIdx.flatMap (fun b => xorBytes b.1
        (aesBlock (aesKeys key) (beBytes 12 iv.toNat ++ beBytes 4 (b.2 + 2))))).length =
          (blocks16 bs).zipIdx.length * 16 :=
      length_flatMap_of_forall fun b hb => by
        rw [length_xorBytes, hctr, length_of_mem_blocks16 (List.fst_mem_of_mem_zipIdx hb)]
        rfl
    show (List.take bs.length _).length = _
    rw [List.length_take, hall, List.length_zipIdx, length_blocks16]
    omega
  · show (xorBytes _ _).length = 16
    rw [length_xorBytes, hctr, length_beBytes]
    rfl

theorem length_ckRecord (s : State) (l : Nat) {ls : List (BitVec 512 × Bool)} (h : ls.length = 1024) :
    (ckRecord s l ls).length = 65696 := by
  have hlines : (ls.flatMap (fun x => if x.2 then List.replicate 64 0 else lineBytes x.1)).length = 1024 * 64 := by
    rw [length_flatMap_of_forall (n := 64), h]
    intro x _
    split_ifs <;> simp [lineBytes]
  simp only [ckRecord, List.length_append, hlines, length_leBytes]

/-- The bytes of the key that a stream is sealed under. -/
def ckKeyBytes (s : State) : List Byte :=
  (List.range 8).flatMap (fun i => leBytes 4 (tabGet s.hub.ckRun.key 0 i).toNat)

/-- The cipher text and the tag of a record. -/
def ckCipher (s : State) (l : Nat) (ls : List (BitVec 512 × Bool)) : List Byte × List Byte :=
  aesGcm (ckKeyBytes s) (BitVec.ofNat 96 (s.hub.ckRun.seq.toNat * 2 ^ 64 + s.hub.ckRec % 2 ^ 64)) (ckRecord s l ls)

theorem ckSealed_eq (s : State) (l : Nat) (ls : List (BitVec 512 × Bool)) :
    ckSealed s l ls = (ckCipher s l ls).1 ++ (ckCipher s l ls).2 := by
  unfold ckSealed ckCipher ckKeyBytes
  dsimp only

theorem length_ckSealed (s : State) (l : Nat) {ls : List (BitVec 512 × Bool)} (h : ls.length = 1024) :
    (ckSealed s l ls).length = 65712 := by
  have hkey : (ckKeyBytes s).length = 32 := by
    rw [ckKeyBytes, length_flatMap_of_forall (n := 4) (fun _ _ => length_leBytes _ _)]
    rfl
  obtain ⟨hc, ht⟩ := length_aesGcm hkey
    (BitVec.ofNat 96 (s.hub.ckRun.seq.toNat * 2 ^ 64 + s.hub.ckRec % 2 ^ 64)) (ckRecord s l ls)
  rw [ckSealed_eq, List.length_append, ckCipher, hc, ht, length_ckRecord s l h]

-- What reading a record leaves alone

/-- The host port and the stream are as they were. -/
structure KeepsStream (s t : State) : Prop where
  port : t.port = s.port
  run : t.hub.ckRun = s.hub.ckRun
  recNo : t.hub.ckRec = s.hub.ckRec

theorem KeepsStream.refl (s : State) : KeepsStream s s := ⟨rfl, rfl, rfl⟩

theorem KeepsStream.trans {s t u : State} (h : KeepsStream s t) (g : KeepsStream t u) : KeepsStream s u :=
  ⟨g.port.trans h.port, g.run.trans h.run, g.recNo.trans h.recNo⟩

/-- A state that differs in the error records only. -/
theorem logErr_eq (s : State) (cls bh part syn region line n : Nat) : ∃ buf drop,
    logErr s cls bh part syn region line n = { s with hub := { s.hub with errBuf := buf, errDrop := drop } } := by
  unfold logErr
  dsimp only
  split
  · exact ⟨_, _, rfl⟩
  split
  · exact ⟨_, _, rfl⟩
  · exact ⟨_, _, rfl⟩

theorem logLine_eq (s : State) (cls syn l : Nat) : ∃ buf drop,
    logLine s cls syn l = { s with hub := { s.hub with errBuf := buf, errDrop := drop } } := by
  unfold logLine
  dsimp only
  split
  · exact logErr_eq ..
  · exact logErr_eq ..

theorem keepsStream_logLine (s : State) (cls syn l : Nat) : KeepsStream s (logLine s cls syn l) := by
  obtain ⟨_, _, h⟩ := logLine_eq s cls syn l
  rw [h]
  exact ⟨rfl, rfl, rfl⟩

theorem keepsStream_modArr (s : State) (p : Nat) (f : ArrayS → ArrayS) : KeepsStream s (modArr s p f) := ⟨rfl, rfl, rfl⟩

theorem keepsStream_modSlice (s : State) (k : Nat) (f : SliceS → SliceS) : KeepsStream s (modSlice s k f) :=
  ⟨rfl, rfl, rfl⟩

theorem keepsStream_foldl {ι : Type} {step : State → ι → State} (h : ∀ s i, KeepsStream s (step s i)) (l : List ι)
    (s : State) : KeepsStream s (l.foldl step s) := foldl_induct .refl .trans h l s

theorem keepsStream_regionRo (s : State) (l : Nat) : KeepsStream s (regionRo s l) := by
  refine KeepsStream.trans (t := modPart s _ _) ⟨rfl, rfl, rfl⟩ (keepsStream_foldl (fun u q => ?_) _ _)
  split
  · exact .refl u
  · exact keepsStream_modArr ..

theorem keepsStream_mergeRead (s : State) (r : StackReq) (l : Nat) : KeepsStream s (mergeRead s r l).2 := by
  unfold mergeRead
  split
  · exact .refl s
  · split
    · exact keepsStream_logLine ..
    · exact keepsStream_logLine ..
    · exact keepsStream_logLine ..
    · exact .refl s

theorem keepsStream_ctlWrite (s : State) (r : StackReq) (l : Nat) : KeepsStream s (ctlWrite s r l).1 := by
  unfold ctlWrite
  dsimp only
  split
  · exact .refl s
  split
  · exact KeepsStream.trans (KeepsStream.trans (t := putLine s l _ _) ⟨rfl, rfl, rfl⟩ (keepsStream_logLine ..))
      (keepsStream_regionRo ..)
  · exact (keepsStream_mergeRead s r l).trans ⟨rfl, rfl, rfl⟩

/-- Reading at once from a controller at most logs an error. -/
theorem ctlRead_fst (s : State) (r : StackReq) (l : Nat) :
    (ctlRead s r l).1 = s ∨ ∃ cls syn, (ctlRead s r l).1 = logLine s cls syn l := by
  unfold ctlRead
  dsimp only
  split
  · exact .inl rfl
  split
  · exact .inl rfl
  split
  · exact .inr ⟨_, _, rfl⟩
  · exact .inr ⟨_, _, rfl⟩
  · exact .inr ⟨_, _, rfl⟩
  · exact .inl rfl

theorem ctlPerform_rd64_fst (s : State) (k : Nat) {r : StackReq} (hr : r.kind = .rd64) (l : Nat) :
    (ctlPerform s k r l).1 = s ∨ ∃ cls syn, (ctlPerform s k r l).1 = logLine s cls syn l := by
  unfold ctlPerform
  split
  · dsimp only
    split
    · exact .inl rfl
    · exact .inr ⟨_, _, rfl⟩
  · rw [hr]
    exact ctlRead_fst s r l

theorem keepsStream_of_logs {s t : State} {l : Nat} (h : t = s ∨ ∃ cls syn, t = logLine s cls syn l) :
    KeepsStream s t := by
  obtain rfl | ⟨cls, syn, rfl⟩ := h
  · exact .refl _
  · exact keepsStream_logLine ..

theorem keepsStream_ctlPerform (s : State) (k : Nat) (r : StackReq) (l : Nat) :
    KeepsStream s (ctlPerform s k r l).1 := by
  by_cases hr : r.kind = .rd64
  · exact keepsStream_of_logs (ctlPerform_rd64_fst s k hr l)
  · unfold ctlPerform
    split
    · dsimp only
      split
      · exact .refl s
      · exact keepsStream_logLine ..
    · dsimp only
      split
      · next h => exact absurd h hr
      · exact keepsStream_ctlWrite s r l

theorem keepsStream_giveReply (s : State) (k : Nat) (r : StackReq) (x : StackReply) :
    KeepsStream s (giveReply s k r x) := by
  unfold giveReply netSend
  dsimp only
  split
  · exact ⟨rfl, rfl, rfl⟩
  · exact ⟨rfl, rfl, rfl⟩

/-- The requests of a line that wait at its controller. -/
def lineReqs (s : State) (l : Nat) : List StackReq × List StackReq :=
  (stackOf s (lineStack l)).reqs.partition (fun r => r.line == stackLine l)

/-- One of them performed and answered. -/
def performReq (l : Nat) (s : State) (r : StackReq) : State :=
  match ctlPerform s (lineStack l) r l with
  | (s, some x) => giveReply s (lineStack l) r x
  | (s, none) => s

theorem ctlFlush_eq (s : State) (l : Nat) : ctlFlush s l = if (lineReqs s l).1.isEmpty then s else
    (lineReqs s l).1.foldl (performReq l) (modStack s (lineStack l) (fun x => { x with reqs := (lineReqs s l).2 })) := rfl

theorem keepsStream_performReq (l : Nat) (s : State) (r : StackReq) : KeepsStream s (performReq l s r) := by
  have h := keepsStream_ctlPerform s (lineStack l) r l
  unfold performReq
  split
  · next e =>
    rw [e] at h
    exact h.trans (keepsStream_giveReply ..)
  · next e =>
    rw [e] at h
    exact h

/-- The port and the stream stand, and where nothing waits at the stacks memory stands and nothing comes to wait. -/
structure StreamRead (s t : State) : Prop where
  kept : KeepsStream s t
  idle : (∀ j, (stackOf s j).reqs = []) → t.mem = s.mem ∧ ∀ j, (stackOf t j).reqs = []

theorem StreamRead.refl (s : State) : StreamRead s s := ⟨.refl s, fun h => ⟨rfl, h⟩⟩

theorem StreamRead.trans {s t u : State} (h : StreamRead s t) (g : StreamRead t u) : StreamRead s u := by
  refine ⟨h.kept.trans g.kept, fun hs => ?_⟩
  obtain ⟨hmem, ht⟩ := h.idle hs
  obtain ⟨gmem, hu⟩ := g.idle ht
  exact ⟨gmem.trans hmem, hu⟩

theorem streamRead_modSlice (s : State) (k : Nat) (f : SliceS → SliceS) : StreamRead s (modSlice s k f) :=
  ⟨keepsStream_modSlice s k f, fun h => ⟨rfl, h⟩⟩

theorem streamRead_logLine (s : State) (cls syn l : Nat) : StreamRead s (logLine s cls syn l) := by
  refine ⟨keepsStream_logLine s cls syn l, fun h => ?_⟩
  obtain ⟨_, _, e⟩ := logLine_eq s cls syn l
  rw [e]
  exact ⟨rfl, h⟩

theorem streamRead_of_logs {s t : State} {l : Nat} (h : t = s ∨ ∃ cls syn, t = logLine s cls syn l) :
    StreamRead s t := by
  obtain rfl | ⟨cls, syn, rfl⟩ := h
  · exact .refl _
  · exact streamRead_logLine ..

theorem streamRead_ctlFlush (s : State) (l : Nat) : StreamRead s (ctlFlush s l) := by
  rw [ctlFlush_eq]
  split
  · exact .refl s
  · next hne =>
    refine ⟨KeepsStream.trans (t := modStack s _ _) ⟨rfl, rfl, rfl⟩
      (keepsStream_foldl (keepsStream_performReq l) _ _), fun h => absurd ?_ hne⟩
    rw [lineReqs, h (lineStack l)]
    rfl

/-- A read at once, after the requests of its line. -/
theorem streamRead_ctlNow_rd64 (s : State) (l key prot : Nat) :
    StreamRead s (ctlNow s .rd64 l key prot 0 0 false).1 :=
  (streamRead_ctlFlush s l).trans (streamRead_of_logs (ctlPerform_rd64_fst _ _ rfl l))

theorem streamRead_meetUe (s : State) (k l : Nat) : StreamRead s (meetUe s k l) := by
  unfold meetUe
  split
  · dsimp only
    split
    · exact .refl s
    split
    · exact (streamRead_logLine ..).trans (streamRead_modSlice ..)
    · exact (streamRead_logLine ..).trans (streamRead_modSlice ..)
  · exact .refl s

theorem streamRead_ckMeetUe (s : State) (l : Nat) : StreamRead s (ckMeetUe s l) :=
  foldl_induct .refl .trans (fun u _ => streamRead_meetUe u _ _) _ s

theorem streamRead_ckRead (s : State) (l : Nat) : StreamRead s (ckRead s l).1 := by
  have hnow := streamRead_ctlNow_rd64 s l (lineMeta s l).slot (lineMeta s l).prot
  unfold ckRead
  dsimp only
  split
  · split
    · next e =>
      rw [e] at hnow
      exact hnow
    · next e =>
      rw [e] at hnow
      exact hnow
  split
  · exact .refl s
  generalize (if metaState s l = 2 then LineErr.uncorrectable else _) = e
  cases e with
  | uncorrectable => exact streamRead_logLine ..
  | tag => exact streamRead_logLine ..
  | corrected n => exact streamRead_logLine ..
  | none =>
    dsimp only
    split
    · exact streamRead_logLine ..
    · exact .refl s

theorem streamRead_ckLine (s : State) (l : Nat) : StreamRead s (ckLine s l).1 := by
  unfold ckLine
  dsimp only
  split
  · exact .refl s
  split
  · split
    · exact streamRead_ckRead s l
    split
    · exact .refl s
    · exact streamRead_ckRead s l
  · exact streamRead_ckRead s l

/-- The next line of a record. -/
def ckNext (buf : Tab (BitVec 512 × Bool)) (l : Nat) (x : State × List (BitVec 512 × Bool)) (i : Nat) :
    State × List (BitVec 512 × Bool) :=
  match tabFind buf i with
  | some v => (x.1, x.2 ++ [v])
  | none => ((ckLine x.1 (l + i)).1, x.2 ++ [(ckLine x.1 (l + i)).2])

theorem ckLines_eq (s : State) (l : Nat) : ckLines s l = (List.range 1024).foldl (ckNext s.hub.ckBuf l) (s, []) := by
  unfold ckLines
  congr 1
  funext x i
  unfold ckNext
  cases tabFind s.hub.ckBuf i <;> rfl

theorem ckLines_induct (s : State) (l n : Nat) :
    let y := (List.range n).foldl (ckNext s.hub.ckBuf l) (s, [])
    StreamRead s y.1 ∧ y.2.length = n := by
  induction n with
  | zero => exact ⟨.refl s, rfl⟩
  | succ n ih =>
    obtain ⟨hread, hlen⟩ := ih
    rw [List.range_succ, List.foldl_append, List.foldl_cons, List.foldl_nil]
    generalize (List.range n).foldl (ckNext s.hub.ckBuf l) (s, []) = y at hread hlen ⊢
    dsimp only [ckNext]
    cases tabFind s.hub.ckBuf n with
    | some v => exact ⟨hread, by simp [hlen]⟩
    | none => exact ⟨hread.trans (streamRead_ckLine ..), by simp [hlen]⟩

theorem streamRead_ckLines (s : State) (l : Nat) : StreamRead s (ckLines s l).1 := by
  rw [ckLines_eq]
  exact (ckLines_induct s l 1024).1

theorem length_ckLines (s : State) (l : Nat) : (ckLines s l).2.length = 1024 := by
  rw [ckLines_eq]
  exact (ckLines_induct s l 1024).2

-- The requests of a record

/-- Some states of a queue pair on: it has sent m requests, all of which P holds of. -/
structure SentOn (k : Nat) (P : Nat × RocePkt × QpWork → Prop) (m : Nat) (s t : State) : Prop where
  mem : t.mem = s.mem
  st : (qpOf t k).st = .rts
  psn : m ≠ 0 → (qpOf t k).sPsn = ((qpOf s k).sPsn + m) % 2 ^ 24
  start : m = 0 → t = s
  out : ∃ l, (qpOf t k).out = (qpOf s k).out ++ l ∧ l.length = m ∧ ∀ o ∈ l, P o

theorem sentOn_foldl {s : State} {k : Nat} {P : Nat × RocePkt × QpWork → Prop} {pkt : Nat → RocePkt} {w : QpWork}
    (hst : (qpOf s k).st = .rts) (hP : ∀ i n q, P (n, numbered q (pkt i), w)) (m : Nat) :
    SentOn k P m s ((List.range m).foldl (fun u i => sendReq u k (pkt i) 1 w) s) := by
  induction m with
  | zero => exact ⟨rfl, hst, fun h => absurd rfl h, fun _ => rfl, [], by simp, rfl, by simp⟩
  | succ m ih =>
    rw [List.range_succ, List.foldl_append, List.foldl_cons, List.foldl_nil]
    generalize (List.range m).foldl (fun u i => sendReq u k (pkt i) 1 w) s = u at ih ⊢
    obtain ⟨hmem, ust, hpsn, hstart, l, hout, hlen, hl⟩ := ih
    obtain ⟨port', hsent⟩ := sendReq_frame u k (pkt m) 1 w
    have hqp := qpOf_sendReq ust (pkt m) 1 w
    refine ⟨by rw [hsent]; exact hmem, by rw [hqp]; exact ust, fun _ => ?_, fun h => absurd h (by omega),
      l ++ [((qpOf u k).sPsn, numbered (qpOf u k) (pkt m), w)], ?_, by simp [hlen], ?_⟩
    · rw [hqp]
      by_cases hm : m = 0
      · rw [hstart hm, hm]
      · show ((qpOf u k).sPsn + 1) % 2 ^ 24 = _
        rw [hpsn hm]
        omega
    · rw [hqp, ← List.append_assoc, ← hout]
    · simp only [List.mem_append, List.mem_singleton]
      rintro o (ho | rfl)
      · exact hl o ho
      · exact hP ..

/-- A record's bytes go out in pieces of n, each a write. -/
def ckWrites (k n base : Nat) (rkey : W32) (w : QpWork) (bs : List Byte) (s : State) : State :=
  (List.range ((bs.length + n - 1) / n)).foldl (fun s i =>
    let d := (bs.drop (n * i)).take n
    sendReq s k { op := .write, qpn := 0, psn := 0, va := base + n * i, rkey := rkey, len := d.length,
                  data := d } 1 w) s

theorem sentOn_ckWrites {s : State} {k : Nat} (hst : (qpOf s k).st = .rts) (n base : Nat) (rkey : W32) (w : QpWork)
    (bs : List Byte) : SentOn k (fun o => o.2.1.op = .write ∧ o.2.1.rkey = rkey ∧ o.2.1.data.length ≤ n)
      ((bs.length + n - 1) / n) s (ckWrites k n base rkey w bs s) :=
  sentOn_foldl hst (fun _ _ _ => ⟨rfl, rfl, List.length_take_le _ _⟩) _

/-- A record has been sent: the stream is at the next one. -/
def ckRecDone (r : Nat) (s : State) : State :=
  { s with hub := { s.hub with ckRec := r + 1, ckSent := false, ckBuf := [] } }

@[simp] theorem ckRecDone_mem (r : Nat) (s : State) : (ckRecDone r s).mem = s.mem := rfl
@[simp] theorem ckRecDone_ckRec (r : Nat) (s : State) : (ckRecDone r s).hub.ckRec = r + 1 := rfl
@[simp] theorem qpOf_ckRecDone (r : Nat) (s : State) (k : Nat) : qpOf (ckRecDone r s) k = qpOf s k := rfl

/-- The first line of the record that a stream is at. -/
def ckFirst (s : State) (b : Nat) : Nat := b * bhLines + s.hub.ckRec % ckPerBh * 1024

/-- The state in which the lines of that record have been read. -/
def ckTaken (s : State) (b : Nat) : State := (ckLines (ckMeetUe s (ckFirst s b)) (ckFirst s b)).1

/-- That record sealed. -/
def ckBytesNow (s : State) (b : Nat) : List Byte :=
  ckSealed (ckTaken s b) (ckFirst s b) (ckLines (ckMeetUe s (ckFirst s b)) (ckFirst s b)).2

/-- The reservation that the record's frames use. -/
def ckGroup (s : State) (b : Nat) : Nat := if (bhOf s b).own then (bhOf s b).part else 16

/-- The record that a stream is at is read, sealed and sent. -/
def ckSendRecord (s : State) (b : Nat) : State :=
  ckRecDone s.hub.ckRec (ckWrites (qpKey psf s.hub.ckRun.qp)
    (mtuBytes (qpOf (ckTaken s b) (qpKey psf s.hub.ckRun.qp))) (s.hub.ckRun.va + s.hub.ckRec * 65712) s.hub.ckRun.rkey
    (.ckpt (if (bhOf s b).own then some (ckGroup s b) else none)) (ckBytesNow s b) (ckTaken s b))

/-- The record that a stream is at, its lines read. -/
theorem ckSendRecord_eq {s : State} {b : Nat} {y : State × List (BitVec 512 × Bool)}
    (h : ckLines (ckMeetUe s (ckFirst s b)) (ckFirst s b) = y) :
    ckSendRecord s b = ckRecDone s.hub.ckRec (ckWrites (qpKey psf s.hub.ckRun.qp)
      (mtuBytes (qpOf y.1 (qpKey psf s.hub.ckRun.qp))) (s.hub.ckRun.va + s.hub.ckRec * 65712) s.hub.ckRun.rkey
      (.ckpt (if (bhOf s b).own then some (ckGroup s b) else none)) (ckSealed y.1 (ckFirst s b) y.2) y.1) := by
  rw [ckSendRecord, ckBytesNow, ckTaken, h]

theorem execCheckpointRecordSend_of_room {s : State} {b : Nat} (hb : (ckBhs s)[s.hub.ckRec / 458752]? = some b)
    (hbusy : s.hub.ckBusy = true) (hstop : s.hub.ckStop = none)
    (hst : (qpOf s (qpKey 512 s.hub.ckRun.qp)).st = .rts)
    (hroom : txRoom s (if (bhOf s b).own then (bhOf s b).part else 16)
      (80000 + (if (bhOf s b).own then 0 else (s.port.txFree.map (fun f => f.len)).sum)) = true) :
    execCheckpointRecordSend s = .next (ckSendRecord s b) := by
  rw [← ckPerBh_eq] at hb
  have hgo : ¬ ((!s.hub.ckBusy || s.hub.ckStop.isSome || decide ((qpOf s (qpKey psf s.hub.ckRun.qp)).st ≠ .rts) ||
      !txRoom s (if (bhOf s b).own then (bhOf s b).part else 16)
        (80000 + (if (bhOf s b).own then 0 else (s.port.txFree.map (fun f => f.len)).sum))) = true) := by
    rw [hbusy, hstop, show (qpOf s (qpKey psf s.hub.ckRun.qp)).st = .rts from hst, hroom]
    decide
  obtain ⟨⟨u, ls⟩, hy⟩ : ∃ y, ckLines (ckMeetUe s (ckFirst s b)) (ckFirst s b) = y := ⟨_, rfl⟩
  rw [ckSendRecord_eq hy]
  unfold execCheckpointRecordSend ckWrites ckRecDone
  -- neither the reading and sealing of the lines nor the loop that sends them is to be computed here
  generalize @List.foldl State Nat = loop
  generalize ckSealed = sealing
  generalize ckLines = lines at hy ⊢
  refine congrArg Host.Outcome.next ?_
  extract_lets +onlyGivenNames h k
  rw [hb]
  refine (if_neg hgo).trans ?_
  extract_lets +onlyGivenNames l
  rw [show lines (ckMeetUe s l) l = (u, ls) from hy]
  rfl

theorem streamRead_ckTaken (s : State) (b : Nat) : StreamRead s (ckTaken s b) := by
  rw [ckTaken]
  exact (streamRead_ckMeetUe s _).trans (streamRead_ckLines ..)

theorem length_ckBytesNow (s : State) (b : Nat) : (ckBytesNow s b).length = 65712 := by
  rw [ckBytesNow, length_ckSealed _ _ (length_ckLines _ _)]

theorem KeepsStream.qpOf {s t : State} (h : KeepsStream s t) (k : Nat) : qpOf t k = qpOf s k := by
  rw [Machine.qpOf, h.port, Machine.qpOf]

section
variable {s : State}

theorem exec_checkpointStart_of_busy (h : s.hub.ckBusy = true) :
    exec .checkpointStart s = .next { s with hub := { s.hub with ckErr := 1 } } :=
  congrArg Host.Outcome.next (if_pos h)

theorem exec_checkpointStart_of_unquiet (h : s.hub.ckBusy = false)
    (hquiet : ¬ ∀ b < 16, s.hub.ckMask.getLsbD b = true → ckQuiet s b = true) :
    exec .checkpointStart s = .next { s with hub := { s.hub with ckErr := 2 } } := by
  rw [← quietAll_iff, Bool.not_eq_true] at hquiet
  exact congrArg Host.Outcome.next ((if_neg (by simp [h])).trans (if_pos (by rw [hquiet]; rfl)))

theorem exec_checkpointStart_of_quiet (h : s.hub.ckBusy = false)
    (hquiet : ∀ b < 16, s.hub.ckMask.getLsbD b = true → ckQuiet s b = true) :
    exec .checkpointStart s = .next { s with hub := { s.hub with
      ckBusy := true, ckErr := 0, ckRec := 0, ckStop := none, ckSent := false, ckBuf := []
      ckRun := { qp := s.hub.ckQp, mask := s.hub.ckMask, rkey := s.hub.ckRkey,
                 va := s.hub.ckVah.toNat * 2 ^ 32 + s.hub.ckVal.toNat, seq := s.hub.ckSeq, key := s.hub.ckKey,
                 at_ := s.now } } } := by
  rw [← quietAll_iff] at hquiet
  exact congrArg Host.Outcome.next ((if_neg (by simp [h])).trans (if_neg (by rw [hquiet]; simp)))

theorem exec_checkpointAbort_of_running (h : s.hub.ckBusy = true) (hstop : s.hub.ckStop = none) :
    exec .checkpointAbort s = .next { s with hub := { s.hub with ckStop := some 4 } } :=
  congrArg Host.Outcome.next (if_pos (by rw [h, hstop]; rfl))

theorem exec_checkpointEnd_of_ended (h : s.hub.ckBusy = true)
    (hend : s.hub.ckStop ≠ none ∨ (ckBhs s).length * 458752 ≤ s.hub.ckRec)
    (hacked : (∀ o ∈ (qpOf s (qpKey 512 s.hub.ckRun.qp)).out, ∀ w, o.2.2 ≠ .ckpt w) ∨ s.hub.ckStop = some 3) :
    exec .checkpointEnd s = .next { s with hub := { s.hub with
      ckBusy := false, ckErr := s.hub.ckStop.getD 0, ckStop := none } } := by
  refine (execCheckpointEnd_eq s).trans (congrArg Host.Outcome.next (if_pos ?_))
  have hend' : (s.hub.ckStop.isSome || decide ((ckBhs s).length * ckPerBh ≤ s.hub.ckRec)) = true := by
    rw [ckPerBh_eq, Bool.or_eq_true, decide_eq_true_eq, Option.isSome_iff_ne_none]
    exact hend
  rw [h, hend', Bool.true_and, Bool.true_and, Bool.or_eq_true, decide_eq_true_eq, Bool.not_eq_true',
    List.any_eq_false]
  exact hacked.imp_left fun hout o ho => by rw [ofCkpt_eq_false.2 (hout o ho)]; exact Bool.false_ne_true

/-- A record of 65,712 bytes goes out in pieces of at most the path MTU. -/
theorem exec_checkpointRecordSend_of_room {b : Nat} (hb : (ckBhs s)[s.hub.ckRec / 458752]? = some b)
    (hbusy : s.hub.ckBusy = true) (hstop : s.hub.ckStop = none)
    (hst : (qpOf s (qpKey 512 s.hub.ckRun.qp)).st = .rts)
    (hroom : txRoom s (if (bhOf s b).own then (bhOf s b).part else 16)
      (80000 + (if (bhOf s b).own then 0 else (s.port.txFree.map (fun f => f.len)).sum)) = true) :
    let k := qpKey 512 s.hub.ckRun.qp
    let size := mtuBytes (qpOf s k)
    let m := (65712 + size - 1) / size
    ∃ t, exec .checkpointRecordSend s = .next t ∧ t.hub.ckRec = s.hub.ckRec + 1 ∧
      ((∀ j, (stackOf s j).reqs = []) → t.mem = s.mem) ∧
      (qpOf t k).sPsn = ((qpOf s k).sPsn + m) % 2 ^ 24 ∧ (qpOf t k).out.length = (qpOf s k).out.length + m ∧
      ∀ o ∈ (qpOf t k).out.drop (qpOf s k).out.length, o.2.1.op = .write ∧ o.2.1.rkey = s.hub.ckRun.rkey ∧
        o.2.1.data.length ≤ size := by
  intro k size m
  obtain ⟨hkept, hidle⟩ := streamRead_ckTaken s b
  have hqp := hkept.qpOf k
  have hm : m ≠ 0 := by
    have hsize : 0 < size := by simp [size, mtuBytes]
    exact (Nat.div_pos (by omega) hsize).ne'
  have hwrites := sentOn_ckWrites (s := ckTaken s b) (k := k) (by rw [hqp]; exact hst) size
    (s.hub.ckRun.va + s.hub.ckRec * 65712) s.hub.ckRun.rkey
    (.ckpt (if (bhOf s b).own then some (ckGroup s b) else none)) (ckBytesNow s b)
  rw [length_ckBytesNow] at hwrites
  have hsend : ckSendRecord s b = ckRecDone s.hub.ckRec (ckWrites k size (s.hub.ckRun.va + s.hub.ckRec * 65712)
      s.hub.ckRun.rkey (.ckpt (if (bhOf s b).own then some (ckGroup s b) else none)) (ckBytesNow s b)
      (ckTaken s b)) := by
    have hsize : mtuBytes (qpOf (ckTaken s b) (qpKey psf s.hub.ckRun.qp)) = size := congrArg mtuBytes hqp
    rw [ckSendRecord, hsize]
    rfl
  obtain ⟨hmem, -, hpsn, -, l, hout, hlen, hl⟩ := hwrites
  rw [hqp] at hpsn hout
  refine ⟨ckSendRecord s b, execCheckpointRecordSend_of_room hb hbusy hstop hst hroom, ?_⟩
  rw [hsend, ckRecDone_ckRec, ckRecDone_mem, qpOf_ckRecDone, hout, List.length_append, hlen, List.drop_left, hmem]
  exact ⟨rfl, fun hreqs => (hidle hreqs).1, hpsn hm, rfl, hl⟩
end

/-- Settles O53: a record's lines are read without touching the port or the stream, its sealed bytes number 65,712, and
each piece of them is one request. -/
theorem checkpointEvents : Obligations.CheckpointEvents := by
  unfold Obligations.CheckpointEvents
  intro s h quiet k
  exact ⟨exec_checkpointStart_of_busy, exec_checkpointStart_of_unquiet,
    fun hbusy hquiet => ⟨_, exec_checkpointStart_of_quiet hbusy hquiet, rfl, rfl, rfl, rfl, rfl, rfl⟩,
    exec_checkpointAbort_of_running,
    fun b hb hbusy hstop hst hroom => exec_checkpointRecordSend_of_room hb hbusy hstop hst hroom,
    fun hbusy hend hacked => exec_checkpointEnd_of_ended hbusy hend hacked⟩

end Sys2Proof.Machine

namespace Sys2Proof.Machine
open Sys2Proof

/-! The host port (R36 to R45): what its queue pairs, functions and frames leave alone. -/

-- What frames and queue pairs leave alone

/-- A port that differs in its queue pairs and its frames only. -/
def SamePort (x y : PortS) : Prop := ∃ qps held xoff sent tx txWait txFree ordNext,
  y = { x with qps := qps, held := held, xoff := xoff, sent := sent, tx := tx, txWait := txWait, txFree := txFree,
               ordNext := ordNext }

theorem SamePort.refl (x : PortS) : SamePort x x := ⟨_, _, _, _, _, _, _, _, rfl⟩

theorem SamePort.trans {x y z : PortS} (h : SamePort x y) (g : SamePort y z) : SamePort x z := by
  obtain ⟨_, _, _, _, _, _, _, _, rfl⟩ := h
  obtain ⟨_, _, _, _, _, _, _, _, rfl⟩ := g
  exact ⟨_, _, _, _, _, _, _, _, rfl⟩

theorem samePort_foldl {ι : Type} {step : State → ι → State} (h : ∀ s i, SamePort s.port (step s i).port) (l : List ι)
    (s : State) : SamePort s.port (l.foldl step s).port :=
  foldl_induct (R := fun s t : State => SamePort s.port t.port) (fun s => .refl s.port) (fun h g => h.trans g) h l s

section
variable {s t : State} (h : SamePort s.port t.port)
include h

theorem SamePort.vfWord (v : Nat) : vfWord t v = vfWord s v := by
  obtain ⟨_, _, _, _, _, _, _, _, h⟩ := h
  rw [Machine.vfWord, Machine.vfWord, h]

theorem SamePort.fnAddr (f w : Nat) : fnAddr t f w = fnAddr s f w := by
  obtain ⟨_, _, _, _, _, _, _, _, h⟩ := h
  rw [Machine.fnAddr, Machine.fnAddr, h]

theorem SamePort.portPart (p : Nat) : portPart t p = portPart s p := by
  obtain ⟨_, _, _, _, _, _, _, _, h⟩ := h
  rw [Machine.portPart, Machine.portPart, h]

theorem SamePort.wire : t.port.wire = s.port.wire := by
  obtain ⟨_, _, _, _, _, _, _, _, h⟩ := h
  rw [h]

theorem SamePort.qpErr : t.port.qpErr = s.port.qpErr := by
  obtain ⟨_, _, _, _, _, _, _, _, h⟩ := h
  rw [h]
end

-- Frames

theorem sendFrame_eq (s : State) (f : Frame) :
    ∃ sent, sendFrame s f = { s with port := { s.port with sent := sent } } := by
  unfold sendFrame
  dsimp only
  split
  · split
    · exact ⟨_, rfl⟩
    · exact ⟨_, rfl⟩
  · exact ⟨_, rfl⟩

theorem pfcUpdate_eq (s : State) :
    ∃ xoff sent, pfcUpdate s = { s with port := { s.port with xoff := xoff, sent := sent } } := by
  unfold pfcUpdate
  dsimp only
  split
  · exact ⟨_, _, rfl⟩
  · obtain ⟨_, h⟩ := sendFrame_eq { s with port := { s.port with xoff := _ } } (pfcFrame s s.port.xoff _)
    exact ⟨_, _, h⟩

section
variable (s : State)

@[simp] theorem pfcUpdate_mem : (pfcUpdate s).mem = s.mem := by obtain ⟨_, _, h⟩ := pfcUpdate_eq s; rw [h]
@[simp] theorem pfcUpdate_qps : (pfcUpdate s).port.qps = s.port.qps := by obtain ⟨_, _, h⟩ := pfcUpdate_eq s; rw [h]
@[simp] theorem pfcUpdate_held : (pfcUpdate s).port.held = s.port.held := by
  obtain ⟨_, _, h⟩ := pfcUpdate_eq s; rw [h]

@[simp] theorem qpOf_pfcUpdate (k : Nat) : qpOf (pfcUpdate s) k = qpOf s k := by rw [qpOf, pfcUpdate_qps, qpOf]

theorem samePort_pfcUpdate : SamePort s.port (pfcUpdate s).port := by
  obtain ⟨_, _, h⟩ := pfcUpdate_eq s
  rw [h]
  exact ⟨_, _, _, _, _, _, _, _, rfl⟩
end

theorem samePort_modQp (s : State) (k : Nat) (f : QpS → QpS) : SamePort s.port (modQp s k f).port :=
  ⟨_, _, _, _, _, _, _, _, rfl⟩

-- Queue pairs that are flushed

/-- The packets that a queue pair holds are dropped. -/
theorem dropRx_eq (s : State) (k : Nat) : ∃ held xoff sent, dropRx s k = modQp
    { s with port := { s.port with held := held, xoff := xoff, sent := sent } } k
    (fun q => { q with rx := [], msg := none }) := by
  unfold dropRx
  dsimp only
  generalize hu : modQp _ _ _ = u
  obtain ⟨xoff, sent, h⟩ := pfcUpdate_eq u
  rw [h, ← hu]
  exact ⟨tabMod s.port.held 0 (fnGroup s (k / 64)) (fun h => h - ((qpOf s k).rx.map (fun r => r.2)).sum), xoff, sent, rfl⟩

theorem failWork_port (s : State) (w : QpWork) : (failWork s w).port = s.port := by
  unfold failWork
  split
  · rfl
  · unfold replyFetch
    dsimp only
    split <;> rfl
  · split <;> rfl

/-- Outstanding requests end in error. -/
def failAll (ws : List (Nat × RocePkt × QpWork)) (s : State) : State := ws.foldl (fun s o => failWork s o.2.2) s

theorem failAll_port (ws : List (Nat × RocePkt × QpWork)) (s : State) : (failAll ws s).port = s.port :=
  foldl_induct (R := fun s t : State => t.port = s.port) (fun _ => rfl) (fun h g => g.trans h)
    (fun s (o : Nat × RocePkt × QpWork) => failWork_port s o.2.2) ws s

theorem flushQp_eq (s : State) (k : Nat) : flushQp s k = modQp (failAll (qpOf s k).out (dropTx (dropRx s k) k)) k
    (fun q => { q with out := [], retries := 0, flushed := q.flushed + (qpOf s k).out.length }) := rfl

theorem modQp_qps (s : State) (k : Nat) (f : QpS → QpS) : (modQp s k f).port.qps = tabMod s.port.qps {} k f := rfl

theorem dropTx_qps (s : State) (k : Nat) : (dropTx s k).port.qps = s.port.qps := rfl

theorem dropRx_qps (s : State) (k : Nat) : (dropRx s k).port.qps = tabMod s.port.qps {} k
    (fun q => { q with rx := [], msg := none }) := by
  obtain ⟨_, _, _, h⟩ := dropRx_eq s k
  rw [h, modQp_qps]

/-- The queue pairs of a port after one of them was flushed. -/
theorem flushQp_qps (s : State) (k : Nat) : (flushQp s k).port.qps = tabMod (tabMod s.port.qps {} k
    (fun q => { q with rx := [], msg := none })) {} k
    (fun q => { q with out := [], retries := 0, flushed := q.flushed + (qpOf s k).out.length }) := by
  rw [flushQp_eq, modQp_qps, failAll_port, dropTx_qps, dropRx_qps]

theorem samePort_dropTx (s : State) (k : Nat) : SamePort s.port (dropTx s k).port := ⟨_, _, _, _, _, _, _, _, rfl⟩

theorem samePort_dropRx (s : State) (k : Nat) : SamePort s.port (dropRx s k).port := by
  obtain ⟨_, _, _, h⟩ := dropRx_eq s k
  rw [h]
  exact ⟨_, _, _, _, _, _, _, _, rfl⟩

theorem samePort_flushQp (s : State) (k : Nat) : SamePort s.port (flushQp s k).port := by
  have hdrop : SamePort s.port (failAll (qpOf s k).out (dropTx (dropRx s k) k)).port := by
    rw [failAll_port]
    exact (samePort_dropRx s k).trans (samePort_dropTx _ k)
  rw [flushQp_eq]
  exact hdrop.trans (samePort_modQp _ k _)

theorem samePort_qpError (s : State) (k : Nat) : SamePort s.port (qpError s k).port :=
  (samePort_flushQp s k).trans (samePort_modQp _ k _)

theorem qpOf_flushQp_same (s : State) (k : Nat) : qpOf (flushQp s k) k =
    { qpOf s k with rx := [], msg := none, out := [], retries := 0, flushed := (qpOf s k).flushed + (qpOf s k).out.length } := by
  rw [qpOf, flushQp_qps, tabGet_tabMod_same, tabGet_tabMod_same]
  rfl

theorem qpOf_flushQp_ne (s : State) {k j : Nat} (h : j ≠ k) : qpOf (flushQp s k) j = qpOf s j := by
  rw [qpOf, flushQp_qps, tabGet_tabMod_ne _ _ _ _ h, tabGet_tabMod_ne _ _ _ _ h, qpOf]

theorem qpFlushed_qpError (s : State) (k : Nat) : QpFlushed (qpError s k) k := by
  rw [QpFlushed, qpError, qpOf_modQp_same, qpOf_flushQp_same]
  exact ⟨rfl, rfl, rfl⟩

/-- A flushed queue pair stays so. -/
theorem QpFlushed.qpError {s : State} {j : Nat} (h : QpFlushed s j) (k : Nat) : QpFlushed (qpError s k) j := by
  by_cases hj : j = k
  · subst hj
    exact qpFlushed_qpError s j
  · rw [QpFlushed, Machine.qpError, qpOf_modQp_ne _ _ _ hj, qpOf_flushQp_ne _ hj]
    exact h

theorem qpFlushed_foldl {ks : List Nat} {j : Nat} (hj : j ∈ ks) (s : State) : QpFlushed (ks.foldl qpError s) j := by
  induction ks generalizing s with
  | nil => cases hj
  | cons k r ih =>
    by_cases hr : j ∈ r
    · exact ih hr _
    · obtain rfl := (List.mem_cons.1 hj).resolve_right hr
      exact List.foldlRecOn (motive := fun s => QpFlushed s j) r _ (qpFlushed_qpError s j) fun u hu i _ => hu.qpError i

theorem qpKey_mem_fnQps {f n : Nat} (h : (f < 512 ∧ n < 16) ∨ (f = 512 ∧ n < 64)) : qpKey f n ∈ fnQps f := by
  refine List.mem_map.2 ⟨n, List.mem_range.2 ?_, rfl⟩
  obtain ⟨hf, hn⟩ | ⟨rfl, hn⟩ := h
  · rwa [if_neg (show ¬ f = psf from Nat.ne_of_lt hf)]
  · exact hn

theorem qpFlushed_fnError (s : State) {f n : Nat} (h : (f < 512 ∧ n < 16) ∨ (f = 512 ∧ n < 64)) :
    QpFlushed (fnError s f) (qpKey f n) := qpFlushed_foldl (qpKey_mem_fnQps h) s

theorem keepsWork_fnError (s : State) (f : Nat) : KeepsWork s (fnError s f) := keepsWork_foldl keepsWork_qpError _ s

theorem samePort_fnError (s : State) (f : Nat) : SamePort s.port (fnError s f).port := samePort_foldl samePort_qpError _ s

theorem allQpError_eq (s : State) : allQpError s = ((List.range 513).flatMap fnQps).foldl qpError s :=
  List.foldl_flatMap.symm

theorem qpFlushed_allQpError (s : State) {f n : Nat} (h : (f < 512 ∧ n < 16) ∨ (f = 512 ∧ n < 64)) :
    QpFlushed (allQpError s) (qpKey f n) := by
  rw [allQpError_eq]
  exact qpFlushed_foldl (List.mem_flatMap.2 ⟨f, List.mem_range.2 (by omega), qpKey_mem_fnQps h⟩) s

-- VFMAP and the address blocks

@[simp] theorem vfWord_setVfmap_same (s : State) (v : Nat) (w : W32) :
    vfWord { s with port := { s.port with vfmap := tabSet s.port.vfmap v w } } v = w := tabGet_tabSet_same ..

theorem vfWord_setVfmap_ne (s : State) {v u : Nat} (w : W32) (h : u ≠ v) :
    vfWord { s with port := { s.port with vfmap := tabSet s.port.vfmap v w } } u = vfWord s u := tabGet_tabSet_ne _ _ _ h

theorem vfClear_of_on {s : State} {v : Nat} (h : (vfWord s v).getLsbD 31 = true) : vfClear s v =
    { fnError s v with port := { (fnError s v).port with
        vfmap := tabSet (fnError s v).port.vfmap v (setBit (vfWord (fnError s v) v) 31 false) } } := if_pos h

theorem vfClear_of_off {s : State} {v : Nat} (h : (vfWord s v).getLsbD 31 = false) : vfClear s v = s :=
  if_neg (by rw [bitB, h]; exact Bool.false_ne_true)

theorem vfWord_vfClear_ne (s : State) {v u : Nat} (h : u ≠ v) : vfWord (vfClear s v) u = vfWord s u := by
  cases hon : (vfWord s v).getLsbD 31 with
  | true => rw [vfClear_of_on hon, vfWord_setVfmap_ne _ _ h, (samePort_fnError s v).vfWord]
  | false => rw [vfClear_of_off hon]

theorem vfWord_vfClear_off (s : State) (v : Nat) : (vfWord (vfClear s v) v).getLsbD 31 = false := by
  cases hon : (vfWord s v).getLsbD 31 with
  | true => rw [vfClear_of_on hon, vfWord_setVfmap_same, getLsbD_setBit _ _ (by decide), if_pos rfl]
  | false => rwa [vfClear_of_off hon]

theorem fnAddr_vfClear (s : State) (v f w : Nat) : fnAddr (vfClear s v) f w = fnAddr s f w := by
  cases hon : (vfWord s v).getLsbD 31 with
  | true =>
    rw [vfClear_of_on hon]
    exact (samePort_fnError s v).fnAddr f w
  | false => rw [vfClear_of_off hon]

theorem qpFlushed_vfClear {s : State} {v n : Nat} (hon : (vfWord s v).getLsbD 31 = true) (hv : v < 512) (hn : n < 16) :
    QpFlushed (vfClear s v) (qpKey v n) := by
  rw [vfClear_of_on hon]
  exact qpFlushed_fnError s (.inl ⟨hv, hn⟩)

end Sys2Proof.Machine

namespace Sys2Proof.Machine
open Sys2Proof

/-! Functions, the port's state, PFC, and the transmission and reception of frames (R36 to R45). -/

-- Functions (R39 to R41)

section
variable (s : State)

theorem exec_vfmapWrite (v : BitVec 9) (w : W32) : ∃ t, exec (.vfmapWrite v w) s = .next t ∧ t.mem = s.mem ∧
    vfWord t v.toNat = w &&& 0x800F0FFF ∧ (∀ u, u ≠ v.toNat → vfWord t u = vfWord s u) ∧
    ((vfWord s v.toNat).getLsbD 31 = true → ∀ n < 16, QpFlushed t (qpKey v.toNat n)) ∧
    ((vfWord s v.toNat).getLsbD 31 = false → t.port.qps = s.port.qps) := by
  refine ⟨{ vfClear s v.toNat with port := { (vfClear s v.toNat).port with
    vfmap := tabSet (vfClear s v.toNat).port.vfmap v.toNat (w &&& 0x800F0FFF) } }, rfl,
    (keepsWork_vfClear s v.toNat).kept.mem, vfWord_setVfmap_same .., fun u hu => ?_,
    fun hon n hn => qpFlushed_vfClear hon v.isLt hn, fun hoff => ?_⟩
  · rw [vfWord_setVfmap_ne _ _ hu, vfWord_vfClear_ne s hu]
  · rw [vfClear_of_off hoff]

/-- A word of an address block is written. -/
def fnAddrPut (f w : Nat) (v : W32) (s : State) : State :=
  if 8 ≤ w then s
  else { s with port := { s.port with fnaddr := tabSet s.port.fnaddr (16 * f + w) (v &&& fnAddrMask f w) } }

theorem fnAddrPut_mem (f w : Nat) (v : W32) : (fnAddrPut f w v s).mem = s.mem := by
  unfold fnAddrPut
  split <;> rfl

theorem vfWord_fnAddrPut (f w : Nat) (v : W32) (u : Nat) : vfWord (fnAddrPut f w v s) u = vfWord s u := by
  unfold fnAddrPut
  split <;> rfl

theorem qpOf_fnAddrPut (f w : Nat) (v : W32) (k : Nat) : qpOf (fnAddrPut f w v s) k = qpOf s k := by
  unfold fnAddrPut
  split <;> rfl

theorem fnAddr_fnAddrPut (f : Nat) {w : Nat} (v : W32) (hw : w < 16) (u : Nat) {j : Nat} (hj : j < 16) :
    fnAddr (fnAddrPut f w v s) u j = if u = f ∧ j = w ∧ j < 8 then v &&& fnAddrMask u j else fnAddr s u j := by
  unfold fnAddrPut
  split
  · rw [if_neg (by omega)]
  · show tabGet (tabSet s.port.fnaddr (16 * f + w) _) 0 (16 * u + j) = _
    rw [tabGet_tabSet]
    by_cases h : u = f ∧ j = w
    · obtain ⟨rfl, rfl⟩ := h
      rw [if_pos rfl, if_pos (by omega)]
    · rw [if_neg (by omega), if_neg (by omega), fnAddr]

/-- The function whose address block is written, disabled first. -/
def fnAddrClear (s : State) (f : Nat) : State := if f < 512 then vfClear s f else s

theorem exec_fnaddrWrite_of_none {f : BitVec 10} (w : BitVec 4) (v : W32) (h : 512 < f.toNat) :
    exec (.fnaddrWrite f w v) s = .next s := congrArg Host.Outcome.next (if_pos h)

theorem exec_fnaddrWrite_of_some {f : BitVec 10} (w : BitVec 4) (v : W32) (h : f.toNat ≤ 512) :
    exec (.fnaddrWrite f w v) s = .next (fnAddrPut f.toNat w.toNat v (fnAddrClear s f.toNat)) :=
  congrArg Host.Outcome.next (if_neg (Nat.not_lt.2 h))

theorem exec_fnaddrWrite {f : BitVec 10} (w : BitVec 4) (v : W32) (h : f.toNat ≤ 512) :
    ∃ t, exec (.fnaddrWrite f w v) s = .next t ∧ t.mem = s.mem ∧
      (∀ u j, j < 16 → fnAddr t u j = if u = f.toNat ∧ j = w.toNat ∧ j < 8 then v &&& fnAddrMask u j
        else fnAddr s u j) ∧
      (f.toNat < 512 → (vfWord t f.toNat).getLsbD 31 = false ∧
        ((vfWord s f.toNat).getLsbD 31 = true → ∀ n < 16, QpFlushed t (qpKey f.toNat n))) := by
  refine ⟨_, exec_fnaddrWrite_of_some s w v h, ?_, fun u j hj => ?_, fun hf => ⟨?_, fun hon n hn => ?_⟩⟩
  · rw [fnAddrPut_mem, fnAddrClear]
    split
    · exact (keepsWork_vfClear s _).kept.mem
    · rfl
  · have hclear : fnAddr (fnAddrClear s f.toNat) u j = fnAddr s u j := by
      unfold fnAddrClear
      split
      · rw [fnAddr_vfClear]
      · rfl
    rw [fnAddr_fnAddrPut _ _ _ w.isLt _ hj, hclear]
  · rw [vfWord_fnAddrPut, fnAddrClear, if_pos hf, vfWord_vfClear_off]
  · rw [QpFlushed, qpOf_fnAddrPut, fnAddrClear, if_pos hf]
    exact qpFlushed_vfClear hon hf hn
end

-- The port's state (R36, R41)

section
variable {s : State}

theorem exec_portcfgModeChange (m : Bool) : exec (.portcfgModeChange m) s = .next { s with port := { s.port with
    mode := m, up := s.port.up && (s.port.mode == m) } } := by
  by_cases h : s.port.mode = m
  · refine congrArg Host.Outcome.next ((if_pos h).trans ?_)
    rw [← h, beq_self_eq_true, Bool.and_true]
  · refine congrArg Host.Outcome.next ((if_neg h).trans ?_)
    rw [beq_false_of_ne h, Bool.and_false]

theorem exec_portcfgEnClear : ∃ t, exec .portcfgEnClear s = .next t ∧ t.mem = s.mem ∧ t.port.en = false ∧
    t.port.up = false ∧
    (s.port.en = true → ∀ f n, (f < 512 ∧ n < 16) ∨ (f = 512 ∧ n < 64) → QpFlushed t (qpKey f n)) := by
  let u := if s.port.en then allQpError s else s
  refine ⟨{ u with port := { u.port with en := false, up := false } }, rfl, ?_, rfl, rfl, fun hen f n hfn => ?_⟩
  · show u.mem = s.mem
    unfold u
    split
    · exact (keepsWork_foldl keepsWork_fnError _ s).kept.mem
    · rfl
  · have hu : u = allQpError s := if_pos hen
    show QpFlushed u (qpKey f n)
    rw [hu]
    exact qpFlushed_allQpError s hfn

theorem exec_portUp_of_off (h : s.port.en = false ∨ s.hub.phase ≠ 2) : exec .portUp s = .next s :=
  congrArg Host.Outcome.next (if_neg (by
    simp only [Bool.and_eq_true, decide_eq_true_eq]
    rintro ⟨hen, hphase⟩
    simp [hen, hphase] at h))

theorem exec_portUp_of_ready (hen : s.port.en = true) (hphase : s.hub.phase = 2) : exec .portUp s = .next (
    let u := { s with port := { s.port with up := true } }
    if s.port.up || s.port.xoff = 0 then u else sendFrame u (pfcFrame u 0 s.port.xoff)) :=
  congrArg Host.Outcome.next (if_pos (by simp [hen, hphase]))

/-- A frame that is no queue pair's goes out as it is. -/
theorem sendFrame_of_none {f : Frame} (h : f.qp = none) (s : State) :
    sendFrame s f = { s with port := { s.port with sent := f :: s.port.sent } } := by
  unfold sendFrame
  rw [h]

theorem leNat_append (a b : List Byte) : leNat (a ++ b) = leNat a + 2 ^ (8 * a.length) * leNat b := by
  induction a with
  | nil => simp [leNat]
  | cons x a ih =>
    rw [List.cons_append, leNat, leNat, ih, List.length_cons, Nat.mul_succ, Nat.pow_add]
    ring

/-- A number among numbers written as bytes. -/
theorem leNat_flatMap_leBytes (n : Nat) (f : Nat → Nat) (l : List Nat) (i : Nat) (h : i < l.length) :
    leNat (l.flatMap (fun x => leBytes n (f x))) / 2 ^ (8 * n * i) % 2 ^ (8 * n) = f l[i] % 2 ^ (8 * n) := by
  induction l generalizing i with
  | nil => cases h
  | cons x l ih =>
    rw [List.flatMap_cons, leNat_append, leNat_leBytes, length_leBytes]
    have hx : f x % 2 ^ (8 * n) < 2 ^ (8 * n) := Nat.mod_lt _ (by positivity)
    cases i with
    | zero => simp
    | succ i =>
      rw [Nat.mul_succ, Nat.add_comm (8 * n * i), Nat.pow_add, ← Nat.div_div_eq_div_mul,
        Nat.add_mul_div_left _ _ (by positivity), Nat.div_eq_of_lt hx, Nat.zero_add, ih i (by simpa using h), List.getElem_cons_succ]

/-- The quanta of a PFC frame. -/
def pfcTimes (old new : BitVec 8) : BitVec 128 := BitVec.ofNat 128 (leNat ((List.range 8).flatMap (fun c =>
  leBytes 2 (if new.getLsbD c && !old.getLsbD c then 0xFFFF else 0))))

theorem pfcFrame_body (old new : BitVec 8) : (pfcFrame s old new).body = .pfc (old ^^^ new) (pfcTimes old new) := rfl

/-- The longest time for the classes that went off. -/
theorem pfcTimes_off {old new : BitVec 8} {c : Nat} (hc : c < 8) (hnew : new.getLsbD c = true)
    (hold : old.getLsbD c = false) : (pfcTimes old new).extractLsb' (16 * c) 16 = 0xFFFF := by
  have hpiece := leNat_flatMap_leBytes 2 (fun c => if new.getLsbD c && !old.getLsbD c then 0xFFFF else 0)
    (List.range 8) c (by simpa using hc)
  have hlen : ((List.range 8).flatMap (fun c =>
      leBytes 2 (if new.getLsbD c && !old.getLsbD c then 0xFFFF else 0))).length = 16 :=
    length_flatMap_of_forall (n := 2) (fun _ _ => length_leBytes _ _)
  apply BitVec.eq_of_toNat_eq
  rw [pfcTimes, BitVec.extractLsb'_toNat, toNat_ofNat_leNat _ (by omega), Nat.shiftRight_eq_div_pow]
  simp only [List.getElem_range, hnew, hold, Bool.not_false, Bool.and_self, if_true] at hpiece
  exact hpiece

theorem exec_portUp_of_up (hen : s.port.en = true) (hphase : s.hub.phase = 2)
    (h : s.port.up = true ∨ s.port.xoff = 0) :
    exec .portUp s = .next { s with port := { s.port with up := true } } :=
  (exec_portUp_of_ready hen hphase).trans (congrArg Host.Outcome.next (if_pos (by simpa using h)))

theorem exec_portUp_of_xoff (hen : s.port.en = true) (hphase : s.hub.phase = 2)
    (hup : s.port.up = false) (hx : s.port.xoff ≠ 0) : ∃ f qs,
      exec .portUp s = .next { s with port := { s.port with up := true, sent := f :: s.port.sent } } ∧
      f.body = .pfc s.port.xoff qs ∧ ∀ c < 8, s.port.xoff.getLsbD c = true → qs.extractLsb' (16 * c) 16 = 0xFFFF := by
  let u := { s with port := { s.port with up := true } }
  have hgo : ¬ (s.port.up || decide (s.port.xoff = 0)) = true := by rw [hup, decide_eq_false hx]; decide
  exact ⟨pfcFrame u 0 s.port.xoff, pfcTimes 0 s.port.xoff, (exec_portUp_of_ready hen hphase).trans
    (congrArg Host.Outcome.next ((if_neg hgo).trans (sendFrame_of_none rfl u))),
    (pfcFrame_body ..).trans (by rw [show 0 ^^^ s.port.xoff = s.port.xoff from BitVec.zero_xor]),
    fun c hc hon => pfcTimes_off hc hon BitVec.getLsbD_zero⟩

end

-- PFC (R43, R44)

section
variable (s : State)

/-- PORTPART after a write: WGT and PRIO as written, RESV as it ends up, and whether the write was refused. -/
def portPartWord (v : W32) (r : Nat) (bad : Bool) : W32 := setBit (setField (v &&& 0x7FF) 11 9 r) 31 bad

theorem getLsbD_setField {n : Nat} (w : BitVec n) (lo len v : Nat) {j : Nat} (hj : j < n) :
    (setField w lo len v).getLsbD j = if lo ≤ j ∧ j < lo + len then v.testBit (j - lo) else w.getLsbD j := by
  simp only [setField, BitVec.getLsbD_or, BitVec.getLsbD_and, BitVec.getLsbD_not, BitVec.getLsbD_shiftLeft,
    BitVec.getLsbD_ofNat, Nat.testBit_two_pow_sub_one, Nat.testBit_mod_two_pow, hj, show j - lo < n by omega]
  by_cases hlo : j < lo
  · simp [hlo, show ¬ lo ≤ j by omega]
  · by_cases hhi : j - lo < len
    · simp [hlo, hhi, show lo ≤ j ∧ j < lo + len by omega]
    · simp [hlo, hhi, show ¬ (lo ≤ j ∧ j < lo + len) by omega]

theorem getLsbD_portPartWord (v : W32) (r : Nat) (bad : Bool) {j : Nat} (hj : j < 32) :
    (portPartWord v r bad).getLsbD j = if j = 31 then bad
      else if 11 ≤ j ∧ j < 20 then r.testBit (j - 11) else (v &&& 0x7FF).getLsbD j := by
  rw [portPartWord, getLsbD_setBit _ _ (by decide), getLsbD_setField _ _ _ _ hj]

theorem portPartWord_low (v : W32) (r : Nat) (bad : Bool) :
    (portPartWord v r bad).extractLsb' 0 11 = v.extractLsb' 0 11 := by
  have hones : ∀ j < 11, (0x7FF : W32).getLsbD (0 + j) = true := by decide
  rw [← extractLsb'_and_of_ones v 0x7FF hones]
  apply BitVec.eq_of_getLsbD_eq
  intro j hj
  simp only [BitVec.getLsbD_extractLsb', hj, decide_true, Bool.true_and]
  rw [getLsbD_portPartWord _ _ _ (by omega), if_neg (by omega), if_neg (by omega)]

theorem portPartWord_resv (v : W32) {r : Nat} (hr : r < 512) (bad : Bool) :
    bitsN (portPartWord v r bad) 11 9 = r := by
  have hfield : (portPartWord v r bad).extractLsb' 11 9 = BitVec.ofNat 9 r := by
    apply BitVec.eq_of_getLsbD_eq
    intro j hj
    rw [BitVec.getLsbD_extractLsb', getLsbD_portPartWord _ _ _ (by omega), if_neg (by omega), if_pos (by omega),
      BitVec.getLsbD_ofNat]
    simp
  rw [bitsN, hfield, BitVec.toNat_ofNat, Nat.mod_eq_of_lt hr]

theorem portPartWord_bad (v : W32) (r : Nat) (bad : Bool) : (portPartWord v r bad).getLsbD 31 = bad := by
  rw [getLsbD_portPartWord _ _ _ (by decide), if_pos rfl]

theorem bitsN_lt {n : Nat} (w : BitVec n) (lo len : Nat) : bitsN w lo len < 2 ^ len := (w.extractLsb' lo len).isLt

theorem resv_lt (p : Nat) : resv s p < 512 := bitsN_lt _ _ _

/-- A sum with one of its terms changed. -/
theorem sum_map_changed {l : List Nat} {p : Nat} (hn : l.Nodup) (hp : p ∈ l) (r : Nat) (f : Nat → Nat) :
    (l.map (fun q => if q = p then r else f q)).sum = r + ((l.filter (fun q => decide (q ≠ p))).map f).sum := by
  induction l with
  | nil => cases hp
  | cons a l ih =>
    obtain ⟨ha, hn⟩ := List.nodup_cons.1 hn
    by_cases hap : a = p
    · subst hap
      have hrest : ∀ q ∈ l, q ≠ a := fun q hq h => ha (h ▸ hq)
      have hmap : l.map (fun q => if q = a then r else f q) = l.map f :=
        List.map_congr_left fun q hq => if_neg (hrest q hq)
      have hfilter : l.filter (fun q => decide (q ≠ a)) = l := List.filter_eq_self.2 fun q hq => decide_eq_true (hrest q hq)
      rw [List.map_cons, List.sum_cons, if_pos rfl, hmap, List.filter_cons_of_neg (by simp), hfilter]
    · have hl := ih hn ((List.mem_cons.1 hp).resolve_left (Ne.symm hap))
      rw [List.map_cons, List.sum_cons, if_neg hap, hl, List.filter_cons_of_pos (by simpa using hap), List.map_cons,
        List.sum_cons]
      omega

/-- A reservation that a write may not make. -/
def resvRefused (s : State) (p r : Nat) : Bool := (1 ≤ r && r < 16) || 368 <
  ((List.range 16).map (fun q => if q = p then r else resv s q)).sum

/-- PORTPART of a partition takes a word. -/
def portPartPut (s : State) (p : Nat) (w : W32) : State :=
  { s with port := { s.port with part := tabSet s.port.part p w } }

theorem exec_portpartWrite (v : W32) : exec (.portpartWrite v) s = .next (pfcUpdate (portPartPut s s.cur.part
    (portPartWord v (if resvRefused s s.cur.part (bitsN v 11 9) then resv s s.cur.part else bitsN v 11 9)
      (resvRefused s s.cur.part (bitsN v 11 9))))) := rfl

/-- A reservation is refused where it is invalid, or where the partitions would reserve more than 368 together. -/
theorem resvRefused_iff {p : Nat} (hp : p < 16) (r : Nat) : resvRefused s p r = true ↔ (0 < r ∧ r < 16) ∨
    368 < r + (((List.range 16).filter (fun q => decide (q ≠ p))).map (resv s)).sum := by
  rw [resvRefused, sum_map_changed List.nodup_range (List.mem_range.2 hp)]
  simp [Nat.succ_le_iff]

theorem portPart_portPartPut_same (p : Nat) (w : W32) : portPart (portPartPut s p w) p = w := tabGet_tabSet_same ..

theorem portPart_portPartPut_ne {p q : Nat} (w : W32) (h : q ≠ p) : portPart (portPartPut s p w) q = portPart s q :=
  tabGet_tabSet_ne _ _ _ h

theorem portPart_written_same (p : Nat) (w : W32) : portPart (pfcUpdate (portPartPut s p w)) p = w := by
  rw [(samePort_pfcUpdate _).portPart, portPart_portPartPut_same]

theorem portPart_written_ne {p q : Nat} (w : W32) (h : q ≠ p) :
    portPart (pfcUpdate (portPartPut s p w)) q = portPart s q := by
  rw [(samePort_pfcUpdate _).portPart, portPart_portPartPut_ne s w h]

theorem exec_portpartWrite_spec (v : W32) (hp : s.cur.part < 16) :
    let r := (v.extractLsb' 11 9).toNat
    let sum := r + (((List.range 16).filter (fun q => decide (q ≠ s.cur.part))).map (resv s)).sum
    ∃ t, exec (.portpartWrite v) s = .next t ∧ t.mem = s.mem ∧
      resv t s.cur.part = (if (0 < r ∧ r < 16) ∨ 368 < sum then resv s s.cur.part else r) ∧
      (portPart t s.cur.part).extractLsb' 0 11 = v.extractLsb' 0 11 ∧
      ((portPart t s.cur.part).getLsbD 31 = true ↔ (0 < r ∧ r < 16) ∨ 368 < sum) ∧
      ∀ q, q ≠ s.cur.part → portPart t q = portPart s q := by
  have hbad := resvRefused_iff s hp (bitsN v 11 9)
  have hlt : (if resvRefused s s.cur.part (bitsN v 11 9) then resv s s.cur.part else bitsN v 11 9) < 512 := by
    split
    · exact resv_lt ..
    · exact bitsN_lt v 11 9
  have hexec := exec_portpartWrite s v
  generalize resvRefused s s.cur.part (bitsN v 11 9) = bad at hbad hlt hexec
  refine ⟨_, hexec, pfcUpdate_mem _, ?_, ?_, ?_, fun q hq => portPart_written_ne s _ hq⟩
  · rw [resv, portPart_written_same, portPartWord_resv v hlt]
    exact if_congr hbad rfl rfl
  · rw [portPart_written_same, portPartWord_low]
  · rw [portPart_written_same, portPartWord_bad]
    exact hbad

/-- What a PFC frame does to a class. -/
def pauseClass (en : BitVec 8) (qs : BitVec 128) (s : State) (c : Nat) : State :=
  if !en.getLsbD c then s
  else if bitsN qs (16 * c) 16 = 0 then { s with port := { s.port with paused := setBit s.port.paused c false } }
  else
    { s with port := { s.port with
        paused := setBit s.port.paused c true
        pauseEnd := tabSet s.port.pauseEnd c (s.now + pauseAc s (bitsN qs (16 * c) 16)) } }

theorem pfcReceive_of_up {s : State} (h : s.port.up = true) (en : BitVec 8) (qs : BitVec 128) :
    pfcReceive s en qs = (List.range 7).foldl (pauseClass en qs) s := if_neg (by simp [h])

theorem pauseClass_eq (en : BitVec 8) (qs : BitVec 128) (c : Nat) : ∃ paused ends,
    pauseClass en qs s c = { s with port := { s.port with paused := paused, pauseEnd := ends } } := by
  unfold pauseClass
  split
  · exact ⟨_, _, rfl⟩
  split
  · exact ⟨_, _, rfl⟩
  · exact ⟨_, _, rfl⟩

theorem bitsN_eq_zero {n : Nat} (w : BitVec n) (lo len : Nat) : bitsN w lo len = 0 ↔ w.extractLsb' lo len = 0 := by
  rw [bitsN, ← BitVec.toNat_inj]
  rfl

section
variable {s} {en : BitVec 8} {qs : BitVec 128} {c : Nat}

theorem pauseClass_of_off (hen : en.getLsbD c = false) : pauseClass en qs s c = s := if_pos (by simp [hen])

theorem pauseClass_of_xon (hen : en.getLsbD c = true) (hq : qs.extractLsb' (16 * c) 16 = 0) : pauseClass en qs s c =
    { s with port := { s.port with paused := setBit s.port.paused c false } } :=
  (if_neg (by simp [hen])).trans (if_pos ((bitsN_eq_zero ..).2 hq))

theorem pauseClass_of_xoff (hen : en.getLsbD c = true) (hq : qs.extractLsb' (16 * c) 16 ≠ 0) : pauseClass en qs s c =
    { s with port := { s.port with
        paused := setBit s.port.paused c true
        pauseEnd := tabSet s.port.pauseEnd c (s.now + pauseAc s (bitsN qs (16 * c) 16)) } } :=
  (if_neg (by simp [hen])).trans (if_neg (mt (bitsN_eq_zero ..).1 hq))
end

theorem paused_pauseClass (en : BitVec 8) (qs : BitVec 128) {c : Nat} (hc : c < 8) (i : Nat) :
    (pauseClass en qs s c).port.paused.getLsbD i = if i = c ∧ en.getLsbD c = true then
      decide (qs.extractLsb' (16 * c) 16 ≠ 0) else s.port.paused.getLsbD i := by
  cases hen : en.getLsbD c with
  | false => simp [pauseClass_of_off hen]
  | true =>
    by_cases hq : qs.extractLsb' (16 * c) 16 = 0
    · rw [pauseClass_of_xon hen hq, getLsbD_setBit _ _ hc]
      simp [hq]
    · rw [pauseClass_of_xoff hen hq, getLsbD_setBit _ _ hc, decide_eq_true hq]
      simp

theorem pauseEnd_pauseClass (en : BitVec 8) (qs : BitVec 128) (c i : Nat) :
    tabGet (pauseClass en qs s c).port.pauseEnd 0 i =
      if i = c ∧ en.getLsbD c = true ∧ qs.extractLsb' (16 * c) 16 ≠ 0 then
        s.now + pauseAc s (qs.extractLsb' (16 * c) 16).toNat
      else tabGet s.port.pauseEnd 0 i := by
  cases hen : en.getLsbD c with
  | false => simp [pauseClass_of_off hen]
  | true =>
    by_cases hq : qs.extractLsb' (16 * c) 16 = 0
    · rw [pauseClass_of_xon hen hq]
      simp [hq]
    · rw [pauseClass_of_xoff hen hq, tabGet_tabSet]
      exact if_congr ⟨fun h => ⟨h, rfl, hq⟩, fun h => h.1⟩ rfl rfl

/-- The state after a PFC frame has been taken for the first n classes. -/
structure PausedBy (en : BitVec 8) (qs : BitVec 128) (n : Nat) (s t : State) : Prop where
  frame : ∃ paused ends, t = { s with port := { s.port with paused := paused, pauseEnd := ends } }
  paused : ∀ c, t.port.paused.getLsbD c = if c < n ∧ en.getLsbD c = true then
    decide (qs.extractLsb' (16 * c) 16 ≠ 0) else s.port.paused.getLsbD c
  ends : ∀ c < n, en.getLsbD c = true → qs.extractLsb' (16 * c) 16 ≠ 0 →
    tabGet t.port.pauseEnd 0 c = s.now + pauseAc s (qs.extractLsb' (16 * c) 16).toNat

theorem pausedBy_foldl (en : BitVec 8) (qs : BitVec 128) (n : Nat) (hn : n ≤ 8) :
    PausedBy en qs n s ((List.range n).foldl (pauseClass en qs) s) := by
  induction n with
  | zero => exact ⟨⟨_, _, rfl⟩, by simp, by simp⟩
  | succ n ih =>
    rw [List.range_succ, List.foldl_append, List.foldl_cons, List.foldl_nil]
    generalize (List.range n).foldl (pauseClass en qs) s = u at ih ⊢
    obtain ⟨⟨paused, ends, hframe⟩, hpaused, hends⟩ := ih (by omega)
    have hsame (q : Nat) : u.now + pauseAc u q = s.now + pauseAc s q := by rw [hframe]; rfl
    obtain ⟨paused', ends', hstep⟩ := pauseClass_eq u en qs n
    refine ⟨⟨paused', ends', by rw [hstep, hframe]⟩, fun c => ?_, fun c hc hen hq => ?_⟩
    · rw [paused_pauseClass u en qs (by omega), hpaused]
      by_cases hcn : c = n
      · subst hcn
        simp
      · simp [hcn, show c < n + 1 ↔ c < n by omega]
    · rw [pauseEnd_pauseClass, hsame]
      by_cases hcn : c = n
      · subst hcn
        rw [if_pos ⟨rfl, hen, hq⟩]
      · rw [if_neg (fun h => hcn h.1), hends c (by omega) hen hq]

theorem exec_pfcFrameReceive_of_up (h : s.port.up = true) (en : BitVec 8) (qs : BitVec 128) :
    ∃ t, exec (.pfcFrameReceive en qs) s = .next t ∧ t.mem = s.mem ∧ ∀ c < 8, (t.port.paused.getLsbD c =
        if c < 7 ∧ en.getLsbD c = true then decide (qs.extractLsb' (16 * c) 16 ≠ 0) else s.port.paused.getLsbD c) ∧
      (c < 7 → en.getLsbD c = true → qs.extractLsb' (16 * c) 16 ≠ 0 → tabGet t.port.pauseEnd 0 c =
        s.now + pauseAc s (qs.extractLsb' (16 * c) 16).toNat) := by
  obtain ⟨⟨_, _, hframe⟩, hpaused, hends⟩ := pausedBy_foldl s en qs 7 (by decide)
  refine ⟨_, congrArg Host.Outcome.next (pfcReceive_of_up h en qs), ?_, fun c _ => ⟨hpaused c, hends c⟩⟩
  rw [hframe]

theorem exec_pfcPauseExpiry_of_due (c : BitVec 3) (hp : s.port.paused.getLsbD c.toNat = true)
    (hdue : tabGet s.port.pauseEnd 0 c.toNat ≤ s.now) : exec (.pfcPauseExpiry c) s =
      .next { s with port := { s.port with paused := s.port.paused &&& ~~~(1#8 <<< c.toNat) } } :=
  congrArg Host.Outcome.next (if_pos (by simp [hp, hdue]))
end

-- Transmission (R39, R41, R43 to R45)

/-- A frame's function may send it. -/
def Sends (s : State) (f : Frame) : Prop :=
  ∀ k y, f.qp = some k → f.body = .roce y → fnOn s (k / 64) = true ∧ fnSends s (k / 64) f.v6 = true

/-- A frame as it goes out: from its function's addresses, on its class's priority. -/
def Outgoing (s : State) (f g : Frame) : Prop := g.body = f.body ∧ g.mac = f.mac ∧ g.ip = f.ip ∧
  ∀ k y, f.qp = some k → f.body = .roce y →
    g.src = BitVec.ofNat 48 (fnMac s (k / 64)) ∧ g.sip = BitVec.ofNat 128 (fnIp s (k / 64) f.v6) ∧
    g.vlan = fnVlan s (k / 64) ∧ g.pcp = if k / 64 = 512 then 7 else portClass s (vfPart s (k / 64))

theorem sendFrame_outgoing {s : State} {f : Frame} (h : Sends s f) : ∃ g, Outgoing s f g ∧
    sendFrame s f = { s with port := { s.port with sent := g :: s.port.sent } } := by
  unfold sendFrame
  dsimp only
  split
  · next k y hqp hbody =>
    obtain ⟨hon, hsends⟩ := h k y hqp hbody
    rw [if_pos (by rw [hon, hsends]; rfl)]
    refine ⟨_, ?_, rfl⟩
    refine ⟨rfl, rfl, rfl, fun k' y' hqp' _ => ?_⟩
    obtain rfl := Option.some.inj (hqp.symm.trans hqp')
    exact ⟨rfl, rfl, rfl, rfl⟩
  · next hnone => exact ⟨f, ⟨rfl, rfl, rfl, fun k y hqp hbody => absurd hbody (hnone k y hqp)⟩, rfl⟩

/-- The frames of a list but for one, by its number. -/
def framesBut (f : Frame) (l : List Frame) : List Frame := l.filter (fun g => g.ord ≠ f.ord)

theorem launchFrame_eq {s : State} {f : Frame} (h : Sends s f) : ∃ g qps, Outgoing s f g ∧
    launchFrame s f = { s with port := { s.port with
      qps := qps, sent := g :: s.port.sent, txFree := framesBut f s.port.txFree
      tx := s.port.tx.map (fun x => (x.1, framesBut f x.2)) } } := by
  unfold launchFrame
  dsimp only
  cases hqp : f.qp with
  | none =>
    obtain ⟨g, hg, hsend⟩ := sendFrame_outgoing (s := { s with port := { s.port with
      tx := s.port.tx.map (fun x => (x.1, framesBut f x.2)), txFree := framesBut f s.port.txFree } }) (f := f) h
    exact ⟨g, _, hg, hsend⟩
  | some k =>
    obtain ⟨g, hg, hsend⟩ := sendFrame_outgoing (s := modQp { s with port := { s.port with
      tx := s.port.tx.map (fun x => (x.1, framesBut f x.2)), txFree := framesBut f s.port.txFree } } k
      (fun q => { q with nextTx := s.now + paceAc s q.rate f.len })) (f := f) h
    exact ⟨g, _, hg, hsend⟩

theorem tabGet_framesBut (f : Frame) (t : Tab (List Frame)) (g : Nat) :
    tabGet (t.map (fun x => (x.1, framesBut f x.2))) [] g = framesBut f (tabGet t [] g) := tabGet_map _ _ _ _ rfl

/-- The turn of a partition that has no frame. -/
theorem txTurn_of_empty {s : State} {q : Nat} (h : tabGet s.port.tx [] q = []) :
    txTurn s q = { s with port := { s.port with deficit := tabSet s.port.deficit q 0 } } := by
  unfold txTurn
  dsimp only
  rw [h]
  rfl

theorem txTurns_of_empty {l : List Nat} (s : State) (h : ∀ q ∈ l, tabGet s.port.tx [] q = []) :
    ∃ d, l.foldl txTurn s = { s with port := { s.port with deficit := d } } ∧
      ∀ q, q ∉ l → tabGet d 0 q = tabGet s.port.deficit 0 q := by
  induction l generalizing s with
  | nil => exact ⟨_, rfl, fun _ _ => rfl⟩
  | cons a l ih =>
    rw [List.foldl_cons, txTurn_of_empty (h a List.mem_cons_self)]
    obtain ⟨d, hd, hkeep⟩ := ih { s with port := { s.port with deficit := tabSet s.port.deficit a 0 } }
      fun q hq => h q (List.mem_cons_of_mem a hq)
    refine ⟨d, hd, fun q hq => ?_⟩
    obtain ⟨hqa, hql⟩ := not_or.1 (mt List.mem_cons.2 hq)
    rw [hkeep q hql, tabGet_tabSet_ne _ _ _ hqa]

/-- The turn of a partition that has one frame, which may go. -/
theorem txTurn_of_ready {s : State} {p : Nat} {f : Frame} (h : tabGet s.port.tx [] p = [f])
    (hready : frameReady s f = true) (hp : s.port.paused.getLsbD (portClass s p) = false)
    (hlen : f.len ≤ tabGet s.port.deficit 0 p + portWgt s p * 256) : txTurn s p =
      { launchFrame s f with port := { (launchFrame s f).port with
          deficit := tabSet (launchFrame s f).port.deficit p 0 } } := by
  unfold txTurn
  dsimp only
  rw [h, if_neg (by simp [hready]), if_neg (by simp [hp])]
  simp only [sendPart, hready, hlen, Bool.not_true, Bool.false_eq_true, if_false, if_true]

theorem sendFirst_of_quiet {s : State} (h : s.port.ptpTx = []) : sendFirst s =
    sendPsf s (sortBy (fun f g => decide (f.ord ≤ g.ord)) (tabGet s.port.tx [] 16 ++ s.port.txFree)) := by
  have hsame : { s with port := { s.port with ptpTx := [] } } = s := by rw [← h]
  unfold sendFirst
  rw [hsame, h]
  rfl

theorem refillTx_of_empty {s : State} (h : s.port.txWait = []) : refillTx s = s := by
  rw [refillTx, h]
  rfl

/-- The only frame that may go, in a partition's turn. -/
theorem txTurns_of_only {s : State} {p : Nat} {f : Frame} (hp : p < 16) (h : tabGet s.port.tx [] p = [f])
    (hothers : ∀ g, g < 16 → g ≠ p → tabGet s.port.tx [] g = []) (hs : Sends s f) (hready : frameReady s f = true)
    (hpaused : s.port.paused.getLsbD (portClass s p) = false)
    (hlen : f.len ≤ tabGet s.port.deficit 0 p + portWgt s p * 256) :
    ∃ g qps d, Outgoing s f g ∧ (List.range 16).foldl txTurn s = { s with port := { s.port with
      qps := qps, sent := g :: s.port.sent, txFree := framesBut f s.port.txFree, deficit := d
      tx := s.port.tx.map (fun x => (x.1, framesBut f x.2)) } } := by
  obtain ⟨l, r, hrange⟩ := List.append_of_mem (List.mem_range.2 hp)
  have hnodup : (l ++ p :: r).Nodup := hrange ▸ List.nodup_range
  obtain ⟨-, hr, hdisj⟩ := List.nodup_append.1 hnodup
  have hpl : p ∉ l := fun hl => hdisj p hl p List.mem_cons_self rfl
  have hempty {q : Nat} (hq : q ∈ l ++ p :: r) (hqp : q ≠ p) : tabGet s.port.tx [] q = [] :=
    hothers q (List.mem_range.1 (hrange ▸ hq)) hqp
  rw [hrange, List.foldl_append, List.foldl_cons]
  obtain ⟨d, hbefore, hkeep⟩ := txTurns_of_empty s fun q hq =>
    hempty (List.mem_append_left _ hq) fun h => hpl (h ▸ hq)
  rw [hbefore]
  have hturn := txTurn_of_ready (s := { s with port := { s.port with deficit := d } }) h hready hpaused
    (by show f.len ≤ tabGet d 0 p + portWgt s p * 256; rw [hkeep p hpl]; exact hlen)
  obtain ⟨g, qps, hg, hlaunch⟩ := launchFrame_eq (s := { s with port := { s.port with deficit := d } }) (f := f) hs
  rw [hturn, hlaunch]
  obtain ⟨d', hafter, -⟩ := txTurns_of_empty (l := r) { s with port := { s.port with
      qps := qps, sent := g :: s.port.sent, txFree := framesBut f s.port.txFree, deficit := tabSet d p 0
      tx := s.port.tx.map (fun x => (x.1, framesBut f x.2)) } } fun q hq => by
    rw [tabGet_framesBut, hempty (List.mem_append_right _ (List.mem_cons_of_mem p hq))
      fun h => (List.nodup_cons.1 hr).1 (h ▸ hq)]
    rfl
  exact ⟨g, qps, d', hg, hafter⟩

/-- The period of the PSF's limit begins again where it has passed. -/
def psfRenew (s : State) : State :=
  if s.port.psfSince + 65536 ≤ s.now then { s with port := { s.port with psfSince := s.now, psfSent := 0 } } else s

theorem exec_transmitArbitrationRound_of_up {s : State} (h : s.port.up = true) :
    exec .transmitArbitrationRound s = .next (refillTx ((List.range 16).foldl txTurn (sendFirst (psfRenew s)))) :=
  congrArg Host.Outcome.next (if_neg (by simp [h]))

theorem psfRenew_eq (s : State) : ∃ since sent,
    psfRenew s = { s with port := { s.port with psfSince := since, psfSent := sent } } := by
  unfold psfRenew
  split
  · exact ⟨_, _, rfl⟩
  · exact ⟨_, _, rfl⟩

theorem psfRenew_of_early {s : State} (h : s.now < s.port.psfSince + 65536) : psfRenew s = s :=
  if_neg (Nat.not_le.2 h)

/-- The PSF's only frame, which its limit lets go. -/
theorem sendPsf_of_only {s : State} {f : Frame} (hfree : s.port.txFree = []) (hready : frameReady s f = true)
    (hlimit : s.port.psfSent + f.len ≤ psfLimit s) : sendPsf s [f] =
      launchFrame { s with port := { s.port with psfSent := s.port.psfSent + f.len } } f := by
  simp only [sendPsf, hready, hfree, hlimit, List.any_nil, Bool.not_true, Bool.false_eq_true, if_false, if_true]

theorem framesBut_self (f : Frame) : framesBut f [f] = [] := by simp [framesBut]

section
variable {s : State} {f : Frame} {p : Nat} (hup : s.port.up = true) (hfree : s.port.txFree = [])
  (hwait : s.port.txWait = []) (hptp : s.port.ptpTx = []) (hothers : ∀ g, g ≤ 16 → g ≠ p → tabGet s.port.tx [] g = [])
  (htx : tabGet s.port.tx [] p = [f]) (hready : frameReady s f = true) (hs : Sends s f)
include hup hfree hwait hptp hothers htx hready hs

theorem exec_transmitArbitrationRound_part (hp : p < 16) (hpaused : s.port.paused.getLsbD (portClass s p) = false)
    (hlen : f.len ≤ tabGet s.port.deficit 0 p + portWgt s p * 256) :
    ∃ t g, exec .transmitArbitrationRound s = .next t ∧ t.mem = s.mem ∧ t.port.sent = g :: s.port.sent ∧
      tabGet t.port.tx [] p = [] ∧ Outgoing s f g := by
  obtain ⟨since, sent, hrenew⟩ := psfRenew_eq s
  have hpsf : tabGet s.port.tx [] 16 = [] := hothers 16 (by decide) (by omega)
  have hfirst : sendFirst (psfRenew s) = psfRenew s := by
    rw [sendFirst_of_quiet (by rw [hrenew]; exact hptp), hrenew, hfree]
    show sendPsf _ (sortBy _ (tabGet s.port.tx [] 16 ++ [])) = _
    rw [hpsf]
    rfl
  obtain ⟨g, qps, d, hg, hturns⟩ := txTurns_of_only
    (s := { s with port := { s.port with psfSince := since, psfSent := sent } }) hp htx
    (fun g hg16 hgp => hothers g (by omega) hgp) hs hready hpaused hlen
  refine ⟨_, g, exec_transmitArbitrationRound_of_up hup, ?_⟩
  rw [hfirst, hrenew, hturns, refillTx_of_empty]
  · refine ⟨rfl, rfl, ?_, hg⟩
    rw [tabGet_framesBut, htx, framesBut_self]
  · exact hwait

theorem exec_transmitArbitrationRound_psf (hp : p = 16) (hearly : s.now < s.port.psfSince + 65536)
    (hlimit : s.port.psfSent + f.len ≤ psfLimit s) :
    ∃ t g, exec .transmitArbitrationRound s = .next t ∧ t.mem = s.mem ∧ t.port.sent = g :: s.port.sent ∧
      tabGet t.port.tx [] p = [] ∧ Outgoing s f g := by
  subst hp
  obtain ⟨g, qps, hg, hlaunch⟩ := launchFrame_eq
    (s := { s with port := { s.port with psfSent := s.port.psfSent + f.len } }) (f := f) hs
  have hfirst : sendFirst s = launchFrame { s with port := { s.port with psfSent := s.port.psfSent + f.len } } f := by
    rw [sendFirst_of_quiet hptp, htx, hfree]
    exact sendPsf_of_only hfree hready hlimit
  obtain ⟨d, hturns, -⟩ := txTurns_of_empty (l := List.range 16) { s with port := { s.port with
      qps := qps, sent := g :: s.port.sent, txFree := framesBut f s.port.txFree, psfSent := s.port.psfSent + f.len
      tx := s.port.tx.map (fun x => (x.1, framesBut f x.2)) } } fun q hq => by
    have hq := List.mem_range.1 hq
    rw [tabGet_framesBut, hothers q (by omega) (by omega)]
    rfl
  refine ⟨_, g, exec_transmitArbitrationRound_of_up hup, ?_⟩
  rw [psfRenew_of_early hearly, hfirst, hlaunch, hturns, refillTx_of_empty]
  · refine ⟨rfl, rfl, ?_, hg⟩
    rw [tabGet_framesBut, htx, framesBut_self]
  · exact hwait
end

-- Reception (R36, R39, R41 to R43)

/-- What an answer or a notice that a queue pair sends changes. -/
theorem sendPkt_eq (s : State) (k : Nat) (p : RocePkt) : ∃ ordNext tx txWait txFree, sendPkt s k p =
    { s with port := { s.port with ordNext := ordNext, tx := tx, txWait := txWait, txFree := txFree } } := by
  unfold sendPkt
  split
  · obtain ⟨tx, txWait, txFree, h⟩ := readyFrame_eq s (fnGroup s (k / 64)) (mkFrame s k p)
    exact ⟨_, tx, txWait, txFree, h⟩
  · exact ⟨_, _, _, _, rfl⟩

/-- What a CE mark leaves alone. -/
structure KeepsRx (k : Nat) (s t : State) : Prop where
  mem : t.mem = s.mem
  wire : t.port.wire = s.port.wire
  held : t.port.held = s.port.held
  rx : (qpOf t k).rx = (qpOf s k).rx

/-- A queue pair may send a CNP. -/
def ceDue (s : State) (k : Nat) : Bool :=
  match (qpOf s k).ceAt with | some t => decide (t + 5000 ≤ s.now) | none => true

/-- A queue pair sends a CNP. -/
def ceSend (s : State) (k : Nat) : State :=
  sendPkt (modQp s k (fun q => { q with ceAt := some s.now })) k { op := .cnp, qpn := 0, psn := 0 }

theorem ceMark_eq (s : State) (k : Nat) (ce : Bool) : ceMark s k ce = if ce && ceDue s k then ceSend s k else s := rfl

theorem keepsRx_ceSend (s : State) (k : Nat) : KeepsRx k s (ceSend s k) := by
  have hrx : (qpOf (modQp s k (fun q => { q with ceAt := some s.now })) k).rx = (qpOf s k).rx := by
    rw [qpOf_modQp_same]
  unfold ceSend
  generalize hu : modQp s k (fun q => { q with ceAt := some s.now }) = u at hrx ⊢
  obtain ⟨_, _, _, _, h⟩ := sendPkt_eq u k { op := .cnp, qpn := 0, psn := 0 }
  rw [h]
  exact ⟨by rw [← hu]; rfl, by rw [← hu]; rfl, by rw [← hu]; rfl, hrx⟩

theorem keepsRx_ceMark (s : State) (k : Nat) (ce : Bool) : KeepsRx k s (ceMark s k ce) := by
  rw [ceMark_eq]
  split
  · exact keepsRx_ceSend s k
  · exact ⟨rfl, rfl, rfl, rfl⟩

/-- A packet is held for the queue pair that it is addressed to. -/
def rxHold (s : State) (k g n : Nat) (p : RocePkt) : State :=
  let s := modQp s k (fun q => { q with rx := q.rx ++ [(p, n)] })
  { s with port := { s.port with held := tabMod s.port.held 0 g (fun h => h + n) } }

theorem rxHold_rx (s : State) (k g n : Nat) (p : RocePkt) :
    (qpOf (rxHold s k g n p) k).rx = (qpOf s k).rx ++ [(p, n)] := by
  have hqp : qpOf (rxHold s k g n p) k = qpOf (modQp s k (fun q => { q with rx := q.rx ++ [(p, n)] })) k := rfl
  rw [hqp, qpOf_modQp_same]

theorem heldBytes_rxHold (s : State) (k g n : Nat) (p : RocePkt) :
    heldBytes (rxHold s k g n p) g = heldBytes s g + n := by
  have hheld : (rxHold s k g n p).port.held = tabMod s.port.held 0 g (fun h => h + n) := rfl
  rw [heldBytes, hheld, tabGet_tabMod_same, heldBytes]

/-- A RoCE packet that has reached its function. -/
def roceArrived (s : State) (x : Frame) (p : RocePkt) (f : Nat) : State :=
  let k := p.qpn - 0x4000
  let g := fnGroup s f
  if !p.icrc then s
  else if !p.rc || p.qpn < 0x4000 || k / 64 ≠ f || !qpExists f (k % 64) || (qpOf s k).st ≠ .rts ||
      resvBytes s g < heldBytes s g + x.len then dropFrame s
  else ceMark (pfcUpdate (rxHold s k g x.len p)) k x.ce

/-- A frame of the right length, by its kind. -/
def goodArrived (s : State) (x : Frame) : State :=
  match x.body with
  | .pause => s
  | .pfc en q => pfcReceive s en q
  | .ptp m => ptpReceive s m
  | .other => dropFrame s
  | .roce p =>
    match (List.range 513).find? (fun f => fnMatches s f x) with
    | none => dropFrame s
    | some f => roceArrived s x p f

/-- A frame that has left the wire. -/
def frameArrived (s : State) (x : Frame) : State :=
  if !s.port.up then s else if 4200 < x.len || !x.fcs then dropFrame s else goodArrived s x

theorem exec_portFrameReceive_of_wire {s : State} {x : Frame} {rest : List Frame} (h : s.port.wire = x :: rest) :
    exec .portFrameReceive s = .next (frameArrived { s with port := { s.port with wire := rest } } x) := by
  show execPortFrameReceive s = _
  unfold execPortFrameReceive frameArrived goodArrived roceArrived
  -- the search among the functions is not to be run here
  generalize List.range 513 = fns
  rw [h] <;> rfl

theorem frameArrived_of_bad {s : State} {x : Frame} (hup : s.port.up = true) (h : 4200 < x.len ∨ x.fcs = false) :
    frameArrived s x = logErr s 12 0 0 0 0 0 1 :=
  (if_neg (by simp [hup])).trans (if_pos (by simpa using h))

theorem frameArrived_of_good {s : State} {x : Frame} (hup : s.port.up = true) (hlen : x.len ≤ 4200)
    (hfcs : x.fcs = true) : frameArrived s x = goodArrived s x :=
  (if_neg (by simp [hup])).trans (if_neg (by simp [hlen, hfcs]))

theorem goodArrived_of_pfc {s : State} {x : Frame} {en : BitVec 8} {qs : BitVec 128} (h : x.body = .pfc en qs) :
    goodArrived s x = pfcReceive s en qs := by
  unfold goodArrived
  rw [h]

theorem goodArrived_of_roce {s : State} {x : Frame} {p : RocePkt} {f : Nat} (h : x.body = .roce p) (hf : f ≤ 512)
    (hmatch : fnMatches s f x = true) (hfirst : ∀ g < f, fnMatches s g x = false) :
    goodArrived s x = roceArrived s x p f := by
  have hfind : (List.range 513).find? (fun f => fnMatches s f x) = some f := by
    exact List.find?_range_eq_some.2 ⟨hmatch, List.mem_range.2 (by omega), fun g hg => by rw [hfirst g hg]; rfl⟩
  unfold goodArrived
  rw [h]
  dsimp only
  rw [hfind]

theorem roceArrived_of_room {s : State} {x : Frame} {p : RocePkt} {f k : Nat} (hicrc : p.icrc = true)
    (hrc : p.rc = true) (hqpn : p.qpn = 0x4000 + k) (hkf : k / 64 = f) (hq : qpExists f (k % 64) = true)
    (hst : (qpOf s k).st = .rts) (hroom : heldBytes s (fnGroup s f) + x.len ≤ resvBytes s (fnGroup s f)) :
    roceArrived s x p f = ceMark (pfcUpdate (rxHold s k (fnGroup s f) x.len p)) k x.ce := by
  have hk : p.qpn - 0x4000 = k := by omega
  have hlow : ¬ p.qpn < 0x4000 := by omega
  unfold roceArrived
  simp only [hk, hlow, hicrc, hrc, hkf, hq, hst, Nat.not_lt.2 hroom, ne_eq, not_true_eq_false, decide_false, Bool.not_true,
    Bool.or_self, Bool.false_eq_true, if_false]

section
variable {s : State} {x : Frame} {rest : List Frame} (hwire : s.port.wire = x :: rest) (hup : s.port.up = true)
include hwire hup

theorem exec_portFrameReceive_of_bad (h : 4200 < x.len ∨ x.fcs = false) : exec .portFrameReceive s =
    .next (logErr { s with port := { s.port with wire := rest } } 12 0 0 0 0 0 1) :=
  (exec_portFrameReceive_of_wire hwire).trans (congrArg Host.Outcome.next (frameArrived_of_bad hup h))

variable (hlen : x.len ≤ 4200) (hfcs : x.fcs = true)
include hlen hfcs

theorem exec_portFrameReceive_of_pfc {en : BitVec 8} {qs : BitVec 128} (h : x.body = .pfc en qs) :
    exec .portFrameReceive s = exec (.pfcFrameReceive en qs) { s with port := { s.port with wire := rest } } :=
  (exec_portFrameReceive_of_wire hwire).trans (congrArg Host.Outcome.next
    ((frameArrived_of_good (s := { s with port := { s.port with wire := rest } }) hup hlen hfcs).trans
      (goodArrived_of_pfc h)))

theorem exec_portFrameReceive_of_roce {p : RocePkt} {f k : Nat} (h : x.body = .roce p) (hicrc : p.icrc = true)
    (hrc : p.rc = true) (hqpn : p.qpn = 0x4000 + k) (hkf : k / 64 = f) (hf : f ≤ 512) (hmatch : fnMatches s f x = true)
    (hfirst : ∀ g < f, fnMatches s g x = false) (hq : qpExists f (k % 64) = true) (hst : (qpOf s k).st = .rts)
    (hroom : heldBytes s (fnGroup s f) + x.len ≤ resvBytes s (fnGroup s f)) :
    ∃ t, exec .portFrameReceive s = .next t ∧ t.mem = s.mem ∧ t.port.wire = rest ∧
      (qpOf t k).rx = (qpOf s k).rx ++ [(p, x.len)] ∧
      heldBytes t (fnGroup s f) = heldBytes s (fnGroup s f) + x.len := by
  let u := { s with port := { s.port with wire := rest } }
  have harrive : frameArrived u x = ceMark (pfcUpdate (rxHold u k (fnGroup s f) x.len p)) k x.ce :=
    ((frameArrived_of_good (s := u) hup hlen hfcs).trans (goodArrived_of_roce h hf hmatch hfirst)).trans
      (roceArrived_of_room (s := u) hicrc hrc hqpn hkf hq hst hroom)
  refine ⟨_, exec_portFrameReceive_of_wire hwire, ?_⟩
  rw [harrive]
  obtain ⟨hmem, hw, hheld, hrx⟩ := keepsRx_ceMark (pfcUpdate (rxHold u k (fnGroup s f) x.len p)) k x.ce
  rw [hmem, hw, hrx, heldBytes, hheld, pfcUpdate_mem, (samePort_pfcUpdate _).wire, qpOf_pfcUpdate, pfcUpdate_held]
  exact ⟨rfl, rfl, rxHold_rx .., heldBytes_rxHold ..⟩
end

/-- Settles O54: the clauses one by one, each from the lemma that says what the instruction does. -/
theorem hostPort : Obligations.HostPort := by
  unfold Obligations.HostPort
  intro s
  refine ⟨exec_vfmapWrite s, fun f w v => ⟨exec_fnaddrWrite_of_none s w v, exec_fnaddrWrite s w v⟩,
    exec_portcfgModeChange, rfl, exec_portcfgEnClear, exec_portUp_of_off,
    fun hen hphase => ⟨exec_portUp_of_up hen hphase, exec_portUp_of_xoff hen hphase⟩, exec_portpartWrite_spec s,
    fun en qs hup => exec_pfcFrameReceive_of_up s hup en qs, exec_pfcPauseExpiry_of_due s, ?_, ?_⟩
  · intro f p hup hfree hwait hptp hp hothers htx hready hs hpart hpsf
    obtain hp | hp := Nat.lt_or_eq_of_le hp
    · obtain ⟨hpaused, hlen⟩ := hpart hp
      exact exec_transmitArbitrationRound_part hup hfree hwait hptp hothers htx hready hs hp hpaused hlen
    · obtain ⟨hearly, hlimit⟩ := hpsf hp
      exact exec_transmitArbitrationRound_psf hup hfree hwait hptp hothers htx hready hs hp hearly hlimit
  · intro x rest hwire hup u
    exact ⟨exec_portFrameReceive_of_bad hwire hup, fun en qs hlen hfcs => exec_portFrameReceive_of_pfc hwire hup hlen hfcs,
      fun p f k hlen hfcs hbody hicrc hrc hqpn hkf hf hmatch hfirst hq hst hroom =>
        exec_portFrameReceive_of_roce hwire hup hlen hfcs hbody hicrc hrc hqpn hkf hf hmatch hfirst hq hst hroom⟩

end Sys2Proof.Machine

namespace Sys2Proof.Machine
open Sys2Proof

/-! Queue pairs: their commands, timers and responses (R37, R42). -/

-- Commands (R42)

section
variable {s : State}

theorem exec_qpCommand_of_busy (h : s.port.qpBusy = true) {i : Instr} (hi : i ∈ [Instr.qpConnect, .qpReset]) :
    exec i s = .next { s with port := { s.port with qpErr := 4 } } := by
  simp only [List.mem_cons, List.not_mem_nil, or_false] at hi
  obtain rfl | rfl := hi
  · exact congrArg Host.Outcome.next (if_pos h)
  · exact congrArg Host.Outcome.next (if_pos h)

variable (hidle : s.port.qpBusy = false)
include hidle

theorem exec_qpCommand_of_none (hno : qpExists s.port.qpFn s.port.qpN = false) {i : Instr}
    (hi : i ∈ [Instr.qpConnect, .qpReset]) : exec i s = .next { s with port := { s.port with qpErr := 3 } } := by
  simp only [List.mem_cons, List.not_mem_nil, or_false] at hi
  obtain rfl | rfl := hi
  · exact congrArg Host.Outcome.next ((if_neg (by simp [hidle])).trans (if_pos (by simp [hno])))
  · exact congrArg Host.Outcome.next ((if_neg (by simp [hidle])).trans (if_pos (by simp [hno])))

variable (hq : qpExists s.port.qpFn s.port.qpN = true)
include hq

theorem exec_qpConnect_of_badBuf (hbad : qpBufOk (qpBufBytes s) = false) :
    exec .qpConnect s = .next { s with port := { s.port with qpErr := 1 } } :=
  congrArg Host.Outcome.next ((if_neg (by simp [hidle])).trans ((if_neg (by simp [hq])).trans (if_pos (by simp [hbad]))))

theorem exec_qpConnect_of_used (hbuf : qpBufOk (qpBufBytes s) = true)
    (hst : (qpOf s (qpKey s.port.qpFn s.port.qpN)).st ≠ .reset) :
    exec .qpConnect s = .next { s with port := { s.port with qpErr := 2 } } :=
  congrArg Host.Outcome.next ((if_neg (by simp [hidle])).trans ((if_neg (by simp [hq])).trans
    ((if_neg (by simp [hbuf])).trans (if_pos hst))))

theorem exec_qpConnect_of_ready (hbuf : qpBufOk (qpBufBytes s) = true)
    (hst : (qpOf s (qpKey s.port.qpFn s.port.qpN)).st = .reset) : exec .qpConnect s =
      .next (modQp (qpErrPut s 0) (qpKey s.port.qpFn s.port.qpN)
        (fun _ => { qpOfBuf (qpBufBytes s) with at_ := s.now })) :=
  congrArg Host.Outcome.next ((if_neg (by simp [hidle])).trans ((if_neg (by simp [hq])).trans
    ((if_neg (by simp [hbuf])).trans (if_neg (not_not.2 hst)))))

/-- A queue pair is flushed and goes to RESET. -/
def qpCleared (s : State) (k : Nat) : State := modQp (flushQp (qpErrPut s 0) k) k (fun q => { q with st := .reset })

theorem exec_qpReset_of_idle : exec .qpReset s = .next
    { qpCleared s (qpKey s.port.qpFn s.port.qpN) with
      port := { (qpCleared s (qpKey s.port.qpFn s.port.qpN)).port with
        qpBusy := !(qpOf s (qpKey s.port.qpFn s.port.qpN)).out.isEmpty } } :=
  congrArg Host.Outcome.next ((if_neg (by simp [hidle])).trans (if_neg (by simp [hq])))
end

/-- The first words of QPBUF, as bytes. -/
theorem qpBufBytes_head (s : State) : ∃ r, qpBufBytes s = leBytes 4 (tabGet s.port.qpbuf 0 0).toNat ++
    (leBytes 4 (tabGet s.port.qpbuf 0 1).toNat ++ (leBytes 4 (tabGet s.port.qpbuf 0 2).toNat ++ r)) := ⟨_, rfl⟩

/-- The numbers of a connection: the low 24 bits of QPBUF's first words. -/
theorem qpOfBuf_numbers (s : State) : (qpOfBuf (qpBufBytes s)).remote = (tabGet s.port.qpbuf 0 0).toNat % 2 ^ 24 ∧
    (qpOfBuf (qpBufBytes s)).sPsn = (tabGet s.port.qpbuf 0 1).toNat % 2 ^ 24 ∧
    (qpOfBuf (qpBufBytes s)).rPsn = (tabGet s.port.qpbuf 0 2).toNat % 2 ^ 24 := by
  obtain ⟨r, h⟩ := qpBufBytes_head s
  rw [h]
  exact ⟨leNat_leBytes 3 _, leNat_leBytes 3 _, leNat_leBytes 3 _⟩

theorem keepsWork_flushQp (s : State) (k : Nat) : KeepsWork s (flushQp s k) := by
  rw [flushQp_eq]
  exact (((keepsWork_dropRx s k).trans (keepsWork_port _ _)).trans
    (keepsWork_foldl (fun u (o : Nat × RocePkt × QpWork) => keepsWork_failWork u o.2.2) _ _)).trans (keepsWork_modQp ..)

theorem qpCleared_mem (s : State) (k : Nat) : (qpCleared s k).mem = s.mem :=
  (keepsWork_flushQp (qpErrPut s 0) k).kept.mem

theorem qpCleared_qpErr (s : State) (k : Nat) : (qpCleared s k).port.qpErr = 0 :=
  (samePort_flushQp (qpErrPut s 0) k).qpErr

theorem qpOf_qpCleared (s : State) (k : Nat) : (qpOf (qpCleared s k) k).st = .reset ∧
    (qpOf (qpCleared s k) k).out = [] ∧ (qpOf (qpCleared s k) k).rx = [] := by
  rw [qpCleared, qpOf_modQp_same, qpOf_flushQp_same]
  exact ⟨rfl, rfl, rfl⟩

-- Timers (R37)

/-- Requests are sent again. -/
def readyAll (k : Nat) (os : List (Nat × RocePkt × QpWork)) (s : State) : State :=
  os.foldl (fun s o => readyReq s k o.2.1 o.2.2) s

theorem resendFrom_eq (s : State) (k psn : Nat) : resendFrom s k psn =
    modQp (readyAll k ((qpOf s k).out.dropWhile (fun o => o.1 ≠ psn)) s) k (fun q => { q with at_ := s.now }) := rfl

theorem readyAll_kept (k : Nat) (os : List (Nat × RocePkt × QpWork)) (s : State) :
    (readyAll k os s).mem = s.mem ∧ (readyAll k os s).port.qps = s.port.qps := by
  refine foldl_induct (R := fun s t : State => t.mem = s.mem ∧ t.port.qps = s.port.qps) (fun _ => ⟨rfl, rfl⟩)
    (fun h g => ⟨g.1.trans h.1, g.2.trans h.2⟩) (fun s (o : Nat × RocePkt × QpWork) => ?_) os s
  obtain ⟨_, _, _, h⟩ := readyReq_eq s k o.2.1 o.2.2
  rw [h]
  exact ⟨rfl, rfl⟩

theorem fnGroup_le (s : State) (f : Nat) : fnGroup s f ≤ 16 := by
  unfold fnGroup
  split
  · exact Nat.le_refl _
  · exact Nat.le_of_lt (bitsN_lt (vfWord s f) 16 4)

/-- A frame joins its reservation, or what waits for it. -/
theorem readyFrame_joins (s : State) {g : Nat} (hg : g ≠ 17) (f : Frame) :
    tabGet (readyFrame s g f).port.tx [] g = tabGet s.port.tx [] g ++ [f] ∨
      tabGet (readyFrame s g f).port.txWait [] g = tabGet s.port.txWait [] g ++ [f] := by
  unfold readyFrame enterTx
  dsimp only
  split
  · exact .inl (tabGet_tabMod_same s.port.tx [] g (fun l => l ++ [f]))
  · exact .inr (tabGet_tabMod_same s.port.txWait [] g (fun l => l ++ [f]))

section
variable {s : State} {o : Nat × RocePkt × QpWork} {os : List (Nat × RocePkt × QpWork)}
  (hout : (qpOf s (qpKey s.cur.fn s.cur.qpn)).out = o :: os) (hst : (qpOf s (qpKey s.cur.fn s.cur.qpn)).st = .rts)
  (hlate : (qpOf s (qpKey s.cur.fn s.cur.qpn)).at_ + 4096 * 2 ^ (qpOf s (qpKey s.cur.fn s.cur.qpn)).tmo ≤ s.now)
include hout hst hlate

theorem exec_qpRetryTimeout_of_late : exec .qpRetryTimeout s = .next (
    if 7 ≤ (qpOf s (qpKey s.cur.fn s.cur.qpn)).retries then qpError s (qpKey s.cur.fn s.cur.qpn)
    else resendFrom (modQp s (qpKey s.cur.fn s.cur.qpn) (fun q => { q with retries := q.retries + 1 }))
      (qpKey s.cur.fn s.cur.qpn) o.1) := by
  show execQpRetryTimeout s = _
  unfold execQpRetryTimeout
  dsimp only
  rw [hout]
  exact congrArg Host.Outcome.next (if_neg (by simp [hst, hlate]))

theorem exec_qpRetryTimeout_of_spent (h : 7 ≤ (qpOf s (qpKey s.cur.fn s.cur.qpn)).retries) :
    ∃ t, exec .qpRetryTimeout s = .next t ∧ t.mem = s.mem ∧ QpFlushed t (qpKey s.cur.fn s.cur.qpn) :=
  ⟨_, (exec_qpRetryTimeout_of_late hout hst hlate).trans (congrArg Host.Outcome.next (if_pos h)),
    (keepsWork_qpError ..).kept.mem, qpFlushed_qpError ..⟩

theorem exec_qpRetryTimeout_of_more (h : (qpOf s (qpKey s.cur.fn s.cur.qpn)).retries < 7) :
    let k := qpKey s.cur.fn s.cur.qpn
    ∃ t, exec .qpRetryTimeout s = .next t ∧ t.mem = s.mem ∧ (qpOf t k).out = (qpOf s k).out ∧
      (qpOf t k).retries = (qpOf s k).retries + 1 ∧ (qpOf t k).at_ = s.now ∧
      (os = [] → o.2.2 = .notify → ∃ fr, fr.body = .roce { o.2.1 with qpn := (qpOf s k).remote } ∧
        (tabGet t.port.tx [] (fnGroup s (k / 64)) = tabGet s.port.tx [] (fnGroup s (k / 64)) ++ [fr] ∨
          tabGet t.port.txWait [] (fnGroup s (k / 64)) = tabGet s.port.txWait [] (fnGroup s (k / 64)) ++ [fr])) := by
  intro k
  have hexec := (exec_qpRetryTimeout_of_late hout hst hlate).trans
    (congrArg Host.Outcome.next (if_neg (Nat.not_le.2 h)))
  have hqp : qpOf (modQp s k (fun q => { q with retries := q.retries + 1 })) k =
      { qpOf s k with retries := (qpOf s k).retries + 1 } := qpOf_modQp_same ..
  have hall : (qpOf (modQp s k (fun q => { q with retries := q.retries + 1 })) k).out.dropWhile
      (fun x => x.1 ≠ o.1) = o :: os := by
    rw [hqp]
    show (qpOf s k).out.dropWhile _ = _
    rw [hout, List.dropWhile_cons_of_neg (by simp)]
  rw [resendFrom_eq, hall] at hexec
  obtain ⟨hmem, hqps⟩ := readyAll_kept k (o :: os) (modQp s k (fun q => { q with retries := q.retries + 1 }))
  have hqp' : qpOf (readyAll k (o :: os) (modQp s k (fun q => { q with retries := q.retries + 1 }))) k =
      { qpOf s k with retries := (qpOf s k).retries + 1 } := by
    rw [qpOf, hqps]
    exact hqp
  refine ⟨_, hexec, hmem, ?_⟩
  rw [qpOf_modQp_same, hqp']
  refine ⟨rfl, rfl, rfl, fun hos hnotify => ?_⟩
  subst hos
  refine ⟨mkFrame (modQp s k (fun q => { q with retries := q.retries + 1 })) k o.2.1, ?_, ?_⟩
  · show FrameKind.roce { o.2.1 with qpn := (qpOf (modQp s k _) k).remote } = _
    rw [hqp]
  · have hone : readyAll k [o] (modQp s k (fun q => { q with retries := q.retries + 1 })) =
        readyFrame (modQp s k (fun q => { q with retries := q.retries + 1 })) (fnGroup s (k / 64))
          (mkFrame (modQp s k (fun q => { q with retries := q.retries + 1 })) k o.2.1) := by
      show readyReq _ k o.2.1 o.2.2 = _
      rw [hnotify]
      rfl
    rw [hone]
    have hg := fnGroup_le s (k / 64)
    exact readyFrame_joins (modQp s k _) (by omega) _
end

theorem exec_cnpRateIncrease_of_due {s : State} {a : Nat} (ha : (qpOf s (qpKey s.cur.fn s.cur.qpn)).cnpAt = some a)
    (hdue : a + 50000 ≤ s.now) (hrate : (qpOf s (qpKey s.cur.fn s.cur.qpn)).rate < 2 ^ 30) :
    exec .cnpRateIncrease s = .next (modQp s (qpKey s.cur.fn s.cur.qpn)
      (fun x => { x with rate := min (2 ^ 30) (x.rate + 2 ^ 24), cnpAt := some s.now })) := by
  show execCnpRateIncrease s = _
  unfold execCnpRateIncrease
  dsimp only
  rw [ha]
  have hline : lineRate = 2 ^ 30 := rfl
  refine congrArg Host.Outcome.next ((if_pos ?_).trans rfl)
  rw [hline, decide_eq_true hdue, decide_eq_true hrate]
  rfl

-- A packet that a queue pair holds (R37, R43)

/-- The oldest packet of the queue pair leaves the receive buffer. -/
def rxTaken (s : State) (rest : List (RocePkt × Nat)) (n : Nat) : State :=
  let u := modQp s (qpKey s.cur.fn s.cur.qpn) (fun q => { q with rx := rest })
  pfcUpdate { u with port := { u.port with held := tabMod u.port.held 0 (fnGroup s s.cur.fn) (fun h => h - n) } }

theorem packetTaken_eq (s : State) (rest : List (RocePkt × Nat)) (n psns : Nat) : packetTaken s rest n psns =
    modQp (rxTaken s rest n) (qpKey s.cur.fn s.cur.qpn) (fun q => { q with rPsn := (q.rPsn + psns) % 2 ^ 24 }) := rfl

theorem rxTaken_frame (s : State) (rest : List (RocePkt × Nat)) (n : Nat) : ∃ held xoff sent, rxTaken s rest n =
    modQp { s with port := { s.port with held := held, xoff := xoff, sent := sent } } (qpKey s.cur.fn s.cur.qpn)
      (fun q => { q with rx := rest }) := by
  unfold rxTaken
  dsimp only
  generalize hu : modQp s _ _ = u
  obtain ⟨xoff, sent, h⟩ := pfcUpdate_eq
    { u with port := { u.port with held := tabMod u.port.held 0 (fnGroup s s.cur.fn) (fun h => h - n) } }
  rw [h, ← hu]
  exact ⟨tabMod s.port.held 0 (fnGroup s s.cur.fn) (fun h => h - n), xoff, sent, rfl⟩

theorem qpOf_rxTaken (s : State) (rest : List (RocePkt × Nat)) (n : Nat) :
    qpOf (rxTaken s rest n) (qpKey s.cur.fn s.cur.qpn) = { qpOf s (qpKey s.cur.fn s.cur.qpn) with rx := rest } := by
  obtain ⟨_, _, _, h⟩ := rxTaken_frame s rest n
  rw [h, qpOf_modQp_same]
  rfl

section
variable {s : State} {p : RocePkt} {n : Nat} {rest : List (RocePkt × Nat)}
  (hrx : (qpOf s (qpKey s.cur.fn s.cur.qpn)).rx = (p, n) :: rest)
  (hst : (qpOf s (qpKey s.cur.fn s.cur.qpn)).st = .rts)
include hrx hst

theorem withRx_of_kind {kind : RoceOp → Bool} (hkind : kind p.op = true) (go : State → Nat → RocePkt → State) :
    withRx s kind go = go (rxTaken s rest n) (qpKey s.cur.fn s.cur.qpn) p := by
  unfold withRx
  dsimp only
  rw [hrx]
  dsimp only
  rw [if_neg (by simp [hkind, hst])]
  rfl

/-- A CNP halves the rate. -/
theorem exec_cnpReceive_of_cnp (hop : p.op = .cnp) : ∃ t, exec .cnpReceive s = .next t ∧ t.mem = s.mem ∧
    (qpOf t (qpKey s.cur.fn s.cur.qpn)).rx = rest ∧
    (qpOf t (qpKey s.cur.fn s.cur.qpn)).rate = (qpOf s (qpKey s.cur.fn s.cur.qpn)).rate / 2 ∧
    (qpOf t (qpKey s.cur.fn s.cur.qpn)).cnpAt = some s.now := by
  refine ⟨_, congrArg Host.Outcome.next (withRx_of_kind hrx hst (by rw [hop]; rfl) _), ?_⟩
  rw [qpOf_modQp_same, qpOf_rxTaken]
  obtain ⟨_, _, _, h⟩ := rxTaken_frame s rest n
  rw [h]
  exact ⟨rfl, rfl, rfl, rfl⟩

-- Responses (R37, R93)

omit hrx hst in
theorem ackDrop_kept (u : State) (k m : Nat) : (ackDrop u k m).mem = u.mem ∧ (qpOf (ackDrop u k m) k).rx = (qpOf u k).rx ∧
    (qpOf (ackDrop u k m) k).out = (qpOf u k).out.drop m := by
  unfold ackDrop
  split
  · next h => exact ⟨rfl, rfl, by rw [h, List.drop_zero]⟩
  · rw [qpOf_modQp_same]
    exact ⟨rfl, rfl, rfl⟩

omit hrx hst in
theorem queueOf_ackDrop (u : State) (k m b q : Nat) : queueOf (ackDrop u k m) b q = queueOf u b q := by
  unfold ackDrop
  split <;> rfl

theorem exec_roceResponseReceive_eq_of_ack (hop : p.op = .ack) : exec .roceResponseReceive s = .next
    (ackDrop (rxTaken s rest n) (qpKey s.cur.fn s.cur.qpn)
      (ackPrefix p.psn (qpOf (rxTaken s rest n) (qpKey s.cur.fn s.cur.qpn)).out).length) := by
  show execRoceResponseReceive s = _
  unfold execRoceResponseReceive
  rw [withRx_of_kind hrx hst]
  · dsimp only
    rw [hop]
  · rw [hop]

theorem exec_roceResponseReceive_of_ack (hop : p.op = .ack) : ∃ t, exec .roceResponseReceive s = .next t ∧
    t.mem = s.mem ∧ (qpOf t (qpKey s.cur.fn s.cur.qpn)).rx = rest ∧
    (qpOf t (qpKey s.cur.fn s.cur.qpn)).out = (qpOf s (qpKey s.cur.fn s.cur.qpn)).out.drop
      (ackPrefix p.psn (qpOf s (qpKey s.cur.fn s.cur.qpn)).out).length := by
  refine ⟨_, exec_roceResponseReceive_eq_of_ack hrx hst hop, ?_⟩
  obtain ⟨_, _, _, hframe⟩ := rxTaken_frame s rest n
  obtain ⟨hmem, hrx', hout⟩ := ackDrop_kept (rxTaken s rest n) (qpKey s.cur.fn s.cur.qpn)
    (ackPrefix p.psn (qpOf (rxTaken s rest n) (qpKey s.cur.fn s.cur.qpn)).out).length
  rw [hmem, hrx', hout, qpOf_rxTaken]
  exact ⟨by rw [hframe]; rfl, rfl, rfl⟩

omit hrx hst in
/-- A host read's answer reaches the queue that asked, if it still waits for it. -/
theorem replyFetch_of_asked {u : State} {b qu level off len : Nat} (hf : (queueOf u b qu).fetching = true)
    (hl : queueLevel (queueOf u b qu) = level) (r : Option (List Byte)) :
    replyFetch u (.fetch b qu level off len) r =
      modQueue u b qu (fun x => { x with reply := some (r.map (fun bs => (off, len, bs))) }) :=
  if_pos (by rw [hf, hl]; simp)

omit hrx hst in
theorem qpOf_replyFetch (u : State) (w : QpWork) (r : Option (List Byte)) (k : Nat) :
    qpOf (replyFetch u w r) k = qpOf u k := by
  unfold replyFetch
  split
  · dsimp only
    split <;> rfl
  · rfl

/-- The response of the oldest request, a READ, completes it. -/
theorem exec_roceResponseReceive_eq_of_readResp {o : Nat × RocePkt × QpWork} {os : List (Nat × RocePkt × QpWork)}
    (hop : p.op = .readResp) (hout : (qpOf (rxTaken s rest n) (qpKey s.cur.fn s.cur.qpn)).out = o :: os)
    (hpsn : o.1 = p.psn) (hread : o.2.1.op = .read) : exec .roceResponseReceive s = .next
      (ackDrop (replyFetch (rxTaken s rest n) o.2.2 (some p.data)) (qpKey s.cur.fn s.cur.qpn) 1) := by
  have hprefix : ackPrefix p.psn (o :: os) = [] := by
    rw [ackPrefix, List.takeWhile_cons_of_neg (by simp [hread])]
  show execRoceResponseReceive s = _
  unfold execRoceResponseReceive
  rw [withRx_of_kind hrx hst]
  · dsimp only
    rw [hop]
    dsimp only
    rw [hout, hprefix, show ∀ u k, ackDrop u k ([] : List (Nat × RocePkt × QpWork)).length = u from fun _ _ => rfl, hout]
    exact congrArg Host.Outcome.next (if_pos (by simp [hpsn, hread]))
  · rw [hop]

theorem exec_roceResponseReceive_of_readResp {o : Nat × RocePkt × QpWork} {os : List (Nat × RocePkt × QpWork)}
    {b qu level off len : Nat} (hop : p.op = .readResp) (hout : (qpOf s (qpKey s.cur.fn s.cur.qpn)).out = o :: os)
    (hpsn : o.1 = p.psn) (hread : o.2.1.op = .read) (hwork : o.2.2 = .fetch b qu level off len)
    (hf : (queueOf s b qu).fetching = true) (hl : queueLevel (queueOf s b qu) = level) :
    ∃ t, exec .roceResponseReceive s = .next t ∧ t.mem = s.mem ∧ (qpOf t (qpKey s.cur.fn s.cur.qpn)).rx = rest ∧
      (qpOf t (qpKey s.cur.fn s.cur.qpn)).out = os ∧ (queueOf t b qu).reply = some (some (off, len, p.data)) := by
  have hqp := qpOf_rxTaken s rest n
  obtain ⟨_, _, _, hframe⟩ := rxTaken_frame s rest n
  have hqueue : queueOf (rxTaken s rest n) b qu = queueOf s b qu := by rw [hframe]; rfl
  have hout' : (qpOf (rxTaken s rest n) (qpKey s.cur.fn s.cur.qpn)).out = o :: os := by rw [hqp]; exact hout
  have hmem := (keepsWork_replyFetch (rxTaken s rest n) (.fetch b qu level off len) (some p.data)).kept.mem
  refine ⟨_, exec_roceResponseReceive_eq_of_readResp hrx hst hop hout' hpsn hread, ?_⟩
  rw [hwork]
  obtain ⟨amem, arx, aout⟩ := ackDrop_kept (replyFetch (rxTaken s rest n) (.fetch b qu level off len) (some p.data))
    (qpKey s.cur.fn s.cur.qpn) 1
  rw [amem, hmem, arx, aout, qpOf_replyFetch, hout', hqp]
  refine ⟨by rw [hframe]; rfl, rfl, rfl, ?_⟩
  rw [queueOf_ackDrop, replyFetch_of_asked (by rw [hqueue]; exact hf) (by rw [hqueue]; exact hl), queueOf_modQueue_same]
  rfl
end

end Sys2Proof.Machine

namespace Sys2Proof.Machine
open Sys2Proof

/-! Requests in their turn: SEND, WRITE, READ and atomics (R37, R38, R91, R92). -/

-- Reads of memory leave the port alone

theorem keepsStream_ctlNow (s : State) (kind : StackKind) (l key prot : Nat) (mask : W64) (d : BitVec 512) (pois : Bool) :
    KeepsStream s (ctlNow s kind l key prot mask d pois).1 := by
  unfold ctlNow
  dsimp only
  refine (streamRead_ctlFlush s l).kept.trans (KeepsStream.trans ?_ (keepsStream_ctlPerform ..))
  split
  · exact keepsStream_modSlice ..
  · exact .refl _

theorem keepsStream_writeBack (s : State) (y : L2Line) : KeepsStream s (writeBack s y) := by
  unfold writeBack
  split
  · exact .refl s
  split
  · exact keepsStream_ctlNow ..
  · exact keepsStream_ctlNow ..

theorem keepsStream_evict (s : State) (k : Nat) (y : L2Line) : KeepsStream s (evict s k y) := by
  unfold evict
  dsimp only
  refine (keepsStream_modSlice s k (fun x => l2Drop x y)).trans (KeepsStream.trans ?_ (keepsStream_writeBack ..))
  split
  · exact keepsStream_logLine ..
  · exact .refl _

theorem keepsStream_makeRoom (s : State) (k l : Nat) : KeepsStream s (makeRoom s k l).1 := by
  unfold makeRoom
  dsimp only
  split
  · exact .refl s
  · split
    · exact keepsStream_evict ..
    · exact .refl s

theorem keepsStream_l2Install (s : State) (k l slot prot rc : Nat) (r : StackReply) :
    KeepsStream s (l2Install s k l slot prot rc r) := by
  unfold l2Install
  split
  · exact .refl s
  refine (streamRead_meetUe s k l).kept.trans ?_
  generalize meetUe s k l = u
  dsimp only
  split
  · exact keepsStream_modSlice ..
  · have hroom := keepsStream_makeRoom u k l
    split
    · next e =>
      rw [e] at hroom
      exact hroom
    · next e =>
      rw [e] at hroom
      exact hroom.trans (keepsStream_modSlice ..)

theorem keepsStream_l2Touch (s : State) (k : Nat) (y : L2Line) (pin : Bool) : KeepsStream s (l2Touch s k y pin) := by
  unfold l2Touch
  dsimp only
  generalize (if pin = true then _ else y) = z
  split
  · split
    · exact keepsStream_modSlice ..
    · exact keepsStream_modSlice ..
  · exact keepsStream_modSlice ..

theorem keepsStream_fillServe (s : State) (k l : Nat) (r : StackReply) : KeepsStream s (fillServe s k l r).1 := by
  unfold fillServe
  split
  · split
    · exact .refl s
    · exact keepsStream_l2Touch ..
  · exact .refl s

/-- A fill that is installed and served. -/
theorem keepsStream_filled {s u : State} (h : KeepsStream s u) (k l slot prot rc : Nat) (x : StackReply) :
    KeepsStream s (fillServe (l2Install u k l slot prot rc x) k l x).1 :=
  (h.trans (keepsStream_l2Install ..)).trans (keepsStream_fillServe ..)

theorem keepsStream_lineRead (s : State) (l slot prot : Nat) (node : Option NodeId) (rc : Nat) :
    KeepsStream s (lineRead s l slot prot node rc).1 := by
  have hnow (kind : StackKind) (mask : W64) (d : BitVec 512) := keepsStream_ctlNow s kind l slot prot mask d false
  unfold lineRead
  dsimp only
  split
  · split
    · exact (streamRead_meetUe ..).kept
    split
    · exact hnow ..
    split
    · exact keepsStream_l2Touch ..
    split
    · exact hnow ..
    · split
      · exact keepsStream_filled (hnow ..) ..
      · exact hnow ..
  · split
    · exact keepsStream_filled (hnow ..) ..
    · exact hnow ..

theorem keepsStream_paRead (s : State) (pa n slot prot : Nat) (node : Option NodeId) (rc : Nat) :
    KeepsStream s (paRead s pa n slot prot node rc).1 :=
  foldl_induct (R := fun x y : State × BytesVal => KeepsStream x.1 y.1) (fun _ => .refl _) (fun h g => h.trans g)
    (fun x l => keepsStream_lineRead x.1 l slot prot node rc) _ (s, {})

theorem keepsStream_winLog (s : State) (cls w b off : Nat) : KeepsStream s (winLog s cls w b off) := by
  obtain ⟨_, _, h⟩ := logErr_eq s cls b (bhOf s b).part 0 (if cls = ecStalegen then winRegion s w else 0x3FFF) (off / 64) 1
  rw [winLog, h]
  exact ⟨rfl, rfl, rfl⟩

theorem keepsStream_regRead (s : State) (b : Nat) (r : Region) (off n : Nat) (node : Option NodeId) (rc : Nat) :
    KeepsStream s (regRead s b r off n node rc).1 := by
  unfold regRead
  split
  · split
    · exact keepsStream_paRead ..
    · dsimp only
      split
      · exact keepsStream_winLog ..
      · exact .refl s
  · exact keepsStream_paRead ..

-- A request in its turn

theorem inTurn_of_turn {s : State} {k : Nat} {p : RocePkt} (h : p.psn = (qpOf s k).rPsn) (n : Nat)
    (again go : State → State) :
    inTurn s k p n again go = go (modQp s k (fun q => { q with rPsn := (q.rPsn + n) % 2 ^ 24 })) := by
  unfold inTurn
  dsimp only
  rw [if_pos]
  rw [h, Nat.add_sub_cancel_left, Nat.mod_self]

/-- What a packet in its turn changes: the port, and there its queue pair's numbers. -/
theorem packetTaken_frame (s : State) (rest : List (RocePkt × Nat)) (n psns : Nat) :
    ∃ port, packetTaken s rest n psns = { s with port := port } ∧ SamePort s.port port := by
  obtain ⟨_, _, _, h⟩ := rxTaken_frame s rest n
  rw [packetTaken_eq, h]
  exact ⟨_, rfl, _, _, _, _, _, _, _, _, rfl⟩

theorem qpOf_packetTaken (s : State) (rest : List (RocePkt × Nat)) (n psns : Nat) :
    qpOf (packetTaken s rest n psns) (qpKey s.cur.fn s.cur.qpn) = { qpOf s (qpKey s.cur.fn s.cur.qpn) with
      rx := rest, rPsn := ((qpOf s (qpKey s.cur.fn s.cur.qpn)).rPsn + psns) % 2 ^ 24 } := by
  rw [packetTaken_eq, qpOf_modQp_same, qpOf_rxTaken]

/-- What a SEND in its turn does. -/
def sendTaken (s : State) (k : Nat) (p : RocePkt) : State :=
  let m := ((qpOf s k).msg).getD { write := false }
  let m := { m with data := m.data ++ p.data }
  if !inMessage (qpOf s k) p false || 2 ^ 31 < m.data.length then answer s k (.nak 1) p.psn
  else
    let s := if p.last then submit s s.cur.fn s.cur.qpn m.data else s
    answer (msgGo s k p m) k .ack p.psn

/-- What a WRITE in its turn does. -/
def writeTaken (s : State) (k : Nat) (p : RocePkt) : State :=
  let n := p.data.length
  let m := ((qpOf s k).msg).getD { write := true, rkey := p.rkey, va := p.va, left := p.len }
  if !inMessage (qpOf s k) p true || 2 ^ 31 < m.left || (if p.last then m.left ≠ n else m.left < n) then
    answer s k (.nak 1) p.psn
  else if !writeAllowed s s.cur.fn m n then answer s k (.nak 2) p.psn
  else if !(landWrite s s.cur.fn m p.data).2 then answer (landWrite s s.cur.fn m p.data).1 k (.nak 3) p.psn
  else answer (msgGo (landWrite s s.cur.fn m p.data).1 k p { m with va := m.va + n, left := m.left - n }) k .ack p.psn

/-- The packets that answer a READ. -/
def readPkts (n : Nat) (p : RocePkt) : Nat := max 1 ((p.len + n - 1) / n)

/-- What a READ that its turn has come for does. -/
def readTaken (s : State) (k : Nat) (p : RocePkt) (n m : Nat) : State :=
  if 2 ^ 31 < p.len then answer s k (.nak 1) p.psn
  else if s.cur.fn = psf then
    if p.va % 4 ≠ 0 || p.len % 4 ≠ 0 then answer s k (.nak 2) p.psn
    else
      let bs := (List.range (p.len / 4)).flatMap (fun i => leBytes 4 (readReg s (p.va + 4 * i)).toNat)
      (List.range m).foldl (fun s i => readPkt s k p i m ((bs.drop (n * i)).take n)) s
  else
    match rdmaRegion s (vfPart s s.cur.fn) p.rkey p.va p.len false with
    | none => answer s k (.nak 2) p.psn
    | some (r, off) => readResponses s (vfPart s s.cur.fn) k p r off n 0 m

section
variable {s : State} {p : RocePkt} {n : Nat} {rest : List (RocePkt × Nat)}
  (hrx : (qpOf s (qpKey s.cur.fn s.cur.qpn)).rx = (p, n) :: rest)
  (hst : (qpOf s (qpKey s.cur.fn s.cur.qpn)).st = .rts)
  (hpsn : p.psn = (qpOf s (qpKey s.cur.fn s.cur.qpn)).rPsn)
include hrx hst hpsn

theorem withRx_inTurn {kind : RoceOp → Bool} (hkind : kind p.op = true) (psns : State → Nat → RocePkt → Nat)
    (again go : State → Nat → RocePkt → State → State) :
    withRx s kind (fun s k p => inTurn s k p (psns s k p) (again s k p) (go s k p)) =
      go (rxTaken s rest n) (qpKey s.cur.fn s.cur.qpn) p
        (packetTaken s rest n (psns (rxTaken s rest n) (qpKey s.cur.fn s.cur.qpn) p)) := by
  rw [withRx_of_kind hrx hst hkind, inTurn_of_turn (by rw [qpOf_rxTaken]; exact hpsn), packetTaken_eq]

theorem exec_roceAtomicRequest_of_turn (hop : p.op = .atomic) : exec .roceAtomicRequest s =
    .next (answer (packetTaken s rest n 1) (qpKey s.cur.fn s.cur.qpn) (.nak 1) p.psn) :=
  congrArg Host.Outcome.next (withRx_inTurn hrx hst hpsn (kind := fun o => o == .atomic) (by rw [hop]; rfl) (fun _ _ _ => 1)
    (fun _ k p s => answer s k (.nak 1) p.psn) (fun _ k p s => answer s k (.nak 1) p.psn))

theorem exec_roceSendReceive_of_turn (hop : p.op = .send ∨ p.op = .sendImm) : exec .roceSendReceive s =
    .next (sendTaken (packetTaken s rest n 1) (qpKey s.cur.fn s.cur.qpn) p) :=
  congrArg Host.Outcome.next (withRx_inTurn hrx hst hpsn (kind := fun o => o == .send || o == .sendImm)
    (by obtain h | h := hop <;> rw [h] <;> rfl) (fun _ _ _ => 1)
    (fun _ k p s => answer s k .ack p.psn) (fun _ k p s => sendTaken s k p))

theorem exec_roceRdmaWrite_of_turn (hop : p.op = .write ∨ p.op = .writeImm) : exec .roceRdmaWrite s =
    .next (writeTaken (packetTaken s rest n 1) (qpKey s.cur.fn s.cur.qpn) p) :=
  congrArg Host.Outcome.next (withRx_inTurn hrx hst hpsn (kind := fun o => o == .write || o == .writeImm)
    (by obtain h | h := hop <;> rw [h] <;> rfl) (fun _ _ _ => 1)
    (fun _ k p s => answer s k .ack p.psn) (fun _ k p s => writeTaken s k p))

omit hrx hst hpsn in
theorem execRoceRdmaRead_eq : execRoceRdmaRead s = .next (withRx s (fun o => o == .read) (fun s k p =>
    inTurn s k p (readPkts (mtuBytes (qpOf s k)) p)
      (fun u => readTaken u k p (mtuBytes (qpOf s k)) (readPkts (mtuBytes (qpOf s k)) p))
      (fun u => readTaken (modQp u k (fun q => { q with msn := (q.msn + 1) % 2 ^ 24 })) k p (mtuBytes (qpOf s k))
        (readPkts (mtuBytes (qpOf s k)) p)))) := rfl

omit hrx hst hpsn in
theorem readPkts_of_short {m : Nat} (hm : 0 < m) (hlen : p.len ≤ m) : readPkts m p = 1 := by
  have hle : (p.len + m - 1) / m ≤ 1 := Nat.le_of_lt_succ ((Nat.div_lt_iff_lt_mul hm).2 (by omega))
  unfold readPkts
  omega

/-- A READ of one packet. -/
theorem exec_roceRdmaRead_of_turn (hop : p.op = .read)
    (hlen : p.len ≤ mtuBytes (qpOf s (qpKey s.cur.fn s.cur.qpn))) : exec .roceRdmaRead s =
      .next (readTaken (modQp (packetTaken s rest n 1) (qpKey s.cur.fn s.cur.qpn)
        (fun q => { q with msn := (q.msn + 1) % 2 ^ 24 })) (qpKey s.cur.fn s.cur.qpn) p
        (mtuBytes (qpOf s (qpKey s.cur.fn s.cur.qpn))) 1) := by
  have hone : readPkts (mtuBytes (qpOf s (qpKey s.cur.fn s.cur.qpn))) p = 1 :=
    readPkts_of_short (by simp [mtuBytes]) hlen
  have hmtu : mtuBytes (qpOf (rxTaken s rest n) (qpKey s.cur.fn s.cur.qpn)) =
      mtuBytes (qpOf s (qpKey s.cur.fn s.cur.qpn)) := by rw [qpOf_rxTaken]; rfl
  have htaken := withRx_inTurn hrx hst hpsn (kind := fun o => o == .read) (by rw [hop]; rfl)
    (fun s k p => readPkts (mtuBytes (qpOf s k)) p)
    (fun s k p u => readTaken u k p (mtuBytes (qpOf s k)) (readPkts (mtuBytes (qpOf s k)) p))
    (fun s k p u => readTaken (modQp u k (fun q => { q with msn := (q.msn + 1) % 2 ^ 24 })) k p (mtuBytes (qpOf s k))
        (readPkts (mtuBytes (qpOf s k)) p))
  simp only [hmtu, hone] at htaken
  exact execRoceRdmaRead_eq.trans (congrArg Host.Outcome.next htaken)
end

end Sys2Proof.Machine

namespace Sys2Proof.Machine
open Sys2Proof

/-! What a request in its turn comes to, and queue pairs as a whole (R37, R38, R91, R92). -/

-- Messages

/-- A message ends: the queue pair has received one more. -/
def msgEnded (s : State) (k : Nat) : State :=
  modQp s k (fun x => { x with msg := none, msn := (x.msn + 1) % 2 ^ 24 })

theorem msgGo_of_last {p : RocePkt} (h : p.last = true) (s : State) (k : Nat) (m : RdmaMsg) :
    msgGo s k p m = msgEnded s k := by
  unfold msgGo msgEnded
  simp only [h, if_true]

theorem msgGo_of_more {p : RocePkt} (h : p.last = false) (s : State) (k : Nat) (m : RdmaMsg) :
    msgGo s k p m = modQp s k (fun x => { x with msg := some m }) := by
  unfold msgGo
  simp only [h, Bool.false_eq_true, if_false]

/-- A packet that is a whole message. -/
theorem inMessage_of_whole {q : QpS} {p : RocePkt} (hmsg : q.msg = none) (hfirst : p.first = true) (hlast : p.last = true)
    (hlen : p.data.length ≤ 1024 * 2 ^ q.mtu) (write : Bool) : inMessage q p write = true := by
  unfold inMessage
  rw [hmsg, hfirst, hlast]
  exact decide_eq_true hlen

-- SEND (R91, R92)

section
variable {s : State} {k : Nat} {p : RocePkt}

/-- The message that a SEND's packet belongs to. -/
def sendMsg (q : QpS) : RdmaMsg := q.msg.getD { write := false }

theorem sendTaken_of_astray (h : inMessage (qpOf s k) p false = false) :
    sendTaken s k p = answer s k (.nak 1) p.psn := if_pos (by simp [h])

variable (h : inMessage (qpOf s k) p false = true)
  (hlen : (sendMsg (qpOf s k)).data.length + p.data.length ≤ 2 ^ 31)
include h hlen

theorem sendTaken_of_inMessage : sendTaken s k p = answer (msgGo
    (if p.last then submit s s.cur.fn s.cur.qpn ((sendMsg (qpOf s k)).data ++ p.data) else s) k p
    { sendMsg (qpOf s k) with data := (sendMsg (qpOf s k)).data ++ p.data }) k .ack p.psn := by
  have hshort : ¬ 2 ^ 31 < ((sendMsg (qpOf s k)).data ++ p.data).length := by
    rw [List.length_append]
    exact Nat.not_lt.2 hlen
  exact if_neg (by rw [h]; simpa [sendMsg] using hshort)

theorem sendTaken_of_more (hlast : p.last = false) : sendTaken s k p = answer (modQp s k (fun x => { x with
    msg := some { sendMsg (qpOf s k) with data := (sendMsg (qpOf s k)).data ++ p.data } })) k .ack p.psn := by
  rw [sendTaken_of_inMessage h hlen, msgGo_of_more hlast, if_neg (by simp [hlast])]

theorem sendTaken_of_last (hlast : p.last = true) : sendTaken s k p = answer (msgEnded
    (submit s s.cur.fn s.cur.qpn ((sendMsg (qpOf s k)).data ++ p.data)) k) k .ack p.psn := by
  rw [sendTaken_of_inMessage h hlen, msgGo_of_last hlast, if_pos hlast]
end

theorem queueOf_answer (s : State) (k : Nat) (op : RoceOp) (psn b q : Nat) :
    queueOf (answer s k op psn) b q = queueOf s b q := by
  obtain ⟨_, _, _, _, h⟩ := sendPkt_eq s k { op := op, qpn := 0, psn := psn, msn := (qpOf s k).msn }
  rw [answer, h]
  rfl

/-- A record that nothing refuses starts an idle queue. -/
theorem queueOf_submit_of_idle {s : State} {f : Nat} (n : Nat) {bs : List Byte} (hok : recRefused s bs f = none)
    (hidle : (queueOf s (vfPart s f + (recOf bs f n).q / 16) ((recOf bs f n).q % 16)).st = .idle) :
    let x := queueOf s (vfPart s f + (recOf bs f n).q / 16) ((recOf bs f n).q % 16)
    queueOf (submit s f n bs) (vfPart s f + (recOf bs f n).q / 16) ((recOf bs f n).q % 16) =
      startRec { x with expected := x.expected + 1 } (recOf bs f n) := by
  intro x
  unfold submit
  dsimp only
  rw [hok]
  dsimp only
  rw [queueOf_modQueue_same, hidle]

/-- What is said of the functions, bulkheads and partitions does not depend on the rest of the port. -/
structure SameFunctions (s t : State) : Prop where
  frame : ∃ port, t = { s with port := port }
  vfWord : ∀ v, vfWord t v = vfWord s v

theorem SameFunctions.vfPart {s t : State} (h : SameFunctions s t) (f : Nat) : vfPart t f = vfPart s f := by
  rw [Machine.vfPart, Machine.vfPart, h.vfWord]

theorem SameFunctions.recRefused {s t : State} (h : SameFunctions s t) (bs : List Byte) (f : Nat) :
    recRefused t bs f = recRefused s bs f := by
  have hpart := h.vfPart f
  obtain ⟨port, rfl⟩ := h.frame
  unfold Machine.recRefused
  rw [hpart]
  rfl

theorem SameFunctions.rdmaRegion {s t : State} (h : SameFunctions s t) (p : Nat) (key : W32) (va n : Nat) (write : Bool) :
    rdmaRegion t p key va n write = rdmaRegion s p key va n write := by
  obtain ⟨port, rfl⟩ := h.frame
  rfl

theorem SameFunctions.writeAllowed {s t : State} (h : SameFunctions s t) (f : Nat) (m : RdmaMsg) (n : Nat) :
    writeAllowed t f m n = writeAllowed s f m n := by
  unfold Machine.writeAllowed
  rw [h.vfPart, h.rdmaRegion]

theorem sameFunctions_packetTaken (s : State) (rest : List (RocePkt × Nat)) (n psns : Nat) :
    SameFunctions s (packetTaken s rest n psns) := by
  obtain ⟨port, h, hsame⟩ := packetTaken_frame s rest n psns
  exact ⟨⟨port, h⟩, SamePort.vfWord (s := s) (t := packetTaken s rest n psns) (by rw [h]; exact hsame)⟩

-- WRITE (R38, R387)

section
variable {s : State} {k : Nat} {p : RocePkt}

/-- The message that a WRITE's packet belongs to. -/
def writeMsg (q : QpS) (p : RocePkt) : RdmaMsg :=
  q.msg.getD { write := true, rkey := p.rkey, va := p.va, left := p.len }

variable {m : RdmaMsg} {f : Nat} (hm : writeMsg (qpOf s k) p = m) (hf : s.cur.fn = f)
  (h : inMessage (qpOf s k) p true = true) (hleft : m.left ≤ 2 ^ 31) (hlen : p.data.length ≤ m.left)
  (hlast : p.last = true → p.data.length = m.left)
include hm hf h hleft hlen hlast

theorem writeTaken_of_inMessage : writeTaken s k p =
    if !writeAllowed s f m p.data.length then answer s k (.nak 2) p.psn
    else if !(landWrite s f m p.data).2 then answer (landWrite s f m p.data).1 k (.nak 3) p.psn
    else answer (msgGo (landWrite s f m p.data).1 k p
      { m with va := m.va + p.data.length, left := m.left - p.data.length }) k .ack p.psn := by
  subst hm hf
  have hfits : ¬ (if p.last then (writeMsg (qpOf s k) p).left ≠ p.data.length
      else (writeMsg (qpOf s k) p).left < p.data.length) := by
    split
    · next hl => exact not_not.2 (hlast hl).symm
    · exact Nat.not_lt.2 hlen
  refine if_neg ?_
  rw [h]
  simpa [writeMsg] using ⟨hleft, hfits⟩

theorem writeTaken_of_refused (hno : writeAllowed s f m p.data.length = false) :
    writeTaken s k p = answer s k (.nak 2) p.psn :=
  (writeTaken_of_inMessage hm hf h hleft hlen hlast).trans (if_pos (by rw [hno]; rfl))

variable (hok : writeAllowed s f m p.data.length = true)
include hok

theorem writeTaken_of_landed (hland : (landWrite s f m p.data).2 = true) : writeTaken s k p =
    answer (msgGo (landWrite s f m p.data).1 k p
      { m with va := m.va + p.data.length, left := m.left - p.data.length }) k .ack p.psn :=
  (writeTaken_of_inMessage hm hf h hleft hlen hlast).trans
    ((if_neg (by rw [hok]; decide)).trans (if_neg (by rw [hland]; decide)))

theorem writeTaken_of_lost (hland : (landWrite s f m p.data).2 = false) :
    writeTaken s k p = answer (landWrite s f m p.data).1 k (.nak 3) p.psn :=
  (writeTaken_of_inMessage hm hf h hleft hlen hlast).trans
    ((if_neg (by rw [hok]; decide)).trans (if_pos (by rw [hland]; rfl)))
end

theorem landWrite_of_region {s : State} {f : Nat} {m : RdmaMsg} {bs : List Byte} {r : Region} {off : Nat} (hf : f ≠ 512)
    (h : rdmaRegion s (vfPart s f) m.rkey m.va bs.length true = some (r, off)) :
    landWrite s f m bs = regThrough s (vfPart s f) r off bs := by
  unfold landWrite
  rw [if_neg (show ¬ f = psf from hf), h]

theorem wordsOf_leBytes (w : W32) : wordsOf (leBytes 4 w.toNat) = [w] := by
  have hw : leNat (leBytes 4 w.toNat) = w.toNat := by
    rw [leNat_leBytes]
    exact Nat.mod_eq_of_lt w.isLt
  unfold wordsOf
  rw [length_leBytes]
  show [BitVec.ofNat 32 (leNat (((leBytes 4 w.toNat).drop (4 * 0)).take 4))] = [w]
  rw [Nat.mul_zero, List.drop_zero, List.take_of_length_le (length_leBytes ..).le, hw, BitVec.ofNat_toNat,
    BitVec.setWidth_eq]

theorem landWrite_of_register (s : State) (m : RdmaMsg) (w : W32) :
    landWrite s 512 m (leBytes 4 w.toNat) = (writeReg s m.va w, true) := by
  refine (if_pos rfl).trans ?_
  rw [wordsOf_leBytes]
  rfl

theorem writeAllowed_of_region {s : State} {f : Nat} (m : RdmaMsg) (n : Nat) (hf : f ≠ 512) :
    writeAllowed s f m n = (rdmaRegion s (vfPart s f) m.rkey m.va m.left true).isSome := if_neg hf

-- READ (R38)

/-- The answer that is the whole of a READ. -/
def wholeAnswer (msn : Nat) (p : RocePkt) (d : List Byte) : RocePkt :=
  { op := .readResp, qpn := 0, psn := p.psn % 2 ^ 24, len := d.length, data := d, msn := msn }

theorem readResponses_one (s : State) (b k : Nat) (p : RocePkt) (r : Region) (off n : Nat) :
    readResponses s b k p r off n 0 1 =
      let v := regRead s b r (off + n * 0) (min n (p.len - n * 0)) none 0
      if v.2.bad || v.2.rev then answer v.1 k (.nak 3) ((p.psn + 0) % 2 ^ 24) else readPkt v.1 k p 0 1 v.2.bytes := rfl

section
variable {s : State} {k : Nat} {p : RocePkt} {n f : Nat} (hfn : s.cur.fn = f) (hlen : p.len ≤ 2 ^ 31)
include hfn hlen

theorem readTaken_of_none (hf : f ≠ 512) (h : rdmaRegion s (vfPart s f) p.rkey p.va p.len false = none) :
    readTaken s k p n 1 = answer s k (.nak 2) p.psn := by
  subst hfn
  unfold readTaken
  rw [if_neg (Nat.not_lt.2 hlen), if_neg (show ¬ s.cur.fn = psf from hf), h]

theorem readTaken_of_some {r : Region} {off : Nat} (hf : f ≠ 512)
    (h : rdmaRegion s (vfPart s f) p.rkey p.va p.len false = some (r, off)) (hone : p.len ≤ n) :
    readTaken s k p n 1 =
      let v := regRead s (vfPart s f) r off p.len none 0
      if v.2.bad || v.2.rev then answer v.1 k (.nak 3) (p.psn % 2 ^ 24)
      else sendPkt v.1 k (wholeAnswer (qpOf s k).msn p v.2.bytes) := by
  subst hfn
  have hmin : min n (p.len - n * 0) = p.len := by simpa using hone
  have hqp := (keepsStream_regRead s (vfPart s s.cur.fn) r off p.len none 0).qpOf k
  unfold readTaken
  rw [if_neg (Nat.not_lt.2 hlen), if_neg (show ¬ s.cur.fn = psf from hf), h]
  dsimp only
  rw [readResponses_one, hmin, Nat.mul_zero, Nat.add_zero, Nat.add_zero, ← hqp]
  rfl

theorem readTaken_of_register (hf : f = 512) (hva : p.va % 4 = 0) (hfour : p.len = 4) (hn : p.len ≤ n) :
    readTaken s k p n 1 = sendPkt s k (wholeAnswer (qpOf s k).msn p (leBytes 4 (readReg s p.va).toNat)) := by
  subst hfn
  have htake : ((leBytes 4 (readReg s p.va).toNat).drop (n * 0)).take n = leBytes 4 (readReg s p.va).toNat :=
    List.take_of_length_le (by simpa [hfour] using hn)
  unfold readTaken
  rw [if_neg (Nat.not_lt.2 hlen), if_pos (show s.cur.fn = psf from hf), if_neg (by simp [hva, hfour]), hfour]
  show readPkt s k p 0 1 (((leBytes 4 (readReg s p.va).toNat).drop (n * 0)).take n) = _
  rw [htake]
  rfl
end

-- The instructions, for a request in its turn

section
variable {s : State} {p : RocePkt} {n : Nat} {rest : List (RocePkt × Nat)}

theorem packetTaken_cur (s : State) (rest : List (RocePkt × Nat)) (n psns : Nat) :
    (packetTaken s rest n psns).cur = s.cur := by
  obtain ⟨_, h, -⟩ := packetTaken_frame s rest n psns
  rw [h]

theorem curFn_packetTaken (s : State) (rest : List (RocePkt × Nat)) (n psns : Nat) :
    (packetTaken s rest n psns).cur.fn = s.cur.fn := by rw [packetTaken_cur]

theorem inMessage_packetTaken (s : State) (rest : List (RocePkt × Nat)) (n psns : Nat) (p : RocePkt) (write : Bool) :
    inMessage (qpOf (packetTaken s rest n psns) (qpKey s.cur.fn s.cur.qpn)) p write =
      inMessage (qpOf s (qpKey s.cur.fn s.cur.qpn)) p write := by
  rw [qpOf_packetTaken]
  rfl

theorem sendMsg_packetTaken (s : State) (rest : List (RocePkt × Nat)) (n psns : Nat) :
    sendMsg (qpOf (packetTaken s rest n psns) (qpKey s.cur.fn s.cur.qpn)) =
      sendMsg (qpOf s (qpKey s.cur.fn s.cur.qpn)) := by
  rw [qpOf_packetTaken]
  rfl

theorem writeMsg_packetTaken (s : State) (rest : List (RocePkt × Nat)) (n psns : Nat) (p : RocePkt) :
    writeMsg (qpOf (packetTaken s rest n psns) (qpKey s.cur.fn s.cur.qpn)) p =
      writeMsg (qpOf s (qpKey s.cur.fn s.cur.qpn)) p := by
  rw [qpOf_packetTaken]
  rfl

variable (hrx : (qpOf s (qpKey s.cur.fn s.cur.qpn)).rx = (p, n) :: rest)
  (hst : (qpOf s (qpKey s.cur.fn s.cur.qpn)).st = .rts)
  (hpsn : p.psn = (qpOf s (qpKey s.cur.fn s.cur.qpn)).rPsn)
include hrx hst hpsn

section
variable (hop : p.op = .send ∨ p.op = .sendImm)
include hop

theorem exec_roceSendReceive_of_astray (h : inMessage (qpOf s (qpKey s.cur.fn s.cur.qpn)) p false = false) :
    exec .roceSendReceive s = .next (answer (packetTaken s rest n 1) (qpKey s.cur.fn s.cur.qpn) (.nak 1) p.psn) :=
  (exec_roceSendReceive_of_turn hrx hst hpsn hop).trans (congrArg Host.Outcome.next
    (sendTaken_of_astray (by rw [inMessage_packetTaken]; exact h)))

theorem exec_roceSendReceive_of_more (h : inMessage (qpOf s (qpKey s.cur.fn s.cur.qpn)) p false = true)
    (hlast : p.last = false)
    (hlen : (sendMsg (qpOf s (qpKey s.cur.fn s.cur.qpn))).data.length + p.data.length ≤ 2 ^ 31) :
    exec .roceSendReceive s = .next (answer (modQp (packetTaken s rest n 1) (qpKey s.cur.fn s.cur.qpn) (fun x => { x with
      msg := some { sendMsg (qpOf s (qpKey s.cur.fn s.cur.qpn)) with
        data := (sendMsg (qpOf s (qpKey s.cur.fn s.cur.qpn))).data ++ p.data } })) (qpKey s.cur.fn s.cur.qpn) .ack
      p.psn) := by
  have htaken := sendTaken_of_more (s := packetTaken s rest n 1) (k := qpKey s.cur.fn s.cur.qpn) (p := p)
    (by rw [inMessage_packetTaken]; exact h) (by rw [sendMsg_packetTaken]; exact hlen) hlast
  rw [sendMsg_packetTaken] at htaken
  exact (exec_roceSendReceive_of_turn hrx hst hpsn hop).trans (congrArg Host.Outcome.next htaken)

theorem exec_roceSendReceive_of_last (h : inMessage (qpOf s (qpKey s.cur.fn s.cur.qpn)) p false = true)
    (hlast : p.last = true)
    (hlen : (sendMsg (qpOf s (qpKey s.cur.fn s.cur.qpn))).data.length + p.data.length ≤ 2 ^ 31) :
    exec .roceSendReceive s = .next (answer (msgEnded (submit (packetTaken s rest n 1) s.cur.fn s.cur.qpn
      ((sendMsg (qpOf s (qpKey s.cur.fn s.cur.qpn))).data ++ p.data)) (qpKey s.cur.fn s.cur.qpn))
      (qpKey s.cur.fn s.cur.qpn) .ack p.psn) := by
  have htaken := sendTaken_of_last (s := packetTaken s rest n 1) (k := qpKey s.cur.fn s.cur.qpn) (p := p)
    (by rw [inMessage_packetTaken]; exact h) (by rw [sendMsg_packetTaken]; exact hlen) hlast
  rw [sendMsg_packetTaken, packetTaken_cur] at htaken
  exact (exec_roceSendReceive_of_turn hrx hst hpsn hop).trans (congrArg Host.Outcome.next htaken)

/-- A SEND of one packet. -/
theorem exec_roceSendReceive_of_whole (hmsg : (qpOf s (qpKey s.cur.fn s.cur.qpn)).msg = none) (hfirst : p.first = true)
    (hlast : p.last = true) (hmtu : p.data.length ≤ 1024 * 2 ^ (qpOf s (qpKey s.cur.fn s.cur.qpn)).mtu)
    (hlen : p.data.length ≤ 2 ^ 31) : exec .roceSendReceive s = .next (answer (msgEnded
      (submit (packetTaken s rest n 1) s.cur.fn s.cur.qpn p.data) (qpKey s.cur.fn s.cur.qpn))
      (qpKey s.cur.fn s.cur.qpn) .ack p.psn) := by
  have hnew : sendMsg (qpOf s (qpKey s.cur.fn s.cur.qpn)) = { write := false } := by rw [sendMsg, hmsg]; rfl
  have hexec := exec_roceSendReceive_of_last hrx hst hpsn hop (inMessage_of_whole hmsg hfirst hlast hmtu false) hlast
    (by rw [hnew]; simpa using hlen)
  rw [hnew, List.nil_append] at hexec
  exact hexec
end

omit hrx hst hpsn in
/-- The queue that a SEND's record starts. -/
theorem queueOf_sent (k : Nat) (hok : recRefused s p.data s.cur.fn = none)
    (hidle : (queueOf s (vfPart s s.cur.fn + (recOf p.data s.cur.fn s.cur.qpn).q / 16)
      ((recOf p.data s.cur.fn s.cur.qpn).q % 16)).st = .idle) :
    let r := recOf p.data s.cur.fn s.cur.qpn
    let x := queueOf s (vfPart s s.cur.fn + r.q / 16) (r.q % 16)
    queueOf (answer (msgEnded (submit (packetTaken s rest n 1) s.cur.fn s.cur.qpn p.data) k) k .ack p.psn)
      (vfPart s s.cur.fn + r.q / 16) (r.q % 16) = startRec { x with expected := x.expected + 1 } r := by
  intro r x
  have hsame := sameFunctions_packetTaken s rest n 1
  have hqueue (b q : Nat) : queueOf (packetTaken s rest n 1) b q = queueOf s b q := by
    obtain ⟨_, h⟩ := hsame.frame
    rw [h]
    rfl
  have hpart := hsame.vfPart s.cur.fn
  have hsubmit := queueOf_submit_of_idle (s := packetTaken s rest n 1) (f := s.cur.fn) s.cur.qpn (bs := p.data)
    (by rw [hsame.recRefused]; exact hok) (by rw [hpart, hqueue]; exact hidle)
  rw [hpart, hqueue] at hsubmit
  rw [queueOf_answer]
  exact hsubmit

section
variable (hop : p.op = .write ∨ p.op = .writeImm)
include hop

section
variable {m : RdmaMsg} (hm : writeMsg (qpOf s (qpKey s.cur.fn s.cur.qpn)) p = m)
  (h : inMessage (qpOf s (qpKey s.cur.fn s.cur.qpn)) p true = true) (hleft : m.left ≤ 2 ^ 31)
  (hlen : p.data.length ≤ m.left) (hlast : p.last = true → p.data.length = m.left)
include hm h hleft hlen hlast

theorem exec_roceRdmaWrite_of_refused (hno : writeAllowed s s.cur.fn m p.data.length = false) :
    exec .roceRdmaWrite s = .next (answer (packetTaken s rest n 1) (qpKey s.cur.fn s.cur.qpn) (.nak 2) p.psn) := by
  have hallowed := ((sameFunctions_packetTaken s rest n 1).writeAllowed s.cur.fn m p.data.length).trans hno
  rw [exec_roceRdmaWrite_of_turn hrx hst hpsn hop, writeTaken_of_refused ((writeMsg_packetTaken s rest n 1 p).trans hm)
    (curFn_packetTaken s rest n 1) ((inMessage_packetTaken s rest n 1 p true).trans h) hleft hlen hlast hallowed]

variable (hok : writeAllowed s s.cur.fn m p.data.length = true)
include hok

theorem exec_roceRdmaWrite_of_landed (hland : (landWrite (packetTaken s rest n 1) s.cur.fn m p.data).2 = true) :
    exec .roceRdmaWrite s = .next (answer (msgGo (landWrite (packetTaken s rest n 1) s.cur.fn m p.data).1
      (qpKey s.cur.fn s.cur.qpn) p { m with va := m.va + p.data.length, left := m.left - p.data.length })
      (qpKey s.cur.fn s.cur.qpn) .ack p.psn) := by
  have hallowed := ((sameFunctions_packetTaken s rest n 1).writeAllowed s.cur.fn m p.data.length).trans hok
  rw [exec_roceRdmaWrite_of_turn hrx hst hpsn hop, writeTaken_of_landed ((writeMsg_packetTaken s rest n 1 p).trans hm)
    (curFn_packetTaken s rest n 1) ((inMessage_packetTaken s rest n 1 p true).trans h) hleft hlen hlast hallowed hland]

theorem exec_roceRdmaWrite_of_lost (hland : (landWrite (packetTaken s rest n 1) s.cur.fn m p.data).2 = false) :
    exec .roceRdmaWrite s = .next (answer (landWrite (packetTaken s rest n 1) s.cur.fn m p.data).1
      (qpKey s.cur.fn s.cur.qpn) (.nak 3) p.psn) := by
  have hallowed := ((sameFunctions_packetTaken s rest n 1).writeAllowed s.cur.fn m p.data.length).trans hok
  rw [exec_roceRdmaWrite_of_turn hrx hst hpsn hop, writeTaken_of_lost ((writeMsg_packetTaken s rest n 1 p).trans hm)
    (curFn_packetTaken s rest n 1) ((inMessage_packetTaken s rest n 1 p true).trans h) hleft hlen hlast hallowed hland]
end

section
variable (hmsg : (qpOf s (qpKey s.cur.fn s.cur.qpn)).msg = none) (hfirst : p.first = true) (hlast : p.last = true)
  (hmtu : p.data.length ≤ 1024 * 2 ^ (qpOf s (qpKey s.cur.fn s.cur.qpn)).mtu) (hwhole : p.len = p.data.length)
  (hlen : p.len ≤ 2 ^ 31)
include hmsg hfirst hlast hmtu hwhole hlen

/-- A WRITE of one packet, by where its bytes come to lie. -/
theorem exec_roceRdmaWrite_of_whole :
    let m : RdmaMsg := { write := true, rkey := p.rkey, va := p.va, left := p.len }
    let d := landWrite (packetTaken s rest n 1) s.cur.fn m p.data
    (writeAllowed s s.cur.fn m p.data.length = false → exec .roceRdmaWrite s =
      .next (answer (packetTaken s rest n 1) (qpKey s.cur.fn s.cur.qpn) (.nak 2) p.psn)) ∧
    (writeAllowed s s.cur.fn m p.data.length = true → d.2 = true → exec .roceRdmaWrite s =
      .next (answer (msgEnded d.1 (qpKey s.cur.fn s.cur.qpn)) (qpKey s.cur.fn s.cur.qpn) .ack p.psn)) ∧
    (writeAllowed s s.cur.fn m p.data.length = true → d.2 = false → exec .roceRdmaWrite s =
      .next (answer d.1 (qpKey s.cur.fn s.cur.qpn) (.nak 3) p.psn)) := by
  intro m d
  have hm : writeMsg (qpOf s (qpKey s.cur.fn s.cur.qpn)) p = m := by rw [writeMsg, hmsg]; rfl
  have hin := inMessage_of_whole hmsg hfirst hlast hmtu true
  refine ⟨exec_roceRdmaWrite_of_refused hrx hst hpsn hop hm hin hlen hwhole.ge fun _ => hwhole.symm, fun hok hland => ?_,
    exec_roceRdmaWrite_of_lost hrx hst hpsn hop hm hin hlen hwhole.ge fun _ => hwhole.symm⟩
  rw [exec_roceRdmaWrite_of_landed hrx hst hpsn hop hm hin hlen hwhole.ge (fun _ => hwhole.symm) hok hland,
    msgGo_of_last hlast]

/-- Its bytes lie in a region. -/
theorem exec_roceRdmaWrite_of_region {r : Region} {off : Nat} (hf : s.cur.fn ≠ 512)
    (hr : rdmaRegion s (vfPart s s.cur.fn) p.rkey p.va p.len true = some (r, off)) :
    let d := regThrough (packetTaken s rest n 1) (vfPart s s.cur.fn) r off p.data
    (d.2 = true → exec .roceRdmaWrite s =
      .next (answer (msgEnded d.1 (qpKey s.cur.fn s.cur.qpn)) (qpKey s.cur.fn s.cur.qpn) .ack p.psn)) ∧
    (d.2 = false → exec .roceRdmaWrite s = .next (answer d.1 (qpKey s.cur.fn s.cur.qpn) (.nak 3) p.psn)) := by
  have hsame := sameFunctions_packetTaken s rest n 1
  obtain ⟨-, hack, hnak⟩ := exec_roceRdmaWrite_of_whole hrx hst hpsn hop hmsg hfirst hlast hmtu hwhole hlen
  have hland : landWrite (packetTaken s rest n 1) s.cur.fn
      { write := true, rkey := p.rkey, va := p.va, left := p.len } p.data =
      regThrough (packetTaken s rest n 1) (vfPart s s.cur.fn) r off p.data := by
    rw [landWrite_of_region hf (r := r) (off := off) (by rw [hsame.vfPart, hsame.rdmaRegion, ← hwhole]; exact hr),
      hsame.vfPart]
  have hok : writeAllowed s s.cur.fn { write := true, rkey := p.rkey, va := p.va, left := p.len } p.data.length = true := by
    rw [writeAllowed_of_region _ _ hf]
    exact Option.isSome_iff_exists.2 ⟨_, hr⟩
  rw [hland] at hack hnak
  exact ⟨hack hok, hnak hok⟩

/-- The R_Key does not let it write. -/
theorem exec_roceRdmaWrite_of_foreign (hf : s.cur.fn ≠ 512)
    (hr : rdmaRegion s (vfPart s s.cur.fn) p.rkey p.va p.len true = none) : exec .roceRdmaWrite s =
      .next (answer (packetTaken s rest n 1) (qpKey s.cur.fn s.cur.qpn) (.nak 2) p.psn) := by
  obtain ⟨hno, -, -⟩ := exec_roceRdmaWrite_of_whole hrx hst hpsn hop hmsg hfirst hlast hmtu hwhole hlen
  refine hno ?_
  rw [writeAllowed_of_region _ _ hf]
  exact Option.isSome_eq_false_iff.2 (Option.isNone_iff_eq_none.2 hr)

/-- On the supervisor function it is a package register's. -/
theorem exec_roceRdmaWrite_of_register {w : W32} (hf : s.cur.fn = 512) (hva : p.va % 4 = 0)
    (hdata : p.data = leBytes 4 w.toNat) : exec .roceRdmaWrite s =
      .next (answer (msgEnded (writeReg (packetTaken s rest n 1) p.va w) (qpKey s.cur.fn s.cur.qpn))
        (qpKey s.cur.fn s.cur.qpn) .ack p.psn) := by
  obtain ⟨-, hack, -⟩ := exec_roceRdmaWrite_of_whole hrx hst hpsn hop hmsg hfirst hlast hmtu hwhole hlen
  have hfour : p.data.length = 4 := by rw [hdata, length_leBytes]
  have hland : landWrite (packetTaken s rest n 1) s.cur.fn
      { write := true, rkey := p.rkey, va := p.va, left := p.len } p.data =
      (writeReg (packetTaken s rest n 1) p.va w, true) := by
    rw [hf, hdata, landWrite_of_register]
  have hok : writeAllowed s s.cur.fn { write := true, rkey := p.rkey, va := p.va, left := p.len } p.data.length = true :=
    (if_pos hf).trans (by simp [hva, hwhole, hfour])
  rw [hland] at hack
  exact hack hok rfl
end
end

section
variable (hop : p.op = .read) (hmtu : p.len ≤ mtuBytes (qpOf s (qpKey s.cur.fn s.cur.qpn)))
include hop hmtu

/-- A request that counts as a message received. -/
def readCounted (s : State) (rest : List (RocePkt × Nat)) (n : Nat) : State :=
  modQp (packetTaken s rest n 1) (qpKey s.cur.fn s.cur.qpn) (fun x => { x with msn := (x.msn + 1) % 2 ^ 24 })

omit hrx hst hpsn hop hmtu in
theorem sameFunctions_readCounted (s : State) (rest : List (RocePkt × Nat)) (n : Nat) :
    SameFunctions s (readCounted s rest n) := by
  have hsame := sameFunctions_packetTaken s rest n 1
  obtain ⟨port, h⟩ := hsame.frame
  refine ⟨?_, fun v => ?_⟩
  · rw [readCounted, h]
    exact ⟨_, rfl⟩
  · rw [readCounted, (samePort_modQp _ _ _).vfWord, hsame.vfWord]

omit hrx hst hpsn hop hmtu in
theorem msn_readCounted (s : State) (rest : List (RocePkt × Nat)) (n : Nat) :
    (qpOf (readCounted s rest n) (qpKey s.cur.fn s.cur.qpn)).msn =
      ((qpOf s (qpKey s.cur.fn s.cur.qpn)).msn + 1) % 2 ^ 24 := by
  rw [readCounted, qpOf_modQp_same, qpOf_packetTaken]

omit hrx hst hpsn hop hmtu in
theorem curFn_readCounted (s : State) (rest : List (RocePkt × Nat)) (n : Nat) :
    (readCounted s rest n).cur.fn = s.cur.fn := by rw [readCounted, modQp_cur, packetTaken_cur]

theorem exec_roceRdmaRead_of_counted : exec .roceRdmaRead s = .next (readTaken (readCounted s rest n)
    (qpKey s.cur.fn s.cur.qpn) p (mtuBytes (qpOf s (qpKey s.cur.fn s.cur.qpn))) 1) := by
  rw [readCounted, exec_roceRdmaRead_of_turn hrx hst hpsn hop hmtu]

variable (hlen : p.len ≤ 2 ^ 31)
include hlen

theorem exec_roceRdmaRead_of_region {r : Region} {off : Nat} (hf : s.cur.fn ≠ 512)
    (hr : rdmaRegion s (vfPart s s.cur.fn) p.rkey p.va p.len false = some (r, off)) :
    let v := regRead (readCounted s rest n) (vfPart s s.cur.fn) r off p.len none 0
    (v.2.bad = false → v.2.rev = false → exec .roceRdmaRead s = .next (sendPkt v.1 (qpKey s.cur.fn s.cur.qpn)
      (wholeAnswer (((qpOf s (qpKey s.cur.fn s.cur.qpn)).msn + 1) % 2 ^ 24) p v.2.bytes))) ∧
    (v.2.bad = true ∨ v.2.rev = true → exec .roceRdmaRead s =
      .next (answer v.1 (qpKey s.cur.fn s.cur.qpn) (.nak 3) (p.psn % 2 ^ 24))) := by
  have hsame := sameFunctions_readCounted s rest n
  have htaken := readTaken_of_some (k := qpKey s.cur.fn s.cur.qpn) (r := r) (off := off) (curFn_readCounted s rest n) hlen
    hf (by rw [hsame.vfPart, hsame.rdmaRegion]; exact hr) hmtu
  rw [hsame.vfPart, msn_readCounted] at htaken
  have hexec := (exec_roceRdmaRead_of_counted hrx hst hpsn hop hmtu).trans (congrArg Host.Outcome.next htaken)
  intro v
  refine ⟨fun hbad hrev => hexec.trans (congrArg Host.Outcome.next (if_neg ?_)),
    fun hbad => hexec.trans (congrArg Host.Outcome.next (if_pos ?_))⟩
  · show ¬ (v.2.bad || v.2.rev) = true
    rw [hbad, hrev]
    decide
  · show (v.2.bad || v.2.rev) = true
    rw [Bool.or_eq_true]
    exact hbad

theorem exec_roceRdmaRead_of_foreign (hf : s.cur.fn ≠ 512)
    (hr : rdmaRegion s (vfPart s s.cur.fn) p.rkey p.va p.len false = none) : exec .roceRdmaRead s =
      .next (answer (readCounted s rest n) (qpKey s.cur.fn s.cur.qpn) (.nak 2) p.psn) := by
  have hsame := sameFunctions_readCounted s rest n
  have htaken := readTaken_of_none (k := qpKey s.cur.fn s.cur.qpn) (n := mtuBytes (qpOf s (qpKey s.cur.fn s.cur.qpn)))
    (curFn_readCounted s rest n) hlen hf (by rw [hsame.vfPart, hsame.rdmaRegion]; exact hr)
  exact (exec_roceRdmaRead_of_counted hrx hst hpsn hop hmtu).trans (congrArg Host.Outcome.next htaken)

theorem exec_roceRdmaRead_of_register (hf : s.cur.fn = 512) (hva : p.va % 4 = 0) (hfour : p.len = 4) :
    exec .roceRdmaRead s = .next (sendPkt (readCounted s rest n) (qpKey s.cur.fn s.cur.qpn)
      (wholeAnswer (((qpOf s (qpKey s.cur.fn s.cur.qpn)).msn + 1) % 2 ^ 24) p
        (leBytes 4 (readReg (readCounted s rest n) p.va).toNat))) := by
  have htaken := readTaken_of_register (k := qpKey s.cur.fn s.cur.qpn) (curFn_readCounted s rest n) hlen hf hva hfour hmtu
  rw [msn_readCounted] at htaken
  exact (exec_roceRdmaRead_of_counted hrx hst hpsn hop hmtu).trans (congrArg Host.Outcome.next htaken)
end
end

/-- Settles O55: the commands and timers first, then what a packet at the head of its queue pair comes to. -/
theorem queuePairs : Obligations.QueuePairs := by
  unfold Obligations.QueuePairs
  intro s fn k q c
  refine ⟨fun h i hi => exec_qpCommand_of_busy h hi, fun h hno i hi => exec_qpCommand_of_none h hno hi, ?_, rfl, ?_,
    fun a ha hdue hrate => exec_cnpRateIncrease_of_due ha hdue hrate, ?_⟩
  · intro hidle hq
    obtain ⟨hremote, hsPsn, hrPsn⟩ := qpOfBuf_numbers s
    obtain ⟨hreset, hout, hrx⟩ := qpOf_qpCleared s c
    refine ⟨fun hbuf hst => ⟨_, exec_qpConnect_of_ready hidle hq hbuf hst, rfl, ?_⟩, exec_qpConnect_of_badBuf hidle hq,
      exec_qpConnect_of_used hidle hq, _, exec_qpReset_of_idle hidle hq, qpCleared_mem s c, hreset, hout, hrx,
      qpCleared_qpErr s c, ?_⟩
    · rw [qpOf_modQp_same]
      exact ⟨rfl, hremote, hsPsn, hrPsn, rfl, rfl⟩
    · show (!(qpOf s c).out.isEmpty) = true ↔ (qpOf s c).out ≠ []
      simp
  · intro o os hout hst hlate
    exact ⟨exec_qpRetryTimeout_of_spent hout hst hlate, exec_qpRetryTimeout_of_more hout hst hlate⟩
  · intro p n rest hrx hst
    refine ⟨exec_cnpReceive_of_cnp hrx hst, exec_roceResponseReceive_of_ack hrx hst,
      fun o os b qu level off len hop hout hpsn hread hwork hf hl =>
        exec_roceResponseReceive_of_readResp hrx hst hop hout hpsn hread hwork hf hl, fun hpsn => ?_⟩
    intro u ended whole
    refine ⟨exec_roceAtomicRequest_of_turn hrx hst hpsn, fun hop => ?_, fun hop => ?_, fun hop hmtu hlen => ?_⟩
    · refine ⟨exec_roceSendReceive_of_astray hrx hst hpsn hop, exec_roceSendReceive_of_more hrx hst hpsn hop,
        exec_roceSendReceive_of_last hrx hst hpsn hop, ?_⟩
      rintro ⟨hmsg, hfirst, hlast, hmtu⟩ hlen
      refine ⟨exec_roceSendReceive_of_whole hrx hst hpsn hop hmsg hfirst hlast hmtu hlen, fun hok hidle => ?_⟩
      have hqueue := queueOf_sent (p := p) (n := n) (rest := rest) k hok hidle
      exact ⟨congrArg QueueS.st hqueue, congrArg QueueS.cur hqueue, congrArg QueueS.expected hqueue,
        congrArg QueueS.levels hqueue⟩
    · refine ⟨fun hin hleft hlen hlast hok => ⟨exec_roceRdmaWrite_of_landed hrx hst hpsn hop rfl hin hleft hlen hlast hok,
        exec_roceRdmaWrite_of_lost hrx hst hpsn hop rfl hin hleft hlen hlast hok⟩, ?_⟩
      rintro ⟨hmsg, hfirst, hlast, hmtu⟩ hwhole hlen
      exact ⟨fun r off hf hr =>
          exec_roceRdmaWrite_of_region hrx hst hpsn hop hmsg hfirst hlast hmtu hwhole hlen hf hr,
        exec_roceRdmaWrite_of_foreign hrx hst hpsn hop hmsg hfirst hlast hmtu hwhole hlen,
        fun w hf hva hdata =>
          exec_roceRdmaWrite_of_register hrx hst hpsn hop hmsg hfirst hlast hmtu hwhole hlen hf hva hdata⟩
    · exact ⟨fun r off hf hr => exec_roceRdmaRead_of_region hrx hst hpsn hop hmtu hlen hf hr,
        exec_roceRdmaRead_of_foreign hrx hst hpsn hop hmtu hlen,
        exec_roceRdmaRead_of_register hrx hst hpsn hop hmtu hlen⟩

end Sys2Proof.Machine

namespace Sys2Proof.Machine
open Sys2Proof

/-! ## Functions that leave device memory as it is

Only `putLine`, `zeroLines` and `rekeyLines` write `State.mem`. Each of the others gets the one fact that it leaves it. -/

@[simp] theorem foldl_mem {ι : Type} {g : State → ι → State} (h : ∀ s i, (g s i).mem = s.mem) (l : List ι) (s : State) :
    (l.foldl g s).mem = s.mem := by
  induction l generalizing s with
  | nil => rfl
  | cons i l ih => exact (ih (g s i)).trans (h s i)

@[simp] theorem foldl_fst_mem {ι β : Type} {g : State × β → ι → State × β} (h : ∀ x i, (g x i).1.mem = x.1.mem)
    (l : List ι) (x : State × β) : (l.foldl g x).1.mem = x.1.mem := by
  induction l generalizing x with
  | nil => rfl
  | cons i l ih => exact (ih (g x i)).trans (h x i)

@[simp] theorem postNow_mem (s : State) (ts : List Turn) : (postNow s ts).mem = s.mem := rfl
@[simp] theorem freeValue_mem (s : State) : ((freeValue s).2).mem = s.mem := rfl

@[simp] theorem logErr_mem (s : State) (cls bh part syn region line n : ℕ) :
    (logErr s cls bh part syn region line n).mem = s.mem :=
  rfl

@[simp] theorem logLine_mem (s : State) (cls syn l : ℕ) : (logLine s cls syn l).mem = s.mem := by
  simp only [logLine]
  repeat' split
  all_goals simp

@[simp] theorem ctrBump_mem (s : State) (l : ℕ) : (ctrBump s l).mem = s.mem := rfl
@[simp] theorem rcRefresh_mem (s : State) (p : ℕ) : (rcRefresh s p).mem = s.mem := by
  simp [rcRefresh, apply_ite State.mem]

@[simp] theorem regionRo_mem (s : State) (l : ℕ) : (regionRo s l).mem = s.mem := by
  unfold regionRo
  split
  all_goals simp

@[simp] theorem ctlRead_mem (s : State) (r : StackReq) (l : ℕ) : ((ctlRead s r l).1).mem = s.mem := by
  simp only [ctlRead]
  repeat' split
  all_goals simp

@[simp] theorem mergeRead_mem (s : State) (r : StackReq) (l : ℕ) : ((mergeRead s r l).2).mem = s.mem := by
  unfold mergeRead
  repeat' split
  all_goals simp

@[simp] theorem upperPerform_mem (s : State) (k : ℕ) (r : StackReq) : ((upperPerform s k r).1).mem = s.mem := by
  simp only [upperPerform]
  repeat' split
  all_goals simp

@[simp] theorem modRouter_mem (s : State) (k : ℕ) (f : RouterS → RouterS) : (modRouter s k f).mem = s.mem := rfl
@[simp] theorem l2Unpin_mem (s : State) (l : ℕ) : (l2Unpin s l).mem = s.mem := rfl

@[simp] theorem deliverLine_mem (s : State) (who : Requester) (v : LineVal) (pin : Option ℕ) :
    (deliverLine s who v pin).mem = s.mem :=
  (keepsWork_deliverLine s who v pin).kept.mem

@[simp] theorem drainArrived_mem (s : State) (who : Requester) : (drainArrived s who).mem = s.mem := by
  unfold drainArrived
  split <;> rfl

@[simp] theorem deliverValue_mem (s : State) (p ep : ℕ) (v : PendVal) : (deliverValue s p ep v).mem = s.mem := by
  simp [deliverValue, apply_ite State.mem]

@[simp] theorem netDeliver_mem {again : State → ℕ → Requester → LineVal → State}
    (h : ∀ t b who v, (again t b who v).mem = t.mem) (s : State) (m : NetMsg) : (netDeliver again s m).mem = s.mem := by
  unfold netDeliver
  split
  case h_7 => exact h _ _ _ _
  case h_3 => exact deliverLine_mem ..
  case h_8 | h_11 => dsimp only; split <;> rfl
  case h_9 => refine (deliverValue_mem ..).trans ?_; split <;> rfl
  all_goals rfl

@[simp] theorem netEnter_mem (s : State) (cls : ℕ) (f t : ℕ × ℕ × ℕ) (bh : ℕ) (m : NetMsg) :
    (netEnter s cls f t bh m).mem = s.mem :=
  rfl

@[simp] theorem winOnward_mem (s : State) (b : ℕ) (who : Requester) (v : LineVal) :
    (winOnward s b who v).mem = s.mem :=
  (keepsWork_winOnward s b who v).kept.mem

@[simp] theorem netGive_mem (s : State) (m : NetMsg) : (netGive s m).mem = s.mem := netDeliver_mem winOnward_mem s m

@[simp] theorem netSend_mem (s : State) (cls : ℕ) (f t : ℕ × ℕ × ℕ) (bh : ℕ) (m : NetMsg) :
    (netSend s cls f t bh m).mem = s.mem := by
  unfold netSend
  split <;> simp

@[simp] theorem sendLine_mem (s : State) (k : ℕ) (r : SliceReq) (v : LineVal) (pin : Option ℕ) :
    (sendLine s k r v pin).mem = s.mem := by
  unfold sendLine
  split <;> simp

@[simp] theorem giveReply_mem (s : State) (k : ℕ) (r : StackReq) (x : StackReply) :
    (giveReply s k r x).mem = s.mem := by
  simp [giveReply]

@[simp] theorem sendStack_mem (s : State) (k : ℕ) (r : StackReq) (l : ℕ) : (sendStack s k r l).mem = s.mem := by
  simp [sendStack]

@[simp] theorem meetUe_mem (s : State) (k l : ℕ) : (meetUe s k l).mem = s.mem := by
  unfold meetUe
  repeat' split
  all_goals simp

@[simp] theorem l2Touch_mem (s : State) (k : ℕ) (y : L2Line) (pin : Bool) : (l2Touch s k y pin).mem = s.mem := by
  simp [l2Touch, apply_ite State.mem]

@[simp] theorem lineServe_mem (s : State) (k : ℕ) (y : L2Line) : ((lineServe s k y).1).mem = s.mem := by
  unfold lineServe
  split <;> simp

@[simp] theorem fillServe_mem (s : State) (k l : ℕ) (r : StackReply) : ((fillServe s k l r).1).mem = s.mem := by
  unfold fillServe
  repeat' split
  all_goals simp

@[simp] theorem stagedUnder_mem (s : State) (k : ℕ) (y : L2Line) (d : BitVec 512) (mask : W64) :
    (stagedUnder s k y d mask).mem = s.mem :=
  rfl

@[simp] theorem winDisable_mem (s : State) (w : ℕ) : (winDisable s w).mem = s.mem := rfl

@[simp] theorem rcUse_mem (s : State) (p va : ℕ) : (rcUse s p va).mem = s.mem := by
  simp only [rcUse]
  repeat' split
  all_goals simp

@[simp] theorem winLog_mem (s : State) (cls w b off : ℕ) : (winLog s cls w b off).mem = s.mem := rfl

@[simp] theorem unreplayHere_mem (s : State) (why : ℕ) : (unreplayHere s why).mem = s.mem := by
  unfold unreplayHere
  repeat' split
  all_goals simp [unreplay_mem]

@[simp] theorem noteWrite_mem (s : State) (p num off n : ℕ) (r : Region) :
    (noteWrite s p num off n r).mem = s.mem := by
  unfold noteWrite
  repeat' split
  all_goals simp [unreplay_mem]

@[simp] theorem arrWrite_mem (s : State) (p num off : ℕ) (r : Region) (bs : List Byte) (pois : Bool) (cls : ℕ) :
    (arrWrite s p num off r bs pois cls).mem = s.mem := by
  unfold arrWrite
  refine (foldl_mem (by intros; rfl) _ _).trans ?_
  split
  · rfl
  · exact noteWrite_mem ..

@[simp] theorem xferSettle_mem (s : State) (p : ℕ) : (xferSettle s p).mem = s.mem := by
  simp [xferSettle, apply_ite State.mem]
@[simp] theorem sendSlice_mem (s : State) (p k : ℕ) (r : SliceReq) : (sendSlice s p k r).mem = s.mem := by
  simp [sendSlice]
@[simp] theorem sendWin_mem (s : State) (p : ℕ) (r : WinReq) : (sendWin s p r).mem = s.mem := by
  simp [sendWin, apply_ite State.mem]

@[simp] theorem sendRead_mem (s : State) (p cls : ℕ) (r : Region) (off rc : ℕ) (who : Requester) :
    (sendRead s p cls r off rc who).mem = s.mem := by
  unfold sendRead
  split <;> simp

@[simp] theorem withRegsS_mem {s k : State} (sl : Slot) (rs : List (BitVec 5)) (h : k.mem = s.mem) :
    (withRegsS s sl rs k).mem = s.mem := by
  unfold withRegsS
  split
  · rfl
  · exact h

@[simp] theorem faultS_mem (s : State) (sl : Slot) (c : Cause) (detail : W64) (num : ℕ) :
    (faultS s sl c detail num).mem = s.mem :=
  rfl

@[simp] theorem withAccess_mem {s : State} (sl : Slot) (path va size : ℕ) (k : AccK) {go : ℕ → Region → ℕ → State}
    (h : ∀ n r off, (go n r off).mem = s.mem) : (withAccess s sl path va size k go).mem = s.mem := by
  unfold withAccess
  split
  · rfl
  · split
    · rfl
    · exact h ..

@[simp] theorem scPush_mem (s : State) (o : ScOp) (d : BitVec 5) : (scPush s o d).mem = s.mem := rfl

@[simp] theorem scOp_mem (kind : ScKind) (w64 : Bool) (d a b c : BitVec 5) (rs : List (BitVec 5)) (s : State) :
    (scOp kind w64 d a b c rs s).mem = s.mem :=
  withRegsS_mem .s rs (withAccess_mem .s 1 _ _ _ fun _ _ _ => rfl)

@[simp] theorem withOwned_mem {s : State} (num : ℕ) {go : ℕ → Region → State}
    (h : ∀ p r, (go p r).mem = s.mem) : (withOwned s num go).mem = s.mem := by
  unfold withOwned
  dsimp only
  split
  · rfl
  · split
    · rfl
    · split
      · rfl
      · exact h ..

@[simp] theorem postInval_mem (s : State) (p num : ℕ) : (postInval s p num).mem = s.mem := by
  simp [postInval, apply_ite State.mem]

@[simp] theorem semOp_mem (kind : SemKind) (name : W16) (v : State → W64) (d : BitVec 5) (rs : List (BitVec 5))
    {effect : State → State} (h : ∀ t, (effect t).mem = t.mem) (s : State) : (semOp kind name v d rs effect s).mem = s.mem := by
  refine withRegsS_mem .s rs ?_
  split
  · rfl
  · exact h _

@[simp] theorem withStream_mem {s : State} (link : BitVec 4) (q : BitVec 2) (a : BitVec 5) {go : ℕ → ℕ → State}
    (h : ∀ l va, (go l va).mem = s.mem) : (withStream s link q a go).mem = s.mem := by
  refine withRegsS_mem .s [a] ?_
  dsimp only
  repeat' split
  · rfl
  · rfl
  · rfl
  · exact h ..

@[simp] theorem semPut_mem (s : State) (p : ℕ) (name : W16) (v : W64) : (semPut s p name v).mem = s.mem := rfl
@[simp] theorem semAdd_mem (s : State) (p : ℕ) (name : W16) (v : W64) : (semAdd s p name v).mem = s.mem := rfl

@[simp] theorem semSend_mem (s : State) (b p : ℕ) (k : SemKind) (name : W16) (v : W64) :
    (semSend s b p k name v).mem = s.mem := by
  unfold semSend
  repeat' split
  all_goals simp [apply_ite State.mem]

@[simp] theorem semDone_mem (s : State) (b p : ℕ) (m : Option (W16 × W64)) : (semDone s b p m).mem = s.mem := by
  unfold semDone
  split <;> simp

@[simp] theorem arrPoison_mem (s : State) (p num off n : ℕ) (r : Region) (cls : ℕ) :
    (arrPoison s p num off n r cls).mem = s.mem := by
  simp [arrPoison]

@[simp] theorem modChan_mem (s : State) (p ch : ℕ) (f : ChanS → ChanS) : (modChan s p ch f).mem = s.mem := rfl

@[simp] theorem chWrite_mem (s : State) (p ch : ℕ) (t : BitVec 1024) (addr : ℕ) (x : MkBytes) :
    (chWrite s p ch t addr x).mem = s.mem := by
  unfold chWrite
  split
  · dsimp only
    split
    · exact rcUse_mem ..
    · split <;> simp
  · rfl
  · rfl
  · exact foldl_mem (fun s l => by split <;> [split <;> rfl; rfl]) ..

@[simp] theorem channelComplete_mem (s : State) (p ch : ℕ) : (channelComplete s p ch).mem = s.mem := by
  unfold channelComplete
  repeat' split
  all_goals simp

@[simp] theorem arrPut_mem (s : State) (p va : ℕ) (bs : List Byte) : ((arrPut s p va bs).1).mem = s.mem := by
  simp only [arrPut]
  repeat' split
  all_goals simp

@[simp] theorem mpeAsk_mem (s : State) (p slot key off : ℕ) (r : Region) :
    (mpeAsk s p slot key off r).mem = s.mem := by
  simp [mpeAsk]

@[simp] theorem mpeEdges_mem (s : State) (p b : ℕ) : (mpeEdges s p b).mem = s.mem := by
  unfold mpeEdges
  split
  · rfl
  · refine foldl_mem (fun s x => ?_) _ s
    dsimp only
    split
    · exact rcUse_mem ..
    · simp

@[simp] theorem mpeAhead_mem (s : State) (p : ℕ) (m : MpeS) : (mpeAhead s p m).mem = s.mem := by simp [mpeAhead]

@[simp] theorem mpeStart_mem (s : State) (p : ℕ) (m : MpeS) : (mpeStart s p m).mem = s.mem := by
  simp only [mpeStart]
  repeat' split
  all_goals simp

@[simp] theorem mpeTrap_mem (s : State) (p : ℕ) (c : Cause) (detail : W64) (num : ℕ) :
    (mpeTrap s p c detail num).mem = s.mem :=
  rfl

@[simp] theorem mpeGather_mem (s : State) (p b : ℕ) : (mpeGather s p b).mem = s.mem := by
  unfold mpeGather
  split
  · rfl
  · dsimp only
    split
    · rfl
    · rfl
    · refine (mpeEdges_mem ..).trans (foldl_mem (fun s x => ?_) _ s)
      split <;> simp

@[simp] theorem mpeOut_mem (s : State) (p : ℕ) (m : MpeS) (v : ℕ) (lanes : Tab ℕ) :
    (mpeOut s p m v lanes).mem = s.mem := by
  unfold mpeOut
  have h := arrPut_mem s p (m.oBase + v * m.oStr) (laneBytes lanes)
  split <;> simp_all

@[simp] theorem mpeEdge65_mem (s : State) (p : ℕ) (e : PipeE) : (mpeEdge65 s p e).mem = s.mem := by
  unfold mpeEdge65
  split
  · rfl
  · split
    · rfl
    · rename_i m _ _ b _
      have hs : ((mpeTaps e).foldl (fun s t =>
          match mpePrev m b t.1 with
          | some v => mpeOut s p m v t.2
          | none => s) s).mem = s.mem := foldl_mem (fun s t => by split <;> simp) _ s
      dsimp only
      split
      · exact hs
      · split
        · split <;> rename_i hp
          · exact (congrArg (fun x => x.1.mem) hp).symm.trans ((arrPut_mem ..).trans hs)
          · exact (congrArg (fun x => x.1.mem) hp).symm.trans ((arrPut_mem ..).trans hs)
        · exact (mpeOut_mem ..).trans hs

@[simp] theorem sendWait_mem (s : State) (p t : ℕ) (name : W16) (v : W64) (since : ℕ) :
    (sendWait s p t name v since).mem = s.mem := by
  simp [sendWait]

@[simp] theorem answerWait_mem (s : State) (p t : ℕ) : (answerWait s p t).mem = s.mem := by
  simp only [answerWait]
  repeat' split
  all_goals simp

@[simp] theorem drainLine_mem (s : State) (p key : ℕ) (e : EgLine) : (drainLine s p key e).mem = s.mem := by
  unfold drainLine
  split <;> simp

@[simp] theorem clearRpend_mem (s : State) (p m : ℕ) : (clearRpend s p m).mem = s.mem := rfl
@[simp] theorem setTs_mem (s : State) (l : ℕ) (t : W64) : (setTs s l t).mem = s.mem := rfl
@[simp] theorem scReply_mem (s : State) (p k : ℕ) (v : PendVal) : (scReply s p k v).mem = s.mem := by simp [scReply]

@[simp] theorem semPerform_mem (s : State) (p : ℕ) (o : SemOp) (ready : ℕ) :
    ((semPerform s p o ready).1).mem = s.mem := by
  unfold semPerform
  split <;> rfl

@[simp] theorem semDue_mem (s : State) (p : ℕ) : (semDue s p).mem = s.mem := by
  unfold semDue
  refine foldl_fst_mem (fun x o => ?_) _ (s, [], false)
  obtain ⟨u, keep, stop⟩ := x
  dsimp only
  repeat' split
  all_goals simp

@[simp] theorem serveHeld_mem (s : State) (k : ℕ) (r : SliceReq) (y : L2Line) : (serveHeld s k r y).mem = s.mem := by
  unfold serveHeld
  split <;> simp

@[simp] theorem askStack_mem (s : State) (k : ℕ) (r : SliceReq) (kind : StackKind) (mask : W64) (d : BitVec 512) :
    (askStack s k r kind mask d).mem = s.mem := by
  unfold askStack
  repeat' split
  all_goals simp [apply_ite State.mem]

@[simp] theorem winDone_mem (s : State) (r : SliceReq) : (winDone s r).mem = s.mem := by unfold winDone; split <;> rfl

@[simp] theorem winForward_mem (s : State) (r : WinReq) (e : Region) : (winForward s r e).mem = s.mem := by
  unfold winForward
  split <;> simp

@[simp] theorem enterRing_mem (s : State) (k : ℕ) (p : Packet) : (enterRing s k p).mem = s.mem := rfl

@[simp] theorem ringStep_mem (die x y : ℕ) (s : State) (d : Dir) : (ringStep die x y s d).mem = s.mem := by
  simp only [ringStep]
  repeat' split
  all_goals simp

@[simp] theorem enterStep_mem (die x y : ℕ) (s : State) (d : Dir) : (enterStep die x y s d).mem = s.mem := by
  simp only [enterStep]
  repeat' split
  all_goals simp

@[simp] theorem arriveStep_mem (die x y : ℕ) (s : State) : (arriveStep die x y s).mem = s.mem := by
  unfold arriveStep
  refine foldl_mem (fun s p => ?_) _ s
  dsimp only
  repeat' split
  all_goals simp

@[simp] theorem modQp_mem (s : State) (k : ℕ) (f : QpS → QpS) : (modQp s k f).mem = s.mem :=
  (keepsWork_modQp s k f).kept.mem
@[simp] theorem readyFrame_mem (s : State) (g : ℕ) (f : Frame) : (readyFrame s g f).mem = s.mem := by
  simp [readyFrame, apply_ite State.mem]

@[simp] theorem fillTx_mem (s : State) (g : ℕ) (l : List Frame) : (fillTx s g l).mem = s.mem := by
  induction l generalizing s with
  | nil => rfl
  | cons f r ih =>
    unfold fillTx
    split
    · exact ih _
    · rfl

@[simp] theorem readyFree_mem (s : State) (f : Frame) : (readyFree s f).mem = s.mem := by simp [readyFree]

@[simp] theorem sendPkt_mem (s : State) (k : ℕ) (p : RocePkt) : (sendPkt s k p).mem = s.mem := by
  unfold sendPkt
  split <;> simp

@[simp] theorem readyReq_mem (s : State) (k : ℕ) (p : RocePkt) (w : QpWork) : (readyReq s k p w).mem = s.mem := by
  unfold readyReq
  split <;> simp

@[simp] theorem dropTx_mem (s : State) (k : ℕ) : (dropTx s k).mem = s.mem := rfl

@[simp] theorem sendReq_mem (s : State) (k : ℕ) (p : RocePkt) (n : ℕ) (w : QpWork) :
    (sendReq s k p n w).mem = s.mem := by
  simp [sendReq, apply_ite State.mem]

@[simp] theorem pushNotif_mem (s : State) (f : ℕ) (n : Notif) : (pushNotif s f n).mem = s.mem := rfl

@[simp] theorem pushLate_mem (s : State) (f : ℕ) (n : Notif) : (pushLate s f n).mem = s.mem := by
  unfold pushLate
  split <;> rfl

@[simp] theorem lateNotif_mem (s : State) (f : ℕ) : (lateNotif s f).mem = s.mem := by
  unfold lateNotif
  repeat' split
  all_goals rfl

@[simp] theorem queueWait_mem (s : State) (b q : ℕ) (w : QWait) : (queueWait s b q w).mem = s.mem := rfl

@[simp] theorem queueFaultAt_mem (s : State) (b q cause level at_ : ℕ) (head : W32) :
    (queueFaultAt s b q cause level at_ head).mem = s.mem := by
  simp [queueFaultAt, apply_ite State.mem]

@[simp] theorem queueFault_mem (s : State) (b q cause : ℕ) : (queueFault s b q cause).mem = s.mem := by
  simp [queueFault]
@[simp] theorem queueHalt_mem (s : State) (b q : ℕ) (note : Bool) : (queueHalt s b q note).mem = s.mem := by
  simp [queueHalt, apply_ite State.mem]

@[simp] theorem submit_mem (s : State) (f n : ℕ) (bs : List Byte) : (submit s f n bs).mem = s.mem := by
  unfold submit
  repeat' split
  all_goals rfl

@[simp] theorem startFetch_mem (s : State) (b q o n : ℕ) : (startFetch s b q o n).mem = s.mem := by
  simp only [startFetch]
  repeat' split
  all_goals simp

@[simp] theorem packetDone_mem (s : State) (len : ℕ) : (packetDone s len).mem = s.mem := rfl
@[simp] theorem packetFault_mem (s : State) (cause : ℕ) : (packetFault s cause).mem = s.mem := by simp [packetFault]

@[simp] theorem packetGo_mem {s : State} (len : ℕ) (pr : Bool) (k : QueueKinds) {go : LevelS → State}
    (h : ∀ l, (go l).mem = s.mem) : (packetGo s len pr k go).mem = s.mem := by
  unfold packetGo
  split
  · rfl
  · split
    · exact packetFault_mem ..
    · split
      · exact packetFault_mem ..
      · split
        · exact packetDone_mem ..
        · exact h _

@[simp] theorem waitQuiet_mem {s go : State} (w : Bool) (h : go.mem = s.mem) : (waitQuiet s w go).mem = s.mem := by
  unfold waitQuiet
  dsimp only
  split
  · exact queueWait_mem ..
  · exact h

@[simp] theorem setSpan_mem (s : State) (v : Option Bool) : (setSpan s v).mem = s.mem := rfl

@[simp] theorem withName_mem {s go : State} (name : W16) (h : go.mem = s.mem) : (withName s name go).mem = s.mem := by
  unfold withName
  split
  · exact h
  · exact packetFault_mem ..

@[simp] theorem markAll_mem (s : State) (p : ℕ) : ((markAll s p).1).mem = s.mem :=
  foldl_fst_mem (by intros; rfl) _ (s, [])

@[simp] theorem withSem_mem {s go : State} (sem : Bool) (name : W16) (h : go.mem = s.mem) :
    (withSem s sem name go).mem = s.mem := by
  unfold withSem
  split
  · exact withName_mem name h
  · exact h

@[simp] theorem levelEnd_mem (s : State) (b q : ℕ) : (levelEnd s b q).mem = s.mem := by
  simp only [levelEnd]
  repeat' split
  all_goals simp

@[simp] theorem openSpan_mem (s : State) (b q : ℕ) (l : LevelS) : (openSpan s b q l).mem = s.mem := by simp [openSpan]

@[simp] theorem queueReady.fetchOr_mem (s : State) (b q : ℕ) (l : LevelS) :
    ((queueReady.fetchOr s b q l).1).mem = s.mem := by
  unfold queueReady.fetchOr
  repeat' split
  all_goals simp

@[simp] theorem setColl_mem (s : State) (b i : ℕ) (c : CollS) : (setColl s b i c).mem = s.mem := rfl

@[simp] theorem sendChunk_mem (s : State) (b : ℕ) (c : CollS) (k : ℕ) (ws : List CWord) (held : Bool) :
    (sendChunk s b c k ws held).mem = s.mem :=
  rfl

@[simp] theorem ringStep1_mem (s : State) (b i : ℕ) (c : CollS) (inc : List CWord) :
    (ringStep1 s b i c inc).mem = s.mem := by
  simp [ringStep1, apply_ite State.mem]

@[simp] theorem ringGo_mem (s : State) (b i fuel : ℕ) : (ringGo s b i fuel).mem = s.mem := by
  induction fuel generalizing s with
  | zero => rfl
  | succ k ih =>
    unfold ringGo
    repeat' split
    all_goals simp [ih]

@[simp] theorem collTake_mem (s : State) (b li : ℕ) (f : Flit) : ((collTake s b li f).1).mem = s.mem := by
  unfold collTake
  dsimp only
  repeat' split
  all_goals simp

@[simp] theorem collDrain_mem (s : State) (b li vl : ℕ) (kept l : List Flit) :
    (collDrain s b li vl kept l).mem = s.mem := by
  induction l generalizing s kept with
  | nil => rfl
  | cons f r ih =>
    unfold collDrain
    have h := collTake_mem s b li f
    split <;> simp_all

@[simp] theorem collOffer_mem (s : State) (b li : ℕ) : (collOffer s b li).mem = s.mem := by simp [collOffer]
@[simp] theorem collStart_mem (s : State) (b : ℕ) (c : CollS) : (collStart s b c).mem = s.mem := rfl
@[simp] theorem collBegin_mem (s : State) (b i : ℕ) (c : CollS) : (collBegin s b i c).mem = s.mem := by
  simp [collBegin, apply_ite State.mem]
@[simp] theorem collLower_mem (s : State) (p ep : ℕ) : (collLower s p ep).mem = s.mem := by
  simp [collLower, apply_ite State.mem]

@[simp] theorem collEnd_mem (s : State) (b i : ℕ) (c : CollS) : (collEnd s b i c).mem = s.mem := by
  unfold collEnd
  repeat' split
  all_goals simp

@[simp] theorem useSlots_mem (s : State) (p : ℕ) (is : List Instr) : (useSlots s p is).mem = s.mem := by
  simp [useSlots]
@[simp] theorem linkDown_mem (s : State) (l : ℕ) : (linkDown s l).mem = s.mem := (keepsWork_linkDown s l).kept.mem

@[simp] theorem arriving_mem {s : State} (kind : Nat) {go : LinkS → Flit → State}
    (h : ∀ x f, (go x f).mem = s.mem) : (arriving s kind go).mem = s.mem := by
  unfold arriving
  dsimp only
  repeat' split
  all_goals first | rfl | exact h ..

@[simp] theorem sequenced_mem {s : State} (kind : Nat) {take : LinkS → Flit → State}
    (h : ∀ x f, (take x f).mem = s.mem) : (sequenced s kind take).mem = s.mem := by
  refine arriving_mem kind (fun x f => ?_)
  split
  · exact h ..
  · rfl

@[simp] theorem collFlit_mem (s : State) (kind vl : ℕ) : (collFlit s kind vl).mem = s.mem :=
  sequenced_mem kind (fun _ _ => collOffer_mem ..)
@[simp] theorem sendFrame_mem (s : State) (f : Frame) : (sendFrame s f).mem = s.mem :=
  (keepsWork_sendFrame s f).kept.mem
@[simp] theorem replyFetch_mem (s : State) (w : QpWork) (r : Option (List Byte)) : (replyFetch s w r).mem = s.mem :=
  (keepsWork_replyFetch s w r).kept.mem
@[simp] theorem failWork_mem (s : State) (w : QpWork) : (failWork s w).mem = s.mem :=
  (keepsWork_failWork s w).kept.mem
@[simp] theorem dropRx_mem (s : State) (k : ℕ) : (dropRx s k).mem = s.mem := (keepsWork_dropRx s k).kept.mem
@[simp] theorem flushQp_mem (s : State) (k : ℕ) : (flushQp s k).mem = s.mem := (keepsWork_flushQp s k).kept.mem
@[simp] theorem qpError_mem (s : State) (k : ℕ) : (qpError s k).mem = s.mem := (keepsWork_qpError s k).kept.mem
@[simp] theorem fnError_mem (s : State) (f : ℕ) : (fnError s f).mem = s.mem := (keepsWork_fnError s f).kept.mem
@[simp] theorem vfClear_mem (s : State) (v : ℕ) : (vfClear s v).mem = s.mem := (keepsWork_vfClear s v).kept.mem
@[simp] theorem qpErrPut_mem (s : State) (e : ℕ) : (qpErrPut s e).mem = s.mem := rfl
@[simp] theorem resendFrom_mem (s : State) (k psn : ℕ) : (resendFrom s k psn).mem = s.mem := by simp [resendFrom]
@[simp] theorem allQpError_mem (s : State) : (allQpError s).mem = s.mem := by simp [allQpError]

@[simp] theorem pfcReceive_mem (s : State) (enable : BitVec 8) (quanta : BitVec 128) :
    (pfcReceive s enable quanta).mem = s.mem := by
  simp [pfcReceive, apply_ite State.mem]

@[simp] theorem launchFrame_mem (s : State) (f : Frame) : (launchFrame s f).mem = s.mem := by
  unfold launchFrame
  split <;> simp

@[simp] theorem sendPsf_mem (s : State) (l : List Frame) : (sendPsf s l).mem = s.mem := by
  induction l generalizing s with
  | nil => rfl
  | cons f r ih =>
    unfold sendPsf
    dsimp only
    repeat' split
    all_goals simp [ih]

@[simp] theorem sendPart_mem (s : State) (d : ℕ) (l : List Frame) : ((sendPart s d l).1).mem = s.mem := by
  induction l generalizing s d with
  | nil => rfl
  | cons f r ih =>
    unfold sendPart
    repeat' split
    all_goals simp [ih]

@[simp] theorem txTurn_mem (s : State) (p : ℕ) : (txTurn s p).mem = s.mem := by simp [txTurn, apply_ite State.mem]
@[simp] theorem refillTx_mem (s : State) : (refillTx s).mem = s.mem := by simp [refillTx]
@[simp] theorem sendFirst_mem (s : State) : (sendFirst s).mem = s.mem := by simp [sendFirst]
@[simp] theorem ptpReceive_mem (s : State) (m : PtpMsg) : (ptpReceive s m).mem = s.mem := by
  simp [ptpReceive, apply_ite State.mem]
@[simp] theorem scrubKeys_mem (s : State) (b : ℕ) : (scrubKeys s b).mem = s.mem := rfl
@[simp] theorem zeroTree_mem (s : State) (b : ℕ) : (zeroTree s b).mem = s.mem := rfl
@[simp] theorem linksDown_mem (s : State) (b : ℕ) : (linksDown s b).mem = s.mem := (keepsWork_linksDown s b).kept.mem
@[simp] theorem finishCreate_mem (s : State) (p : ℕ) : (finishCreate s p).mem = s.mem := by
  simp [finishCreate, apply_ite State.mem]
@[simp] theorem ptErr_mem (s : State) (p e : ℕ) : (ptErr s p e).mem = s.mem := rfl
@[simp] theorem resetPart_mem (s : State) (p dest : ℕ) : (resetPart s p dest).mem = s.mem := by
  simp [resetPart, startReset_mem]
@[simp] theorem shareDraw_mem (s : State) : (shareDraw s).mem = s.mem := by unfold shareDraw; split <;> rfl
@[simp] theorem keyErrPut_mem (s : State) (p e : ℕ) : (keyErrPut s p e).mem = s.mem := rfl
@[simp] theorem stackGone_mem (s : State) (k : ℕ) (r : StackReq) : (stackGone s k r).mem = s.mem := by
  simp [stackGone]

@[simp] theorem packetGone_mem (s : State) (x : Packet) : (packetGone s x).mem = s.mem := by
  unfold packetGone
  split <;> simp

@[simp] theorem discardWrites_mem (s : State) (p slot : ℕ) : (discardWrites s p slot).mem = s.mem := by
  simp [discardWrites]

@[simp] theorem sliceRevoke_mem (s : State) (b i slot : ℕ) : (sliceRevoke s b i slot).mem = s.mem := by
  unfold sliceRevoke
  dsimp only
  split
  · rfl
  · exact (foldl_mem (by intros; rfl) _ _).trans (logLine_mem ..)

@[simp] theorem rekeyLog_mem (s : State) (p : ℕ) (k : RekeyS) (t : State) (l : ℕ) :
    (rekeyLog s p k t l).mem = t.mem := by
  unfold rekeyLog
  split
  · rfl
  · split <;> simp

@[simp] theorem retag_mem (lo hi new : ℕ) (s : State) : (retag lo hi new s).mem = s.mem := rfl
@[simp] theorem setGran_mem (s : State) (b g d : ℕ) : (setGran s b g d).mem = s.mem := rfl
@[simp] theorem patPut_mem (s : State) (b e g d : ℕ) : (patPut s b e g d).mem = s.mem := rfl
@[simp] theorem poisonGran_mem (s : State) (b g : ℕ) : (poisonGran s b g).mem = s.mem := rfl
@[simp] theorem rdErrPut_mem (s : State) (p e : ℕ) : (rdErrPut s p e).mem = s.mem := rfl

@[simp] theorem rdGo_mem {s : State} (p num : ℕ) {go : State → State}
    (h : ∀ t, (go t).mem = t.mem) : (rdGo s p num go).mem = s.mem := by
  unfold rdGo
  dsimp only
  split
  · rfl
  · split
    · rfl
    · exact h _

@[simp] theorem tableTouch_mem (s : State) (p num : ℕ) (r : Region) : (tableTouch s p num r).mem = s.mem :=
  (foldl_mem (fun s _ => ctrBump_mem s _) _ _).trans (ctrBump_mem ..)

@[simp] theorem rdAccept_mem (s : State) (p num kind : ℕ) (marks : Tab ℕ) :
    (rdAccept s p num kind marks).mem = s.mem := by
  simp [rdAccept]

@[simp] theorem seqWindows_mem (s : State) (p n : ℕ) : (seqWindows s p n).mem = s.mem := by
  simp [seqWindows, apply_ite State.mem]
@[simp] theorem dropRegionReplicas_mem (s : State) (r : Region) : (dropRegionReplicas s r).mem = s.mem := rfl
@[simp] theorem rdMake_mem (s : State) (p : ℕ) (c : RdPend) : (rdMake s p c).mem = s.mem := rfl

@[simp] theorem rdSettle_mem (s : State) (p : ℕ) : (rdSettle s p).mem = s.mem := by
  unfold rdSettle
  repeat' split
  all_goals simp

@[simp] theorem ckMeetUe_mem (s : State) (l : ℕ) : (ckMeetUe s l).mem = s.mem := by simp [ckMeetUe]
@[simp] theorem dropCopies_mem (s : State) (b : ℕ) : (dropCopies s b).mem = s.mem := rfl

@[simp] theorem nodeNotif_mem (s : State) (id : NodeId) (nd : NodeS) : (nodeNotif s id nd).mem = s.mem := by
  unfold nodeNotif
  split <;> simp

@[simp] theorem unpinLandings_mem (s : State) (p : ℕ) : (unpinLandings s p).mem = s.mem := foldl_mem l2Unpin_mem _ s
@[simp] theorem releaseOne_mem (s : State) (p : ℕ) : (releaseOne s p).mem = s.mem := by simp [releaseOne]
@[simp] theorem releaseAll_mem (s : State) (id : NodeId) : (releaseAll s id).mem = s.mem := by simp [releaseAll]
@[simp] theorem discardStaged_mem (s : State) (id : NodeId) : (discardStaged s id).mem = s.mem := rfl
@[simp] theorem commitStaged_mem (s : State) (id : NodeId) : (commitStaged s id).mem = s.mem := rfl
@[simp] theorem requeue_mem (s : State) (id : NodeId) (nd : NodeS) : (requeue s id nd).mem = s.mem := by
  simp [requeue]
@[simp] theorem callOff_mem (s : State) (id : NodeId) : (callOff s id).mem = s.mem :=
  (foldl_mem (by intros; rfl) _ _).trans (modNode_mem ..)
@[simp] theorem holdOthers_mem (s : State) (id : NodeId) (ms : List ℕ) (l : ℕ) : (holdOthers s id ms l).mem = s.mem :=
  rfl

@[simp] theorem endLogical_mem (s : State) (p : ℕ) : (endLogical s p).mem = s.mem := by
  simp only [endLogical]
  repeat' split
  all_goals simp

@[simp] theorem endRestore_mem (s : State) (p : ℕ) : (endRestore s p).mem = s.mem := by
  simp only [endRestore]
  repeat' split
  all_goals simp

@[simp] theorem linkChain_mem (s : State) (ch : List (ℕ × Bool)) : (linkChain s ch).mem = s.mem :=
  foldl_mem (by intros; rfl) _ s
@[simp] theorem moveColls_mem (s : State) (p ep q eq : ℕ) : (moveColls s p ep q eq).mem = s.mem := rfl

@[simp] theorem placeLogical_mem (s : State) (id : NodeId) (l q : ℕ) : (placeLogical s id l q).mem = s.mem := by
  unfold placeLogical
  dsimp only
  repeat' split
  all_goals simp

@[simp] theorem placeUnit_mem (s : State) (id : NodeId) (members : List ℕ) (chs : List (List (ℕ × Bool))) :
    (placeUnit s id members chs).mem = s.mem := by
  simp [placeUnit]

@[simp] theorem unitPlaced_mem (s : State) (id : NodeId) (g : Gang) (l : List ℕ) :
    (unitPlaced s id g l).mem = s.mem := by
  simp [unitPlaced]

@[simp] theorem placeNode_mem (s : State) (id : NodeId) (taken : List ℕ) (l : List Gang) :
    ((placeNode s id taken l).1).mem = s.mem := by
  induction l generalizing s taken with
  | nil => rfl
  | cons g gs ih =>
    unfold placeNode
    split
    · rfl
    · split
      · exact ih ..
      · dsimp only
        split
        · simp [ih]
        · split <;> simp [ih]

@[simp] theorem askNode_mem (s : State) (id : NodeId) (sw : Option ℕ) (arrs : List ℕ) :
    (askNode s id sw arrs).mem = s.mem := by
  simp [askNode]

@[simp] theorem preemptFor_mem (s : State) (x : NodeId × NodeS) (free kept : List ℕ) :
    ((preemptFor s x free kept).1).mem = s.mem := by
  simp only [preemptFor]
  repeat' split
  all_goals simp

@[simp] theorem giveBack_mem (s : State) (id : NodeId) (p : ℕ) : (giveBack s id p).mem = s.mem := by simp [giveBack]

@[simp] theorem stepAhead_mem (s : State) (nd : NodeS) (p : ℕ) : (stepAhead s nd p).mem = s.mem := by
  unfold stepAhead
  repeat' split
  all_goals simp

@[simp] theorem groupStart_mem (s : State) (id : NodeId) (ms : List ℕ) : (groupStart s id ms).mem = s.mem := by
  simp [groupStart]
@[simp] theorem entryDone_mem (s : State) (p tick : ℕ) : (entryDone s p tick).mem = s.mem := rfl
@[simp] theorem entrySkip_mem (s : State) (p tick : ℕ) : (entrySkip s p tick).mem = s.mem := by
  simp [entrySkip, apply_ite State.mem]
@[simp] theorem modHub_mem (s : State) (f : HubS → HubS) : (modHub s f).mem = s.mem := rfl
@[simp] theorem modPort_mem (s : State) (f : PortS → PortS) : (modPort s f).mem = s.mem := rfl

@[simp] theorem writeSchctl_mem (s : State) (p : ℕ) (v : W32) : (writeSchctl s p v).mem = s.mem := by
  unfold writeSchctl
  split <;> rfl

@[simp] theorem writeSchtbl_mem (s : State) (p i : ℕ) (v : W32) : (writeSchtbl s p i v).mem = s.mem := rfl
@[simp] theorem dropFrame_mem (s : State) : (dropFrame s).mem = s.mem := rfl
@[simp] theorem ceMark_mem (s : State) (k : ℕ) (ce : Bool) : (ceMark s k ce).mem = s.mem := by
  simp [ceMark, apply_ite State.mem]

@[simp] theorem withRx_mem {s : State} (kind : RoceOp → Bool) {go : State → ℕ → RocePkt → State}
    (h : ∀ t k p u, go t k p = u → u.mem = t.mem) : (withRx s kind go).mem = s.mem := by
  unfold withRx
  dsimp only
  split
  · rfl
  · split
    · rfl
    · exact (h _ _ _ _ rfl).trans (pfcUpdate_mem ..)

@[simp] theorem answer_mem (s : State) (k : ℕ) (op : RoceOp) (psn : ℕ) : (answer s k op psn).mem = s.mem := by
  simp [answer]

@[simp] theorem inTurn_mem {s : State} (k : ℕ) (p : RocePkt) (n : ℕ) {again go : State → State}
    (ha : ∀ t, (again t).mem = t.mem) (hg : ∀ t, (go t).mem = t.mem) : (inTurn s k p n again go).mem = s.mem := by
  simp only [inTurn, apply_ite State.mem, ha, hg, answer_mem, ite_self]
  rw [ite_eq_right_iff]; intro _; rfl

@[simp] theorem msgGo_mem (s : State) (k : ℕ) (p : RocePkt) (m : RdmaMsg) : (msgGo s k p m).mem = s.mem := rfl

@[simp] theorem readPkt_mem (s : State) (k : ℕ) (p : RocePkt) (i m : ℕ) (d : List Byte) :
    (readPkt s k p i m d).mem = s.mem := by
  simp [readPkt]

@[simp] theorem ackDrop_mem (s : State) (k n : ℕ) : (ackDrop s k n).mem = s.mem := by unfold ackDrop; split <;> rfl

@[simp] theorem shiftChain_mem (s : State) (ms : List ℕ) : (shiftChain s ms).mem = s.mem := by
  unfold shiftChain
  dsimp only
  split
  · rfl
  · rename_i p r
    refine Eq.trans (b := State.mem (Prod.fst (List.foldl _ _ _))) rfl ?_
    refine foldl_fst_mem (fun x p => ?_) _ (s, none, 0)
    obtain ⟨v, e, n⟩ := x
    dsimp only
    split
    · split <;> simp
    · rfl

@[simp] theorem enterC_mem (s : State) (p : ℕ) (z : SlotBits) (i : Instr) : (enterC s p z i).mem = s.mem := rfl
@[simp] theorem sampleC_mem (s : State) (p : ℕ) (i : Instr) : (sampleC s p i).mem = s.mem := rfl
@[simp] theorem sramTake_mem (s : State) (p : ℕ) : (sramTake s p).mem = s.mem := by
  simp [sramTake, apply_ite State.mem]
@[simp] theorem countAc_mem (s : State) (p : ℕ) : (countAc s p).mem = s.mem := rfl
@[simp] theorem frozenAc_mem (s : State) (ms : List ℕ) : (frozenAc s ms).mem = s.mem :=
  foldl_mem (by intros; rfl) ms s
@[simp] theorem noteLead_mem (s : State) (p : ℕ) : (noteLead s p).mem = s.mem := rfl

@[simp] theorem alignChain_mem (s : State) (ms : List ℕ) : ((alignChain s ms).1).mem = s.mem := by
  unfold alignChain
  split
  · rfl
  · refine foldl_fst_mem (fun x q => ?_) _ _
    dsimp only
    split <;> rfl

@[simp] theorem noFaults_mem (s : State) (ms : List ℕ) : (noFaults s ms).mem = s.mem :=
  foldl_mem (by intros; rfl) ms s
@[simp] theorem chargeBudgets_mem (s : State) (b : ℕ) : (chargeBudgets s b).mem = s.mem :=
  foldl_mem (fun s n => by split <;> rfl) _ s
@[simp] theorem clockTick_mem (s : State) : (clockTick s).mem = s.mem := by simp [clockTick]

@[simp] theorem engineSend_mem (s : State) (cls : ℕ) (l : EngineAt) (i : Instr) (p : Option ℕ) (b : ℕ) :
    (engineSend s cls l i p b).mem = s.mem := by
  unfold engineSend
  repeat' split
  all_goals simp

@[simp] theorem sendChannels_mem (s : State) (p : ℕ) : (sendChannels s p).mem = s.mem := by simp [sendChannels]

@[simp] theorem sendSc_mem (s : State) (p : ℕ) : (sendSc s p).mem = s.mem := by
  unfold sendSc
  dsimp only
  repeat' split
  all_goals simp

@[simp] theorem sendCopies_mem (s : State) (b q : ℕ) : (sendCopies s b q).mem = s.mem := by simp [sendCopies]
@[simp] theorem sendColls_mem (s : State) (b : ℕ) : (sendColls s b).mem = s.mem := by simp [sendColls]
@[simp] theorem sendScrub_mem (s : State) (b : ℕ) : (sendScrub s b).mem = s.mem := by
  simp [sendScrub, apply_ite State.mem]
@[simp] theorem semTurn_mem (s : State) (b : ℕ) : (semTurn s b).mem = s.mem := by simp [semTurn, apply_ite State.mem]

end Sys2Proof.Machine

namespace Sys2Proof.Machine
open Sys2Proof

/-! ## Functions that write device memory

The lines that a controller, a slice, the command processor or a collective puts keep the canonical form. -/

theorem canonical_of_mem {s t : State} (h : MemCanonical s) (e : t.mem = s.mem) : MemCanonical t :=
  (congrArg Memory.wf e).trans h

theorem foldl_canonical {ι : Type} {g : State → ι → State} (hg : ∀ s i, MemCanonical s → MemCanonical (g s i))
    (l : List ι) {s : State} (h : MemCanonical s) : MemCanonical (l.foldl g s) := by
  induction l generalizing s with
  | nil => exact h
  | cons i l ih => exact ih (hg s i h)

theorem foldl_fst_canonical {ι β : Type} {g : State × β → ι → State × β}
    (hg : ∀ x i, MemCanonical x.1 → MemCanonical (g x i).1) (l : List ι) {x : State × β} (h : MemCanonical x.1) :
    MemCanonical (l.foldl g x).1 := by
  induction l generalizing x with
  | nil => exact h
  | cons i l ih => exact ih (hg x i h)

theorem canonical_of_fst {β : Type} {p : State × β} {t : State} {x : β} (h : MemCanonical p.1) (e : p = (t, x)) :
    MemCanonical t := (congrArg (fun y => y.1.mem.wf) e).symm.trans h

@[simp] theorem putLine_canonical {s : State} (h : MemCanonical s) (l : ℕ) (d : BitVec 512) (m : LineMeta) :
    MemCanonical (putLine s l d m) :=
  Memory.wf_memPut h _ _

@[simp] theorem ctlWrite_canonical {s : State} (h : MemCanonical s) (r : StackReq) (l : ℕ) :
    MemCanonical (ctlWrite s r l).1 := by
  unfold ctlWrite
  dsimp only
  split
  · exact h
  · split
    · exact canonical_of_mem (putLine_canonical h l _ _) (by simp; rfl)
    · exact putLine_canonical (canonical_of_mem h (by simp)) ..

@[simp] theorem ctlPerform_canonical {s : State} (h : MemCanonical s) (k : ℕ) (r : StackReq) (l : ℕ) :
    MemCanonical (ctlPerform s k r l).1 := by
  unfold ctlPerform
  split
  · exact canonical_of_mem h (by split <;> simp)
  · dsimp only
    split
    · exact canonical_of_mem h (by simp)
    · exact ctlWrite_canonical h ..

@[simp] theorem ctlFlush_canonical {s : State} (h : MemCanonical s) (l : ℕ) : MemCanonical (ctlFlush s l) := by
  unfold ctlFlush
  dsimp only
  split
  · exact h
  · refine foldl_canonical (fun s r h => ?_) _ h
    split
    · rename_i hx
      exact canonical_of_mem (canonical_of_fst (ctlPerform_canonical h ..) hx) (by simp)
    · rename_i hx
      exact canonical_of_fst (ctlPerform_canonical h ..) hx

@[simp] theorem ctlNow_canonical {s : State} (h : MemCanonical s) (kind : StackKind) (l key prot : ℕ) (mask : W64)
    (d : BitVec 512) (pois : Bool) : MemCanonical (ctlNow s kind l key prot mask d pois).1 := by
  refine ctlPerform_canonical (canonical_of_mem (ctlFlush_canonical h l) ?_) ..
  split <;> rfl

@[simp] theorem writeBack_canonical {s : State} (h : MemCanonical s) (y : L2Line) : MemCanonical (writeBack s y) := by
  unfold writeBack
  split
  · exact h
  · split
    · exact ctlNow_canonical h ..
    · exact ctlNow_canonical h ..

@[simp] theorem evict_canonical {s : State} (h : MemCanonical s) (k : ℕ) (y : L2Line) : MemCanonical (evict s k y) :=
  writeBack_canonical (canonical_of_mem h (by split <;> simp)) _

@[simp] theorem makeRoom_canonical {s : State} (h : MemCanonical s) (k l : ℕ) : MemCanonical (makeRoom s k l).1 := by
  unfold makeRoom
  dsimp only
  split
  · exact h
  · split
    · exact evict_canonical h ..
    · exact h

@[simp] theorem l2Install_canonical {s : State} (h : MemCanonical s) (k l slot prot rc : ℕ) (r : StackReply) :
    MemCanonical (l2Install s k l slot prot rc r) := by
  unfold l2Install
  split
  · exact h
  · dsimp only
    have hm : MemCanonical (meetUe s k l) := canonical_of_mem h (meetUe_mem ..)
    split
    · exact hm
    · split <;> rename_i hr
      · exact canonical_of_fst (makeRoom_canonical hm ..) hr
      · exact canonical_of_mem (canonical_of_fst (makeRoom_canonical hm ..) hr) rfl

@[simp] theorem lineRead_canonical {s : State} (h : MemCanonical s) (l slot prot : ℕ) (node : Option NodeId)
    (rc : ℕ) : MemCanonical (lineRead s l slot prot node rc).1 := by
  unfold lineRead
  dsimp only
  split
  · split
    · simp [MemCanonical, h]
    · split
      · exact ctlNow_canonical h ..
      · split
        · simp [MemCanonical, h]
        · split
          · exact ctlNow_canonical h ..
          · split
            · exact canonical_of_mem (l2Install_canonical (ctlNow_canonical h ..) ..) (fillServe_mem ..)
            · exact ctlNow_canonical h ..
  · split
    · exact canonical_of_mem (l2Install_canonical (ctlNow_canonical h ..) ..) (fillServe_mem ..)
    · exact ctlNow_canonical h ..

@[simp] theorem lineWrite_canonical {s : State} (h : MemCanonical s) (l slot prot : ℕ) (d : BitVec 512) (mask : W64)
    (pois : Bool) (stage : Option NodeId) : MemCanonical (lineWrite s l slot prot d mask pois stage).1 := by
  unfold lineWrite
  have hm : MemCanonical (meetUe s (homeSlice l) l) := canonical_of_mem h (meetUe_mem ..)
  dsimp only
  split
  · split
    · exact hm
    · split
      · exact canonical_of_mem (ctlNow_canonical hm ..) (stagedUnder_mem ..)
      · split
        · exact hm
        · show MemCanonical (ite _ _ _)
          split
          · exact writeBack_canonical hm _
          · exact hm
  · split
    · exact hm
    · split <;> rename_i hr <;> have ht := canonical_of_fst (makeRoom_canonical hm ..) hr
      · split
        · exact ht
        · exact ctlNow_canonical ht ..
      · exact ht

@[simp] theorem lineThrough_canonical {s : State} (h : MemCanonical s) (l slot prot : ℕ) (d : BitVec 512)
    (mask : W64) : MemCanonical (lineThrough s l slot prot d mask).1 := by
  unfold lineThrough
  have hm : MemCanonical (meetUe s (homeSlice l) l) := canonical_of_mem h (meetUe_mem ..)
  dsimp only
  split
  · split
    · exact canonical_of_mem (ctlNow_canonical hm ..) (stagedUnder_mem ..)
    · split
      · split
        · exact ctlNow_canonical hm ..
        · exact ctlNow_canonical hm ..
      · exact ctlNow_canonical hm ..
  · exact ctlNow_canonical hm ..

@[simp] theorem paRead_canonical {s : State} (h : MemCanonical s) (pa n slot prot : ℕ) (node : Option NodeId)
    (rc : ℕ) : MemCanonical (paRead s pa n slot prot node rc).1 :=
  foldl_fst_canonical (by intro _ _ h; exact lineRead_canonical h ..) _ h

@[simp] theorem paWrite_canonical {s : State} (h : MemCanonical s) (pa slot prot : ℕ) (bs : List Byte) (pois : Bool) :
    MemCanonical (paWrite s pa slot prot bs pois) :=
  foldl_canonical (by intro _ _ h; exact lineWrite_canonical h ..) _ h

@[simp] theorem regRead_canonical {s : State} (h : MemCanonical s) (b : ℕ) (r : Region) (off n : ℕ)
    (node : Option NodeId) (rc : ℕ) : MemCanonical (regRead s b r off n node rc).1 := by
  unfold regRead
  split
  · split
    · exact paRead_canonical h ..
    · exact canonical_of_mem h (by dsimp only; split <;> simp)
  · exact paRead_canonical h ..

@[simp] theorem regWrite_canonical {s : State} (h : MemCanonical s) (b : ℕ) (r : Region) (off : ℕ) (bs : List Byte)
    (pois : Bool) : MemCanonical (regWrite s b r off bs pois) := by
  unfold regWrite
  split
  · split
    · exact paWrite_canonical h ..
    · exact canonical_of_mem h (winLog_mem ..)
  · exact paWrite_canonical h ..

@[simp] theorem ownRead_canonical {s : State} (h : MemCanonical s) (p : ℕ) (r : Region) (off n rc : ℕ) :
    MemCanonical (ownRead s p r off n rc).1 :=
  regRead_canonical h ..

@[simp] theorem chRead_canonical {s : State} (h : MemCanonical s) (p : ℕ) (t : BitVec 1024) (addr n : ℕ) :
    MemCanonical (chRead s p t addr n).1 := by
  unfold chRead
  dsimp only
  split
  · have hu : MemCanonical (rcUse s p addr) := canonical_of_mem h (rcUse_mem ..)
    split
    · exact hu
    · exact ownRead_canonical hu ..
  · exact h
  · exact h

@[simp] theorem unitRead_canonical {s : State} (h : MemCanonical s) (p : ℕ) (c : ChanS) (k : ℕ) :
    MemCanonical (unitRead s p c k).1 := by
  unfold unitRead
  dsimp only
  split
  · exact chRead_canonical (chRead_canonical h ..) ..
  · exact chRead_canonical h ..

@[simp] theorem channelLine_canonical {s : State} (h : MemCanonical s) (p ch : ℕ) :
    MemCanonical (channelLine s p ch) := by
  unfold channelLine
  split
  · exact h
  · dsimp only
    split
    · simp [MemCanonical, h]
    · split <;> simp [MemCanonical, h, apply_ite Prod.fst, apply_ite State.mem, apply_ite Memory.wf]

@[simp] theorem arrRead_canonical {s : State} (h : MemCanonical s) (p va n : ℕ) :
    MemCanonical (arrRead s p va n).1 := by
  unfold arrRead
  have hu : MemCanonical (rcUse s p va) := canonical_of_mem h (rcUse_mem ..)
  dsimp only
  split
  · exact hu
  · exact ownRead_canonical hu ..

@[simp] theorem mpeCarry_canonical {s : State} (h : MemCanonical s) (p : ℕ) (m : MpeS) :
    MemCanonical (mpeCarry s p m) := by
  unfold mpeCarry
  have hr := arrRead_canonical h p m.carry 320
  dsimp only
  repeat' split
  all_goals exact hr

@[simp] theorem mpePre_canonical {s : State} (h : MemCanonical s) (p : ℕ) : MemCanonical (mpePre s p) := by
  unfold mpePre
  dsimp only
  split
  · exact h
  · rename_i m _
    have h1 : MemCanonical (if m.cin && (arrOf s p).tt = m.t0 + 1 then mpeCarry s p m else s) := by
      split
      · exact mpeCarry_canonical h p m
      · exact h
    refine canonical_of_mem h1 ?_
    repeat' split
    all_goals simp

@[simp] theorem mpassAsk_canonical {s : State} (h : MemCanonical s) (p va : ℕ) : MemCanonical (mpassAsk s p va) := by
  unfold mpassAsk
  have hr := arrRead_canonical h p va 128
  dsimp only
  split
  · exact hr
  · exact canonical_of_mem hr (mpeAhead_mem ..)

@[simp] theorem queueCopyLine_canonical {s : State} (h : MemCanonical s) (b q i : ℕ) :
    MemCanonical (queueCopyLine s b q i) := by
  unfold queueCopyLine
  split
  · exact h
  · dsimp only
    split
    · exact h
    · split
      · exact h
      · split
        · exact h
        · exact h
        · exact h
        · split
          · exact h
          · show MemCanonical (ite _ _ _)
            split
            · exact foldl_canonical (by intro _ _ h; exact regWrite_canonical h ..) _ (regRead_canonical (s := modQueue s b q _) h ..)
            · exact regWrite_canonical (regRead_canonical (s := modQueue s b q _) h ..) ..

@[simp] theorem placeReplica_canonical {s : State} (h : MemCanonical s) (r : SliceReq) (v : LineVal) :
    MemCanonical (placeReplica s r v) := by
  unfold placeReplica
  dsimp only
  split
  · exact h
  · split <;> rename_i hr
    · exact canonical_of_fst (makeRoom_canonical h ..) hr
    · exact canonical_of_mem (canonical_of_fst (makeRoom_canonical h ..) hr) rfl

@[simp] theorem sliceRead_canonical {s : State} (h : MemCanonical s) (k : ℕ) (r : SliceReq) :
    MemCanonical (sliceRead s k r) := by
  unfold sliceRead
  have hr : MemCanonical (lineRead s r.line r.slot r.prot r.node 0).1 := lineRead_canonical h ..
  dsimp only
  repeat' split
  all_goals simp [MemCanonical, h, hr, placeReplica_canonical]

@[simp] theorem answerWaiting_canonical {s : State} (h : MemCanonical s) (q : StackReply) (k l : ℕ) (r : SliceReq) :
    MemCanonical (answerWaiting q k l s r) := by
  unfold answerWaiting
  repeat' split
  all_goals simp [MemCanonical, h, placeReplica_canonical]

@[simp] theorem deviceBytes_canonical {s : State} (h : MemCanonical s) (b va n : ℕ) :
    MemCanonical (deviceBytes s b va n).1 := by
  refine foldl_fst_canonical (fun x l h => ?_) _ h
  dsimp only
  split
  · exact h
  · split
    · split
      · exact h
      · split
        · exact h
        · split
          · exact regRead_canonical h ..
          · exact regRead_canonical h ..
    · exact h

@[simp] theorem cmdWrite_canonical {s : State} (h : MemCanonical s) {b va : ℕ} {bs : List Byte} {t : State}
    (e : cmdWrite s b va bs = .ok (some t)) : MemCanonical t := by
  unfold cmdWrite at e
  split at e
  · cases e
  · split at e
    · cases e
    · cases e
      exact regWrite_canonical h ..

@[simp] theorem withCmdWrite_canonical {s : State} (h : MemCanonical s) (va : ℕ) (bs : List Byte) {go : State → State}
    (hgo : ∀ t, MemCanonical t → MemCanonical (go t)) : MemCanonical (withCmdWrite s va bs go) := by
  unfold withCmdWrite
  split
  · exact canonical_of_mem h (packetFault_mem ..)
  · exact h
  · rename_i e
    exact hgo _ (cmdWrite_canonical h e)

@[simp] theorem predRead_canonical {s : State} (h : MemCanonical s) {b va : ℕ} {t : State} {v : W64}
    (e : predRead s b va = .ok (t, v)) : MemCanonical t := by
  unfold predRead at e
  dsimp only at e
  split at e
  · cases e
  · split at e
    · cases e
    · split at e
      · cases e
      · cases e
        exact regRead_canonical h ..

@[simp] theorem loopPass_canonical {s : State} (h : MemCanonical s) (b q : ℕ) (lp : SLoop) :
    MemCanonical (loopPass s b q lp) := by
  unfold loopPass
  dsimp only
  split
  · exact h
  · split
    · simp [MemCanonical, h]
    · exact h
    · rename_i t e
      have ht : MemCanonical t := cmdWrite_canonical h e
      exact ht

@[simp] theorem passEnd_canonical {s : State} (h : MemCanonical s) (b q : ℕ) (l : LevelS) (lp : SLoop) :
    MemCanonical (passEnd s b q l lp) := by
  unfold passEnd
  split
  · simp [MemCanonical, h]
  · split
    · exact loopPass_canonical h ..
    · exact h

@[simp] theorem queueReady_canonical {s : State} (h : MemCanonical s) (b q : ℕ) :
    MemCanonical (queueReady s b q).1 := by
  unfold queueReady
  dsimp only
  repeat' split
  all_goals simp [MemCanonical, h, passEnd_canonical]

@[simp] theorem collLine_canonical {s : State} (h : MemCanonical s) (b : ℕ) (arr : Option ℕ) (va n : ℕ) :
    MemCanonical (collLine s b arr va n).1 := by
  unfold collLine
  dsimp only
  split
  · exact h
  · split
    · exact h
    · exact regRead_canonical h ..

@[simp] theorem collRead_canonical {s : State} (h : MemCanonical s) (b i : ℕ) (c : CollS) :
    MemCanonical (collRead s b i c) := by
  unfold collRead
  dsimp only
  repeat' split
  all_goals simp [MemCanonical, h]

@[simp] theorem collPut_canonical {s : State} (h : MemCanonical s) (b : ℕ) (arr : Option ℕ) (va : ℕ)
    (bs : List (Byte × Bool)) : MemCanonical (collPut s b arr va bs).1 := by
  unfold collPut
  dsimp only
  repeat' split
  all_goals simp [MemCanonical, h]

@[simp] theorem collWrite_canonical {s : State} (h : MemCanonical s) (b i : ℕ) (c : CollS) (va n : ℕ) :
    MemCanonical (collWrite s b i c va n) := by
  unfold collWrite
  split <;> simp [MemCanonical, h]

@[simp] theorem collOutput_canonical {s : State} (h : MemCanonical s) (b : ℕ) (c : CollS) :
    MemCanonical (collOutput s b c) := by
  unfold collOutput
  dsimp only
  repeat' split
  all_goals simp [MemCanonical, h]

@[simp] theorem collFinish_canonical {s : State} (h : MemCanonical s) (b i : ℕ) (c : CollS) :
    MemCanonical (collFinish s b i c) := by
  unfold collFinish
  dsimp only
  repeat' split
  all_goals simp [MemCanonical, h]

@[simp] theorem zeroLines_canonical {s : State} (h : MemCanonical s) (l n : ℕ) : MemCanonical (zeroLines s l n) :=
  Memory.wf_filter h _
@[simp] theorem powerDown_canonical (s : State) : MemCanonical (powerDown s) := rfl

@[simp] theorem readStep_canonical {s : State} (h : MemCanonical s) (b p l va : ℕ) :
    MemCanonical (readStep s b p l va).1 := by
  unfold readStep
  split <;> simp [MemCanonical, h]

@[simp] theorem readSteps_canonical {s : State} (h : MemCanonical s) (b p image desc : ℕ) (ls : List ℕ) :
    MemCanonical (readSteps s b p image desc ls).1 := by
  refine foldl_fst_canonical (fun x i h => ?_) _ h
  dsimp only
  split
  · exact h
  · split
    · exact readStep_canonical h ..
    · split
      · exact readStep_canonical h ..
      · exact readStep_canonical h ..

end Sys2Proof.Machine

namespace Sys2Proof.Machine
open Sys2Proof

/-! ## Instructions that leave device memory as it is -/

/-- Every next state of an outcome has the device memory of `s`. -/
def KeepsMem (s : State) (o : Host.Outcome State Fault Refusal) : Prop := ∀ t, o = .next t → t.mem = s.mem

theorem keepsMem_next {s t : State} (h : t.mem = s.mem) : KeepsMem s (.next t) := by
  rintro _ ⟨⟩
  exact h

theorem execSSysr_mem (s : State) (d : BitVec 5) (num : BitVec 16) : KeepsMem s (execSSysr d num s) := by
  unfold execSSysr
  dsimp only
  repeat' split
  all_goals exact keepsMem_next (by simp)

theorem execSSysw_mem (s : State) (num : BitVec 16) (a : BitVec 5) : KeepsMem s (execSSysw num a s) := by
  unfold execSSysw
  dsimp only
  repeat' split
  all_goals exact keepsMem_next (by simp)

theorem execSSt_mem (s : State) (size : MemSize) (b a : BitVec 5) (off : BitVec 32) :
    KeepsMem s (execSSt size b a off s) :=
  keepsMem_next (by simp)

theorem execSLdSc_mem (s : State) (w64 : Bool) (d a : BitVec 5) : KeepsMem s (execSLdSc w64 d a s) :=
  keepsMem_next (by simp)
theorem execSAmoMin_mem (s : State) (w64 uns : Bool) (d b a : BitVec 5) : KeepsMem s (execSAmoMin w64 uns d b a s) :=
  keepsMem_next (by simp)
theorem execSAmoMax_mem (s : State) (w64 uns : Bool) (d b a : BitVec 5) : KeepsMem s (execSAmoMax w64 uns d b a s) :=
  keepsMem_next (by simp)
theorem execSAmoAnd_mem (s : State) (w64 : Bool) (d b a : BitVec 5) : KeepsMem s (execSAmoAnd w64 d b a s) :=
  keepsMem_next (by simp)
theorem execSAmoCas_mem (s : State) (w64 : Bool) (d b c a : BitVec 5) : KeepsMem s (execSAmoCas w64 d b c a s) :=
  keepsMem_next (by simp)

theorem execSXfer_mem (s : State) (region : BitVec 14) (owner : BitVec 8) : KeepsMem s (execSXfer region owner s) :=
  keepsMem_next (by
    dsimp only
    repeat' split
    all_goals simp)

theorem execSSemAdd_mem (s : State) (name : W16) (b : BitVec 5) : KeepsMem s (execSSemAdd name b s) :=
  keepsMem_next (by simp)
theorem execSSemSet_mem (s : State) (name : W16) (b : BitVec 5) : KeepsMem s (execSSemSet name b s) :=
  keepsMem_next (by simp)
theorem execSSemRd_mem (s : State) (d : BitVec 5) (name : W16) : KeepsMem s (execSSemRd d name s) :=
  keepsMem_next (by simp)
theorem execSSemWait_mem (s : State) (name : W16) (b : BitVec 5) : KeepsMem s (execSSemWait name b s) :=
  keepsMem_next (withRegsS_mem .s [b] (by split <;> rfl))

theorem execSLsend_mem (s : State) (link : BitVec 4) (q : BitVec 2) (a : BitVec 5) :
    KeepsMem s (execSLsend link q a s) :=
  keepsMem_next (by
    dsimp only
    all_goals simp [apply_ite State.mem])

theorem execSLrecv_mem (s : State) (link : BitVec 4) (q : BitVec 2) (a : BitVec 5) :
    KeepsMem s (execSLrecv link q a s) :=
  keepsMem_next (withStream_mem link q a fun _ _ => by split <;> rfl)

theorem execALand_mem (s : State) (slot sa sd : BitVec 5) (lines : BitVec 6) (d : BitVec 13) :
    KeepsMem s (execALand slot sa sd lines d s) :=
  keepsMem_next (by
    split
    · rfl
    · refine withRegsS_mem .a [sa, sd] ?_
      dsimp only
      split
      · rfl
      · split
        · rfl
        · split
          · rfl
          · split
            · rfl
            · exact foldl_mem (by intros; exact sendRead_mem ..) _ _)

theorem execAPfc_mem (s : State) (sa : BitVec 5) (rc : BitVec 8) (lines : BitVec 6) :
    KeepsMem s (execAPfc sa rc lines s) :=
  keepsMem_next (by
    refine withRegsS_mem .a [sa] ?_
    dsimp only
    split
    · rfl
    · split
      · rfl
      · split
        · rfl
        · exact foldl_mem (by intros; exact sendRead_mem ..) _ s)

theorem execSStA_mem (s : State) (b : BitVec 5) (ap : BitVec 16) : KeepsMem s (execSStA b ap s) := keepsMem_next (by
    refine withRegsS_mem .s [b] ?_
    dsimp only
    split
    · rfl
    · split
      · rfl
      · exact withRegsS_mem .s _ (by split <;> rfl))

theorem execLandingLineArrival_mem (s : State) : KeepsMem s (execLandingLineArrival s) := keepsMem_next (by
    dsimp only
    repeat' split
    all_goals rfl)

theorem execLandingWrite_mem (s : State) : KeepsMem s (execLandingWrite s) := keepsMem_next (by
    refine foldl_mem (fun t x => ?_) _ s
    split
    · rfl
    · split
      · rfl
      · dsimp only
        split
        · exact foldl_mem l2Unpin_mem _ _
        · rfl)

theorem execSemaphoreWaitSatisfied_mem (s : State) : KeepsMem s (execSemaphoreWaitSatisfied s) := keepsMem_next (by
    dsimp only
    repeat' split
    all_goals simp)

theorem execEgressLineDrain_mem (s : State) : KeepsMem s (execEgressLineDrain s) := keepsMem_next (by
    dsimp only
    repeat' split
    all_goals simp)

theorem execSemaphoreRemoteArrival_mem (s : State) : KeepsMem s (execSemaphoreRemoteArrival s) := keepsMem_next (by
    dsimp only
    repeat' split
    all_goals simp)

theorem execCopyComplete_mem (s : State) (id : CopyId) : KeepsMem s (execCopyComplete id s) := by
  unfold execCopyComplete
  dsimp only
  repeat' split
  all_goals exact keepsMem_next (by simp)

theorem execWindowRequest_mem (s : State) : KeepsMem s (execWindowRequest s) := keepsMem_next (by
    dsimp only
    repeat' split
    all_goals simp)

theorem execRouterArbitrationRound_mem (s : State) : KeepsMem s (execRouterArbitrationRound s) :=
  keepsMem_next ((foldl_mem (enterStep_mem _ _ _) _ _).trans ((arriveStep_mem ..).trans (foldl_mem (ringStep_mem _ _ _) _ s)))

theorem execErrorRecordDeliver_mem (s : State) : KeepsMem s (execErrorRecordDeliver s) := keepsMem_next (by
    dsimp only
    repeat' split
    all_goals simp)

theorem execQmapHalt_mem (s : State) : KeepsMem s (execQmapHalt s) := keepsMem_next (by
    dsimp only
    repeat' split
    all_goals rfl)

theorem execPktNop_mem (s : State) (pr : Bool) (len : BitVec 14) : KeepsMem s (execPktNop pr len s) :=
  keepsMem_next (packetGo_mem _ pr .all fun _ => packetDone_mem ..)

theorem execPktPend_mem (s : State) (pr : Bool) : KeepsMem s (execPktPend pr s) := keepsMem_next (by
    split
    · exact packetFault_mem ..
    · exact packetGo_mem 1 false .all fun l => by split <;> simp)

theorem execPktSemwait_mem (s : State) (pr : Bool) (name : BitVec 16) (v : BitVec 64) :
    KeepsMem s (execPktSemwait pr name v s) :=
  keepsMem_next (packetGo_mem 4 pr .all fun _ => withName_mem name (by dsimp only; split <;> simp))

theorem execPktFfence_mem (s : State) (pr : Bool) : KeepsMem s (execPktFfence pr s) :=
  keepsMem_next (packetGo_mem 1 pr .all fun _ => packetDone_mem s 1)
theorem execPktQuiesce_mem (s : State) (pr : Bool) : KeepsMem s (execPktQuiesce pr s) :=
  keepsMem_next (packetGo_mem 1 pr .all fun _ => waitQuiet_mem true (packetDone_mem s 1))
theorem execPktHalt_mem (s : State) (pr notify : Bool) : KeepsMem s (execPktHalt pr notify s) :=
  keepsMem_next (by simp)

theorem execPktXfer_mem (s : State) (pr w : Bool) (region : BitVec 14) (owner : BitVec 8) :
    KeepsMem s (execPktXfer pr w region owner s) :=
  keepsMem_next (by
    dsimp only
    repeat' split
    all_goals simp)

theorem execPktCopy_mem (s : State) (pr sem : Bool) (src dst : BitVec 64) (rowBytes : BitVec 24) (rows : BitVec 16)
    (rc : BitVec 8) (spitch dpitch : BitVec 32) (name : BitVec 16) (add : BitVec 64) :
    KeepsMem s (execPktCopy pr sem src dst rowBytes rows rc spitch dpitch name add s) :=
  keepsMem_next (by
    refine packetGo_mem 12 pr .y fun l => withSem_mem sem name ?_
    dsimp only
    repeat' split
    all_goals simp)

theorem execLinkTrain_mem (s : State) : KeepsMem s (execLinkTrain s) := keepsMem_next (by
    dsimp only
    repeat' split
    all_goals rfl)

theorem execLinkDisable_mem (s : State) : KeepsMem s (execLinkDisable s) := keepsMem_next (by simp)

theorem execLinkTrainingComplete_mem (s : State) (fabid : BitVec 16) (rtt : BitVec 8) :
    KeepsMem s (execLinkTrainingComplete fabid rtt s) :=
  keepsMem_next (by
    dsimp only
    repeat' split
    all_goals simp)

theorem execLinkTrainingTimeout_mem (s : State) : KeepsMem s (execLinkTrainingTimeout s) := keepsMem_next (by
    dsimp only
    repeat' split
    all_goals simp)

theorem execStreamDataFlitReceive_mem (s : State) : KeepsMem s (execStreamDataFlitReceive s) :=
  keepsMem_next (sequenced_mem 1 fun _ _ => rfl)
theorem execCollectiveDataFlitReceive_mem (s : State) : KeepsMem s (execCollectiveDataFlitReceive s) :=
  keepsMem_next (by simp)
theorem execCollectiveControlFlitReceive_mem (s : State) : KeepsMem s (execCollectiveControlFlitReceive s) :=
  keepsMem_next (by simp)
theorem execIdleFlitReceive_mem (s : State) : KeepsMem s (execIdleFlitReceive s) :=
  keepsMem_next (arriving_mem 0 fun _ _ => rfl)

theorem execRetryRequestFlitReceive_mem (s : State) : KeepsMem s (execRetryRequestFlitReceive s) := keepsMem_next (by
    dsimp only
    all_goals simp [apply_ite State.mem])

theorem execFlitCrcFailure_mem (s : State) : KeepsMem s (execFlitCrcFailure s) := keepsMem_next (by
    dsimp only
    repeat' split
    all_goals rfl)

theorem execLinkRxSilenceTimeout_mem (s : State) : KeepsMem s (execLinkRxSilenceTimeout s) := keepsMem_next (by
    dsimp only
    repeat' split
    all_goals simp)

theorem execVfmapWrite_mem (s : State) (v : BitVec 9) (w : BitVec 32) : KeepsMem s (execVfmapWrite v w s) :=
  keepsMem_next (by simp)

theorem execFnaddrWrite_mem (s : State) (f : BitVec 10) (word : BitVec 4) (v : BitVec 32) :
    KeepsMem s (execFnaddrWrite f word v s) :=
  keepsMem_next (by
    dsimp only
    repeat' split
    all_goals simp)

theorem execQpConnect_mem (s : State) : KeepsMem s (execQpConnect s) := keepsMem_next (by
    dsimp only
    repeat' split
    all_goals rfl)

theorem execQpReset_mem (s : State) : KeepsMem s (execQpReset s) := keepsMem_next (by
    dsimp only
    repeat' split
    all_goals simp)

theorem execQpRetryTimeout_mem (s : State) : KeepsMem s (execQpRetryTimeout s) := keepsMem_next (by
    dsimp only
    repeat' split
    all_goals simp)

theorem execPortcfgModeChange_mem (s : State) (mode : Bool) : KeepsMem s (execPortcfgModeChange mode s) :=
  keepsMem_next (by split <;> rfl)

theorem execPortcfgEnClear_mem (s : State) : KeepsMem s (execPortcfgEnClear s) := keepsMem_next (by
    dsimp only
    repeat' split
    all_goals simp)

theorem execPortUp_mem (s : State) : KeepsMem s (execPortUp s) := keepsMem_next (by
    dsimp only
    repeat' split
    all_goals rfl)

theorem execPortpartWrite_mem (s : State) (v : BitVec 32) : KeepsMem s (execPortpartWrite v s) :=
  keepsMem_next ((pfcUpdate_mem _).trans rfl)

theorem execPfcFrameReceive_mem (s : State) (enable : BitVec 8) (quanta : BitVec 128) :
    KeepsMem s (execPfcFrameReceive enable quanta s) :=
  keepsMem_next (by simp)

theorem execPfcPauseExpiry_mem (s : State) (prio : BitVec 3) : KeepsMem s (execPfcPauseExpiry prio s) :=
  keepsMem_next (by
    dsimp only
    repeat' split
    all_goals rfl)

theorem execTransmitArbitrationRound_mem (s : State) : KeepsMem s (execTransmitArbitrationRound s) :=
  keepsMem_next (by
    dsimp only
    repeat' split
    all_goals simp)

theorem execPtpMessageReceive_mem (s : State) (domain : BitVec 8) : KeepsMem s (execPtpMessageReceive domain s) :=
  keepsMem_next (by simp)

theorem execTimestepWrite_mem (s : State) (v : BitVec 32) : KeepsMem s (execTimestepWrite v s) := keepsMem_next (by
    dsimp only
    repeat' split
    all_goals rfl)

theorem execBhctlPwrSet_mem (s : State) : KeepsMem s (execBhctlPwrSet s) := keepsMem_next (by split <;> rfl)

theorem execPowerupSelfTestDone_mem (s : State) (pass : Bool) : KeepsMem s (execPowerupSelfTestDone pass s) :=
  keepsMem_next (by
    dsimp only
    repeat' split
    all_goals rfl)

theorem execGenerationAcknowledge_mem (s : State) : KeepsMem s (execGenerationAcknowledge s) := keepsMem_next (by
    refine (foldl_mem (fun t p => ?_) _ _).trans ?_
    · split
      · exact finishCreate_mem ..
      · rfl
    · split
      · rfl
      · exact foldl_mem (fun t b => by split <;> rfl) _ s)

theorem execWincfgWrite_mem (s : State) (w : BitVec 6) (v : BitVec 32) : KeepsMem s (execWincfgWrite w v s) :=
  keepsMem_next (by
    dsimp only
    repeat' split
    all_goals rfl)

theorem execPartitionCreate_mem (s : State) (size : BitVec 3) : KeepsMem s (execPartitionCreate size s) :=
  keepsMem_next (by
    dsimp only
    repeat' split
    all_goals rfl)

theorem execPartitionReset_mem (s : State) : KeepsMem s (execPartitionReset s) := keepsMem_next (by
    dsimp only
    repeat' split
    all_goals simp)

theorem execPartitionDissolve_mem (s : State) : KeepsMem s (execPartitionDissolve s) := keepsMem_next (by
    dsimp only
    split
    · rfl
    · split
      · rfl
      · split
        · exact (ptErr_mem ..).trans (foldl_mem (by intros; rfl) _ s)
        · simp)

theorem execBcpEscalationReset_mem (s : State) : KeepsMem s (execBcpEscalationReset s) := keepsMem_next (by
    dsimp only
    repeat' split
    all_goals simp)

theorem execResetSequenceTimeout_mem (s : State) : KeepsMem s (execResetSequenceTimeout s) := keepsMem_next (by
    dsimp only
    repeat' split
    all_goals rfl)

theorem execPowerLimitCycleRemoval_mem (s : State) : KeepsMem s (execPowerLimitCycleRemoval s) :=
  keepsMem_next (by split <;> rfl)

theorem execBringUp_mem (s : State) : KeepsMem s (execBringUp s) := keepsMem_next (by
    dsimp only
    repeat' split
    all_goals rfl)

theorem execAttestationReportRequest_mem (s : State) (pkg : Bool) (nonce : BitVec 256) :
    KeepsMem s (execAttestationReportRequest pkg nonce s) :=
  keepsMem_next (by
    dsimp only
    repeat' split
    all_goals rfl)

theorem execKeyLoad_mem (s : State) (slot : BitVec 8) : KeepsMem s (execKeyLoad slot s) := keepsMem_next (by
    dsimp only
    repeat' split
    all_goals rfl)

theorem execKeyRevoke_mem (s : State) (slot : BitVec 8) : KeepsMem s (execKeyRevoke slot s) := keepsMem_next (by
    dsimp only
    repeat' split
    all_goals rfl)

theorem execRevocationApplied_mem (s : State) (slot : BitVec 8) : KeepsMem s (execRevocationApplied slot s) :=
  keepsMem_next (by
    dsimp only
    repeat' split
    all_goals simp [apply_ite State.mem])

theorem execRekeyStart_mem (s : State) (region : BitVec 14) (newSlot : BitVec 8) :
    KeepsMem s (execRekeyStart region newSlot s) :=
  keepsMem_next (by
    dsimp only
    repeat' split
    all_goals simp)

theorem execRekeyChunk_mem (s : State) (chunk : BitVec 12) : KeepsMem s (execRekeyChunk chunk s) := keepsMem_next (by
    dsimp only
    repeat' split
    all_goals rfl)

theorem execRekeyComplete_mem (s : State) : KeepsMem s (execRekeyComplete s) := keepsMem_next (by
    dsimp only
    repeat' split
    all_goals simp)

theorem execGranuleAssign_mem (s : State) (gran : BitVec 14) (domain : BitVec 12) :
    KeepsMem s (execGranuleAssign gran domain s) :=
  keepsMem_next (by
    dsimp only
    repeat' split
    all_goals rfl)

theorem execGranuleFree_mem (s : State) (gran : BitVec 14) : KeepsMem s (execGranuleFree gran s) := keepsMem_next (by
    dsimp only
    repeat' split
    all_goals rfl)

theorem execRegionDescriptorWrite_mem (s : State) (num : BitVec 14) : KeepsMem s (execRegionDescriptorWrite num s) :=
  keepsMem_next (by
    dsimp only
    all_goals simp [apply_ite State.mem])

theorem execRegionDescriptorConvert_mem (s : State) (num : BitVec 14) :
    KeepsMem s (execRegionDescriptorConvert num s) :=
  keepsMem_next (by
    refine rdGo_mem _ _ fun t => ?_
    dsimp only
    repeat' split
    all_goals simp)

theorem execCheckpointStart_mem (s : State) : KeepsMem s (execCheckpointStart s) := keepsMem_next (by
    dsimp only
    repeat' split
    all_goals rfl)

theorem execCheckpointAbort_mem (s : State) : KeepsMem s (execCheckpointAbort s) := keepsMem_next (by split <;> rfl)

theorem execCheckpointEnd_mem (s : State) : KeepsMem s (execCheckpointEnd s) := keepsMem_next (by
    dsimp only
    repeat' split
    all_goals rfl)

theorem execRequeueComplete_mem (s : State) : KeepsMem s (execRequeueComplete s) := keepsMem_next (by
    dsimp only
    repeat' split
    all_goals rfl)

theorem execHaltComplete_mem (s : State) : KeepsMem s (execHaltComplete s) := keepsMem_next (by
    dsimp only
    split
    · rfl
    · split
      · rfl
      · exact foldl_mem (fun t q => by split <;> simp) _ s)

theorem execNodePlacement_mem (s : State) : KeepsMem s (execNodePlacement s) := keepsMem_next (by
    refine foldl_fst_mem (fun x y => ?_) _ (s, [], [])
    obtain ⟨u, claims, kept⟩ := x
    dsimp only
    split
    · rfl
    · split
      · split <;> simp
      · simp)

theorem execSwitchableBoundaryReached_mem (s : State) : KeepsMem s (execSwitchableBoundaryReached s) :=
  keepsMem_next (by
    dsimp only
    split
    · rfl
    · exact foldl_mem (fun t q => by split <;> simp) _ s)

theorem execArrayTickStart_mem (s : State) : KeepsMem s (execArrayTickStart s) := keepsMem_next (by
    dsimp only
    split
    · rfl
    · split
      · rfl
      · split <;> split
        · rfl
        · refine (foldl_mem (fun t q => ?_) _ _).trans (groupStart_mem ..)
          split
          · split <;> simp
          · rfl
        · rfl
        · refine (foldl_mem (fun t q => ?_) _ _).trans (groupStart_mem ..)
          split
          · split <;> simp
          · rfl)

theorem execStartTickReached_mem (s : State) : KeepsMem s (execStartTickReached s) := keepsMem_next (by
    dsimp only
    repeat' split
    all_goals rfl)

theorem execBudgetRefill_mem (s : State) : KeepsMem s (execBudgetRefill s) :=
  keepsMem_next (foldl_mem (by intros; rfl) _ _)

theorem execQuantumExpiry_mem (s : State) : KeepsMem s (execQuantumExpiry s) := keepsMem_next (by
    dsimp only
    repeat' split
    all_goals simp)

theorem execPortFrameReceive_mem (s : State) : KeepsMem s (execPortFrameReceive s) := keepsMem_next (by
    dsimp only
    repeat' split
    all_goals simp)

theorem execRoceSendReceive_mem (s : State) : KeepsMem s (execRoceSendReceive s) := by
  refine keepsMem_next (withRx_mem _ fun u k p v e => (congrArg State.mem e).symm.trans
    (inTurn_mem k p 1 (fun _ => answer_mem ..) fun v => ?_))
  dsimp only
  split
  · exact answer_mem ..
  · split <;> simp

theorem execRoceAtomicRequest_mem (s : State) : KeepsMem s (execRoceAtomicRequest s) :=
  keepsMem_next (withRx_mem _ fun _ k p _ e =>
    (congrArg State.mem e).symm.trans (inTurn_mem k p 1 (fun _ => answer_mem ..) fun _ => answer_mem ..))

theorem execCnpReceive_mem (s : State) : KeepsMem s (execCnpReceive s) := keepsMem_next (by simp)

end Sys2Proof.Machine

namespace Sys2Proof.Machine
open Sys2Proof

/-! ## What launching, saving, rekeying and checkpointing write -/

@[simp] theorem paThrough_canonical {s : State} (h : MemCanonical s) (pa slot prot : ℕ) (bs : List Byte) :
    MemCanonical (paThrough s pa slot prot bs).1 := by
  unfold paThrough
  refine foldl_fst_canonical (fun x l h => ?_) _ h
  split
  split
  rename_i hx
  exact canonical_of_fst (lineThrough_canonical h ..) hx

@[simp] theorem regThrough_canonical {s : State} (h : MemCanonical s) (b : ℕ) (r : Region) (off : ℕ)
    (bs : List Byte) : MemCanonical (regThrough s b r off bs).1 := by
  unfold regThrough
  split
  · split
    · exact paThrough_canonical h ..
    · exact canonical_of_mem h (winLog_mem ..)
  · exact paThrough_canonical h ..

@[simp] theorem stagedWrite_canonical {s : State} (h : MemCanonical s) (n : NodeId) (r : SliceReq) :
    MemCanonical (stagedWrite s n r) := by
  have hc : ∀ {t}, MemCanonical t → MemCanonical
      (lineWrite (unreplay t n 2) r.line r.slot r.prot r.data r.mask r.poison none).1 :=
    fun ht => lineWrite_canonical (canonical_of_mem ht (unreplay_mem ..)) ..
  unfold stagedWrite
  extract_lets k before past commit
  split
  · exact hc h
  · split <;> rename_i hw <;> have ht := canonical_of_fst (lineWrite_canonical h ..) hw
    · split
      · exact ht
      · exact canonical_of_mem ht (modNode_mem ..)
    · exact hc ht

@[simp] theorem freezeStep_canonical {s : State} (h : MemCanonical s) (p : ℕ) (d : Due) :
    MemCanonical (freezeStep s p d).1 := by
  unfold freezeStep
  extract_lets a a1 a2 a3 a4 s1
  split
  · exact h
  · split
    · exact h
    · split
      · exact h
      · have hs : MemCanonical s1 := h
        rcases dueSlots a d with ⟨si, ai⟩
        dsimp only
        split
        · exact h
        · split
          · exact h
          · exact h
          · split
            · exact h
            · split
              · exact h
              · split
                · split
                  · exact canonical_of_mem h (useSlots_mem ..)
                  · split
                    · exact mpassAsk_canonical (canonical_of_mem hs (modArr_mem ..)) ..
                    · exact canonical_of_mem (mpassAsk_canonical (canonical_of_mem hs (modArr_mem ..)) ..) (useSlots_mem ..)
                · exact canonical_of_mem h (useSlots_mem ..)

theorem wf_foldl_memPut {ι : Type} (at_ : ι → ℕ) (bs : ι → List Byte) (l : List ι) {m : Memory} (h : m.wf = true) :
    Memory.wf (l.foldl (fun m i => memPut m (at_ i) (bs i)) m) = true := by
  induction l generalizing m with
  | nil => exact h
  | cons i l ih => exact ih (Memory.wf_memPut h _ _)

@[simp] theorem rekeyLines_canonical {s : State} (h : MemCanonical s) (p : ℕ) (k : RekeyS) (r : Region) (c : ℕ) :
    MemCanonical (rekeyLines s p k r c) :=
  wf_foldl_memPut _ _ _ h

@[simp] theorem flushRegion_canonical {s : State} (h : MemCanonical s) (r : Region) :
    MemCanonical (flushRegion s r) :=
  foldl_canonical (by intro _ _ h; exact evict_canonical h ..) _ h

@[simp] theorem ckRead_canonical {s : State} (h : MemCanonical s) (l : ℕ) : MemCanonical (ckRead s l).1 := by
  unfold ckRead
  extract_lets b m e
  split
  · split <;> rename_i hr
    · exact canonical_of_fst (ctlNow_canonical h ..) hr
    · exact canonical_of_fst (ctlNow_canonical h ..) hr
  · split
    · exact h
    · refine canonical_of_mem h ?_
      clear_value e
      split
      · exact logLine_mem ..
      · exact logLine_mem ..
      · exact logLine_mem ..
      · dsimp only
        split
        · exact logLine_mem ..
        · rfl

@[simp] theorem ckLine_canonical {s : State} (h : MemCanonical s) (l : ℕ) : MemCanonical (ckLine s l).1 := by
  unfold ckLine
  dsimp only
  repeat' split
  all_goals simp [MemCanonical, h]

@[simp] theorem ckLines_canonical {s : State} (h : MemCanonical s) (l : ℕ) : MemCanonical (ckLines s l).1 := by
  unfold ckLines
  refine foldl_fst_canonical (fun x i h => ?_) _ h
  split
  rename_i hx
  split at hx
  · cases hx
    exact h
  · exact canonical_of_fst (ckLine_canonical h _) hx

@[simp] theorem bcpRead_canonical {s : State} (h : MemCanonical s) (b va n : ℕ) :
    MemCanonical (bcpRead s b va n).1 := by
  unfold bcpRead
  refine foldl_fst_canonical (fun x l h => ?_) _ h
  split
  · exact h
  · extract_lets lo m
    split
    · exact h
    · split
      rename_i hx
      exact canonical_of_fst (regRead_canonical h ..) hx

@[simp] theorem bcpWrite_canonical {s : State} (h : MemCanonical s) (b va : ℕ) (bs : List Byte) :
    MemCanonical (bcpWrite s b va bs) := by
  unfold bcpWrite
  refine foldl_canonical (fun t l h => ?_) _ h
  extract_lets lo m
  split
  · exact h
  · exact regWrite_canonical h ..

@[simp] theorem readChain_canonical {s : State} (h : MemCanonical s) (b fuel va : ℕ) :
    MemCanonical (readChain s b fuel va).1 := by
  induction fuel generalizing s va with
  | zero => exact h
  | succ fuel ih =>
    unfold readChain
    split
    rename_i t r hr
    have ht : MemCanonical t := by
      split at hr
      · cases hr
        exact h
      · split at hr
        rename_i he
        cases hr
        exact canonical_of_fst (bcpRead_canonical h ..) he
    split
    · exact ht
    · split
      · exact ht
      · split
        · exact ht
        · split <;> rename_i he
          · exact canonical_of_fst (ih ht _) he
          · exact canonical_of_fst (ih ht _) he

@[simp] theorem launch_canonical {s : State} (h : MemCanonical s) (b : ℕ) (q : Option ℕ) (wcb : ℕ)
    (sem : Option (W16 × W64)) (tick desc atick : Option ℕ) (index : ℕ) :
    MemCanonical (launch s b q wcb sem tick desc atick index).1 := by
  unfold launch
  extract_lets p
  split
  rename_i t r hr
  have ht : MemCanonical t := canonical_of_fst (readChain_canonical h ..) hr
  split
  · exact ht
  · extract_lets w
    split
    · exact ht
    · split
      · exact ht
      · split
        rename_i u fr hfr
        have hu : MemCanonical u := by
          split at hfr
          · cases hfr
            exact ht
          · exact canonical_of_fst (bcpRead_canonical ht ..) hfr
        split
        · exact hu
        · split
          · exact hu
          · split
            rename_i v st hst
            have hv : MemCanonical v := by
              split at hst
              · cases hst
                exact hu
              · split at hst
                rename_i he
                cases hst
                exact canonical_of_fst (readSteps_canonical hu ..) he
            split
            · exact hv
            · extract_lets fresh
              split
              · exact hv
              · split <;> exact hv

theorem withSem_canonical {s go : State} (h : MemCanonical s) (sem : Bool) (name : W16) (hgo : MemCanonical go) :
    MemCanonical (withSem s sem name go) := by
  unfold withSem withName
  repeat' split
  · exact hgo
  · exact canonical_of_mem h (packetFault_mem ..)
  · exact hgo

@[simp] theorem launchPacket_canonical {s : State} (h : MemCanonical s) (len : ℕ) (sem : Bool) (name : W16)
    (add : W64) (wcb : ℕ) (tick desc : Option ℕ) : MemCanonical (launchPacket s len sem name add wcb tick desc) := by
  refine withSem_canonical h sem name ?_
  split
  · exact canonical_of_mem h (packetFault_mem ..)
  · exact canonical_of_mem h (queueWait_mem ..)
  · exact h
  · rename_i hl
    exact canonical_of_mem (canonical_of_fst (launch_canonical h ..) hl) (packetDone_mem ..)

@[simp] theorem readImage_canonical {s : State} (h : MemCanonical s) (b : ℕ) (nd : NodeS) :
    MemCanonical (readImage s b nd).1 := by
  unfold readImage
  dsimp only
  repeat' split
  all_goals simp [MemCanonical, h]

@[simp] theorem writeTrap_canonical {s : State} (h : MemCanonical s) (b : ℕ) (nd : NodeS) :
    MemCanonical (writeTrap s b nd) := by
  unfold writeTrap
  split <;> simp [MemCanonical, h]

@[simp] theorem writeStatus_canonical {s : State} (h : MemCanonical s) (b : ℕ) (nd : NodeS) :
    MemCanonical (writeStatus s b nd) := by
  unfold writeStatus
  split <;> simp [MemCanonical, h]

@[simp] theorem failNode_canonical {s : State} (h : MemCanonical s) (id : NodeId) : MemCanonical (failNode s id) := by
  unfold failNode
  repeat' split
  all_goals simp [MemCanonical, h]

@[simp] theorem escalate_canonical {s : State} (h : MemCanonical s) (id : NodeId) (nd : NodeS) :
    MemCanonical (escalate s id nd) :=
  foldl_canonical (by intro _ _ h; exact failNode_canonical h _) _ h

@[simp] theorem killNode_canonical {s : State} (h : MemCanonical s) (id : NodeId) (nd : NodeS) (c : Cause) :
    MemCanonical (killNode s id nd c) := by
  unfold killNode
  split <;> simp [MemCanonical, h]

@[simp] theorem nodeTrapped_canonical {s : State} (h : MemCanonical s) (ms : List ℕ) (t : TrapRec) :
    MemCanonical (nodeTrapped s ms t) := by
  unfold nodeTrapped
  dsimp only
  repeat' split
  all_goals simp [MemCanonical, h]

@[simp] theorem loadFailed_canonical {s : State} (h : MemCanonical s) (id : NodeId) (nd : NodeS) (f : LoadFault) :
    MemCanonical (loadFailed s id nd f) := by
  unfold loadFailed
  dsimp only
  repeat' split
  all_goals simp [MemCanonical, h]

@[simp] theorem startState_canonical {s : State} (h : MemCanonical s) (id : NodeId) (nd : NodeS) (p : ℕ)
    (bs pb : List Byte) : MemCanonical (startState s id nd p bs pb) := by
  unfold startState
  extract_lets a
  split
  · exact h
  · split
    · exact h
    · split
      rename_i hr
      exact canonical_of_mem (canonical_of_fst (bcpRead_canonical h ..) hr) rfl

@[simp] theorem entryBytes_canonical {s : State} (h : MemCanonical s) (p : ℕ) : MemCanonical (entryBytes s p).1 := by
  unfold entryBytes
  dsimp only
  repeat' split
  all_goals simp [MemCanonical, h]

end Sys2Proof.Machine

namespace Sys2Proof.Machine
open Sys2Proof

/-! ## Registers and their commands -/

theorem command_mem {s : State} {place : Cur} {f : State → Host.Outcome State Fault Refusal}
    (h : ∀ t, KeepsMem t (f t)) : (command s place f).mem = s.mem := by
  unfold command
  split
  · rename_i e
    have hm := h _ _ e
    exact hm
  · rfl
  · rfl

@[simp] theorem writeBhctl_mem (s : State) (b : ℕ) (v : W32) : (writeBhctl s b v).mem = s.mem := by
  refine Eq.trans (command_mem fun _ => keepsMem_next rfl) (Eq.trans (command_mem ?_) rfl)
  split
  · exact execBhctlPwrSet_mem
  · exact fun _ => keepsMem_next rfl

@[simp] theorem writePtcfg_mem (s : State) (p : ℕ) (v : W32) : (writePtcfg s p v).mem = s.mem := by
  unfold writePtcfg
  extract_lets c place t
  split
  · exact command_mem fun u => execPartitionCreate_mem u _
  · exact command_mem execPartitionReset_mem
  · exact command_mem execPartitionDissolve_mem
  · rfl

@[simp] theorem writePortcfg_mem (s : State) (v : W32) : (writePortcfg s v).mem = s.mem := by
  refine (command_mem fun t => ?_).trans (command_mem fun t => execPortcfgModeChange_mem t _)
  split
  · exact keepsMem_next rfl
  · exact execPortcfgEnClear_mem t

@[simp] theorem writeQpcmd_mem (s : State) (v : W32) : (writeQpcmd s v).mem = s.mem := by
  unfold writeQpcmd
  extract_lets t
  split
  · exact command_mem execQpConnect_mem
  · exact command_mem execQpReset_mem
  · rfl

@[simp] theorem writeLnkctl_mem (s : State) (l : ℕ) (v : W32) : (writeLnkctl s l v).mem = s.mem := by
  unfold writeLnkctl
  extract_lets c place t u
  have hu : u.mem = s.mem := by
    unfold u
    split
    · exact command_mem execLinkDisable_mem
    · rfl
  split
  · exact (command_mem execLinkTrain_mem).trans hu
  · exact hu

@[simp] theorem writeKeyctl_mem (s : State) (p : ℕ) (v : W32) : (writeKeyctl s p v).mem = s.mem := by
  unfold writeKeyctl
  extract_lets c place t x
  split
  · rfl
  · exact command_mem fun u => execKeyLoad_mem u _
  · exact command_mem fun u => execKeyRevoke_mem u _
  · exact command_mem fun u => execRekeyStart_mem u _ _
  · exact command_mem fun u => execRekeyChunk_mem u _
  · exact command_mem fun _ => keepsMem_next rfl

@[simp] theorem writeQmap_mem (s : State) (b q : ℕ) (v : W32) : (writeQmap s b q v).mem = s.mem := by
  unfold writeQmap
  extract_lets t
  split
  · exact command_mem execQmapHalt_mem
  · rfl

@[simp] theorem writePatctl_mem (s : State) (b : ℕ) (v : W32) : (writePatctl s b v).mem = s.mem := by
  unfold writePatctl
  extract_lets c place t
  split
  · exact command_mem fun u => execGranuleAssign_mem u _ _
  · exact command_mem fun u => execGranuleFree_mem u _
  · rfl

@[simp] theorem writeCkptctl_mem (s : State) (v : W32) : (writeCkptctl s v).mem = s.mem := by
  unfold writeCkptctl
  extract_lets t
  split
  · exact command_mem execCheckpointStart_mem
  · exact command_mem execCheckpointAbort_mem
  · rfl

theorem writeHubReg_mem {s t : State} {off : ℕ} {v : W32} (e : writeHubReg s off v = some t) : t.mem = s.mem := by
  unfold writeHubReg at e
  split at e
  · cases e; rfl
  · split at e
    · cases e; rfl
    · split at e
      · cases e
        exact command_mem fun u => execTimestepWrite_mem u _
      · split at e
        · cases e
          split
          · rfl
          · exact command_mem fun _ => keepsMem_next rfl
        · split at e
          · cases e; rfl
          · cases e
            split
            · exact writeBhctl_mem ..
            · rfl
          · cases e
            exact writePtcfg_mem ..
          · cases e
            exact command_mem fun u => execWincfgWrite_mem u _ _
          · cases e

theorem writePortReg_mem {s t : State} {off : ℕ} {v : W32} (e : writePortReg s off v = some t) : t.mem = s.mem := by
  unfold writePortReg at e
  split at e
  · cases e
    exact writePortcfg_mem ..
  · split at e
    · cases e
      exact writeQpcmd_mem ..
    · split at e
      · obtain rfl := Option.some.inj e
        exact command_mem fun u => execPortpartWrite_mem u _
      · obtain rfl := Option.some.inj e
        rfl
      · obtain rfl := Option.some.inj e
        exact command_mem fun u => execVfmapWrite_mem u _ _
      · split at e
        · cases e
          split
          · exact writeLnkctl_mem ..
          · split
            · rfl
            · exact command_mem fun _ => keepsMem_next rfl
        · cases e; rfl
        · cases e
          exact command_mem fun u => execFnaddrWrite_mem u _ _ _
        · cases e

/-- Every next state of an outcome has canonical device memory. -/
def KeepsCanonical (o : Host.Outcome State Fault Refusal) : Prop := ∀ t, o = .next t → MemCanonical t

theorem keepsCanonical_next {t : State} (h : MemCanonical t) : KeepsCanonical (.next t) := by
  rintro _ ⟨⟩
  exact h

theorem KeepsMem.canonical {s : State} {o : Host.Outcome State Fault Refusal} (h : KeepsMem s o) (hs : MemCanonical s) :
    KeepsCanonical o := fun t e => canonical_of_mem hs (h t e)

theorem command_canonical {s : State} (h : MemCanonical s) (place : Cur) {f : State → Host.Outcome State Fault Refusal}
    (hf : ∀ t, MemCanonical t → KeepsCanonical (f t)) : MemCanonical (command s place f) := by
  unfold command
  split
  · rename_i e
    have ht := hf { s with cur := place } h _ e
    exact ht
  · exact h
  · exact h

theorem rdGo_canonical {s : State} (h : MemCanonical s) (p num : ℕ) {go : State → State}
    (hgo : ∀ t, MemCanonical t → MemCanonical (go t)) : MemCanonical (rdGo s p num go) := by
  unfold rdGo
  extract_lets t
  split
  · exact h
  · split
    · exact h
    · exact hgo _ h

theorem execRegionDescriptorClear_canonical (num : BitVec 14) {s : State} (h : MemCanonical s) :
    KeepsCanonical (execRegionDescriptorClear num s) := by
  refine keepsCanonical_next (rdGo_canonical h _ _ fun t ht => ?_)
  extract_lets named
  split
  · exact ht
  · split
    · exact ht
    · rename_i r _ _
      have hf : MemCanonical (flushRegion (dropRegionReplicas t r) r) :=
        flushRegion_canonical (canonical_of_mem ht (dropRegionReplicas_mem ..)) r
      exact canonical_of_mem hf (by simp)

@[simp] theorem writeRdctl_canonical {s : State} (h : MemCanonical s) (p : ℕ) (v : W32) :
    MemCanonical (writeRdctl s p v) := by
  unfold writeRdctl
  extract_lets c place t
  have ht : MemCanonical t := h
  split
  · exact command_canonical ht _ fun u hu => (execRegionDescriptorWrite_mem u (bits v 0 14)).canonical hu
  · exact command_canonical ht _ fun u hu => execRegionDescriptorClear_canonical (bits v 0 14) hu
  · exact command_canonical ht _ fun u hu => (execRegionDescriptorConvert_mem u (bits v 0 14)).canonical hu
  · exact h

theorem writeMemReg_canonical {s t : State} (h : MemCanonical s) {off : ℕ} {v : W32} (e : writeMemReg s off v = some t) :
    MemCanonical t := by
  unfold writeMemReg at e
  split at e
  · cases e
    split
    · exact canonical_of_mem h (writeKeyctl_mem ..)
    · split <;> exact h
  · cases e; exact h
  · cases e; exact canonical_of_mem h (writeQmap_mem ..)
  · cases e; exact canonical_of_mem h (writePatctl_mem ..)
  · split at e
    · cases e; exact canonical_of_mem h (writeCkptctl_mem ..)
    · cases e; exact h
    · cases e; exact h
    · cases e; exact h
    · cases e; exact h
    · split at e
      · cases e; exact h
      · cases e
    · cases e
      split
      · exact canonical_of_mem h (writeSchctl_mem ..)
      · exact canonical_of_mem h (writeSchtbl_mem ..)
    · cases e
      split
      · exact writeRdctl_canonical h ..
      · split
        · exact canonical_of_mem h (command_mem fun _ => keepsMem_next rfl)
        · exact h
    · cases e; exact h
    · cases e

@[simp] theorem writeReg_canonical {s : State} (h : MemCanonical s) (off : ℕ) (v : W32) :
    MemCanonical (writeReg s off v) := by
  unfold writeReg
  split
  · exact h
  · cases hh : writeHubReg s off v with
    | some t => exact canonical_of_mem h (writeHubReg_mem hh)
    | none =>
      cases hp : writePortReg s off v with
      | some t => exact canonical_of_mem h (writePortReg_mem hp)
      | none =>
        cases hm : writeMemReg s off v with
        | some t => exact writeMemReg_canonical h hm
        | none => exact h

@[simp] theorem landWrite_canonical {s : State} (h : MemCanonical s) (f : ℕ) (m : RdmaMsg) (bs : List Byte) :
    MemCanonical (landWrite s f m bs).1 := by
  unfold landWrite
  split
  · exact foldl_canonical (by intro _ _ h; exact writeReg_canonical h ..) _ h
  · split
    · exact regThrough_canonical h ..
    · exact h

@[simp] theorem readResponses_canonical {s : State} (h : MemCanonical s) (b k : ℕ) (p : RocePkt) (r : Region)
    (off n i fuel : ℕ) : MemCanonical (readResponses s b k p r off n i fuel) := by
  induction fuel generalizing s i with
  | zero => exact h
  | succ m ih =>
    unfold readResponses
    extract_lets lo
    split
    rename_i t v hr
    have ht : MemCanonical t := canonical_of_fst (regRead_canonical h ..) hr
    split
    · exact canonical_of_mem ht (answer_mem ..)
    · exact ih (canonical_of_mem ht (readPkt_mem ..)) _

end Sys2Proof.Machine

namespace Sys2Proof.Machine
open Sys2Proof

/-! ## Instructions that write device memory -/

theorem canonical_setHub {s : State} (h : MemCanonical s) (x : HubS) : MemCanonical { s with hub := x } := h

theorem canonical_ite {c : Prop} [Decidable c] {t u : State} (ht : MemCanonical t) (hu : MemCanonical u) :
    MemCanonical (if c then t else u) := by
  split
  · exact ht
  · exact hu

theorem withRegsS_canonical {s k : State} (h : MemCanonical s) (sl : Slot) (rs : List (BitVec 5)) (hk : MemCanonical k) :
    MemCanonical (withRegsS s sl rs k) := by
  unfold withRegsS
  split
  · exact h
  · exact hk

theorem packetGo_canonical {s : State} (h : MemCanonical s) (len : ℕ) (pr : Bool) (k : QueueKinds) {go : LevelS → State}
    (hgo : ∀ l, MemCanonical (go l)) : MemCanonical (packetGo s len pr k go) := by
  unfold packetGo
  repeat' split
  · exact h
  · exact canonical_of_mem h (packetFault_mem ..)
  · exact canonical_of_mem h (packetFault_mem ..)
  · exact canonical_of_mem h (packetDone_mem ..)
  · exact hgo _

theorem withRx_canonical {s : State} (h : MemCanonical s) (kind : RoceOp → Bool) {go : State → ℕ → RocePkt → State}
    (hgo : ∀ t k p u, go t k p = u → MemCanonical t → MemCanonical u) : MemCanonical (withRx s kind go) := by
  unfold withRx
  dsimp only
  repeat' split
  · exact h
  · exact h
  · exact hgo _ _ _ _ rfl (canonical_of_mem h (pfcUpdate_mem _))

theorem inTurn_cases (s : State) (k : ℕ) (p : RocePkt) (n : ℕ) (again go : State → State) :
    inTurn s k p n again go = go (modQp s k (fun q => { q with rPsn := (q.rPsn + n) % 2 ^ 24 })) ∨
      inTurn s k p n again go = answer s k (.nak 0) (qpOf s k).rPsn ∨ inTurn s k p n again go = again s := by
  unfold inTurn
  dsimp only
  generalize (p.psn + 2 ^ 24 - (qpOf s k).rPsn) % 2 ^ 24 = d
  split
  · exact .inl rfl
  · split
    · exact .inr (.inl rfl)
    · exact .inr (.inr rfl)

theorem inTurn_canonical {s : State} (h : MemCanonical s) (k : ℕ) (p : RocePkt) (n : ℕ) {again go : State → State}
    (ha : ∀ t, MemCanonical t → MemCanonical (again t)) (hgo : ∀ t, MemCanonical t → MemCanonical (go t)) :
    MemCanonical (inTurn s k p n again go) := by
  rcases inTurn_cases s k p n again go with e | e | e
  · exact e ▸ hgo _ (canonical_of_mem h (modQp_mem ..))
  · exact e ▸ canonical_of_mem h (answer_mem ..)
  · exact e ▸ ha _ h

theorem execSMpass_canonical (a : BitVec 5) {s : State} (h : MemCanonical s) : KeepsCanonical (execSMpass a s) := by
  refine keepsCanonical_next ?_
  extract_lets x p
  split
  · exact h
  · refine withRegsS_canonical h .s [a] ?_
    extract_lets va
    split
    · exact h
    · split
      rename_i t r hr
      have ht : MemCanonical t := canonical_of_fst (arrRead_canonical h ..) hr
      split
      · exact ht
      · split
        · exact ht
        · extract_lets d m reach slots
          split
          · exact canonical_of_mem ht (mpeStart_mem ..)
          · exact ht

theorem execSCollGo_canonical (a : BitVec 5) (sem : Option (BitVec 5 × BitVec 16)) {s : State} (h : MemCanonical s) :
    KeepsCanonical (execSCollGo a sem s) := by
  refine keepsCanonical_next ?_
  extract_lets x p
  split
  · exact h
  · refine withRegsS_canonical h .s _ ?_
    extract_lets va
    split
    · exact h
    · split
      rename_i t r hr
      have ht : MemCanonical t := canonical_of_fst (arrRead_canonical h ..) hr
      split
      · exact ht
      · split
        · exact ht
        · extract_lets d nameOk
          split
          · exact ht
          · split
            · exact ht
            · exact canonical_of_mem ht ((collStart_mem ..).trans (unreplayHere_mem ..))

theorem execScOperationPerform_canonical {s : State} (h : MemCanonical s) :
    KeepsCanonical (execScOperationPerform s) := by
  refine keepsCanonical_next ?_
  extract_lets p a
  split
  · exact h
  · extract_lets n w none_
    split
    · exact canonical_of_mem h (by simp)
    · extract_lets l k
      split
      rename_i t v hr
      have ht : MemCanonical t := canonical_of_fst (lineRead_canonical h ..) hr
      extract_lets ts top tau old ext put
      have hput : ∀ x, MemCanonical (put t x) := fun x =>
        canonical_of_mem (lineWrite_canonical ht ..) (setTs_mem ..)
      split
      · exact canonical_of_mem ht (scReply_mem ..)
      · split
        · exact canonical_of_mem ht (by simp)
        · exact canonical_of_mem (hput _) (scReply_mem ..)
        · rename_i op uns
          split
          · exact canonical_of_mem ht (scReply_mem ..)
          · extract_lets u w
            have hu : MemCanonical u := by
              unfold u
              split
              · exact hput _
              · exact canonical_of_mem ht (setTs_mem ..)
            refine canonical_of_mem hu ((scReply_mem ..).trans ?_)
            unfold w
            split
            · exact unreplay_mem ..
            · rfl

theorem execCopyLineWrite_canonical (id : CopyId) {s : State} (h : MemCanonical s) :
    KeepsCanonical (execCopyLineWrite id s) := by
  cases id with
  | channel a ch => exact keepsCanonical_next (channelLine_canonical h ..)
  | packet b q i => exact keepsCanonical_next (queueCopyLine_canonical h ..)

theorem stackEvent_canonical (kind : StackKind) {s : State} (h : MemCanonical s) :
    KeepsCanonical (stackEvent kind s) := by
  refine keepsCanonical_next ?_
  extract_lets k
  split
  · exact h
  · extract_lets t done
    have hd : MemCanonical done.1 := by
      unfold done
      split
      · exact ctlPerform_canonical (canonical_of_mem h (modStack_mem ..)) ..
      · exact canonical_of_mem h (upperPerform_mem ..)
    clear_value done
    split
    · exact canonical_of_mem hd (giveReply_mem ..)
    · exact hd

theorem execL2Read_canonical {s : State} (h : MemCanonical s) : KeepsCanonical (execL2Read s) := by
  refine keepsCanonical_next ?_
  extract_lets k x
  split
  · exact h
  · split
    · exact h
    · exact sliceRead_canonical (canonical_of_mem h (setSlice_mem ..)) ..

theorem execStackReplyReceive_canonical {s : State} (h : MemCanonical s) :
    KeepsCanonical (execStackReplyReceive s) := by
  refine keepsCanonical_next ?_
  extract_lets k x
  split
  · exact h
  · split
    · exact h
    · dsimp only
      split
      · exact h
      · refine canonical_ite h (foldl_canonical (by intro _ _ h; exact answerWaiting_canonical h ..) _ ?_)
        refine l2Install_canonical ?_ ..
        exact h

theorem execL2Write_canonical {s : State} (h : MemCanonical s) : KeepsCanonical (execL2Write s) := by
  refine keepsCanonical_next ?_
  extract_lets k x
  split
  · exact h
  · split
    · exact h
    · extract_lets t p u
      have ht : MemCanonical t := canonical_of_mem h (by simp [t])
      split
      · exact ht
      · split
        · refine canonical_of_mem ht ?_
          split <;> simp [u]
        · split
          · exact stagedWrite_canonical ht ..
          · exact lineWrite_canonical ht ..

theorem execStreamFetchComplete_canonical {s : State} (h : MemCanonical s) :
    KeepsCanonical (execStreamFetchComplete s) := by
  refine keepsCanonical_next ?_
  extract_lets b q x
  split
  · exact h
  · split
    · exact h
    · exact canonical_of_mem h (queueFault_mem ..)
    · split
      · exact h
      · split
        rename_i hx
        split at hx
        · cases hx
          exact h
        · exact canonical_of_mem (canonical_of_fst (deviceBytes_canonical h ..) hx) rfl
    · exact h

theorem execPktWrite_canonical (pr : Bool) (addr : BitVec 64) (data : List (BitVec 32)) {s : State} (h : MemCanonical s) :
    KeepsCanonical (execPktWrite pr addr data s) :=
  keepsCanonical_next (packetGo_canonical h _ pr .all fun _ => withCmdWrite_canonical h _ _ fun _ ht =>
    canonical_of_mem ht (packetDone_mem ..))

theorem execPktStamp_canonical (pr w : Bool) (addr : BitVec 64) {s : State} (h : MemCanonical s) :
    KeepsCanonical (execPktStamp pr w addr s) := by
  refine keepsCanonical_next (packetGo_canonical h _ pr .all fun _ => ?_)
  split
  · exact canonical_of_mem h (packetFault_mem ..)
  · exact h
  · rename_i t e
    have ht := cmdWrite_canonical h e
    unfold waitQuiet
    dsimp only
    split
    · exact canonical_of_mem h (queueWait_mem ..)
    · exact canonical_of_mem ht (packetDone_mem ..)

theorem execPktPred_canonical (pr : Bool) (cc : BitVec 3) (sg : Bool) (addr value mask : BitVec 64) {s : State}
    (h : MemCanonical s) : KeepsCanonical (execPktPred pr cc sg addr value mask s) := by
  refine keepsCanonical_next ?_
  split
  · exact canonical_of_mem h (packetFault_mem ..)
  · refine packetGo_canonical h _ false .all fun _ => ?_
    split
    · exact canonical_of_mem h (packetFault_mem ..)
    · extract_lets b
      split
      · exact canonical_of_mem h (packetFault_mem ..)
      · rename_i t w e
        split
        · exact h
        · exact canonical_of_mem (predRead_canonical h e) (by simp)

theorem execPktLoop_canonical (pr : Bool) (count span : BitVec 32) (idx : BitVec 64) {s : State} (h : MemCanonical s) :
    KeepsCanonical (execPktLoop pr count span idx s) := by
  refine keepsCanonical_next ?_
  extract_lets stop t
  split
  · exact h
  · split
    · exact canonical_of_mem h (packetFault_mem ..)
    · split
      · exact canonical_of_mem h (packetFault_mem ..)
      · split
        · exact packetGo_canonical h _ pr .all fun _ => canonical_of_mem h (packetDone_mem ..)
        · refine packetGo_canonical h _ pr .all fun _ => ?_
          extract_lets lp
          have ht : MemCanonical t := h
          split
          · exact loopPass_canonical ht ..
          · split
            · exact canonical_of_mem h (packetFault_mem ..)
            · exact h
            · exact loopPass_canonical ht ..

theorem execPktColl_canonical (pr sem : Bool) (desc : BitVec 64) (name : BitVec 16) (add : BitVec 64) {s : State}
    (h : MemCanonical s) : KeepsCanonical (execPktColl pr sem desc name add s) := by
  refine keepsCanonical_next (packetGo_canonical h _ pr .l fun _ => ?_)
  extract_lets b q
  refine withSem_canonical h sem name ?_
  split
  · exact canonical_of_mem h (packetFault_mem ..)
  · split
    · exact h
    · split
      rename_i t v hr
      have ht : MemCanonical t := canonical_of_fst (regRead_canonical h ..) hr
      refine canonical_of_mem ht ?_
      extract_lets d x c
      repeat' split
      all_goals simp

theorem execCollectiveComplete_canonical (i : BitVec 16) {s : State} (h : MemCanonical s) :
    KeepsCanonical (execCollectiveComplete i s) := by
  refine keepsCanonical_next ?_
  extract_lets b
  split
  · exact h
  · extract_lets c t
    have ht : MemCanonical t := h
    split
    · refine canonical_of_mem ht ?_
      split
      · split <;> simp
      · exact collEnd_mem ..
    · split
      · exact collRead_canonical ht ..
      · split
        · exact ht
        · split
          · exact collWrite_canonical ht ..
          · exact collFinish_canonical ht ..

theorem execScrubChunkComplete_canonical {s : State} (h : MemCanonical s) :
    KeepsCanonical (execScrubChunkComplete s) := by
  refine keepsCanonical_next ?_
  extract_lets b t x
  split
  · exact h
  · split
    · exact h
    · extract_lets u v
      have hv : MemCanonical v := by
        show MemCanonical u
        unfold u
        split
        · exact zeroLines_canonical h ..
        · exact h
      split
      · exact canonical_of_mem hv (leaveScrub_mem ..)
      · exact hv

theorem execRekeyChunkComplete_canonical {s : State} (h : MemCanonical s) :
    KeepsCanonical (execRekeyChunkComplete s) := by
  refine keepsCanonical_next ?_
  extract_lets p x
  split
  · exact h
  · split
    · exact h
    · split
      · exact h
      · refine canonical_of_mem (s := ite _ s (rekeyLines s p _ _ _)) ?_ (modPart_mem ..)
        split
        · exact h
        · exact rekeyLines_canonical h ..

theorem ckWrites_mem (k n base : Nat) (rkey : W32) (w : QpWork) (bs : List Byte) (s : State) :
    (ckWrites k n base rkey w bs s).mem = s.mem := by
  unfold ckWrites
  refine foldl_mem ?_ _ _
  intro t i
  simp only [sendReq_mem]

theorem ckSendRecord_canonical {s : State} (h : MemCanonical s) (b : Nat) : MemCanonical (ckSendRecord s b) := by
  have ht : MemCanonical (ckTaken s b) := by
    rw [ckTaken]
    exact ckLines_canonical (canonical_of_mem h (ckMeetUe_mem ..)) _
  exact canonical_of_mem ht (by rw [ckSendRecord, ckRecDone_mem, ckWrites_mem])

theorem execCheckpointRecordSend_cases (s : State) :
    execCheckpointRecordSend s = .next s ∨ ∃ b, execCheckpointRecordSend s = .next (ckSendRecord s b) := by
  cases hb : (ckBhs s)[s.hub.ckRec / ckPerBh]? with
  | none =>
    refine .inl ?_
    unfold execCheckpointRecordSend
    generalize @List.foldl State Nat = loop
    generalize ckSealed = sealing
    generalize ckLines = lines
    refine congrArg Host.Outcome.next ?_
    extract_lets +onlyGivenNames h k
    rw [hb]
  | some b =>
    by_cases hgo : (!s.hub.ckBusy || s.hub.ckStop.isSome || decide ((qpOf s (qpKey psf s.hub.ckRun.qp)).st ≠ .rts) ||
      !txRoom s (if (bhOf s b).own then (bhOf s b).part else 16)
        (80000 + (if (bhOf s b).own then 0 else (s.port.txFree.map (fun f => f.len)).sum))) = true
    · refine .inl ?_
      unfold execCheckpointRecordSend
      generalize @List.foldl State Nat = loop
      generalize ckSealed = sealing
      generalize ckLines = lines
      refine congrArg Host.Outcome.next ?_
      extract_lets +onlyGivenNames h k
      rw [hb]
      exact if_pos hgo
    · rw [Bool.or_eq_true, Bool.or_eq_true, Bool.or_eq_true] at hgo
      push Not at hgo
      obtain ⟨⟨⟨hbusy, hstop⟩, hst⟩, hroom⟩ := hgo
      exact .inr ⟨b, execCheckpointRecordSend_of_room hb (by simpa using hbusy) (by simpa using hstop)
        (of_not_not fun hne => hst (decide_eq_true hne)) (by simpa using hroom)⟩

theorem execCheckpointRecordSend_canonical {s : State} (h : MemCanonical s) :
    KeepsCanonical (execCheckpointRecordSend s) := by
  obtain hs | ⟨b, hs⟩ := execCheckpointRecordSend_cases s
  · rw [hs]
    exact keepsCanonical_next h
  · rw [hs]
    exact keepsCanonical_next (ckSendRecord_canonical h b)

theorem execVerdictRead_canonical {s : State} (h : MemCanonical s) : KeepsCanonical (execVerdictRead s) := by
  refine keepsCanonical_next ?_
  extract_lets id
  split
  · exact h
  · extract_lets v t arrays resumable
    split
    · exact h
    · have ht : MemCanonical t := canonical_of_mem h (semPut_mem ..)
      split
      · exact canonical_of_mem ht (requeue_mem ..)
      · split
        · exact escalate_canonical ht ..
        · split
          · exact canonical_of_mem ht (foldl_mem (by intros; rfl) _ _)
          · exact failNode_canonical ht _

theorem execNodeDone_canonical {s : State} (h : MemCanonical s) : KeepsCanonical (execNodeDone s) := by
  refine keepsCanonical_next ?_
  extract_lets id clear t
  split
  · exact h
  · extract_lets nd u
    split
    · refine canonical_of_mem h ?_
      split
      · exact (semDone_mem ..).trans (by simp [setNode])
      · rfl
    · split
      · exact h
      · have hu : MemCanonical u := canonical_of_mem h (by simp [u, t, setNode])
        exact canonical_of_mem (writeStatus_canonical hu _ nd) ((dropCopies_mem ..).trans (semDone_mem ..))

end Sys2Proof.Machine

namespace Sys2Proof.Machine
open Sys2Proof

/-! ## Node images, schedule entries and RDMA -/

theorem execNodeSaveStart_canonical {s : State} (h : MemCanonical s) : KeepsCanonical (execNodeSaveStart s) := by
  refine keepsCanonical_next ?_
  extract_lets id ps
  split
  · exact h
  · extract_lets saved t
    split
    · exact h
    · have ht : MemCanonical t := h
      split
      rename_i u im hu
      refine canonical_of_mem (s := u) ?_ (foldl_mem (by intros; rfl) _ _)
      split at hu
      · exact canonical_of_fst (readImage_canonical ht ..) hu
      · cases hu
        exact ht

theorem foldl_bcpWrite_canonical {s : State} (h : MemCanonical s) (b : ℕ) (at_ : State → ℕ → ℕ) (bytes : State → ℕ → List Byte)
    (ps : List ℕ) : MemCanonical (ps.foldl (fun s p => bcpWrite s b (at_ s p) (bytes s p)) s) :=
  foldl_canonical (fun _ _ h => bcpWrite_canonical h ..) ps h

theorem execNodeSaveComplete_canonical {s : State} (h : MemCanonical s) :
    KeepsCanonical (execNodeSaveComplete s) := by
  refine keepsCanonical_next ?_
  extract_lets id ps waiting rest
  split
  · exact h
  · extract_lets t nd
    split
    · exact h
    · have ht : MemCanonical t := canonical_ite h (foldl_bcpWrite_canonical h ..)
      refine canonical_of_mem ht ((foldl_mem (by intros; exact giveBack_mem ..) _ _).trans ?_)
      exact foldl_mem (by intros; exact releaseOne_mem ..) _ t

theorem execNodeStart_canonical {s : State} (h : MemCanonical s) : KeepsCanonical (execNodeStart s) := by
  refine keepsCanonical_next ?_
  extract_lets id
  split
  · exact h
  · extract_lets todo
    split
    · exact h
    · split
      rename_i t im hi
      have ht : MemCanonical t := canonical_of_fst (readImage_canonical h ..) hi
      split
      · exact loadFailed_canonical ht ..
      · split
        rename_i u pr hp
        have hu : MemCanonical u := canonical_of_fst (bcpRead_canonical ht ..) hp
        split
        · exact loadFailed_canonical hu ..
        · refine canonical_of_mem (foldl_canonical (g := fun s l => stepAhead _ _ _) (fun v l hv => ?_) _ hu) (modNode_mem ..)
          exact canonical_of_mem (startState_canonical hv ..) (stepAhead_mem ..)

theorem execScheduleEntryRead_canonical {s : State} (h : MemCanonical s) :
    KeepsCanonical (execScheduleEntryRead s) := by
  refine keepsCanonical_next ?_
  extract_lets p x look
  split
  · exact h
  · split <;> rename_i he <;> have ht := canonical_of_fst (entryBytes_canonical h p) he
    · exact canonical_of_mem ht (entrySkip_mem ..)
    · extract_lets tick wcb
      split
      · exact h
      · split
        · exact canonical_of_mem ht (entrySkip_mem ..)
        · split
          · refine canonical_of_mem ht ((entryDone_mem ..).trans ?_)
            split
            · split <;> rfl
            · rfl
          · split
            · exact h
            · exact h
            · rename_i hl
              exact canonical_of_mem (canonical_of_fst (launch_canonical ht ..) hl) (entrySkip_mem ..)
            · rename_i hl
              exact canonical_of_mem (canonical_of_fst (launch_canonical ht ..) hl) (entryDone_mem ..)

theorem execRegisterWrite_canonical (off v : BitVec 32) {s : State} (h : MemCanonical s) :
    KeepsCanonical (execRegisterWrite off v s) := by
  refine keepsCanonical_next ?_
  split
  · exact writeReg_canonical h ..
  · exact h

theorem execRoceRdmaWrite_canonical {s : State} (h : MemCanonical s) : KeepsCanonical (execRoceRdmaWrite s) := by
  refine keepsCanonical_next (withRx_canonical h _ fun t k p u e ht => ?_)
  refine e ▸ inTurn_canonical ht k p 1 (fun _ hv => canonical_of_mem hv (answer_mem ..)) fun v hv => ?_
  extract_lets n m
  refine canonical_ite (canonical_of_mem hv (answer_mem ..)) (canonical_ite (canonical_of_mem hv (answer_mem ..)) ?_)
  split
  rename_i w ok hw
  have hw : MemCanonical w := canonical_of_fst (landWrite_canonical hv ..) hw
  exact canonical_ite (canonical_of_mem hw (answer_mem ..)) (canonical_of_mem hw (answer_mem ..))

theorem readTaken_canonical {s : State} (h : MemCanonical s) (k : ℕ) (p : RocePkt) (n m : ℕ) :
    MemCanonical (readTaken s k p n m) := by
  refine canonical_ite (canonical_of_mem h (answer_mem ..)) ?_
  split
  · refine canonical_ite (canonical_of_mem h (answer_mem ..)) ?_
    exact canonical_of_mem h (foldl_mem (fun _ _ => readPkt_mem ..) _ _)
  · split
    · exact canonical_of_mem h (answer_mem ..)
    · exact readResponses_canonical h ..

theorem execRoceRdmaRead_canonical {s : State} (h : MemCanonical s) : KeepsCanonical (execRoceRdmaRead s) := by
  rw [execRoceRdmaRead_eq]
  refine keepsCanonical_next (withRx_canonical h _ fun t k p u e ht => ?_)
  subst e
  exact inTurn_canonical ht k p _ (fun v hv => readTaken_canonical hv ..)
    fun v hv => readTaken_canonical (canonical_of_mem hv (modQp_mem ..)) ..

end Sys2Proof.Machine

namespace Sys2Proof.Machine
open Sys2Proof

/-! ## Links, queues and packets -/

theorem execRoceResponseReceive_mem (s : State) : KeepsMem s (execRoceResponseReceive s) := by
  refine keepsMem_next (withRx_mem _ fun t k p u e => ?_)
  subst e
  split
  · simp
  · extract_lets v
    have hv : v.mem = t.mem := ackDrop_mem ..
    split
    · exact (resendFrom_mem ..).trans hv
    · split
      · split
        · exact (ackDrop_mem ..).trans ((failWork_mem ..).trans hv)
        · exact hv
      · exact hv
  · extract_lets v
    have hv : v.mem = t.mem := ackDrop_mem ..
    split
    · split
      · exact (ackDrop_mem ..).trans ((replyFetch_mem ..).trans hv)
      · exact hv
    · exact hv
  · rfl

theorem execCnpRateIncrease_mem (s : State) : KeepsMem s (execCnpRateIncrease s) := by
  refine keepsMem_next ?_
  extract_lets k q
  split
  · split
    · exact modQp_mem ..
    · rfl
  · rfl

theorem execManagementFlitReceive_mem (s : State) : KeepsMem s (execManagementFlitReceive s) :=
  keepsMem_next (sequenced_mem 5 fun _ _ => rfl)

theorem execLinkAckTimeout_mem (s : State) : KeepsMem s (execLinkAckTimeout s) := by
  refine keepsMem_next ?_
  extract_lets x
  split
  · exact linkDown_mem ..
  · rfl

theorem execReservedPacketOpcode_mem (pr : Bool) (op : BitVec 8) (s : State) :
    KeepsMem s (execReservedPacketOpcode pr op s) := keepsMem_next (packetFault_mem ..)

theorem execQueueWaitSatisfied_mem (s : State) : KeepsMem s (execQueueWaitSatisfied s) := by
  refine keepsMem_next ?_
  extract_lets b q x
  split
  · rfl
  · split
    · exact modQueue_mem ..
    · rfl

theorem execNotificationSend_mem (s : State) : KeepsMem s (execNotificationSend s) := by
  refine keepsMem_next ?_
  extract_lets f
  split
  · rfl
  · extract_lets k
    split
    · exact (sendReq_mem ..).trans (lateNotif_mem ..)
    · rfl

theorem execPktIb_mem (pr host : Bool) (addr : BitVec 64) (bytes rkey : BitVec 32) (s : State) :
    KeepsMem s (execPktIb pr host addr bytes rkey s) := by
  refine keepsMem_next (packetGo_mem 5 pr .all fun _ => ?_)
  split
  · exact packetFault_mem ..
  · exact (modQueue_mem ..).trans (packetDone_mem ..)

theorem execPktSemsigAdd_mem (pr w : Bool) (name : BitVec 16) (v : BitVec 64) (s : State) :
    KeepsMem s (execPktSemsigAdd pr w name v s) :=
  keepsMem_next (packetGo_mem 4 pr .all fun _ => withName_mem name (waitQuiet_mem w
    ((packetDone_mem ..).trans (semSend_mem ..))))

theorem execPktSemsigSet_mem (pr w : Bool) (name : BitVec 16) (v : BitVec 64) (s : State) :
    KeepsMem s (execPktSemsigSet pr w name v s) :=
  keepsMem_next (packetGo_mem 4 pr .all fun _ => withName_mem name (waitQuiet_mem w
    ((packetDone_mem ..).trans (semSend_mem ..))))

theorem execPktNotify_mem (pr w : Bool) (qp : BitVec 4) (cookie : BitVec 64) (s : State) :
    KeepsMem s (execPktNotify pr w qp cookie s) := by
  refine keepsMem_next (packetGo_mem 4 pr .all fun _ => waitQuiet_mem w ?_)
  extract_lets b q x
  split
  · exact queueWait_mem ..
  · exact (packetDone_mem ..).trans (pushNotif_mem ..)

theorem execXferPacketComplete_mem (s : State) : KeepsMem s (execXferPacketComplete s) := by
  refine keepsMem_next ?_
  extract_lets b q x
  split
  · split
    · exact (packetDone_mem ..).trans ((modQueue_mem ..).trans (xferSettle_mem ..))
    · rfl
  · rfl

theorem execPreemptionRequest_mem (s : State) : KeepsMem s (execPreemptionRequest s) := by
  refine keepsMem_next ?_
  extract_lets p a
  repeat' split
  all_goals rfl

theorem execRegionWalkComplete_mem (s : State) : KeepsMem s (execRegionWalkComplete s) := by
  refine keepsMem_next ?_
  extract_lets p a
  repeat' split
  all_goals rfl

theorem execResetSequenceComplete_mem (s : State) : KeepsMem s (execResetSequenceComplete s) := by
  refine keepsMem_next ?_
  extract_lets p bs t
  split
  · rfl
  · exact (modPart_mem ..).trans (foldl_mem (fun _ _ => (startScrub_mem ..).trans (zeroTree_mem ..)) _ _)

theorem execSLd_mem (size : MemSize) (zx : Bool) (d a : BitVec 5) (off : BitVec 32) (s : State) :
    KeepsMem s (execSLd size zx d a off s) := by
  refine keepsMem_next (withRegsS_mem .s _ (withAccess_mem .s 1 _ _ _ fun _ _ _ => ?_))
  extract_lets x
  split
  split
  · rfl
  · exact (sendRead_mem ..).trans rfl

theorem execSStSc_mem (w64 : Bool) (b a : BitVec 5) (s : State) : KeepsMem s (execSStSc w64 b a s) := by
  refine keepsMem_next ?_
  split
  · exact scOp_mem ..
  · exact (unreplayHere_mem ..).trans (scOp_mem ..)

theorem execSAmoAdd_mem (w64 : Bool) (d b a : BitVec 5) (s : State) : KeepsMem s (execSAmoAdd w64 d b a s) :=
  keepsMem_next (scOp_mem ..)
theorem execSAmoOr_mem (w64 : Bool) (d b a : BitVec 5) (s : State) : KeepsMem s (execSAmoOr w64 d b a s) :=
  keepsMem_next (scOp_mem ..)
theorem execSAmoSwap_mem (w64 : Bool) (d b a : BitVec 5) (s : State) : KeepsMem s (execSAmoSwap w64 d b a s) :=
  keepsMem_next (scOp_mem ..)
theorem execSRel_mem (region : BitVec 14) (s : State) : KeepsMem s (execSRel region s) :=
  keepsMem_next (withOwned_mem _ fun _ _ => unreplayHere_mem ..)

theorem execPktLaunch_canonical (pr sem : Bool) (wcb : BitVec 64) (name : BitVec 16) (add : BitVec 64) {s : State}
    (h : MemCanonical s) : KeepsCanonical (execPktLaunch pr sem wcb name add s) :=
  keepsCanonical_next (packetGo_canonical h _ pr .c fun _ => launchPacket_canonical h ..)

theorem execPktTlaunch_canonical (pr sem : Bool) (wcb tick : BitVec 64) (name : BitVec 16) (add : BitVec 64) {s : State}
    (h : MemCanonical s) : KeepsCanonical (execPktTlaunch pr sem wcb tick name add s) :=
  keepsCanonical_next (packetGo_canonical h _ pr .c fun _ => launchPacket_canonical h ..)

theorem execPktMpass_canonical (pr sem : Bool) (wcb desc : BitVec 64) (name : BitVec 16) (add : BitVec 64) {s : State}
    (h : MemCanonical s) : KeepsCanonical (execPktMpass pr sem wcb desc name add s) :=
  keepsCanonical_next (packetGo_canonical h _ pr .c fun _ => launchPacket_canonical h ..)

end Sys2Proof.Machine

namespace Sys2Proof.Machine
open Sys2Proof

/-! ## Every instruction -/

/-- Every instruction keeps device memory canonical. -/
theorem exec_canonical {s : State} (h : MemCanonical s) (i : Instr) : KeepsCanonical (exec i s) := by
  cases i with
  | bhctlPwrSet => exact (execBhctlPwrSet_mem s).canonical h
  | powerupSelfTestDone => exact (execPowerupSelfTestDone_mem s _).canonical h
  | scrubChunkComplete => exact execScrubChunkComplete_canonical h
  | partitionCreate => exact (execPartitionCreate_mem s _).canonical h
  | partitionReset => exact (execPartitionReset_mem s).canonical h
  | partitionDissolve => exact (execPartitionDissolve_mem s).canonical h
  | generationAcknowledge => exact (execGenerationAcknowledge_mem s).canonical h
  | bcpEscalationReset => exact (execBcpEscalationReset_mem s).canonical h
  | resetSequenceComplete => exact (execResetSequenceComplete_mem s).canonical h
  | resetSequenceTimeout => exact (execResetSequenceTimeout_mem s).canonical h
  | wincfgWrite => exact (execWincfgWrite_mem s _ _).canonical h
  | powerLimitCycleRemoval => exact (execPowerLimitCycleRemoval_mem s).canonical h
  | bringUp => exact (execBringUp_mem s).canonical h
  | attestationReportRequest => exact (execAttestationReportRequest_mem s _ _).canonical h
  | portFrameReceive => exact (execPortFrameReceive_mem s).canonical h
  | portcfgModeChange => exact (execPortcfgModeChange_mem s _).canonical h
  | portcfgEnClear => exact (execPortcfgEnClear_mem s).canonical h
  | portUp => exact (execPortUp_mem s).canonical h
  | roceSendReceive => exact (execRoceSendReceive_mem s).canonical h
  | roceRdmaWrite => exact execRoceRdmaWrite_canonical h
  | roceRdmaRead => exact execRoceRdmaRead_canonical h
  | roceAtomicRequest => exact (execRoceAtomicRequest_mem s).canonical h
  | roceResponseReceive => exact (execRoceResponseReceive_mem s).canonical h
  | qpRetryTimeout => exact (execQpRetryTimeout_mem s).canonical h
  | cnpReceive => exact (execCnpReceive_mem s).canonical h
  | cnpRateIncrease => exact (execCnpRateIncrease_mem s).canonical h
  | vfmapWrite => exact (execVfmapWrite_mem s _ _).canonical h
  | fnaddrWrite => exact (execFnaddrWrite_mem s _ _ _).canonical h
  | qpConnect => exact (execQpConnect_mem s).canonical h
  | qpReset => exact (execQpReset_mem s).canonical h
  | portpartWrite => exact (execPortpartWrite_mem s _).canonical h
  | pfcFrameReceive => exact (execPfcFrameReceive_mem s _ _).canonical h
  | transmitArbitrationRound => exact (execTransmitArbitrationRound_mem s).canonical h
  | ptpMessageReceive => exact (execPtpMessageReceive_mem s _).canonical h
  | timestepWrite => exact (execTimestepWrite_mem s _).canonical h
  | linkTrain => exact (execLinkTrain_mem s).canonical h
  | linkDisable => exact (execLinkDisable_mem s).canonical h
  | linkTrainingComplete => exact (execLinkTrainingComplete_mem s _ _).canonical h
  | linkTrainingTimeout => exact (execLinkTrainingTimeout_mem s).canonical h
  | streamDataFlitReceive => exact (execStreamDataFlitReceive_mem s).canonical h
  | collectiveDataFlitReceive => exact (execCollectiveDataFlitReceive_mem s).canonical h
  | collectiveControlFlitReceive => exact (execCollectiveControlFlitReceive_mem s).canonical h
  | managementFlitReceive => exact (execManagementFlitReceive_mem s).canonical h
  | idleFlitReceive => exact (execIdleFlitReceive_mem s).canonical h
  | retryRequestFlitReceive => exact (execRetryRequestFlitReceive_mem s).canonical h
  | linkAckTimeout => exact (execLinkAckTimeout_mem s).canonical h
  | linkRxSilenceTimeout => exact (execLinkRxSilenceTimeout_mem s).canonical h
  | routerArbitrationRound => exact (execRouterArbitrationRound_mem s).canonical h
  | stackReplyReceive => exact execStackReplyReceive_canonical h
  | l2Read => exact execL2Read_canonical h
  | l2Write => exact execL2Write_canonical h
  | windowRequest => exact (execWindowRequest_mem s).canonical h
  | keyLoad => exact (execKeyLoad_mem s _).canonical h
  | keyRevoke => exact (execKeyRevoke_mem s _).canonical h
  | revocationApplied => exact (execRevocationApplied_mem s _).canonical h
  | rekeyStart => exact (execRekeyStart_mem s _ _).canonical h
  | rekeyChunk => exact (execRekeyChunk_mem s _).canonical h
  | rekeyChunkComplete => exact execRekeyChunkComplete_canonical h
  | rekeyComplete => exact (execRekeyComplete_mem s).canonical h
  | granuleAssign => exact (execGranuleAssign_mem s _ _).canonical h
  | granuleFree => exact (execGranuleFree_mem s _).canonical h
  | errorRecordDeliver => exact (execErrorRecordDeliver_mem s).canonical h
  | checkpointStart => exact (execCheckpointStart_mem s).canonical h
  | checkpointAbort => exact (execCheckpointAbort_mem s).canonical h
  | checkpointRecordSend => exact execCheckpointRecordSend_canonical h
  | checkpointEnd => exact (execCheckpointEnd_mem s).canonical h
  | qmapHalt => exact (execQmapHalt_mem s).canonical h
  | streamFetchComplete => exact execStreamFetchComplete_canonical h
  | queueWaitSatisfied => exact (execQueueWaitSatisfied_mem s).canonical h
  | notificationSend => exact (execNotificationSend_mem s).canonical h
  | pktNop => exact (execPktNop_mem s _ _).canonical h
  | pktWrite => exact execPktWrite_canonical _ _ _ h
  | pktCopy => exact (execPktCopy_mem s _ _ _ _ _ _ _ _ _ _ _).canonical h
  | pktLaunch => exact execPktLaunch_canonical _ _ _ _ _ h
  | pktTlaunch => exact execPktTlaunch_canonical _ _ _ _ _ _ h
  | pktIb => exact (execPktIb_mem _ _ _ _ _ s).canonical h
  | pktPred => exact execPktPred_canonical _ _ _ _ _ _ h
  | pktPend => exact (execPktPend_mem s _).canonical h
  | pktLoop => exact execPktLoop_canonical _ _ _ _ h
  | pktSemsigAdd => exact (execPktSemsigAdd_mem _ _ _ _ s).canonical h
  | pktSemsigSet => exact (execPktSemsigSet_mem _ _ _ _ s).canonical h
  | pktSemwait => exact (execPktSemwait_mem s _ _ _).canonical h
  | pktFfence => exact (execPktFfence_mem s _).canonical h
  | pktNotify => exact (execPktNotify_mem _ _ _ _ s).canonical h
  | pktStamp => exact execPktStamp_canonical _ _ _ h
  | pktXfer => exact (execPktXfer_mem s _ _ _ _).canonical h
  | xferPacketComplete => exact (execXferPacketComplete_mem s).canonical h
  | pktColl => exact execPktColl_canonical _ _ _ _ _ h
  | pktMpass => exact execPktMpass_canonical _ _ _ _ _ _ h
  | pktQuiesce => exact (execPktQuiesce_mem s _).canonical h
  | pktHalt => exact (execPktHalt_mem s _ _).canonical h
  | copyLineWrite => exact execCopyLineWrite_canonical _ h
  | copyComplete => exact (execCopyComplete_mem s _).canonical h
  | collectiveComplete => exact execCollectiveComplete_canonical _ h
  | semaphoreRemoteArrival => exact (execSemaphoreRemoteArrival_mem s).canonical h
  | nodePlacement => exact (execNodePlacement_mem s).canonical h
  | nodeStart => exact execNodeStart_canonical h
  | scheduleEntryRead => exact execScheduleEntryRead_canonical h
  | startTickReached => exact (execStartTickReached_mem s).canonical h
  | arrayTickStart => exact (execArrayTickStart_mem s).canonical h
  | budgetRefill => exact (execBudgetRefill_mem s).canonical h
  | quantumExpiry => exact (execQuantumExpiry_mem s).canonical h
  | preemptionRequest => exact (execPreemptionRequest_mem s).canonical h
  | switchableBoundaryReached => exact (execSwitchableBoundaryReached_mem s).canonical h
  | nodeSaveStart => exact execNodeSaveStart_canonical h
  | nodeSaveComplete => exact execNodeSaveComplete_canonical h
  | requeueComplete => exact (execRequeueComplete_mem s).canonical h
  | verdictRead => exact execVerdictRead_canonical h
  | nodeDone => exact execNodeDone_canonical h
  | haltComplete => exact (execHaltComplete_mem s).canonical h
  | landingLineArrival => exact (execLandingLineArrival_mem s).canonical h
  | landingWrite => exact (execLandingWrite_mem s).canonical h
  | semaphoreWaitSatisfied => exact (execSemaphoreWaitSatisfied_mem s).canonical h
  | egressLineDrain => exact (execEgressLineDrain_mem s).canonical h
  | regionWalkComplete => exact (execRegionWalkComplete_mem s).canonical h
  | scOperationPerform => exact execScOperationPerform_canonical h
  | regionDescriptorWrite => exact (execRegionDescriptorWrite_mem s _).canonical h
  | regionDescriptorClear => exact execRegionDescriptorClear_canonical _ h
  | regionDescriptorConvert => exact (execRegionDescriptorConvert_mem s _).canonical h
  | registerWrite => exact execRegisterWrite_canonical _ _ h
  | sLd => exact (execSLd_mem _ _ _ _ _ s).canonical h
  | sSt => exact (execSSt_mem s _ _ _ _).canonical h
  | sLdSc => exact (execSLdSc_mem s _ _ _).canonical h
  | sStSc => exact (execSStSc_mem _ _ _ s).canonical h
  | sAmoAdd => exact (execSAmoAdd_mem _ _ _ _ s).canonical h
  | sAmoMin => exact (execSAmoMin_mem s _ _ _ _ _).canonical h
  | sAmoMax => exact (execSAmoMax_mem s _ _ _ _ _).canonical h
  | sAmoAnd => exact (execSAmoAnd_mem s _ _ _ _).canonical h
  | sAmoOr => exact (execSAmoOr_mem _ _ _ _ s).canonical h
  | sAmoSwap => exact (execSAmoSwap_mem _ _ _ _ s).canonical h
  | sAmoCas => exact (execSAmoCas_mem s _ _ _ _ _).canonical h
  | sStA => exact (execSStA_mem s _ _).canonical h
  | sXfer => exact (execSXfer_mem s _ _).canonical h
  | sRel => exact (execSRel_mem _ s).canonical h
  | sSemAdd => exact (execSSemAdd_mem s _ _).canonical h
  | sSemSet => exact (execSSemSet_mem s _ _).canonical h
  | sSemWait => exact (execSSemWait_mem s _ _).canonical h
  | sSemRd => exact (execSSemRd_mem s _ _).canonical h
  | sLsend => exact (execSLsend_mem s _ _ _).canonical h
  | sLrecv => exact (execSLrecv_mem s _ _ _).canonical h
  | sSysr => exact (execSSysr_mem s _ _).canonical h
  | sSysw => exact (execSSysw_mem s _ _).canonical h
  | sMpass => exact execSMpass_canonical _ h
  | sCollGo => exact execSCollGo_canonical _ _ h
  | aLand => exact (execALand_mem s _ _ _ _ _).canonical h
  | aPfc => exact (execAPfc_mem s _ _ _).canonical h
  | flitCrcFailure => exact (execFlitCrcFailure_mem s).canonical h
  | pfcPauseExpiry => exact (execPfcPauseExpiry_mem s _).canonical h
  | reservedPacketOpcode pr op => exact (execReservedPacketOpcode_mem pr op s).canonical h
  | rd64 => exact stackEvent_canonical _ h
  | wr64 => exact stackEvent_canonical _ h
  | rmw => exact stackEvent_canonical _ h
  | packageTrip => exact keepsCanonical_next (powerDown_canonical s)
  | inputPowerLoss => exact keepsCanonical_next (powerDown_canonical s)
  | _ => exact (keepsMem_next rfl).canonical h

end Sys2Proof.Machine

namespace Sys2Proof.Machine
open Sys2Proof

/-! ## Array clocks, turns and steps -/

/-! What a row, a bundle and an array clock do to device memory. -/
section
variable {s : State} (h : MemCanonical s)
include h
theorem modArr_canonical (p : ℕ) (f : ArrayS → ArrayS) : MemCanonical (modArr s p f) :=
  canonical_of_mem h (modArr_mem ..)
theorem setArr_canonical (p : ℕ) (a : ArrayS) : MemCanonical (setArr s p a) := h

theorem foldl_modArr_canonical (f : State → ℕ → ArrayS → ArrayS) (ps : List ℕ) :
    MemCanonical (ps.foldl (fun s p => modArr s p (f s p)) s) :=
  foldl_canonical (fun _ _ ht => modArr_canonical ht ..) ps h

theorem perform_canonical (i : Instr) : MemCanonical (perform i s) := by
  unfold perform
  split
  · rename_i t ht
    exact exec_canonical h i t ht
  · exact h
  · exact h

theorem performAt_canonical (i : Instr) (p r : ℕ) : MemCanonical (performAt i p r s) :=
  perform_canonical (s := { s with cur := { s.cur with phys := p, row := r } }) h i

theorem runRows_canonical (p : ℕ) : MemCanonical (runRows s p) :=
  foldl_canonical (fun t i ht => by
    dsimp only
    split
    · exact performAt_canonical ht ..
    · exact ht) _ h

theorem runChain_canonical (ms : List ℕ) : MemCanonical (runChain s ms) :=
  foldl_canonical (fun _ p ht => modArr_canonical (runRows_canonical (setArr_canonical ht p _) p) p _) _ h
theorem enterC_canonical (p : ℕ) (z : SlotBits) (i : Instr) : MemCanonical (enterC s p z i) :=
  canonical_of_mem h (enterC_mem ..)

theorem runSlots_canonical (p : ℕ) (z : SlotBits) (want : BitVec 10) (lead : Option Instr) (first : Bool) :
    MemCanonical (runSlots s p z want lead first) := by
  unfold runSlots
  extract_lets t u
  have ht : MemCanonical t := by
    refine canonical_ite h ?_
    split
    · exact canonical_of_mem h (sampleC_mem ..)
    · split
      · exact performAt_canonical (canonical_ite (enterC_canonical h ..) h) ..
      · exact enterC_canonical h ..
  have hu : MemCanonical u := foldl_canonical (fun _ _ hv => canonical_ite (performAt_canonical hv ..) hv) _ ht
  exact canonical_ite (modArr_canonical hu ..) hu

theorem timedWrites_canonical (p : ℕ) : MemCanonical (timedWrites s p) :=
  modArr_canonical (performAt_canonical h ..) ..

theorem issueOne_canonical (p : ℕ) (lead : Option Instr) : MemCanonical (issueOne s p lead) := by
  unfold issueOne
  extract_lets +onlyGivenNames t a
  have ht : MemCanonical t := mpePre_canonical h p
  refine canonical_ite ht ?_
  extract_lets +onlyGivenNames f z b pc inStep u
  have hu : MemCanonical u := ht
  refine canonical_ite (modArr_canonical (performAt_canonical hu ..) ..) ?_
  extract_lets +onlyGivenNames c
  split
  · exact modArr_canonical hu ..
  · exact modArr_canonical (timedWrites_canonical (runSlots_canonical hu ..) _) ..

theorem tellNode_canonical (ms trapped : List ℕ) : MemCanonical (tellNode s ms trapped) := by
  unfold tellNode
  split
  · exact nodeTrapped_canonical h ..
  · exact h

theorem settleTraps_canonical (ms : List ℕ) (pcs : List (ℕ × ℕ × ℕ)) : MemCanonical (settleTraps s ms pcs) :=
  canonical_ite (tellNode_canonical (foldl_modArr_canonical h _ ms) ..) h

theorem replaySlots_canonical (p : ℕ) (z : SlotBits) (want : BitVec 10) (lead : Option Instr) (i : InputS) (first : Bool) :
    MemCanonical (replaySlots s p z want lead i first) :=
  modArr_canonical (runSlots_canonical (modArr_canonical h ..) ..) ..

theorem replayOne_canonical (p : ℕ) (lead : Option Instr) : MemCanonical (replayOne s p lead) := by
  unfold replayOne
  extract_lets +onlyGivenNames a
  split
  · exact h
  · extract_lets +onlyGivenNames z pc tt whole t u b f c q v again
    have hu : MemCanonical u := foldl_canonical (fun _ _ ht => performAt_canonical ht ..) _ (setArr_canonical h _ _)
    have hv : MemCanonical v := by
      refine canonical_ite (replaySlots_canonical hu ..) (canonical_ite (performAt_canonical hu ..) ?_)
      split
      · exact hu
      · exact modArr_canonical (timedWrites_canonical (replaySlots_canonical hu ..) _) ..
    exact canonical_ite hv hv

theorem replayChain_canonical (ms : List ℕ) : MemCanonical (replayChain s ms) := by
  unfold replayChain
  extract_lets +onlyGivenNames t trapped
  have ht : MemCanonical t :=
    foldl_canonical (fun _ p hu => replayOne_canonical (setArr_canonical hu p _) ..) ms h
  exact canonical_ite (tellNode_canonical (foldl_modArr_canonical ht _ ms) ..) (foldl_modArr_canonical ht _ ms)

theorem everyAc_canonical (p : ℕ) : MemCanonical (everyAc s p) :=
  modArr_canonical (performAt_canonical (canonical_of_mem h (sramTake_mem ..)) ..) ..

theorem issueFollowers_canonical (ms : List ℕ) (dues : List (ℕ × Due)) : MemCanonical (issueFollowers s ms dues) :=
  foldl_canonical (fun _ _ ht => by
    dsimp only
    split
    · exact issueOne_canonical ht ..
    · exact ht) _ h

theorem movePipes_canonical (ms : List ℕ) : MemCanonical (movePipes s ms) :=
  runChain_canonical (canonical_of_mem h ((shiftChain_mem ..).trans (noFaults_mem ..))) ms

theorem runAc_canonical (p : ℕ) (ms : List ℕ) (dues : List (ℕ × Due)) : MemCanonical (runAc s p ms dues) := by
  unfold runAc
  extract_lets +onlyGivenNames pcs t u v
  have ht : MemCanonical t := canonical_ite
    (foldl_modArr_canonical (canonical_of_mem h (noFaults_mem ..)) _ ms) (movePipes_canonical h ms)
  have hu : MemCanonical u := canonical_ite ht (canonical_of_mem ht (noteLead_mem ..))
  exact settleTraps_canonical (issueOne_canonical (issueFollowers_canonical hu ..) ..) ..

theorem haltAc_canonical (p : ℕ) (ms : List ℕ) (dues : List (ℕ × Due)) : MemCanonical (haltAc s p ms dues) := by
  unfold haltAc
  extract_lets +onlyGivenNames pcs t u v w
  have hw : MemCanonical w := settleTraps_canonical
    (modArr_canonical (issueFollowers_canonical (movePipes_canonical h ms) ..) ..) ..
  refine canonical_ite ?_ hw
  have hx := foldl_modArr_canonical (performAt_canonical hw .haltComplete p 0)
    (fun _ _ a => { a with cond := (arrOf (performAt .haltComplete p 0 w) p).cond }) ms
  exact canonical_ite (tellNode_canonical hx ..) hx

theorem asyncAc_canonical (ms : List ℕ) : MemCanonical (asyncAc s ms) :=
  tellNode_canonical (foldl_modArr_canonical (foldl_canonical (fun _ _ ht => performAt_canonical ht ..) _ h) _ ms) ..

theorem freezeAll_canonical (dues : List (ℕ × Due)) (b : Bool) : MemCanonical (dues.foldl (fun (x : State × Bool) d =>
    let (s, b) := freezeStep x.1 d.1 d.2
    (s, x.2 || b)) (s, b)).1 :=
  foldl_fst_canonical (fun x d ht => freezeStep_canonical (s := x.1) ht d.1 d.2) dues h

theorem liveAc_canonical (p : ℕ) (ms : List ℕ) (dues : List (ℕ × Due)) : MemCanonical (liveAc s p ms dues) := by
  unfold liveAc
  split
  rename_i t frozen ht
  replace ht : MemCanonical t := canonical_of_fst (freezeAll_canonical h dues false) ht
  have hf : MemCanonical (frozenAc t ms) := canonical_of_mem ht (frozenAc_mem ..)
  refine canonical_ite hf (canonical_ite (haltAc_canonical ht ..) ?_)
  have hr := runAc_canonical ht p ms dues
  exact canonical_ite (canonical_ite hf (performAt_canonical hr ..)) hr

theorem boundaryAc_canonical (p : ℕ) (ms : List ℕ) : MemCanonical (boundaryAc s p ms) := by
  unfold boundaryAc
  extract_lets +onlyGivenNames first t
  have ht : MemCanonical t := foldl_modArr_canonical h _ ms
  exact canonical_ite (settleTraps_canonical (movePipes_canonical ht ms) ..) ht

theorem foldl_everyAc_canonical (ms : List ℕ) : MemCanonical (ms.foldl everyAc s) :=
  foldl_canonical (fun _ _ ht => everyAc_canonical ht _) ms h
theorem foldl_countAc_canonical (ms : List ℕ) : MemCanonical (ms.foldl countAc s) :=
  canonical_of_mem h (foldl_mem countAc_mem ms s)

theorem domainAc_canonical (p : ℕ) : MemCanonical (domainAc s p) := by
  unfold domainAc
  extract_lets +onlyGivenNames ms a
  have he : MemCanonical (ms.foldl everyAc s) := foldl_everyAc_canonical h ms
  refine canonical_ite (foldl_countAc_canonical he ms)
    (canonical_ite (foldl_countAc_canonical (boundaryAc_canonical he ..) ms) (canonical_ite h ?_))
  refine foldl_countAc_canonical (canonical_ite (replayChain_canonical he ms) ?_) ms
  split
  rename_i t dues ht
  replace ht : MemCanonical t := canonical_of_fst (canonical_of_mem he (alignChain_mem ..)) ht
  exact canonical_ite (asyncAc_canonical ht ms) (liveAc_canonical ht ..)

theorem sendCheckpoint_canonical : MemCanonical (sendCheckpoint s) := by
  have hline : ∀ {t : State} (l : ℕ), MemCanonical t → MemCanonical (ckLine t l).1 := fun l ht => ckLine_canonical ht l
  unfold sendCheckpoint
  -- the lines of a record are not to be listed or read here
  generalize List.range 1024 = lines
  generalize ckLine = line at hline ⊢
  extract_lets +onlyGivenNames x
  split
  · exact h
  · extract_lets +onlyGivenNames l
    have hx : MemCanonical (ckMeetUe { s with hub := { x with ckSent := true } } l) :=
      canonical_of_mem (canonical_setHub h _) (ckMeetUe_mem ..)
    refine canonical_ite h (foldl_canonical (fun t i ht => ?_) lines hx)
    split
    rename_i u v hu
    exact canonical_of_mem (canonical_of_fst (hline _ ht) hu) (netSend_mem ..)

theorem sendEngines_canonical : MemCanonical (sendEngines s) := by
  unfold sendEngines
  extract_lets +onlyGivenNames t u
  have ht : MemCanonical t := canonical_of_mem h (foldl_mem (fun v p => by
    split
    · exact (sendSc_mem ..).trans (sendChannels_mem ..)
    · rfl) _ s)
  have hu : MemCanonical u := canonical_of_mem ht (foldl_mem (fun v b => by
    split
    · exact (sendColls_mem ..).trans (foldl_mem (fun _ _ => sendCopies_mem ..) _ v)
    · rfl) _ t)
  exact canonical_ite (sendCheckpoint_canonical (canonical_of_mem hu (foldl_mem sendScrub_mem _ u))) hu

theorem tick_canonical : MemCanonical (tick s) := by
  have ht : MemCanonical (sendEngines (clockTick s)) := sendEngines_canonical (canonical_of_mem h (clockTick_mem s))
  unfold tick
  generalize sendEngines (clockTick s) = t at ht ⊢
  exact ht

theorem queueTurn_canonical (b q : ℕ) : KeepsCanonical (queueTurn s b q) := by
  unfold queueTurn
  split
  rename_i t todo ht
  replace ht : MemCanonical t := canonical_of_fst (queueReady_canonical h b q) ht
  extract_lets +onlyGivenNames place u
  have hu : MemCanonical u := ht
  split
  · exact keepsCanonical_next hu
  · exact keepsCanonical_next (canonical_of_mem hu (queueFault_mem ..))
  · exact keepsCanonical_next (canonical_of_mem hu (packetDone_mem ..))
  · exact exec_canonical hu _

theorem semTurn_canonical (b : ℕ) : MemCanonical (semTurn s b) :=
  canonical_of_mem h (foldl_mem (fun t i => by
    split
    · rfl
    · exact semDue_mem ..) _ s)

theorem runTurn_canonical (t : Turn) : KeepsCanonical (runTurn s t) := by
  cases t with
  | event i place => exact exec_canonical (s := { s with cur := place }) h i
  | queue b q => exact queueTurn_canonical h b q
  | sems b => exact keepsCanonical_next (semTurn_canonical h b)
  | array p => exact keepsCanonical_next (domainAc_canonical h p)
  | tick => exact keepsCanonical_next (tick_canonical h)

theorem step_canonical : KeepsCanonical (step s) := by
  unfold step
  split
  · exact keepsCanonical_next (tick_canonical h)
  · rename_i t rest _
    exact runTurn_canonical (s := { s with agenda := rest }) h t

end

/-- Settles O34: each instruction, and so each turn, either leaves device memory or writes it by `putLine`, `zeroLines` or
`rekeyLines`, which keep the canonical form. -/
theorem stepKeepsMemoryCanonical : Obligations.StepKeepsMemoryCanonical :=
  fun _ t h e => step_canonical h t e

/-- Settles O33: device memory lists nothing right after reset. -/
theorem memoryCanonicalAtReset : Obligations.MemoryCanonicalAtReset := ⟨reset_mem_wf, fun _ => rfl⟩

end Sys2Proof.Machine

namespace Sys2Proof.Machine
open Sys2Proof

/-! ## Reserved encodings -/

/-- A fault of a queue whose notifications have room: one notification goes out, and the queue's work is dropped. -/
theorem queueFault_of_room {s : State} {b q : ℕ} (cause : ℕ) (h : notifFull s (queueOf s b q).vf = false) :
    ∃ n, queueFault s b q cause = modQueue (pushNotif s (queueOf s b q).vf n) b q (fun x => dropWork x .faulted) ∧
      n.kind = 4 ∧ n.cause = cause ∧ n.offset = (queueOf s b q).at_ :=
  ⟨_, if_neg (by rw [h]; exact Bool.false_ne_true), rfl, rfl, rfl⟩

/-- Settles O36: the three traps are what the model's arms do, and the queue's fault is `queueFault_of_room`. -/
theorem reservedEncodingsTrap : Obligations.ReservedEncodingsTrap := by
  intro s
  refine ⟨fun w => rfl, fun sl => rfl, fun pr op hroom => ?_, fun cmd => rfl⟩
  obtain ⟨n, hf, hkind, hcause, hoff⟩ := queueFault_of_room qfIllpkt hroom
  refine ⟨_, n, congrArg Host.Outcome.next hf, hkind, hcause, hoff, ?_⟩
  have hq : hereQ (modQueue (pushNotif s (hereQ s).vf n) s.cur.bh s.cur.q (fun x => dropWork x .faulted)) =
      dropWork (hereQ s) .faulted := queueOf_modQueue_same ..
  have hnotif : tabGet (pushNotif s (hereQ s).vf n).port.notif [] (hereQ s).vf =
      tabGet s.port.notif [] (hereQ s).vf ++ [n] := tabGet_tabMod_same s.port.notif [] (hereQ s).vf (fun l => l ++ [n])
  rw [hq, modQueue_port]
  exact ⟨rfl, rfl, rfl, hnotif, rfl⟩

end Sys2Proof.Machine

namespace Sys2Proof.Machine
open Sys2Proof

/-! ## The metadata of a range of lines -/

theorem tabGet_append {α : Type} (t u : Tab α) (d : α) (k : ℕ) : tabGet (t ++ u) d k = tabGet t (tabGet u d k) k := by
  induction t with
  | nil => rfl
  | cons x t ih =>
    simp only [List.cons_append, tabGet]
    rw [ih]

theorem tabGet_mapMeta_mid (is : List ℕ) (l : ℕ) (f : ℕ → LineMeta) (d : LineMeta) (j : ℕ) :
    tabGet ((is.map (fun i => (l + i, f (l + i)))).filter (fun (x : ℕ × LineMeta) => x.2 ≠ {})) d j =
      if (∃ i ∈ is, l + i = j) ∧ f j ≠ {} then f j else d := by
  induction is with
  | nil => simp [tabGet]
  | cons i is ih =>
    rw [List.map_cons, List.filter_cons]
    by_cases hf : f (l + i) = {}
    · rw [if_neg (by simpa using hf), ih]
      refine if_congr ⟨fun ⟨⟨e, he, hj⟩, h⟩ => ⟨⟨e, .tail _ he, hj⟩, h⟩, fun ⟨⟨e, he, hj⟩, h⟩ => ?_⟩ rfl rfl
      obtain rfl | he := List.mem_cons.1 he
      · exact absurd (hj ▸ hf) h
      · exact ⟨⟨e, he, hj⟩, h⟩
    · rw [if_pos (by simpa using hf), tabGet]
      by_cases hj : l + i = j
      · subst hj
        rw [if_pos rfl, if_pos ⟨⟨i, .head _, rfl⟩, hf⟩]
      · rw [if_neg hj, ih]
        refine if_congr (and_congr_left fun _ => ⟨fun ⟨e, he, h⟩ => ⟨e, .tail _ he, h⟩, fun ⟨e, he, h⟩ => ?_⟩) rfl rfl
        obtain rfl | he := List.mem_cons.1 he
        · exact absurd h hj
        · exact ⟨e, he, h⟩

/-- The metadata of the lines of a range, mapped; that of the others stands. -/
theorem tabGet_mapMeta (t : Tab LineMeta) (l n : ℕ) (f : ℕ → LineMeta) (j : ℕ) :
    tabGet (mapMeta t l n f) {} j = if l ≤ j ∧ j < l + n then f j else tabGet t {} j := by
  have hmid : (∃ i ∈ List.range n, l + i = j) ↔ l ≤ j ∧ j < l + n :=
    ⟨fun ⟨i, hi, h⟩ => ⟨by omega, by have := List.mem_range.1 hi; omega⟩,
      fun h => ⟨j - l, List.mem_range.2 (by omega), by omega⟩⟩
  unfold mapMeta
  rw [tabGet_append, tabGet_append, tabGet_mapMeta_mid, tabGet_filter_key t _ (fun i => decide (i < l)),
    tabGet_filter_key t _ (fun i => decide (l + n ≤ i))]
  simp only [hmid, decide_eq_true_eq]
  obtain hlo | hlo := lt_or_ge j l
  · simp [hlo, hlo.not_ge, show ¬ l + n ≤ j by omega]
  · obtain hhi | hhi := lt_or_ge j (l + n)
    · by_cases hf : f j = {}
      · simp [hlo, hlo.not_gt, hhi, hhi.not_ge, hf]
      · simp [hlo, hlo.not_gt, hhi, hf]
    · simp [hlo.not_gt, hhi, hhi.not_gt]

/-! ## Granules -/

section
variable (s : State) (b e g d : ℕ)

theorem stackOf_patPut (k : ℕ) : stackOf (patPut s b e g d) k = stackOf s k := rfl
theorem granOf_patPut (c h : ℕ) : granOf (patPut s b e g d) c h = granOf s c h := rfl
theorem neighbourOk_iff : neighbourOk s b g d = true ↔ granOf s b g = 0xFFF1 ∨ granOf s b g = d := by
  simp [neighbourOk]

/-- A write of an allocation-table entry changes that entry. -/
theorem granOf_setGran {g h : ℕ} (hg : g < bhGrans) (hh : h < bhGrans) (c : ℕ) :
    granOf (setGran s b g d) c h = if c = b ∧ h = g then d else granOf s c h := by
  unfold granOf setGran
  by_cases hc : c / 2 = b / 2
  · rw [hc, stackOf_modStack_same, tabGet_tabPut]
    refine if_congr ⟨fun h => ?_, fun h => by rw [h.1, h.2]⟩ rfl rfl
    have hb := Nat.mod_lt b (show 0 < 2 by decide)
    have hc' := Nat.mod_lt c (show 0 < 2 by decide)
    unfold bhGrans at *
    omega
  · rw [stackOf_modStack_ne _ _ hc, if_neg fun h => hc (by rw [h.1])]
end

theorem execGranuleAssign_of_open {s : State} {gran : BitVec 14} {d : BitVec 12} (hst : (bhOf s s.cur.bh).st = .assigned)
    (hg : gran.toNat < bhGrans) (h0 : neighbourOk s s.cur.bh gran.toNat d.toNat = true)
    (h1 : gran.toNat ≠ 0 → neighbourOk s s.cur.bh (gran.toNat - 1) d.toNat = true)
    (h2 : gran.toNat + 1 ≠ bhGrans → neighbourOk s s.cur.bh (gran.toNat + 1) d.toNat = true) :
    exec (.granuleAssign gran d) s =
      .next (setGran (patPut s s.cur.bh 0 gran.toNat d.toNat) s.cur.bh gran.toNat d.toNat) := by
  refine congrArg Host.Outcome.next ((if_neg (not_not.2 hst)).trans ((if_neg (not_le.2 hg)).trans
    ((if_neg (by rw [h0]; exact Bool.false_ne_true)).trans (if_neg ?_))))
  by_cases hz : gran.toNat = 0 <;> by_cases hl : gran.toNat + 1 = bhGrans <;> simp_all

theorem execGranuleFree_of_assigned {s : State} {gran : BitVec 14} (hst : (bhOf s s.cur.bh).st = .assigned)
    (hg : gran.toNat < bhGrans) : exec (.granuleFree gran) s =
      .next (setGran (poisonGran (patPut s s.cur.bh 0 gran.toNat (bhOf s s.cur.bh).patDom) s.cur.bh gran.toNat)
        s.cur.bh gran.toNat 0xFFF1) :=
  congrArg Host.Outcome.next ((if_neg (not_not.2 hst)).trans (if_neg (not_le.2 hg)))

/-- The lines of a freed granule are poisoned. -/
theorem lineMeta_poisonGran (s : State) (b g : ℕ) {l : ℕ} (h : b * bhLines + g * 32768 ≤ l)
    (h' : l < b * bhLines + g * 32768 + 32768) : (lineMeta (poisonGran s b g) l).poison = true := by
  have hl : lineMeta (poisonGran s b g) l = { lineMeta s l with poison := true, flips := [], tagBad := false } :=
    (tabGet_mapMeta s.lmeta (b * bhLines + g * 32768) 32768
      (fun i => { lineMeta s i with poison := true, flips := [], tagBad := false }) l).trans (if_pos ⟨h, h'⟩)
  rw [hl]

/-- No slice holds a line of a freed granule. -/
theorem lines_poisonGran {s : State} {b g k : ℕ} {y : L2Line} (h : y ∈ (sliceOf (poisonGran s b g) k).lines) :
    ¬ (b * bhLines + g * 32768 ≤ y.line ∧ y.line < b * bhLines + g * 32768 + 32768) := by
  have hk : sliceOf (poisonGran s b g) k = { sliceOf s k with lines := (sliceOf s k).lines.filter (fun y =>
      !(decide (b * bhLines + g * 32768 ≤ y.line) && decide (y.line < b * bhLines + g * 32768 + 32768))) } :=
    tabGet_map s.slices {} (fun x : SliceS => { x with lines := x.lines.filter (fun y =>
      !(decide (b * bhLines + g * 32768 ≤ y.line) && decide (y.line < b * bhLines + g * 32768 + 32768))) }) k rfl
  rw [hk] at h
  have hout := (List.mem_filter.1 h).2
  simp at hout
  omega
end Sys2Proof.Machine

namespace Sys2Proof.Machine
open Sys2Proof

/-! ## What leaves the lines of the slices as they are -/

/-- Every slice holds the lines that it held. -/
structure KeepsLines (s t : State) : Prop where
  lines : ∀ k, (sliceOf t k).lines = (sliceOf s k).lines

theorem KeepsLines.refl (s : State) : KeepsLines s s := ⟨fun _ => rfl⟩

theorem KeepsLines.trans {s t u : State} (h : KeepsLines s t) (g : KeepsLines t u) : KeepsLines s u :=
  ⟨fun k => (g.lines k).trans (h.lines k)⟩

theorem keepsLines_of_slices {s t : State} (h : t.slices = s.slices) : KeepsLines s t :=
  ⟨fun k => by rw [sliceOf, h, sliceOf]⟩

theorem keepsLines_foldl {ι : Type} {step : State → ι → State} (h : ∀ s i, KeepsLines s (step s i)) (l : List ι)
    (s : State) : KeepsLines s (l.foldl step s) := foldl_induct .refl .trans h l s

/-- A slice that changes but for its lines. -/
theorem keepsLines_modSlice (s : State) (k : ℕ) {f : SliceS → SliceS} (h : ∀ x, (f x).lines = x.lines) :
    KeepsLines s (modSlice s k f) := by
  refine ⟨fun j => ?_⟩
  obtain rfl | hj := eq_or_ne j k
  · rw [sliceOf_modSlice_same, h]
  · rw [sliceOf_modSlice_ne _ _ hj]

theorem keepsLines_logLine (s : State) (cls syn l : ℕ) : KeepsLines s (logLine s cls syn l) := by
  obtain ⟨_, _, h⟩ := logLine_eq s cls syn l
  rw [h]
  exact keepsLines_of_slices rfl

theorem keepsLines_rcRefresh (s : State) (p : ℕ) : KeepsLines s (rcRefresh s p) :=
  keepsLines_foldl (fun t q => by
    split
    · exact .refl t
    · exact keepsLines_of_slices rfl) _ s

theorem keepsLines_postInval (s : State) (p num : ℕ) : KeepsLines s (postInval s p num) :=
  keepsLines_foldl (fun t q => by
    split
    · exact keepsLines_of_slices rfl
    · exact .refl t) _ s

theorem keepsLines_regionRo (s : State) (l : ℕ) : KeepsLines s (regionRo s l) :=
  KeepsLines.trans (t := modPart s _ _) (keepsLines_of_slices rfl) (keepsLines_rcRefresh ..)

theorem keepsLines_mergeRead (s : State) (r : StackReq) (l : ℕ) : KeepsLines s (mergeRead s r l).2 := by
  unfold mergeRead
  split
  · exact .refl s
  · split
    · exact keepsLines_logLine ..
    · exact keepsLines_logLine ..
    · exact keepsLines_logLine ..
    · exact .refl s

theorem keepsLines_ctlWrite (s : State) (r : StackReq) (l : ℕ) : KeepsLines s (ctlWrite s r l).1 := by
  unfold ctlWrite
  dsimp only
  split
  · exact .refl s
  split
  · exact KeepsLines.trans (KeepsLines.trans (t := putLine s l _ _) (keepsLines_of_slices rfl) (keepsLines_logLine ..))
      (keepsLines_regionRo ..)
  · exact (keepsLines_mergeRead s r l).trans (keepsLines_of_slices rfl)

theorem keepsLines_of_logs {s t : State} {l : ℕ} (h : t = s ∨ ∃ cls syn, t = logLine s cls syn l) : KeepsLines s t := by
  obtain rfl | ⟨cls, syn, rfl⟩ := h
  · exact .refl _
  · exact keepsLines_logLine ..

theorem keepsLines_ctlPerform (s : State) (k : ℕ) (r : StackReq) (l : ℕ) : KeepsLines s (ctlPerform s k r l).1 := by
  by_cases hr : r.kind = .rd64
  · exact keepsLines_of_logs (ctlPerform_rd64_fst s k hr l)
  · unfold ctlPerform
    split
    · dsimp only
      split
      · exact .refl s
      · exact keepsLines_logLine ..
    · dsimp only
      split
      · next h => exact absurd h hr
      · exact keepsLines_ctlWrite s r l

theorem keepsLines_giveReply (s : State) (k : ℕ) (r : StackReq) (x : StackReply) : KeepsLines s (giveReply s k r x) := by
  unfold giveReply netSend
  dsimp only
  split
  · exact keepsLines_modSlice s r.from_ (f := fun y => { y with replies := y.replies ++ [x] }) fun _ => rfl
  · exact keepsLines_of_slices rfl

theorem keepsLines_performReq (l : ℕ) (s : State) (r : StackReq) : KeepsLines s (performReq l s r) := by
  have h := keepsLines_ctlPerform s (lineStack l) r l
  unfold performReq
  split
  · next e =>
    rw [e] at h
    exact h.trans (keepsLines_giveReply ..)
  · next e =>
    rw [e] at h
    exact h

theorem keepsLines_ctlFlush (s : State) (l : ℕ) : KeepsLines s (ctlFlush s l) := by
  rw [ctlFlush_eq]
  split
  · exact .refl s
  · exact KeepsLines.trans (t := modStack s _ _) (keepsLines_of_slices rfl) (keepsLines_foldl (keepsLines_performReq l) _ _)

theorem keepsLines_ctlNow (s : State) (kind : StackKind) (l key prot : ℕ) (mask : W64) (d : BitVec 512) (pois : Bool) :
    KeepsLines s (ctlNow s kind l key prot mask d pois).1 := by
  unfold ctlNow
  dsimp only
  refine (keepsLines_ctlFlush s l).trans (KeepsLines.trans ?_ (keepsLines_ctlPerform ..))
  split
  · exact keepsLines_modSlice _ _ fun _ => rfl
  · exact .refl _

theorem keepsLines_writeBack (s : State) (y : L2Line) : KeepsLines s (writeBack s y) := by
  unfold writeBack
  split
  · exact .refl s
  split
  · exact keepsLines_ctlNow ..
  · exact keepsLines_ctlNow ..

/-! ## A region's lines leave the slices -/

/-- An eviction takes the line out of its slice, and no other. -/
theorem lines_evict (s : State) (k : ℕ) (y : L2Line) (j : ℕ) : (sliceOf (evict s k y) j).lines =
    if j = k then (sliceOf s j).lines.filter (fun z => !(z.line == y.line)) else (sliceOf s j).lines := by
  have h : KeepsLines (modSlice s k (fun x => l2Drop x y)) (evict s k y) := by
    unfold evict
    dsimp only
    refine KeepsLines.trans ?_ (keepsLines_writeBack ..)
    split
    · exact keepsLines_logLine ..
    · exact .refl _
  rw [h.lines]
  obtain rfl | hj := eq_or_ne j k
  · rw [sliceOf_modSlice_same, if_pos rfl]
    rfl
  · rw [sliceOf_modSlice_ne _ _ hj, if_neg hj]

/-- A line that stays when others are evicted was there, and is none of them. -/
theorem mem_lines_evictAll {all : List (ℕ × L2Line)} {s : State} {k : ℕ} {z : L2Line}
    (h : z ∈ (sliceOf (all.foldl (fun s y => evict s y.1 y.2) s) k).lines) :
    z ∈ (sliceOf s k).lines ∧ ∀ y, (k, y) ∈ all → z.line ≠ y.line := by
  induction all generalizing s with
  | nil => exact ⟨h, fun _ hy => absurd hy List.not_mem_nil⟩
  | cons x all ih =>
    obtain ⟨hz, hrest⟩ := ih h
    rw [lines_evict] at hz
    split at hz
    · next hk =>
      obtain ⟨hmem, hne⟩ := List.mem_filter.1 hz
      refine ⟨hmem, fun y hy => ?_⟩
      obtain rfl | hy := List.mem_cons.1 hy
      · simpa using hne
      · exact hrest y hy
    · next hk =>
      refine ⟨hz, fun y hy => ?_⟩
      obtain rfl | hy := List.mem_cons.1 hy
      · exact absurd rfl hk
      · exact hrest y hy

/-- A flush leaves of a region's lines the staged ones. -/
theorem stage_of_mem_flushRegion {s : State} {r : Region} {k : ℕ} {y : L2Line}
    (h : y ∈ (sliceOf (flushRegion s r) k).lines) (hr : lineOfRegion r y.line = true) : y.stage ≠ none := by
  intro hst
  obtain ⟨hmem, hne⟩ := mem_lines_evictAll h
  refine hne y (List.mem_flatMap.2 ?_) rfl
  obtain hk | hk := tabGet_mem_or_default s.slices {} k
  · exact ⟨_, hk, List.mem_map.2 ⟨y, List.mem_filter.2 ⟨hmem, by rw [hr, hst]; rfl⟩, rfl⟩⟩
  · rw [sliceOf, hk] at hmem
    exact absurd hmem List.not_mem_nil
end Sys2Proof.Machine

namespace Sys2Proof.Machine
open Sys2Proof

/-! ## RDCTL: what each command checks first -/

/-- An RDCTL command has noted its number. -/
def rdNamed (s : State) (p n : ℕ) : State := modPart s p (fun x => { x with rdNum := n })

section
variable (s : State) (p n : ℕ)

@[simp] theorem partOf_rdNamed_same : partOf (rdNamed s p n) p = { partOf s p with rdNum := n } := partOf_modPart_same ..

theorem partOf_rdNamed (q : ℕ) : ∃ m, partOf (rdNamed s p n) q = { partOf s q with rdNum := m } := by
  obtain rfl | hq := eq_or_ne q p
  · exact ⟨n, partOf_rdNamed_same ..⟩
  · exact ⟨(partOf s q).rdNum, partOf_modPart_ne _ _ hq⟩

@[simp] theorem regions_rdNamed (q : ℕ) : (partOf (rdNamed s p n) q).regions = (partOf s q).regions := by
  obtain ⟨m, h⟩ := partOf_rdNamed s p n q
  rw [h]

@[simp] theorem partSize_rdNamed (q : ℕ) : partSize (rdNamed s p n) q = partSize s q := by
  obtain ⟨m, h⟩ := partOf_rdNamed s p n q
  rw [partSize, h, partSize]

@[simp] theorem partArrs_rdNamed (q : ℕ) : partArrs (rdNamed s p n) q = partArrs s q := by
  rw [partArrs, partSize_rdNamed, partArrs]

@[simp] theorem partBhs_rdNamed (q : ℕ) : partBhs (rdNamed s p n) q = partBhs s q := by
  rw [partBhs, partSize_rdNamed, partBhs]

@[simp] theorem ownerOk_rdNamed (q c : ℕ) : ownerOk (rdNamed s p n) q c = ownerOk s q c := by
  rw [ownerOk, partSize_rdNamed, ownerOk]

theorem assigned_rdNamed : assigned (rdNamed s p n) p = assigned s p := by
  rw [assigned, partBhs_rdNamed, partOf_rdNamed_same]
  rfl

theorem regionOk_rdNamed (d : BitVec 512) : regionOk (rdNamed s p n) p d = regionOk s p d := by
  unfold regionOk
  simp only [ownerOk_rdNamed, regions_rdNamed]
  rfl

theorem regionMeets_rdNamed (r : Region) : regionMeets (rdNamed s p n) p r = regionMeets s p r := by
  unfold regionMeets
  rw [partSize_rdNamed, partOf_rdNamed_same]

theorem regionStaged_rdNamed (r : Region) : regionStaged (rdNamed s p n) p n r = regionStaged s p n r := by
  unfold regionStaged
  rw [partArrs_rdNamed]
  rfl

variable {s p n} {go : State → State}

theorem rdGo_of_busy (h : (partOf s p).rdPend ≠ none) :
    rdGo s p n go = setPart s p { partOf s p with rdNum := n, rdErr := 4 } := by
  refine (if_pos ?_).trans ?_
  · rw [← rdNamed, partOf_rdNamed_same]
    exact Option.isSome_iff_ne_none.2 h
  · exact modPart_modPart ..

theorem rdGo_of_unassigned (h : (partOf s p).rdPend = none) (ha : assigned s p = false) :
    rdGo s p n go = setPart s p { partOf s p with rdNum := n, rdErr := 5 } := by
  refine (if_neg ?_).trans ((if_pos ?_).trans ?_)
  · rw [← rdNamed, partOf_rdNamed_same, h]
    exact Bool.false_ne_true
  · rw [← rdNamed, assigned_rdNamed, ha]
    rfl
  · exact modPart_modPart ..

theorem rdGo_of_free (h : (partOf s p).rdPend = none) (ha : assigned s p = true) :
    rdGo s p n go = go (rdNamed s p n) := by
  refine (if_neg ?_).trans (if_neg ?_)
  · rw [← rdNamed, partOf_rdNamed_same, h]
    exact Bool.false_ne_true
  · rw [← rdNamed, assigned_rdNamed, ha]
    exact Bool.false_ne_true
end

/-- Each RDCTL command goes by `rdGo`. -/
theorem exec_rdctl {i : Instr} {num : BitVec 14} (h : i ∈ [Instr.regionDescriptorWrite num, .regionDescriptorClear num,
    .regionDescriptorConvert num]) (s : State) : ∃ go, exec i s = .next (rdGo s s.cur.part num.toNat go) := by
  simp only [List.mem_cons, List.not_mem_nil, or_false] at h
  obtain rfl | rfl | rfl := h
  · exact ⟨_, rfl⟩
  · exact ⟨_, rfl⟩
  · exact ⟨_, rfl⟩

/-! ## What a command changes -/

theorem foldl_parts {ι : Type} {step : State → ι → State} (h : ∀ s i, (step s i).parts = s.parts) (l : List ι) (s : State) :
    (l.foldl step s).parts = s.parts := by
  induction l generalizing s with
  | nil => rfl
  | cons i l ih => exact (ih _).trans (h s i)

theorem ctrBump_parts (s : State) (l : ℕ) : (ctrBump s l).parts = s.parts := rfl

theorem keepsLines_ctrBump (s : State) (l : ℕ) : KeepsLines s (ctrBump s l) := keepsLines_of_slices rfl

section
variable (s : State) (p num : ℕ)

@[simp] theorem postInval_parts : (postInval s p num).parts = s.parts :=
  foldl_parts (fun t q => by split <;> rfl) _ s

@[simp] theorem tableTouch_parts (r : Region) : (tableTouch s p num r).parts = s.parts :=
  (foldl_parts (fun _ _ => ctrBump_parts ..) _ _).trans (ctrBump_parts ..)

@[simp] theorem seqWindows_parts : (seqWindows s p num).parts = s.parts :=
  foldl_parts (fun t w => by split <;> rfl) _ s

/-- A command that is accepted leaves ERR 0 and every other field. -/
theorem partOf_rdAccept (kind : ℕ) (ms : Tab ℕ) : partOf (rdAccept s p num kind ms) p =
    { partOf s p with rdErr := 0, rdPend := some { num := num, kind := kind, marks := ms } } := by
  rw [partOf, rdAccept, postInval_parts]
  exact partOf_modPart_same ..

theorem keepsLines_rdAccept (kind : ℕ) (ms : Tab ℕ) : KeepsLines s (rdAccept s p num kind ms) :=
  KeepsLines.trans (t := modPart s p _) (keepsLines_of_slices rfl) (keepsLines_postInval ..)

theorem keepsLines_tableTouch (r : Region) : KeepsLines s (tableTouch s p num r) :=
  (keepsLines_ctrBump s _).trans (keepsLines_foldl (fun _ _ => keepsLines_ctrBump ..) _ _)

theorem fifo_postInval (a : ℕ) : (arrOf (postInval s p num) a).fifo = (arrOf s a).fifo :=
  foldl_induct (R := fun s t => (arrOf t a).fifo = (arrOf s a).fifo) (fun _ => rfl) (fun h g => g.trans h) (fun t q => by
    split
    · obtain rfl | hq := eq_or_ne a q
      · rw [arrOf_modArr_same]
      · rw [arrOf_modArr_ne _ _ hq]
    · rfl) _ s
end

/-! ## Markers -/

theorem nodup_partArrs (s : State) (p : ℕ) : (partArrs s p).Nodup :=
  List.nodup_range.map fun _ _ h => Nat.add_left_cancel h

/-- A marker goes behind what one array has to drain. -/
def markOne (x : State × Tab ℕ) (q : ℕ) : State × Tab ℕ :=
  (setArr x.1 q (placeMarker (arrOf x.1 q)).2, tabSet x.2 q (placeMarker (arrOf x.1 q)).1)

theorem markAll_eq (s : State) (p : ℕ) : markAll s p = (partArrs s p).foldl markOne (s, []) := rfl

theorem arrOf_markEach {l : List ℕ} (hl : l.Nodup) (x : State × Tab ℕ) (a : ℕ) :
    arrOf (l.foldl markOne x).1 a = if a ∈ l then (placeMarker (arrOf x.1 a)).2 else arrOf x.1 a := by
  induction l generalizing x with
  | nil => rfl
  | cons q l ih =>
    obtain ⟨hq, hl⟩ := List.nodup_cons.1 hl
    rw [List.foldl_cons, ih hl, markOne]
    obtain rfl | hne := eq_or_ne a q
    · rw [if_neg hq, if_pos List.mem_cons_self, arrOf_setArr_same]
    · rw [arrOf_setArr_ne _ _ hne]
      exact if_congr ⟨.tail _, fun h => (List.mem_cons.1 h).resolve_left hne⟩ rfl rfl

theorem parts_markEach (l : List ℕ) (x : State × Tab ℕ) : (l.foldl markOne x).1.parts = x.1.parts := by
  induction l generalizing x with
  | nil => rfl
  | cons q l ih => exact (ih _).trans rfl

theorem parts_markAll (s : State) (p : ℕ) : (markAll s p).1.parts = s.parts := parts_markEach ..

theorem fifo_markAll {s : State} {p a : ℕ} (ha : a ∈ partArrs s p) : (arrOf (markAll s p).1 a).fifo =
    (arrOf s a).fifo ++ [.marker (((arrOf s a).markNext + 1) % 2 ^ 24)] := by
  rw [markAll_eq, arrOf_markEach (nodup_partArrs s p), if_pos ha]
  rfl
end Sys2Proof.Machine

namespace Sys2Proof.Machine
open Sys2Proof

/-! ## The three commands -/

/-- A descriptor is written under a number. -/
def regionPut (s : State) (p n : ℕ) (r : Region) : State :=
  modPart s p (fun x => { x with regions := tabSet x.regions n r })

theorem partOf_regionPut (s : State) (p n : ℕ) (r : Region) :
    partOf (regionPut s p n r) p = { partOf s p with regions := tabSet (partOf s p).regions n r } :=
  partOf_modPart_same ..

/-- A converted descriptor is written, and the counter of its line counts it. -/
def regionConvert (s : State) (p n : ℕ) (r : Region) : State :=
  ctrBump (regionPut s p n r) (p * bhLines + (partOf s p).rdGran * 32768 + n)

theorem partOf_regionConvert (s : State) (p n : ℕ) (r : Region) :
    partOf (regionConvert s p n r) p = { partOf s p with regions := tabSet (partOf s p).regions n r } :=
  partOf_regionPut ..

section
variable {s : State} {num : BitVec 14} {r : Region}
  (hfree : (partOf s s.cur.part).rdPend = none) (hown : assigned s s.cur.part = true)
include hfree hown

/-- A descriptor that passes the checks is written into an unused number. -/
theorem exec_regionDescriptorWrite_of_new (hnew : tabFind (partOf s s.cur.part).regions num.toNat = none)
    (hok : regionOk s s.cur.part (rdBufBits (partOf s s.cur.part)) = true)
    (hmeets : regionMeets s s.cur.part (regionOfBits (rdBufBits (partOf s s.cur.part))) = false) :
    ∃ u : State, u.parts = (rdNamed s s.cur.part num.toNat).parts ∧
      exec (.regionDescriptorWrite num) s = .next (rdAccept (tableTouch (regionPut u s.cur.part num.toNat
        (regionOfBits (rdBufBits (partOf s s.cur.part)))) s.cur.part num.toNat (regionOfBits (rdBufBits (partOf s s.cur.part)))) s.cur.part num.toNat 0 []) := by
  have hbuf : rdBufBits (partOf (rdNamed s s.cur.part num.toNat) s.cur.part) = rdBufBits (partOf s s.cur.part) := by
    rw [partOf_rdNamed_same]
    rfl
  refine ⟨if (regionOfBits (rdBufBits (partOf s s.cur.part))).kind = 3 then
    seqWindows (rdNamed s s.cur.part num.toNat) s.cur.part num.toNat else rdNamed s s.cur.part num.toNat, ?_, ?_⟩
  · split
    · exact seqWindows_parts ..
    · rfl
  · refine congrArg Host.Outcome.next ((rdGo_of_free hfree hown).trans ?_)
    refine (if_neg ?_).trans ((if_neg ?_).trans ((if_neg ?_).trans ?_))
    · rw [regions_rdNamed, hnew]
      exact Bool.false_ne_true
    · rw [hbuf, regionOk_rdNamed, hok]
      exact Bool.false_ne_true
    · rw [hbuf, regionMeets_rdNamed, hmeets]
      exact Bool.false_ne_true
    · rw [hbuf]
      rfl

theorem exec_regionDescriptorWrite_of_used (hr : tabFind (partOf s s.cur.part).regions num.toNat = some r) :
    exec (.regionDescriptorWrite num) s =
      .next (setPart s s.cur.part { partOf s s.cur.part with rdNum := num.toNat, rdErr := 3 }) := by
  refine congrArg Host.Outcome.next ((rdGo_of_free hfree hown).trans ((if_pos ?_).trans (modPart_modPart ..)))
  rw [regions_rdNamed, hr]
  rfl

/-- A clear flushes the region's lines and takes its descriptor away. -/
theorem exec_regionDescriptorClear_of_unnamed (hr : tabFind (partOf s s.cur.part).regions num.toNat = some r)
    (hunnamed : ∀ b ∈ partBhs s s.cur.part, ∀ y ∈ (bhOf s b).nodes, nodeOver y.2 = false → y.2.part = s.cur.part →
      ∀ f ∈ y.2.fps, f.1 ≠ num.toNat) :
    exec (.regionDescriptorClear num) s = .next (rdAccept (modPart (tableTouch (flushRegion (dropRegionReplicas
      (rdNamed s s.cur.part num.toNat) r) r) s.cur.part num.toNat r) s.cur.part
        (fun x => { x with regions := tabErase x.regions num.toNat })) s.cur.part num.toNat 0 []) := by
  refine congrArg Host.Outcome.next ((rdGo_of_free hfree hown).trans ?_)
  dsimp only
  rw [regions_rdNamed, hr]
  refine if_neg ?_
  rw [partBhs_rdNamed]
  simp only [List.any_eq_true, Bool.and_eq_true, Bool.not_eq_true', decide_eq_true_eq]
  rintro ⟨b, hb, y, hy, ⟨hlive, hpart⟩, f, hf, hnum⟩
  exact hunnamed b hb y hy hlive hpart f hf hnum

/-- A conversion from SHARED to OWNED applies at once. -/
theorem exec_regionDescriptorConvert_of_shared (hr : tabFind (partOf s s.cur.part).regions num.toNat = some r)
    (hkind : r.kind = 2) (hdk : (regionOfBits (rdBufBits (partOf s s.cur.part))).kind = 1)
    (hdo : ownerOk s s.cur.part (regionOfBits (rdBufBits (partOf s s.cur.part))).owner = true) :
    exec (.regionDescriptorConvert num) s = .next (rdAccept (regionConvert (dropRegionReplicas
      (rdNamed s s.cur.part num.toNat) r) s.cur.part num.toNat
        { r with kind := 1, owner := (regionOfBits (rdBufBits (partOf s s.cur.part))).owner }) s.cur.part num.toNat 0 []) := by
  have hbuf : rdBufBits (partOf (rdNamed s s.cur.part num.toNat) s.cur.part) = rdBufBits (partOf s s.cur.part) := by
    rw [partOf_rdNamed_same]
    rfl
  refine congrArg Host.Outcome.next ((rdGo_of_free hfree hown).trans ?_)
  dsimp only
  rw [regions_rdNamed, hr, hbuf]
  refine (if_neg ?_).trans ((if_neg ?_).trans (if_pos hkind))
  · rw [hdk, hkind, ownerOk_rdNamed, hdo]
    decide
  · simp [hdk, hkind]

/-- A conversion to another owner puts markers behind what the arrays have to drain. -/
theorem exec_regionDescriptorConvert_of_owned (hr : tabFind (partOf s s.cur.part).regions num.toNat = some r)
    (hkind : r.kind = 1) (hdk : (regionOfBits (rdBufBits (partOf s s.cur.part))).kind = 1)
    (hne : (regionOfBits (rdBufBits (partOf s s.cur.part))).owner ≠ r.owner)
    (hdo : ownerOk s s.cur.part (regionOfBits (rdBufBits (partOf s s.cur.part))).owner = true)
    (hstaged : regionStaged s s.cur.part num.toNat r = false) :
    ∃ ms, exec (.regionDescriptorConvert num) s = .next (rdAccept (regionConvert (modPart
      (markAll (rdNamed s s.cur.part num.toNat) s.cur.part).1 s.cur.part (fun x => { x with
        xfers := x.xfers ++ [(num.toNat, ms)] })) s.cur.part num.toNat
          { r with owner := (regionOfBits (rdBufBits (partOf s s.cur.part))).owner, rpend := true, markV := false })
      s.cur.part num.toNat 0 ms) := by
  have hbuf : rdBufBits (partOf (rdNamed s s.cur.part num.toNat) s.cur.part) = rdBufBits (partOf s s.cur.part) := by
    rw [partOf_rdNamed_same]
    rfl
  refine ⟨(markAll (rdNamed s s.cur.part num.toNat) s.cur.part).2,
    congrArg Host.Outcome.next ((rdGo_of_free hfree hown).trans ?_)⟩
  dsimp only
  rw [regions_rdNamed, hr, hbuf]
  refine (if_neg ?_).trans ((if_neg ?_).trans ((if_neg ?_).trans ((if_neg ?_).trans (if_neg ?_))))
  · rw [hdk, hkind, ownerOk_rdNamed, hdo]
    decide
  · simp [hdk, hkind, hne]
  · omega
  · rw [regionStaged_rdNamed, hstaged]
    exact Bool.false_ne_true
  · omega
end
/-! ## The obligation -/

theorem patErr_patPut (s : State) (b e g d : ℕ) : (bhOf (patPut s b e g d) b).patErr = e := by
  rw [patPut, bhOf_modBh_same]

theorem bhOf_setGran (s : State) (b g d c : ℕ) : bhOf (setGran s b g d) c = bhOf s c := rfl

theorem bhOf_poisonGran (s : State) (b g c : ℕ) : bhOf (poisonGran s b g) c = bhOf s c := rfl

theorem fifo_rdAccept_regionConvert (s : State) (p n kind : ℕ) (r : Region) (ms : Tab ℕ) (f : PartS → PartS) (a : ℕ) :
    (arrOf (rdAccept (regionConvert (modPart s p f) p n r) p n kind ms) a).fifo = (arrOf s a).fifo := by
  rw [rdAccept, fifo_postInval]
  rfl

theorem flushed_of_clear {s : State} {p n : ℕ} {r : Region} {k : ℕ} {y : L2Line}
    (h : y ∈ (sliceOf (rdAccept (modPart (tableTouch (flushRegion (dropRegionReplicas (rdNamed s p n) r) r) p n r) p
      (fun x => { x with regions := tabErase x.regions n })) p n 0 []) k).lines)
    (hr : lineOfRegion r y.line = true) : y.stage ≠ none := by
  rw [(keepsLines_rdAccept ..).lines, sliceOf_modPart, (keepsLines_tableTouch ..).lines] at h
  exact stage_of_mem_flushRegion h hr

/-- Settles O52: the granule commands by what they write, and the descriptor commands by the exact states above. -/
theorem granulesAndDescriptors : Obligations.GranulesAndDescriptors := by
  refine ⟨?_, ?_⟩
  · intro s gran d b x g allows
    refine ⟨fun hst => ⟨congrArg Host.Outcome.next (if_pos hst), congrArg Host.Outcome.next (if_pos hst)⟩, ?_, ?_⟩
    · intro hst hg h0 h1 h2
      have hbound : bhGrans = 14336 := rfl
      refine ⟨_, execGranuleAssign_of_open hst hg ((neighbourOk_iff ..).2 h0) (fun h => (neighbourOk_iff ..).2 (h1 h))
        (fun h => (neighbourOk_iff ..).2 (h2 (by omega))), rfl, ?_, fun c h hh => granOf_setGran _ _ _ hg hh c⟩
      rw [bhOf_setGran, patErr_patPut]
    · intro hst hg
      refine ⟨_, execGranuleFree_of_assigned hst hg, rfl, ?_, fun c h hh => granOf_setGran _ _ _ hg hh c, ?_, ?_⟩
      · rw [bhOf_setGran, bhOf_poisonGran, patErr_patPut]
      · intro i hi
        exact lineMeta_poisonGran _ b g (Nat.le_add_right ..) (Nat.add_lt_add_left hi _)
      · intro k y hy h
        have hend : b * 0x1C000000 + (g + 1) * 32768 = b * 0x1C000000 + g * 32768 + 32768 := by ring
        rw [hend] at h
        exact lines_poisonGran (s := patPut s b 0 g _) hy h
  · intro s num p x n d
    refine ⟨fun hbusy i hi => ?_, fun hfree hown i hi => ?_, fun hfree hown => ⟨?_, ?_⟩, fun v => ?_⟩
    · obtain ⟨go, hgo⟩ := exec_rdctl hi s
      rw [hgo, rdGo_of_busy hbusy]
    · obtain ⟨go, hgo⟩ := exec_rdctl hi s
      rw [hgo, rdGo_of_unassigned hfree hown]
    · intro hnew hok hmeets
      obtain ⟨u, hu, he⟩ := exec_regionDescriptorWrite_of_new hfree hown hnew hok hmeets
      have hpart : partOf u p = { x with rdNum := n } := by
        rw [partOf, hu]
        exact partOf_rdNamed_same ..
      refine ⟨_, he, execRegionDescriptorWrite_mem s num _ he, ?_⟩
      rw [partOf_rdAccept, partOf, tableTouch_parts, ← partOf, partOf_regionPut, hpart]
      exact ⟨tabFind_tabSet_same .., rfl, fun m hm => tabFind_tabSet_ne _ _ hm⟩
    · intro r hr
      refine ⟨exec_regionDescriptorWrite_of_used hfree hown hr, fun hunnamed => ?_, fun hk hdk hdo => ?_,
        fun hk hdk hne hdo hstaged => ?_⟩
      · refine ⟨_, exec_regionDescriptorClear_of_unnamed hfree hown hr hunnamed, ?_⟩
        rw [partOf_rdAccept, partOf_modPart_same]
        exact ⟨(tabFind_tabErase ..).trans (if_pos rfl), rfl, fun k y hy hl => flushed_of_clear hy hl⟩
      · have he := exec_regionDescriptorConvert_of_shared hfree hown hr hk hdk hdo
        refine ⟨_, he, execRegionDescriptorConvert_mem s num _ he, ?_⟩
        rw [partOf_rdAccept, partOf_regionConvert]
        exact ⟨rfl, tabFind_tabSet_same ..⟩
      · obtain ⟨ms, he⟩ := exec_regionDescriptorConvert_of_owned hfree hown hr hk hdk hne hdo hstaged
        refine ⟨_, he, execRegionDescriptorConvert_mem s num _ he, ?_⟩
        have hpart : partOf (markAll (rdNamed s p n) p).1 p = { x with rdNum := n } := by
          rw [partOf, parts_markAll]
          exact partOf_rdNamed_same ..
        rw [partOf_rdAccept, partOf_regionConvert, partOf_modPart_same, hpart]
        refine ⟨rfl, tabFind_tabSet_same .., ⟨ms, rfl⟩, fun a ha => ?_⟩
        rw [fifo_rdAccept_regionConvert, fifo_markAll (by rwa [partArrs_rdNamed]), rdNamed, arrOf_modPart]
    · refine congrArg Host.Outcome.next (congrArg (setPart s p) ?_)
      by_cases hreg : x.regions = []
      · rw [if_pos hreg]
        exact if_pos (List.isEmpty_iff.2 hreg)
      · rw [if_neg hreg]
        exact if_neg fun h => hreg (List.isEmpty_iff.1 h)

end Sys2Proof.Machine

namespace Sys2Proof.Machine
open Sys2Proof

/-! ## Loading and revoking a key -/

section
variable {s : State} {slot : BitVec 8} {num : BitVec 14}

theorem keyBusy_iff (x : PartS) : keyBusy x = true ↔ x.revoking ≠ [] ∨ x.rekey ≠ none := by
  simp [keyBusy, Option.isSome_iff_ne_none]

theorem keyBusy_eq_false {x : PartS} (h : x.revoking = []) (h' : x.rekey = none) : keyBusy x = false := by
  rw [keyBusy, h, h']
  rfl

/-- A command while one runs answers ERR 4. -/
theorem exec_key_of_busy (h : keyBusy (partOf s s.cur.part) = true) {i : Instr}
    (hi : i ∈ [Instr.keyLoad slot, .keyRevoke slot, .rekeyStart num slot]) :
    exec i s = .next (setPart s s.cur.part { partOf s s.cur.part with keyErr := 4 }) := by
  simp only [List.mem_cons, List.not_mem_nil, or_false] at hi
  obtain rfl | rfl | rfl := hi
  · exact congrArg Host.Outcome.next (if_pos h)
  · exact congrArg Host.Outcome.next (if_pos h)
  · exact congrArg Host.Outcome.next (if_pos h)

/-- Word j of a half of KEYBUF. -/
theorem extract_keyBufHalf (x : PartS) (i : ℕ) {j : ℕ} (hj : j < 8) :
    (keyBufHalf x i).extractLsb' (32 * j) 32 = tabGet x.keyBuf 0 (8 * i + j) := by
  have hword := leNat_flatMap_leBytes 4 (fun j => (tabGet x.keyBuf 0 (8 * i + j)).toNat) (List.range 8) j (by simpa using hj)
  have hlen : leNat ((List.range 8).flatMap (fun j => leBytes 4 (tabGet x.keyBuf 0 (8 * i + j)).toNat)) < 2 ^ 256 :=
    (leNat_lt _).trans_eq (by simp [List.length_flatMap])
  apply BitVec.eq_of_toNat_eq
  rw [keyBufHalf, BitVec.extractLsb'_toNat, BitVec.toNat_ofNat, Nat.mod_eq_of_lt hlen, Nat.shiftRight_eq_div_pow]
  rw [List.getElem_range] at hword
  exact hword.trans (Nat.mod_eq_of_lt (tabGet x.keyBuf 0 (8 * i + j)).isLt)

theorem exec_keyLoad_of_loaded (h : keyBusy (partOf s s.cur.part) = false)
    (hl : (tabGet (partOf s s.cur.part).keys {} slot.toNat).loaded = true) :
    exec (.keyLoad slot) s = .next (setPart s s.cur.part { partOf s s.cur.part with keyErr := 2 }) :=
  congrArg Host.Outcome.next ((if_neg (by rw [h]; exact Bool.false_ne_true)).trans (if_pos hl))

/-- The slot that KEY_LOAD makes. -/
def loadedSlot (x : PartS) (k : ℕ) : KeySlot :=
  { kd := keyBufHalf x 0, kt := keyBufHalf x 1, loaded := true, domain := x.keyDom,
    epoch := ((tabGet x.keys {} k).epoch + 1) % 2 ^ 64, revoked := false }

theorem exec_keyLoad_of_empty (h : keyBusy (partOf s s.cur.part) = false)
    (hl : (tabGet (partOf s s.cur.part).keys {} slot.toNat).loaded = false) :
    exec (.keyLoad slot) s = .next (setPart s s.cur.part { partOf s s.cur.part with
      keyErr := 0, keyBuf := []
      keys := tabSet (partOf s s.cur.part).keys slot.toNat (loadedSlot (partOf s s.cur.part) slot.toNat) }) :=
  congrArg Host.Outcome.next ((if_neg (by rw [h]; exact Bool.false_ne_true)).trans
    (if_neg (by rw [hl]; exact Bool.false_ne_true)))

theorem exec_keyRevoke_of_idle (h : keyBusy (partOf s s.cur.part) = false) :
    exec (.keyRevoke slot) s = .next (setPart s s.cur.part { partOf s s.cur.part with
      keyErr := 0, revoking := [slot.toNat]
      keys := tabSet (partOf s s.cur.part).keys slot.toNat { tabGet (partOf s s.cur.part).keys {} slot.toNat with
        kd := 0, kt := 0, loaded := false, revoked := true } }) :=
  congrArg Host.Outcome.next (if_neg (by rw [h]; exact Bool.false_ne_true))

/-- A rekey makes its region read-only and notes what it is to do. -/
theorem exec_rekeyStart_of_idle {r : Region} (h : keyBusy (partOf s s.cur.part) = false)
    (hl : (tabGet (partOf s s.cur.part).keys {} slot.toNat).loaded = true)
    (hr : tabFind (partOf s s.cur.part).regions num.toNat = some r) :
    exec (.rekeyStart num slot) s = .next (postInval (setPart s s.cur.part { partOf s s.cur.part with
      keyErr := 0, keyDone := 0, doneAll := false
      rekey := some { region := num.toNat, slot := slot.toNat, old := r.slot, done := [], queued := [], cur := none,
                      host := (partOf s s.cur.part).keyMode }
      regions := tabSet (partOf s s.cur.part).regions num.toNat { r with ro := true } }) s.cur.part num.toNat) := by
  refine congrArg Host.Outcome.next ((if_neg (by rw [h]; exact Bool.false_ne_true)).trans
    ((if_neg (by rw [hl]; exact Bool.false_ne_true)).trans ?_))
  rw [hr]
  rfl
end
end Sys2Proof.Machine

namespace Sys2Proof.Machine
open Sys2Proof

/-! ## What leaves the requests that wait as they are -/

/-- The partitions and the requests at slices and controllers are as they were. -/
structure KeepsQueues (s t : State) : Prop where
  parts : t.parts = s.parts
  slice : ∀ k, (sliceOf t k).reqs = (sliceOf s k).reqs
  stack : ∀ k, (stackOf t k).reqs = (stackOf s k).reqs

theorem KeepsQueues.refl (s : State) : KeepsQueues s s := ⟨rfl, fun _ => rfl, fun _ => rfl⟩

theorem KeepsQueues.trans {s t u : State} (h : KeepsQueues s t) (g : KeepsQueues t u) : KeepsQueues s u :=
  ⟨g.parts.trans h.parts, fun k => (g.slice k).trans (h.slice k), fun k => (g.stack k).trans (h.stack k)⟩

theorem keepsQueues_of_eq {s t : State} (hp : t.parts = s.parts) (hs : t.slices = s.slices) (hk : t.stks = s.stks) :
    KeepsQueues s t :=
  ⟨hp, fun k => by rw [sliceOf, hs, sliceOf], fun k => by rw [stackOf, hk, stackOf]⟩

theorem keepsQueues_foldl {ι : Type} {step : State → ι → State} (h : ∀ s i, KeepsQueues s (step s i)) (l : List ι)
    (s : State) : KeepsQueues s (l.foldl step s) := foldl_induct .refl .trans h l s

theorem keepsQueues_setSlice (s : State) (k : ℕ) {x : SliceS} (h : x.reqs = (sliceOf s k).reqs) :
    KeepsQueues s (setSlice s k x) := by
  refine ⟨rfl, fun j => ?_, fun _ => rfl⟩
  rw [sliceOf_setSlice]
  split
  · next hj => rw [h, hj]
  · rfl

theorem keepsQueues_modSlice (s : State) (k : ℕ) {f : SliceS → SliceS} (h : ∀ x, (f x).reqs = x.reqs) :
    KeepsQueues s (modSlice s k f) := keepsQueues_setSlice s k (h _)

theorem keepsQueues_modStack (s : State) (k : ℕ) {f : StackS → StackS} (h : ∀ x, (f x).reqs = x.reqs) :
    KeepsQueues s (modStack s k f) := by
  refine ⟨rfl, fun _ => rfl, fun j => ?_⟩
  obtain rfl | hj := eq_or_ne j k
  · rw [stackOf_modStack_same, h]
  · rw [stackOf_modStack_ne _ _ hj]

theorem keepsQueues_modArr (s : State) (p : ℕ) (f : ArrayS → ArrayS) : KeepsQueues s (modArr s p f) :=
  keepsQueues_of_eq rfl rfl rfl

theorem keepsQueues_logLine (s : State) (cls syn l : ℕ) : KeepsQueues s (logLine s cls syn l) := by
  obtain ⟨_, _, h⟩ := logLine_eq s cls syn l
  rw [h]
  exact keepsQueues_of_eq rfl rfl rfl

theorem keepsQueues_drainArrived (s : State) (who : Requester) : KeepsQueues s (drainArrived s who) := by
  cases who with
  | drain p key => exact keepsQueues_of_eq rfl rfl rfl
  | _ => exact .refl s

theorem keepsQueues_l2Unpin (s : State) (l : ℕ) : KeepsQueues s (l2Unpin s l) :=
  keepsQueues_modSlice s _ fun x => by
    split
    · rfl
    · dsimp only
      split
      · rfl
      · rfl

theorem keepsQueues_deliverLine (s : State) (who : Requester) (v : LineVal) (pin : Option ℕ) :
    KeepsQueues s (deliverLine s who v pin) := by
  cases who with
  | load p ep reg off size zx ov om op =>
    unfold deliverLine
    dsimp only
    split
    · exact .refl s
    · exact keepsQueues_of_eq rfl rfl rfl
  | land p ep slot line =>
    unfold deliverLine
    dsimp only
    split
    · split
      · exact keepsQueues_l2Unpin ..
      · exact .refl s
    · exact keepsQueues_of_eq rfl rfl rfl
  | engine i p b => exact keepsQueues_of_eq rfl rfl rfl
  | drain p key => exact .refl s
  | nobody => exact .refl s

theorem keepsQueues_winOnward (s : State) (b : ℕ) (who : Requester) (v : LineVal) :
    KeepsQueues s (winOnward s b who v) := by
  unfold winOnward
  dsimp only
  split
  · exact .refl s
  · split
    · exact keepsQueues_deliverLine ..
    · exact keepsQueues_of_eq rfl rfl rfl

theorem keepsQueues_winLine (s : State) (w b : ℕ) (who : Requester) (v : LineVal) :
    KeepsQueues s (netGive s (.winLine w b who v)) := by
  obtain ⟨u, v', h, hu⟩ : ∃ u v', netGive s (.winLine w b who v) = winOnward u b who v' ∧ KeepsQueues s u :=
    ⟨_, _, rfl, keepsQueues_of_eq rfl rfl rfl⟩
  rw [h]
  exact hu.trans (keepsQueues_winOnward ..)

/-- A line sent to who asked comes to no queue of requests. -/
theorem keepsQueues_sendLine (s : State) (k : ℕ) (r : SliceReq) (v : LineVal) (pin : Option ℕ) :
    KeepsQueues s (sendLine s k r v pin) := by
  unfold sendLine netSend
  dsimp only
  split
  · split
    · exact keepsQueues_winLine ..
    · exact keepsQueues_of_eq rfl rfl rfl
  · split
    · exact keepsQueues_deliverLine ..
    · exact keepsQueues_of_eq rfl rfl rfl
  · exact .refl s

theorem keepsQueues_stackGone (s : State) (k : ℕ) (r : StackReq) : KeepsQueues s (stackGone s k r) := by
  unfold stackGone
  dsimp only
  refine (keepsQueues_modStack s k fun x => ?_).trans (KeepsQueues.trans (keepsQueues_setSlice _ r.from_ ?_)
    (keepsQueues_foldl (fun _ _ => keepsQueues_sendLine ..) _ _))
  · rfl
  · rfl

theorem keepsQueues_packetGone (s : State) (x : Packet) : KeepsQueues s (packetGone s x) := by
  unfold packetGone
  split
  · exact keepsQueues_drainArrived ..
  · exact keepsQueues_stackGone ..
  · exact keepsQueues_drainArrived ..
  · exact .refl s

/-! ## The writes under a revoked slot -/

theorem tabGet_map_key {α : Type} (t : Tab α) (d : α) (f : ℕ → α → α) (k : ℕ) (h : f k d = d) :
    tabGet (t.map (fun x => (x.1, f x.1 x.2))) d k = f k (tabGet t d k) := by
  induction t with
  | nil => exact h.symm
  | cons x t ih =>
    obtain ⟨j, v⟩ := x
    rw [List.map_cons, tabGet, tabGet]
    split
    · next hj => rw [hj]
    · exact ih

/-- The state whose queues hold no write under the slot any more; what was discarded has yet to be accounted for. -/
def writesDropped (s : State) (p slot : ℕ) : State :=
  let keep (q : ℕ × List Packet) : ℕ × List Packet := (q.1, q.2.filter (fun x => !packetUnder s p slot x))
  { s with
    routers := s.routers.map (fun x => (x.1, { x.2 with ring := x.2.ring.map keep, enter := x.2.enter.map keep }))
    slices := s.slices.map (fun x => (x.1, { x.2 with reqs := x.2.reqs.filter (fun r => !sliceWritesUnder s p slot r) }))
    stks := s.stks.map (fun x => (x.1, { x.2 with reqs := x.2.reqs.filter (fun r => !writesUnder s p slot x.1 r) }))
    hub := { s.hub with bridge := s.hub.bridge.filter (fun r => !(r.write && winUnder s p slot r.win)) } }

theorem reqs_sliceOf_writesDropped (s : State) (p slot k : ℕ) : (sliceOf (writesDropped s p slot) k).reqs =
    (sliceOf s k).reqs.filter (fun r => !sliceWritesUnder s p slot r) :=
  congrArg SliceS.reqs (tabGet_map s.slices {} (fun x : SliceS => { x with
    reqs := x.reqs.filter (fun r => !sliceWritesUnder s p slot r) }) k rfl)

theorem reqs_stackOf_writesDropped (s : State) (p slot k : ℕ) : (stackOf (writesDropped s p slot) k).reqs =
    (stackOf s k).reqs.filter (fun r => !writesUnder s p slot k r) :=
  congrArg StackS.reqs (tabGet_map_key s.stks {} (fun (j : ℕ) (x : StackS) => { x with
    reqs := x.reqs.filter (fun r => !writesUnder s p slot j r) }) k rfl)

/-- The accounting changes no queue. -/
theorem keepsQueues_discardWrites (s : State) (p slot : ℕ) :
    KeepsQueues (writesDropped s p slot) (discardWrites s p slot) :=
  (keepsQueues_foldl (fun _ _ => keepsQueues_drainArrived ..) _ _).trans
    ((keepsQueues_foldl keepsQueues_packetGone _ _).trans
      ((keepsQueues_foldl (fun _ _ => keepsQueues_drainArrived ..) _ _).trans
        (keepsQueues_foldl (fun _ _ => keepsQueues_stackGone ..) _ _)))
end Sys2Proof.Machine

namespace Sys2Proof.Machine
open Sys2Proof

/-! ## A revocation at the slices -/

/-- What one step of a fold makes true and every step keeps holds after it. -/
theorem foldl_reaches {σ ι : Type} {P : σ → Prop} {step : σ → ι → σ} {l : List ι} {i : ι} (hi : i ∈ l)
    (hmake : ∀ s, P (step s i)) (hkeep : ∀ s j, P s → P (step s j)) (s : σ) : P (l.foldl step s) := by
  obtain ⟨pre, post, rfl⟩ := List.append_of_mem hi
  rw [List.foldl_append, List.foldl_cons]
  clear hi
  have ht := hmake (pre.foldl step s)
  generalize step (pre.foldl step s) i = t at ht ⊢
  induction post generalizing t with
  | nil => exact ht
  | cons j post ih => exact ih _ (hkeep t j ht)

/-- Lines dropped from one slice: what it holds after was there and is none of them, and the others stand. -/
theorem mem_lines_dropAll {ls : List L2Line} {s : State} {k j : ℕ} {z : L2Line}
    (h : z ∈ (sliceOf (ls.foldl (fun s y => modSlice s k (fun x => l2Drop x y)) s) j).lines) :
    z ∈ (sliceOf s j).lines ∧ (j = k → ∀ y ∈ ls, z.line ≠ y.line) := by
  induction ls generalizing s with
  | nil => exact ⟨h, fun _ _ hy => absurd hy List.not_mem_nil⟩
  | cons y ls ih =>
    obtain ⟨hz, hrest⟩ := ih h
    obtain rfl | hj := eq_or_ne j k
    · rw [sliceOf_modSlice_same] at hz
      obtain ⟨hmem, hne⟩ := List.mem_filter.1 hz
      refine ⟨hmem, fun _ y' hy' => ?_⟩
      obtain rfl | hy' := List.mem_cons.1 hy'
      · simpa using hne
      · exact hrest rfl y' hy'
    · rw [sliceOf_modSlice_ne _ _ hj] at hz
      exact ⟨hz, fun h => absurd h hj⟩

theorem sliceRevoke_eq (s : State) (b i slot : ℕ) : ∃ t, KeepsLines s t ∧ KeepsQueues s t ∧
    sliceRevoke s b i slot = ((sliceOf s (sliceKey b i)).lines.filter (fun y => y.slot = slot)).foldl
      (fun s y => modSlice s (sliceKey b i) (fun x => l2Drop x y)) t := by
  unfold sliceRevoke
  dsimp only
  split
  · next h => exact ⟨s, .refl s, .refl s, by rw [h]; rfl⟩
  · next y _ h => exact ⟨_, keepsLines_logLine .., keepsQueues_logLine .., by rw [h]⟩

theorem mem_lines_sliceRevoke {s : State} {b i slot j : ℕ} {z : L2Line}
    (h : z ∈ (sliceOf (sliceRevoke s b i slot) j).lines) :
    z ∈ (sliceOf s j).lines ∧ (j = sliceKey b i → z.slot ≠ slot) := by
  obtain ⟨t, ht, -, he⟩ := sliceRevoke_eq s b i slot
  rw [he] at h
  obtain ⟨hz, hne⟩ := mem_lines_dropAll h
  rw [ht.lines] at hz
  refine ⟨hz, fun hj hs => hne hj z (List.mem_filter.2 ⟨hj ▸ hz, decide_eq_true hs⟩) rfl⟩

theorem keepsQueues_sliceRevoke (s : State) (b i slot : ℕ) : KeepsQueues s (sliceRevoke s b i slot) := by
  obtain ⟨t, -, ht, he⟩ := sliceRevoke_eq s b i slot
  rw [he]
  exact ht.trans (keepsQueues_foldl (fun u y => keepsQueues_modSlice u _ (f := fun x => l2Drop x y) fun _ => rfl) _ t)

/-- The slices of bulkhead b have applied a revocation. -/
def bhRevoked (slot : ℕ) (s : State) (b : ℕ) : State := (List.range 96).foldl (fun s i => sliceRevoke s b i slot) s

theorem keepsQueues_bhRevoked (slot : ℕ) (s : State) (b : ℕ) : KeepsQueues s (bhRevoked slot s b) :=
  keepsQueues_foldl (fun _ _ => keepsQueues_sliceRevoke ..) _ s

/-- No line under the slot in slice k. -/
def NoneUnder (slot k : ℕ) (s : State) : Prop := ∀ y ∈ (sliceOf s k).lines, y.slot ≠ slot

theorem noneUnder_sliceRevoke {slot k : ℕ} {s : State} (b i : ℕ) (h : NoneUnder slot k s) :
    NoneUnder slot k (sliceRevoke s b i slot) := fun y hy => h y (mem_lines_sliceRevoke hy).1

theorem noneUnder_bhRevoked {slot k : ℕ} {s : State} (b : ℕ) (h : NoneUnder slot k s) :
    NoneUnder slot k (bhRevoked slot s b) := by
  unfold bhRevoked
  generalize List.range 96 = l
  induction l generalizing s with
  | nil => exact h
  | cons i l ih => exact ih (noneUnder_sliceRevoke b i h)

theorem noneUnder_bhRevoked_self (slot b : ℕ) {i : ℕ} (hi : i < 96) (s : State) :
    NoneUnder slot (sliceKey b i) (bhRevoked slot s b) :=
  foldl_reaches (List.mem_range.2 hi) (fun _ _ hy => (mem_lines_sliceRevoke hy).2 rfl)
    (fun _ j h => noneUnder_sliceRevoke b j h) s

/-- The slices of a partition have. -/
def slicesRevoked (s : State) (p slot : ℕ) : State := (partBhs s p).foldl (bhRevoked slot) s

theorem keepsQueues_slicesRevoked (s : State) (p slot : ℕ) : KeepsQueues s (slicesRevoked s p slot) :=
  keepsQueues_foldl (keepsQueues_bhRevoked slot) _ s

theorem noneUnder_slicesRevoked {s : State} {p b i : ℕ} (slot : ℕ) (hb : b ∈ partBhs s p) (hi : i < 96) :
    NoneUnder slot (sliceKey b i) (slicesRevoked s p slot) :=
  foldl_reaches hb (noneUnder_bhRevoked_self slot b hi) (fun _ c h => noneUnder_bhRevoked c h) s

/-! ## A revocation at the egress caches -/

theorem not_gone_of_mem_egDiscard {gone : ℕ × EgLine → Bool} {a : ArrayS} {e : ℕ × EgLine}
    (h : e ∈ (egDiscard gone a).eg) : e ∈ a.eg ∧ gone e = false := by
  obtain ⟨hmem, hkey⟩ := List.mem_filter.1 h
  refine ⟨hmem, ?_⟩
  by_contra hg
  rw [Bool.not_eq_false] at hg
  rw [Bool.not_eq_true', List.contains_eq_mem, decide_eq_false_iff_not] at hkey
  exact hkey (List.mem_map.2 ⟨e, List.mem_filter.2 ⟨hmem, hg⟩, rfl⟩)

/-- No write of the array's own partition under the slot. -/
def EgClean (slot : ℕ) (a : ArrayS) : Prop := ∀ e ∈ a.eg, e.2.win = none → e.2.slot ≠ slot

theorem EgClean.egDiscard {slot : ℕ} {a : ArrayS} (h : EgClean slot a) (gone : ℕ × EgLine → Bool) :
    EgClean slot (egDiscard gone a) := fun e he => h e (not_gone_of_mem_egDiscard he).1

theorem egClean_egRevoke (slot : ℕ) (a : ArrayS) : EgClean slot (egRevoke slot a) := by
  intro e he hw hs
  have hgone := (not_gone_of_mem_egDiscard he).2
  simp [hw, hs] at hgone

/-- An array of the partition, where it has a state, has discarded its writes. -/
def arrRevoked (slot : ℕ) (s : State) (q : ℕ) : State := if (tabFind s.arrs q).isSome then modArr s q (egRevoke slot) else s

theorem egClean_arrRevoked_self (slot q : ℕ) (s : State) : EgClean slot (arrOf (arrRevoked slot s q) q) := by
  unfold arrRevoked
  split
  · rw [arrOf_modArr_same]
    exact egClean_egRevoke slot _
  · next h =>
    rw [arrOf, tabGet_eq_getD, Option.not_isSome_iff_eq_none.1 h]
    exact fun e he => absurd he List.not_mem_nil

theorem egClean_arrRevoked {slot a : ℕ} {s : State} (q : ℕ) (h : EgClean slot (arrOf s a)) :
    EgClean slot (arrOf (arrRevoked slot s q) a) := by
  obtain rfl | hq := eq_or_ne a q
  · exact egClean_arrRevoked_self slot a s
  · unfold arrRevoked
    split
    · rwa [arrOf_modArr_ne _ _ hq]
    · exact h

/-- The arrays of a partition have discarded their writes under the slot, and every array those through windows. -/
def egressRevoked (s : State) (p slot : ℕ) : State :=
  let t := (partArrs s p).foldl (arrRevoked slot) s
  { t with arrs := t.arrs.map (fun (a : ℕ × ArrayS) => (a.1, egRevokeWin t p slot a.2)) }

theorem arrOf_egressRevoked (s : State) (p slot a : ℕ) : arrOf (egressRevoked s p slot) a =
    egRevokeWin ((partArrs s p).foldl (arrRevoked slot) s) p slot (arrOf ((partArrs s p).foldl (arrRevoked slot) s) a) :=
  tabGet_map ((partArrs s p).foldl (arrRevoked slot) s).arrs {}
    (egRevokeWin ((partArrs s p).foldl (arrRevoked slot) s) p slot) a rfl

theorem egClean_egressRevoked {s : State} {p a : ℕ} (slot : ℕ) (ha : a ∈ partArrs s p) :
    EgClean slot (arrOf (egressRevoked s p slot) a) := by
  rw [arrOf_egressRevoked]
  exact EgClean.egDiscard (foldl_reaches (P := fun t => EgClean slot (arrOf t a)) ha (egClean_arrRevoked_self slot a)
    (fun _ q h => egClean_arrRevoked q h) s) _

theorem slices_arrsRevoked (slot : ℕ) (l : List ℕ) (s : State) : (l.foldl (arrRevoked slot) s).slices = s.slices ∧
    (l.foldl (arrRevoked slot) s).stks = s.stks ∧ (l.foldl (arrRevoked slot) s).parts = s.parts :=
  foldl_induct (R := fun s t => t.slices = s.slices ∧ t.stks = s.stks ∧ t.parts = s.parts)
    (fun _ => ⟨rfl, rfl, rfl⟩) (fun ⟨h, h', h''⟩ ⟨g, g', g''⟩ => ⟨g.trans h, g'.trans h', g''.trans h''⟩)
    (fun t q => by unfold arrRevoked; split <;> exact ⟨rfl, rfl, rfl⟩) l s

/-- The arrays' part changes no slice and no controller. -/
theorem keepsQueues_egressRevoked (s : State) (p slot : ℕ) : KeepsQueues s (egressRevoked s p slot) := by
  obtain ⟨h, h', h''⟩ := slices_arrsRevoked slot (partArrs s p) s
  exact keepsQueues_of_eq h'' h h'

theorem keepsLines_egressRevoked (s : State) (p slot : ℕ) : KeepsLines s (egressRevoked s p slot) :=
  keepsLines_of_slices (slices_arrsRevoked slot (partArrs s p) s).1

/-! ## A revocation applied -/

/-- Everywhere a revocation is applied. -/
def revokedAll (s : State) (p slot : ℕ) : State :=
  egressRevoked (slicesRevoked (discardWrites s p slot) p slot) p slot

theorem exec_revocationApplied_of_running {s : State} {slot : BitVec 8}
    (h : slot.toNat ∈ (partOf s s.cur.part).revoking) : exec (.revocationApplied slot) s =
      .next (modPart (revokedAll s s.cur.part slot.toNat) s.cur.part
        (fun x => { x with revoking := x.revoking.filter (fun j => j ≠ slot.toNat) })) :=
  congrArg Host.Outcome.next (if_neg (by simpa using h))

theorem keepsQueues_revokedAll (s : State) (p slot : ℕ) : KeepsQueues (writesDropped s p slot) (revokedAll s p slot) :=
  (keepsQueues_discardWrites ..).trans ((keepsQueues_slicesRevoked ..).trans (keepsQueues_egressRevoked ..))

theorem partBhs_of_parts {s t : State} (h : t.parts = s.parts) (p : ℕ) : partBhs t p = partBhs s p := by
  rw [partBhs, partSize, partOf, h, partBhs, partSize, partOf]

theorem partArrs_of_parts {s t : State} (h : t.parts = s.parts) (p : ℕ) : partArrs t p = partArrs s p := by
  rw [partArrs, partSize, partOf, h, partArrs, partSize, partOf]

theorem parts_discardWrites (s : State) (p slot : ℕ) : (discardWrites s p slot).parts = s.parts :=
  (keepsQueues_discardWrites s p slot).parts

theorem noneUnder_revokedAll {s : State} {p b i : ℕ} (slot : ℕ) (hb : b ∈ partBhs s p) (hi : i < 96) :
    NoneUnder slot (sliceKey b i) (revokedAll s p slot) := by
  intro y hy
  rw [revokedAll, (keepsLines_egressRevoked ..).lines] at hy
  rw [← partBhs_of_parts (parts_discardWrites s p slot)] at hb
  exact noneUnder_slicesRevoked slot hb hi y hy

theorem egClean_revokedAll {s : State} {p a : ℕ} (slot : ℕ) (ha : a ∈ partArrs s p) :
    EgClean slot (arrOf (revokedAll s p slot) a) := by
  refine egClean_egressRevoked slot ?_
  rwa [partArrs_of_parts ((keepsQueues_slicesRevoked _ p slot).parts.trans (parts_discardWrites s p slot))]

theorem not_sliceWritesUnder_revokedAll {s : State} {p slot j : ℕ} {r : SliceReq}
    (h : r ∈ (sliceOf (revokedAll s p slot) j).reqs) : sliceWritesUnder s p slot r = false := by
  rw [(keepsQueues_revokedAll ..).slice, reqs_sliceOf_writesDropped] at h
  simpa using (List.mem_filter.1 h).2

theorem not_writesUnder_revokedAll {s : State} {p slot j : ℕ} {r : StackReq}
    (h : r ∈ (stackOf (revokedAll s p slot) j).reqs) : writesUnder s p slot j r = false := by
  rw [(keepsQueues_revokedAll ..).stack, reqs_stackOf_writesDropped] at h
  simpa using (List.mem_filter.1 h).2

end Sys2Proof.Machine

namespace Sys2Proof.Machine
open Sys2Proof

/-! ## The lines of memory by bytes -/

theorem getD_lineBytes (d : BitVec 512) {i : ℕ} (h : i < 64) : (lineBytes d).getD i 0 = lineByte d i := by
  have hlen : i < (lineBytes d).length := by
    rw [lineBytes, length_leBytes]
    exact h
  rw [List.getD_eq_getElem _ _ hlen]
  apply BitVec.eq_of_toNat_eq
  have hpow : (256 : ℕ) ^ i = 2 ^ (8 * i) := by rw [Nat.pow_mul]
  simp only [lineBytes, getElem_leBytes _ _ _ h, BitVec.toNat_ofNat, BitVec.extractLsb'_toNat, Nat.shiftRight_eq_div_pow,
    hpow]

/-- A line put into memory changes its own bytes. -/
theorem memGet_putBytes (m : Memory) (l : ℕ) (d : BitVec 512) (a : ℕ) :
    memGet (memPut m (64 * l) (lineBytes d)) a = if a / 64 = l then lineByte d (a % 64) else memGet m a := by
  rw [memGet_memPut, lineBytes, length_leBytes, ← lineBytes]
  by_cases h : a / 64 = l
  · rw [if_pos (by omega), if_pos h, show a - 64 * l = a % 64 by omega, getD_lineBytes _ (Nat.mod_lt _ (by decide))]
  · rw [if_neg (by omega), if_neg h]

/-- Lines put into memory one after the other, each with bytes of its own. -/
theorem memGet_putEach (g : ℕ → BitVec 512) (ls : List ℕ) (m : Memory) (a : ℕ) :
    memGet (ls.foldl (fun m i => memPut m (64 * i) (lineBytes (g i))) m) a =
      if a / 64 ∈ ls then lineByte (g (a / 64)) (a % 64) else memGet m a := by
  induction ls generalizing m with
  | nil => rfl
  | cons l ls ih =>
    rw [List.foldl_cons, ih, memGet_putBytes]
    by_cases hmem : a / 64 ∈ ls
    · rw [if_pos hmem, if_pos (.tail _ hmem)]
    · by_cases hl : a / 64 = l
      · rw [if_neg hmem, if_pos hl, if_pos (by rw [hl]; exact .head _), hl]
      · rw [if_neg hmem, if_neg hl, if_neg (by simp [hl, hmem])]

/-! ## The lines of a chunk under the new key -/

/-- A line with flipped bits has an entry. -/
theorem mem_lmeta_of_flips {s : State} {l : ℕ} (h : (lineMeta s l).flips ≠ []) : (l, lineMeta s l) ∈ s.lmeta :=
  (tabGet_mem_or_default s.lmeta {} l).resolve_right fun he => h (by rw [lineMeta, he])

theorem rekeyLost_iff (s : State) (p : ℕ) (k : RekeyS) (l : ℕ) : rekeyLost s p k l = true ↔
    (lineMeta s l).poison = true ∨ keyRevoked s p k.old = true ∨ (readErr s p k.old l).1 = .uncorrectable ∨
      (readErr s p k.old l).1 = .tag := by
  unfold rekeyLost
  cases (readErr s p k.old l).1 <;> simp

theorem rekeyLog_parts (s : State) (p : ℕ) (k : RekeyS) (t : State) (l : ℕ) : (rekeyLog s p k t l).parts = t.parts := by
  have hlog (c n : ℕ) : (logLine t c n l).parts = t.parts := by
    obtain ⟨_, _, h⟩ := logLine_eq t c n l
    rw [h]
  unfold rekeyLog
  split
  · rfl
  · split
    · exact hlog ..
    · exact hlog ..
    · exact hlog ..
    · rfl

theorem rekeyLines_parts (s : State) (p : ℕ) (k : RekeyS) (r : Region) (c : ℕ) : (rekeyLines s p k r c).parts = s.parts :=
  foldl_parts (rekeyLog_parts s p k) _ s

/-- The lines of a chunk: from its first, as many as a chunk or the region holds. -/
def chunkFirst (r : Region) (c : ℕ) : ℕ := r.pbase / 64 + c * 2 ^ 18
def chunkLines (r : Region) : ℕ := min (2 ^ 18) (2 ^ r.k / 64)

/-- The lines of a chunk that have an entry of metadata. -/
def chunkListed (s : State) (r : Region) (c : ℕ) : List ℕ :=
  (s.lmeta.filter (fun x => chunkFirst r c ≤ x.1 && x.1 < chunkFirst r c + chunkLines r)).map (fun x => x.1)

theorem mem_chunkListed {s : State} {r : Region} {c l : ℕ} (hf : (lineMeta s l).flips ≠ []) :
    l ∈ chunkListed s r c ↔ chunkFirst r c ≤ l ∧ l < chunkFirst r c + chunkLines r := by
  refine ⟨fun h => ?_, fun h => List.mem_map.2 ⟨_, List.mem_filter.2 ⟨mem_lmeta_of_flips hf, by simpa using h⟩, rfl⟩⟩
  obtain ⟨x, hx, rfl⟩ := List.mem_map.1 h
  simpa using (List.mem_filter.1 hx).2

/-- Memory after a chunk is rekeyed: the lines whose flipped bits are corrected have their bytes again. -/
theorem memGet_rekeyLines (s : State) (p : ℕ) (k : RekeyS) (r : Region) (c a : ℕ) :
    memGet (rekeyLines s p k r c).mem a =
      if a / 64 ∈ (chunkListed s r c).filter (fun i => (lineMeta s i).flips ≠ [] && !rekeyLost s p k i) then
        lineByte (lineUnder s p k.old (a / 64)) (a % 64) else memGet s.mem a :=
  memGet_putEach (lineUnder s p k.old) ((chunkListed s r c).filter (fun i =>
    (lineMeta s i).flips ≠ [] && !rekeyLost s p k i)) s.mem a

theorem lineMeta_rekeyLines (s : State) (p : ℕ) (k : RekeyS) (r : Region) (c l : ℕ) :
    lineMeta (rekeyLines s p k r c) l =
      if chunkFirst r c ≤ l ∧ l < chunkFirst r c + chunkLines r then rekeyMeta s p k l else lineMeta s l :=
  tabGet_mapMeta s.lmeta (chunkFirst r c) (chunkLines r) (rekeyMeta s p k) l

theorem mem_setInsert (l : List ℕ) (x d : ℕ) : d ∈ setInsert l x ↔ d = x ∨ d ∈ l := by
  induction l with
  | nil => simp [setInsert]
  | cons y l ih =>
    unfold setInsert
    split
    · simp
    · split
      · next h => simp [h]
      · rw [List.mem_cons, ih, List.mem_cons]
        tauto

/-! ## The events of a rekey -/

section
variable {s : State} {chunk : BitVec 12} {y : RekeyS} {r : Region}
  (hy : (partOf s s.cur.part).rekey = some y) (hr : tabFind (partOf s s.cur.part).regions y.region = some r)
include hy hr

theorem exec_rekeyChunk_of_room (hhost : y.host = true) (hc : chunk.toNat < rekeyChunks r) (hq : y.queued.length < 4) :
    exec (.rekeyChunk chunk) s = .next (setPart s s.cur.part { partOf s s.cur.part with
      keyErr := 0
      rekey := some (if y.cur = none then { y with cur := some chunk.toNat }
        else { y with queued := y.queued ++ [chunk.toNat] }) }) := by
  refine congrArg Host.Outcome.next ?_
  dsimp only
  rw [hy]
  dsimp only
  rw [hr]
  refine (if_neg (by simpa [hhost] using hc)).trans ((if_neg (by simpa using hq)).trans ?_)
  cases hcur : y.cur with
  | none => rw [if_pos rfl]; rfl
  | some d => rw [if_neg (Option.some_ne_none d)]; rfl

/-- What a rekey has still to do once a chunk is done. -/
def rekeyStep (y : RekeyS) (c : ℕ) : RekeyS :=
  { y with done := setInsert y.done c, cur := y.queued.head?, queued := y.queued.drop 1 }

theorem exec_rekeyChunkComplete_of_next {c : ℕ} (hc : rekeyNext y r = some c) (hnew : c ∉ y.done) (hwin : r.win = false) :
    exec .rekeyChunkComplete s = .next (modPart (rekeyLines s s.cur.part y r c) s.cur.part
      (fun x => { x with rekey := some (rekeyStep y c), keyDone := (rekeyStep y c).done.length })) := by
  refine congrArg Host.Outcome.next ?_
  dsimp only
  rw [hy]
  dsimp only
  rw [hr]
  dsimp only
  rw [hc]
  dsimp only
  rw [if_neg (by simp [hnew, hwin])]
  rfl

theorem exec_rekeyComplete_of_done (hd : rekeyChunks r ≤ y.done.length) :
    ∃ u : State, u.parts = s.parts ∧ exec .rekeyComplete s = .next (postInval (rcRefresh (modPart u s.cur.part
      (fun x => { x with rekey := none, doneAll := true
                         regions := tabSet x.regions y.region { r with slot := y.slot, ro := false } })) s.cur.part)
      s.cur.part y.region) := by
  refine ⟨retag (r.pbase / 64) ((r.pbase + 2 ^ r.k) / 64) y.slot s, rfl, congrArg Host.Outcome.next ?_⟩
  dsimp only
  rw [hy]
  dsimp only
  rw [hr]
  exact if_neg (not_lt.2 hd)
end

theorem rcRefresh_parts (s : State) (p : ℕ) : (rcRefresh s p).parts = s.parts :=
  foldl_parts (fun t q => by split <;> rfl) _ s
end Sys2Proof.Machine

namespace Sys2Proof.Machine
open Sys2Proof

/-! ## The obligation -/

/-- What a chunk's memory says, in the words of the statement. -/
theorem memGet_rekeyLines_of_flips {s : State} {p : ℕ} {k : RekeyS} {r : Region} {c a : ℕ}
    (hin : chunkFirst r c ≤ a / 64 ∧ a / 64 < chunkFirst r c + chunkLines r) (hf : (lineMeta s (a / 64)).flips ≠ [])
    (hl : rekeyLost s p k (a / 64) = false) :
    memGet (rekeyLines s p k r c).mem a = lineByte (lineUnder s p k.old (a / 64)) (a % 64) := by
  rw [memGet_rekeyLines, if_pos]
  exact List.mem_filter.2 ⟨(mem_chunkListed hf).2 hin, by simp [hf, hl]⟩

theorem memGet_rekeyLines_of_else {s : State} {p : ℕ} {k : RekeyS} {r : Region} {c a : ℕ}
    (h : ¬ (chunkFirst r c ≤ a / 64 ∧ a / 64 < chunkFirst r c + chunkLines r) ∨ (lineMeta s (a / 64)).flips = [] ∨
      rekeyLost s p k (a / 64) = true) : memGet (rekeyLines s p k r c).mem a = memGet s.mem a := by
  rw [memGet_rekeyLines, if_neg]
  intro hmem
  obtain ⟨hlist, hcond⟩ := List.mem_filter.1 hmem
  rw [Bool.and_eq_true, decide_eq_true_eq, Bool.not_eq_true'] at hcond
  obtain h | h | h := h
  · exact h ((mem_chunkListed hcond.1).1 hlist)
  · exact hcond.1 h
  · exact Bool.false_ne_true (hcond.2.symm.trans h)

theorem partOf_postInval (s : State) (p n q : ℕ) : partOf (postInval s p n) q = partOf s q := by
  rw [partOf, postInval_parts, partOf]

theorem partOf_rcRefresh (s : State) (p q : ℕ) : partOf (rcRefresh s p) q = partOf s q := by
  rw [partOf, rcRefresh_parts, partOf]

theorem lineMeta_modPart (s : State) (p : ℕ) (f : PartS → PartS) (l : ℕ) : lineMeta (modPart s p f) l = lineMeta s l := rfl

theorem not_mem_revoking_done (u : State) (p k : ℕ) :
    k ∉ (partOf (modPart u p (fun x => { x with revoking := x.revoking.filter (fun j => j ≠ k) })) p).revoking := by
  rw [partOf_modPart_same]
  simp

theorem rekeyMeta_poison (s : State) (p : ℕ) (k : RekeyS) (l : ℕ) : (rekeyMeta s p k l).poison = rekeyLost s p k l := rfl

section
variable {s : State} {slot : BitVec 8}

/-- Once a revocation is applied, no slice or egress cache of the partition holds a line under the slot, and no write
under it waits. -/
theorem revocationApplied_state (hk : slot.toNat ∈ (partOf s s.cur.part).revoking) :
    ∃ t, exec (.revocationApplied slot) s = .next t ∧ t.mem = s.mem ∧ slot.toNat ∉ (partOf t s.cur.part).revoking ∧
      (∀ b ∈ partBhs s s.cur.part, ∀ i < 96, NoneUnder slot.toNat (sliceKey b i) t) ∧
      (∀ a ∈ partArrs s s.cur.part, EgClean slot.toNat (arrOf t a)) ∧
      (∀ j, ∀ r ∈ (sliceOf t j).reqs, sliceWritesUnder s s.cur.part slot.toNat r = false) ∧
      ∀ j, ∀ r ∈ (stackOf t j).reqs, writesUnder s s.cur.part slot.toNat j r = false := by
  have he := exec_revocationApplied_of_running hk
  refine ⟨_, he, execRevocationApplied_mem s slot _ he, ?_, fun b hb i hi y hy => ?_, fun a ha => ?_, fun j r hr => ?_,
    fun j r hr => ?_⟩
  · exact not_mem_revoking_done _ _ _
  · rw [sliceOf_modPart] at hy
    exact noneUnder_revokedAll _ hb hi y hy
  · rw [arrOf_modPart]
    exact egClean_revokedAll _ ha
  · rw [sliceOf_modPart] at hr
    exact not_sliceWritesUnder_revokedAll hr
  · rw [stackOf_modPart] at hr
    exact not_writesUnder_revokedAll hr
end

/-- Settles O51: the commands by the exact states they leave, a revocation by what each queue, slice and egress cache keeps,
a rekey by the bytes and the metadata of the chunk's lines. -/
theorem keyCommands : Obligations.KeyCommands := by
  intro s slot num chunk p x k
  refine ⟨fun hbusy i hi => exec_key_of_busy ((keyBusy_iff _).2 hbusy) hi, fun hrev hrek => ?_, fun hk => ?_,
    fun y r hy hr => ⟨?_, ?_, ?_⟩⟩
  · have hidle := keyBusy_eq_false hrev hrek
    refine ⟨exec_keyLoad_of_loaded hidle, fun hl => ⟨loadedSlot x k, exec_keyLoad_of_empty hidle hl, rfl, rfl, rfl, rfl,
      fun j hj => ⟨?_, ?_⟩⟩, exec_keyRevoke_of_idle hidle, fun r hl hr => ⟨_, exec_rekeyStart_of_idle hidle hl hr, ?_⟩⟩
    · exact (extract_keyBufHalf x 0 hj).trans (by rw [Nat.mul_zero, Nat.zero_add])
    · exact extract_keyBufHalf x 1 hj
    · rw [partOf_postInval, partOf_setPart_same, postInval_mem]
      exact ⟨rfl, tabFind_tabSet_same .., rfl, rfl⟩
  · obtain ⟨t, he, hmem, hrev, hlines, heg, hslice, hstack⟩ := revocationApplied_state hk
    refine ⟨t, he, hmem, hrev, hlines, heg, fun j r hr hw hs hown => ?_, fun j r hr hkind hkey l hl hown => ?_⟩
    · have hnot := hslice j r hr
      simp [sliceWritesUnder, hw, hs, hown.1, hown.2] at hnot
      exact hnot rfl rfl
    · have hnot := hstack j r hr
      simp [writesUnder, hkind, hkey, hl, hown.1, hown.2] at hnot
      exact hnot rfl rfl
  · exact fun hhost hc hq => exec_rekeyChunk_of_room hy hr hhost hc hq
  · intro c hc hnew hwin lo hi found lost
    have hlost (l : ℕ) : rekeyLost s p y l = true ↔ lost l := rekeyLost_iff s p y l
    refine ⟨_, exec_rekeyChunkComplete_of_next hy hr hc hnew hwin, fun a => ⟨fun ⟨hlo, hhi, hf, hl⟩ => ?_, fun h => ?_⟩,
      fun l hlo hhi => ?_, fun l hl => ?_, rekeyStep y c, ?_⟩
    · exact memGet_rekeyLines_of_flips ⟨hlo, hhi⟩ hf (Bool.eq_false_iff.2 fun h => hl ((hlost _).1 h))
    · refine memGet_rekeyLines_of_else ?_
      obtain h | h | h | h := h
      · exact .inl fun hin => absurd hin.1 (not_le.2 h)
      · exact .inl fun hin => absurd hin.2 (not_lt.2 h)
      · exact .inr (.inl h)
      · exact .inr (.inr ((hlost _).2 h))
    · rw [lineMeta_modPart, lineMeta_rekeyLines, if_pos ⟨hlo, hhi⟩]
      exact ⟨rfl, rfl, rfl, by rw [rekeyMeta_poison]; exact hlost l⟩
    · rw [lineMeta_modPart, lineMeta_rekeyLines, if_neg]
      rintro ⟨hlo, hhi⟩
      obtain h | h := hl
      · exact absurd hlo (not_le.2 h)
      · exact absurd hhi (not_lt.2 h)
    · rw [partOf_modPart_same]
      exact ⟨rfl, mem_setInsert y.done c, rfl⟩
  · intro hd
    obtain ⟨u, hu, he⟩ := exec_rekeyComplete_of_done hy hr hd
    refine ⟨_, he, execRekeyComplete_mem s _ he, ?_⟩
    rw [partOf_postInval, partOf_rcRefresh, partOf_modPart_same, partOf, hu, ← partOf]
    exact ⟨rfl, rfl, tabFind_tabSet_same ..⟩

end Sys2Proof.Machine

namespace Sys2Proof.Machine
open Sys2Proof

/-! ## A LINE of more than 30 bits

A stack's LINE has 30 bits (R65, R72), but the field of the model's request is a number without a bound. Past the 30th bit
the channel that the model's check asks for (`reqChan`, two sets of 16) is no longer the one that the statement asks for
(`lineChan` of the package line, which takes the bulkhead's parity). -/

/-- A read of LINE 2 ^ 30 of stack 0: package line 0 of bulkhead 2, whose channel is 0. -/
def wideRequest : StackReq :=
  { kind := .rd64, tag := 0, ch := 0, bh := 2, gen := 1, key := 0, prot := 0, line := 2 ^ 30, mask := 0, data := 0
    pois := false, from_ := 0 }

/-- It waits alone at the controller, and its line is stored poisoned. -/
def wideState : State :=
  { stks := [(0, { reqs := [wideRequest] })], lmeta := [(2 * bhLines, { poison := true })] }

theorem packageLine_wideRequest : packageLine 0 wideRequest.line = some (2 * bhLines) := by decide

/-- The model refuses it with status 7, as of a wrong channel. -/
theorem exec_rd64_wideState : exec .rd64 wideState = .next (giveReply (modStack wideState 0 (fun x => { x with reqs := [] }))
    0 wideRequest (stackReply wideRequest 0xB 7 false 0)) := rfl

/-- The kinds of the replies that have entered the torus. -/
def replyKinds (s : State) : List ℕ := s.routers.flatMap (fun x => x.2.enter.flatMap (fun q => q.2.filterMap (fun p =>
  match p.msg with
  | .stackReply _ r => some r.kind
  | _ => none)))

/-- Refutes O45: a read of LINE 2 ^ 30, past the 30 bits of the field, has the statement's channel and finds its line
poisoned, but the model answers status 7. -/
theorem not_stackRequests : ¬ Obligations.StackRequests := by
  intro h
  obtain ⟨-, -, -, -, hread, -⟩ := h.1 wideState .rd64 .rd64 [] [] wideRequest (2 * bhLines) List.mem_cons_self
    ⟨rfl, rfl, fun x hx => absurd hx List.not_mem_nil, fun u x v hu => absurd hu (by simp)⟩ packageLine_wideRequest
  have hpoison : (lineMeta wideState (2 * bhLines)).poison = true := by simp [lineMeta, wideState, tabGet]
  have hans := (hread rfl ⟨rfl, rfl, by decide, rfl⟩ rfl rfl rfl).1 hpoison
  rw [exec_rd64_wideState] at hans
  have hkinds := congrArg replyKinds (Host.Outcome.next.inj hans)
  exact absurd hkinds (by decide)

end Sys2Proof.Machine

namespace Sys2Proof.Machine
open Sys2Proof

/-! ## The request that a slice takes -/

/-- The slice takes the first request of its kind that no older one to its line stands before; `seen` are those already
passed over. -/
theorem pickSlice_append {w : Bool} (seen pre : List SliceReq) (r : SliceReq) (post : List SliceReq) (hw : r.write = w)
    (hseen : ∀ y ∈ seen, y.line ≠ r.line) (hline : ∀ y ∈ pre, y.line ≠ r.line)
    (hpre : ∀ u y v, pre = u ++ y :: v → y.write = w → ∃ z ∈ seen ++ u, z.line = y.line) :
    pickSlice w seen (pre ++ r :: post) = some (r, seen ++ pre ++ post) := by
  induction pre generalizing seen with
  | nil =>
    have hnone : seen.any (fun x => decide (x.line = r.line)) = false := by simpa using hseen
    rw [List.nil_append, pickSlice, if_pos (by rw [hw, hnone]; simp), List.append_nil]
  | cons a pre ih =>
    have hpass : ¬ ((a.write == w && !(seen.any (fun x => decide (x.line = a.line)))) = true) := by
      intro h
      obtain ⟨ha, hfree⟩ := Bool.and_eq_true_iff.1 h
      obtain ⟨z, hz, hza⟩ := hpre [] a pre rfl (by simpa using ha)
      simp only [Bool.not_eq_true', List.any_eq_false, decide_eq_true_eq] at hfree
      exact hfree z (by simpa using hz) hza
    rw [List.cons_append, pickSlice, if_neg hpass, ih (seen ++ [a])]
    · simp
    · intro y hy
      obtain hy | hy := List.mem_append.1 hy
      · exact hseen y hy
      · exact hline y (List.mem_singleton.1 hy ▸ List.mem_cons_self)
    · exact fun y hy => hline y (List.mem_cons_of_mem _ hy)
    · intro u y v hu hy
      obtain ⟨z, hz, hzy⟩ := hpre (a :: u) y v (by rw [hu, List.cons_append]) hy
      exact ⟨z, by simpa using hz, hzy⟩

theorem pickSlice_of_oldest {w : Bool} {l pre post : List SliceReq} {r : SliceReq}
    (h : Oldest (fun y => y.write = w) (fun y => y.line) l pre r post) : pickSlice w [] l = some (r, pre ++ post) := by
  obtain ⟨rfl, hw, hline, hpre⟩ := h
  exact pickSlice_append [] pre r post hw (fun _ hy => absurd hy List.not_mem_nil) hline hpre

/-- A reader's wish to pin its line looks at the epochs of the arrays alone. -/
theorem wantsPin_of_epochs {s t : State} (h : ∀ q, (arrOf t q).epoch = (arrOf s q).epoch) (k : ℕ) (r : SliceReq) :
    wantsPin t k r = wantsPin s k r := by
  have hlive : readerLive t r.who = readerLive s r.who := by
    unfold readerLive
    split
    · rw [h]
    · rw [h]
    · rfl
  rw [wantsPin, hlive, wantsPin]

/-! ## What leaves the reads that wait, and the epochs of the arrays, as they are -/

/-- The reads that wait at every slice, and the epoch of every array, are as they were. -/
structure KeepsReaders (s t : State) : Prop where
  waiting : ∀ k, (sliceOf t k).waiting = (sliceOf s k).waiting
  epoch : ∀ q, (arrOf t q).epoch = (arrOf s q).epoch

theorem KeepsReaders.refl (s : State) : KeepsReaders s s := ⟨fun _ => rfl, fun _ => rfl⟩

theorem KeepsReaders.trans {s t u : State} (h : KeepsReaders s t) (g : KeepsReaders t u) : KeepsReaders s u :=
  ⟨fun k => (g.waiting k).trans (h.waiting k), fun q => (g.epoch q).trans (h.epoch q)⟩

theorem keepsReaders_of_eq {s t : State} (hs : t.slices = s.slices) (ha : t.arrs = s.arrs) : KeepsReaders s t :=
  ⟨fun k => by rw [sliceOf, hs, sliceOf], fun q => by rw [arrOf, ha, arrOf]⟩

theorem keepsReaders_foldl {ι : Type} {step : State → ι → State} (h : ∀ s i, KeepsReaders s (step s i)) (l : List ι)
    (s : State) : KeepsReaders s (l.foldl step s) := foldl_induct .refl .trans h l s

theorem keepsReaders_modSlice (s : State) (k : ℕ) {f : SliceS → SliceS} (h : ∀ x, (f x).waiting = x.waiting) :
    KeepsReaders s (modSlice s k f) := by
  refine ⟨fun j => ?_, fun _ => rfl⟩
  obtain rfl | hj := eq_or_ne j k
  · rw [sliceOf_modSlice_same, h]
  · rw [sliceOf_modSlice_ne _ _ hj]

theorem keepsReaders_modArr (s : State) (q : ℕ) {f : ArrayS → ArrayS} (h : ∀ a, (f a).epoch = a.epoch) :
    KeepsReaders s (modArr s q f) := by
  refine ⟨fun _ => rfl, fun j => ?_⟩
  obtain rfl | hj := eq_or_ne j q
  · rw [arrOf_modArr_same, h]
  · rw [arrOf_modArr_ne _ _ hj]

theorem keepsReaders_logLine (s : State) (cls syn l : ℕ) : KeepsReaders s (logLine s cls syn l) := by
  obtain ⟨_, _, h⟩ := logLine_eq s cls syn l
  rw [h]
  exact keepsReaders_of_eq rfl rfl

theorem keepsReaders_rcRefresh (s : State) (p : ℕ) : KeepsReaders s (rcRefresh s p) :=
  keepsReaders_foldl (fun t q => by
    split
    · exact .refl t
    · exact keepsReaders_modArr t q fun _ => rfl) _ s

theorem keepsReaders_regionRo (s : State) (l : ℕ) : KeepsReaders s (regionRo s l) :=
  KeepsReaders.trans (t := modPart s _ _) (keepsReaders_of_eq rfl rfl) (keepsReaders_rcRefresh ..)

theorem keepsReaders_mergeRead (s : State) (r : StackReq) (l : ℕ) : KeepsReaders s (mergeRead s r l).2 := by
  unfold mergeRead
  split
  · exact .refl s
  · split
    · exact keepsReaders_logLine ..
    · exact keepsReaders_logLine ..
    · exact keepsReaders_logLine ..
    · exact .refl s

theorem keepsReaders_ctlWrite (s : State) (r : StackReq) (l : ℕ) : KeepsReaders s (ctlWrite s r l).1 := by
  unfold ctlWrite
  dsimp only
  split
  · exact .refl s
  split
  · exact KeepsReaders.trans (KeepsReaders.trans (t := putLine s l _ _) (keepsReaders_of_eq rfl rfl)
      (keepsReaders_logLine ..)) (keepsReaders_regionRo ..)
  · exact (keepsReaders_mergeRead s r l).trans (keepsReaders_of_eq rfl rfl)

theorem keepsReaders_of_logs {s t : State} {l : ℕ} (h : t = s ∨ ∃ cls syn, t = logLine s cls syn l) :
    KeepsReaders s t := by
  obtain rfl | ⟨cls, syn, rfl⟩ := h
  · exact .refl _
  · exact keepsReaders_logLine ..

theorem keepsReaders_ctlPerform (s : State) (k : ℕ) (r : StackReq) (l : ℕ) : KeepsReaders s (ctlPerform s k r l).1 := by
  by_cases hr : r.kind = .rd64
  · exact keepsReaders_of_logs (ctlPerform_rd64_fst s k hr l)
  · unfold ctlPerform
    split
    · dsimp only
      split
      · exact .refl s
      · exact keepsReaders_logLine ..
    · dsimp only
      split
      · next h => exact absurd h hr
      · exact keepsReaders_ctlWrite s r l

theorem keepsReaders_giveReply (s : State) (k : ℕ) (r : StackReq) (x : StackReply) :
    KeepsReaders s (giveReply s k r x) := by
  unfold giveReply netSend
  dsimp only
  split
  · exact keepsReaders_modSlice s r.from_ (f := fun y => { y with replies := y.replies ++ [x] }) fun _ => rfl
  · exact keepsReaders_of_eq rfl rfl

theorem keepsReaders_performReq (l : ℕ) (s : State) (r : StackReq) : KeepsReaders s (performReq l s r) := by
  have h := keepsReaders_ctlPerform s (lineStack l) r l
  unfold performReq
  split
  · next e =>
    rw [e] at h
    exact h.trans (keepsReaders_giveReply ..)
  · next e =>
    rw [e] at h
    exact h

theorem keepsReaders_ctlFlush (s : State) (l : ℕ) : KeepsReaders s (ctlFlush s l) := by
  rw [ctlFlush_eq]
  split
  · exact .refl s
  · exact KeepsReaders.trans (t := modStack s _ _) (keepsReaders_of_eq rfl rfl)
      (keepsReaders_foldl (keepsReaders_performReq l) _ _)

theorem keepsReaders_ctlNow (s : State) (kind : StackKind) (l key prot : ℕ) (mask : W64) (d : BitVec 512) (pois : Bool) :
    KeepsReaders s (ctlNow s kind l key prot mask d pois).1 := by
  unfold ctlNow
  dsimp only
  refine (keepsReaders_ctlFlush s l).trans (KeepsReaders.trans ?_ (keepsReaders_ctlPerform ..))
  split
  · exact keepsReaders_modSlice _ _ fun _ => rfl
  · exact .refl _

theorem keepsReaders_writeBack (s : State) (y : L2Line) : KeepsReaders s (writeBack s y) := by
  unfold writeBack
  split
  · exact .refl s
  split
  · exact keepsReaders_ctlNow ..
  · exact keepsReaders_ctlNow ..

theorem keepsReaders_evict (s : State) (k : ℕ) (y : L2Line) : KeepsReaders s (evict s k y) := by
  refine (keepsReaders_modSlice s k (f := fun x => l2Drop x y) fun _ => rfl).trans ?_
  unfold evict
  dsimp only
  refine KeepsReaders.trans ?_ (keepsReaders_writeBack ..)
  split
  · exact keepsReaders_logLine ..
  · exact .refl _

theorem keepsReaders_makeRoom (s : State) (k l : ℕ) : KeepsReaders s (makeRoom s k l).1 := by
  unfold makeRoom
  dsimp only
  split
  · exact .refl s
  split
  · exact keepsReaders_evict ..
  · exact .refl s

theorem keepsReaders_l2Touch (s : State) (k : ℕ) (y : L2Line) (pin : Bool) : KeepsReaders s (l2Touch s k y pin) := by
  unfold l2Touch
  extract_lets z
  split
  · split
    · exact keepsReaders_modSlice s k fun _ => rfl
    · exact keepsReaders_modSlice s k fun _ => rfl
  · exact keepsReaders_modSlice s k fun _ => rfl

end Sys2Proof.Machine

namespace Sys2Proof.Machine
open Sys2Proof

/-! ## A read at a slice -/

variable {s : State} {k : ℕ} {r : SliceReq} {y : L2Line}

/-- A clean line that is held is sent, and touched; nothing is pinned for a reader that wants no pin. -/
theorem serveHeld_of_clean (hpin : wantsPin s k r = false) (hp : y.poison = false) :
    serveHeld s k r y = sendLine (l2Touch s k y false) k r { data := y.data } none := by
  unfold serveHeld
  rw [hpin, hp]
  rfl

/-- No replica is made for a reader that does not share. -/
theorem placeReplica_of_unshared (s : State) (v : LineVal) (h : r.shared = false) : placeReplica s r v = s := by
  unfold placeReplica
  rw [h]
  rfl

theorem sliceRead_of_held (hk : k = homeSlice r.line) (hy : l2Find (sliceOf s k) r.line = some y) (hue : y.ue = false)
    (hst : y.stage = none) (hp : y.poison = false) (hv : y.valid = BitVec.allOnes 64) (hs : r.shared = false)
    (hw : r.who ≠ .nobody) (hpin : wantsPin s k r = false) :
    sliceRead s k r = sendLine (l2Touch s k y false) k r { data := y.data } none := by
  have hwhole : (y.poison || y.valid == allBytes) = true := by rw [hv]; simp [allBytes]
  unfold sliceRead
  dsimp only
  rw [if_neg (not_not.2 hk), hy]
  dsimp only
  rw [if_neg (by simp [hw]), if_neg (by simp [hue]), if_neg (by simp [hst]), if_pos hwhole, placeReplica_of_unshared _ _ hs,
    serveHeld_of_clean hpin hp]

theorem sliceRead_of_missing (hk : k = homeSlice r.line) (hy : l2Find (sliceOf s k) r.line = none)
    (hw : r.who ≠ .nobody) : sliceRead s k r = askStack s k r .rd64 0 0 := by
  unfold sliceRead
  dsimp only
  rw [if_neg (not_not.2 hk), hy]
  exact if_neg (by simp [hw])

theorem sliceRead_of_away (hk : k ≠ homeSlice r.line) (hy : l2Find (sliceOf s k) r.line = none) :
    sliceRead s k r = netSend s r.cls (sliceRouter k) (sliceRouter (homeSlice r.line)) r.bh
      (.slice (homeSlice r.line / 96) (homeSlice r.line % 96) r) := by
  unfold sliceRead
  dsimp only
  rw [if_pos hk, hy]

/-- The state in which a read waits at its slice and its tag is taken. -/
def asked (s : State) (k : ℕ) (r : SliceReq) (tag : ℕ) : State :=
  modStack (setSlice s k { sliceOf s k with waiting := (sliceOf s k).waiting ++ [r] }) (lineStack r.line)
    (fun t => takeTag t (lineChan r.line) tag)

theorem askStack_of_freeTag {tag : ℕ} (kind : StackKind) (mask : W64) (d : BitVec 512)
    (hw : ∀ w ∈ (sliceOf s k).waiting, w.line ≠ r.line)
    (ht : freeTag (stackOf s (lineStack r.line)) (lineChan r.line) 1 = some tag) :
    askStack s k r kind mask d = sendStack (asked s k r tag) k
      { mkReq (asked s k r tag) kind tag r.line r.slot r.prot mask d false with from_ := k, cls := r.cls } r.line := by
  unfold askStack
  dsimp only
  rw [if_neg (by simpa using hw), ht]
  rfl

theorem exec_l2Read_of_oldest {pre post : List SliceReq}
    (ho : Oldest (fun y => y.write = false) (fun y => y.line) (sliceOf s (sliceKey s.cur.bh s.cur.slice)).reqs pre r post)
    (hpin : wantsPin s (sliceKey s.cur.bh s.cur.slice) r = false) :
    exec .l2Read s = .next (sliceRead (setSlice s (sliceKey s.cur.bh s.cur.slice)
      { sliceOf s (sliceKey s.cur.bh s.cur.slice) with reqs := pre ++ post }) (sliceKey s.cur.bh s.cur.slice) r) := by
  change execL2Read s = _
  unfold execL2Read
  dsimp only
  rw [pickSlice_of_oldest ho]
  dsimp only
  rw [hpin]
  rfl

/-! ## A write at a slice -/

theorem l2Find_l2Put (x : SliceS) (y : L2Line) : l2Find (l2Put x y) y.line = some y := by simp [l2Find, l2Put]

theorem l2Find_line {x : SliceS} {l : ℕ} (h : l2Find x l = some y) : y.line = l := by
  simpa using List.find?_some h

/-- A line without an error is as it was. -/
theorem meetUe_of_sound {l : ℕ} (hy : l2Find (sliceOf s k) l = some y) (hue : y.ue = false) : meetUe s k l = s := by
  unfold meetUe
  rw [hy]
  dsimp only
  rw [hue]
  rfl

theorem meetUe_of_missing {l : ℕ} (hy : l2Find (sliceOf s k) l = none) : meetUe s k l = s := by
  unfold meetUe
  rw [hy]

/-- A held line with the masked bytes of an unstaged write in it. -/
def writtenLine (y : L2Line) (slot prot : ℕ) (d : BitVec 512) (mask : W64) (pois : Bool) : L2Line :=
  { y with data := mergeLine y.data d mask, valid := y.valid ||| mask, dirty := y.dirty ||| mask, rc := 0, spent := false
           slot := slot, prot := prot, stage := none
           poison := if mask == allBytes then pois else y.poison || pois }

theorem lineWrite_of_held {l : ℕ} (slot prot : ℕ) (d : BitVec 512) (mask : W64) (pois : Bool)
    (hy : l2Find (sliceOf s (homeSlice l)) l = some y) (hue : y.ue = false) (hst : y.stage = none) :
    (lineWrite s l slot prot d mask pois none).1 =
      modSlice s (homeSlice l) (fun x => l2Put x (writtenLine y slot prot d mask pois)) := by
  unfold lineWrite
  dsimp only
  rw [meetUe_of_sound hy hue, hy]
  dsimp only
  rw [hst]
  rfl

theorem lineByte_mergeLine (old d : BitVec 512) (m : W64) {j : ℕ} (h : j < 64) :
    lineByte (mergeLine old d m) j = if m.getLsbD j then lineByte d j else lineByte old j := byte_mergeLine old d m j h

theorem slices_drainArrived (s : State) (who : Requester) : (drainArrived s who).slices = s.slices := by
  obtain ⟨arrs, h⟩ := drainArrived_frame s who
  rw [h]

theorem winDone_frame (s : State) (r : SliceReq) : ∃ h, winDone s r = { s with hub := h } := by
  unfold winDone
  split
  · exact ⟨_, rfl⟩
  · exact ⟨s.hub, rfl⟩

/-- The state in which a write has been taken from its slice, and its drain and its window know of it. -/
def arrivedWrite (s : State) (x : SliceS) (k : ℕ) (r : SliceReq) : State :=
  winDone (drainArrived (setSlice s k x) r.who) r

theorem arrivedWrite_frame (s : State) (x : SliceS) (k : ℕ) (r : SliceReq) :
    ∃ arrs hub, arrivedWrite s x k r = { setSlice s k x with arrs := arrs, hub := hub } := by
  obtain ⟨arrs, ha⟩ := drainArrived_frame (setSlice s k x) r.who
  obtain ⟨hub, hh⟩ := winDone_frame (drainArrived (setSlice s k x) r.who) r
  exact ⟨arrs, hub, by rw [arrivedWrite, hh, ha]⟩

theorem keyRevoked_arrivedWrite (s : State) (x : SliceS) (k : ℕ) (r : SliceReq) (p i : ℕ) :
    keyRevoked (arrivedWrite s x k r) p i = keyRevoked s p i := by
  obtain ⟨_, _, h⟩ := arrivedWrite_frame s x k r
  rw [h]
  rfl

theorem domainRefuses_arrivedWrite (s : State) (x : SliceS) (k : ℕ) (r : SliceReq) (l i : ℕ) :
    domainRefuses (arrivedWrite s x k r) l i = domainRefuses s l i := by
  obtain ⟨_, _, h⟩ := arrivedWrite_frame s x k r
  rw [h]
  rfl

theorem bhOf_arrivedWrite (s : State) (x : SliceS) (k : ℕ) (r : SliceReq) (b : ℕ) :
    bhOf (arrivedWrite s x k r) b = bhOf s b := by
  obtain ⟨_, _, h⟩ := arrivedWrite_frame s x k r
  rw [h]
  rfl

theorem sliceOf_arrivedWrite (s : State) (x : SliceS) (k : ℕ) (r : SliceReq) : sliceOf (arrivedWrite s x k r) k = x := by
  obtain ⟨_, _, h⟩ := arrivedWrite_frame s x k r
  rw [h]
  exact sliceOf_setSlice_same s k x

theorem drained_arrivedWrite (s : State) (x : SliceS) (k : ℕ) {a key : ℕ} (h : r.who = .drain a key) :
    (arrOf (arrivedWrite s x k r) a).drained = (arrOf s a).drained.eraseP (fun e => decide (e.1 = key)) := by
  obtain ⟨_, hh⟩ := winDone_frame (drainArrived (setSlice s k x) r.who) r
  have ha : arrOf (arrivedWrite s x k r) a = arrOf (drainArrived (setSlice s k x) r.who) a := by rw [arrivedWrite, hh]; rfl
  rw [ha, h, drainArrived, arrOf_modArr_same]
  rfl

/-- What becomes of the write that a slice takes. -/
theorem exec_l2Write_of_oldest {pre post : List SliceReq}
    (ho : Oldest (fun y => y.write = true) (fun y => y.line) (sliceOf s (sliceKey s.cur.bh s.cur.slice)).reqs pre r post)
    (hw : ∀ w ∈ (sliceOf s (sliceKey s.cur.bh s.cur.slice)).waiting, w.line ≠ r.line) {v : State}
    (hv : arrivedWrite s { sliceOf s (sliceKey s.cur.bh s.cur.slice) with reqs := pre ++ post }
      (sliceKey s.cur.bh s.cur.slice) r = v) :
    exec .l2Write s = .next (
      if keyRevoked s (bhOf s (lineBh r.line)).part r.slot then v
      else if domainRefuses s r.line r.slot then
        match r.who with
        | .drain q _ => modArr (logLine v ecDomain 0 r.line) q (fun a => noteAsync a .domain 0 0x3FFF)
        | _ => logLine v ecDomain 0 r.line
      else
        match stageOf v r with
        | some n => stagedWrite v n r
        | none => (lineWrite v r.line r.slot r.prot r.data r.mask r.poison none).1) := by
  have hnone : ¬ ((sliceOf s (sliceKey s.cur.bh s.cur.slice)).waiting.any (fun w => decide (w.line = r.line))) = true := by
    simpa using hw
  change execL2Write s = _
  unfold execL2Write
  dsimp only
  rw [pickSlice_of_oldest ho]
  dsimp only
  rw [if_neg hnone, ← arrivedWrite.eq_1, hv, ← hv, bhOf_arrivedWrite, keyRevoked_arrivedWrite,
    domainRefuses_arrivedWrite] <;> rfl

end Sys2Proof.Machine

namespace Sys2Proof.Machine
open Sys2Proof

/-! ## A stack's reply at a slice -/

/-- When no way is free, nothing has been evicted. -/
theorem makeRoom_of_full {s t : State} {k l : ℕ} (h : makeRoom s k l = (t, false)) : t = s := by
  unfold makeRoom at h
  dsimp only at h
  split at h
  · cases h
  split at h
  · cases h
  · exact (Prod.mk.inj h).1.symm

/-- What a sound reply leaves of its line in the slice: nothing, or the line with the bytes of the reply. -/
def Installed (t : State) (k l : ℕ) (q : StackReply) : Prop :=
  ∀ y, l2Find (sliceOf t k) l = some y → y.data = q.data ∧ y.poison = q.pois

theorem installed_of_none {t : State} {k l : ℕ} (q : StackReply) (h : l2Find (sliceOf t k) l = none) :
    Installed t k l q := fun y hy => by rw [h] at hy; cases hy

theorem l2Install_of_missing {s : State} {k l : ℕ} (slot prot rc : ℕ) (q : StackReply)
    (h : l2Find (sliceOf s k) l = none) :
    KeepsReaders s (l2Install s k l slot prot rc q) ∧ Installed (l2Install s k l slot prot rc q) k l q := by
  unfold l2Install
  dsimp only
  rw [meetUe_of_missing h, h]
  dsimp only
  split
  · exact ⟨.refl s, installed_of_none q h⟩
  split
  · next t hroom =>
    rw [makeRoom_of_full hroom]
    exact ⟨.refl s, installed_of_none q h⟩
  · next t hroom =>
    have hkeep : KeepsReaders s t := by simpa [hroom] using keepsReaders_makeRoom s k l
    refine ⟨hkeep.trans (keepsReaders_modSlice t k fun _ => rfl), fun y hy => ?_⟩
    rw [sliceOf_modSlice_same, l2Find_l2Put _ (L2Line.mk ..)] at hy
    cases hy
    exact ⟨rfl, rfl⟩

/-- A sound reply answers a read that waited, from the line that it left in the slice or by itself. -/
theorem answerWaiting_of_sound {t : State} {k l : ℕ} {q : StackReply} {r : SliceReq} (hkind : q.kind = 8)
    (hstat : q.stat = 0) (hpois : q.pois = false) (hin : Installed t k l q) (hpin : wantsPin t k r = false)
    (hs : r.shared = false) (hw : r.who ≠ .nobody) :
    ∃ u, answerWaiting q k l t r = sendLine u k r { data := q.data } none ∧ KeepsReaders t u := by
  unfold answerWaiting
  split
  · next y hy =>
    obtain ⟨hdata, hpy⟩ := hin y hy
    refine ⟨l2Touch t k y false, ?_, keepsReaders_l2Touch ..⟩
    rw [if_neg hw, if_neg (by simp [replyLost, hkind, hstat]), if_neg (by simp [hpin]), placeReplica_of_unshared _ _ hs,
      serveHeld_of_clean hpin (hpy.trans hpois), hdata]
  · refine ⟨t, ?_, .refl t⟩
    rw [replyVal, hpois, hkind, hstat]
    rfl

/-- The state in which a reply has been taken, with its tag, and the reads that waited for its line wait no more. -/
def replyTaken (s : State) (k : ℕ) (q : StackReply) (rest : List StackReply) (l : ℕ) : State :=
  modStack (setSlice s k { sliceOf s k with
    replies := rest, waiting := (sliceOf s k).waiting.filter (fun w => decide (w.line ≠ l))
    stale := (sliceOf s k).stale.filter (fun i => decide (i ≠ l)) }) (lineStack l) (fun t => dropTag t q.ch q.tag)

theorem sliceOf_replyTaken (s : State) (k : ℕ) (q : StackReply) (rest : List StackReply) (l : ℕ) :
    sliceOf (replyTaken s k q rest l) k = { sliceOf s k with
      replies := rest, waiting := (sliceOf s k).waiting.filter (fun w => decide (w.line ≠ l))
      stale := (sliceOf s k).stale.filter (fun i => decide (i ≠ l)) } := by
  rw [replyTaken, sliceOf_modStack, sliceOf_setSlice_same]

/-- A reply that no later write has passed, and that one read waits for. -/
theorem exec_stackReplyReceive_of_one {s : State} {q : StackReply} {rest : List StackReply} {l : ℕ} {r : SliceReq}
    (hq : (sliceOf s (sliceKey s.cur.bh s.cur.slice)).replies = q :: rest)
    (hl : packageLine (s.cur.bh / 2) q.line = some l)
    (hmine : (sliceOf s (sliceKey s.cur.bh s.cur.slice)).waiting.filter (fun w => decide (w.line = l)) = [r])
    (hstale : l ∉ (sliceOf s (sliceKey s.cur.bh s.cur.slice)).stale) :
    exec .stackReplyReceive s = .next (answerWaiting q (sliceKey s.cur.bh s.cur.slice) l
      (l2Install (replyTaken s (sliceKey s.cur.bh s.cur.slice) q rest l) (sliceKey s.cur.bh s.cur.slice) l r.slot r.prot
        (max 0 r.rc) q) r) := by
  change execStackReplyReceive s = _
  unfold execStackReplyReceive
  dsimp only
  rw [hq]
  dsimp only
  rw [hl]
  dsimp only
  rw [hmine]
  dsimp only
  rw [if_neg (by simpa using hstale)]
  rfl

/-! ## The three events -/

theorem sliceRequests_read (s : State) (pre post : List SliceReq) (r : SliceReq)
    (ho : Oldest (fun y => y.write = false) (fun y => y.line) (sliceOf s (sliceKey s.cur.bh s.cur.slice)).reqs pre r post)
    (hpin : wantsPin s (sliceKey s.cur.bh s.cur.slice) r = false) (tag : ℕ)
    (hk : sliceKey s.cur.bh s.cur.slice = homeSlice r.line)
    (hy : l2Find (sliceOf s (sliceKey s.cur.bh s.cur.slice)) r.line = none) (hw : r.who ≠ .nobody)
    (hwait : ∀ w ∈ (sliceOf s (sliceKey s.cur.bh s.cur.slice)).waiting, w.line ≠ r.line)
    (ht : freeTag (stackOf s (lineStack r.line)) (lineChan r.line) 1 = some tag) :
    ∃ t q, exec .l2Read s = .next (sendStack t (sliceKey s.cur.bh s.cur.slice) q r.line) ∧ t.mem = s.mem ∧
      (sliceOf t (sliceKey s.cur.bh s.cur.slice)).reqs = pre ++ post ∧
      (sliceOf t (sliceKey s.cur.bh s.cur.slice)).waiting =
        (sliceOf s (sliceKey s.cur.bh s.cur.slice)).waiting ++ [r] ∧ q.kind = .rd64 ∧ q.tag = tag ∧
      q.ch = lineChan r.line ∧ q.line = stackLine r.line ∧ q.key = r.slot ∧ q.prot = r.prot ∧
      q.gen = (bhOf s (lineBh r.line)).gen ∧ q.from_ = sliceKey s.cur.bh s.cur.slice ∧ q.cls = r.cls := by
  have hexec := exec_l2Read_of_oldest ho hpin
  generalize sliceKey s.cur.bh s.cur.slice = k at *
  have hu : sliceOf (setSlice s k { sliceOf s k with reqs := pre ++ post }) k = { sliceOf s k with reqs := pre ++ post } :=
    sliceOf_setSlice_same ..
  have hmissing : l2Find (sliceOf (setSlice s k { sliceOf s k with reqs := pre ++ post }) k) r.line = none := by
    rw [hu]
    exact hy
  have hfree : ∀ w ∈ (sliceOf (setSlice s k { sliceOf s k with reqs := pre ++ post }) k).waiting, w.line ≠ r.line := by
    rw [hu]
    exact hwait
  have hasked : sliceOf (asked (setSlice s k { sliceOf s k with reqs := pre ++ post }) k r tag) k =
      { sliceOf s k with reqs := pre ++ post, waiting := (sliceOf s k).waiting ++ [r] } := by
    rw [asked, sliceOf_modStack, sliceOf_setSlice_same, hu]
  rw [hexec, sliceRead_of_missing hk hmissing hw, askStack_of_freeTag (s := setSlice s k _) .rd64 0 0 hfree ht]
  exact ⟨_, _, rfl, rfl, by rw [hasked], by rw [hasked], rfl, rfl, rfl, rfl, rfl, rfl, rfl, rfl, rfl⟩

/-- A write to a line that its home slice holds. -/
theorem lineWrite_arrivedWrite {s : State} {pre post : List SliceReq} {r : SliceReq} {y : L2Line} {k a key : ℕ}
    (hk : k = homeSlice r.line) (hy : l2Find (sliceOf s k) r.line = some y) (hue : y.ue = false) (hst : y.stage = none)
    (hwho : r.who = .drain a key) {v : State}
    (hv : v = arrivedWrite s { sliceOf s k with reqs := pre ++ post } k r) :
    ∃ z, (lineWrite v r.line r.slot r.prot r.data r.mask r.poison none).1.mem = s.mem ∧
      l2Find (sliceOf (lineWrite v r.line r.slot r.prot r.data r.mask r.poison none).1 k) r.line = some z ∧
      (∀ j < 64, lineByte z.data j = if r.mask.getLsbD j then lineByte r.data j else lineByte y.data j) ∧
      z.valid = y.valid ||| r.mask ∧ z.dirty = y.dirty ||| r.mask ∧
      z.poison = (if r.mask = BitVec.allOnes 64 then r.poison else y.poison || r.poison) ∧
      (arrOf (lineWrite v r.line r.slot r.prot r.data r.mask r.poison none).1 a).drained =
        (arrOf s a).drained.eraseP (fun e => decide (e.1 = key)) := by
  have hheld : l2Find (sliceOf v k) r.line = some y := by
    rw [hv, sliceOf_arrivedWrite]
    exact hy
  have hmem : v.mem = s.mem := by
    obtain ⟨_, _, h⟩ := arrivedWrite_frame s { sliceOf s k with reqs := pre ++ post } k r
    rw [hv, h]
    rfl
  have hline : (writtenLine y r.slot r.prot r.data r.mask r.poison).line = r.line :=
    show y.line = r.line from l2Find_line hheld
  rw [lineWrite_of_held _ _ _ _ _ (hk ▸ hheld) hue hst, ← hk, sliceOf_modSlice_same, arrOf_modSlice, hv, drained_arrivedWrite _ _ _ hwho,
    ← hv]
  refine ⟨writtenLine y r.slot r.prot r.data r.mask r.poison, hmem, ?_, fun j hj => lineByte_mergeLine _ _ _ hj, rfl, rfl,
    ?_, rfl⟩
  · have hput := l2Find_l2Put (sliceOf v k) (writtenLine y r.slot r.prot r.data r.mask r.poison)
    rwa [hline] at hput
  · simp [writtenLine, allBytes]

theorem stageOf_of_unstaged {v : State} {r : SliceReq} (h : r.stage = false) : stageOf v r = none := by
  rw [stageOf, h]
  rfl

/-- A write whose slot and domain let it through, at no stage, reaches the line. -/
theorem exec_l2Write_of_let_through {s : State} {pre post : List SliceReq} {r : SliceReq} {v : State}
    (ho : Oldest (fun y => y.write = true) (fun y => y.line) (sliceOf s (sliceKey s.cur.bh s.cur.slice)).reqs pre r post)
    (hw : ∀ w ∈ (sliceOf s (sliceKey s.cur.bh s.cur.slice)).waiting, w.line ≠ r.line)
    (hv : arrivedWrite s { sliceOf s (sliceKey s.cur.bh s.cur.slice) with reqs := pre ++ post }
      (sliceKey s.cur.bh s.cur.slice) r = v)
    (hkey : keyRevoked s (bhOf s (lineBh r.line)).part r.slot = false) (hdom : domainRefuses s r.line r.slot = false)
    (hst : r.stage = false) :
    exec .l2Write s = .next (lineWrite v r.line r.slot r.prot r.data r.mask r.poison none).1 := by
  rw [exec_l2Write_of_oldest ho hw hv, hkey, hdom, stageOf_of_unstaged hst]
  rfl

/-- A drain's write whose domain is refused traps the drain's array. -/
theorem exec_l2Write_of_refused {s : State} {pre post : List SliceReq} {r : SliceReq} {v : State} {a key : ℕ}
    (ho : Oldest (fun y => y.write = true) (fun y => y.line) (sliceOf s (sliceKey s.cur.bh s.cur.slice)).reqs pre r post)
    (hw : ∀ w ∈ (sliceOf s (sliceKey s.cur.bh s.cur.slice)).waiting, w.line ≠ r.line)
    (hv : arrivedWrite s { sliceOf s (sliceKey s.cur.bh s.cur.slice) with reqs := pre ++ post }
      (sliceKey s.cur.bh s.cur.slice) r = v)
    (hkey : keyRevoked s (bhOf s (lineBh r.line)).part r.slot = false) (hdom : domainRefuses s r.line r.slot = true)
    (hwho : r.who = .drain a key) :
    exec .l2Write s = .next (modArr (logLine v ecDomain 0 r.line) a (fun b => noteAsync b .domain 0 0x3FFF)) := by
  rw [exec_l2Write_of_oldest ho hw hv, hkey, hdom, hwho]
  rfl

theorem sliceRequests_reply (s : State) (q : StackReply) (rest : List StackReply) (l : ℕ) (r : SliceReq)
    (hq : (sliceOf s (sliceKey s.cur.bh s.cur.slice)).replies = q :: rest)
    (hl : packageLine (s.cur.bh / 2) q.line = some l)
    (hmine : (sliceOf s (sliceKey s.cur.bh s.cur.slice)).waiting.filter (fun w => decide (w.line = l)) = [r])
    (hs : r.shared = false) (hw : r.who ≠ .nobody) (hstale : l ∉ (sliceOf s (sliceKey s.cur.bh s.cur.slice)).stale)
    (hpin : wantsPin s (sliceKey s.cur.bh s.cur.slice) r = false) (hkind : q.kind = 8) (hstat : q.stat = 0)
    (hpois : q.pois = false) (hy : l2Find (sliceOf s (sliceKey s.cur.bh s.cur.slice)) l = none) :
    ∃ t, exec .stackReplyReceive s = .next (sendLine t (sliceKey s.cur.bh s.cur.slice) r { data := q.data } none) ∧
      (sliceOf t (sliceKey s.cur.bh s.cur.slice)).waiting =
        (sliceOf s (sliceKey s.cur.bh s.cur.slice)).waiting.filter (fun w => decide (w.line ≠ l)) := by
  have hexec := exec_stackReplyReceive_of_one hq hl hmine hstale
  generalize sliceKey s.cur.bh s.cur.slice = k at *
  have hmissing : l2Find (sliceOf (replyTaken s k q rest l) k) l = none := by
    rw [sliceOf_replyTaken]
    exact hy
  obtain ⟨hkeep, hin⟩ := l2Install_of_missing r.slot r.prot (max 0 r.rc) q hmissing
  have hpin' : wantsPin (l2Install (replyTaken s k q rest l) k l r.slot r.prot (max 0 r.rc) q) k r = false := by
    rw [wantsPin_of_epochs hkeep.epoch, ← hpin]
    rfl
  obtain ⟨t, hans, hkeep'⟩ := answerWaiting_of_sound hkind hstat hpois hin hpin' hs hw
  exact ⟨t, by rw [hexec, hans], by rw [hkeep'.waiting, hkeep.waiting, sliceOf_replyTaken]⟩

/-- Settles O46, event by event: the slice takes the request that no older one to its line stands before, and a reply
that must make room for its line leaves the reads that wait, and the epochs of their arrays, as they are. -/
theorem sliceRequests : Obligations.SliceRequests := by
  unfold Obligations.SliceRequests
  intro s pre post r k x p u h
  refine ⟨fun ho hpin => ⟨fun y hk hy hue hst hp hv hs hw => ?_, fun tag hk hy hw hwait ht =>
    sliceRequests_read s pre post r ho hpin tag hk hy hw hwait ht, fun hk hy => ?_⟩, fun ho hwait => ?_,
    fun q rest l hq hl hmine hs hw hstale hpin hkind hstat hpois hy =>
      sliceRequests_reply s q rest l r hq hl hmine hs hw hstale hpin hkind hstat hpois hy⟩
  · have hheld : l2Find (sliceOf u k) r.line = some y := by rw [sliceOf_setSlice_same]; exact hy
    rw [exec_l2Read_of_oldest ho hpin, sliceRead_of_held hk hheld hue hst hp hv hs hw hpin]
  · have hmissing : l2Find (sliceOf u k) r.line = none := by rw [sliceOf_setSlice_same]; exact hy
    rw [exec_l2Read_of_oldest ho hpin, sliceRead_of_away hk hmissing]
  · refine ⟨fun hkey => ?_, fun a key hkey hdom hwho => ?_, fun hkey hdom hst => ?_⟩
    · rw [exec_l2Write_of_oldest ho hwait rfl, if_pos hkey]
      rfl
    · exact exec_l2Write_of_refused ho hwait rfl hkey hdom hwho
    · have hexec := exec_l2Write_of_let_through ho hwait rfl hkey hdom hst
      refine ⟨hexec, fun y a key hk hy hue hst hwho => ?_⟩
      obtain ⟨z, hz⟩ := lineWrite_arrivedWrite (pre := pre) (post := post) hk hy hue hst hwho rfl
      obtain ⟨hmem, hrest⟩ := hz
      exact ⟨_, z, hexec, hmem, hrest⟩

end Sys2Proof.Machine

namespace Sys2Proof.Laws.RoundTrip
open Sys2Proof Sys2Proof.Machine

/-- The round trip holds of every instruction: each row of the encoding tables has its lemma, and an event has no
encoding. -/
theorem statement_all (i : Instr) : Statement i := by
  cases i with
  | pktNop => exact pktNop _ _ | pktWrite => exact pktWrite _ _ _ | pktCopy => exact pktCopy _ _ _ _ _ _ _ _ _ _ _
  | pktLaunch => exact pktLaunch _ _ _ _ _ | pktTlaunch => exact pktTlaunch _ _ _ _ _ _
  | pktIb => exact pktIb _ _ _ _ _ | pktPred => exact pktPred _ _ _ _ _ _ | pktPend => exact pktPend _
  | pktLoop => exact pktLoop _ _ _ _ | pktSemsigAdd => exact pktSemsigAdd _ _ _ _
  | pktSemsigSet => exact pktSemsigSet _ _ _ _ | pktSemwait => exact pktSemwait _ _ _
  | pktFfence => exact pktFfence _ | pktNotify => exact pktNotify _ _ _ _ | pktStamp => exact pktStamp _ _ _
  | pktXfer => exact pktXfer _ _ _ _ | pktColl => exact pktColl _ _ _ _ _ | pktMpass => exact pktMpass _ _ _ _ _ _
  | pktQuiesce => exact pktQuiesce _ | pktHalt => exact pktHalt _ _ | sBr => exact sBr _ | sBrc => exact sBrc _ _ _ _
  | sBrf => exact sBrf _ _ | sCall => exact sCall _ | sJmpr => exact sJmpr _ | sLoop => exact sLoop _ _ _
  | sLidx => exact sLidx _ _ | sTrapi => exact sTrapi _ | sAdd => exact sAdd _ _ _ | sSub => exact sSub _ _ _
  | sAnd => exact sAnd _ _ _ | sOr => exact sOr _ _ _ | sXor => exact sXor _ _ _ | sShl => exact sShl _ _ _
  | sShr => exact sShr _ _ _ | sSar => exact sSar _ _ _ | sMul => exact sMul _ _ _ | sMulh => exact sMulh _ _ _
  | sMulhn => exact sMulhn _ _ _ | sDivs => exact sDivs _ _ _ | sDivn => exact sDivn _ _ _
  | sRems => exact sRems _ _ _ | sRemn => exact sRemn _ _ _ | sSel => exact sSel _ _ _ _ | sMin => exact sMin _ _ _
  | sMax => exact sMax _ _ _ | sMinn => exact sMinn _ _ _ | sMaxn => exact sMaxn _ _ _ | sSlt => exact sSlt _ _ _
  | sSltn => exact sSltn _ _ _ | sClz => exact sClz _ _ | sPopc => exact sPopc _ _ | sAddi => exact sAddi _ _ _
  | sAndi => exact sAndi _ _ _ | sOri => exact sOri _ _ _ | sXori => exact sXori _ _ _ | sLi => exact sLi _ _
  | sTidx => exact sTidx _ _ _ _ | sLd => exact sLd _ _ _ _ _ | sSt => exact sSt _ _ _ _
  | sLdDm => exact sLdDm _ _ _ _ _ | sStDm => exact sStDm _ _ _ _ | sLdx => exact sLdx _ _ _ _ _
  | sStx => exact sStx _ _ _ _ | sLdSc => exact sLdSc _ _ _ | sStSc => exact sStSc _ _ _
  | sAmoAdd => exact sAmoAdd _ _ _ _ | sAmoMin => exact sAmoMin _ _ _ _ _ | sAmoMax => exact sAmoMax _ _ _ _ _
  | sAmoAnd => exact sAmoAnd _ _ _ _ | sAmoOr => exact sAmoOr _ _ _ _ | sAmoSwap => exact sAmoSwap _ _ _ _
  | sAmoCas => exact sAmoCas _ _ _ _ _ | sStA => exact sStA _ _ | sXfer => exact sXfer _ _ | sRel => exact sRel _
  | sFenceX => exact sFenceX _ _ | sSemAdd => exact sSemAdd _ _ | sSemSet => exact sSemSet _ _
  | sSemWait => exact sSemWait _ _ | sSemRd => exact sSemRd _ _ | sLsend => exact sLsend _ _ _
  | sLrecv => exact sLrecv _ _ _ | sMovYm => exact sMovYm _ _ | sMovXm => exact sMovXm _ _
  | sShpW => exact sShpW _ _ _ | sNestW => exact sNestW _ _ _ | sCtLd => exact sCtLd _ _
  | sEdgeRd => exact sEdgeRd _ _ | sSysr => exact sSysr _ _ | sSysw => exact sSysw _ _ | sTtChk => exact sTtChk _ _
  | sTtRd => exact sTtRd _ | sSrSeed => exact sSrSeed _ _ | sMpass => exact sMpass _ | sCollGo => exact sCollGo _ _
  | cNop => exact cNop _ | cClr => exact cClr _ | cMov => exact cMov _ | cMovi => exact cMovi _
  | cAdd => exact cAdd _ | cSub => exact cSub _ | cMul => exact cMul _ | cFma => exact cFma _ | cFms => exact cFms _
  | cNeg => exact cNeg _ | cAbs => exact cAbs _ | cMin => exact cMin _ | cMax => exact cMax _ | cAnd => exact cAnd _
  | cOr => exact cOr _ | cXor => exact cXor _ | cNot => exact cNot _ | cShl => exact cShl _ | cShr => exact cShr _
  | cSar => exact cSar _ | cRot => exact cRot _ | cCmpEq => exact cCmpEq _ | cCmpNe => exact cCmpNe _
  | cCmpLt => exact cCmpLt _ | cCmpLe => exact cCmpLe _ | cSel => exact cSel _ | cSetg => exact cSetg _
  | cCvt => exact cCvt _ | cPack => exact cPack _ | cUnpack => exact cUnpack _ | cReq => exact cReq _
  | cRcp => exact cRcp _ | cRsq => exact cRsq _ | cExp2 => exact cExp2 _ | cLog2 => exact cLog2 _
  | cHsum => exact cHsum _ | cHmax => exact cHmax _ | cHmin => exact cHmin _ | cMmaE4m3 => exact cMmaE4m3 _
  | cMmaE5m2 => exact cMmaE5m2 _ | cMmaE2m1 => exact cMmaE2m1 _ | cMmaBf16 => exact cMmaBf16 _
  | cMmaF16 => exact cMmaF16 _ | cMmaI8 => exact cMmaI8 _ | cMmaI4 => exact cMmaI4 _ | cMmaT => exact cMmaT _
  | cOsw => exact cOsw _ | cOsr => exact cOsr _ | cDrn => exact cDrn _ | cFlg => exact cFlg _
  | cHash32 => exact cHash32 _ | cTidx => exact cTidx _ | yxNop => exact yxNop _ | yxSet => exact yxSet _ _ _
  | yxOne => exact yxOne _ _ | yxNone => exact yxNone _ _ | yxShl => exact yxShl _ _ _ | yxShr => exact yxShr _ _ _
  | yxRotl => exact yxRotl _ _ _ | yxRotr => exact yxRotr _ _ _ | yxAnd => exact yxAnd _ _ _
  | yxOr => exact yxOr _ _ _ | yxRange => exact yxRange _ _ _ _ | yxStride => exact yxStride _ _ _ _
  | yxFlag => exact yxFlag _ _ | yxFlagN => exact yxFlagN _ _ | nwNop => exact nwNop _ | nwGo => exact nwGo _
  | nwStep => exact nwStep _ _ | nwAuto => exact nwAuto _ _ _ | nwHold => exact nwHold _ | nwZero => exact nwZero _
  | nwBcast => exact nwBcast _ _ | nwSet => exact nwSet _ _ _ | dAcc => exact dAcc _ _ | dRed => exact dRed _ _ _
  | dSet => exact dSet _ _ | tTin => exact tTin _ | tTinSp => exact tTinSp _ _ | tTout => exact tTout _
  | aLand => exact aLand _ _ _ _ _ | aHExpect => exact aHExpect _ _ | aHWait => exact aHWait _ _
  | aHDrain => exact aHDrain _ | aHFree => exact aHFree _ | aOsClaim => exact aOsClaim _ _ _
  | aOsSeal => exact aOsSeal _ | aOsRelease => exact aOsRelease _ | aPfc => exact aPfc _ _ _
  | reservedPacketOpcode => exact reservedPacketOpcode _ _ | reservedCodeWord => exact reservedCodeWord _
  | sNop => exact sNop | sRet => exact sRet | sLoopbrk => exact sLoopbrk | sHalt => exact sHalt
  | wGather => exact wGather | dNop => exact dNop | dGo => exact dGo | dSt => exact dSt | dSeg => exact dSeg
  | tNop => exact tNop | tTclr => exact tTclr | aNop => exact aNop
  | _ => exact fun _ h => absurd rfl h

end Sys2Proof.Laws.RoundTrip

namespace Sys2Proof.Machine
open Sys2Proof

/-- Settles O27, by the round trip of each instruction. -/
theorem encodingRoundTrip : Obligations.EncodingRoundTrip := Laws.RoundTrip.statement_all

end Sys2Proof.Machine

namespace Sys2Proof.Machine
open Sys2Proof

/-- Settles O29, word by word. -/
theorem decodeWords : Obligations.DecodeWords := by
  unfold Obligations.DecodeWords
  refine ⟨?_, ?_, ?_, ?_, ?_, ?_, ?_, ?_, ?_⟩ <;> decide

end Sys2Proof.Machine

namespace Sys2Proof.Machine
open Sys2Proof

/-! A turn of a queue comes to the instruction of the packet at the head of its level (R97, R98, R101, R110). -/

/-- A field as a number, in plain arithmetic (R3). -/
theorem bitsN_eq_div_mod {n : Nat} (w : BitVec n) (lo len : Nat) : bitsN w lo len = w.toNat / 2 ^ lo % 2 ^ len := by
  simp [bitsN, BitVec.extractLsb'_toNat, Nat.shiftRight_eq_div_pow]

theorem length_of_heldWords {l : LevelS} {o n : Nat} {ws : List W32} (h : heldWords l o n = .ok ws) : ws.length = n := by
  simp only [heldWords] at h
  split at h
  · cases h
  · cases h; simp

/-- Words that decode to a packet whose opcode is listed pass the header checks (R97). -/
theorem headerOk_of_decodePacket {h : W32} {r : List W32} {i : Instr} (hop : h.toNat / 2 ^ 24 < 0x13)
    (hd : decodePacket (h :: r) = .packet i []) : headerOk h (r.length + 1) = true := by
  by_contra hbad
  have hop' : ¬ 0x13 ≤ bitsN h 24 8 := by rw [bitsN_eq_div_mod]; omega
  have hlen : headerOk h (h :: r).length = false := by simpa using hbad
  simp only [decodePacket, if_neg hop', hlen] at hd
  cases hd

/-- The checks of a header ask of the words that follow only that the packet lies within them. -/
theorem headerOk_mono {h : W32} {n left : Nat} (hle : bitsN h 10 14 ≤ left) (hok : headerOk h n = true) :
    headerOk h left = true := by
  unfold headerOk at hok ⊢
  split at hok
  · rfl
  · simp only [Bool.and_eq_true, decide_eq_true_eq] at hok ⊢
    obtain ⟨⟨hlen, -⟩, hflags⟩ := hok
    exact ⟨⟨hlen, hle⟩, hflags⟩

/-- The packet at the head of a level that no LOOP goes round and whose words are held and decode to `i` (R97, R98). -/
theorem examine_of_decoded {l : LevelS} {q : Nat} {h : W32} {ws : List W32} {i : Instr}
    (hhead : heldWords l l.pos 1 = .ok [h]) (hws : heldWords l l.pos (h.toNat / 2 ^ 10 % 2 ^ 14) = .ok ws)
    (hpos : 1 ≤ h.toNat / 2 ^ 10 % 2 ^ 14) (hfit : h.toNat / 2 ^ 10 % 2 ^ 14 ≤ (l.len - l.pos) / 4)
    (hloop : l.loop = none) (hop : 1 ≤ h.toNat / 2 ^ 24) (hop' : h.toNat / 2 ^ 24 < 0x13)
    (hkind : kindAllows (opKinds (h.toNat / 2 ^ 24)) q = true) (hpr : h.getLsbD 9 = false)
    (hspan : h.toNat / 2 ^ 24 = 8 → spanBroken l (l.pos + 20 + 4 * (ws.getD 2 0).toNat) = false)
    (hrun : decodePacket (h :: ws.drop 1) = .packet i []) (hdec : decodePacket ws = .packet i []) :
    examine l q = .run i := by
  have hlt := h.isLt
  have hO : bitsN h 24 8 = h.toNat / 2 ^ 24 := by rw [bitsN_eq_div_mod]; omega
  have hL : bitsN h 10 14 = h.toNat / 2 ^ 10 % 2 ^ 14 := bitsN_eq_div_mod h 10 14
  have hok := headerOk_mono (hL.le.trans hfit) (headerOk_of_decodePacket hop' hrun)
  generalize h.toNat / 2 ^ 24 = op at *
  generalize h.toNat / 2 ^ 10 % 2 ^ 14 = len at *
  have hnospan : (decide (op = 8) && true && spanBroken l (l.pos + 20 + 4 * (ws.getD 2 0).toNat)) = false := by
    by_cases h8 : op = 8
    · rw [hspan h8, Bool.and_false]
    · rw [decide_eq_false h8]; rfl
  have hlen : (decide (len = 0) || decide ((l.len - l.pos) / 4 < len)) = false := by simp; omega
  simp only [examine, hhead, List.headD_cons, hL, hO, hlen, hloop, if_neg (show ¬ (l.len - l.pos) / 4 < len by omega),
    if_neg (show ¬ 0x13 ≤ op by omega), hkind, hok, bitB, hpr, if_neg (show op ≠ 0 by omega), hws, hdec,
    Option.isNone_none, hnospan, Bool.false_and, Bool.not_true, Bool.false_eq_true, if_false]

theorem queueReady_of_run {s : State} {b q : Nat} {l : LevelS} {i : Instr} (hst : (queueOf s b q).st = .running)
    (hfetch : (queueOf s b q).fetching = false) (hhalt : (queueOf s b q).haltReq = false)
    (hlate : (queueOf s b q).late = none) (htop : topLevel (queueOf s b q) = some l) (hloop : l.loop = none)
    (hpos : l.pos < l.len) (hheld : missing l l.pos (captureEnd l) = none) (hscan : spanNeed l = none)
    (hrun : examine l q = .run i) :
    queueReady s b q = (modQueue s b q (fun x => { x with at_ := l.pos }), some (.run i)) := by
  simp [queueReady, queueReady.fetchOr, hst, hfetch, hhalt, hlate, htop, hloop, hheld, hscan, hrun,
    show ¬ l.len ≤ l.pos by omega]

/-- Settles O30: the turn at the head of the agenda, and for a queue's what the packet at its head comes to. -/
theorem stepRunsEventsAndPackets : Obligations.StepRunsEventsAndPackets := by
  refine ⟨fun s h => ?_, fun s i place rest h => ?_, ?_, ?_⟩
  · rw [step, h]
  · rw [step, h]; rfl
  · intro l q h ws i len op hhead hws hpos hfit hloop hop hop' hkind hpr hspan hrun hdec
    exact examine_of_decoded hhead hws hpos hfit hloop hop hop' hkind hpr hspan hrun hdec
  · intro s b q rest l i h hst hfetch hhalt hlate htop hloop hpos hheld hscan hrun
    have hready : queueReady { s with agenda := rest } b q = _ :=
      queueReady_of_run hst hfetch hhalt hlate htop hloop hpos hheld hscan hrun
    rw [step, h]
    show queueTurn _ b q = _
    rw [queueTurn, hready]
    rfl

end Sys2Proof.Machine

namespace Sys2Proof.Machine
open Sys2Proof

/-! What a slot decoder accepts, and the ends of the opcode tables (R98, R232, R238). -/

theorem exists_of_encAgrees {n : Nat} {w : BitVec n} {e : BitVec 40} {r : Option (BitVec n × Option (BitVec 40))}
    (h : encAgrees w e r = true) : ∃ x, r = some (w, x) ∧ (x = none ∨ x = some e) := by
  match r with
  | none => cases h
  | some (w', none) => exact ⟨none, by rw [eq_of_beq h], .inl rfl⟩
  | some (w', some e') =>
    obtain ⟨hw, he⟩ := (Bool.and_eq_true _ _).mp h
    exact ⟨some e, by rw [eq_of_beq hw, eq_of_beq he], .inr rfl⟩

/-- The check at the end of every slot decoder that names E: what it lets through is well formed and encodes to the
bits that were read. -/
theorem wf_of_checked {n : Nat} {w : BitVec n} {e : BitVec 40} {enc : Instr → Option (BitVec n × Option (BitVec 40))}
    {cand : Option Instr} {i : Instr}
    (h : (match cand with
      | none => none
      | some j => if j.wf && encAgrees w e (enc j) then some j else none) = some i) :
    i.wf = true ∧ ∃ x, enc i = some (w, x) ∧ (x = none ∨ x = some e) := by
  match cand with
  | some j =>
    obtain ⟨hc, hi⟩ := Option.ite_none_right_eq_some.mp h
    cases hi
    obtain ⟨hwf, ha⟩ := (Bool.and_eq_true _ _).mp hc
    exact ⟨hwf, exists_of_encAgrees ha⟩

/-- The same check of a decoder that names no E. -/
theorem wf_of_checked_word {n : Nat} {w : BitVec n} {enc : Instr → Option (BitVec n)} {cand : Option Instr} {i : Instr}
    (h : (match cand with
      | none => none
      | some j => if j.wf && enc j == some w then some j else none) = some i) : i.wf = true ∧ enc i = some w := by
  match cand with
  | some j =>
    obtain ⟨hc, hi⟩ := Option.ite_none_right_eq_some.mp h
    cases hi
    obtain ⟨hwf, ha⟩ := (Bool.and_eq_true _ _).mp hc
    exact ⟨hwf, eq_of_beq ha⟩

-- The C slot

theorem cParts_cInstr (o : COp) (f : CSlot) : cParts (cInstr o f) = some (o, f) := by cases o <;> rfl

theorem wf_cInstr {o : COp} {f : CSlot} (h : cLegal o f = true) : (cInstr o f).wf = true := by
  have hrest : ((cInstr o f).wfS && (cInstr o f).wfEdge && (cInstr o f).wfPacket && (cInstr o f).wfEvent) = true := by
    cases o <;> rfl
  simpa [Instr.wf, cParts_cInstr, h] using hrest

theorem cCode_of_cOfCode {c : BitVec 8} {o : COp} (h : cOfCode c = some o) : cCode o = c :=
  eq_of_beq (List.find?_some (p := fun o => cCode o == c) h)

theorem cOfCode_eq_none {c : BitVec 8} (h : 0x76 ≤ c.toNat) : cOfCode c = none := by
  have hle : ∀ o : COp, (cCode o).toNat ≤ 0x75 := by intro o; cases o <;> decide
  refine List.find?_eq_none.mpr (fun o _ ho => ?_)
  have := hle o
  rw [eq_of_beq ho] at this
  omega

theorem flag1_bitB {n : Nat} (w : BitVec n) (i : Nat) : flag1 (bitB w i) = bits w i 1 := by
  apply BitVec.eq_of_getLsbD_eq
  intro j hj
  obtain rfl : j = 0 := by omega
  have hflag : (flag1 (bitB w i)).getLsbD 0 = bitB w i := bitB_flag1 _
  rw [hflag]
  simp [bitB, bits]

/-- A field and the field right below it are one field. -/
theorem bits_append_bits {n : Nat} (w : BitVec n) {hi lo : Nat} (m k : Nat) (h : hi = lo + k) :
    bits w hi m ++ bits w lo k = bits w lo (m + k) := by
  subst h
  apply BitVec.eq_of_getLsbD_eq
  intro i hi
  simp only [bits, BitVec.getLsbD_append, BitVec.getLsbD_extractLsb']
  by_cases hk : i < k
  · simp [hk, hi]
  · simp [hk, hi, show i - k < m by omega, show lo + k + (i - k) = lo + i by omega]

theorem cNames_cFields (o : COp) (w : BitVec 64) (e : BitVec 40) (h : cNames o (cFields o w e) 32 = true) :
    (cFields o w e).e = e := by
  unfold cFields at h ⊢
  simp only at h ⊢
  split at h
  · rename_i hn; rw [if_pos hn]
  · contradiction

/-- The fields that the C decoder reads are the whole word (R240). -/
theorem cWord_cFields {o : COp} {w : BitVec 64} (h : cOfCode (bits w 56 8) = some o) (e : BitVec 40) :
    cWord o (cFields o w e) = w := by
  have hword : cWord o (cFields o w e) = cWord o ⟨bits w 53 3, bits w 51 2, bits w 49 2, bits w 46 3, bits w 40 6,
      bits w 34 6, bits w 28 6, bits w 22 6, bits w 19 3, bitB w 18, bits w 15 3, bitB w 14, bits w 0 14, 0⟩ := by
    unfold cFields
    simp only
    split <;> rfl
  rw [hword]
  simp only [cWord, cCode_of_cOfCode h, flag1_bitB, bits_append_bits]
  exact bits_self w

theorem checked_of_decodeC {w : BitVec 64} {e : BitVec 40} {i : Instr} (h : decodeC w e = some i) :
    i.wf = true ∧ ∃ x, encC i = some (w, x) ∧ (x = none ∨ x = some e) := by
  unfold decodeC at h
  split at h
  · cases h
  · rename_i o ho
    obtain ⟨hl, hi⟩ := Option.ite_none_right_eq_some.mp h
    cases hi
    refine ⟨wf_cInstr hl, if cNames o (cFields o w e) 32 then some (cFields o w e).e else none, ?_, ?_⟩
    · simp only [encC, cParts_cInstr, cWord_cFields ho]
    · split
      · rename_i hn; exact .inr (by rw [cNames_cFields o w e hn])
      · exact .inl rfl

-- The ends of the tables

theorem candS_eq_none {w : BitVec 64} {e : BitVec 40} (h : 0x6D ≤ bitsN w 56 8) : candS w e = none := by
  unfold candS
  dsimp only
  split <;> try omega
  rfl

theorem candYX_eq_none {ax : Axis} {w : BitVec 16} (h : 13 ≤ bitsN w 12 4) : candYX ax w = none := by
  unfold candYX
  dsimp only
  split <;> try omega
  rfl

theorem candNW_eq_none {l : PortLoader} {w e : BitVec 40} (h : 9 ≤ bitsN w 34 6 ∨ (8 ≤ bitsN w 34 6 ∧ l = .n)) :
    candNW l w e = none := by
  unfold candNW
  split <;> try omega
  · obtain ⟨-, rfl⟩ := h.resolve_left (by omega)
    rfl
  · rfl

theorem candD_eq_none {w e : BitVec 40} (h : 7 ≤ bitsN w 34 6) : candD w e = none := by
  unfold candD
  split <;> try omega
  rfl

theorem candA_eq_none {w : BitVec 40} (h : 10 ≤ bitsN w 34 6) : candA w = none := by
  unfold candA
  dsimp only
  split <;> try omega
  rfl

theorem candT_eq_none {w : BitVec 24} {e : BitVec 40} (h : 4 ≤ bitsN w 20 4) : candT w e = none := by
  unfold candT
  split <;> try omega
  rfl

/-- The field at the top of a word. -/
theorem bitsN_top {n : Nat} (w : BitVec n) {lo len : Nat} (h : lo + len = n) : bitsN w lo len = w.toNat / 2 ^ lo := by
  have hw : w.toNat < 2 ^ lo * 2 ^ len := by rw [← pow_add, h]; exact w.isLt
  rw [bitsN_eq_div_mod, Nat.mod_eq_of_lt (Nat.div_lt_of_lt_mul hw)]

theorem decodePacket_of_reserved {h : W32} (r : List W32) (hop : 0x13 ≤ h.toNat / 2 ^ 24) :
    decodePacket (h :: r) = .packet (.reservedPacketOpcode (h.getLsbD 9) (h.extractLsb' 24 8)) r := by
  rw [← bitsN_top h (len := 8) rfl] at hop
  exact if_pos hop

/-- Every listed packet opcode asks for a length of 1 at least. -/
theorem pktLen_pos : ∀ op < 0x13, ∃ x, pktLen op = some x ∧ 1 ≤ x.1 := by
  intro op hop
  interval_cases op <;> exact ⟨_, rfl, by decide⟩

theorem decodePacket_of_empty {h : W32} (r : List W32) (hop : h.toNat / 2 ^ 24 < 0x13)
    (hlen : h.toNat / 2 ^ 10 % 2 ^ 14 = 0) : decodePacket (h :: r) = .malform := by
  rw [← bitsN_top h (len := 8) rfl] at hop
  rw [← bitsN_eq_div_mod] at hlen
  obtain ⟨⟨n, whole⟩, hpkt, hn⟩ := pktLen_pos _ hop
  have hbad : headerOk h (h :: r).length = false := by
    have hne : ¬ 0 = n := by dsimp only at hn; omega
    have hnle : ¬ n ≤ 0 := by omega
    cases whole <;> simp [headerOk, hpkt, hlen, hne, hnle]
  simp only [decodePacket, if_neg (show ¬ 0x13 ≤ bitsN h 24 8 by omega), hbad]
  rfl

/-- Settles O28: the check that ends each slot decoder, then the end of each opcode table. -/
theorem reservedEncodingsRefused : Obligations.ReservedEncodingsRefused := by
  refine ⟨fun w e i => ⟨wf_of_checked, checked_of_decodeC⟩,
    fun w e l i => ⟨wf_of_checked, wf_of_checked, wf_of_checked_word⟩, fun w e i => wf_of_checked,
    fun ax w i => wf_of_checked_word, fun w e => ⟨fun h => ?_, fun h => ?_⟩, fun ax w h => ?_,
    fun l w e => ⟨fun h => ?_, fun h => ?_, fun h => ?_⟩, fun w e h => ?_,
    fun h r => ⟨decodePacket_of_reserved r, decodePacket_of_empty r⟩⟩
  · rw [← bitsN_top w (len := 8) rfl] at h
    rw [decodeS, candS_eq_none h]
  · rw [← bitsN_top w (len := 8) rfl] at h
    rw [decodeC, cOfCode_eq_none (c := bits w 56 8) h]
  · rw [← bitsN_top w (len := 4) rfl] at h
    rw [decodeYX, candYX_eq_none h]
  · rw [← bitsN_top w (len := 6) rfl] at h
    rw [decodeNW, candNW_eq_none h]
  · rw [← bitsN_top w (len := 6) rfl] at h
    rw [decodeD, candD_eq_none h]
  · rw [← bitsN_top w (len := 6) rfl] at h
    rw [decodeA, candA_eq_none h]
  · rw [← bitsN_top w (len := 4) rfl] at h
    rw [decodeT, candT_eq_none h]

end Sys2Proof.Machine

namespace Sys2Proof.Machine
open Sys2Proof

/-! An access of memory made at once leaves the command interface alone: bulkheads with their queues, nodes and
collectives, the host port and the links stand; of an array only its region cache changes, of a partition only its
regions, and of the hub only the error records (R66 to R86). -/

/-- What an access of memory may change. -/
structure MemAccess (s t : State) : Prop where
  cur : t.cur = s.cur
  now : t.now = s.now
  port : t.port = s.port
  bhs : t.bhs = s.bhs
  links : t.links = s.links
  hub : ∃ buf drop, t.hub = { s.hub with errBuf := buf, errDrop := drop }
  arr : ∀ p, ∃ rc, arrOf t p = { arrOf s p with rcache := rc }
  part : ∀ p, ∃ rs, partOf t p = { partOf s p with regions := rs }

theorem MemAccess.refl (s : State) : MemAccess s s :=
  ⟨rfl, rfl, rfl, rfl, rfl, ⟨_, _, rfl⟩, fun _ => ⟨_, rfl⟩, fun _ => ⟨_, rfl⟩⟩

theorem MemAccess.trans {s t u : State} (h : MemAccess s t) (g : MemAccess t u) : MemAccess s u := by
  obtain ⟨b1, d1, hh⟩ := h.hub
  obtain ⟨b2, d2, gh⟩ := g.hub
  refine ⟨g.cur.trans h.cur, g.now.trans h.now, g.port.trans h.port, g.bhs.trans h.bhs, g.links.trans h.links,
    ⟨b2, d2, by rw [gh, hh]⟩, fun p => ?_, fun p => ?_⟩
  · obtain ⟨r1, h1⟩ := h.arr p
    obtain ⟨r2, h2⟩ := g.arr p
    exact ⟨r2, by rw [h2, h1]⟩
  · obtain ⟨r1, h1⟩ := h.part p
    obtain ⟨r2, h2⟩ := g.part p
    exact ⟨r2, by rw [h2, h1]⟩

theorem memAccess_foldl {ι : Type} {step : State → ι → State} (h : ∀ s i, MemAccess s (step s i)) (l : List ι)
    (s : State) : MemAccess s (l.foldl step s) := foldl_induct .refl .trans h l s

section
variable {s t : State} (h : MemAccess s t)
include h

theorem MemAccess.bhOf (b : Nat) : bhOf t b = bhOf s b := by rw [Machine.bhOf, h.bhs, ← Machine.bhOf]
theorem MemAccess.queueOf (b q : Nat) : queueOf t b q = queueOf s b q := by
  rw [Machine.queueOf, h.bhOf, ← Machine.queueOf]
theorem MemAccess.hereQ : hereQ t = hereQ s := by rw [Machine.hereQ, h.cur, h.queueOf]
theorem MemAccess.nodeOf (n : NodeId) : nodeOf t n = nodeOf s n := by rw [Machine.nodeOf, h.bhOf, ← Machine.nodeOf]
theorem MemAccess.linkOf (l : Nat) : linkOf t l = linkOf s l := by rw [Machine.linkOf, h.links, ← Machine.linkOf]
end

-- The steps an access is made of

theorem memAccess_slices (s : State) (slices : Tab SliceS) : MemAccess s { s with slices := slices } :=
  ⟨rfl, rfl, rfl, rfl, rfl, ⟨_, _, rfl⟩, fun _ => ⟨_, rfl⟩, fun _ => ⟨_, rfl⟩⟩

theorem memAccess_modSlice (s : State) (k : Nat) (f : SliceS → SliceS) : MemAccess s (modSlice s k f) :=
  memAccess_slices s _

theorem memAccess_modStack (s : State) (k : Nat) (f : StackS → StackS) : MemAccess s (modStack s k f) :=
  ⟨rfl, rfl, rfl, rfl, rfl, ⟨_, _, rfl⟩, fun _ => ⟨_, rfl⟩, fun _ => ⟨_, rfl⟩⟩

theorem memAccess_modRouter (s : State) (k : Nat) (f : RouterS → RouterS) : MemAccess s (modRouter s k f) :=
  ⟨rfl, rfl, rfl, rfl, rfl, ⟨_, _, rfl⟩, fun _ => ⟨_, rfl⟩, fun _ => ⟨_, rfl⟩⟩

theorem memAccess_putLine (s : State) (l : Nat) (d : BitVec 512) (m : LineMeta) : MemAccess s (putLine s l d m) :=
  ⟨rfl, rfl, rfl, rfl, rfl, ⟨_, _, rfl⟩, fun _ => ⟨_, rfl⟩, fun _ => ⟨_, rfl⟩⟩

theorem memAccess_ctrBump (s : State) (l : Nat) : MemAccess s (ctrBump s l) :=
  ⟨rfl, rfl, rfl, rfl, rfl, ⟨_, _, rfl⟩, fun _ => ⟨_, rfl⟩, fun _ => ⟨_, rfl⟩⟩

theorem memAccess_logErr (s : State) (cls bh part syn region line n : Nat) :
    MemAccess s (logErr s cls bh part syn region line n) := by
  obtain ⟨buf, drop, h⟩ := logErr_eq s cls bh part syn region line n
  rw [h]
  exact ⟨rfl, rfl, rfl, rfl, rfl, ⟨_, _, rfl⟩, fun _ => ⟨_, rfl⟩, fun _ => ⟨_, rfl⟩⟩

theorem memAccess_logLine (s : State) (cls syn l : Nat) : MemAccess s (logLine s cls syn l) := by
  unfold logLine
  dsimp only
  split
  · exact memAccess_logErr ..
  · exact memAccess_logErr ..

theorem memAccess_rcache (s : State) (p : Nat) (f : ArrayS → List (Nat × Region)) :
    MemAccess s (modArr s p (fun a => { a with rcache := f a })) := by
  refine ⟨rfl, rfl, rfl, rfl, rfl, ⟨_, _, rfl⟩, fun q => ?_, fun _ => ⟨_, rfl⟩⟩
  obtain rfl | hq := eq_or_ne q p
  · exact ⟨_, arrOf_modArr_same ..⟩
  · exact ⟨_, arrOf_modArr_ne _ _ hq⟩

theorem memAccess_regions (s : State) (p : Nat) (f : PartS → Tab Region) :
    MemAccess s (modPart s p (fun x => { x with regions := f x })) := by
  refine ⟨rfl, rfl, rfl, rfl, rfl, ⟨_, _, rfl⟩, fun _ => ⟨_, rfl⟩, fun q => ?_⟩
  obtain rfl | hq := eq_or_ne q p
  · exact ⟨_, partOf_modPart_same ..⟩
  · exact ⟨_, partOf_modPart_ne _ _ hq⟩

theorem memAccess_rcRefresh (s : State) (p : Nat) : MemAccess s (rcRefresh s p) :=
  memAccess_foldl (fun t q => by
    split
    · exact .refl t
    · exact memAccess_rcache t q _) _ s

theorem memAccess_regionRo (s : State) (l : Nat) : MemAccess s (regionRo s l) :=
  (memAccess_regions s _ _).trans (memAccess_rcRefresh ..)

-- The controllers

theorem memAccess_of_logs {s t : State} {l : Nat} (h : t = s ∨ ∃ cls syn, t = logLine s cls syn l) :
    MemAccess s t := by
  obtain rfl | ⟨cls, syn, rfl⟩ := h
  · exact .refl _
  · exact memAccess_logLine ..

theorem memAccess_mergeRead (s : State) (r : StackReq) (l : Nat) : MemAccess s (mergeRead s r l).2 := by
  unfold mergeRead
  split
  · exact .refl s
  split
  · exact memAccess_logLine ..
  · exact memAccess_logLine ..
  · exact memAccess_logLine ..
  · exact .refl s

theorem memAccess_ctlWrite (s : State) (r : StackReq) (l : Nat) : MemAccess s (ctlWrite s r l).1 := by
  unfold ctlWrite
  dsimp only
  split
  · exact .refl s
  split
  · exact ((memAccess_putLine ..).trans (memAccess_logLine ..)).trans (memAccess_regionRo ..)
  · exact ((memAccess_mergeRead s r l).trans (memAccess_ctrBump ..)).trans (memAccess_putLine ..)

theorem memAccess_ctlPerform (s : State) (k : Nat) (r : StackReq) (l : Nat) : MemAccess s (ctlPerform s k r l).1 := by
  by_cases hr : r.kind = .rd64
  · exact memAccess_of_logs (ctlPerform_rd64_fst s k hr l)
  unfold ctlPerform
  split
  · dsimp only
    split
    · exact .refl s
    · exact memAccess_logLine ..
  · dsimp only
    split
    · next h => exact absurd h hr
    · exact memAccess_ctlWrite s r l

theorem memAccess_giveReply (s : State) (k : Nat) (r : StackReq) (x : StackReply) : MemAccess s (giveReply s k r x) := by
  unfold giveReply netSend
  dsimp only
  split
  · exact memAccess_modSlice s r.from_ (fun y => { y with replies := y.replies ++ [x] })
  · exact ⟨rfl, rfl, rfl, rfl, rfl, ⟨_, _, rfl⟩, fun _ => ⟨_, rfl⟩, fun _ => ⟨_, rfl⟩⟩

theorem memAccess_performReq (l : Nat) (s : State) (r : StackReq) : MemAccess s (performReq l s r) := by
  have h := memAccess_ctlPerform s (lineStack l) r l
  unfold performReq
  split
  · next e => rw [e] at h; exact h.trans (memAccess_giveReply ..)
  · next e => rw [e] at h; exact h

theorem memAccess_ctlFlush (s : State) (l : Nat) : MemAccess s (ctlFlush s l) := by
  rw [ctlFlush_eq]
  split
  · exact .refl s
  · exact (memAccess_modStack ..).trans (memAccess_foldl (memAccess_performReq l) _ _)

theorem memAccess_ctlNow (s : State) (kind : StackKind) (l key prot : Nat) (mask : W64) (d : BitVec 512) (pois : Bool) :
    MemAccess s (ctlNow s kind l key prot mask d pois).1 := by
  unfold ctlNow
  dsimp only
  refine (memAccess_ctlFlush s l).trans (MemAccess.trans ?_ (memAccess_ctlPerform ..))
  split
  · exact memAccess_modSlice ..
  · exact .refl _

-- The slices

theorem memAccess_writeBack (s : State) (y : L2Line) : MemAccess s (writeBack s y) := by
  unfold writeBack
  split
  · exact .refl s
  split
  · exact memAccess_ctlNow ..
  · exact memAccess_ctlNow ..

theorem memAccess_evict (s : State) (k : Nat) (y : L2Line) : MemAccess s (evict s k y) := by
  unfold evict
  dsimp only
  refine (memAccess_modSlice s k (fun x => l2Drop x y)).trans (MemAccess.trans ?_ (memAccess_writeBack ..))
  split
  · exact memAccess_logLine ..
  · exact .refl _

theorem memAccess_makeRoom (s : State) (k l : Nat) : MemAccess s (makeRoom s k l).1 := by
  unfold makeRoom
  dsimp only
  split
  · exact .refl s
  split
  · exact memAccess_evict ..
  · exact .refl s

theorem memAccess_meetUe (s : State) (k l : Nat) : MemAccess s (meetUe s k l) := by
  unfold meetUe
  split
  · dsimp only
    split
    · exact .refl s
    refine (memAccess_logLine s ecL2ue 3 l).trans ?_
    split
    · exact memAccess_modSlice ..
    · exact memAccess_modSlice ..
  · exact .refl s

theorem memAccess_l2Install (s : State) (k l slot prot rc : Nat) (r : StackReply) :
    MemAccess s (l2Install s k l slot prot rc r) := by
  unfold l2Install
  split
  · exact .refl s
  refine (memAccess_meetUe s k l).trans ?_
  generalize meetUe s k l = u
  dsimp only
  split
  · exact memAccess_modSlice ..
  · have hroom := memAccess_makeRoom u k l
    split
    · next e => rw [e] at hroom; exact hroom
    · next e => rw [e] at hroom; exact hroom.trans (memAccess_modSlice ..)

theorem memAccess_l2Touch (s : State) (k : Nat) (y : L2Line) (pin : Bool) : MemAccess s (l2Touch s k y pin) := by
  unfold l2Touch
  dsimp only
  generalize (if pin = true then _ else y) = z
  split
  · split
    · exact memAccess_modSlice ..
    · exact memAccess_modSlice ..
  · exact memAccess_modSlice ..

theorem memAccess_fillServe (s : State) (k l : Nat) (r : StackReply) : MemAccess s (fillServe s k l r).1 := by
  unfold fillServe
  split
  · split
    · exact .refl s
    · exact memAccess_l2Touch ..
  · exact .refl s

/-- A fill that is installed and served. -/
theorem memAccess_filled {s u : State} (h : MemAccess s u) (k l slot prot rc : Nat) (x : StackReply) :
    MemAccess s (fillServe (l2Install u k l slot prot rc x) k l x).1 :=
  (h.trans (memAccess_l2Install ..)).trans (memAccess_fillServe ..)

theorem memAccess_lineRead (s : State) (l slot prot : Nat) (node : Option NodeId) (rc : Nat) :
    MemAccess s (lineRead s l slot prot node rc).1 := by
  have hnow (kind : StackKind) (mask : W64) (d : BitVec 512) := memAccess_ctlNow s kind l slot prot mask d false
  unfold lineRead
  dsimp only
  split
  · split
    · exact memAccess_meetUe ..
    split
    · exact hnow ..
    split
    · exact memAccess_l2Touch ..
    split
    · exact hnow ..
    · split
      · exact memAccess_filled (hnow ..) ..
      · exact hnow ..
  · split
    · exact memAccess_filled (hnow ..) ..
    · exact hnow ..

theorem memAccess_stagedUnder (s : State) (k : Nat) (y : L2Line) (d : BitVec 512) (mask : W64) :
    MemAccess s (stagedUnder s k y d mask) := memAccess_modSlice ..

theorem memAccess_lineWrite (s : State) (l slot prot : Nat) (d : BitVec 512) (mask : W64) (pois : Bool)
    (stage : Option NodeId) : MemAccess s (lineWrite s l slot prot d mask pois stage).1 := by
  have hu := memAccess_meetUe s (homeSlice l) l
  rw [lineWrite]
  dsimp only
  generalize meetUe s (homeSlice l) l = u at hu ⊢
  have hnow := hu.trans (memAccess_ctlNow u .wr64 l slot prot mask d (pois && (mask == allBytes)))
  have hroom := hu.trans (memAccess_makeRoom u (homeSlice l) l)
  cases l2Find (sliceOf u (homeSlice l)) l with
  | some y =>
    dsimp only
    split
    · exact hu
    split
    · exact hnow.trans (memAccess_stagedUnder ..)
    split
    · exact hu
    dsimp only
    split
    · exact (hu.trans (memAccess_writeBack u y)).trans (memAccess_modSlice _ _ _)
    · exact hu.trans (memAccess_modSlice _ _ _)
  | none =>
    dsimp only
    split
    · exact hu
    rcases hm : makeRoom u (homeSlice l) l with ⟨v, _ | _⟩ <;> rw [hm] at hroom <;> dsimp only at hroom ⊢
    · split
      · exact hroom
      · exact hroom.trans (memAccess_ctlNow v .wr64 l slot prot mask d _)
    · exact hroom.trans (memAccess_modSlice _ _ _)

-- Bytes of memory and of regions

theorem memAccess_paRead (s : State) (pa n slot prot : Nat) (node : Option NodeId) (rc : Nat) :
    MemAccess s (paRead s pa n slot prot node rc).1 :=
  foldl_induct (R := fun x y : State × BytesVal => MemAccess x.1 y.1) (fun _ => .refl _) (fun h g => h.trans g)
    (fun x l => memAccess_lineRead x.1 l slot prot node rc) _ (s, {})

theorem memAccess_paWrite (s : State) (pa slot prot : Nat) (bs : List Byte) (pois : Bool) :
    MemAccess s (paWrite s pa slot prot bs pois) :=
  memAccess_foldl (fun _ _ => memAccess_lineWrite ..) _ s

theorem memAccess_regRead (s : State) (b : Nat) (r : Region) (off n : Nat) (node : Option NodeId) (rc : Nat) :
    MemAccess s (regRead s b r off n node rc).1 := by
  unfold regRead
  split
  · split
    · exact memAccess_paRead ..
    · dsimp only
      split
      · exact memAccess_logErr ..
      · exact .refl s
  · exact memAccess_paRead ..

theorem memAccess_regWrite (s : State) (b : Nat) (r : Region) (off : Nat) (bs : List Byte) (pois : Bool) :
    MemAccess s (regWrite s b r off bs pois) := by
  unfold regWrite
  split
  · split
    · exact memAccess_paWrite ..
    · exact memAccess_logErr ..
  · exact memAccess_paWrite ..

end Sys2Proof.Machine

namespace Sys2Proof.Machine
open Sys2Proof

/-! ## Queues and their levels -/

theorem modQueue_congr (s : State) (b q : Nat) {f g : QueueS → QueueS} (h : f (queueOf s b q) = g (queueOf s b q)) :
    modQueue s b q f = modQueue s b q g :=
  congrArg (fun y => setBh s b { bhOf s b with queues := tabSet (bhOf s b).queues q y }) h

theorem modQueue_modQueue (s : State) (b q : Nat) (f g : QueueS → QueueS) :
    modQueue (modQueue s b q f) b q g = modQueue s b q (fun x => g (f x)) := by
  simp [modQueue, modBh, setBh, bhOf, tabSet_tabSet_same]

theorem hereQ_modQueue (s : State) (f : QueueS → QueueS) :
    hereQ (modQueue s s.cur.bh s.cur.q f) = f (hereQ s) := queueOf_modQueue_same ..

/-- A change of one queue changes that queue alone. -/
theorem onlyQueue_modQueue (s : State) (b q : Nat) (f : QueueS → QueueS) : OnlyQueue b q s (modQueue s b q f) :=
  modQueue_congr s b q (queueOf_modQueue_same ..).symm

theorem queueOf_modBh_of_queues (s : State) (b : Nat) (f : BhS → BhS) (h : ∀ x, (f x).queues = x.queues) (c q : Nat) :
    queueOf (modBh s b f) c q = queueOf s c q := by
  by_cases hc : c = b
  · rw [hc, queueOf, bhOf_modBh_same, h, queueOf]
  · rw [queueOf, bhOf_modBh_ne _ _ hc, queueOf]

theorem modTop_of_top {x : QueueS} {l : LevelS} (h : topLevel x = some l) (f : LevelS → LevelS) :
    modTop x f = { x with levels := x.levels.dropLast ++ [f l] } := by
  rw [topLevel] at h
  rw [modTop, h]

theorem topLevel_append (x : QueueS) (ls : List LevelS) (l : LevelS) :
    topLevel { x with levels := ls ++ [l] } = some l := List.getLast?_concat

/-! ## The frame of a packet (R97, R98, R101) -/

section
variable {s : State} {l : LevelS} (h : topLevel (hereQ s) = some l)
include h

theorem packetDone_eq (len : Nat) : packetDone s len = packetOver s len l :=
  modQueue_congr s _ _ (modTop_of_top (x := { hereQ s with waited := false }) h _)

theorem packetGo_of_kind {k : QueueKinds} (hk : kindAllows k s.cur.q = false) (len : Nat) (pr : Bool)
    (go : LevelS → State) : packetGo s len pr k go = packetFault s qfQkind := by
  rw [packetGo, h, hk]
  rfl

theorem packetGo_of_spanless {k : QueueKinds} (hk : kindAllows k s.cur.q = true) (hspan : l.span = none) (len : Nat)
    (go : LevelS → State) : packetGo s len true k go = packetFault s qfSpan := by
  rw [packetGo, h]
  simp [hk, hspan]

theorem packetGo_of_false {k : QueueKinds} (hk : kindAllows k s.cur.q = true) (hspan : l.span = some false) (len : Nat)
    (go : LevelS → State) : packetGo s len true k go = packetOver s len l := by
  rw [packetGo, h]
  simp [hk, hspan, packetDone_eq h]
end

theorem packetGo_of_runs {s : State} {pr : Bool} {k : QueueKinds} {l : LevelS} (h : PacketRuns s pr k l) (len : Nat)
    (go : LevelS → State) : packetGo s len pr k go = go l := by
  obtain ⟨htop, hkind, hspan⟩ := h
  rw [packetGo, htop]
  cases pr with
  | false => simp [hkind]
  | true => simp [hkind, hspan rfl]

/-- A packet that is over after an access of memory. -/
theorem MemAccess.packetDone_eq {s t : State} (h : MemAccess s t) {l : LevelS} (hl : topLevel (Machine.hereQ s) = some l)
    (len : Nat) : packetDone t len = packetOver t len l := Machine.packetDone_eq (h.hereQ.symm ▸ hl) len

/-! ## What packets wait for, and their writes (R99, R105) -/

theorem waitQuiet_of_quiet {s : State} {w : Bool} (h : QuietFor s w) (go : State) : waitQuiet s w go = go := by
  refine if_neg fun hc => ?_
  simp only [Bool.and_eq_true, Bool.not_eq_true'] at hc
  obtain ⟨⟨hw, hwaited⟩, hquiet⟩ := hc
  rcases h hw with hx | hx
  · rw [hx] at hwaited; exact Bool.noConfusion hwaited
  · rw [hx] at hquiet; exact Bool.noConfusion hquiet

theorem waitQuiet_of_busy {s : State} {w : Bool} (h : ¬ QuietFor s w) (go : State) :
    waitQuiet s w go = queueWait s s.cur.bh s.cur.q .quiesce := by
  refine if_pos ?_
  simp only [QuietFor, Classical.not_imp, not_or, Bool.not_eq_true] at h
  obtain ⟨hw, hwaited, hquiet⟩ := h
  rw [hw, hwaited, hquiet]
  rfl

section
variable {s : State} {va : Nat} {bs : List Byte} {num : Nat} {r : Region} {o : Nat}
  (hx : xlatePart s (partOfBh s s.cur.bh) va bs.length (cmdOwner s s.cur.bh) .wr = .ok num r o)
  (hw : releaseWait s (partOfBh s s.cur.bh) (cmdOwner s s.cur.bh) none va = false)
include hx hw

theorem cmdWrite_of_ok : cmdWrite s s.cur.bh va bs = .ok (some (regWrite s s.cur.bh r o bs false)) := by
  rw [cmdWrite, hx]
  simp [hw]

theorem withCmdWrite_of_ok (go : State → State) :
    withCmdWrite s va bs go = go (regWrite s s.cur.bh r o bs false) := by
  rw [withCmdWrite, cmdWrite_of_ok hx hw]
end

/-! ## Semaphores of packets (R112, R113) -/

theorem withName_of_ok {s : State} {name : W16} (h : (name.extractLsb' 12 4).toNat < partSize s (partOfBh s s.cur.bh))
    (go : State) : withName s name go = go := by
  refine if_pos (decide_eq_true ?_)
  simpa [bitsN_eq_div_mod, BitVec.extractLsb'_toNat, Nat.shiftRight_eq_div_pow] using h

theorem semSend_add (s : State) (b p : Nat) (name : W16) (v : W64) :
    semSend s b p .add name v = semSent s b p false name v := rfl

theorem semSend_set (s : State) (b p : Nat) (name : W16) (v : W64) :
    semSend s b p .set name v = semSent s b p true name v := rfl

theorem queueOf_netSend_sem (s : State) (f t : Nat × Nat × Nat) (bh a ep : Nat) (x : SemOp) (b q : Nat) :
    queueOf (netSend s 1 f t bh (.sem a ep x)) b q = queueOf s b q := by
  unfold netSend
  split
  · exact queueOf_modBh_of_queues s a (fun y => { y with semArr := y.semArr ++ [(ep, x)] }) (fun _ => rfl) b q
  · rfl

theorem queueOf_semSent (s : State) (b p : Nat) (set : Bool) (name : W16) (v : W64) (c q : Nat) :
    queueOf (semSent s b p set name v) c q = queueOf s c q := by
  unfold semSent
  split
  · exact queueOf_modBh_of_queues s _
      (fun x => { x with sems := tabPut x.sems 0 (semPlace p name).2 (if set then v else semGet s p name + v) })
      (fun _ => rfl) c q
  · exact queueOf_netSend_sem ..

theorem cur_semSent (s : State) (b p : Nat) (set : Bool) (name : W16) (v : W64) :
    (semSent s b p set name v).cur = s.cur := by
  unfold semSent netSend
  split
  · rfl
  split
  · rfl
  · rfl

theorem hereQ_semSent (s : State) (b p : Nat) (set : Bool) (name : W16) (v : W64) :
    hereQ (semSent s b p set name v) = hereQ s := by
  rw [hereQ, cur_semSent, queueOf_semSent]

/-! ## Faults and halts (R90, R94, R115) -/

/-- A function's buffer after a notification of a queue whose work is then dropped. -/
theorem notif_of_pushed (s : State) (b q f : Nat) (n : Notif) (g : QueueS → QueueS) :
    tabGet (modQueue (pushNotif s f n) b q g).port.notif [] f = tabGet s.port.notif [] f ++ [n] :=
  tabGet_tabMod_same s.port.notif [] f (fun l => l ++ [n])

theorem hereQ_dropWork (s : State) (f : Nat) (n : Notif) (st : QState) :
    hereQ (modQueue (pushNotif s f n) s.cur.bh s.cur.q (fun x => dropWork x st)) = dropWork (hereQ s) st :=
  hereQ_modQueue (pushNotif s f n) _

/-- The notification of a fault of the packet being executed. -/
def faultNotif (s : State) (cause : Nat) : Notif :=
  let x := hereQ s
  queueNotif s s.cur.bh s.cur.q 4 cause (queueLevel x) x.at_ (discardCount x) none
    ((((topLevel x).bind (fun l => heldWord l x.at_)).getD 0).setWidth 256)

theorem packetFault_of_room {s : State} (cause : Nat) (h : notifFull s (hereQ s).vf = false) :
    packetFault s cause = modQueue (pushNotif s (hereQ s).vf (faultNotif s cause)) s.cur.bh s.cur.q
      (fun x => dropWork x .faulted) := if_neg (by rw [h]; exact Bool.false_ne_true)

/-- A fault of the packet being executed, as the obligations state it. -/
theorem queueFaults_packetFault (s : State) (cause : Nat) : QueueFaults s cause (.next (packetFault s cause)) := by
  intro hroom
  refine ⟨_, faultNotif s cause, congrArg Host.Outcome.next
    (packetFault_of_room cause (decide_eq_false (Nat.not_le.mpr hroom))), ?_⟩
  rw [hereQ_dropWork]
  exact ⟨rfl, rfl, rfl, rfl, rfl, notif_of_pushed .., rfl, rfl, rfl⟩

end Sys2Proof.Machine

namespace Sys2Proof.Machine
open Sys2Proof

/-! ## The synchronous packets (R99, R104, R105) -/

/-- A packet at the head of level `l` that is over after an access of memory. -/
theorem PacketRuns.packetDone {s t : State} {pr : Bool} {k : QueueKinds} {l : LevelS} (h : PacketRuns s pr k l)
    (ht : MemAccess s t) (len : Nat) : packetDone t len = packetOver t len l := ht.packetDone_eq h.1 len

section
variable {s : State} {pr : Bool} {l : LevelS} (h : PacketRuns s pr .all l)
include h

theorem exec_pktNop (len : BitVec 14) : exec (.pktNop pr len) s = .next (packetOver s len.toNat l) :=
  congrArg Host.Outcome.next ((packetGo_of_runs h _ _).trans (h.packetDone (.refl s) _))

theorem exec_pktWrite (addr : BitVec 64) (data : List (BitVec 32)) {num : Nat} {r : Region} {o : Nat}
    (hx : xlatePart s (partOfBh s s.cur.bh) addr.toNat (4 * data.length) (cmdOwner s s.cur.bh) .wr = .ok num r o)
    (hw : releaseWait s (partOfBh s s.cur.bh) (cmdOwner s s.cur.bh) none addr.toNat = false) :
    exec (.pktWrite pr addr data) s = .next (packetOver
      (regWrite s s.cur.bh r o (data.flatMap (fun w => leBytes 4 w.toNat)) false) (3 + data.length) l) := by
  have hlen : (data.flatMap (fun w => leBytes 4 w.toNat)).length = 4 * data.length := by
    rw [length_flatMap_of_forall (n := 4) (fun _ _ => length_leBytes _ _), Nat.mul_comm]
  rw [← hlen] at hx
  refine congrArg Host.Outcome.next ((packetGo_of_runs h _ _).trans ((withCmdWrite_of_ok hx hw _).trans ?_))
  exact h.packetDone (memAccess_regWrite ..) _

theorem exec_pktStamp (w : Bool) (addr : BitVec 64) {num : Nat} {r : Region} {o : Nat} (hq : QuietFor s w)
    (hx : xlatePart s (partOfBh s s.cur.bh) addr.toNat 8 (cmdOwner s s.cur.bh) .wr = .ok num r o)
    (hw : releaseWait s (partOfBh s s.cur.bh) (cmdOwner s s.cur.bh) none addr.toNat = false) :
    exec (.pktStamp pr w addr) s = .next (packetOver
      (regWrite s s.cur.bh r o (leBytes 8 (s.hub.timer / 2 ^ 32)) false) 3 l) := by
  rw [← length_leBytes 8 (nsTime s)] at hx
  refine congrArg Host.Outcome.next ((packetGo_of_runs h _ _).trans ?_)
  rw [cmdWrite_of_ok hx hw]
  exact (waitQuiet_of_quiet hq _).trans (h.packetDone (memAccess_regWrite ..) _)

section
variable (w : Bool) {name : W16} (v : W64)
  (hn : (name.extractLsb' 12 4).toNat < partSize s (partOfBh s s.cur.bh))
include hn

/-- The packet of a semaphore operation is over once the operation has been sent. -/
theorem packetGo_semSent (hq : QuietFor s w) (set : Bool) (len : Nat) :
    packetGo s len pr .all (fun _ => withName s name (waitQuiet s w
      (packetDone (semSent s s.cur.bh (partOfBh s s.cur.bh) set name v) len))) =
    packetOver (semSent s s.cur.bh (partOfBh s s.cur.bh) set name v) len l :=
  (packetGo_of_runs h _ _).trans ((withName_of_ok hn _).trans ((waitQuiet_of_quiet hq _).trans
    (packetDone_eq ((hereQ_semSent ..).symm ▸ h.1) len)))

theorem exec_pktSemsigAdd (hq : QuietFor s w) : exec (.pktSemsigAdd pr w name v) s =
    .next (packetOver (semSent s s.cur.bh (partOfBh s s.cur.bh) false name v) 4 l) :=
  congrArg Host.Outcome.next (packetGo_semSent h w v hn hq false 4)

theorem exec_pktSemsigSet (hq : QuietFor s w) : exec (.pktSemsigSet pr w name v) s =
    .next (packetOver (semSent s s.cur.bh (partOfBh s s.cur.bh) true name v) 4 l) :=
  congrArg Host.Outcome.next (packetGo_semSent h w v hn hq true 4)

theorem exec_pktSemwait : exec (.pktSemwait pr name v) s = .next (
    if ((hereQ s).waited || !(semGet s (partOfBh s s.cur.bh) name).ult v) = true then packetDone s 4
    else queueWait s s.cur.bh s.cur.q (.sem name v)) :=
  congrArg Host.Outcome.next ((packetGo_of_runs h _ _).trans (withName_of_ok hn _))

theorem exec_pktSemwait_of_le (hv : v.toNat ≤ (semGet s (partOfBh s s.cur.bh) name).toNat) :
    exec (.pktSemwait pr name v) s = .next (packetOver s 4 l) := by
  have hult : (semGet s (partOfBh s s.cur.bh) name).ult v = false := decide_eq_false (Nat.not_lt.mpr hv)
  rw [exec_pktSemwait h v hn, if_pos (by rw [hult]; exact Bool.or_true _), packetDone_eq h.1]

theorem exec_pktSemwait_of_lt (hv : (semGet s (partOfBh s s.cur.bh) name).toNat < v.toNat)
    (hwaited : (hereQ s).waited = false) :
    exec (.pktSemwait pr name v) s = .next (queueWait s s.cur.bh s.cur.q (.sem name v)) := by
  have hult : (semGet s (partOfBh s s.cur.bh) name).ult v = true := decide_eq_true hv
  rw [exec_pktSemwait h v hn, if_neg (by rw [hult, hwaited]; exact Bool.false_ne_true)]
end

theorem exec_pktFfence : exec (.pktFfence pr) s = .next (modQueue (packetOver s 1 l) s.cur.bh s.cur.q
    (fun x => { x with levels := x.levels.map (fun y => { y with bytes := [] }) })) := by
  refine congrArg Host.Outcome.next ((packetGo_of_runs h _ _).trans ?_)
  rw [packetDone_eq h.1]

theorem exec_pktNotify (w : Bool) (qp : BitVec 4) (cookie : W64) (hq : QuietFor s w)
    (hroom : notifFull s (hereQ s).vf = false) :
    exec (.pktNotify pr w qp cookie) s = .next (packetOver (pushNotif s (hereQ s).vf
      { queueNotif s s.cur.bh s.cur.q 1 0 (queueLevel (hereQ s)) l.pos 0 (some cookie) 0 with qp := qp.toNat }) 4 l) := by
  refine congrArg Host.Outcome.next ((packetGo_of_runs h _ _).trans ((waitQuiet_of_quiet hq _).trans ?_))
  exact (if_neg (by rw [hroom]; exact Bool.false_ne_true)).trans (packetDone_eq (s := pushNotif ..) h.1 4)

theorem exec_pktQuiesce_of_quiet (hq : QuietFor s true) : exec (.pktQuiesce pr) s = .next (packetOver s 1 l) :=
  congrArg Host.Outcome.next ((packetGo_of_runs h _ _).trans ((waitQuiet_of_quiet hq _).trans (packetDone_eq h.1 1)))

theorem exec_pktQuiesce_of_busy (hq : ¬ QuietFor s true) :
    exec (.pktQuiesce pr) s = .next (queueWait s s.cur.bh s.cur.q .quiesce) :=
  congrArg Host.Outcome.next ((packetGo_of_runs h _ _).trans (waitQuiet_of_busy hq _))

theorem exec_pktHalt (notify : Bool) : exec (.pktHalt pr notify) s = .next (queueHalt s s.cur.bh s.cur.q notify) :=
  congrArg Host.Outcome.next (packetGo_of_runs h _ _)
end

/-- The notification of a halt. -/
def haltNotif (s : State) : Notif :=
  queueNotif s s.cur.bh s.cur.q 5 0 (queueLevel (hereQ s)) (hereQ s).at_ (discardCount (hereQ s)) none 0

theorem queueHalt_of_room {s : State} {note : Bool} (h : note = true → notifFull s (hereQ s).vf = false) :
    queueHalt s s.cur.bh s.cur.q note =
      modQueue (if note then pushNotif s (hereQ s).vf (haltNotif s) else s) s.cur.bh s.cur.q
        (fun x => dropWork x .halted) := by
  refine if_neg fun hc => ?_
  obtain ⟨hnote, hfull⟩ := Bool.and_eq_true_iff.mp hc
  exact Bool.false_ne_true ((h hnote).symm.trans hfull)

theorem hereQ_queueHalt {s : State} {note : Bool} (h : note = true → notifFull s (hereQ s).vf = false) :
    hereQ (queueHalt s s.cur.bh s.cur.q note) = dropWork (hereQ s) .halted := by
  rw [queueHalt_of_room h]
  cases note with
  | false => exact hereQ_modQueue s _
  | true => exact hereQ_dropWork ..

/-- Settles O37: each packet by its own lemma of this section. -/
theorem synchronousPackets : Obligations.SynchronousPackets := by
  intro s pr l h b q p full note
  have hroom : ¬ full → notifFull s (hereQ s).vf = false := fun hf => decide_eq_false hf
  refine ⟨exec_pktNop h, fun addr data _ _ _ => exec_pktWrite h addr data, fun w addr _ _ _ => exec_pktStamp h w addr,
    fun w _ v hq hn => ⟨exec_pktSemsigAdd h w v hn hq, exec_pktSemsigSet h w v hn hq⟩,
    fun _ v hn => ⟨exec_pktSemwait_of_le h v hn, exec_pktSemwait_of_lt h v hn⟩, exec_pktFfence h,
    fun w qp cookie hq hf => exec_pktNotify h w qp cookie hq (hroom hf), exec_pktQuiesce_of_quiet h,
    exec_pktQuiesce_of_busy h, fun notify hf => ?_⟩
  have hfree : notify = true → notifFull s (hereQ s).vf = false := fun hn => hroom (hf hn)
  refine ⟨_, exec_pktHalt h notify, ?_⟩
  rw [hereQ_queueHalt hfree, queueHalt_of_room hfree, modQueue_port, modQueue_mem]
  refine ⟨rfl, rfl, rfl, rfl, rfl, ?_, ?_⟩
  · cases notify <;> rfl
  · cases notify <;> rfl

end Sys2Proof.Machine

namespace Sys2Proof.Machine
open Sys2Proof

/-! ## Spans (R100, R101) -/

theorem modQueue_modTop {s : State} {l : LevelS} (h : topLevel (hereQ s) = some l) (f : LevelS → LevelS) :
    modQueue s s.cur.bh s.cur.q (fun x => modTop x f) =
      modQueue s s.cur.bh s.cur.q (fun x => { x with levels := x.levels.dropLast ++ [f l] }) :=
  modQueue_congr s _ _ (modTop_of_top h f)

/-- What the innermost level was when its packet is over does not matter. -/
theorem packetOver_replaced (s : State) (z : LevelS) (len : Nat) (l : LevelS) :
    packetOver (modQueue s s.cur.bh s.cur.q (fun x => { x with levels := x.levels.dropLast ++ [z] })) len l =
      packetOver s len l := by
  rw [packetOver, modQueue_cur, modQueue_modQueue, packetOver]
  simp

theorem top_replaced (s : State) (z : LevelS) :
    topLevel (hereQ (modQueue s s.cur.bh s.cur.q (fun x => { x with levels := x.levels.dropLast ++ [z] }))) = some z :=
  (congrArg topLevel (hereQ_modQueue ..)).trans (topLevel_append ..)

/-- A change of the innermost level, with the packet at its head then over. -/
theorem packetDone_modTop {s : State} {l : LevelS} (h : topLevel (hereQ s) = some l) (f : LevelS → LevelS) (len : Nat) :
    packetDone (modQueue s s.cur.bh s.cur.q (fun x => modTop x f)) len = packetOver s len (f l) := by
  rw [modQueue_modTop h, packetDone_eq (top_replaced ..), packetOver_replaced]

/-- The order that PRED compares by: signed, or as naturals (R100). -/
abbrev predLe (sg : Bool) (x y : W64) : Prop := if sg then x.toInt ≤ y.toInt else x.toNat ≤ y.toNat

theorem predLe_and_ne (sg : Bool) (x y : W64) : predLe sg x y ∧ x ≠ y ↔ ¬ predLe sg y x := by
  cases sg with
  | false =>
    simp only [predLe, Bool.false_eq_true, if_false, Ne, ← BitVec.toNat_inj]
    omega
  | true =>
    simp only [predLe, if_true, Ne, ← BitVec.toInt_inj]
    omega

theorem predLt_iff (sg : Bool) (x y : W64) : (if sg then x.slt y else x.ult y) = true ↔ ¬ predLe sg y x := by
  cases sg with
  | false => simp [predLe, BitVec.ult]
  | true => simp [predLe, BitVec.slt]

theorem predNotLt_iff (sg : Bool) (x y : W64) :
    (!(if sg then y.slt x else y.ult x)) = true ↔ predLe sg x y := by
  rw [Bool.not_eq_true', ← Bool.not_eq_true, predLt_iff, not_not]

theorem predCmp_eq_predHolds (cc : BitVec 3) (sg : Bool) (x y : W64) (h : cc.toNat < 6) :
    predCmp cc sg x y = predHolds cc sg x y := by
  rw [Bool.eq_iff_iff]
  unfold predCmp predHolds
  dsimp only
  generalize cc.toNat = n at h
  interval_cases n
  · exact beq_iff_eq.trans decide_eq_true_iff.symm
  · exact bne_iff_ne.trans decide_eq_true_iff.symm
  · exact (predLt_iff sg x y).trans ((predLe_and_ne sg x y).symm.trans decide_eq_true_iff.symm)
  · exact (predNotLt_iff sg x y).trans decide_eq_true_iff.symm
  · exact (predLt_iff sg y x).trans ((predLe_and_ne sg y x).symm.trans
      ((and_congr_right fun _ => ne_comm).trans decide_eq_true_iff.symm))
  · exact (predNotLt_iff sg y x).trans decide_eq_true_iff.symm

theorem memAccess_predRead {s t : State} {b va : Nat} {w : W64} (h : predRead s b va = .ok (t, w)) : MemAccess s t := by
  unfold predRead at h
  dsimp only at h
  split at h
  · exact nomatch h
  next num r off _ =>
    have hr := memAccess_regRead s b r off 8 none 0
    split at h
    · exact nomatch h
    split at h
    · exact nomatch h
    · cases h
      exact hr

section
variable {s : State} {l : LevelS} (h : topLevel (hereQ s) = some l)
include h

theorem packetGo_of_plain (len : Nat) (go : LevelS → State) : packetGo s len false .all go = go l :=
  packetGo_of_runs (pr := false) (k := .all) ⟨h, rfl, fun hf => nomatch hf⟩ len go

theorem setSpan_some (v : Bool) : setSpan s (some v) =
    modQueue s s.cur.bh s.cur.q (fun x => { x with levels := x.levels.dropLast ++ [{ l with span := some v }] }) :=
  modQueue_congr s _ _ (modTop_of_top h _)

theorem exec_pktPred {cc : BitVec 3} (sg : Bool) {addr : W64} (value mask : W64) {t : State} {w : W64}
    (hspan : l.span = none) (hcc : cc.toNat < 6) (hread : predRead s s.cur.bh addr.toNat = .ok (t, w))
    (hrel : releaseWait s (partOfBh s s.cur.bh) (cmdOwner s s.cur.bh) none addr.toNat = false) :
    exec (.pktPred false cc sg addr value mask) s = .next (packetOver t 7
      { l with span := some (predHolds cc sg (w &&& mask) value), pred := (l.pos, (heldWord l l.pos).getD 0) }) := by
  have ht := memAccess_predRead hread
  have htop : topLevel (hereQ t) = some l := ht.hereQ.symm ▸ h
  refine congrArg Host.Outcome.next ((packetGo_of_plain h _ _).trans ?_)
  rw [if_neg (by rw [hspan]; exact Bool.false_ne_true)]
  dsimp only
  rw [hread, ← predCmp_eq_predHolds cc sg _ _ hcc]
  dsimp only
  generalize predCmp cc sg (w &&& mask) value = v
  rw [if_neg (by rw [hrel]; exact Bool.false_ne_true), setSpan_some htop]
  rw [← ht.cur]
  exact (packetDone_modTop (top_replaced t _) _ 7).trans (packetOver_replaced ..)

theorem exec_pktPend {v : Bool} (hspan : l.span = some v) : exec (.pktPend false) s = .next (packetOver s 1
    { l with span := none, loop := l.loop.map (fun x => { x with inSpan := false }) }) := by
  refine congrArg Host.Outcome.next ((packetGo_of_plain h _ _).trans ?_)
  simp only [hspan]
  exact packetDone_modTop h (fun l =>
    { l with span := none, loop := l.loop.map (fun x => { x with inSpan := false }) }) 1

theorem exec_pktPred_of_span (cc : BitVec 3) (sg : Bool) (addr value mask : W64) (hspan : l.span ≠ none) :
    exec (.pktPred false cc sg addr value mask) s = .next (packetFault s qfSpan) :=
  congrArg Host.Outcome.next ((packetGo_of_plain h _ _).trans
    (if_pos (Option.isSome_iff_ne_none.mpr hspan)))

theorem exec_pktPend_of_spanless (hspan : l.span = none) : exec (.pktPend false) s = .next (packetFault s qfSpan) :=
  congrArg Host.Outcome.next ((packetGo_of_plain h _ _).trans
    (if_pos (Option.isNone_iff_eq_none.mpr hspan)))

/-! ## Calls (R103) -/

theorem exec_pktIb {pr : Bool} (host : Bool) (addr : W64) (bytes rkey : W32) (hspan : pr = true → l.span = some true)
    (hlev : (hereQ s).levels.length < 3) :
    exec (.pktIb pr host addr bytes rkey) s = .next (modQueue (packetOver s 5 l) s.cur.bh s.cur.q (fun x =>
      { x with levels := x.levels ++
          [{ host := host, base := addr.toNat, len := bytes.toNat, rkey := rkey, pos := 0 }] })) := by
  refine congrArg Host.Outcome.next ((packetGo_of_runs ⟨h, rfl, hspan⟩ _ _).trans ?_)
  rw [if_neg (Nat.not_le.mpr hlev), packetDone_eq h]

theorem exec_pktIb_of_deep {pr : Bool} (host : Bool) (addr : W64) (bytes rkey : W32)
    (hspan : pr = true → l.span = some true) (hlev : 3 ≤ (hereQ s).levels.length) :
    exec (.pktIb pr host addr bytes rkey) s = .next (packetFault s qfIbdepth) :=
  congrArg Host.Outcome.next ((packetGo_of_runs ⟨h, rfl, hspan⟩ _ _).trans (if_pos hlev))
end

/-! ## Loops (R102) -/

/-- The command path of the bulkhead acted on may write a word at an address, and nothing holds the write back (R99,
R105); an address of 0 asks for no write. -/
abbrev IndexFree (s : State) (va : Nat) : Prop := va = 0 ∨ ∃ num r o,
  xlatePart s (partOfBh s s.cur.bh) va 8 (cmdOwner s s.cur.bh) .wr = .ok num r o ∧
    releaseWait s (partOfBh s s.cur.bh) (cmdOwner s s.cur.bh) none va = false

theorem part_modQueue (s : State) (b q : Nat) (f : QueueS → QueueS) (c : Nat) :
    (bhOf (modQueue s b q f) c).part = (bhOf s c).part := by
  by_cases hc : c = b
  · rw [hc, modQueue, bhOf_modBh_same]
  · rw [modQueue, bhOf_modBh_ne _ _ hc]

theorem IndexFree.modQueue {s : State} {va : Nat} (h : IndexFree s va) (f : QueueS → QueueS) :
    IndexFree (modQueue s s.cur.bh s.cur.q f) va := by
  rcases h with h | ⟨num, r, o, hx, hw⟩
  · exact .inl h
  · refine .inr ⟨num, r, o, ?_⟩
    rw [partOfBh, cmdOwner, modQueue_cur, part_modQueue]
    exact ⟨hx, hw⟩

/-- A level at the start of a pass. -/
def passLevel (l : LevelS) (lp : SLoop) : LevelS :=
  dropHeld { l with pos := lp.start, loop := some lp } lp.start lp.stop

theorem top_passLevel {s : State} {l : LevelS} (h : topLevel (hereQ s) = some l) (lp : SLoop) :
    topLevel (hereQ (modQueue s s.cur.bh s.cur.q (fun x => modTop { x with waited := false } (fun l => passLevel l lp)))) =
      some (passLevel l lp) := by
  rw [hereQ_modQueue, modTop_of_top (x := { hereQ s with waited := false }) h]
  exact topLevel_append ..

/-- A pass starts, its index written where an address is given. -/
theorem loopPass_of_free {s : State} {lp : SLoop} (h : IndexFree s lp.addr) : ∃ v, MemAccess s v ∧
    (lp.addr = 0 → v = s) ∧ loopPass s s.cur.bh s.cur.q lp = modQueue v v.cur.bh v.cur.q
      (fun x => modTop { x with waited := false } (fun l => passLevel l lp)) := by
  by_cases ha : lp.addr = 0
  · exact ⟨s, .refl s, fun _ => rfl, if_pos ha⟩
  obtain ⟨num, r, o, hx, hw⟩ := h.resolve_left ha
  have ht := memAccess_regWrite s s.cur.bh r o (leBytes 8 lp.index) false
  rw [← length_leBytes 8 lp.index] at hx
  refine ⟨_, ht, fun h0 => absurd h0 ha, (if_neg ha).trans ?_⟩
  rw [cmdWrite_of_ok hx hw, ht.cur]
  rfl

section
variable {s : State} {l : LevelS} (h : topLevel (hereQ s) = some l)
include h

theorem exec_pktLoop_of_skipped {pr : Bool} {count span : W32} (idx : W64) (hloop : l.loop = none)
    (hspan : pr = true → l.span.isSome = true) (hlen : l.pos + 20 + 4 * span.toNat ≤ l.len)
    (hskip : count = 0 ∨ (pr = true ∧ l.span = some false)) :
    exec (.pktLoop pr count span idx) s = .next (packetOver s (5 + span.toNat) l) := by
  have hover : packetGo s (5 + span.toNat) pr .all (fun _ => packetDone s (5 + span.toNat)) =
      packetOver s (5 + span.toNat) l := by
    rw [← packetDone_eq h]
    by_cases hf : pr = true ∧ l.span = some false
    · rw [hf.1, packetGo_of_false h rfl hf.2, packetDone_eq h]
    · refine packetGo_of_runs ⟨h, rfl, fun hpr => ?_⟩ _ _
      obtain ⟨v, hv⟩ := Option.isSome_iff_exists.mp (hspan hpr)
      cases v with
      | true => exact hv
      | false => exact absurd ⟨hpr, hv⟩ hf
  have hskip' : (count = 0 || (pr && l.span = some false)) = true := by simpa using hskip
  simp only [exec, execPktLoop]
  rw [h]
  dsimp only
  rw [if_neg (by rw [hloop]; exact Bool.false_ne_true), if_neg (Nat.not_lt.mpr hlen), if_pos hskip', hover]

/-- The place of a LOOP at the head of a level, at its first pass. -/
def firstPass (l : LevelS) (count span : W32) (idx : W64) : SLoop :=
  { head := (heldWord l l.pos).getD 0, start := l.pos + 20, stop := l.pos + 20 + 4 * span.toNat
    count := count.toNat, index := 0, addr := idx.toNat, inSpan := l.span.isSome }

theorem exec_pktLoop {pr : Bool} {count span : W32} {idx : W64} (hloop : l.loop = none)
    (hlen : l.pos + 20 + 4 * span.toNat ≤ l.len) (hcount : count ≠ 0) (hspan : pr = true → l.span = some true)
    (hidx : IndexFree s idx.toNat) :
    exec (.pktLoop pr count span idx) s = .next (loopPass (modQueue s s.cur.bh s.cur.q (fun x =>
      modTop x (fun l => { dropHeld l l.pos (l.pos + 20) with scan := [] }))) s.cur.bh s.cur.q
        (firstPass l count span idx)) := by
  have hskip : ¬ (count = 0 || (pr && l.span = some false)) = true := by
    simp only [Bool.or_eq_true, decide_eq_true_eq, Bool.and_eq_true, not_or, not_and]
    exact ⟨hcount, fun hpr hf => by rw [hspan hpr] at hf; exact nomatch hf⟩
  simp only [exec, execPktLoop]
  rw [h]
  dsimp only
  rw [if_neg (by rw [hloop]; exact Bool.false_ne_true), if_neg (Nat.not_lt.mpr hlen), if_neg hskip,
    packetGo_of_runs ⟨h, rfl, hspan⟩]
  by_cases h0 : idx = 0
  · rw [if_pos h0]
    rfl
  · obtain ⟨num, r, o, hx, hw⟩ := hidx.resolve_left (fun hz => h0 (BitVec.eq_of_toNat_eq hz))
    rw [← length_leBytes 8 0] at hx
    rw [if_neg h0, cmdWrite_of_ok hx hw]
    rfl
end

/-! ## Packets passed over (R98, R101) -/

/-- Each packet with a P flag begins with the frame of its length and kind of queue. -/
theorem exec_skippable {len : BitVec 14} {data : List W32} {sem w host : Bool} {name : W16} {x y z : W64} {u v : W32}
    {rb : BitVec 24} {rows : W16} {rc : Byte} {qp : BitVec 4} {num : BitVec 14} {i : Instr × Nat × QueueKinds}
    (hi : i ∈ skippable len data sem w host name x y z u v rb rows rc qp num) (s : State) :
    ∃ go, exec i.1 s = .next (packetGo s i.2.1 true i.2.2 go) := by
  simp only [skippable, List.mem_cons, List.not_mem_nil, or_false] at hi
  rcases hi with rfl | rfl | rfl | rfl | rfl | rfl | rfl | rfl | rfl | rfl | rfl | rfl | rfl | rfl | rfl | rfl | rfl <;>
    exact ⟨_, rfl⟩

/-- Settles O38: each packet by its own lemma of this section, and the passed packets by the frame they share. -/
theorem flowPackets : Obligations.FlowPackets := by
  intro s l h b q p
  refine ⟨fun cc sg addr value mask t w hspan hcc hread hrel => exec_pktPred h sg value mask hspan hcc hread hrel,
    fun cc sg addr value mask => ⟨queueFaults_packetFault s qfSpan, queueFaults_packetFault s qfSpan, fun hspan => ?_,
      fun hspan => ?_⟩, fun v hspan => exec_pktPend h hspan,
    fun pr host addr bytes rkey hspan => ⟨exec_pktIb h host addr bytes rkey hspan, fun hlev => ?_⟩,
    fun pr count span idx hloop hspan hlen =>
      ⟨exec_pktLoop_of_skipped h idx hloop hspan hlen, fun hcount hrun hidx => ?_⟩,
    fun len data sem w host name x y z u v rb rows rc qp num i hi => ?_⟩
  · rw [exec_pktPred_of_span h cc sg addr value mask hspan]
    exact queueFaults_packetFault s qfSpan
  · rw [exec_pktPend_of_spanless h hspan]
    exact queueFaults_packetFault s qfSpan
  · rw [exec_pktIb_of_deep h host addr bytes rkey hspan hlev]
    exact queueFaults_packetFault s qfIbdepth
  · have hfree : IndexFree s idx.toNat := hidx.imp_left (fun h0 => by rw [h0]; rfl)
    obtain ⟨v, hv, hv0, hpass⟩ := loopPass_of_free (lp := firstPass l count span idx)
      (hfree.modQueue (fun x => modTop x (fun l => { dropHeld l l.pos (l.pos + 20) with scan := [] })))
    have htop : topLevel (hereQ v) = some { dropHeld l l.pos (l.pos + 20) with scan := [] } := by
      rw [hv.hereQ, modQueue_modTop h, top_replaced]
    refine ⟨_, _, (exec_pktLoop h hloop hlen hcount hrun hfree).trans (congrArg Host.Outcome.next hpass),
      fun h0 => ?_, top_passLevel htop _, rfl, rfl, rfl, rfl⟩
    rw [modQueue_slices, modQueue_mem, hv0 (by rw [h0]; rfl)]
    exact ⟨rfl, rfl⟩
  · obtain ⟨go, hgo⟩ := exec_skippable hi s
    rw [hgo]
    refine ⟨fun hk hspan => congrArg Host.Outcome.next (packetGo_of_false h hk hspan _ go), fun hk hspan => ?_,
      fun hk => ?_⟩
    · rw [packetGo_of_spanless h hk hspan]
      exact queueFaults_packetFault s qfSpan
    · rw [packetGo_of_kind h hk]
      exact queueFaults_packetFault s qfQkind

end Sys2Proof.Machine

namespace Sys2Proof.Machine
open Sys2Proof

/-! ## Launches (R106, R121 to R124, R201) -/

theorem memAccess_bcpRead (s : State) (b va n : Nat) : MemAccess s (bcpRead s b va n).1 := by
  refine foldl_induct (R := fun x y : State × Except Cause BytesVal => MemAccess x.1 y.1) (fun _ => .refl _)
    (fun h g => h.trans g) (fun x l => ?_) _ (s, .ok {})
  dsimp only
  split
  · exact .refl _
  split
  · exact .refl _
  · exact memAccess_regRead ..

theorem memAccess_readStep (s : State) (b p l va : Nat) : MemAccess s (readStep s b p l va).1 := by
  unfold readStep
  split
  · exact .refl s
  · exact memAccess_regRead ..

theorem memAccess_readSteps (s : State) (b p image desc : Nat) (ls : List Nat) :
    MemAccess s (readSteps s b p image desc ls).1 := by
  refine foldl_induct (R := fun x y : State × Option (Tab (BitVec 1024)) => MemAccess x.1 y.1) (fun _ => .refl _)
    (fun h g => h.trans g) (fun x l => ?_) _ (s, some [])
  have hr := memAccess_readStep x.1 b p l.1 (desc + 128 * l.2)
  dsimp only
  split
  · exact .refl _
  split
  · exact hr
  split
  · exact hr
  · exact hr

/-- The block of a chain that is read next: a copy already held, or the bytes of memory. -/
def readBlock (s : State) (b va : Nat) : State × Except Nat (BitVec 1024) :=
  match tabFind (bhOf s b).wcbs va with
  | some c => (s, .ok c.raw)
  | none => ((bcpRead s b va 128).1, match needBytes (bcpRead s b va 128).2 with
    | .error c => .error (readFault c)
    | .ok bs => .ok (BitVec.ofNat 1024 (leNat bs)))

theorem memAccess_readBlock (s : State) (b va : Nat) : MemAccess s (readBlock s b va).1 := by
  unfold readBlock
  split
  · exact .refl s
  · exact memAccess_bcpRead ..

theorem readChain_succ (s : State) (b fuel va : Nat) : readChain s b (fuel + 1) va =
    match (readBlock s b va).2 with
    | .error c => ((readBlock s b va).1, .error c)
    | .ok w =>
      if !wcbOk w then ((readBlock s b va).1, .error qfDesc)
      else if wParent w = 0 then ((readBlock s b va).1, .ok [(va, w)])
      else
        match readChain (readBlock s b va).1 b fuel (wParent w) with
        | (s, .error c) => (s, .error c)
        | (s, .ok l) => (s, .ok ((va, w) :: l)) := by
  rw [readChain, readBlock] <;> cases tabFind (bhOf s b).wcbs va <;> rfl

theorem memAccess_readChain (b fuel : Nat) (s : State) (va : Nat) : MemAccess s (readChain s b fuel va).1 := by
  induction fuel generalizing s va with
  | zero => exact .refl s
  | succ fuel ih =>
    rw [readChain_succ]
    have hb := memAccess_readBlock s b va
    split
    · exact hb
    next w _ =>
      split
      · exact hb
      split
      · exact hb
      · have hr := hb.trans (ih (readBlock s b va).1 (wParent w))
        split <;> next e => rw [e] at hr; exact hr

/-- The chain of a block begins with it. -/
theorem head_readChain {s : State} {b fuel va : Nat} {ch : List (Nat × BitVec 1024)}
    (h : (readChain s b fuel va).2 = .ok ch) : (ch.headD (0, 0)).1 = va := by
  cases fuel with
  | zero => exact nomatch h
  | succ fuel =>
    rw [readChain_succ] at h
    split at h
    · exact nomatch h
    split at h
    · exact nomatch h
    split at h
    · cases h; rfl
    split at h
    · exact nomatch h
    · cases h; rfl

/-- What a launch leaves: a node of a checked chain in the slot that it answers, the rest of the command interface as it
was. -/
structure LaunchedAs (s t : State) (b : Nat) (q : Option Nat) (wcb : Nat) (sem : Option (W16 × W64))
    (tick desc : Option Nat) (slot : Nat) : Prop where
  cur : t.cur = s.cur
  queues : ∀ c r, queueOf t c r = queueOf s c r
  node : ∃ nd, nodeOf t (b, slot) = some nd ∧ nd.st = (if tick.isSome then .waiting else .ready) ∧ nd.wcb = wcb ∧
    nd.q = q ∧ nd.sem = sem ∧ nd.tick = tick ∧ (desc.isSome = true → nd.steps.isSome = true)

theorem launchedAs_modBh {s u : State} (hu : MemAccess s u) {b : Nat} {q : Option Nat} {ch : List (Nat × BitVec 1024)}
    {wcb : Nat} (hch : (ch.headD (0, 0)).1 = wcb) (fps : List (Nat × Nat × Nat)) (sem : Option (W16 × W64))
    (tick : Option Nat) {desc : Option Nat} {steps : Option (Tab (BitVec 1024))}
    (hsteps : desc.isSome = true → steps.isSome = true) (wcbs : Tab WcbS) (dem : Bool) (slot : Nat) :
    LaunchedAs s (modBh u b (fun x => { x with
      wcbs := wcbs
      nodes := tabSet x.nodes slot { newNode u b q ch fps sem tick steps none 0 with demoted := dem } }))
      b q wcb sem tick desc slot := by
  refine ⟨hu.cur, fun c r => (queueOf_modBh_of_queues _ _ _ ?_ _ _).trans (hu.queueOf c r),
    { newNode u b q ch fps sem tick steps none 0 with demoted := dem }, ?_, rfl, hch, rfl, rfl, rfl, hsteps⟩
  · exact fun _ => rfl
  · rw [nodeOf, bhOf_modBh_same]
    exact tabFind_tabSet_same ..

/-- The footprint list that a launch reads, where its block names one. -/
def readFoot (s : State) (b : Nat) (w : BitVec 1024) : State × Except Cause BytesVal :=
  if wF w 0x60 8 = 0 then (s, .ok {}) else bcpRead s b (wF w 0x60 8) (16 * wF w 0x68 4)

theorem memAccess_readFoot (s : State) (b : Nat) (w : BitVec 1024) : MemAccess s (readFoot s b w).1 := by
  unfold readFoot
  split
  · exact .refl s
  · exact memAccess_bcpRead ..

/-- The descriptors that a launch reads, where its packet names them. -/
def stepsFor (s : State) (b p : Nat) (w : BitVec 1024) (desc : Option Nat) :
    State × Option (Option (Tab (BitVec 1024))) :=
  match desc with
  | none => (s, some none)
  | some d => ((readSteps s b p (wF w 0x28 8) d (gangLogicals (wGangs w))).1,
      (readSteps s b p (wF w 0x28 8) d (gangLogicals (wGangs w))).2.map some)

theorem memAccess_stepsFor (s : State) (b p : Nat) (w : BitVec 1024) (desc : Option Nat) :
    MemAccess s (stepsFor s b p w desc).1 := by
  cases desc with
  | none => exact .refl s
  | some d => exact memAccess_readSteps ..

theorem isSome_of_stepsFor {s : State} {b p : Nat} {w : BitVec 1024} {desc : Option Nat}
    {steps : Option (Tab (BitVec 1024))} (h : (stepsFor s b p w desc).2 = some steps) (hd : desc.isSome = true) :
    steps.isSome = true := by
  obtain ⟨d, rfl⟩ := Option.isSome_iff_exists.mp hd
  obtain ⟨x, -, rfl⟩ := Option.map_eq_some_iff.mp h
  rfl

/-- The last part of a launch: the node of a checked chain goes into the lowest free slot, where there is room. -/
def launchPlace (s : State) (b : Nat) (q : Option Nat) (ch : List (Nat × BitVec 1024)) (fps : List (Nat × Nat × Nat))
    (sem : Option (W16 × W64)) (tick : Option Nat) (steps : Option (Tab (BitVec 1024))) : State × Launched :=
  let fresh := ch.filter (fun x => (tabFind (bhOf s b).wcbs x.1).isNone)
  if 256 ≤ liveNodes s b || 512 < (bhOf s b).wcbs.length + fresh.length ||
      (s.hub.ckBusy && bitB s.hub.ckRun.mask b) then (s, .wait (ch.map (fun x => x.1)))
  else
    match (List.range 256).find? (fun i => (tabFind (bhOf s b).nodes i).isNone) with
    | none => (s, .wait (ch.map (fun x => x.1)))
    | some slot =>
      (modBh s b (fun x => { x with
        wcbs := fresh.foldl (fun t y => tabSet t y.1 { raw := y.2, left := wF y.2 0x10 8 }) x.wcbs
        nodes := tabSet x.nodes slot { newNode s b q ch fps sem tick steps none 0 with
          demoted := budgetOut (bhOf s b) (newNode s b q ch fps sem tick steps none 0) } }), .ok slot)

/-- A launch once its footprint is known. -/
def launchSteps (s : State) (b p : Nat) (q : Option Nat) (ch : List (Nat × BitVec 1024)) (fps : List (Nat × Nat × Nat))
    (sem : Option (W16 × W64)) (tick desc : Option Nat) : State × Launched :=
  match (stepsFor s b p (ch.headD (0, 0)).2 desc).2 with
  | none => ((stepsFor s b p (ch.headD (0, 0)).2 desc).1, .fault qfDesc)
  | some steps => launchPlace (stepsFor s b p (ch.headD (0, 0)).2 desc).1 b q ch fps sem tick steps

/-- A launch once its chain has been read. -/
def launchChain (s : State) (b p : Nat) (q : Option Nat) (ch : List (Nat × BitVec 1024)) (sem : Option (W16 × W64))
    (tick desc : Option Nat) : State × Launched :=
  let w := (ch.headD (0, 0)).2
  if !chainOk ch || !gangsOk s p ch || !placesOk s p w ||
      (bitB (definer ch 2).2 17 && !semNameOk s p (BitVec.ofNat 16 (wF w 0x3C 2))) then (s, .fault qfDesc)
  else if launchHeld s b ch desc then (s, .hold)
  else
    match needBytes (readFoot s b w).2 with
    | .error c => ((readFoot s b w).1, .fault (readFault c))
    | .ok fb =>
      match footEntries fb (fb.length / 16) with
      | none => ((readFoot s b w).1, .fault qfDesc)
      | some fps => launchSteps (readFoot s b w).1 b p q ch fps sem tick desc

theorem launch_eq (s : State) (b : Nat) (q : Option Nat) (wcb : Nat) (sem : Option (W16 × W64))
    (tick desc : Option Nat) : launch s b q wcb sem tick desc none 0 =
    match (readChain s b 8 wcb).2 with
    | .error c => ((readChain s b 8 wcb).1, .fault c)
    | .ok ch => launchChain (readChain s b 8 wcb).1 b (partOfBh s b) q ch sem tick desc := by
  cases desc <;> rfl

section
variable {s t u : State} {b p : Nat} {q : Option Nat} {wcb : Nat} {ch : List (Nat × BitVec 1024)}
  {fps : List (Nat × Nat × Nat)} {sem : Option (W16 × W64)} {tick desc : Option Nat} {slot : Nat}

theorem launchedAs_of_launchPlace (hu : MemAccess s u) (hch : (ch.headD (0, 0)).1 = wcb)
    {steps : Option (Tab (BitVec 1024))} (hsteps : desc.isSome = true → steps.isSome = true)
    (h : launchPlace u b q ch fps sem tick steps = (t, .ok slot)) : LaunchedAs s t b q wcb sem tick desc slot := by
  unfold launchPlace at h
  dsimp only at h
  split at h
  · cases congrArg Prod.snd h
  split at h
  · cases congrArg Prod.snd h
  · obtain ⟨rfl, hslot⟩ := Prod.mk.inj h
    cases Launched.ok.inj hslot
    exact launchedAs_modBh hu hch fps sem tick hsteps _ _ _

theorem launchedAs_of_launchSteps (hu : MemAccess s u) (hch : (ch.headD (0, 0)).1 = wcb)
    (h : launchSteps u b p q ch fps sem tick desc = (t, .ok slot)) : LaunchedAs s t b q wcb sem tick desc slot := by
  unfold launchSteps at h
  split at h
  · cases congrArg Prod.snd h
  next steps hst =>
    exact launchedAs_of_launchPlace (hu.trans (memAccess_stepsFor ..)) hch (isSome_of_stepsFor hst) h

theorem launchedAs_of_launchChain (hu : MemAccess s u) (hch : (ch.headD (0, 0)).1 = wcb)
    (h : launchChain u b p q ch sem tick desc = (t, .ok slot)) : LaunchedAs s t b q wcb sem tick desc slot := by
  unfold launchChain at h
  dsimp only at h
  split at h
  · cases congrArg Prod.snd h
  split at h
  · cases congrArg Prod.snd h
  split at h
  · cases congrArg Prod.snd h
  split at h
  · cases congrArg Prod.snd h
  · exact launchedAs_of_launchSteps (hu.trans (memAccess_readFoot ..)) hch h

theorem launchedAs_of_launch (h : launch s b q wcb sem tick desc none 0 = (t, .ok slot)) :
    LaunchedAs s t b q wcb sem tick desc slot := by
  rw [launch_eq] at h
  split at h
  · cases congrArg Prod.snd h
  next ch hch => exact launchedAs_of_launchChain (memAccess_readChain ..) (head_readChain hch) h
end

/-- The name of a completion semaphore is in order, where a packet has one. -/
theorem withSem_of_ok {s : State} {sem : Bool} {name : W16}
    (h : sem = true → (name.extractLsb' 12 4).toNat < partSize s (partOfBh s s.cur.bh)) (go : State) :
    withSem s sem name go = go := by
  cases sem with
  | false => rfl
  | true => exact withName_of_ok (h rfl) go

section
variable {s t : State} {sem : Bool} {name : W16} {add : W64} {l : LevelS} {wcb slot : Nat} {tick desc : Option Nat}
  (hl : topLevel (hereQ s) = some l)
  (hsem : sem = true → (name.extractLsb' 12 4).toNat < partSize s (partOfBh s s.cur.bh))
  (h : launch s s.cur.bh (some s.cur.q) wcb (semOpt sem name add) tick desc none 0 = (t, .ok slot))
include hl hsem h

theorem launchPacket_of_launched (len : Nat) : launchPacket s len sem name add wcb tick desc = packetOver t len l := by
  have ha := launchedAs_of_launch h
  have htop : topLevel (hereQ t) = some l := by rw [hereQ, ha.cur, ha.queues]; exact hl
  rw [launchPacket, withSem_of_ok hsem, h]
  exact packetDone_eq htop len
end

/-- Settles O39: the three packets are one launch with different operands. -/
theorem launchPackets : Obligations.LaunchPackets := by
  intro s pr sem name add l b q add' hruns hsem wcb tick desc t slot
  refine ⟨fun h => ⟨congrArg Host.Outcome.next ((packetGo_of_runs hruns _ _).trans
      (launchPacket_of_launched hruns.1 hsem h 6)), ?_⟩,
    fun h => ⟨congrArg Host.Outcome.next ((packetGo_of_runs hruns _ _).trans
      (launchPacket_of_launched hruns.1 hsem h 8)), ?_⟩,
    fun h => ⟨congrArg Host.Outcome.next ((packetGo_of_runs hruns _ _).trans
      (launchPacket_of_launched hruns.1 hsem h 8)), ?_⟩⟩
  · obtain ⟨nd, hnd, hst, hwcb, hq, hadd, -, -⟩ := (launchedAs_of_launch h).node
    exact ⟨nd, hnd, hst, hwcb, hq, hadd⟩
  · obtain ⟨nd, hnd, hst, -, -, hadd, htick, -⟩ := (launchedAs_of_launch h).node
    exact ⟨nd, hnd, hst, htick, hadd⟩
  · obtain ⟨nd, hnd, hst, -, -, -, -, hsteps⟩ := (launchedAs_of_launch h).node
    exact ⟨nd, hnd, hst, hsteps rfl⟩

end Sys2Proof.Machine

namespace Sys2Proof.Machine
open Sys2Proof

/-! ## Free places of a table -/

theorem mem_of_tabFind {α : Type} {t : Tab α} {k : Nat} {v : α} (h : tabFind t k = some v) : (k, v) ∈ t := by
  induction t with
  | nil => exact nomatch h
  | cons x r ih =>
    obtain ⟨j, w⟩ := x
    rw [tabFind] at h
    split at h
    next hj => cases h; rw [hj]; exact List.mem_cons_self
    · exact List.mem_cons_of_mem _ (ih h)

/-- A table of fewer than `n` entries leaves one of the first `n` places free. -/
theorem exists_free {α : Type} {t : Tab α} {n : Nat} (h : t.length < n) :
    ∃ i, (List.range n).find? (fun i => (tabFind t i).isNone) = some i ∧ i < n ∧ tabFind t i = none := by
  have hex : ∃ i ∈ List.range n, (tabFind t i).isNone = true := by
    by_contra hall
    have hsub : List.range n ⊆ t.map (fun x => x.1) := fun i hi => by
      obtain ⟨v, hv⟩ := Option.ne_none_iff_exists'.mp fun hn => hall ⟨i, hi, Option.isNone_iff_eq_none.mpr hn⟩
      exact List.mem_map.mpr ⟨(i, v), mem_of_tabFind hv, rfl⟩
    have hle := (List.nodup_range.subperm hsub).length_le
    rw [List.length_range, List.length_map] at hle
    omega
  obtain ⟨i, hi⟩ := Option.isSome_iff_exists.mp (List.find?_isSome.mpr hex)
  exact ⟨i, hi, List.mem_range.mp (List.mem_of_find?_eq_some hi),
    Option.isNone_iff_eq_none.mp (List.find?_some (p := fun i => (tabFind t i).isNone) hi)⟩

/-! ## COPY (R106, R107) -/

/-- The address of row `i` of a COPY. -/
abbrev copyRow (base : W64) (pitch : W32) (i : Nat) : Int := (base.toNat : Int) + (i : Int) * pitch.toInt

theorem copyRows_of_fits {s : State} {b row n : Nat} {base : W64} {pitch : W32} {k : AccK}
    (h : ∀ i < n, 0 ≤ copyRow base pitch i ∧
      ∃ num r o, xlatePart s (partOfBh s b) (copyRow base pitch i).toNat row (cmdOwner s b) k = .ok num r o) :
    copyRows s b base.toNat row n pitch.toInt k = none := by
  refine List.findSome?_eq_none_iff.mpr fun i hi => ?_
  obtain ⟨hpos, num, r, o, hx⟩ := h i (List.mem_range.mp hi)
  dsimp only
  rw [if_neg (not_lt.mpr hpos), hx]

/-- The ends of a footprint of rows are ends of rows. -/
theorem footprint_rows (base : W64) (pitch : W32) (rows rb : Nat) :
    (∃ i < rows + 1, (footprint base [(rows + 1, pitch.toInt)] rb).1 = copyRow base pitch i) ∧
      ∃ i < rows + 1, (footprint base [(rows + 1, pitch.toInt)] rb).2 = copyRow base pitch i + rb := by
  simp only [footprint, List.foldl_cons, List.foldl_nil, copyRow]
  generalize pitch.toInt = z
  rcases le_total 0 z with hz | hz
  · have hp : 0 ≤ (rows : Int) * z := by positivity
    refine ⟨⟨0, by omega, ?_⟩, rows, by omega, ?_⟩
    · simp [hp]
    · simp [hp]
  · have hp : (rows : Int) * z ≤ 0 := mul_nonpos_of_nonneg_of_nonpos (by positivity) hz
    refine ⟨⟨rows, by omega, ?_⟩, 0, by omega, ?_⟩
    · simp [hp]
    · simp [hp]

theorem footprints_apart {src dst : W64} {sp dp : W32} {rows rb : Nat}
    (h : (∀ i < rows + 1, ∀ j < rows + 1, copyRow src sp i + rb ≤ copyRow dst dp j) ∨
      ∀ i < rows + 1, ∀ j < rows + 1, copyRow dst dp j + rb ≤ copyRow src sp i) :
    ¬ (decide ((footprint src [(rows + 1, sp.toInt)] rb).1 < (footprint dst [(rows + 1, dp.toInt)] rb).2) &&
      decide ((footprint dst [(rows + 1, dp.toInt)] rb).1 < (footprint src [(rows + 1, sp.toInt)] rb).2)) = true := by
  obtain ⟨⟨i, hi, hslo⟩, i', hi', hshi⟩ := footprint_rows src sp rows rb
  obtain ⟨⟨j, hj, hdlo⟩, j', hj', hdhi⟩ := footprint_rows dst dp rows rb
  rw [Bool.and_eq_true, decide_eq_true_eq, decide_eq_true_eq, hslo, hshi, hdlo, hdhi]
  rcases h with h | h
  · have := h i' hi' j hj
    omega
  · have := h i hi j' hj'
    omega

/-- The copy that a COPY starts. -/
def startedCopy (s : State) (l : LevelS) (src dst : W64) (rowBytes : BitVec 24) (rows : W16) (rc : Byte) (sp dp : W32)
    (sem : Option (W16 × W64)) : QCopy :=
  { src := src.toNat, dst := dst.toNat, row := rowBytes.toNat, rows := rows.toNat + 1, rc := rc.toNat, sp := sp.toInt
    dp := dp.toInt, pos := 0, sem := sem, stop := none, level := (hereQ s).levels.length - 1, at_ := l.pos
    head := (heldWord l l.pos).getD 0 }

theorem exec_pktCopy {s : State} {pr sem : Bool} {name : W16} {add : W64} {l : LevelS} {src dst : W64}
    {rowBytes : BitVec 24} {rows : W16} {rc : Byte} {sp dp : W32} (hruns : PacketRuns s pr .y l)
    (hsem : sem = true → (name.extractLsb' 12 4).toNat < partSize s (partOfBh s s.cur.bh))
    (hsrc : copyRows s s.cur.bh src.toNat rowBytes.toNat (rows.toNat + 1) sp.toInt .rd = none)
    (hdst : copyRows s s.cur.bh dst.toNat rowBytes.toNat (rows.toNat + 1) dp.toInt .wr = none)
    (hapart : (∀ i < rows.toNat + 1, ∀ j < rows.toNat + 1, copyRow src sp i + rowBytes.toNat ≤ copyRow dst dp j) ∨
      ∀ i < rows.toNat + 1, ∀ j < rows.toNat + 1, copyRow dst dp j + rowBytes.toNat ≤ copyRow src sp i)
    (hroom : (hereQ s).copies.length < 8) :
    ∃ i < 8, tabFind (hereQ s).copies i = none ∧
      exec (.pktCopy pr sem src dst rowBytes rows rc sp dp name add) s = .next (packetOver
        (modQueue s s.cur.bh s.cur.q (fun x =>
          { x with
            copies := tabSet x.copies i (startedCopy s l src dst rowBytes rows rc sp dp (semOpt sem name add)) })) 12 l) := by
  obtain ⟨i, hfind, hlt, hfree⟩ := exists_free hroom
  refine ⟨i, hlt, hfree, congrArg Host.Outcome.next ((packetGo_of_runs hruns _ _).trans ?_)⟩
  dsimp only
  rw [withSem_of_ok hsem, hsrc, hdst]
  dsimp only
  rw [if_neg (footprints_apart hapart), if_neg (Nat.not_le.mpr hroom), hfind]
  exact packetDone_eq ((congrArg topLevel (hereQ_modQueue ..)).trans hruns.1) 12

/-! ## Packets that are over -/

theorem top_packetOver (s : State) (len : Nat) (l : LevelS) :
    topLevel (hereQ (packetOver s len l)) = some (passed l len) :=
  (congrArg topLevel (hereQ_modQueue ..)).trans (topLevel_append { hereQ s with waited := false } _ _)

/-! ## COLL (R106, R108) -/

theorem collOf_modQueue (s : State) (b q : Nat) (f : QueueS → QueueS) (c i : Nat) :
    collOf (modQueue s b q f) c i = collOf s c i := by
  by_cases hc : c = b
  · rw [hc, collOf, modQueue, bhOf_modBh_same, collOf]
  · rw [collOf, modQueue, bhOf_modBh_ne _ _ hc, collOf]

theorem queueOf_setColl (s : State) (b i : Nat) (x : CollS) (c q : Nat) :
    queueOf (setColl s b i x) c q = queueOf s c q :=
  queueOf_modBh_of_queues s b (fun y => { y with colls := tabSet y.colls i x }) (fun _ => rfl) c q

theorem hereQ_setColl (s : State) (b i : Nat) (x : CollS) : hereQ (setColl s b i x) = hereQ s := queueOf_setColl ..

/-- A link that the ring of a descriptor needs is not UP. -/
def ringBroken (s : State) (b : Nat) (d : BitVec 512) : Bool :=
  decide (1 < cdC d) && !((linkOf s (9 * b + cdNext d)).st == .up && (linkOf s (9 * b + cdPrev d)).st == .up)

theorem ringBroken_iff (s : State) (b : Nat) (d : BitVec 512) : ringBroken s b d = true ↔ 1 < cdC d ∧
    ((linkOf s (9 * b + cdNext d)).st ≠ .up ∨ (linkOf s (9 * b + cdPrev d)).st ≠ .up) := by
  simp [ringBroken, ← not_and_or]

/-- A collective joins the engine in a free place. -/
theorem collStart_eq (s : State) (b : Nat) (c : CollS) : ∃ i, collOf s b i = none ∧ collStart s b c =
    setColl s b i { c with down := ringBroken s b c.desc, code := if ringBroken s b c.desc then 1 else 0 } := by
  obtain ⟨i, hfind, -, hnone⟩ := exists_free (t := (bhOf s b).colls) (Nat.lt_succ_self _)
  refine ⟨i, hnone, ?_⟩
  rw [collStart]
  simp only [collOf, hfind]
  rfl

/-- The collective that a COLL starts. -/
def startedColl (s : State) (l : LevelS) (desc : W64) (d : BitVec 512) (sem : Option (W16 × W64)) : CollS :=
  let x := hereQ s
  { desc := d, va := desc.toNat, sem := sem, q := some s.cur.q, arr := none, seq := (x.cur.map (fun r => r.seq)).getD 0
    cookie := (x.cur.map (fun r => r.cookie)).getD 0, level := queueLevel x, offset := l.pos
    head := (heldWord l l.pos).getD 0 }

theorem exec_pktColl {s : State} {pr sem : Bool} {name : W16} {add : W64} {l : LevelS} {desc : W64} {num : Nat}
    {r : Region} {o : Nat} (hruns : PacketRuns s pr .l l)
    (hsem : sem = true → (name.extractLsb' 12 4).toNat < partSize s (partOfBh s s.cur.bh))
    (hrel : releaseWait s (partOfBh s s.cur.bh) (collOwner s s.cur.bh) none desc.toNat = false)
    (hx : xlatePart s (partOfBh s s.cur.bh) desc.toNat 64 (collOwner s s.cur.bh) .rd = .ok num r o)
    (hbad : (regRead s s.cur.bh r o 64 none 0).2.bad = false) (hrev : (regRead s s.cur.bh r o 64 none 0).2.rev = false)
    (hok : cdOk (BitVec.ofNat 512 (leNat (regRead s s.cur.bh r o 64 none 0).2.bytes)) = true) :
    exec (.pktColl pr sem desc name add) s = .next (packetDone (collStart (regRead s s.cur.bh r o 64 none 0).1 s.cur.bh
      (startedColl s l desc (BitVec.ofNat 512 (leNat (regRead s s.cur.bh r o 64 none 0).2.bytes))
        (semOpt sem name add))) 6) := by
  refine congrArg Host.Outcome.next ((packetGo_of_runs hruns _ _).trans ?_)
  dsimp only
  rw [withSem_of_ok hsem, hx]
  dsimp only
  rw [if_neg (by rw [hrel]; exact Bool.false_ne_true)]
  have hread := memAccess_regRead s s.cur.bh r o 64 none 0
  generalize regRead s s.cur.bh r o 64 none 0 = rv at hbad hrev hok hread ⊢
  obtain ⟨t, v⟩ := rv
  dsimp only at hbad hrev hok hread ⊢
  rw [if_neg (by rw [hrev]; exact Bool.false_ne_true), if_neg (by rw [hbad]; exact Bool.false_ne_true),
    if_neg (by rw [hok]; exact Bool.false_ne_true), hread.queueOf]
  rfl

/-! ## XFER (R105, R215) -/

/-- Only the arrays change. -/
def OnlyArrs (s t : State) : Prop := t = { s with arrs := t.arrs }

theorem onlyArrs_markAll (s : State) (p : Nat) : OnlyArrs s (markAll s p).1 :=
  foldl_induct (R := fun x y : State × Tab Nat => OnlyArrs x.1 y.1) (fun _ => rfl)
    (fun h g => g.trans (by rw [h])) (fun x q => (rfl : OnlyArrs x.1 (markOne x q).1)) (partArrs s p) (s, [])

theorem onlyArrs_postInval (s : State) (p num : Nat) : OnlyArrs s (postInval s p num) :=
  foldl_induct (R := OnlyArrs) (fun _ => rfl) (fun h g => g.trans (by rw [h])) (fun t q => by
    split
    · rfl
    · rfl) _ s

theorem tabFind_markEach {l : List Nat} (hl : l.Nodup) (x : State × Tab Nat) (a : Nat) :
    tabFind (l.foldl markOne x).2 a =
      if a ∈ l then some (((arrOf x.1 a).markNext + 1) % 2 ^ 24) else tabFind x.2 a := by
  induction l generalizing x with
  | nil => rfl
  | cons q l ih =>
    obtain ⟨hq, hl⟩ := List.nodup_cons.1 hl
    rw [List.foldl_cons, ih hl, markOne]
    obtain rfl | hne := eq_or_ne a q
    · rw [if_neg hq, if_pos List.mem_cons_self]
      exact tabFind_tabSet_same ..
    · rw [arrOf_setArr_ne _ _ hne, tabFind_tabSet_ne _ _ hne]
      exact if_congr ⟨.tail _, fun h => (List.mem_cons.1 h).resolve_left hne⟩ rfl rfl

theorem tabFind_markAll {s : State} {p a : Nat} (ha : a ∈ partArrs s p) :
    tabFind (markAll s p).2 a = some (((arrOf s a).markNext + 1) % 2 ^ 24) := by
  rw [markAll_eq, tabFind_markEach (nodup_partArrs s p), if_pos ha]

/-- The state behind the markers of an XFER packet of bulkhead `b`: the region has its new owner, the region caches are
told, and the queue waits. -/
def xferMarked (s : State) (p num : Nat) (r : Region) : State :=
  modQueue (modPart (postInval (regionPut (markAll s p).1 p num r) p num) p (fun x =>
    { x with xfers := x.xfers ++ [(num, (markAll s p).2)] })) s.cur.bh s.cur.q (fun x =>
      { x with st := .waiting, wait := some (.xfer num), marks := (markAll s p).2 })

theorem exec_pktXfer {s : State} {pr w : Bool} {num : BitVec 14} {owner : Byte} {r : Region} {l : LevelS}
    (hruns : PacketRuns s pr .cy l) (hq : QuietFor s w)
    (hr : tabFind (partOf s (partOfBh s s.cur.bh)).regions num.toNat = some r) (hk : r.kind = 1)
    (hown : ownerOk s (partOfBh s s.cur.bh) owner.toNat = true) :
    exec (.pktXfer pr w num owner) s = .next (xferMarked s (partOfBh s s.cur.bh) num.toNat
      { r with owner := owner.toNat, rpend := true, markV := false }) := by
  refine congrArg Host.Outcome.next ((packetGo_of_runs hruns _ _).trans ?_)
  dsimp only
  rw [hr]
  dsimp only
  rw [if_neg (not_not.mpr hk), hown]
  exact waitQuiet_of_quiet hq _

section
variable (s : State) (p num : Nat) (r : Region)

theorem onlyArrs_regionPut : ∃ arrs, postInval (regionPut (markAll s p).1 p num r) p num =
    { regionPut s p num r with arrs := arrs } := by
  have hput : regionPut (markAll s p).1 p num r = { regionPut s p num r with arrs := (markAll s p).1.arrs } := by
    rw [onlyArrs_markAll s p]
    rfl
  rw [hput]
  exact ⟨_, onlyArrs_postInval ..⟩

theorem xferMarked_mem : (xferMarked s p num r).mem = s.mem := by
  obtain ⟨arrs, h⟩ := onlyArrs_regionPut s p num r
  rw [xferMarked, h]
  rfl

theorem hereQ_xferMarked : hereQ (xferMarked s p num r) =
    { hereQ s with st := .waiting, wait := some (.xfer num), marks := (markAll s p).2 } := by
  obtain ⟨arrs, h⟩ := onlyArrs_regionPut s p num r
  rw [xferMarked, h]
  exact hereQ_modQueue (modPart { regionPut s p num r with arrs := arrs } p _) _

theorem partOf_xferMarked : partOf (xferMarked s p num r) p =
    { partOf s p with
      regions := tabSet (partOf s p).regions num r
      xfers := (partOf s p).xfers ++ [(num, (markAll s p).2)] } := by
  obtain ⟨arrs, h⟩ := onlyArrs_regionPut s p num r
  rw [xferMarked, h, partOf, modQueue_parts, ← partOf, partOf_modPart_same]
  rw [show partOf { regionPut s p num r with arrs := arrs } p = partOf (regionPut s p num r) p from rfl,
    partOf_regionPut]

theorem fifo_xferMarked {a : Nat} (ha : a ∈ partArrs s p) : (arrOf (xferMarked s p num r) a).fifo =
    (arrOf s a).fifo ++ [.marker (((arrOf s a).markNext + 1) % 2 ^ 24)] := by
  rw [xferMarked, arrOf, modQueue_arrs, ← arrOf, arrOf_modPart, fifo_postInval, regionPut, arrOf_modPart,
    fifo_markAll ha]
end

/-! ## The end of an XFER packet (R105) -/

/-- Every marker of a transfer has left its FIFO. -/
abbrev MarksGone (s : State) (ms : Tab Nat) : Prop := ∀ m ∈ ms, FifoE.marker m.2 ∉ (arrOf s m.1).fifo

theorem marksPassed_iff (s : State) (ms : Tab Nat) : marksPassed s ms = true ↔ MarksGone s ms := by
  simp [marksPassed, markerPassed, MarksGone]

theorem tabFind_mapKey {α : Type} (t : Tab α) (g : Nat → α → α) (k : Nat) :
    tabFind (t.map (fun x => (x.1, g x.1 x.2))) k = (tabFind t k).map (g k) := by
  induction t with
  | nil => rfl
  | cons x t ih =>
    obtain ⟨j, v⟩ := x
    rw [List.map_cons, tabFind, tabFind]
    split
    next h => rw [h]; rfl
    · exact ih

theorem xferSettle_cur (s : State) (p : Nat) : (xferSettle s p).cur = s.cur := by
  rw [xferSettle]; split <;> rfl

theorem xferSettle_bhs (s : State) (p : Nat) : (xferSettle s p).bhs = s.bhs := by
  rw [xferSettle]; split <;> rfl

theorem hereQ_xferSettle (s : State) (p : Nat) : hereQ (xferSettle s p) = hereQ s := by
  rw [hereQ, queueOf, bhOf, xferSettle_bhs, xferSettle_cur, hereQ, queueOf, bhOf]

/-- A descriptor as the end of the transfers `left` out leaves it. -/
def settledRegion (left : List (Nat × Tab Nat)) (num : Nat) (r : Region) : Region :=
  if r.rpend && !r.markV && !left.any (fun y => y.1 == num) then { r with rpend := false } else r

theorem settledRegion_of_over {left : List (Nat × Tab Nat)} {num : Nat} {r : Region} (hm : r.markV = false)
    (h : left.any (fun y => y.1 == num) = false) : settledRegion left num r = { r with rpend := false } := by
  unfold settledRegion
  split
  · rfl
  next hc =>
    have hr : r.rpend = false := by simpa [hm, h] using hc
    cases r
    cases hr
    rfl

/-- A region whose transfers are all over is released. -/
theorem regions_xferSettle {s : State} {p num : Nat} {r : Region} {ms : Tab Nat}
    (hr : tabFind (partOf s p).regions num = some r) (hm : r.markV = false) (hin : (num, ms) ∈ (partOf s p).xfers)
    (hgone : MarksGone s ms) (hall : ∀ x ∈ (partOf s p).xfers, x.1 = num → MarksGone s x.2) :
    tabFind (partOf (xferSettle s p) p).regions num = some { r with rpend := false } := by
  have hany : (partOf s p).xfers.any (fun x => x.2.all (fun m => markerPassed (arrOf s m.1) m.2)) = true :=
    List.any_eq_true.mpr ⟨_, hin, (marksPassed_iff ..).mpr hgone⟩
  have hleft : ((partOf s p).xfers.filter (fun y => !marksPassed s y.2)).any (fun y => y.1 == num) = false := by
    refine List.any_eq_false.mpr fun y hy => ?_
    obtain ⟨hy, hopen⟩ := List.mem_filter.mp hy
    intro hnum
    rw [(marksPassed_iff ..).mpr (hall y hy (beq_iff_eq.mp hnum))] at hopen
    exact Bool.noConfusion hopen
  have hx : xferSettle s p = setPart s p { partOf s p with
      xfers := (partOf s p).xfers.filter (fun y => !marksPassed s y.2)
      regions := (partOf s p).regions.map (fun x =>
        (x.1, settledRegion ((partOf s p).xfers.filter (fun y => !marksPassed s y.2)) x.1 x.2)) } := by
    refine (if_neg (by rw [hany]; exact Bool.false_ne_true)).trans ?_
    refine congrArg (fun rs => setPart s p { partOf s p with
      xfers := (partOf s p).xfers.filter (fun y => !marksPassed s y.2), regions := rs })
        (List.map_congr_left fun x _ => ?_)
    exact (apply_ite (fun y => (x.1, y)) _ _ _).symm
  rw [hx, partOf_setPart_same, tabFind_mapKey, hr, Option.map_some, settledRegion_of_over hm hleft]

theorem exec_xferPacketComplete {s : State} {num : Nat} (hw : (hereQ s).wait = some (.xfer num)) (hgone : MarksGone s (hereQ s).marks) :
    exec .xferPacketComplete s = .next (packetDone (modQueue (xferSettle s (partOfBh s s.cur.bh)) s.cur.bh s.cur.q
      (fun x => { x with st := .running, wait := none, marks := [] })) 2) := by
  refine congrArg Host.Outcome.next ?_
  dsimp only
  rw [hw]
  dsimp only
  rw [if_pos ((marksPassed_iff ..).mpr hgone)]

/-- Settles O40: each packet by its own lemma of this section. -/
theorem transferPackets : Obligations.TransferPackets := by
  intro s pr sem name add l b q p semOk add'
  refine ⟨?_, ?_, fun w num owner r hruns hq hr hk hown => ?_, ?_⟩
  · intro hruns hsem src dst rowBytes rows rc sp dp n row fits apart hsrc hdst hapart hroom c
    exact exec_pktCopy hruns hsem (copyRows_of_fits hsrc) (copyRows_of_fits hdst) hapart hroom
  · intro hruns hsem desc num r o hrel hx v d hbad hrev hok
    have hread := memAccess_regRead s b r o 64 none 0
    obtain ⟨i, hfree, hstart⟩ := collStart_eq (regRead s b r o 64 none 0).1 b (startedColl s l desc d add')
    have htop : topLevel (hereQ (collStart (regRead s b r o 64 none 0).1 b (startedColl s l desc d add'))) = some l := by
      rw [hstart, hereQ_setColl, hread.hereQ]
      exact hruns.1
    refine ⟨_, i, { startedColl s l desc d add' with
        down := ringBroken (regRead s b r o 64 none 0).1 b d
        code := if ringBroken (regRead s b r o 64 none 0).1 b d then 1 else 0 },
      (exec_pktColl hruns hsem hrel hx hbad hrev hok).trans (congrArg Host.Outcome.next (packetDone_eq htop 6)), ?_, ?_, ?_,
      rfl, rfl, rfl, rfl, rfl, ?_⟩
    · exact top_packetOver ..
    · rw [← hfree, collOf, collOf, hread.bhOf]
    · rw [packetOver, collOf_modQueue, hstart, collOf_setColl]
      rfl
    · rw [ringBroken_iff, hread.linkOf, hread.linkOf]
  · refine ⟨_, exec_pktXfer hruns hq hr hk hown, xferMarked_mem .., ?_, ?_, ?_, ?_, ?_, fun a ha =>
      ⟨fifo_xferMarked _ _ _ _ ha, ?_⟩⟩
    · rw [partOf_xferMarked]
      exact tabFind_tabSet_same ..
    · rw [hereQ_xferMarked]
    · rw [hereQ_xferMarked]
    · rw [hereQ_xferMarked]
    · rw [hereQ_xferMarked, partOf_xferMarked]
    · rw [hereQ_xferMarked]
      exact tabFind_markAll ha
  · intro num r htop hw gone hgone
    have hq := hereQ_modQueue (xferSettle s p) (fun x => { x with st := .running, wait := none, marks := [] })
    rw [xferSettle_cur, hereQ_xferSettle] at hq
    have hdone := packetDone_eq ((congrArg topLevel hq).trans htop) 2
    refine ⟨_, exec_xferPacketComplete hw hgone, ?_, ?_, ?_, ?_, fun hr hm hin hall => ?_⟩
    · rw [hdone, packetOver, modQueue_mem, modQueue_mem, xferSettle]
      split <;> rfl
    · rw [hdone, packetOver, hereQ_modQueue, hq]
    · rw [hdone, packetOver, hereQ_modQueue, hq]
    · rw [hdone, top_packetOver]
    · rw [hdone, packetOver, partOf, modQueue_parts, modQueue_parts, ← partOf]
      exact regions_xferSettle hr hm hin hgone hall

end Sys2Proof.Machine

namespace Sys2Proof.Machine
open Sys2Proof

/-! ## QMAP.HALT and waits (R89, R90) -/

theorem exec_qmapHalt_of_running {s : State} (h : (hereQ s).st = .running) :
    exec .qmapHalt s = .next (modQueue s s.cur.bh s.cur.q (fun x => { x with haltReq := true })) := by
  simp only [exec, execQmapHalt]
  rw [show (queueOf s s.cur.bh s.cur.q).st = .running from h]

theorem exec_qmapHalt_of_waiting {s : State} (h : (hereQ s).st = .waiting) :
    exec .qmapHalt s = .next (modQueue s s.cur.bh s.cur.q (fun x => dropWork x .halted)) := by
  simp only [exec, execQmapHalt]
  rw [show (queueOf s s.cur.bh s.cur.q).st = .waiting from h]
  exact congrArg Host.Outcome.next (queueHalt_of_room (note := false) fun hf => nomatch hf)

theorem exec_qmapHalt_of_other {s : State} (h : (hereQ s).st ≠ .running) (h' : (hereQ s).st ≠ .waiting) :
    exec .qmapHalt s = .next s := by
  refine congrArg Host.Outcome.next ?_
  dsimp only
  cases hst : (queueOf s s.cur.bh s.cur.q).st with
  | running => exact absurd hst h
  | waiting => exact absurd hst h'
  | halted => rfl
  | idle => rfl
  | faulted => rfl

/-- What a queue whose wait is over has waited for. -/
def waitedBy (x : QueueS) : QWait → Bool
  | .sem _ _ | .quiesce => true
  | _ => x.waited

theorem exec_queueWaitSatisfied {s : State} {w : QWait} (hst : (hereQ s).st = .waiting) (hw : (hereQ s).wait = some w)
    (h : waitHolds s s.cur.bh s.cur.q w = true) : exec .queueWaitSatisfied s = .next
      (modQueue s s.cur.bh s.cur.q (fun x =>
        { x with st := .running, wait := none, waited := waitedBy (hereQ s) w })) := by
  refine congrArg Host.Outcome.next ?_
  dsimp only
  rw [show (queueOf s s.cur.bh s.cur.q).wait = some w from hw]
  dsimp only
  rw [if_pos (by rw [h]; simpa using hst)]
  cases w <;> rfl

/-! ## Stream fetches (R93, R110) -/

/-- The queue acted on, changed after an access of memory. -/
theorem MemAccess.hereQ_modQueue {s t : State} (h : MemAccess s t) (f : QueueS → QueueS) :
    Machine.hereQ (modQueue t s.cur.bh s.cur.q f) = f (Machine.hereQ s) := by
  rw [Machine.hereQ, modQueue_cur, h.cur, queueOf_modQueue_same, h.queueOf]

theorem memAccess_deviceBytes (s : State) (b va n : Nat) : MemAccess s (deviceBytes s b va n).1 := by
  refine foldl_induct (R := fun x y : State × List HeldByte => MemAccess x.1 y.1) (fun _ => .refl _)
    (fun h g => h.trans g) (fun x l => ?_) _ (s, [])
  dsimp only
  split
  · exact .refl _
  split
  · split
    · exact .refl _
    next num r off _ =>
      have hr := memAccess_regRead x.1 b r off (min (va + n) (64 * l + 64) - max va (64 * l)) none 0
      split
      · exact .refl _
      split
      · exact hr
      · exact hr
  · exact .refl _

/-- One fetched byte comes to its offset, where none is held and the level reaches it. -/
def holdByte (len : Nat) (x : Tab HeldByte × Nat) (v : HeldByte) : Tab HeldByte × Nat :=
  (if (tabFind x.1 x.2).isSome || len ≤ x.2 then x.1 else tabSet x.1 x.2 v, x.2 + 1)

theorem tabFind_holdByte (len : Nat) (t : Tab HeldByte) (o : Nat) (v : HeldByte) (i : Nat) :
    tabFind (holdByte len (t, o) v).1 i = if (tabFind t i).isNone ∧ i = o ∧ i < len then some v else tabFind t i := by
  rw [holdByte]
  dsimp only
  by_cases hi : i = o
  · subst hi
    cases ht : tabFind t i with
    | some x => simp [ht]
    | none =>
      by_cases hlen : i < len
      · simp [hlen, Nat.not_le.mpr hlen]
      · simp [hlen, ht, Nat.not_lt.mp hlen]
  · rw [apply_ite (fun u => tabFind u i), tabFind_tabSet_ne _ _ hi, ite_self, if_neg fun h => hi h.2.1]

theorem tabFind_holdBytes (len : Nat) (bs : List HeldByte) (t : Tab HeldByte) (o i : Nat) :
    tabFind (bs.foldl (holdByte len) (t, o)).1 i =
      if (tabFind t i).isNone ∧ o ≤ i ∧ i < len then bs[i - o]? else tabFind t i := by
  induction bs generalizing t o with
  | nil =>
    split
    next h => exact Option.isNone_iff_eq_none.mp h.1
    · rfl
  | cons v bs ih =>
    rw [List.foldl_cons, show holdByte len (t, o) v = ((holdByte len (t, o) v).1, o + 1) from rfl, ih,
      tabFind_holdByte]
    cases ht : tabFind t i with
    | some x => simp
    | none =>
      rcases lt_trichotomy i o with hi | rfl | hi
      · simp [Nat.not_le.mpr hi, hi.ne, Nat.not_le.mpr (Nat.lt_succ_of_lt hi)]
      · by_cases hlen : i < len
        · simp [hlen]
        · simp [hlen]
      · obtain ⟨j, rfl⟩ := Nat.exists_eq_add_of_lt hi
        have hsub : o + (j + 1) - (o + 1) = j := by omega
        simp [Nat.add_assoc, hsub]

theorem holdBytes_eq (l : LevelS) (o : Nat) (bs : List HeldByte) :
    holdBytes l o bs = { l with bytes := (bs.foldl (holdByte l.len) (l.bytes, o)).1 } := rfl

/-- The bytes that a fetch of a level brings, and the state after it. -/
def fetched (s : State) (l : LevelS) (o n : Nat) (bs : List Byte) : State × List HeldByte :=
  if l.host then (s, bs.map HeldByte.byte) else deviceBytes s s.cur.bh (l.base + o) n

theorem memAccess_fetched (s : State) (l : LevelS) (o n : Nat) (bs : List Byte) : MemAccess s (fetched s l o n bs).1 := by
  unfold fetched
  split
  · exact .refl s
  · exact memAccess_deviceBytes ..

/-- What a level does with fetched bytes: a look-ahead looks at them, a fetch holds them. -/
def takeBytes (look : Bool) (o : Nat) (hs : List HeldByte) (l : LevelS) : LevelS :=
  if look then { l with scan := (holdBytes { l with bytes := l.scan } o hs).bytes } else holdBytes l o hs

theorem exec_streamFetchComplete {s : State} {o n : Nat} {bs : List Byte} {l : LevelS}
    (hf : (hereQ s).fetching = true) (hr : (hereQ s).reply = some (some (o, n, bs)))
    (hl : topLevel (hereQ s) = some l) (hw : l.host = true ∨ deviceWaits s s.cur.bh (l.base + o) n = false) :
    exec .streamFetchComplete s = .next (modQueue (fetched s l o n bs).1 s.cur.bh s.cur.q (fun x =>
      { x with
        fetching := false, scanning := false, reply := none
        levels := x.levels.dropLast ++ [takeBytes (hereQ s).scanning o (fetched s l o n bs).2 l] })) := by
  have hwait : ¬ (!l.host && deviceWaits s s.cur.bh (l.base + o) n) = true := by
    rcases hw with h | h <;> simp [h]
  have hq := (memAccess_fetched s l o n bs).queueOf s.cur.bh s.cur.q
  refine congrArg Host.Outcome.next ?_
  dsimp only
  rw [if_neg (by rw [hf]; exact Bool.false_ne_true), show (queueOf s s.cur.bh s.cur.q).reply = _ from hr, hl]
  dsimp only
  rw [if_neg hwait]
  change modQueue (fetched s l o n bs).1 s.cur.bh s.cur.q _ = _
  refine modQueue_congr _ _ _ ?_
  rw [hq]
  refine (modTop_of_top (x := { hereQ s with fetching := false, scanning := false, reply := none }) hl _).trans ?_
  rfl

/-! ## Notifications and error records (R95, R96) -/

/-- The frames of a reservation that go out or wait for room in it. -/
def readyFrames (s : State) (g : Nat) : List Frame := tabGet s.port.tx [] g ++ tabGet s.port.txWait [] g

theorem readyFrames_readyFrame (s : State) {g : Nat} (hg : g ≠ 17) (f : Frame) :
    readyFrames (readyFrame s g f) g = readyFrames s g ++ [f] := by
  unfold readyFrame readyFrames enterTx
  dsimp only
  split
  next h =>
    have hempty : tabGet s.port.txWait [] g = [] := List.isEmpty_iff.mp (Bool.and_eq_true_iff.mp h).1
    dsimp only
    rw [tabGet_tabMod_same, hempty, List.append_nil, List.append_nil]
  · dsimp only
    rw [tabGet_tabMod_same, List.append_assoc]

theorem notif_sendReq (s : State) (k : Nat) (p : RocePkt) (n : Nat) (w : QpWork) :
    (sendReq s k p n w).port.notif = s.port.notif := by
  by_cases h : (qpOf s k).st = .rts
  · obtain ⟨_, _, _, hready⟩ := readyReq_eq s k (numbered (qpOf s k) p) w
    rw [sendReq_of_rts h, hready]
    rfl
  · rw [show sendReq s k p n w = s from if_neg h]

/-- A SEND of bytes on a queue pair, as the obligations state it. -/
def SendJoined (s t : State) (k : Nat) (bs : List Byte) : Prop :=
  let pkt : RocePkt := { op := .send, qpn := (qpOf s k).remote, psn := (qpOf s k).sPsn, data := bs }
  (qpOf t k).sPsn = ((qpOf s k).sPsn + 1) % 2 ^ 24 ∧
    (qpOf t k).out = (qpOf s k).out ++ [((qpOf s k).sPsn, pkt, .notify)] ∧
    ∃ fr, readyFrames t (fnGroup s (k / 64)) = readyFrames s (fnGroup s (k / 64)) ++ [fr] ∧ fr.body = .roce pkt ∧
      fr.mac = (qpOf s k).mac ∧ fr.ip = (qpOf s k).ip

theorem sendJoined_sendReq {s : State} {k : Nat} (h : (qpOf s k).st = .rts) (bs : List Byte) :
    SendJoined s (sendReq s k (sendOp bs) 1 .notify) k bs := by
  have hg : fnGroup s (k / 64) ≠ 17 := (Nat.lt_succ_of_le (fnGroup_le s _)).ne
  refine ⟨by rw [qpOf_sendReq h], by rw [qpOf_sendReq h]; rfl,
    mkFrame s k (numbered (qpOf s k) (sendOp bs)), ?_, rfl, rfl, rfl⟩
  rw [sendReq_of_rts h]
  exact readyFrames_readyFrame s hg _

/-- What of a state a SEND on a queue pair depends on. -/
theorem SendJoined.of_eq {s u t : State} {k : Nat} {bs : List Byte} (h : SendJoined u t k bs)
    (hqp : u.port.qps = s.port.qps) (htx : u.port.tx = s.port.tx) (hwait : u.port.txWait = s.port.txWait)
    (hvf : u.port.vfmap = s.port.vfmap) : SendJoined s t k bs := by
  simpa only [SendJoined, qpOf, readyFrames, fnGroup, vfPart, vfWord, hqp, htx, hwait, hvf] using h

/-- A SEND after a change that leaves the queue pairs, the frames and the functions alone. -/
theorem sendJoined_of_port {s u : State} {k : Nat} (h : (qpOf s k).st = .rts) (bs : List Byte)
    (hqp : u.port.qps = s.port.qps) (htx : u.port.tx = s.port.tx) (hwait : u.port.txWait = s.port.txWait)
    (hvf : u.port.vfmap = s.port.vfmap) : SendJoined s (sendReq u k (sendOp bs) 1 .notify) k bs :=
  (sendJoined_sendReq (by rw [qpOf, hqp, ← qpOf]; exact h) bs).of_eq hqp htx hwait hvf

/-- The oldest notification that waits for room joins the buffer. -/
theorem lateNotif_eq (s : State) (f : Nat) : ∃ notif late more,
    lateNotif s f = { s with port := { s.port with notif := notif, notifLate := late } } ∧
      tabGet notif [] f = tabGet s.port.notif [] f ++ more ∧ (tabGet s.port.notifLate [] f = [] → more = []) := by
  unfold lateNotif
  split
  · exact ⟨_, _, [], rfl, (List.append_nil _).symm, fun _ => rfl⟩
  next n r hlate =>
    split
    · exact ⟨_, _, [], rfl, (List.append_nil _).symm, fun _ => rfl⟩
    · exact ⟨_, _, [n], rfl, tabGet_tabMod_same .., fun h => by rw [h] at hlate; exact nomatch hlate⟩

theorem exec_notificationSend {s : State} {n : Notif} {rest : List Notif}
    (hn : tabGet s.port.notif [] s.cur.fn = n :: rest) (hrts : (qpOf s (qpKey s.cur.fn n.qp)).st = .rts)
    (hon : fnOn s s.cur.fn = true) (hahead : notifAhead s s.cur.fn (qpKey s.cur.fn n.qp) = false)
    (hroom : txRoom s (fnGroup s s.cur.fn) 154 = true) : exec .notificationSend s = .next (sendReq
      (lateNotif { s with port := { s.port with notif := tabSet s.port.notif s.cur.fn rest } } s.cur.fn)
      (qpKey s.cur.fn n.qp) (sendOp (notifBytes n)) 1 .notify) := by
  refine congrArg Host.Outcome.next ?_
  dsimp only
  rw [hn]
  dsimp only
  rw [if_pos (by rw [hon, hroom, hahead, hrts]; rfl)]

theorem exec_errorRecordDeliver {s : State} {r : ErrRec} {rest : List ErrRec} (hbuf : s.hub.errBuf = r :: rest)
    (hen : s.hub.errEn = true) (hrts : (qpOf s (qpKey 512 s.hub.errQp)).st = .rts) (hroom : txRoom s 16 154 = true) :
    exec .errorRecordDeliver s = .next (sendReq { s with hub := { s.hub with errBuf := rest } }
      (qpKey 512 s.hub.errQp) (sendOp (notifBytes (errNotif s r))) 1 .notify) := by
  refine congrArg Host.Outcome.next ?_
  dsimp only
  rw [hbuf]
  dsimp only
  rw [if_pos (by rw [hen, hroom, psf, hrts]; rfl)]
  rfl

/-- Settles O41: each event by its own lemma of this section. -/
theorem queueEvents : Obligations.QueueEvents := by
  intro s b q f sendOf sent
  refine ⟨exec_qmapHalt_of_running, fun hst => ⟨_, exec_qmapHalt_of_waiting hst, onlyQueue_modQueue .., ?_⟩,
    exec_qmapHalt_of_other, fun hf hr => ?_, ?_,
    fun w hst hw h => ⟨_, exec_queueWaitSatisfied hst hw h, onlyQueue_modQueue .., ?_⟩, ?_, ?_,
    s.hub.errDrop.clear s.now, rfl, rfl⟩
  · rw [hereQ_modQueue]
    exact ⟨rfl, rfl, rfl, rfl, rfl⟩
  · have hexec : exec .streamFetchComplete s = .next (packetFault s qfFetch) := by
      refine congrArg Host.Outcome.next ?_
      dsimp only
      rw [if_neg (by rw [hf]; exact Bool.false_ne_true), show (queueOf s s.cur.bh s.cur.q).reply = _ from hr]
      rfl
    rw [hexec]
    exact queueFaults_packetFault s qfFetch
  · intro o n bs l hf hr hl hw got
    have hm := memAccess_fetched s l o n bs
    have hgot : (fetched s l o n bs).2 = got := by
      unfold fetched
      split
      next h => exact (if_pos h).symm
      next h => exact (if_neg h).symm
    refine ⟨_, takeBytes (hereQ s).scanning o got l, exec_streamFetchComplete hf hr hl hw, ?_⟩
    rw [hm.hereQ_modQueue, hgot]
    refine ⟨topLevel_append { hereQ s with fetching := false, scanning := false, reply := none } _ _, ?_, rfl, rfl, rfl,
      fun hscan => ?_, fun hscan i => ?_⟩
    · rw [takeBytes]
      split
      · rfl
      · rfl
    · rw [hscan]
      rfl
    · rw [hscan]
      exact tabFind_holdBytes ..
  · rw [hereQ_modQueue]
    exact ⟨rfl, rfl, rfl⟩
  · intro n rest hn hrts hon hahead hroom hf hqp
    obtain ⟨notif, late, more, hlate, hmore, hnone⟩ :=
      lateNotif_eq { s with port := { s.port with notif := tabSet s.port.notif f rest } } f
    refine ⟨_, more, exec_notificationSend hn hrts hon hahead hroom, ?_, ?_, hnone, ?_⟩
    · rw [notif_sendReq, hlate]
      exact hmore.trans (congrArg (· ++ more) (tabGet_tabSet_same ..))
    · rw [sendReq_mem, lateNotif_mem]
    · exact sendJoined_of_port (s := s) hrts (notifBytes n) (by rw [hlate]) (by rw [hlate]) (by rw [hlate])
        (by rw [hlate])
  · intro r rest hbuf hen hrts hroom hqp
    refine ⟨_, exec_errorRecordDeliver hbuf hen hrts hroom, ?_, ?_, ?_⟩
    · obtain ⟨port, hport⟩ := sendReq_frame { s with hub := { s.hub with errBuf := rest } } (qpKey 512 s.hub.errQp)
        (sendOp (notifBytes (errNotif s r))) 1 .notify
      rw [hport]
    · rw [sendReq_mem]
    · exact sendJoined_of_port (s := s) hrts (notifBytes (errNotif s r)) rfl rfl rfl rfl

end Sys2Proof.Machine

namespace Sys2Proof.Machine
open Sys2Proof

/-! ## What leaves the bulkheads alone -/

/-- The bulkheads stand, and with them queues, nodes, semaphores and collectives. -/
abbrev SameBhs (s t : State) : Prop := t.bhs = s.bhs

theorem SameBhs.nodeOf {s t : State} (h : SameBhs s t) (n : NodeId) : nodeOf t n = nodeOf s n := by
  rw [Machine.nodeOf, bhOf, h, ← bhOf, ← Machine.nodeOf]

theorem SameBhs.semGet {s t : State} (h : SameBhs s t) (p : Nat) (name : W16) : semGet t p name = semGet s p name := by
  rw [Machine.semGet, bhOf, h, ← bhOf, ← Machine.semGet]

theorem sameBhs_foldl {ι : Type} {step : State → ι → State} (h : ∀ s i, SameBhs s (step s i)) (l : List ι)
    (s : State) : SameBhs s (l.foldl step s) :=
  foldl_induct (R := SameBhs) (fun _ => rfl) (fun h g => g.trans h) h l s

theorem sameBhs_deliverLand (s : State) (p ep slot line : Nat) (v : LineVal) (pin : Option Nat) :
    SameBhs s (deliverLine s (.land p ep slot line) v pin) := by
  unfold deliverLine
  dsimp only
  split
  · split
    · rfl
    · rfl
  · rfl

theorem sameBhs_sendLand (s : State) (p cls : Nat) (r : Region) (off rc q ep slot line : Nat) :
    SameBhs s (sendRead s p cls r off rc (.land q ep slot line)) := by
  unfold sendRead
  dsimp only
  split
  · unfold sendWin
    dsimp only
    split
    · unfold netSend
      split
      · rfl
      · rfl
    · rw [if_neg Bool.false_ne_true]
      exact sameBhs_deliverLand ..
  · unfold sendSlice netSend
    dsimp only
    split
    · rfl
    · rfl

theorem sameBhs_rcUse (s : State) (p va : Nat) : SameBhs s (rcUse s p va) := by
  unfold rcUse
  dsimp only
  split
  · rfl
  · rfl

theorem sameBhs_mpeEdges (s : State) (p b : Nat) : SameBhs s (mpeEdges s p b) := by
  unfold mpeEdges
  split
  · rfl
  · refine (sameBhs_foldl (fun t x => ?_) _ s : SameBhs s _)
    dsimp only
    split
    · exact sameBhs_rcUse ..
    · exact (sameBhs_sendLand ..).trans (sameBhs_rcUse ..)

theorem sameBhs_mpeAhead (s : State) (p : Nat) (m : MpeS) : SameBhs s (mpeAhead s p m) :=
  sameBhs_foldl (fun t b => sameBhs_mpeEdges t p b) _ _

theorem sameBhs_stepAhead (s : State) (nd : NodeS) (p : Nat) : SameBhs s (stepAhead s nd p) := by
  unfold stepAhead
  split
  · rfl
  split
  · rfl
  · exact sameBhs_mpeAhead ..

theorem sameBhs_startState (s : State) (id : NodeId) (nd : NodeS) (p : Nat) (bs pb : List Byte) :
    SameBhs s (startState s id nd p bs pb) := by
  unfold startState
  extract_lets a
  split
  · exact setArr_bhs ..
  split
  · exact setArr_bhs ..
  split
  next t r hr =>
    have hb := (memAccess_bcpRead s id.1 (nd.save + 0xB00000 * a.logical) 0xB00000).bhs
    rw [hr] at hb
    exact hb

theorem memAccess_readImage (s : State) (b : Nat) (nd : NodeS) : MemAccess s (readImage s b nd).1 := by
  have hhead := fun n => memAccess_bcpRead s b nd.image n
  have hall := fun n m => (hhead n).trans (memAccess_bcpRead (bcpRead s b nd.image n).1 b nd.image m)
  unfold readImage
  split
  · exact .refl s
  split
  · exact .refl s
  dsimp only
  split
  · exact hhead _
  split
  · exact hhead _
  split
  · exact hall _ _
  split
  · exact hall _ _
  split
  · exact hall _ _
  split
  · exact hall _ _
  split
  · exact hall _ _
  · exact hall _ _

/-! ## Nodes and their maps -/

theorem nodeOf_modNode {s : State} {id : NodeId} {nd : NodeS} (h : nodeOf s id = some nd) (f : NodeS → NodeS) :
    nodeOf (modNode s id f) id = some (f nd) := by
  rw [modNode, h]
  exact nodeOf_setNode_same ..

theorem arrOf_modNode (s : State) (id : NodeId) (f : NodeS → NodeS) (p : Nat) : arrOf (modNode s id f) p = arrOf s p := by
  unfold modNode
  split
  · rfl
  · rfl

end Sys2Proof.Machine

namespace Sys2Proof.Machine
open Sys2Proof

theorem nodeOf_modBh_of_nodes (s : State) (b : Nat) (f : BhS → BhS) (h : ∀ x, (f x).nodes = x.nodes) (n : NodeId) :
    nodeOf (modBh s b f) n = nodeOf s n := by
  by_cases hc : n.1 = b
  · rw [nodeOf, hc, bhOf_modBh_same, h, nodeOf, hc]
  · rw [nodeOf, bhOf_modBh_ne _ _ hc, nodeOf]

theorem semGet_modBh_of_sems (s : State) (b : Nat) (f : BhS → BhS) (h : ∀ x, (f x).sems = x.sems) (p : Nat)
    (name : W16) : semGet (modBh s b f) p name = semGet s p name := by
  by_cases hc : (semPlace p name).1 = b
  · rw [semGet, hc, bhOf_modBh_same, h, semGet, hc]
  · rw [semGet, bhOf_modBh_ne _ _ hc, semGet]

theorem semGet_setNode (s : State) (n : NodeId) (x : NodeS) (p : Nat) (name : W16) :
    semGet (setNode s n x) p name = semGet s p name :=
  semGet_modBh_of_sems s n.1 (fun b => { b with nodes := tabSet b.nodes n.2 x }) (fun _ => rfl) p name

theorem nodeOf_semSent (s : State) (b p : Nat) (set : Bool) (name : W16) (v : W64) (n : NodeId) :
    nodeOf (semSent s b p set name v) n = nodeOf s n := by
  unfold semSent netSend
  split
  · exact nodeOf_modBh_of_nodes s _
      (fun x => { x with sems := tabPut x.sems 0 (semPlace p name).2 (if set then v else semGet s p name + v) })
      (fun _ => rfl) n
  split
  · exact nodeOf_modBh_of_nodes s _ (fun y => { y with semArr := y.semArr ++ [_] }) (fun _ => rfl) n
  · rfl

theorem arrs_semSent (s : State) (b p : Nat) (set : Bool) (name : W16) (v : W64) :
    (semSent s b p set name v).arrs = s.arrs := by
  unfold semSent netSend
  split
  · rfl
  split
  · rfl
  · rfl

theorem nodeOf_semAdded (s : State) (b p : Nat) (m : Option (W16 × W64)) (n : NodeId) :
    nodeOf (semAdded s b p m) n = nodeOf s n := by
  unfold semAdded
  split
  · exact nodeOf_semSent ..
  · rfl

theorem arrOf_semAdded (s : State) (b p : Nat) (m : Option (W16 × W64)) (a : Nat) :
    arrOf (semAdded s b p m) a = arrOf s a := by
  unfold semAdded
  split
  · rw [arrOf, arrs_semSent, ← arrOf]
  · rfl

theorem semDone_eq_semAdded (s : State) (b p : Nat) (m : Option (W16 × W64)) :
    semDone s b p m = semAdded s b p m := by
  cases m <;> rfl

theorem nodeOf_dropCopies (s : State) (b : Nat) (n : NodeId) : nodeOf (dropCopies s b) n = nodeOf s n := by
  refine nodeOf_modBh_of_nodes s b _ (fun x => ?_) n
  dsimp only
  split
  · rfl
  · rfl

/-! ## The arrays of a node that has ended (R125, R140) -/

theorem arrOf_foldl_unpin (l : List Nat) (s : State) (p : Nat) : arrOf (l.foldl l2Unpin s) p = arrOf s p :=
  foldl_induct (R := fun s t : State => arrOf t p = arrOf s p) (fun _ => rfl) (fun h g => g.trans h)
    (fun t i => (rfl : arrOf (l2Unpin t i) p = arrOf t p)) l s

theorem arrOf_releaseOne (s : State) (q p : Nat) :
    arrOf (releaseOne s q) p = if p = q then bareArray (arrOf s p) else arrOf s p := by
  rw [releaseOne]
  by_cases h : p = q
  · rw [if_pos h, h, arrOf_modArr_same, unpinLandings, arrOf_foldl_unpin]
  · rw [if_neg h, arrOf_modArr_ne _ _ h, unpinLandings, arrOf_foldl_unpin]

theorem sameBhs_releaseOne (s : State) (q : Nat) : SameBhs s (releaseOne s q) :=
  (sameBhs_foldl (step := l2Unpin) (fun _ _ => rfl) _ s : SameBhs s (unpinLandings s q))

theorem sameBhs_releaseAll (s : State) (id : NodeId) : SameBhs s (releaseAll s id) := sameBhs_foldl sameBhs_releaseOne _ s

/-- An array that no node holds and that does nothing. -/
abbrev GivenBack (a : ArrayS) : Prop := a.node = none ∧ a.cond = .idle

theorem givenBack_releaseOne {s : State} {p : Nat} (h : GivenBack (arrOf s p)) (q : Nat) :
    GivenBack (arrOf (releaseOne s q) p) := by
  rw [arrOf_releaseOne]
  split
  · exact ⟨rfl, rfl⟩
  · exact h

theorem givenBack_foldl {l : List Nat} {s : State} {p : Nat} (h : p ∈ l ∨ GivenBack (arrOf s p)) :
    GivenBack (arrOf (l.foldl releaseOne s) p) := by
  induction l generalizing s with
  | nil => exact h.resolve_left List.not_mem_nil
  | cons q l ih =>
    refine ih ?_
    rcases h with h | h
    · rcases List.mem_cons.mp h with rfl | h
      · exact .inr (by rw [arrOf_releaseOne, if_pos rfl]; exact ⟨rfl, rfl⟩)
      · exact .inl h
    · exact .inr (givenBack_releaseOne h q)

theorem mem_nodeArrs {s : State} {id : NodeId} {p : Nat} (h : (arrOf s p).node = some id) : p ∈ nodeArrs s id := by
  rcases tabGet_mem_or_default s.arrs {} p with hm | hd
  · exact List.mem_map.mpr ⟨_, List.mem_filter.mpr ⟨hm, beq_iff_eq.mpr h⟩, rfl⟩
  · rw [arrOf, hd] at h
    exact nomatch h

theorem givenBack_releaseAll {s : State} {id : NodeId} {p : Nat} (h : (arrOf s p).node = some id) :
    GivenBack (arrOf (releaseAll s id) p) := givenBack_foldl (.inl (mem_nodeArrs h))

/-! ## Ticks and requeues (R124, R47) -/

section
variable {s : State} {nd : NodeS} (hn : nodeOf s (s.cur.bh, s.cur.node) = some nd)
include hn

theorem exec_startTickReached_of_due (hst : nd.st = .waiting) (h : ∀ t, nd.tick = some t → t ≤ startNs s) :
    exec .startTickReached s = .next (setNode s (s.cur.bh, s.cur.node) { nd with st := .ready, readyAt := s.now }) := by
  have hdue : (match nd.tick with | some t => decide (t ≤ startNs s) | none => true) = true := by
    cases ht : nd.tick with
    | none => rfl
    | some t => exact decide_eq_true (h t ht)
  refine congrArg Host.Outcome.next ?_
  dsimp only
  rw [hn]
  exact if_pos (by rw [hst]; exact hdue)

theorem exec_startTickReached_of_early {t : Nat} (ht : nd.tick = some t) (h : startNs s < t) :
    exec .startTickReached s = .next s := by
  refine congrArg Host.Outcome.next ?_
  dsimp only
  rw [hn]
  refine if_neg fun hc => ?_
  have hdue := (Bool.and_eq_true_iff.mp hc).2
  rw [ht] at hdue
  exact absurd (of_decide_eq_true hdue) (Nat.not_le.mpr h)

theorem exec_requeueComplete (hst : nd.st = .requeued) :
    exec .requeueComplete s = .next (setNode s (s.cur.bh, s.cur.node) { nd with st := .ready, readyAt := s.now }) := by
  refine congrArg Host.Outcome.next ?_
  dsimp only
  rw [hn]
  exact if_pos hst

/-! ## The end of a node (R114, R125) -/

theorem exec_nodeDone_of_due (hdue : nd.addDue = true) (hdr : nodeDrained s (s.cur.bh, s.cur.node) nd = true) :
    exec .nodeDone s = .next (semAdded (setNode s (s.cur.bh, s.cur.node) { nd with addDue := false }) s.cur.bh nd.part
      nd.sem) := by
  refine congrArg Host.Outcome.next ?_
  dsimp only
  rw [hn]
  dsimp only
  rw [if_pos hdue, if_pos hdr, semDone_eq_semAdded]

theorem exec_nodeDone_of_undrained (hdue : nd.addDue = true) (hdr : nodeDrained s (s.cur.bh, s.cur.node) nd = false) :
    exec .nodeDone s = .next s := by
  refine congrArg Host.Outcome.next ?_
  dsimp only
  rw [hn]
  dsimp only
  rw [if_pos hdue, if_neg (by rw [hdr]; exact Bool.false_ne_true)]

theorem exec_nodeDone_of_egress (hdue : nd.addDue = false)
    (h : ∃ l ∈ nd.logs, (arrOf s l.2.phys).node = some (s.cur.bh, s.cur.node) ∧ (arrOf s l.2.phys).eg ≠ []) :
    exec .nodeDone s = .next s := by
  obtain ⟨l, hl, hnode, heg⟩ := h
  refine congrArg Host.Outcome.next ?_
  dsimp only
  rw [hn]
  dsimp only
  rw [if_neg (by rw [hdue]; exact Bool.false_ne_true)]
  refine if_pos ?_
  simp only [Bool.or_eq_true, Bool.not_eq_true', List.all_eq_false]
  refine .inl (.inr ⟨l, hl, ?_⟩)
  simp [hnode, heg]

/-- The state in which a node is DONE, before its semaphore is added to. -/
def nodeEnded (s : State) (id : NodeId) (nd : NodeS) : State :=
  writeStatus (setNode (releaseAll (commitStaged s id) id) id { nd with st := .done, staged := 0, saved := [] }) id.1
    { nd with st := .done, staged := 0, saved := [] }

theorem exec_nodeDone (hst : nd.st = .draining 0) (hdue : nd.addDue = false)
    (hdr : nodeDrained s (s.cur.bh, s.cur.node) nd = true)
    (h : ∀ l ∈ nd.logs, (arrOf s l.2.phys).node = some (s.cur.bh, s.cur.node) → (arrOf s l.2.phys).chans = [] ∧
      (arrOf s l.2.phys).colls = 0 ∧ (arrOf s l.2.phys).eg = [] ∧ (arrOf s l.2.phys).drained = []) :
    exec .nodeDone s = .next (dropCopies (semAdded (nodeEnded s (s.cur.bh, s.cur.node) nd) s.cur.bh nd.part nd.sem)
      s.cur.bh) := by
  refine congrArg Host.Outcome.next ?_
  dsimp only
  rw [hn]
  dsimp only
  rw [if_neg (by rw [hdue]; exact Bool.false_ne_true), if_neg, semDone_eq_semAdded]
  · rfl
  · simp only [hst, hdr, Bool.or_eq_true, Bool.not_eq_true', List.all_eq_false]
    rintro ((hc | ⟨l, hl, hc⟩) | hc)
    · simp at hc
    · refine hc ?_
      by_cases hnode : (arrOf s l.2.phys).node = some (s.cur.bh, s.cur.node)
      · obtain ⟨hchans, hcolls, heg, hdrained⟩ := h l hl hnode
        simp [hchans, hcolls, heg, hdrained]
      · simp [hnode]
    · exact nomatch hc
end

theorem memAccess_bcpWrite (s : State) (b va : Nat) (bs : List Byte) : MemAccess s (bcpWrite s b va bs) :=
  memAccess_foldl (fun t l => by
    dsimp only
    split
    · exact .refl _
    · exact memAccess_regWrite ..) _ s

theorem memAccess_writeStatus (s : State) (b : Nat) (nd : NodeS) : MemAccess s (writeStatus s b nd) := by
  unfold writeStatus
  split
  · exact .refl s
  · refine MemAccess.trans ?_ (memAccess_bcpWrite ..)
    unfold writeTrap
    split
    · exact .refl s
    · exact memAccess_bcpWrite ..

theorem nodeOf_nodeEnded (s : State) (id : NodeId) (nd : NodeS) :
    nodeOf (nodeEnded s id nd) id = some { nd with st := .done, staged := 0, saved := [] } := by
  rw [nodeEnded, (memAccess_writeStatus ..).nodeOf]
  exact nodeOf_setNode_same ..

theorem givenBack_nodeEnded {s : State} {id : NodeId} {p : Nat} (nd : NodeS) (h : (arrOf s p).node = some id) :
    GivenBack (arrOf (nodeEnded s id nd) p) := by
  obtain ⟨rc, hrc⟩ := (memAccess_writeStatus (setNode (releaseAll (commitStaged s id) id) id
    { nd with st := .done, staged := 0, saved := [] }) id.1 { nd with st := .done, staged := 0, saved := [] }).arr p
  rw [nodeEnded, hrc]
  exact givenBack_releaseAll (s := commitStaged s id) h

theorem semGet_nodeEnded (s : State) (id : NodeId) (nd : NodeS) (p : Nat) (name : W16) :
    semGet (nodeEnded s id nd) p name = semGet s p name := by
  rw [nodeEnded, SameBhs.semGet (memAccess_writeStatus ..).bhs, semGet_setNode, SameBhs.semGet (sameBhs_releaseAll ..)]
  rfl

end Sys2Proof.Machine

namespace Sys2Proof.Machine
open Sys2Proof

/-! ## Loading and starting (R124, R128, R138, R250) -/

/-- The map of a node once the arrays `l` have been loaded. -/
def startLogs (l : List (Nat × LogS)) (nd : NodeS) : NodeS :=
  l.foldl (fun nd x => setLog nd x.1 (fun g => { g with st := .started })) nd

theorem logs_setLog_same (nd : NodeS) (l : Nat) (f : LogS → LogS) :
    tabGet (setLog nd l f).logs {} l = f (tabGet nd.logs {} l) := tabGet_tabMod_same ..

theorem logs_setLog_ne (nd : NodeS) {l m : Nat} (f : LogS → LogS) (h : m ≠ l) :
    tabGet (setLog nd l f).logs {} m = tabGet nd.logs {} m := tabGet_tabMod_ne _ _ _ _ h

theorem started_startLogs {l : List (Nat × LogS)} {nd : NodeS} {k : Nat}
    (h : k ∈ l.map (fun x => x.1) ∨ (tabGet nd.logs {} k).st = .started) :
    (tabGet (startLogs l nd).logs {} k).st = .started := by
  induction l generalizing nd with
  | nil => exact h.resolve_left List.not_mem_nil
  | cons x l ih =>
    refine ih ?_
    by_cases hk : k = x.1
    · exact .inr (by rw [hk, logs_setLog_same])
    · rw [logs_setLog_ne _ _ hk]
      exact h.imp_left fun hm => (List.mem_cons.mp hm).resolve_left hk

/-- The arrays of a node, each loaded or restored, as its start leaves them. -/
def startArrays (s : State) (id : NodeId) (nd : NodeS) (todo : List (Nat × LogS)) (bs pb : List Byte) : State :=
  todo.foldl (fun s l => stepAhead (startState s id nd l.2.phys bs pb) nd l.2.phys) s

theorem sameBhs_startArrays (s : State) (id : NodeId) (nd : NodeS) (todo : List (Nat × LogS)) (bs pb : List Byte) :
    SameBhs s (startArrays s id nd todo bs pb) :=
  sameBhs_foldl (fun _ _ => (sameBhs_stepAhead ..).trans (sameBhs_startState ..)) todo s

/-- The arrays of a node that are placed and not yet loaded. -/
abbrev toStart (nd : NodeS) : List (Nat × LogS) := nd.logs.filter (fun l => decide (l.2.st = .placed))

theorem exec_nodeStart {s u v : State} {nd : NodeS} {bs pb : List Byte} {w : Except Cause BytesVal}
    (hn : nodeOf s (s.cur.bh, s.cur.node) = some nd) (hst : nd.st = .placed ∨ nd.st = .running)
    (him : readImage s s.cur.bh nd = (u, .ok bs)) (hpar : bcpRead u s.cur.bh nd.params nd.pbytes = (v, w))
    (hw : needBytes w = .ok pb) (htodo : toStart nd ≠ []) : exec .nodeStart s = .next
      (modNode (startArrays v (s.cur.bh, s.cur.node) nd (toStart nd) bs pb) (s.cur.bh, s.cur.node)
        (startLogs (toStart nd))) := by
  refine congrArg Host.Outcome.next ?_
  dsimp only
  rw [hn]
  dsimp only
  rw [if_neg, him]
  · dsimp only
    rw [hpar]
    dsimp only
    rw [hw]
    rfl
  · simp only [Bool.or_eq_true, Bool.and_eq_true, decide_eq_true_eq, List.isEmpty_iff]
    rintro (⟨h1, h2⟩ | h)
    · exact hst.elim h1 h2
    · exact htodo h

/-- An array loaded from an image is the logical array that it was. -/
theorem logical_loadArray (a : ArrayS) (bs pb : List Byte) : (loadArray a bs pb).logical = a.logical := rfl

theorem arrOf_start_fresh {s : State} {id : NodeId} {nd : NodeS} {p : Nat} {bs pb : List Byte}
    (hsaved : tabFind nd.saved (arrOf s p).logical = none) (hsteps : nd.steps = none) :
    arrOf (stepAhead (startState s id nd p bs pb) nd p) p = loadArray (arrOf s p) bs pb := by
  have hfresh : startState s id nd p bs pb = setArr s p (loadArray (arrOf s p) bs pb) := by
    unfold startState
    extract_lets a
    rw [show a.logical = (arrOf s p).logical from rfl, hsaved]
  rw [stepAhead, hsteps, hfresh]
  exact arrOf_setArr_same ..

theorem arrOf_start_restored {s : State} {id : NodeId} {nd : NodeS} {p : Nat} {bs pb : List Byte} {c : ArrayS}
    (hsaved : tabFind nd.saved (arrOf s p).logical = some c) (hmode : nd.svmode = true) :
    arrOf (stepAhead (startState s id nd p bs pb) nd p) p =
      { loadArray (arrOf s p) bs pb with pc := (imageHead bs).rsPc, svrun := 2 } := by
  have hrest : startState s id nd p bs pb =
      setArr s p { loadArray (arrOf s p) bs pb with pc := (imageHead bs).rsPc, svrun := 2 } := by
    unfold startState
    extract_lets a
    rw [show a.logical = (arrOf s p).logical from rfl, hsaved]
    exact if_pos hmode
  have hahead : stepAhead (startState s id nd p bs pb) nd p = startState s id nd p bs pb := by
    rw [stepAhead]
    split
    · rfl
    · rw [hrest, arrOf_setArr_same]
      exact if_pos (Option.isSome_iff_exists.mpr ⟨c, hsaved⟩)
  rw [hahead, hrest, arrOf_setArr_same]

/-! ## Starting at a tick (R128, R131) -/

/-- The arrays of a clock domain run from the next ac on. -/
def runAll (s : State) (ms : List Nat) : State := ms.foldl (fun s q => modArr s q (fun a => { a with cond := .running })) s

theorem arrOf_runAll_of_not_mem {ms : List Nat} {s : State} {q : Nat} (h : q ∉ ms) : arrOf (runAll s ms) q = arrOf s q := by
  induction ms generalizing s with
  | nil => rfl
  | cons m ms ih =>
    rw [List.mem_cons, not_or] at h
    exact (ih h.2).trans (arrOf_modArr_ne _ _ h.1)

theorem arrOf_runAll {ms : List Nat} {s : State} {q : Nat} (h : q ∈ ms) :
    arrOf (runAll s ms) q = { arrOf s q with cond := .running } := by
  induction ms generalizing s with
  | nil => exact absurd h List.not_mem_nil
  | cons m ms ih =>
    have hstep : runAll s (m :: ms) = runAll (modArr s m (fun a => { a with cond := .running })) ms := rfl
    rw [hstep]
    by_cases hq : q ∈ ms
    · rw [ih hq]
      by_cases hm : q = m
      · rw [hm, arrOf_modArr_same]
      · rw [arrOf_modArr_ne _ _ hm]
    · have hm := (List.mem_cons.mp h).resolve_right hq
      rw [arrOf_runAll_of_not_mem hq, hm, arrOf_modArr_same]

theorem sameBhs_runAll (s : State) (ms : List Nat) : SameBhs s (runAll s ms) := 
  sameBhs_foldl (fun t q => (rfl : SameBhs t (modArr t q _))) ms s

theorem mem_runAll (s : State) (ms : List Nat) : (runAll s ms).mem = s.mem :=
  foldl_induct (R := fun s t : State => t.mem = s.mem) (fun _ => rfl) (fun h g => g.trans h)
    (fun t q => (rfl : (modArr t q _).mem = t.mem)) ms s

/-- The groups whose time starts when the arrays `ms` do. -/
def startGroups (s : State) (id : NodeId) (nd : NodeS) (ms : List Nat) : List Gang :=
  nd.gangs.filter (fun g => sliced s nd.part g && (ms.any (gangArrs s id g).contains &&
    (gangArrs s id g).all (fun p => (arrOf s p).cond = .placed)))

/-- The times of the groups of a node, those of `gs` set to now. -/
def groupTimes (now : Nat) (gs : List Gang) (t : Tab Nat) : Tab Nat := gs.foldl (fun t g => tabSet t g.first now) t

theorem tabFind_groupTimes (now : Nat) (gs : List Gang) (t : Tab Nat) (k : Nat) :
    tabFind (groupTimes now gs t) k = tabFind t k ∨ tabFind (groupTimes now gs t) k = some now := by
  induction gs generalizing t with
  | nil => exact .inl rfl
  | cons g gs ih =>
    rcases ih (tabSet t g.first now) with h | h
    · by_cases hk : k = g.first
      · exact .inr (h.trans (by rw [hk]; exact tabFind_tabSet_same ..))
      · exact .inl (h.trans (tabFind_tabSet_ne _ _ hk))
    · exact .inr h

theorem nodeOf_groupStart {s : State} {id : NodeId} {nd : NodeS} (h : nodeOf s id = some nd) (ms : List Nat) :
    nodeOf (groupStart s id ms) id =
      some { nd with groupAt := groupTimes s.now (startGroups s id nd ms) nd.groupAt } := nodeOf_modNode h _

theorem arrOf_groupStart (s : State) (id : NodeId) (ms : List Nat) (p : Nat) : arrOf (groupStart s id ms) p = arrOf s p :=
  arrOf_modNode ..

theorem exec_arrayTickStart {s : State} {id : NodeId} {nd : NodeS} (hnode : (arrOf s s.cur.phys).node = some id)
    (hn : nodeOf s id = some nd) (hcond : (arrOf s s.cur.phys).cond = .placed)
    (hpos : (arrOf s s.cur.phys).chpos = 0)
    (hdue : ∀ t, (arrOf s s.cur.phys).startTick = some t → t ≤ startNs s) (hst : nd.st = .placed ∨ nd.st = .running)
    (hms : ∀ q ∈ domainArrs s s.cur.phys, (tabGet nd.logs {} (arrOf s q).logical).st = .started ∧
      (arrOf s q).ahead.all mpeFirst = true) (hsteps : nd.steps = none) :
    exec .arrayTickStart s = .next (runAll (groupStart (setNode s id { nd with st := .running }) id
      (domainArrs s s.cur.phys)) (domainArrs s s.cur.phys)) := by
  have hd : (match (arrOf s s.cur.phys).startTick with | some t => decide (t ≤ startNs s) | none => true) = true := by
    cases ht : (arrOf s s.cur.phys).startTick with
    | none => rfl
    | some t => exact decide_eq_true (hdue t ht)
  have hready : (domainArrs s s.cur.phys).all (fun q =>
      decide ((tabGet nd.logs {} (arrOf s q).logical).st = .started)) = true :=
    List.all_eq_true.mpr fun q hq => decide_eq_true (hms q hq).1
  have hhere : (domainArrs s s.cur.phys).all (fun q => (arrOf s q).ahead.all mpeFirst) = true :=
    List.all_eq_true.mpr fun q hq => (hms q hq).2
  refine congrArg Host.Outcome.next ?_
  dsimp only
  rw [hnode]
  dsimp only
  rw [hn]
  dsimp only
  rw [if_neg, hsteps]
  · rfl
  · simp only [hcond, hpos, hready, hhere, Bool.or_eq_true, Bool.not_eq_true', decide_eq_true_eq, Bool.and_eq_true]
    rintro (((((hc | hc) | hc) | hc) | hc) | hc)
    · exact hc rfl
    · exact hc rfl
    · exact Bool.noConfusion (hc.symm.trans hd)
    · exact nomatch hc
    · exact nomatch hc
    · exact hst.elim hc.1 hc.2

end Sys2Proof.Machine

namespace Sys2Proof.Machine
open Sys2Proof

/-! ## Placement (R130, R131) -/

/-- A member of a node that is in its place. -/
abbrev IsPlaced (nd : NodeS) (m : Nat) : Prop := (tabGet nd.logs {} m).st = .placed

/-- What placing members of a node leaves as it was: memory, the time, the state of the node, and the members that are
in place. -/
structure PlacesMembers (id : NodeId) (s t : State) : Prop where
  mem : t.mem = s.mem
  now : t.now = s.now
  node : ∀ nd, nodeOf s id = some nd → ∃ nt, nodeOf t id = some nt ∧ nt.st = nd.st ∧ nt.placedAt = nd.placedAt ∧
    nt.part = nd.part ∧ ∀ m, IsPlaced nd m → IsPlaced nt m

theorem PlacesMembers.refl (id : NodeId) (s : State) : PlacesMembers id s s :=
  ⟨rfl, rfl, fun nd h => ⟨nd, h, rfl, rfl, rfl, fun _ hm => hm⟩⟩

theorem PlacesMembers.trans {id : NodeId} {s t u : State} (h : PlacesMembers id s t) (g : PlacesMembers id t u) :
    PlacesMembers id s u := by
  refine ⟨g.mem.trans h.mem, g.now.trans h.now, fun nd hn => ?_⟩
  obtain ⟨nt, hnt, hst, hat, hpart, hlogs⟩ := h.node nd hn
  obtain ⟨nu, hnu, hst', hat', hpart', hlogs'⟩ := g.node nt hnt
  exact ⟨nu, hnu, hst'.trans hst, hat'.trans hat, hpart'.trans hpart, fun m hm => hlogs' m (hlogs m hm)⟩

theorem placesMembers_foldl {ι : Type} {id : NodeId} {step : State → ι → State}
    (h : ∀ s i, PlacesMembers id s (step s i)) (l : List ι) (s : State) : PlacesMembers id s (l.foldl step s) :=
  foldl_induct (R := PlacesMembers id) (.refl id) .trans h l s

theorem placesMembers_modArr (id : NodeId) (s : State) (p : Nat) (f : ArrayS → ArrayS) :
    PlacesMembers id s (modArr s p f) := ⟨rfl, rfl, fun nd h => ⟨nd, h, rfl, rfl, rfl, fun _ hm => hm⟩⟩

theorem placesMembers_linkChain (id : NodeId) (s : State) (ch : List (Nat × Bool)) :
    PlacesMembers id s (linkChain s ch) := placesMembers_foldl (fun _ _ => placesMembers_modArr ..) _ s

/-- A member of a node goes to an array. -/
theorem placeLogical_spec {s : State} {id : NodeId} {nd : NodeS} (hn : nodeOf s id = some nd) (l q : Nat) :
    ∃ nt tick, nodeOf (placeLogical s id l q) id = some nt ∧ nt.st = nd.st ∧ nt.placedAt = nd.placedAt ∧
      nt.part = nd.part ∧ (∀ m, m = l ∨ IsPlaced nd m → IsPlaced nt m) ∧ (placeLogical s id l q).mem = s.mem ∧
      (placeLogical s id l q).now = s.now ∧
      arrOf (placeLogical s id l q) q = placedArray (arrOf s q) id nd l tick := by
  have hlogs (m : Nat) (h : m = l ∨ IsPlaced nd m) :
      (tabGet (setLog nd l (fun g => { g with st := .placed, phys := q })).logs {} m).st = .placed := by
    by_cases hm : m = l
    · rw [hm, logs_setLog_same]
    · rw [logs_setLog_ne _ _ hm]
      exact h.resolve_left hm
  have hput := arrOf_modArr_same s q (fun a => placedArray a id nd l (tabGet nd.logs {} l).tick)
  unfold placeLogical
  rw [hn]
  dsimp only
  split
  · exact ⟨_, _, nodeOf_setNode_same .., rfl, rfl, rfl, hlogs, rfl, rfl, hput⟩
  · exact ⟨_, _, nodeOf_setNode_same .., rfl, rfl, rfl, hlogs, rfl, rfl, hput⟩

theorem placesMembers_placeLogical (id : NodeId) (s : State) (l q : Nat) :
    PlacesMembers id s (placeLogical s id l q) := by
  cases hn : nodeOf s id with
  | none =>
    rw [placeLogical, hn]
    exact .refl id s
  | some nd =>
    obtain ⟨nt, _, hnt, hst, hat, hpart, hlogs, hmem, hnow, -⟩ := placeLogical_spec hn l q
    refine ⟨hmem, hnow, fun x hx => ?_⟩
    cases hn.symm.trans hx
    exact ⟨nt, hnt, hst, hat, hpart, fun m hm => hlogs m (.inr hm)⟩

theorem placesMembers_placeUnit (id : NodeId) (s : State) (ms : List Nat) (chs : List (List (Nat × Bool))) :
    PlacesMembers id s (placeUnit s id ms chs) :=
  (placesMembers_foldl (placesMembers_linkChain id) chs s).trans
    (placesMembers_foldl (fun _ _ => placesMembers_placeLogical ..) _ _)

/-- Every member of a fold of placements is in its place after it. -/
theorem placed_foldl {id : NodeId} {l : List (Nat × (Nat × Bool))} {s : State} {nd : NodeS}
    (hn : nodeOf s id = some nd) : ∃ nt, nodeOf (l.foldl (fun s x => placeLogical s id x.1 x.2.1) s) id = some nt ∧
      ∀ m, m ∈ l.map (fun x => x.1) ∨ IsPlaced nd m → IsPlaced nt m := by
  induction l generalizing s nd with
  | nil => exact ⟨nd, hn, fun m h => h.resolve_left List.not_mem_nil⟩
  | cons x l ih =>
    obtain ⟨nt, _, hnt, -, -, -, hlogs, -⟩ := placeLogical_spec hn x.1 x.2.1
    obtain ⟨nu, hnu, hall⟩ := ih hnt
    refine ⟨nu, hnu, fun m h => hall m ?_⟩
    rcases h with h | h
    · rcases List.mem_cons.mp h with h | h
      · exact .inr (hlogs m (.inl h))
      · exact .inl h
    · exact .inr (hlogs m (.inr h))

theorem placed_placeUnit {id : NodeId} {s : State} {nd : NodeS} {ms : List Nat} {chs : List (List (Nat × Bool))}
    (hn : nodeOf s id = some nd) (hlen : ms.length ≤ chs.flatten.length) :
    ∃ nt, nodeOf (placeUnit s id ms chs) id = some nt ∧ nt.st = nd.st ∧ ∀ m ∈ ms, IsPlaced nt m := by
  obtain ⟨nu, hnu, -⟩ := (placesMembers_foldl (placesMembers_linkChain id) chs s).node nd hn
  obtain ⟨nt, hnt, hall⟩ := placed_foldl (l := ms.zip chs.flatten) hnu
  obtain ⟨nt', hnt', hst, -⟩ := (placesMembers_placeUnit id s ms chs).node nd hn
  refine ⟨nt, hnt, ?_, fun m hm => hall m (.inl ?_)⟩
  · cases hnt.symm.trans hnt'
    exact hst
  · rw [List.map_fst_zip hlen]
    exact hm

/-! ## What a unit takes (R130, R157) -/

theorem length_chainPaths {n p : Nat} {free : List Nat} {ch : List (Nat × Bool)} (h : ch ∈ chainPaths free n p) :
    ch.length = n := by
  induction n generalizing free p ch with
  | zero => rw [List.mem_singleton.mp h]; rfl
  | succ n ih =>
    obtain ⟨x, -, hx⟩ := List.mem_flatMap.mp h
    obtain ⟨r, hr, rfl⟩ := List.mem_map.mp hx
    rw [List.length_cons, ih hr]

theorem length_of_mem_chainsOf {len : Nat} {free : List Nat} {ch : List (Nat × Bool)} (h : ch ∈ chainsOf len free) :
    ch.length = len + 1 := by
  obtain ⟨p, -, hp⟩ := List.mem_flatMap.mp h
  obtain ⟨r, hr, rfl⟩ := List.mem_map.mp hp
  rw [List.length_cons, length_chainPaths hr]

theorem length_fitChains {len k : Nat} {free : List Nat} {chs : List (List (Nat × Bool))}
    (h : fitChains len k free = some chs) : chs.flatten.length = k * (len + 1) := by
  induction k generalizing free chs with
  | zero => cases h; simp
  | succ k ih =>
    rw [fitChains] at h
    split at h
    · exact nomatch h
    obtain ⟨ch, hch, hr⟩ := List.exists_of_findSome?_eq_some h
    obtain ⟨r, hrest, rfl⟩ := Option.map_eq_some_iff.mp hr
    rw [List.flatten_cons, List.length_append, length_of_mem_chainsOf hch, ih hrest]
    ring

theorem length_pickUnit {g : Gang} {ms free : List Nat} {chs : List (List (Nat × Bool))}
    (hmod : ms.length % (g.chain + 1) = 0) (h : pickUnit g ms free = some chs) : ms.length ≤ chs.flatten.length := by
  rw [length_fitChains h, unitChains, Nat.div_mul_cancel (Nat.dvd_of_mod_eq_zero hmod)]

/-- A lone member takes the lowest free array. -/
theorem pickUnit_lone {g : Gang} {m a : Nat} {rest : List Nat} (hg : g.chain = 0) :
    pickUnit g [m] (a :: rest) = some [[(a, false)]] := by
  simp [pickUnit, unitChains, hg, fitChains, chainsOf, chainPaths]

/-! ## The gangs of a node (R131) -/

/-- What placing gangs of a node leaves of it. -/
structure PlacesGangs (id : NodeId) (s t : State) : Prop where
  mem : t.mem = s.mem
  now : t.now = s.now
  node : ∀ nd, nodeOf s id = some nd → nd.st = .placed → ∃ nt, nodeOf t id = some nt ∧ nt.st = .placed ∧
    nt.placedAt = nd.placedAt ∧ ∀ m, IsPlaced nd m → IsPlaced nt m

theorem PlacesGangs.refl (id : NodeId) (s : State) : PlacesGangs id s s :=
  ⟨rfl, rfl, fun nd h hst => ⟨nd, h, hst, rfl, fun _ hm => hm⟩⟩

theorem PlacesGangs.trans {id : NodeId} {s t u : State} (h : PlacesGangs id s t) (g : PlacesGangs id t u) :
    PlacesGangs id s u := by
  refine ⟨g.mem.trans h.mem, g.now.trans h.now, fun nd hn hst => ?_⟩
  obtain ⟨nt, hnt, hst, hat, hlogs⟩ := h.node nd hn hst
  obtain ⟨nu, hnu, hst', hat', hlogs'⟩ := g.node nt hnt hst
  exact ⟨nu, hnu, hst', hat'.trans hat, fun m hm => hlogs' m (hlogs m hm)⟩

theorem PlacesMembers.gangs {id : NodeId} {s t : State} (h : PlacesMembers id s t) : PlacesGangs id s t := by
  refine ⟨h.mem, h.now, fun nd hn hst => ?_⟩
  obtain ⟨nt, hnt, hst', hat, -, hlogs⟩ := h.node nd hn
  exact ⟨nt, hnt, hst'.trans hst, hat, hlogs⟩

/-- A READY node that has members in place is PLACED. -/
def enterPlaced (now : Nat) (nd : NodeS) : NodeS := if nd.st = .ready then { nd with st := .placed, placedAt := now } else nd

theorem logs_enterPlaced (now : Nat) (nd : NodeS) : (enterPlaced now nd).logs = nd.logs := by
  unfold enterPlaced
  split
  · rfl
  · rfl

/-- The node once a unit of it has been placed. -/
theorem nodeOf_unitPlaced {s : State} {id : NodeId} {nd : NodeS} (hn : nodeOf s id = some nd) (g : Gang) (l : List Nat) :
    ∃ group, nodeOf (unitPlaced s id g l) id = some (enterPlaced s.now { nd with group := group }) := by
  refine ⟨if sliced s nd.part g then tabSet nd.group g.first (groupOf s nd.part g (l.headD 0)) else nd.group,
    (nodeOf_modNode hn _).trans (congrArg some ?_)⟩
  dsimp only
  split
  · rfl
  · rfl

theorem unitPlaced_now (s : State) (id : NodeId) (g : Gang) (l : List Nat) : (unitPlaced s id g l).now = s.now := by
  unfold unitPlaced modNode
  split
  · rfl
  · rfl

theorem placesGangs_unitPlaced (id : NodeId) (s : State) (g : Gang) (l : List Nat) :
    PlacesGangs id s (unitPlaced s id g l) := by
  refine ⟨modNode_mem .., unitPlaced_now .., fun nd hn hst => ?_⟩
  obtain ⟨group, hnt⟩ := nodeOf_unitPlaced hn g l
  have hsame : enterPlaced s.now { nd with group := group } = { nd with group := group } :=
    if_neg (by rw [hst]; nofun)
  rw [hsame] at hnt
  exact ⟨_, hnt, hst, rfl, fun _ hm => hm⟩

theorem placesGangs_placeNode (id : NodeId) (taken : List Nat) (gs : List Gang) (s : State) :
    PlacesGangs id s (placeNode s id taken gs).1 := by
  induction gs generalizing s with
  | nil => exact .refl id s
  | cons g gs ih =>
    rw [placeNode]
    split
    · exact .refl id s
    next nd _ =>
      split
      · exact ih s
      next l _ =>
        extract_lets free
        cases pickUnit g (unitOf s nd g) free with
        | some chs => exact (((placesMembers_placeUnit ..).gangs).trans (placesGangs_unitPlaced ..)).trans (ih _)
        | none =>
          dsimp only
          split
          · exact ih s
          · exact .refl id s

/-- The gangs before the one whose unit is next are passed over, and that unit is placed where it fits. -/
theorem placeNode_of_next {s : State} {id : NodeId} {nd : NodeS} {taken : List Nat} {g : Gang} {ms : List Nat}
    {chs : List (List (Nat × Bool))} (hn : nodeOf s id = some nd)
    (hpick : pickUnit g ms (openArrs s nd.part taken) = some chs) (gs : List Gang)
    (hnext : gs.findSome? (fun g => match unitOf s nd g with | [] => none | l => some (g, l)) = some (g, ms)) :
    ∃ pre post, gs = pre ++ g :: post ∧ placeNode s id taken gs =
      placeNode (unitPlaced (placeUnit s id ms chs) id g ms) id taken post := by
  induction gs with
  | nil => exact nomatch hnext
  | cons h gs ih =>
    rw [List.findSome?_cons] at hnext
    rw [placeNode, hn]
    dsimp only
    cases hu : unitOf s nd h with
    | nil =>
      rw [hu] at hnext
      obtain ⟨pre, post, rfl, hpost⟩ := ih hnext
      exact ⟨h :: pre, post, rfl, hpost⟩
    | cons m l =>
      rw [hu] at hnext
      cases hnext
      refine ⟨[], gs, rfl, ?_⟩
      dsimp only
      rw [hpick]

end Sys2Proof.Machine

namespace Sys2Proof.Machine
open Sys2Proof

/-! ## NODE_PLACEMENT (R124, R130) -/

theorem openArrs_nil (s : State) (p : Nat) : openArrs s p [] = (partArrs s p).filter (arrFree s) := by
  simp [openArrs]

/-- What one pass over the nodes of a partition does for one of them. -/
theorem exec_nodePlacement_lone {s : State} {id : NodeId} {nd nt : NodeS}
    (hall : partNodes s s.cur.part = [(id, nd)]) (hn : nodeOf s id = some nd) (hst : nd.st = .ready)
    (hnt : nodeOf (placeNode s id [] nd.gangs).1 id = some nt) (hplaced : nt.st = .placed) :
    exec .nodePlacement s = .next (placeNode s id [] nd.gangs).1 := by
  refine congrArg Host.Outcome.next ?_
  dsimp only
  rw [hall]
  have horder : sortBy (nodeBefore s) ([(id, nd)].filter (fun x => x.2.st = .ready || x.2.st = .placed ||
      x.2.st = .running)) = [(id, nd)] := by
    simp [hst, sortBy, insertBy]
  rw [horder, List.foldl_cons, List.foldl_nil]
  dsimp only
  rw [hn]
  dsimp only
  rw [List.filter_nil, List.map_nil, hnt]
  dsimp only
  rw [if_neg (by rw [hplaced]; nofun)]

/-- A node whose next unit fits is PLACED with the members of that unit. -/
theorem placeNode_places {s : State} {id : NodeId} {nd : NodeS} {g : Gang} {ms : List Nat}
    {chs : List (List (Nat × Bool))} (hn : nodeOf s id = some nd) (hst : nd.st = .ready)
    (hnext : nextUnit s nd = some (g, ms)) (hmod : ms.length % (g.chain + 1) = 0)
    (hpick : pickUnit g ms ((partArrs s nd.part).filter (arrFree s)) = some chs) :
    ∃ nt, nodeOf (placeNode s id [] nd.gangs).1 id = some nt ∧ nt.st = .placed ∧ nt.placedAt = s.now ∧
      (∀ m ∈ ms, IsPlaced nt m) ∧ (placeNode s id [] nd.gangs).1.mem = s.mem ∧
      (nd.gangs = [g] → (placeNode s id [] nd.gangs).1 = unitPlaced (placeUnit s id ms chs) id g ms) := by
  rw [← openArrs_nil] at hpick
  obtain ⟨pre, post, hgs, hplace⟩ := placeNode_of_next hn hpick nd.gangs hnext
  obtain ⟨nu, hnu, hst', hall⟩ := placed_placeUnit (ms := ms) hn (length_pickUnit hmod hpick)
  obtain ⟨group, hnp⟩ := nodeOf_unitPlaced hnu g ms
  have henter : enterPlaced (placeUnit s id ms chs).now { nu with group := group } =
      { nu with group := group, st := .placed, placedAt := (placeUnit s id ms chs).now } :=
    if_pos (hst'.trans hst)
  rw [henter] at hnp
  have hunit := (placesMembers_placeUnit id s ms chs).gangs.trans (placesGangs_unitPlaced id _ g ms)
  have hrest := placesGangs_placeNode id [] post (unitPlaced (placeUnit s id ms chs) id g ms)
  obtain ⟨nt, hnt, hntst, hat, hlogs⟩ := hrest.node _ hnp rfl
  rw [hplace]
  refine ⟨nt, hnt, hntst, hat.trans (placesMembers_placeUnit id s ms chs).now, fun m hm => hlogs m (hall m hm),
    hrest.mem.trans hunit.mem, fun hg => ?_⟩
  have hpost : post = [] := by
    rw [hg] at hgs
    cases pre with
    | nil => exact (List.cons.inj hgs).2.symm
    | cons x pre => simp at hgs
  rw [hpost]
  rfl

/-- A lone member on its array. -/
theorem arrOf_lone {s : State} {id : NodeId} {nd : NodeS} (hn : nodeOf s id = some nd) (g : Gang) (m a : Nat) :
    ∃ nd' tick x, arrOf (unitPlaced (placeUnit s id [m] [[(a, false)]]) id g [m]) a = placedArray x id nd' m tick := by
  obtain ⟨nu, hnu, -⟩ := (placesMembers_linkChain id s [(a, false)]).node nd hn
  obtain ⟨_, tick, -, -, -, -, -, -, -, harr⟩ := placeLogical_spec hnu m a
  exact ⟨nu, tick, _, (arrOf_modNode ..).trans harr⟩

/-- Settles O58: each event by its own lemma of this section. -/
theorem nodeLife : Obligations.NodeLife := by
  intro s nd id hn time
  refine ⟨exec_startTickReached_of_due hn, fun _ ⟨t, ht, h⟩ => exec_startTickReached_of_early hn ht h,
    exec_requeueComplete hn, ?_, ?_, ?_, ?_, exec_nodeDone_of_due hn, exec_nodeDone_of_undrained hn,
    fun _ hdue h => exec_nodeDone_of_egress hn hdue h⟩
  · intro g ms chs hst hpart hall hnext hmod free hpick
    obtain ⟨nt, hnt, hplaced, hat, hms, hmem, hlone⟩ := placeNode_places hn hst hnext hmod hpick
    refine ⟨_, nt, exec_nodePlacement_lone hall hn hst hnt hplaced, hmem, hnt, hplaced, hat, hms, ?_⟩
    intro m a rest hgangs hchain hm hfree
    rw [hlone hgangs]
    have hchs : chs = [[(a, false)]] := by
      rw [hm, hfree, pickUnit_lone hchain] at hpick
      exact (Option.some.inj hpick).symm
    obtain ⟨nd', tick, x, harr⟩ := arrOf_lone hn g m a
    rw [hm, hchs, harr]
    exact ⟨rfl, rfl, rfl⟩
  · intro u bs v pb w hst him hpar hw htodo
    have huv : SameBhs s v := by
      have h1 := (memAccess_readImage s id.1 nd).bhs
      have h2 := (memAccess_bcpRead u id.1 nd.params nd.pbytes).bhs
      rw [him] at h1
      rw [hpar] at h2
      exact h2.trans h1
    have hnode : nodeOf (startArrays v id nd (toStart nd) bs pb) id = some nd := by
      rw [SameBhs.nodeOf (sameBhs_startArrays ..), SameBhs.nodeOf huv]
      exact hn
    refine ⟨_, _, exec_nodeStart hn hst him hpar hw htodo, nodeOf_modNode hnode _, fun l hl hpl => ?_, fun l hone => ?_⟩
    · exact started_startLogs (.inl (List.mem_map.mpr ⟨l, List.mem_filter.mpr ⟨hl, decide_eq_true hpl⟩, rfl⟩))
    · rw [arrOf_modNode, startArrays, toStart, hone]
      exact ⟨arrOf_start_fresh, fun c hc hmode => arrOf_start_restored hc hmode⟩
  · intro p hnode hp hcond hpos hdue hst hms hsteps
    subst hp
    have hrun := nodeOf_setNode_same s id { nd with st := .running }
    refine ⟨_, groupTimes s.now (startGroups (setNode s id { nd with st := .running }) id { nd with st := .running }
      (domainArrs s s.cur.phys)) nd.groupAt, exec_arrayTickStart hnode hn hcond hpos hdue hst hms hsteps, ?_,
      tabFind_groupTimes _ _ _, fun hslice => ?_, ?_, fun q hq => ?_⟩
    · rw [mem_runAll]
      exact modNode_mem ..
    · have hnone : startGroups (setNode s id { nd with st := .running }) id { nd with st := .running }
          (domainArrs s s.cur.phys) = [] := List.filter_eq_nil_iff.mpr fun h hh hc =>
        Bool.false_ne_true ((hslice h hh).symm.trans (Bool.and_eq_true_iff.mp hc).1)
      rw [hnone]
      rfl
    · rw [SameBhs.nodeOf (sameBhs_runAll ..)]
      exact nodeOf_groupStart hrun _
    · rw [arrOf_runAll hq, arrOf_groupStart]
      rfl
  · intro hst hdue hdr h
    refine ⟨_, nodeEnded s id nd, { nd with st := .done, staged := 0, saved := [] }, exec_nodeDone hn hst hdue hdr h, ?_, rfl, fun a ha => ?_, semGet_nodeEnded s id nd nd.part,
      rfl⟩
    · rw [nodeOf_dropCopies, nodeOf_semAdded]
      exact nodeOf_nodeEnded ..
    · have hgiven := givenBack_nodeEnded nd ha
      rw [← arrOf_semAdded (nodeEnded s id nd) s.cur.bh nd.part nd.sem] at hgiven
      exact hgiven

end Sys2Proof.Machine

namespace Sys2Proof.Machine
open Sys2Proof

/-! ## Copies of a queue (R107) -/

/-- A queue's copy stored back. -/
abbrev copyPut (s : State) (b q i : Nat) (x : QCopy) : State :=
  modQueue s b q (fun y => { y with copies := tabSet y.copies i x })

/-- The source address of a queue copy's next byte. -/
abbrev copySrc (c : QCopy) : Nat := ((c.src : Int) + ((c.pos / c.row : Nat) : Int) * c.sp).toNat + c.pos % c.row

/-- The destination address of a queue copy's next byte. -/
abbrev copyDst (c : QCopy) : Nat := ((c.dst : Int) + ((c.pos / c.row : Nat) : Int) * c.dp).toNat + c.pos % c.row

/-- The bytes of a queue copy's next line: the rest of the row within one line of either side. -/
abbrev copyRun (c : QCopy) : Nat := min (c.row - c.pos % c.row) (min (64 - copyDst c % 64) (64 - copySrc c % 64))

/-- A line of a queue's copy, written whole and poisoned where its source is. -/
def copyMoved (s : State) (b : Nat) (d : Region) (doff n : Nat) (v : BytesVal) : State :=
  if v.bad || v.rev then (paLines doff n).foldl (fun u k => regWrite u b d (64 * k) (List.replicate 64 0) true) s
  else regWrite s b d doff v.bytes false

theorem queueCopyLine_eq {s : State} {b q i : Nat} {c : QCopy} (hc : tabFind (queueOf s b q).copies i = some c)
    (hstop : c.stop = none) (hpos : c.pos < c.rows * c.row) {dn doff sn soff : Nat} {d r : Region} :
    let p := (bhOf s b).part
    let own := 0x60 + (b - p)
    let s' := copyPut s b q i { c with sent := false }
    releaseWait s' p own none (copySrc c) = false → releaseWait s' p own none (copyDst c) = false →
    xlatePart s' p (copyDst c) (copyRun c) own .wr = .ok dn d doff →
    xlatePart s' p (copySrc c) (copyRun c) own .rd = .ok sn r soff →
    let v := regRead s' b r soff (copyRun c) none c.rc
    queueCopyLine s b q i = copyPut (copyMoved v.1 b d doff (copyRun c) v.2) b q i
      { c with sent := false, pos := c.pos + copyRun c, stop := none } := by
  intro p own s' hsa hda hdst hsrc v
  simp only [p, own, s', copyPut, copyRun, copyDst, copySrc, Int.natCast_ediv] at hsa hda hdst hsrc
  unfold queueCopyLine
  rw [hc]
  dsimp only
  rw [if_neg (by simp [hstop, hpos]), if_neg (by rw [hsa, hda]; exact Bool.false_ne_true), hdst]
  dsimp only
  rw [hsrc]
  rfl

theorem copyMoved_of_clean {v : BytesVal} (h : v.bad = false) (h' : v.rev = false) (s : State) (b : Nat) (d : Region)
    (doff n : Nat) : copyMoved s b d doff n v = regWrite s b d doff v.bytes false :=
  if_neg (by rw [h, h']; exact Bool.false_ne_true)

theorem copyMoved_of_bad {v : BytesVal} (h : v.bad = true ∨ v.rev = true) (s : State) (b : Nat) (d : Region)
    (doff n : Nat) : copyMoved s b d doff n v =
      (paLines doff n).foldl (fun u k => regWrite u b d (64 * k) (List.replicate 64 0) true) s :=
  if_pos (Bool.or_eq_true_iff.mpr h)

theorem exec_copyComplete_packet {b q : BitVec 4} {i : BitVec 3} {s : State} {c : QCopy}
    (hc : tabFind (queueOf s b.toNat q.toNat).copies i.toNat = some c) (hover : c.stop ≠ none ∨ c.rows * c.row ≤ c.pos) :
    exec (.copyComplete (.packet b q i)) s = .next (semAdded (modQueue s b.toNat q.toNat (fun x =>
      { x with copies := tabErase x.copies i.toNat
               late := if x.late.isSome then x.late
                 else c.stop.map (fun k => LateFault.mk k c.level c.at_ c.head) })) b.toNat (bhOf s b.toNat).part
      c.sem) := by
  have hgo : ¬ (c.stop.isNone && decide (c.pos < c.rows * c.row)) = true := fun h => by
    obtain ⟨hn, hlt⟩ := Bool.and_eq_true_iff.mp h
    rcases hover with h | h
    · exact h (Option.isNone_iff_eq_none.mp hn)
    · exact Nat.not_le.mpr (of_decide_eq_true hlt) h
  have hexec : exec (.copyComplete (.packet b q i)) s = execCopyComplete (.packet b q i) s := rfl
  rw [hexec, execCopyComplete]
  dsimp only
  rw [hc]
  dsimp only
  rw [if_neg hgo, semDone_eq_semAdded, part_modQueue]
  refine congrArg (fun u => Host.Outcome.next (semAdded u _ _ _)) (modQueue_congr _ _ _ ?_)
  cases (queueOf s b.toNat q.toNat).late <;> rfl

/-! ## Channels (R198, R200) -/

theorem modArr_modArr (s : State) (p : Nat) (f g : ArrayS → ArrayS) :
    modArr (modArr s p f) p g = modArr s p (fun a => g (f a)) := by
  rw [modArr, arrOf_modArr_same]
  exact congrArg (fun t => { s with arrs := t }) (tabSet_tabSet_same ..)

theorem onlyArr_modArr (s : State) (p : Nat) (f : ArrayS → ArrayS) : OnlyArr p s (modArr s p f) :=
  congrArg (setArr s p) (arrOf_modArr_same s p f).symm

/-- A step that leaves the channels of array `p` as they are. -/
def SameChans (p : Nat) (s t : State) : Prop := (arrOf t p).chans = (arrOf s p).chans

theorem sameChans_refl {p : Nat} (s : State) : SameChans p s s := rfl

theorem SameChans.trans {p : Nat} {s t u : State} (h : SameChans p s t) (g : SameChans p t u) : SameChans p s u :=
  Eq.trans g h

theorem sameChans_foldl {ι : Type} {p : Nat} {step : State → ι → State} (h : ∀ s i, SameChans p s (step s i)) (l : List ι)
    (s : State) : SameChans p s (l.foldl step s) := foldl_induct sameChans_refl .trans h l s

theorem MemAccess.sameChans {s t : State} (h : MemAccess s t) (p : Nat) : SameChans p s t := by
  obtain ⟨rc, e⟩ := h.arr p
  rw [SameChans, e]

theorem sameChans_modArr (s : State) (q p : Nat) {f : ArrayS → ArrayS} (h : ∀ a, (f a).chans = a.chans) :
    SameChans p s (modArr s q f) := by
  obtain rfl | hq := eq_or_ne p q
  · exact (congrArg ArrayS.chans (arrOf_modArr_same ..)).trans (h _)
  · exact congrArg ArrayS.chans (arrOf_modArr_ne _ _ hq)

theorem sameChans_rcUse (s : State) (q va p : Nat) : SameChans p s (rcUse s q va) := by
  unfold rcUse
  dsimp only
  split
  · exact sameChans_modArr s q p (f := fun a => { a with rcache := rcPut a.rcache _ _ }) (fun _ => rfl)
  · exact sameChans_refl s

theorem sameChans_chRead (s : State) (q : Nat) (t : BitVec 1024) (addr n p : Nat) :
    SameChans p s (chRead s q t addr n).1 := by
  unfold chRead
  dsimp only
  split
  · split
    · exact sameChans_rcUse ..
    · exact (sameChans_rcUse ..).trans ((memAccess_regRead ..).sameChans p)
  · exact sameChans_refl s
  · exact sameChans_refl s

theorem sameChans_unitRead (s : State) (q : Nat) (c : ChanS) (k p : Nat) : SameChans p s (unitRead s q c k).1 := by
  unfold unitRead
  dsimp only
  split
  · exact (sameChans_chRead ..).trans (sameChans_chRead ..)
  · exact sameChans_chRead ..

theorem tabGet_map_of_proj {α β : Type} (t : Tab α) (d : α) {f : Nat × α → Nat × α} (hk : ∀ x, (f x).1 = x.1)
    (g : α → β) (hg : ∀ x, g (f x).2 = g x.2) (k : Nat) : g (tabGet (t.map f) d k) = g (tabGet t d k) := by
  induction t with
  | nil => rfl
  | cons x t ih =>
    obtain ⟨j, v⟩ := x
    rw [List.map_cons, tabGet, tabGet, hk, apply_ite g, apply_ite g, hg, ih]

theorem sameChans_unreplay (s : State) (n : NodeId) (why p : Nat) : SameChans p s (unreplay s n why) := by
  unfold unreplay
  split
  · exact sameChans_refl s
  split
  · exact sameChans_refl s
  · refine tabGet_map_of_proj s.arrs {} (fun _ => ?_) ArrayS.chans (fun _ => ?_) p
    · rfl
    · rfl

theorem sameChans_noteWrite (s : State) (q num off n : Nat) (r : Region) (p : Nat) :
    SameChans p s (noteWrite s q num off n r) := by
  unfold noteWrite
  split
  · exact sameChans_refl s
  split
  · exact sameChans_refl s
  split
  · exact sameChans_refl s
  split
  · exact sameChans_unreplay ..
  split
  · exact sameChans_unreplay ..
  · exact sameChans_refl s

theorem egPut_chans (a : ArrayS) (key : Nat) (d : BitVec 512) (mask : W64) (pois : Bool) (num : Nat) (r : Region)
    (stage : Bool) (cls : Nat) : (egPut a key d mask pois num r stage cls).chans = a.chans := by
  unfold egPut
  split
  · rfl
  · rfl

theorem sameChans_arrWrite (s : State) (q num off : Nat) (r : Region) (bs : List Byte) (pois : Bool) (cls p : Nat) :
    SameChans p s (arrWrite s q num off r bs pois cls) := by
  unfold arrWrite
  dsimp only
  refine SameChans.trans (t := if savesHere s q off bs.length r then s else noteWrite s q num off bs.length r) ?_
    (sameChans_foldl (fun t l => sameChans_modArr t q p (fun a => egPut_chans ..)) _ _)
  split
  · exact sameChans_refl s
  · exact sameChans_noteWrite ..

theorem hArrive_chans (a : ArrayS) (h kind addr n : Nat) : (hArrive a h kind addr n).chans = a.chans := by
  unfold hArrive
  dsimp only
  split
  · rfl
  split
  · rfl
  · rfl

theorem asyCount_chans (p : Nat) (a : ArrayS) (w : AsyW) : (asyCount p a w).chans = a.chans := by
  unfold asyCount
  dsimp only
  split
  · rfl
  split
  · exact hArrive_chans ..
  split
  · exact hArrive_chans ..
  · rfl

theorem asyPut_chans (p : Nat) (a : ArrayS) (w : AsyW) : (asyPut p a w).chans = a.chans := by
  unfold asyPut
  dsimp only
  split
  · rfl
  · exact asyCount_chans ..

/-- Channel `ch` of array `p` stands with a template and a position. -/
def ChanAt (p ch : Nat) (t : BitVec 1024) (pos : Nat) (s : State) : Prop :=
  ∃ x, tabFind (arrOf s p).chans ch = some x ∧ x.pos = pos ∧ x.tmpl = t

theorem ChanAt.of_same {p ch : Nat} {t : BitVec 1024} {pos : Nat} {s u : State} (h : ChanAt p ch t pos s)
    (g : SameChans p s u) : ChanAt p ch t pos u := by
  obtain ⟨x, hx, e⟩ := h
  exact ⟨x, (congrArg (tabFind · ch) g).trans hx, e⟩

theorem tabFind_mapAt {α : Type} (t : Tab α) (k : Nat) (f : α → α) :
    tabFind (t.map (fun x => if x.1 = k then (x.1, f x.2) else x)) k = (tabFind t k).map f := by
  induction t with
  | nil => rfl
  | cons x t ih =>
    obtain ⟨j, v⟩ := x
    rw [List.map_cons]
    by_cases h : j = k
    · rw [if_pos h, tabFind, tabFind, if_pos h, if_pos h, Option.map_some]
    · rw [if_neg h, tabFind, tabFind, if_neg h, if_neg h, ih]

theorem tabFind_modChan (s : State) (p ch : Nat) (f : ChanS → ChanS) :
    tabFind (arrOf (modChan s p ch f) p).chans ch = (tabFind (arrOf s p).chans ch).map f :=
  (congrArg (fun a => tabFind a.chans ch) (arrOf_modArr_same ..)).trans (tabFind_mapAt ..)

theorem ChanAt.modChan {p ch : Nat} {t : BitVec 1024} {pos pos' : Nat} {s : State} (h : ChanAt p ch t pos s)
    {f : ChanS → ChanS} (hf : ∀ x, x.pos = pos → (f x).pos = pos' ∧ (f x).tmpl = x.tmpl) :
    ChanAt p ch t pos' (modChan s p ch f) := by
  obtain ⟨x, hx, hpos, ht⟩ := h
  obtain ⟨fpos, ft⟩ := hf x hpos
  exact ⟨f x, by rw [tabFind_modChan, hx]; rfl, fpos, ft.trans ht⟩

theorem ChanAt.chWrite {p ch : Nat} {t : BitVec 1024} {pos : Nat} {s : State} (h : ChanAt p ch t pos s)
    (w : BitVec 1024) (addr : Nat) (x : MkBytes) : ChanAt p ch t pos (chWrite s p ch w addr x) := by
  unfold Machine.chWrite
  dsimp only
  split
  · have hrc : ChanAt p ch t pos (rcUse s p addr) := h.of_same (sameChans_rcUse ..)
    split
    · exact (hrc.modChan (f := fun y => { y with stop := true }) fun _ hy => ⟨hy, rfl⟩).of_same
        (sameChans_modArr _ _ _ fun _ => rfl)
    split
    · exact hrc.of_same (sameChans_foldl (fun u l => sameChans_arrWrite ..) _ _)
    · exact hrc.of_same (sameChans_arrWrite ..)
  · exact h.of_same (sameChans_modArr _ _ _ fun a => asyPut_chans ..)
  · exact h.of_same (sameChans_modArr _ _ _ fun a => asyPut_chans ..)
  · refine h.of_same (sameChans_foldl (fun u l => ?_) _ _)
    split
    · split
      · exact sameChans_modArr _ _ _ fun a => asyPut_chans ..
      · exact sameChans_refl u
    · exact sameChans_refl u

/-- The source bytes of a channel's next line. -/
def chSource (s : State) (p : Nat) (c : ChanS) : State × MkBytes :=
  if chRun c = 1 then unitRead s p c c.pos
  else
    let i (n : Nat) : Nat := listGet (chIndex c.tmpl c.pos) 0 n
    chRead s p c.tmpl (chSrcRow c (i 1) (i 2) (i 3) (i 4) + i 0 * chUnit c.tmpl) (chRun c * chUnit c.tmpl)

/-- The marker behind the last line that a channel writes to memory. -/
def chMarked (s : State) (p ch : Nat) (c : ChanS) : State :=
  if chTotal c.tmpl ≤ c.pos + chRun c && tmDsp c.tmpl = 0 then
    modChan (setArr s p (placeMarker (arrOf s p)).2) p ch
      (fun x => { x with mark := some (placeMarker (arrOf s p)).1 })
  else s

theorem arrOf_modChan (s : State) (p ch : Nat) (f : ChanS → ChanS) (a : Nat) :
    ∃ chans, arrOf (modChan s p ch f) a = { arrOf s a with chans := chans } := by
  obtain rfl | ha := eq_or_ne a p
  · exact ⟨_, arrOf_modArr_same ..⟩
  · exact ⟨_, arrOf_modArr_ne _ _ ha⟩

theorem releaseWait_modChan (s : State) (p ch : Nat) (f : ChanS → ChanS) (q own : Nat) (phys : Option Nat) (va : Nat) :
    releaseWait (modChan s p ch f) q own phys va = releaseWait s q own phys va := by
  have hf (a : Nat) : (arrOf (modChan s p ch f) a).fifo = (arrOf s a).fifo := by
    obtain ⟨_, e⟩ := arrOf_modChan s p ch f a
    rw [e]
  have hr : regionAtVa (modChan s p ch f) q va = regionAtVa s q va := rfl
  rw [releaseWait, releaseWait, hr]
  cases regionAtVa s q va with
  | none => rfl
  | some x =>
    dsimp only
    rw [hf]
    rfl

section
variable {s : State} {p ch : Nat} {c : ChanS} (hc : tabFind (arrOf s p).chans ch = some c) (hstop : c.stop = false)
  (hpos : c.pos < chTotal c.tmpl) (heg : tmDsp c.tmpl = 0 → egFull (arrOf s p) = false)
  (hfence : chFenced (arrOf s p) c = false)
  (hwait : ∀ va ∈ chMemVa { c with sent := false },
    releaseWait s (partOfArr s p) (arrOf s p).logical (some p) va = false)
include hc hstop hpos heg hfence hwait

theorem channelLine_eq :
    let s' := modChan s p ch (fun x => { x with sent := false })
    let v := chSource s' p { c with sent := false }
    channelLine s p ch = chMarked (chWrite (modChan v.1 p ch (fun x => { x with pos := c.pos + chRun c })) p ch c.tmpl
      (chDst c c.pos) v.2) p ch c := by
  intro s' v
  obtain ⟨chans, ha⟩ : ∃ chans, arrOf s' p = { arrOf s p with chans := chans } := arrOf_modChan ..
  have hany : (chMemVa { c with sent := false }).any
      (releaseWait s' (partOfArr s' p) (arrOf s' p).logical (some p)) = false := by
    refine List.any_eq_false.mpr fun va hva => ?_
    rw [releaseWait_modChan, ha]
    exact Bool.eq_false_iff.mp (hwait va hva)
  have hfull : (decide (tmDsp c.tmpl = 0) && egFull (arrOf s' p)) = false := by
    rw [ha]
    by_cases h : tmDsp c.tmpl = 0
    · rw [show egFull { arrOf s p with chans := chans } = false from heg h, Bool.and_false]
    · rw [decide_eq_false h, Bool.false_and]
  have hfenced : chFenced (arrOf s' p) { c with sent := false } = false := by
    rw [ha]
    exact hfence
  have hgo : (c.stop || decide (chTotal c.tmpl ≤ c.pos) || (decide (tmDsp c.tmpl = 0) && egFull (arrOf s' p)) ||
      chFenced (arrOf s' p) { c with sent := false } || (chMemVa { c with sent := false }).any
      (releaseWait s' (partOfArr s' p) (arrOf s' p).logical (some p))) = false := by
    rw [hfull, hfenced, hany, hstop, decide_eq_false (Nat.not_le.mpr hpos)]
    rfl
  unfold channelLine
  rw [hc]
  exact if_neg (Bool.eq_false_iff.mp hgo)

theorem chanAt_channelLine : ChanAt p ch c.tmpl (c.pos + chRun c) (channelLine s p ch) := by
  rw [channelLine_eq hc hstop hpos heg hfence hwait]
  have hat : ChanAt p ch c.tmpl c.pos s := ⟨c, hc, rfl, rfl⟩
  have hread : ChanAt p ch c.tmpl c.pos
      (chSource (modChan s p ch (fun x => { x with sent := false })) p { c with sent := false }).1 := by
    refine (hat.modChan (f := fun x => { x with sent := false }) fun _ hx => ⟨hx, rfl⟩).of_same ?_
    unfold chSource
    split
    · exact sameChans_unitRead ..
    · exact sameChans_chRead ..
  have hwritten := (hread.modChan (f := fun x => { x with pos := c.pos + chRun c }) fun _ _ => ⟨rfl, rfl⟩).chWrite
    c.tmpl (chDst c c.pos)
    (chSource (modChan s p ch (fun x => { x with sent := false })) p { c with sent := false }).2
  unfold chMarked
  split
  · refine ChanAt.modChan (hwritten.of_same ?_) fun _ hx => ⟨hx, rfl⟩
    exact sameChans_modArr _ _ _ (f := fun a => (placeMarker a).2) fun _ => rfl
  · exact hwritten
end

/-- The bytes that a scratchpad copy sends to an asynchronous port. -/
def spadPiece (s : State) (p ch : Nat) (c : ChanS) : AsyW :=
  let i (n : Nat) : Nat := listGet (chIndex c.tmpl c.pos) 0 n
  let src := chSrcRow c (i 1) (i 2) (i 3) (i 4) + i 0 * chUnit c.tmpl
  let n := chRun c * chUnit c.tmpl
  { os := false, addr := chDst c c.pos, src := (p, ch), hnd := 0xFF
    bytes := (List.range n).map (fun j => memGet (arrOf s p).spad (src + j))
    marks := (List.range n).map (fun j => tabGet (arrOf s p).spMk false ((src + j) / 4))
    go := !(arrOf s p).asyUsed.contains (chDst c c.pos / 64 % 32) }

theorem asyPut_of_noHandle (p : Nat) (a : ArrayS) {w : AsyW} (hos : w.os = false) (hh : w.hnd = 0xFF) :
    (asyPut p a w).spad = a.spad ∧
    (asyPut p a w).asy = a.asy ++ [{ w with go := !a.asyUsed.contains (w.addr / 64 % 32) }] := by
  unfold asyPut
  dsimp only
  rw [hos, Bool.not_false, Bool.true_and]
  split
  · next h => rw [h]; exact ⟨rfl, rfl⟩
  · next h =>
    rw [asyCount, if_pos hh, Bool.eq_false_iff.mpr h]
    exact ⟨rfl, rfl⟩

theorem chSource_spad {s : State} {p : Nat} {c : ChanS} (hs : tmSsp c.tmpl = 1) (he : tmEsz c.tmpl ≠ 0) (ch : Nat) :
    chSource s p c = (s, (spadPiece s p ch c).bytes, (spadPiece s p ch c).marks) := by
  have hread (addr n : Nat) : chRead s p c.tmpl addr n =
      (s, (List.range n).map (fun j => memGet (arrOf s p).spad (addr + j)),
        (List.range n).map (fun j => tabGet (arrOf s p).spMk false ((addr + j) / 4))) := by
    unfold chRead
    rw [hs]
    dsimp only
    rw [memNat, leBytes_leNat _ (le_of_eq (length_memBytes ..)), length_memBytes, Nat.sub_self]
    exact congrArg (fun l => (s, l, _)) (List.append_nil _)
  unfold chSource
  split
  · next h =>
    rw [unitRead]
    dsimp only
    rw [if_neg (by rw [decide_eq_false he, Bool.false_and]; exact Bool.false_ne_true), hread, spadPiece, h, Nat.one_mul]
  · exact hread ..

theorem chWrite_spad (s : State) (p ch : Nat) {t : BitVec 1024} (hd : tmDsp t = 1) (addr : Nat) (x : MkBytes) :
    chWrite s p ch t addr x = modArr s p (fun a => asyPut p a
      { os := false, addr := addr, bytes := x.1, marks := x.2, src := (p, ch), hnd := tmHnd t, go := false }) := by
  simp only [chWrite, hd]

theorem spadPiece_modChan (s : State) (p ch : Nat) (f : ChanS → ChanS) (k : Nat) (c : ChanS) :
    spadPiece (modChan s p ch f) p k c = spadPiece s p k c := by
  obtain ⟨chans, e⟩ := arrOf_modChan s p ch f p
  rw [spadPiece, e]
  rfl

theorem channelLine_spad {s : State} {p ch : Nat} {c : ChanS} (hc : tabFind (arrOf s p).chans ch = some c)
    (hstop : c.stop = false) (hpos : c.pos < chTotal c.tmpl) (hs : tmSsp c.tmpl = 1) (hd : tmDsp c.tmpl = 1)
    (hh : tmHnd c.tmpl = 0xFF) (he : tmEsz c.tmpl ≠ 0) :
    OnlyArr p s (channelLine s p ch) ∧ (arrOf (channelLine s p ch) p).spad = (arrOf s p).spad ∧
    (arrOf (channelLine s p ch) p).asy = (arrOf s p).asy ++ [spadPiece s p ch c] := by
  have hd0 : tmDsp c.tmpl ≠ 0 := by rw [hd]; exact Nat.one_ne_zero
  have hfence : chFenced (arrOf s p) c = false := by
    rw [chFenced, hs]
    rfl
  have hmem : chMemVa { c with sent := false } = [] := by
    rw [chMemVa, if_neg hd0, if_neg (by rw [hs]; exact Nat.one_ne_zero)]
    rfl
  have hline := channelLine_eq hc hstop hpos (fun h => absurd h hd0) hfence
    (fun va hva => absurd hva (by rw [hmem]; exact List.not_mem_nil))
  dsimp only at hline
  rw [chSource_spad (c := { c with sent := false }) hs he ch, chMarked,
    if_neg (by rw [decide_eq_false hd0, Bool.and_false]; exact Bool.false_ne_true), chWrite_spad _ _ _ hd,
    hh, spadPiece_modChan] at hline
  rw [hline]
  refine ⟨?_, ?_⟩
  · rw [modChan, modChan, modArr_modArr, modArr_modArr]
    exact onlyArr_modArr ..
  · rw [arrOf_modArr_same]
    obtain ⟨chans, e⟩ := arrOf_modChan (modChan s p ch fun x => { x with sent := false }) p ch
      (fun x => { x with pos := c.pos + chRun c }) p
    obtain ⟨chans', e'⟩ := arrOf_modChan s p ch (fun x => { x with sent := false }) p
    rw [e, e']
    exact asyPut_of_noHandle p _ rfl rfl

/-- What a channel adds to its semaphore as it ends. -/
abbrev chanAdd (c : ChanS) : Option (W16 × W64) :=
  if c.stop = false ∧ c.nosem = false ∧ tmSem c.tmpl = true then
    some (tmName c.tmpl, BitVec.ofNat 64 (tmF c.tmpl 0x28 8)) else none

theorem channelComplete_eq {s : State} {p ch : Nat} {c : ChanS} (hc : tabFind (arrOf s p).chans ch = some c)
    (hdone : channelDone s p ch c = true) : channelComplete s p ch = semAdded
      (modArr s p (fun a => { a with chans := tabErase a.chans ch })) (bhOfArr p) (partOfArr s p) (chanAdd c) := by
  unfold channelComplete
  rw [hc]
  dsimp only
  rw [hdone, if_neg (by decide)]
  by_cases h : c.stop = false ∧ c.nosem = false ∧ tmSem c.tmpl = true
  · rw [chanAdd, if_pos h]
    obtain ⟨hstop, hsem, ht⟩ := h
    exact if_neg (by rw [hstop, hsem, ht]; decide)
  · rw [chanAdd, if_neg h]
    refine if_pos (by_contra fun hn => h ?_)
    obtain ⟨hsn, ht⟩ := Bool.or_eq_false_iff.mp (Bool.eq_false_iff.mpr hn)
    obtain ⟨hstop, hsem⟩ := Bool.or_eq_false_iff.mp hsn
    exact ⟨hstop, hsem, by simpa using ht⟩

end Sys2Proof.Machine

namespace Sys2Proof.Machine
open Sys2Proof

/-! ## Semaphore operations over the torus (R113, R301) -/

section
variable {s : State} {p : Nat} {o : SemOp} {rest : List (Nat × SemOp)}

/-- The answer to an operation of array `p` that came over the torus, where it wants one. -/
def arrivalAnswered (s : State) (p : Nat) (o : SemOp) (t : State) (reg : Nat) (v : W64) : State :=
  if o.mute then t
  else netSend t 1 (cmdRouter s.cur.bh) (arrRouter p (cmdRouter s.cur.bh).2.1) s.cur.bh
    (.value p o.ep { reg := reg, v := v, mark := none, at_ := max (arrOf s p).ac (o.at_ + 20) })

variable (h : (bhOf s s.cur.bh).semArr = (p, o) :: rest)
include h

theorem exec_semaphoreRemoteArrival (hk : o.kind ≠ .wait) :
    let u := modBh s s.cur.bh (fun x => { x with semArr := rest })
    let x := semPerform u p o (max (arrOf s p).ac (o.at_ + 20))
    exec .semaphoreRemoteArrival s = .next (if o.mute then x.1
      else netSend x.1 1 (cmdRouter s.cur.bh) (arrRouter p (cmdRouter s.cur.bh).2.1) s.cur.bh (.value p o.ep x.2)) := by
  refine congrArg Host.Outcome.next ?_
  dsimp only
  rw [h]
  exact if_neg hk

theorem exec_semaphoreRemoteArrival_add (hk : o.kind = .add) :
    let u := modBh s s.cur.bh (fun x => { x with semArr := rest })
    exec .semaphoreRemoteArrival s = .next (arrivalAnswered s p o
      (semPut u (partOfArr u p) o.name (semGet u (partOfArr u p) o.name + o.v)) 0 0) := by
  refine (exec_semaphoreRemoteArrival h (by rw [hk]; decide)).trans ?_
  simp only [semPerform, hk]
  rfl

theorem exec_semaphoreRemoteArrival_set (hk : o.kind = .set) :
    let u := modBh s s.cur.bh (fun x => { x with semArr := rest })
    exec .semaphoreRemoteArrival s = .next (arrivalAnswered s p o (semPut u (partOfArr u p) o.name o.v) 0 0) := by
  refine (exec_semaphoreRemoteArrival h (by rw [hk]; decide)).trans ?_
  simp only [semPerform, hk]
  rfl

theorem exec_semaphoreRemoteArrival_read (hk : o.kind = .read) :
    let u := modBh s s.cur.bh (fun x => { x with semArr := rest })
    exec .semaphoreRemoteArrival s =
      .next (arrivalAnswered s p o u o.reg (semGet u (partOfArr u p) o.name)) := by
  refine (exec_semaphoreRemoteArrival h (by rw [hk]; decide)).trans ?_
  simp only [semPerform, hk]
  rfl

theorem exec_semaphoreRemoteArrival_wait (hk : o.kind = .wait) :
    let u := modBh s s.cur.bh (fun x => { x with semArr := rest })
    exec .semaphoreRemoteArrival s = .next (modBh u s.cur.bh (fun x => { x with
      semWaits := x.semWaits.filter (fun y => y.1 ≠ p && (arrOf s y.1).epoch = y.2.ep) ++ [(p, o)] })) := by
  refine congrArg Host.Outcome.next ?_
  dsimp only
  rw [h]
  exact if_pos hk
end

/-! ## Collectives (R55, R109, R114, R214, R312) -/

/-- A collective taken up by its engine. -/
abbrev collTaken (s : State) (i : Nat) (c : CollS) : State := setColl s s.cur.bh i { c with sent := false }

/-- What a collective does once its ring is over: it writes its destination, then its status. -/
def collPutStep (s : State) (b i : Nat) (c : CollS) : State :=
  match (collDest c)[c.put]? with
  | some (va, n) => collWrite s b i c va n
  | none => collFinish s b i c

section
variable {i : BitVec 16} {s : State} {c : CollS} (hc : collOf s s.cur.bh i.toNat = some c)
include hc

theorem exec_collectiveComplete_read (hw : c.wrote = false) (hr : c.ready = false) :
    exec (.collectiveComplete i) s =
      .next (collRead (collTaken s i.toNat c) s.cur.bh i.toNat { c with sent := false }) := by
  refine congrArg Host.Outcome.next ?_
  dsimp only
  rw [hc]
  exact (if_neg (Bool.eq_false_iff.mp hw)).trans (if_pos (by rw [hr]; rfl))

theorem exec_collectiveComplete_put (hw : c.wrote = false) (hr : c.ready = true)
    (hover : c.down = true ∨ ringDone c = true) :
    exec (.collectiveComplete i) s =
      .next (collPutStep (collTaken s i.toNat c) s.cur.bh i.toNat { c with sent := false }) := by
  have hgo : ¬ (!(c.down || ringDone c)) = true := by
    rw [Bool.or_eq_true_iff.mpr hover]
    decide
  refine congrArg Host.Outcome.next ?_
  dsimp only
  rw [hc]
  exact (if_neg (Bool.eq_false_iff.mp hw)).trans ((if_neg (by rw [hr]; decide)).trans (if_neg hgo))

theorem exec_collectiveComplete_end (hw : c.wrote = true)
    (hmark : ∀ a m, collArr s c = some a → c.mark = some m → FifoE.marker m ∉ (arrOf s a).fifo) :
    exec (.collectiveComplete i) s =
      .next (collEnd (collTaken s i.toNat c) s.cur.bh i.toNat { c with sent := false }) := by
  have harr : collArr (collTaken s i.toNat c) { c with sent := false } = collArr s c := rfl
  refine congrArg Host.Outcome.next ?_
  dsimp only
  rw [hc]
  refine (if_pos hw).trans ?_
  rw [harr]
  split
  · next a m ha hm =>
    have hpassed : markerPassed (arrOf s a) m = true := by simpa [markerPassed] using hmark a m ha hm
    exact if_pos hpassed
  · rfl
end

/-- An access of the engine that the fault domain and a window do not refuse. -/
abbrev DomainTakes (s : State) (r : Region) (off : Nat) : Prop :=
  r.win = true ∨ domainRefuses s ((r.pbase + off) / 64) r.slot = false

theorem DomainTakes.not_refused {s : State} {r : Region} {off : Nat} (h : DomainTakes s r off) :
    ¬ (!r.win && domainRefuses s ((r.pbase + off) / 64) r.slot) = true := by
  rcases h with h | h
  · rw [h]
    exact Bool.false_ne_true
  · rw [h, Bool.and_false]
    exact Bool.false_ne_true

/-- Bytes of a contribution without poison. -/
abbrev cleanBytes (v : BytesVal) (n : Nat) : List (Byte × Bool) := (List.range n).map (fun j => (listGet v.bytes 0 j, false))

theorem collLine_clean {s t : State} {b va n num off : Nat} {r : Region} {v : BytesVal}
    (hx : xlatePart s (partOfBh s b) va n (collOwner s b) .rd = .ok num r off) (hwhole : DomainTakes s r off)
    (hv : regRead s b r off n none 0 = (t, v)) (hrev : v.rev = false) (hmarks : ∀ j < n, listGet v.marks false j = false) :
    collLine s b none va n = (t, cleanBytes v n, 0, none) := by
  have hbs : (List.range n).map (fun j => (listGet v.bytes 0 j, v.rev || listGet v.marks false j)) = cleanBytes v n :=
    List.map_congr_left fun j hj => by
      rw [hrev, hmarks j (List.mem_range.mp hj)]
      rfl
  have hany : (cleanBytes v n).any (fun x => x.2) = false := by simp
  unfold collLine
  rw [hx]
  dsimp only
  rw [if_neg hwhole.not_refused, hv]
  simp only [Option.bind_none, Option.getD_none]
  exact Prod.ext rfl (Prod.ext hbs (Prod.ext ((if_neg (by rw [hrev]; exact Bool.false_ne_true)).trans
    (if_neg (by rw [hbs, hany]; exact Bool.false_ne_true))) rfl))

theorem lowCode_zero (x : Nat) : lowCode x 0 = x := by
  unfold lowCode
  split
  · next h => exact h.symm
  · rfl

section
variable {s t : State} {b i l va n : Nat} {c : CollS} {bs : List (Byte × Bool)} (hdown : c.down = false)
  (harr : collArr s c = none) (hp : (collPieces c.desc)[c.rd]? = some (l, va, n)) (hwait : engineWaits s b va n = false)
  (hline : collLine s b none va n = (t, bs, 0, none))
include hdown harr hp hwait hline

theorem collRead_eq : collRead s b i c =
    let c1 := { c with rd := c.rd + 1, parts := tabMod c.parts [] l (fun x => x ++ bs) }
    if (collPieces c.desc).length ≤ c.rd + 1 then collBegin t b i c1 else setColl t b i c1 := by
  have hpiece : (if c.down then none else (collPieces c.desc)[c.rd]?) = some (l, va, n) :=
    (if_neg (Bool.eq_false_iff.mp hdown)).trans hp
  unfold collRead
  rw [hpiece]
  dsimp only
  rw [if_neg (Bool.eq_false_iff.mp hwait), harr, hline]
  dsimp only
  rw [lowCode_zero, Option.isSome_none, Bool.or_false]
  generalize c.arr = arr
  cases arr with
  | none => rfl
  | some x =>
    obtain ⟨p, ep⟩ := x
    rfl
end

/-- What a partition's contributions add up to. -/
abbrev collSum (d : BitVec 512) (parts : Tab (List (Byte × Bool))) : List CWord :=
  collReduce (cdIn d) ((cdMask d).map (fun k => (k, collWords (cdIn d) (tabGet parts [] k))))

theorem collBegin_single (s : State) (b i : Nat) {c : CollS} (h : cdC c.desc = 1) : collBegin s b i c =
    setColl s b i { c with ready := true, parts := [], words := collSum c.desc c.parts
                           chunks := [(cdJ c.desc, collSum c.desc c.parts)] } := by
  have hone : (decide (cdC c.desc = 1) || decide (cdOp c.desc = 2)) = true := by
    rw [h]
    rfl
  unfold collBegin
  dsimp only
  rw [if_pos hone]
  exact if_pos (by rw [h]; exact Bool.or_true _)

section
variable {s : State} {b va num off : Nat} {bs : List (Byte × Bool)} {r : Region}
  (hx : xlatePart s (partOfBh s b) va bs.length (collOwner s b) .wr = .ok num r off) (hwhole : DomainTakes s r off)
include hx hwhole

theorem collPut_eq : collPut s b none va bs =
    (if bs.any (fun x => x.2) then regWrite s b r (off / 64 * 64) (List.replicate 64 0) true
      else regWrite s b r off (bs.map (fun x => x.1)) false, false) := by
  unfold collPut
  rw [hx]
  dsimp only
  rw [if_neg hwhole.not_refused]
  split
  · next h => rw [h]
  · next h => rw [Bool.eq_false_iff.mpr h]
end

/-- The bytes of a piece of a collective's destination. -/
abbrev collPiece (c : CollS) (va n : Nat) : List (Byte × Bool) := ((collBytes c).drop (va - cdF c.desc 0x18 8)).take n

theorem collWrite_eq {s t : State} {b va n : Nat} {c : CollS} (i : Nat) (hstall : collStall s b c va n = false)
    (harr : collArr s c = none) (hput : collPut s b none va (collPiece c va n) = (t, false)) :
    collWrite s b i c va n = setColl t b i { c with put := c.put + 1 } := by
  unfold collWrite
  rw [hstall, if_neg Bool.false_ne_true, harr]
  dsimp only
  rw [hput]
  dsimp only
  rw [Bool.or_false]

/-! The status word, and the end of a collective (R109, R114). -/

/-- The host port and the semaphores stand. -/
structure FileStands (s t : State) : Prop where
  port : t.port = s.port
  sem : ∀ p name, semGet t p name = semGet s p name

theorem FileStands.refl (s : State) : FileStands s s := ⟨rfl, fun _ _ => rfl⟩

theorem FileStands.trans {s t u : State} (h : FileStands s t) (g : FileStands t u) : FileStands s u :=
  ⟨g.port.trans h.port, fun p name => (g.sem p name).trans (h.sem p name)⟩

theorem MemAccess.fileStands {s t : State} (h : MemAccess s t) : FileStands s t :=
  ⟨h.port, SameBhs.semGet h.bhs⟩

theorem fileStands_unreplay (s : State) (n : NodeId) (why : Nat) : FileStands s (unreplay s n why) := by
  unfold unreplay
  split
  · exact .refl s
  split
  · exact .refl s
  · exact ⟨rfl, semGet_setNode s n _⟩

theorem fileStands_noteWrite (s : State) (p num off n : Nat) (r : Region) :
    FileStands s (noteWrite s p num off n r) := by
  unfold noteWrite
  split
  · exact .refl s
  split
  · exact .refl s
  split
  · exact .refl s
  split
  · exact fileStands_unreplay ..
  split
  · exact fileStands_unreplay ..
  · exact .refl s

theorem fileStands_arrWrite (s : State) (p num off : Nat) (r : Region) (bs : List Byte) (pois : Bool) (cls : Nat) :
    FileStands s (arrWrite s p num off r bs pois cls) := by
  unfold arrWrite
  dsimp only
  refine FileStands.trans (t := if savesHere s p off bs.length r then s else noteWrite s p num off bs.length r) ?_
    (foldl_induct .refl .trans (fun t l => ⟨rfl, fun _ _ => rfl⟩) _ _)
  split
  · exact .refl s
  · exact fileStands_noteWrite ..

theorem fileStands_collPut (s : State) (b : Nat) (arr : Option Nat) (va : Nat) (bs : List (Byte × Bool)) :
    FileStands s (collPut s b arr va bs).1 := by
  unfold collPut
  split
  · exact .refl s
  dsimp only
  split
  · exact .refl s
  cases arr with
  | some p => exact fileStands_arrWrite ..
  | none => exact (memAccess_regWrite ..).fileStands

theorem fileStands_collOutput (s : State) (b : Nat) (c : CollS) : FileStands s (collOutput s b c) := by
  unfold collOutput
  dsimp only
  split
  · exact .refl s
  · exact fileStands_collPut ..

theorem memAccess_collPut (s : State) (b va : Nat) (bs : List (Byte × Bool)) :
    MemAccess s (collPut s b none va bs).1 := by
  unfold collPut
  split
  · exact .refl s
  dsimp only
  split
  · exact .refl s
  · exact memAccess_regWrite ..

theorem memAccess_collOutput (s : State) (b : Nat) {c : CollS} (h : collArr s c = none) :
    MemAccess s (collOutput s b c) := by
  unfold collOutput
  dsimp only
  rw [h]
  split
  · exact .refl s
  · exact memAccess_collPut ..

end Sys2Proof.Machine

namespace Sys2Proof.Machine
open Sys2Proof

/-! ## The end of a collective (R109, R114) -/

/-- A collective leaves its engine. -/
abbrev collGone (s : State) (b i : Nat) : State := modBh s b (fun x => { x with colls := tabErase x.colls i })

theorem partOfBh_setColl (s : State) (b i : Nat) (c : CollS) : partOfBh (setColl s b i c) b = partOfBh s b := by
  rw [partOfBh, setColl, bhOf_modBh_same, partOfBh]

/-- An engine translates an address as its bulkhead did before it took the collective up. -/
theorem xlatePart_setColl (s : State) (b i : Nat) (c : CollS) (va n : Nat) (k : AccK) :
    xlatePart (setColl s b i c) (partOfBh (setColl s b i c) b) va n (collOwner (setColl s b i c) b) k =
      xlatePart (setColl s b i c) (partOfBh s b) va n (collOwner s b) k := by
  rw [collOwner, partOfBh_setColl, ← collOwner]

theorem semGet_setColl (s : State) (b i : Nat) (c : CollS) (p : Nat) (name : W16) :
    semGet (setColl s b i c) p name = semGet s p name :=
  semGet_modBh_of_sems s b (fun x => { x with colls := tabSet x.colls i c }) (fun _ => rfl) p name

theorem queueOf_collGone (s : State) (b i c q : Nat) : queueOf (collGone s b i) c q = queueOf s c q :=
  queueOf_modBh_of_queues s b (fun x => { x with colls := tabErase x.colls i }) (fun _ => rfl) c q

theorem collOf_collGone (s : State) (b i : Nat) : collOf (collGone s b i) b i = none := by
  rw [collOf, bhOf_modBh_same, tabFind_tabErase, if_pos rfl]

theorem collOf_modBh_of_colls (s : State) (b : Nat) (f : BhS → BhS) (h : ∀ x, (f x).colls = x.colls) (c i : Nat) :
    collOf (modBh s b f) c i = collOf s c i := by
  by_cases hc : c = b
  · rw [collOf, hc, bhOf_modBh_same, h, collOf]
  · rw [collOf, bhOf_modBh_ne _ _ hc, collOf]

theorem collOf_semAdded (s : State) (b p : Nat) (m : Option (W16 × W64)) (c i : Nat) :
    collOf (semAdded s b p m) c i = collOf s c i := by
  unfold semAdded
  split
  · unfold semSent netSend
    split
    · exact collOf_modBh_of_colls s _ (fun x => { x with sems := tabPut x.sems 0 _ _ }) (fun _ => rfl) c i
    split
    · exact collOf_modBh_of_colls s _ (fun y => { y with semArr := y.semArr ++ [_] }) (fun _ => rfl) c i
    · rfl
  · rfl

theorem queueOf_semAdded (s : State) (b p : Nat) (m : Option (W16 × W64)) (c q : Nat) :
    queueOf (semAdded s b p m) c q = queueOf s c q := by
  unfold semAdded
  split
  · exact queueOf_semSent ..
  · rfl

theorem port_semAdded (s : State) (b p : Nat) (m : Option (W16 × W64)) : (semAdded s b p m).port = s.port := by
  unfold semAdded
  split
  · unfold semSent netSend
    split
    · rfl
    split
    · rfl
    · rfl
  · rfl

theorem mem_semAdded (s : State) (b p : Nat) (m : Option (W16 × W64)) : (semAdded s b p m).mem = s.mem := by
  rw [← semDone_eq_semAdded, semDone_mem]

/-- Nothing but arrays, captured ones among them, has changed. -/
structure CollsStand (s t : State) : Prop where
  file : FileStands s t
  routers : t.routers = s.routers
  mem : t.mem = s.mem
  coll : ∀ b i, collOf t b i = collOf s b i

theorem CollsStand.refl (s : State) : CollsStand s s := ⟨.refl s, rfl, rfl, fun _ _ => rfl⟩

theorem collsStand_collLower (s : State) (p ep : Nat) : CollsStand s (collLower s p ep) := by
  unfold collLower
  dsimp only
  split
  · exact ⟨⟨rfl, fun _ _ => rfl⟩, rfl, rfl, fun _ _ => rfl⟩
  · refine ⟨⟨rfl, fun q name => ?_⟩, rfl, rfl, fun b i => ?_⟩
    · refine congrArg (tabGet · 0 (semPlace q name).2) ?_
      refine tabGet_map_of_proj s.bhs {} (fun _ => ?_) BhS.sems (fun _ => ?_) _
      · rfl
      · rfl
    · refine congrArg (tabFind · i) ?_
      refine tabGet_map_of_proj s.bhs {} (fun _ => ?_) BhS.colls (fun _ => ?_) _
      · rfl
      · rfl

theorem semDone_collGone (s : State) (b i : Nat) (m : Option (W16 × W64)) :
    semDone (collGone s b i) b (partOfBh (collGone s b i) b) m = semAdded (collGone s b i) b (partOfBh s b) m := by
  have hp : partOfBh (collGone s b i) b = partOfBh s b := by rw [partOfBh, bhOf_modBh_same, partOfBh]
  rw [hp, semDone_eq_semAdded]

/-- A collective that has left its engine, with its completion add and one collective fewer at its array. -/
def collLeft (s : State) (b i : Nat) (c : CollS) : State :=
  let t := semDone (collGone s b i) b (partOfBh (collGone s b i) b) c.sem
  match c.arr with
  | some (p, ep) => collLower t p ep
  | none => t

theorem collLeft_of_packet {s : State} {b i : Nat} {c : CollS} (h : c.arr = none) :
    collLeft s b i c = semAdded (collGone s b i) b (partOfBh s b) c.sem := by
  rw [← semDone_collGone, collLeft, h]

theorem collsStand_collLeft (s : State) (b i : Nat) (c : CollS) :
    CollsStand (semAdded (collGone s b i) b (partOfBh s b) c.sem) (collLeft s b i c) := by
  rw [← semDone_collGone]
  unfold collLeft
  dsimp only
  split
  · exact collsStand_collLower ..
  · exact .refl _

theorem collEnd_of_noQueue {s : State} {b i : Nat} {c : CollS} (h : c.q = none) :
    collEnd s b i c = collLeft s b i c := by
  rw [collEnd, h] <;> rfl

theorem collEnd_of_queue {s : State} {b i q : Nat} {c : CollS} (h : c.q = some q) :
    collEnd s b i c =
      if c.code = 0 then collLeft s b i c
      else pushNotif (collLeft s b i c) (queueOf (collLeft s b i c) b q).vf (collNotif (collLeft s b i c) b q c.code c) := by
  rw [collEnd, h] <;> rfl

/-- What the end of a collective does beyond its completion add touches arrays and the host port alone. -/
theorem collEnd_stands (s : State) (b i : Nat) (c : CollS) :
    let t := collEnd s b i c
    let v := semAdded (collGone s b i) b (partOfBh s b) c.sem
    collOf t b i = none ∧ t.routers = v.routers ∧ (∀ p name, semGet t p name = semGet v p name) ∧ t.mem = s.mem ∧
      (c.q = none → t.port = s.port) := by
  obtain ⟨⟨hport, hsem⟩, hrouters, hmem, hcoll⟩ := collsStand_collLeft s b i c
  have hleft : collOf (collLeft s b i c) b i = none := by rw [hcoll, collOf_semAdded, collOf_collGone]
  have hmem' : (collLeft s b i c).mem = s.mem := by
    rw [hmem, mem_semAdded]
    rfl
  dsimp only
  cases hq : c.q with
  | none =>
    rw [collEnd_of_noQueue hq]
    refine ⟨hleft, hrouters, hsem, hmem', fun _ => ?_⟩
    rw [hport, port_semAdded]
    rfl
  | some q =>
    have hq' : c.q ≠ none := by
      rw [hq]
      exact Option.some_ne_none q
    rw [collEnd_of_queue hq]
    split
    · exact ⟨hleft, hrouters, hsem, hmem', nofun⟩
    · exact ⟨hleft, hrouters, hsem, hmem', nofun⟩

section
variable {s : State} {b i : Nat} {c : CollS} (hheld : collHeld s b c = false)
include hheld

theorem collFinish_packet (harr : c.arr = none) : collFinish s b i c =
    collEnd (collOutput s b c) b i { c with wrote := true, code := collStatus c } := by
  have hnone : collArr s { c with wrote := true, code := collStatus c } = none := by
    rw [collArr, harr]
  unfold collFinish
  rw [hheld, if_neg Bool.false_ne_true]
  dsimp only
  rw [hnone]

theorem collFinish_array {a : Nat} (harr : collArr s c = some a) : collFinish s b i c =
    setColl (setArr (collOutput s b c) a (placeMarker (arrOf (collOutput s b c) a)).2) b i
      { c with wrote := true, code := collStatus c, mark := some (placeMarker (arrOf (collOutput s b c) a)).1 } := by
  have hsome : collArr s { c with wrote := true, code := collStatus c } = some a := harr
  unfold collFinish
  rw [hheld, if_neg Bool.false_ne_true]
  dsimp only
  rw [hsome]
end

end Sys2Proof.Machine

namespace Sys2Proof.Machine
open Sys2Proof

/-! ## Copies, collectives and remote semaphore operations (R107, R109, R113, R200) -/

section
variable {i : BitVec 16} {s : State} {c : CollS} (hc : collOf s s.cur.bh i.toNat = some c)
include hc

theorem exec_collectiveComplete_write {va n : Nat} {t : State} (hw : c.wrote = false) (hr : c.ready = true)
    (hring : ringDone c = true) (harr : collArr s c = none) (hput : (collDest c)[c.put]? = some (va, n))
    (hstall : collStall (collTaken s i.toNat c) s.cur.bh { c with sent := false } va n = false)
    (ht : collPut (collTaken s i.toNat c) s.cur.bh none va (collPiece c va n) = (t, false)) :
    exec (.collectiveComplete i) s =
      .next (setColl t s.cur.bh i.toNat { c with sent := false, put := c.put + 1 }) := by
  have hput' : (collDest { c with sent := false })[c.put]? = some (va, n) := hput
  rw [exec_collectiveComplete_put hc hw hr (.inr hring), collPutStep, hput']
  exact congrArg Host.Outcome.next (collWrite_eq i.toNat (c := { c with sent := false }) hstall harr ht)

theorem exec_collectiveComplete_finish (hw : c.wrote = false) (hr : c.ready = true)
    (hover : c.down = true ∨ ringDone c = true ∧ (collDest c)[c.put]? = none) :
    exec (.collectiveComplete i) s =
      .next (collFinish (collTaken s i.toNat c) s.cur.bh i.toNat { c with sent := false }) := by
  have hput : (collDest { c with sent := false })[c.put]? = none := by
    rcases hover with h | ⟨_, h⟩
    · rw [collDest, if_pos h]
      rfl
    · exact h
  rw [exec_collectiveComplete_put hc hw hr (hover.imp_right And.left), collPutStep, hput]

/-- A collective whose status word is written. -/
abbrev collWritten (c : CollS) : CollS := { c with sent := false, wrote := true, code := collStatus c }

theorem exec_collectiveComplete_packetEnd {q : Nat} (hw : c.wrote = false) (hr : c.ready = true)
    (hover : c.down = true ∨ ringDone c = true ∧ (collDest c)[c.put]? = none)
    (hheld : collHeld (collTaken s i.toNat c) s.cur.bh { c with sent := false } = false) (hq : c.q = some q)
    (harr : c.arr = none) :
    let b := s.cur.bh
    let t := semAdded (collGone (collOutput (collTaken s i.toNat c) b { c with sent := false }) b i.toNat) b
      (partOfBh s b) c.sem
    exec (.collectiveComplete i) s = .next (if collStatus c = 0 then t
      else pushNotif t (queueOf s b q).vf (collNotif t b q (collStatus c) (collWritten c))) := by
  intro b t
  have hout : MemAccess (collTaken s i.toNat c) (collOutput (collTaken s i.toNat c) b { c with sent := false }) :=
    memAccess_collOutput _ _ (by rw [collArr, harr])
  have hpart : partOfBh (collOutput (collTaken s i.toNat c) b { c with sent := false }) b = partOfBh s b := by
    rw [← partOfBh_setColl s b i.toNat { c with sent := false }, partOfBh, hout.bhOf, ← partOfBh]
  have hleft : collLeft (collOutput (collTaken s i.toNat c) b { c with sent := false }) b i.toNat (collWritten c) = t := by
    rw [collLeft_of_packet (c := collWritten c) harr, hpart]
  have hqueue : queueOf t b q = queueOf s b q := by
    rw [queueOf_semAdded, queueOf_collGone, hout.queueOf, queueOf_setColl]
  rw [exec_collectiveComplete_finish hc hw hr hover, collFinish_packet (c := { c with sent := false }) hheld harr]
  refine congrArg Host.Outcome.next ((collEnd_of_queue (c := collWritten c) hq).trans ?_)
  rw [hleft, hqueue]

theorem exec_collectiveComplete_marked {a : Nat} (hw : c.wrote = false) (hr : c.ready = true)
    (hover : c.down = true ∨ ringDone c = true ∧ (collDest c)[c.put]? = none)
    (hheld : collHeld (collTaken s i.toNat c) s.cur.bh { c with sent := false } = false)
    (harr : collArr s c = some a) :
    ∃ t x m, exec (.collectiveComplete i) s = .next t ∧ collOf t s.cur.bh i.toNat = some x ∧ x.wrote = true ∧
      x.mark = some m ∧ (arrOf t a).fifo.getLast? = some (.marker m) ∧ t.port = s.port ∧
      ∀ p name, semGet t p name = semGet s p name := by
  have hout := fileStands_collOutput (collTaken s i.toNat c) s.cur.bh { c with sent := false }
  refine ⟨_, _, _, (exec_collectiveComplete_finish hc hw hr hover).trans
    (congrArg Host.Outcome.next (collFinish_array (c := { c with sent := false }) hheld harr)), collOf_setColl .., rfl,
    rfl, ?_, hout.port, fun p name => ?_⟩
  · refine (congrArg (fun x : ArrayS => x.fifo.getLast?) (arrOf_setArr_same _ a _)).trans ?_
    exact List.getLast?_concat ..
  · rw [semGet_setColl]
    exact (hout.sem p name).trans (semGet_setColl ..)
end

/-- Settles O42: the copies by the equations of a packet's line and of a channel's line, the remote semaphore operations
by their kinds, and a collective by the event's case: a read, a write, the status word, or the end. -/
theorem copyEvents : Obligations.CopyEvents := by
  refine ⟨⟨?_, ?_, ?_⟩, ?_⟩
  · intro b q i s c hc id p own sa da n put s' step
    refine ⟨?_, exec_copyComplete_packet hc⟩
    intro dn d doff sn r soff hstop hpos hsa hda hdst hsrc v
    have hline := queueCopyLine_eq hc hstop hpos hsa hda hdst hsrc
    refine ⟨fun hbad hrev => congrArg Host.Outcome.next (hline.trans ?_),
      fun hbad => congrArg Host.Outcome.next (hline.trans ?_)⟩
    · rw [copyMoved_of_clean hbad hrev]
    · rw [copyMoved_of_bad hbad]
  · intro p ch s c hc id ix n src fenced
    refine ⟨fun hstop hpos heg hfence hwait => ?_, fun hstop hpos hs hd hh he => ?_, fun hdone => ?_⟩
    · obtain ⟨x, hx⟩ := chanAt_channelLine hc hstop hpos heg hfence hwait
      exact ⟨_, x, rfl, hx⟩
    · exact ⟨_, rfl, channelLine_spad hc hstop hpos hs hd hh he⟩
    · exact congrArg Host.Outcome.next (channelComplete_eq hc hdone)
  · intro s p o rest b h u answer done
    exact ⟨exec_semaphoreRemoteArrival_add h, exec_semaphoreRemoteArrival_set h, exec_semaphoreRemoteArrival_read h,
      exec_semaphoreRemoteArrival_wait h⟩
  · intro i s c b p d c' u gone whole hc
    refine ⟨?_, ?_, ?_, ?_⟩
    · intro l va n num r off hw hr hdown harr hp hwait hx hwhole v hrev hmarks parts
      have hread := (exec_collectiveComplete_read hc hw hr).trans (congrArg Host.Outcome.next
        (collRead_eq (c := c') hdown harr hp hwait (collLine_clean ((xlatePart_setColl ..).trans hx) hwhole rfl hrev hmarks)))
      refine ⟨fun hlt => hread.trans (congrArg Host.Outcome.next (if_neg (Nat.not_le.mpr hlt))), fun hlast hone => ?_⟩
      exact hread.trans (congrArg Host.Outcome.next ((if_pos (le_of_eq hlast.symm)).trans
        (collBegin_single _ _ _ hone)))
    · intro va n num r off hw hr hring hdown harr hput hstall bs hx hwhole
      exact exec_collectiveComplete_write hc hw hr hring harr hput hstall
        (collPut_eq ((xlatePart_setColl ..).trans hx) hwhole)
    · intro hw hr hover hheld
      refine ⟨fun q hq harr => ?_, fun a hq harr => ?_⟩
      · intro t
        have hend := exec_collectiveComplete_packetEnd hc hw hr hover hheld hq harr
        refine ⟨fun h => hend.trans (congrArg Host.Outcome.next (if_pos h)), fun h => ?_⟩
        exact ⟨_, hend.trans (congrArg Host.Outcome.next (if_neg h)), rfl, rfl, rfl, rfl, rfl⟩
      · obtain ⟨t, x, m, ht, hx, hwr, hm, hlast, hport, hsem⟩ :=
          exec_collectiveComplete_marked hc hw hr hover hheld harr
        exact ⟨t, x, m, ht, hx, hwr, hm, hlast, hport, hsem p⟩
    · intro hw hmark v
      obtain ⟨hcoll, hrouters, hsem, hmem, hport⟩ := collEnd_stands u b i.toNat c'
      rw [partOfBh_setColl] at hrouters hsem
      exact ⟨_, exec_collectiveComplete_end hc hw hmark, hcoll, hrouters, hsem p, hmem, hport⟩

end Sys2Proof.Machine
